-- ==== Sys2Proof/Word.lean ====
section
/-! DEFINITION. The word types of the LY-4: a lane register holds 64 bits (R73), memory is bytes (R6). -/

-- The package is compiled as one text: declarations are checked one after another, so that the compile keeps within its memory.
set_option Elab.async false

namespace Sys2Proof

/-- A 64-bit register value (R73). -/
abbrev Word := BitVec 64

/-- A byte of memory (R6). -/
abbrev Byte := BitVec 8

/-- The word that holds a natural number modulo 2^64. -/
abbrev wordOf (n : Nat) : Word := BitVec.ofNat 64 n

/-- The word that holds an integer modulo 2^64. -/
abbrev wordOfInt (z : Int) : Word := BitVec.ofInt 64 z

end Sys2Proof
end

