-- ==== Sys2Proof/Syntax.lean ====
section
/-! DEFINITION. The syntax of the LY-4: operands (R44), modifiers, and one constructor of Instr for each row of
spec/opcode_table.json, instructions and events alike. -/

namespace Sys2Proof

/-- An operand named by a specifier (R44); `none` is a field that the instruction does not use. -/
inductive Opnd where
  | none
  | v (n : Nat)        -- lane register
  | k (n : Nat)        -- uniform register; k0 reads 0
  | t (n : Nat)        -- temporary
  | eq (n : Nat)       -- queue register
  | x (n : Nat)        -- index register
  | p (n : Nat)        -- predicate
  | vx (n : Nat)       -- v[xn + IB] (R47)
  | imm (b : Byte)     -- inline immediate (R46)
  deriving DecidableEq, Repr

/-- A source operand with its wait bit and reuse hint (R40). -/
structure Src where
  op : Opnd
  w : Bool := false
  h : Bool := false
  deriving DecidableEq, Repr

/-- The guard G, GN (R48): `p = none` means always. -/
structure Guard where
  p : Option Nat
  neg : Bool
  deriving DecidableEq, Repr

/-- The operand fields shared by every format (R40, R41): guard, D, A, B, C and the index base. -/
structure Ops where
  g : Guard
  d : Opnd
  a : Src
  b : Src
  c : Src
  ib : Nat
  deriving DecidableEq, Repr

/-- The types of R109. -/
inductive Ty where
  | i64 | i32 | i16 | i8 | n64 | n32 | n16 | n8
  | i32x2 | i16x4 | i8x8 | n32x2 | n16x4 | n8x8
  | f64 | f32 | f16 | bf16 | f32x2 | f16x4 | bf16x4
  | e4m3 | e5m2 | e3m2 | e2m3 | e2m1
  | e4m3x8 | e5m2x8 | e3m2x8 | e2m3x8 | e2m1x16
  deriving DecidableEq, Repr

/-- The scopes of R20, narrowest first. -/
inductive Scope where
  | crs | team | core | col | clus | twr | dev | host | part | sys
  deriving DecidableEq, Repr

/-- Rounding modes (R111). -/
inductive RM where
  | rne | rz | ru | rd | rna
  deriving DecidableEq, Repr

/-- Integer compare conditions (R110). -/
inductive Cond where
  | eq | ne | lt | le | gt | ge
  deriving DecidableEq, Repr

/-- Float compare conditions (R141). -/
inductive FCond where
  | eq | ne | lt | le | gt | ge | ord | un
  deriving DecidableEq, Repr

/-- TYPE, RM and FTZ of a float instruction (R111). -/
structure FMod where
  ty : Ty
  rm : RM
  ftz : Bool
  deriving DecidableEq, Repr

/-- SIZE of the load-store group (R183). -/
inductive LSize where
  | n8 | n16 | n32 | n64 | i8 | i16 | i32
  deriving DecidableEq, Repr

/-- Operations of atom, latom, nred and fred (R189, R221, R233, R389). -/
inductive AOp where
  | add | and | or | xor | min | max | swap | cas | fadd | fmin | fmax
  deriving DecidableEq, Repr

/-- Combining operations of credc and cscan (R157). -/
inductive COp where
  | add | min | max | and | or | xor
  deriving DecidableEq, Repr

/-- ORD of atom and txe (R233). -/
structure Ord where
  acq : Bool
  rel : Bool
  deriving DecidableEq, Repr

/-- Modifiers of ld and ldk (R183): SIZE, acquire scope, CH, SPAN and OFF. -/
structure LdM where
  size : LSize
  acq : Option Scope
  ch : Nat
  span : Nat
  off : Int
  deriving DecidableEq, Repr

/-- Modifiers of st (R183). -/
structure StM where
  size : LSize
  rel : Option Scope
  strm : Bool
  off : Int
  deriving DecidableEq, Repr

/-- Modifiers of ldl, stl, ldr and str (R183). -/
structure LocM where
  size : LSize
  swz : Nat
  nw : Bool
  off : Int
  deriving DecidableEq, Repr

/-- Modifiers of latom (R189). -/
structure LatomM where
  op : AOp
  ty : Ty
  rem : Bool
  swz : Nat
  off : Int
  deriving DecidableEq, Repr

/-- The E field of slip and slipx (R255). -/
structure SlipE where
  pos : Nat      -- DIR 2: the target's gang position
  off : Nat      -- local offset, ring header, or offset within the B-store half
  isNew : Bool   -- DIR 3
  isLast : Bool  -- DIR 3
  deriving DecidableEq, Repr

/-- TGT of slipx (R254). -/
inductive XTgt where
  | mx8 | bf16 | e4m3
  deriving DecidableEq, Repr

/-- Modifiers of wloop (R295). -/
structure WloopM where
  tile : Nat
  tag : Nat
  zero : Bool
  bmx : Bool
  bfmt : Nat
  amx : Bool
  afmt : Nat
  deriving DecidableEq, Repr

/-- Modifiers of wdrain (R298). -/
structure WdrainM where
  tile : Nat
  tag : Nat
  scope : Scope
  clr : Bool
  nn : Nat
  mm : Nat
  tswz : Nat
  tsp : Bool
  tfmt : Nat
  dswz : Nat
  dsp : Bool
  dfmt : Nat
  deriving DecidableEq, Repr

/-- Coil semirings (R307). -/
inductive Semi where
  | addmul | maxadd | minadd | logadd | orand
  deriving DecidableEq, Repr

/-- Coil shapes (R309). -/
inductive Shape where
  | scalar | affine | full2 | tri3
  deriving DecidableEq, Repr

/-- A Coil operator (R307). -/
structure COperator where
  semi : Semi
  shape : Shape
  deriving DecidableEq, Repr

/-- Modifiers of cjob (R313). -/
structure CjobM where
  scope : Scope
  tag : Nat
  send : Bool
  cin : Nat      -- 0 identity, 1 CREG, 2 chain
  cm1 : Nat
  lm1 : Nat
  deriving DecidableEq, Repr

/-- Which acknowledgement of a write arrives (R208, R211, R212): acceptance by the near slice, the home ack, or the
last one (replica ack, host-port completion, peer acknowledgement, or the target unit of a remote-local access). -/
inductive Ack where
  | near | home | last
  deriving DecidableEq, Repr

/-- Under whose authority a launch store acts (R336). -/
inductive Auth where
  | supervisor
  | course (sup : Bool) (asid : Nat)
  deriving DecidableEq, Repr

/-- A write of the external host (R372). -/
inductive HostKind where
  | posted | relaxed | cxl
  deriving DecidableEq, Repr

/-- Why a quiesce starts (R393). -/
inductive QCause where
  | peerLoss (peer : Nat)
  | checkpoint
  | lostGroup
  deriving DecidableEq, Repr

/-- A request to the management endpoint (R407). -/
inductive Mgmt where
  | report (nonce : Nat)
  | read (col off : Nat)
  | write (col off : Nat) (val : Word)
  deriving DecidableEq, Repr

/-- One constructor for each row of spec/opcode_table.json. The instructions carry their decoded fields; the events
carry what names the thing they happen to, and what comes from outside the package. -/
inductive Instr where
  -- course engine
  | nop (o : Ops)
  | btl (o : Ops) (count : Nat) (yld : Bool)
  | suspensionRecordPush (col : Nat)
  | bra (o : Ops) (off : BitVec 32)
  | brx (o : Ops)
  | call (o : Ops) (off : BitVec 32)
  | callx (o : Ops)
  | ret (o : Ops)
  | exit (o : Ops)
  | trap (o : Ops) (code : Nat)
  | yield (o : Ops)
  | bar (o : Ops) (id : Nat)
  | pldr (o : Ops) (quad : Bool)
  | pand (o : Ops)
  | por (o : Ops)
  | pxor (o : Ops)
  | pandn (o : Ops)
  | pnot (o : Ops)
  | pmov (o : Ops)
  | voteAny (o : Ops) (seg : Nat)
  | voteAll (o : Ops) (seg : Nat)
  | voteBallot (o : Ops) (seg : Nat)
  | voteCount (o : Ops) (seg : Nat)
  | xset (o : Ops) (limit : Nat)
  | xadd (o : Ops)
  | qbind (o : Ops)
  | qstat (o : Ops)
  | srd (o : Ops) (num : Nat)
  | swr (o : Ops) (num : Nat)
  | tret (o : Ops)
  | sret (o : Ops)
  | csave (o : Ops)
  | cloadLd (o : Ops)
  | cloadRun (o : Ops)
  | cloadGo (o : Ops)
  | cloadEnd (o : Ops)
  -- lane ALU, integer
  | add (o : Ops) (ty : Ty) (sat : Bool)
  | sub (o : Ops) (ty : Ty) (sat : Bool)
  | mul (o : Ops) (ty : Ty) (sat : Bool)
  | mulh (o : Ops) (ty : Ty)
  | mad (o : Ops) (ty : Ty) (sat : Bool)
  | madw (o : Ops) (ty : Ty) (sat : Bool)
  | div (o : Ops) (ty : Ty) (sat : Bool)
  | rem (o : Ops) (ty : Ty)
  | min (o : Ops) (ty : Ty)
  | max (o : Ops) (ty : Ty)
  | abs (o : Ops) (ty : Ty) (sat : Bool)
  | neg (o : Ops) (ty : Ty) (sat : Bool)
  | and (o : Ops) (ty : Ty)
  | or (o : Ops) (ty : Ty)
  | xor (o : Ops) (ty : Ty)
  | not (o : Ops) (ty : Ty)
  | andn (o : Ops) (ty : Ty)
  | shl (o : Ops) (ty : Ty) (sat : Bool)
  | shr (o : Ops) (ty : Ty)
  | sra (o : Ops) (ty : Ty)
  | rot (o : Ops) (ty : Ty)
  | clz (o : Ops) (ty : Ty)
  | popc (o : Ops) (ty : Ty)
  | brev (o : Ops) (ty : Ty)
  | ctz (o : Ops) (ty : Ty)
  | bfx (o : Ops) (ty : Ty)
  | bfi (o : Ops) (ty : Ty) (pos len : Nat)
  | prmt (o : Ops)
  | sel (o : Ops) (ty : Ty)
  | cmp (o : Ops) (ty : Ty) (cond : Cond)
  | addc (o : Ops) (ty : Ty) (sub : Bool) (co : Option Nat)
  | lea (o : Ops) (sh : Nat) (sx : Bool)
  | mov (o : Ops)
  | ldiF96 (o : Ops) (ty : Ty) (imm : BitVec 32)
  | ldiF128 (o : Ops) (ty : Ty) (imm : Word)
  -- lane ALU, float
  | fadd (o : Ops) (m : FMod)
  | fsub (o : Ops) (m : FMod)
  | fmul (o : Ops) (m : FMod)
  | ffma (o : Ops) (m : FMod)
  | fmin (o : Ops) (m : FMod) (nan : Bool)
  | fmax (o : Ops) (m : FMod) (nan : Bool)
  | fcmp (o : Ops) (m : FMod) (cond : FCond)
  | fclass (o : Ops) (m : FMod)
  | frnd (o : Ops) (m : FMod) (nx : Bool)
  | fdiv (o : Ops) (m : FMod)
  | fsqrt (o : Ops) (m : FMod)
  | frcp (o : Ops) (m : FMod)
  | frsq (o : Ops) (m : FMod)
  | fex2 (o : Ops) (m : FMod)
  | flg2 (o : Ops) (m : FMod)
  | fsin (o : Ops) (m : FMod)
  | fcos (o : Ops) (m : FMod)
  | ftanh (o : Ops) (m : FMod)
  | fdot2 (o : Ops) (m : FMod)
  | fscal (o : Ops) (m : FMod)
  -- conversions
  | cvt (o : Ops) (dt st : Ty) (rm : RM)
  | cvtmxQ (o : Ops) (dt st : Ty) (rm : RM)
  | cvtmxD (o : Ops) (dt st : Ty) (rm : RM) (grp : Nat)
  | cvtmxS (o : Ops) (dt : Ty)
  | pk (o : Ops) (dt st : Ty) (rm : RM)
  | upk (o : Ops) (dt st : Ty) (hi : Bool)
  -- cross-lane
  | shfl (o : Ops) (mode seg : Nat)
  | qx (o : Ops) (mode : Nat)
  | qbc (o : Ops) (lane : Nat)
  | credc (o : Ops) (ty : Ty) (op : COp) (seg : Nat)
  | cscan (o : Ops) (ty : Ty) (op : COp) (seg : Nat) (excl : Bool)
  | matchx (o : Ops) (ty : Ty) (seg : Nat)
  -- load-store engine
  | ld (o : Ops) (m : LdM)
  | st (o : Ops) (m : StM)
  | ldl (o : Ops) (m : LocM)
  | stl (o : Ops) (m : LocM)
  | ldr (o : Ops) (m : LocM)
  | str (o : Ops) (m : LocM)
  | ldk (o : Ops) (m : LdM)
  | pf (o : Ops) (msc : Bool) (span : Nat) (off : Int)
  | latom (o : Ops) (m : LatomM)
  | lpresQ (o : Ops) (off : Int)
  | lpresClr (o : Ops) (off : Int)
  | lpresSet (o : Ops) (off : Int)
  | tlbi (o : Ops) (kind : Nat) (scope : Scope)
  | asgen (o : Ops)
  | translationWalkDone (col asid page : Nat)
  | generationRefusal (id : Nat)
  | loadDataLands (id : Nat)
  -- slice engine and ordering
  | fence (o : Ops) (acq rel sc : Bool) (scope : Scope)
  | cflush (o : Ops) (scope : Scope) (off : Int)
  | cwb (o : Ops) (scope : Scope) (off : Int)
  | cinv (o : Ops) (scope : Scope) (off : Int)
  | cspan (o : Ops) (scope : Scope) (span : Nat) (off : Int)
  | rangeOpAtSlice (id col : Nat)
  | sliceRead (id : Nat)
  | sliceWrite (id : Nat)
  | homeStreamWrite (home stream : Nat)
  | replicationSwitch (col region : Nat)
  | replicationCounterHalving (col : Nat)
  | replicaInvalidation (col : Nat)
  | nred (o : Ops) (op : AOp) (ty : Ty) (scope : Scope) (off : Int)
  | nredAtHome (id : Nat)
  | wwait (o : Ops) (tout : Nat) (off : Int)
  | waitEntryEnd (id : Nat)
  | waitDeadlineExpiry (id : Nat)
  | wwake (o : Ops)
  | mswin (o : Ops)
  -- service course
  | atom (o : Ops) (op : AOp) (ty : Ty) (ord : Ord) (scope : Scope) (off : Int)
  | atomAtOwner (id : Nat)
  | serviceReply (id : Nat)
  | txb (o : Ops)
  | txld (o : Ops) (off : Int)
  | txst (o : Ops) (off : Int)
  | txe (o : Ops) (ord : Ord) (scope : Scope) (pn : Nat)
  | txCommitAtOwner (id : Nat)
  | txa (o : Ops)
  | dalloc (o : Ops) (pn : Nat)
  | dfree (o : Ops)
  -- Slip
  | slipLd (o : Ops) (ring : Bool) (e : SlipE)
  | slipSt (o : Ops) (e : SlipE)
  | slipRl (o : Ops) (ring : Bool) (e : SlipE)
  | slipBs (o : Ops) (e : SlipE)
  | slipx (o : Ops) (bs ring : Bool) (tgt : XTgt) (e : SlipE)
  | slipc (o : Ops) (lb : Nat) (e : SlipE)
  | copyPieceLands (id piece : Nat)
  | copyComplete (id : Nat)
  | completionPortPush (id : Nat)
  | slipTranslationRewalk (id : Nat)
  | slipStallTimeout (id : Nat)
  | commandAbandon (id : Nat)
  | tlr (o : Ops) (addr : Bool)
  | rinit (o : Ops) (n : Nat)
  | rwait (o : Ops)
  | rwaitB (o : Ops)
  | rrel (o : Ops)
  | rrelB (o : Ops)
  | rstatRing (o : Ops)
  | rstatB (o : Ops)
  | rstatSt (o : Ops)
  | rstatStc (o : Ops)
  -- Wheel
  | wcfg (o : Ops)
  | wzero (o : Ops)
  | wloop (o : Ops) (m : WloopM)
  | wheelCommandStart (core : Nat)
  | wloopComplete (core : Nat)
  | wdrain (o : Ops) (m : WdrainM)
  | wdrainComplete (core : Nat)
  | waccRd (o : Ops)
  | waccWr (o : Ops)
  | wstat (o : Ops) (clr : Bool)
  -- Coil
  | cdef (o : Ops) (op : COperator) (tout : Nat)
  | cdefFree (o : Ops)
  | cjob (o : Ops) (m : CjobM)
  | cjobComplete (core : Nat)
  | carrySend (core : Nat)
  | carryArrive (core : Nat)
  | carryLimitExpiry (core : Nat)
  | cseal (o : Ops)
  | ccarLd (o : Ops) (scope : Scope) (loc : Bool)
  | ccarSt (o : Ops) (scope : Scope) (loc : Bool)
  | cstat (o : Ops) (clr : Bool)
  -- node dispatcher
  | nsig (o : Ops)
  | nwait (o : Ops)
  | nlaunch (o : Ops) (prio : Nat) (col : Bool)
  | launchStore (col prio : Nat) (val : Word) (auth : Auth) (flight : Option Nat)
  | dispatchRecord (col : Nat)
  | heldNodeEnterPool (col : Nat)
  | teamPlace (node : Nat)
  | splitReservation (node : Nat)
  | teamRetire (team : Nat)
  | nodeComplete (node : Nat)
  | priorityDrain (node : Nat)
  | drain (core : Nat)
  | drainLimitExpiry (core : Nat)
  | forcedSave (team : Nat)
  | restore (node team : Nat)
  | parkEviction (core : Nat)
  -- fabric port
  | gst (o : Ops) (size : LSize) (off : Int)
  | glazeStamp (group : Nat)
  | glazeApply (group : Nat)
  | glazeReplayRequest (group : Nat)
  | gwait (o : Ops) (tout : Nat)
  | gwaitTimeout (team crs : Nat)
  | gsn (o : Ops)
  | fred (o : Ops) (op : AOp) (ty : Ty) (off : Int)
  | fredComplete (group off : Nat)
  | fbar (o : Ops)
  | fbarEpisodeComplete (group : Nat)
  | fabricRequestAtPeer (id : Nat) (data : Word) (refused : Bool)
  | fabricTimerExpiry (id : Nat)
  | quiesceStop (cause : QCause)
  | quiesceDrain
  | quiesceReconfigure (lost : List Nat)
  | quiesceResume
  -- column cores, host, management
  | waitaddrWrite (col : Nat) (val : Word)
  | columnWaitEnd (col : Nat)
  | wakeWrite (col : Nat) (val : Word)
  | columnTaskHandoff (node : Nat)
  | taskqPop (col : Nat)
  | taskdoneWrite (col : Nat) (val : Word)
  | suspqPop (col : Nat)
  | migqPop
  | raslogPop (col : Nat)
  | hostNotification (node : Nat)
  | powerOnReset (failAt : Option (Nat × Nat))
  | storeAcknowledgement (id : Nat) (ack : Ack)
  | ccarComplete (core : Nat)
  | dallocAtServiceCourse (id : Nat)
  | dfreeAtOwner (id : Nat)
  | pwrnowRead
  -- what only the world outside hands in; these stand last, so that the compiled model never builds them
  | coneEvaluation (col temp : Nat) (droop : Bool)
  | powerManagerTick (avg : Nat)
  | drainreqWrite (col : Nat) (val : Word)
  | arenaWrite (col n : Nat) (hi : Bool) (val : Word)
  | pinmapWrite (n : Nat) (hi : Bool) (val : Word)
  | gwinWrite (g : Nat) (hi : Bool) (val : Word)
  | registerWrite (col off : Nat) (val : Word)
  | hostWrite (kind : HostKind) (pa size : Nat) (val : Word)
  | hostRead (pa size : Nat)
  | correctedError (col unit loc : Nat)
  | uncorrectableError (col unit loc : Nat)
  | measurementReport (nonce : Nat)
  | managementRequest (r : Mgmt)
  | deviceNumberSet (n : Nat)
  deriving DecidableEq, Repr

end Sys2Proof
end

