-- ==== Sys2Proof/Config.lean ====
section
/-! DEFINITION. What the spec leaves open: free values, opaque and without a body, each named in a log entry. -/

namespace Sys2Proof.Config

/-- Which of several events and issuing sequencers that are due goes first at a step (notes/assumptions/5). -/
opaque choose : Nat → Nat

/-- The cycles, none or more, that a step takes on the clock of a column (R9, R91; notes/assumptions/6). -/
opaque elapsed : Nat → Nat → Nat

/-- The binary32 result of a special function where R147 to R149 leave it open: function number and input bits
(notes/assumptions/7). -/
opaque special : Nat → BitVec 32 → BitVec 32

/-- Lp of R308 where its bound leaves it open (notes/assumptions/8). -/
opaque logP : BitVec 32 → BitVec 32

/-- A byte of a team's local memory that nothing has written since placement (R161; notes/assumptions/9): team serial and
physical offset. -/
opaque localByte : Nat → Nat → Byte

/-- A byte of a B store that nothing has written (R283; notes/assumptions/9): core and offset. -/
opaque bstoreByte : Nat → Nat → Byte

/-- A byte of a tower window that nothing has written since it became part of the window (R203, R204; notes/assumptions/9):
device-physical address. -/
opaque windowByte : Nat → Byte

/-- A byte of host memory that this device has not written (notes/assumptions/10): device-physical address and the access
that reads it. -/
opaque hostByte : Nat → Nat → Byte

/-- A free word for a use that is numbered by the state's counter `fresh` (notes/assumptions/28). -/
opaque freeWord : Nat → Word

/-- The block that a slice's spatial predictor picks around a granule (R195): region, granule, access
(notes/assumptions/18). -/
opaque predictor : Nat → Nat → Nat → Nat × Nat

/-- The set of a slice in which a region lies (R194; notes/assumptions/18). -/
opaque setOf : Nat → Nat

/-- Which block of a full set goes (R194, R197): tick, number of candidates (notes/assumptions/18). -/
opaque victim : Nat → Nat → Nat

/-- Whether a router merges a pending read into an older one that is served (R219; notes/assumptions/63): tick and read. -/
opaque merge : Nat → Nat → Bool

/-- Whether a request has reached the queue of its owner by the end of the step in which it is sent (R230;
notes/assumptions/69). -/
opaque arrives : Nat → Bool

/-- Where an allocator places a block (R245): among the free ranges that fit, by tick (notes/assumptions/19). -/
opaque allocChoice : Nat → Nat

/-- SHAKE256 of some bytes: of the manifest's key, of an image, of what a stage of bring-up loaded (R396, R398; notes/assumptions/22). -/
opaque digest : List Nat → Nat

/-- ML-DSA-65 verification: a public key, the bytes signed and a signature (R396; notes/assumptions/22). -/
opaque verify : List Nat → List Nat → List Nat → Bool

/-- The device identity key that stage 1 derives from the fused seed (R398; notes/assumptions/22). -/
opaque idKey : Nat → Nat

/-- The signature that a key puts under a report (R398; notes/assumptions/22). -/
opaque sign : Nat → List Nat → Nat

/-- Which register, temporary, uniform register or local word of a core stands at an offset of its core store: core and offset
(R402; notes/assumptions/12). -/
opaque coreWord : Nat → Nat → Nat

/-- Whether a column core's load is served by a read copy that it holds (R361; notes/assumptions/12): tick. -/
opaque copyHit : Nat → Bool

end Sys2Proof.Config
end

