-- ==== Sys2Proof/Machine/Bits.lean ====
section
/-! DEFINITION. Bit fields, sign extension, saturation and byte order (R5, R6, R14), and the sparse maps in which
State holds what is numbered. -/

namespace Sys2Proof.Machine

/-- The field of `n` bits of `x` that begins at bit `lo` (R5). -/
def fld (x lo n : Nat) : Nat := (x >>> lo) % 2 ^ n

/-- The field of a register (R5). -/
def wfld (x : Word) (lo n : Nat) : Nat := fld x.toNat lo n

/-- Bit `i` of a natural number. -/
def bitN (x i : Nat) : Bool := fld x i 1 == 1

/-- `x` with the field of `n` bits at `lo` replaced by `v`. -/
def setFld (x lo n v : Nat) : Nat :=
  x - (fld x lo n <<< lo) + ((v % 2 ^ n) <<< lo)

/-- Sext of R14: the `n`-bit pattern `v` as a two's-complement integer. -/
def sextN (n v : Nat) : Int :=
  let u := v % 2 ^ n
  if u < 2 ^ (n - 1) then (u : Int) else (u : Int) - ((2 ^ n : Nat) : Int)

/-- Trunc of R14, as a natural number. -/
def truncN (n : Nat) (z : Int) : Nat := (z % ((2 ^ n : Nat) : Int)).toNat

/-- Sat of R14. -/
def satI (z lo hi : Int) : Int := if z < lo then lo else if hi < z then hi else z

/-- Bool as a bit. -/
def bit (b : Bool) : Nat := if b then 1 else 0

/-- Least multiple of `m` that is at least `x`. -/
def roundUp (x m : Nat) : Nat := (x + m - 1) / m * m

/-- R160: bits [63:55] of a canonical address are all equal. -/
def canonical (x : Word) : Bool :=
  let h := wfld x 55 9
  h == 0 || h == 511

/-- Sext(x, 56) as a word: the canonical address with these low 56 bits. -/
def canon56 (x : Nat) : Word := wordOfInt (sextN 56 x)

/-- Little-endian value of a list of bytes (R6). -/
def leVal : List Byte → Nat
  | [] => 0
  | b :: bs => b.toNat + 256 * leVal bs

/-- The `n` bytes of a value, byte 0 first (R6). -/
def leBytes : Nat → Nat → List Byte
  | 0, _ => []
  | n + 1, x => BitVec.ofNat 8 x :: leBytes n (x / 256)

/-- Sparse tables: pairs of a number and what stands there, in rising order of the number. -/
def mapGet? {α : Type} (k : Nat) : List (Nat × α) → Option α
  | [] => none
  | (j, v) :: r => if j = k then some v else mapGet? k r

/-- What stands at `k`, or `d`. -/
def mapGet {α : Type} (d : α) (k : Nat) (m : List (Nat × α)) : α := (mapGet? k m).getD d

/-- The table with `v` at `k`, kept in rising order. -/
def mapPut {α : Type} (k : Nat) (v : α) : List (Nat × α) → List (Nat × α)
  | [] => [(k, v)]
  | (j, w) :: r => if j = k then (k, v) :: r else if k < j then (k, v) :: (j, w) :: r else (j, w) :: mapPut k v r

/-- The table without `k`. -/
def mapDel {α : Type} (k : Nat) (m : List (Nat × α)) : List (Nat × α) := m.filter (fun p => p.1 != k)

/-- The table with what stands at `k` (or `d`) changed by `f`. -/
def mapMod {α : Type} (d : α) (k : Nat) (f : α → α) (m : List (Nat × α)) : List (Nat × α) :=
  mapPut k (f (mapGet d k m)) m

/-- The `n` least significant bits set. -/
def ones (n : Nat) : Nat := 2 ^ n - 1

/-- The indices below `n` whose bit of `mask` is 1, ascending. -/
def bitList (n mask : Nat) : List Nat := (List.range n).filter (fun i => bitN mask i)

/-- The mask that holds a list of bit numbers below 64. -/
def maskOf (l : List Nat) : Nat := l.foldl (fun m i => m ||| 2 ^ i) 0

/-- Least element of a list of numbers. -/
def minNat? : List Nat → Option Nat
  | [] => none
  | x :: r => match minNat? r with
    | none => some x
    | some y => some (if x ≤ y then x else y)

/-- The element of a list for which `f` is least, the earliest among equals. -/
def minBy {α : Type} (f : α → Nat) : List α → Option α
  | [] => none
  | x :: r => match minBy f r with
    | none => some x
    | some y => some (if f x ≤ f y then x else y)

/-- Insertion of `x` into a list sorted by `f`, after the elements with an equal key. -/
def insertBy {α : Type} (f : α → Nat) (x : α) : List α → List α
  | [] => [x]
  | y :: r => if f x < f y then x :: y :: r else y :: insertBy f x r

/-- Stable sort by a numeric key. -/
def sortBy {α : Type} (f : α → Nat) (l : List α) : List α := l.foldl (fun acc x => insertBy f x acc) []

/-- Drop later repeats. -/
def dedupNat (l : List Nat) : List Nat :=
  l.foldl (fun acc x => if acc.contains x then acc else acc ++ [x]) []

/-- A test holds of every number of `n` bits. -/
def allBits : Nat → (Nat → Bool) → Bool
  | 0, p => p 0
  | n + 1, p => allBits n (fun x => p (2 * x)) && allBits n (fun x => p (2 * x + 1))

end Sys2Proof.Machine
end

