-- ==== Sys2Proof/Machine/Flags.lean ====
section
/-! DEFINITION. The float flags of FPSR (R121) and the parts of every float computation that raise them: formats
(R112, R113), exact values, rounding (R116), overflow (R117), tininess and flushing (R118). -/

namespace Sys2Proof.Machine

/-- FPSR bit NX (R121). -/
def fNX : Nat := 1
/-- FPSR bit UF. -/
def fUF : Nat := 2
/-- FPSR bit OF. -/
def fOF : Nat := 4
/-- FPSR bit DZ. -/
def fDZ : Nat := 8
/-- FPSR bit NV. -/
def fNV : Nat := 16

/-- A float format (R112, R113): widths of the exponent and fraction, the bias, the code of the largest finite
magnitude, and what stands above it. -/
structure Fmt where
  e : Nat
  t : Nat
  bias : Nat
  maxCode : Nat
  hasInf : Bool
  nan : Option Nat      -- canonical NaN
  sig : Bool            -- has signalling NaNs
  deriving DecidableEq, Repr

/-- binary64. -/
def fmtF64 : Fmt := ⟨11, 52, 1023, 0x7FEF_FFFF_FFFF_FFFF, true, some 0x7FF8_0000_0000_0000, true⟩
/-- binary32. -/
def fmtF32 : Fmt := ⟨8, 23, 127, 0x7F7F_FFFF, true, some 0x7FC0_0000, true⟩
/-- binary16. -/
def fmtF16 : Fmt := ⟨5, 10, 15, 0x7BFF, true, some 0x7E00, true⟩
/-- bfloat16. -/
def fmtBF16 : Fmt := ⟨8, 7, 127, 0x7F7F, true, some 0x7FC0, true⟩
/-- E4M3. -/
def fmtE4M3 : Fmt := ⟨4, 3, 7, 0x7E, false, some 0x7F, false⟩
/-- E5M2. -/
def fmtE5M2 : Fmt := ⟨5, 2, 15, 0x7B, true, some 0x7E, false⟩
/-- E3M2. -/
def fmtE3M2 : Fmt := ⟨3, 2, 3, 0x1F, false, none, false⟩
/-- E2M3. -/
def fmtE2M3 : Fmt := ⟨2, 3, 1, 0x1F, false, none, false⟩
/-- E2M1. -/
def fmtE2M1 : Fmt := ⟨2, 1, 1, 0x7, false, none, false⟩

/-- The element format of a float type (R109); binary64 for the others, which no float instruction accepts. -/
def tyFmt : Ty → Fmt
  | .f32 | .f32x2 => fmtF32
  | .f16 | .f16x4 => fmtF16
  | .bf16 | .bf16x4 => fmtBF16
  | .e4m3 | .e4m3x8 => fmtE4M3
  | .e5m2 | .e5m2x8 => fmtE5M2
  | .e3m2 | .e3m2x8 => fmtE3M2
  | .e2m3 | .e2m3x8 => fmtE2M3
  | .e2m1 | .e2m1x16 => fmtE2M1
  | _ => fmtF64

/-- The value of a float pattern: a NaN, an infinity, or (-1)^s * n * 2^x. -/
inductive FV where
  | nan (sig : Bool)
  | inf (s : Bool)
  | fin (s : Bool) (n : Nat) (x : Int)
  deriving DecidableEq, Repr

/-- Width of a format's pattern. -/
def fmtW (f : Fmt) : Nat := 1 + f.e + f.t

/-- The sign bit of a pattern. -/
def fmtSign (f : Fmt) (b : Nat) : Bool := bitN b (f.e + f.t)

/-- The magnitude code of a pattern: all bits below the sign. -/
def fmtMag (f : Fmt) (b : Nat) : Nat := b % 2 ^ (f.e + f.t)

/-- The code of infinity, or the least code above the finite ones. -/
def fmtInf (f : Fmt) : Nat := f.maxCode + 1

/-- The value of a magnitude code that is finite (R112). -/
def finMag (f : Fmt) (c : Nat) : Nat × Int :=
  let ex := c / 2 ^ f.t
  let fr := c % 2 ^ f.t
  if ex = 0 then (fr, 1 - (f.bias : Int) - (f.t : Int))
  else (2 ^ f.t + fr, (ex : Int) - (f.bias : Int) - (f.t : Int))

/-- The value of a pattern (R112, R113). -/
def unpackF (f : Fmt) (b : Nat) : FV :=
  let c := fmtMag f b
  let s := fmtSign f b
  if c ≤ f.maxCode then .fin s (finMag f c).1 (finMag f c).2
  else if f.hasInf && c == fmtInf f then .inf s
  else .nan (f.sig && !bitN c (f.t - 1))

/-- The value is a zero. -/
def FV.isZero : FV → Bool
  | .fin _ n _ => n == 0
  | _ => false

/-- The value is a NaN. -/
def FV.isNan : FV → Bool
  | .nan _ => true
  | _ => false

/-- The value is a signalling NaN. -/
def FV.isSig : FV → Bool
  | .nan s => s
  | _ => false

/-- The value is an infinity. -/
def FV.isInf : FV → Bool
  | .inf _ => true
  | _ => false

/-- The sign of a value; a NaN has none. -/
def FV.sign : FV → Bool
  | .nan _ => false
  | .inf s => s
  | .fin s _ _ => s

/-- The value with its sign inverted. -/
def FV.negate : FV → FV
  | .nan s => .nan s
  | .inf s => .inf (!s)
  | .fin s n x => .fin (!s) n x

/-- A source pattern with subnormals flushed when FTZ is set (R118). -/
def ftzSrc (f : Fmt) (ftz : Bool) (b : Nat) : Nat :=
  if ftz && fmtMag f b < 2 ^ f.t then b - fmtMag f b else b

/-- A result pattern with the flags that it raises. -/
abbrev FRes := Nat × Nat

/-- The pattern with sign `s` and magnitude code `c`. -/
def withSign (f : Fmt) (s : Bool) (c : Nat) : Nat := bit s * 2 ^ (f.e + f.t) + c

/-- A NaN result (R119): the canonical NaN, or +0 with NV where the format has none. -/
def nanRes (f : Fmt) (flags : Nat) : FRes :=
  match f.nan with
  | some c => (c, flags)
  | none => (0, flags ||| fNV)

/-- An infinite result from an infinite operand (R117, R125): saturating formats give the max finite with OF and NX. -/
def infRes (f : Fmt) (s : Bool) (flags : Nat) : FRes :=
  if f.hasInf then (withSign f s (fmtInf f), flags) else (withSign f s f.maxCode, flags ||| fOF ||| fNX)

/-- Result of an overflow (R117). -/
def ovfRes (f : Fmt) (rm : RM) (s : Bool) : FRes :=
  let toInf := match rm with
    | .rne => true
    | .rna => true
    | .rz => false
    | .ru => !s
    | .rd => s
  (withSign f s (if f.hasInf && toInf then fmtInf f else f.maxCode), fOF ||| fNX)

/-- Rounding of `n + r / d` units up to the next unit (R116): `r2` compares twice the remainder with the divisor. -/
def roundUpQ (rm : RM) (s : Bool) (n r d : Nat) : Bool :=
  match rm with
  | .rne => d < 2 * r || (2 * r == d && n % 2 == 1)
  | .rna => d ≤ 2 * r && r != 0
  | .rz => false
  | .ru => !s && r != 0
  | .rd => s && r != 0

/-- The binary exponent of a positive number. -/
def log2N (n : Nat) : Nat := Nat.log2 n

/-- Shift by a signed amount, as a fraction: numerator and denominator of `n * 2^x`. -/
def scaleQ (n : Nat) (x : Int) : Nat × Nat :=
  if 0 ≤ x then (n <<< x.toNat, 1) else (n, 1 <<< (-x).toNat)

/-- The unit in which a value with binary exponent `ev` is rounded: the exponent of its last place (R116). -/
def quantum (f : Fmt) (ev : Int) : Int :=
  let lo := 1 - (f.bias : Int) - (f.t : Int)
  if ev - (f.t : Int) < lo then lo else ev - (f.t : Int)

/-- Magnitude code of the nonzero value m * 2^x rounded to the format with unbounded exponent, and whether it is
inexact (R116). -/
def roundCode (f : Fmt) (rm : RM) (s : Bool) (m : Nat) (x : Int) : Nat × Bool :=
  let q := quantum f ((log2N m : Int) + x)
  let lo := 1 - (f.bias : Int) - (f.t : Int)
  let (num, den) := scaleQ m (x - q)
  let n := num / den
  let r := num % den
  let n' := if roundUpQ rm s n r den then n + 1 else n
  ((q - lo).toNat * 2 ^ f.t + n', r != 0)

/-- The value (-1)^s * m * 2^x, `sticky` when a positive amount below one unit was dropped from m, rounded to the format
with its flags (R116 to R118). A zero keeps the sign given. -/
def roundF (f : Fmt) (rm : RM) (ftz : Bool) (s : Bool) (m : Nat) (x : Int) (sticky : Bool := false) : FRes :=
  if m = 0 && !sticky then (withSign f s 0, 0)
  else
    let (c, inexact) := roundCode f rm s (2 * m + bit sticky) (x - 1)
    if f.maxCode < c then ovfRes f rm s
    else if c != 0 && c < 2 ^ f.t then
      (if ftz then (withSign f s 0, fUF ||| fNX)
       else (withSign f s c, if inexact then fUF ||| fNX else 0))
    else (withSign f s c, if inexact then fNX else 0)

/-- A signed dyadic as an integer in units of 2^x0, for x0 at most its exponent. -/
def dyInt (s : Bool) (n : Nat) (x x0 : Int) : Int :=
  let v : Int := (n <<< (x - x0).toNat : Nat)
  if s then -v else v

/-- Sum of finite terms, rounded once; the sign of a zero sum follows R120. That three zeros of one sign keep it is the model's choice
(notes/assumptions/81). -/
def sumF (f : Fmt) (rm : RM) (ftz : Bool) (terms : List (Bool × Nat × Int)) : FRes :=
  let x0 := terms.foldl (fun a t => if t.2.2 < a then t.2.2 else a) ((terms.head?.map (·.2.2)).getD 0)
  let z := terms.foldl (fun a t => a + dyInt t.1 t.2.1 t.2.2 x0) 0
  if z = 0 then
    let allZero := terms.all (fun t => t.2.1 == 0)
    let neg := allZero && terms.all (fun t => t.1)
    let pos := allZero && terms.all (fun t => !t.1)
    (withSign f (neg || (!pos && rm == .rd)) 0, 0)
  else roundF f rm ftz (decide (z < 0)) z.natAbs x0

/-- Order of two values that are no NaN: `a < b`; the zeros are equal here. -/
def ltF (a b : FV) : Bool :=
  match a, b with
  | .inf s, .inf t => s && !t
  | .inf s, .fin _ _ _ => s
  | .fin _ _ _, .inf t => !t
  | .fin s n x, .fin t m y =>
    let x0 := if x < y then x else y
    decide (dyInt s n x x0 < dyInt t m y x0)
  | _, _ => false

/-- Equality of two values that are no NaN; +0 equals -0. -/
def eqF (a b : FV) : Bool := !a.isNan && !b.isNan && !ltF a b && !ltF b a

/-- Integer square root by bits: the greatest r below 2^k with r * r at most n. -/
def isqrtBits : Nat → Nat → Nat
  | 0, _ => 0
  | k + 1, n =>
    let r := isqrtBits k (n / 4)
    if (2 * r + 1) * (2 * r + 1) ≤ n then 2 * r + 1 else 2 * r

/-- Integer square root. -/
def isqrt (n : Nat) : Nat := isqrtBits (Nat.log2 n / 2 + 1) n

/-- Rounding of (-1)^s * m * 2^x to an integral value, and whether it is inexact (R125). -/
def roundInt (rm : RM) (s : Bool) (m : Nat) (x : Int) : Int × Bool :=
  let (num, den) := scaleQ m x
  let n := num / den
  let r := num % den
  let n' := if roundUpQ rm s n r den then n + 1 else n
  (if s then -(n' : Int) else (n' : Int), r != 0)

end Sys2Proof.Machine
end

