-- ==== Sys2Proof/Machine/Special.lean ====
section
/-! DEFINITION. The real functions behind the special functions of R147 and Lp of R308, as fixed-point numbers with 320
fraction bits, and the test that a binary32 pattern lies within the error bound the spec gives. The approximations lie
far closer to the real values than any bound (notes/assumptions/7). -/

namespace Sys2Proof.Machine

/-- 1 as a fixed-point number. -/
def fxOne : Nat := 2 ^ 320

/-- 2 pi, cut to 320 fraction bits. -/
def fxTau : Nat := 0x6487ed5110b4611a62633145c06e0e68948127044533e63a0105df531d89cd9128a5043cc71a026ef

/-- The natural logarithm of 2, cut to 320 fraction bits. -/
def fxLn2 : Nat := 0xb17217f7d1cf79abc9e3b39803f2f6af40f343267298b62d8a0d175b8baafa2be7b876206debac98

/-- n * 2^x as a fixed-point number, cut. -/
def fxOf (n : Nat) (x : Int) : Nat := if 0 ≤ x + 320 then n <<< (x + 320).toNat else n >>> (-(x + 320)).toNat

/-- The terms t^k / k! from `k` on, `fuel` of them, `term` being the one before. -/
def fxExpSum (t : Nat) : Nat → Nat → Nat → Nat
  | 0, _, _ => 0
  | fuel + 1, k, term =>
    let u := term * t / fxOne / k
    u + fxExpSum t fuel (k + 1) u

/-- e^t for t below 1. -/
def fxExp (t : Nat) : Nat := fxOne + fxExpSum t 90 1 fxOne

/-- 2^a for a fixed-point number with its sign; 0 below 2^-1000, and 2^1000 above 2^1000. -/
def fxEx2 (s : Bool) (a : Nat) : Nat :=
  let i : Int := if s then -((a / fxOne : Nat) : Int) - 1 else ((a / fxOne : Nat) : Int)
  let f := if s then fxOne - a % fxOne else a % fxOne
  if i < -1000 then 0
  else if 1000 < i then fxOne <<< 1000
  else
    let v := fxExp (f * fxLn2 / fxOne)
    if 0 ≤ i then v <<< i.toNat else v >>> (-i).toNat

/-- The fraction bits of the binary logarithm of y, from 1 to 2, by repeated squaring; `acc` holds the bits found. -/
def fxLogBits : Nat → Nat → Nat → Nat
  | 0, _, acc => acc
  | fuel + 1, y, acc =>
    let z := y * y / 2 ^ 400
    if 2 ^ 401 ≤ z then fxLogBits fuel (z / 2) (2 * acc + 1) else fxLogBits fuel z (2 * acc)

/-- The binary logarithm of n * 2^x, for n not 0. -/
def fxLog2 (n : Nat) (x : Int) : Int :=
  let k := Nat.log2 n
  ((x + (k : Int)) * (fxOne : Int)) + (fxLogBits 320 ((n <<< 400) >>> k) 0 : Nat)

/-- The terms of the sine (from k = 2) or cosine (from k = 1) series after the term before, alternating. -/
def fxTrigSum (r : Nat) : Nat → Nat → Nat → Bool → Int
  | 0, _, _, _ => 0
  | fuel + 1, k, term, neg =>
    let u := term * r / fxOne * r / fxOne / (k * (k + 1))
    (if neg then -(u : Int) else (u : Int)) + fxTrigSum r fuel (k + 2) u (!neg)

/-- Sine of r. -/
def fxSin (r : Nat) : Int := (r : Int) + fxTrigSum r 70 2 r true

/-- Cosine of r. -/
def fxCos (r : Nat) : Int := (fxOne : Int) + fxTrigSum r 70 1 fxOne true

/-- The binary64 value nearest 2 pi, in units of 2^-50 (R147). -/
def tau64 : Nat := 7074237752028440

/-- The argument n * 2^x of fsin and fcos brought below a turn: modulo P exactly from 2^17 on (R147), else modulo 2 pi. -/
def fxTurn (n : Nat) (x : Int) : Nat :=
  if 2 ^ 17 * fxOne ≤ fxOf n x then ((n <<< (x + 50).toNat) % tau64) <<< 270 else fxOf n x % fxTau

/-- The half turns of pi that lie below the argument n * 2^x, counted from pi / 2 on where `off` is set, with turns of P from 2^17 on
(R147): fsin (with `off`) and fcos are monotone between two arguments of the same count. -/
def fxHalfTurns (off : Bool) (n : Nat) (x : Int) : Nat :=
  let turns := if 2 ^ 17 * fxOne ≤ fxOf n x then (n <<< (x + 50).toNat) / tau64 else fxOf n x / fxTau
  2 * turns + (4 * fxTurn n x + (if off then fxTau else 0)) / (2 * fxTau)

/-- tanh of a. -/
def fxTanh (a : Nat) : Nat :=
  if 128 * fxOne ≤ a then fxOne
  else
    let e := fxEx2 false (2 * a * fxOne / fxLn2)
    (e - fxOne) * fxOne / (e + fxOne)

/-- A unit in the last place of binary32 at a real value (R147), at least the smallest subnormal. -/
def fxUlp (v : Nat) : Nat := 2 ^ max (Nat.log2 v - 23) 171

/-- A binary32 pattern as a fixed-point number; an infinity counts as 2^128, none for a NaN. -/
def fxPattern (r : Nat) : Option Int :=
  let e := r / 2 ^ 23 % 256
  let m := r % 2 ^ 23
  let sgn (v : Nat) : Int := if r / 2 ^ 31 % 2 = 1 then -(v : Int) else (v : Int)
  if e = 255 then (if m = 0 then some (sgn (2 ^ 448)) else none)
  else if e = 0 then some (sgn (m <<< 171))
  else some (sgn ((2 ^ 23 + m) <<< (e + 170)))

/-- The pattern lies no further than `d` from the real value v. -/
def fxWithin (v : Int) (d r : Nat) : Bool :=
  match fxPattern r with
  | none => false
  | some c => decide ((c - v).natAbs ≤ d)

/-- The pattern lies within `k` ulp of the real value v, which the approximation may miss from below. -/
def fxWithinUlp (v : Int) (k r : Nat) : Bool := fxWithin v (k * fxUlp (v.natAbs + 2 ^ 40)) r

/-- The pattern lies within `k` ulp of a real value v that is below 1 in magnitude, however near the approximation comes to it. -/
def fxWithinUnit (v : Int) (k r : Nat) : Bool := fxWithin v (k * fxUlp (min (v.natAbs + 2 ^ 40) (fxOne - 1))) r

/-- The pattern lies within 2^-j of the real value v. -/
def fxWithinAbs (v : Int) (j r : Nat) : Bool := fxWithin v (2 ^ (320 - j)) r

end Sys2Proof.Machine
end

