-- ==== Sys2Proof/Machine/Float.lean ====
section
/-! DEFINITION. Float arithmetic on one element (R139 to R149), conversions (R125), MX conversion (R153) and the special
functions (R147 to R149): every function takes patterns and gives a pattern with its flags. -/

namespace Sys2Proof.Machine

/-- Flag NV when one of the values is a signalling NaN (R119). -/
def sigNV (l : List FV) : Nat := if l.any FV.isSig then fNV else 0

/-- Sum of two values that are no NaN. -/
def addFV (f : Fmt) (rm : RM) (ftz : Bool) (a b : FV) : FRes :=
  match a, b with
  | .inf s, .inf t => if s == t then infRes f s 0 else nanRes f fNV
  | .inf s, _ => infRes f s 0
  | _, .inf t => infRes f t 0
  | .fin s n x, .fin t m y => sumF f rm ftz [(s, n, x), (t, m, y)]
  | _, _ => nanRes f 0

/-- fadd, or fsub when `sub` (R139). -/
def faddE (f : Fmt) (rm : RM) (ftz sub : Bool) (a b : Nat) : FRes :=
  let va := unpackF f (ftzSrc f ftz a)
  let vb := unpackF f (ftzSrc f ftz b)
  let nv := sigNV [va, vb]
  if va.isNan || vb.isNan then nanRes f nv
  else addFV f rm ftz va (if sub then vb.negate else vb)

/-- fmul (R139). -/
def fmulE (f : Fmt) (rm : RM) (ftz : Bool) (a b : Nat) : FRes :=
  let va := unpackF f (ftzSrc f ftz a)
  let vb := unpackF f (ftzSrc f ftz b)
  let nv := sigNV [va, vb]
  match va, vb with
  | .nan _, _ => nanRes f nv
  | _, .nan _ => nanRes f nv
  | .fin s n x, .fin t m y => roundF f rm ftz (s != t) (n * m) (x + y)
  | _, _ => if va.isZero || vb.isZero then nanRes f fNV else infRes f (va.sign != vb.sign) 0

/-- The terms of a sum of products: none when a product is 0 × ∞. -/
def prodFV (a b : FV) : Option FV :=
  match a, b with
  | .fin s n x, .fin t m y => some (.fin (s != t) (n * m) (x + y))
  | _, _ => if a.isZero || b.isZero then none else some (.inf (a.sign != b.sign))

/-- Sum of values that are no NaN, rounded once. -/
def sumFV (f : Fmt) (rm : RM) (ftz : Bool) (l : List FV) : FRes :=
  if l.any FV.isInf then
    let neg := l.any (fun v => v.isInf && v.sign)
    let pos := l.any (fun v => v.isInf && !v.sign)
    if neg && pos then nanRes f fNV else infRes f neg 0
  else sumF f rm ftz (l.map (fun v => match v with | .fin s n x => (s, n, x) | _ => (false, 0, 0)))

/-- Sum of products and an addend with one rounding (R139, R145): `ps` the pairs of factors, `c` the addend. A product
of a zero and an infinity is invalid even beside a NaN (R119). -/
def fmaFV (f : Fmt) (rm : RM) (ftz : Bool) (ps : List (FV × FV)) (c : FV) : FRes :=
  let all := c :: ps.flatMap (fun p => [p.1, p.2])
  let nv := sigNV all
  let bad := ps.any (fun p => (p.1.isZero && p.2.isInf) || (p.1.isInf && p.2.isZero))
  if bad then nanRes f (nv ||| fNV)
  else if all.any FV.isNan then nanRes f nv
  else sumFV f rm ftz (ps.map (fun p => (prodFV p.1 p.2).getD (.fin false 0 0)) ++ [c])

/-- ffma (R139). -/
def ffmaE (f : Fmt) (rm : RM) (ftz : Bool) (a b c : Nat) : FRes :=
  let u (z : Nat) : FV := unpackF f (ftzSrc f ftz z)
  fmaFV f rm ftz [(u a, u b)] (u c)

/-- fmin or fmax (R140): -0 is below +0; a NaN yields the other operand, or with `.nan` the canonical NaN. -/
def fminE (f : Fmt) (ftz isMax prop : Bool) (a b : Nat) : FRes :=
  let a' := ftzSrc f ftz a
  let b' := ftzSrc f ftz b
  let va := unpackF f a'
  let vb := unpackF f b'
  let nv := sigNV [va, vb]
  if va.isNan && vb.isNan then nanRes f nv
  else if va.isNan then (if prop then nanRes f nv else (b', nv))
  else if vb.isNan then (if prop then nanRes f nv else (a', nv))
  else
    let less := ltF va vb || (va.isZero && vb.isZero && va.sign && !vb.sign)
    ((if isMax then (if less then b' else a')
      else if ltF vb va || (va.isZero && vb.isZero && vb.sign && !va.sign) then b' else a'), nv)

/-- fcmp (R141): the outcome and its flags. -/
def fcmpE (f : Fmt) (ftz : Bool) (cond : FCond) (a b : Nat) : Bool × Nat :=
  let va := unpackF f (ftzSrc f ftz a)
  let vb := unpackF f (ftzSrc f ftz b)
  let un := va.isNan || vb.isNan
  let quietNV := match cond with
    | .lt | .le | .gt | .ge => un
    | _ => false
  let nv := if quietNV then fNV else sigNV [va, vb]
  let r := match cond with
    | .eq => !un && eqF va vb
    | .ne => un || !eqF va vb
    | .lt => !un && ltF va vb
    | .le => !un && !ltF vb va
    | .gt => !un && ltF vb va
    | .ge => !un && !ltF va vb
    | .ord => !un
    | .un => un
  (r, nv)

/-- fclass (R142): the mask of one bit. -/
def fclassE (f : Fmt) (ftz : Bool) (a : Nat) : Nat :=
  let b := ftzSrc f ftz a
  let sub := fmtMag f b < 2 ^ f.t
  match unpackF f b with
  | .inf s => if s then 1 else 128
  | .nan s => if s then 256 else 512
  | .fin s n _ => if n = 0 then (if s then 8 else 16) else if sub then (if s then 4 else 32) else (if s then 2 else 64)

/-- frnd (R143): round to an integral value in the format. -/
def frndE (f : Fmt) (rm : RM) (ftz nx : Bool) (a : Nat) : FRes :=
  let b := ftzSrc f ftz a
  match unpackF f b with
  | .nan s => nanRes f (if s then fNV else 0)
  | .inf _ => (b, 0)
  | .fin s n x =>
    if n = 0 then (b, 0)
    else
      let (z, inexact) := roundInt rm s n x
      ((roundF f .rz false s z.natAbs 0).1, if nx && inexact then fNX else 0)

/-- fdiv (R144). -/
def fdivE (f : Fmt) (rm : RM) (ftz : Bool) (a b : Nat) : FRes :=
  let va := unpackF f (ftzSrc f ftz a)
  let vb := unpackF f (ftzSrc f ftz b)
  let nv := sigNV [va, vb]
  let s := va.sign != vb.sign
  match va, vb with
  | .nan _, _ => nanRes f nv
  | _, .nan _ => nanRes f nv
  | .inf _, .inf _ => nanRes f fNV
  | .inf _, _ => infRes f s 0
  | _, .inf _ => (withSign f s 0, 0)
  | .fin _ n x, .fin _ m y =>
    if m = 0 then (if n = 0 then nanRes f fNV else (withSign f s (fmtInf f), fDZ))
    else if n = 0 then (withSign f s 0, 0)
    else
      let k := Nat.log2 m + f.t + 4
      let num := n <<< k
      roundF f rm ftz s (num / m) (x - y - (k : Int)) (num % m != 0)

/-- fsqrt (R144). -/
def fsqrtE (f : Fmt) (rm : RM) (ftz : Bool) (a : Nat) : FRes :=
  let b := ftzSrc f ftz a
  match unpackF f b with
  | .nan s => nanRes f (if s then fNV else 0)
  | .inf s => if s then nanRes f fNV else (b, 0)
  | .fin s n x =>
    if n = 0 then (b, 0)
    else if s then nanRes f fNV
    else
      let k := 2 * (f.t + 4) + (if (x % 2 = 0) then 0 else 1)
      let m := n <<< k
      let r := isqrt m
      roundF f rm ftz false r ((x - (k : Int)) / 2) (r * r != m)

/-- fscal (R146): a × 2^n. -/
def fscalE (f : Fmt) (rm : RM) (ftz : Bool) (a : Nat) (n : Int) : FRes :=
  let b := ftzSrc f ftz a
  match unpackF f b with
  | .nan s => nanRes f (if s then fNV else 0)
  | .inf _ => (b, 0)
  | .fin s m x => if m = 0 then (b, 0) else
    -- beyond these bounds every format overflows or rounds as at the bound
    roundF f rm ftz s m (x + satI n (-5000) 5000)

/-- Conversion between two float formats (R125). -/
def cvtFF (d sF : Fmt) (rm : RM) (a : Nat) : FRes :=
  match unpackF sF a with
  | .nan s => nanRes d (if s then fNV else 0)
  | .inf s => infRes d s 0
  | .fin s n x => roundF d rm false s n x

/-- Lo and Hi of an integer format of `w` bits (R115). -/
def intLo (signed : Bool) (w : Nat) : Int := if signed then -((2 ^ (w - 1) : Nat) : Int) else 0
/-- Hi of R115. -/
def intHi (signed : Bool) (w : Nat) : Int :=
  if signed then ((2 ^ (w - 1) : Nat) : Int) - 1 else ((2 ^ w : Nat) : Int) - 1

/-- Conversion of a float to an integer (R125): the value and its flags. -/
def cvtFI (sF : Fmt) (signed : Bool) (w : Nat) (rm : RM) (a : Nat) : Int × Nat :=
  match unpackF sF a with
  | .nan _ => (0, fNV)
  | .inf s => (if s then intLo signed w else intHi signed w, fNV)
  | .fin s n x =>
    let (z, inexact) := roundInt rm s n x
    if z < intLo signed w then (intLo signed w, fNV)
    else if intHi signed w < z then (intHi signed w, fNV)
    else (z, if inexact then fNX else 0)

/-- Conversion of an integer to a float (R125). -/
def cvtIF (d : Fmt) (rm : RM) (z : Int) : FRes := roundF d rm false (decide (z < 0)) z.natAbs 0

/-- Value of element `a` of an MX block's format with a power-of-two scale (R114): MXINT8, or a float format. -/
def mxVal (t : Ty) (a : Nat) : FV :=
  if t == .i8x8 then
    let z := sextN 8 a
    .fin (decide (z < 0)) z.natAbs (-6)
  else unpackF (tyFmt t) (a % 2 ^ fmtW (tyFmt t))

/-- cvtmx MODE 0 on one element (R153): quantise `v` with the scale `s`. That an MXINT8 value which rounds exactly and is then clipped sets no
NX is the model's choice (notes/assumptions/93). -/
def mxQuant (t : Ty) (rm : RM) (s : Nat) (v : FV) : FRes :=
  if s = 0xFF || v.isNan then
    (match t with | .e4m3x8 => 0x7F | .e5m2x8 => 0x7E | _ => 0, fNV)
  else if t == .i8x8 then
    match v with
    | .inf sg => (if sg then 0x81 else 0x7F, fOF ||| fNX)
    | .fin sg n x =>
      let (z, inexact) := roundInt rm sg n (x + 127 - (s : Int) + 6)
      (truncN 8 (satI z (-128) 127), if inexact then fNX else 0)
    | .nan _ => (0, fNV)
  else
    let f := { tyFmt t with hasInf := false }
    match v with
    | .inf sg => (withSign f sg f.maxCode, fOF ||| fNX)
    | .fin sg n x => roundF f rm false sg n (x + 127 - (s : Int))
    | .nan _ => (0, fNV)

/-- cvtmx MODE 1 on one element (R153): dequantise with the scale `s`. -/
def mxDequant (d : Fmt) (t : Ty) (rm : RM) (s : Nat) (a : Nat) : FRes :=
  let v := mxVal t a
  if s = 0xFF || v.isNan then nanRes d 0
  else match v with
    | .fin sg n x => roundF d rm false sg n (x + (s : Int) - 127)
    | .inf sg => infRes d sg 0
    | .nan _ => nanRes d 0

/-- Emax of an MX element format (R114). -/
def mxEmax (t : Ty) : Int :=
  match t with
  | .e4m3x8 => 8 | .e5m2x8 => 15 | .e3m2x8 => 4 | .e2m3x8 => 2 | .e2m1x16 => 2 | _ => 0

/-- cvtmx MODE 2 (R153): the E8M0 scale of a block whose largest magnitude is the binary32 pattern `a`. -/
def mxScale (t : Ty) (a : Nat) : Nat :=
  match unpackF fmtF32 (a % 2 ^ 31) with
  | .fin _ n x => if n = 0 then 0
    else (satI ((log2N n : Int) + x - mxEmax t) (-127) 127 + 127).toNat
  | _ => 0xFF

/-- The special functions of R147, numbered. -/
inductive SFn where
  | rcp | rsq | ex2 | lg2 | sin | cos | tanh
  deriving DecidableEq, Repr

/-- Number of a special function, as Config.special takes it. -/
def sfnNum : SFn → Nat
  | .rcp => 0 | .rsq => 1 | .ex2 => 2 | .lg2 => 3 | .sin => 4 | .cos => 5 | .tanh => 6

/-- R149: the special-value table, where it fixes a result. -/
def sfnTable (fn : SFn) (v : FV) : Option FRes :=
  let inf := 0x7F80_0000
  let one := 0x3F80_0000
  let neg := 0x8000_0000
  let nan : FRes := (0x7FC0_0000, fNV)
  match v with
  | .nan s => some (0x7FC0_0000, if s then fNV else 0)
  | .inf s => match fn with
    | .rcp => some (if s then neg else 0, 0)
    | .rsq => some (if s then nan else (0, 0))
    | .ex2 => some (if s then (0, 0) else (inf, 0))
    | .lg2 => some (if s then nan else (inf, 0))
    | .sin => some nan
    | .cos => some nan
    | .tanh => some (if s then neg + one else one, 0)
  | .fin s n x =>
    if n = 0 then match fn with
      | .rcp => some (if s then neg + inf else inf, fDZ)
      | .rsq => some (if s then neg + inf else inf, fDZ)
      | .ex2 => some (one, 0)
      | .lg2 => some (neg + inf, fDZ)
      | .sin => some (if s then neg else 0, 0)
      | .cos => some (one, 0)
      | .tanh => some (if s then neg else 0, 0)
    else if s && (fn == .rsq || fn == .lg2) then some nan
    else if !s && n * 2 ^ (x + 200).toNat == 2 ^ 200 then match fn with
      | .rcp => some (one, 0)
      | .rsq => some (one, 0)
      | .ex2 => some (0x4000_0000, 0)
      | .lg2 => some (0, 0)
      | _ => none
    else none

/-- |nc·2^xc · n·2^x - 1| ≤ 2^q · n·2^x: the candidate lies within one unit 2^q of the reciprocal (R147). -/
def rcpWithin (nc : Nat) (xc : Int) (n : Nat) (x q : Int) : Bool :=
  let b : Nat := 700
  let p : Int := ((nc * n) <<< (xc + x + b).toNat : Nat)
  let o : Int := ((1 : Nat) <<< b : Nat)
  let u : Int := (n <<< (q + x + b).toNat : Nat)
  decide ((p - o).natAbs ≤ u.natAbs)

/-- (c - 2u)² n·2^x ≤ 1 ≤ (c + 2u)² n·2^x: the candidate lies within two units of the reciprocal square root (R147). -/
def rsqWithin (nc : Nat) (xc : Int) (n : Nat) (x q : Int) : Bool :=
  let b : Nat := 700
  let c : Int := (nc <<< (xc + b).toNat : Nat)
  let u : Int := ((2 : Nat) <<< (q + b).toNat : Nat)
  let lo := if c < u then 0 else c - u
  let hi := c + u
  let sh : Nat := 400
  let v : Int := (n <<< (x + (sh : Int)).toNat : Nat)
  let o : Int := ((1 : Nat) <<< (2 * b + sh) : Nat)
  decide (lo * lo * v ≤ o) && decide (o ≤ hi * hi * v)

/-- The free pattern of Config.special, as a number. -/
def sfnRaw (fn : SFn) (a : Nat) : Nat := (Config.special (sfnNum fn) (BitVec.ofNat 32 a)).toNat

/-- The leading bits of the reciprocal or reciprocal square root of n·2^x, their exponent, and whether bits were dropped. -/
def rootBits (fn : SFn) (n : Nat) (x : Int) : Nat × Int × Bool :=
  let k := 2 * (Nat.log2 n + 30)
  let odd : Nat := if x % 2 = 0 then 0 else 1
  if fn == .rcp then ((1 <<< k) / n, -x - (k : Int), (1 <<< k) % n != 0)
  else
    let den := n <<< odd
    let y := (1 <<< (2 * k)) / den
    let r := isqrt y
    (r, -((x - (odd : Int)) / 2) - (k : Int), !(r * r == y && (1 <<< (2 * k)) % den == 0))

/-- The flags of an inexact result (R148), and its flushing (R118). -/
def sfnInexact (ftz : Bool) (r : Nat) : FRes :=
  let mag := fmtMag fmtF32 r
  if mag != 0 && mag < 2 ^ 23 then (if ftz then (r - mag, fUF ||| fNX) else (r, fUF ||| fNX)) else (r, fNX)

/-- frcp and frsq on a finite nonzero argument of magnitude n·2^x (R118, R147, R148): a value within the bound, the one that
Config.special names when it is within it and `free` lets it (notes/assumptions/7); NX unless exact. An exact reciprocal is always
returned. -/
def sfnRoot (free : Bool) (fn : SFn) (ftz : Bool) (a : Nat) (s : Bool) (n : Nat) (x : Int) : FRes :=
  let (m, e, sticky) := rootBits fn n x
  let best := roundF fmtF32 .rne false s m e sticky
  let q := quantum fmtF32 ((log2N m : Int) + e)
  let raw := sfnRaw fn a
  let ok : Bool := !(fn == .rcp && best.2 == 0) && (match unpackF fmtF32 raw with
    | .fin t nc xc => t == s && (if fn == .rcp then rcpWithin nc xc n x q else rsqWithin nc xc n x q)
    | _ => false)
  let c := if ok && free then raw else best.1
  if fOF &&& best.2 != 0 then (best.1, fOF ||| fNX)
  else if best.2 = 0 && c = best.1 then roundF fmtF32 .rne ftz s m e sticky
  else sfnInexact ftz c

/-- The real value of a special function other than frcp and frsq at (-1)^s * n * 2^x, n not 0 (R147). -/
def sfnReal (fn : SFn) (s : Bool) (n : Nat) (x : Int) : Int :=
  let a := fxOf n x
  match fn with
  | .ex2 => (fxEx2 s a : Nat)
  | .lg2 => fxLog2 n x
  | .sin => if s then -(fxSin (fxTurn n x)) else fxSin (fxTurn n x)
  | .cos => fxCos (fxTurn n x)
  | .tanh => if s then -(fxTanh a : Int) else (fxTanh a : Int)
  | .rcp | .rsq => 0

/-- The pattern keeps the function's error bound at the real value v (R147), its sign, and the limits that R148's
monotony and the table of R149 set. -/
def sfnAllowed (fn : SFn) (v : Int) (r : Nat) : Bool :=
  let sign := r % 2 ^ 31 == 0 || decide (v < 0) == (r / 2 ^ 31 % 2 == 1)
  match fn with
  | .ex2 => r < 2 ^ 31 && fxWithinUlp v 2 r
  | .lg2 => sign && (if v.natAbs < 2 ^ 316 then fxWithinAbs v 22 r else fxWithinUlp v 2 r)
  | .sin | .cos => fxWithinAbs v 21 r
  | .tanh => sign && r % 2 ^ 31 ≤ 0x3F80_0000 && fxWithinUnit v 2 r
  | .rcp | .rsq => true

/-- The result at the real value v: the pattern of Config.special when it is allowed and `free` lets it, else the nearest pattern. -/
def sfnPick (free : Bool) (fn : SFn) (v : Int) (raw : Nat) : Nat :=
  if sfnAllowed fn v raw && free then raw else (roundF fmtF32 .rne false (decide (v < 0)) v.natAbs (-320) true).1

/-- The pattern that equals the exact value of a special function at (-1)^s * n * 2^x, n not 0, where there is one (R148). -/
def sfnExact (fn : SFn) (s : Bool) (n : Nat) (x : Int) : Option Nat :=
  let b : Option FRes := match fn with
    | .rcp | .rsq =>
      let r := rootBits fn n x
      some (roundF fmtF32 .rne false s r.1 r.2.1 r.2.2)
    | .ex2 =>
      let z := roundInt .rz s n x
      if z.2 || z.1 < -1000 || 1000 < z.1 then none else some (roundF fmtF32 .rne false false 1 z.1)
    | .lg2 => if n == 2 ^ log2N n then some (cvtIF fmtF32 .rne ((log2N n : Int) + x)) else none
    | .sin | .cos | .tanh => none
  match b with
  | some r => if r.2 = 0 then some r.1 else none
  | none => none

/-- The binary32 special functions (R147 to R149); where `free` is set, with the results of Config.special that the bounds allow. The
RNE result of `fex2` at an integer whose power is not representable, and at 128 and above, is the model's choice (notes/assumptions/7). -/
def sfnAt (free : Bool) (fn : SFn) (ftz : Bool) (a0 : Nat) : FRes :=
  let a := ftzSrc fmtF32 ftz a0
  let v := unpackF fmtF32 a
  match sfnTable fn v with
  | some r => r
  | none => match v with
    | .fin s n x =>
      let r := sfnPick free fn (sfnReal fn s n x) (sfnRaw fn a)
      match fn with
      | .rcp => sfnRoot free .rcp ftz a s n x
      | .rsq => sfnRoot free .rsq ftz a s n x
      | .ex2 =>
        -- an integer argument is exact; 128 and more overflow
        let (z, frac) := roundInt .rz s n x
        if !frac then (if z < -1000 then sfnInexact ftz 0 else roundF fmtF32 .rne ftz false 1 z)
        else if 128 ≤ z || r == 0x7F80_0000 then (0x7F80_0000, fOF ||| fNX)
        else sfnInexact ftz r
      | .lg2 =>
        -- the logarithm of a power of two is an integer
        if n == 2 ^ log2N n && r == (cvtIF fmtF32 .rne ((log2N n : Int) + x)).1 then (r, 0) else sfnInexact ftz r
      | .sin | .cos | .tanh => sfnInexact ftz r
    | _ => nanRes fmtF32 0

/-- Whether the mathematical function rises from an argument to the next one of greater magnitude and the same sign; none where it is
not monotone between them. -/
def sfnRises (fn : SFn) (a b : FV) : Option Bool :=
  match a, b with
  | .fin s n x, .fin _ m y => match fn with
    | .ex2 | .lg2 | .tanh => some (!s)
    | .rcp | .rsq => some s
    | .sin => if fxHalfTurns true n x = fxHalfTurns true m y then some ((fxHalfTurns true n x % 2 == 0) != s) else none
    | .cos => if fxHalfTurns false n x = fxHalfTurns false m y then some (fxHalfTurns false n x % 2 == 1) else none
  | .fin s _ _, .inf _ => match fn with
    | .ex2 | .lg2 | .tanh => some (!s)
    | .rcp | .rsq => some s
    | .sin | .cos => none
  | _, _ => none

/-- The results at two neighbouring arguments of one sign lie as the mathematical function does (R148); a NaN lies anywhere. -/
def sfnOrdered (fn : SFn) (a : Nat) : Bool :=
  match sfnRises fn (unpackF fmtF32 a) (unpackF fmtF32 (a + 1)), fxPattern (sfnAt true fn false a).1, fxPattern (sfnAt true fn false (a + 1)).1 with
  | some up, some u, some w => if up then decide (u ≤ w) else decide (w ≤ u)
  | _, _, _ => true

/-- The results of Config.special that the bounds allow make a function that is monotone wherever the mathematical function is (R148). -/
def sfnMonotone (fn : SFn) : Bool := allBits 32 (sfnOrdered fn)

/-- The binary32 special functions (R147 to R149): one function, monotone wherever the mathematical function is (notes/assumptions/7). -/
def sfn32 (fn : SFn) (ftz : Bool) (a : Nat) : FRes := sfnAt (sfnMonotone fn) fn ftz a

/-- The element that a 16-bit special function returns equals the function's exact value (R148). -/
def sfnHit (f : Fmt) (fn : SFn) (v : FV) (b : Nat) : Bool :=
  match v with
  | .fin s n x => n != 0 && (sfnExact fn s n x).any (fun e =>
      let z := cvtFF f fmtF32 .rne e
      z.1 == b && z.2 == 0)
  | _ => false

/-- A special function on an element: 16-bit elements are widened to binary32 and rounded back with RNE (R147). The
result is inexact when it differs from the exact value (R148), and tiny or overflowing in the element's own format. -/
def sfnE (f : Fmt) (fn : SFn) (ftz : Bool) (a0 : Nat) : FRes :=
  if f == fmtF32 then sfn32 fn ftz a0
  else
    let a := ftzSrc f ftz a0
    let w := cvtFF fmtF32 f .rne a
    let r := sfn32 fn false w.1
    let b := match unpackF fmtF32 r.1 with
      | .nan _ => nanRes f 0
      | .inf s => infRes f s 0
      | .fin s n x => roundF f .rne ftz s n x
    let inex := if sfnHit f fn (unpackF fmtF32 w.1) b.1 then 0 else (r.2 ||| b.2) &&& fNX
    let mag := fmtMag f b.1
    let uf := if inex != 0 && mag != 0 && mag < 2 ^ f.t then fUF else 0
    (b.1, (w.2 &&& fNV) ||| (r.2 &&& (fNV ||| fDZ ||| fOF)) ||| (b.2 &&& (fOF ||| fUF)) ||| uf ||| inex)

end Sys2Proof.Machine
end

