-- ==== Sys2Proof/Machine/Encoding.lean ====
section
/-! DEFINITION. The encoding tables of the spec: register specifiers (R44), type and operation codes, and for every
instruction its opcode and form (R52), the operand classes of its fields, its modifier words M, M2, E and immediate,
and which modifier values exist (R76, R110, R111, R127, R150 to R158, R183, R200, R214, R221, R224, R233, R238, R246,
R254, R255, R265, R280, R292, R295, R298, R311, R313, R348, R385). -/

namespace Sys2Proof.Machine

/-- Operand classes of R44. -/
inductive OC where
  | v | k0 | kn | t | eq | x | p | vx | imm
  deriving DecidableEq, Repr

/-- Class of an operand; none for an unused field. -/
def opndCls : Opnd → Option OC
  | .none => none
  | .v _ => some .v
  | .k n => if n = 0 then some .k0 else some .kn
  | .t _ => some .t
  | .eq _ => some .eq
  | .x _ => some .x
  | .p _ => some .p
  | .vx _ => some .vx
  | .imm _ => some .imm

/-- The specifier that names an operand (R44); an unused field holds 0 (R45). -/
def specOf : Opnd → Nat
  | .none => 0
  | .v n => n
  | .k n => 0x100 + n
  | .t n => 0x200 + n
  | .eq n => 0x210 + n
  | .x n => 0x220 + n
  | .p n => 0x230 + n
  | .vx n => 0x260 + n
  | .imm b => 0x300 + b.toNat

/-- The operand that a specifier names, none for the reserved values (R44). -/
def opndOf (s : Nat) : Option Opnd :=
  if s < 0x100 then some (.v s)
  else if s < 0x200 then some (.k (s - 0x100))
  else if s < 0x208 then some (.t (s - 0x200))
  else if s < 0x210 then none
  else if s < 0x220 then some (.eq (s - 0x210))
  else if s < 0x228 then some (.x (s - 0x220))
  else if s < 0x230 then none
  else if s < 0x260 then some (.p (s - 0x230))
  else if s < 0x268 then some (.vx (s - 0x260))
  else if s < 0x300 then none
  else if s < 0x400 then some (.imm (BitVec.ofNat 8 (s - 0x300)))
  else none

/-- The number of an operand lies in its range (R44). -/
def opndOk : Opnd → Bool
  | .none => true
  | .v n => n < 256
  | .k n => n < 256
  | .t n => n < 8
  | .eq n => n < 16
  | .x n => n < 8
  | .p n => n < 48
  | .vx n => n < 8
  | .imm _ => true

/-- Classes with a wait bit (R44). -/
def waitCls (c : Option OC) : Bool := c == some .v || c == some .kn || c == some .eq || c == some .vx

/-- Classes with a reuse hint (R44). -/
def hintCls (c : Option OC) : Bool := c == some .v || c == some .kn

/-- Type codes of R109. -/
def tyCode : Ty → Nat
  | .i64 => 0 | .i32 => 1 | .i16 => 2 | .i8 => 3 | .n64 => 4 | .n32 => 5 | .n16 => 6 | .n8 => 7
  | .i32x2 => 8 | .i16x4 => 9 | .i8x8 => 10 | .n32x2 => 11 | .n16x4 => 12 | .n8x8 => 13
  | .f64 => 14 | .f32 => 15 | .f16 => 16 | .bf16 => 17 | .f32x2 => 18 | .f16x4 => 19 | .bf16x4 => 20
  | .e4m3 => 21 | .e5m2 => 22 | .e3m2 => 23 | .e2m3 => 24 | .e2m1 => 25
  | .e4m3x8 => 26 | .e5m2x8 => 27 | .e3m2x8 => 28 | .e2m3x8 => 29 | .e2m1x16 => 30

/-- The type of a code; 0x1F is reserved and read as code 0, which then encodes back to something else (R109). -/
def tyOf (n : Nat) : Ty :=
  [Ty.i64, .i32, .i16, .i8, .n64, .n32, .n16, .n8, .i32x2, .i16x4, .i8x8, .n32x2, .n16x4, .n8x8,
   .f64, .f32, .f16, .bf16, .f32x2, .f16x4, .bf16x4, .e4m3, .e5m2, .e3m2, .e2m3, .e2m1,
   .e4m3x8, .e5m2x8, .e3m2x8, .e2m3x8, .e2m1x16].getD n .i64

/-- Element width and count of a type (R109). -/
def tyDim : Ty → Nat × Nat
  | .i64 | .n64 | .f64 => (64, 1)
  | .i32 | .n32 | .f32 => (32, 1)
  | .i16 | .n16 | .f16 | .bf16 => (16, 1)
  | .i8 | .n8 | .e4m3 | .e5m2 | .e3m2 | .e2m3 => (8, 1)
  | .e2m1 => (4, 1)
  | .i32x2 | .n32x2 | .f32x2 => (32, 2)
  | .i16x4 | .n16x4 | .f16x4 | .bf16x4 => (16, 4)
  | .i8x8 | .n8x8 | .e4m3x8 | .e5m2x8 | .e3m2x8 | .e2m3x8 => (8, 8)
  | .e2m1x16 => (4, 16)

/-- Element width of a type. -/
def tyW (t : Ty) : Nat := (tyDim t).1

/-- Element count of a type. -/
def tyN (t : Ty) : Nat := (tyDim t).2

/-- The integer types, codes 0x00 to 0x0D (R127). -/
def tyInt (t : Ty) : Bool := tyCode t < 14

/-- The signed integer types (R109). -/
def tySigned (t : Ty) : Bool := tyCode t < 4 || (8 ≤ tyCode t && tyCode t < 11)

/-- The wide float types, codes 0x0E to 0x14 (R127). -/
def tyFlt (t : Ty) : Bool := 14 ≤ tyCode t && tyCode t < 21

/-- Scope codes (R20). -/
def scopeCode : Scope → Nat
  | .crs => 0 | .team => 1 | .core => 2 | .col => 3 | .clus => 4
  | .twr => 5 | .dev => 6 | .host => 7 | .part => 8 | .sys => 9

/-- The scope of a code; the reserved codes 10 to 15 are read as code 0, which then encodes back to something else. -/
def scopeOf (n : Nat) : Scope :=
  [Scope.crs, .team, .core, .col, .clus, .twr, .dev, .host, .part, .sys].getD n .crs

/-- Rounding-mode codes (R111). -/
def rmCode : RM → Nat
  | .rne => 0 | .rz => 1 | .ru => 2 | .rd => 3 | .rna => 4

/-- The rounding mode of a code. -/
def rmOf (n : Nat) : RM := [RM.rne, .rz, .ru, .rd, .rna].getD n .rne

/-- Integer compare codes (R110). -/
def condCode : Cond → Nat
  | .eq => 0 | .ne => 1 | .lt => 2 | .le => 3 | .gt => 4 | .ge => 5

/-- The integer condition of a code. -/
def condOf (n : Nat) : Cond := [Cond.eq, .ne, .lt, .le, .gt, .ge].getD n .eq

/-- Float compare codes (R141). -/
def fcondCode : FCond → Nat
  | .eq => 0 | .ne => 1 | .lt => 2 | .le => 3 | .gt => 4 | .ge => 5 | .ord => 6 | .un => 7

/-- The float condition of a code. -/
def fcondOf (n : Nat) : FCond := [FCond.eq, .ne, .lt, .le, .gt, .ge, .ord, .un].getD n .eq

/-- Access-size codes (R183). -/
def lsizeCode : LSize → Nat
  | .n8 => 0 | .n16 => 1 | .n32 => 2 | .n64 => 3 | .i8 => 4 | .i16 => 5 | .i32 => 6

/-- The access size of a code. -/
def lsizeOf (n : Nat) : LSize := [LSize.n8, .n16, .n32, .n64, .i8, .i16, .i32].getD n .n8

/-- Operation codes of latom and atom (R189, R233). -/
def aopCode : AOp → Nat
  | .add => 0 | .and => 1 | .or => 2 | .xor => 3 | .min => 4 | .max => 5
  | .swap => 6 | .cas => 7 | .fadd => 8 | .fmin => 9 | .fmax => 10

/-- The operation of a code of latom or atom. -/
def aopOf (n : Nat) : AOp := [AOp.add, .and, .or, .xor, .min, .max, .swap, .cas, .fadd, .fmin, .fmax].getD n .add

/-- Operation codes of nred and fred (R221, R389). -/
def ropCode : AOp → Nat
  | .add => 0 | .and => 1 | .or => 2 | .xor => 3 | .min => 4 | .max => 5
  | .fadd => 6 | .fmin => 7 | .fmax => 8 | .swap => 9 | .cas => 10

/-- The operation of a code of nred or fred. -/
def ropOf (n : Nat) : AOp := [AOp.add, .and, .or, .xor, .min, .max, .fadd, .fmin, .fmax].getD n .add

/-- Combining-operation codes (R157). -/
def copCode : COp → Nat
  | .add => 0 | .min => 1 | .max => 2 | .and => 3 | .or => 4 | .xor => 5

/-- The combining operation of a code. -/
def copOf (n : Nat) : COp := [COp.add, .min, .max, .and, .or, .xor].getD n .add

/-- ORD codes (R233). -/
def ordCode (o : Ord) : Nat := bit o.acq + 2 * bit o.rel

/-- The ORD of a code. -/
def ordOf (n : Nat) : Ord := ⟨bitN n 0, bitN n 1⟩

/-- TGT codes of slipx (R254). -/
def tgtCode : XTgt → Nat
  | .mx8 => 0 | .bf16 => 1 | .e4m3 => 2

/-- The target of a code of slipx. -/
def tgtOf (n : Nat) : XTgt := [XTgt.mx8, .bf16, .e4m3].getD n .mx8

/-- Semiring codes (R307). -/
def semiCode : Semi → Nat
  | .addmul => 0 | .maxadd => 1 | .minadd => 2 | .logadd => 3 | .orand => 4

/-- The semiring of a code. -/
def semiOf (n : Nat) : Semi := [Semi.addmul, .maxadd, .minadd, .logadd, .orand].getD n .addmul

/-- Shape codes (R309). -/
def shapeCode : Shape → Nat
  | .scalar => 0 | .affine => 1 | .full2 => 2 | .tri3 => 3

/-- The shape of a code. -/
def shapeOf (n : Nat) : Shape := [Shape.scalar, .affine, .full2, .tri3].getD n .scalar

/-- The formats of R40 to R42. -/
inductive Form where
  | f64 | f96i | f96c | f128i | f128e
  deriving DecidableEq, Repr

/-- Length field of a format (R40). -/
def formL : Form → Nat
  | .f64 => 0 | .f96i => 1 | .f96c => 1 | .f128i => 2 | .f128e => 2

/-- The format has C and IB (R41, R42). -/
def formHasC : Form → Bool
  | .f96c => true | .f128e => true | _ => false

/-- What the encoding tables say of an instruction: opcode and form, operand classes of D, A, B and C (an empty list:
the field is unused), the modifier words, and whether the modifiers have a defined encoding. `ll` marks the long-latency
producers whose D classes include a temporary or k0 (R23); `pdst` the compares whose predicate destination needs a
scalar type (R135, R141). -/
structure Info where
  op : Nat
  form : Form
  o : Ops
  d : List OC := []
  a : List OC := []
  b : List OC := []
  c : List OC := []
  m : Nat := 0
  m2 : Nat := 0
  e : Nat := 0
  imm : Nat := 0
  ok : Bool := true
  ll : Bool := false
  pdst : Bool := false

/-- Sources of R45. -/
def cSrc : List OC := [.v, .k0, .kn, .t, .eq, .vx, .imm]
/-- Sources of the course-engine group (R76). -/
def cSrcK : List OC := [.v, .k0, .kn, .t, .vx, .imm]
/-- Destinations of R45. -/
def cDst : List OC := [.v, .k0, .kn, .t, .eq, .vx]
/-- `v`, `k`. -/
def cVK : List OC := [.v, .k0, .kn]
/-- `v`, `k`, `t`. -/
def cVKT : List OC := [.v, .k0, .kn, .t]
/-- `v`, indexed. -/
def cVX : List OC := [.v, .vx]
/-- `v`, indexed, `k1` to `k255`. -/
def cVXK : List OC := [.v, .vx, .kn]
/-- `v`, `k1` to `k255`. -/
def cVKn : List OC := [.v, .kn]

/-- Trunc of a signed offset field. -/
def offF (n : Nat) (z : Int) : Nat := truncN n z

/-- A signed offset fits its field. -/
def offOk (n : Nat) (z : Int) : Bool := decide (-(2 ^ (n - 1) : Nat) ≤ z) && decide (z < ((2 ^ (n - 1) : Nat) : Int))

/-- M of an integer instruction (R110). -/
def mInt (ty : Ty) (sat : Bool) (cond : Nat := 0) : Nat := tyCode ty + 32 * bit sat + 64 * cond

/-- M of a float instruction (R111). -/
def mFlt (m : FMod) (opx : Nat := 0) : Nat := tyCode m.ty + 32 * rmCode m.rm + 256 * bit m.ftz + 512 * opx

/-- M of a conversion (R150). -/
def mCvt (dt st : Ty) (rm : RM) : Nat := tyCode dt + 32 * tyCode st + 1024 * rmCode rm

/-- Two-source integer instruction (R127). -/
def iInt2 (op : Nat) (o : Ops) (ty : Ty) (sat : Bool) : Info :=
  { op := op, form := .f64, o := o, d := cDst, a := cSrc, b := cSrc, m := mInt ty sat, ok := tyInt ty }

/-- One-source integer instruction (R127). -/
def iInt1 (op : Nat) (o : Ops) (ty : Ty) : Info :=
  { op := op, form := .f64, o := o, d := cDst, a := cSrc, m := mInt ty false, ok := tyInt ty }

/-- abs and neg, which also take the float types (R127, R130). -/
def iAbs (op : Nat) (o : Ops) (ty : Ty) (sat : Bool) : Info :=
  { op := op, form := .f64, o := o, d := cDst, a := cSrc, m := mInt ty sat, ok := tyInt ty || (tyFlt ty && !sat) }

/-- Three-source instruction of F96-C (R127). -/
def iInt3 (op : Nat) (o : Ops) (ty : Ty) (sat : Bool) : Info :=
  { op := op, form := .f96c, o := o, d := cDst, a := cSrc, b := cSrc, c := cSrc, m := mInt ty sat, ok := tyInt ty }

/-- Two-source float arithmetic with rounding (R139, R144, R146). -/
def iFlt2 (op : Nat) (o : Ops) (m : FMod) : Info :=
  { op := op, form := .f64, o := o, d := cDst, a := cSrc, b := cSrc, m := mFlt m, ok := tyFlt m.ty }

/-- Types of the special functions (R147). -/
def tySpec (t : Ty) : Bool := tyFlt t && t != .f64

/-- Special function (R147). -/
def iSpec (op : Nat) (o : Ops) (m : FMod) : Info :=
  { op := op, form := .f64, o := o, d := cDst, a := cSrc, m := mFlt m, ok := tySpec m.ty && m.rm == .rne }

/-- Predicate operation of opcode 0x0C (R85). -/
def iPred (o : Ops) (n : Nat) (two : Bool) : Info :=
  { op := 0x0C, form := .f64, o := o, d := [.p], a := [.p, .imm], b := if two then [.p, .imm] else [], m := n }

/-- vote (R86). -/
def iVote (o : Ops) (kind seg : Nat) (d : List OC) : Info :=
  { op := 0x0D, form := .f64, o := o, d := d, a := [.p], m := kind + 4 * seg, ok := seg < 5 }

/-- cload (R103). -/
def iCload (o : Ops) (mode : Nat) (b : List OC) : Info :=
  { op := 0x17, form := .f64, o := o, d := cVK, a := cSrcK, b := b, m := mode, ll := true }

/-- M of ld, ldk and pf (R183). -/
def mLd (m : LdM) : Nat :=
  lsizeCode m.size + 8 * m.ch + 32 * m.span +
    (match m.acq with | none => 0 | some s => 256 + 512 * scopeCode s)

/-- M of the local accesses (R183). -/
def mLoc (m : LocM) : Nat := lsizeCode m.size + 1024 * bit m.nw + 2048 * m.swz

/-- Local or remote-local access (R183). -/
def iLoc (op : Nat) (o : Ops) (m : LocM) (ld nwOk : Bool) : Info :=
  { op := op, form := .f96c, o := o, d := if ld then cVX else [], a := cSrc, b := cSrc, c := if ld then [] else cSrc,
    m := mLoc m, m2 := offF 12 m.off,
    ok := m.swz < 4 && offOk 12 m.off && (nwOk || !m.nw) && (ld || lsizeCode m.size < 4) }

/-- Range operation (R200). -/
def iRange (op : Nat) (o : Ops) (sc : Scope) (span : Nat) (off : Int) : Info :=
  { op := op, form := .f96c, o := o, d := cVXK, a := cSrc, b := cSrc, m := 64 * span + 512 * scopeCode sc,
    m2 := offF 12 off, ok := 3 ≤ scopeCode sc && span < 8 && offOk 12 off }

/-- The integer types of atomics. -/
def tyA (t : Ty) : Bool := t == .i32 || t == .i64 || t == .n32 || t == .n64

/-- Types of an atomic or a reduction by its operation (R221, R233, R389). -/
def aopTy (op : AOp) (t : Ty) : Bool :=
  match op with
  | .add | .min | .max | .swap | .cas => tyA t
  | .and | .or | .xor => t == .n32 || t == .n64
  | .fadd | .fmin | .fmax => t == .f32 || t == .f64

/-- Types of latom (R189). -/
def latomTy (op : AOp) (t : Ty) : Bool :=
  match op with
  | .fadd => t == .f32 || t == .f64
  | .fmin | .fmax => false
  | _ => tyA t

/-- E of slip and slipx (R255): the box side for a direction. -/
def eSlip (dir : Nat) (e : SlipE) : Nat :=
  if dir = 3 then e.off + 2 ^ 18 * bit e.isNew + 2 ^ 19 * bit e.isLast else e.off + 2 ^ 20 * e.pos

/-- Defined values of E (R255); an offset that is no multiple of 64 is a fault of R256, not of the encoding. -/
def eSlipOk (dir : Nat) (e : SlipE) : Bool :=
  if dir = 3 then e.off < 2 ^ 18 && e.pos == 0
  else e.off < 2 ^ 20 && !e.isNew && !e.isLast && (if dir = 2 then e.pos < 128 else e.pos == 0)

/-- slip (R254): a k0 in D without RING is a fault of R256, not of the encoding. -/
def iSlip (o : Ops) (dir : Nat) (ring : Bool) (e : SlipE) : Info :=
  { op := 0xB0, form := .f128e, o := o, d := if ring then [.k0] else [.k0, .kn, .eq], a := cSrc, b := cSrc, c := cSrc,
    m := 1024 * dir + 512 * bit ring, e := eSlip dir e, ok := eSlipOk dir e && (!ring || dir == 0 || dir == 2) }

/-- R285: an MX bit is allowed on codes 2 to 7, and the pair of codes is one the Wheel multiplies. -/
def wheelFmtOk (af bf : Nat) (amx bmx : Bool) : Bool :=
  (2 ≤ af || !amx) && (2 ≤ bf || !bmx) &&
  ((af == 0 && bf == 0) || (af == 1 && bf == 1) || (2 ≤ af && af ≤ 5 && 2 ≤ bf && bf ≤ 5) ||
   (af == 6 && bf == 6) || (af == 7 && bf == 7 && amx == bmx))

/-- E of wloop (R295). -/
def eWloop (m : WloopM) : Nat :=
  m.afmt + 16 * bit m.amx + 32 * m.bfmt + 512 * bit m.bmx + 1024 * bit m.zero

/-- E of wdrain (R298). -/
def eWdrain (m : WdrainM) : Nat :=
  m.dfmt + 16 * bit m.dsp + 32 * m.dswz + 128 * m.tfmt + 2048 * bit m.tsp + 4096 * m.tswz + 2 ^ 14 * m.mm +
    2 ^ 20 * m.nn + 2 ^ 26 * bit m.clr

/-- Defined values of E of wdrain (R298). -/
def eWdrainOk (m : WdrainM) : Bool :=
  m.dfmt < 7 && m.tfmt < 7 && m.dswz < 4 && m.tswz < 4 && m.mm < 64 && m.nn < 64 &&
    !(m.dfmt == 6 && m.tfmt == 0) && (m.dsp || m.dswz == 0) && (m.tsp || m.tswz == 0)

/-- E of cjob (R313). -/
def eCjob (m : CjobM) : Nat := m.lm1 + 256 * m.cm1 + 2 ^ 15 * m.cin + 2 ^ 17 * bit m.send

/-- System-register numbers of R91. -/
def srListed (n : Nat) : Bool :=
  n ≤ 0x010 || (0x020 ≤ n && n ≤ 0x022) || n == 0x030 || n == 0x031 || (0x040 ≤ n && n ≤ 0x047) ||
    (0x100 ≤ n && n ≤ 0x106)

/-- R151: the pairs of pk. -/
def pkPair (st dt : Ty) : Bool :=
  match st with
  | .f32x2 => dt == .f16x4 || dt == .bf16x4
  | .f16x4 | .bf16x4 => dt == .e4m3x8 || dt == .e5m2x8 || dt == .e3m2x8 || dt == .e2m3x8
  | .e4m3x8 => dt == .e2m1x16
  | .i32x2 | .n32x2 => dt == .i16x4 || dt == .n16x4
  | .i16x4 | .n16x4 => dt == .i8x8 || dt == .n8x8
  | _ => false

/-- The MX element types of cvtmx: 0x0A and 0x1A to 0x1E (R153). -/
def tyMx (t : Ty) : Bool := t == .i8x8 || 26 ≤ tyCode t

/-- TO of wwait and of the fabric and Coil waits: 0, or from 10 to `hi`. -/
def toOk (tl hi : Nat) : Bool := tl == 0 || (10 ≤ tl && tl ≤ hi)

/-- The encoding of every instruction; none for an event, which has no words. -/
def info : Instr → Option Info
  -- course engine (R51, R76)
  | .nop o => some { op := 0x00, form := .f64, o := o }
  | .btl o n y => some { op := 0x01, form := .f64, o := o, d := [.v, .k0, .kn, .p, .eq], a := [.v, .k0, .kn, .p, .eq],
                         b := [.v, .k0, .kn, .p, .eq], m := n + 32 * bit y, ok := 1 ≤ n && n ≤ 24 }
  | .bra o off => some { op := 0x02, form := .f96i, o := o, imm := off.toNat }
  | .brx o => some { op := 0x03, form := .f64, o := o, a := cSrcK }
  | .call o off => some { op := 0x04, form := .f96i, o := o, d := cVK, imm := off.toNat }
  | .callx o => some { op := 0x05, form := .f64, o := o, d := cVK, a := cSrcK }
  | .ret o => some { op := 0x06, form := .f64, o := o, a := cSrcK }
  | .exit o => some { op := 0x07, form := .f64, o := o }
  | .trap o code => some { op := 0x08, form := .f64, o := o, m := code, ok := code < 256 }
  | .yield o => some { op := 0x09, form := .f64, o := o }
  | .bar o id => some { op := 0x0A, form := .f64, o := o, m := id, ok := id < 16 }
  | .pldr o q => some { op := 0x0B, form := .f64, o := o, d := [.p], m := bit q }
  | .pand o => some (iPred o 0 true)
  | .por o => some (iPred o 1 true)
  | .pxor o => some (iPred o 2 true)
  | .pandn o => some (iPred o 3 true)
  | .pnot o => some (iPred o 4 false)
  | .pmov o => some (iPred o 5 false)
  | .voteAny o seg => some (iVote o 0 seg [.p])
  | .voteAll o seg => some (iVote o 1 seg [.p])
  | .voteBallot o seg => some (iVote o 2 seg cVKT)
  | .voteCount o seg => some (iVote o 3 seg cVKT)
  | .xset o l => some { op := 0x0E, form := .f96i, o := o, d := [.x], a := cSrcK, imm := l, ok := l ≤ 256 }
  | .xadd o => some { op := 0x0F, form := .f64, o := o, d := [.x], a := [.x], b := cSrcK }
  | .qbind o => some { op := 0x10, form := .f64, o := o, d := [.eq], a := [.k0, .kn, .imm] }
  | .qstat o => some { op := 0x11, form := .f64, o := o, d := cVKT, a := [.eq] }
  | .srd o n => some { op := 0x12, form := .f64, o := o, d := cVKT, m := n, ok := srListed n }
  | .swr o n => some { op := 0x13, form := .f64, o := o, a := cSrcK, m := n, ok := srListed n }
  | .tret o => some { op := 0x14, form := .f64, o := o }
  | .sret o => some { op := 0x15, form := .f64, o := o }
  | .csave o => some { op := 0x16, form := .f64, o := o, d := cVK, a := cSrcK, b := cSrcK, ll := true }
  | .cloadLd o => some (iCload o 0 cSrcK)
  | .cloadRun o => some (iCload o 1 cSrcK)
  | .cloadGo o => some (iCload o 2 [.k0])
  | .cloadEnd o => some (iCload o 3 [.k0])
  -- lane ALU, integer (R127)
  | .add o ty s => some (iInt2 0x20 o ty s)
  | .sub o ty s => some (iInt2 0x21 o ty s)
  | .mul o ty s => some (iInt2 0x22 o ty s)
  | .mulh o ty => some (iInt2 0x23 o ty false)
  | .mad o ty s => some (iInt3 0x24 o ty s)
  | .madw o ty s => some { iInt3 0x25 o ty s with ok := ty == .i32 || ty == .n32 }
  | .div o ty s => some (iInt2 0x26 o ty s)
  | .rem o ty => some (iInt2 0x27 o ty false)
  | .min o ty => some (iInt2 0x28 o ty false)
  | .max o ty => some (iInt2 0x29 o ty false)
  | .abs o ty s => some (iAbs 0x2A o ty s)
  | .neg o ty s => some (iAbs 0x2B o ty s)
  | .and o ty => some (iInt2 0x2C o ty false)
  | .or o ty => some (iInt2 0x2D o ty false)
  | .xor o ty => some (iInt2 0x2E o ty false)
  | .not o ty => some (iInt1 0x2F o ty)
  | .andn o ty => some (iInt2 0x30 o ty false)
  | .shl o ty s => some (iInt2 0x31 o ty s)
  | .shr o ty => some (iInt2 0x32 o ty false)
  | .sra o ty => some (iInt2 0x33 o ty false)
  | .rot o ty => some (iInt2 0x34 o ty false)
  | .clz o ty => some (iInt1 0x35 o ty)
  | .popc o ty => some (iInt1 0x36 o ty)
  | .brev o ty => some (iInt1 0x37 o ty)
  | .ctz o ty => some (iInt1 0x66 o ty)
  | .bfx o ty => some (iInt3 0x38 o ty false)
  | .bfi o ty pos len => some { op := 0x39, form := .f96c, o := o, d := cDst, a := cSrc, b := cSrc, m := mInt ty false,
                                m2 := pos + 64 * len, ok := tyInt ty && pos < 64 && len < 64 && pos + len ≤ tyW ty }
  | .prmt o => some (iInt3 0x3A o .n64 false)
  | .sel o ty => some { iInt3 0x3B o ty false with c := .p :: cSrc }
  | .cmp o ty cond => some { op := 0x3C, form := .f64, o := o, d := .p :: cDst, a := cSrc, b := cSrc,
                             m := mInt ty false (condCode cond), ok := tyInt ty, pdst := tyN ty != 1 }
  | .addc o ty sub co => some { op := 0x3D, form := .f96c, o := o, d := cDst, a := cSrc, b := cSrc, c := [.p, .k0],
                                m := mInt ty false,
                                m2 := 128 * bit sub + (match co with | none => 0 | some n => 64 + n),
                                ok := (ty == .n64 || ty == .n32) && (match co with | none => true | some n => n < 48) }
  | .lea o sh sx => some { iInt3 0x3E o .n64 false with m2 := sh + 8 * bit sx, ok := sh < 8 }
  | .mov o => some { op := 0x3F, form := .f64, o := o, d := cDst, a := cSrc, m := 4 }
  | .ldiF96 o ty imm => some { op := 0x58, form := .f96i, o := o, d := cDst, m := tyCode ty, imm := imm.toNat,
                               ok := tyN ty != 1 || 32 < tyW ty || imm.toNat < 2 ^ tyW ty }
  | .ldiF128 o ty imm => some { op := 0x58, form := .f128i, o := o, d := cDst, m := tyCode ty, imm := imm.toNat }
  -- lane ALU, float (R139 to R149)
  | .fadd o m => some (iFlt2 0x40 o m)
  | .fsub o m => some (iFlt2 0x41 o m)
  | .fmul o m => some (iFlt2 0x42 o m)
  | .ffma o m => some { iFlt2 0x43 o m with form := .f96c, c := cSrc }
  | .fmin o m nan => some { iFlt2 0x44 o m with m := mFlt m (bit nan), ok := tyFlt m.ty && m.rm == .rne }
  | .fmax o m nan => some { iFlt2 0x45 o m with m := mFlt m (bit nan), ok := tyFlt m.ty && m.rm == .rne }
  | .fcmp o m cond => some { iFlt2 0x46 o m with d := .p :: cDst, m := mFlt m (fcondCode cond),
                                                 ok := tyFlt m.ty && m.rm == .rne, pdst := tyN m.ty != 1 }
  | .fclass o m => some { iFlt2 0x47 o m with b := [], ok := tyFlt m.ty && m.rm == .rne }
  | .frnd o m nx => some { iFlt2 0x48 o m with b := [], m := mFlt m (bit nx) }
  | .fdiv o m => some (iFlt2 0x49 o m)
  | .fsqrt o m => some { iFlt2 0x4A o m with b := [] }
  | .frcp o m => some (iSpec 0x4B o m)
  | .frsq o m => some (iSpec 0x4C o m)
  | .fex2 o m => some (iSpec 0x4D o m)
  | .flg2 o m => some (iSpec 0x4E o m)
  | .fsin o m => some (iSpec 0x4F o m)
  | .fcos o m => some (iSpec 0x50 o m)
  | .ftanh o m => some (iSpec 0x51 o m)
  | .fdot2 o m => some { iFlt2 0x52 o m with form := .f96c, c := cSrc,
                                             ok := m.ty == .f32x2 || m.ty == .f16x4 || m.ty == .bf16x4 }
  | .fscal o m => some (iFlt2 0x53 o m)
  -- conversions (R150 to R153)
  | .cvt o dt st rm => some { op := 0x54, form := .f64, o := o, d := cDst, a := cSrc, m := mCvt dt st rm,
                              ok := tyN dt == tyN st && dt != st && (!(tyInt dt && tyInt st) || rm == .rne) }
  | .cvtmxQ o dt st rm => some { op := 0x55, form := .f96c, o := o, d := cDst, a := cSrc, b := cSrc, c := cSrc,
                                 m := mCvt dt st rm, m2 := 0, ok := tyMx dt && (st == .bf16x4 || st == .f16x4) }
  | .cvtmxD o dt st rm g => some { op := 0x55, form := .f96c, o := o, d := cDst, a := cSrc, c := cSrc,
                                   m := mCvt dt st rm, m2 := 1 + 4 * g,
                                   ok := tyMx st && (dt == .f32x2 || dt == .bf16x4) && g < 8 &&
                                         tyN dt * g + tyN dt ≤ tyN st }
  | .cvtmxS o dt => some { op := 0x55, form := .f96c, o := o, d := cDst, a := cSrc, m := mCvt dt .f32 .rne, m2 := 2,
                           ok := tyMx dt }
  | .pk o dt st rm => some { op := 0x56, form := .f64, o := o, d := cDst, a := cSrc, b := cSrc, m := mCvt dt st rm,
                             ok := pkPair st dt && (!tyInt st || rm == .rne) }
  | .upk o dt st hi => some { op := 0x57, form := .f64, o := o, d := cDst, a := cSrc,
                              m := tyCode dt + 32 * tyCode st + 1024 * bit hi, ok := pkPair dt st }
  -- cross-lane (R154 to R158)
  | .shfl o mode seg => some { op := 0x60, form := .f64, o := o, d := cDst, a := cSrc, b := cSrc,
                               m := 4 + 32 * mode + 128 * seg, ok := mode < 4 && seg < 5 }
  | .qx o mode => some { op := 0x61, form := .f64, o := o, d := cDst, a := cSrc, m := 4 + 32 * mode, ok := mode < 3 }
  | .qbc o lane => some { op := 0x62, form := .f64, o := o, d := cDst, a := cSrc, m := 4 + 32 * lane, ok := lane < 4 }
  | .credc o ty op seg => some { op := 0x63, form := .f64, o := o, d := cDst, a := cSrc,
                                 m := tyCode ty + 32 * copCode op + 256 * seg,
                                 ok := seg < 5 && (tyInt ty || (tyFlt ty && copCode op < 3)) }
  | .cscan o ty op seg ex => some { op := 0x64, form := .f64, o := o, d := cDst, a := cSrc,
                                    m := tyCode ty + 32 * copCode op + 256 * seg + 2048 * bit ex,
                                    ok := seg < 5 && (tyInt ty || (tyFlt ty && copCode op < 3)) }
  | .matchx o ty seg => some { op := 0x65, form := .f64, o := o, d := cDst, a := cSrc, m := tyCode ty + 256 * seg,
                               ok := seg < 5 && (ty == .n64 || ty == .n32 || ty == .n16 || ty == .n8) }
  -- load-store engine (R183)
  | .ld o m => some { op := 0x70, form := .f96c, o := o, d := cVX, a := cSrc, b := cSrc, m := mLd m,
                      m2 := offF 12 m.off, ok := m.ch < 3 && m.span < 8 && offOk 12 m.off }
  | .st o m => some { op := 0x71, form := .f96c, o := o, a := cSrc, b := cSrc, c := cSrc,
                      m := mLd ⟨m.size, m.rel, bit m.strm, 0, m.off⟩, m2 := offF 12 m.off,
                      ok := lsizeCode m.size < 4 && offOk 12 m.off }
  | .ldl o m => some (iLoc 0x72 o m true true)
  | .stl o m => some (iLoc 0x73 o m false false)
  | .ldr o m => some (iLoc 0x74 o m true false)
  | .str o m => some (iLoc 0x75 o m false false)
  | .ldk o m => some { op := 0x76, form := .f96c, o := o, d := [.kn], a := cSrc, b := cSrc, m := mLd m,
                       m2 := offF 12 m.off, ok := m.ch < 3 && m.span < 8 && offOk 12 m.off && m.acq == none }
  | .pf o msc span off => some { op := 0x77, form := .f96c, o := o, a := cSrc, b := cSrc, m := 8 * bit msc + 32 * span,
                                 m2 := offF 12 off, ok := span < 8 && offOk 12 off }
  | .latom o m => some { op := 0x78, form := .f96c, o := o, d := cVX, a := cSrc, b := cSrc,
                         c := if m.op == .cas then cSrc else [],
                         m := tyCode m.ty + 32 * m.swz + 256 * bit m.rem + 512 * aopCode m.op, m2 := offF 12 m.off,
                         ok := latomTy m.op m.ty && m.swz < 4 && offOk 12 m.off }
  | .lpresQ o off => some { op := 0x79, form := .f96c, o := o, d := cVKT, a := cSrc, m := 0, m2 := offF 12 off,
                            ok := offOk 12 off }
  | .lpresClr o off => some { op := 0x79, form := .f96c, o := o, a := cSrc, b := cSrc, m := 1, m2 := offF 12 off,
                              ok := offOk 12 off }
  | .lpresSet o off => some { op := 0x79, form := .f96c, o := o, a := cSrc, b := cSrc, m := 2, m2 := offF 12 off,
                              ok := offOk 12 off }
  | .tlbi o kind sc => some { op := 0x7A, form := .f64, o := o, d := cDst, a := cSrc,
                              b := if kind = 1 then cSrc else [], m := kind + 4 * scopeCode sc, ll := true,
                              ok := kind < 3 && (sc == .core || sc == .col || sc == .dev) }
  | .asgen o => some { op := 0x7B, form := .f64, o := o, d := cDst, a := cSrc, ll := true }
  -- slice engine (R200, R214, R221, R224, R225, R204)
  | .fence o acq rel sc scope => some {
      op := 0x90, form := .f64, o := o,
      m := scopeCode scope + 16 * (if sc then 3 else if acq && rel then 2 else bit rel),
      ok := if sc then acq && rel else acq || rel }
  | .cflush o sc off => some (iRange 0x91 o sc 0 off)
  | .cwb o sc off => some (iRange 0x92 o sc 0 off)
  | .cinv o sc off => some (iRange 0x93 o sc 0 off)
  | .cspan o sc span off => some (iRange 0x94 o sc span off)
  | .nred o op ty sc off => some {
      op := 0x95, form := .f96c, o := o, a := cSrc, b := cSrc,
      m := tyCode ty + 32 * ropCode op + 512 * scopeCode sc, m2 := offF 12 off,
      ok := op != .swap && op != .cas &&
            (aopTy op ty || (ty == .f32x2 && (op == .fadd || op == .fmin || op == .fmax))) &&
            3 ≤ scopeCode sc && offOk 12 off }
  | .wwait o tl off => some { op := 0x96, form := .f96c, o := o, d := cVXK, a := cSrc, b := cSrc, m := tl,
                              m2 := offF 12 off, ok := toOk tl 31 && offOk 12 off }
  | .wwake o => some { op := 0x97, form := .f64, o := o, a := cSrc, b := cSrc }
  | .mswin o => some { op := 0x98, form := .f64, o := o, d := cDst, a := cSrc, b := cSrc, ll := true }
  -- service course (R233, R238, R246, R247)
  | .atom o op ty ord sc off => some {
      op := 0xA0, form := .f96c, o := o, d := cVXK, a := cSrc, b := cSrc,
      c := if op == .cas then cSrc else [], m := tyCode ty + 32 * aopCode op + 512 * scopeCode sc,
      m2 := offF 10 off + 1024 * ordCode ord, ok := aopTy op ty && 3 ≤ scopeCode sc && offOk 10 off }
  | .txb o => some { op := 0xA1, form := .f64, o := o }
  | .txld o off => some { op := 0xA2, form := .f96c, o := o, d := cVXK, a := cSrc, b := cSrc, m := 3,
                          m2 := offF 12 off, ok := offOk 12 off }
  | .txst o off => some { op := 0xA3, form := .f96c, o := o, a := cSrc, b := cSrc, c := cSrc, m := 3,
                          m2 := offF 12 off, ok := offOk 12 off }
  | .txe o ord sc pn => some { op := 0xA4, form := .f64, o := o, d := cVKn,
                               m := pn + 128 * ordCode ord + 512 * scopeCode sc, ok := 3 ≤ scopeCode sc && pn < 48 }
  | .txa o => some { op := 0xA5, form := .f64, o := o }
  | .dalloc o pn => some { op := 0xA6, form := .f64, o := o, d := cVKn, a := cSrc, b := cSrc, m := pn, ok := pn < 48 }
  | .dfree o => some { op := 0xA7, form := .f64, o := o, a := cSrc }
  -- Slip (R254, R265, R280)
  | .slipLd o ring e => some (iSlip o 0 ring e)
  | .slipSt o e => some (iSlip o 1 false e)
  | .slipRl o ring e => some (iSlip o 2 ring e)
  | .slipBs o e => some (iSlip o 3 false e)
  | .slipx o bs ring tgt e => some { iSlip o (if bs then 3 else 0) ring e with
      op := 0xB1, m := (if bs then 3072 else 0) + 512 * bit ring + 128 * tgtCode tgt,
      ok := eSlipOk (if bs then 3 else 0) e && (!ring || !bs) }
  | .slipc o lb e => some { iSlip o 0 false e with op := 0xB2, m2 := lb, ok := eSlipOk 0 e && lb < 4 }
  | .tlr o addr => some { op := 0xB3, form := .f96c, o := o, d := cVXK, a := cSrc,
                          b := if addr then cSrc else [], c := if addr then cSrc else [], m := bit addr }
  | .rinit o n => some { op := 0xB4, form := .f64, o := o, a := cSrc, b := cSrc, m := n, ok := n < 32 }
  | .rwait o => some { op := 0xB5, form := .f64, o := o, d := cVKn, a := cSrc }
  | .rwaitB o => some { op := 0xB5, form := .f64, o := o, d := cVKn, a := [.k0], m := 1 }
  | .rrel o => some { op := 0xB6, form := .f64, o := o, a := cSrc, b := cSrc }
  | .rrelB o => some { op := 0xB6, form := .f64, o := o, a := [.k0], b := cSrc, m := 1 }
  | .rstatRing o => some { op := 0xB7, form := .f64, o := o, d := cVKT, a := cSrc }
  | .rstatB o => some { op := 0xB7, form := .f64, o := o, d := cVKT, a := [.k0], m := 1 }
  | .rstatSt o => some { op := 0xB7, form := .f64, o := o, d := cVKT, a := [.k0], m := 2 }
  | .rstatStc o => some { op := 0xB7, form := .f64, o := o, d := cVKT, a := [.k0], m := 3 }
  -- Wheel (R292)
  | .wcfg o => some { op := 0xC0, form := .f64, o := o, d := [.v, .kn, .t], a := cSrc }
  | .wzero o => some { op := 0xC1, form := .f64, o := o, a := cSrc }
  | .wloop o m => some { op := 0xC2, form := .f128e, o := o, d := [.k0, .kn, .eq], a := cSrc, b := cSrc, c := cSrc,
                         m := 32 * m.tile, m2 := m.tag, e := eWloop m,
                         ok := m.tile < 16 && m.tag < 4096 && m.afmt < 16 && m.bfmt < 16 &&
                               wheelFmtOk m.afmt m.bfmt m.amx m.bmx }
  | .wdrain o m => some { op := 0xC3, form := .f128e, o := o, d := [.k0, .kn, .eq], a := cSrc, b := cSrc, c := cSrc,
                          m := 32 * m.tile + 512 * scopeCode m.scope, m2 := m.tag, e := eWdrain m,
                          ok := m.tile < 16 && m.tag < 4096 && eWdrainOk m }
  | .waccRd o => some { op := 0xC4, form := .f64, o := o, d := [.v], a := cSrc }
  | .waccWr o => some { op := 0xC4, form := .f64, o := o, a := cSrc, b := cSrc, m := 1 }
  | .wstat o clr => some { op := 0xC5, form := .f64, o := o, d := cVKT, m := bit clr }
  -- Coil (R311, R313)
  | .cdef o p tl => some { op := 0xD0, form := .f64, o := o, m := semiCode p.semi + 8 * shapeCode p.shape + 32 * tl,
                           ok := toOk tl 30 }
  | .cdefFree o => some { op := 0xD0, form := .f64, o := o, m := 4096 }
  | .cjob o m => some { op := 0xD1, form := .f128e, o := o, d := [.k0, .kn, .eq], a := cSrc,
                        m := 512 * scopeCode m.scope, m2 := m.tag, e := eCjob m,
                        ok := m.tag < 4096 && m.cin < 3 && m.cm1 < 128 && m.lm1 < 256 }
  | .cseal o => some { op := 0xD2, form := .f64, o := o }
  | .ccarLd o sc loc => some { op := 0xD3, form := .f64, o := o, d := [.k0, .kn], a := cSrc, b := cSrc,
                               m := 2 * bit loc + 4 * scopeCode sc }
  | .ccarSt o sc loc => some { op := 0xD3, form := .f64, o := o, d := [.k0, .kn], a := cSrc, b := cSrc,
                               m := 1 + 2 * bit loc + 4 * scopeCode sc }
  | .cstat o clr => some { op := 0xD4, form := .f64, o := o, d := cVKT, m := bit clr }
  -- node dispatcher (R348)
  | .nsig o => some { op := 0xD8, form := .f64, o := o }
  | .nwait o => some { op := 0xD9, form := .f64, o := o, d := cVKT }
  | .nlaunch o prio col => some { op := 0xDA, form := .f96c, o := o, d := cVK, a := cSrc, b := if col then cSrc else [],
                                  m := prio + 4 * bit col, ok := prio < 4 }
  -- fabric port (R385)
  | .gst o sz off => some { op := 0xE0, form := .f96c, o := o, d := [.k0, .v, .vx, .kn], a := cSrc, b := cSrc, c := cSrc,
                            m := lsizeCode sz, m2 := offF 12 off, ok := lsizeCode sz < 4 && offOk 12 off }
  | .gwait o tl => some { op := 0xE1, form := .f64, o := o, d := cVKT, a := cSrc, b := cSrc, m := tl, ok := toOk tl 30 }
  | .gsn o => some { op := 0xE2, form := .f64, o := o, d := cVKT, a := cSrc }
  | .fred o op ty off => some {
      op := 0xE3, form := .f96c, o := o, d := [.k0, .v, .vx, .kn], a := cSrc, b := cSrc,
      c := cSrc, m := tyCode ty + 32 * ropCode op, m2 := offF 12 off,
      ok := op != .swap && op != .cas && op != .fmin && op != .fmax && aopTy op ty && offOk 12 off }
  | .fbar o => some { op := 0xE4, form := .f64, o := o, d := cVKT, a := cSrc }
  -- events have no words
  | .suspensionRecordPush .. | .translationWalkDone .. | .generationRefusal .. | .loadDataLands ..
  | .rangeOpAtSlice .. | .sliceRead .. | .sliceWrite .. | .homeStreamWrite .. | .replicationSwitch ..
  | .replicationCounterHalving .. | .replicaInvalidation .. | .nredAtHome .. | .waitEntryEnd .. | .waitDeadlineExpiry ..
  | .atomAtOwner .. | .serviceReply .. | .txCommitAtOwner .. | .copyPieceLands .. | .copyComplete ..
  | .completionPortPush .. | .slipTranslationRewalk .. | .slipStallTimeout .. | .commandAbandon ..
  | .wheelCommandStart .. | .wloopComplete .. | .wdrainComplete .. | .cjobComplete .. | .carrySend .. | .carryArrive ..
  | .carryLimitExpiry .. | .launchStore .. | .dispatchRecord .. | .heldNodeEnterPool .. | .teamPlace ..
  | .splitReservation .. | .teamRetire .. | .nodeComplete .. | .priorityDrain .. | .drain .. | .drainLimitExpiry ..
  | .forcedSave .. | .restore .. | .parkEviction .. | .glazeStamp .. | .glazeApply .. | .glazeReplayRequest ..
  | .gwaitTimeout .. | .fredComplete .. | .fbarEpisodeComplete .. | .fabricRequestAtPeer .. | .fabricTimerExpiry ..
  | .quiesceStop .. | .quiesceDrain | .quiesceReconfigure .. | .quiesceResume | .coneEvaluation .. | .powerManagerTick ..
  | .waitaddrWrite .. | .columnWaitEnd .. | .wakeWrite .. | .columnTaskHandoff .. | .taskqPop .. | .taskdoneWrite ..
  | .suspqPop .. | .drainreqWrite .. | .arenaWrite .. | .pinmapWrite .. | .gwinWrite .. | .migqPop | .raslogPop ..
  | .registerWrite .. | .hostWrite .. | .hostRead .. | .hostNotification .. | .correctedError .. | .uncorrectableError ..
  | .powerOnReset .. | .measurementReport .. | .managementRequest .. | .storeAcknowledgement .. | .ccarComplete ..
  | .dallocAtServiceCourse .. | .dfreeAtOwner .. | .pwrnowRead | .deviceNumberSet .. => none

/-- The operands of an instruction, none for an event. -/
def opsOf (i : Instr) : Option Ops := (info i).map (·.o)

/-- Supervisor-only opcodes (R52). -/
def supOnly (op : Nat) : Bool := op == 0x15 || op == 0x16 || op == 0x17 || op == 0x7A || op == 0x7B || op == 0x98

/-- Control transfers (R50). -/
def isTransfer : Instr → Bool
  | .bra .. | .brx .. | .call .. | .callx .. | .ret .. | .exit .. | .tret .. | .sret .. => true
  | _ => false

/-- Instructions that must stand last before their trailer (R50, R82). -/
def mustBeLast (i : Instr) : Bool := isTransfer i || (match i with | .bar .. => true | _ => false)

end Sys2Proof.Machine
end

