-- ==== Sys2Proof/Machine/State.lean ====
section
/-! DEFINITION. The state of the LY-4 as plain data: lanes, courses, teams, cores, columns, the package, memory, the
accesses and commands in flight, and the reasons for which the model stops. -/

namespace Sys2Proof.Machine

/-- Lane classes of R63. -/
inductive LaneCls where
  | live | helper | absent
  deriving DecidableEq, Repr

/-- A fault with its trap state (R97). `pc` overrides LTPC where it is not the instruction's address (R37, R78, R80). -/
structure FltRec where
  cls : Nat
  reason : Nat := 0
  addr : Word := 0
  detail : Nat := 0
  pc : Option Word := none
  deriving DecidableEq, Repr

/-- A deferred fault or abandonment pending for a lane, with the issue number of its instruction (R27, R174). -/
structure DefFault where
  ord : Nat
  cls : Nat
  reason : Nat
  addr : Word
  detail : Nat
  deriving DecidableEq, Repr

/-- A lane's transaction (R237). -/
structure Txn where
  opened : Bool := false
  doomed : Bool := false
  line : Option Nat := none
  vline : Nat := 0
  gen : Nat := 0
  rset : List (Nat × Word) := []
  wset : List (Nat × Word) := []
  deriving DecidableEq, Repr

/-- What a lane does at the trailer of its batch instead of going on in sequence (R66, R78, R79, R82). -/
inductive Xfer where
  | jump (pc : Word) (depth : Nat)
  | ret (pc : Word) (pend : Bool) (issued twr : Nat)
  | exit
  | hold (id : Nat)
  deriving DecidableEq, Repr

/-- A lane position of a course (R63, R65, R68, R73, R96). `vE` and `pE` hold a 1 for every EMPTY register; `xfer` is the
transfer of the batch under way, `back` marks one that goes backward (R67), `bad` holds the specifiers of uncorrectable registers
and temporaries (R400). -/
structure Lane where
  cls : LaneCls := .absent
  pc : Word := 0
  seqIn : Bool := false
  depth : Nat := 0
  pend : Bool := false
  issued : Nat := 0
  twr : Nat := 0
  held : Option Nat := none
  intrap : Bool := false
  t : List (Nat × Word) := []
  v : List (Nat × Word) := []
  vE : BitVec 256 := 0
  p : BitVec 48 := 0
  pE : BitVec 48 := 0
  xv : List (Nat × Nat) := []
  xl : List (Nat × Nat) := []
  ltcause : Word := 0
  ltpc : Word := 0
  ltaddr : Word := 0
  ltinfo : Word := 0
  tx : Txn := {}
  defs : List DefFault := []
  cone : Option (Nat × Nat) := none
  xfer : Option Xfer := none
  back : Bool := false
  bad : List Nat := []
  deriving DecidableEq, Repr

/-- A cohort inside a batch (R50, R65): its lanes, its PC and the instructions issued. The front end sets `succ`, the sequential successor of
the instruction at `pc` (R38), `succIn` when that is the start of a next line still to be entered, and `link`, the
successor of the trailer that follows (R78). -/
structure Cohort where
  lanes : List Nat
  pc : Word
  issued : Nat
  yld : Bool := false
  succ : Word := 0
  succIn : Bool := false
  link : Word := 0
  deriving DecidableEq, Repr

/-- A leaf translation (R164, R170): the page's base and level, the generation walked under and the leaf entry. -/
structure TlbEnt where
  asid : Nat
  vbase : Nat
  lvl : Nat
  gen : Nat
  pte : Nat
  deriving DecidableEq, Repr

/-- The outcome of a walk for the course that waits for it: a translation, or the fault of R166. -/
structure WalkRes where
  asid : Nat
  page : Nat
  ent : Option TlbEnt
  reason : Nat
  detail : Nat
  memerr : Bool := false
  deriving DecidableEq, Repr

/-- Where a memory range lies: global under an ASID, local memory of the team's core by physical offset, or remote-local
by gang position (R410). -/
inductive Space where
  | glob (asid : Nat)
  | loc (team : Nat)
  | rem (team pos : Nat)
  deriving DecidableEq, Repr

/-- A range-lock entry (R29, R410), of command `cmd`; `idx` is its place in the table. -/
structure LockEnt where
  cmd : Nat
  idx : Nat
  src : Bool
  space : Space
  lo : Nat
  hi : Nat
  deriving DecidableEq, Repr

/-- What a parked course waits for (R24, R69, R171, R185, R215). -/
inductive Wait where
  | vFull (lane n : Nat)
  | pFull (lane n : Nat)
  | kFull (n : Nat)
  | pop (port k : Nat)               -- entry `k` of a port has come (R89)
  | room (port : Nat)
  | walk (asid page : Nat)
  | line (team ln : Nat)
  | perf (id lvl : Nat)              -- access `id` performed at scope level `lvl`
  | locks (ents : List LockEnt)      -- room in the range-lock table and no conflict
  | lockRoom (n : Nat)               -- room in the range-lock table (R296)
  | ringFree (team hdr n : Nat)
  | halfFree (half : Nat)
  | wheelRoom
  | wheelTiles (tiles : Nat)
  | wheelTeam
  | coilRoom
  | coilIdle
  | claim
  | launchRoom (col prio : Nat)
  | nodeDeps
  | gwait (group n : Nat) (deadline : Option Nat)
  | fbar (group ep : Nat)
  | tick
  deriving DecidableEq, Repr

/-- A course (R62 to R72, R98, R99). `refused` and `recRefused` count the refusals of its fetch and of its reads of records
(R31), `barId` is the issue number that came next when a barrier last released it (R83,
R320), `old` the cycle in which STVEC was last written with its value at the start of that cycle (R93). -/
structure Course where
  num : Nat
  seq : Nat
  lanes : List Lane
  backcnt : Nat := 0
  lastCoh : Option (List Nat) := none
  fpsr : Nat := 0
  stvec : Word := 0
  awaits : List Nat := [0x100, 0x100, 0x100]
  parked : Option (List Wait) := none
  suspended : Bool := false
  coh : Option Cohort := none
  walked : List WalkRes := []
  refused : Nat := 0
  recRefused : Nat := 0
  fbarEp : Option (Nat × Nat) := none
  gwaitEnd : Option Nat := none
  barId : Nat := 0
  old : Option (Nat × Word) := none
  deriving DecidableEq, Repr

/-- A split (R74): registers per lane, local memory and L1 in KiB. -/
structure Split where
  regs : Nat
  loc : Nat
  l1 : Nat
  deriving DecidableEq, Repr

/-- A queue entry of 32 slots with its mask (R89), the scope of the acquire that its pop makes, and the number of its push into a
completion port (R279). -/
structure QEntry where
  slots : List Word
  mask : Nat
  scope : Nat := 0
  ord : Nat := 0
  deriving DecidableEq, Repr

/-- A line buffer of `slipc` (R275): the record bytes, the coordinates and E of the last command through it. -/
structure LineBuf where
  data : List Byte
  coords : List Int
  e : Nat
  deriving DecidableEq, Repr

/-- A team (R63, R73, R91, R100, R104, R169) with its per-team engine state (R262, R268, R275, R291, R293, R303, R320,
R349). `kE` holds a 1 for every EMPTY uniform register, `kScope` the completion scope of a counter not yet consumed (R26), `absent` the lines of local memory without presence (R28). `record` is the
physical address of the node's record, `node` its SELF; `placed` is the number of its placement, `saving`, `saveTries` and `saveWid`
a forced save under way with the refusals of its writes (R31) and their number, `kbad` and `lbad` the
uncorrectable uniform registers and local words (R400). `named` holds the counters that commands have named and that have
not reached zero since (R34), `old` the cycle in which FPCR, UTVEC or UTMASK was last written with their values at its start
(R93, R159), `turn` the cycle in which a course last issued and that course (R73, R88). -/
structure Team where
  serial : Nat
  core : Nat
  slot : Nat
  node : Nat
  record : Nat := 0
  gang : Nat := 0
  idx : Nat := 0
  tx : Nat := 0
  ty : Nat := 0
  tz : Nat := 0
  nteams : Nat := 1
  gangpos : Nat := 0
  gangsize : Nat := 1
  sup : Bool := false
  coil : Bool := false
  nlanes : Nat
  split : Split
  courses : List Course
  k : List (Nat × Word) := []
  kE : BitVec 256 := 0
  kScope : List (Nat × Nat) := []
  eqs : List (Nat × Nat) := []
  fpcr : Nat := 0
  terr : Bool := false
  utvec : Word := 0
  utmask : Word := 0
  ckvec : Word := 0
  asid : Nat := 0
  ptroot : Nat := 0
  lmem : List (Nat × Byte) := []
  absent : List Nat := []
  signalled : Bool := false
  early : Bool := false
  placed : Nat := 0
  ports : List (Nat × List QEntry) := []
  slipErr : Nat := 0
  ringScope : List (Nat × Nat) := []
  lbs : List (Nat × LineBuf) := []
  tiles : Nat := 0
  wheelErr : Nat := 0
  wheelHalf : Option Nat := none
  saving : Bool := false
  saveTries : Nat := 0
  saveWid : Option Nat := none
  evicted : Bool := false
  kbad : List Nat := []
  lbad : List Nat := []
  named : List Nat := []
  old : Option (Nat × Nat × Word × Word) := none
  turn : Option (Nat × Nat) := none
  deriving DecidableEq, Repr

/-- Where a result goes when it lands (R23, R231): a register of a lane, a uniform register, registers of several lanes, an
entry of the course's group buffer of Coil in the slot of a lane (R45, R89, R315), or nowhere. -/
inductive Dest where
  | none
  | v (lane n : Nat)
  | k (n : Nat)
  | vs (rs : List (Nat × Nat))       -- one register in each of several lanes (R73)
  | push (lane : Nat)
  deriving DecidableEq, Repr

/-- Kinds of access in flight. -/
inductive FKind where
  | load | pf | store | mmioLoad | ldl | stl | ldr | str | latom | latomR | atom | nred | txld | txe | wwait | wwake
  | lpres (k : Nat) | range (op : Nat) | dalloc | dfree | rwait | rwaitB | gst | fred | fbar | launch
  deriving DecidableEq, Repr

/-- An access that has been issued and is not finished (R174, R185, R186, R201, R211, R222, R224, R230). `stage` counts
its progress: 0 issued, 1 accepted by the near slice, or value fixed, 2 performed at its home, 3 home ack, 4 value ready
to land. `after` holds the accesses that must first be performed, each with its scope level. `ins` is the issue number that came
next when its instruction issued, `tag` the merge tag of its core and `since` the cycle when it left (R219); a request in its
owner's queue has stage 1 and the number `acc` of its entry (R230). `past` marks a write that its home has performed for another
access (an atomic, a commit, an engine command) and that waits for acknowledgements only, `eng` a write of an engine command, for which
no release waits (R215). -/
structure Flight where
  id : Nat
  kind : FKind
  team : Nat
  crs : Nat
  lane : Nat
  core : Nat
  helper : Bool := false
  asid : Nat := 0
  gen : Nat := 0
  root : Nat := 0
  va : Word := 0
  pa : Nat := 0
  attr : Nat := 0
  fmode : Nat := 0
  peer : Nat := 0
  size : Nat := 8
  sext : Bool := false
  data : Word := 0
  cmp : Word := 0
  aop : AOp := .add
  ty : Ty := .n64
  dest : Dest := .none
  pn : Option Nat := none
  scope : Nat := 0
  acq : Bool := false
  rel : Bool := false
  span : Nat := 0
  fillL1 : Bool := false
  stage : Nat := 0
  val : Word := 0
  tries : Nat := 0
  after : List (Nat × Nat) := []
  acc : Nat := 0
  ipc : Word := 0
  cols : List Nat := []
  count : Nat := 0
  rset : List (Nat × Word) := []
  wset : List (Nat × Word) := []
  expire : Option Nat := none
  swz : Nat := 0
  ins : Nat := 0
  tag : Nat := 0
  since : Nat := 0
  past : Bool := false
  eng : Bool := false
  deriving DecidableEq, Repr

/-- An L1 line (R176). -/
structure L1Line where
  line : Nat
  asid : Nat
  gen : Nat
  data : List Byte
  deriving DecidableEq, Repr

/-- The running course of a sequencer (R72): team serial, course number, consecutive batches, and whether the last batch
yielded. -/
structure SeqSt where
  run : Option (Nat × Nat) := none
  batches : Nat := 0
  yielded : Bool := false
  deriving DecidableEq, Repr

/-- How an engine command reports completion (R254, R291): `ring` names the team that holds the ring. -/
inductive Report where
  | none
  | counter (k : Nat)
  | port (n : Nat)
  | ring (team hdr slot : Nat)
  deriving DecidableEq, Repr

/-- A tensor layout record as read (R249, R250); `boxes` holds the extents minus 1, `strides` STRIDE1 to STRIDE4. -/
structure Tlr where
  base : Word
  fillval : Nat
  scope : Nat
  fill : Bool
  swz : Nat
  efmt : Nat
  loc : Bool
  ndim : Nat
  sizes : List Nat
  boxes : List Nat
  strides : List Nat
  scaleoff : Nat
  deriving DecidableEq, Repr

/-- Where the box side of a Slip copy lies (R255, R258). -/
inductive SlipDst where
  | loc
  | rem (team pos : Nat)
  | bst (half : Nat)
  deriving DecidableEq, Repr

/-- A Slip command (R252 to R278). `off` is where the box begins, `rows` the new rows of a `slipc` (R276). `todo` holds
the 64-byte pieces of the box not yet taken, `landing` those written but not yet performed at SCOPE, with the number of
their write; `refusals` the pieces that a slice has refused, once for each refusal (R31); `buf` the 8-byte words of local memory that it
has read (R259); `stall` the cycles of the first failed walk and of the last one, and the address (R277); `fail` the class and
address of a fault that abandons the command (R278). -/
structure SlipCmd where
  id : Nat
  team : Nat
  crs : Nat
  lane : Nat
  asid : Nat
  root : Nat
  sup : Bool
  ipc : Word
  dir : Nat
  dst : SlipDst
  off : Nat
  bytes : Nat
  report : Report
  tgt : Option XTgt
  tlr : Tlr
  coords : List Int
  rows : Option (List Int)
  e20 : Nat
  todo : List Nat
  landing : List (Nat × Nat) := []
  refusals : List Nat := []
  buf : List (Nat × List Byte) := []
  stall : Option (Nat × Nat × Word) := none
  fail : Option (Nat × Word) := none
  xov : Bool := false
  err : Bool := false
  pushed : Bool := false
  deriving DecidableEq, Repr

/-- The B-store ring of a core (R269 to R271): the state of each half (0 free, 1 filling, 2 full, 3 taken), whether a copy
with LAST has issued into it, the completion scope of what fills it, and the owner. -/
structure BRing where
  st0 : Nat := 0
  st1 : Nat := 0
  widx : Nat := 0
  ridx : Nat := 0
  cur : Nat := 0
  curv : Bool := false
  err0 : Bool := false
  err1 : Bool := false
  xov0 : Bool := false
  xov1 : Bool := false
  last0 : Bool := false
  last1 : Bool := false
  sc0 : Nat := 0
  sc1 : Nat := 0
  owner : Option Nat := none
  bytes : List (Nat × Byte) := []
  deriving DecidableEq, Repr

/-- A Wheel command (R290). -/
inductive WOp where
  | zero (tiles : Nat)
  | loop (m : WloopM) (a b c : Word)
  | drain (m : WdrainM) (a b c : Word)
  | rd (lanes : List (Nat × Word)) (d : Nat)
  | wr (lanes : List (Nat × Word × Word))
  deriving DecidableEq, Repr

/-- A queued Wheel command (R290, R291): its instruction and issuer, the byte count or words that it reports, the number
under which its request for a half reached the B store, the half it reads, the K-steps done, what it raised, the number of
its writes, the refusals of its present access (R31), the presence bits it cleared, and whether only its report is left. -/
structure WCmd where
  id : Nat
  team : Nat
  crs : Nat
  lane : Nat
  asid : Nat
  root : Nat
  sup : Bool
  ipc : Word
  ins : Instr
  op : WOp
  report : Report
  count : Nat
  scope : Nat
  lines : List Nat := []
  started : Bool := false
  req : Option Nat := none
  half : Option Nat := none
  step : Nat := 0
  ovf : Bool := false
  inv : Bool := false
  xov : Bool := false
  err : Bool := false
  wid : Option Nat := none
  tries : Nat := 0
  stall : Option (Nat × Nat × Word) := none
  isOver : Bool := false
  deriving DecidableEq, Repr

/-- A Coil command (R306, R313, R324). -/
inductive CilOp where
  | job (m : CjobM) (a : Word)
  | car (st loc : Bool) (a : Word) (n : Nat)
  deriving DecidableEq, Repr

/-- A carry on the chain (R318, R319, R322): the operator, the number of channels, their elements, and whether it is poisoned. -/
structure Carry where
  coper : COperator
  chans : Nat
  vals : List (List Nat)
  poison : Bool
  deriving DecidableEq, Repr

/-- A carry in a link buffer (R318, R319, R328): the team that it is for, the cycle of its arrival, and whether its job was abandoned before
it came. -/
structure LinkEnt where
  for_ : Nat
  came : Nat
  late : Bool
  carry : Carry
  deriving DecidableEq, Repr

/-- A queued Coil command (R306, R313 to R317, R324): its instruction and issuer, the operator at its issue, the byte count
that it reports; for a job its phase (0 not started, 1 taking inputs, 3 scanned, 4 waiting for its carry-in), the steps
taken, the cycle at which phase 4 was reached and what it raised; for a `ccar` the number of its writes, the refusals of its access (R31) and its stall. -/
structure CilCmd where
  id : Nat
  team : Nat
  crs : Nat
  lane : Nat
  asid : Nat
  root : Nat
  sup : Bool
  ipc : Word
  ins : Instr
  op : CilOp
  coper : COperator
  report : Report
  count : Nat
  scope : Nat
  lines : List Nat := []
  phase : Nat := 0
  steps : Nat := 0
  since : Nat := 0
  ovf : Bool := false
  inv : Bool := false
  wid : Option Nat := none
  tries : Nat := 0
  stall : Option (Nat × Nat × Word) := none
  deriving DecidableEq, Repr

/-- The Coil unit of a core (R306, R316 to R325). `link` is the link buffer, `wire` holds carries on their way to it, each with the
team that it is for, `missed` counts for each team of the core the jobs abandoned before their carry came, `out` is the outgoing slot with its job's number, `unsealed` the sent jobs
not yet sealed, oldest first, and `seals` for each sealed job the accesses that its carry waits for. -/
structure Coil where
  owner : Option Nat := none
  coper : COperator := ⟨.addmul, .scalar⟩
  tlim : Nat := 24
  creg : List (List Nat) := []
  queue : List CilCmd := []
  groups : List (List QEntry) := [[], [], [], []]
  link : List LinkEnt := []
  wire : List (Nat × Carry) := []
  missed : List (Nat × Nat) := []
  out : Option (Nat × Carry) := none
  unsealed : List Nat := []
  seals : List (Nat × List (Nat × Nat)) := []
  lastReason : Nat := 0
  err : Bool := false
  poison : Bool := false
  flagOF : Bool := false
  flagNV : Bool := false
  deriving DecidableEq, Repr

/-- A SIMT core (R16, R29, R74, R170, R176, R219, R257, R290, R306, R353, R354). `bpoison` and `apoison` hold the offsets of
uncorrectable words of the B store and of the accumulators (R400); `unit` the cycle in which the core last issued or its local
memory unit last took a request, with the rank of that request (R72, R181). -/
structure Core where
  split : Option Split := none
  tlb : List TlbEnt := []
  l1 : List L1Line := []
  locks : List LockEnt := []
  mergeTag : Nat := 0
  seqs : List SeqSt := [{}, {}, {}, {}]
  slips : List SlipCmd := []
  bring : BRing := {}
  wheel : List WCmd := []
  acc : List (Nat × Word) := []
  bpoison : List Nat := []
  apoison : List Nat := []
  spoison : List Nat := []
  unit : Option (Nat × Nat) := none
  coil : Coil := {}
  drainlim : Word := 0x0020_0000
  parklim : Word := 0x0040_0000
  draining : Option Nat := none
  reserved : Option Nat := none
  evictFor : Option Nat := none
  admitted : Option Nat := none
  deriving DecidableEq, Repr

/-- An MSC block (R194): the region's number, its granules, which of them are dirty, and for a replica its data, from the
first byte of granule `s`. -/
structure Block where
  region : Nat
  s : Nat
  e : Nat
  dirty : List Nat := []
  replica : Bool := false
  data : List Byte := []
  deriving DecidableEq, Repr

/-- A region counter of R206. -/
structure RegCnt where
  region : Nat
  rcnt : Nat
  wcnt : Nat
  repl : Bool
  lastUse : Nat
  deriving DecidableEq, Repr

/-- An entry of the wait table (R224): whose it is (an access in flight, or a column core) and when it ends. -/
structure WaitEnt where
  pa : Nat
  asid : Nat
  who : Option Nat
  col : Nat
  deadline : Option Nat
  ended : Bool := false
  val : Word := 0
  deriving DecidableEq, Repr

/-- A walk that a column owes (R170): the address space, page and root, and the generation in which it began. -/
structure Walk where
  asid : Nat
  page : Nat
  root : Nat
  gen : Nat := 0
  deriving DecidableEq, Repr

/-- A suspension record (R101). -/
structure SuspRec where
  handle : Nat
  info : Nat
  node : Nat
  ltpc : Word
  deriving DecidableEq, Repr

/-- A RAS log record (R402), with the cycle of its error (R401). -/
structure RasRec where
  kind : Nat
  unit : Nat
  loc : Nat
  cycle : Nat := 0
  deriving DecidableEq, Repr

/-- An arena (R245, R365) with its allocated blocks. -/
structure Arena where
  base : Word := 0
  asid : Nat := 0
  en : Bool := false
  size : Nat := 0
  blocks : List (Nat × Nat) := []
  deriving DecidableEq, Repr

/-- A table entry in a walk cache (R170): its address space and address, and the entry. -/
structure TabEnt where
  asid : Nat
  addr : Nat
  entry : Nat
  deriving DecidableEq, Repr

/-- A read-only copy of a granule of a peer in a near slice (R377). -/
structure NearCopy where
  peer : Nat
  base : Nat
  data : List Byte
  deriving DecidableEq, Repr

/-- A column (R16): generations, translation, slice, launch queues, supervisor queue, control page, governor, RAS. `took` is
the cycle in which its slice last took a request, with the rank of that request (R220). `backing` holds what DRAM holds under granules of its blocks where that differs, `late` the bytes of it
that the memory controller wrote after the slice (R166, R167). `inval` holds invalidations on their way
to this replica slice, each with its region, granules and the write or return that waits for them (R206, R208, R242), `returns`
the regions on their way back to memory-side mode, `near` the copies of peers' granules (R377), `reads` what the column core has read and `copies`
its read copies of device memory (R361), `service` the service context (R229), `handler` that of the fault-handling course (R395). -/
structure Column where
  gens : List (Nat × Nat) := []
  tlb : List TlbEnt := []
  walks : List Walk := []
  wcache : List TabEnt := []
  blocks : List Block := []
  backing : List (Nat × Byte) := []
  late : List Nat := []
  inval : List (Nat × List Nat × Option Nat) := []
  returns : List (Nat × Nat) := []
  spans : List (Nat × Nat) := []
  wunits : Nat := 0
  counters : List RegCnt := []
  repctl : Word := 0x0014_0100_0010_0001
  halved : Nat := 0
  waits : List WaitEnt := []
  streams : List (Nat × Nat) := []
  nextSeq : List (Nat × Nat) := []
  launch : List (Nat × List (Nat × Auth)) := []
  ldisc : Nat := 0
  scq : List SuspRec := []
  scqWait : List SuspRec := []
  suspq : List Nat := []
  taskq : List Nat := []
  tasks : List Nat := []
  arenas : List (Nat × Arena) := []
  cone : Nat := 0
  conectl : Nat := 0x695F_5500
  coneCnt : Nat := 0
  pfloor : Nat := 0
  drainreq : Nat := 0
  duty : Nat := 0
  dutyNext : Nat := 0
  intstat : Nat := 0
  inten : Nat := 0
  waitaddr : Word := 0
  waitval : Word := 0
  waitres : Word := 0
  wake : Word := 0
  taskdone : Word := 0
  rasctl : Word := 0x1E01
  rasstat : Word := 0
  raslog : List RasRec := []
  locs : List (Nat × Nat × Nat) := []
  cmap : Nat := 0xFFF
  held : List Nat := []
  reads : List (Nat × Word) := []
  copies : List (Nat × Byte) := []
  resv : Option (Nat × Word) := none
  near : List NearCopy := []
  took : Option (Nat × Nat) := none
  service : Option Team := none
  handler : Option Team := none
  deriving DecidableEq, Repr

/-- What the context area does not hold of a lane: its deferred faults, the transfer of the batch in which it stopped, its uncorrectable
registers and temporaries, and whether its PC is a line still to be entered in sequence. -/
structure SavedLane where
  crs : Nat
  lane : Nat
  defs : List DefFault
  xfer : Option Xfer := none
  back : Bool := false
  bad : List Nat := []
  seqIn : Bool := false
  deriving DecidableEq, Repr

/-- What the context area does not hold of a course: the cohort of its last batch, and the one
inside a batch. -/
structure SavedCourse where
  crs : Nat
  coh : Option Cohort
  lastCoh : Option (List Nat)
  deriving DecidableEq, Repr

/-- A team that a forced save has taken from its core (R354, R355): its number, whether it has signalled or was placed early,
the core it stays away from (R357), what it owned, and what of it the context area does not hold (notes/assumptions/31): among it the
uncorrectable words of its B store and tiles (R400), how many entries each group buffer held (R326), what the seals of its jobs cover (R320),
and the suspension records that still waited for room (R102). `serial` is the number that it had. -/
structure SavedTeam where
  idx : Nat
  serial : Nat
  signalled : Bool
  early : Bool
  away : Option Nat
  ownsB : Bool
  ownsCoil : Bool
  tiles : Nat
  ports : List (Nat × List QEntry)
  lanes : List SavedLane
  cohorts : List SavedCourse
  asid : Nat
  ptroot : Nat
  kbad : List Nat
  lbad : List Nat
  named : List Nat
  fbars : List (Nat × Option (Nat × Nat) × Option Nat)
  kScope : List (Nat × Nat)
  ringScope : List (Nat × Nat)
  halfScopes : Nat × Nat
  locks : List LockEnt
  wheel : List WCmd
  cils : List CilCmd
  missed : Nat
  bpoison : List Nat
  apoison : List Nat
  groups : List Nat
  seals : List (List (Nat × Nat))
  waiting : List SuspRec
  deriving DecidableEq, Repr

/-- A node in the ready pool (R340): its record's address and words, the order and cycle of its entry, the cycle of its entry
or last placement and the one since which it has been the head, the next team to place, the teams resident, saved,
retired, and signalled or retired (R349), its own failure, whether a COLUMN task is out, and whether a HOST node's
notification is accepted; `refused` says that the record has failed since, and that the entry only waits for what is out. -/
structure PoolNode where
  node : Nat
  words : List Nat
  ord : Nat
  entered : Nat
  since : Nat
  headSince : Nat
  next : Nat := 0
  resident : List Nat := []
  saved : List SavedTeam := []
  retired : Nat := 0
  sig : List Nat := []
  sigDone : Bool := false
  failed : Option Nat := none
  taskOut : Bool := false
  notified : Bool := false
  refused : Bool := false
  deriving DecidableEq, Repr

/-- A walk along the successors of a node (R338): what happened to it (0 signalled, 1 completed, 2 failed), whether it had
signalled before, the words of its record, and where the walk stands: the virtual address that offsets count from, the
record in which the slots lie, the next slot, and whether that is a continuation record. -/
structure Visit where
  node : Nat
  kind : Nat
  signalled : Bool
  words : List Nat
  base : Nat
  slot : Nat
  cont : Bool
  deriving DecidableEq, Repr

/-- What an access does that a column core or the host has sent (R361, R372). -/
inductive PKind where
  | store
  | amo (op : AOp) (ty : Ty)
  | sc
  deriving DecidableEq, Repr

/-- A write of the host, or a write, AMO or SC of a column core, on its way to its home (R209, R361, R372). Streams 0 to 63
belong to the column cores, 0x0100 and 0x0200 to the host; 0x1_0000 stands for host writes that carry no sequence number. -/
structure PortAcc where
  id : Nat
  stream : Nat
  seq : Nat
  home : Nat
  pa : Nat
  size : Nat
  data : Word
  cmp : Word := 0
  kind : PKind := .store
  acq : Bool := false
  rel : Bool := false
  stage : Nat := 0
  deriving DecidableEq, Repr

/-- A glaze window (R382). -/
structure Gwin where
  en : Bool := false
  lost : Bool := false
  base : Nat := 0
  sizem1 : Nat := 0
  applied : Nat := 0
  deriving DecidableEq, Repr

/-- A stamped glaze store (R384). -/
structure GStore where
  stamp : Nat
  off : Nat
  size : Nat
  data : Word
  deriving DecidableEq, Repr

/-- A contribution of another device to a reduction of a group (R389). -/
structure GRed where
  dev : Nat
  off : Nat
  size : Nat
  op : AOp
  ty : Ty
  data : Word
  deriving DecidableEq, Repr

/-- A glaze group (R382, R384, R389, R390): the next number of its sequencer, the stamped stores that have reached this device,
the replay buffer, the write under way of the store being applied, the other members, the highest number that they have
all applied, their contributions, the episode, this device's arrivals, and those of the others. -/
structure Group where
  next : Nat := 1
  pending : List GStore := []
  buffer : List GStore := []
  applying : Option Nat := none
  members : List Nat := []
  peersApplied : Nat := 0
  reds : List GRed := []
  episode : Nat := 1
  arrived : Nat := 0
  peerArr : List (Nat × Nat) := []
  deriving DecidableEq, Repr

/-- Phases of a partition quiesce (R391). -/
inductive QPhase where
  | none | stopped | drained | reconfigured
  deriving DecidableEq, Repr

/-- A partition quiesce (R391 to R393): its phase, epoch, REASON and lost peer; a cause reported to the fabric manager, and the
courses for which QUIESCE pends because they are suspended or saved. -/
structure Quiesce where
  phase : QPhase := .none
  epoch : Nat := 0
  reason : Nat := 0
  peer : Option Nat := none
  cause : Option QCause := none
  pendCk : List (Nat × Nat) := []
  deriving DecidableEq, Repr

/-- An image in the boot flash (R395, R396): the place that it is loaded to, its bytes, and the security version and SHAKE256 digest that
the manifest lists for it. -/
structure Image where
  svn : Nat
  base : Nat
  bytes : List Byte
  digest : Nat
  deriving DecidableEq, Repr

/-- The boot flash (R395, R396, R398): the manifest's public key, security version and signature, the certificate of the identity key, the
column-core firmware and the SIMT supervisor images. -/
structure Flash where
  key : List Byte := []
  svn : Nat := 0
  signature : List Byte := []
  cert : Nat := 0
  firmware : List Image := []
  images : List Image := []
  deriving DecidableEq, Repr

/-- Bring-up and identity (R395 to R398): `key` is the identity key in ROM-protected storage. -/
structure Boot where
  stage : Nat := 0
  error : Nat := 0
  svn : Nat := 0
  key : Nat := 0
  measures : List Nat := []
  report : List Nat := []
  deriving DecidableEq, Repr

/-- An access of a column core that reaches the model from outside (R361). -/
inductive CcAcc where
  | load (pa size : Nat)
  | store (pa size : Nat) (val : Word)
  | amo (op : AOp) (ty : Ty) (ord : Ord) (pa : Nat) (val cmp : Word)
  | lr (pa : Nat)
  | sc (pa : Nat) (val : Word)
  | fence (pw pr : Bool)
  deriving DecidableEq, Repr

/-- What the world outside hands to the machine: an event of the table, an access of a column core (R361), or what reaches it
from the fabric: an access of another package to this device's memory (R376), a group's other members, a store, contribution or
arrival of one of them, and the highest number that they have all applied (R382 to R390). -/
inductive Input where
  | event (i : Instr)
  | cc (col : Nat) (a : CcAcc)
  | peer (a : CcAcc)
  | members (g : Nat) (ds : List Nat)
  | glaze (g off size : Nat) (data : Word)
  | contribution (g : Nat) (r : GRed)
  | arrival (g dev : Nat)
  | applied (g n : Nat)
  deriving DecidableEq, Repr

/-- The machine. The fields from `tick` to `inputs` are the model's own (notes/assumptions/4, 5, 6, 28): steps taken,
the next issue number, the counter of free values, the course whose instruction exec runs, and the inputs not yet
taken. `born` is the step of the last power-on reset, from which CYCLE counts (R91); `stalls` holds the stall counts of the teams (R357),
`timers` how often the timer of an engine command's read from a peer has expired (R380). `fuseSvn`, `fuseKey` and `fuseSeed` are fuses (R395, R396, R398). `hreads` and `mreads` hold what the host and the management endpoint last read at an address, `notes` the entries of the
host's ring, `vectors` the messages sent to it. -/
structure State where
  tick : Nat := 0
  nextId : Nat := 1
  fresh : Nat := 0
  focus : Option (Nat × Nat) := none
  born : Nat := 0
  inputs : List Input := []
  mem : List Host.Cell := []
  poison : List Nat := []
  teams : List (Nat × Team) := []
  cores : List (Nat × Core) := []
  columns : List (Nat × Column) := []
  flights : List Flight := []
  pinmap : List (Nat × Word × Word) := []
  pool : List PoolNode := []
  preds : List (Nat × (Nat × Nat)) := []
  visits : List Visit := []
  device : Nat := 0
  boot : Boot := {}
  gwins : List (Nat × Gwin) := []
  groups : List (Nat × Group) := []
  quiesce : Quiesce := {}
  port : List PortAcc := []
  hreads : List (Nat × Word) := []
  mreads : List (Nat × Word) := []
  stalls : List (Nat × Nat) := []
  timers : List (Nat × Nat) := []
  ftimer : Nat := 50
  fstat : Nat := 0
  migctl : Nat := 1024
  migq : List Nat := []
  migcnt : List (Nat × Nat) := []
  gdisc : Nat := 0
  hnqbase : Word := 0
  hnqctl : Word := 0
  notes : List (Nat × Word) := []
  vectors : List Nat := []
  pwrlim : Nat := 2600
  pwrpeak : Nat := 0
  pwravg : Nat := 0
  fuseSvn : Nat := 0
  fuseKey : Nat := 0
  fuseSeed : Nat := 0
  flash : Flash := {}
  deriving DecidableEq, Repr

/-- Why the machine stops with a fault. -/
inductive Fault where
  /-- An instruction was given to exec while no course is in focus. Raised by every instruction's meaning; step never
  does so. Safe: the model stops. -/
  | noCohort
  deriving DecidableEq, Repr

/-- Why the model refuses an instruction. -/
inductive Refusal where
  /-- No meaning is given to the instruction. Raised by exec's arms. Safe: the model stops. -/
  | notModelled (mnemonic : String)
  deriving DecidableEq, Repr

/-- The machine at power-on, before bring-up: every field at its reset value (R12, R22, R397; notes/assumptions/1). -/
def State.reset : State := {}

end Sys2Proof.Machine
end

