-- ==== Sys2Proof/Machine/Ops.lean ====
section
/-! DEFINITION. The named operations over the state: units and numbering (R17), memory (R6, R199, R360), registers and
full bits (R22 to R25, R73), queue ports (R89), parking (R69), taking a fault (R93, R94, R97, R99) and returning from a
handler (R95). -/

namespace Sys2Proof.Machine

/-! ### Units -/

/-- The column of a SIMT core (R17). -/
def coreCol (c : Nat) : Nat := c / 12

/-- The slot of a SIMT core in its column (R17). -/
def coreSlot (c : Nat) : Nat := c % 12

/-- The tower of a column (R17). -/
def colTower (c : Nat) : Nat := c / 16

/-- The cluster of a column (R17). -/
def colCluster (c : Nat) : Nat := c / 8

/-- Cycles of a column's clock before step `n`: each step takes as many as Config.elapsed says (R9, R91;
notes/assumptions/6). -/
def cycleAt (col : Nat) : Nat → Nat
  | 0 => 0
  | n + 1 => cycleAt col n + Config.elapsed col n

/-- The cycle of a column's clock at a step (R91). -/
def State.cycleOf (s : State) (col step : Nat) : Nat := cycleAt col step - cycleAt col s.born

/-- CYCLE of a column's clock now. -/
def State.cycle (s : State) (col : Nat) : Nat := s.cycleOf col s.tick

/-- A request of rank `rank` may still be taken in cycle `now`, where `last` is the last one taken: in one cycle, requests are
taken in ascending rank (R181, R220). -/
def mayTake (last : Option (Nat × Nat)) (now rank : Nat) : Bool :=
  match last with
  | none => true
  | some x => x.1 != now || x.2 ≤ rank

/-! ### Parts of the state -/

/-- A course with nothing in it. -/
def Course.blank : Course := { num := 0, seq := 0, lanes := [] }

/-- A team with nothing in it. -/
def Team.blank : Team :=
  { serial := 0, core := 0, slot := 0, node := 0, nlanes := 0, split := ⟨32, 0, 64⟩, courses := [] }

/-- The team with a serial number. -/
def State.team (s : State) (t : Nat) : Team := mapGet Team.blank t s.teams

/-- The state with a team changed; nothing happens when there is none. -/
def State.modTeam (s : State) (t : Nat) (f : Team → Team) : State :=
  match mapGet? t s.teams with
  | none => s
  | some T => { s with teams := mapPut t (f T) s.teams }

/-- A SIMT core. -/
def State.core (s : State) (c : Nat) : Core := mapGet {} c s.cores

/-- The state with a core changed. -/
def State.modCore (s : State) (c : Nat) (f : Core → Core) : State := { s with cores := mapMod {} c f s.cores }

/-- A column. -/
def State.column (s : State) (c : Nat) : Column := mapGet {} c s.columns

/-- The state with a column changed. -/
def State.modCol (s : State) (c : Nat) (f : Column → Column) : State := { s with columns := mapMod {} c f s.columns }

/-- A course of a team. -/
def Team.course (T : Team) (n : Nat) : Course := T.courses.getD n Course.blank

/-- The team with a course changed. -/
def Team.modCourse (T : Team) (n : Nat) (f : Course → Course) : Team := { T with courses := T.courses.modify n f }

/-- A lane of a course. -/
def Course.lane (C : Course) (l : Nat) : Lane := C.lanes.getD l {}

/-- The course with a lane changed. -/
def Course.modLane (C : Course) (l : Nat) (f : Lane → Lane) : Course := { C with lanes := C.lanes.modify l f }

/-- The state with a course changed. -/
def State.modCourse (s : State) (t c : Nat) (f : Course → Course) : State := s.modTeam t (·.modCourse c f)

/-- The state with a lane changed. -/
def State.modLane (s : State) (t c l : Nat) (f : Lane → Lane) : State := s.modCourse t c (·.modLane l f)

/-- A course. -/
def State.course (s : State) (t c : Nat) : Course := (s.team t).course c

/-- A lane. -/
def State.lane (s : State) (t c l : Nat) : Lane := (s.course t c).lane l

/-- The core of a team. -/
def State.coreOf (s : State) (t : Nat) : Core := s.core (s.team t).core

/-- The column of a team's core. -/
def State.colOf (s : State) (t : Nat) : Nat := coreCol (s.team t).core

/-! ### Requests that arrive in one cycle -/

/-- Rank of a column core's requests at a slice: after those of every SIMT core, which rank by their number (R220). -/
def rankColumn : Nat := 1000
/-- Rank of the host port's requests. -/
def rankHost : Nat := 2000
/-- Rank of the fabric port's requests. -/
def rankFabric : Nat := 3000

/-- A slice may take a request of a rank in this cycle (R220). -/
def State.sliceFree (s : State) (col rank : Nat) : Bool := mayTake (s.column col).took (s.cycle col) rank

/-- A slice takes a request of a rank (R220). -/
def State.take (s : State) (col rank : Nat) : State := s.modCol col (fun k => { k with took := some (s.cycle col, rank) })

/-- The local memory unit of a core may take a request of a rank in this cycle (R181). -/
def State.unitFree (s : State) (core rank : Nat) : Bool := mayTake (s.core core).unit (s.cycle (coreCol core)) rank

/-- The local memory unit of a core takes a request of a rank (R181). -/
def State.useUnit (s : State) (core rank : Nat) : State :=
  s.modCore core (fun k => { k with unit := some (s.cycle (coreCol core), rank) })

/-! ### Memory -/

/-- Where the windows of the towers begin (R203). -/
def windowBase : Nat := 0xF_0000_0000_0000

/-- The address lies in the range of the tower windows (R203, R360). -/
def isWindow (a : Nat) : Bool := windowBase ≤ a && a < windowBase + 4 * 0x1000_0000

/-- The address is HBM4E memory (R360). That the addresses past the 384 GiB of R2 are memory too is the model's choice
(notes/assumptions/77). -/
def isHbm (a : Nat) : Bool := a < 0xE_0000_0000_0000

/-- The address lies in the host range (R360). -/
def isHost (a : Nat) : Bool := 0xE_0000_0000_0000 ≤ a && a < 0xF_0000_0000_0000

/-- The address lies in the launch lines or a control page (R336, R360). -/
def isIO (a : Nat) : Bool :=
  0xF_8000_0000_0000 ≤ a && a < 0xF_8000_0000_0000 + 64 * 4096 ||
  0xF_8000_0010_0000 ≤ a && a < 0xF_8000_0010_0000 + 64 * 4096

/-- What an unlisted address reads as: HBM4E is zeroed at bring-up (R395), a window's contents are undefined (R203;
notes/assumptions/9). -/
def unlisted (a : Nat) : Byte := if isWindow a then Config.windowByte a else 0

/-- A byte of memory. -/
def memByte (m : List Host.Cell) (a : Nat) : Byte := (mapGet? a m).getD (unlisted a)

/-- Memory with a byte written; the canonical form is kept. -/
def memPut (m : List Host.Cell) (a : Nat) (b : Byte) : List Host.Cell :=
  if b = unlisted a then mapDel a m else mapPut a b m

/-- Addresses strictly rising. -/
def risingFrom : List Host.Cell → Bool
  | [] => true
  | [_] => true
  | x :: y :: r => x.1 < y.1 && risingFrom (y :: r)

/-- The canonical form of memory: addresses strictly rising, and no entry equal to what an unlisted address reads as. -/
def Memory.wf (m : List Host.Cell) : Bool := risingFrom m && m.all (fun c => c.2 != unlisted c.1)

/-- `n` bytes of memory from address `a`. -/
def memBytes (m : List Host.Cell) (a n : Nat) : List Byte := (List.range n).map (fun i => memByte m (a + i))

/-- The little-endian value of `n` bytes of memory (R6). -/
def memRead (m : List Host.Cell) (a n : Nat) : Nat := leVal (memBytes m a n)

/-- Memory with a list of bytes written from address `a`. -/
def memPutBytes (m : List Host.Cell) (a : Nat) : List Byte → List Host.Cell
  | [] => m
  | b :: r => memPutBytes (memPut m a b) (a + 1) r

/-- Memory with the `n` low bytes of `v` written at `a` (R6). -/
def memWrite (m : List Host.Cell) (a n v : Nat) : List Host.Cell := memPutBytes m a (leBytes n v)

/-- A byte of a team's local memory by physical offset (R161). -/
def Team.locByte (T : Team) (a : Nat) : Byte := (mapGet? a T.lmem).getD (Config.localByte T.serial a)

/-- `n` bytes of a team's local memory. -/
def Team.locRead (T : Team) (a n : Nat) : Nat := leVal ((List.range n).map (fun i => T.locByte (a + i)))

/-- A table of bytes with a list written from `a`. -/
def putBytes (m : List (Nat × Byte)) (a : Nat) : List Byte → List (Nat × Byte)
  | [] => m
  | b :: r => putBytes (mapPut a b m) (a + 1) r

/-- Poison goes with a write of a whole aligned word (R400). -/
def clearPoison (ps : List Nat) (pa n : Nat) : List Nat := ps.filter (fun w => !(pa ≤ w && w + 8 ≤ pa + n))

/-- Bytes written to local memory by physical offset. -/
def Team.locPut (T : Team) (a : Nat) (bs : List Byte) : Team :=
  { T with lmem := putBytes T.lmem a bs, lbad := clearPoison T.lbad a bs.length }

/-- Local memory with the `n` low bytes of `v` written. -/
def Team.locWrite (T : Team) (a n v : Nat) : Team := T.locPut a (leBytes n v)

/-- A word of some local bytes is uncorrectable (R400). -/
def Team.locBad (T : Team) (a n : Nat) : Bool := T.lbad.any (fun w => w < a + n && a < w + 8)

/-- Local size of a team in bytes (R74, R161). -/
def Team.locSize (T : Team) : Nat := T.split.loc * 1024

/-! ### Full bits and registers -/

/-- Mark number `n` empty. -/
def eSet {w : Nat} (m : BitVec w) (n : Nat) : BitVec w := m ||| BitVec.twoPow w n

/-- Mark number `n` full. -/
def eClr {w : Nat} (m : BitVec w) (n : Nat) : BitVec w := m &&& ~~~ BitVec.twoPow w n

/-- Number `n` is empty. -/
def eGet {w : Nat} (m : BitVec w) (n : Nat) : Bool := m.getLsbD n

/-- Lane register (R73). -/
def Lane.vGet (L : Lane) (n : Nat) : Word := mapGet 0 n L.v

/-- Write a lane register and mark it full. -/
def Lane.vPut (L : Lane) (n : Nat) (x : Word) : Lane := { L with v := mapPut n x L.v, vE := eClr L.vE n, bad := L.bad.filter (· != n) }

/-- Mark a lane register empty (R23). -/
def Lane.vEmpty (L : Lane) (n : Nat) : Lane := { L with vE := eSet L.vE n }

/-- Predicate value. -/
def Lane.pGet (L : Lane) (n : Nat) : Bool := L.p.getLsbD n

/-- Write a predicate and mark it full. -/
def Lane.pPut (L : Lane) (n : Nat) (b : Bool) : Lane :=
  { L with p := if b then eSet L.p n else eClr L.p n, pE := eClr L.pE n }

/-- Temporary; an unwritten one holds 0 (R94). -/
def Lane.tGet (L : Lane) (n : Nat) : Word := if bitN L.twr n then mapGet 0 n L.t else 0

/-- Write a temporary (R68). -/
def Lane.tPut (L : Lane) (n : Nat) (x : Word) : Lane := { L with t := mapPut n x L.t, twr := L.twr ||| 2 ^ n, bad := L.bad.filter (· != 0x200 + n) }

/-- Value of an index register (R87). -/
def Lane.xVal (L : Lane) (n : Nat) : Nat := mapGet 0 n L.xv

/-- Limit of an index register (R87). -/
def Lane.xLim (L : Lane) (n : Nat) : Nat := mapGet 0 n L.xl

/-- Write an index register and its limit (R87). -/
def Lane.xPut (L : Lane) (n v lim : Nat) : Lane := { L with xv := mapPut n v L.xv, xl := mapPut n lim L.xl }

/-- Uniform register; `k0` reads 0 (R44). -/
def Team.kGet (T : Team) (n : Nat) : Word := if n = 0 then 0 else mapGet 0 n T.k

/-- The counters that have not reached zero, once register `n` holds `x` (R34). -/
def Team.notZero (T : Team) (n : Nat) (x : Word) : List Nat := if x = 0 then T.named.filter (· != n) else T.named

/-- Write a uniform register and mark it full; a write to `k0` is discarded (R45). -/
def Team.kPut (T : Team) (n : Nat) (x : Word) : Team :=
  if n = 0 then T else { T with k := mapPut n x T.k, kE := eClr T.kE n, kbad := T.kbad.filter (· != n), named := T.notZero n x }

/-- Mark a uniform register empty. -/
def Team.kEmpty (T : Team) (n : Nat) : Team := if n = 0 then T else { T with kE := eSet T.kE n }

/-- Change a completion counter and its full bit: it is full exactly when it is 0 (R26). -/
def Team.kCount (T : Team) (n : Nat) (x : Word) : Team :=
  { T with k := mapPut n x T.k, kE := if x = 0 then eClr T.kE n else eSet T.kE n, named := T.notZero n x }

/-! ### Queue ports -/

/-- The port that a queue register is bound to, 0 when it is unbound (R88). -/
def Team.portOf (T : Team) (n : Nat) : Nat := mapGet 0 n T.eqs

/-- Entries of a port that are ready to pop (R89, R90). -/
def State.portLen (s : State) (t port : Nat) : Nat :=
  if port = 0x7F then (s.column (s.colOf t)).scq.length
  else (mapGet [] port (s.team t).ports).length

/-- A suspension record as a queue entry (R101). -/
def SuspRec.entry (r : SuspRec) : QEntry :=
  { slots := [wordOf r.handle, wordOf r.info, wordOf r.node, r.ltpc], mask := 0xF }

/-- Entry `k` of a port, counted from its head (R89, R101). -/
def State.entryAt (s : State) (t port k : Nat) : Option QEntry :=
  if port = 0x7F then ((s.column (s.colOf t)).scq[k]?).map SuspRec.entry else (mapGet [] port (s.team t).ports)[k]?

/-- The entry at the head of a port, and the state without it. A suspension record that waits for room then enters the
queue by its own event. -/
def State.portPop (s : State) (t port : Nat) : Option QEntry × State :=
  if port = 0x7F then
    match (s.column (s.colOf t)).scq with
    | [] => (none, s)
    | r :: q => (some r.entry, s.modCol (s.colOf t) (fun c => { c with scq := q }))
  else match mapGet [] port (s.team t).ports with
    | [] => (none, s)
    | e :: q => (some e, s.modTeam t (fun T => { T with ports := mapPut port q T.ports }))

/-- Append an entry to a completion port of a team (R262, R291); its number tells the order of the pushes (R279). -/
def State.portPush (s : State) (t port : Nat) (e : QEntry) : State :=
  State.modTeam { s with nextId := s.nextId + 1 } t (fun T => { T with ports := mapMod [] port (· ++ [{ e with ord := s.nextId }]) T.ports })

/-- Entries waiting in the completion ports of one engine of a team, which share a pool of 64 (R262). -/
def Team.poolUsed (T : Team) (lo hi : Nat) : Nat :=
  T.ports.foldl (fun a p => if lo ≤ p.1 && p.1 ≤ hi then a + p.2.length else a) 0

/-- Free entries of the issuing course's input group buffer of Coil (R90, R315). -/
def State.coilRoom (s : State) (t c : Nat) : Nat :=
  if c < 4 then 64 - ((s.coreOf t).coil.groups.getD c []).length else 0

/-- An entry enters the input group buffer of a course (R89, R315). -/
def State.pushGroup (s : State) (core c : Nat) (e : QEntry) : State :=
  s.modCore core (fun k => { k with coil := { k.coil with groups := k.coil.groups.modify c (· ++ [e]) } })

/-- The entry that a value for one lane pushes: in the slot of that lane, whose bit alone its mask has (R89, R73;
notes/assumptions/70). -/
def laneEntry (l : Nat) (v : Word) : QEntry := { slots := (List.range 32).map (fun i => if i = l then v else 0), mask := 2 ^ l }

/-- A value for one lane is pushed by a team that owns the Coil unit of its core (R45, R89, R315). -/
def State.pushLane (s : State) (t c l : Nat) (v : Word) : State :=
  if (s.coreOf t).coil.owner = some t then s.pushGroup (s.team t).core c (laneEntry l v) else s

/-! ### Acquire -/

/-- An acquire at core scope or wider invalidates the whole L1 of the core (R176). -/
def State.acquire (s : State) (core scope : Nat) : State :=
  if 2 ≤ scope then s.modCore core (fun c => { c with l1 := [] }) else s

/-- Consumption of a completion counter that has reached zero acquires at its scope (R26, R217). -/
def State.consume (s : State) (t k : Nat) : State :=
  match mapGet? k (s.team t).kScope with
  | none => s
  | some sc => (s.modTeam t (fun T => { T with kScope := mapDel k T.kScope })).acquire (s.team t).core sc

/-! ### Lanes of a cohort -/

/-- Lanes of a course that are live. -/
def Course.liveLanes (C : Course) : List Nat := (List.range 32).filter (fun l => (C.lane l).cls == .live)

/-- The helper lanes that a set of lanes makes active: the helpers of their quads (R64). -/
def Course.helpersOf (C : Course) (ls : List Nat) : List Nat :=
  (List.range 32).filter (fun l => (C.lane l).cls == .helper && ls.any (fun m => m / 4 == l / 4))

/-- The active lanes of a cohort, ascending: its live lanes and their helpers (R64). -/
def Course.active (C : Course) (ls : List Nat) : List Nat :=
  (List.range 32).filter (fun l => ls.contains l || (C.helpersOf ls).contains l)

/-- All lanes absent: the course has finished (R63). -/
def Course.finished (C : Course) : Bool := C.lanes.all (fun L => L.cls == .absent)

/-! ### Taking a fault -/

/-- The address of a handler: V[55:7] * 128 sign-extended from 56 bits (R94). -/
def vecEntry (v : Word) : Word := canon56 (wfld v 7 49 * 128)

/-- LTINFO of a fault (R96). -/
def ltInfo (reason twr issued : Nat) (resume : Bool) (detail : Nat) : Word :=
  wordOf (reason % 256 + twr % 256 * 2 ^ 8 + issued % 32 * 2 ^ 16 + bit resume * 2 ^ 21 + detail % 2 ^ 32 * 2 ^ 32)

/-- The trap state of R97 written into a lane. -/
def Lane.trapState (L : Lane) (f : FltRec) (pc : Word) (resume : Bool) (issued twr : Nat) : Lane :=
  { L with ltcause := wordOf f.cls, ltpc := f.pc.getD pc, ltaddr := f.addr,
           ltinfo := ltInfo f.reason twr issued resume f.detail }

/-- The eight temporaries stored to the lane registers from TSAVE, each full; an unwritten one stores 0 (R94). -/
def Lane.spill (L : Lane) (tsave : Nat) : Lane :=
  (List.range 8).foldl (fun M n => M.vPut (tsave + n) (L.tGet n)) L

/-- Trap entry of a lane (R94): trap state, temporaries saved, INTRAP set, PC at the handler's line, an open
transaction doomed (R244). A transfer that the lane had already taken in its batch, whose trailer then faults (R51), is given up, so that a
return with RESUME goes on in sequence: the model's choice (notes/assumptions/85). -/
def Lane.trapEnter (L : Lane) (f : FltRec) (vec : Word) (tsave : Nat) (pc : Word) (resume : Bool) (issued twr : Nat) : Lane :=
  let M := (L.trapState f pc resume issued twr).spill tsave
  { M with intrap := true, pend := false, issued := 0, twr := 0, pc := vecEntry vec, seqIn := true,
           xfer := none, back := false,
           tx := if M.tx.opened then { M.tx with doomed := true } else M.tx }

/-- FPCR, UTVEC and UTMASK as they stood at the start of cycle `now` (R93, R159). -/
def Team.atStart (T : Team) (now : Nat) : Nat × Word × Word :=
  match T.old with
  | none => (T.fpcr, T.utvec, T.utmask)
  | some x => if x.1 = now then x.2 else (T.fpcr, T.utvec, T.utmask)

/-- STVEC as it stood at the start of cycle `now` (R93). -/
def Course.stvecAt (C : Course) (now : Nat) : Word :=
  match C.old with
  | none => C.stvec
  | some x => if x.1 = now then x.2 else C.stvec

/-- How R93 deals in cycle `now` with a fault of class `cls` in a lane: enter through a vector with its TSAVE, or suspend. -/
def trapTarget (now : Nat) (T : Team) (C : Course) (L : Lane) (cls reason : Nat) : Option (Word × Nat) :=
  let u := (T.atStart now).2
  let v := C.stvecAt now
  if cls = 0x01 && reason = 0x10 then none
  else if !T.sup && !L.intrap && bitN u.1.toNat 0 && bitN u.2.toNat cls && wfld u.2 56 8 + 7 < T.split.regs then
    some (u.1, wfld u.2 56 8)
  else if T.sup && !L.intrap && bitN v.toNat 0 && wfld v 56 8 + 7 < T.split.regs then
    some (v, wfld v 56 8)
  else none

/-- The handle of a course (R100). -/
def Team.handle (T : Team) (c : Nat) : Nat := c % 32 * 2 ^ 14 + T.slot % 16 * 2 ^ 10 + T.core % 1024

/-- The suspension record of a course (R101); `lanes` are the suspended lanes. -/
def suspRecord (T : Team) (C : Course) (lanes : List Nat) : SuspRec :=
  let L := C.lane (lanes.head?.getD 0)
  { handle := T.handle C.num,
    info := maskOf lanes + L.ltcause.toNat % 256 * 2 ^ 32 + L.ltinfo.toNat % 256 * 2 ^ 40,
    node := T.node, ltpc := L.ltpc }

/-- Set an INTSTAT bit of a column; the message of its vector goes out when the bit is enabled and was clear (R362,
R371). -/
def State.setInt (s : State) (col b : Nat) : State :=
  let k := s.column col
  let s := s.modCol col (fun k => { k with intstat := k.intstat ||| 2 ^ b })
  if bitN k.inten b && !bitN k.intstat b then { s with vectors := s.vectors ++ [col] } else s

/-- A record goes onto the supervisor course queue of a column, or waits behind others or for room (R101, R102). -/
def Column.scqPush (k : Column) (r : SuspRec) : Column :=
  if k.scqWait.isEmpty && k.scq.length < 64 then { k with scq := k.scq ++ [r] } else { k with scqWait := k.scqWait ++ [r] }

/-- TSTAT.ERR of a team is set (R104). -/
def State.setTerr (s : State) (t : Nat) : State := s.modTeam t (fun T => { T with terr := true })

/-- A suspension record goes onto the supervisor course queue of a column; where FAULT of DUTY names the column core it is told of the
record, which it takes by SUSPQ (R370; notes/assumptions/87). -/
def State.scqRecord (s : State) (col : Nat) (r : SuspRec) : State :=
  let s := s.modCol col (·.scqPush r)
  if bitN (s.column col).duty 2 then s.setInt col 2 else s

/-- Suspend a course whose lanes `lanes` are marked (R99, R101): it is not eligible; a record of a user course goes onto the
supervisor course queue of the column, a supervisor course is reported to the column core (R364). What was kept for an access that the
course retried is used up (R31, R171). -/
def State.suspend (s : State) (t c : Nat) (lanes : List Nat) : State :=
  let s := s.modCourse t c (fun C => { C with suspended := true, parked := none, coh := none, walked := [], refused := 0, recRefused := 0 })
  let s := lanes.foldl (fun s l => s.modLane t c l (fun L =>
    { L with tx := if L.tx.opened then { L.tx with doomed := true } else L.tx })) s
  let T := s.team t
  let col := coreCol T.core
  if T.sup then
    if (s.column col).suspq.length < 16 then
      (s.modCol col (fun k => { k with suspq := k.suspq ++ [T.handle c] })).setInt col 2
    else s
  else s.scqRecord col (suspRecord T (T.course c) lanes)

/-- Delivery of the faults of an instruction (R93, R94, R99): `issued` instructions of the batch were counted before it,
`ip` is its address, `succ` its successor for the lanes that go on. The lanes that fault leave the cohort. ENGINE in a live
lane sets TSTAT.ERR (R104; notes/assumptions/64). -/
def State.deliver (s : State) (t c : Nat) (flts : List (Nat × FltRec)) (ip succ : Word) (succIn : Bool) (issued : Nat) : State :=
  let T := s.team t
  let C := T.course c
  let now := s.cycle (coreCol T.core)
  let real := (List.range 32).flatMap (fun l => if (C.lane l).cls == .live then flts.filter (fun p => p.1 == l) else [])
  let entered := real.filter (fun p => (trapTarget now T C (C.lane p.1) p.2.cls p.2.reason).isSome)
  let marked := real.filter (fun p => (trapTarget now T C (C.lane p.1) p.2.cls p.2.reason).isNone)
  let s := if real.any (fun p => p.2.cls == 0x10) then s.setTerr t else s
  let s := entered.foldl (fun s p => match trapTarget now T C (C.lane p.1) p.2.cls p.2.reason with
    | none => s
    | some (v, ts) => s.modLane t c p.1 (fun L => L.trapEnter p.2 v ts ip true issued L.twr)) s
  let s := marked.foldl (fun s p => s.modLane t c p.1 (fun L =>
    { L.trapState p.2 ip true issued L.twr with pc := ip, seqIn := false, pend := true, issued := issued })) s
  let rest := (match C.coh with | none => [] | some h => h.lanes).filter (fun l => !real.any (fun p => p.1 == l))
  if marked.isEmpty then
    s.modCourse t c (fun C => { C with coh := if rest.isEmpty then none else C.coh.map (fun h => { h with lanes := rest }) })
  else
    let s := rest.foldl (fun s l => s.modLane t c l (fun L =>
      { L with pc := succ, seqIn := succIn, pend := true, issued := issued + 1 })) s
    s.suspend t c (marked.map (·.1))

/-- Return from a handler in one lane (R95): temporaries from TSAVE, INTRAP cleared, and what the lane takes at the
trailer. A saved register at or beyond the split restores 0 (notes/assumptions/16). -/
def Lane.trapReturn (L : Lane) (regs tsave : Nat) : Lane × Xfer :=
  let M := (List.range 8).foldl (fun M n =>
    { M with t := mapPut n (if tsave + n < regs then L.vGet (tsave + n) else 0) M.t }) L
  let resume := bitN L.ltinfo.toNat 21
  ({ M with intrap := false },
   .ret L.ltpc resume (if resume then wfld L.ltinfo 16 5 else 0) (if resume then wfld L.ltinfo 8 8 else 0))

/-! ### Parking -/

/-- Park the course in focus at its instruction (R69): its cohort keeps its PC with PEND = 1. -/
def State.park (s : State) (t c : Nat) (ws : List Wait) : State :=
  let C := s.course t c
  match C.coh with
  | none => s
  | some h => s.modCourse t c (fun C =>
      { C with parked := some ws, coh := some { h with succIn := false },
               lanes := h.lanes.foldl (fun ls l => ls.modify l (fun L =>
                 { L with pc := h.pc, seqIn := false, pend := true, issued := h.issued })) C.lanes })

/-- The next issue number, and the state that has used it. -/
def State.newId (s : State) : Nat × State := (s.nextId, { s with nextId := s.nextId + 1 })

/-- A free word, and the state that has used it (notes/assumptions/28). -/
def State.freeWord (s : State) : Word × State := (Config.freeWord s.fresh, { s with fresh := s.fresh + 1 })

end Sys2Proof.Machine
end

