-- ==== Sys2Proof/Machine/Operands.lean ====
section
/-! DEFINITION. Every operand form (R44 to R47), the checks that every instruction makes before its own effect in the
order of R70, and the writing of results (R64, R73, R89, R123): a Run is an instruction under way. -/

namespace Sys2Proof.Machine

/-- The register number that an indexed operand names in a lane (R47). -/
def Lane.idx (L : Lane) (ib x : Nat) : Nat := L.xVal x + ib

/-- Value of a source operand in a lane (R44, R46, R47): `head` gives the entry at the head of a queue register's port.
An inline immediate is sign-extended; element types expand it themselves. -/
def srcVal (T : Team) (L : Lane) (head : Nat → Option QEntry) (l ib : Nat) : Opnd → Word
  | .none => 0
  | .v n => L.vGet n
  | .k n => T.kGet n
  | .t n => L.tGet n
  | .eq n => match head n with
    | none => 0
    | some e => e.slots.getD l 0
  | .x n => wordOf (L.xVal n)
  | .p n => if L.pGet n then 1 else 0
  | .vx n => L.vGet (L.idx ib n)
  | .imm b => b.signExtend 64

/-- A source operand is full in a lane (R22, R24). -/
def srcFull (T : Team) (L : Lane) (ready : Nat → Bool) (ib : Nat) : Opnd → Bool
  | .v n => !eGet L.vE n
  | .k n => n == 0 || !eGet T.kE n
  | .eq n => ready n
  | .p n => !eGet L.pE n
  | .vx n => !eGet L.vE (L.idx ib n)
  | _ => true

/-- What a lane waits for when an operand is empty; `place` says which entry of its port a queue register pops (R89). -/
def srcWait (T : Team) (L : Lane) (place : Nat → Nat) (l ib : Nat) : Opnd → List Wait
  | .v n => [.vFull l n]
  | .k n => [.kFull n]
  | .eq n => [.pop (T.portOf n) (place n)]
  | .p n => [.pFull l n]
  | .vx n => [.vFull l (L.idx ib n)]
  | _ => []

/-- TEMP, SPLIT and BOUNDS of one operand field (R70 step 3); `pos` is 1 for A, 2 for B, 3 for C, 0 for D. -/
def fieldFault (regs : Nat) (L : Lane) (ib pos : Nat) (x : Opnd) : Option FltRec :=
  match x with
  | .t n => if pos ≠ 0 && !bitN L.twr n then some { cls := 0x08, reason := pos, detail := specOf x } else none
  | .v n => if n < regs then none else some { cls := 0x07, reason := 0x01, detail := specOf x }
  | .vx n => if L.idx ib n < L.xLim n && L.idx ib n < regs then none
             else some { cls := 0x06, reason := 0x01, detail := L.idx ib n }
  | _ => none

/-- How an instruction uses its destination field. -/
inductive DMode where
  | none      -- no register is written
  | full      -- written as an ALU result, or emptied by a long-latency producer: it must be full first (R23, R24)
  | counter   -- names a completion counter or queue register for an engine (R26)
  | now       -- written as an ALU result by an instruction that never parks for it (R90, R325)
  deriving DecidableEq, Repr

/-- How an instruction departs from the common checks: whether helper lanes perform it (R64), which sources it reads (`nA` etc.
switch a field off), whether EMPTY on A is judged by the instruction itself (R154), a further predicate that it writes, a system
register or port that needs supervisor mode, and whether only the lane of R73 is checked (R187). -/
structure Pro where
  d : DMode := .full
  helps : Bool := true
  nA : Bool := false
  ownA : Bool := false
  pred : Option Nat := none
  priv : Option (Nat × Nat) := none
  one : Bool := false

/-- The destination field takes a result of the instruction. -/
def DMode.writes (d : DMode) : Bool := d = .full || d = .now

/-- An instruction under way in the cohort of a course: the state before it (`s0`) and as it is being changed (`s`), the
active lanes, those that perform it, whether helper lanes perform it, and the first fault of each lane; `void` says that it is
performed in no lane (R409). -/
structure Run where
  s0 : State
  s : State
  t : Nat
  c : Nat
  o : Ops
  d : DMode
  act : List Nat
  on : List Nat
  ip : Word
  succ : Word
  succIn : Bool
  issued : Nat
  flt : List (Nat × FltRec) := []
  pops : List Nat := []
  helps : Bool := true
  void : Bool := false

/-- The team of a run, before the instruction. -/
def Run.T (r : Run) : Team := r.s0.team r.t
/-- The course of a run, before the instruction. -/
def Run.C (r : Run) : Course := r.s0.course r.t r.c
/-- A lane of a run, before the instruction. -/
def Run.L (r : Run) (l : Nat) : Lane := r.C.lane l
/-- The queue register of an operand. -/
def eqOf : Opnd → Option Nat
  | .eq n => some n
  | _ => none

/-- Which entry of its port a queue register pops, where an instruction reads several registers bound to one port: each pops an
entry of its own, in the order A, B, C (R89). -/
def popPlace (T : Team) (o : Ops) (n : Nat) : Nat :=
  ((([o.a.op, o.b.op, o.c.op].filterMap eqOf).takeWhile (· != n)).filter (fun m => T.portOf m == T.portOf n)).length

/-- The entry that a queue register of a team pops. -/
def headOf (s : State) (t : Nat) (o : Ops) (n : Nat) : Option QEntry :=
  s.entryAt t ((s.team t).portOf n) (popPlace (s.team t) o n)

/-- The entry that a queue register pops. -/
def Run.head (r : Run) (n : Nat) : Option QEntry := headOf r.s0 r.t r.o n
/-- Value of source A in a lane. -/
def Run.a (r : Run) (l : Nat) : Word := srcVal r.T (r.L l) r.head l r.o.ib r.o.a.op
/-- Value of source B in a lane. -/
def Run.b (r : Run) (l : Nat) : Word := srcVal r.T (r.L l) r.head l r.o.ib r.o.b.op
/-- Value of source C in a lane. -/
def Run.cc (r : Run) (l : Nat) : Word := srcVal r.T (r.L l) r.head l r.o.ib r.o.c.op
/-- The lane is live. -/
def Run.live (r : Run) (l : Nat) : Bool := (r.L l).cls == .live
/-- The lane has raised no fault. -/
def Run.ok (r : Run) (l : Nat) : Bool := !r.flt.any (fun p => p.1 == l)
/-- The lanes that perform the instruction. -/
def Run.good (r : Run) : List Nat := r.on.filter r.ok
/-- The live lanes that perform the instruction. -/
def Run.goodLive (r : Run) : List Nat := r.good.filter r.live
/-- The lane chosen by R73: the lowest active, guarded-on, live lane, before any check. -/
def Run.chosen (r : Run) : Option Nat := (r.on.filter r.live).head?
/-- The core of the run. -/
def Run.core (r : Run) : Nat := r.T.core
/-- The column of the run. -/
def Run.col (r : Run) : Nat := coreCol r.T.core

/-- Record a fault of a lane, unless the lane has one. -/
def Run.fault (r : Run) (l : Nat) (f : FltRec) : Run := if r.ok l then { r with flt := r.flt ++ [(l, f)] } else r

/-- Record the faults that `f` finds in the lanes `ls`. -/
def Run.check (r : Run) (ls : List Nat) (f : Nat → Option FltRec) : Run :=
  ls.foldl (fun r l => match f l with | none => r | some x => r.fault l x) r

/-- Fault in every active, guarded-on, live lane of an instruction that is then performed in no lane (R409). -/
def Run.faultAll (r : Run) (f : FltRec) : Run := (r.on.filter r.live).foldl (fun r l => r.fault l f) { r with void := true }

/-- A faulting helper lane writes 0 to a lane destination and marks it full (R64). -/
def Lane.putReg (L : Lane) (ib : Nat) (x : Opnd) (v : Word) : Lane :=
  match x with
  | .v n => L.vPut n v
  | .vx n => L.vPut (L.idx ib n) v
  | .t n => L.tPut n v
  | .p n => L.pPut n (v.getLsbD 0)
  | _ => L

/-- Bind of a queue register: port faults of R70 step 2 for a pop or push of `eq n` (R89, R315). -/
def portFault (s : State) (t c n : Nat) (push : Bool) : Option FltRec :=
  let T := s.team t
  let port := T.portOf n
  if port = 0 then some { cls := 0x11, reason := 0x01, detail := n }
  else if push then
    if port ≠ 0x20 then some { cls := 0x11, reason := 0x02, detail := n }
    else if (s.coreOf t).coil.owner ≠ some t then some { cls := 0x13, reason := 0x01 }
    else if 4 ≤ c then some { cls := 0x13, reason := 0x08 }
    else none
  else if port = 0x20 then some { cls := 0x11, reason := 0x02, detail := n }
  else if port = 0x7F && !T.sup then some { cls := 0x04, reason := 0x03, detail := port }
  else none

/-- Guard of a lane (R48). -/
def guardOn (g : Guard) (L : Lane) : Bool :=
  match g.p with
  | none => true
  | some n => L.pGet n != g.neg

/-- The run of an instruction whose checks have not begun; none when no cohort is in focus. -/
def startRun (o : Ops) (p : Pro) (s : State) : Option Run :=
  match s.focus with
  | none => none
  | some (t, c) =>
    let C := s.course t c
    match C.coh with
    | none => none
    | some h =>
      let act := C.active h.lanes
      some {
             s0 := s, s := s, t := t, c := c, o := o, d := p.d, helps := p.helps, act := act,
             on := act.filter (fun l => guardOn o.g (C.lane l)), ip := h.pc, succ := h.succ, succIn := h.succIn,
             issued := h.issued }

/-- The outcome of the checks that every instruction makes: no cohort, a parked course, or a run that goes on. -/
inductive Pre where
  | stop
  | parked (s : State)
  | go (r : Run)

/-- Park the course of a run (R69): nothing of the instruction is performed. -/
def Run.park (r : Run) (ws : List Wait) : State := r.s0.park r.t r.c ws

/-- The sources that an instruction reads, with their position. -/
def Run.sources (r : Run) (p : Pro) : List (Nat × Src) :=
  (if p.nA then [] else [(1, r.o.a)]) ++ [(2, r.o.b), (3, r.o.c)]

/-- Sources with an empty value in a lane. -/
def Run.empties (r : Run) (p : Pro) (l : Nat) : List (Nat × Src) :=
  (r.sources p).filter (fun x => !srcFull r.T (r.L l) (fun n => (r.head n).isSome) r.o.ib x.2.op)

/-- A source is an uncorrectable register or temporary (R400). -/
def srcBad (T : Team) (L : Lane) (ib : Nat) (x : Opnd) : Bool :=
  match x with
  | .v n => L.bad.contains n
  | .vx n => L.bad.contains (L.idx ib n)
  | .t n => L.bad.contains (0x200 + n)
  | .k n => T.kbad.contains n
  | _ => false

/-- The operand is a predicate. -/
def isPred : Opnd → Bool
  | .p _ => true
  | _ => false

/-- A long-latency producer of a uniform register of a team is outstanding (R23). -/
def State.produces (s : State) (t n : Nat) : Bool := s.flights.any (fun f => f.team == t && f.dest == .k n)

/-- R70 step 4 in one lane: what the course waits for. A command whose counter another producer has emptied waits for it (R23). -/
def Run.waits (r : Run) (p : Pro) (l : Nat) : List Wait :=
  let L := r.L l
  let src := (r.empties p l).filter (fun x => x.2.w || isPred x.2.op)
  (src.flatMap (fun x => srcWait r.T L (popPlace r.T r.o) l r.o.ib x.2.op)) ++
  (match p.d with
   | .full => (match r.o.d with
     | .eq n => if r.s0.coilRoom r.t r.c = 0 then [.room (r.T.portOf n)] else []
     | x => if srcFull r.T L (fun _ => true) r.o.ib x then [] else srcWait r.T L (popPlace r.T r.o) l r.o.ib x)
   | .counter => (match r.o.d with
     | .k n => if r.s0.produces r.t n then [.kFull n] else []
     | _ => [])
   | _ => []) ++
  (match p.pred with
   | none => []
   | some n => if eGet L.pE n then [.pFull l n] else [])

/-- R70 step 1: what a course waits for whose guard is empty in an active lane. -/
def Run.guardWaits (r : Run) : List Wait :=
  match r.o.g.p with
  | none => []
  | some n => (r.act.filter (fun l => eGet (r.L l).pE n)).map (fun l => Wait.pFull l n)

/-- R187: only the lane of R73 performs the instruction. -/
def Run.narrow (r : Run) (one : Bool) : Run := if one then { r with on := r.chosen.toList } else r

/-- R70 step 2: PRIV. -/
def Run.judgeMode (r : Run) (p : Pro) : Run :=
  match p.priv with
  | none => r
  | some (reason, n) => if r.T.sup then r else r.check r.on (fun _ => some { cls := 0x04, reason := reason, detail := n })

/-- The queue registers that an instruction pops. -/
def Run.popRegs (r : Run) (p : Pro) : List Nat := (r.sources p).filterMap (fun x => eqOf x.2.op)

/-- The queue register that an instruction pushes. -/
def Run.pushRegs (r : Run) (p : Pro) : List Nat := if p.d = .full then (eqOf r.o.d).toList else []

/-- R70 step 2: the port faults. -/
def Run.judgePorts (r : Run) (p : Pro) : Run :=
  match ((r.popRegs p).filterMap (fun n => portFault r.s0 r.t r.c n false) ++
    (r.pushRegs p).filterMap (fun n => portFault r.s0 r.t r.c n true)).head? with
  | none => r
  | some f => r.check (if p.one then r.on else r.act) (fun _ => some f)

/-- R70 step 3: TEMP, SPLIT and BOUNDS field by field. -/
def Run.judgeFields (r : Run) (p : Pro) : Run :=
  r.check r.on (fun l => ((r.sources p ++ [(0, { op := r.o.d : Src })]).filterMap (fun (x : Nat × Src) =>
    fieldFault r.T.split.regs (r.L l) r.o.ib x.1 x.2.op)).head?)

/-- R70 step 4: what the course waits for, judged over the active lanes that have no fault. -/
def Run.allWaits (r : Run) (p : Pro) : List Wait := ((if p.one then r.on else r.act).filter r.ok).flatMap (r.waits p)

/-- R70 step 5: EMPTY. -/
def Run.judgeEmpty (r : Run) (p : Pro) : Run :=
  r.check r.on (fun l => ((r.empties p l).find? (fun x => !(p.ownA && x.1 == 1))).map (fun x =>
    { cls := 0x05, reason := x.1, detail := specOf x.2.op }))

/-- MEMERR of an uncorrectable source (R400); A of an instruction that judges it itself is left out. -/
def Run.judgeSound (r : Run) (p : Pro) : Run :=
  r.check r.on (fun l => ((r.sources p).find? (fun x => !(p.ownA && x.1 == 1) && srcBad r.T (r.L l) r.o.ib x.2.op)).map (fun x =>
    { cls := 0x17, reason := 0x05, detail := specOf x.2.op }))

/-- The checks of R70 up to the operand fields, once the guard is full. -/
def Run.early (r : Run) (p : Pro) : Run := (((r.narrow p.one).judgeMode p).judgePorts p).judgeFields p

/-- The checks of R70 before the instruction's own: guard, port faults and PRIV, operand fields, parking, EMPTY,
and MEMERR of a source (R400). -/
def prologue (o : Ops) (p : Pro) (s : State) : Pre :=
  match startRun o p s with
  | none => .stop
  | some r =>
    if !r.guardWaits.isEmpty then .parked (r.park r.guardWaits)
    else if !((r.early p).allWaits p).isEmpty then .parked ((r.early p).park ((r.early p).allWaits p))
    else
      let r := ((r.early p).judgeEmpty p).judgeSound p
      .go { r with pops := (r.popRegs p).map r.T.portOf }

/-- Uniform registers that the instruction reads, whose counters it consumes (R26, R217). -/
def Run.kReads (r : Run) : List Nat :=
  [r.o.a.op, r.o.b.op, r.o.c.op].filterMap (fun x => match x with | .k n => if n = 0 then none else some n | _ => none)

/-- The helper lanes that the guard leaves on and that have raised a fault, which is discarded (R64). -/
def Run.failedHelpers (r : Run) : List Nat := r.on.filter (fun l => !r.ok l && (r.L l).cls == .helper)

/-- The lanes in which the instruction is performed: helper lanes among them only where R64 says so, and none of an instruction whose
one lane does not perform it (R409). -/
def Run.doers (r : Run) : List Nat := if r.void then [] else if r.helps then r.good else r.goodLive

/-- Pops and consumptions, which take place when some lane performs the instruction (R89, R217, R409). -/
def Run.consumeSrcs (r : Run) : State :=
  if r.doers.isEmpty then r.s
  else
    let s := r.pops.foldl (fun s port => match s.portPop r.t port with
      | (none, s') => s'
      | (some e, s') => s'.acquire r.core e.scope) r.s
    r.kReads.foldl (fun s k => if eGet (s.team r.t).kE k then s else s.consume r.t k) s

/-- The end of an instruction that was not parked: it counts towards its batch, the cohort goes to its successor, faults
are delivered (R50, R93), and faulting helpers of an instruction that helpers perform get 0 (R64). -/
def Run.finish (r : Run) : State :=
  let s := r.consumeSrcs
  let s := r.flt.foldl (fun s p => if (r.L p.1).cls == .helper && r.helps && r.d.writes &&
      (fieldFault r.T.split.regs (r.L p.1) r.o.ib 0 r.o.d).isNone
    then s.modLane r.t r.c p.1 (fun L => L.putReg r.o.ib r.o.d 0) else s) s
  let s := s.modCourse r.t r.c (fun C => { C with
    parked := none, walked := [], recRefused := 0, coh := C.coh.map (fun h => { h with issued := h.issued + 1, pc := h.succ }) })
  if r.flt.isEmpty then s else s.deliver r.t r.c r.flt r.ip r.succ r.succIn r.issued

/-- An instruction that one lane performs on behalf of the cohort (R409): its own faults reach every live lane that performs
it; `f` does the rest. Where that lane has met a fault of the common checks, or there is none, it is performed in no lane. -/
def Run.once (r : Run) (fault : Nat → Option FltRec) (f : Run → Nat → State) : State :=
  match r.chosen with
  | none => { r with void := true }.finish
  | some l =>
    if !r.ok l then { r with void := true }.finish
    else match fault l with
      | some x => (r.faultAll x).finish
      | none => f r l

/-- An instruction: the common checks, then its own effect, which parks or finishes the run. -/
def withRun (o : Ops) (p : Pro) (s : State) (f : Run → State) : Host.Outcome State Fault Refusal :=
  match prologue o p s with
  | .stop => .fault .noCohort
  | .parked s' => .next s'
  | .go r => .next (f r)

/-- A result of a lane: its value, the flags that it raises, and for each flag-raising element its flags (R123). -/
structure LRes where
  val : Word
  flags : Nat := 0
  elems : List Nat := []

/-- The elements that raised an enabled flag (R123). -/
def LRes.mask (x : LRes) (ten : Nat) : Nat :=
  maskOf ((List.range x.elems.length).filter (fun i => x.elems.getD i 0 &&& ten != 0))

/-- The flags that a lane raises: none in a helper, and for a uniform destination only in the chosen lane (R123). -/
def Run.raised (r : Run) (l : Nat) (x : LRes) : Nat :=
  let kd := match r.o.d with | .k _ => true | _ => false
  if !r.live l || (kd && r.chosen != some l) then 0 else x.flags

/-- The enabled flags for which a lane traps: a helper lane too, whose fault is discarded and whose lane destination gets 0
(R64, R159). -/
def Run.trapping (r : Run) (ten l : Nat) (x : LRes) : Nat :=
  let lane := match r.o.d with
    | .k _ | .eq _ => false
    | _ => true
  (if !r.live l && lane then x.flags else r.raised l x) &&& ten

/-- Write the results of an ALU instruction (R64, R73, R89, R123): flags first, then FPX in the lanes that raise an
enabled flag, FPCR taken as it stood at the start of the cycle (R159), then the destinations of the lanes without a fault. -/
def Run.write (r : Run) (res : Nat → LRes) : Run :=
  let raised := r.good.foldl (fun a l => a ||| r.raised l (res l)) 0
  let r := { r with s := if raised = 0 then r.s else r.s.modCourse r.t r.c (fun C => { C with fpsr := C.fpsr ||| raised }) }
  let ten := (r.T.atStart (r.s0.cycle r.col)).1
  let r := r.check r.good (fun l =>
    if r.trapping ten l (res l) = 0 then none
    else some { cls := 0x12, reason := r.raised l (res l), detail := (res l).mask ten })
  match r.o.d with
  | .k n => match r.chosen with
    | none => r
    | some l => if r.ok l then { r with s := r.s.modTeam r.t (fun T => T.kPut n (res l).val) } else r
  | .eq _ =>
    if r.good.isEmpty then r
    else
      let ls := r.goodLive
      let e : QEntry := { slots := (List.range 32).map (fun l => if ls.contains l then (res l).val else 0), mask := maskOf ls }
      { r with s := r.s.pushGroup r.core r.c e }
  | d => { r with s := r.good.foldl (fun s l => s.modLane r.t r.c l (fun L => L.putReg r.o.ib d (res l).val)) r.s }

/-- An instruction of the Lane ALU shape: each lane's result depends on the state before it (R13). -/
def aluRun (o : Ops) (p : Pro) (s : State) (res : Run → Nat → LRes) : Host.Outcome State Fault Refusal :=
  withRun o p s (fun r => (r.write (res r)).finish)

end Sys2Proof.Machine
end

