-- ==== Sys2Proof/Machine/Elements.lean ====
section
/-! DEFINITION. Elements of typed operands (R108, R109): how a source is read element by element, inline immediates (R46),
and how results are placed in a register. -/

namespace Sys2Proof.Machine

/-- The element that an inline immediate gives (R46). -/
def expandImm (ty : Ty) (b : Byte) : Nat :=
  if tyInt ty then truncN (tyW ty) (sextN 8 b.toNat) else (cvtIF (tyFmt ty) .rne (sextN 8 b.toNat)).1

/-- Element `i` of an operand whose register value is `w` (R108). -/
def elem (ty : Ty) (x : Opnd) (w : Word) (i : Nat) : Nat :=
  match x with
  | .imm b => expandImm ty b
  | _ => wfld w (tyW ty * i) (tyW ty)

/-- Val of an element (R115): signed or unsigned by the type. -/
def valI (ty : Ty) (x : Nat) : Int := if tySigned ty then sextN (tyW ty) x else (x : Int)

/-- Elements packed from bit 0 up. -/
def packBits (w : Nat) : List Nat → Nat
  | [] => 0
  | x :: r => x % 2 ^ w + 2 ^ w * packBits w r

/-- A result placed in a register (R108): a scalar below 64 bits is extended by its type. -/
def place (ty : Ty) (els : List Nat) : Word :=
  if tyN ty = 1 && tyInt ty && tySigned ty then wordOfInt (sextN (tyW ty) (els.headD 0)) else wordOf (packBits (tyW ty) els)

/-- The indices of a type's elements. -/
def idxs (ty : Ty) : List Nat := List.range (tyN ty)

/-- An operand as a whole register: an immediate fills every element (R108). -/
def whole (ty : Ty) (x : Opnd) (w : Word) : Word :=
  match x with
  | .imm b => place ty ((idxs ty).map (fun _ => expandImm ty b))
  | _ => w

/-- Element `i` of source A. -/
def Run.ea (r : Run) (ty : Ty) (l i : Nat) : Nat := elem ty r.o.a.op (r.a l) i
/-- Element `i` of source B. -/
def Run.eb (r : Run) (ty : Ty) (l i : Nat) : Nat := elem ty r.o.b.op (r.b l) i
/-- Element `i` of source C. -/
def Run.ec (r : Run) (ty : Ty) (l i : Nat) : Nat := elem ty r.o.c.op (r.cc l) i

/-- A result without flags. -/
def intRes (ty : Ty) (f : Nat → Nat) : LRes := { val := place ty ((idxs ty).map f) }

/-- A result whose elements raise flags (R123). -/
def fltRes (ty : Ty) (els : List FRes) : LRes :=
  { val := place ty (els.map (·.1)), flags := els.foldl (fun a x => a ||| x.2) 0, elems := els.map (·.2) }

/-- Each float element computed by `f` (R139). -/
def fltMap (ty : Ty) (f : Nat → FRes) : LRes := fltRes ty ((idxs ty).map f)

/-- SAT of R126, then Trunc to the element width. -/
def cut (ty : Ty) (sat : Bool) (z : Int) : Nat :=
  truncN (tyW ty) (if sat then satI z (intLo (tySigned ty) (tyW ty)) (intHi (tySigned ty) (tyW ty)) else z)

end Sys2Proof.Machine
end

