-- ==== Sys2Proof/WellFormed.lean ====
section
/-! DEFINITION. Which terms of Instr are instructions that the encoding can express (R44 to R48, R53): the errors of a
term, and well-formedness as the absence of errors. -/

namespace Sys2Proof

open Sys2Proof.Machine

/-- Why a term of Instr has no words. -/
inductive WfError where
  | event            -- not an instruction
  | guard            -- R48: a guard number above 47, or a negated guard that names no predicate
  | number           -- R44: a register number out of range
  | operandClass     -- R45: a class that the field does not allow, or an operand in an unused field
  | indexed          -- R47: an indexed operand in a format without IB
  | waitOrHint       -- R44: a wait bit or reuse hint that the operand does not allow
  | modifier         -- R53 0x0B: no encoding of the modifiers
  | indexBase        -- R45: IB with no indexed operand, or above 255
  | sameQueue        -- R45: one queue register in two source fields (not of a trailer, R51)
  | longLatency      -- R23: long-latency producer aimed at a temporary, an index register or k0
  | packedPredicate  -- R135, R141: packed compare into a predicate
  | trailer          -- R51: btl with a guard, wait bits or hints
  deriving DecidableEq, Repr

/-- An operand stands in a field that allows the classes `l` (an empty list: unused field). -/
def clsOk (l : List OC) (x : Opnd) : Bool :=
  match opndCls x with
  | none => l.isEmpty
  | some c => l.contains c

/-- The operand is indexed (R47). -/
def isVx : Opnd → Bool
  | .vx _ => true
  | _ => false

/-- The operands are the same queue register (R45). -/
def sameEq : Opnd → Opnd → Bool
  | .eq n, .eq m => n == m
  | _, _ => false

/-- The wait bit and the hint of a source are allowed (R44). -/
def whOk (s : Src) : Bool := (!s.w || waitCls (opndCls s.op)) && (!s.h || hintCls (opndCls s.op))

/-- The guard is one of R48. -/
def guardOk (g : Guard) : Bool :=
  match g.p with
  | none => !g.neg
  | some n => n < 48

/-- The errors of an instruction's fields. -/
def fieldErrors (f : Info) : List WfError :=
  let o := f.o
  (if guardOk o.g then [] else [.guard]) ++
  (if opndOk o.d && opndOk o.a.op && opndOk o.b.op && opndOk o.c.op then [] else [.number]) ++
  (if clsOk f.d o.d && clsOk f.a o.a.op && clsOk f.b o.b.op && clsOk f.c o.c.op then [] else [.operandClass]) ++
  (if formHasC f.form || !(isVx o.d || isVx o.a.op || isVx o.b.op || isVx o.c.op) then [] else [.indexed]) ++
  (if whOk o.a && whOk o.b && whOk o.c then [] else [.waitOrHint]) ++
  (if f.ok then [] else [.modifier]) ++
  (if o.ib < 256 && (o.ib == 0 || isVx o.d || isVx o.a.op || isVx o.b.op || isVx o.c.op) then [] else [.indexBase]) ++
  (if f.op != 0x01 && (sameEq o.a.op o.b.op || sameEq o.a.op o.c.op || sameEq o.b.op o.c.op) then [.sameQueue] else []) ++
  (if f.ll && (opndCls o.d == some .t || opndCls o.d == some .x || opndCls o.d == some .k0) then [.longLatency] else []) ++
  (if f.pdst && opndCls o.d == some .p then [.packedPredicate] else []) ++
  (if f.op == 0x01 && !(o.g.p == none && !o.a.w && !o.a.h && !o.b.w && !o.b.h) then [.trailer] else [])

/-- The errors of a term. -/
def wfErrors (i : Instr) : List WfError :=
  match info i with
  | none => [.event]
  | some f => fieldErrors f

/-- The term is an instruction that the encoding of the spec expresses. -/
abbrev WellFormed (i : Instr) : Prop := wfErrors i = []

end Sys2Proof
end

