-- ==== Sys2Proof/Decode.lean ====
section
/-! DEFINITION. The decoder, total on any word, which rejects by the reason codes of R53 in the order of R54, and the
encoder, written from the same tables (R40 to R54, Machine/Encoding.lean). -/

namespace Sys2Proof

open Sys2Proof.Machine

/-- The fields of an instruction word (R40 to R42). -/
structure Raw where
  l : Nat
  op : Nat
  g : Nat
  gn : Bool
  d : Nat
  a : Nat
  b : Nat
  wa : Bool
  wb : Bool
  ha : Bool
  hb : Bool
  m : Nat
  c : Nat
  wc : Bool
  hc : Bool
  ib : Nat
  m2 : Nat
  imm : Nat
  e : Nat
  deriving DecidableEq, Repr

/-- The fields of the word `w`, as the format lays them out (R40 to R42). -/
def rawOf (form : Form) (w : Nat) : Raw :=
  let hasC := formHasC form
  { l := fld w 0 2, op := fld w 2 8, g := fld w 10 6, gn := bitN w 16, d := fld w 17 10, a := fld w 27 10, b := fld w 37 10,
    wa := bitN w 47, wb := bitN w 48, ha := bitN w 49, hb := bitN w 50, m := fld w 51 13,
    c := if hasC then fld w 64 10 else 0, wc := hasC && bitN w 74, hc := hasC && bitN w 75,
    ib := if hasC then fld w 76 8 else 0, m2 := if hasC then fld w 84 12 else 0,
    imm := match form with | .f96i => fld w 64 32 | .f128i => fld w 64 64 | _ => 0,
    e := match form with | .f128e => fld w 96 32 | _ => 0 }

/-- The forms that an opcode accepts (R43, R52); none when the opcode is reserved. -/
def opForms (op : Nat) : List Form :=
  if op == 0x02 || op == 0x04 || op == 0x0E then [.f96i]
  else if op ≤ 0x17 then [.f64]
  else if op < 0x20 then []
  else if op == 0x24 || op == 0x25 || (0x38 ≤ op && op ≤ 0x3B) || op == 0x3D || op == 0x3E || op == 0x43 || op == 0x52 ||
      op == 0x55 then [.f96c]
  else if op ≤ 0x57 then [.f64]
  else if op == 0x58 then [.f96i, .f128i]
  else if op < 0x60 then []
  else if op ≤ 0x66 then [.f64]
  else if op < 0x70 then []
  else if op ≤ 0x79 then [.f96c]
  else if op ≤ 0x7B then [.f64]
  else if op < 0x90 then []
  else if op == 0x90 || op == 0x97 || op == 0x98 then [.f64]
  else if op ≤ 0x96 then [.f96c]
  else if op < 0xA0 then []
  else if op == 0xA0 || op == 0xA2 || op == 0xA3 then [.f96c]
  else if op ≤ 0xA7 then [.f64]
  else if op < 0xB0 then []
  else if op ≤ 0xB2 then [.f128e]
  else if op == 0xB3 then [.f96c]
  else if op ≤ 0xB7 then [.f64]
  else if op < 0xC0 then []
  else if op == 0xC2 || op == 0xC3 || op == 0xD1 then [.f128e]
  else if op ≤ 0xC5 then [.f64]
  else if op < 0xD0 then []
  else if op ≤ 0xD4 then [.f64]
  else if op == 0xD8 || op == 0xD9 then [.f64]
  else if op == 0xDA || op == 0xE0 || op == 0xE3 then [.f96c]
  else if op == 0xE1 || op == 0xE2 || op == 0xE4 then [.f64]
  else []

/-- R54 steps 2 to 4: length, opcode and form; the number is the reason of R53. -/
def decodeHead (w : Nat) : Except Nat (Nat × Form) :=
  let l := fld w 0 2
  let op := fld w 2 8
  if l = 3 then .error 0x01
  else match opForms op with
    | [] => .error 0x02
    | fs => match fs.find? (fun f => formL f == l) with
      | none => .error 0x03
      | some f => .ok (op, f)

/-- TYPE, RM and FTZ of M (R111). -/
def fmodOf (m : Nat) : FMod := ⟨tyOf (fld m 0 5), rmOf (fld m 5 3), bitN m 8⟩

/-- M and M2 of a load or store (R183). -/
def ldmOf (m m2 : Nat) : LdM :=
  ⟨lsizeOf (fld m 0 3), if bitN m 8 then some (scopeOf (fld m 9 4)) else none, fld m 3 2, fld m 5 3, sextN 12 m2⟩

/-- M and M2 of a local access (R183). -/
def locmOf (m m2 : Nat) : LocM := ⟨lsizeOf (fld m 0 3), fld m 11 2, bitN m 10, sextN 12 m2⟩

/-- E of slip (R255). -/
def slipEOf (dir e : Nat) : SlipE :=
  if dir = 3 then ⟨0, fld e 0 18, bitN e 18, bitN e 19⟩ else ⟨fld e 20 7, fld e 0 20, false, false⟩

/-- The instruction that opcode, form and modifier fields select, with the operands `o`. The modifier fields are read
without regard to reserved values: `decodeBody` refuses a word whose fields are not those of the instruction. -/
def candidate (form : Form) (r : Raw) (o : Ops) : Option Instr :=
  let m := r.m
  let m2 := r.m2
  let ty := tyOf (fld m 0 5)
  let sat := bitN m 5
  let fm := fmodOf m
  let dt := tyOf (fld m 0 5)
  let st := tyOf (fld m 5 5)
  let rm := rmOf (fld m 10 3)
  let off := sextN 12 m2
  match r.op with
  | 0x00 => some (.nop o)
  | 0x01 => some (.btl o (fld m 0 5) (bitN m 5))
  | 0x02 => some (.bra o (BitVec.ofNat 32 r.imm))
  | 0x03 => some (.brx o)
  | 0x04 => some (.call o (BitVec.ofNat 32 r.imm))
  | 0x05 => some (.callx o)
  | 0x06 => some (.ret o)
  | 0x07 => some (.exit o)
  | 0x08 => some (.trap o (fld m 0 8))
  | 0x09 => some (.yield o)
  | 0x0A => some (.bar o (fld m 0 4))
  | 0x0B => some (.pldr o (bitN m 0))
  | 0x0C => match fld m 0 3 with
    | 0 => some (.pand o)
    | 1 => some (.por o)
    | 2 => some (.pxor o)
    | 3 => some (.pandn o)
    | 4 => some (.pnot o)
    | _ => some (.pmov o)
  | 0x0D => match fld m 0 2 with
    | 0 => some (.voteAny o (fld m 2 3))
    | 1 => some (.voteAll o (fld m 2 3))
    | 2 => some (.voteBallot o (fld m 2 3))
    | _ => some (.voteCount o (fld m 2 3))
  | 0x0E => some (.xset o (fld r.imm 0 9))
  | 0x0F => some (.xadd o)
  | 0x10 => some (.qbind o)
  | 0x11 => some (.qstat o)
  | 0x12 => some (.srd o (fld m 0 12))
  | 0x13 => some (.swr o (fld m 0 12))
  | 0x14 => some (.tret o)
  | 0x15 => some (.sret o)
  | 0x16 => some (.csave o)
  | 0x17 => match fld m 0 2 with
    | 0 => some (.cloadLd o)
    | 1 => some (.cloadRun o)
    | 2 => some (.cloadGo o)
    | _ => some (.cloadEnd o)
  | 0x20 => some (.add o ty sat)
  | 0x21 => some (.sub o ty sat)
  | 0x22 => some (.mul o ty sat)
  | 0x23 => some (.mulh o ty)
  | 0x24 => some (.mad o ty sat)
  | 0x25 => some (.madw o ty sat)
  | 0x26 => some (.div o ty sat)
  | 0x27 => some (.rem o ty)
  | 0x28 => some (.min o ty)
  | 0x29 => some (.max o ty)
  | 0x2A => some (.abs o ty sat)
  | 0x2B => some (.neg o ty sat)
  | 0x2C => some (.and o ty)
  | 0x2D => some (.or o ty)
  | 0x2E => some (.xor o ty)
  | 0x2F => some (.not o ty)
  | 0x30 => some (.andn o ty)
  | 0x31 => some (.shl o ty sat)
  | 0x32 => some (.shr o ty)
  | 0x33 => some (.sra o ty)
  | 0x34 => some (.rot o ty)
  | 0x35 => some (.clz o ty)
  | 0x36 => some (.popc o ty)
  | 0x37 => some (.brev o ty)
  | 0x38 => some (.bfx o ty)
  | 0x39 => some (.bfi o ty (fld m2 0 6) (fld m2 6 6))
  | 0x3A => some (.prmt o)
  | 0x3B => some (.sel o ty)
  | 0x3C => some (.cmp o ty (condOf (fld m 6 3)))
  | 0x3D => some (.addc o ty (bitN m2 7) (if bitN m2 6 then some (fld m2 0 6) else none))
  | 0x3E => some (.lea o (fld m2 0 3) (bitN m2 3))
  | 0x3F => some (.mov o)
  | 0x40 => some (.fadd o fm)
  | 0x41 => some (.fsub o fm)
  | 0x42 => some (.fmul o fm)
  | 0x43 => some (.ffma o fm)
  | 0x44 => some (.fmin o fm (bitN m 9))
  | 0x45 => some (.fmax o fm (bitN m 9))
  | 0x46 => some (.fcmp o fm (fcondOf (fld m 9 3)))
  | 0x47 => some (.fclass o fm)
  | 0x48 => some (.frnd o fm (bitN m 9))
  | 0x49 => some (.fdiv o fm)
  | 0x4A => some (.fsqrt o fm)
  | 0x4B => some (.frcp o fm)
  | 0x4C => some (.frsq o fm)
  | 0x4D => some (.fex2 o fm)
  | 0x4E => some (.flg2 o fm)
  | 0x4F => some (.fsin o fm)
  | 0x50 => some (.fcos o fm)
  | 0x51 => some (.ftanh o fm)
  | 0x52 => some (.fdot2 o fm)
  | 0x53 => some (.fscal o fm)
  | 0x54 => some (.cvt o dt st rm)
  | 0x55 => match fld m2 0 2 with
    | 0 => some (.cvtmxQ o dt st rm)
    | 1 => some (.cvtmxD o dt st rm (fld m2 2 3))
    | _ => some (.cvtmxS o dt)
  | 0x56 => some (.pk o dt st rm)
  | 0x57 => some (.upk o dt st (bitN m 10))
  | 0x58 => if form == .f128i then some (.ldiF128 o ty (wordOf r.imm)) else some (.ldiF96 o ty (BitVec.ofNat 32 r.imm))
  | 0x60 => some (.shfl o (fld m 5 2) (fld m 7 3))
  | 0x61 => some (.qx o (fld m 5 2))
  | 0x62 => some (.qbc o (fld m 5 2))
  | 0x63 => some (.credc o ty (copOf (fld m 5 3)) (fld m 8 3))
  | 0x64 => some (.cscan o ty (copOf (fld m 5 3)) (fld m 8 3) (bitN m 11))
  | 0x65 => some (.matchx o ty (fld m 8 3))
  | 0x66 => some (.ctz o ty)
  | 0x70 => some (.ld o (ldmOf m m2))
  | 0x71 => some (.st o ⟨lsizeOf (fld m 0 3), if bitN m 8 then some (scopeOf (fld m 9 4)) else none, bitN m 3, off⟩)
  | 0x72 => some (.ldl o (locmOf m m2))
  | 0x73 => some (.stl o (locmOf m m2))
  | 0x74 => some (.ldr o (locmOf m m2))
  | 0x75 => some (.str o (locmOf m m2))
  | 0x76 => some (.ldk o (ldmOf m m2))
  | 0x77 => some (.pf o (bitN m 3) (fld m 5 3) off)
  | 0x78 => some (.latom o ⟨aopOf (fld m 9 4), ty, bitN m 8, fld m 5 2, off⟩)
  | 0x79 => match fld m 0 2 with
    | 0 => some (.lpresQ o off)
    | 1 => some (.lpresClr o off)
    | _ => some (.lpresSet o off)
  | 0x7A => some (.tlbi o (fld m 0 2) (scopeOf (fld m 2 4)))
  | 0x7B => some (.asgen o)
  | 0x90 => match fld m 4 2 with
    | 0 => some (.fence o true false false (scopeOf (fld m 0 4)))
    | 1 => some (.fence o false true false (scopeOf (fld m 0 4)))
    | 2 => some (.fence o true true false (scopeOf (fld m 0 4)))
    | _ => some (.fence o true true true (scopeOf (fld m 0 4)))
  | 0x91 => some (.cflush o (scopeOf (fld m 9 4)) off)
  | 0x92 => some (.cwb o (scopeOf (fld m 9 4)) off)
  | 0x93 => some (.cinv o (scopeOf (fld m 9 4)) off)
  | 0x94 => some (.cspan o (scopeOf (fld m 9 4)) (fld m 6 3) off)
  | 0x95 => some (.nred o (ropOf (fld m 5 4)) ty (scopeOf (fld m 9 4)) off)
  | 0x96 => some (.wwait o (fld m 0 5) off)
  | 0x97 => some (.wwake o)
  | 0x98 => some (.mswin o)
  | 0xA0 => some (.atom o (aopOf (fld m 5 4)) ty (ordOf (fld m2 10 2)) (scopeOf (fld m 9 4)) (sextN 10 m2))
  | 0xA1 => some (.txb o)
  | 0xA2 => some (.txld o off)
  | 0xA3 => some (.txst o off)
  | 0xA4 => some (.txe o (ordOf (fld m 7 2)) (scopeOf (fld m 9 4)) (fld m 0 6))
  | 0xA5 => some (.txa o)
  | 0xA6 => some (.dalloc o (fld m 0 6))
  | 0xA7 => some (.dfree o)
  | 0xB0 => match fld m 10 3 with
    | 0 => some (.slipLd o (bitN m 9) (slipEOf 0 r.e))
    | 1 => some (.slipSt o (slipEOf 1 r.e))
    | 2 => some (.slipRl o (bitN m 9) (slipEOf 2 r.e))
    | _ => some (.slipBs o (slipEOf 3 r.e))
  | 0xB1 => some (.slipx o (fld m 10 3 == 3) (bitN m 9) (tgtOf (fld m 7 2)) (slipEOf (fld m 10 3) r.e))
  | 0xB2 => some (.slipc o (fld m2 0 2) (slipEOf 0 r.e))
  | 0xB3 => some (.tlr o (bitN m 0))
  | 0xB4 => some (.rinit o (fld m 0 5))
  | 0xB5 => if bitN m 0 then some (.rwaitB o) else some (.rwait o)
  | 0xB6 => if bitN m 0 then some (.rrelB o) else some (.rrel o)
  | 0xB7 => match fld m 0 2 with
    | 0 => some (.rstatRing o)
    | 1 => some (.rstatB o)
    | 2 => some (.rstatSt o)
    | _ => some (.rstatStc o)
  | 0xC0 => some (.wcfg o)
  | 0xC1 => some (.wzero o)
  | 0xC2 => some (.wloop o ⟨fld m 5 4, m2, bitN r.e 10, bitN r.e 9, fld r.e 5 4, bitN r.e 4, fld r.e 0 4⟩)
  | 0xC3 => some (.wdrain o ⟨fld m 5 4, m2, scopeOf (fld m 9 4), bitN r.e 26, fld r.e 20 6, fld r.e 14 6, fld r.e 12 2,
                             bitN r.e 11, fld r.e 7 4, fld r.e 5 2, bitN r.e 4, fld r.e 0 4⟩)
  | 0xC4 => if bitN m 0 then some (.waccWr o) else some (.waccRd o)
  | 0xC5 => some (.wstat o (bitN m 0))
  | 0xD0 => if bitN m 12 then some (.cdefFree o)
            else some (.cdef o ⟨semiOf (fld m 0 3), shapeOf (fld m 3 2)⟩ (fld m 5 5))
  | 0xD1 => some (.cjob o ⟨scopeOf (fld m 9 4), m2, bitN r.e 17, fld r.e 15 2, fld r.e 8 7, fld r.e 0 8⟩)
  | 0xD2 => some (.cseal o)
  | 0xD3 => if bitN m 0 then some (.ccarSt o (scopeOf (fld m 2 4)) (bitN m 1))
            else some (.ccarLd o (scopeOf (fld m 2 4)) (bitN m 1))
  | 0xD4 => some (.cstat o (bitN m 0))
  | 0xD8 => some (.nsig o)
  | 0xD9 => some (.nwait o)
  | 0xDA => some (.nlaunch o (fld m 0 2) (bitN m 2))
  | 0xE0 => some (.gst o (lsizeOf (fld m 0 3)) off)
  | 0xE1 => some (.gwait o (fld m 0 5))
  | 0xE2 => some (.gsn o)
  | 0xE3 => some (.fred o (ropOf (fld m 5 4)) ty off)
  | 0xE4 => some (.fbar o)
  | _ => none

/-- The operand of a used field; an unused field names none (R45). -/
def fieldOpnd (l : List OC) (spec : Nat) : Opnd :=
  if l.isEmpty then .none else (opndOf spec).getD .none

/-- The operands of a word whose fields allow the classes of `f`. -/
def opsOfRaw (f : Info) (r : Raw) : Ops :=
  { g := ⟨if r.g < 48 then some r.g else none, r.gn⟩,
    d := fieldOpnd f.d r.d, a := ⟨fieldOpnd f.a r.a, r.wa, r.ha⟩, b := ⟨fieldOpnd f.b r.b, r.wb, r.hb⟩,
    c := ⟨fieldOpnd f.c r.c, r.wc, r.hc⟩, ib := r.ib }

/-- Class of a specifier value, none when it is reserved. -/
def specCls (s : Nat) : Option OC :=
  match opndOf s with
  | none => none
  | some x => opndCls x

/-- The reasons that one operand field gives (R53 0x07 to 0x0A, 0x0C); `dst` marks the field D. -/
def fieldReasons (l : List OC) (hasC dst : Bool) (s : Nat) (w h : Bool) : List Nat :=
  let c := specCls s
  (if c == none then [0x07] else []) ++
  (if dst && c == some .imm then [0x08] else []) ++
  (if c == some .vx && !hasC then [0x09] else []) ++
  (if (w && !waitCls c) || (h && !hintCls c) then [0x0A] else []) ++
  (if l.isEmpty then (if s = 0 then [] else [0x0C]) ++ (if w || h then [0x0A] else [])
   else match c with
    | none => []
    | some k => if l.contains k || (dst && k == .imm) then [] else [0x07])

/-- Every reason of R53 from 0x06 to 0x0D that a word gives, for an instruction with encoding `f`: a C that `atom` does not use is a
reserved value (R233), and a trailer may name one register more than once (R51). -/
def bodyReasons (f : Info) (r : Raw) : List Nat :=
  let hasC := formHasC f.form
  let anyVx := specCls r.d == some .vx || specCls r.a == some .vx || specCls r.b == some .vx ||
    (hasC && specCls r.c == some .vx)
  let q (s t : Nat) : Bool := specCls s == some .eq && s == t
  let dc := specCls r.d
  (if 48 < r.g || (r.g == 48 && r.gn) then [0x06] else []) ++
  fieldReasons f.d hasC true r.d false false ++
  fieldReasons f.a hasC false r.a r.wa r.ha ++
  fieldReasons f.b hasC false r.b r.wb r.hb ++
  (if hasC then fieldReasons f.c hasC false r.c r.wc r.hc else []) ++
  (if f.pdst && dc == some .p then [0x07] else []) ++
  (if f.ok && f.m == r.m && f.m2 == r.m2 && f.e == r.e && f.imm == r.imm then [] else [0x0B]) ++
  (if r.ib != 0 && !anyVx then [0x0C] else []) ++
  (if f.op == 0xA0 && f.c.isEmpty && r.c != 0 then [0x0B] else []) ++
  (if f.op != 0x01 && (q r.a r.b || (hasC && (q r.a r.c || q r.b r.c))) then [0x0C] else []) ++
  (if f.ll && (dc == some .t || dc == some .x || dc == some .k0) then [0x0D] else [])

/-- The least of the reasons, when there are several (R54 step 7). -/
def leastReason (l : List Nat) : Option Nat := minNat? l

/-- R51: a trailer whose fields break a rule has reason 0x05, whatever the rule. -/
def isTrailer (i : Instr) : Bool :=
  match i with
  | .btl .. => true
  | _ => false

/-- The trailer names a guard, a wait bit or a hint. -/
def trailerExtra (r : Raw) : Bool := r.g != 48 || r.gn || r.wa || r.wb || r.ha || r.hb

/-- R54 step 7: the instruction of a word whose opcode and form are known, or the reason of R53. -/
def decodeRaw (form : Form) (r : Raw) : Except Nat Instr :=
  match candidate form r ⟨⟨none, false⟩, .none, ⟨.none, false, false⟩, ⟨.none, false, false⟩, ⟨.none, false, false⟩, 0⟩ with
  | none => .error 0x02
  | some i0 => match info i0 with
    | none => .error 0x02
    | some f0 => match candidate form r (opsOfRaw f0 r) with
      | none => .error 0x02
      | some i => match info i with
        | none => .error 0x02
        | some f => match leastReason (bodyReasons f r), isTrailer i && trailerExtra r with
          | none, false => .ok i
          | none, true => .error 0x05
          | some n, _ => .error (if isTrailer i then 0x05 else n)

/-- R54 step 7 on a word. -/
def decodeBody (form : Form) (w : Nat) : Except Nat Instr := decodeRaw form (rawOf form w)

/-- The instruction of a word, or the reason of R53; modes and batch placement (R54 steps 5 and 6) are the step's. -/
def decode (w : Nat) : Except Nat Instr :=
  match decodeHead w with
  | .error n => .error n
  | .ok (_, form) => decodeBody form w

/-- The fields that encode an instruction. -/
def rawOfInfo (f : Info) : Raw :=
  let o := f.o
  let hasC := formHasC f.form
  { l := formL f.form, op := f.op, g := o.g.p.getD 48, gn := o.g.neg, d := specOf o.d, a := specOf o.a.op, b := specOf o.b.op,
    wa := o.a.w, wb := o.b.w, ha := o.a.h, hb := o.b.h, m := f.m,
    c := if hasC then specOf o.c.op else 0, wc := hasC && o.c.w, hc := hasC && o.c.h, ib := if hasC then o.ib else 0,
    m2 := if hasC then f.m2 else 0, imm := f.imm, e := f.e }

/-- The word that holds the fields (R40 to R42). -/
def packRaw (form : Form) (r : Raw) : Nat :=
  r.l + 2 ^ 2 * r.op + 2 ^ 10 * r.g + 2 ^ 16 * bit r.gn + 2 ^ 17 * r.d + 2 ^ 27 * r.a + 2 ^ 37 * r.b + 2 ^ 47 * bit r.wa +
    2 ^ 48 * bit r.wb + 2 ^ 49 * bit r.ha + 2 ^ 50 * bit r.hb + 2 ^ 51 * r.m +
    2 ^ 64 * (match form with
      | .f64 => 0
      | .f96i => r.imm
      | .f128i => r.imm
      | .f96c => r.c + 2 ^ 10 * bit r.wc + 2 ^ 11 * bit r.hc + 2 ^ 12 * r.ib + 2 ^ 20 * r.m2
      | .f128e => r.c + 2 ^ 10 * bit r.wc + 2 ^ 11 * bit r.hc + 2 ^ 12 * r.ib + 2 ^ 20 * r.m2 + 2 ^ 32 * r.e)

/-- Bytes of a format (R40). -/
def formBytes : Form → Nat
  | .f64 => 8 | .f96i => 12 | .f96c => 12 | .f128i => 16 | .f128e => 16

/-- The word of an instruction; none for an event. -/
def encode (i : Instr) : Option Nat := (info i).map (fun f => packRaw f.form (rawOfInfo f))

/-- The bytes of an instruction, lowest address first (R6, R40). -/
def encodeBytes (i : Instr) : Option (List Byte) :=
  (info i).map (fun f => leBytes (formBytes f.form) (packRaw f.form (rawOfInfo f)))

/-- The instruction that the decoder reads from a table word of `nbits` bits; bits above `nbits` are 0. -/
def decodeTableWord (nbits w : Nat) : Option Instr :=
  match decode (leVal (leBytes 16 (w % 2 ^ nbits))) with
  | .ok i => some i
  | .error _ => none

end Sys2Proof
end

