-- ==== Sys2Proof/Machine/Translate.lean ====
section
/-! DEFINITION. Homes (R168, R203, R408), page tables and walks (R163 to R166), access checks (R167), the TLBs (R170,
R171, R173), range locks (R29, R30, R410) and glaze windows (R382, R383). -/

namespace Sys2Proof.Machine

/-- Enabled ranges of the pin map: base, size and column (R408). -/
def State.pinRanges (s : State) : List (Nat × Nat × Nat) :=
  s.pinmap.filterMap (fun p =>
    if bitN p.2.2.toNat 40 then some (wfld p.2.1 16 36 * 2 ^ 16, wfld p.2.2 16 24 * 2 ^ 16, wfld p.2.2 48 6) else none)

/-- Home of an interleaved address (R168). -/
def homeHash (pa : Nat) : Nat :=
  (fld pa 12 6 ^^^ fld pa 18 6 ^^^ fld pa 24 6 ^^^ fld pa 30 6 ^^^ fld pa 36 6 ^^^ fld pa 42 6 ^^^ (fld pa 48 4 * 4)) % 64

/-- Home of a physical address (R168, R203). -/
def State.home (s : State) (pa : Nat) : Nat :=
  if isWindow pa then (pa - windowBase) / 0x1000_0000 * 16 + fld (pa - windowBase) 12 4
  else match s.pinRanges.find? (fun r => r.1 ≤ pa && pa < r.1 + r.2.1) with
    | some r => r.2.2
    | none => homeHash pa

/-- Enabled glaze windows: group, base, size (R382). -/
def State.windows (s : State) : List (Nat × Nat × Nat) :=
  s.gwins.filterMap (fun p => if p.2.en then some (p.1, p.2.base * 2 ^ 16, (p.2.sizem1 + 1) * 2 ^ 16) else none)

/-- The group and base of the enabled window in which an address lies (R383). -/
def State.windowAt (s : State) (pa : Nat) : Option (Nat × Nat) :=
  (s.windows.find? (fun w => w.2.1 ≤ pa && pa < w.2.1 + w.2.2)).map (fun w => (w.1, w.2.1))

/-- Size of a tower's window in bytes (R204). -/
def State.windowSize (s : State) (tw : Nat) : Nat := (s.column (tw * 16)).wunits * 8 * 2 ^ 20

/-- The address lies in a tower's window at or beyond its current size (R205). -/
def State.beyondWindow (s : State) (pa : Nat) : Bool :=
  isWindow pa && s.windowSize ((pa - windowBase) / 0x1000_0000) ≤ (pa - windowBase) % 0x1000_0000

/-- What a byte reads as on its bus: the host range from outside (notes/assumptions/10), memory otherwise. -/
def State.busByte (s : State) (pa : Nat) : Byte :=
  if isHost pa then Config.hostByte pa s.fresh else memByte s.mem pa

/-- `n` bytes from the bus. -/
def State.busRead (s : State) (pa n : Nat) : Nat := leVal ((List.range n).map (fun i => s.busByte (pa + i)))

/-- A word of the bytes is uncorrectable (R400). -/
def State.poisoned (s : State) (pa n : Nat) : Bool := s.poison.any (fun w => w < pa + n && pa < w + 8)

/-! ### Walks -/

/-- The low 56 bits of an address. -/
def va56 (x : Word) : Nat := wfld x 0 56

/-- Index of an address at a level (R163). -/
def ptIndex (x lvl : Nat) : Nat :=
  match lvl with
  | 0 => fld x 47 9
  | 1 => fld x 38 9
  | 2 => fld x 30 8
  | 3 => fld x 21 9
  | _ => fld x 16 5

/-- Size of a level's table in bytes (R163). -/
def ptSize (lvl : Nat) : Nat := if lvl = 2 then 2048 else if lvl = 4 then 256 else 4096

/-- Address bits below the page of a leaf at a level (R163). -/
def pageShift (lvl : Nat) : Nat := if lvl = 2 then 30 else if lvl = 3 then 21 else 16

/-- PPN of a leaf as an address (R164). -/
def ptePa (e : Nat) : Nat := fld e 16 36 * 2 ^ 16
/-- FMODE (R164). -/
def pteFmode (e : Nat) : Nat := fld e 9 2
/-- ATTR (R164). -/
def pteAttr (e : Nat) : Nat := fld e 7 2
/-- PEER (R164). -/
def ptePeer (e : Nat) : Nat := fld e 52 12

/-- A leaf at level `lvl` keeps the rules of R164, R167, R203, R360 and R408. A page that lies only partly in an enabled pin range, or in
two of them, is malformed whatever its HOME says, since neither value describes it: the model's choice (notes/assumptions/83). -/
def State.leafOk (s : State) (lvl e : Nat) : Bool :=
  let pa := ptePa e
  let sz := 2 ^ pageShift lvl
  let lap := s.pinRanges.filter (fun r => r.1 < pa + sz && pa < r.1 + r.2.1)
  let inside := s.pinRanges.find? (fun r => r.1 ≤ pa && pa + sz ≤ r.1 + r.2.1)
  let home := bitN e 6
  fld e 11 5 == 0 && pteAttr e != 3 && pa % sz == 0 &&
  (if isWindow pa then pteAttr e == 0 && pteFmode e == 0 && !home && fld e 52 12 == 0
   else if pteFmode e != 0 then !home
   else
     fld e 58 6 == 0 &&
     (match inside with
        | some r => home && fld e 52 6 == r.2.2
        | none => lap.isEmpty && !home && fld e 52 6 == 0) &&
     (!((isHost pa || isIO pa) && pteAttr e == 0)))

/-- The outcome of a walk: a leaf with its level, or the REASON and DETAIL of XLATE, or an uncorrectable entry (R400). -/
inductive WalkOut where
  | leaf (lvl pte : Nat)
  | bad (reason detail : Nat)
  | memerr
  deriving DecidableEq, Repr

/-- A byte of a page table as a walk reads it, at device scope: the last write performed, be it at the slice or at the memory controller
under the slice's copy (R166, R167). -/
def State.ptByte (s : State) (pa : Nat) : Byte :=
  let k := s.column (s.home pa)
  if k.late.contains pa then (mapGet? pa k.backing).getD (s.busByte pa) else s.busByte pa

/-- An entry of a page table (R165, R166). -/
def State.ptEntry (s : State) (a : Nat) : Nat := leVal ((List.range 8).map (fun i => s.ptByte (a + i)))

/-- The walk of R166 from table `t` at level `lvl`, with `fuel` levels to go. -/
def State.walkFrom (s : State) (x : Nat) : Nat → Nat → Nat → WalkOut
  | 0, _, _ => .bad 3 0
  | fuel + 1, lvl, t =>
    let a := t + 8 * ptIndex x lvl
    let e := s.ptEntry a
    if s.poisoned a 8 then .memerr
    else if !bitN e 0 then .bad 2 lvl
    else if !bitN e 1 then
      let t' := fld e 8 44 * 2 ^ 8
      if lvl = 4 || fld e 2 6 != 0 || fld e 52 12 != 0 || t' % ptSize (lvl + 1) != 0 then .bad 3 0
      else s.walkFrom x fuel (lvl + 1) t'
    else if lvl < 2 || !s.leafOk lvl e then .bad 3 0
    else .leaf lvl e

/-- The valid table entries that a walk of `fuel` levels meets from table `t` at level `lvl`, with their addresses (R165, R170). -/
def State.tablesOf (s : State) (x : Nat) : Nat → Nat → Nat → List (Nat × Nat)
  | 0, _, _ => []
  | fuel + 1, lvl, t =>
    let a := t + 8 * ptIndex x lvl
    let e := s.ptEntry a
    if bitN e 0 && !bitN e 1 then (a, e) :: s.tablesOf x fuel (lvl + 1) (fld e 8 44 * 2 ^ 8) else []

/-- The walk of an address from a root table (R166). -/
def State.walk (s : State) (root x : Nat) : WalkOut := s.walkFrom x 5 0 (root * 2 ^ 12)

/-- Current generation of an ASID as a column holds it (R31, R173). -/
def State.gen (s : State) (col asid : Nat) : Nat := mapGet 0 asid (s.column col).gens

/-- The TLB entry of a leaf. -/
def tlbEntOf (asid x gen lvl pte : Nat) : TlbEnt :=
  { asid := asid, vbase := x / 2 ^ pageShift lvl * 2 ^ pageShift lvl, lvl := lvl, gen := gen, pte := pte }

/-- A TLB entry translates an address (R170). -/
def TlbEnt.covers (e : TlbEnt) (asid x : Nat) : Bool :=
  e.asid == asid && e.vbase ≤ x && x < e.vbase + 2 ^ pageShift e.lvl

/-- Physical address under a TLB entry. -/
def TlbEnt.pa (e : TlbEnt) (x : Nat) : Nat := ptePa e.pte + (x - e.vbase)

/-- Kinds of access that R167 tells apart. -/
inductive AccessKind where
  | load | store | atomic | fetch | launch
  deriving DecidableEq, Repr

/-- The first check of R167 that a leaf fails, as the REASON of PROT. -/
def protReason (sup : Bool) (k : AccessKind) (pte : Nat) : Option Nat :=
  let u := bitN pte 5
  let rd := bitN pte 2
  let w := bitN pte 3
  if !sup && !u then some 4
  else match k with
    | .fetch => if sup && u then some 3 else if !bitN pte 4 then some 3 else none
    | .load => if rd then none else some 1
    | .store => if w then none else some 2
    | .atomic => if rd && w then none else some 6
    | .launch => if !rd then some 1 else if !w then some 2 else none

/-- The outcome of translating an address for a course: a leaf, a wait for a walk, or a fault. -/
inductive Tr where
  | hit (e : TlbEnt) (pa : Nat)
  | wait (page : Nat)
  | fault (f : FltRec)
  deriving DecidableEq, Repr

/-- Translation of an access of a course (R160, R166, R167, R170, R171): a walk that ended for this course decides; a
hit in the core TLB or column TLB that forbids the access is never raised from that entry alone. -/
def State.translate (s : State) (t c : Nat) (x : Word) (k : AccessKind) : Tr :=
  let T := s.team t
  let C := T.course c
  let va := va56 x
  if !canonical x then .fault { cls := 0x09, reason := 0x01, addr := x }
  else match C.walked.find? (fun w => w.asid == T.asid && w.page == va / 2 ^ 16) with
    | some w => match w.ent with
      | some e => match protReason T.sup k e.pte with
        | none => .hit e (e.pa va)
        | some r => .fault { cls := 0x0A, reason := r, addr := x }
      | none => if w.memerr then .fault { cls := 0x17, reason := 0x81, addr := x }
                else .fault { cls := 0x09, reason := w.reason, addr := x, detail := w.detail }
    | none =>
      let col := coreCol T.core
      let found := match (s.core T.core).tlb.find? (fun e => e.covers T.asid va) with
        | some e => some e
        | none => (s.column col).tlb.find? (fun e => e.covers T.asid va && e.gen == s.gen col T.asid)
      match found with
      | some e => match protReason T.sup k e.pte with
        | none => .hit e (e.pa va)
        | some _ => .wait (va / 2 ^ 16)
      | none => .wait (va / 2 ^ 16)

/-- Start the walk of a page for a team, merged with one of the same generation that the column owes already (R170); entries of the
page are dropped first, so that the walk is fresh (R171). -/
def State.startWalk (s : State) (t page : Nat) : State :=
  let T := s.team t
  let col := coreCol T.core
  let keep (e : TlbEnt) : Bool := !e.covers T.asid (page * 2 ^ 16)
  let s := s.modCore T.core (fun k => { k with tlb := k.tlb.filter keep })
  s.modCol col (fun k =>
    let k := { k with tlb := k.tlb.filter keep }
    let w : Walk := ⟨T.asid, page, T.ptroot, mapGet 0 T.asid k.gens⟩
    if k.walks.contains w then k else { k with walks := k.walks ++ [w] })

/-- The walks that the column's 16 walkers make; the others wait for a walker (R170). -/
def Column.walking (k : Column) : List Walk := k.walks.take 16

/-- Park a run until the walks of `pages` are done (R171). -/
def Run.parkWalk (r : Run) (pages : List Nat) : State :=
  let s := (dedupNat pages).foldl (fun s p => s.startWalk r.t p) r.s0
  s.park r.t r.c ((dedupNat pages).map (fun p => Wait.walk r.T.asid p))

/-- A TLB of `n` entries with one more; which entry makes room is not architectural (R170, notes/assumptions/18). -/
def tlbAdd (n tick : Nat) (tlb : List TlbEnt) (e : TlbEnt) : List TlbEnt :=
  if tlb.contains e then tlb
  else if tlb.length < n then e :: tlb
  else e :: tlb.eraseIdx (Config.victim tick tlb.length % tlb.length)

/-- A translation that an access used stands in the core's TLB of 512 entries (R170). -/
def State.addTlb (s : State) (core : Nat) (e : TlbEnt) : State :=
  s.modCore core (fun k => { k with tlb := tlbAdd 512 s.tick k.tlb e })

/-- A core drops its TLB entries of an ASID (R31). -/
def State.dropAsid (s : State) (core asid : Nat) : State :=
  s.modCore core (fun k => { k with tlb := k.tlb.filter (fun e => e.asid != asid) })

/-! ### Range locks -/

/-- Two spaces hold the same bytes for the comparison of R410. Remote-local ranges are of the same bytes where the target team is the
same as well as its position, so that the positions of two gangs whose teams share a core never conflict: the model's choice
(notes/assumptions/84). -/
def sameSpace (a b : Space) : Bool := a == b

/-- The first lock entry of a core that an access of [lo, hi] overlaps (R30, R410). -/
def lockHit (k : Core) (sp : Space) (lo hi : Nat) (onlyDst : Bool) : Option LockEnt :=
  k.locks.find? (fun e => sameSpace e.space sp && e.lo ≤ hi && lo ≤ e.hi && (!onlyDst || !e.src))

/-- LOCK of a store-like access (R30): REASON 0x01 for a source range, 0x02 for a destination range. -/
def lockFault (k : Core) (sp : Space) (x : Word) (lo n : Nat) (onlyDst : Bool) : Option FltRec :=
  (lockHit k sp lo (lo + n - 1) onlyDst).map (fun e =>
    { cls := 0x0D, reason := if e.src then 0x01 else 0x02, addr := x, detail := e.idx })

/-- Two lock entries of different commands conflict (R30): a later destination with any earlier range, a later source
with an earlier destination. -/
def lockConflict (late early : LockEnt) : Bool :=
  sameSpace late.space early.space && late.lo ≤ early.hi && early.lo ≤ late.hi && (!late.src || !early.src)

/-- The table has room for some entries (R29). -/
def lockRoom (k : Core) (n : Nat) : Bool := k.locks.length + n ≤ 32

/-- The table has room for the entries of a command, and none conflicts with an entry that it holds (R29, R30). -/
def locksFree (k : Core) (es : List LockEnt) : Bool :=
  lockRoom k es.length && !es.any (fun l => k.locks.any (fun e => lockConflict l e))

/-- The lowest free place in a lock table. -/
def freeIdx (k : Core) : Nat := ((List.range 32).find? (fun i => !k.locks.any (fun e => e.idx == i))).getD 32

/-- Register the entries of a command, each at the lowest free place (R29). -/
def Core.addLocks (k : Core) (es : List LockEnt) : Core :=
  es.foldl (fun k e => { k with locks := k.locks ++ [{ e with idx := freeIdx k }] }) k

/-- Release the entries of a command (R29). -/
def Core.dropLocks (k : Core) (cmd : Nat) : Core := { k with locks := k.locks.filter (fun e => e.cmd != cmd) }

/-! ### Swizzles -/

/-- Phys of R178. -/
def phys (swz a : Nat) : Nat :=
  match swz with
  | 1 => setFld a 3 5 (fld a 3 5 ^^^ fld a 8 5)
  | 2 => setFld a 3 4 (fld a 3 4 ^^^ fld a 7 4)
  | 3 => setFld a 3 3 (fld a 3 3 ^^^ fld a 6 3)
  | _ => a

end Sys2Proof.Machine
end

