-- ==== Sys2Proof/Machine/Front.lean ====
section
/-! DEFINITION. The front end: fetch lines (R35 to R39), the order of its checks (R54), batch placement (R50), and what it
hands to exec. -/

namespace Sys2Proof.Machine

/-- START map of a fetch line, a 1,024-bit number (R35). -/
def lineStart (w : Nat) : Nat := fld w 0 30
/-- TARGET map of a fetch line. -/
def lineTarget (w : Nat) : Nat := fld w 30 30
/-- KIND of a fetch line. -/
def lineKind (w : Nat) : Nat := fld w 60 4
/-- Granule `i` of a fetch line. -/
def granule (w i : Nat) : Nat := fld w (64 + 32 * i) 32
/-- Sector of a granule (R35). -/
def sector (i : Nat) : Nat := if i < 6 then 0 else (i - 6) / 8 + 1
/-- Last granule of the sector of a granule. -/
def sectorEnd (i : Nat) : Nat := 5 + 8 * sector i

/-- The next START bit after granule `i`. -/
def nextStart (w i : Nat) : Option Nat := (List.range 30).find? (fun j => i < j && bitN (lineStart w) j)

/-- The lowest START bit of a line. -/
def firstStart (w : Nat) : Option Nat := (List.range 30).find? (fun j => bitN (lineStart w) j)

/-- Granules of the instruction that begins at granule `i`; length field 0b11 reaches to the next START bit or the end of
the sector (R36). -/
def instLen (w i : Nat) : Nat :=
  match fld (granule w i) 0 2 with
  | 0 => 2
  | 1 => 3
  | 2 => 4
  | _ => let lim := sectorEnd i + 1
         match nextStart w i with
         | some j => (if j < lim then j else lim) - i
         | none => lim - i

/-- The starts of a line. -/
def lineStarts (w : Nat) : List Nat := bitList 30 (lineStart w)

/-- The first reason of R37 for which a line is not well formed (R36). -/
def lineReason (w : Nat) : Option Nat :=
  let st := lineStarts w
  if lineKind w != 0 then some 0x01
  else if st.any (fun i => st.any (fun j => i < j && j < i + instLen w i)) then some 0x02
  else if st.any (fun i => 30 < i + instLen w i || sector (i + instLen w i - 1) != sector i) then some 0x03
  else if (List.range 30).any (fun i => bitN (lineTarget w) i && !bitN (lineStart w) i) then some 0x04
  else if (List.range 30).any (fun g => granule w g != 0 && !st.any (fun i => i ≤ g && g < i + instLen w i)) then some 0x05
  else none

/-- Line address of a PC (R35). -/
def lineOf (pc : Word) : Word := pc - wordOf (pc.toNat % 128)

/-- The granule that an address names, if it is one (R39). -/
def granuleOf (pc : Word) : Option Nat :=
  let o := pc.toNat % 128
  if 8 ≤ o && o % 4 == 0 then some ((o - 8) / 4) else none

/-- Address of a granule of a line. -/
def granuleAddr (line : Word) (i : Nat) : Word := line + wordOf (8 + 4 * i)

/-- The bytes of a fetch line at a physical address, as one number. -/
def State.lineAt (s : State) (pa : Nat) : Nat := s.busRead pa 128

/-- A look at a fetch line of a team without any effect: none when it cannot be fetched. A translation of an old generation is
not used, since a fetch through it is refused and translated afresh (R31). -/
def State.peekLine (s : State) (t : Nat) (line : Word) : Option Nat :=
  let T := s.team t
  if !canonical line then none
  else
    let va := va56 line
    let gen := s.gen (coreCol T.core) T.asid
    let hit := match (s.core T.core).tlb.find? (fun e => e.covers T.asid va && e.gen == gen) with
      | some e => some e
      | none => match s.walk T.ptroot va with
        | .leaf lvl pte => some (tlbEntOf T.asid va gen lvl pte)
        | _ => none
    match hit with
    | none => none
    | some e => if (protReason T.sup .fetch e.pte).isSome then none else some (s.lineAt (e.pa va))

/-- The sequential successor of the instruction at granule `i` of a line (R38); when the next line cannot be looked at or
has no START bit, its own address, still to be entered in sequence. R38 gives no successor there, so what `call` and `callx` link and what
LTPC of a trap names (R78, R80, R94) is that line's address by the model's choice (notes/assumptions/65). -/
def State.successor (s : State) (t : Nat) (line : Word) (w i : Nat) : Word × Bool :=
  match nextStart w i with
  | some j => (granuleAddr line j, false)
  | none =>
    let next := line + 128
    match s.peekLine t next with
    | none => (next, true)
    | some w' => match firstStart w' with
      | none => (next, true)
      | some j => (granuleAddr next j, false)

/-- A PC that is still to be entered in sequence, resolved where its line can be looked at (R38). -/
def State.resolve (s : State) (t : Nat) (pc : Word) (seqIn : Bool) : Word × Bool :=
  if !seqIn then (pc, false)
  else match s.peekLine t pc with
    | none => (pc, true)
    | some w => match firstStart w with
      | none => (pc, true)
      | some j => (granuleAddr pc j, false)

/-- Length field and opcode of the instruction at an address, as bits [9:0] of its first granule (R40): none where its line cannot
be looked at, `some none` where no instruction begins there. -/
def State.opAt (s : State) (t : Nat) (pc : Word) (seqIn : Bool) : Option (Option Nat) :=
  (s.peekLine t (lineOf pc)).map (fun w =>
    ((if seqIn then firstStart w else granuleOf pc)).map (fun i => fld (granule w i) 0 10))

/-- Bits [9:0] of a `btl`: opcode 0x01 with the length field of F64, its one form (R40, R51). -/
def btlHead : Nat := 0x04

/-- Something other than a trailer stands at a successor (R50). What stands in a line that cannot be looked at is met when the
cohort issues there (notes/assumptions/65). -/
def State.noTrailer (s : State) (t : Nat) (succ : Word) (succIn : Bool) : Bool :=
  match s.opAt t succ succIn with
  | none => false
  | some op => op != some btlHead

/-- The outcome of fetching a line for a course: its bytes, a wait for a walk, a refusal of its generation (R31), or a
fault. -/
inductive FetchOut where
  | line (w : Nat)
  | wait (page : Nat)
  | refuse
  | fault (f : FltRec)
  deriving DecidableEq, Repr

/-- Fetch of a line through the course's translation (R31, R160, R167, R400). -/
def State.fetch (s : State) (t c : Nat) (line : Word) : FetchOut :=
  let T := s.team t
  match s.translate t c line .fetch with
  | .wait p => .wait p
  | .fault f => .fault { f with reason := if f.cls == 0x17 then 0x06 else f.reason }
  | .hit e pa =>
    if e.gen != s.gen (coreCol T.core) T.asid then
      (if 3 ≤ (T.course c).refused then .fault { cls := 0x0B, addr := line } else .refuse)
    else if s.poisoned pa 128 then .fault { cls := 0x17, reason := 0x06, addr := line }
    else .line (s.lineAt pa)

/-- What the front end finds at the cohort's PC: an instruction with its successor and the trailer's successor, a wait, a
refused fetch, or a fault of every lane of the cohort at address `pc`. -/
inductive FrontOut where
  | issue (i : Instr) (pc succ : Word) (succIn : Bool) (link : Word)
  | wait (page : Nat)
  | refuse
  | fault (f : FltRec) (pc : Word)
  deriving DecidableEq, Repr

/-- ILLEGAL with a reason of R53. -/
def illegal (n : Nat) : FltRec := { cls := 0x01, reason := n }

/-- R54 steps 2 to 7 on the instruction at granule `i` of a well-formed line. -/
def State.decodeAt (s : State) (t : Nat) (issued : Nat) (line : Word) (w i : Nat) : FrontOut :=
  let T := s.team t
  let pc := granuleAddr line i
  let word := fld w (64 + 32 * i) (32 * instLen w i)
  let (succ, succIn) := s.successor t line w i
  match decodeHead word with
  | .error n => .fault (illegal n) pc
  | .ok (op, form) =>
    if supOnly op && !T.sup then .fault { cls := 0x04, reason := 0x01 } pc
    else
      let last := (0x02 ≤ op && op ≤ 0x07) || op == 0x14 || op == 0x15 || op == 0x0A
      if (op != 0x01 && 24 ≤ issued) || (last && s.noTrailer t succ succIn) then .fault (illegal 0x04) pc
      else match decodeBody form word with
        | .error n => .fault (illegal n) pc
        | .ok ins =>
          -- the return point of a call is the successor of its trailer
          let link := match s.peekLine t (lineOf succ), granuleOf succ with
            | some w', some j => (s.successor t (lineOf succ) w' j).1
            | _, _ => succ
          .issue ins pc succ succIn link

/-- The front end at the PC of a cohort (R37, R54). -/
def State.frontEnd (s : State) (t c : Nat) (pc : Word) (seqIn : Bool) (issued : Nat) : FrontOut :=
  let line := lineOf pc
  match s.fetch t c line with
  | .wait p => .wait p
  | .refuse => .refuse
  | .fault f => .fault { f with addr := if seqIn then line else f.addr } pc
  | .line w =>
    let told := if seqIn then granuleAddr line 0 else pc
    match lineReason w with
    | some n => .fault { cls := 0x02, reason := n, addr := line } told
    | none =>
      if seqIn then match firstStart w with
        | none => .fault { cls := 0x02, reason := 0x06, addr := line } told
        | some j => s.decodeAt t issued line w j
      else match granuleOf pc with
        | some i => if bitN (lineStart w) i then s.decodeAt t issued line w i
                    else .fault { cls := 0x02, reason := 0x07, addr := line } pc
        | none => .fault { cls := 0x02, reason := 0x07, addr := line } pc

/-- The mark test of R39 for a transfer to `dest` (`call`: granule 0 with START and TARGET): none when it passes. A line
that cannot be fetched is faulted when the lane next issues there (R78). -/
def State.markFault (s : State) (t : Nat) (call : Bool) (dest : Word) : Option FltRec :=
  if !canonical dest then some { cls := 0x03, addr := dest }
  else match s.peekLine t (lineOf dest) with
    | none => if (granuleOf dest).isNone || (call && granuleOf dest != some 0) then some { cls := 0x03, addr := dest } else none
    | some w => match lineReason w with
      | some n => some { cls := 0x02, reason := n, addr := dest }
      | none => match granuleOf dest with
        | none => some { cls := 0x03, addr := dest }
        | some i => if bitN (lineTarget w) i && (!call || i == 0) then none else some { cls := 0x03, addr := dest }

end Sys2Proof.Machine
end

