-- ==== Sys2Proof/Machine/Sched.lean ====
section
/-! DEFINITION. When a parked course may go on (R69, R71), the head cohort and straggler relief (R65, R67), and the choice
of the next course (R72). -/

namespace Sys2Proof.Machine

/-- An access is performed at a scope level (R211): 0 to 2 course to core, 3 column, 4 and 5 cluster and tower, 6 and more
device and beyond; 100 stands for "returned" (R215), 101 for "has left its core" (R191). -/
def Flight.performed (f : Flight) (lvl : Nat) : Bool :=
  if lvl = 100 then false
  else if lvl = 101 then 1 ≤ f.stage
  else match f.kind with
    | .store => if lvl ≤ 2 then true else if lvl ≤ 3 then 1 ≤ f.stage else if lvl ≤ 5 then 3 ≤ f.stage else false
    | .load | .mmioLoad | .pf | .txld => 1 ≤ f.stage
    | .nred => if lvl ≤ 5 then 2 ≤ f.stage else false
    | .gst => if lvl ≤ 2 then true else if lvl ≤ 7 then 3 ≤ f.stage else false
    | .fred => 1 ≤ f.stage
    | _ => false

/-- Access `id` is performed at a level; one that is no longer in flight is. -/
def State.performedAt (s : State) (id lvl : Nat) : Bool :=
  match s.flights.find? (fun f => f.id == id) with
  | none => true
  | some f => f.performed lvl

/-- Commands of a team in the Wheel queue of its core that name one of some tiles. -/
def WOp.names (o : WOp) (tiles : Nat) : Bool :=
  match o with
  | .zero m => m &&& tiles != 0
  | .loop m _ _ _ => bitN tiles m.tile
  | .drain m _ _ _ => bitN tiles m.tile
  | .rd ls _ => ls.any (fun p => bitN tiles (p.2.toNat % 16))
  | .wr ls => ls.any (fun p => bitN tiles (p.2.1.toNat % 16))

/-- Number of entries in a launch queue (R336). -/
def Column.launchLen (k : Column) (prio : Nat) : Nat := (mapGet [] prio k.launch).length

/-- Half of the B store: its state (R271). -/
def BRing.st (b : BRing) (h : Nat) : Nat := if h = 0 then b.st0 else b.st1

/-- The next `n` slots of a ring are neither reserved, filled nor taken (R264). -/
def Team.ringRoom (T : Team) (hdr n : Nat) : Bool :=
  let w := T.locRead hdr 8
  let used := fld w 16 16 ||| fld w 32 16 ||| fld w 48 16
  (List.range n).all (fun i => !bitN used ((fld w 5 4 + i) % max 1 (fld w 0 5)))

/-- REM of a node record: predecessors that have neither completed nor failed (R334). -/
def State.nodeRem (s : State) (rec : Nat) : Nat := memRead s.mem (rec + 0x3A) 2

/-- What a parked course waits for has come about (R24, R69, R171, R185, R215, R350, R387, R390). -/
def State.waitDone (s : State) (t c : Nat) (w : Wait) : Bool :=
  let T := s.team t
  let C := T.course c
  let k := s.core T.core
  match w with
  | .vFull l n => !eGet (C.lane l).vE n
  | .pFull l n => !eGet (C.lane l).pE n
  | .kFull n => !eGet T.kE n
  | .pop port n => n < s.portLen t port
  | .room _ => 0 < s.coilRoom t c
  | .walk asid page => !(s.column (coreCol T.core)).walks.any (fun x => x.asid == asid && x.page == page)
  | .line team ln => !(s.team team).absent.contains ln
  | .perf id lvl => s.performedAt id lvl
  | .locks es => locksFree k es
  | .lockRoom n => lockRoom k n
  | .ringFree team hdr n => (s.team team).ringRoom hdr n
  | .halfFree h => k.bring.st h == 0
  | .wheelRoom => k.wheel.length < 8
  | .wheelTiles tiles => !k.wheel.any (fun x => x.team == t && x.op.names tiles)
  | .wheelTeam => !k.wheel.any (fun x => x.team == t)
  | .coilRoom => k.coil.queue.length < 4
  | .coilIdle => !k.coil.queue.any (fun x => x.team == t)
  | .claim => true
  | .launchRoom col prio => (s.column col).launchLen prio < 256
  | .nodeDeps => s.nodeRem T.record == 0
  | .gwait g n _ =>
    let w := mapGet {} g s.gwins
    n ≤ w.applied || w.lost || !w.en
  | .fbar g ep => let gr := mapGet {} g s.groups; ep < gr.episode || (mapGet {} g s.gwins).lost
  | .tick => true

/-- Every condition of a parked course holds, or it is not parked. -/
def State.unparked (s : State) (t c : Nat) : Bool :=
  match (s.course t c).parked with
  | none => true
  | some ws => ws.all (s.waitDone t c)

/-- An await register is full (R51): v and p in every live and helper lane, k when full, eq when its port holds an
entry. -/
def State.awaitFull (s : State) (t c spec : Nat) : Bool :=
  let T := s.team t
  let C := T.course c
  let ls := C.lanes.filter (fun L => L.cls != .absent)
  match opndOf spec with
  | some (.v n) => ls.all (fun L => !eGet L.vE n)
  | some (.p n) => ls.all (fun L => !eGet L.pE n)
  | some (.k n) => n == 0 || !eGet T.kE n
  | some (.eq n) => 0 < s.portLen t (T.portOf n)
  | _ => true

/-- Lanes that may form a cohort: live and not held (R65). -/
def Course.ready (C : Course) : List Nat :=
  (List.range 32).filter (fun l => (C.lane l).cls == .live && (C.lane l).held.isNone)

/-- The key of a lane in the PC table: depth descending, PC ascending, ISSUED ascending (R65). -/
def Lane.key (L : Lane) : Nat := ((255 - L.depth) * 2 ^ 64 + L.pc.toNat) * 32 + (if L.pend then L.issued else 0)

/-- The lanes of a list whose key is the smallest (R65). -/
def Course.headOf (C : Course) (ls : List Nat) : List Nat :=
  match minBy (fun l => (C.lane l).key) ls with
  | none => []
  | some m => ls.filter (fun l => (C.lane l).key == (C.lane m).key)

/-- The cohort that issues the next batch: the head cohort, or the second one when straggler relief falls due; the flag
says that relief was given (R65, R67). -/
def Course.nextCohort (C : Course) : List Nat × Bool :=
  let head := C.headOf C.ready
  if C.backcnt < 1024 then (head, false)
  else
    let second := C.headOf (C.ready.filter (fun l => !head.contains l))
    if second.isEmpty then (head, false) else (second, true)

/-- The courses of a team stop at their next batch boundary or where they are parked: a forced save is under way (R106), or
a partition quiesce, which user courses follow (R391). -/
def State.stopping (s : State) (T : Team) : Bool := T.saving || (!T.sup && s.quiesce.phase != .none)

/-- A course is eligible (R71). -/
def State.eligible (s : State) (t c : Nat) : Bool :=
  let T := s.team t
  let C := T.course c
  !C.suspended &&
  (match C.coh with
   | some _ => if s.stopping T then C.parked.isNone else s.unparked t c
   | none => !s.stopping T && !C.ready.isEmpty && C.awaits.all (s.awaitFull t c))

/-- The courses of a sequencer, eldest first (R72). -/
def State.seqCourses (s : State) (core q : Nat) : List (Nat × Nat) :=
  s.teams.flatMap (fun p => if p.2.core = core then
    p.2.courses.filterMap (fun C => if C.seq = q then some (p.1, C.num) else none) else [])

/-- A sequencer of a core. -/
def Core.seqSt (k : Core) (q : Nat) : SeqSt := k.seqs.getD q {}

/-- The course is inside a batch and may go on with it. -/
def State.inBatch (s : State) (t c : Nat) : Bool :=
  match (s.course t c).coh with
  | none => false
  | some _ => (s.course t c).parked.isNone && s.eligible t c

/-- The course that a sequencer issues for next (R72): the running course inside its batch, the running course again while
it may, or the eldest eligible course. -/
def State.pick (s : State) (core q : Nat) : Option (Nat × Nat) :=
  let st := (s.core core).seqSt q
  let cs := s.seqCourses core q
  let el := cs.filter (fun p => s.eligible p.1 p.2)
  match st.run with
  | some r =>
    if cs.contains r && s.inBatch r.1 r.2 then some r
    else if el.contains r && st.batches < 4 && !st.yielded then some r
    else match el.filter (· != r) with
      | [] => if el.contains r then some r else none
      | x :: _ => some x
  | none => el.head?

/-- The rank of a lane's requests at a local memory unit: by core number, then by sequencer, then by lane (R181). What a sequencer
issues has the two ranks after those of its 32 lanes. -/
def unitRank (core q lane : Nat) : Nat := 256 * core + 64 * q + lane

/-- A sequencer may issue for a course in this cycle: it has not yet issued in it, nor has a later sequencer of its core or a
later course of the team, and no request that comes later has reached the core's local memory unit (R72, R73, R88, R181;
notes/assumptions/6). -/
def State.issueFree (s : State) (core q : Nat) (tc : Nat × Nat) : Bool :=
  mayTake (s.core core).unit (s.cycle (coreCol core)) (unitRank core q 32) &&
  mayTake (s.team tc.1).turn (s.cycle (coreCol core)) tc.2

/-- The sequencers of all cores that can issue now. -/
def State.issuers (s : State) : List (Nat × Nat) :=
  (dedupNat (s.teams.map (fun p => p.2.core))).flatMap (fun k =>
    [0, 1, 2, 3].filterMap (fun q => match s.pick k q with
      | none => none
      | some tc => if s.issueFree k q tc then some (k, q) else none))

/-- The stall count of a team (R357). -/
def State.stallOf (s : State) (t : Nat) : Nat := mapGet 0 t s.stalls

/-- A team of a core has been stalled for PARKLIM cycles (R357). -/
def State.reachedPark (s : State) (core t : Nat) : Bool := wfld (s.core core).parklim 0 32 ≤ s.stallOf t

/-- A team is stalled (R357): none of its courses runs or is eligible. -/
def State.stalled (s : State) (t : Nat) (T : Team) : Bool := !T.courses.any (fun C => s.eligible t C.num)

/-- The stall counts after the cycles of one step (R357). -/
def State.stallsLater (s : State) : List (Nat × Nat) :=
  s.teams.filterMap (fun p =>
    let n := s.stallOf p.1 + (if s.stalled p.1 p.2 then Config.elapsed (coreCol p.2.core) s.tick else 0)
    if n = 0 then none else some (p.1, n))

/-- A sequencer issues for a course in this cycle: its team's stall count returns to 0, which ends what an eviction for that team has
promised if it had reached PARKLIM (R357). -/
def State.takeTurn (s : State) (core q : Nat) (tc : Nat × Nat) : State :=
  let now := s.cycle (coreCol core)
  let reached := s.reachedPark core tc.1
  let s := (s.modTeam tc.1 (fun T => { T with turn := some (now, tc.2) })).modCore core (fun k => { k with
    unit := some (now, unitRank core q 33)
    admitted := if k.admitted = some tc.1 && reached then none else k.admitted })
  { s with stalls := mapDel tc.1 s.stalls }

/-- A course that begins a batch counts one more, or the first one after its run of batches has ended (R72, R81). One that goes on
with a batch after a park counts as running the same batch; where another course has run in between, that batch is not counted in
the new run (notes/assumptions/66). -/
def State.setRunning (s : State) (core q : Nat) (tc : Nat × Nat) (newBatch : Bool) : State :=
  s.modCore core (fun k => { k with seqs := k.seqs.modify q (fun st =>
    if st.run = some tc then
      { st with batches := if newBatch then (if st.yielded then 1 else st.batches + 1) else st.batches, yielded := false }
    else { run := some tc, batches := if newBatch then 1 else 0, yielded := false }) })

/-- A lane of a cohort goes on with a batch: itself when it is live, or where a live lane of its quad does (R64, R68). -/
def Course.goesOn (C : Course) (ls : List Nat) (l : Nat) : Bool :=
  if ls.contains l then (C.lane l).pend else ls.any (fun m => m / 4 == l / 4 && (C.lane m).pend)

/-- Begin a batch of a course with its next cohort (R50, R65 to R68): its lanes' temporaries are unwritten unless the lane
resumes a batch; awaited counters are consumed (R217); a cohort other than the last one resets BACKCNT (R67). -/
def State.beginBatch (s : State) (t c : Nat) : State :=
  let s := (s.course t c).awaits.foldl (fun s sp => if 0x101 ≤ sp && sp < 0x200 then s.consume t (sp - 0x100) else s) s
  -- lanes whose next line had still to be entered are placed where it can be looked at (R38)
  let s := s.modCourse t c (fun C => { C with lanes := C.lanes.map (fun L =>
    if L.cls == .live && L.seqIn then
      let r := s.resolve t L.pc true
      { L with pc := r.1, seqIn := r.2 }
    else L) })
  let C := (s.team t).course c
  let (ls, relief) := C.nextCohort
  match ls.head? with
  | none => s
  | some l =>
    let L := C.lane l
    let issued := if L.pend then L.issued else 0
    let act := C.active ls
    let other := C.lastCoh != none && C.lastCoh != some ls
    s.modCourse t c (fun C => { C with
      lanes := act.foldl (fun m x => m.modify x (fun L' => if C.goesOn ls x then L' else { L' with twr := 0 })) C.lanes,
      backcnt := if relief || other then 0 else C.backcnt,
      lastCoh := some ls,
      coh := some { lanes := ls, pc := L.pc, issued := issued, succIn := L.seqIn } })

end Sys2Proof.Machine
end

