-- ==== Sys2Proof/Machine/Control.lean ====
section
/-! DEFINITION. Control instructions of the course engine: trailers and batch boundaries (R51, R66, R67, R174, R368),
transfers (R78, R79, R95), traps (R80), barriers (R82, R83), predicates and votes (R84 to R86), index registers (R87) and
queue registers (R88, R90). -/

namespace Sys2Proof.Machine

/-! ### Batch boundaries and barriers -/

/-- The fault that reaches a lane at a batch boundary (R174, R27, R368): the deferred fault whose instruction issued first,
which a lane inside a batch does not yet meet, or a CONE event outside a handler, which stays pending where QUIESCE falls at the boundary
(`quiet`); with RESUME and the lane after it. -/
def Lane.boundaryFault (quiet : Bool) (L : Lane) : Option (FltRec × Bool × Lane) :=
  match (if L.pend then none else minBy (fun d => d.ord) L.defs) with
  | some d => some ({ cls := d.cls, reason := d.reason, addr := d.addr, detail := d.detail }, false, { L with defs := [] })
  | none => match L.cone with
    | some (step, seq) =>
      if L.intrap || quiet then none else some ({ cls := 0x16, reason := step, detail := seq }, L.pend, { L with cone := none })
    | none => none

/-- A lane at a batch boundary meets a fault in cycle `now` (R93, R97, R99): trap entry, or the mark of suspension (true). -/
def Lane.meetFault (now : Nat) (T : Team) (C : Course) (L : Lane) (f : FltRec) (resume : Bool) : Lane × Bool :=
  match trapTarget now T C L f.cls f.reason with
  | some (v, ts) => (L.trapEnter f v ts L.pc resume (if resume then L.issued else 0) L.twr, false)
  | none => (L.trapState f L.pc resume (if resume then L.issued else 0) L.twr, true)

/-- Delivery at the batch boundary of a course that is not inside a batch (R174, R368). A user course that a quiesce stops there takes
QUIESCE at its resume (R391, R393). -/
def State.boundary (s : State) (t c : Nat) : State :=
  let T := s.team t
  let C := T.course c
  if C.suspended || C.coh.isSome then s
  else
    let quiet := !T.sup && s.quiesce.phase != .none
    let ds := C.liveLanes.filterMap (fun l => ((C.lane l).boundaryFault quiet).map (fun d =>
      (l, Lane.meetFault (s.cycle (coreCol T.core)) T C d.2.2 d.1 d.2.1)))
    let marked := ds.filterMap (fun d => if d.2.2 then some d.1 else none)
    let s := ds.foldl (fun s d => s.modLane t c d.1 (fun _ => d.2.1)) s
    if marked.isEmpty then s else s.suspend t c marked

/-- QUIESCE in a live lane (R98, R393): entry through CKVEC, or the mark of suspension (true). A lane inside a batch resumes
there. -/
def Lane.meetQuiesce (T : Team) (L : Lane) (f : FltRec) : Lane × Bool :=
  let ts := wfld T.utmask 56 8
  let issued := if L.pend then L.issued else 0
  if bitN T.ckvec.toNat 0 && !L.intrap && ts + 7 < T.split.regs
  then (L.trapEnter f T.ckvec ts L.pc L.pend issued L.twr, false)
  else (L.trapState f L.pc L.pend issued L.twr, true)

/-- QUIESCE as it is delivered (R393): class, REASON and DETAIL. -/
def Quiesce.fault (q : Quiesce) : FltRec :=
  { cls := 0x15, reason := q.reason,
    detail := q.epoch * 2 ^ 16 + (match q.peer with
      | none => 0
      | some p => 2 ^ 15 + p % 2 ^ 12) }

/-- A user course takes QUIESCE where it stands (R393): it leaves the batch in which it is parked. -/
def State.takeQuiesce (s : State) (t c : Nat) : State :=
  let s := s.modCourse t c (fun C => { C with coh := none, parked := none, fbarEp := none, gwaitEnd := none })
  let T := s.team t
  let C := T.course c
  let ds := C.liveLanes.map (fun l => (l, (C.lane l).meetQuiesce T s.quiesce.fault))
  let marked := ds.filterMap (fun d => if d.2.2 then some d.1 else none)
  let s := ds.foldl (fun s d => s.modLane t c d.1 (fun _ => d.2.1)) s
  if marked.isEmpty then s else s.suspend t c marked

/-- QUIESCE that pends for a course which was suspended or saved reaches it (R393). -/
def State.lateQuiesce (s : State) (t c : Nat) : State :=
  if s.quiesce.pendCk.contains (t, c) then
    State.takeQuiesce { s with quiesce := { s.quiesce with pendCk := s.quiesce.pendCk.filter (· != (t, c)) } } t c
  else s

/-- Every live lane of the course is held at barrier `id`, or the course has finished (R82). -/
def Course.arrived (C : Course) (id : Nat) : Bool :=
  C.finished || (!C.suspended && C.liveLanes.all (fun l => (C.lane l).held == some id))

/-- The accesses that a team's lanes have issued are performed at a level (R83). -/
def State.teamPerformed (s : State) (t lvl : Nat) : Bool :=
  s.flights.all (fun f => f.team != t || f.kind == .load || f.kind == .pf || f.kind == .ldr || f.kind == .mmioLoad ||
    f.performed lvl)

/-- An `lpres.clr` or `lpres.set` on its way to the local memory unit (R190). -/
def Flight.onPresence (f : Flight) : Bool :=
  match f.kind with
  | .lpres _ => true
  | _ => false

/-- An access that a barrier's release waits for: a store, an atomic or a change of presence bits at a local memory unit that is not yet
performed there (R83). -/
def Flight.barHold (f : Flight) : Bool :=
  (f.kind == .str || f.kind == .stl || f.kind == .latomR || f.kind == .latom || f.onPresence) && !f.performed 1

/-- Barriers at which every course has arrived are released (R82), once the earlier stores are performed at team scope
(R83). -/
def State.releaseBars (s : State) (t : Nat) : State :=
  let T := s.team t
  let ids := (List.range 16).filter (fun id => T.courses.all (fun C => C.arrived id) &&
    T.courses.any (fun C => C.lanes.any (fun L => L.held == some id)))
  if ids.isEmpty || s.flights.any (fun f => f.team == t && f.barHold) then s
  else s.modTeam t (fun T => { T with courses := T.courses.map (fun C => { C with
    barId := s.nextId
    lanes := C.lanes.map (fun L => match L.held with
      | none => L
      | some id => if ids.contains id then { L with held := none } else L) }) })

/-! ### The trailer -/

/-- What the trailer leaves of a lane of the cohort (R51, R66, R79, R82, R95); a lane that exits is classified after. -/
def Lane.atTrailer (L : Lane) (succ : Word) (succIn : Bool) : Lane :=
  let M := { L with pend := false, issued := 0, twr := 0, xfer := none, back := false }
  match L.xfer with
  | none => { M with pc := succ, seqIn := succIn }
  | some (.jump pc depth) => { M with pc := pc, seqIn := false, depth := depth }
  | some (.ret pc pend issued twr) => { M with pc := pc, seqIn := false, pend := pend, issued := issued, twr := twr }
  | some .exit => { M with cls := .helper, held := none, defs := [], cone := none }
  | some (.hold id) => { M with pc := succ, seqIn := succIn, held := some id }

/-- Quads without a live lane are absent (R63). -/
def classify (ls : List Lane) : List Lane :=
  (List.range ls.length).map (fun l =>
    let L := ls.getD l {}
    if L.cls == .helper && !(List.range 4).any (fun j => (ls.getD (l / 4 * 4 + j) {}).cls == .live)
    then { L with cls := .absent } else L)

/-- The trailer of a cohort whose checks have passed (R51, R66, R67). -/
def Course.trailer (C : Course) (h : Cohort) (awaits : List Nat) : Course :=
  let act := C.active h.lanes
  let back := h.lanes.all (fun l => (C.lane l).back)
  { C with
    lanes := classify ((List.range C.lanes.length).map (fun l =>
      let L := C.lane l
      if h.lanes.contains l then L.atTrailer h.succ h.succIn else if act.contains l then { L with twr := 0 } else L)),
    backcnt := if back then min 1024 (C.backcnt + 1) else 0,
    awaits := awaits, coh := none, parked := none, walked := [], refused := 0 }

/-- The sequencer's run of consecutive batches ends (R51, R81). -/
def State.yieldRun (s : State) (t c : Nat) : State :=
  s.modCore (s.team t).core (fun k => { k with
    seqs := k.seqs.map (fun q => if q.run == some (t, c) then { q with yielded := true } else q) })

/-- The queue registers that a trailer awaits (R51). -/
def trailerQueues (o : Ops) : List Nat := [o.d, o.a.op, o.b.op].filterMap eqOf

/-- The trailer's faults, which every active lane raises (R51, R53): COUNT, then an unbound queue register. -/
def trailerFault (T : Team) (o : Ops) (count issued : Nat) : Option FltRec :=
  if count ≠ issued || count = 0 || 24 < count then some { cls := 0x01, reason := 0x05 }
  else ((trailerQueues o).find? (fun n => T.portOf n == 0)).map (fun n => { cls := 0x11, reason := 0x01, detail := n })

/-- R51. A `v` register at or beyond the split that a trailer awaits raises no SPLIT and counts as full: the model's choice
(notes/assumptions/95). -/
def execBtl (o : Ops) (count : Nat) (yld : Bool) (s : State) : Host.Outcome State Fault Refusal :=
  match s.focus with
  | none => .fault .noCohort
  | some (t, c) => match (s.course t c).coh with
    | none => .fault .noCohort
    | some h => match trailerFault (s.team t) o count h.issued with
      | some f => .next (s.deliver t c (((s.course t c).active h.lanes).map (fun l => (l, f))) h.pc h.succ h.succIn h.issued)
      | none =>
        let s := if yld || h.yld then s.yieldRun t c else s
        let s := s.modCourse t c (fun C => C.trailer h [specOf o.d, specOf o.a.op, specOf o.b.op])
        .next ((s.boundary t c).releaseBars t)

/-! ### Transfers -/

/-- R77. -/
def execNop (o : Ops) (s : State) : Host.Outcome State Fault Refusal :=
  withRun o { d := .none } s (fun r => r.finish)

/-- BOUNDS of a call at depth 255 or a return at depth 0 (R78). -/
def depthFault (call ret : Bool) (depth : Nat) : Option FltRec :=
  if call && depth == 255 then some { cls := 0x06, reason := 0x02 }
  else if ret && depth == 0 then some { cls := 0x06, reason := 0x03 }
  else none

/-- A taken transfer of R78: the mark test, the call depth, the link, and the destination that the trailer takes; a backward
`bra` or `brx` is marked for R67. -/
def Run.transfer (r : Run) (call ret br : Bool) (dest : Nat → Word) : Run :=
  let ls := r.on.filter r.live
  let r := r.check ls (fun l => match r.s0.markFault r.t call (dest l) with
    | some f => some f
    | none => depthFault call ret (r.L l).depth)
  let link := match r.C.coh with
    | none => 0
    | some h => h.link
  let r := if !call then r
    else match r.o.d with
      | .k n => match r.chosen with
        | none => r
        | some l => if r.ok l then { r with s := r.s.modTeam r.t (fun T => T.kPut n link) } else r
      | d => { r with s := r.goodLive.foldl (fun s l => s.modLane r.t r.c l (fun L => L.putReg r.o.ib d link)) r.s }
  { r with s := r.goodLive.foldl (fun s l => s.modLane r.t r.c l (fun L => { L with
      xfer := some (.jump (dest l) (if call then L.depth + 1 else if ret then L.depth - 1 else L.depth)),
      back := br && (dest l).toNat ≤ r.ip.toNat })) r.s }

/-- Address of the instruction plus a signed offset (R78). -/
def Run.rel (r : Run) (off : BitVec 32) : Word := r.ip + off.signExtend 64

/-- R78. -/
def execBra (o : Ops) (off : BitVec 32) (s : State) : Host.Outcome State Fault Refusal :=
  withRun o { d := .none, helps := false } s (fun r => (r.transfer false false true (fun _ => r.rel off)).finish)

/-- R78. -/
def execBrx (o : Ops) (s : State) : Host.Outcome State Fault Refusal :=
  withRun o { d := .none, helps := false } s (fun r => (r.transfer false false true r.a).finish)

/-- R78. -/
def execCall (o : Ops) (off : BitVec 32) (s : State) : Host.Outcome State Fault Refusal :=
  withRun o { helps := false } s (fun r => (r.transfer true false false (fun _ => r.rel off)).finish)

/-- R78. -/
def execCallx (o : Ops) (s : State) : Host.Outcome State Fault Refusal :=
  withRun o { helps := false } s (fun r => (r.transfer true false false r.a).finish)

/-- R78. -/
def execRet (o : Ops) (s : State) : Host.Outcome State Fault Refusal :=
  withRun o { d := .none, helps := false } s (fun r => (r.transfer false true false r.a).finish)

/-- What the live lanes that perform the instruction will do at the trailer. -/
def Run.setXfer (r : Run) (x : Xfer) : Run :=
  { r with s := r.goodLive.foldl (fun s l => s.modLane r.t r.c l (fun L => { L with xfer := some x })) r.s }

/-- R79. -/
def execExit (o : Ops) (s : State) : Host.Outcome State Fault Refusal :=
  withRun o { d := .none } s (fun r => (r.setXfer .exit).finish)

/-- R80: the fault of a lane names the successor (R97). -/
def execTrap (o : Ops) (code : Nat) (s : State) : Host.Outcome State Fault Refusal :=
  withRun o { d := .none } s (fun r =>
    (r.check (r.on.filter r.live) (fun _ => some { cls := 0x18, reason := code, pc := some r.succ })).finish)

/-- R81. -/
def execYield (o : Ops) (s : State) : Host.Outcome State Fault Refusal :=
  withRun o { d := .none } s (fun r =>
    (if r.goodLive.isEmpty then r
     else { r with s := r.s.modCourse r.t r.c (fun C => { C with coh := C.coh.map (fun h => { h with yld := true }) }) }).finish)

/-- R82: the lanes are held at the trailer. -/
def execBar (o : Ops) (id : Nat) (s : State) : Host.Outcome State Fault Refusal :=
  withRun o { d := .none } s (fun r => (r.setXfer (.hold id)).finish)

/-- `tret` and `sret` (R95): ILLEGAL 0x10 outside a handler, or where `bad` says that the mode does not fit. -/
def Run.trapRet (r : Run) (bad : Bool) : Run :=
  let ls := r.on.filter r.live
  let r := r.check ls (fun l => if bad || !(r.L l).intrap then some { cls := 0x01, reason := 0x10 } else none)
  let tsave := if r.T.sup then wfld r.C.stvec 56 8 else wfld r.T.utmask 56 8
  { r with s := r.goodLive.foldl (fun s l => s.modLane r.t r.c l (fun L =>
      let x := L.trapReturn r.T.split.regs tsave
      { x.1 with xfer := some x.2 })) r.s }

/-- R95. -/
def execTret (o : Ops) (s : State) : Host.Outcome State Fault Refusal :=
  withRun o { d := .none } s (fun r => (r.trapRet r.T.sup).finish)

/-- R95; in user mode PRIV (R54). -/
def execSret (o : Ops) (s : State) : Host.Outcome State Fault Refusal :=
  withRun o { d := .none, priv := some (0x01, 0) } s (fun r => (r.trapRet false).finish)

/-! ### Predicates, votes, leaders -/

/-- A bit as a lane's result. -/
def bitRes (b : Bool) : LRes := { val := wordOf (bit b) }

/-- R84. -/
def execPldr (o : Ops) (quad : Bool) (s : State) : Host.Outcome State Fault Refusal :=
  aluRun o {} s (fun r l => bitRes (((r.on.filter (fun m => r.live m && (!quad || m / 4 == l / 4))).head?) == some l))

/-- The value of a predicate source or of bit 0 of an immediate (R85). -/
def Run.pa (r : Run) (l : Nat) : Bool := (r.a l).getLsbD 0
/-- Source B of a predicate operation. -/
def Run.pb (r : Run) (l : Nat) : Bool := (r.b l).getLsbD 0

/-- R85. -/
def execPand (o : Ops) (s : State) : Host.Outcome State Fault Refusal := aluRun o {} s (fun r l => bitRes (r.pa l && r.pb l))
/-- R85. -/
def execPor (o : Ops) (s : State) : Host.Outcome State Fault Refusal := aluRun o {} s (fun r l => bitRes (r.pa l || r.pb l))
/-- R85. -/
def execPxor (o : Ops) (s : State) : Host.Outcome State Fault Refusal := aluRun o {} s (fun r l => bitRes (r.pa l != r.pb l))
/-- R85. -/
def execPandn (o : Ops) (s : State) : Host.Outcome State Fault Refusal := aluRun o {} s (fun r l => bitRes (r.pa l && !r.pb l))
/-- R85. -/
def execPnot (o : Ops) (s : State) : Host.Outcome State Fault Refusal := aluRun o {} s (fun r l => bitRes (!r.pa l))
/-- R85. -/
def execPmov (o : Ops) (s : State) : Host.Outcome State Fault Refusal := aluRun o {} s (fun r l => bitRes (r.pa l))

/-- Segment size of a code (R154). -/
def segSize (seg : Nat) : Nat := 32 / 2 ^ seg

/-- Lanes `l` and `m` lie in one segment. -/
def sameSeg (seg l m : Nat) : Bool := l / segSize seg == m / segSize seg

/-- The voters of a lane (R86). -/
def Run.voters (r : Run) (seg l : Nat) : List Nat := r.on.filter (fun m => r.live m && sameSeg seg l m)

/-- R86. -/
def execVoteAny (o : Ops) (seg : Nat) (s : State) : Host.Outcome State Fault Refusal :=
  aluRun o {} s (fun r l => bitRes ((r.voters seg l).any r.pa))
/-- R86. -/
def execVoteAll (o : Ops) (seg : Nat) (s : State) : Host.Outcome State Fault Refusal :=
  aluRun o {} s (fun r l => bitRes ((r.voters seg l).all r.pa))
/-- R86. -/
def execVoteBallot (o : Ops) (seg : Nat) (s : State) : Host.Outcome State Fault Refusal :=
  aluRun o {} s (fun r l => { val := wordOf (maskOf ((r.voters seg l).filter r.pa)) })
/-- R86. -/
def execVoteCount (o : Ops) (seg : Nat) (s : State) : Host.Outcome State Fault Refusal :=
  aluRun o {} s (fun r l => { val := wordOf ((r.voters seg l).filter r.pa).length })

/-! ### Index and queue registers -/

/-- Write an index register in the lanes that perform the instruction (R87). A helper whose fault is discarded gets 0 (R64), with a
limit of 0, of which the rule does not speak: the model's choice (notes/assumptions/82). -/
def Run.setIdx (r : Run) (n : Nat) (val lim : Nat → Nat) : Run :=
  let s := r.good.foldl (fun s l => s.modLane r.t r.c l (fun L => L.xPut n (val l) (lim l))) r.s
  { r with s := r.failedHelpers.foldl (fun s l => s.modLane r.t r.c l (fun L => L.xPut n 0 0)) s }

/-- Number of an index-register operand. -/
def idxOf : Opnd → Nat
  | .x n => n
  | _ => 0

/-- R87. -/
def execXset (o : Ops) (limit : Nat) (s : State) : Host.Outcome State Fault Refusal :=
  withRun o { d := .none } s (fun r =>
    (r.setIdx (idxOf o.d) (fun l => wfld (r.a l) 0 16) (fun _ => limit)).finish)

/-- R87. -/
def execXadd (o : Ops) (s : State) : Host.Outcome State Fault Refusal :=
  withRun o { d := .none } s (fun r =>
    (r.setIdx (idxOf o.d) (fun l => wfld (r.a l + r.b l) 0 16) (fun l => (r.L l).xLim (idxOf o.a.op))).finish)

/-- R88, R315: the fault of binding queue register `n` to a port, none when it may be bound. -/
def bindFault (T : Team) (n : Nat) (port : Word) : Option FltRec :=
  let p := port.toNat
  if 0x22 ≤ p && p ≠ 0x7F then some { cls := 0x11, reason := 0x03, detail := n }
  else if p = 0x7F && !T.sup then some { cls := 0x04, reason := 0x03, detail := p }
  else if p ≠ 0 && T.portOf n ≠ 0 && T.portOf n ≠ p then some { cls := 0x11, reason := 0x04, detail := n }
  else none

/-- R88, R409. -/
def execQbind (o : Ops) (s : State) : Host.Outcome State Fault Refusal :=
  withRun o { d := .none, helps := false } s (fun r =>
    let n := (eqOf o.d).getD 0
    r.once (fun l => bindFault r.T n (r.a l)) (fun r l =>
      { r with s := r.s.modTeam r.t (fun T => { T with eqs := mapPut n (r.a l).toNat T.eqs }) }.finish))

/-- R90. -/
def qstatVal (s : State) (t c n : Nat) : Nat :=
  let port := (s.team t).portOf n
  if port = 0 then 0
  else 2 ^ 63 + port * 2 ^ 32 + (if port = 0x20 then s.coilRoom t c * 2 ^ 16 else s.portLen t port)

/-- R90: D is written at once; an empty guard still parks the course, which the rule on guards says of every instruction (R69;
notes/assumptions/67). -/
def execQstat (o : Ops) (s : State) : Host.Outcome State Fault Refusal :=
  aluRun o { nA := true, d := .now } s (fun r _ => { val := wordOf (qstatVal r.s0 r.t r.c ((eqOf o.a.op).getD 0)) })

/-! ### System registers -/

/-- SPLIT (R75). -/
def splitReg (sp : Option Split) : Nat :=
  match sp with
  | none => 0
  | some x => x.regs + x.loc / 16 * 2 ^ 16 + x.l1 / 64 * 2 ^ 32

/-- TSTAT (R104). -/
def tstatReg (s : State) (t : Nat) : Nat :=
  let T := s.team t
  bit T.terr + 4 * bit (s.core T.core).draining.isSome + 256 * (T.courses.filter (·.suspended)).length

/-- SCQSTAT (R102). -/
def scqstatReg (k : Column) : Nat := k.scq.length + 256 * k.scqWait.length

/-- A system register as a lane reads it (R91). -/
def sysRead (s : State) (t c l n : Nat) : Word :=
  let T := s.team t
  let C := T.course c
  let L := C.lane l
  let col := coreCol T.core
  match n with
  | 0x000 => wordOf l
  | 0x001 => wordOf (l / 4)
  | 0x002 => wordOf c
  | 0x003 => wordOf T.idx
  | 0x004 => wordOf T.tx
  | 0x005 => wordOf T.ty
  | 0x006 => wordOf T.tz
  | 0x007 => wordOf T.nteams
  | 0x008 => wordOf T.core
  | 0x009 => wordOf col
  | 0x00A => wordOf (colCluster col)
  | 0x00B => wordOf (colTower col)
  | 0x00C => wordOf s.device
  | 0x00D => wordOf T.node
  | 0x00E => wordOf T.gangpos
  | 0x00F => wordOf T.gangsize
  | 0x010 => wordOf (splitReg (s.core T.core).split)
  | 0x020 => wordOf T.fpcr
  | 0x021 => wordOf C.fpsr
  | 0x022 => wordOf (tstatReg s t)
  | 0x030 => wordOf (s.cycle col)
  | 0x031 => wordOf (s.column col).cone
  | 0x040 => T.utvec
  | 0x041 => L.ltcause
  | 0x042 => L.ltpc
  | 0x043 => L.ltaddr
  | 0x044 => L.ltinfo
  | 0x045 => T.utmask
  | 0x046 => T.ckvec
  | 0x047 => wordOf L.depth
  | 0x100 => wordOf T.asid
  | 0x101 => wordOf (mapGet 0 T.asid (s.column col).gens)
  | 0x102 => wordOf (T.ptroot * 2 ^ 12)
  | 0x103 => (s.core T.core).drainlim
  | 0x104 => (s.core T.core).parklim
  | 0x105 => C.stvec
  | 0x106 => wordOf (scqstatReg (s.column col))
  | _ => 0

/-- PRIV of a system register in user mode (R91). -/
def sysPriv (n : Nat) : Option (Nat × Nat) := if 0x100 ≤ n then some (0x02, n) else none

/-- R91. -/
def execSrd (o : Ops) (num : Nat) (s : State) : Host.Outcome State Fault Refusal :=
  aluRun o { priv := sysPriv num } s (fun r l => { val := sysRead r.s0 r.t r.c l num })

/-- The RSV bits of a system register (R75, R96, R98, R102, R104, R121, R122, R169, R353, R366). -/
def sysRsv (n : Nat) : Nat :=
  match n with
  | 0x010 => 0xFFFF_FFF0_FF80_FE00
  | 0x020 | 0x021 => 0xFFFF_FFFF_FFFF_FFE0
  | 0x022 => 0xFFFF_FFFF_FFFF_00FA
  | 0x031 => 0x0000_0000_00FF_FFC4
  | 0x040 | 0x046 => 0xFF00_0000_0000_007E
  | 0x041 => 0xFFFF_FFFF_FFFF_FF00
  | 0x044 => 0x0000_0000_FFC0_0000
  | 0x045 => 0x00FF_FFFF_FE20_0001
  | 0x100 => 0xFFFF_FFFF_FFFF_0000
  | 0x101 => 0xFFFF_FFFF_FFFF_F000
  | 0x102 => 0xFFF0_0000_0000_0FFF
  | 0x103 | 0x104 => 0xFFFF_FFFF_0000_0000
  | 0x105 => 0x0000_0000_0000_007E
  | 0x106 => 0xFFFF_FFFF_FFFC_0000
  | _ => 0

/-- ILLEGAL 0x0E of a value that sets an RSV bit or lies outside a field's encodings (R11, R96). -/
def swrBad (n : Nat) (x : Word) : Bool :=
  x.toNat &&& sysRsv n != 0 || (n == 0x044 && 23 < wfld x 16 5)

/-- Write a per-lane register (R96). -/
def Lane.sysWrite (L : Lane) (n : Nat) (x : Word) : Lane :=
  match n with
  | 0x041 => { L with ltcause := x }
  | 0x042 => { L with ltpc := x }
  | 0x043 => { L with ltaddr := x }
  | 0x044 => { L with ltinfo := x }
  | _ => L

/-- The values that FPCR, UTVEC and UTMASK have at the start of cycle `now` are kept for the rest of it (R93, R159). -/
def Team.keepOld (T : Team) (now : Nat) : Team := { T with old := some (now, T.atStart now) }

/-- The value that STVEC has at the start of cycle `now` is kept for the rest of it (R93). -/
def Course.keepOld (C : Course) (now : Nat) : Course := { C with old := some (now, C.stvecAt now) }

/-- Write a per-course, per-team or per-core register; read-only registers ignore it (R10, R91). -/
def State.sysWrite (s : State) (t c n : Nat) (x : Word) : State :=
  let now := s.cycle (s.colOf t)
  match n with
  | 0x020 => s.modTeam t (fun T => { T.keepOld now with fpcr := x.toNat })
  | 0x021 => s.modCourse t c (fun C => { C with fpsr := x.toNat })
  | 0x022 => s.modTeam t (fun T => { T with terr := T.terr && !x.getLsbD 0 })
  | 0x040 => s.modTeam t (fun T => { T.keepOld now with utvec := x })
  | 0x045 => s.modTeam t (fun T => { T.keepOld now with utmask := x })
  | 0x046 => s.modTeam t (fun T => { T with ckvec := x })
  | 0x100 => s.modTeam t (fun T => { T with asid := x.toNat })
  | 0x102 => s.modTeam t (fun T => { T with ptroot := wfld x 12 40 })
  | 0x103 => s.modCore (s.team t).core (fun k => { k with drainlim := x })
  | 0x104 => s.modCore (s.team t).core (fun k => { k with parklim := x })
  | 0x105 => s.modCourse t c (fun C => { C.keepOld now with stvec := x })
  | _ => s

/-- A system register that each lane has for itself (R91, R96). -/
def sysPerLane (num : Nat) : Bool := 0x041 ≤ num && num ≤ 0x044

/-- The lanes whose value a write of a system register takes (R91, R73): every live lane that performs it, or the one of R73. -/
def Run.sysWriters (r : Run) (num : Nat) : List Nat := if sysPerLane num then r.goodLive else r.chosen.toList.filter r.ok

/-- R91, R73, R11: the live lanes write; a register that lanes share takes the value of the lane of R73. A value that may not be
written raises ILLEGAL in every active lane, and nothing is written (R48, R53). -/
def execSwr (o : Ops) (num : Nat) (s : State) : Host.Outcome State Fault Refusal :=
  withRun o { d := .none, helps := false, priv := sysPriv num } s (fun r =>
    let r := if (r.sysWriters num).any (fun l => swrBad num (r.a l)) then r.check r.act (fun _ => some (illegal 0x0E)) else r
    let r := if sysPerLane num
      then { r with s := r.goodLive.foldl (fun s l => s.modLane r.t r.c l (fun L => L.sysWrite num (r.a l))) r.s }
      else match r.chosen with
        | none => r
        | some l => if r.ok l then { r with s := r.s.sysWrite r.t r.c num (r.a l) } else r
    r.finish)

end Sys2Proof.Machine
end

