-- ==== Sys2Proof/Machine/Slice.lean ====
section
/-! DEFINITION. What a slice does with an access that reaches it: blocks, spans and eviction (R194 to R198), the bytes that
memory behind a block holds, replicas (R206, R208), the wait table (R224), poison (R400), deferred faults (R174) and
the store overlay of the near slice (R212). -/

namespace Sys2Proof.Machine

/-! ### Granules and blocks -/

/-- Region number of an address (R194). -/
def regionOf (pa : Nat) : Nat := pa / 4096
/-- Granule of an address within its region. -/
def granOf (pa : Nat) : Nat := pa / 64 % 64
/-- First byte of a granule of a region. -/
def granBase (rg g : Nat) : Nat := rg * 4096 + g * 64

/-- A block holds a granule of a region. -/
def Block.holds (b : Block) (rg g : Nat) : Bool := b.region == rg && b.s ≤ g && g ≤ b.e

/-- The block of a slice that holds a granule. -/
def Column.blockAt (k : Column) (rg g : Nat) : Option Block := k.blocks.find? (fun b => b.holds rg g)

/-- The block of a request for a missing granule (R195): by the span hint, by the override of cspan, or by the predictor. -/
def Column.spanBlock (k : Column) (hint rg g tick : Nat) : Nat × Nat :=
  let n := if hint ≠ 0 then hint else mapGet 0 rg k.spans
  if n ≠ 0 then
    let size := 2 ^ (n - 1)
    (g / size * size, g / size * size + size - 1)
  else
    let p := Config.predictor rg g tick
    (min p.1 g, if p.2 < g then g else min p.2 63)

/-- A slice without the bytes of DRAM that differ from what a granule of it holds. -/
def State.dropBacking (s : State) (col base : Nat) : State :=
  s.modCol col (fun k => { k with
    backing := k.backing.filter (fun p => !(base ≤ p.1 && p.1 < base + 64))
    late := k.late.filter (fun a => !(base ≤ a && a < base + 64)) })

/-- A granule leaves its home slice without write-back: memory shows what DRAM holds (R200). -/
def State.revealBacking (s : State) (col base : Nat) : State :=
  let bs := (s.column col).backing.filter (fun (p : Nat × Byte) => base ≤ p.1 && p.1 < base + 64)
  State.dropBacking { s with mem := bs.foldl (fun m (p : Nat × Byte) => memPut m p.1 p.2) s.mem } col base

/-- A granule of a home block leaves the slice: a dirty one is written back when `wb` holds (R197, R200). -/
def State.leaveGranule (s : State) (col : Nat) (b : Block) (g : Nat) (wb : Bool) : State :=
  if b.replica then s
  else if wb && b.dirty.contains g then s.dropBacking col (granBase b.region g)
  else s.revealBacking col (granBase b.region g)

/-- The granules of a block. -/
def Block.grans (b : Block) : List Nat := (List.range 64).filter (fun g => b.s ≤ g && g ≤ b.e)

/-- A whole block is evicted (R197). -/
def State.evictBlock (s : State) (col : Nat) (b : Block) : State :=
  let s := b.grans.foldl (fun s g => s.leaveGranule col b g true) s
  s.modCol col (fun k => { k with blocks := k.blocks.filter (fun x => x != b) })

/-- Granules of a set that blocks may use: 128 less what the tower's window takes (R194, R204). -/
def State.setSpace (s : State) (col : Nat) : Nat := 128 - 2 * (s.column (col / 16 * 16)).wunits

/-- The set in which a region lies, of the 4,096 of its slice (R194; notes/assumptions/18). -/
def setIndex (rg : Nat) : Nat := Config.setOf rg % 4096

/-- Make room in the set of region `rg` for `tags` blocks of `need` granules in all (R197): whole blocks go, in an order that is
not architectural, and never one that `keep` names. -/
def State.makeRoom (s : State) (col rg tags need : Nat) (keep : Block → Bool) : Nat → State
  | 0 => s
  | fuel + 1 =>
    let others := (s.column col).blocks.filter (fun b => setIndex b.region == setIndex rg && !keep b)
    let used := others.foldl (fun a b => a + (b.e - b.s + 1)) 0
    if others.length + tags ≤ 32 && used + need ≤ s.setSpace col then s
    else match others[Config.victim s.tick others.length % others.length]? with
      | none => s
      | some b => (s.evictBlock col b).makeRoom col rg tags need keep fuel

/-- Bytes of a granule range of a region as the home holds them. -/
def State.regionBytes (s : State) (rg a e : Nat) : List Byte := memBytes s.mem (granBase rg a) (64 * (e - a + 1))

/-- Fill the range [a, e] of a region around what the slice holds (R196): overlapping blocks become one; a replica takes the
home's bytes for what is new. -/
def State.fillBlock (s : State) (col rg a e : Nat) (replica : Bool) : State :=
  let ov (b : Block) : Bool := b.region == rg && b.s ≤ e && a ≤ b.e
  let O := (s.column col).blocks.filter ov
  let lo := O.foldl (fun x b => min x b.s) a
  let hi := O.foldl (fun x b => max x b.e) e
  let s := s.makeRoom col rg 1 (hi - lo + 1) ov 33
  let bytes (g : Nat) : List Byte := match O.find? (fun b => b.holds rg g) with
    | some b => (b.data.drop (64 * (g - b.s))).take 64
    | none => s.regionBytes rg g g
  let nb : Block := { region := rg, s := lo, e := hi, dirty := O.flatMap (·.dirty), replica := replica,
                      data := if replica then ((List.range 64).filter (fun g => lo ≤ g && g ≤ hi)).flatMap bytes else [] }
  s.modCol col (fun k => { k with blocks := k.blocks.filter (fun b => !ov b) ++ [nb] })

/-- The home slice serves a replica's fill of the range [a, e] of a region (R196, R208): what it holds itself as it is, the rest of what the
replica lacks out of a block that it fills first. -/
def State.serveReplica (s : State) (col rg a e : Nat) : State :=
  let home := s.home (rg * 4096)
  let lack := (List.range 64).filter (fun g => a ≤ g && g ≤ e && ((s.column col).blockAt rg g).isNone && ((s.column home).blockAt rg g).isNone)
  match lack.head?, lack.getLast? with
  | some x, some y => s.fillBlock home rg x y false
  | _, _ => s

/-- The granule stands in the slice, filled by the span rules when it does not (R195, R196); a replica is filled from the home slice. -/
def State.needGranule (s : State) (col rg g hint : Nat) (replica : Bool) : State :=
  match (s.column col).blockAt rg g with
  | some _ => s
  | none =>
    let r := (s.column col).spanBlock hint rg g s.tick
    (if replica then s.serveReplica col rg r.1 r.2 else s).fillBlock col rg r.1 r.2 replica

/-- What is left of a block without some granules: blocks of its own. -/
def Block.without (b : Block) (gs : List Nat) : List Block :=
  let keep := b.grans.filter (fun g => !gs.contains g)
  let starts := keep.filter (fun g => g == b.s || gs.contains (g - 1))
  starts.map (fun a =>
    let e := (b.grans.filter (fun g => a ≤ g && !((b.grans.filter (fun h => a ≤ h && h ≤ g)).any gs.contains))).foldl max a
    { b with s := a, e := e, dirty := b.dirty.filter (fun g => a ≤ g && g ≤ e),
             data := (b.data.drop (64 * (a - b.s))).take (64 * (e - a + 1)) })

/-- Remove granules of a region from a slice (R200, R208), with or without write-back; room is made for the tags of what is left
(R201). -/
def State.removeGranules (s : State) (col rg : Nat) (gs : List Nat) (wb : Bool) : State :=
  let hit := (s.column col).blocks.filter (fun b => b.region == rg && gs.any (fun g => b.s ≤ g && g ≤ b.e))
  let s := hit.foldl (fun s b => (b.grans.filter gs.contains).foldl (fun s g => s.leaveGranule col b g wb) s) s
  let rest := hit.flatMap (·.without gs)
  let s := s.modCol col (fun k => { k with blocks := k.blocks.filter (fun b => !hit.contains b) })
  let s := if rest.isEmpty then s
    else s.makeRoom col rg rest.length (rest.foldl (fun a b => a + (b.e - b.s + 1)) 0) (fun _ => false) 33
  s.modCol col (fun k => { k with blocks := k.blocks ++ rest })

/-! ### Region counters and replicas -/

/-- The counter of a region, most recently used first (R206). -/
def Column.counter (k : Column) (rg : Nat) : RegCnt :=
  (k.counters.find? (fun c => c.region == rg)).getD { region := rg, rcnt := 0, wcnt := 0, repl := false, lastUse := 0 }

/-- The replica slice of a region homed in column `h` for tower `tw` (R208). -/
def replicaCol (h tw : Nat) : Nat := tw * 16 + h % 16

/-- The columns of other towers that may hold replicas of a region homed in `h`. -/
def replicaCols (h : Nat) : List Nat := ([0, 1, 2, 3].filter (fun tw => tw != h / 16)).map (replicaCol h)

/-- Invalidations of granules for the replica slices that hold some of them, in channel order: one for each slice, which covers
them all (R208, R242); `who` is the write or return that waits for the acknowledgement. -/
def State.sendInval (s : State) (home rg : Nat) (gs : List Nat) (who : Option Nat) : State :=
  (replicaCols home).foldl (fun s c =>
    let hold := gs.filter (fun g => ((s.column c).blockAt rg g).any (·.replica))
    if hold.isEmpty then s else s.modCol c (fun k => { k with inval := k.inval ++ [(rg, hold, who)] })) s

/-- Invalidations that a write or a return waits for are under way in some of the columns (R208). -/
def State.invalOpen (s : State) (id : Nat) (cols : Nat → Bool) : Bool :=
  s.columns.any (fun p => cols p.1 && p.2.inval.any (fun x => x.2.2 == some id))

/-- A region returns to memory-side mode: every replica of it is invalidated, and the return is complete when all the replica
slices have acknowledged (R206). -/
def State.unreplicate (s : State) (home rg : Nat) : State :=
  let id := s.nextId
  let s := State.modCol { s with nextId := s.nextId + 1 } home (fun k => { k with
    counters := k.counters.map (fun c => if c.region == rg then { c with repl := false } else c)
    returns := k.returns.filter (fun r => s.invalOpen r.2 (fun _ => true)) ++ [(rg, id)] })
  s.sendInval home rg (List.range 64) (some id)

/-- A region is on its way back to memory-side mode (R206). -/
def State.returning (s : State) (home rg : Nat) : Bool :=
  (s.column home).returns.any (fun r => r.1 == rg && s.invalOpen r.2 (fun _ => true))

/-- A replica slice applies an invalidation (R208): the granules of replica blocks go. -/
def State.applyInval (s : State) (col : Nat) (x : Nat × List Nat × Option Nat) : State :=
  let s := s.modCol col (fun k => { k with inval := k.inval.erase x })
  let gs := x.2.1.filter (fun g => ((s.column col).blockAt x.1 g).any (·.replica))
  if gs.isEmpty then s else s.removeGranules col x.1 gs false

/-- The invalidations that a home has sent a replica slice before its fill data (R208). -/
def State.drainChannel (s : State) (col home : Nat) : State :=
  ((s.column col).inval.filter (fun x => s.home (x.1 * 4096) == home)).foldl (fun s x => s.applyInval col x) s

/-- A region's counter at its home, changed; the least recently used of 512 makes room, and a replicated one then returns to
memory-side mode (R206). -/
def State.count (s : State) (home rg : Nat) (f : RegCnt → RegCnt) : State :=
  let k := s.column home
  let c := { f (k.counter rg) with lastUse := s.tick }
  let rest := k.counters.filter (fun x => x.region != rg)
  if rest.length < 512 then s.modCol home (fun k => { k with counters := c :: rest })
  else match minBy (fun x => x.lastUse) rest with
    | none => s
    | some old =>
      let s := if old.repl then s.unreplicate home old.region else s
      s.modCol home (fun k => { k with counters := c :: k.counters.filter (fun x => x.region != rg && x.region != old.region) })

/-- A read by a tower other than the home's counts (R206). -/
def State.countRead (s : State) (home tw rg : Nat) : State :=
  if tw == home / 16 then s else s.count home rg (fun c => { c with rcnt := min 65535 (c.rcnt + 1) })

/-- A write by any agent counts (R206). -/
def State.countWrite (s : State) (home rg : Nat) : State := s.count home rg (fun c => { c with wcnt := min 65535 (c.wcnt + 1) })

/-! ### Wait table -/

/-- The word of an address. -/
def wordBase (pa : Nat) : Nat := pa / 8 * 8

/-- An access in flight, changed. -/
def State.modFlight (s : State) (id : Nat) (f : Flight → Flight) : State :=
  { s with flights := s.flights.map (fun x => if x.id == id then f x else x) }

/-- An access in flight is finished. -/
def State.dropFlight (s : State) (id : Nat) : State := { s with flights := s.flights.filter (fun x => x.id != id) }

/-- An access in flight. -/
def State.flight? (s : State) (id : Nat) : Option Flight := s.flights.find? (fun x => x.id == id)

/-- Where an uncorrectable word is detected (R400): 0x82 in the MSC, 0x81 in HBM4E. -/
def State.poisonReason (s : State) (pa : Nat) : Nat :=
  if ((s.column (s.home pa)).blockAt (regionOf pa) (granOf pa)).isSome then 0x82 else 0x81

/-- How the wait of a lane ends with a value (R224), and with REASON of MEMERR where the word is uncorrectable (R400; notes/assumptions/50). -/
def Flight.waited (f : Flight) (v : Word) (bad : Option Nat) : Flight :=
  match bad with
  | none => { f with stage := 4, val := v }
  | some reason => { f with stage := 5, val := wordOf reason }

/-- A wait entry ends with a value (R224): a lane's destination is then filled by WAIT_ENTRY_END, a column core's entry by
COLUMN_WAIT_END. -/
def State.endWait (s : State) (home : Nat) (e : WaitEnt) (v : Word) : State :=
  let bad := if s.poisoned e.pa 8 && !s.beyondWindow e.pa then some (s.poisonReason e.pa) else none
  let s := s.modCol home (fun k => { k with waits := k.waits.filter (fun x => x != e) })
  match e.who with
  | some id => s.modFlight id (·.waited v bad)
  | none => s.modCol home (fun k => { k with waits := k.waits ++ [{ e with ended := true, val := v }] })

/-- The entries of a home's table that watch a word, oldest first. -/
def Column.waitsOn (k : Column) (w : Nat) : List WaitEnt := k.waits.filter (fun e => !e.ended && e.pa == w)

/-- Entries in use (R224). -/
def Column.waitUse (k : Column) : Nat := (k.waits.filter (fun e => !e.ended)).length

/-- A write to some bytes ends the entries on their words (R224). -/
def State.wakeWords (s : State) (home : Nat) (ws : List Nat) : State :=
  ws.foldl (fun s w => ((s.column home).waitsOn w).foldl (fun s e => s.endWait home e (wordOf (memRead s.mem w 8))) s) s

/-- The words that a range of bytes touches. -/
def wordsOf (pa n : Nat) : List Nat := (List.range ((pa + n - 1) / 8 + 1 - pa / 8)).map (fun i => (pa / 8 + i) * 8)

/-! ### Reads and writes at a slice -/

/-- Bytes of the home that lie under present granules of a block keep what DRAM held (R198). -/
def addBacking (k : Column) (m : List Host.Cell) (pa n : Nat) : Column :=
  (List.range n).foldl (fun k i =>
    if (mapGet? (pa + i) k.backing).isSome then k else { k with backing := mapPut (pa + i) (memByte m (pa + i)) k.backing }) k

/-- A write of bytes within one granule performed at the home slice, but for the invalidation of its replicas (R198, R206, R224,
R400). -/
def State.homePut (s : State) (pa : Nat) (bs : List Byte) : State :=
  let home := s.home pa
  let n := bs.length
  if isHost pa || isIO pa then s
  else if isWindow pa then
    State.wakeWords { s with mem := memPutBytes s.mem pa bs, poison := clearPoison s.poison pa n } home (wordsOf pa n)
  else
    let rg := regionOf pa
    let g := granOf pa
    let s := match (s.column home).blockAt rg g with
      | some _ => s
      | none => s.fillBlock home rg g g false
    let s := s.modCol home (fun k =>
      let k := addBacking k s.mem pa n
      { k with late := k.late.filter (fun a => !(pa ≤ a && a < pa + n)), blocks := k.blocks.map (fun b => if b.holds rg g && !b.dirty.contains g then { b with dirty := g :: b.dirty } else b) })
    let s := { s with mem := memPutBytes s.mem pa bs, poison := clearPoison s.poison pa n }
    (s.countWrite home rg).wakeWords home (wordsOf pa n)

/-- The address is memory that replica slices may hold (R203, R206). -/
def mayReplicate (pa : Nat) : Bool := !isHost pa && !isIO pa && !isWindow pa

/-- A write of bytes within one granule performed at the home slice (R208); `who` waits for replica acknowledgements. -/
def State.homeWrite (s : State) (pa : Nat) (bs : List Byte) (who : Option Nat) : State :=
  let s := s.homePut pa bs
  if mayReplicate pa then s.sendInval (s.home pa) (regionOf pa) [granOf pa] who else s

/-- A write performed at the memory controller (R167, ATTR 1 and 2): a slice that holds the granule keeps its copy, and the wait entries
on the words written end either way (R224). -/
def State.ctrlWrite (s : State) (pa : Nat) (bs : List Byte) : State :=
  let home := s.home pa
  if isHost pa || isIO pa then s
  else
    let s := { s with poison := clearPoison s.poison pa bs.length }
    match (s.column home).blockAt (regionOf pa) (granOf pa) with
    | none => State.wakeWords { s with mem := memPutBytes s.mem pa bs } home (wordsOf pa bs.length)
    | some _ => (s.modCol home (fun k => { k with
        backing := (List.range bs.length).foldl (fun b i => mapPut (pa + i) (bs.getD i 0) b) k.backing
        late := dedupNat (k.late ++ (List.range bs.length).map (pa + ·)) })).wakeWords home (wordsOf pa bs.length)

/-- A write at the place that its attribute names. -/
def State.writeAt (s : State) (attr pa : Nat) (bs : List Byte) (who : Option Nat) : State :=
  if attr = 0 then s.homeWrite pa bs who else s.ctrlWrite pa bs

/-- Bytes read at the memory controller (R167). -/
def State.ctrlBytes (s : State) (pa n : Nat) : List Byte :=
  let k := s.column (s.home pa)
  (List.range n).map (fun i => if isHost pa then Config.hostByte (pa + i) s.fresh else (mapGet? (pa + i) k.backing).getD (memByte s.mem (pa + i)))

/-- The slice that serves a column's reads of an address: the home, or its tower's replica slice (R208). -/
def State.server (s : State) (col pa : Nat) : Nat × Bool :=
  let home := s.home pa
  if col / 16 == home / 16 || isWindow pa || isHost pa || !((s.column home).counter (regionOf pa)).repl then (home, false)
  else (replicaCol home (col / 16), true)

/-- A read by an agent of a column counts at its home (R206). -/
def State.counted (s : State) (col attr pa : Nat) : State :=
  if attr = 0 && mayReplicate pa then s.countRead (s.home pa) (col / 16) (regionOf pa) else s

/-- A write under way to the replicas counts as performed for a reader in a column (R211, R213, R223): a plain store of the column does
not need this, since the near slice lays it over the read (R212). -/
def Flight.doneFor (f : Flight) (col : Nat) : Bool :=
  (f.past || f.kind == .nred) && ((coreCol f.core == col && f.performed 3) || (coreCol f.core / 8 == col / 8 && f.performed 4) ||
    (coreCol f.core / 16 == col / 16 && f.performed 5))

/-- A replica slice that has still to remove a granule for a write that counts as performed for the reader removes it before it serves
the read (R208, R213): the invalidation, and what stands before it in the channel, arrive first. -/
def State.meetInval (s : State) (col attr pa : Nat) : State :=
  let sv := s.server col pa
  if attr = 0 && mayReplicate pa && sv.2 && (s.column sv.1).inval.any (fun x => x.1 == regionOf pa && x.2.1.contains (granOf pa) &&
      x.2.2.any (fun id => s.flights.any (fun f => f.id == id && f.doneFor col)))
  then s.drainChannel sv.1 (s.home pa) else s

/-- Bytes within one granule as a slice serves them to an agent of a column once no invalidation stands before them (R196, R208), and the
state after it. A replica slice that must fill first applies what its home has sent before. -/
def State.sliceFill (s : State) (col attr pa n hint : Nat) : List Byte × State :=
  if attr != 0 || isHost pa || isIO pa then (s.ctrlBytes pa n, s)
  else if isWindow pa then (memBytes s.mem pa n, s)
  else
    let rg := regionOf pa
    let g := granOf pa
    let sv := s.server col pa
    let s := if sv.2 && ((s.column sv.1).blockAt rg g).isNone then s.drainChannel sv.1 (s.home pa) else s
    let s := s.needGranule sv.1 rg g hint sv.2
    match sv.2, (s.column sv.1).blockAt rg g with
    | true, some b => ((b.data.drop (pa - granBase rg b.s)).take n, s)
    | _, _ => (memBytes s.mem pa n, s)

/-- Bytes within one granule as a slice serves them to an agent of a column (R196, R208, R213), and the state after it. -/
def State.sliceServe (s : State) (col attr pa n hint : Nat) : List Byte × State := (s.meetInval col attr pa).sliceFill col attr pa n hint

/-- A read of bytes within one granule by an agent of a column, which counts (R206). -/
def State.sliceRead (s : State) (col attr pa n hint : Nat) : List Byte × State := (s.counted col attr pa).sliceServe col attr pa n hint

/-- A store that a near slice keeps (R212): the number of its acceptance, its address, size and data. -/
structure KeptStore where
  acc : Nat
  pa : Nat
  size : Nat
  data : Word
  deriving DecidableEq, Repr

/-- Bytes with what a store writes laid over them. -/
def KeptStore.over (k : KeptStore) (pa : Nat) (bs : List Byte) : List Byte :=
  (List.range bs.length).map (fun i =>
    if k.pa ≤ pa + i && pa + i < k.pa + k.size then BitVec.ofNat 8 (fld k.data.toNat (8 * (pa + i - k.pa)) 8) else bs.getD i 0)

/-- The store shares a byte with some range. -/
def KeptStore.meets (k : KeptStore) (pa n : Nat) : Bool := k.pa < pa + n && pa < k.pa + k.size

/-- The address is memory that a column core or the host may write (R203, R205, R360). -/
def State.portMem (s : State) (pa : Nat) : Bool := (isHbm pa || isWindow pa) && !s.beyondWindow pa

/-- The stores of a column's cores and of its column core that its near slice keeps until their home acks (R212): those that the
home slice has not yet performed, and with `rep` also those that it has, whose invalidation is on its way to the tower's replica. -/
def State.kept (s : State) (col : Nat) (rep : Bool) : List KeptStore :=
  (s.flights.filter (fun f => f.kind == .store && f.fmode == 0 && !f.past && (f.stage == 1 || (rep && f.stage == 2 && s.invalOpen f.id (fun c => c / 16 == col / 16))) &&
      coreCol f.core == col)).map
    (fun f => ⟨f.acc, f.pa, f.size, f.data⟩) ++
  (s.port.filter (fun p => p.kind == .store && p.stream == col && s.portMem p.pa && (s.windowAt p.pa).isNone &&
      (p.stage == 0 || (rep && s.invalOpen p.id (fun c => c / 16 == col / 16))))).map
    (fun p => ⟨p.id, p.pa, p.size, p.data⟩)

/-- The near slice lays the stores that it keeps over a read that passes (R212). A read of the home slice finds the ones that are
performed, or what came after them, there (R210, R213). -/
def State.overlay (s : State) (col pa : Nat) (rep : Bool) (bs : List Byte) : List Byte :=
  (sortBy (fun k => k.acc) ((s.kept col rep).filter (·.meets pa bs.length))).foldl (fun bs k => k.over pa bs) bs

/-- A replica slice serves the read of the column, from a block that it holds (R208). -/
def State.fromReplica (s : State) (col attr pa : Nat) : Bool :=
  attr == 0 && mayReplicate pa &&
    (let sv := s.server col pa
     sv.2 && ((s.column sv.1).blockAt (regionOf pa) (granOf pa)).isSome)

/-- The stores of a column to a peer that its near slice keeps until the peer has performed them (R212). -/
def State.keptFar (s : State) (col peer : Nat) : List KeptStore :=
  (s.flights.filter (fun g => g.kind == .store && g.fmode != 0 && g.peer == peer && !g.eng && g.stage == 1 && coreCol g.core == col)).map
    (fun g => ⟨g.acc, g.pa, g.size, g.data⟩)

/-- The near slice lays those stores over bytes that its column reads from the peer (R212). -/
def State.overFar (s : State) (col peer pa : Nat) (bs : List Byte) : List Byte :=
  (sortBy (fun k => k.acc) ((s.keptFar col peer).filter (·.meets pa bs.length))).foldl (fun bs k => k.over pa bs) bs

/-- A read by a column of a peer's page that comes back to this device meets an uncorrectable word (R400): one over which the near slice
keeps no store of the whole word (R212). -/
def State.poisonedFar (s : State) (col peer pa n : Nat) : Bool :=
  s.poison.any (fun w => w < pa + n && pa < w + 8 && !(s.keptFar col peer).any (fun k => k.pa == w && k.size == 8))

/-- The replica slice that would serve a column's read removes what its home has invalidated before (R208): the read then finds what stands
at the home. -/
def State.readsHome (s : State) (col attr pa : Nat) : State :=
  let sv := s.server col pa
  if attr = 0 && mayReplicate pa && sv.2 then s.drainChannel sv.1 (s.home pa) else s

/-- The bytes that a load of a column's core receives (R210, R212); with `cnt` the read counts (R206). -/
def State.loadFrom (s : State) (cnt : Bool) (col attr pa n hint : Nat) : List Byte × State :=
  let s := s.meetInval col attr pa
  let rep := s.fromReplica col attr pa
  let r := (if cnt then s.counted col attr pa else s).sliceServe col attr pa n hint
  (s.overlay col pa rep r.1, r.2)

/-- The bytes that a load of its own receives. -/
def State.loadBytes (s : State) (col attr pa n hint : Nat) : List Byte × State := s.loadFrom true col attr pa n hint

/-- The bytes that a read of the home slice by a column's core receives (R240). -/
def State.homeBytes (s : State) (col pa n : Nat) : List Byte × State :=
  let r := (s.counted col 0 pa).sliceServe (s.home pa) 0 pa n 0
  (s.overlay col pa false r.1, r.2)

/-- A read of a column's core meets an uncorrectable word (R400): one that no store of the whole word, kept in the near slice,
lies over (R212). -/
def State.poisonedFor (s : State) (col pa n : Nat) : Bool :=
  s.poison.any (fun w => w < pa + n && pa < w + 8 &&
    !(s.kept col false).any (fun k => k.pa == w && k.size == 8))

/-! ### Destinations and deferred faults -/

/-- An atomic or a commit that its home has taken and not yet performed names a word of some bytes: the home performs what it takes later
to that word after it (R220, R230, R248). -/
def State.queuedOn (s : State) (pa n : Nat) : Bool :=
  s.flights.any (fun g => g.fmode == 0 && (g.kind == .atom || g.kind == .txe) && g.stage == 1 &&
    g.pa / 8 < (pa + n + 7) / 8 && pa / 8 < (g.pa + g.size + 7) / 8)

/-- A long-latency value lands in its destination, which goes full with its outcome predicate (R23, R231). -/
def State.land (s : State) (f : Flight) (v : Word) (pv : Bool) : State :=
  let s := match f.dest with
    | .none => s
    | .v l n => s.modLane f.team f.crs l (fun L => L.vPut n v)
    | .k n => s.modTeam f.team (fun T => T.kPut n v)
    | .vs rs => rs.foldl (fun s p => s.modLane f.team f.crs p.1 (fun L => L.vPut p.2 v)) s
    | .push l => s.pushLane f.team f.crs l v
  match f.pn with
  | none => s
  | some n => s.modLane f.team f.crs f.lane (fun L => L.pPut n pv)

/-- A fault or abandonment pends for a lane until its next batch boundary (R27, R174): `ord` is the issue number of the
instruction at `ipc`. An exited lane has none. ENGINE sets TSTAT.ERR (R104). -/
def State.deferAt (s : State) (t c l ord cls reason : Nat) (addr ipc : Word) : State :=
  let s := if cls = 0x10 then s.setTerr t else s
  if (s.lane t c l).cls == .live then
    (s.modLane t c l (fun L => { L with
      defs := L.defs ++ [{ ord := ord, cls := cls, reason := reason, addr := addr, detail := ipc.toNat % 2 ^ 32 }] })).boundary t c
  else s

/-- A deferred fault of an access (R174); a helper has none. -/
def State.defer (s : State) (f : Flight) (cls reason : Nat) (addr : Word) : State :=
  if f.helper then s else s.deferAt f.team f.crs f.lane f.id cls reason addr f.ipc

/-- Sign- or zero-extension of a loaded value (R183). -/
def loadExt (size : Nat) (sext : Bool) (v : Nat) : Word :=
  if sext then wordOfInt (sextN (8 * size) v) else wordOf (v % 2 ^ (8 * size))

end Sys2Proof.Machine
end

