-- ==== Sys2Proof/Machine/Access.lean ====
section
/-! DEFINITION. What the memory instructions share: addresses and alignment (R184), translation of a cohort's accesses
(R171), destinations, accesses put in flight, and the order that one lane's accesses keep (R186, R210, R216, R235). -/

namespace Sys2Proof.Machine

/-- An access of a lane that has passed its checks: its address, leaf and physical address. -/
structure Acc where
  l : Nat
  x : Word
  e : TlbEnt
  pa : Nat
  deriving DecidableEq, Repr

/-- The address A + B + OFF (R184). -/
def Run.xab (r : Run) (off : Int) (l : Nat) : Word := r.a l + r.b l + wordOfInt off

/-- The address A + OFF. -/
def Run.xa0 (r : Run) (off : Int) (l : Nat) : Word := r.a l + wordOfInt off

/-- ALIGN of R184. -/
def alignFault (n : Nat) (x : Word) : Option FltRec :=
  if x.toNat % n = 0 then none else some { cls := 0x0C, reason := 0x01, addr := x, detail := n }

/-- Access width in bytes (R183). -/
def lsBytes : LSize → Nat
  | .n8 | .i8 => 1
  | .n16 | .i16 => 2
  | .n32 | .i32 => 4
  | .n64 => 8

/-- The loaded value is sign-extended (R183). -/
def lsSigned : LSize → Bool
  | .i8 | .i16 | .i32 => true
  | _ => false

/-- A cohort's accesses wait for walks, or have passed translation. -/
inductive AccOut where
  | parked (s : State)
  | go (r : Run) (acc : List Acc)

/-- The outcome of translating each address (R160, R166, R167, R171): a walk that any lane needs parks the course before any
fault is delivered; translations that serve enter the core's TLB. -/
def Run.translated (r : Run) (ls : List Nat) (kind : AccessKind) (x : Nat → Word) : AccOut :=
  let ok := ls.filter r.ok
  let tr (l : Nat) : Tr := r.s0.translate r.t r.c (x l) kind
  let pages := ok.filterMap (fun l => match tr l with
    | .wait p => some p
    | _ => none)
  if !pages.isEmpty then .parked (r.parkWalk pages)
  else
    let r := r.check ok (fun l => match tr l with
      | .fault f => some f
      | _ => none)
    let acc := (ok.filter r.ok).filterMap (fun l => match tr l with
      | .hit e pa => some (Acc.mk l (x l) e pa)
      | _ => none)
    .go { r with s := acc.foldl (fun s a => s.addTlb r.core a.e) r.s } acc

/-- Alignment, then translation (R184). -/
def Run.access (r : Run) (ls : List Nat) (kind : AccessKind) (size : Nat) (x : Nat → Word) : AccOut :=
  (r.check ls (fun l => alignFault size (x l))).translated ls kind x

/-- A further check of the accesses that have passed so far. -/
def Run.checkAcc (r : Run) (acc : List Acc) (f : Acc → Option FltRec) : Run :=
  acc.foldl (fun r a => match f a with
    | none => r
    | some x => r.fault a.l x) r

/-- The accesses whose lanes have raised no fault. -/
def Run.passed (r : Run) (acc : List Acc) : List Acc := acc.filter (fun a => r.ok a.l)

/-- UNCACHED of an atomic, a transaction or a near reduction (R232, R222). -/
def uncachedFault (a : Acc) : Option FltRec :=
  if pteAttr a.e.pte = 0 then none else some { cls := 0x0E, reason := 0x01, addr := a.x }

/-- The physical address lies in an enabled glaze window of this device (R383). -/
def State.inWindow (s : State) (a : Acc) : Bool := pteFmode a.e.pte == 0 && (s.windowAt a.pa).isSome

/-- GLAZE of a write into a window (R383). -/
def State.glazeFault (s : State) (a : Acc) : Option FltRec :=
  if s.inWindow a then some { cls := 0x14, reason := 0x01, addr := a.x } else none

/-- LOCK of a global access (R30, R410). -/
def Run.globLock (r : Run) (size : Nat) (onlyDst : Bool) (a : Acc) : Option FltRec :=
  lockFault (r.s0.core r.core) (.glob r.T.asid) a.x (va56 a.x) size onlyDst

/-- Where a lane's result goes (R23, R45, R73). -/
def Run.destOf (r : Run) (l : Nat) : Dest :=
  match r.o.d with
  | .v n => .v l n
  | .vx n => .v l ((r.L l).idx r.o.ib n)
  | .k n => if n != 0 && r.chosen == some l then .k n else .none
  | .eq _ => if r.chosen == some l then .push l else .none
  | _ => .none

/-- A long-latency producer marks its destination empty at issue, with its outcome predicate (R23). -/
def State.markEmpty (s : State) (f : Flight) : State :=
  let s := match f.dest with
    | .none => s
    | .v l n => s.modLane f.team f.crs l (fun L => L.vEmpty n)
    | .k n => s.modTeam f.team (fun T => T.kEmpty n)
    | .vs rs => rs.foldl (fun s p => s.modLane f.team f.crs p.1 (fun L => L.vEmpty p.2)) s
    | .push _ => s
  match f.pn with
  | none => s
  | some n => s.modLane f.team f.crs f.lane (fun L => { L with pE := eSet L.pE n })

/-- An access leaves the core: it takes the next issue number, its core's merge tag and the cycle (R219). -/
def State.send (s : State) (f : Flight) : State :=
  let s := s.markEmpty f
  { s with flights := s.flights ++ [{ f with id := s.nextId, tag := (s.core f.core).mergeTag, since := s.cycle (coreCol f.core) }],
           nextId := s.nextId + 1 }

/-- The accesses of a lane that are in flight. -/
def State.ofLane (s : State) (t c l : Nat) : List Flight := s.flights.filter (fun f => f.team == t && f.crs == c && f.lane == l)

/-- Acquire accesses of a lane that its later accesses wait for (R185, R235): a load until its value is fixed, an atomic or a
commit until its destination is full. -/
def State.acqAfter (s : State) (t c l : Nat) : List (Nat × Nat) :=
  ((s.ofLane t c l).filter (·.acq)).map (fun f => (f.id, if f.kind == .load || f.kind == .mmioLoad then 0 else 100))

/-- Earlier synchronising accesses of a lane, which the next one follows in program order (R216): a load until its value is fixed,
a store until it is performed at its scope, an atomic or a commit until its destination is full. -/
def State.syncAfter (s : State) (t c l : Nat) : List (Nat × Nat) :=
  ((s.ofLane t c l).filter (fun f => f.acq || f.rel)).map (fun f =>
    (f.id, match f.kind with
      | .load | .mmioLoad => 0
      | .store => f.scope
      | _ => 100))

/-- The access is one of those that R210 names, made by the lane itself; `nred` is left out (R223), and so are the writes of engine
commands, whose completions order them (R215). -/
def Flight.isAccess (f : Flight) : Bool :=
  !f.eng && match f.kind with
  | .load | .mmioLoad | .store | .ldl | .stl | .ldr | .str | .latom | .latomR | .lpres _ | .atom | .txld | .txe | .range _ | .gst | .launch => true
  | _ => false

/-- The earlier accesses of a lane that a release waits for (R186, R235), without nred (R223). -/
def State.relAfter (s : State) (t c l lvl : Nat) : List (Nat × Nat) :=
  ((s.ofLane t c l).filter (·.isAccess)).map (fun f => (f.id, lvl))

/-- MMIO accesses of a lane keep program order (R167). -/
def State.mmioAfter (s : State) (t c l : Nat) : List (Nat × Nat) :=
  ((s.ofLane t c l).filter (fun f => f.attr == 2)).map (fun f => (f.id, 9))

/-- What every access of a lane waits for, with the orders of a release, of a synchronising access and of MMIO where they
apply. -/
def State.orders (s : State) (t c l attr : Nat) (sync : Bool) (rel : Option Scope) : List (Nat × Nat) :=
  s.acqAfter t c l ++ (match rel with
    | none => []
    | some sc => s.relAfter t c l (scopeCode sc)) ++ (if sync then s.syncAfter t c l else []) ++
  (if attr = 2 then s.mmioAfter t c l else [])

/-- A request of a lane that names no address. -/
def Run.request (r : Run) (kind : FKind) (l : Nat) : Flight :=
  { id := 0, kind := kind, team := r.t, crs := r.c, lane := l, core := r.core, asid := r.T.asid, root := r.T.ptroot, ipc := r.ip,
    ins := r.s0.nextId }

/-- The access of a lane as it leaves the core. -/
def Run.flight (r : Run) (kind : FKind) (a : Acc) : Flight :=
  { id := 0, kind := kind, team := r.t, crs := r.c, lane := a.l, core := r.core, helper := !r.live a.l,
    asid := r.T.asid, gen := a.e.gen, root := r.T.ptroot, va := a.x, pa := a.pa, attr := pteAttr a.e.pte,
    fmode := pteFmode a.e.pte, peer := ptePeer a.e.pte, ipc := r.ip, ins := r.s0.nextId }

/-- A result that no access is sent for lands at once in its lane's destination (R23). -/
def Run.setDest (r : Run) (l : Nat) (v : Word) : Run :=
  { r with s := match r.destOf l with
      | .none => r.s
      | .v m n => r.s.modLane r.t r.c m (fun L => L.vPut n v)
      | .k n => r.s.modTeam r.t (fun T => T.kPut n v)
      | .vs rs => rs.foldl (fun s p => s.modLane r.t r.c p.1 (fun L => L.vPut p.2 v)) r.s
      | .push m => r.s.pushLane r.t r.c m v }

/-- Lanes of a course that wait for an acquire load of theirs: their local accesses do not pass it (R185). -/
def Run.acqWaits (r : Run) (ls : List Nat) : List Wait :=
  ls.flatMap (fun l => (r.s0.acqAfter r.t r.c l).filterMap (fun p =>
    if r.s0.performedAt p.1 p.2 then none else some (Wait.perf p.1 p.2)))

/-! ### L1 -/

/-- The number of a line of a peer's memory, which no line of this device has (R377). -/
def farLine (peer pa : Nat) : Nat := (peer + 1) * 2 ^ 46 + pa / 64

/-- The number that the line of an access has in L1 (R176, R377). -/
def Flight.l1Line (f : Flight) : Nat := if f.fmode = 0 then f.pa / 64 else farLine f.peer f.pa

/-- A line of L1 under an ASID (R176). -/
def Core.l1At (k : Core) (asid line : Nat) : Option L1Line := k.l1.find? (fun x => x.line == line && x.asid == asid)

/-- Lines that the core's L1 share holds (R74, R176). -/
def Core.l1Max (k : Core) : Nat := ((k.split.map (·.l1)).getD 64) * 16

/-- Fill an L1 line; the line that makes room is not architectural (notes/assumptions/18). -/
def Core.l1Fill (k : Core) (tick : Nat) (x : L1Line) : Core :=
  let rest := k.l1.filter (fun y => y.line != x.line)
  if rest.length < k.l1Max then { k with l1 := x :: rest }
  else { k with l1 := x :: rest.eraseIdx (Config.victim tick rest.length % rest.length) }

/-- A store of the core writes through (R176): a line of the same ASID is updated, one of another ASID goes. -/
def Core.l1Store (k : Core) (asid pa : Nat) (bs : List Byte) : Core :=
  { k with l1 := (k.l1.filter (fun x => x.line != pa / 64 || x.asid == asid)).map (fun x =>
      if x.line == pa / 64 then { x with data := (List.range 64).map (fun i =>
        if pa % 64 ≤ i && i < pa % 64 + bs.length then bs.getD (i - pa % 64) 0 else x.data.getD i 0) } else x) }

/-- The line of an address leaves the core's L1. -/
def Core.l1Drop (k : Core) (pa : Nat) : Core := { k with l1 := k.l1.filter (fun x => x.line != pa / 64) }

/-- The copies of some bytes of a peer's memory leave a core's L1 (R377). -/
def Core.farDrop (k : Core) (peer pa n : Nat) : Core :=
  { k with l1 := k.l1.filter (fun x => !(farLine peer pa ≤ x.line && x.line ≤ farLine peer (pa + (n - 1)))) }

/-- The read-only copy shares a byte with some bytes of a peer (R377). -/
def NearCopy.meets (c : NearCopy) (peer pa n : Nat) : Bool := c.peer == peer && c.base < pa + n && pa < c.base + 64

/-- The regions that `n` granules from an address touch. -/
def regionsOf (pa n : Nat) : List Nat :=
  (List.range ((pa + 64 * n - 1) / 4096 + 1 - pa / 4096)).map (fun i => pa / 4096 + i)

/-- The home columns of a range, each once. -/
def State.rangeCols (s : State) (pa n : Nat) : List Nat := dedupNat ((regionsOf pa n).map (fun rg => s.home (rg * 4096)))

/-- A write to a page with FMODE 2 removes the granules from the issuer's L1 and near slice (R377). -/
def State.farWrite (s : State) (core fmode peer pa n : Nat) : State :=
  if fmode != 2 then s
  else (s.modCore core (·.farDrop peer pa n)).modCol (coreCol core) (fun k => { k with near := k.near.filter (fun c => !c.meets peer pa n) })

/-! ### Order among accesses -/

/-- An access to global memory. -/
def Flight.isGlob (f : Flight) : Bool :=
  match f.kind with
  | .load | .pf | .store | .mmioLoad | .atom | .nred | .txld | .txe | .wwait | .wwake | .range _ => true
  | _ => false

/-- The accesses go to one memory: this device, or one peer. -/
def Flight.sameMem (f g : Flight) : Bool :=
  f.isGlob && g.isGlob && (if f.fmode = 0 then g.fmode == 0 else g.fmode != 0 && f.peer == g.peer)

/-- The accesses share a byte of memory. -/
def Flight.meets (f g : Flight) : Bool := f.sameMem g && f.pa < g.pa + g.size && g.pa < f.pa + f.size

/-- The accesses name a byte by the same virtual address of one address space. Their physical addresses differ when a refusal has had
one of them translated afresh (R31, R175). -/
def Flight.meetsVirt (f g : Flight) : Bool :=
  f.isGlob && g.isGlob && f.asid == g.asid && va56 f.va < va56 g.va + g.size && va56 g.va < va56 f.va + f.size

/-- The accesses share a byte. -/
def Flight.overlaps (f g : Flight) : Bool := f.meets g || f.meetsVirt g

/-- The accesses touch a 64-byte line in common, by its physical or its virtual address. -/
def Flight.sameLine (f g : Flight) : Bool :=
  (f.sameMem g && f.pa / 64 ≤ (g.pa + (g.size - 1)) / 64 && g.pa / 64 ≤ (f.pa + (f.size - 1)) / 64) ||
  (f.isGlob && g.isGlob && f.asid == g.asid && va56 f.va / 64 ≤ (va56 g.va + (g.size - 1)) / 64 &&
    va56 g.va / 64 ≤ (va56 f.va + (f.size - 1)) / 64)

/-- The accesses belong to one lane. -/
def Flight.sameLane (f g : Flight) : Bool := f.team == g.team && f.crs == g.crs && f.lane == g.lane

/-- The access has the kind of a load. -/
def Flight.isLoad (f : Flight) : Bool := f.kind == .load || f.kind == .mmioLoad || f.kind == .txld

/-- The earlier access `g` of the same lane holds back `f` (R202, R210, R234, R377): MMIO accesses keep their order (R167), and a load
waits for a store that was sent to another place under the same virtual address. -/
def Flight.laneHold (f g : Flight) : Bool :=
  f.sameLane g && ((f.isGlob && f.attr == 2 && g.attr == 2 && !g.performed 9) || match g.kind with
  | .load | .mmioLoad | .txld => g.stage == 0 && f.overlaps g
  | .atom => f.sameLine g
  | .range _ | .txe => f.overlaps g
  | .store => f.overlaps g && (if f.isLoad then g.fmode != 0 || (g.stage < 2 && !f.meets g) else f.kind != .store && g.stage < 2)
  | _ => false)

/-- A course has an acquire that has not taken place (R176, R235). -/
def State.acqOpen (s : State) (t c : Nat) : Bool :=
  s.flights.any (fun g => g.team == t && g.crs == c && g.acq &&
    (if g.kind == .load || g.kind == .mmioLoad then g.stage == 0 else g.kind == .atom || g.kind == .txe))

/-- A load may be served by a line of L1 (R176, R205, R210, R212, R216, R377): no acquire of its course is open, no store of its core to
the line has still to leave, and nothing of its lane holds it back. -/
def State.l1Serves (s : State) (f : Flight) : Bool :=
  f.attr == 0 && (f.fmode == 2 || (f.fmode == 0 && !s.beyondWindow f.pa)) && !s.acqOpen f.team f.crs &&
  (s.orders f.team f.crs f.lane 0 f.acq none).isEmpty &&
  !s.flights.any (fun g => (g.core == f.core && g.kind == .store && g.stage == 0 && f.sameLine g) || f.laneHold g)

end Sys2Proof.Machine
end

