-- ==== Sys2Proof/Machine/LoadStore.lean ====
section
/-! DEFINITION. The load-store group (R183 to R192): global, local and remote-local accesses, local atomics, presence bits,
prefetch, and TLB and generation control. -/

namespace Sys2Proof.Machine

/-! ### Global accesses -/

/-- An L1 line that serves a load; a copy of a peer's line may have gone meanwhile (R377), which a free bit says. -/
def Run.l1Hit (r : Run) (f : Flight) : Option L1Line × Run :=
  match (if r.s0.l1Serves f then (r.s.core r.core).l1At f.asid f.l1Line else none) with
  | none => (none, r)
  | some x =>
    if f.fmode = 0 then (some x, r)
    else (if r.s.freeWord.1.getLsbD 0 then some x else none, { r with s := r.s.freeWord.2 })

/-- Send a load of a lane (R176, R177, R185): an L1 hit fixes its value at issue, a helper's MMIO load is not sent and gives
0. -/
def Run.sendLoad (r : Run) (m : LdM) (a : Acc) : Run :=
  let size := lsBytes m.size
  let f : Flight := { r.flight .load a with
    size := size, sext := lsSigned m.size, dest := r.destOf a.l, acq := m.acq.isSome,
    scope := (m.acq.map scopeCode).getD 0, span := m.span }
  let wide := match m.acq with
    | none => false
    | some sc => 2 ≤ scopeCode sc
  let (hit, r) := if wide then (none, r) else r.l1Hit f
  if f.helper && f.attr == 2 then r.setDest a.l 0
  else match hit with
    | some x => { r with s := r.s.send { f with stage := 1, val := loadExt size (lsSigned m.size) (leVal ((x.data.drop (a.pa % 64)).take size)) } }
    | none =>
      let f := { f with
        kind := if f.attr == 2 then .mmioLoad else .load
        fillL1 := m.ch == 0 && f.attr == 0 && (f.fmode == 0 || f.fmode == 2)
        after := r.s0.orders r.t r.c a.l f.attr f.acq none }
      { r with s := r.s.send f }

/-- A global load in the lanes that perform it (R184, R185). -/
def Run.loads (r : Run) (m : LdM) : State :=
  match r.access r.good .load (lsBytes m.size) (r.xab m.off) with
  | .parked s => s
  | .go r acc =>
    let r := r.checkAcc acc (r.globLock (lsBytes m.size) true)
    ((r.passed acc).foldl (fun r a => r.sendLoad m a) r).finish

/-- R185. -/
def execLd (o : Ops) (m : LdM) (s : State) : Host.Outcome State Fault Refusal :=
  withRun o {} s (fun r => r.loads m)

/-- R187: one lane loads a uniform register. -/
def execLdk (o : Ops) (m : LdM) (s : State) : Host.Outcome State Fault Refusal :=
  withRun o { one := true } s (fun r => r.loads m)

/-- Send a store of a lane (R176, R186). One to a peer's page meets no line of L1, but for the copies that FMODE 2 removes
(R376, R377). -/
def Run.sendStore (r : Run) (m : StM) (a : Acc) : Run :=
  let size := lsBytes m.size
  let f : Flight := { r.flight .store a with
    size := size, data := r.cc a.l, scope := (m.rel.map scopeCode).getD 0, rel := m.rel.isSome
    after := r.s.orders r.t r.c a.l (pteAttr a.e.pte) m.rel.isSome m.rel }
  let s := if f.fmode = 0 then r.s.modCore r.core (fun k => k.l1Store r.T.asid a.pa (leBytes size (r.cc a.l).toNat))
    else r.s.farWrite r.core f.fmode f.peer a.pa size
  { r with s := s.send f }

/-- R186. -/
def execSt (o : Ops) (m : StM) (s : State) : Host.Outcome State Fault Refusal :=
  withRun o { d := .none, helps := false } s (fun r =>
    match r.access r.goodLive .store (lsBytes m.size) (r.xab m.off) with
    | .parked s => s
    | .go r acc =>
      let r := (r.checkAcc acc r.s0.glazeFault)
      let r := r.checkAcc acc (r.globLock (lsBytes m.size) false)
      ((r.passed acc).foldl (fun r a => r.sendStore m a) r).finish)

/-- A run in which the lanes that any of the common checks would fault or park do nothing (R188): the instruction raises no fault
and never parks. -/
def Run.softly (r : Run) (p : Pro) : Run :=
  let j := ((r.early p).judgeEmpty p).judgeSound p
  let full (l : Nat) : Bool := match r.o.g.p with
    | none => true
    | some n => !eGet (r.L l).pE n
  { r with on := j.good.filter (fun l => full l && (r.waits p l).isEmpty), pops := (r.popRegs p).map r.T.portOf }

/-- R188: a translation that misses, fails or finds ATTR 1 or 2 discards the prefetch. A page of a peer takes it over the fabric
(R376), and keeps what it brings where the page has FMODE 2 (R377). -/
def execPf (o : Ops) (msc : Bool) (span : Nat) (off : Int) (s : State) : Host.Outcome State Fault Refusal :=
  match startRun o { d := .none } s with
  | none => .fault .noCohort
  | some r =>
    let r := r.softly { d := .none }
    let acc := r.good.filterMap (fun l => match r.s0.translate r.t r.c (r.xab off l) .load with
      | .hit e pa => if pteAttr e.pte == 0 then some (Acc.mk l (r.xab off l) e pa) else none
      | _ => none)
    .next ({ r with s := acc.foldl (fun s a => s.send { r.flight .pf a with
        size := 1, span := span, fillL1 := !msc && (pteFmode a.e.pte == 0 || pteFmode a.e.pte == 2), after := s.acqAfter r.t r.c a.l }) r.s } : Run).finish

/-! ### Local memory -/

/-- SPLIT of a local address that operand `a` gives (R161, R97). -/
def localFault (T : Team) (a : Opnd) (x : Word) : Option FltRec :=
  if x.toNat < T.locSize then none else some { cls := 0x07, reason := 0x02, addr := x, detail := specOf a }

/-- LOCK of a local store-like access, at physical offsets (R30, R410). -/
def Run.locLock (r : Run) (swz size : Nat) (onlyDst : Bool) (x : Word) : Option FltRec :=
  lockFault (r.s0.core r.core) (.loc r.t) x (phys swz x.toNat) size onlyDst

/-- A local access that waits at the unit of its team (R181, R189). -/
def Flight.isLocal (f : Flight) : Bool := f.kind == .ldl || f.kind == .stl || f.kind == .latom || f.onPresence

/-- What the next local access of some lanes has to follow at the unit (R181): their accesses that wait there, and an acquire (R185). -/
def Run.unitWaits (r : Run) (ls : List Nat) : List Wait :=
  ls.flatMap (fun l => (r.s0.ofLane r.t r.c l).filterMap (fun f =>
    if f.isLocal && f.stage == 0 then some (Wait.perf f.id 101) else none)) ++ r.acqWaits ls

/-- Local accesses of the instruction are sent to the unit, where each waits for its turn: some lane of it has one there already or an
open acquire (R181, R185, R186, R189). Else the unit performs them at once. -/
def Run.unitLater (r : Run) (ls : List Nat) : Bool := !(r.unitWaits ls).isEmpty

/-- Alignment and range of the local addresses (R184, R161). -/
def Run.localChecks (r : Run) (ls : List Nat) (size : Nat) (x : Nat → Word) : Run :=
  (r.check ls (fun l => alignFault size (x l))).check ls (fun l => localFault r.T r.o.a.op (x l))

/-- A local access as it is sent to the unit of its own team; `pa` is the physical offset. -/
def Run.locFlight (r : Run) (kind : FKind) (l swz : Nat) (x : Word) : Flight :=
  { id := 0, kind := kind, team := r.t, crs := r.c, lane := l, core := r.core, helper := !r.live l, va := x,
    pa := phys swz x.toNat, peer := r.t + 1, swz := swz, ipc := r.ip, ins := r.s0.nextId, after := r.s0.acqAfter r.t r.c l }

/-- A local load in the lanes that perform it (R180, R185): an absent line parks the course, or with NW raises EMPTY. It follows what its
lane has waiting at the unit (R181). -/
def execLdl (o : Ops) (m : LocM) (s : State) : Host.Outcome State Fault Refusal :=
  withRun o {} s (fun r =>
    let size := lsBytes m.size
    let r := r.localChecks r.good size (r.xab m.off)
    let at' (l : Nat) : Nat := phys m.swz (r.xab m.off l).toNat
    let absent := r.good.filter (fun l => r.T.absent.contains (at' l / 64))
    let ws := if m.nw then [] else absent.map (fun l => Wait.line r.t (at' l / 64))
    if !ws.isEmpty then r.park ws
    else
      let later := r.unitLater r.good
      let r := r.check absent (fun l => some { cls := 0x05, reason := 0x04, detail := at' l / 64 })
      let r := r.check r.good (fun l => if r.T.locBad (at' l) size then
        some { cls := 0x17, reason := 0x05, addr := r.xab m.off l, detail := specOf r.o.a.op } else none)
      let f (l : Nat) : Flight :=
        if later then { r.locFlight .ldl l m.swz (r.xab m.off l) with size := size, sext := lsSigned m.size, dest := r.destOf l }
        else
          { id := 0, kind := .load, team := r.t, crs := r.c, lane := l, core := r.core, helper := !r.live l,
            dest := r.destOf l, stage := 1, ipc := r.ip,
            val := loadExt size (lsSigned m.size) (r.T.locRead (at' l) size) }
      { r with s := r.good.foldl (fun s l => s.send (f l)) r.s }.finish)

/-- A local store (R28, R186), which is posted: it never waits in the course; lanes store in ascending order. -/
def execStl (o : Ops) (m : LocM) (s : State) : Host.Outcome State Fault Refusal :=
  withRun o { d := .none, helps := false } s (fun r =>
    let size := lsBytes m.size
    let x := r.xab m.off
    let r := r.localChecks r.goodLive size x
    let later := r.unitLater r.goodLive
    let r := r.check r.goodLive (fun l => r.locLock m.swz size false (x l))
    { r with s := r.goodLive.foldl (fun s l =>
        if later then s.send { r.locFlight .stl l m.swz (x l) with size := size, data := r.cc l }
        else s.modTeam r.t (fun T => T.locWrite (phys m.swz (x l).toNat) size (r.cc l).toNat)) r.s }.finish)

/-- POS and OFFSET of a remote-local address (R162). -/
def remPos (x : Word) : Nat := wfld x 56 8
/-- OFFSET of a remote-local address. -/
def remOff (x : Word) : Nat := wfld x 0 32

/-- The checks of a remote-local address (R162). -/
def remoteFault (T : Team) (a : Opnd) (x : Word) : Option FltRec :=
  if T.gangsize ≤ remPos x then some { cls := 0x0A, reason := 0x05, addr := x }
  else if wfld x 32 24 ≠ 0 || T.locSize ≤ remOff x then some { cls := 0x07, reason := 0x02, addr := x, detail := specOf a }
  else none

/-- The team of the issuer's gang at a position, none when that member has left; a team outside a gang is its own (R162). -/
def State.gangTeam (s : State) (t pos : Nat) : Option Nat :=
  let T := s.team t
  if T.gang = 0 then some t else (s.teams.find? (fun p => p.2.gang == T.gang && p.2.gangpos == pos)).map (·.1)

/-- The target of a remote-local access: the number of the team plus 1, or 0 where the member has left
(notes/assumptions/30). -/
def State.target (s : State) (t pos : Nat) : Nat :=
  match s.gangTeam t pos with
  | none => 0
  | some u => u + 1

/-- LOCK of a remote-local store or atomic on the issuing core (R410; notes/assumptions/71). The range is held with the target team
beside its position, so that an equal position of another gang on the core is another target: the model's choice
(notes/assumptions/84). -/
def Run.remLock (r : Run) (swz size : Nat) (x : Word) : Option FltRec :=
  lockFault (r.s0.core r.core) (.rem (r.s0.target r.t (remPos x)) (remPos x)) x (phys swz (remOff x)) size false

/-- A remote-local access as it leaves the core; `pa` is the physical offset in the target's local memory. -/
def Run.remFlight (r : Run) (kind : FKind) (l swz : Nat) (x : Word) : Flight :=
  { id := 0, kind := kind, team := r.t, crs := r.c, lane := l, core := r.core, helper := !r.live l, va := x,
    pa := phys swz (remOff x), peer := r.s0.target r.t (remPos x), swz := swz, ipc := r.ip, ins := r.s0.nextId,
    after := r.s0.acqAfter r.t r.c l }

/-- R185: a remote load waits at the target, never in the course. -/
def execLdr (o : Ops) (m : LocM) (s : State) : Host.Outcome State Fault Refusal :=
  withRun o {} s (fun r =>
    let size := lsBytes m.size
    let x := r.xab m.off
    let r := (r.check r.good (fun l => alignFault size (x l))).check r.good (fun l => remoteFault r.T r.o.a.op (x l))
    { r with s := r.good.foldl (fun s l => s.send { r.remFlight .ldr l m.swz (x l) with
        size := size, sext := lsSigned m.size, dest := r.destOf l }) r.s }.finish)

/-- R186, R182. -/
def execStr (o : Ops) (m : LocM) (s : State) : Host.Outcome State Fault Refusal :=
  withRun o { d := .none, helps := false } s (fun r =>
    let size := lsBytes m.size
    let x := r.xab m.off
    let r := (r.check r.goodLive (fun l => alignFault size (x l))).check r.goodLive (fun l => remoteFault r.T r.o.a.op (x l))
    let r := r.check r.goodLive (fun l => r.remLock m.swz size (x l))
    { r with s := r.goodLive.foldl (fun s l => s.send { r.remFlight .str l m.swz (x l) with
        size := size, data := r.cc l }) r.s }.finish)

/-- Whether a comparison of the operation's type is signed, and float element formats of an atomic. -/
def atomMinMax (ty : Ty) (isMax : Bool) (a b : Nat) : Nat :=
  let less := decide (valI ty a < valI ty b)
  if isMax then (if less then b else a) else (if less then a else b)

/-- The new word of an atomic or a near reduction (R189, R221, R233): `old`, operand and compare value as patterns of the
type; float elements with RNE, canonical NaNs and no flag. -/
def aopNew (op : AOp) (ty : Ty) (old b c : Nat) : Nat :=
  let w := tyW ty * tyN ty
  let flt (f : Nat → Nat → FRes) : Nat :=
    packBits (tyW ty) ((idxs ty).map (fun i => (f (fld old (tyW ty * i) (tyW ty)) (fld b (tyW ty * i) (tyW ty))).1))
  match op with
  | .add => (old + b) % 2 ^ w
  | .and => old &&& b
  | .or => old ||| b
  | .xor => old ^^^ b
  | .min => atomMinMax ty false old b
  | .max => atomMinMax ty true old b
  | .swap => b
  | .cas => if old = c then b else old
  | .fadd => flt (faddE (tyFmt ty) .rne false false)
  | .fmin => flt (fminE (tyFmt ty) false false false)
  | .fmax => flt (fminE (tyFmt ty) false true false)

/-- The pattern of an operand for an atomic's type: an immediate is expanded under R46. -/
def opPattern (ty : Ty) (x : Opnd) (w : Word) : Nat :=
  packBits (tyW ty) ((idxs ty).map (fun i => elem ty x w i))

/-- Size in bytes of a type. -/
def tyBytes (ty : Ty) : Nat := tyW ty * tyN ty / 8

/-- The value that an atomic returns (R108). -/
def extOld (ty : Ty) (old : Nat) : Word := place ty ((idxs ty).map (fun i => fld old (tyW ty * i) (tyW ty)))

/-- Perform a local atomic at a team's unit: the old value and the state after it (R189). -/
def State.latomAt (s : State) (t a : Nat) (op : AOp) (ty : Ty) (b c : Nat) : Nat × State :=
  let old := (s.team t).locRead a (tyBytes ty)
  (old, s.modTeam t (fun T => T.locWrite a (tyBytes ty) (aopNew op ty old b c)))

/-- R189: local atomics are performed at the unit in ascending lane order, or wait there for their line and their turn; remote ones go
to the target's unit. -/
def execLatom (o : Ops) (m : LatomM) (s : State) : Host.Outcome State Fault Refusal :=
  withRun o { helps := false } s (fun r =>
    let size := tyBytes m.ty
    let x := r.xa0 m.off
    let ls := r.goodLive
    let r := r.check ls (fun l => alignFault size (x l))
    let r := r.check ls (fun l => if m.rem then remoteFault r.T r.o.a.op (x l) else localFault r.T r.o.a.op (x l))
    let later := !m.rem && r.unitLater r.goodLive
    let r := r.check ls (fun l => if m.rem then r.remLock m.swz size (x l) else r.locLock m.swz size false (x l))
    let r := r.check ls (fun l => if !m.rem && r.T.locBad (phys m.swz (x l).toNat) size then
      some { cls := 0x17, reason := 0x05, addr := x l, detail := specOf o.a.op } else none)
    let pb (l : Nat) : Nat := opPattern m.ty o.b.op (r.b l)
    let pc (l : Nat) : Nat := opPattern m.ty o.c.op (r.cc l)
    { r with s := r.goodLive.foldl (fun s l =>
        let f := { (if m.rem then r.remFlight .latomR l m.swz (x l) else r.locFlight .latom l m.swz (x l)) with
          dest := r.destOf l, aop := m.op, ty := m.ty, size := size, data := wordOf (pb l), cmp := wordOf (pc l) }
        if m.rem || later || (s.team r.t).absent.contains (f.pa / 64) then s.send f
        else
          let p := s.latomAt r.t f.pa m.op m.ty (pb l) (pc l)
          p.2.send { f with kind := .load, stage := 1, val := extOld m.ty p.1 }) r.s }.finish)

/-- The block of presence bits at X (R190). -/
def Run.presChecks (r : Run) (ls : List Nat) (x : Nat → Word) : Run :=
  (r.check ls (fun l => if (x l).toNat % 4096 = 0 then none
    else some { cls := 0x0C, reason := 0x01, addr := x l, detail := 4096 })).check ls (fun l => localFault r.T r.o.a.op (x l))

/-- The presence bits of the 64 lines from an address on (R190); a line beyond local memory is not absent. -/
def Team.presenceWord (T : Team) (x : Nat) : Word := wordOf (maskOf ((List.range 64).filter (fun m => !T.absent.contains (x / 64 + m))))

/-- The lines that a mask names. -/
def presLines (x mask : Word) : List Nat := (bitList 64 mask.toNat).map (fun m => x.toNat / 64 + m)

/-- `lpres.clr` (1) and `lpres.set` (2) on some lines (R190). -/
def Team.presence (T : Team) (k : Nat) (ls : List Nat) : Team :=
  { T with absent := if k = 1 then dedupNat (T.absent ++ ls) else T.absent.filter (fun x => !ls.contains x) }

/-- The team as one of its lanes sees its presence bits: behind what the lane itself has under way to them (R181; notes/assumptions/67). -/
def Run.seenPresence (r : Run) (l : Nat) : Team :=
  (r.s0.ofLane r.t r.c l).foldl (fun T f => match f.kind with
    | .lpres k => T.presence k (presLines f.va f.data)
    | _ => T) r.T

/-- R190: the presence bits of 64 lines, at once (notes/assumptions/67). -/
def execLpresQ (o : Ops) (off : Int) (s : State) : Host.Outcome State Fault Refusal :=
  withRun o { d := .now } s (fun r =>
    let r := r.presChecks r.good (r.xa0 off)
    (r.write (fun l => { val := (r.seenPresence l).presenceWord (r.xa0 off l).toNat })).finish)

/-- LOCK of lpres on a named line (R190). -/
def Run.presLock (r : Run) (x mask : Word) : Option FltRec :=
  ((presLines x mask).filterMap (fun ln => lockFault (r.s0.core r.core) (.loc r.t) x (ln * 64) 64 true)).head?

/-- lpres.clr and lpres.set (R190): at once, or behind what its lanes have waiting at the unit (R181); LOCK is judged at issue. -/
def lpresRun (o : Ops) (off : Int) (s : State) (k : Nat) : Host.Outcome State Fault Refusal :=
  withRun o { d := .none, helps := false } s (fun r =>
    let x := r.xa0 off
    let r := r.presChecks r.goodLive x
    let later := r.unitLater r.goodLive
    let r := r.check r.goodLive (fun l => r.presLock (x l) (r.b l))
    { r with s := r.goodLive.foldl (fun s l =>
        if later then s.send { r.locFlight (.lpres k) l 0 (x l) with size := 4096, data := r.b l }
        else s.modTeam r.t (fun T => T.presence k (presLines (x l) (r.b l)))) r.s }.finish)

/-- R190. -/
def execLpresClr (o : Ops) (off : Int) (s : State) : Host.Outcome State Fault Refusal := lpresRun o off s 1
/-- R190. -/
def execLpresSet (o : Ops) (off : Int) (s : State) : Host.Outcome State Fault Refusal := lpresRun o off s 2

/-! ### TLB and generation control -/

/-- A value that lands later in the destination of the lane that performs the instruction, once some accesses are performed. -/
def Run.owe (r : Run) (l : Nat) (v : Word) (after : List (Nat × Nat)) : Run :=
  { r with s := r.s.send { id := 0, kind := .load, team := r.t, crs := r.c, lane := l, core := r.core,
                           dest := r.destOf l, stage := 1, val := v, ipc := r.ip, after := after } }

/-- The cores and columns that a tlbi covers (R191). -/
def tlbiCores (core : Nat) : Scope → List Nat
  | .core => [core]
  | .col => (List.range 12).map (fun i => coreCol core * 12 + i)
  | _ => List.range 768

/-- The columns that a tlbi covers. -/
def tlbiCols (core : Nat) : Scope → List Nat
  | .core => []
  | .col => [coreCol core]
  | _ => List.range 64

/-- The entries that a tlbi invalidates (R191). -/
def tlbiHits (kind asid : Nat) (va : Word) (e : TlbEnt) : Bool :=
  match kind with
  | 0 => e.asid == asid
  | 1 => e.covers asid (va56 va)
  | _ => true

/-- ENGINE 0x04 of an ASID operand beyond 16 bits (R191, R192). -/
def asidFault (a : Word) : Option FltRec := if wfld a 16 48 ≠ 0 then some { cls := 0x10, reason := 0x04 } else none

/-- The access goes through a translation. -/
def Flight.translates (f : Flight) : Bool := f.isGlob || f.kind == .gst || f.kind == .fred || f.kind == .launch

/-- The accesses that an invalidation of an address space's entries waits for, all of them with `all`: those that have not yet left
one of the cores (R191). -/
def State.stillInCore (s : State) (cores : List Nat) (all : Bool) (asid : Nat) : List (Nat × Nat) :=
  (s.flights.filter (fun f => f.translates && f.stage == 0 && cores.contains f.core && (all || f.asid == asid))).map (fun f => (f.id, 101))

/-- Invalidate TLB entries and the whole L1 of some cores, and entries of some column TLBs with the walk caches; `gone` names the
address spaces whose walks in flight in the columns of those cores are discarded, so that their requesters walk again (R191).
Results of walks that parked courses have not yet used go too, those that found no entry among them (R172). -/
def State.dropTlb (s : State) (cores cols : List Nat) (hit : TlbEnt → Bool) (gone : Nat → Bool) : State :=
  let stale (w : WalkRes) : Bool := match w.ent with
    | some e => hit e
    | none => gone w.asid
  let forget (C : Course) : Course := { C with walked := C.walked.filter (fun w => !stale w) }
  let core (k : Core) : Core := { k with tlb := k.tlb.filter (fun e => !hit e), l1 := [] }
  let col (k : Column) : Column :=
    { k with tlb := k.tlb.filter (fun e => !hit e), wcache := k.wcache.filter (fun e => !gone e.asid) }
  let discard (n : Nat) (k : Column) : Column :=
    if cores.any (fun c => coreCol c == n) then { k with walks := k.walks.filter (fun w => !gone w.asid) } else k
  { s with
    cores := s.cores.map (fun (p : Nat × Core) => if cores.contains p.1 then (p.1, core p.2) else p)
    columns := s.columns.map (fun (p : Nat × Column) => (p.1, discard p.1 (if cols.contains p.1 then col p.2 else p.2)))
    teams := s.teams.map (fun (p : Nat × Team) =>
      if cores.contains p.2.core then (p.1, { p.2 with courses := p.2.courses.map forget }) else p) }

/-- R191. -/
def execTlbi (o : Ops) (kind : Nat) (scope : Scope) (s : State) : Host.Outcome State Fault Refusal :=
  withRun o { priv := some (0x01, 0), helps := false } s (fun r => r.once (fun l => asidFault (r.a l)) (fun r l =>
    let asid := wfld (r.a l) 0 16
    let cores := tlbiCores r.core scope
    let r := r.owe l 0 (r.s0.stillInCore cores (kind == 2) asid)
    { r with s := r.s.dropTlb cores (tlbiCols r.core scope) (tlbiHits kind asid (r.b l)) (fun x => kind == 2 || x == asid) }.finish))

/-- Set the generation of an ASID in every column, at once (R32, R173; notes/assumptions/72). -/
def State.setGen (s : State) (asid g : Nat) : State :=
  (List.range 64).foldl (fun s c => s.modCol c (fun k => { k with gens := mapPut asid g k.gens })) s

/-- R32, R192: the generation advances; at a wrap every entry of the ASID and every L1 line goes. -/
def execAsgen (o : Ops) (s : State) : Host.Outcome State Fault Refusal :=
  withRun o { priv := some (0x01, 0), helps := false } s (fun r => r.once (fun l => asidFault (r.a l)) (fun r l =>
    let asid := wfld (r.a l) 0 16
    let g := (r.s0.gen r.col asid + 1) % 4096
    let r := r.owe l (wordOf g) []
    let s := r.s.setGen asid g
    { r with s := if g = 0 then s.dropTlb (List.range 768) (List.range 64) (fun e => e.asid == asid) (· == asid) else s }.finish))

end Sys2Proof.Machine
end

