-- ==== Sys2Proof/Machine/Regs.lean ====
section
/-! DEFINITION. The column control page and the registers of column 0 (R207, R362 to R366, R369, R373, R381, R382, R397, R402,
R405, R408): what a load of one returns and what a store to one does (R11). -/

namespace Sys2Proof.Machine

/-- `v` with the fields of `old` in the bits of `keep`. -/
def keepBits (keep old v : Nat) : Nat := (old &&& keep) ||| (v &&& (ones 64 - keep))

/-- A field takes a new value when it lies within its encodings (R11). -/
def takeFld (old lo n v : Nat) (ok : Bool) : Nat := if ok then setFld old lo n v else old

/-- REPCTL (R207, R11): the fields that the value names legally; clearing EN returns every region to memory-side mode
(R206). -/
def State.writeRepctl (s : State) (col : Nat) (v : Word) : State :=
  let epoch := wfld v 48 8
  let old := (s.column col).repctl.toNat
  let x := takeFld old 48 8 epoch (10 ≤ epoch && epoch ≤ 40)
  let x := setFld (setFld (setFld x 32 16 (wfld v 32 16)) 16 16 (wfld v 16 16)) 0 1 (wfld v 0 1)
  let s := s.modCol col (fun k => { k with repctl := wordOf x, halved := s.cycle col / 2 ^ fld x 48 8 })
  if wfld v 0 1 = 1 then s
  else ((s.column col).counters.filter (·.repl)).foldl (fun s c => s.unreplicate col c.region) s

/-- CONECTL (R366): the thresholds are taken together, CAP on its own. -/
def writeConectl (old : Nat) (v : Word) : Nat :=
  let ok := wfld v 8 8 < wfld v 16 8 && wfld v 16 8 < wfld v 24 8
  let x := if ok then setFld old 8 24 (wfld v 8 24) else old
  setFld x 0 2 (wfld v 0 2)

/-- The drain of a core stops (R362): forced saves that have not written their context are given up, gangs as a whole. -/
def State.stopDrain (s : State) (core : Nat) : State :=
  let hit := s.teams.filter (fun p => p.2.core == core && p.2.saving && !p.2.evicted)
  let gangs := (hit.map (fun p => p.2.gang)).filter (· != 0)
  let held := fun (T : Team) => T.gang != 0 && s.teams.any (fun q => q.2.gang == T.gang && q.2.saveWid.isSome)
  State.modCore { s with teams := s.teams.map (fun (p : Nat × Team) =>
    if p.2.saveWid.isNone && !held p.2 && (hit.any (fun q => q.1 == p.1) || gangs.contains p.2.gang)
    then (p.1, { p.2 with saving := false }) else p) } core (fun k => { k with draining := none })

/-- DRAINREQ (R362): a slot whose bit is written 0 is open, and a drain of it that runs stops. -/
def State.writeDrainreq (s : State) (col : Nat) (v : Word) : State :=
  let new := wfld v 0 12
  let s := s.modCol col (fun k => { k with drainreq := new })
  (List.range 12).foldl (fun s i => if bitN new i then s else s.stopDrain (col * 12 + i)) s

/-- Working slots of a column (R18, R402). -/
def Column.slots (k : Column) : List Nat := bitList 12 k.cmap

/-- DUTY (R369): nothing while LOCK is set; ATOM stays 1 in a column without a working core. -/
def Column.writeDuty (k : Column) (v : Word) : Column :=
  if bitN k.duty 8 then k
  else { k with duty := setFld (wfld v 0 5) 8 1 (wfld v 8 1) }

/-- DUTY as it reads (R369). -/
def Column.dutyReg (k : Column) : Nat := if k.slots.isEmpty then k.duty ||| 2 else k.duty

/-- The word that a wait entry of a column core watches. -/
def State.watched (s : State) (pa : Nat) : Word := if s.beyondWindow pa then 0 else wordOf (memRead s.mem pa 8)

/-- A wait of a column core has ended (R363). -/
def State.waitOver (s : State) (col : Nat) (v : Word) : State :=
  (s.modCol col (fun k => { k with waitres := v })).setInt col 0

/-- The pending wait entry of a column core (R363): its home and the entry. -/
def State.columnEntry (s : State) (col : Nat) : Option (Nat × WaitEnt) :=
  s.columns.findSome? (fun p => (p.2.waits.find? (fun e => e.who.isNone && e.col == col)).map (fun e => (p.1, e)))

/-- A write of WAITADDR (R363). -/
def State.writeWaitaddr (s : State) (col : Nat) (v : Word) : State :=
  let a := v.toNat
  if a % 8 != 0 || !(isHbm a || isWindow a) then s.modCol col (fun k => { k with waitres := 0 })
  else
    let s := match s.columnEntry col with
      | none => s
      | some (h, e) => (s.modCol h (fun k => { k with waits := k.waits.filter (fun x => x != e) })).waitOver col
          (if e.ended then e.val else s.watched e.pa)
    let s := s.modCol col (fun k => { k with waitaddr := v })
    let home := s.home a
    if s.watched a != (s.column col).waitval || 1024 ≤ (s.column home).waitUse || s.beyondWindow a then s.waitOver col (s.watched a)
    else s.modCol home (fun k => { k with waits := k.waits ++ [{ pa := a, asid := 0, who := none, col := col, deadline := none }] })

/-- A write of WAKE wakes every entry on the word (R225, R363). -/
def State.writeWake (s : State) (col : Nat) (v : Word) : State :=
  let s := s.modCol col (fun k => { k with wake := v })
  let w := wordBase v.toNat
  if isHbm w || isWindow w then s.wakeWords (s.home w) [w] else s

/-- A write of TASKDONE (R364): the task counts as the node's one team. A write that names no task handed to the column is discarded and
counted. -/
def State.writeTaskdone (s : State) (col : Nat) (v : Word) : State :=
  let node := v.toNat - wfld v 0 1
  if (s.column col).tasks.contains node then
    { s.modCol col (fun k => { k with taskdone := v, tasks := k.tasks.filter (· != node) }) with
      pool := s.pool.map (fun n => if n.node == node then
        { n with taskOut := false, retired := n.retired + 1, failed := if wfld v 0 1 = 1 then some 0x30 else n.failed } else n) }
  else s.modCol col (fun k => { k with ldisc := (k.ldisc + 1) % 2 ^ 64 })

/-- Enabled arenas of every column. -/
def State.arenasOn (s : State) : List Arena := s.columns.flatMap (fun p => (p.2.arenas.map (·.2)).filter (·.en))

/-- An arena of a column. -/
def Column.arena (k : Column) (n : Nat) : Arena := mapGet {} n k.arenas

/-- The arena may be enabled (R365). -/
def State.arenaOk (s : State) (base : Word) (asid size : Nat) : Bool :=
  size != 0 && canonical base && base.toNat % 65536 == 0 &&
  !s.arenasOn.any (fun a => a.asid == asid && a.base.toNat < base.toNat + size * 65536 && base.toNat < a.base.toNat + a.size * 65536)

/-- A write of an arena word (R365). -/
def State.writeArena (s : State) (col n : Nat) (hi : Bool) (v : Word) : State :=
  let a := (s.column col).arena n
  let put (x : Arena) : State := s.modCol col (fun k => { k with arenas := mapPut n x k.arenas })
  let on := wfld v 40 1 = 1
  if !hi then (if a.en then s else put { a with base := v })
  else if a.en then (if on then s else put { a with asid := wfld v 48 16, en := false, size := wfld v 16 24, blocks := [] })
  else if !on then put { a with asid := wfld v 48 16, size := wfld v 16 24 }
  else if s.arenaOk a.base (wfld v 48 16) (wfld v 16 24) then
    put { a with asid := wfld v 48 16, en := true, size := wfld v 16 24, blocks := [] }
  else s

/-- Word 1 of an arena. -/
def Arena.hiWord (a : Arena) : Nat := a.asid * 2 ^ 48 + bit a.en * 2 ^ 40 + a.size * 2 ^ 16

/-- A write of a pin map word (R408). -/
def State.writePinmap (s : State) (n : Nat) (hi : Bool) (v : Word) : State :=
  let e := mapGet (0, 0) n s.pinmap
  let en := wfld e.2 40 1 = 1
  let w0 := wordOf (wfld v 16 36 * 2 ^ 16)
  let w1 (b : Nat) : Word := wordOf (wfld v 48 6 * 2 ^ 48 + b * 2 ^ 40 + wfld v 16 24 * 2 ^ 16)
  let put (x : Word × Word) : State := { s with pinmap := mapPut n x s.pinmap }
  let base := wfld e.1 16 36 * 65536
  let size := wfld v 16 24 * 65536
  if !hi then (if en then s else put (w0, e.2))
  else if wfld v 40 1 = 0 then put (e.1, w1 0)
  else if en then s
  else if size = 0 || 0xE_0000_0000_0000 < base + size ||
      s.pinRanges.any (fun r => r.1 < base + size && base < r.1 + r.2.1) then s
  else put (e.1, w1 1)

/-- A write of a GWIN word (R382); the window's second word is read-only. Enabling configures the group from scratch. -/
def State.writeGwin (s : State) (g : Nat) (hi : Bool) (v : Word) : State :=
  let w := mapGet {} g s.gwins
  let on := wfld v 0 1 = 1
  let base := wfld v 16 36
  let sz := wfld v 52 10
  if hi || (w.en && on) then s
  else if on then
    { s with gwins := mapPut g { en := true, lost := false, base := base, sizem1 := sz, applied := 0 } s.gwins,
             groups := mapMod {} g (fun x => { members := x.members }) s.groups }
  else { s with gwins := mapPut g { w with en := false, base := base, sizem1 := sz } s.gwins }

/-- Word 0 of a GWIN entry. -/
def Gwin.word0 (w : Gwin) : Nat := w.sizem1 * 2 ^ 52 + w.base * 2 ^ 16 + 2 * bit w.lost + bit w.en

/-- HNQCTL as a store leaves it (R373). -/
def writeHnqctl (old : Nat) (v : Word) : Nat :=
  let n := wfld v 0 16
  takeFld (setFld old 32 16 (wfld v 32 16)) 0 16 n (16 ≤ n && n ≤ 4096)

/-- RASCTL as a store leaves it (R402). -/
def writeRasctl (old : Nat) (v : Word) : Nat :=
  let w := wfld v 8 8
  takeFld (setFld old 0 1 (wfld v 0 1)) 8 8 w (20 ≤ w && w ≤ 40)

/-- A record of RASLOG as it reads (R402). -/
def RasRec.word (r : RasRec) : Nat := 2 ^ 63 + r.unit * 2 ^ 60 + r.kind * 2 ^ 58 + r.loc

/-- The external-interrupt line of a column core (R362): an enabled INTSTAT bit is set. -/
def Column.extInt (k : Column) : Bool := (k.intstat &&& k.inten) != 0

/-- A write of INTEN (R362): enabling a bit that is set sends the column's vector (R371). -/
def State.writeInten (s : State) (col : Nat) (v : Word) : State :=
  let k := s.column col
  let s := s.modCol col (fun k => { k with inten := wfld v 0 4 })
  if (List.range 4).any (fun b => bitN k.intstat b && !bitN k.inten b && bitN v.toNat b) then { s with vectors := s.vectors ++ [col] } else s

/-- FSTAT (R381): the kept fields with QUIESCED. -/
def State.fstatReg (s : State) : Nat := setFld s.fstat 47 1 (bit (s.quiesce.phase != .none))

/-- What a load of SUSPQ takes next: a supervisor course's handle, or where FAULT of DUTY names the column core, a user course's from the
supervisor course queue (R364, R370; notes/assumptions/87). -/
def Column.suspNext (k : Column) : Option Nat :=
  match k.suspq with
  | h :: _ => some h
  | [] => if bitN k.duty 2 then (k.scq.head?).map (·.handle) else none

/-- The column after a load of SUSPQ. -/
def Column.suspPop (k : Column) : Column :=
  match k.suspq with
  | _ :: r => { k with suspq := r }
  | [] => if bitN k.duty 2 then { k with scq := k.scq.drop 1 } else k

/-- BOOTSTAT (R397). -/
def State.bootstat (s : State) : Nat := s.boot.svn * 2 ^ 32 + s.boot.error * 2 ^ 8 + s.boot.stage

/-- A store of an aligned 64-bit word to a register of column `col` (R11, R362). A read-only or absent register ignores it. HNQBASE takes
every multiple of 4,096, one of 2^48 and more too, which R373 does not shut out and R360 gives no host address: the model's choice
(notes/assumptions/98). -/
def State.regWrite (s : State) (col off : Nat) (v : Word) : State :=
  if off = 0x000 then s.writeRepctl col v
  else if off = 0x010 then s.modCol col (fun k => { k with conectl := writeConectl k.conectl v })
  else if off = 0x020 then s.writeDrainreq col v
  else if off = 0x028 then s.modCol col (·.writeDuty v)
  else if off = 0x030 then s.modCol col (fun k => { k with intstat := k.intstat - (k.intstat &&& wfld v 0 4) })
  else if off = 0x038 then s.writeInten col v
  else if off = 0x040 then s.writeWaitaddr col v
  else if off = 0x048 then s.modCol col (fun k => { k with waitval := v })
  else if off = 0x058 then s.writeWake col v
  else if off = 0x068 then s.writeTaskdone col v
  else if 0x080 ≤ off && off < 0x180 then s.writeArena col ((off - 0x080) / 16) (off % 16 == 8) v
  else if 0x400 ≤ off && off < 0x440 then s.writeGwin (col * 4 + (off - 0x400) / 16) (off % 16 == 8) v
  else if off = 0x500 then s.modCol col (fun k => { k with rasctl := wordOf (writeRasctl k.rasctl.toNat v) })
  else if col != 0 then s
  else if off = 0x200 then (if v.toNat % 4096 = 0 then { s with hnqbase := v } else s)
  else if off = 0x208 then { s with hnqctl := wordOf (writeHnqctl s.hnqctl.toNat v) }
  else if off = 0x300 then (if wfld v 0 16 = 0 then s else { s with ftimer := wfld v 0 16 })
  else if off = 0x310 then { s with migctl := wfld v 0 16 }
  else if off = 0x600 then (if 500 ≤ wfld v 0 16 && wfld v 0 16 ≤ 2600 then { s with pwrlim := wfld v 0 16 } else s)
  else if 0x700 ≤ off && off < 0xB00 then s.writePinmap ((off - 0x700) / 16) (off % 16 == 8) v
  else s

/-- What a register of column `col` holds, without the effect of reading it. -/
def State.regPeek (s : State) (col off : Nat) : Nat :=
  let k := s.column col
  if off = 0x000 then k.repctl.toNat
  else if off = 0x008 then k.cone
  else if off = 0x010 then k.conectl
  else if off = 0x018 then k.ldisc
  else if off = 0x020 then k.drainreq
  else if off = 0x028 then k.dutyReg
  else if off = 0x030 then k.intstat
  else if off = 0x038 then k.inten
  else if off = 0x040 then k.waitaddr.toNat
  else if off = 0x048 then k.waitval.toNat
  else if off = 0x050 then k.waitres.toNat
  else if off = 0x058 then k.wake.toNat
  else if off = 0x060 then k.taskq.head?.getD 0
  else if off = 0x068 then k.taskdone.toNat
  else if off = 0x070 then (match k.suspNext with | none => 0 | some h => 2 ^ 63 + h)
  else if 0x080 ≤ off && off < 0x180 then
    (let a := k.arena ((off - 0x080) / 16)
     if off % 16 = 8 then a.hiWord else a.base.toNat)
  else if 0x400 ≤ off && off < 0x440 then
    (let w := mapGet {} (col * 4 + (off - 0x400) / 16) s.gwins
     if off % 16 = 8 then w.applied else w.word0)
  else if off = 0x500 then k.rasctl.toNat
  else if off = 0x508 then k.rasstat.toNat
  else if off = 0x510 then (match k.raslog with | [] => 0 | r :: _ => r.word)
  else if off = 0x518 then k.cmap
  else if col != 0 then 0
  else if off = 0x200 then s.hnqbase.toNat
  else if off = 0x208 then s.hnqctl.toNat
  else if off = 0x300 then s.ftimer
  else if off = 0x308 then s.fstatReg
  else if off = 0x310 then s.migctl
  else if off = 0x318 then s.migq.head?.getD 0
  else if off = 0x320 then s.gdisc
  else if off = 0x600 then s.pwrlim
  else if off = 0x608 then s.pwrpeak * 2 ^ 16 + s.pwravg
  else if off = 0x610 then s.bootstat
  else if 0x700 ≤ off && off < 0xB00 then
    (let e := mapGet (0, 0) ((off - 0x700) / 16) s.pinmap
     if off % 16 = 8 then e.2.toNat else e.1.toNat)
  else 0

/-- A load of a register: pops take their record (R362, R381, R402), a read of PWRNOW begins a new peak (R405). -/
def State.regPop (s : State) (col off : Nat) : State :=
  if off = 0x060 then s.modCol col (fun k => { k with taskq := k.taskq.drop 1 })
  else if off = 0x070 then s.modCol col (·.suspPop)
  else if off = 0x510 then s.modCol col (fun k => { k with raslog := k.raslog.drop 1 })
  else if col != 0 then s
  else if off = 0x318 then { s with migq := s.migq.drop 1 }
  else if off = 0x608 then { s with pwrpeak := 0 }
  else s

/-- A load of a register: its value and the state after it. -/
def State.regRead (s : State) (col off : Nat) : Word × State := (wordOf (s.regPeek col off), s.regPop col off)

/-- Column and offset of a control-page address (R360). -/
def ctlPage (pa : Nat) : Option (Nat × Nat) :=
  if 0xF_8000_0010_0000 ≤ pa && pa < 0xF_8000_0010_0000 + 64 * 4096 then
    some ((pa - 0xF_8000_0010_0000) / 4096, (pa - 0xF_8000_0010_0000) % 4096)
  else none

/-- Column and offset of an address in a launch-line page (R336, R360). -/
def linePage (pa : Nat) : Option (Nat × Nat) :=
  if 0xF_8000_0000_0000 ≤ pa && pa < 0xF_8000_0000_0000 + 64 * 4096 then
    some ((pa - 0xF_8000_0000_0000) / 4096, (pa - 0xF_8000_0000_0000) % 4096)
  else none

/-- A load of a launch line or a control page (R207, R336, R362); `simt` says that a SIMT course reads. -/
def State.ioRead (s : State) (simt : Bool) (pa size : Nat) : Word × State :=
  match ctlPage pa with
  | some (c, off) => if size != 8 || off % 8 != 0 || (simt && off = 0) then (0, s) else s.regRead c off
  | none => match linePage pa with
    | some (c, off) => if size = 8 && off % 64 = 0 && off < 256 then (wordOf ((s.column c).launchLen (off / 64)), s) else (0, s)
    | none => (0, s)

/-- A store to a control page (R207, R362). -/
def State.ctlStore (s : State) (simt : Bool) (pa size : Nat) (v : Word) : State :=
  match ctlPage pa with
  | some (c, off) => if size != 8 || off % 8 != 0 || (simt && off = 0) then s else s.regWrite c off v
  | none => s

/-- A store to a launch line that is discarded and counted (R336): another size or offset, or a value that names no record. -/
def State.discardLaunch (s : State) (col : Nat) : State := s.modCol col (fun k => { k with ldisc := (k.ldisc + 1) % 2 ^ 64 })

/-- The launch line that a store of some bytes appends to (R336). -/
def launchAt (pa size : Nat) (v : Word) : Option (Nat × Nat) :=
  match linePage pa with
  | some (c, off) => if size = 8 && off % 64 = 0 && off < 256 && v.toNat % 128 = 0 then some (c, off / 64) else none
  | none => none

end Sys2Proof.Machine
end

