-- ==== Sys2Proof/Machine/MemEvents.lean ====
section
/-! DEFINITION. What happens to an access after it has left the core: walks (R170, R171), refusals (R31, R173 to R175), reads
and writes at the slices (R195 to R199, R205, R208), acknowledgements (R211, R212), replication (R206), and landing
(R23). Each event has a condition, which the list of due events shares. -/

namespace Sys2Proof.Machine

/-! ### Order among accesses -/

/-- The earlier access `g` of the same core, which any access to its line follows: one that a refusal holds (R175), and for a line of a
peer one that the peer has still to perform (R379). -/
def Flight.lineHold (f g : Flight) : Bool :=
  f.core == g.core && f.sameLine g &&
    ((0 < g.tries && g.stage == 0) ||
     (f.fmode != 0 && g.stage < 2 && (g.isLoad || g.kind == .store || g.kind == .atom || g.kind == .nred)))

/-- The earlier access `g` of the same core holds back `f` (R175, R212, R379). -/
def Flight.coreHold (f g : Flight) : Bool :=
  f.lineHold g || (f.core == g.core && f.sameLine g &&
    ((g.kind == .store && g.stage == 0 && (f.isLoad || f.kind == .pf || f.overlaps g)) ||
     (g.kind == .store && g.stage < 2 && f.kind == .atom && f.overlaps g)))

/-- An earlier access holds back `f`; an `nred` is held by none but those of `Flight.lineHold` (R175, R223, R379). -/
def State.held (s : State) (f : Flight) : Bool :=
  s.flights.any (fun g => g.id < f.id && (if f.kind == .nred then f.lineHold g else f.laneHold g || f.coreHold g))

/-- The access may be taken at its slice: what it waits for is performed and nothing holds it back. -/
def State.ready (s : State) (f : Flight) : Bool := f.after.all (fun p => s.performedAt p.1 p.2) && !s.held f

/-- The generation of the access is current (R31); an access that the fabric carries has no such check (R376). -/
def State.genOk (s : State) (f : Flight) : Bool := f.fmode != 0 || f.gen == s.gen (s.home f.pa) f.asid

/-! ### Walks -/

/-- The result of a walk for the courses that wait for it. -/
def walkRes (asid page gen : Nat) : WalkOut → WalkRes
  | .leaf lvl pte => { asid := asid, page := page, ent := some (tlbEntOf asid (page * 2 ^ 16) gen lvl pte), reason := 0, detail := 0 }
  | .bad reason detail => { asid := asid, page := page, ent := none, reason := reason, detail := detail }
  | .memerr => { asid := asid, page := page, ent := none, reason := 0x81, detail := 0, memerr := true }

/-- The course waits for this walk of its own page table. -/
def waitsWalk (T : Team) (C : Course) (col : Nat) (w : Walk) : Bool :=
  coreCol T.core == col && T.ptroot == w.root && (C.parked.getD []).contains (.walk w.asid w.page)

/-- The table entries of a walk stand in the column's walk cache (R170), whose contents no walk's outcome depends on, since a walk
sees every write performed before it (R166; notes/assumptions/18). -/
def Column.cacheTables (k : Column) (asid : Nat) (ts : List (Nat × Nat)) : Column :=
  let new := ts.map (fun p => TabEnt.mk asid p.1 p.2)
  { k with wcache := k.wcache.filter (fun x => !new.any (fun y => y.asid == x.asid && y.addr == x.addr)) ++ new }

/-- A walk ends (R166, R170, R171): a leaf enters the column TLB and the TLBs of the cores whose courses wait. One that began under
an older generation is discarded, and its requesters walk again (R172, R173). -/
def State.endWalk (s : State) (col : Nat) (w : Walk) : State :=
  let g := s.gen col w.asid
  let r := walkRes w.asid w.page g (s.walk w.root (w.page * 2 ^ 16))
  let cores := dedupNat ((s.teams.filter (fun p => p.2.courses.any (fun C => waitsWalk p.2 C col w))).map (fun p => p.2.core))
  let tabs := s.tablesOf (w.page * 2 ^ 16) 5 0 (w.root * 2 ^ 12)
  let s := s.modCol col (fun k => { k with walks := k.walks.filter (fun x => x != w) })
  if w.gen != g then s
  else
    let s := s.modCol col (·.cacheTables w.asid tabs)
    let s := match r.ent with
      | none => s
      | some e => cores.foldl (fun s c => s.addTlb c e) (s.modCol col (fun k => { k with tlb := tlbAdd 8192 s.tick k.tlb e }))
    { s with teams := s.teams.map (fun (p : Nat × Team) => (p.1, { p.2 with courses := p.2.courses.map (fun C =>
        if waitsWalk p.2 C col w then { C with walked := C.walked ++ [r] } else C) })) }

/-- R166, R170, R171. -/
def execTranslationWalkDone (col asid page : Nat) (s : State) : Host.Outcome State Fault Refusal :=
  match (s.column col).walking.find? (fun w => w.asid == asid && w.page == page) with
  | none => .next s
  | some w => .next (s.endWalk col w)

/-! ### Refusals -/

/-- The access has not yet been performed at the slice or controller that checks its generation. -/
def Flight.unserved (f : Flight) : Bool :=
  match f.kind with
  | .load | .pf | .mmioLoad | .txld | .wwait | .wwake => f.stage == 0
  | .store | .atom | .nred | .txe => f.stage < 2
  | .range _ => f.stage == 0
  | _ => false

/-- A slice refuses the access (R31). -/
def State.refusalDue (s : State) (f : Flight) : Bool := f.unserved && !s.genOk f && s.ready f

/-- The status word of a `txe` (R243). -/
def txStatus (status first : Nat) : Word := wordOf (first * 2 ^ 8 + status)

/-- Words under way to a lane's transaction no longer join it (R239). -/
def State.detach (s : State) (t c l : Nat) : State :=
  { s with flights := s.flights.map (fun f =>
      if f.kind == .txld && f.team == t && f.crs == c && f.lane == l then { f with kind := .load } else f) }

/-- A word that a transaction was to read is not read: the lane's transaction closes (R240). -/
def State.closeOpen (s : State) (f : Flight) : State :=
  if f.kind == .txld then
    (s.detach f.team f.crs f.lane).modLane f.team f.crs f.lane (fun L => { L with tx := { L.tx with opened := false } })
  else s

/-- An access that met a fault is not performed: its destination gets 0, or a `txe` its status, and the fault is deferred
(R174, R243). A `txld` closes its transaction, as its other failures do (R240; notes/assumptions/48). A `txe` whose fresh leaf does not take
it, on a page with ATTR 1 or 2 or without permission, gets status 3 and no fault, also where the line is the same: the model's choice
(notes/assumptions/48). -/
def State.failFlight (s : State) (f : Flight) (cls reason : Nat) : State :=
  if f.kind == .txe then (s.land f (txStatus 3 0) false).dropFlight f.id
  else (((s.land f 0 false).dropFlight f.id).closeOpen f).defer f cls (reason ||| 0x80) f.va

/-- The kind of access that R167 judges. -/
def Flight.need (f : Flight) : AccessKind :=
  match f.kind with
  | .store | .wwake => .store
  | .atom | .nred | .txld | .txe => .atomic
  | .range 0x93 => .store
  | _ => .load

/-- A range operation. -/
def Flight.isRange (f : Flight) : Bool :=
  match f.kind with
  | .range _ => true
  | _ => false

/-- The fault of an access whose fresh leaf does not take it (R167, R201, R224, R225, R232, R240, R383): class and REASON. -/
def State.leafFault (s : State) (f : Flight) (e : TlbEnt) : Option (Nat × Nat) :=
  let va := va56 f.va
  let far := pteFmode e.pte != 0
  let wait := f.kind == .wwait || f.kind == .wwake
  if (f.need == .atomic || wait) && pteAttr e.pte != 0 then some (0x0E, 0x01)
  else if wait && far then some (0x0A, 0x08)
  else if f.kind == .txld && (far || (s.windowAt (e.pa va)).isSome) then some (0x0F, 0x04)
  else if f.kind == .txld && e.pa va / 256 != f.pa / 256 then some (0x0F, 0x02)
  else if f.isRange && e.vbase + 2 ^ pageShift e.lvl < va + f.size then some (0x10, 0x05)
  else if !far && (f.kind == .store || f.kind == .atom || f.kind == .nred) && (s.windowAt (e.pa va)).isSome then some (0x14, 0x01)
  else if !far && f.kind == .range 0x93 && s.windows.any (fun w => w.2.1 < e.pa va + f.size && e.pa va < w.2.1 + w.2.2) then
    some (0x14, 0x01)
  else none

/-- The access under its fresh leaf (R167, R176, R177): what ATTR and FMODE select is selected anew. A store keeps its place among those
that its near slice has accepted (R175, R184). -/
def State.reissued (s : State) (f : Flight) (e : TlbEnt) : Flight :=
  let attr := pteAttr e.pte
  { f with
    gen := e.gen, pa := e.pa (va56 f.va), attr := attr, fmode := pteFmode e.pte, peer := ptePeer e.pte
    kind := if f.kind == .load || f.kind == .mmioLoad then (if attr = 2 then .mmioLoad else .load) else f.kind
    fillL1 := f.fillL1 && attr == 0 && (pteFmode e.pte == 0 || pteFmode e.pte == 2)
    cols := if f.isRange then (if pteFmode e.pte = 0 then s.rangeCols (e.pa (va56 f.va)) (f.size / 64) else [coreCol f.core]) else []
    after := f.after ++ (if attr = 2 then (s.mmioAfter f.team f.crs f.lane).filter (fun p => p.1 < f.id) else [])
    tries := f.tries + 1, stage := 0, acc := if f.kind == .store then f.acc else 0 }

/-- A store updates its core's L1 (R176). -/
def Flight.layIn (f : Flight) (k : Core) : Core := k.l1Store f.asid f.pa (leBytes f.size f.data.toNat)

/-- The stores of a core, issued after `f` and not yet performed, that share a byte with it: they are performed after it (R175, R184). -/
def State.storesOver (s : State) (f : Flight) : List Flight :=
  sortBy (fun g => g.id) (s.flights.filter (fun g => f.id < g.id && g.core == f.core && g.kind == .store && g.stage < 2 && f.meets g))

/-- What a write under its fresh leaf does to the copies that its core and column keep of the bytes that it now names (R176, R377, R234):
a store, which has updated the line of the address that it left for, updates the line of a new one, before the later stores of its core; an
atomic removes it, and a write to a page with FMODE 2 removes both copies. -/
def State.movedTo (s : State) (old f : Flight) : State :=
  match f.kind with
  | .store =>
    if f.fmode = 0 then
      (if old.fmode = 0 && old.pa = f.pa then s else s.modCore f.core (fun k => (s.storesOver f).foldl (fun k g => g.layIn k) (f.layIn k)))
    else s.farWrite f.core f.fmode f.peer f.pa f.size
  | .atom =>
    if f.fmode = 0 then s.modCore f.core (fun k => k.l1Drop f.pa) else s.farWrite f.core f.fmode f.peer f.pa f.size
  | .nred => s.farWrite f.core f.fmode f.peer f.pa f.size
  | _ => s

/-- A range operation finds nothing on a page with ATTR 1 or 2 (R201), and on a peer's page nothing but the copies that FMODE 2 keeps,
which `cflush` and `cinv` remove (R377). -/
def rangeIdle (op attr fmode : Nat) : Bool := attr != 0 || !(fmode == 0 || (fmode == 2 && (op == 0x91 || op == 0x93)))

/-- Nothing is sent for the access under its fresh leaf: a helper's MMIO load gives 0 (R177), and so does a range operation that finds
nothing (R201, R377). -/
def Flight.unsent (f : Flight) : Bool :=
  match f.kind with
  | .mmioLoad => f.helper
  | .range op => rangeIdle op f.attr f.fmode
  | _ => false

/-- The access is translated afresh, under the page table of its team's address space, and reissued, or its fault is deferred (R31,
R172 to R174, R243). -/
def State.retranslate (s : State) (f : Flight) : State :=
  let s := s.dropAsid f.core f.asid
  let T := s.team f.team
  if f.kind == .pf then s.dropFlight f.id
  else if 3 ≤ f.tries then s.failFlight f 0x0B 0
  else
    let va := va56 f.va
    match s.walk (if T.asid = f.asid then T.ptroot else f.root) va with
    | .bad reason _ => s.failFlight f 0x09 reason
    | .memerr => s.failFlight f 0x17 0x81
    | .leaf lvl pte =>
      let e := tlbEntOf f.asid va (s.gen (coreCol f.core) f.asid) lvl pte
      match protReason T.sup f.need pte, s.leafFault f e with
      | some r, _ => s.failFlight f 0x0A r
      | none, some x => s.failFlight f x.1 x.2
      | none, none =>
        let f' := s.reissued f e
        if f.kind == .txe && (f'.pa / 256 != f.pa / 256 || f'.fmode != 0) then s.failFlight f 0 0
        else if f'.unsent then (s.land f 0 false).dropFlight f.id
        else ((s.movedTo f f').addTlb f.core e).modFlight f.id (fun _ => f')

/-- R31, R173. -/
def execGenerationRefusal (id : Nat) (s : State) : Host.Outcome State Fault Refusal :=
  match s.flight? id with
  | none => .next s
  | some f => if s.refusalDue f then .next (s.retranslate f) else .next s

/-! ### Reads -/

/-- A near slice holds a copy of the bytes that a load reads from a peer's page with FMODE 2 (R377). -/
def State.nearCopy (s : State) (f : Flight) : Option NearCopy :=
  if f.kind == .load && f.fmode = 2 && f.attr = 0 then
    (s.column (coreCol f.core)).near.find? (fun c => c.peer == f.peer && c.base == f.pa / 64 * 64) else none

/-- A release of another scope than its column still stands in the near slice before an acquire of such a scope in the column: the
acquire does not see it before the home does, so that all agents in scope see the two in one order (R216; notes/assumptions/96). -/
def State.syncFree (s : State) (f : Flight) : Bool :=
  !(f.acq && 3 < f.scope) || !s.flights.any (fun g => g.kind == .store && g.rel && 3 < g.scope && g.stage < 2 && g.id != f.id &&
    coreCol g.core == coreCol f.core && f.meets g)

/-- The near slice may serve a load of a peer's page from its copy (R377). -/
def State.nearDue (s : State) (f : Flight) : Bool :=
  f.stage == 0 && (s.nearCopy f).isSome && s.ready f && s.syncFree f && s.sliceFree (coreCol f.core) f.core

/-- The value of a load is fixed (R211). -/
def State.fix (s : State) (id : Nat) (v : Word) : State := s.modFlight id (fun f => { f with stage := 1, val := v })

/-- A load that meets a fault at the slice: its value is 0 and the fault is deferred (R174, R205, R400). -/
def State.fixFault (s : State) (f : Flight) (cls reason : Nat) : State := (s.fix f.id 0).defer f cls reason f.va

/-- The transaction of a lane is doomed. -/
def State.doom (s : State) (f : Flight) : State :=
  s.modLane f.team f.crs f.lane (fun L => { L with tx := { L.tx with doomed := true } })

/-- First byte of the line of a load. -/
def Flight.lineBase (f : Flight) : Nat := f.pa / 64 * 64

/-- A load brings its whole line, to be kept in L1 (R176); a line that holds a poisoned word is not kept. -/
def State.wholeLine (s : State) (f : Flight) : Bool := f.fillL1 && !s.poisoned f.lineBase 64

/-- The line of a load enters L1 (R176, R185, R213), with what the core's stores that have still to leave write to it; a store under
another ASID leaves no line. -/
def State.fillLine (s : State) (f : Flight) (bs : List Byte) : State :=
  let own := s.flights.filter (fun g => g.core == f.core && g.kind == .store && g.stage == 0 && g.fmode == 0 && g.pa / 64 == f.pa / 64)
  if own.any (fun g => g.asid != f.asid) then s.modCore f.core (fun k => k.l1Drop f.pa)
  else
    let data := own.foldl (fun bs g => (KeptStore.mk 0 g.pa g.size g.data).over f.lineBase bs) bs
    s.modCore f.core (fun k => k.l1Fill s.tick { line := f.pa / 64, asid := f.asid, gen := f.gen, data := data })

/-- The line or block that a prefetch names is moved towards the core (R188). -/
def State.prefetchAt (s : State) (f : Flight) : State :=
  let col := coreCol f.core
  (if s.beyondWindow f.pa then s
   else if s.wholeLine f then
     let r := s.loadBytes col 0 f.lineBase 64 f.span
     r.2.fillLine f r.1
   else (s.sliceRead col 0 f.pa 1 f.span).2).dropFlight f.id

/-- The bytes that a load receives from the slices (R176, R196, R210, R212, R240), with `cnt` as a read that counts: a load that fills
L1 brings its line, and one that does not leaves no older line behind (notes/assumptions/18). -/
def State.loadValue (s : State) (f : Flight) (cnt : Bool) : Nat × State :=
  let col := coreCol f.core
  if f.kind == .txld then
    let r := s.homeBytes col f.pa f.size
    (leVal r.1, r.2.modCore f.core (fun k => k.l1Drop f.pa))
  else if s.wholeLine f then
    let r := s.loadFrom cnt col f.attr f.lineBase 64 f.span
    (leVal ((r.1.drop (f.pa - f.lineBase)).take f.size), r.2.fillLine f r.1)
  else
    let r := s.loadFrom cnt col f.attr f.pa f.size f.span
    (leVal r.1, r.2.modCore f.core (fun k => k.l1Drop f.pa))

/-- A read is served (R196, R205, R208, R210, R212, R400); an acquire of a wider scope than its column reads what stands at the home (R216;
notes/assumptions/96). -/
def State.readAt (s : State) (f : Flight) (cnt : Bool) : State :=
  let s := if f.acq then s.acquire f.core f.scope else s
  let s := if f.acq && 3 < f.scope then s.readsHome (coreCol f.core) f.attr f.pa else s
  if s.beyondWindow f.pa then ((s.closeOpen f).fixFault f 0x0A 0x87).modFlight f.id (fun f => { f with kind := .load })
  else if isIO f.pa then
    let r := s.ioRead true f.pa f.size
    r.2.fix f.id (loadExt f.size f.sext r.1.toNat)
  else if s.poisonedFor (coreCol f.core) f.pa f.size then
    let s := s.fixFault f 0x17 (s.poisonReason f.pa)
    if f.kind == .txld then (s.doom f).modFlight f.id (fun f => { f with kind := .load }) else s
  else
    let r := s.loadValue f cnt
    State.fix { r.2 with fresh := r.2.fresh + bit (isHost f.pa) } f.id (loadExt f.size f.sext r.1)

/-- A wait request is taken at its home (R224): it returns at once or enters the wait table. -/
def State.waitAt (s : State) (f : Flight) : State :=
  let home := s.home f.pa
  if s.beyondWindow f.pa then ((s.land f 0 false).dropFlight f.id).defer f 0x0A 0x87 f.va
  else
    let v := wordOf (memRead s.mem f.pa 8)
    if s.poisoned f.pa 8 then ((s.land f 0 false).dropFlight f.id).defer f 0x17 (s.poisonReason f.pa) f.va
    else if v != f.cmp || 1024 ≤ (s.column home).waitUse then s.modFlight f.id (fun f => { f with stage := 4, val := v })
    else
      let e : WaitEnt := { pa := f.pa, asid := f.asid, who := some f.id, col := home,
                           deadline := if f.span = 0 then none else some (s.cycle home + 2 ^ f.span) }
      (s.modCol home (fun k => { k with waits := k.waits ++ [e] })).modFlight f.id (fun f => { f with stage := 1 })

/-- The slice that takes a read (R208, R224, R240). -/
def State.readSlice (s : State) (f : Flight) : Nat :=
  if f.attr != 0 || f.kind == .txld || f.kind == .wwait then s.home f.pa else (s.server (coreCol f.core) f.pa).1

/-- A read may be taken: its order is kept and its generation is current. -/
def State.readOk (s : State) (f : Flight) : Bool :=
  (f.isLoad || f.kind == .pf || f.kind == .wwait) && f.stage == 0 && f.fmode == 0 && s.genOk f && s.ready f && s.syncFree f

/-- A slice takes the read in this cycle (R220); a home slice performs what it took before to the same words first (R248). -/
def State.readDue (s : State) (f : Flight) : Bool :=
  s.readOk f && s.sliceFree (s.readSlice f) f.core && !(s.readSlice f == s.home f.pa && s.queuedOn f.pa f.size)

/-- A router may merge the read `g` into the older read `f` (R219). -/
def State.mergeable (s : State) (f g : Flight) : Bool :=
  f.kind == .load && g.kind == .load && f.id < g.id && g.core == f.core && g.pa / 64 == f.pa / 64 && g.attr == 0 && f.attr == 0 &&
  g.tag == f.tag && g.asid == f.asid && g.gen == f.gen && s.cycle (coreCol f.core) < f.since + 1024

/-- The reads that a router has merged into one that is served receive their values with it, and do not count again (R206, R219;
notes/assumptions/63). -/
def State.serveMerged (s : State) (f : Flight) : State :=
  (s.flights.filter (fun g => s.mergeable f g && Config.merge s.tick g.id)).foldl (fun s g => if s.readOk g then s.readAt g false else s) s

/-- A copy of a peer's line enters L1, where the load keeps one (R377). -/
def State.farFill (s : State) (f : Flight) (bs : List Byte) : State :=
  if f.fillL1 then s.modCore f.core (fun k => k.l1Fill s.tick { line := f.l1Line, asid := f.asid, gen := f.gen, data := bs }) else s

/-- A near slice serves a load from its copy of a peer's granule (R212, R377). -/
def State.nearAt (s : State) (f : Flight) (c : NearCopy) : State :=
  let s := if f.acq then s.acquire f.core f.scope else s
  ((s.farFill f c.data).fix f.id (loadExt f.size f.sext (leVal (s.overFar (coreCol f.core) f.peer f.pa ((c.data.drop (f.pa % 64)).take f.size))))).take (coreCol f.core) f.core

/-- R196, R219, R220, R224, R377. -/
def execSliceRead (id : Nat) (s : State) : Host.Outcome State Fault Refusal :=
  match s.flight? id with
  | none => .next s
  | some f =>
    if !s.readDue f then .next (match s.nearCopy f with
      | some c => if s.nearDue f then s.nearAt f c else s
      | none => s)
    else .next ((match f.kind with
      | .pf => s.prefetchAt f
      | .wwait => s.waitAt f
      | _ => (s.readAt f true).serveMerged f).take (s.readSlice f) f.core)

/-! ### Landing -/

/-- The kinds of access that a local memory unit performs for a lane after its issue (R181). -/
def Flight.atUnit (f : Flight) : Bool := f.isLocal || f.kind == .ldr || f.kind == .str || f.kind == .latomR

/-- An access goes before later ones of its lane to the same unit by the same path, and before those of higher lanes of its instruction
to the same bytes (R181, R184, R189). -/
def State.unitFirst (s : State) (f : Flight) : Bool :=
  !s.flights.any (fun g => g.id < f.id && g.atUnit && g.peer == f.peer && g.stage == 0 &&
    ((f.sameLane g && f.isLocal == g.isLocal) || (g.team == f.team && g.crs == f.crs && g.ins == f.ins && g.pa < f.pa + f.size && f.pa < g.pa + g.size)))

/-- The target of a remote-local access is no longer there (notes/assumptions/30). -/
def State.targetGone (s : State) (f : Flight) : Bool := f.peer == 0 || (mapGet? (f.peer - 1) s.teams).isNone

/-- The rank of an access at its target's unit: its core, then its sequencer, then its lane (R181). -/
def State.unitRankOf (s : State) (f : Flight) : Nat := unitRank f.core (s.course f.team f.crs).seq f.lane

/-- The access may be performed at its local memory unit in this cycle: a load or an atomic waits for its line (R181, R185, R189). -/
def State.unitReady (s : State) (f : Flight) : Bool :=
  f.stage == 0 && f.after.all (fun p => s.performedAt p.1 p.2) && s.unitFirst f &&
  (s.targetGone f || ((f.kind == .str || f.kind == .stl || f.onPresence || !(s.team (f.peer - 1)).absent.contains (f.pa / 64)) &&
    s.unitFree (s.team (f.peer - 1)).core (s.unitRankOf f)))

/-- The target's unit takes the access (R181). -/
def State.unitTake (s : State) (f : Flight) : State :=
  if s.targetGone f then s else s.useUnit (s.team (f.peer - 1)).core (s.unitRankOf f)

/-- A value for a queue register waits until its buffer has room (R90). -/
def State.destRoom (s : State) (f : Flight) : Bool :=
  match f.dest with
  | .push _ => 0 < s.coilRoom f.team f.crs
  | _ => true

/-- The data of the access can land. -/
def State.landDue (s : State) (f : Flight) : Bool :=
  match f.kind with
  | .load | .mmioLoad | .txld => f.stage == 1 && f.after.all (fun p => s.performedAt p.1 p.2) && s.destRoom f
  | .ldl | .ldr | .latom | .latomR => s.unitReady f
  | .rwait | .rwaitB => f.stage == 1
  | .range _ => f.cols.isEmpty && !s.invalOpen f.id (fun _ => true)
  | _ => false

/-- A word read by `txld` joins the read set unless it is there already; its value is the set's (R240). -/
def State.joinRset (s : State) (f : Flight) : Word × State :=
  let tx := (s.lane f.team f.crs f.lane).tx
  match tx.rset.find? (fun p => p.1 == f.pa) with
  | some p => (p.2, s)
  | none => (f.val, s.modLane f.team f.crs f.lane (fun L => { L with tx := { L.tx with rset := L.tx.rset ++ [(f.pa, f.val)] } }))

/-- What a remote-local access finds in its target; of a gang member that has left, nothing is said (notes/assumptions/30). -/
def State.unitRead (s : State) (f : Flight) : Nat × State :=
  if s.targetGone f then (s.freeWord.1.toNat % 2 ^ (8 * f.size), s.freeWord.2) else ((s.team (f.peer - 1)).locRead f.pa f.size, s)

/-- The bytes that an access reads at its local memory unit are uncorrectable (R400). -/
def State.unitBad (s : State) (f : Flight) : Bool := !s.targetGone f && (s.team (f.peer - 1)).locBad f.pa f.size

/-- The data of an access lands in its destination (R23). A read or atomic that finds an uncorrectable word of local memory once it has
left the core gets 0 and a deferred MEMERR, and changes nothing (R174, R400; notes/assumptions/50). -/
def State.landAt (s : State) (f : Flight) : State :=
  if f.atUnit && s.unitBad f then
    ((((s.unitTake f).land f 0 false).dropFlight f.id).defer f 0x17 0x85 f.va).releaseBars f.team
  else match f.kind with
  | .txld =>
    let r := s.joinRset f
    (r.2.land f r.1 false).dropFlight f.id
  | .ldl | .ldr =>
    let r := (s.unitTake f).unitRead f
    (r.2.land f (loadExt f.size f.sext r.1) false).dropFlight f.id
  | .latom | .latomR =>
    let s := s.unitTake f
    let r := if s.targetGone f then s.unitRead f else s.latomAt (f.peer - 1) f.pa f.aop f.ty f.data.toNat f.cmp.toNat
    ((r.2.land f (extOld f.ty r.1) false).dropFlight f.id).releaseBars f.team
  | .range _ => (s.land f (wordOf f.count) false).dropFlight f.id
  | .rwait | .rwaitB => ((s.acquire f.core f.scope).land f f.val false).dropFlight f.id
  | _ => (s.land f f.val false).dropFlight f.id

/-- R23, R185, R189, R201, R267. -/
def execLoadDataLands (id : Nat) (s : State) : Host.Outcome State Fault Refusal :=
  match s.flight? id with
  | none => .next s
  | some f => if s.landDue f then .next (s.landAt f) else .next s

/-! ### Writes -/

/-- A store to some bytes that a near slice accepted before `acc` has still to be performed (R212). -/
def State.keptBefore (s : State) (col acc pa n : Nat) : Bool := (s.kept col false).any (fun k => k.acc < acc && k.meets pa n)

/-- An earlier access of the same core to the line of `f` has been refused and waits to be reissued (R175). -/
def State.refusedBefore (s : State) (f : Flight) : Bool :=
  s.flights.any (fun g => g.id < f.id && g.core == f.core && 0 < g.tries && g.stage == 0 && f.sameLine g)

/-- An earlier store of the same core to bytes of `f` is still to be performed, be it at the same place or, since a refusal, at another
(R175, R184). -/
def State.storeBefore (s : State) (f : Flight) : Bool :=
  s.flights.any (fun g => g.id < f.id && g.core == f.core && g.kind == .store && g.stage < 2 && f.overlaps g)

/-- An earlier MMIO access of the lane of an MMIO access is still to be performed (R167): a refusal may have made it one after the other
had left. -/
def State.mmioBefore (s : State) (f : Flight) : Bool :=
  f.attr == 2 && s.flights.any (fun g => g.id < f.id && f.sameLane g && g.isGlob && g.attr == 2 && !g.performed 9)

/-- The home takes the store in this cycle (R220), after the stores of the column to the same bytes that the near slice accepted
before it, after the earlier ones of its core, after what a refusal holds (R175), in the order of its lane's MMIO accesses (R167), and
after what the home took before (R248). -/
def State.writeDue (s : State) (f : Flight) : Bool :=
  f.kind == .store && f.fmode == 0 && f.stage == 1 && s.genOk f && (launchAt f.pa f.size f.data).isNone &&
  !s.keptBefore (coreCol f.core) f.acc f.pa f.size && !s.storeBefore f && !s.mmioBefore f && !s.refusedBefore f && !s.queuedOn f.pa f.size &&
  s.sliceFree (s.home f.pa) f.core

/-- A store is performed at its home or controller, or at the register that it names (R198, R205, R336, R362). -/
def State.storeAt (s : State) (f : Flight) : State :=
  if s.beyondWindow f.pa then (s.dropFlight f.id).defer f 0x0A 0x87 f.va
  else
    let s := s.modFlight f.id (fun f => { f with stage := 2 })
    match linePage f.pa with
    | some (c, _) => s.discardLaunch c
    | none =>
      if isIO f.pa then s.ctlStore true f.pa f.size f.data
      else s.writeAt f.attr f.pa (leBytes f.size f.data.toNat) (some f.id)

/-- R198. -/
def execSliceWrite (id : Nat) (s : State) : Host.Outcome State Fault Refusal :=
  match s.flight? id with
  | none => .next s
  | some f => if s.writeDue f then .next ((s.storeAt f).take (s.home f.pa) f.core) else .next s

/-! ### Acknowledgements -/

/-- The acknowledgement of an access can arrive. -/
def State.ackDue (s : State) (f : Flight) (a : Ack) : Bool :=
  match f.kind, a with
  | .store, .near => f.stage == 0 && s.genOk f && s.ready f && s.sliceFree (coreCol f.core) f.core
  | .store, .home => f.stage == 2 && !s.invalOpen f.id (fun c => c / 16 == coreCol f.core / 16)
  | .store, .last => f.stage == 3 && !s.invalOpen f.id (fun _ => true)
  | .nred, .last => f.stage == 2 && !s.invalOpen f.id (fun _ => true)
  | .str, .home | .stl, .home => s.unitReady f
  | .lpres _, .home => s.unitReady f
  | .str, .last | .stl, .last => f.stage == 3
  | _, _ => false

/-- The acknowledgement of an access arrives (R186, R211, R212); a core advances its merge tag (R219). -/
def State.ackAt (s : State) (f : Flight) (a : Ack) : State :=
  let tag (s : State) : State := s.modCore f.core (fun k => { k with mergeTag := (k.mergeTag + 1) % 65536 })
  match f.kind, a with
  | .store, .near =>
    (State.modFlight { s with nextId := s.nextId + 1 } f.id (fun f => { f with stage := 1, acc := if f.acc = 0 then s.nextId else f.acc })).take
      (coreCol f.core) f.core
  | .str, .home | .stl, .home =>
    let s := s.unitTake f
    (if s.targetGone f then s else s.modTeam (f.peer - 1) (fun T => T.locWrite f.pa f.size f.data.toNat)).modFlight f.id
      (fun f => { f with stage := 3 })
  | .lpres k, _ =>
    let s := s.unitTake f
    ((if s.targetGone f then s else s.modTeam (f.peer - 1) (fun T => T.presence k (presLines f.va f.data))).dropFlight f.id).releaseBars f.team
  | _, .last => ((tag s).dropFlight f.id).releaseBars f.team
  | _, _ => (tag s).modFlight f.id (fun f => { f with stage := 3 })

/-- The write of a column core or of the host is performed at device scope (R209, R372). -/
def State.portAckDue (s : State) (p : PortAcc) : Bool := p.stage == 1 && !s.invalOpen p.id (fun _ => true)

/-- R211. -/
def execStoreAcknowledgement (id : Nat) (ack : Ack) (s : State) : Host.Outcome State Fault Refusal :=
  match s.flight? id with
  | some f => if s.ackDue f ack then .next (s.ackAt f ack) else .next s
  | none => match s.port.find? (fun p => p.id == id) with
    | some p => if ack == .last && s.portAckDue p then .next { s with port := s.port.filter (fun x => x.id != id) }
                else .next s
    | none => .next s

/-! ### Replication -/

/-- REPCTL of a column. -/
def Column.repEn (k : Column) : Bool := wfld k.repctl 0 1 == 1 && wfld k.repctl 32 16 != 0
/-- WTH. -/
def Column.wth (k : Column) : Nat := wfld k.repctl 16 16
/-- RTH. -/
def Column.rth (k : Column) : Nat := wfld k.repctl 32 16

/-- The counter calls for a change of its region's mode (R206). -/
def Column.switchDue (k : Column) (c : RegCnt) : Bool :=
  if c.repl then k.repEn && k.wth ≤ c.wcnt else k.repEn && k.rth ≤ c.rcnt && c.wcnt < k.wth

/-- The region changes its mode: a return that is under way ends first (R206). -/
def State.switchDue (s : State) (col : Nat) (c : RegCnt) : Bool := (s.column col).switchDue c && !s.returning col c.region

/-- R206. -/
def execReplicationSwitch (col region : Nat) (s : State) : Host.Outcome State Fault Refusal :=
  let c := (s.column col).counter region
  if !s.switchDue col c then .next s
  else if c.repl then .next (s.unreplicate col region)
  else .next (s.modCol col (fun k => { k with counters := k.counters.map (fun x => if x.region == region then { x with repl := true } else x) }))

/-- A period of 2^EPOCH cycles has passed since the last halving (R206). -/
def State.halvingDue (s : State) (col : Nat) : Bool :=
  (s.column col).halved < s.cycle col / 2 ^ wfld (s.column col).repctl 48 8

/-- R206: both counters of every entry halve, once for each period that has passed. -/
def execReplicationCounterHalving (col : Nat) (s : State) : Host.Outcome State Fault Refusal :=
  if !s.halvingDue col then .next s
  else
    let now := s.cycle col / 2 ^ wfld (s.column col).repctl 48 8
    let d := 2 ^ (now - (s.column col).halved)
    .next (s.modCol col (fun k => { k with
      halved := now
      counters := k.counters.map (fun c => { c with rcnt := c.rcnt / d, wcnt := c.wcnt / d }) }))

/-- R208, R242: the oldest invalidation of a replica slice removes its granules. -/
def execReplicaInvalidation (col : Nat) (s : State) : Host.Outcome State Fault Refusal :=
  match (s.column col).inval with
  | [] => .next s
  | x :: _ => .next (s.applyInval col x)

end Sys2Proof.Machine
end

