-- ==== Sys2Proof/Machine/SliceOps.lean ====
section
/-! DEFINITION. Fences (R214, R215), range operations (R200 to R202), near reductions (R221 to R223), waiting and waking
(R224, R225) and tower windows (R204). -/

namespace Sys2Proof.Machine

/-! ### Fences -/

/-- What a release of a lane at a level waits for (R215). -/
def State.releaseWaits (s : State) (t c l lvl : Nat) : List (Nat × Nat) :=
  ((s.ofLane t c l).filter (fun f => f.isAccess || (f.kind == .nred && f.scope ≤ lvl))).map (fun f => (f.id, lvl))

/-- What an acquire of a lane waits for: its earlier loads have returned (R215). -/
def State.acquireWaits (s : State) (t c l : Nat) : List (Nat × Nat) :=
  ((s.ofLane t c l).filter (fun f => f.isLoad || f.kind == .ldr || f.kind == .ldl)).map (fun f => (f.id, 100))

/-- The waits of some lanes that have not come about. -/
def Run.openPerf (r : Run) (ls : List Nat) (f : Nat → List (Nat × Nat)) : List Wait :=
  ls.flatMap (fun l => (f l).filterMap (fun p => if r.s0.performedAt p.1 p.2 then none else some (Wait.perf p.1 p.2)))

/-- R215: a fence acts for every live lane of the cohort, whatever the guards are. -/
def execFence (o : Ops) (acq rel _sc : Bool) (scope : Scope) (s : State) : Host.Outcome State Fault Refusal :=
  withRun o { d := .none } s (fun r =>
    let ls := r.act.filter r.live
    let ws := (if rel then r.openPerf ls (fun l => s.releaseWaits r.t r.c l (scopeCode scope)) else []) ++
              (if acq then r.openPerf ls (fun l => s.acquireWaits r.t r.c l) else [])
    if !ws.isEmpty then r.park ws
    else { r with s := if acq then r.s.acquire r.core (scopeCode scope) else r.s }.finish)

/-! ### Range operations -/

/-- The granules of a region within a range. -/
def gransOf (pa n rg : Nat) : List Nat :=
  (List.range 64).filter (fun g => pa ≤ granBase rg g && granBase rg g < pa + 64 * n)

/-- The check of the length before translation (R201). -/
def rangeFault (n : Word) : Option FltRec := if wfld n 24 40 = 0 then none else some { cls := 0x10, reason := 0x04 }

/-- The checks of a range operation after translation (R201, R383, R30). -/
def Run.rangeCheck (r : Run) (op : Nat) (a : Acc) : Option FltRec :=
  let n := (r.b a.l).toNat
  let pgEnd := a.e.vbase + 2 ^ pageShift a.e.lvl
  if pgEnd < va56 a.x + 64 * n then some { cls := 0x10, reason := 0x05 }
  else if op = 0x93 then
    if pteFmode a.e.pte == 0 && r.s0.windows.any (fun w => w.2.1 < a.pa + 64 * n && a.pa < w.2.1 + w.2.2)
    then some { cls := 0x14, reason := 0x01, addr := a.x }
    else r.globLock (64 * n) false a
  else none

/-- Send a range operation: to the homes of its regions, or for a peer's page to the issuer's column, which knows the near slices that
keep copies (R377). Where it finds nothing, D is 0 at once. -/
def Run.sendRange (r : Run) (op span : Nat) (scope : Scope) (a : Acc) : Run :=
  let n := (r.b a.l).toNat
  let far := pteFmode a.e.pte != 0
  if rangeIdle op (pteAttr a.e.pte) (pteFmode a.e.pte) then r.setDest a.l 0
  else
    let drop (k : Core) : Core := { k with l1 := k.l1.filter (fun x => !(a.pa / 64 ≤ x.line && x.line < a.pa / 64 + n)) }
    let s := if (op = 0x91 || op = 0x93) && !far then r.s.modCore r.core drop else r.s
    { r with s := s.send { r.flight (.range op) a with
        size := 64 * n, span := span, scope := scopeCode scope, dest := r.destOf a.l, cols := if far then [r.col] else r.s0.rangeCols a.pa n
        after := r.s0.acqAfter r.t r.c a.l } }

/-- R201. -/
def rangeRun (o : Ops) (op span : Nat) (scope : Scope) (off : Int) (s : State) : Host.Outcome State Fault Refusal :=
  withRun o { helps := false } s (fun r =>
    let x := r.xa0 off
    let r := r.check r.goodLive (fun l => alignFault 64 (x l))
    let r := r.check r.goodLive (fun l => rangeFault (r.b l))
    match r.translated (r.goodLive.filter (fun l => r.b l != 0)) (if op = 0x93 then .store else .load) x with
    | .parked s => s
    | .go r acc =>
      let r := r.checkAcc acc (r.rangeCheck op)
      let r := (r.passed acc).foldl (fun r a => r.sendRange op span scope a) r
      ((r.goodLive.filter (fun l => r.b l == 0)).foldl (fun r l => r.setDest l 0) r).finish)

/-- R200. -/
def execCflush (o : Ops) (scope : Scope) (off : Int) (s : State) : Host.Outcome State Fault Refusal := rangeRun o 0x91 0 scope off s
/-- R200. -/
def execCwb (o : Ops) (scope : Scope) (off : Int) (s : State) : Host.Outcome State Fault Refusal := rangeRun o 0x92 0 scope off s
/-- R200. -/
def execCinv (o : Ops) (scope : Scope) (off : Int) (s : State) : Host.Outcome State Fault Refusal := rangeRun o 0x93 0 scope off s
/-- R200. -/
def execCspan (o : Ops) (scope : Scope) (span : Nat) (off : Int) (s : State) : Host.Outcome State Fault Refusal :=
  rangeRun o 0x94 span scope off s

/-- Dirty granules of a list in a region's home blocks. -/
def Column.dirtyOf (k : Column) (rg : Nat) (gs : List Nat) : List Nat :=
  gs.filter (fun g => (k.blockAt rg g).any (fun b => !b.replica && b.dirty.contains g))

/-- Write granules back: DRAM then holds what the slice holds, and they are clean (R200). -/
def State.writeBack (s : State) (col rg : Nat) (gs : List Nat) : State :=
  let s := gs.foldl (fun s g => s.dropBacking col (granBase rg g)) s
  s.modCol col (fun k => { k with blocks := k.blocks.map (fun b =>
    if b.region == rg && !b.replica then { b with dirty := b.dirty.filter (fun g => !gs.contains g) } else b) })

/-- Record or clear the span override of a region; the oldest of 256 makes room (R195, R202). -/
def Column.setSpan (k : Column) (rg span : Nat) : Column :=
  let rest := k.spans.filter (fun p => p.1 != rg)
  if span = 0 then { k with spans := rest }
  else { k with spans := (if rest.length < 256 then rest else rest.drop 1) ++ [(rg, span)] }

/-- A range operation on one region at its home (R200, R201): what it counts, and the state after it. Invalidations go to the
replica slices, which the operation then waits for. -/
def State.rangeRegion (s : State) (col op span rg : Nat) (gs : List Nat) (id : Nat) : Nat × State :=
  let k := s.column col
  if isWindow (rg * 4096) then (0, if op = 0x94 then s.modCol col (·.setSpan rg span) else s)
  else if op = 0x94 then (0, s.modCol col (·.setSpan rg span))
  else if op = 0x92 then ((k.dirtyOf rg gs).length, s.writeBack col rg (k.dirtyOf rg gs))
  else
    let n := if op = 0x91 then (k.dirtyOf rg gs).length else (gs.filter (fun g => (k.blockAt rg g).any (fun b => !b.replica))).length
    (n, (s.removeGranules col rg gs (op == 0x91)).sendInval col rg gs (some id))

/-- The columns that a scope covers, from one of them on (R20). -/
def scopeCols (col sc : Nat) : List Nat :=
  (List.range 64).filter (fun c => if sc ≤ 3 then c == col else if sc = 4 then colCluster c == colCluster col
    else if sc = 5 then colTower c == colTower col else true)

/-- The copies of a peer's granules in a range leave the issuer's L1 and the near slices in scope; a granule of which a copy has gone
counts once (R377; notes/assumptions/76). -/
def State.farRange (s : State) (f : Flight) : State :=
  let cs := scopeCols (coreCol f.core) f.scope
  let gone (i : Nat) : Bool :=
    (s.core f.core).l1.any (fun x => x.line == farLine f.peer (f.pa + 64 * i)) ||
    cs.any (fun c => (s.column c).near.any (fun y => y.meets f.peer (f.pa + 64 * i) 64))
  let n := ((List.range (f.size / 64)).filter gone).length
  let s := s.modCore f.core (·.farDrop f.peer f.pa f.size)
  let s := cs.foldl (fun s c => s.modCol c (fun k => { k with near := k.near.filter (fun y => !y.meets f.peer f.pa f.size) })) s
  s.modFlight f.id (fun f => { f with count := n, cols := [], stage := 1 })

/-- Some byte of a range lies in a tower's window at or beyond its size (R205): sizes are whole regions. -/
def State.rangeBeyond (s : State) (pa n : Nat) : Bool := (regionsOf pa n).any (fun rg => s.beyondWindow (rg * 4096))

/-- The slice of a column performs its part of a range operation; one that reaches beyond a window is not performed (R205). -/
def State.rangeAt (s : State) (f : Flight) (op col : Nat) : State :=
  let n := f.size / 64
  if f.fmode != 0 then s.farRange f
  else if s.rangeBeyond f.pa n then ((s.land f 0 false).dropFlight f.id).defer f 0x0A 0x87 f.va
  else
  let r := ((regionsOf f.pa n).filter (fun rg => s.home (rg * 4096) == col)).foldl
    (fun (r : Nat × State) rg => let q := r.2.rangeRegion col op f.span rg (gransOf f.pa n rg) f.id; (r.1 + q.1, q.2)) (0, s)
  let s := if op = 0x91 || op = 0x93 then
      r.2.modCore f.core (fun k => { k with l1 := k.l1.filter (fun x => !(f.pa / 64 ≤ x.line && x.line < f.pa / 64 + n)) })
    else r.2
  s.modFlight f.id (fun f => { f with count := f.count + r.1, cols := f.cols.filter (· != col), stage := 1 })

/-- The slice of a column can take the operation in this cycle (R220). -/
def State.rangeDue (s : State) (f : Flight) (col : Nat) : Bool :=
  f.cols.contains col && (f.stage == 1 || (s.genOk f && s.ready f)) && s.sliceFree col f.core && !(f.fmode == 0 && s.queuedOn f.pa f.size)

/-- R201, R220. -/
def execRangeOpAtSlice (id col : Nat) (s : State) : Host.Outcome State Fault Refusal :=
  match s.flight? id with
  | none => .next s
  | some f => match f.kind with
    | .range op => if s.rangeDue f col then .next ((s.rangeAt f op col).take col f.core) else .next s
    | _ => .next s

/-! ### Near reductions -/

/-- R222. -/
def execNred (o : Ops) (op : AOp) (ty : Ty) (scope : Scope) (off : Int) (s : State) : Host.Outcome State Fault Refusal :=
  withRun o { d := .none, helps := false } s (fun r =>
    match r.access r.goodLive .atomic (tyBytes ty) (r.xa0 off) with
    | .parked s => s
    | .go r acc =>
      let r := r.checkAcc acc uncachedFault
      let r := r.checkAcc acc r.s0.glazeFault
      let r := r.checkAcc acc (r.globLock (tyBytes ty) false)
      { r with s := (r.passed acc).foldl (fun (s : State) (a : Acc) =>
          (s.farWrite r.core (pteFmode a.e.pte) (ptePeer a.e.pte) a.pa (tyBytes ty)).send { r.flight .nred a with
          size := tyBytes ty, aop := op, ty := ty, scope := scopeCode scope, data := wordOf (opPattern ty o.b.op (r.b a.l)) }) r.s }.finish)

/-- A reduction is written where its granule is: in the slice, or in memory behind it (R222). -/
def State.nredWrite (s : State) (pa : Nat) (bs : List Byte) (who : Option Nat) : State :=
  let home := s.home pa
  if isWindow pa || ((s.column home).blockAt (regionOf pa) (granOf pa)).isSome then s.homeWrite pa bs who
  else
    let s := { s with mem := memPutBytes s.mem pa bs, poison := clearPoison s.poison pa bs.length }
    ((s.countWrite home (regionOf pa)).sendInval home (regionOf pa) [granOf pa] who).wakeWords home (wordsOf pa bs.length)

/-- A near reduction is performed at its home (R222, R223, R205, R406). -/
def State.nredAt (s : State) (f : Flight) : State :=
  if s.beyondWindow f.pa then (s.dropFlight f.id).defer f 0x0A 0x87 f.va
  else if s.poisoned f.pa f.size then (s.dropFlight f.id).defer f 0x17 0x82 f.va
  else
    let new := aopNew f.aop f.ty (memRead s.mem f.pa f.size) f.data.toNat 0
    (s.nredWrite f.pa (leBytes f.size new) (some f.id)).modFlight f.id (fun f => { f with stage := 2 })

/-- The home takes the reduction in this cycle (R220). -/
def State.nredDue (s : State) (f : Flight) : Bool :=
  f.kind == .nred && f.stage == 0 && f.fmode == 0 && s.genOk f && s.ready f && s.sliceFree (s.home f.pa) f.core &&
  !s.queuedOn f.pa f.size

/-- R222. -/
def execNredAtHome (id : Nat) (s : State) : Host.Outcome State Fault Refusal :=
  match s.flight? id with
  | none => .next s
  | some f => if s.nredDue f then .next ((s.nredAt f).take (s.home f.pa) f.core) else .next s

/-! ### Waiting and waking -/

/-- PROT 0x08 of a wait or a wake on a peer's page (R224, R225). -/
def peerFault (a : Acc) : Option FltRec :=
  if pteFmode a.e.pte = 0 then none else some { cls := 0x0A, reason := 0x08, addr := a.x }

/-- R224. -/
def execWwait (o : Ops) (tout : Nat) (off : Int) (s : State) : Host.Outcome State Fault Refusal :=
  withRun o { helps := false } s (fun r =>
    match r.access r.goodLive .load 8 (r.xa0 off) with
    | .parked s => s
    | .go r acc =>
      let r := r.checkAcc acc uncachedFault
      let r := r.checkAcc acc peerFault
      { r with s := (r.passed acc).foldl (fun s a => s.send { r.flight .wwait a with
          dest := r.destOf a.l, cmp := r.b a.l, span := tout, after := s.acqAfter r.t r.c a.l }) r.s }.finish)

/-- R225. -/
def execWwake (o : Ops) (s : State) : Host.Outcome State Fault Refusal :=
  withRun o { d := .none, helps := false } s (fun r =>
    match r.access r.goodLive .store 8 r.a with
    | .parked s => s
    | .go r acc =>
      let r := r.checkAcc acc uncachedFault
      let r := r.checkAcc acc peerFault
      let r := r.checkAcc acc (fun a => if wfld (r.b a.l) 16 48 = 0 then none else some { cls := 0x10, reason := 0x04 })
      { r with s := (r.passed acc).foldl (fun s a => s.send { r.flight .wwake a with
          span := wfld (r.b a.l) 0 16, after := s.acqAfter r.t r.c a.l }) r.s }.finish)

/-- A wake ends the oldest entries on its word, or all of them (R225). -/
def State.wakeAt (s : State) (f : Flight) : State :=
  let home := s.home f.pa
  if s.beyondWindow f.pa then (s.dropFlight f.id).defer f 0x0A 0x87 f.va
  else
    let es := (s.column home).waitsOn f.pa
    ((if f.span = 0 then es else es.take f.span).foldl (fun s e => s.endWait home e (wordOf (memRead s.mem f.pa 8))) s).dropFlight f.id

/-- A wait has ended, or a wake reaches its home in this cycle (R220). -/
def State.waitEndDue (s : State) (f : Flight) : Bool :=
  (f.kind == .wwait && (f.stage == 4 || f.stage == 5)) ||
  (f.kind == .wwake && f.stage == 0 && s.genOk f && s.ready f && s.sliceFree (s.home f.pa) f.core && !s.queuedOn f.pa 8)

/-- The destination of an ended wait receives the word (R224), or 0 and MEMERR where the word was uncorrectable (R174, R400). -/
def State.landWait (s : State) (f : Flight) : State :=
  if f.stage = 5 then ((s.land f 0 false).dropFlight f.id).defer f 0x17 f.val.toNat f.va
  else (s.land f f.val false).dropFlight f.id

/-- R224, R225: an ended wait fills its destination; a wake that reaches its home ends entries. -/
def execWaitEntryEnd (id : Nat) (s : State) : Host.Outcome State Fault Refusal :=
  match s.flight? id with
  | none => .next s
  | some f =>
    if !s.waitEndDue f then .next s
    else .next (if f.kind == .wwait then s.landWait f else (s.wakeAt f).take (s.home f.pa) f.core)

/-- The wait entry of an access, with its home. -/
def State.entryOf (s : State) (id : Nat) : Option (Nat × WaitEnt) :=
  s.columns.findSome? (fun p => (p.2.waits.find? (fun e => e.who == some id)).map (fun e => (p.1, e)))

/-- The deadline of an entry has passed. -/
def State.expired (s : State) (home : Nat) (e : WaitEnt) : Bool :=
  match e.deadline with
  | none => false
  | some d => d ≤ s.cycle home

/-- R224: the entry ends with the word's value at that moment. -/
def execWaitDeadlineExpiry (id : Nat) (s : State) : Host.Outcome State Fault Refusal :=
  match s.entryOf id with
  | none => .next s
  | some (home, e) =>
    if s.expired home e then .next (s.endWait home e (wordOf (memRead s.mem e.pa 8))) else .next s

/-- Cancel an entry (R226): with the word's value, or 0 beyond a window. -/
def State.cancelWait (s : State) (home : Nat) (e : WaitEnt) : State := s.endWait home e (s.watched e.pa)

/-! ### Tower windows -/

/-- First byte of a tower's window (R203). -/
def windowAddr (tw : Nat) : Nat := windowBase + tw * 0x1000_0000

/-- The contents of a tower's window from an offset on are no longer defined. -/
def dropWindow (m : List Host.Cell) (tw size : Nat) : List Host.Cell :=
  m.filter (fun c => !(windowAddr tw + size ≤ c.1 && c.1 < windowAddr (tw + 1)))

/-- Blocks of a tower's slices make room for a larger window (R204). -/
def State.carve (s : State) (tw : Nat) : State :=
  (List.range 16).foldl (fun s i => (s.column (tw * 16 + i)).blocks.foldl
    (fun s b => s.makeRoom (tw * 16 + i) b.region 0 0 (fun _ => false) 33) s) s

/-- A tower's window takes a new size (R204, R226). -/
def State.setWindow (s : State) (tw n : Nat) : State :=
  let old := (s.column (tw * 16)).wunits
  let s := s.modCol (tw * 16) (fun k => { k with wunits := n })
  let s := if old < n then s.carve tw else s
  let s := { s with mem := dropWindow s.mem tw (min old n * 8 * 2 ^ 20) }
  (List.range 16).foldl (fun s i =>
    ((s.column (tw * 16 + i)).waits.filter (fun e => !e.ended && s.beyondWindow e.pa)).foldl
      (fun s e => s.cancelWait (tw * 16 + i) e) s) s

/-- R204. -/
def execMswin (o : Ops) (s : State) : Host.Outcome State Fault Refusal :=
  withRun o { priv := some (0x01, 0), helps := false } s (fun r => r.once
    (fun l => if wfld (r.a l) 2 62 ≠ 0 || 32 < (r.b l).toNat then some { cls := 0x10, reason := 0x04 } else none)
    (fun r l =>
      let tw := wfld (r.a l) 0 2
      let r := r.owe l (wordOf (s.column (tw * 16)).wunits) []
      { r with s := r.s.setWindow tw (r.b l).toNat }.finish))

end Sys2Proof.Machine
end

