-- ==== Sys2Proof/Machine/Engine.lean ====
section
/-! DEFINITION. What Slip, the Wheel and Coil share: their accesses to global memory (R167, R170, R217, R277, R376, R400),
completion counters (R26), completion ports (R262), and the end of an abandoned command (R27). -/

namespace Sys2Proof.Machine

/-! ### Accesses of an engine -/

/-- Whose command makes an access: the core, its address space and page table, and the mode it issued in. -/
structure Eng where
  core : Nat
  asid : Nat
  root : Nat
  sup : Bool
  deriving DecidableEq, Repr

/-- The issuing lane and number of a command, against which the lane's earlier accesses are held (R210, R260). -/
structure Issuer where
  team : Nat
  crs : Nat
  lane : Nat
  id : Nat
  deriving DecidableEq, Repr

/-- Whose accesses a command makes: the root is the one that its address space has now (R172). -/
def State.engOf (s : State) (core team asid root : Nat) (sup : Bool) : Eng :=
  ⟨core, asid, if (s.team team).asid = asid then (s.team team).ptroot else root, sup⟩

/-- The outcome of translating an engine's access: a leaf and physical address, or the class of a fault. -/
inductive EngTr where
  | ok (e : TlbEnt) (pa : Nat)
  | bad (cls : Nat)
  deriving DecidableEq, Repr

/-- What an engine may not touch (R277, R205, R383, R376): MMIO, bytes beyond a window, a store into a glaze window, and a
peer's address that is no memory. -/
def State.engCheck (s : State) (e : TlbEnt) (pa : Nat) (k : AccessKind) : EngTr :=
  if pteAttr e.pte = 2 then .bad 0x0E
  else if pteFmode e.pte != 0 then (if isHbm pa || isWindow pa then .ok e pa else .bad 0x0A)
  else if s.beyondWindow pa then .bad 0x0A
  else if k == .store && (s.windowAt pa).isSome then .bad 0x14
  else .ok e pa

/-- Translation of an engine's access: an entry of the core's TLB that allows it, whose old generation a slice refuses, or a
walk (R31, R171, R277). -/
def State.engTr (s : State) (g : Eng) (x : Word) (k : AccessKind) : EngTr :=
  let va := va56 x
  if !canonical x then .bad 0x09
  else match (s.core g.core).tlb.find? (fun e => e.covers g.asid va && (protReason g.sup k e.pte).isNone) with
    | some e => if pteFmode e.pte != 0 || e.gen == s.gen (s.home (e.pa va)) g.asid then s.engCheck e (e.pa va) k else .bad 0x0B
    | none => match s.walk g.root va with
      | .bad _ _ => .bad 0x09
      | .memerr => .bad 0x17
      | .leaf lvl pte =>
        let e := tlbEntOf g.asid va (s.gen (coreCol g.core) g.asid) lvl pte
        if (protReason g.sup k pte).isSome then .bad 0x0A else s.engCheck e (e.pa va) k

/-- Bytes that nothing constrains (notes/assumptions/28). -/
def State.freeBytes (s : State) (n : Nat) : List Byte × State :=
  ((List.range n).map (fun i => (Config.freeWord (s.fresh + i)).setWidth 8), { s with fresh := s.fresh + n })

/-- A request to MIGQ (R381). -/
def migReq (peer pa : Nat) : Nat := 2 ^ 63 + peer * 2 ^ 48 + fld pa 16 36

/-- An access through an FMODE 3 page counts towards migration (R378). -/
def State.countMig (s : State) (fmode peer pa : Nat) : State :=
  if fmode != 3 || s.migctl = 0 then s
  else
    let key := migReq peer pa
    let n := mapGet 0 key s.migcnt
    let rest := (s.migcnt.filter (fun p => p.1 != key)).take 4095
    if n + 1 < s.migctl then { s with migcnt := (key, n + 1) :: rest }
    else if s.migq.length < 64 then { s with migcnt := (key, 0) :: rest, migq := s.migq ++ [key] }
    else { s with migcnt := (key, s.migctl) :: rest }

/-- The slice that takes an engine's access (R208). -/
def State.engSlice (s : State) (g : Eng) (e : TlbEnt) (pa : Nat) (k : AccessKind) : Nat :=
  if k == .store || pteAttr e.pte != 0 then s.home pa else (s.server (coreCol g.core) pa).1

/-- The slice that takes an engine's access marks its turn (R220); an access to a peer goes out through the fabric. -/
def State.engTake (s : State) (g : Eng) (e : TlbEnt) (pa : Nat) (k : AccessKind) : State :=
  if pteFmode e.pte != 0 then s else s.take (s.engSlice g e pa k) g.core

/-- Bytes at a physical address that an engine reads within a line, under a leaf (R195, R212, R376). A peer's bytes come
from outside, those of this device come back to it, and the near slice lays over them what it keeps of its column's stores to them. -/
def State.engBytes (s : State) (col : Nat) (e : TlbEnt) (pa n : Nat) : List Byte × State :=
  let f := pteFmode e.pte
  if f != 0 then
    let s := s.countMig f (ptePeer e.pte) pa
    let r := if ptePeer e.pte = s.device then s.sliceRead (s.home pa) 0 pa n 0 else s.freeBytes n
    (s.overFar col (ptePeer e.pte) pa r.1, r.2)
  else
    let r := s.loadBytes col (pteAttr e.pte) pa n 0
    (r.1, { r.2 with fresh := r.2.fresh + bit (isHost pa) })

/-- The part of an interval of virtual addresses that lies in a 64-byte line: first address and length. -/
def clipLine (ln : Nat) (x : Nat × Nat) : Option (Nat × Nat) :=
  let lo := max x.1 (ln * 64)
  let hi := min (x.1 + x.2) (ln * 64 + 64)
  if lo < hi then some (lo, hi - lo) else none

/-- The lines that some intervals touch, each once. -/
def linesOf (xs : List (Nat × Nat)) : List Nat :=
  dedupNat (xs.flatMap (fun x => if x.2 = 0 then [] else
    (List.range ((x.1 + x.2 - 1) / 64 + 1 - x.1 / 64)).map (fun i => x.1 / 64 + i)))

/-- Bytes that an engine has read: pieces by first address. -/
abbrev EngData := List (Nat × List Byte)

/-- A byte of what was read. -/
def EngData.at (d : EngData) (x : Nat) : Byte :=
  match d.find? (fun p => p.1 ≤ x && x < p.1 + p.2.length) with
  | some p => p.2.getD (x - p.1) 0
  | none => 0

/-- The outcome of an engine's reads or writes: data and the state after them, or the class and address of the fault. -/
inductive EngOut where
  | ok (d : EngData) (s : State)
  | bad (cls : Nat) (addr : Word)

/-- Some bytes that an engine reads under a leaf hold an uncorrectable word of this device (R400): behind a page of its own DEVICE too
(R376). -/
def State.engPoison (s : State) (col : Nat) (e : TlbEnt) (pa n : Nat) : Bool :=
  if pteFmode e.pte = 0 then s.poisonedFor col pa n else ptePeer e.pte == s.device && s.poisonedFar col (ptePeer e.pte) pa n

/-- Read the lines that some intervals touch; a word of an interval that is uncorrectable is MEMERR (R400). -/
def State.engRead (s : State) (g : Eng) (xs : List (Nat × Nat)) : List Nat → EngData → EngOut
  | [], d => .ok d s
  | ln :: r, d =>
    let parts := xs.filterMap (clipLine ln)
    let first := wordOf ((parts.head?.map (·.1)).getD (ln * 64))
    match s.engTr g first .load with
    | .bad cls => .bad cls first
    | .ok e pa =>
      let base := pa / 64 * 64
      match parts.find? (fun p => s.engPoison (coreCol g.core) e (base + p.1 % 64) p.2) with
      | some p => .bad 0x17 (wordOf p.1)
      | none =>
        let q := ((s.addTlb g.core e).engTake g e base .load).engBytes (coreCol g.core) e base 64
        q.2.engRead g xs r (d ++ [(ln * 64, q.1)])

/-- All the lines of some intervals. -/
def State.engGather (s : State) (g : Eng) (xs : List (Nat × Nat)) : EngOut := s.engRead g xs (linesOf xs) []

/-- A run of bytes to write, within one line. -/
structure Chunk where
  x : Nat
  bs : List Byte
  deriving DecidableEq, Repr

/-- Join a byte to a list of runs, the last of which it may extend within its line. -/
def addChunk (cs : List Chunk) (x : Nat) (b : Byte) : List Chunk :=
  match cs.getLast? with
  | some c => if c.x + c.bs.length = x && c.x / 64 = x / 64 then cs.dropLast ++ [{ c with bs := c.bs ++ [b] }] else cs ++ [⟨x, [b]⟩]
  | none => [⟨x, [b]⟩]

/-- Some bytes cover a part of an uncorrectable word: its other bytes are read, and an engine's command is abandoned (R400;
notes/assumptions/75). -/
def partlyBad (bad : List Nat) (as : List Nat) : Bool :=
  bad.any (fun w => (List.range 8).any (fun j => as.contains (w + j)) && !(List.range 8).all (fun j => as.contains (w + j)))

/-- The first run that may not be written, with its class. -/
def State.engBadChunk (s : State) (g : Eng) (cs : List Chunk) : Option (Nat × Word) :=
  cs.findSome? (fun c => match s.engTr g (wordOf c.x) .store with
    | .ok e pa => if (pteFmode e.pte = 0 || ptePeer e.pte = s.device) && partlyBad s.poison ((List.range c.bs.length).map (pa + ·)) then some (0x17, wordOf c.x)
                  else none
    | .bad cls => some (cls, wordOf c.x))

/-- A run that an engine writes to a peer leaves for the fabric as an access of its own, whose `acc` is the number of the write
(R376). -/
def State.engSend (s : State) (g : Eng) (i : Issuer) (wid : Nat) (e : TlbEnt) (pa : Nat) (c : Chunk) : State :=
  { s with
    flights := s.flights ++ [{ id := s.nextId, kind := .store, team := i.team, crs := i.crs, lane := i.lane, core := g.core,
                               asid := g.asid, gen := e.gen, root := g.root, va := wordOf c.x, pa := pa, attr := pteAttr e.pte,
                               fmode := pteFmode e.pte, peer := ptePeer e.pte, size := c.bs.length, stage := 1, acc := wid, eng := true,
                               wset := (List.range c.bs.length).map (fun j => (pa + j, (c.bs.getD j 0).setWidth 64)) }]
    nextId := s.nextId + 1 }

/-- Write one run (R198, R376). -/
def State.engPut (s : State) (g : Eng) (i : Issuer) (wid : Nat) (c : Chunk) : State :=
  match s.engTr g (wordOf c.x) .store with
  | .bad _ => s
  | .ok e pa =>
    let s := (s.addTlb g.core e).engTake g e pa .store
    if pteFmode e.pte != 0 then s.engSend g i wid e pa c else s.writeAt (pteAttr e.pte) pa c.bs (some wid)

/-- Write some runs under the number `wid`: all of them, or none when one may not be written. -/
def State.engWrite (s : State) (g : Eng) (i : Issuer) (cs : List Chunk) (wid : Nat) : EngOut :=
  match s.engBadChunk g cs with
  | some b => .bad b.1 b.2
  | none => .ok [] (cs.foldl (fun s c => s.engPut g i wid c) s)

/-- An earlier access to some physical bytes is not yet performed, which an engine's access follows: one of the issuing lane (R210,
R260), or for a line of a peer one of the core (R379). -/
def State.laneBusy (s : State) (core : Nat) (i : Issuer) (e : TlbEnt) (pa n : Nat) (write : Bool) : Bool :=
  let far := pteFmode e.pte != 0
  s.flights.any (fun f =>
    if far then f.core == core && f.fmode != 0 && f.peer == ptePeer e.pte && f.pa < pa + n && pa < f.pa + f.size && f.stage < 2 &&
      (f.isLoad || f.kind == .store || f.kind == .atom || f.kind == .nred || f.isRange)
    else f.id < i.id && f.team == i.team && f.crs == i.crs && f.lane == i.lane && f.fmode == 0 &&
      f.pa < pa + n && pa < f.pa + f.size &&
      (match f.kind with
       | .load | .mmioLoad | .txld => f.stage == 0
       | .store => if write then f.stage < 2 else f.stage == 0
       | .atom | .txe | .range _ => true
       | _ => false))

/-- Nothing of the issuing lane holds back an engine's access to some lines, and their slices take it in this cycle (R220), a home slice
after what it took before to the same words (R248). -/
def State.engFree (s : State) (g : Eng) (i : Issuer) (lines : List Nat) (k : AccessKind) : Bool :=
  lines.all (fun ln => match s.engTr g (wordOf (ln * 64)) k with
    | .ok e pa => !s.laneBusy g.core i e (pa / 64 * 64) 64 (k == .store) &&
        (pteFmode e.pte != 0 || (s.sliceFree (s.engSlice g e pa k) g.core &&
          !(s.engSlice g e pa k == s.home pa && s.queuedOn (pa / 64 * 64) 64)))
    | .bad _ => true)

/-- A write of an engine whose replica invalidations are under way stays as an access until they end (R211, R34). -/
def State.trackWrite (s : State) (i : Issuer) (core wid : Nat) : State :=
  if s.invalOpen wid (fun _ => true) then
    { s with flights := s.flights ++ [{ id := wid, kind := .store, team := i.team, crs := i.crs, lane := i.lane, core := core,
                                        size := 0, stage := 2, past := true, eng := true }] }
  else s

/-- What write `wid` of an engine sent to a peer is not yet acknowledged (R376). -/
def State.peerOpen (s : State) (wid : Nat) : Bool := s.flights.any (fun f => f.kind == .store && f.fmode != 0 && f.acc == wid)

/-- A write of an engine counts as landed (R261, R376): it is performed at its scope, and every peer has acknowledged it. -/
def State.landedAt (s : State) (wid scope : Nat) : Bool := s.performedAt wid scope && !s.peerOpen wid

/-- A slice refuses an access of an engine for the fourth time, or the core drops its entries of the ASID for another try
(R31, R277). -/
def State.engRefused (s : State) (core asid tries : Nat) : Option State := if 3 ≤ tries then none else some (s.dropAsid core asid)

/-! ### Counters and ports -/

/-- Completion counter of a team (R26). -/
def Team.outstanding (T : Team) (k : Nat) : Nat := wfld (T.kGet k) 0 48

/-- ENGINE of a counter that cannot be named (R26). -/
def Team.counterBad (T : Team) (k : Nat) : Bool := k == 0 || wfld (T.kGet k) 48 16 != 0

/-- A command adds its bytes to a counter, whose consumption acquires at the widest scope of its commands (R26, R217), and which the
team's retirement waits for until it has reached zero (R34). -/
def State.countAdd (s : State) (t k n scope : Nat) : State :=
  s.modTeam t (fun T =>
    let T := { T with named := dedupNat (T.named ++ [k]), kScope := mapMod 0 k (max scope) T.kScope }
    T.kCount k (T.kGet k + wordOf n))

/-- Bytes have landed (R26). -/
def State.countSub (s : State) (t k m : Nat) : State := s.modTeam t (fun T => T.kCount k (T.kGet k - wordOf m))

/-- Bytes of a command land: its counter drops. -/
def State.landed (s : State) (t : Nat) (r : Report) (m : Nat) : State :=
  match r with
  | .counter k => if m = 0 then s else s.countSub t k m
  | _ => s

/-- At issue a command's bytes are added to the counter that it names. -/
def State.charged (s : State) (t : Nat) (r : Report) (n scope : Nat) : State :=
  match r with
  | .counter k => s.countAdd t k n scope
  | _ => s

/-- An entry of a completion port (R262, R291): a status word for lane slot 0, with the scope of the acquire that its pop makes. -/
def portEntry (status scope : Nat) : QEntry :=
  { slots := wordOf status :: List.replicate 31 0, mask := 1, scope := scope }

/-- The check that a command makes of its D (R256 check 1, R291): a counter that can be named, or a queue register bound to a
port of the engine, 0x01 + `lo` to `hi`. -/
def reportFault (T : Team) (lo hi : Nat) (d : Opnd) : Option FltRec :=
  match d with
  | .k k => if T.counterBad k then some { cls := 0x10, reason := 0x19 } else none
  | .eq n =>
    let p := T.portOf n
    if p = 0 then some { cls := 0x11, reason := 0x01, detail := n }
    else if lo ≤ p && p ≤ hi then none
    else some { cls := 0x11, reason := 0x02, detail := n }
  | _ => none

/-- How a command reports its completion (R254, R291). -/
def reportOf (T : Team) (d : Opnd) : Report :=
  match d with
  | .k k => .counter k
  | .eq n => .port (T.portOf n)
  | _ => .none

/-- Commands of one instruction that name a counter pass it together (R26). -/
def Team.counterFull (T : Team) (r : Report) (total : Nat) : Bool :=
  match r with
  | .counter k => 0xFFFF_FFFF_FFFF < T.outstanding k + total
  | _ => false

/-! ### Abandonment -/

/-- TSTAT.ERR of a team is set, and ENGINE pends for the lane that issued the command (R27). -/
def State.abandonFor (s : State) (i : Issuer) (cls reason : Nat) (addr ipc : Word) : State :=
  (s.modTeam i.team (fun T => { T with terr := true })).deferAt i.team i.crs i.lane i.id cls reason addr ipc

/-- A store, an atomic or a change of presence bits that the issuing course sent to the team's own unit before a command is still to be
performed: the command's reads of local memory wait for it (R259, R286). -/
def State.unitBehind (s : State) (i : Issuer) : Bool :=
  s.flights.any (fun f => f.id < i.id && f.team == i.team && f.crs == i.crs && f.peer == i.team + 1 && f.stage == 0 &&
    (f.kind == .str || f.kind == .stl || f.kind == .latom || f.kind == .latomR || f.onPresence))

/-! ### Presence -/

/-- Lines of local memory that a logical range touches under a swizzle (R28, R178, R180). -/
def physLines (swz lo n : Nat) : List Nat :=
  if swz = 0 then (if n = 0 then [] else (List.range ((lo + n - 1) / 64 + 1 - lo / 64)).map (fun i => lo / 64 + i))
  else dedupNat ((List.range ((lo + n + 7) / 8 - lo / 8)).map (fun i => phys swz ((lo / 8 + i) * 8) / 64))

/-- Presence bits are cleared (R28). -/
def Team.clearLines (T : Team) (ls : List Nat) : Team := { T with absent := dedupNat (T.absent ++ ls) }

/-- Presence bits are set (R28). -/
def Team.setLines (T : Team) (ls : List Nat) : Team := { T with absent := T.absent.filter (fun x => !ls.contains x) }

/-- Bytes of a team's local memory through a mapping. -/
def Team.getSwz (T : Team) (swz a n : Nat) : List Byte := (List.range n).map (fun i => T.locByte (phys swz (a + i)))

/-- The interval of physical offsets that a local range holds (R410). -/
def swzRange (swz lo n : Nat) : Nat × Nat :=
  if swz = 0 then (lo, lo + n - 1) else (lo / 256 * 256, (lo + n - 1) / 256 * 256 + 255)

end Sys2Proof.Machine
end

