-- ==== Sys2Proof/Machine/Tlr.lean ====
section
/-! DEFINITION. Tensor layout records (R249 to R253), the geometry of a copy in units (an element, or a block of 32), MX
expansion (R272 to R274) and ring headers (R263, R264). -/

namespace Sys2Proof.Machine

/-! ### Records -/

/-- `n` bytes of a record from an offset, little-endian. -/
def recFld (bs : List Byte) (o n : Nat) : Nat := leVal ((bs.drop o).take n)

/-- The record that 64 bytes hold (R249, R250). -/
def tlrOf (bs : List Byte) : Tlr :=
  let ctl := recFld bs 8 8
  { base := wordOf (recFld bs 0 8), fillval := fld ctl 32 32, scope := fld ctl 12 4, fill := bitN ctl 10, swz := fld ctl 8 2,
    efmt := fld ctl 4 4, loc := bitN ctl 3, ndim := fld ctl 0 3,
    sizes := (List.range 5).map (fun k => recFld bs (0x10 + 4 * k) 4),
    boxes := (List.range 5).map (fun k => recFld bs (0x24 + k) 1),
    strides := (List.range 4).map (fun k => recFld bs (0x2C + 4 * k) 4),
    scaleoff := recFld bs 0x3C 4 }

/-- EFMT 6 to 8: blocks of packed elements (R251). -/
def Tlr.packed (t : Tlr) : Bool := 6 ≤ t.efmt && t.efmt ≤ 8

/-- Bytes of an element that is not packed (R251). -/
def Tlr.eb (t : Tlr) : Nat := if t.efmt ≤ 3 then 2 ^ t.efmt else 1

/-- SIZE of a dimension. -/
def Tlr.size (t : Tlr) (k : Nat) : Nat := t.sizes.getD k 1
/-- Box extent of a dimension. -/
def Tlr.box (t : Tlr) (k : Nat) : Nat := t.boxes.getD k 0 + 1
/-- STRIDE of a dimension, in bytes. -/
def Tlr.stride (t : Tlr) (k : Nat) : Nat := t.strides.getD (k - 1) 0 * 16

/-- The offsets of the fields that break a rule (R252). -/
def tlrBads (bs : List Byte) : List Nat :=
  let t := tlrOf bs
  let ctl := recFld bs 8 8
  let n := t.ndim
  let unit := if t.packed then 16 else t.eb
  (if (if t.loc then t.base.toNat / 2 ^ 20 != 0 else !canonical t.base) || (t.efmt ≤ 9 && t.base.toNat % unit != 0) then [0] else []) ++
  (if n = 0 || 5 < n || 9 < t.efmt || fld ctl 16 16 != 0 || bitN ctl 11 || 9 < t.scope || (4 ≤ t.efmt && t.efmt ≤ 9 && t.fill)
    then [8] else []) ++
  (List.range 5).filterMap (fun k =>
    if (if n ≤ k then t.size k != 1 else t.size k = 0 || 2 ^ 31 - 1 < t.size k) || (k == 0 && t.packed && t.size 0 % 32 != 0)
    then some (0x10 + 4 * k) else none) ++
  (List.range 5).filterMap (fun k => if n ≤ k && t.boxes.getD k 0 != 0 then some (0x24 + k) else none) ++
  (if recFld bs 0x29 3 != 0 then [0x29] else []) ++
  ([1, 2, 3, 4].filterMap (fun k => if n ≤ k && t.stride k != 0 then some (0x28 + 4 * k) else none)) ++
  (if t.scaleoff != 0 && t.efmt ≤ 3 then [0x3C] else [])

/-- The coordinates that B and C name (R254). -/
def slipCoords (b c : Word) : List Int :=
  [sextN 32 (wfld b 0 32), sextN 32 (wfld b 32 32), sextN 21 (wfld c 0 21), sextN 21 (wfld c 21 21), sextN 21 (wfld c 42 21)]

/-! ### Geometry -/

/-- Elements of a unit of dimension 0: a block of 32 for packed formats and for `slipx`. -/
def Tlr.unitN (t : Tlr) (x : Bool) : Nat := if x || t.packed then 32 else 1

/-- Bytes of a unit. -/
def Tlr.unitB (t : Tlr) (x : Bool) : Nat := if t.packed then (if t.efmt = 8 then 16 else 24) else t.eb * t.unitN x

/-- Box extent of a dimension in units. -/
def Tlr.ubox (t : Tlr) (x : Bool) (k : Nat) : Nat := if k = 0 then t.box 0 / t.unitN x else t.box k

/-- Units of the box. -/
def Tlr.units (t : Tlr) (x : Bool) : Nat := ((List.range 5).map (t.ubox x)).foldl (· * ·) 1

/-- BoxBytes (R253). -/
def Tlr.boxBytes (t : Tlr) : Nat := t.units false * t.unitB false

/-- Box index of unit `i` in a dimension (R253). -/
def Tlr.boxIdx (t : Tlr) (x : Bool) (i k : Nat) : Nat :=
  i / ((List.range k).map (t.ubox x)).foldl (· * ·) 1 % t.ubox x k

/-- Coordinate of a dimension in units. -/
def Tlr.ucoord (t : Tlr) (x : Bool) (cs : List Int) (k : Nat) : Int :=
  if k = 0 then cs.getD 0 0 / (t.unitN x : Int) else cs.getD k 0

/-- Tensor extent of a dimension in units. -/
def Tlr.usize (t : Tlr) (x : Bool) (k : Nat) : Nat := if k = 0 then t.size 0 / t.unitN x else t.size k

/-- The position of a unit of the box in the tensor (R253). -/
def Tlr.pos (t : Tlr) (x : Bool) (cs : List Int) (i : Nat) : List Int :=
  (List.range 5).map (fun k => t.ucoord x cs k + (t.boxIdx x i k : Int))

/-- InBounds of R253. -/
def Tlr.inBounds (t : Tlr) (x : Bool) (p : List Int) : Bool :=
  (List.range 5).all (fun k => 0 ≤ p.getD k 0 && p.getD k 0 < (t.usize x k : Int))

/-- Distance of a unit from BASE (R253). -/
def Tlr.dist (t : Tlr) (x : Bool) (p : List Int) : Int :=
  p.getD 0 0 * (t.unitB x : Int) + ([1, 2, 3, 4].map (fun k => p.getD k 0 * (t.stride k : Int))).foldl (· + ·) 0

/-- Address of a unit (R253). -/
def Tlr.addr (t : Tlr) (x : Bool) (p : List Int) : Word := t.base + wordOfInt (t.dist x p)

/-- Distance of the scale of a block from BASE (R251). -/
def Tlr.scaleDist (t : Tlr) (p : List Int) : Int :=
  64 * (t.scaleoff : Int) +
    (((p.getD 4 0 * (t.size 3 : Int) + p.getD 3 0) * (t.size 2 : Int) + p.getD 2 0) * (t.size 1 : Int) + p.getD 1 0) *
      ((t.size 0 / 32 : Nat) : Int) + p.getD 0 0

/-- Address of the scale of a block (R251). -/
def Tlr.scaleAddr (t : Tlr) (p : List Int) : Word := t.base + wordOfInt (t.scaleDist p)

/-- The bounding interval of the bytes that a copy touches on the tensor side (R29, R258): first address and length. An expansion
reads scales too (R272); a `slipc` touches its new rows alone (R276). -/
def Tlr.bound (t : Tlr) (x : Bool) (cs : List Int) (rows : Option (List Int)) : Option (Word × Nat) :=
  let own (k : Nat) : List Int := if k + 1 = t.ndim then rows.getD [] else []
  let lo (k : Nat) : Int := max ((own k).headD (t.ucoord x cs k)) 0
  let hi (k : Nat) : Int := min (t.ucoord x cs k + (t.ubox x k : Int)) (t.usize x k : Int) - 1
  if (List.range 5).any (fun k => hi k < lo k) then none
  else
    let a := (List.range 5).map lo
    let z := (List.range 5).map hi
    let first := if x then min (t.dist x a) (t.scaleDist a) else t.dist x a
    let past := if x then max (t.dist x z + (t.unitB x : Int)) (t.scaleDist z + 1) else t.dist x z + (t.unitB x : Int)
    some (t.base + wordOfInt first, (past - first).toNat)

/-- TensorAddr of R253; for packed formats the byte that holds the element (R280). -/
def Tlr.tensorAddr (t : Tlr) (cs : List Int) : Word :=
  let c0 := cs.getD 0 0
  let w : Int := if t.efmt = 8 then 4 else 6
  t.base + wordOfInt ((if t.packed then c0 / 32 * (t.unitB false : Int) + c0 % 32 * w / 8 else c0 * (t.eb : Int)) +
    ([1, 2, 3, 4].map (fun k => cs.getD k 0 * (t.stride k : Int))).foldl (· + ·) 0)

/-! ### MX expansion -/

/-- The element type of an MX format (R251). -/
def mxTy (efmt : Nat) : Ty :=
  match efmt with
  | 4 => .e4m3x8 | 5 => .e5m2x8 | 6 => .e3m2x8 | 7 => .e2m3x8 | 8 => .e2m1x16 | _ => .i8x8

/-- Bits of an element of an MX format. -/
def mxBits (efmt : Nat) : Nat := if efmt = 8 then 4 else if efmt = 6 || efmt = 7 then 6 else 8

/-- The pairs that `slipx` accepts (R272). -/
def slipxOk (tgt : XTgt) (efmt : Nat) : Bool :=
  match tgt with
  | .mx8 => efmt == 4 || efmt == 6 || efmt == 7 || efmt == 8
  | _ => 4 ≤ efmt && efmt ≤ 9

/-- The format that `slipx` writes. -/
def xFmt : XTgt → Fmt
  | .bf16 => fmtBF16
  | _ => fmtE4M3

/-- Expansion of one element `a` under scale `s` (R273): the pattern, and Xov. -/
def expandElem (tgt : XTgt) (efmt s a : Nat) : Nat × Bool :=
  let f := xFmt tgt
  let big (sg : Bool) : Nat := withSign f sg f.maxCode
  let nan := f.nan.getD 0
  match mxVal (mxTy efmt) a with
  | .nan _ => (nan, false)
  | .inf sg => if tgt == .mx8 then (big sg, false) else if s = 0xFF then (nan, false) else (big sg, true)
  | .fin sg n x =>
    if tgt == .mx8 then ((roundF f .rne false sg n x).1, false)
    else if s = 0xFF then (nan, false)
    else
      let r := roundF f .rne false sg n (x + (s : Int) - 127)
      if r.2 &&& fOF != 0 then (big sg, true) else (r.1, false)

/-- DstBytes of a `slipx` (R274). -/
def slipxBytes (tgt : XTgt) (units : Nat) : Nat :=
  match tgt with
  | .bf16 => 64 * units
  | .e4m3 => 32 * units
  | .mx8 => roundUp (32 * units) 64 + units

/-! ### Ring headers -/

/-- NSLOT of a header (R263). -/
def Team.ringN (T : Team) (hdr : Nat) : Nat := fld (T.locRead hdr 8) 0 5
/-- WIDX. -/
def Team.ringW (T : Team) (hdr : Nat) : Nat := fld (T.locRead hdr 8) 5 4
/-- RIDX. -/
def Team.ringR (T : Team) (hdr : Nat) : Nat := fld (T.locRead hdr 8) 9 4
/-- RES. -/
def Team.ringRes (T : Team) (hdr : Nat) : Nat := fld (T.locRead hdr 8) 16 16
/-- FILL. -/
def Team.ringFill (T : Team) (hdr : Nat) : Nat := fld (T.locRead hdr 8) 32 16
/-- TAKEN. -/
def Team.ringTaken (T : Team) (hdr : Nat) : Nat := fld (T.locRead hdr 8) 48 16
/-- SLOTBYTES. -/
def Team.slotBytes (T : Team) (hdr : Nat) : Nat := fld (T.locRead (hdr + 8) 8) 0 21
/-- Local offset of a slot. -/
def Team.slotOff (T : Team) (hdr i : Nat) : Nat := hdr + 64 + i * T.slotBytes hdr

/-- The header rules of R263. -/
def Team.ringOk (T : Team) (hdr : Nat) : Bool :=
  let w0 := T.locRead hdr 8
  let w1 := T.locRead (hdr + 8) 8
  let n := T.ringN hdr
  let res := T.ringRes hdr
  let fill := T.ringFill hdr
  let taken := T.ringTaken hdr
  let sb := T.slotBytes hdr
  2 ≤ n && n ≤ 16 && fld w0 13 3 == 0 && T.ringW hdr < n && T.ringR hdr < n &&
  res < 2 ^ n && fill < 2 ^ n && taken < 2 ^ n && res &&& fill == 0 && res &&& taken == 0 && fill &&& taken == 0 &&
  fld w1 21 11 == 0 && fld w1 32 16 < 2 ^ n && fld w1 48 16 < 2 ^ n &&
  64 ≤ sb && sb ≤ 2 ^ 20 && sb % 64 == 0 && T.locRead (hdr + 16) 48 == 0 && hdr + 64 + n * sb ≤ T.locSize

/-- Bit `i` of a number set to `b`. -/
def setBit (x i : Nat) (b : Bool) : Nat := setFld x i 1 (bit b)

/-- A copy reserves slot WIDX (R264). -/
def Team.ringReserve (T : Team) (hdr : Nat) : Team :=
  let n := T.ringN hdr
  let i := T.ringW hdr
  let w0 := setFld (setBit (T.locRead hdr 8) (16 + i) true) 5 4 ((i + 1) % max 1 n)
  let w1 := setBit (setBit (T.locRead (hdr + 8) 8) (32 + i) false) (48 + i) false
  (T.locWrite hdr 8 w0).locWrite (hdr + 8) 8 w1

/-- A copy has landed in slot `i`, or is abandoned (R264). -/
def Team.ringFilled (T : Team) (hdr i : Nat) (err xov : Bool) : Team :=
  let w0 := setBit (setBit (T.locRead hdr 8) (16 + i) false) (32 + i) true
  let w1 := setBit (setBit (T.locRead (hdr + 8) 8) (32 + i) err) (48 + i) xov
  (T.locWrite hdr 8 w0).locWrite (hdr + 8) 8 w1

/-- `rwait` hands out slot RIDX (R264). -/
def Team.ringHand (T : Team) (hdr : Nat) : Team :=
  let n := T.ringN hdr
  let i := T.ringR hdr
  T.locWrite hdr 8 (setFld (setBit (setBit (T.locRead hdr 8) (32 + i) false) (48 + i) true) 9 4 ((i + 1) % max 1 n))

/-- What `rwait` gives for slot RIDX (R267). -/
def Team.ringGive (T : Team) (hdr : Nat) : Word :=
  let i := T.ringR hdr
  let w1 := T.locRead (hdr + 8) 8
  wordOf (T.slotOff hdr i * 2 ^ 32 + bit (bitN w1 (48 + i)) * 2 ^ 9 + bit (bitN w1 (32 + i)) * 2 ^ 8 + i)

/-- The key under which a slot's completion scope is kept. -/
def slotKey (hdr i : Nat) : Nat := hdr * 16 + i

end Sys2Proof.Machine
end

