-- ==== Sys2Proof/Machine/Slip.lean ====
section
/-! DEFINITION. The Slip engine: issue of copies (R254 to R258, R269 to R276), their pieces (R259 to R261, R273), completion
(R262, R264, R267), stalls and abandonment (R277, R278), the ring instructions (R265 to R271) and `tlr` (R280). -/

namespace Sys2Proof.Machine

/-! ### The record -/

/-- What the read of a record waits for of an access in flight, as a load of the lane would (R210, R212, R256): a store of its core to the
line that has not left it, an atomic of the lane; at a peer, every request of its core to the line (R379); a record that is MMIO follows the
lane's other MMIO accesses (R167). -/
def Run.recWait (r : Run) (a : Acc) (g : Flight) : Option Wait :=
  if pteAttr a.e.pte == 2 && g.attr == 2 && g.isGlob && g.team == r.t && g.crs == r.c && g.lane == a.l then some (.perf g.id 9)
  else if g.core != r.core || g.pa / 64 != a.pa / 64 || g.fmode == 0 && pteFmode a.e.pte != 0 || g.fmode != 0 && pteFmode a.e.pte == 0 then none
  else if g.fmode != 0 && g.peer != ptePeer a.e.pte then none
  else match g.kind with
    | .store => if g.fmode == 0 then (if g.stage == 0 then some (.perf g.id 3) else none) else some (.perf g.id 5)
    | .atom => if g.fmode != 0 || (g.team == r.t && g.crs == r.c && g.lane == a.l) then some (.perf g.id 100) else none
    | .nred => if g.fmode != 0 then some (.perf g.id 5) else none
    | .load | .mmioLoad | .txld => if g.fmode != 0 && g.stage == 0 then some (.perf g.id 3) else none
    | _ => none

/-- Reads of the lanes' records wait for acquire loads, and for what `Run.recWait` names. -/
def Run.recWaits (r : Run) (acc : List Acc) : List Wait :=
  r.acqWaits (acc.map (·.l)) ++ acc.flatMap (fun a => r.s0.flights.filterMap (r.recWait a))

/-- The translation of a record is of an old generation (R31). -/
def Run.staleRec (r : Run) (a : Acc) : Bool := pteFmode a.e.pte == 0 && a.e.gen != r.s0.gen (r.s0.home a.pa) r.T.asid

/-- Pages of records whose translation is of an old generation. -/
def Run.recStale (r : Run) (acc : List Acc) : List Nat :=
  acc.filterMap (fun a => if r.staleRec a then some (va56 a.x / 2 ^ 16) else none)

/-- A refused read of a record: the core drops its entries of the ASID, and the course reads again (R31). -/
def Run.recRefuse (r : Run) (pages : List Nat) : State :=
  let s := (r.s0.dropAsid r.core r.T.asid).modCourse r.t r.c (fun C => { C with recRefused := C.recRefused + 1 })
  { r with s0 := s }.parkWalk pages

/-- The access of a lane's record, as an engine's. -/
def Run.recEng (r : Run) : Eng := ⟨r.core, r.T.asid, r.T.ptroot, r.T.sup⟩

/-- A helper lane sends no read of its record to a page with ATTR 2, and receives 0 (R177). -/
def Run.recUnsent (r : Run) (a : Acc) : Bool := !r.live a.l && pteAttr a.e.pte == 2

/-- The slices take the lanes' reads of their records in this cycle, a home slice after what it took before to the same words (R220,
R248). -/
def Run.recFree (r : Run) (acc : List Acc) : Bool :=
  acc.all (fun a => r.recUnsent a || pteFmode a.e.pte != 0 || isHost a.pa || isIO a.pa ||
    (let sl := r.s0.engSlice r.recEng a.e a.pa .load
     r.s0.sliceFree sl r.core && !(sl == r.s0.home a.pa && r.s0.queuedOn a.pa 64)))

/-- What the slice, or the peer, says of a record (R31, R205, R376, R256 check 3): STALE, PROT of an address that no memory has, or MEMERR of
a word, all precise since the record is read before the copy issues (notes/assumptions/74). -/
def Run.recFault (r : Run) (a : Acc) : Option FltRec :=
  let far := pteFmode a.e.pte != 0
  if r.recUnsent a then none
  else if r.staleRec a then some { cls := 0x0B, addr := a.x }
  else if far && !(isHbm a.pa || isWindow a.pa) then some { cls := 0x0A, reason := 0x89, addr := a.x }
  else if (!far || ptePeer a.e.pte == r.s0.device) && r.s0.beyondWindow a.pa then some { cls := 0x0A, reason := 0x87, addr := a.x }
  else ((List.range 8).find? (fun i => r.s0.engPoison r.col a.e (a.pa + 8 * i) 8)).map (fun i =>
    { cls := 0x17, reason := r.s0.poisonReason (a.pa + 8 * i), addr := a.x + wordOf (8 * i) })

/-- Eight loads of 8 bytes from a launch line or a control page (R207, R336, R362). -/
def State.ioRecord (s : State) (pa : Nat) : List Byte × State :=
  (List.range 8).foldl (fun p i => let r := p.2.ioRead true (pa + 8 * i) 8; (p.1 ++ leBytes 8 r.1.toNat, r.2)) ([], s)

/-- The 64 bytes of a record, read as by `ld.n64` (R256): a page of registers gives what loads of them give. The read does not look into the
core's L1 and fills none, and leaves no older copy of the line behind: the model's choice (notes/assumptions/97). -/
def State.readRec (s : State) (g : Eng) (e : TlbEnt) (pa : Nat) : List Byte × State :=
  let s := if pteFmode e.pte = 0 then s.modCore g.core (fun k => k.l1Drop pa) else s.farWrite g.core (pteFmode e.pte) (ptePeer e.pte) pa 64
  if pteFmode e.pte = 0 && isIO pa then s.ioRecord pa else (s.engTake g e pa .load).engBytes (coreCol g.core) e pa 64

/-- The records at the accesses that have passed, read in order; the slices mark their turns (R220). -/
def Run.readRecs (r : Run) (acc : List Acc) : Run × List (Nat × List Byte) :=
  (r.passed acc).foldl (fun p a =>
    if r.recUnsent a then (p.1, p.2 ++ [(a.l, List.replicate 64 0)])
    else
      let q := p.1.s.readRec r.recEng a.e a.pa
      ({ p.1 with s := q.2 }, p.2 ++ [(a.l, q.1)])) (r, [])

/-- Reads of records: parked, or the bytes of each lane that passed R256 checks 2 and 3. -/
inductive RecOut where
  | parked (s : State)
  | go (r : Run) (recs : List (Nat × List Byte))

/-- R256 checks 2 and 3 in some lanes, and the read. -/
def Run.records (r : Run) (ls : List Nat) : RecOut :=
  match (r.check ls (fun l => alignFault 64 (r.a l))).translated ls .load r.a with
  | .parked s => .parked s
  | .go r acc =>
    let r := r.checkAcc acc (r.globLock 64 true)
    let ok := r.passed acc
    if !(r.recWaits ok).isEmpty then .parked (r.park (r.recWaits ok))
    else if !(r.recStale ok).isEmpty && r.C.recRefused < 3 then .parked (r.recRefuse (r.recStale ok))
    else if !r.recFree ok then .parked (r.park [.tick])
    else
      let q := (r.checkAcc ok r.recFault).readRecs ok
      .go q.1 q.2

/-! ### Issue -/

/-- The form of a copy instruction: direction, RING, TGT of `slipx`, LB of `slipc`, and E. -/
structure SlipForm where
  dir : Nat
  ring : Bool
  tgt : Option XTgt
  lb : Option Nat
  e : SlipE

/-- E[19:0] (R255, R262). -/
def SlipForm.e20 (f : SlipForm) : Nat :=
  if f.dir = 3 then f.e.off + 2 ^ 18 * bit f.e.isNew + 2 ^ 19 * bit f.e.isLast else f.e.off

/-- The form expands MX blocks. -/
def SlipForm.x (f : SlipForm) : Bool := f.tgt.isSome

/-- The number of no team: the target of a remote copy whose gang member has left (notes/assumptions/30). -/
def noTeam : Nat := 2 ^ 64

/-- The team whose local memory holds the box side. -/
def Run.boxTeam (r : Run) (f : SlipForm) : Nat := if f.dir = 2 then (r.s0.gangTeam r.t f.e.pos).getD noTeam else r.t

/-- New rows of a `slipc` (R275, R276): tensor rows of the sliding dimension, ascending. -/
def slipcRows (T : Team) (lb : Nat) (data : List Byte) (t : Tlr) (cs : List Int) (e : Nat) : List Int :=
  let h := t.ndim - 1
  let c := cs.getD h 0
  let all := (List.range (t.box h)).map (fun (i : Nat) => c + (i : Int))
  match mapGet? lb T.lbs with
  | none => all
  | some b =>
    let old := b.coords.getD h 0
    let same := b.data == data && b.e == e && (List.range 5).all (fun k => k == h || b.coords.getD k 0 == cs.getD k 0)
    if same && 1 ≤ c - old && c - old < (t.box h : Int) then all.filter (fun y => old + (t.box h : Int) ≤ y) else all

/-- PlaneBytes (R275). -/
def Tlr.planeBytes (t : Tlr) : Nat := t.boxBytes / t.box (t.ndim - 1)

/-- DstBytes (R257, R274, R276). -/
def SlipForm.dstBytes (f : SlipForm) (t : Tlr) (rows : Option (List Int)) : Nat :=
  match f.tgt, rows with
  | some g, _ => slipxBytes g (t.units true)
  | none, some ys => t.planeBytes * ys.length
  | none, none => t.boxBytes

/-- R256 check 5: SPACE, DIR, EFMT and SCOPE agree with the instruction. R250 says that SWZ must be 0 in the record of a B-store copy and
names no fault for another value: that it counts as such a disagreement is the model's choice (notes/assumptions/90). -/
def SlipForm.agrees (f : SlipForm) (t : Tlr) : Bool :=
  (f.dir != 1 || !t.loc) && (f.dir != 2 || (t.loc && 4 ≤ t.scope)) && (f.dir != 3 || t.swz == 0) &&
  (f.lb.isNone || (t.efmt ≤ 3 && !t.loc))

/-- R256 check 6 (R253, R272). -/
def SlipForm.coordsOk (f : SlipForm) (t : Tlr) (cs : List Int) (c : Word) : Bool :=
  !bitN c.toNat 63 && (List.range 5).all (fun k => k < t.ndim || cs.getD k 0 == 0) &&
  (!(f.x || t.packed) || (cs.getD 0 0 % 32 == 0 && t.box 0 % 32 == 0 && t.size 0 % 32 == 0))

/-- R256 checks 4 to 11 in one lane. -/
def Run.slipFault (r : Run) (f : SlipForm) (a : Word) (bs : List Byte) (cs : List Int) (c : Word) (bytes : Nat) : Option FltRec :=
  let t := tlrOf bs
  let off := f.e.off
  let B := r.s0.team (r.boxTeam f)
  match minNat? (tlrBads bs) with
  | some o => some { cls := 0x10, reason := 0x10, addr := a, detail := o }
  | none =>
    if !f.agrees t then some { cls := 0x10, reason := 0x12 }
    else if !(f.tgt.all (fun g => slipxOk g t.efmt)) then some { cls := 0x10, reason := 0x18 }
    else if !f.coordsOk t cs c then some { cls := 0x10, reason := 0x04 }
    else if off % 64 != 0 then some { cls := 0x0C, reason := 0x01, addr := wordOf off, detail := 64 }
    else if f.dir != 3 && r.T.locSize < off + (if f.ring then 64 else if f.lb.isSome then t.boxBytes else bytes) then
      some { cls := 0x07, reason := 0x02, addr := wordOf off }
    else if f.dir = 2 && r.T.gangsize ≤ f.e.pos then some { cls := 0x0A, reason := 0x05, addr := wordOf off }
    else if f.ring && B.locBad off 64 then some { cls := 0x17, reason := 0x05, addr := wordOf off }
    else if f.ring && !B.ringOk off then some { cls := 0x10, reason := 0x13 }
    else if f.ring && B.slotBytes off < t.boxBytes then some { cls := 0x10, reason := 0x14 }
    else if 2 ^ 20 < bytes || (f.dir = 3 && 2 ^ 18 < off + bytes) then some { cls := 0x10, reason := 0x10 }
    else none

/-- The lanes' commands while they are being prepared: the run, the B-store ring and the line buffers as the lanes so far
would leave them, the ring slots and halves that they take, and their commands with their lock entries. -/
structure SlipPrep where
  r : Run
  bring : BRing
  T : Team
  slots : Nat
  halves : List Nat
  cmds : List (SlipCmd × List LockEnt)

/-- R256 check 12: the B-store rules (R269, R270). -/
def BRing.bsBad (b : BRing) (t : Nat) (isNew : Bool) : Bool := (b.owner.isSome && b.owner != some t) || (!isNew && !b.curv)

/-- A `.bs` copy opens or continues a half (R270). -/
def BRing.bsTake (b : BRing) (t : Nat) (e : SlipE) : BRing :=
  let b := if e.isNew then { b with owner := some t, cur := b.widx, curv := true, widx := 1 - b.widx } else b
  if e.isLast then { b with curv := false } else b

/-- Space of the box side of a local or remote copy (R258, R410). -/
def Run.boxSpace (r : Run) (f : SlipForm) : Space := if f.dir = 2 then .rem (r.s0.target r.t f.e.pos) f.e.pos else .loc r.t

/-- The lock entries of a copy (R29, R258, R410). -/
def Run.slipLocks (r : Run) (f : SlipForm) (t : Tlr) (cs : List Int) (rows : Option (List Int)) (id off bytes : Nat) : List LockEnt :=
  let tens : List LockEnt := match t.bound f.x cs rows with
    | none => []
    | some (lo, n) =>
      if t.loc then [{ cmd := id, idx := 0, src := f.dir != 1, space := .loc r.t, lo := lo.toNat, hi := lo.toNat + n - 1 }]
      else [{ cmd := id, idx := 0, src := f.dir != 1, space := .glob r.T.asid, lo := va56 lo, hi := va56 lo + n - 1 }]
  let rg := swzRange t.swz off bytes
  let box : List LockEnt := if f.dir = 3 then []
    else [{ cmd := id, idx := 0, src := f.dir == 1, space := r.boxSpace f, lo := rg.1, hi := rg.2 }]
  tens ++ box

/-- One lane's command, checked after those of the lanes below it. -/
def SlipPrep.lane (p : SlipPrep) (f : SlipForm) (l : Nat) (bs : List Byte) : SlipPrep :=
  let r := p.r
  if !r.ok l then p
  else
    let t := tlrOf bs
    let c := r.cc l
    let cs := slipCoords (r.b l) c
    let rows := f.lb.map (fun lb => slipcRows p.T lb bs t cs f.e20)
    let bytes := f.dstBytes t rows
    match r.slipFault f (r.a l) bs cs c bytes with
    | some x => { p with r := r.fault l x }
    | none =>
      if f.dir = 3 && p.bring.bsBad r.t f.e.isNew then { p with r := r.fault l { cls := 0x10, reason := 0x16 } }
      else
        let bring := if f.dir = 3 then p.bring.bsTake r.t f.e else p.bring
        let half := if f.e.isNew then p.bring.widx else p.bring.cur
        let B := r.s0.team (r.boxTeam f)
        let slot := (B.ringW f.e.off + p.slots) % max 1 (B.ringN f.e.off)
        let id := r.s.nextId + p.cmds.length
        let off := if f.ring then B.slotOff f.e.off slot else f.e.off
        if f.ring && r.T.locSize < off + bytes then
          { p with r := r.fault l { cls := 0x07, reason := 0x02, addr := wordOf f.e.off } }
        else
        let cmd : SlipCmd := {
          id := id, team := r.t, crs := r.c, lane := l, asid := r.T.asid, root := r.T.ptroot, sup := r.T.sup, ipc := r.ip,
          dir := f.dir, dst := if f.dir = 3 then .bst half else if f.dir = 2 then .rem (r.boxTeam f) f.e.pos else .loc
          off := off, bytes := bytes,
          report := if f.ring then .ring (r.boxTeam f) f.e.off slot else reportOf r.T r.o.d,
          tgt := f.tgt, tlr := t, coords := cs, rows := rows, e20 := f.e20, todo := List.range ((bytes + 63) / 64) }
        { p with
          bring := bring
          T := match f.lb with
            | none => p.T
            | some lb => { p.T with lbs := mapPut lb ⟨bs, cs, f.e20⟩ p.T.lbs }
          slots := if f.ring then p.slots + 1 else p.slots
          halves := if f.dir = 3 && f.e.isNew then p.halves ++ [half] else p.halves
          cmds := p.cmds ++ [(cmd, r.slipLocks f t cs rows id off (if f.lb.isSome then t.boxBytes else bytes))] }

/-- R256 check 13: entries, slots and halves that the lanes need together. -/
def SlipPrep.tooMany (p : SlipPrep) (f : SlipForm) : Bool :=
  32 < (p.cmds.flatMap (·.2)).length || 2 < p.halves.length ||
  (f.ring && (p.r.s0.team (p.r.boxTeam f)).ringN f.e.off < p.slots)

/-- ENGINE in every issuing lane: none of the commands is issued, and nothing is waited for. -/
def SlipPrep.refuse (p : SlipPrep) (reason : Nat) : SlipPrep :=
  { p with r := p.cmds.foldl (fun r x => r.fault x.1.lane { cls := 0x10, reason := reason }) p.r, cmds := [], slots := 0, halves := [] }

/-- R256 checks 13 and 14. -/
def SlipPrep.together (p : SlipPrep) (f : SlipForm) : SlipPrep :=
  if p.tooMany f then p.refuse 0x15
  else if !f.ring && p.r.T.counterFull (reportOf p.r.T p.r.o.d) (p.cmds.foldl (fun n x => n + x.1.bytes) 0) then p.refuse 0x19
  else p

/-- What the issue waits for (R257, R30). -/
def SlipPrep.waits (p : SlipPrep) (f : SlipForm) : List Wait :=
  let k := p.r.s0.core p.r.core
  let es := p.cmds.flatMap (·.2)
  (if locksFree k es then [] else [Wait.locks es]) ++
  (if f.ring && !(p.r.s0.team (p.r.boxTeam f)).ringRoom f.e.off p.slots then [Wait.ringFree (p.r.boxTeam f) f.e.off p.slots] else []) ++
  (p.halves.filter (fun h => k.bring.st h != 0)).map Wait.halfFree

/-- State of a half of the B store set (R271). -/
def BRing.setSt (b : BRing) (h v : Nat) : BRing := if h = 0 then { b with st0 := v } else { b with st1 := v }

/-- A half is reserved: filling, with ERR and XOV cleared (R270). -/
def BRing.reserve (b : BRing) (h : Nat) : BRing :=
  if h = 0 then { b with st0 := 1, err0 := false, xov0 := false, last0 := false, sc0 := 0 }
  else { b with st1 := 1, err1 := false, xov1 := false, last1 := false, sc1 := 0 }

/-- A copy has issued into a half, the last one when `last` (R270). -/
def BRing.issued (b : BRing) (h scope : Nat) (last : Bool) : BRing :=
  if h = 0 then { b with last0 := b.last0 || last, sc0 := max b.sc0 scope }
  else { b with last1 := b.last1 || last, sc1 := max b.sc1 scope }

/-- Logical offset of the box side at byte `b` of what a command writes or reads (R253, R276). -/
def SlipCmd.boxOff (c : SlipCmd) (b : Nat) : Nat :=
  match c.rows with
  | none => c.off + b
  | some ys =>
    let pb := max 1 c.tlr.planeBytes
    c.off + ((ys.getD (b / pb) 0) % (c.tlr.box (c.tlr.ndim - 1) : Int)).toNat * pb + b % pb

/-- Lines of local memory that bytes [a, a + n) of a command's box touch (R28, R276). -/
def SlipCmd.linesAt (c : SlipCmd) (a n : Nat) : List Nat :=
  match c.rows with
  | none => physLines c.tlr.swz (c.off + a) n
  | some _ => dedupNat ((List.range n).map (fun i => phys c.tlr.swz (c.boxOff (a + i)) / 64))

/-- The team whose presence bits a command clears and sets: none when it writes no local memory (R261). -/
def SlipCmd.dstTeam (c : SlipCmd) : Option Nat :=
  match c.dst with
  | .loc => if c.dir = 1 then none else some c.team
  | .rem t _ => some t
  | .bst _ => none

/-- The effects of one lane's issue (R257). -/
def State.slipIssue (s : State) (f : SlipForm) (c : SlipCmd) (es : List LockEnt) : State :=
  let core := (s.team c.team).core
  let s := s.charged c.team c.report c.bytes c.tlr.scope
  let s := s.modCore core (fun k => { k.addLocks es with slips := k.slips ++ [c] })
  let s := match c.dstTeam with
    | none => s
    | some t => s.modTeam t (·.clearLines (c.linesAt 0 c.bytes))
  let s := match c.report with
    | .ring t hdr _ => s.modTeam t (·.ringReserve hdr)
    | _ => s
  match c.dst with
  | .bst h => s.modCore core (fun k => { k with bring :=
      (if f.e.isNew then k.bring.reserve h else k.bring).issued h c.tlr.scope f.e.isLast })
  | _ => s

/-- The ownership and the open half after the lanes' `.bs` copies (R269, R270). -/
def BRing.withOpen (b n : BRing) : BRing := { b with owner := n.owner, cur := n.cur, curv := n.curv, widx := n.widx }

/-- R256, R257. -/
def slipRun (o : Ops) (f : SlipForm) (s : State) : Host.Outcome State Fault Refusal :=
  withRun o { d := .counter, helps := false } s (fun r =>
    let ls := r.goodLive
    let r := r.check ls (fun _ => if f.ring then none else reportFault r.T 0x01 0x0F o.d)
    match r.records (ls.filter r.ok) with
    | .parked s => s
    | .go r recs =>
      let k := r.s0.core r.core
      let p := (recs.foldl (fun (p : SlipPrep) x => p.lane f x.1 x.2) ⟨r, k.bring, r.T, 0, [], []⟩).together f
      if !(p.waits f).isEmpty then r.park (p.waits f)
      else if p.cmds.isEmpty then p.r.finish
      else
        let s := p.cmds.foldl (fun s x => s.slipIssue f x.1 x.2) p.r.s
        let s := { s with nextId := s.nextId + p.cmds.length }
        let s := s.modTeam r.t (fun T => { T with lbs := p.T.lbs })
        let s := if f.dir = 3 then s.modCore r.core (fun k => { k with bring := k.bring.withOpen p.bring }) else s
        { p.r with s := s }.finish)

/-- R254, R258. -/
def execSlipLd (o : Ops) (ring : Bool) (e : SlipE) (s : State) : Host.Outcome State Fault Refusal := slipRun o ⟨0, ring, none, none, e⟩ s
/-- R254, R258. -/
def execSlipSt (o : Ops) (e : SlipE) (s : State) : Host.Outcome State Fault Refusal := slipRun o ⟨1, false, none, none, e⟩ s
/-- R254, R258. -/
def execSlipRl (o : Ops) (ring : Bool) (e : SlipE) (s : State) : Host.Outcome State Fault Refusal := slipRun o ⟨2, ring, none, none, e⟩ s
/-- R254, R258, R270. -/
def execSlipBs (o : Ops) (e : SlipE) (s : State) : Host.Outcome State Fault Refusal := slipRun o ⟨3, false, none, none, e⟩ s
/-- R254, R272. -/
def execSlipx (o : Ops) (bs ring : Bool) (tgt : XTgt) (e : SlipE) (s : State) : Host.Outcome State Fault Refusal :=
  slipRun o ⟨if bs then 3 else 0, ring, some tgt, none, e⟩ s
/-- R254, R275. -/
def execSlipc (o : Ops) (lb : Nat) (e : SlipE) (s : State) : Host.Outcome State Fault Refusal := slipRun o ⟨0, false, none, some lb, e⟩ s

/-! ### Pieces -/

/-- The command expands MX blocks. -/
def SlipCmd.x (c : SlipCmd) : Bool := c.tgt.isSome

/-- Whose accesses a command makes. -/
def SlipCmd.eng (c : SlipCmd) (s : State) (core : Nat) : Eng := s.engOf core c.team c.asid c.root c.sup

/-- The issuing lane of a command. -/
def SlipCmd.issuer (c : SlipCmd) : Issuer := ⟨c.team, c.crs, c.lane, c.id⟩

/-- Position of unit `i` of what a command moves (R253, R276). -/
def SlipCmd.unitPos (c : SlipCmd) (i : Nat) : List Int :=
  match c.rows with
  | none => c.tlr.pos c.x c.coords i
  | some ys =>
    let h := c.tlr.ndim - 1
    let per := max 1 (c.tlr.units false / c.tlr.box h)
    (c.tlr.pos false c.coords (i % per)).set h (ys.getD (i / per) 0)

/-- The destination element that byte `b` of an expanded box belongs to, or the block whose scale it is (R274). -/
inductive XByte where
  | elem (e byte : Nat)
  | scale (blk : Nat)
  | gap
  deriving DecidableEq, Repr

/-- What byte `b` of an expanded box is (R274). -/
def xByte (tgt : XTgt) (units b : Nat) : XByte :=
  match tgt with
  | .bf16 => .elem (b / 2) (b % 2)
  | .e4m3 => .elem b 0
  | .mx8 => if b < 32 * units then .elem b 0
            else if b < roundUp (32 * units) 64 then .gap else .scale (b - roundUp (32 * units) 64)

/-- The unit that a byte of the box needs. -/
def SlipCmd.unitOf (c : SlipCmd) (b : Nat) : Option Nat :=
  match c.tgt with
  | none => some (b / c.tlr.unitB false)
  | some g => match xByte g (c.tlr.units true) b with
    | .elem e _ => some (e / 32)
    | .scale k => some k
    | .gap => none

/-- The bytes of a piece. -/
def SlipCmd.span (c : SlipCmd) (p : Nat) : List Nat := (List.range 64).filterMap (fun i => if 64 * p + i < c.bytes then some (64 * p + i) else none)

/-- The address that byte `b` of a box is copied out to (R253): none when it is out of bounds. -/
def SlipCmd.outAddr (c : SlipCmd) (b : Nat) : Option Nat :=
  let q := c.unitPos (b / c.tlr.unitB false)
  if c.tlr.inBounds false q then some (((c.tlr.addr false q).toNat + b % c.tlr.unitB false) % 2 ^ 64) else none

/-- The 8-byte word of the destination in which byte `b` of the box lands, if it is written. -/
def SlipCmd.dstWord (c : SlipCmd) (b : Nat) : Option Nat :=
  if c.dir = 1 then (c.outAddr b).map (· / 8) else some (c.boxOff b / 8)

/-- The bytes of the box that a piece writes, in box order (R261): those of its span, but that an aligned 8-byte word of the
destination is written whole, with the piece in which its first byte lies. -/
def SlipCmd.writes (c : SlipCmd) (p : Nat) : List Nat :=
  if c.dir != 1 && c.rows.isNone then c.span p
  else
    let before := (List.range (64 * p)).filterMap c.dstWord
    let mine := ((c.span p).filterMap c.dstWord).filter (fun w => !before.contains w)
    (List.range c.bytes).filter (fun b => 64 * p ≤ b && (c.dstWord b).any mine.contains)

/-- Bytes that a piece's writes count for as they land (R261): those that it writes, whichever piece's span they lie in. -/
def SlipCmd.share (c : SlipCmd) (p : Nat) : Nat := (c.writes p).length

/-- Bytes of a piece's span that are never written (R261): those of a box copied out that are out of bounds. -/
def SlipCmd.unwritten (c : SlipCmd) (p : Nat) : Nat := if c.dir = 1 then ((c.span p).filter (fun b => (c.outAddr b).isNone)).length else 0

/-- The in-bounds units of a piece. -/
def SlipCmd.unitsIn (c : SlipCmd) (p : Nat) : List Nat :=
  (dedupNat ((c.writes p).filterMap c.unitOf)).filter (fun i => c.tlr.inBounds c.x (c.unitPos i))

/-- The bytes of the tensor side that a piece reads: its in-bounds units, and their scales when it expands them. -/
def SlipCmd.needs (c : SlipCmd) (p : Nat) : List (Nat × Nat) :=
  (c.unitsIn p).flatMap (fun i =>
    let q := c.unitPos i
    ((c.tlr.addr c.x q).toNat, c.tlr.unitB c.x) :: (if c.x then [((c.tlr.scaleAddr q).toNat, 1)] else []))

/-- Byte `b` of an element of fill (R250). -/
def Tlr.fillByte (t : Tlr) (b : Nat) : Byte := if t.fill then BitVec.ofNat 8 (fld t.fillval (8 * (b % t.eb % 4)) 8) else 0

/-- The pattern of element `k` of a block among what was read. -/
def SlipCmd.elemAt (c : SlipCmd) (d : EngData) (a k : Nat) : Nat :=
  let w := mxBits c.tlr.efmt
  fld (leVal ((List.range (c.tlr.unitB true)).map (fun i => d.at (a + i)))) (w * k) w

/-- Byte `b` that a command writes into its box, with Xov (R253, R273). -/
def SlipCmd.byteAt (c : SlipCmd) (d : EngData) (gap : Byte) (b : Nat) : Byte × Bool :=
  match c.tgt with
  | none =>
    let q := c.unitPos (b / c.tlr.unitB false)
    if c.tlr.inBounds false q then (d.at ((c.tlr.addr false q).toNat + b % c.tlr.unitB false), false) else (c.tlr.fillByte b, false)
  | some g => match xByte g (c.tlr.units true) b with
    | .gap => (gap, false)
    | .scale k =>
      let q := c.unitPos k
      (if c.tlr.inBounds true q then d.at (c.tlr.scaleAddr q).toNat else 0, false)
    | .elem e i =>
      let q := c.unitPos (e / 32)
      if c.tlr.inBounds true q then
        let y := expandElem g c.tlr.efmt (d.at (c.tlr.scaleAddr q).toNat).toNat (c.elemAt d (c.tlr.addr true q).toNat (e % 32))
        (BitVec.ofNat 8 (fld y.1 (8 * i) 8), y.2)
      else (0, false)

/-- The 8-byte words of local memory in which some bytes lie are read, each whole and once in the life of the command (R259). -/
def SlipCmd.readSrc (c : SlipCmd) (T : Team) (as : List Nat) : SlipCmd :=
  let new := (dedupNat (as.map (fun a => a / 8 * 8))).filter (fun w => !c.buf.any (fun p => p.1 == w))
  { c with buf := c.buf ++ new.map (fun w => (w, (List.range 8).map (fun i => T.locByte (w + i)))) }

/-- A byte of local memory as the command has read it. -/
def SlipCmd.srcByte (c : SlipCmd) (a : Nat) : Byte :=
  match c.buf.find? (fun p => p.1 == a / 8 * 8) with
  | some p => p.2.getD (a % 8) 0
  | none => 0

/-- Where the byte of a box that is copied out lies (R178). -/
def SlipCmd.boxByte (c : SlipCmd) (b : Nat) : Nat := phys c.tlr.swz (c.off + b)

/-- What a piece of a `.st` copy writes, once its bytes are read: the in-bounds ones, in box order (R261). -/
def SlipCmd.chunks (c : SlipCmd) (p : Nat) : List Chunk :=
  (c.writes p).foldl (fun cs b => match c.outAddr b with
    | some x => addChunk cs x (c.srcByte (c.boxByte b))
    | none => cs) []

/-- The pieces left after one is taken. The pieces of a box copied out that write nothing are read with the last one that does, so that their
bytes never land later (R261). -/
def SlipCmd.rest (c : SlipCmd) (p : Nat) : List Nat :=
  let rest := c.todo.filter (· != p)
  if c.dir = 1 && rest.all (fun q => (c.writes q).isEmpty) then [] else rest

/-- The bytes of a box that a piece copied out reads: its span, what it writes, and the pieces that are read with it. -/
def SlipCmd.readsOut (c : SlipCmd) (p : Nat) : List Nat :=
  c.span p ++ c.writes p ++ (if (c.rest p).isEmpty then (c.todo.filter (· != p)).flatMap c.span else [])

/-- The lines of the tensor side that a piece touches. -/
def SlipCmd.lines (c : SlipCmd) (p : Nat) : List Nat := if c.tlr.loc then [] else linesOf (c.needs p)

/-- A Slip command of a core, changed. -/
def State.modSlip (s : State) (core id : Nat) (f : SlipCmd → SlipCmd) : State :=
  s.modCore core (fun k => { k with slips := k.slips.map (fun c => if c.id == id then f c else c) })

/-- The core and the command with a number. -/
def State.slip? (s : State) (id : Nat) : Option (Nat × SlipCmd) :=
  s.cores.findSome? (fun p => (p.2.slips.find? (fun c => c.id == id)).map (fun c => (p.1, c)))

/-- The command goes on. -/
def SlipCmd.active (c : SlipCmd) : Bool := !c.err && c.stall.isNone && c.fail.isNone

/-- Every piece has landed, or the command is abandoned. -/
def SlipCmd.isOver (c : SlipCmd) : Bool := c.err || (c.active && c.todo.isEmpty && c.landing.isEmpty)

/-- XOV of a half of the B store (R273). -/
def BRing.orXov (b : BRing) (h : Nat) (x : Bool) : BRing := if h = 0 then { b with xov0 := b.xov0 || x } else { b with xov1 := b.xov1 || x }

/-- Scope of what fills a half. -/
def BRing.scope (b : BRing) (h : Nat) : Nat := if h = 0 then b.sc0 else b.sc1
/-- ERR of a half. -/
def BRing.err (b : BRing) (h : Nat) : Bool := if h = 0 then b.err0 else b.err1
/-- XOV of a half. -/
def BRing.xov (b : BRing) (h : Nat) : Bool := if h = 0 then b.xov0 else b.xov1
/-- LAST has issued into a half. -/
def BRing.last (b : BRing) (h : Nat) : Bool := if h = 0 then b.last0 else b.last1

/-- Requests of `rwait.b` on a core, oldest first. -/
def State.halfWaiters (s : State) (core : Nat) : List Flight :=
  s.flights.filter (fun f => f.kind == .rwaitB && f.stage == 0 && f.core == core && (mapGet? f.team s.teams).isSome)

/-- The number of the request that a started loop has made for a half and that is not yet served (R297). -/
def Core.loopWaiter (k : Core) : Option Nat :=
  match k.wheel.head? with
  | some w => if w.half.isNone then w.req else none
  | none => none

/-- The loop at the head of the queue takes a half, which its team then holds (R297). -/
def State.giveLoop (s : State) (core h : Nat) : State :=
  match (s.core core).wheel with
  | [] => s
  | w :: r => (s.modCore core (fun k => { k with wheel := { w with half := some h } :: r })).modTeam w.team
      (fun T => { T with wheelHalf := some h })

/-- Hand out full halves to the requests of `rwait.b` and of loops in the order in which they reached the B store (R271,
R297). -/
def State.serveHalves (s : State) (core : Nat) : Nat → State
  | 0 => s
  | fuel + 1 =>
    let k := s.core core
    let b := k.bring
    let h := b.ridx
    if b.st h != 2 then s
    else
      let take (s : State) : State := s.modCore core (fun k => { k with bring := { k.bring.setSt h 3 with ridx := 1 - h } })
      let v := wordOf (bit (b.xov h) * 2 ^ 9 + bit (b.err h) * 2 ^ 8 + h)
      let give (f : Flight) : State := (take s).modFlight f.id (fun f => { f with stage := 1, val := v, scope := b.scope h })
      match (s.halfWaiters core).head?, k.loopWaiter with
      | none, none => s
      | some f, none => State.serveHalves (give f) core fuel
      | none, some _ => State.serveHalves ((take s).giveLoop core h) core fuel
      | some f, some n => State.serveHalves (if f.id < n then give f else (take s).giveLoop core h) core fuel

/-- ERR of a half set. -/
def BRing.orErr (b : BRing) (h : Nat) (x : Bool) : BRing := if h = 0 then { b with err0 := b.err0 || x } else { b with err1 := b.err1 || x }

/-- A half into which LAST has issued is full once every copy into it has landed or been abandoned (R270). -/
def State.fullHalf (s : State) (core h : Nat) : State :=
  let k := s.core core
  if k.bring.last h && k.bring.st h == 1 && !k.slips.any (fun c => c.dst == .bst h && !c.isOver) then
    (s.modCore core (fun k => { k with bring := k.bring.setSt h 2 })).serveHalves core 2
  else s

/-- A copy into a half that has landed completely, or is abandoned, may make it full. -/
def State.halfLanded (s : State) (core : Nat) (c : SlipCmd) : State :=
  match c.dst with
  | .bst h => if c.isOver then s.fullHalf core h else s
  | _ => s

/-- A piece may be taken, or what it wrote is performed at SCOPE. -/
def State.pieceDue (s : State) (core : Nat) (c : SlipCmd) (p : Nat) : Bool :=
  c.active && (match c.landing.find? (fun x => x.1 == p) with
    | some x => s.landedAt x.2 c.tlr.scope
    | none => c.todo.contains p && (c.dir != 1 || c.todo.head? == some p) && !((c.dir == 1 || c.tlr.loc) && s.unitBehind c.issuer) &&
        s.engFree (c.eng s core) c.issuer (c.lines p) (if c.dir = 1 then .store else .load))

/-- Bytes of a command that have not landed: what is never written counts as landed once it is read, what a piece writes with that piece
(R261). -/
def SlipCmd.unlanded (c : SlipCmd) : Nat :=
  (c.todo.map (fun p => c.share p + c.unwritten p)).foldl (· + ·) 0 + (c.landing.map (fun x => c.share x.1)).foldl (· + ·) 0

/-- A command that is over holds its range locks no longer (R29), but for one whose report is still to be made: an entry to push (R262),
or the slot of a ring that a copy has filled (R264). -/
def SlipCmd.unlocked (c : SlipCmd) : Bool :=
  c.isOver && (match c.report with
    | .port _ | .ring _ _ _ => false
    | _ => true)

/-- The lock entries of a command are released with its completion (R29). -/
def State.unlockSlip (s : State) (core : Nat) (c : SlipCmd) : State :=
  if c.unlocked then s.modCore core (fun k => k.dropLocks c.id) else s

/-- A piece has landed: its bytes count (R26), and its lines are present once no other piece writes them (R28). -/
def State.pieceLanded (s : State) (core : Nat) (c : SlipCmd) (p : Nat) : State :=
  let c' := { c with todo := c.rest p, landing := c.landing.filter (fun x => x.1 != p),
                     refusals := c.refusals.filter (· != p) }
  let s := (((s.modSlip core c.id (fun _ => c')).landed c.team c.report (c.unlanded - c'.unlanded)).halfLanded core c').unlockSlip core c'
  match c.dstTeam with
  | none => s
  | some t =>
    let rest := c'.todo.flatMap (fun q => c.linesAt (64 * q) (c.span q).length)
    s.modTeam t (·.setLines ((c.linesAt (64 * p) (c.span p).length).filter (fun x => !rest.contains x)))

/-- A piece's writes are under way: what it never writes has landed with the read of the box (R261). -/
def State.pieceSent (s : State) (core : Nat) (c : SlipCmd) (p wid : Nat) : State :=
  let c' := { c with todo := c.rest p, landing := c.landing ++ [(p, wid)], refusals := c.refusals.filter (· != p) }
  (s.modSlip core c.id (fun _ => c')).landed c.team c.report (c.unlanded - c'.unlanded)

/-- A fault of a piece on the tensor side stalls the command when it is XLATE; a refusal is tried again; anything else abandons
the command (R31, R277). -/
def State.slipFails (s : State) (core : Nat) (c : SlipCmd) (p cls : Nat) (addr : Word) : State :=
  let now := s.cycle (coreCol core)
  let ended : State := s.modSlip core c.id (fun c => { c with fail := some (cls, addr) })
  if cls = 0x09 then s.modSlip core c.id (fun c => { c with stall := some (now, now, addr) })
  else if cls = 0x0B then match s.engRefused core c.asid (c.refusals.filter (· == p)).length with
    | some s => s.modSlip core c.id (fun c => { c with refusals := c.refusals ++ [p] })
    | none => ended
  else ended

/-- The bytes of local memory in some intervals. -/
def bytesOf (xs : List (Nat × Nat)) : List Nat := xs.flatMap (fun x => (List.range x.2).map (x.1 + ·))

/-- A command that has read what a piece of a box needs of a tensor in local memory (R259). -/
def SlipCmd.fetched (c : SlipCmd) (T : Team) (p : Nat) : SlipCmd := if c.tlr.loc then c.readSrc T (bytesOf (c.needs p)) else c

/-- What a piece reads on the tensor side, of local memory what the command has fetched (R253, R259, R260). -/
def State.pieceData (s : State) (core : Nat) (c : SlipCmd) (p : Nat) : EngOut :=
  let xs := c.needs p
  if !c.tlr.loc then s.engGather (c.eng s core) xs
  else
    let T := s.team c.team
    match xs.find? (fun x => T.locSize < x.1 + x.2) with
    | some x => .bad 0x07 (wordOf x.1)
    | none => match xs.find? (fun x => T.locBad x.1 x.2) with
      | some x => .bad 0x17 (wordOf x.1)
      | none => .ok (xs.map (fun x => (x.1, (List.range x.2).map (fun i => c.srcByte (x.1 + i))))) s

/-- Bytes of a box, by their place in it, written to a local memory (R178, R276). -/
def SlipCmd.putLoc (c : SlipCmd) (bs : List (Nat × Byte)) (T : Team) : Team :=
  let at_ (b : Nat) : Nat := phys c.tlr.swz (c.boxOff b)
  { T with
    lmem := bs.foldl (fun m x => mapPut (at_ x.1) x.2 m) T.lmem
    lbad := T.lbad.filter (fun w => !((List.range 8).all (fun j => bs.any (fun x => at_ x.1 == w + j)))) }

/-- The bytes of a piece cover a part of an uncorrectable word of their destination (R400). -/
def State.boxBad (s : State) (core : Nat) (c : SlipCmd) (bs : List Nat) : Bool :=
  match c.dst with
  | .loc => partlyBad (s.team c.team).lbad (bs.map (fun b => phys c.tlr.swz (c.boxOff b)))
  | .rem t _ => partlyBad (s.team t).lbad (bs.map (fun b => phys c.tlr.swz (c.boxOff b)))
  | .bst h => partlyBad (s.core core).bpoison (bs.map (fun b => h * 2 ^ 18 + c.off + b))

/-- Bytes of piece `p` stand at their destination. -/
def State.putBox (s : State) (core : Nat) (c : SlipCmd) (p : Nat) (bs : List (Nat × Byte)) : State :=
  match c.dst with
  | .loc => s.modTeam c.team (c.putLoc bs)
  | .rem t _ => s.modTeam t (c.putLoc bs)
  | .bst h => s.modCore core (fun k => { k with
      bring := { k.bring with bytes := putBytes k.bring.bytes (h * 2 ^ 18 + c.off + 64 * p) (bs.map (·.2)) }
      bpoison := clearPoison k.bpoison (h * 2 ^ 18 + c.off + 64 * p) bs.length })

/-- A saturation is noted in the command, in the half that it fills and in the team's Slip status (R268, R273). -/
def State.noteXov (s : State) (core : Nat) (c : SlipCmd) : State :=
  let s := (s.modSlip core c.id (fun c => { c with xov := true })).modTeam c.team (fun T => { T with slipErr := T.slipErr ||| 1 })
  match c.dst with
  | .bst h => s.modCore core (fun k => { k with bring := k.bring.orXov h true })
  | _ => s

/-- A piece into a box (R253, R259, R273). -/
def State.pieceIn (s : State) (core : Nat) (c : SlipCmd) (p : Nat) : State :=
  let c := c.fetched (s.team c.team) p
  match s.pieceData core c p with
  | .bad cls a => s.slipFails core c p cls a
  | .ok d s =>
    if s.boxBad core c (c.writes p) then s.slipFails core c p 0x17 (wordOf (c.off + 64 * p)) else
    let g := s.freeBytes 1
    let out := (c.writes p).map (fun b => (b, c.byteAt d (g.1.getD 0 0) b))
    let s := g.2.putBox core c p (out.map (fun x => (x.1, x.2.1)))
    let xov := out.any (·.2.2)
    let s := if xov then s.noteXov core c else s
    s.pieceLanded core { c with xov := c.xov || xov } p

/-- A piece out of a box (R258, R261): it lands once its writes are performed at SCOPE. -/
def State.pieceOut (s : State) (core : Nat) (c : SlipCmd) (p : Nat) : State :=
  let wid := s.nextId
  match (c.readsOut p).find? (fun b => (s.team c.team).locBad (c.boxByte b) 1) with
  | some b => s.slipFails core c p 0x17 (wordOf (c.off + b))
  | none =>
  let c := c.readSrc (s.team c.team) ((c.readsOut p).map c.boxByte)
  match State.engWrite { s with nextId := s.nextId + 1 } (c.eng s core) c.issuer (c.chunks p) wid with
  | .bad cls a => s.slipFails core c p cls a
  | .ok _ s =>
    let s := s.trackWrite c.issuer core wid
    if s.landedAt wid c.tlr.scope then s.pieceLanded core c p else s.pieceSent core c p wid

/-- R26, R28, R253, R259 to R261, R273. -/
def execCopyPieceLands (id piece : Nat) (s : State) : Host.Outcome State Fault Refusal :=
  match s.slip? id with
  | none => .next s
  | some (core, c) =>
    if !s.pieceDue core c piece then .next s
    else
      let s := { s with timers := mapDel id s.timers }
      .next (if c.landing.any (fun x => x.1 == piece) then s.pieceLanded core c piece
      else if c.dir = 1 then s.pieceOut core c piece
      else s.pieceIn core c piece)

/-! ### Abandonment -/

/-- What is left of a Slip command is given up (R27, R278): its bytes count as landed, its lock entries go (R29), its lines are present,
and a half that it fills has ERR. -/
def State.dropSlip (s : State) (core : Nat) (c : SlipCmd) : State :=
  let c' := { c with err := true, todo := [], landing := [], stall := none, fail := none }
  let s := ((s.landed c.team c.report c.unlanded).modSlip core c.id (fun _ => c')).modCore core (fun k => k.dropLocks c.id)
  let s := match c.dstTeam with
    | none => s
    | some t => s.modTeam t (·.setLines (c.linesAt 0 c.bytes))
  match c.dst with
  | .bst h => (s.modCore core (fun k => { k with bring := k.bring.orErr h true })).halfLanded core c'
  | _ => s

/-- A Slip command is abandoned (R278). -/
def State.abandonSlip (s : State) (core : Nat) (c : SlipCmd) (reason : Nat) (addr : Word) : State :=
  let s := s.dropSlip core c
  let s := s.modTeam c.team (fun T => { T with slipErr := setFld T.slipErr 8 8 reason ||| 2 })
  s.abandonFor c.issuer 0x10 reason addr c.ipc

/-! ### Completion -/

/-- The status word of a completion-port entry (R262). -/
def SlipCmd.status (c : SlipCmd) : Nat :=
  c.e20 * 2 ^ 44 + c.bytes * 2 ^ 23 + bit c.xov * 2 ^ 9 + bit c.err * 2 ^ 8 + c.dir * 2 ^ 6 + c.lane

/-- The push of a Slip command can be made: the team's pool of 64 entries has room (R262). -/
def State.slipPushDue (s : State) (c : SlipCmd) : Bool :=
  c.isOver && !c.pushed && (match c.report with
    | .port _ => (s.team c.team).poolUsed 0x01 0x0F < 64
    | _ => false)

/-- The command can complete. -/
def SlipCmd.completeDue (c : SlipCmd) : Bool :=
  c.isOver && (match c.report with
    | .port _ => c.pushed
    | _ => true)

/-- Requests that wait for a ring, oldest first. -/
def State.ringWaiters (s : State) (t hdr : Nat) : List Flight :=
  s.flights.filter (fun f => f.kind == .rwait && f.stage == 0 && f.peer == t && f.pa == hdr)

/-- Hand out the slots of a ring that are filled to the requests that wait, in their order (R264, R267). -/
def State.serveRing (s : State) (t hdr : Nat) : Nat → State
  | 0 => s
  | fuel + 1 =>
    let T := s.team t
    match s.ringWaiters t hdr with
    | [] => s
    | f :: _ =>
      if !T.ringOk hdr || !bitN (T.ringFill hdr) (T.ringR hdr) then s
      else
        let v := T.ringGive hdr
        let sc := mapGet 0 (slotKey hdr (T.ringR hdr)) T.ringScope
        State.serveRing ((s.modTeam t (·.ringHand hdr)).modFlight f.id (fun f => { f with stage := 1, val := v, scope := sc })) t hdr fuel

/-- A copy fills its ring slot (R264); a header that breaks the rules, or that has an uncorrectable word, is left as it is, and its issuer
told (R263, R400). -/
def State.fillSlot (s : State) (c : SlipCmd) (t hdr slot : Nat) : State :=
  if (s.team t).locBad hdr 64 then s.deferAt c.team c.crs c.lane c.id 0x17 0x85 (wordOf hdr) c.ipc
  else if !(s.team t).ringOk hdr || !bitN ((s.team t).ringRes hdr) slot then
    s.deferAt c.team c.crs c.lane c.id 0x10 0x13 (wordOf hdr) c.ipc
  else
    (s.modTeam t (fun T => { T.ringFilled hdr slot c.err c.xov with
      ringScope := mapPut (slotKey hdr slot) c.tlr.scope T.ringScope })).serveRing t hdr 16

/-- A Slip command completes (R29, R262, R264). -/
def State.completeSlip (s : State) (core : Nat) (c : SlipCmd) : State :=
  let s := s.modCore core (fun k => { k.dropLocks c.id with slips := k.slips.filter (fun x => x.id != c.id) })
  match c.report with
  | .ring t hdr slot => s.fillSlot c t hdr slot
  | _ => s

/-- R262, R264, R270. -/
def execCopyComplete (id : Nat) (s : State) : Host.Outcome State Fault Refusal :=
  match s.slip? id with
  | none => .next s
  | some (core, c) => if c.completeDue then .next (s.completeSlip core c) else .next s

/-! ### Ring instructions -/

/-- The destination of a result that every lane that performs the instruction receives (R73, R265). -/
def Run.destAll (r : Run) : Dest :=
  match r.o.d with
  | .v n => .vs (r.good.map (fun l => (l, n)))
  | .vx n => .vs (r.good.map (fun l => (l, (r.L l).idx r.o.ib n)))
  | .k n => if n = 0 then .none else .k n
  | _ => .none

/-- An uncorrectable word of a header that an instruction reads (R400). -/
def hdrBad (op : Opnd) (a : Word) : FltRec := { cls := 0x17, reason := 0x05, addr := a, detail := specOf op }

/-- A header may be set up at A (R266): bytes that are no header are not an existing one. -/
def rinitFault (T : Team) (op : Opnd) (a b : Word) (n : Nat) : Option FltRec :=
  let bad : FltRec := { cls := 0x10, reason := 0x13 }
  if a.toNat % 64 != 0 || n < 2 || 16 < n || b.toNat % 64 != 0 || b.toNat < 64 || 2 ^ 20 < b.toNat then some bad
  else if T.locSize < a.toNat + 64 + n * b.toNat then some { cls := 0x07, reason := 0x02, addr := a }
  else if T.locBad a.toNat 64 then some (hdrBad op a)
  else if T.ringOk a.toNat && (T.ringRes a.toNat != 0 || T.ringTaken a.toNat != 0) then some bad
  else none

/-- R266. -/
def execRinit (o : Ops) (n : Nat) (s : State) : Host.Outcome State Fault Refusal :=
  withRun o { d := .none, helps := false } s (fun r =>
    if !(r.unitWaits r.chosen.toList).isEmpty then r.park (r.unitWaits r.chosen.toList)
    else r.once (fun l => rinitFault r.T o.a.op (r.a l) (r.b l) n) (fun r l =>
      { r with s := r.s.modTeam r.t (fun T => (((T.locWrite (r.a l).toNat 8 n).locWrite ((r.a l).toNat + 8) 8
          (r.b l).toNat).locWrite ((r.a l).toNat + 16) 48 0)) }.finish))

/-- ENGINE 0x13, SPLIT or MEMERR of a header that an instruction names (R263, R265, R400). -/
def hdrFault (T : Team) (op : Opnd) (a : Word) : Option FltRec :=
  if a.toNat % 64 != 0 then some { cls := 0x10, reason := 0x13 }
  else if T.locSize < a.toNat + 64 then some { cls := 0x07, reason := 0x02, addr := a, detail := specOf op }
  else if T.locBad a.toNat 64 then some (hdrBad op a)
  else if !T.ringOk a.toNat then some { cls := 0x10, reason := 0x13 }
  else none

/-- R267: the request is served at once or waits at the unit, behind those before it. -/
def execRwait (o : Ops) (s : State) : Host.Outcome State Fault Refusal :=
  withRun o {} s (fun r =>
    if !(r.unitWaits r.chosen.toList).isEmpty then r.park (r.unitWaits r.chosen.toList)
    else r.once (fun l => hdrFault r.T o.a.op (r.a l)) (fun r l =>
      let s := r.s.send { r.request .rwait l with peer := r.t, pa := (r.a l).toNat, dest := r.destAll }
      { r with s := s.serveRing r.t (r.a l).toNat 1 }.finish))

/-- ENGINE 0x16: another team owns the B store (R269). -/
def Run.notOwner (r : Run) : Option FltRec :=
  match (r.s0.core r.core).bring.owner with
  | none => none
  | some t => if t = r.t then none else some { cls := 0x10, reason := 0x16 }

/-- R271. -/
def execRwaitB (o : Ops) (s : State) : Host.Outcome State Fault Refusal :=
  withRun o {} s (fun r => r.once (fun _ => r.notOwner) (fun r l =>
    let s := r.s.send { r.request .rwaitB l with dest := r.destAll }
    { r with s := s.serveHalves r.core 1 }.finish))

/-- The faults of `rrel` (R264, R267). -/
def rrelFault (T : Team) (op : Opnd) (a b : Word) : Option FltRec :=
  match hdrFault T op a with
  | some f => some f
  | none =>
    if wfld b 4 60 != 0 || T.ringN a.toNat ≤ b.toNat then some { cls := 0x10, reason := 0x04 }
    else if !bitN (T.ringTaken a.toNat) b.toNat then some { cls := 0x10, reason := 0x17 }
    else none

/-- R264, R267. -/
def execRrel (o : Ops) (s : State) : Host.Outcome State Fault Refusal :=
  withRun o { d := .none, helps := false } s (fun r =>
    if !(r.unitWaits r.chosen.toList).isEmpty then r.park (r.unitWaits r.chosen.toList)
    else r.once (fun l => rrelFault r.T o.a.op (r.a l) (r.b l)) (fun r l =>
      { r with s := r.s.modTeam r.t (fun T =>
          T.locWrite (r.a l).toNat 8 (setBit (T.locRead (r.a l).toNat 8) (48 + (r.b l).toNat) false)) }.finish))

/-- The team stops being owner of the B store once both halves are free, none is open and no loop of it is left (R269). -/
def State.dropOwner (s : State) (core t : Nat) : State :=
  let k := s.core core
  let loops := k.wheel.any (fun w => w.team == t && (match w.op with
    | .loop _ _ _ _ => true
    | _ => false))
  if k.bring.owner == some t && k.bring.st0 == 0 && k.bring.st1 == 0 && !k.bring.curv && !loops then
    s.modCore core (fun k => { k with bring := { k.bring with owner := none } })
  else s

/-- R269, R271. -/
def execRrelB (o : Ops) (s : State) : Host.Outcome State Fault Refusal :=
  withRun o { d := .none, helps := false } s (fun r => r.once
    (fun l => match r.notOwner with
      | some f => some f
      | none =>
        let b := (r.s0.core r.core).bring
        if wfld (r.b l) 1 63 != 0 || (b.st (r.b l).toNat != 2 && b.st (r.b l).toNat != 3) then some { cls := 0x10, reason := 0x17 }
        else none)
    (fun r l =>
      let s := r.s.modCore r.core (fun k => { k with bring := k.bring.setSt (r.b l).toNat 0 })
      let s := s.modTeam r.t (fun T => { T with wheelHalf := if T.wheelHalf = some (r.b l).toNat then none else T.wheelHalf })
      { r with s := s.dropOwner r.core r.t }.finish))

/-- R265, R268: a result that every lane receives at once; an empty D or A does not hold it up (notes/assumptions/67). -/
def rstatRun (o : Ops) (s : State) (fault : Run → Nat → Option FltRec) (val : Run → Nat → Word) (after : Run → State → State) :
    Host.Outcome State Fault Refusal :=
  withRun o { d := .now, ownA := true } s (fun r => r.once (fault r) (fun r l =>
    let r' := r.write (fun _ => { val := val r l })
    { r' with s := after r r'.s }.finish))

/-- R268. -/
def execRstatRing (o : Ops) (s : State) : Host.Outcome State Fault Refusal :=
  rstatRun o s (fun r l => if srcBad r.T (r.L l) o.ib o.a.op then some { cls := 0x17, reason := 0x05, detail := specOf o.a.op }
    else hdrFault r.T o.a.op (r.a l)) (fun r l => wordOf (r.T.locRead (r.a l).toNat 8)) (fun _ s => s)

/-- The word of `rstat.b` (R271). -/
def State.bringWord (s : State) (core : Nat) : Nat :=
  let b := (s.core core).bring
  (match b.owner with
   | none => 0
   | some t => (s.team t).slot * 2 ^ 13 + 2 ^ 12) +
  bit b.xov1 * 2 ^ 11 + bit b.xov0 * 2 ^ 10 + bit b.err1 * 2 ^ 9 + bit b.err0 * 2 ^ 8 + bit b.curv * 2 ^ 7 + b.cur * 2 ^ 6 +
  b.ridx * 2 ^ 5 + b.widx * 2 ^ 4 + b.st1 * 4 + b.st0

/-- R271. -/
def execRstatB (o : Ops) (s : State) : Host.Outcome State Fault Refusal :=
  rstatRun o s (fun _ _ => none) (fun r _ => wordOf (r.s0.bringWord r.core)) (fun _ s => s)
/-- R268. -/
def execRstatSt (o : Ops) (s : State) : Host.Outcome State Fault Refusal :=
  rstatRun o s (fun _ _ => none) (fun r _ => wordOf r.T.slipErr) (fun _ s => s)
/-- R268: the status is then cleared. -/
def execRstatStc (o : Ops) (s : State) : Host.Outcome State Fault Refusal :=
  rstatRun o s (fun _ _ => none) (fun r _ => wordOf r.T.slipErr) (fun r s => s.modTeam r.t (fun T => { T with slipErr := 0 }))

/-! ### Record queries -/

/-- R280. -/
def execTlr (o : Ops) (addr : Bool) (s : State) : Host.Outcome State Fault Refusal :=
  withRun o {} s (fun r =>
    match r.records r.good with
    | .parked s => s
    | .go r recs =>
      let val (l : Nat) (bs : List Byte) : Word :=
        if !(tlrBads bs).isEmpty then 0
        else if addr then (tlrOf bs).tensorAddr (slipCoords (r.b l) (r.cc l))
        else wordOf (tlrOf bs).boxBytes
      (recs.foldl (fun (r : Run) x => { r with s := r.s.send { r.request .load x.1 with
        helper := !r.live x.1, dest := r.destOf x.1, stage := 1, val := val x.1 x.2 } }) r).finish)

end Sys2Proof.Machine
end

