-- ==== Sys2Proof/Machine/Wheel.lean ====
section
/-! DEFINITION. The Wheel: tiles (R284, R293, R294, R302), loops (R285 to R289, R295 to R297), drains (R298 to R301), the
command queue and its reports (R290, R291), and status (R303). -/

namespace Sys2Proof.Machine

/-! ### Tiles -/

/-- Key of a tile word. -/
def accKey (tile m n : Nat) : Nat := tile * 4096 + 64 * m + n

/-- The tile word shares an uncorrectable word of the accumulator store (R400). -/
def Core.accBad (k : Core) (tile m n : Nat) : Bool := k.apoison.contains (4 * accKey tile m n / 8 * 8)

/-- What an uncorrectable word reads as: canonical NaN, or 0x8000_0000 in integer mode (R400). -/
def badWord (int : Bool) : Nat := if int then 0x8000_0000 else 0x7FC0_0000

/-- A tile word. -/
def Core.accGet (k : Core) (tile m n : Nat) : Nat := (mapGet 0 (accKey tile m n) k.acc).toNat

/-- A tile word as a Wheel command reads it (R400). -/
def Core.accRead (k : Core) (int : Bool) (tile m n : Nat) : Nat := if k.accBad tile m n then badWord int else k.accGet tile m n

/-- Words of a tile's rows and columns from 0 on are uncorrectable. -/
def Core.accBads (k : Core) (tile rows cols : Nat) : Bool :=
  k.apoison.any (fun w => w / 16384 == tile && w / 256 % 64 < rows && w / 4 % 64 < cols)

/-- Both words of a pair are written, which clears its poison (R400). -/
def Core.accClean (k : Core) (tile rows cols : Nat) : Core :=
  { k with apoison := k.apoison.filter (fun w => !(w / 16384 == tile && w / 256 % 64 < rows && w / 4 % 64 + 1 < cols)) }

/-- Write a tile word. -/
def Core.accPut (k : Core) (tile m n v : Nat) : Core := { k with acc := mapPut (accKey tile m n) (wordOf (v % 2 ^ 32)) k.acc }

/-- Every word of the tiles of a mask is +0. -/
def Core.accZero (k : Core) (tiles : Nat) : Core :=
  { k with
    acc := k.acc.filter (fun p => !bitN tiles (p.1 / 4096))
    apoison := k.apoison.filter (fun w => !bitN tiles (w / 16384)) }

/-- A team does not own a tile (R284). -/
def notOwned (T : Team) (tiles : Nat) : Bool := tiles - (tiles &&& T.tiles) != 0

/-- An ENGINE fault. -/
def engine (reason : Nat) : FltRec := { cls := 0x10, reason := reason }

/-- Another team of the core owns one of some tiles (R293). -/
def State.tilesTaken (s : State) (core t tiles : Nat) : Bool :=
  s.teams.any (fun p => p.1 != t && p.2.core == core && p.2.tiles &&& tiles != 0)

/-- Write the destination of the lane that performs an instruction, as an ALU result. -/
def Run.writeOne (r : Run) (l : Nat) (v : Word) : Run :=
  { r with s := match r.o.d with
      | .k n => r.s.modTeam r.t (fun T => T.kPut n v)
      | d => r.s.modLane r.t r.c l (fun L => L.putReg r.o.ib d v) }

/-- R293. -/
def execWcfg (o : Ops) (s : State) : Host.Outcome State Fault Refusal :=
  withRun o { helps := false } s (fun r => r.once
    (fun l => if wfld (r.a l) 16 48 != 0 then some (engine 0x20)
              else if s.tilesTaken r.core r.t (wfld (r.a l) 0 16) then some (engine 0x21) else none)
    (fun r l =>
      let old := r.T.tiles
      let new := wfld (r.a l) 0 16
      let gone := old - (old &&& new)
      if (s.core r.core).wheel.any (fun w => w.team == r.t && w.op.names gone) then r.park [.wheelTiles gone]
      else
        let s := (r.s.modCore r.core (·.accZero (new - (new &&& old)))).modTeam r.t (fun T => { T with tiles := new })
        (Run.writeOne { r with s := s } l (wordOf old)).finish))

/-- The status of a team (R303). -/
def State.wheelWord (s : State) (t : Nat) : Nat :=
  let T := s.team t
  T.wheelErr + ((s.coreOf t).wheel.filter (fun w => w.team == t)).length * 2 ^ 24 + T.tiles

/-- R303: an empty D does not hold it up (notes/assumptions/67). -/
def execWstat (o : Ops) (clr : Bool) (s : State) : Host.Outcome State Fault Refusal :=
  withRun o { d := .now } s (fun r =>
    let r' := r.write (fun _ => { val := wordOf (s.wheelWord r.t) })
    (if clr && !r.goodLive.isEmpty then { r' with s := r'.s.modTeam r.t (fun T => { T with wheelErr := 0 }) } else r').finish)

/-! ### The queue -/

/-- D of `wloop` and `wdrain` (R291): `k0` names no report. -/
def wheelReport (T : Team) (d : Opnd) : Report := if d = .k 0 then .none else reportOf T d

/-- The check of D (R291, R26). -/
def wheelDFault (T : Team) (d : Opnd) (count : Nat) : Option FltRec :=
  if d = .k 0 then none
  else match reportFault T 0x10 0x1F d with
    | some f => some f
    | none => if T.counterFull (reportOf T d) count then some (engine 0x19) else none

/-- A command of the lane that performs an instruction. -/
def Run.wcmd (r : Run) (l : Nat) (ins : Instr) (op : WOp) (report : Report) (count scope : Nat) : WCmd :=
  { id := r.s.nextId, team := r.t, crs := r.c, lane := l, asid := r.T.asid, root := r.T.ptroot, sup := r.T.sup, ipc := r.ip,
    ins := ins, op := op, report := report, count := count, scope := scope }

/-- What a command waits for that has passed its checks: room in the queue and in the lock table, and the locks of R30. A loop waits
for no lock of its panels: the Wheel waits at each line instead, and a copy into the panel feeds the queued loop (R286, R296, R305;
notes/assumptions/92). -/
def Run.wheelWaits (r : Run) (w : WCmd) (es : List LockEnt) : List Wait :=
  let k := r.s0.core r.core
  (if k.wheel.length < 8 then [] else [Wait.wheelRoom]) ++
  (match w.op with
   | .loop _ _ _ _ => if lockRoom k es.length then [] else [Wait.lockRoom es.length]
   | _ => if locksFree k es then [] else [Wait.locks es])

/-- Queue a command with its lock entries, or park (R290, R29, R30). -/
def Run.wqueue (r : Run) (w : WCmd) (es : List LockEnt) (mark : State → State) : State :=
  let ws := r.wheelWaits w es
  if !ws.isEmpty then r.park ws
  else
    let s := { r.s with nextId := r.s.nextId + 1 }
    let s := s.charged r.t w.report w.count w.scope
    let s := s.modCore r.core (fun k => { k.addLocks es with wheel := k.wheel ++ [w] })
    { r with s := (mark s).modTeam r.t (·.clearLines w.lines) }.finish

/-- R294. -/
def execWzero (o : Ops) (s : State) : Host.Outcome State Fault Refusal :=
  withRun o { d := .none, helps := false } s (fun r => r.once
    (fun l => if wfld (r.a l) 16 48 != 0 then some (engine 0x20)
              else if notOwned r.T (r.a l).toNat then some (engine 0x22) else none)
    (fun r l => if r.a l = 0 then r.finish
      else r.wqueue (r.wcmd l (.wzero o) (.zero (r.a l).toNat) .none 0 0) [] id))

/-- The fault of a lane of `wacc` (R302). -/
def waccFault (T : Team) (a : Word) : Option FltRec :=
  if wfld a 15 49 != 0 then some (engine 0x20)
  else if notOwned T (2 ^ wfld a 0 4) then some (engine 0x22) else none

/-- Register of a `v` destination. -/
def vNum : Opnd → Nat
  | .v n => n
  | _ => 0

/-- R290, R302: the lowest live lane issues the command, and D goes empty in every lane that performs the read. -/
def execWaccRd (o : Ops) (s : State) : Host.Outcome State Fault Refusal :=
  withRun o {} s (fun r =>
    let r := r.check r.good (fun l => waccFault r.T (r.a l))
    match r.goodLive with
    | [] => { r with helps := false }.finish
    | l :: _ => r.wqueue (r.wcmd l (.waccRd o) (.rd (r.good.map (fun l => (l, r.a l))) (vNum o.d)) .none 0 0) []
        (fun s => r.good.foldl (fun s l => s.modLane r.t r.c l (fun L => L.vEmpty (vNum o.d))) s))

/-- R302. -/
def execWaccWr (o : Ops) (s : State) : Host.Outcome State Fault Refusal :=
  withRun o { d := .none, helps := false } s (fun r =>
    let r := r.check r.goodLive (fun l => waccFault r.T (r.a l))
    match r.goodLive with
    | [] => r.finish
    | l :: _ => r.wqueue (r.wcmd l (.waccWr o) (.wr (r.goodLive.map (fun l => (l, r.a l, r.b l)))) .none 0 0) [] id)

/-! ### Loops: operands -/

/-- Bytes of 32 elements of a format (R285). -/
def wBytes (fmt : Nat) : Nat := ([64, 64, 32, 32, 24, 24, 16, 32] : List Nat).getD fmt 32

/-- Bits of an element. -/
def wBits (fmt : Nat) : Nat := wBytes fmt / 4

/-- AADDR, AINC and ASWZ of A; REL, BH, BSC, BINC and BOFF of B; KT, NN, MM and KSTEPS of C (R295). -/
def aAddr (a : Word) : Nat := wfld a 0 20
/-- AINC. -/
def aInc (a : Word) : Nat := wfld a 20 20
/-- ASWZ. -/
def aSwz (a : Word) : Nat := wfld a 40 2
/-- REL. -/
def bRel (b : Word) : Bool := bitN b.toNat 37
/-- BH. -/
def bHold (b : Word) : Bool := bitN b.toNat 36
/-- BSC. -/
def bSc (b : Word) : Nat := wfld b 24 12
/-- BINC. -/
def bInc (b : Word) : Nat := wfld b 12 12
/-- BOFF. -/
def bOff (b : Word) : Nat := wfld b 0 12
/-- KT. -/
def cKt (c : Word) : Nat := wfld c 25 5
/-- NN. -/
def cNn (c : Word) : Nat := wfld c 19 6
/-- MM. -/
def cMm (c : Word) : Nat := wfld c 13 6
/-- KSTEPS. -/
def cKsteps (c : Word) : Nat := wfld c 0 13

/-- The limits of R295. -/
def wloopDescOk (m : WloopM) (a b c : Word) : Bool :=
  wfld a 42 22 == 0 && aInc a % 64 == 0 && aAddr a % 64 == 0 && wfld b 38 26 == 0 && wfld c 30 34 == 0 &&
  1 ≤ cKsteps c && cKsteps c ≤ 4096 && (m.bmx || bSc b == 0)

/-- Valid K elements of a step (R288). -/
def kValid (c : Word) (s : Nat) : Nat := if s + 1 = cKsteps c then cKt c + 1 else 32

/-- The bytes of A that step `s` reads, as logical local ranges (R286). -/
def aReads (m : WloopM) (a c : Word) (s : Nat) : List (Nat × Nat) :=
  let panel := aAddr a + s * aInc a
  let nb := (kValid c s * wBits m.afmt + 7) / 8
  (List.range (cMm c + 1)).map (fun r => (panel + r * wBytes m.afmt, nb)) ++
  (if m.amx then (List.range (cMm c + 1)).map (fun r => (panel + 64 * wBytes m.afmt + r, 1)) else [])

/-- One past the last byte of A that a loop reads: AINC is not negative, so it lies in one of the last two steps. -/
def aEnd (m : WloopM) (a c : Word) : Nat :=
  (aReads m a c (cKsteps c - 2) ++ aReads m a c (cKsteps c - 1)).foldl (fun x p => max x (p.1 + p.2)) 0

/-- Whether the team holds a half after one of its queued commands, where it held one before or not: a loop that is over has acted, and one
that has taken its half shows in what the team holds (R297). -/
def WCmd.leavesHalf (w : WCmd) (h : Bool) : Bool :=
  match w.op with
  | .loop _ _ b _ => if w.isOver then h else if bRel b then false else h || (!bHold b && w.half.isNone)
  | _ => h

/-- Whether the team holds a half once its queued loops have acted (R296 check 5). -/
def State.holdsHalf (s : State) (t : Nat) : Bool :=
  (s.coreOf t).wheel.foldl (fun h w => if w.team != t then h else w.leavesHalf h) (s.team t).wheelHalf.isSome

/-- R296 checks 2 to 7. -/
def Run.wloopFault (r : Run) (m : WloopM) (a b c : Word) : Option FltRec :=
  if !wloopDescOk m a b c then some (engine 0x20)
  else if notOwned r.T (2 ^ m.tile) then some (engine 0x22)
  else if (r.s0.core r.core).bring.owner != some r.t then some (engine 0x16)
  else if bHold b && !r.s0.holdsHalf r.t then some (engine 0x23)
  else if 4096 < bOff b + (cKsteps c - 1) * bInc b + wBytes m.bfmt || (m.bmx && 4096 < bSc b + cKsteps c) then some (engine 0x24)
  else if r.T.locSize < aEnd m a c then some { cls := 0x07, reason := 0x02, addr := wordOf (aEnd m a c - 1), detail := specOf r.o.a.op }
  else none

/-- The count of a loop (R291). -/
def wloopCount (c : Word) : Nat := 4 * (cMm c + 1) * (cNn c + 1)

/-- R296. -/
def execWloop (o : Ops) (m : WloopM) (s : State) : Host.Outcome State Fault Refusal :=
  withRun o { d := .counter, helps := false } s (fun r => r.once
    (fun l => match wheelDFault r.T o.d (wloopCount (r.cc l)) with
      | some f => some f
      | none => r.wloopFault m (r.a l) (r.b l) (r.cc l))
    (fun r l =>
      let w := r.wcmd l (.wloop o m) (.loop m (r.a l) (r.b l) (r.cc l)) (wheelReport r.T o.d) (wloopCount (r.cc l)) 2
      let rg := swzRange (aSwz (r.a l)) (aAddr (r.a l)) (aEnd m (r.a l) (r.cc l) - aAddr (r.a l))
      r.wqueue w [{ cmd := w.id, idx := 0, src := true, space := .loc r.t, lo := rg.1, hi := rg.2 }] id))

/-! ### Loops: arithmetic -/

/-- The value of element pattern `x` of a format under a scale (R285): 16-bit formats alone can be signalling NaNs. -/
def wElem (fmt scale x : Nat) : FV :=
  if scale = 0xFF then .nan false
  else
    let v := match fmt with
      | 0 => unpackF fmtBF16 x
      | 1 => unpackF fmtF16 x
      | 2 => unpackF fmtE4M3 x
      | 3 => unpackF fmtE5M2 x
      | 4 => unpackF fmtE3M2 x
      | 5 => unpackF fmtE2M3 x
      | 6 => unpackF fmtE2M1 x
      | _ => mxVal .i8x8 x
    match v with
    | .fin s n e => .fin s n (e + (scale : Int) - 127)
    | v => v

/-- The patterns of the first `kv` elements of a block's bytes. -/
def wUnpack (fmt kv raw : Nat) : List Nat := (List.range kv).map (fun k => fld raw (wBits fmt * k) (wBits fmt))

/-- A sum of exact products (R288): its value, and NV (R289). Where a NaN operand makes the sum a NaN, a signalling one alone sets NV; that
infinities of both signs beside it set none is the model's choice (notes/assumptions/91), while inf x 0 beside it arises from operands that
are no NaN and sets NV. -/
def stepSum (ps : List (FV × FV)) : FV × Bool :=
  let snan := ps.any (fun p => p.1.isSig || p.2.isSig)
  let bad := ps.any (fun p => (p.1.isZero && p.2.isInf) || (p.1.isInf && p.2.isZero))
  if bad then (.nan false, true)
  else if ps.any (fun p => p.1.isNan || p.2.isNan) then (.nan false, snan)
  else
    let ts := ps.map (fun p => (prodFV p.1 p.2).getD (.fin false 0 0))
    let pos := ts.any (fun v => v.isInf && !v.sign)
    let neg := ts.any (fun v => v.isInf && v.sign)
    if pos && neg then (.nan false, true)
    else if pos || neg then (.inf neg, false)
    else
      let ds := ts.map (fun v => match v with
        | .fin s n x => (s, n, x)
        | _ => (false, 0, 0))
      let x0 := ds.foldl (fun (a : Int) d => if d.2.2 < a then d.2.2 else a) ((ds.head?.map (·.2.2)).getD 0)
      let z := ds.foldl (fun (a : Int) d => a + dyInt d.1 d.2.1 d.2.2 x0) 0
      if z = 0 then (.fin (!ds.isEmpty && ds.all (fun d => d.1 && d.2.1 == 0)) 0 0, false)
      else (.fin (decide (z < 0)) z.natAbs x0, false)

/-- acc + S rounded once (R288): the word, OF and NV. -/
def accAdd (acc : Nat) (S : FV) : Nat × Bool × Bool :=
  match unpackF fmtF32 acc, S with
  | .nan _, _ => (0x7FC0_0000, false, false)
  | _, .nan _ => (0x7FC0_0000, false, false)
  | .inf s, .inf t => if s == t then (withSign fmtF32 s (fmtInf fmtF32), false, false) else (0x7FC0_0000, false, true)
  | .inf s, .fin _ _ _ => (withSign fmtF32 s (fmtInf fmtF32), false, false)
  | .fin _ _ _, .inf t => (withSign fmtF32 t (fmtInf fmtF32), false, false)
  | .fin s n x, .fin t m y =>
    let r := sumF fmtF32 .rne false [(s, n, x), (t, m, y)]
    (r.1, r.2 &&& fOF != 0, false)

/-- A loop of integers (R285). -/
def intLoop (m : WloopM) : Bool := m.afmt == 7 && m.bfmt == 7 && !m.amx && !m.bmx

/-- Offset in the B store of a byte of the stream of a column of a half (R283). -/
def bAt (h n o : Nat) : Nat := h * 2 ^ 18 + o / 64 * 4096 + n * 64 + o % 64

/-- A byte of the stream of a column of a half (R283); one of an uncorrectable word is a byte of what that reads as (R400). -/
def State.bStream (s : State) (int : Bool) (core h n o : Nat) : Byte :=
  let a := bAt h n o
  if (s.core core).bpoison.contains (a / 8 * 8) then BitVec.ofNat 8 (fld (badWord int) (8 * (a % 4)) 8)
  else (mapGet? a (s.core core).bring.bytes).getD (Config.bstoreByte core a)

/-- Little-endian value of bytes of a column stream. -/
def State.bRead (s : State) (int : Bool) (core h n o len : Nat) : Nat := leVal ((List.range len).map (fun i => s.bStream int core h n (o + i)))

/-- A byte of a column stream is uncorrectable. -/
def State.bBad (s : State) (core h n o len : Nat) : Bool :=
  !(s.core core).bpoison.isEmpty && (List.range len).any (fun i => (s.core core).bpoison.contains (bAt h n (o + i) / 8 * 8))

/-- A block: patterns of its valid elements and its scale. -/
structure WBlock where
  xs : List Nat
  scale : Nat

/-- The A block of a row (R286). -/
def Team.aBlock (T : Team) (m : WloopM) (a c : Word) (s r : Nat) : WBlock :=
  let panel := aAddr a + s * aInc a
  let kv := kValid c s
  { xs := wUnpack m.afmt kv (leVal (T.getSwz (aSwz a) (panel + r * wBytes m.afmt) ((kv * wBits m.afmt + 7) / 8))),
    scale := if m.amx then (T.locByte (phys (aSwz a) (panel + 64 * wBytes m.afmt + r))).toNat else 127 }

/-- The B block of a column (R287). -/
def State.bBlock (s : State) (core h : Nat) (m : WloopM) (b c : Word) (st n : Nat) : WBlock :=
  let kv := kValid c st
  { xs := wUnpack m.bfmt kv (s.bRead (intLoop m) core h n (bOff b + st * bInc b) ((kv * wBits m.bfmt + 7) / 8)),
    scale := if m.bmx then s.bRead (intLoop m) core h n (bSc b + st) 1 else 127 }

/-- The B block of a column meets an uncorrectable word (R400). -/
def State.bBlockBad (s : State) (core h : Nat) (m : WloopM) (b c : Word) (st n : Nat) : Bool :=
  s.bBad core h n (bOff b + st * bInc b) ((kValid c st * wBits m.bfmt + 7) / 8) || (m.bmx && s.bBad core h n (bSc b + st) 1)

/-- One word of a tile after a K-step (R288): the word, OF and NV. -/
def macWord (m : WloopM) (A B : WBlock) (acc : Nat) : Nat × Bool × Bool :=
  if intLoop m then
    (truncN 32 (sextN 32 acc + ((A.xs.zip B.xs).map (fun p => sextN 8 p.1 * sextN 8 p.2)).foldl (· + ·) 0), false, false)
  else
    let S := stepSum ((A.xs.zip B.xs).map (fun p => (wElem m.afmt A.scale p.1, wElem m.bfmt B.scale p.2)))
    let r := accAdd acc S.1
    (r.1, r.2.1, r.2.2 || S.2)

/-- A core and what its loop has raised, after one word. -/
def macAt (m : WloopM) (tile mr n : Nat) (zero : Bool) (A B : WBlock) (x : Core × Bool × Bool) : Core × Bool × Bool :=
  let r := macWord m A B (if zero then 0 else x.1.accRead (intLoop m) tile mr n)
  (x.1.accPut tile mr n r.1, x.2.1 || r.2.1, x.2.2 || r.2.2)

/-- A K-step reads an uncorrectable word of the A panel (R286, R400). -/
def Team.aBad (T : Team) (m : WloopM) (a c : Word) (s : Nat) : Bool :=
  !T.lbad.isEmpty && (aReads m a c s).any (fun p => (List.range p.2).any (fun i => T.locBad (phys (aSwz a) (p.1 + i)) 1))

/-- A team's local memory as a loop reads it, with `n` free values used before: what an uncorrectable word of the A panel reads as is
nowhere said (notes/assumptions/50). -/
def Team.blurred (T : Team) (n : Nat) : Team :=
  { T with lmem := (List.range T.lbad.length).foldl (fun m i => putBytes m (T.lbad.getD i 0) (leBytes 8 (Config.freeWord (n + i)).toNat)) T.lmem }

/-- One K-step of a loop (R288). An uncorrectable word of A, of B or of the tile sets ERR (R400). -/
def State.kStep (s : State) (core : Nat) (w : WCmd) (m : WloopM) (a b c : Word) (h : Nat) : State :=
  let T := (s.team w.team).blurred s.fresh
  let zero := w.step == 0 && m.zero
  let As := (List.range (cMm c + 1)).map (T.aBlock m a c w.step)
  let Bs := (List.range (cNn c + 1)).map (s.bBlock core h m b c w.step)
  let r := (List.range (cMm c + 1)).foldl (fun x mr => (List.range (cNn c + 1)).foldl (fun x n =>
    macAt m m.tile mr n zero (As.getD mr ⟨[], 127⟩) (Bs.getD n ⟨[], 127⟩) x) x) (s.core core, w.ovf, w.inv)
  let bad := (!zero && (s.core core).accBads m.tile (cMm c + 1) (cNn c + 1)) ||
    (List.range (cNn c + 1)).any (s.bBlockBad core h m b c w.step) || (s.team w.team).aBad m a c w.step
  State.modCore { s with fresh := s.fresh + T.lbad.length } core (fun _ => Core.accClean { r.1 with wheel := r.1.wheel.map (fun x =>
    if x.id == w.id then { x with step := x.step + 1, ovf := r.2.1, inv := r.2.2, err := x.err || bad } else x) } m.tile (cMm c + 1) (cNn c + 1))

/-- The lines of A that step `s` reads are present (R286). -/
def Team.aPresent (T : Team) (m : WloopM) (a c : Word) (s : Nat) : Bool :=
  (aReads m a c s).all (fun p => (physLines (aSwz a) p.1 p.2).all (fun ln => !T.absent.contains ln))

/-! ### Running -/

/-- The head of a Wheel's queue. -/
def State.wheelHead (s : State) (core : Nat) : Option WCmd := (s.core core).wheel.head?

/-- A Wheel command, changed. -/
def State.modWheel (s : State) (core id : Nat) (f : WCmd → WCmd) : State :=
  s.modCore core (fun k => { k with wheel := k.wheel.map (fun w => if w.id == id then f w else w) })

/-- The issuing lane of a command. -/
def WCmd.issuer (w : WCmd) : Issuer := ⟨w.team, w.crs, w.lane, w.id⟩

/-- Whose accesses a command makes. -/
def WCmd.eng (w : WCmd) (s : State) (core : Nat) : Eng := s.engOf core w.team w.asid w.root w.sup

/-- TAG, KIND and tile of a command's status (R291). -/
def WOp.statusLow (o : WOp) : Nat :=
  match o with
  | .loop m _ _ _ => m.tag * 2 ^ 20 + m.tile
  | .drain m _ _ _ => m.tag * 2 ^ 20 + 2 ^ 4 + m.tile
  | _ => 0

/-- The status word (R291). -/
def WCmd.status (w : WCmd) : Nat :=
  w.op.statusLow + bit w.ovf * 2 ^ 8 + bit w.inv * 2 ^ 7 + bit w.xov * 2 ^ 6 + bit w.err * 2 ^ 5

/-- The report of a command can be made: the team's Wheel ports have room. -/
def State.wheelRoom (s : State) (w : WCmd) : Bool :=
  match w.report with
  | .port _ => (s.team w.team).poolUsed 0x10 0x1F < 64
  | _ => true

/-- A command leaves the queue and reports (R291, R297, R303). -/
def State.endWheel (s : State) (core : Nat) (w : WCmd) : State :=
  let s := s.modCore core (fun k => { k.dropLocks w.id with wheel := k.wheel.filter (fun x => x.id != w.id) })
  let s := match w.report with
    | .port n => s.portPush w.team n (portEntry w.status w.scope)
    | r => s.landed w.team r w.count
  s.modTeam w.team (fun T => { T with
    wheelErr := T.wheelErr ||| (bit w.inv * 2 ^ 16 + bit w.ovf * 2 ^ 17 + bit w.xov * 2 ^ 18 + bit w.err * 2 ^ 19)
    terr := T.terr || w.err })

/-- A command is abandoned (R27, R297, R301): its lock entries go (R29), and only its report is then left. -/
def State.abandonWheel (s : State) (core : Nat) (w : WCmd) (reason : Nat) (addr : Word) : State :=
  let s := s.landed w.team w.report w.count
  let s := (s.modWheel core w.id (fun w => { w with err := true, isOver := true, count := 0, stall := none })).modCore core (fun k => k.dropLocks w.id)
  let s := s.modTeam w.team (fun T => { T.setLines w.lines with wheelErr := setFld T.wheelErr 32 8 reason ||| 2 ^ 19 })
  s.abandonFor w.issuer 0x10 reason addr w.ipc

/-- The Wheel starts a loop (R297): it takes the half its team holds, or asks for the next full one. -/
def State.startLoop (s : State) (core : Nat) (w : WCmd) (b : Word) : State :=
  let s := s.modWheel core w.id (fun w => { w with started := true })
  if bHold b then
    match (s.team w.team).wheelHalf with
    | none => s.abandonWheel core w 0x23 0
    | some h => s.modWheel core w.id (fun w => { w with half := some h })
  else
    (State.modWheel { s with nextId := s.nextId + 1 } core w.id (fun w => { w with req := some s.nextId })).serveHalves core 2

/-- Words of `wacc.rd` for a lane (R302). -/
def Core.accPair (k : Core) (a : Word) : Word :=
  let t := wfld a 0 4
  let m := wfld a 4 6
  let n := 2 * wfld a 10 5
  wordOf (k.accRead false t m n + k.accRead false t m (n + 1) * 2 ^ 32)

/-- `wacc.wr` of a lane (R302). -/
def Core.accPutPair (k : Core) (a v : Word) : Core :=
  let t := wfld a 0 4
  let m := wfld a 4 6
  let n := 2 * wfld a 10 5
  let k := (k.accPut t m n (wfld v 0 32)).accPut t m (n + 1) (wfld v 32 32)
  { k with apoison := k.apoison.filter (· != 4 * accKey t m n) }

/-- The pair that `wacc.rd` names is uncorrectable. -/
def Core.pairBad (k : Core) (a : Word) : Bool := k.accBad (wfld a 0 4) (wfld a 4 6) (2 * wfld a 10 5)

/-- The Wheel starts a command (R290): a clear and the lanes' accesses are performed at once. -/
def State.startWheel (s : State) (core : Nat) (w : WCmd) : State :=
  match w.op with
  | .zero tiles => (s.modCore core (·.accZero tiles)).endWheel core w
  | .rd ls d => (ls.foldl (fun s p => s.modLane w.team w.crs p.1 (fun L => L.vPut d ((s.core core).accPair p.2))) s).endWheel core
      { w with err := ls.any (fun p => (s.core core).pairBad p.2) }
  | .wr ls => (s.modCore core (fun k => ls.foldl (fun k p => k.accPutPair p.2.1 p.2.2) k)).endWheel core w
  | .loop _ _ b _ => s.startLoop core w b
  | .drain _ _ _ _ => s.modWheel core w.id (fun w => { w with started := true })

/-- The head of a Wheel's queue can start; while its team is being saved nothing more of it starts (R304). -/
def State.startDue (s : State) (core : Nat) : Bool :=
  match s.wheelHead core with
  | none => false
  | some w => !w.started && !(s.team w.team).saving

/-- R290, R297. -/
def execWheelCommandStart (core : Nat) (s : State) : Host.Outcome State Fault Refusal :=
  match s.wheelHead core with
  | none => .next s
  | some w => if s.startDue core then .next (s.startWheel core w) else .next s

/-- A loop can do its next K-step: the lines of A that it reads are present, and the issuing course's earlier stores have reached
them (R259, R286). -/
def State.stepReady (s : State) (w : WCmd) (m : WloopM) (a c : Word) : Bool :=
  w.step < cKsteps c && (s.team w.team).aPresent m a c w.step && !s.unitBehind w.issuer

/-- The K-steps that a loop can do now (R286, R288). -/
def State.loopSteps (s : State) (core : Nat) (m : WloopM) (a b c : Word) (h : Nat) : Nat → State
  | 0 => s
  | fuel + 1 => match s.wheelHead core with
    | none => s
    | some w =>
      if s.stepReady w m a c then
        State.loopSteps (s.kStep core w m a b c h) core m a b c h fuel
      else s

/-- ERR and XOV of the half that a loop has read, and REL (R297). -/
def State.loopRead (s : State) (core : Nat) (w : WCmd) (b : Word) (h : Nat) : State :=
  let br := (s.core core).bring
  let s := s.modWheel core w.id (fun w => { w with isOver := true, err := w.err || br.err h, xov := w.xov || br.xov h })
  if bRel b && (s.team w.team).wheelHalf == some h then
    (s.modCore core (fun k => { k with bring := k.bring.setSt h 0 })).modTeam w.team (fun T => { T with wheelHalf := none })
  else s

/-- The last K-step of a loop is done: it completes when it can report. -/
def State.loopEnd (s : State) (core : Nat) (b : Word) (h : Nat) : State :=
  match s.wheelHead core with
  | none => s
  | some w =>
    let s := s.loopRead core w b h
    match s.wheelHead core with
    | none => s
    | some w => if s.wheelRoom w then (s.endWheel core w).dropOwner core w.team else s

/-- A loop can go on: its next step's lines are present, or only its report is left and has room. -/
def State.wloopDue (s : State) (w : WCmd) : Bool :=
  match w.op with
  | .loop m a _ c => w.started && (if w.isOver then s.wheelRoom w
      else w.half.isSome && s.stepReady w m a c)
  | _ => false

/-- A loop at the head of the queue goes on. -/
def State.wloopAt (s : State) (core : Nat) (w : WCmd) (m : WloopM) (a b c : Word) : State :=
  if w.isOver then (s.endWheel core w).dropOwner core w.team
  else match w.half with
    | none => s
    | some h =>
      let s := s.loopSteps core m a b c h (cKsteps c)
      match s.wheelHead core with
      | none => s
      | some w => if w.step < cKsteps c then s else s.loopEnd core b h

/-- R288, R289, R297: the K-steps whose lines are present are done, and after the last one the loop completes. -/
def execWloopComplete (core : Nat) (s : State) : Host.Outcome State Fault Refusal :=
  match s.wheelHead core with
  | none => .next s
  | some w => match w.op with
    | .loop m a b c => if s.wloopDue w then .next (s.wloopAt core w m a b c) else .next s
    | _ => .next s

/-! ### Drains -/

/-- Element size of a primary copy (R298). -/
def dSize (dfmt : Nat) : Nat := ([4, 2, 2, 1, 1, 4, 0] : List Nat).getD dfmt 0

/-- The element type of a transposed copy (R298). -/
def tTy (tfmt : Nat) : Ty :=
  match tfmt with
  | 1 => .e4m3x8 | 2 => .e5m2x8 | 3 => .e3m2x8 | 4 => .e2m3x8 | 5 => .e2m1x16 | _ => .i8x8

/-- EBT (R298). -/
def tBytes (tfmt : Nat) : Nat := ([0, 32, 32, 24, 24, 16, 32] : List Nat).getD tfmt 0

/-- TSTR. -/
def bTstr (b : Word) : Nat := wfld b 24 24
/-- DSTR. -/
def bDstr (b : Word) : Nat := wfld b 0 24
/-- Rows of a drain. -/
def wdRows (m : WdrainM) : Nat := m.mm + 1
/-- Columns of a drain. -/
def wdCols (m : WdrainM) : Nat := m.nn + 1
/-- Blocks of a transposed row (R300). -/
def wdBlks (m : WdrainM) : Nat := ((wdRows m) + 31) / 32
/-- The drain writes a primary copy. -/
def wdPrim (m : WdrainM) : Bool := m.dfmt != 6
/-- The drain writes a transposed copy. -/
def wdTrans (m : WdrainM) : Bool := m.tfmt != 0

/-- Bytes from the first to one past the last of the primary copy. -/
def wdPrimLen (m : WdrainM) (b : Word) : Nat := m.mm * bDstr b + (wdCols m) * dSize m.dfmt
/-- Bytes from the first to one past the last of the transposed copy. -/
def wdTransLen (m : WdrainM) (b : Word) : Nat := m.nn * bTstr b + 2 * tBytes m.tfmt + (wdBlks m)

/-- Bytes that a drain writes (R291). -/
def wdCount (m : WdrainM) : Nat :=
  (if (wdPrim m) then (wdRows m) * (wdCols m) * dSize m.dfmt else 0) + (if (wdTrans m) then (wdCols m) * (wdBlks m) * (tBytes m.tfmt + 1) else 0)

/-- The rules of R298 for A, B and C. -/
def wdrainOk (m : WdrainM) (a b c : Word) : Bool :=
  wfld b 48 16 == 0 && (!((wdPrim m) && m.dsp) || a.toNat < 2 ^ 20) &&
  (if (wdTrans m) then bTstr b % 16 == 0 && 2 * tBytes m.tfmt + 2 ≤ bTstr b && c.toNat % 16 == 0 else bTstr b == 0 && c == 0) &&
  (if (wdPrim m) then bDstr b % dSize m.dfmt == 0 && ((wdRows m) == 1 || (wdCols m) * dSize m.dfmt ≤ bDstr b) else bDstr b == 0)

/-- R301 checks 1 to 5, D aside. -/
def Run.wdrainFault (r : Run) (m : WdrainM) (a b c : Word) : Option FltRec :=
  let out (base len : Nat) (op : Opnd) : Option FltRec :=
    if r.T.locSize < base + len then some { cls := 0x07, reason := 0x02, addr := wordOf (base + len - 1), detail := specOf op } else none
  if notOwned r.T (2 ^ m.tile) then some (engine 0x22)
  else if !wdrainOk m a b c then some (engine 0x20)
  else if (wdPrim m) && a.toNat % dSize m.dfmt != 0 then some { cls := 0x0C, reason := 0x01, addr := a, detail := dSize m.dfmt }
  else if (wdPrim m) && !m.dsp && !canonical a then some { cls := 0x09, reason := 0x01, addr := a }
  else if (wdTrans m) && !m.tsp && !canonical c then some { cls := 0x09, reason := 0x01, addr := c }
  else match (if (wdPrim m) && m.dsp then out a.toNat (wdPrimLen m b) r.o.a.op else none) with
    | some f => some f
    | none => if (wdTrans m) && m.tsp then out c.toNat (wdTransLen m b) r.o.c.op else none

/-- A destination range of a drain (R29, R410). -/
def Run.drainLock (r : Run) (id : Nat) (loc : Bool) (swz : Nat) (base : Word) (len : Nat) : LockEnt :=
  let rg := if loc then swzRange swz base.toNat len else (va56 base, va56 base + len - 1)
  { cmd := id, idx := 0, src := false, space := if loc then .loc r.t else .glob r.T.asid, lo := rg.1, hi := rg.2 }

/-- The addresses that a primary copy writes, with its size. -/
def wdPrimAt (m : WdrainM) (a b : Word) : List (Nat × Nat) :=
  (List.range (wdRows m)).map (fun r => (a.toNat + r * bDstr b, (wdCols m) * dSize m.dfmt))

/-- The ranges that a transposed copy writes: the blocks and the scales of each row. -/
def wdTransAt (m : WdrainM) (b c : Word) : List (Nat × Nat) :=
  (List.range (wdCols m)).flatMap (fun i =>
    [(c.toNat + i * bTstr b, (wdBlks m) * tBytes m.tfmt), (c.toNat + i * bTstr b + 2 * tBytes m.tfmt, (wdBlks m))])

/-- The local lines that a drain writes (R28, R301). -/
def wdLines (m : WdrainM) (a b c : Word) : List Nat :=
  dedupNat ((if (wdPrim m) && m.dsp then (wdPrimAt m a b).flatMap (fun p => physLines m.dswz p.1 p.2) else []) ++
            (if (wdTrans m) && m.tsp then (wdTransAt m b c).flatMap (fun p => physLines m.tswz p.1 p.2) else []))

/-- R301. -/
def execWdrain (o : Ops) (m : WdrainM) (s : State) : Host.Outcome State Fault Refusal :=
  withRun o { d := .counter, helps := false } s (fun r => r.once
    (fun l => match wheelDFault r.T o.d (wdCount m) with
      | some f => some f
      | none => r.wdrainFault m (r.a l) (r.b l) (r.cc l))
    (fun r l =>
      let w := r.wcmd l (.wdrain o m) (.drain m (r.a l) (r.b l) (r.cc l)) (wheelReport r.T o.d) (wdCount m) (scopeCode m.scope)
      let es := (if (wdPrim m) then [r.drainLock w.id m.dsp m.dswz (r.a l) (wdPrimLen m (r.b l))] else []) ++
                (if (wdTrans m) then [r.drainLock w.id m.tsp m.tswz (r.cc l) (wdTransLen m (r.b l))] else [])
      r.wqueue { w with lines := wdLines m (r.a l) (r.b l) (r.cc l) } es id))

/-- A word of a primary copy: its bytes and flags (R299). -/
def primElem (dfmt w : Nat) : List Byte × Nat :=
  let conv (f : Fmt) (n : Nat) : List Byte × Nat := let r := cvtFF f fmtF32 .rne w; (leBytes n r.1, r.2)
  match dfmt with
  | 1 => conv fmtBF16 2
  | 2 => conv fmtF16 2
  | 3 => conv fmtE4M3 1
  | 4 => conv fmtE5M2 1
  | _ => (leBytes 4 w, 0)

/-- Bytes with their addresses, and flags. -/
abbrev DrainOut := List (Nat × Byte) × Nat

/-- Bytes from an address on. -/
def bytesAt (a : Nat) (bs : List Byte) : List (Nat × Byte) := (List.range bs.length).map (fun i => (a + i, bs.getD i 0))

/-- The primary copy of a tile (R299). -/
def Core.primCopy (k : Core) (m : WdrainM) (a b : Word) : DrainOut :=
  (List.range (wdRows m)).foldl (fun x r => (List.range (wdCols m)).foldl (fun (x : DrainOut) c =>
    let e := primElem m.dfmt (k.accRead (m.dfmt == 5) m.tile r c)
    (x.1 ++ bytesAt (a.toNat + r * bDstr b + c * dSize m.dfmt) e.1, x.2 ||| e.2)) x) ([], 0)

/-- The scale of a block of words (R300). -/
def blkScale (tfmt : Nat) (ws : List Nat) : Nat := mxScale (tTy tfmt) (ws.foldl (fun x w => max x (w % 2 ^ 31)) 0)

/-- One block of the transposed copy (R300): its bytes, its scale and flags. -/
def Core.transBlk (k : Core) (m : WdrainM) (c blk : Nat) : List Byte × Nat × Nat :=
  let js := (List.range 32).filter (fun j => 32 * blk + j < (wdRows m))
  let ws := js.map (fun j => k.accRead false m.tile (32 * blk + j) c)
  let sc := blkScale m.tfmt ws
  let w := tBytes m.tfmt / 4
  let es := ws.map (fun x => mxQuant (tTy m.tfmt) .rne sc (unpackF fmtF32 x))
  (leBytes (tBytes m.tfmt) (((List.range es.length).map (fun j => (es.getD j (0, 0)).1 <<< (w * j))).foldl (· + ·) 0), sc,
    es.foldl (fun f e => f ||| e.2) 0)

/-- The transposed copy of a tile (R300). -/
def Core.transCopy (k : Core) (m : WdrainM) (b cb : Word) : DrainOut :=
  (List.range (wdCols m)).foldl (fun x c => (List.range (wdBlks m)).foldl (fun (x : DrainOut) blk =>
    let row := cb.toNat + c * bTstr b
    let e := k.transBlk m c blk
    (x.1 ++ bytesAt (row + blk * tBytes m.tfmt) e.1 ++ [(row + 2 * tBytes m.tfmt + blk, BitVec.ofNat 8 e.2.1)], x.2 ||| e.2.2)) x) ([], 0)

/-- Runs of bytes to write to global memory. -/
def chunksOf (bs : List (Nat × Byte)) : List Chunk := bs.foldl (fun cs p => addChunk cs (p.1 % 2 ^ 64) p.2) []

/-- Bytes written to a team's local memory under a swizzle. -/
def Team.putAll (T : Team) (swz : Nat) (bs : List (Nat × Byte)) : Team :=
  { T with
    lmem := bs.foldl (fun m p => mapPut (phys swz p.1) p.2 m) T.lmem
    lbad := T.lbad.filter (fun w => !((List.range 8).all (fun j => bs.any (fun p => phys swz p.1 == w + j)))) }

/-- What a drain writes to global memory. -/
def wdGlobals (m : WdrainM) (p t : DrainOut) : List Chunk :=
  chunksOf ((if (wdPrim m) && !m.dsp then p.1 else []) ++ (if (wdTrans m) && !m.tsp then t.1 else []))

/-- The lines of global memory that a drain writes. -/
def wdGlobLines (m : WdrainM) (a b c : Word) : List Nat :=
  linesOf ((if (wdPrim m) && !m.dsp then wdPrimAt m a b else []) ++ (if (wdTrans m) && !m.tsp then wdTransAt m b c else []))

/-- The words of a drain with CLR become +0 (R298). -/
def Core.drainClr (k : Core) (m : WdrainM) : Core :=
  if m.clr then Core.accClean { k with acc := k.acc.filter (fun p => !(p.1 / 4096 == m.tile && p.1 / 64 % 64 < (wdRows m) && p.1 % 64 < (wdCols m))) } m.tile (wdRows m) (wdCols m) else k

/-- The end of a drain whose writes are performed at its scope (R298, R301, R28). -/
def State.drainEnd (s : State) (core : Nat) (m : WdrainM) (w : WCmd) : State :=
  let s := if w.isOver then s else s.modCore core (·.drainClr m)
  (s.modTeam w.team (·.setLines w.lines)).endWheel core w

/-- A drain's write has met a fault (R31, R277, R301): XLATE stalls it, a refusal is tried again, anything else abandons it. -/
def State.drainFails (s : State) (core : Nat) (w : WCmd) (cls : Nat) (addr : Word) : State :=
  let now := s.cycle (coreCol core)
  let ended := s.abandonWheel core w (0x80 + cls) addr
  if cls = 0x09 then s.modWheel core w.id (fun w => { w with stall := some (now, now, addr) })
  else if cls = 0x0B then match s.engRefused core w.asid w.tries with
    | some s => s.modWheel core w.id (fun w => { w with tries := w.tries + 1 })
    | none => ended
  else ended

/-- The local destinations of a drain hold a part of an uncorrectable word (R400). -/
def wdBad (T : Team) (m : WdrainM) (p t : DrainOut) : Bool :=
  (wdPrim m && m.dsp && partlyBad T.lbad (p.1.map (fun x => phys m.dswz x.1))) ||
  (wdTrans m && m.tsp && partlyBad T.lbad (t.1.map (fun x => phys m.tswz x.1)))

/-- The writes of a drain (R299 to R301). -/
def State.drainWrite (s : State) (core : Nat) (w : WCmd) (m : WdrainM) (a b c : Word) : State :=
  let k := s.core core
  let p := if (wdPrim m) then k.primCopy m a b else ([], 0)
  let t := if (wdTrans m) then k.transCopy m b c else ([], 0)
  let fl := p.2 ||| t.2
  let wid := s.nextId
  if wdBad (s.team w.team) m p t then s.drainFails core w 0x17 a else
  match State.engWrite { s with nextId := s.nextId + 1 } (w.eng s core) w.issuer (wdGlobals m p t) wid with
  | .bad cls addr => s.drainFails core w cls addr
  | .ok _ s =>
    let s := if (wdPrim m) && m.dsp then s.modTeam w.team (fun T => T.putAll m.dswz p.1) else s
    let s := if (wdTrans m) && m.tsp then s.modTeam w.team (fun T => T.putAll m.tswz t.1) else s
    let w := { w with wid := some wid, tries := 0, ovf := fl &&& fOF != 0, inv := fl &&& fNV != 0, err := w.err || k.accBads m.tile (wdRows m) (wdCols m) }
    let s := (s.trackWrite w.issuer core wid).modWheel core w.id (fun _ => w)
    if s.landedAt wid w.scope && s.wheelRoom w then s.drainEnd core m w else s

/-- A drain can go on: its writes can be made, or are performed at its scope and its report has room. -/
def State.wdrainDue (s : State) (core : Nat) (w : WCmd) : Bool :=
  match w.op with
  | .drain m a b c => w.started && (if w.isOver then s.wheelRoom w
      else match w.wid with
        | some id => s.landedAt id w.scope && s.wheelRoom w
        | none => w.stall.isNone && s.engFree (w.eng s core) w.issuer (wdGlobLines m a b c) .store)
  | _ => false

/-- R298 to R301. -/
def execWdrainComplete (core : Nat) (s : State) : Host.Outcome State Fault Refusal :=
  match s.wheelHead core with
  | none => .next s
  | some w => match w.op with
    | .drain m a b c =>
      if !s.wdrainDue core w then .next s
      else .next (if w.isOver || w.wid.isSome then s.drainEnd core m w else s.drainWrite core w m a b c)
    | _ => .next s

end Sys2Proof.Machine
end

