-- ==== Sys2Proof/Machine/Coil.lean ====
section
/-! DEFINITION. Coil: operators (R307 to R310), definition (R312), jobs (R313 to R317), the carry chain (R318 to R322),
carries through memory (R324) and status (R325). -/

namespace Sys2Proof.Machine

/-! ### Operators -/

/-- Zero of a semiring (R307). -/
def semiZero : Semi → Nat
  | .addmul => 0
  | .maxadd => 0xFF80_0000
  | .minadd => 0x7F80_0000
  | .logadd => 0xFF80_0000
  | .orand => 0

/-- One of a semiring (R307). -/
def semiOne : Semi → Nat
  | .addmul => 0x3F80_0000
  | .orand => 0x3F80_0000
  | _ => 0

/-- A value with OF and NV that its computation raised (R308). -/
structure CilV where
  v : Nat
  ovf : Bool := false
  inv : Bool := false
  deriving DecidableEq, Repr

/-- The pattern is a NaN. -/
def isNan32 (x : Nat) : Bool := (unpackF fmtF32 x).isNan

/-- A result of operands: NV is a NaN that arises from none (R308). -/
def cilRes (x y : Nat) (r : FRes) : CilV :=
  { v := if isNan32 r.1 then 0x7FC0_0000 else r.1, ovf := r.2 &&& fOF != 0, inv := isNan32 r.1 && !isNan32 x && !isNan32 y }

/-- The real value of log2(1 + 2^-d) at d = n * 2^x (R308). -/
def lpReal (n : Nat) (x : Int) : Nat := (fxLog2 (fxOne + fxEx2 true (fxOf n x)) (-320)).natAbs

/-- Lp of R308: the pattern of Config.logP when it lies within an ulp, else the nearest (notes/assumptions/8). -/
def lpVal (d : Nat) : Nat :=
  match unpackF fmtF32 d with
  | .fin _ n x =>
    let raw := (Config.logP (BitVec.ofNat 32 d)).toNat
    if raw < 2 ^ 31 && fxWithinUlp (lpReal n x) 1 raw then raw else (roundF fmtF32 .rne false false (lpReal n x) (-320)).1
  | _ => 0

/-- LogAdd (R308). -/
def logAdd (x y : Nat) : CilV :=
  if isNan32 x || isNan32 y then { v := 0x7FC0_0000 }
  else if x = 0xFF80_0000 then { v := y }
  else if y = 0xFF80_0000 then { v := x }
  else if x = 0x7F80_0000 && y = 0x7F80_0000 then { v := 0x7F80_0000 }
  else
    let lt := ltF (unpackF fmtF32 x) (unpackF fmtF32 y)
    let m := if lt then y else x
    let d := faddE fmtF32 .rne false true m (if lt then x else y)
    let r := faddE fmtF32 .rne false false m (lpVal d.1)
    cilRes x y (r.1, d.2 ||| r.2)

/-- A value is true in `.orand` (R307). -/
def cilTrue (x : Nat) : Bool := x % 2 ^ 31 != 0

/-- 1.0 or +0. -/
def cilBool (b : Bool) : CilV := { v := if b then 0x3F80_0000 else 0 }

/-- ⊕ (R307, R308). -/
def semiAdd (s : Semi) (x y : Nat) : CilV :=
  match s with
  | .addmul => cilRes x y (faddE fmtF32 .rne false false x y)
  | .maxadd => cilRes x y (fminE fmtF32 false true false x y)
  | .minadd => cilRes x y (fminE fmtF32 false false false x y)
  | .logadd => logAdd x y
  | .orand => cilBool (cilTrue x || cilTrue y)

/-- ⊗ (R307, R308). -/
def semiMul (s : Semi) (x y : Nat) : CilV :=
  match s with
  | .addmul => cilRes x y (fmulE fmtF32 .rne false x y)
  | .orand => cilBool (cilTrue x && cilTrue y)
  | _ => if x = semiZero s || y = semiZero s then { v := semiZero s } else cilRes x y (faddE fmtF32 .rne false false x y)

/-- ⊕ of values under way. -/
def CilV.add (s : Semi) (x y : CilV) : CilV :=
  let r := semiAdd s x.v y.v
  { v := r.v, ovf := x.ovf || y.ovf || r.ovf, inv := x.inv || y.inv || r.inv }

/-- Number of values of an element (R309). -/
def shapeV : Shape → Nat
  | .scalar => 1
  | .affine => 2
  | .full2 => 4
  | .tri3 => 6

/-- The identity element (R309). -/
def cilIdent (p : COperator) : List Nat :=
  let o := semiOne p.semi
  let z := semiZero p.semi
  match p.shape with
  | .scalar => [o]
  | .affine => [o, z]
  | .full2 => [o, z, z, o]
  | .tri3 => [o, z, z, o, z, o]

/-- Comb(P, Q) (R310): the values of the product, with what they raised. -/
def combV (op : COperator) (P Q : List Nat) : List CilV :=
  let p (i : Nat) := P.getD i 0
  let q (i : Nat) := Q.getD i 0
  let m (i j : Nat) : CilV := semiMul op.semi (q i) (p j)
  let add (x y : CilV) : CilV := CilV.add op.semi x y
  match op.shape with
  | .scalar => [m 0 0]
  | .affine => [m 0 0, add (m 0 1) { v := q 1 }]
  | .full2 => [add (m 0 0) (m 1 2), add (m 0 1) (m 1 3), add (m 2 0) (m 3 2), add (m 2 1) (m 3 3)]
  | .tri3 => [m 0 0, add (m 0 1) (m 1 3), add (add (m 0 2) (m 1 4)) (m 2 5), m 3 3, add (m 3 4) (m 4 5), m 5 5]

/-- Comb(P, Q). -/
def comb (op : COperator) (P Q : List Nat) : List Nat := (combV op P Q).map (·.v)

/-! ### Status and ownership -/

/-- A CARRY fault. -/
def carryFault (reason : Nat) : FltRec := { cls := 0x13, reason := reason }

/-- The unit of the run's core. -/
def Run.coil (r : Run) : Coil := (r.s0.core r.core).coil

/-- The team of the run owns the unit (R306). -/
def Run.ownsCoil (r : Run) : Bool := r.coil.owner == some r.t

/-- The unit of a core, changed. -/
def State.modCoil (s : State) (core : Nat) (f : Coil → Coil) : State := s.modCore core (fun k => { k with coil := f k.coil })

/-- A Coil command, changed. -/
def State.modCil (s : State) (core id : Nat) (f : CilCmd → CilCmd) : State :=
  s.modCoil core (fun u => { u with queue := u.queue.map (fun w => if w.id == id then f w else w) })

/-- The status word (R325). -/
def Coil.status (u : Coil) (t : Nat) : Nat :=
  if u.owner != some t then 0
  else u.lastReason * 2 ^ 32 + u.queue.length * 2 ^ 21 + u.unsealed.length * 2 ^ 18 + 2 ^ 17 + bit u.err * 2 ^ 16 +
    bit u.poison * 2 ^ 15 + bit u.flagOF * 2 ^ 14 + bit u.flagNV * 2 ^ 13 + u.tlim * 2 ^ 8 +
    shapeCode u.coper.shape * 8 + semiCode u.coper.semi

/-- R325. -/
def execCstat (o : Ops) (clr : Bool) (s : State) : Host.Outcome State Fault Refusal :=
  withRun o { d := .now } s (fun r =>
    let r' := r.write (fun _ => { val := wordOf (r.coil.status r.t) })
    (if clr && !r.goodLive.isEmpty && r.ownsCoil then { r' with s := r'.s.modCoil r.core (fun u =>
        { u with err := false, poison := false, flagOF := false, flagNV := false, lastReason := 0 }) } else r').finish)

/-- A unit whose owner `t` gives it up: its state after reset (R306). Carries for other teams of the core are no state of this owner and
stay (R318), and what is on its way, or awaited, is no state of the unit yet (R328; notes/assumptions/40). -/
def Coil.freed (u : Coil) (t : Nat) : Coil :=
  { wire := u.wire, missed := u.missed, link := u.link.filter (fun e => e.for_ != t) }

/-- Ownership of a unit by a team ends (R306). -/
def State.freeCoil (s : State) (core t : Nat) : State := s.modCoil core (·.freed t)

/-- R312. -/
def execCdefFree (o : Ops) (s : State) : Host.Outcome State Fault Refusal :=
  withRun o { d := .none, helps := false } s (fun r => r.once
    (fun _ => match r.coil.owner with
      | none => none
      | some t => if t != r.t then some (carryFault 0x02)
        else if !r.coil.queue.isEmpty || !r.coil.unsealed.isEmpty || r.coil.out.isSome then some (carryFault 0x03) else none)
    (fun r _ => { r with s := if r.ownsCoil then r.s.freeCoil r.core r.t else r.s }.finish))

/-- R312. -/
def execCdef (o : Ops) (op : COperator) (tout : Nat) (s : State) : Host.Outcome State Fault Refusal :=
  withRun o { d := .none, helps := false } s (fun r => r.once
    (fun _ => match r.coil.owner with
      | none => none
      | some t => if t != r.t then some (carryFault 0x02) else none)
    (fun r _ =>
      let tlim := if tout = 0 then 24 else tout
      if r.ownsCoil && r.coil.coper = op then { r with s := r.s.modCoil r.core (fun u => { u with tlim := tlim }) }.finish
      else if r.coil.queue.any (fun w => w.team == r.t) then r.park [.coilIdle]
      else { r with s := r.s.modCoil r.core (fun u => { u with
          owner := some r.t, coper := op, tlim := tlim, creg := List.replicate 128 (cilIdent op) }) }.finish))

/-! ### Issue of commands -/

/-- D of a Coil command (R314, R324, R26): `k0` names no report. -/
def coilDFault (T : Team) (d : Opnd) (count : Nat) : Option FltRec :=
  if d = .k 0 then none
  else match reportFault T 0x21 0x21 d with
    | some f => some f
    | none => if T.counterFull (reportOf T d) count then some { cls := 0x10, reason := 0x19 } else none

/-- A command of the lane that performs an instruction. -/
def Run.cilCmd (r : Run) (l : Nat) (ins : Instr) (op : CilOp) (count scope : Nat) : CilCmd :=
  { id := r.s.nextId, team := r.t, crs := r.c, lane := l, asid := r.T.asid, root := r.T.ptroot, sup := r.T.sup, ipc := r.ip,
    ins := ins, op := op, coper := r.coil.coper, report := wheelReport r.T r.o.d, count := count, scope := scope }

/-- Queue a command with its lock entries, or park until there is room (R314, R324). -/
def Run.cilQueue (r : Run) (w : CilCmd) (es : List LockEnt) (send : Bool) : State :=
  let k := r.s0.core r.core
  let ws := (if k.coil.queue.length < 4 then [] else [Wait.coilRoom]) ++ (if locksFree k es then [] else [Wait.locks es])
  if !ws.isEmpty then r.park ws
  else
    let s := { r.s with nextId := r.s.nextId + 1 }
    let s := s.charged r.t w.report w.count w.scope
    let s := s.modCore r.core (fun k => { k.addLocks es with coil := { k.coil with
      queue := k.coil.queue ++ [w], unsealed := if send then k.coil.unsealed ++ [w.id] else k.coil.unsealed } })
    { r with s := s.modTeam r.t (·.clearLines w.lines) }.finish

/-- L and C of a job (R313). -/
def cjSteps (m : CjobM) : Nat := m.lm1 + 1
/-- Channels of a job. -/
def cjChans (m : CjobM) : Nat := m.cm1 + 1

/-- Bytes of a job's result area (R313). -/
def cjBytes (p : COperator) (m : CjobM) : Nat := cjSteps m * cjChans m * (4 * shapeV p.shape)

/-- R314. -/
def Run.cjobFault (r : Run) (m : CjobM) (l : Nat) : Option FltRec :=
  let T := r.T
  let n := cjBytes r.coil.coper m
  let a := r.a l
  match coilDFault T r.o.d n with
  | some f => some f
  | none =>
    if !r.ownsCoil then some (carryFault 0x01)
    else if a.toNat % 64 != 0 then some { cls := 0x0C, reason := 0x01, addr := a, detail := 64 }
    else if T.locSize < a.toNat + n then some { cls := 0x07, reason := 0x02, addr := a, detail := specOf r.o.a.op }
    else if (m.cin == 2 || m.send) && !T.coil then some (carryFault 0x04)
    else if m.cin == 2 && T.gangpos == 0 then some (carryFault 0x05)
    else if m.send && T.gangpos + 1 == T.gangsize then some (carryFault 0x06)
    else if m.send && 4 ≤ r.coil.unsealed.length then some (carryFault 0x0A)
    else none

/-- R313, R314. -/
def execCjob (o : Ops) (m : CjobM) (s : State) : Host.Outcome State Fault Refusal :=
  withRun o { d := .counter, helps := false } s (fun r => r.once (r.cjobFault m) (fun r l =>
    let n := cjBytes r.coil.coper m
    let a := (r.a l).toNat
    let w := r.cilCmd l (.cjob o m) (.job m (r.a l)) n (if m.cin = 2 then max 4 (scopeCode m.scope) else scopeCode m.scope)
    r.cilQueue { w with lines := physLines 0 a n }
      [{ cmd := w.id, idx := 0, src := false, space := .loc r.t, lo := a, hi := a + n - 1 }] m.send))

/-! ### Seals -/

/-- What a seal covers (R320): the earlier accesses of the cohort, and those of other courses that a barrier which the issuing
course passed has ordered. -/
def Run.sealed (r : Run) : List (Nat × Nat) :=
  (r.act.filter r.live).flatMap (fun l => r.s0.releaseWaits r.t r.c l 4) ++
  (r.s0.flights.filter (fun f => f.team == r.t && f.crs != r.c && f.isAccess && f.id < r.C.barId)).map (fun f => (f.id, 4))

/-- R320. -/
def execCseal (o : Ops) (s : State) : Host.Outcome State Fault Refusal :=
  withRun o { d := .none, helps := false } s (fun r => r.once
    (fun _ => if !r.ownsCoil then some (carryFault 0x01) else if r.coil.unsealed.isEmpty then some (carryFault 0x07) else none)
    (fun r _ => { r with s := r.s.modCoil r.core (fun u => match u.unsealed with
        | [] => u
        | j :: js => { u with unsealed := js, seals := u.seals ++ [(j, r.sealed)] }) }.finish))

/-! ### The end of a command -/

/-- TAG of a job's status (R317). -/
def CilOp.tag : CilOp → Nat
  | .job m _ => m.tag
  | .car _ _ _ _ => 0

/-- A command leaves the queue and reports (R29, R317, R324). -/
def State.endCil (s : State) (core : Nat) (w : CilCmd) (err : Bool) : State :=
  let s := s.modCore core (fun k => { k.dropLocks w.id with coil := { k.coil with queue := k.coil.queue.filter (fun x => x.id != w.id) } })
  let s := s.modTeam w.team (·.setLines w.lines)
  let s := s.modCoil core (fun u => { u with flagOF := u.flagOF || w.ovf, flagNV := u.flagNV || w.inv })
  match w.report with
  | .port n => s.portPush w.team n (portEntry (w.op.tag * 2 ^ 20 + bit w.ovf * 2 ^ 7 + bit w.inv * 2 ^ 6 + bit err * 2 ^ 5) w.scope)
  | r => s.landed w.team r w.count

/-- The outgoing carry of a job that sends (R317, R322). -/
def State.outCarry (s : State) (core : Nat) (w : CilCmd) (vals : List (List Nat)) (poison : Bool) : State :=
  match w.op with
  | .job m _ => if m.send then s.modCoil core (fun u => { u with
      out := some (w.id, { coper := w.coper, chans := cjChans m, vals := vals, poison := poison }) }) else s
  | .car _ _ _ _ => s

/-- A command is abandoned (R27, R322, R324): a job with CARRY, a `ccar` with ENGINE. -/
def State.abandonCil (s : State) (core : Nat) (w : CilCmd) (cls reason : Nat) (addr : Word) : State :=
  let s := s.modCoil core (fun u => { u with err := true, lastReason := reason })
  ((s.endCil core w true).outCarry core w [] true).abandonFor ⟨w.team, w.crs, w.lane, w.id⟩ cls reason addr w.ipc

/-! ### Jobs -/

/-- The command at the head of a unit's queue. -/
def State.cilHead (s : State) (core : Nat) : Option CilCmd := (s.core core).coil.queue.head?

/-- Groups of a job, and pushes of each step (R315). -/
def cjGroups (m : CjobM) : Nat := (cjChans m + 31) / 32
/-- Pushes of each group and step. -/
def cjPushes (p : COperator) : Nat := (shapeV p.shape + 1) / 2

/-- The inputs of a whole step stand in the group buffers. -/
def Coil.stepReady (u : Coil) (w : CilCmd) (m : CjobM) : Bool :=
  (List.range (cjGroups m)).all (fun g => cjPushes w.coper ≤ (u.groups.getD g []).length)

/-- The element of a channel among the entries of its group (R315). -/
def elemOf (p : COperator) (es : List QEntry) (i : Nat) : List Nat :=
  if es.all (fun e => bitN e.mask i) then
    ((List.range (shapeV p.shape)).map (fun j => wfld ((es.getD (j / 2) { slots := [], mask := 0 }).slots.getD i 0) (32 * (j % 2)) 32))
  else cilIdent p

/-- Address of an element of the result area (R313). -/
def resAt (w : CilCmd) (m : CjobM) (a : Word) (t c : Nat) : Nat := a.toNat + (t * cjChans m + c) * (4 * shapeV w.coper.shape)

/-- The bytes of an element (R309). -/
def elemBytes (e : List Nat) : List Byte := e.flatMap (leBytes 4)

/-- An element of the result area. -/
def Team.elem (T : Team) (p : COperator) (a : Nat) : List Nat := (List.range (shapeV p.shape)).map (fun j => T.locRead (a + 4 * j) 4)

/-- Write an element into the result area. -/
def Team.putElem (T : Team) (a : Nat) (e : List Nat) : Team := T.locPut a (elemBytes e)

/-- A team's local memory with an element combined, and what that raised. -/
def putComb (x : Team × Bool × Bool) (a : Nat) (e : List CilV) : Team × Bool × Bool :=
  (x.1.putElem a (e.map (·.v)), x.2.1 || e.any (·.ovf), x.2.2 || e.any (·.inv))

/-- Phase 1 of one step (R316): within a segment the new elements are combined with those of the step before. -/
def scanStep (T : Team) (w : CilCmd) (m : CjobM) (a : Word) (el : Nat → List Nat) : Team × Bool × Bool :=
  (List.range (cjChans m)).foldl (fun x c =>
    let at_ := resAt w m a w.steps c
    if w.steps % 16 = 0 then (x.1.putElem at_ (el c), x.2)
    else putComb x at_ (combV w.coper (x.1.elem w.coper (resAt w m a (w.steps - 1) c)) (el c))) (T, w.ovf, w.inv)

/-- What a job reads next in its result area, or leaves as it is beside what it writes there, is uncorrectable (R322, R400). -/
def State.cjobBad (s : State) (w : CilCmd) (m : CjobM) (a : Word) : Bool :=
  let T := s.team w.team
  let row := cjChans m * (4 * shapeV w.coper.shape)
  if w.steps < cjSteps m then
    (w.steps % 16 != 0 && T.locBad (resAt w m a (w.steps - 1) 0) row) ||
    partlyBad T.lbad ((List.range row).map (resAt w m a w.steps 0 + ·))
  else T.locBad a.toNat (cjBytes w.coper m)

/-- A job that sends cannot be abandoned while the outgoing slot is occupied: its poisoned carry goes there (R319, R322). -/
def State.cjobHeld (s : State) (core : Nat) (w : CilCmd) (m : CjobM) (a : Word) : Bool :=
  m.send && (s.core core).coil.out.isSome && s.cjobBad w m a

/-- A job is abandoned with MEMERR (R322). -/
def State.cjobMemerr (s : State) (core : Nat) (w : CilCmd) : State := s.abandonCil core w 0x10 0x97 0

/-- The first carry in a link buffer that is for a team and not late becomes late. -/
def markLate (t : Nat) : List LinkEnt → List LinkEnt
  | [] => []
  | e :: r => if !e.late && e.for_ == t then { e with late := true } :: r else e :: markLate t r

/-- The carry of an abandoned job of a team is late, come or not (R319, R328). -/
def Coil.missCarry (u : Coil) (t : Nat) : Coil :=
  if u.link.any (fun e => !e.late && e.for_ == t) then { u with link := markLate t u.link }
  else { u with missed := mapMod 0 t (· + 1) u.missed }

/-- A job is abandoned with MEMERR before it has taken its chain carry: the next job takes the next one (R319, R322). -/
def State.cjobEarly (s : State) (core : Nat) (w : CilCmd) (m : CjobM) : State :=
  State.cjobMemerr (if m.cin = 2 then s.modCoil core (·.missCarry w.team) else s) core w

/-- A job takes the inputs of a step. -/
def State.cjobStep (s : State) (core : Nat) (w : CilCmd) (m : CjobM) (a : Word) : State :=
  let u := (s.core core).coil
  let P := cjPushes w.coper
  let el (c : Nat) : List Nat := elemOf w.coper ((u.groups.getD (c / 32) []).take P) (c % 32)
  let x := scanStep (s.team w.team) w m a el
  let s := s.modTeam w.team (fun _ => x.1)
  s.modCoil core (fun u => { u with
    groups := (List.range 4).map (fun g => if g < cjGroups m then (u.groups.getD g []).drop P else u.groups.getD g [])
    queue := u.queue.map (fun y => if y.id == w.id then { y with phase := 1, steps := w.steps + 1, ovf := x.2.1, inv := x.2.2 } else y) })

/-- The steps of job `id` whose inputs are there. -/
def State.cjobSteps (s : State) (core id : Nat) (m : CjobM) (a : Word) : Nat → State
  | 0 => s
  | fuel + 1 => match s.cilHead core with
    | none => s
    | some w =>
      if w.id != id || cjSteps m ≤ w.steps || !(s.core core).coil.stepReady w m || s.cjobHeld core w m a then s
      else if s.cjobBad w m a then s.cjobEarly core w m
      else State.cjobSteps (s.cjobStep core w m a) core id m a fuel

/-- Phases 2 and 3 of a channel (R316), segment by segment: `g` is the aggregate of those before. -/
def fixChan (w : CilCmd) (m : CjobM) (a : Word) (c : Nat) (g : List Nat) (k : Nat) : Nat → Team × Bool × Bool → Team × Bool × Bool
  | 0, x => x
  | fuel + 1, x =>
    let ts := (List.range 16).filterMap (fun i => if 16 * k + i < cjSteps m then some (16 * k + i) else none)
    let x := ts.foldl (fun x t =>
      let at_ := resAt w m a t c
      putComb x at_ (combV w.coper g (x.1.elem w.coper at_))) x
    let last := min (16 * k + 15) (cjSteps m - 1)
    fixChan w m a c (x.1.elem w.coper (resAt w m a last c)) (k + 1) fuel x

/-- Phases 2 and 3 (R316). -/
def fixUp (T : Team) (w : CilCmd) (m : CjobM) (a : Word) : Team × Bool × Bool :=
  (List.range (cjChans m)).foldl (fun x c =>
    fixChan w m a c (x.1.elem w.coper (resAt w m a (min 15 (cjSteps m - 1)) c)) 1 ((cjSteps m + 15) / 16 - 1) x) (T, w.ovf, w.inv)

/-- Phase 4 (R316): every element is combined with the carry-in of its channel. -/
def finalRes (T : Team) (w : CilCmd) (m : CjobM) (a : Word) (cin : Nat → List Nat) : Team × Bool × Bool :=
  (List.range (cjSteps m)).foldl (fun x t => (List.range (cjChans m)).foldl (fun x c =>
    let at_ := resAt w m a t c
    putComb x at_ (combV w.coper (cin c) (x.1.elem w.coper at_))) x) (T, w.ovf, w.inv)

/-- A channel of CREG; +0 in every value where nothing has set it (R306). -/
def Coil.cregAt (u : Coil) (c : Nat) : List Nat := u.creg.getD c []

/-- CREG with its first channels replaced. -/
def Coil.setCreg (u : Coil) (vals : List (List Nat)) : Coil :=
  { u with creg := (List.range 128).map (fun c => vals.getD c (u.cregAt c)) }

/-- A job finishes phase 4 with its carry-in and completes (R316, R317). -/
def State.cjobFinal (s : State) (core : Nat) (w : CilCmd) (m : CjobM) (a : Word) (cin : Nat → List Nat) : State :=
  if s.cjobBad w m a then s.cjobMemerr core w else
  let x := finalRes (s.team w.team) w m a cin
  let s := s.modTeam w.team (fun _ => x.1)
  let w := { w with ovf := x.2.1, inv := x.2.2 }
  let cout := (List.range (cjChans m)).map (fun c => x.1.elem w.coper (resAt w m a (cjSteps m - 1) c))
  ((s.modCoil core (·.setCreg cout)).endCil core w false).outCarry core w cout false

/-- The end of the carry limit of a job in phase 4 (R312, R322). -/
def Coil.limit (u : Coil) (w : CilCmd) : Nat := w.since + 2 ^ u.tlim

/-- The carry that a job in phase 4 takes: the first for its team that is not late, come before the limit (R318, R319, R328). -/
def Coil.carryFor (u : Coil) (w : CilCmd) : Option LinkEnt :=
  match u.link.find? (fun e => !e.late && e.for_ == w.team) with
  | none => none
  | some e => if e.came < u.limit w then some e else none

/-- A job takes a chain carry (R319, R322). -/
def State.takeCarry (s : State) (core : Nat) (w : CilCmd) (m : CjobM) (a : Word) (e : LinkEnt) : State :=
  let s := s.modCoil core (fun u => { u with link := u.link.erase e, poison := u.poison || e.carry.poison })
  if e.carry.poison then s.abandonCil core w 0x13 0x11 0
  else if e.carry.coper != w.coper || e.carry.chans != cjChans m then s.abandonCil core w 0x13 0x12 0
  else s.cjobFinal core w m a (fun c => e.carry.vals.getD c [])

/-- Phase 4 of a job goes on: with the identity, with CREG, or with a chain carry that is there. -/
def State.cjobPhase4 (s : State) (core : Nat) (w : CilCmd) (m : CjobM) (a : Word) : State :=
  let u := (s.core core).coil
  if m.cin = 0 then s.cjobFinal core w m a (fun _ => cilIdent w.coper)
  else if m.cin = 1 then s.cjobFinal core w m a u.cregAt
  else match u.carryFor w with
    | none => s
    | some e => s.takeCarry core w m a e

/-- A scanned job reaches phase 4, unless it sends while the outgoing slot is occupied (R319). -/
def State.cjobEnter4 (s : State) (core : Nat) (w : CilCmd) (m : CjobM) (a : Word) : State :=
  if m.send && (s.core core).coil.out.isSome then s
  else
    let w := { w with phase := 4, since := s.cycle (coreCol core) }
    (s.modCil core w.id (fun _ => w)).cjobPhase4 core w m a

/-- A job whose inputs have all come is scanned (R316). -/
def State.cjobScan (s : State) (core : Nat) (w : CilCmd) (m : CjobM) (a : Word) : State :=
  if s.cjobBad w m a then s.cjobEarly core w m else
  let x := fixUp (s.team w.team) w m a
  let w := { w with phase := 3, ovf := x.2.1, inv := x.2.2 }
  ((s.modTeam w.team (fun _ => x.1)).modCil core w.id (fun _ => w)).cjobEnter4 core w m a

/-- A job goes on. -/
def State.cjobGo (s : State) (core : Nat) (w : CilCmd) (m : CjobM) (a : Word) : State :=
  if w.phase = 4 then s.cjobPhase4 core w m a
  else if w.phase = 3 then s.cjobEnter4 core w m a
  else
    let id := w.id
    let s := s.cjobSteps core id m a (cjSteps m)
    match s.cilHead core with
    | none => s
    | some w => if w.id != id || w.steps < cjSteps m || s.cjobHeld core w m a then s else s.cjobScan core w m a

/-- The job at the head of the queue can go on; a save holds it (R326). -/
def State.cjobDue (s : State) (core : Nat) (w : CilCmd) : Bool :=
  let u := (s.core core).coil
  match w.op with
  | .job m a =>
    !(s.team w.team).saving &&
    (if w.phase = 4 then (u.carryFor w).isSome
     else if w.phase = 3 then !(m.send && u.out.isSome)
     else (cjSteps m ≤ w.steps || u.stepReady w m) && !s.cjobHeld core w m a)
  | .car _ _ _ _ => false

/-- R315 to R317: the job at the head takes the steps that are there; after the last one it is scanned, takes its carry-in
and completes. -/
def execCjobComplete (core : Nat) (s : State) : Host.Outcome State Fault Refusal :=
  match s.cilHead core with
  | none => .next s
  | some w => match w.op with
    | .job m a => if s.cjobDue core w then .next (s.cjobGo core w m a) else .next s
    | .car _ _ _ _ => .next s

/-! ### The chain -/

/-- The next member of the gang of the team that owns a unit, with its core, while that member is resident (R318, R319). -/
def State.chainNext (s : State) (core : Nat) : Option (Nat × Nat) :=
  match (s.core core).coil.owner with
  | none => none
  | some t => (s.gangTeam t ((s.team t).gangpos + 1)).map (fun n => (n, (s.team n).core))

/-- The team that owns a unit is being saved (R326). -/
def State.coilSaving (s : State) (core : Nat) : Bool :=
  match (s.core core).coil.owner with
  | none => false
  | some t => (s.team t).saving

/-- The carry in the outgoing slot is sealed, and what the seal covers is performed at cluster scope (R320). -/
def State.outSealed (s : State) (core : Nat) : Bool :=
  let u := (s.core core).coil
  match u.out with
  | none => false
  | some (j, _) => match mapGet? j u.seals with
    | none => false
    | some ps => ps.all (fun p => s.performedAt p.1 p.2)

/-- The carry in the outgoing slot can leave: it is sealed and the receiver's link buffer has room (R319, R320). A save holds it
(R326); one whose receiver has retired waits for no room (notes/assumptions/40). -/
def State.sendDue (s : State) (core : Nat) : Bool :=
  s.outSealed core && !s.coilSaving core &&
  (match s.chainNext core with
   | none => true
   | some x => (s.core x.2).coil.link.length + (s.core x.2).coil.wire.length < 2)

/-- R319. -/
def execCarrySend (core : Nat) (s : State) : Host.Outcome State Fault Refusal :=
  match (s.core core).coil.out with
  | none => .next s
  | some (j, c) =>
    if !s.sendDue core then .next s
    else
      let u := s.modCoil core (fun u => { u with out := none, seals := u.seals.filter (fun p => p.1 != j) })
      .next (match s.chainNext core with
        | none => u
        | some x => u.modCoil x.2 (fun u => { u with wire := u.wire ++ [(x.1, c)] }))

/-- R319, R328: the carry of a job that was abandoned before it came is late. -/
def execCarryArrive (core : Nat) (s : State) : Host.Outcome State Fault Refusal :=
  match (s.core core).coil.wire with
  | [] => .next s
  | (t, c) :: cs => .next (s.modCoil core (fun u => { u with
      wire := cs
      missed := mapMod 0 t (· - 1) u.missed
      link := u.link ++ [{ for_ := t, came := s.cycle (coreCol core), late := mapGet 0 t u.missed != 0, carry := c }] }))

/-- A job has waited for a chain carry for longer than the limit (R322). -/
def State.limitOver (s : State) (core : Nat) (w : CilCmd) : Bool :=
  let u := (s.core core).coil
  match w.op with
  | .job m _ => !(s.team w.team).saving && w.phase == 4 && m.cin == 2 && (u.carryFor w).isNone && u.limit w < s.cycle (coreCol core)
  | .car _ _ _ _ => false

/-- R322. -/
def execCarryLimitExpiry (core : Nat) (s : State) : Host.Outcome State Fault Refusal :=
  match s.cilHead core with
  | none => .next s
  | some w => if s.limitOver core w then .next ((s.modCoil core (·.missCarry w.team)).abandonCil core w 0x13 0x10 0)
    else .next s

/-! ### Carries through memory -/

/-- Bytes that a `ccar` moves (R324). -/
def carBytes (p : COperator) (n : Nat) : Nat := n * (4 * shapeV p.shape)

/-- Checks 1 to 4 and 6 of R324, and the canonical address of check 5. -/
def Run.ccarFault (r : Run) (loc : Bool) (l : Nat) : Option FltRec :=
  let n := carBytes r.coil.coper (r.b l).toNat
  let a := r.a l
  match coilDFault r.T r.o.d n with
  | some f => some f
  | none =>
    if !r.ownsCoil then some (carryFault 0x01)
    else if (r.b l).toNat = 0 || 128 < (r.b l).toNat then some (carryFault 0x09)
    else if a.toNat % 16 != 0 then some { cls := 0x0C, reason := 0x01, addr := a, detail := 16 }
    else if !loc && !canonical a then some { cls := 0x09, reason := 0x01, addr := a }
    else if loc && r.T.locSize < a.toNat + n then some { cls := 0x07, reason := 0x02, addr := a, detail := specOf r.o.a.op }
    else none

/-- The range-lock entry of a `ccar` (R324, R29). -/
def Run.ccarLock (r : Run) (id : Nat) (st loc : Bool) (a : Word) (n : Nat) : LockEnt :=
  if loc then { cmd := id, idx := 0, src := !st, space := .loc r.t, lo := a.toNat, hi := a.toNat + n - 1 }
  else { cmd := id, idx := 0, src := !st, space := .glob r.T.asid, lo := va56 a, hi := va56 a + n - 1 }

/-- The command of a `ccar` whose checks have passed. -/
def Run.ccarIssue (r : Run) (ins : Instr) (st loc : Bool) (scope : Scope) (l : Nat) : State :=
  let n := carBytes r.coil.coper (r.b l).toNat
  let w := r.cilCmd l ins (.car st loc (r.a l) (r.b l).toNat) n (scopeCode scope)
  r.cilQueue { w with lines := if st && loc then physLines 0 (r.a l).toNat n else [] } [r.ccarLock w.id st loc (r.a l) n] false

/-- R324. -/
def ccarRun (o : Ops) (ins : Instr) (st loc : Bool) (scope : Scope) (s : State) : Host.Outcome State Fault Refusal :=
  withRun o { d := .counter, helps := false } s (fun r => r.once (r.ccarFault loc) (fun r l =>
    if loc then r.ccarIssue ins st loc scope l
    else match r.translated [l] (if st then .store else .load) r.a with
      | .parked s => s
      | .go r _ => match r.flt.find? (fun p => p.1 == l) with
        | some p => (r.faultAll p.2).finish
        | none => r.ccarIssue ins st loc scope l))

/-- R324. -/
def execCcarLd (o : Ops) (scope : Scope) (loc : Bool) (s : State) : Host.Outcome State Fault Refusal :=
  ccarRun o (.ccarLd o scope loc) false loc scope s
/-- R324. -/
def execCcarSt (o : Ops) (scope : Scope) (loc : Bool) (s : State) : Host.Outcome State Fault Refusal :=
  ccarRun o (.ccarSt o scope loc) true loc scope s

/-- Whose accesses a command makes. -/
def CilCmd.eng (w : CilCmd) (s : State) (core : Nat) : Eng := s.engOf core w.team w.asid w.root w.sup
/-- The issuing lane of a command. -/
def CilCmd.issuer (w : CilCmd) : Issuer := ⟨w.team, w.crs, w.lane, w.id⟩

/-- The elements in some bytes (R309). -/
def elemsOf (p : COperator) (n : Nat) (at_ : Nat → Byte) : List (List Nat) :=
  (List.range n).map (fun c => (List.range (shapeV p.shape)).map (fun j =>
    leVal ((List.range 4).map (fun b => at_ ((c * shapeV p.shape + j) * 4 + b)))))

/-- A fault of global memory stalls a `ccar` when it is XLATE, a refusal is tried again, anything else abandons it (R31, R324, R277,
R278). -/
def State.ccarFails (s : State) (core : Nat) (w : CilCmd) (cls : Nat) (addr : Word) : State :=
  let now := s.cycle (coreCol core)
  if cls = 0x09 then s.modCil core w.id (fun w => { w with stall := some (now, now, addr) })
  else if cls = 0x0B then match s.engRefused core w.asid w.tries with
    | some s => s.modCil core w.id (fun w => { w with tries := w.tries + 1 })
    | none => s.abandonCil core w 0x10 0x8B addr
  else s.abandonCil core w 0x10 (0x80 + cls) addr

/-- A `ccar.ld` reads memory and fills CREG (R324). -/
def State.ccarRead (s : State) (core : Nat) (w : CilCmd) (loc : Bool) (a : Word) (n : Nat) : State :=
  let len := carBytes w.coper n
  let s := { s with timers := mapDel w.id s.timers }
  if loc then
    let T := s.team w.team
    if T.locBad a.toNat len then s.ccarFails core w 0x17 a
    else (s.modCoil core (·.setCreg (elemsOf w.coper n (fun i => T.locByte (a.toNat + i))))).endCil core w false
  else match s.engGather (w.eng s core) [(a.toNat, len)] with
    | .bad cls addr => s.ccarFails core w cls addr
    | .ok d s => (s.modCoil core (·.setCreg (elemsOf w.coper n (fun i => d.at (a.toNat + i))))).endCil core w false

/-- The bytes of CREG's first channels (R309). -/
def Coil.cregBytes (u : Coil) (p : COperator) (n : Nat) : List Byte :=
  (List.range n).flatMap (fun c => (List.range (shapeV p.shape)).flatMap (fun j => leBytes 4 ((u.cregAt c).getD j 0)))

/-- A `ccar.st` writes CREG (R324): it completes once its writes are performed at SCOPE (R217). -/
def State.ccarWrite (s : State) (core : Nat) (w : CilCmd) (loc : Bool) (a : Word) (n : Nat) : State :=
  let bs := (s.core core).coil.cregBytes w.coper n
  if loc then
    if partlyBad (s.team w.team).lbad ((List.range bs.length).map (a.toNat + ·)) then s.ccarFails core w 0x17 a
    else (s.modTeam w.team (·.locPut a.toNat bs)).endCil core w false
  else
    let wid := s.nextId
    match State.engWrite { s with nextId := s.nextId + 1 } (w.eng s core) w.issuer (chunksOf (bytesAt a.toNat bs)) wid with
    | .bad cls addr => s.ccarFails core w cls addr
    | .ok _ s =>
      let s := (s.trackWrite w.issuer core wid).modCil core w.id (fun w => { w with wid := some wid, tries := 0 })
      if s.landedAt wid w.scope then s.endCil core w false else s

/-- The `ccar` at the head of the queue can go on. -/
def State.ccarDue (s : State) (core : Nat) (w : CilCmd) : Bool :=
  match w.op with
  | .car st loc a n => match w.wid with
    | some id => s.landedAt id w.scope
    | none => w.stall.isNone && !(s.team w.team).saving && (if loc then st || !s.unitBehind w.issuer else
        s.engFree (w.eng s core) w.issuer (linesOf [(a.toNat, carBytes w.coper n)]) (if st then .store else .load))
  | .job _ _ => false

/-- R324. -/
def execCcarComplete (core : Nat) (s : State) : Host.Outcome State Fault Refusal :=
  match s.cilHead core with
  | none => .next s
  | some w => match w.op with
    | .car st loc a n =>
      if !s.ccarDue core w then .next s
      else .next (if w.wid.isSome then s.endCil core w false
        else if st then s.ccarWrite core w loc a n else s.ccarRead core w loc a n)
    | .job _ _ => .next s

end Sys2Proof.Machine
end

