-- ==== Sys2Proof/Machine/Abandon.lean ====
section
/-! DEFINITION. Stalls of engine commands (R277, R301, R324), their abandonment (R27, R278), and the pushes to Slip's
completion ports (R262). -/

namespace Sys2Proof.Machine

/-- A stalled command: its core, whose accesses it makes, the access that failed, the cycles of the first failed walk and of
the last one, and the address. -/
structure Stalled where
  core : Nat
  eng : Eng
  kind : AccessKind
  first : Nat
  last : Nat
  addr : Word
  deriving DecidableEq, Repr

/-- The access of a Coil command that goes to global memory. -/
def CilOp.kind : CilOp → AccessKind
  | .car true _ _ _ => .store
  | _ => .load

/-- The stalled command with a number among those of a core. -/
def State.stalledOn (s : State) (core : Nat) (k : Core) (id : Nat) : Option Stalled :=
  match (k.slips.find? (fun c => c.id == id)).bind (fun c => c.stall.map (fun x =>
      Stalled.mk core (c.eng s core) (if c.dir = 1 then .store else .load) x.1 x.2.1 x.2.2)) with
  | some x => some x
  | none => match (k.wheel.find? (fun w => w.id == id)).bind (fun w => w.stall.map (fun x =>
      Stalled.mk core (w.eng s core) .store x.1 x.2.1 x.2.2)) with
    | some x => some x
    | none => (k.coil.queue.find? (fun w => w.id == id)).bind (fun w => w.stall.map (fun x =>
        Stalled.mk core (w.eng s core) w.op.kind x.1 x.2.1 x.2.2))

/-- The stalled command with a number. -/
def State.stalled? (s : State) (id : Nat) : Option Stalled := s.cores.findSome? (fun p => s.stalledOn p.1 p.2 id)

/-- A walk for a stalled command still finds no valid entry. -/
def State.stillBad (s : State) (x : Stalled) : Bool := s.engTr x.eng x.addr x.kind == .bad 0x09

/-- A command's stall, replaced. -/
def State.setStall (s : State) (core id : Nat) (x : Option (Nat × Nat × Word)) : State :=
  ((s.modSlip core id (fun c => { c with stall := x })).modWheel core id (fun w => { w with stall := x })).modCil core id
    (fun w => { w with stall := x })

/-- A stalled command may walk again: the walk would find an entry, or 2^16 cycles have passed since the last one. -/
def State.rewalkDue (s : State) (x : Stalled) : Bool := !s.stillBad x || x.last + 2 ^ 16 ≤ s.cycle (coreCol x.core)

/-- R277: a stalled command walks again. -/
def execSlipTranslationRewalk (id : Nat) (s : State) : Host.Outcome State Fault Refusal :=
  match s.stalled? id with
  | none => .next s
  | some x => .next (s.setStall x.core id (if s.stillBad x then some (x.first, s.cycle (coreCol x.core), x.addr) else none))

/-- The stall has lasted 2^20 cycles and the walk still fails (R277). -/
def State.stallOver (s : State) (x : Stalled) : Bool := s.stillBad x && x.first + 2 ^ 20 ≤ s.cycle (coreCol x.core)

/-- A command whose stall is over is abandoned; a Slip command by COMMAND_ABANDON. -/
def State.endStall (s : State) (x : Stalled) (id : Nat) : State :=
  let k := s.core x.core
  let s := s.setStall x.core id none
  match k.wheel.find? (fun w => w.id == id), k.coil.queue.find? (fun w => w.id == id) with
  | some w, _ => s.abandonWheel x.core w 0x89 x.addr
  | none, some w => s.abandonCil x.core w 0x10 0x89 x.addr
  | none, none => s.modSlip x.core id (fun c => { c with fail := some (0x09, x.addr) })

/-- R277, R301, R324. -/
def execSlipStallTimeout (id : Nat) (s : State) : Host.Outcome State Fault Refusal :=
  match s.stalled? id with
  | none => .next s
  | some x => if s.stallOver x then .next (s.endStall x id) else .next s

/-- R27, R278. -/
def execCommandAbandon (id : Nat) (s : State) : Host.Outcome State Fault Refusal :=
  match s.slip? id with
  | none => .next s
  | some (core, c) => match c.fail with
    | none => .next s
    | some (cls, addr) => .next (s.abandonSlip core c (0x80 + cls) addr)

/-- R262: the entry of a copy is pushed. -/
def execCompletionPortPush (id : Nat) (s : State) : Host.Outcome State Fault Refusal :=
  match s.slip? id with
  | none => .next s
  | some (core, c) => match c.report with
    | .port n => if s.slipPushDue c
      then .next ((s.portPush c.team n (portEntry c.status c.tlr.scope)).modSlip core id (fun c => { c with pushed := true }))
      else .next s
    | _ => .next s

end Sys2Proof.Machine
end

