-- ==== Sys2Proof/Machine/Nodes.lean ====
section
/-! DEFINITION. The node dispatcher: node records (R329 to R334) and their checks (R335), launching (R336, R337), successors
(R338), the ready pool's entries (R339, R340), and the instructions that signal, wait for and launch nodes (R348 to
R351). -/

namespace Sys2Proof.Machine

/-! ### Records -/

/-- The sixteen words of a record (R329). -/
abbrev NodeRec := List Nat

/-- The record at a physical address. -/
def State.nodeAt (s : State) (pa : Nat) : NodeRec := (List.range 16).map (fun i => memRead s.mem (pa + 8 * i) 8)

/-- Word `i` of a record. -/
def nw (w : NodeRec) (i : Nat) : Nat := w.getD i 0

/-- HEAD.SCOPE (R330). -/
def nrScope (w : NodeRec) : Nat := fld (nw w 0) 60 4
/-- HEAD.PRIO. -/
def nrPrio (w : NodeRec) : Nat := fld (nw w 0) 58 2
/-- HEAD.EARLY. -/
def nrEarly (w : NodeRec) : Bool := bitN (nw w 0) 57
/-- HEAD.SUP. -/
def nrSup (w : NodeRec) : Bool := bitN (nw w 0) 56
/-- The entry line. -/
def nrEntry (w : NodeRec) : Word := canon56 (fld (nw w 0) 7 49 * 128)
/-- HEAD.KIND. -/
def nrKind (w : NodeRec) : Nat := fld (nw w 0) 0 3
/-- GRID.GX. -/
def nrGx (w : NodeRec) : Nat := fld (nw w 1) 0 16
/-- GRID.GY. -/
def nrGy (w : NodeRec) : Nat := fld (nw w 1) 16 16
/-- GRID.GZ. -/
def nrGz (w : NodeRec) : Nat := fld (nw w 1) 32 16
/-- Gang size (R330). -/
def nrGang (w : NodeRec) : Nat := fld (nw w 2) 57 7 + 1
/-- Lanes of a team. -/
def nrLanes (w : NodeRec) : Nat := fld (nw w 2) 47 10 + 1
/-- Courses of a team. -/
def nrCourses (w : NodeRec) : Nat := fld (nw w 2) 42 5 + 1
/-- The split (R75). -/
def nrSplit (w : NodeRec) : Split := { regs := fld (nw w 2) 0 9, loc := 16 * fld (nw w 2) 16 7, l1 := 64 * fld (nw w 2) 32 4 }
/-- SPACE.TEN. -/
def nrTen (w : NodeRec) : Nat := fld (nw w 3) 56 5
/-- SPACE.ASID (R331). -/
def nrAsid (w : NodeRec) : Nat := fld (nw w 3) 40 16
/-- SPACE.ROOT. -/
def nrRoot (w : NodeRec) : Nat := fld (nw w 3) 0 40
/-- A handler's vector from a line offset (R331). -/
def nrVec (w : NodeRec) (lo : Nat) : Word :=
  let off := fld (nw w 4) lo 32
  let line := fld (nrEntry w + wordOfInt (128 * sextN 32 off)).toNat 7 49
  wordOf (line * 128 + bit (off != 0))
/-- CTXA.BASE. -/
def nrCtx (w : NodeRec) : Nat := nw w 6 / 4096 * 4096
/-- CTXA.CSTRIDE. -/
def nrStride (w : NodeRec) : Nat := fld (nw w 6) 0 12
/-- DEP.PRED (R334). -/
def nrPred (w : NodeRec) : Nat := fld (nw w 7) 0 16
/-- DEP.REM. -/
def nrRem (w : NodeRec) : Nat := fld (nw w 7) 16 16
/-- DEP.RSIG. -/
def nrRsig (w : NodeRec) : Nat := fld (nw w 7) 32 16
/-- DEP.STATE. -/
def nrState (w : NodeRec) : Nat := fld (nw w 7) 48 3
/-- DEP.CONT. -/
def nrCont (w : NodeRec) : Bool := bitN (nw w 7) 51
/-- DEP.NSUCC. -/
def nrNsucc (w : NodeRec) : Nat := fld (nw w 7) 52 4
/-- SELF. -/
def nrSelf (w : NodeRec) : Word := wordOf (nw w 9)
/-- SUCC `n`. -/
def nrSucc (w : NodeRec) (n : Nat) : Nat := fld (nw w (10 + n / 4)) (16 * (n % 4)) 16
/-- The record is a GANG or COIL node. -/
def nrIsGang (w : NodeRec) : Bool := nrKind w == 1 || nrKind w == 2
/-- Teams that are placed at one moment (R345). -/
def nrUnit (w : NodeRec) : Nat := if nrIsGang w then nrGang w else 1
/-- NTEAMS (R341, R347). -/
def nrTeams (w : NodeRec) : Nat :=
  if nrKind w = 4 then 0 else if nrKind w = 3 then 1 else nrGx w * nrGy w * nrGz w * nrUnit w

/-- The first regions of the declared tiles, with their numbers of regions (R332). -/
def nrTiles (w : NodeRec) : List (Nat × Nat) :=
  (List.range 4).filterMap (fun i => let x := nw w (12 + i); if x = 0 then none else some (fld x 12 44 * 4096, fld x 0 12 + 1))

/-! ### DEP -/

/-- DEP with some fields replaced. -/
def depWith (w : NodeRec) (err st rsig rem : Nat) : Nat :=
  setFld (setFld (setFld (setFld (nw w 7) 56 8 err) 48 3 st) 32 16 rsig) 16 16 rem

/-- The dispatcher writes DEP at the record's home (R334). -/
def State.putDep (s : State) (pa dep : Nat) : State := s.homeWrite (pa + 0x38) (leBytes 8 dep) none

/-- STATE becomes 5 with a reason (R335). -/
def State.failRec (s : State) (pa err : Nat) : State :=
  let w := s.nodeAt pa
  { s.putDep pa (depWith w err 5 (nrRsig w) (nrRem w)) with preds := mapDel pa s.preds }

/-- First touch of a record in STATE 0 (R337). -/
def State.firstTouch (s : State) (pa : Nat) : State :=
  let w := s.nodeAt pa
  if nrState w != 0 then s
  else { s.putDep pa (depWith w (fld (nw w 7) 56 8) 1 (nrPred w) (nrPred w)) with preds := mapPut pa (0, 0) s.preds }

/-- Failed predecessors of a node, and the widest SCOPE among those that have completed or failed (R342, R350). -/
def State.predsOf (s : State) (pa : Nat) : Nat × Nat := mapGet (0, 0) pa s.preds

/-! ### Checks -/

/-- The leaf and physical address of a virtual address under a record's SPACE, when an access of some kind is allowed. -/
def State.spaceAt (s : State) (w : NodeRec) (x : Word) (k : AccessKind) : Option (Nat × Nat) :=
  if !canonical x then none
  else match s.walk (nrRoot w) (va56 x) with
    | .leaf lvl pte =>
      if (protReason (nrSup w) k pte).isSome then none
      else some (pte, (tlbEntOf (nrAsid w) (va56 x) 0 lvl pte).pa (va56 x))
    | _ => none

/-- SELF translates to the physical address of the record (R335). -/
def State.selfOk (s : State) (w : NodeRec) (pa : Nat) : Bool :=
  canonical (nrSelf w) && (match s.walk (nrRoot w) (va56 (nrSelf w)) with
    | .leaf lvl pte => pteFmode pte == 0 && (tlbEntOf (nrAsid w) (va56 (nrSelf w)) 0 lvl pte).pa (va56 (nrSelf w)) == pa
    | _ => false)

/-- A word of a record as `n` bytes from a virtual address, none where RD is missing. -/
def State.spaceRead (s : State) (w : NodeRec) (x : Word) (n : Nat) : Option Nat :=
  match s.spaceAt w x .load with
  | some (pte, pa) => if pteFmode pte != 0 || s.poisoned pa n then none else some (memRead s.mem pa n)
  | none => none

/-- The record a 16-bit offset names (R332). -/
def succVa (base off : Nat) : Nat := (wordOf base + wordOfInt (128 * sextN 16 off)).toNat

/-- Slot `n` of a continuation record. -/
def State.contSlot (s : State) (w : NodeRec) (base n : Nat) : Option Nat := s.spaceRead w (wordOf (base + 2 * n)) 2

/-- The continuation records from one on keep R332; one that cannot be read is met when it is visited. -/
def State.contOk (s : State) (w : NodeRec) : Nat → Nat → Bool
  | 0, _ => true
  | fuel + 1, base => match s.contSlot w base 0 with
    | none => true
    | some x =>
      1 ≤ fld x 0 6 && fld x 0 6 ≤ 62 && fld x 6 9 == 0 &&
      (!bitN x 15 || (match s.contSlot w base 63 with
        | none => true
        | some off => State.contOk s w fuel (succVa base off)))

/-- NSUCC, CONT, the successor slots and the continuation records keep R332. -/
def State.succOk (s : State) (w : NodeRec) : Bool :=
  nrNsucc w ≤ 8 && (!nrCont w || nrNsucc w == 8) && (List.range 8).all (fun n => n < nrNsucc w || nrSucc w n == 0) &&
  (!nrCont w || s.contOk w 4096 (succVa (nrSelf w).toNat (nrSucc w 7)))

/-- The split keeps R75: RSV bits are 0, and each field lies within its encodings. A COLUMN or HOST record, which places no team,
may leave REGS and L1 at 0, which is no reserved value that is nonzero (R333, R335). -/
def splitCodes (w : NodeRec) : Bool :=
  let r := fld (nw w 2) 0 9
  let l1 := fld (nw w 2) 32 4
  let none_ := 2 < nrKind w
  fld (nw w 2) 9 7 == 0 && fld (nw w 2) 16 7 ≤ 64 && fld (nw w 2) 23 9 == 0 &&
  ((none_ && r == 0) || (32 ≤ r && r ≤ 256 && r % 16 == 0)) && ((none_ && l1 == 0) || (1 ≤ l1 && l1 ≤ 8))

/-- RSV bits and ranges of a record, the successor fields and SELF's translation aside (R330 to R332; ERR 0x01). -/
def recFields (w : NodeRec) : Bool :=
  fld (nw w 0) 3 4 == 0 && 3 ≤ nrScope w && nrScope w ≤ 9 &&
  fld (nw w 1) 48 16 == 0 && nrGx w != 0 && nrGy w != 0 && nrGz w != 0 &&
  fld (nw w 2) 36 6 == 0 && nrGang w ≤ 96 && (nrKind w != 0 || nrGang w == 1) && nrLanes w ≤ 32 * nrCourses w &&
  splitCodes w && fld (nw w 3) 61 3 == 0 && nw w 5 &&& sysRsv 0x045 == 0 &&
  canonical (wordOf (nrCtx w)) && nw w 9 % 128 == 0 && (List.range 4).all (fun i => fld (nw w (12 + i)) 56 8 == 0)

/-- TeamBytes (R74). -/
def teamBytes (courses : Nat) (sp : Split) : Nat := courses * 32 * (sp.regs + 8) * 8 + sp.loc * 1024

/-- The context size of R354. -/
def ctxSize (courses : Nat) (sp : Split) : Nat :=
  let loc := sp.loc * 1024
  roundUp (0x0A00 + courses * (256 + 32 * (256 + 8 * sp.regs)) + roundUp (loc / 512) 64 + loc) 4096 + 889344

/-- Working cores of a cluster (R18). -/
def State.clusterCores (s : State) (cl : Nat) : Nat :=
  (List.range 8).foldl (fun n i => n + (s.column (8 * cl + i)).slots.length) 0

/-- Every declared tile translates with RD (R335). -/
def State.tilesOk (s : State) (w : NodeRec) : Bool :=
  (nrTiles w).all (fun t => (List.range t.2).all (fun i => (s.spaceAt w (canon56 (t.1 + 4096 * i)) .load).isSome))

/-- The checks of R335 in the order of their numbers: the first ERR, and whether the node's own successor fields break R332.
`auth` is the launcher's authority, none for a node that becomes READY through a predecessor. -/
def State.recErr (s : State) (pa : Nat) (auth : Option Auth) : Option (Nat × Bool) :=
  let w := s.nodeAt pa
  let bad := !s.succOk w
  let k := nrKind w
  if bad || !recFields w || !s.selfOk w pa then some (0x01, bad)
  else if 4 < k || (3 ≤ k && !nrSup w) then some (0x02, false)
  else if auth.isSome && nrPred w != 0 then some (0x03, false)
  else if (match auth with
      | some (.course false a) => nrSup w || nrAsid w != a
      | _ => false) then some (0x04, false)
  else if (1536 - (nrSplit w).l1) * 1024 < teamBytes (nrCourses w) (nrSplit w) ||
      (nrStride w != 0 && nrStride w * 65536 < ctxSize (nrCourses w) (nrSplit w)) then some (0x05, false)
  else if nrIsGang w && !(List.range 8).any (fun cl => nrGang w ≤ s.clusterCores cl) then some (0x06, false)
  else if !s.tilesOk w then some (0x07, false)
  else none

/-! ### The pool -/

/-- EP of an entry (R340). -/
def State.ep (s : State) (n : PoolNode) : Nat := min 3 (nrPrio n.words + (s.cycle 0 - n.entered) / 2 ^ 22)

/-- The pool in its order: the pool itself is kept in the order of entry (R340). -/
def State.poolOrder (s : State) : List PoolNode := sortBy (fun n => 3 - s.ep n) s.pool

/-- A node has a team waiting to be placed (R340, R344). -/
def PoolNode.waiting (n : PoolNode) : Bool := nrKind n.words ≤ 2 && (n.next < nrTeams n.words || !n.saved.isEmpty)

/-- The head of the pool: the first node with a team waiting. -/
def State.poolHead (s : State) : Option Nat := (s.poolOrder.find? PoolNode.waiting).map (·.node)

/-- A change of the pool; a node that becomes the head is so from now on (R352). -/
def State.modPool (s : State) (f : List PoolNode → List PoolNode) : State :=
  let h0 := s.poolHead
  let s := { s with pool := f s.pool }
  match s.poolHead with
  | none => s
  | some h => if h0 = some h then s
    else { s with pool := s.pool.map (fun n => if n.node == h then { n with headSince := s.cycle 0 } else n) }

/-- A node of the pool. -/
def State.poolNode? (s : State) (node : Nat) : Option PoolNode := s.pool.find? (fun n => n.node == node)

/-- A node of the pool, changed. -/
def State.modNode (s : State) (node : Nat) (f : PoolNode → PoolNode) : State :=
  s.modPool (fun p => p.map (fun n => if n.node == node then f n else n))

/-- The node has an entry of the pool, or waits for one (R334, R340). -/
def State.isReady (s : State) (pa : Nat) : Bool :=
  (s.poolNode? pa).isSome || s.columns.any (fun p => p.2.held.contains pa)

/-- Nothing of a node is out: no team, and no COLUMN task. -/
def PoolNode.idle (n : PoolNode) : Bool := n.resident.isEmpty && n.saved.isEmpty && !n.taskOut

/-- No further team of a node that has failed is placed (R335): its entry goes once nothing of it is out. -/
def State.unpool (s : State) (pa : Nat) : State :=
  let s : State := { s with columns := s.columns.map (fun (p : Nat × Column) => (p.1, { p.2 with held := p.2.held.filter (· != pa) })) }
  s.modPool (fun p => (p.filter (fun (n : PoolNode) => n.node != pa || !n.idle)).map (fun n =>
    if n.node == pa then { n with refused := true, next := nrTeams n.words } else n))

/-- STATE becomes 5 with a reason, and the node is READY no more (R335, R337). -/
def State.failNode (s : State) (pa err : Nat) : State := (s.failRec pa err).unpool pa

/-- A node in STATE 2 enters the pool (R340). -/
def State.enterPool (s : State) (pa : Nat) : State :=
  let now := s.cycle 0
  State.modPool { s with nextId := s.nextId + 1 } (fun p => p ++ [{ node := pa, words := s.nodeAt pa, ord := s.nextId, entered := now, since := now, headSince := now }])

/-- A node becomes READY (R334, R337, R340): it enters the pool or a held queue; none when neither has room. One that is there
already enters no second time. -/
def State.makeReady (s : State) (pa : Nat) : Option State :=
  if s.isReady pa then some s else
  let w := s.nodeAt pa
  let col := s.home pa
  let s := s.putDep pa (depWith w (fld (nw w 7) 56 8) 2 (nrRsig w) (nrRem w))
  if s.pool.length < 4096 then some (s.enterPool pa)
  else if (s.column col).held.length < 256 then some (s.modCol col (fun k => { k with held := k.held ++ [pa] }))
  else none

/-- A node's successors are to be visited (R338). -/
def State.addVisit (s : State) (pa kind : Nat) (signalled : Bool) : State :=
  let w := s.nodeAt pa
  { s with visits := s.visits ++ [{ node := pa, kind := kind, signalled := signalled, words := w, base := (nrSelf w).toNat, slot := 0, cont := false }] }

/-- A check has failed: STATE 5, and the successors are visited unless the successor fields are what failed (R337). -/
def State.rejectRec (s : State) (pa : Nat) (e : Nat × Bool) : State :=
  let s := s.failNode pa e.1
  if e.2 then s else s.addVisit pa 2 false

/-- R340: a held node enters the pool. -/
def execHeldNodeEnterPool (col : Nat) (s : State) : Host.Outcome State Fault Refusal :=
  match (s.column col).held with
  | [] => .next s
  | pa :: r =>
    if 4096 ≤ s.pool.length then .next s
    else .next ((s.modCol col (fun k => { k with held := r })).enterPool pa)

/-! ### Launching -/

/-- The launch line of a column at a priority has room (R336). -/
def State.lineRoom (s : State) (col prio : Nat) : Bool := (s.column col).launchLen prio < 256

/-- Append a record's address to a launch line. -/
def State.appendLine (s : State) (col prio : Nat) (val : Word) (auth : Auth) : State :=
  s.modCol col (fun k => { k with launch := mapMod [] prio (· ++ [(val.toNat, auth)]) k.launch })

/-- The launch store that an access in flight is about to perform: column, priority, value and authority (R336, R351). -/
def State.launchOf (s : State) (f : Flight) : Option (Nat × Nat × Word × Auth) :=
  let auth : Auth := .course (s.team f.team).sup f.asid
  match f.kind with
  | .store =>
    if f.fmode == 0 && f.stage == 1 && s.genOk f && !s.mmioBefore f then (launchAt f.pa f.size f.data).map (fun p => (p.1, p.2, f.data, auth)) else none
  | .launch =>
    if f.after.all (fun p => s.performedAt p.1 p.2) &&
       !s.flights.any (fun g => g.kind == .launch && g.id < f.id && g.team == f.team && g.crs == f.crs)
    then some (f.count, f.span, wordOf f.pa, auth) else none
  | _ => none

/-- The launch store is performed: a store then waits for its acknowledgements, `nlaunch` fills D (R351). -/
def State.launchDone (s : State) (f : Flight) : State :=
  if f.kind == .store then s.modFlight f.id (fun f => { f with stage := 2 }) else (s.land f 0 false).dropFlight f.id

/-- R336: an access in flight, or a store from outside the SIMT cores, is appended when its queue has room. -/
def execLaunchStore (col prio : Nat) (val : Word) (auth : Auth) (flight : Option Nat) (s : State) :
    Host.Outcome State Fault Refusal :=
  if !s.lineRoom col prio then .next s
  else match flight with
    | none => if 4 ≤ prio || 64 ≤ col || val.toNat % 128 != 0 then .next s else .next (s.appendLine col prio val auth)
    | some id => match s.flight? id with
      | none => .next s
      | some f => if s.launchOf f == some (col, prio, val, auth)
        then .next ((s.appendLine col prio val auth).launchDone f) else .next s

/-- The next record of a column's lines, from priority 3 down (R336): its priority, address and authority. -/
def Column.nextRecord (k : Column) : Option (Nat × Nat × Auth) :=
  [3, 2, 1, 0].findSome? (fun p => ((mapGet [] p k.launch).head?).map (fun x => (p, x.1, x.2)))

/-- The record that an agent has taken (R335, R337). -/
def State.dispatchAt (s : State) (col pa : Nat) (auth : Auth) : State :=
  if nrState (s.nodeAt pa) != 0 || s.isReady pa then s.discardLaunch col
  else match s.recErr pa (some auth) with
    | some e => (s.firstTouch pa).rejectRec pa e
    | none => ((s.firstTouch pa).makeReady pa).getD s

/-- An agent may take a record (R340). -/
def State.dispatchDue (s : State) (col : Nat) : Bool := s.pool.length < 3072 && (s.column col).nextRecord.isSome

/-- R335 to R337, R340. -/
def execDispatchRecord (col : Nat) (s : State) : Host.Outcome State Fault Refusal :=
  match (s.column col).nextRecord with
  | none => .next s
  | some (p, pa, auth) =>
    if !s.dispatchDue col then .next s
    else .next ((s.modCol col (fun k => { k with launch := mapMod [] p (fun q => q.drop 1) k.launch })).dispatchAt col pa auth)

/-! ### Successors -/

/-- A successor becomes READY through a predecessor and is checked at that moment (R337). -/
def State.readyByPred (s : State) (pa : Nat) : Option State :=
  match s.recErr pa none with
  | some e => some (s.rejectRec pa e)
  | none => s.makeReady pa

/-- A predecessor of a node has completed or failed: the failures and the widest scope are kept (R342, R350). -/
def State.notePred (s : State) (pa scope : Nat) (failed : Bool) : State :=
  let p := s.predsOf pa
  { s with preds := mapPut pa (p.1 + bit failed, max p.2 scope) s.preds }

/-- What a visit does to a successor that its predecessor may touch (R337); none when it must wait. -/
def State.touchSucc (s : State) (v : Visit) (pa : Nat) : Option State :=
  let s := s.firstTouch pa
  let w := s.nodeAt pa
  let err := fld (nw w 7) 56 8
  let rsig := nrRsig w - 1
  let st := nrState w
  if 3 < st then some s
  else if v.kind = 0 then
    if st != 1 then some s
    else
      let s := s.putDep pa (depWith w err 1 rsig (nrRem w))
      if rsig = 0 && nrEarly w then s.readyByPred pa else some s
  else if v.kind = 2 && st = 1 then some ((s.failNode pa 0x20).addVisit pa 2 false)
  else
    let s := s.putDep pa (depWith w err st (if v.signalled then nrRsig w else rsig) (nrRem w - 1))
    let s := s.notePred pa (nrScope v.words) (v.kind == 2)
    if nrRem w - 1 = 0 && st = 1 then s.readyByPred pa else some s

/-- A successor is refused for want of authority (R338). -/
def succRefused (pred w : NodeRec) : Bool := !nrSup pred && (nrSup w || nrAsid w != nrAsid pred)

/-- A successor that cannot be reached is skipped and counted (R338). -/
def State.skipSucc (s : State) (v : Visit) : State := s.discardLaunch (s.home v.node)

/-- A visit of the successor at a virtual address (R338). -/
def State.visitAt (s : State) (v : Visit) (va : Nat) : Option State :=
  match s.spaceAt v.words (wordOf va) .load, s.spaceAt v.words (wordOf va) .store with
  | some (pte, pa), some _ =>
    if pteFmode pte != 0 || !(isHbm pa || isWindow pa) || s.beyondWindow pa || s.poisoned pa 128 || pa % 128 != 0 then some (s.skipSucc v)
    else if succRefused v.words (s.nodeAt pa) then
      (if 3 < nrState (s.nodeAt pa) then some s else some ((s.failNode pa 0x04).addVisit pa 2 false))
    else s.touchSucc v pa
  | _, _ => some (s.skipSucc v)

/-- One step along a node's successors: the successor to visit, and where the walk stands after it; none at its end
(R332, R338). -/
def State.visitStep (s : State) (v : Visit) : Option Nat × Option Visit :=
  if !v.cont then
    if nrCont v.words && v.slot = 7 then
      (none, some { v with base := succVa v.base (nrSucc v.words 7), slot := 1, cont := true })
    else if nrNsucc v.words ≤ v.slot then (none, none)
    else (some (succVa v.base (nrSucc v.words v.slot)), some { v with slot := v.slot + 1 })
  else match s.contSlot v.words v.base 0 with
    | none => (none, none)
    | some h =>
      if fld h 0 6 = 0 || 62 < fld h 0 6 then (none, none)
      else if v.slot ≤ fld h 0 6 then
        match s.contSlot v.words v.base v.slot with
        | none => (none, none)
        | some off => (some (succVa v.base off), some { v with slot := v.slot + 1 })
      else if !bitN h 15 then (none, none)
      else match s.contSlot v.words v.base 63 with
        | none => (none, none)
        | some off => (none, some { v with base := succVa v.base off, slot := 1 })

/-- The oldest walk along a node's successors goes on by one; none when the successor cannot be taken yet (R340). -/
def State.visitGo (s : State) (v : Visit) : Option State :=
  let p := s.visitStep v
  let rest := match p.2 with
    | none => s.visits.erase v
    | some v' => v' :: s.visits.erase v
  let s := { s with visits := rest }
  match p.1 with
  | none => some s
  | some va => s.visitAt v va

/-! ### Completion -/

/-- A node of the pool completes (R339). -/
def State.completeDue (s : State) (n : PoolNode) : Bool :=
  let total := nrTeams n.words
  if n.refused then n.idle else n.resident.isEmpty && n.saved.isEmpty && n.retired == total && s.nodeRem n.node == 0 && (nrKind n.words != 4 || n.notified)

/-- A core that was kept for a node by an eviction no longer is. -/
def Core.endEviction (k : Core) (node : Nat) : Core :=
  if k.evictFor = some node then { k with evictFor := none, reserved := if k.reserved = some node then none else k.reserved } else k

/-- A node's team or gang has found its cores, or the node is done: no other core is kept for it by an eviction (R357, R358). -/
def State.endEviction (s : State) (node : Nat) : State := { s with cores := s.cores.map (fun p => (p.1, p.2.endEviction node)) }

/-- A node leaves the pool, its DEP is written, and its successors are to be visited (R339, R340). -/
def State.completeNode (s : State) (n : PoolNode) : State :=
  let err := if (s.predsOf n.node).1 != 0 then 0x20 else n.failed.getD 0
  let s := State.modPool { s with preds := mapDel n.node s.preds } (fun p => p.filter (fun m => m.node != n.node))
  let s := { s with cores := s.cores.map (fun (p : Nat × Core) => if p.2.reserved == some n.node then (p.1, { p.2 with reserved := none }) else p) }
  let s := s.endEviction n.node
  if n.refused then s else
  let w := s.nodeAt n.node
  let s := s.putDep n.node (depWith w err (if err = 0 then 4 else 5) (nrRsig w) (nrRem w))
  s.addVisit n.node (if err = 0 then 1 else 2) n.sigDone

/-- The oldest walk along the successors of a node. -/
def State.visitOf (s : State) (node : Nat) : Option Visit := s.visits.find? (fun v => v.node == node)

/-- A COLUMN task is done, its node is not complete, and the signal that its end is has not yet been given (R349, R364). -/
def State.taskSignal (s : State) (n : PoolNode) : Bool :=
  nrKind n.words == 3 && n.retired == 1 && !n.sigDone && s.nodeRem n.node != 0

/-- A walk along a node's successors can go on, or the node can complete. -/
def State.nodeDue (s : State) (node : Nat) : Bool :=
  match s.visitOf node with
  | some v => (s.visitGo v).isSome
  | none => (s.poolNode? node).any (fun n => s.completeDue n || s.taskSignal n)

/-- R337 to R339: a successor is visited, or the node completes. -/
def execNodeComplete (node : Nat) (s : State) : Host.Outcome State Fault Refusal :=
  match s.visitOf node with
  | some v => match s.visitGo v with
    | some s => .next s
    | none => .next s
  | none => match s.poolNode? node with
    | some n =>
      if s.completeDue n then .next (s.completeNode n)
      else if s.taskSignal n then .next ((s.modNode node (fun n => { n with sigDone := true })).addVisit node 0 true)
      else .next s
    | none => .next s

/-- A team of a node has signalled or retired: when it is the last one, the node has signalled (R349). -/
def State.signalTeam (s : State) (node idx : Nat) : State :=
  match s.poolNode? node with
  | none => s
  | some n =>
    if n.sig.contains idx || n.sigDone then s
    else
      let all := n.sig.length + 1 == nrTeams n.words
      let s := s.modNode node (fun n => { n with sig := idx :: n.sig, sigDone := all })
      if all then s.addVisit node 0 true else s

/-! ### Instructions -/

/-- R349. -/
def execNsig (o : Ops) (s : State) : Host.Outcome State Fault Refusal :=
  withRun o { d := .none, helps := false } s (fun r => r.once (fun _ => none) (fun r _ =>
    { r with s := if r.T.signalled then r.s
        else (r.s.modTeam r.t (fun T => { T with signalled := true })).signalTeam r.T.record r.T.idx }.finish))

/-- R350. -/
def execNwait (o : Ops) (s : State) : Host.Outcome State Fault Refusal :=
  withRun o {} s (fun r =>
    if r.good.isEmpty then r.finish
    else if r.s0.nodeRem r.T.record != 0 then r.park [.nodeDeps]
    else
      let p := r.s0.predsOf r.T.record
      let r' := r.write (fun _ => { val := wordOf (p.1 % 2 ^ 16) })
      { r' with s := r'.s.acquire r.core p.2 }.finish)

/-- R351: ALIGN, translation, UNCACHED and ENGINE in that order; the launch store waits for the lane's earlier accesses. -/
def execNlaunch (o : Ops) (prio : Nat) (col : Bool) (s : State) : Host.Outcome State Fault Refusal :=
  withRun o { helps := false } s (fun r =>
    let ls := r.goodLive
    match (r.check ls (fun l => alignFault 128 (r.a l))).translated ls .launch r.a with
    | .parked s => s
    | .go r acc =>
      let r := r.checkAcc acc uncachedFault
      let r := r.checkAcc acc (fun a => if col && wfld (r.b a.l) 6 58 != 0 then some { cls := 0x10, reason := 0x04 } else none)
      { r with s := (r.passed acc).foldl (fun s a => s.send { r.flight .launch a with
          dest := r.destOf a.l
          span := prio
          count := if col then (r.b a.l).toNat else r.col
          after := s.acqAfter r.t r.c a.l ++ s.relAfter r.t r.c a.l 6 }) r.s }.finish)

end Sys2Proof.Machine
end

