-- ==== Sys2Proof/Machine/Place.lean ====
section
/-! DEFINITION. Placement: the order of cores (R343, R344), teams and gangs (R318, R341, R342, R345), reservation (R346), and
what a core leaves behind (R354). -/

namespace Sys2Proof.Machine

/-! ### Cores -/

/-- The service slot of a column: its lowest working slot (R18). -/
def Column.serviceSlot (k : Column) : Option Nat := k.slots.head?

/-- The service course runs on the core (R18, R229, R369). -/
def State.isService (s : State) (c : Nat) : Bool :=
  let k := s.column (coreCol c)
  k.serviceSlot == some (coreSlot c) && !bitN k.duty 1

/-- Teams resident on a core. -/
def State.teamsOn (s : State) (c : Nat) : List (Nat × Team) := s.teams.filter (fun p => p.2.core == c)

/-- The lowest free team slot of a core. -/
def State.freeSlot (s : State) (c : Nat) : Option Nat :=
  (List.range 16).find? (fun i => !(s.teamsOn c).any (fun p => p.2.slot == i))

/-- Courses of a team that go to a sequencer from a slot (R62). -/
def seqLoad (courses slot q : Nat) : Nat := ((List.range courses).filter (fun c => (c + slot) % 4 == q)).length

/-- The limits of R62, R74 and R229 hold on a core once a team of some courses and split is added. -/
def State.fits (s : State) (c courses : Nat) (sp : Split) : Bool :=
  let ts := s.teamsOn c
  let svc := bit (s.isService c)
  match s.freeSlot c with
  | none => false
  | some slot =>
    (ts.foldl (fun n p => n + p.2.courses.length) 0) + courses + svc ≤ 64 &&
    [0, 1, 2, 3].all (fun q => (s.seqCourses c q).length + seqLoad courses slot q + (if q = 0 then svc else 0) ≤ 16) &&
    (ts.foldl (fun n p => n + teamBytes p.2.courses.length p.2.split) 0) + teamBytes courses sp ≤ (1536 - 20 * svc - sp.l1) * 1024

/-- A core may take a team of a node, its split aside (R343, R346, R354, R391). -/
def State.openTo (s : State) (c node courses : Nat) (sp : Split) : Bool :=
  let k := s.core c
  let col := s.column (coreCol c)
  bitN col.cmap (coreSlot c) && k.draining.isNone && !bitN col.drainreq (coreSlot c) && s.quiesce.phase == .none &&
  (k.reserved.isNone || k.reserved == some node) && s.fits c courses sp

/-- The core holds no team, or has the node's split (R343). -/
def State.splitFits (s : State) (c : Nat) (sp : Split) : Bool := (s.teamsOn c).isEmpty || (s.core c).split == some sp

/-- A team of a node may be placed on a core (R343). -/
def State.admits (s : State) (n : PoolNode) (c : Nat) : Bool :=
  s.openTo c n.node (nrCourses n.words) (nrSplit n.words) && s.splitFits c (nrSplit n.words)

/-- STEP of a column's governor (R366). -/
def Column.coneStep (k : Column) : Nat := fld k.cone 0 2

/-- The columns that home a node's declared regions, with the number that each homes (R344, R168). -/
def State.tileCols (s : State) (w : NodeRec) : List (Nat × Nat) :=
  (nrTiles w).foldl (fun m t => (List.range t.2).foldl (fun m i =>
    match s.spaceAt w (canon56 (t.1 + 4096 * i)) .load with
    | some (pte, pa) => if pteFmode pte = 0 then mapMod 0 (s.home pa) (· + 1) m else m
    | none => m) m) []

/-- The first column of group 1 (R344). -/
def State.firstCol (s : State) (m : List (Nat × Nat)) : Option Nat :=
  (minBy (fun p => ((2 ^ 20 - p.2) * 8 + (s.column p.1).coneStep) * 64 + p.1) m).map (·.1)

/-- The place of a column in R344's order, least first. -/
def State.colKey (s : State) (m : List (Nat × Nat)) (first : Option Nat) (col : Nat) : Nat :=
  let n := mapGet 0 col m
  let group := match first with
    | none => 4
    | some f => if n != 0 then 1 else if colCluster col = colCluster f then 2 else if colTower col = colTower f then 3 else 4
  ((group * 2 ^ 20 + (if group = 1 then 2 ^ 20 - 1 - n else 0)) * 8 + (s.column col).coneStep) * 64 + col

/-- The place of a core in R344's order, least first. -/
def State.coreKey (s : State) (m : List (Nat × Nat)) (first : Option Nat) (c : Nat) : Nat :=
  let col := coreCol c
  (s.colKey m first col * 2 + bit ((s.column col).serviceSlot == some (coreSlot c))) * 16 + coreSlot c

/-- All cores of the package. -/
def allCores : List Nat := List.range 768

/-- The cores that pass a test, in R344's order. -/
def State.coresFor (s : State) (w : NodeRec) (ok : Nat → Bool) : List Nat :=
  let m := s.tileCols w
  sortBy (s.coreKey m (s.firstCol m)) (allCores.filter ok)

/-- CoilPos of a core (R318). -/
def coilPos (c : Nat) : Nat :=
  let q := coreCol c % 8
  if q % 2 = 0 then 12 * q + coreSlot c else 12 * q + 11 - coreSlot c

/-- Members of a gang in the order of GANGPOS (R341, R318). -/
def gangOrder (w : NodeRec) (cs : List Nat) : List Nat := if nrKind w = 2 then sortBy coilPos cs else sortBy id cs

/-- The first `n` cores of one cluster in an order, from the first cluster in that order that has as many (R345). -/
def clusterPick (n : Nat) (cs : List Nat) : Option (List Nat) :=
  cs.findSome? (fun c =>
    let l := cs.filter (fun d => colCluster (coreCol d) == colCluster (coreCol c))
    if n ≤ l.length then some (l.take n) else none)

/-- Where the next team or gang of a node goes among the cores that pass a test (R344, R345). -/
def State.unitCores (s : State) (w : NodeRec) (ok : Nat → Bool) : Option (List Nat) :=
  let cs := s.coresFor w ok
  if nrIsGang w then (clusterPick (nrGang w) cs).map (gangOrder w) else (cs.head?).map (fun c => [c])

/-! ### Teams -/

/-- The lanes of a course at placement (R63, R342): `n` live lanes at the entry's granule 0. -/
def placedLanes (w : NodeRec) (c : Nat) : List Lane :=
  let n := nrLanes w
  (List.range 32).map (fun l =>
    let i := c * 32 + l
    if i < n then { cls := .live, pc := granuleAddr (nrEntry w) 0 }
    else if (c * 32 + l / 4 * 4) < n then { cls := .helper } else {})

/-- A team of a node as it is placed (R62, R63, R91, R341, R342): its number, core, slot, place in its gang and the gang. -/
def newTeam (n : PoolNode) (idx core slot gangpos gang : Nat) (early : Bool) (ord : Nat) : Team :=
  let w := n.words
  let g := idx / nrUnit w
  { serial := ord, core := core, slot := slot, node := nw w 9, record := n.node, gang := gang, idx := idx,
    tx := g % nrGx w, ty := g / nrGx w % nrGy w, tz := g / (nrGx w * nrGy w), nteams := nrTeams w,
    gangpos := gangpos, gangsize := nrUnit w, sup := nrSup w, coil := nrKind w == 2, nlanes := nrLanes w, split := nrSplit w,
    courses := (List.range (nrCourses w)).map (fun c => { num := c, seq := (c + slot) % 4, lanes := placedLanes w c }),
    k := [(1, wordOf (nw w 8))], fpcr := nrTen w, asid := nrAsid w, ptroot := nrRoot w,
    utvec := nrVec w 0, ckvec := nrVec w 32, utmask := wordOf (nw w 5), early := early, placed := ord }

/-- A core takes a team; with no other team on it, it takes its split too (R343, R346, R357). -/
def State.takeTeam (s : State) (T : Team) : State :=
  let alone := (s.teamsOn T.core).isEmpty
  let s := s.modCore T.core (fun k => { k with
    l1 := if alone && k.split.map (·.l1) != some T.split.l1 then [] else k.l1
    split := some T.split
    reserved := if k.reserved = some T.record then none else k.reserved
    admitted := if k.evictFor = some T.record then some T.serial else k.admitted
    evictFor := if k.evictFor = some T.record then none else k.evictFor })
  { s with teams := mapPut T.serial T s.teams }

/-- One team of a node is placed on a core (R342). -/
def State.placeTeam (s : State) (n : PoolNode) (idx core gangpos gang : Nat) : State :=
  let early := s.nodeRem n.node != 0
  let ord := s.nextId
  let T := newTeam n idx core ((s.freeSlot core).getD 0) gangpos gang early ord
  let s := State.takeTeam { s with nextId := s.nextId + 1 } T
  let s := if nrPred n.words != 0 && !early then s.acquire core (s.predsOf n.node).2 else s
  s.modNode n.node (fun n => { n with next := n.next + 1, resident := n.resident ++ [ord], since := s.cycle 0 })

/-- The first team of a node is placed: STATE 3 (R337). -/
def State.runRec (s : State) (pa : Nat) : State :=
  let w := s.nodeAt pa
  if nrState w = 2 then s.putDep pa (depWith w (fld (nw w 7) 56 8) 3 (nrRsig w) (nrRem w)) else s

/-- Number the elements of a list. -/
def numbered {α : Type} (l : List α) : List (Nat × α) := (List.range l.length).zip l

/-- A node's next team or gang is placed on some cores (R345). -/
def State.placeUnit (s : State) (n : PoolNode) (cs : List Nat) : State :=
  let gang := if nrIsGang n.words then s.nextId else 0
  let s := if nrIsGang n.words then { s with nextId := s.nextId + 1 } else s
  ((numbered cs).foldl (fun s p => s.placeTeam n (n.next + p.1) p.2 p.1 gang) (s.runRec n.node)).endEviction n.node

/-- Where a node's next unplaced team or gang can go. -/
def State.placeFor (s : State) (n : PoolNode) : Option (List Nat) :=
  if nrKind n.words ≤ 2 && n.next < nrTeams n.words then s.unitCores n.words (s.admits n) else none

/-! ### Saved teams -/

/-- The core stays away from a team that was evicted from it (R357). -/
def State.keepsAway (s : State) (c : Nat) (t : SavedTeam) : Bool :=
  t.away == some c &&
  ((s.core c).evictFor.isSome || (match (s.core c).admitted with
    | none => false
    | some a => match mapGet? a s.teams with
      | none => false
      | some _ => !s.reachedPark c a))

/-- What a saved team asks of a core beyond what every team does (R355, R357). -/
def State.savedFits (s : State) (t : SavedTeam) (c : Nat) : Bool :=
  (!t.ownsB || (s.core c).bring.owner.isNone) && (!t.ownsCoil || (s.core c).coil.owner.isNone) &&
  !(s.teamsOn c).any (fun p => p.2.tiles &&& t.tiles != 0) && !s.keepsAway c t

/-- A saved team may be restored on a core (R343, R355). -/
def State.admitsSaved (s : State) (n : PoolNode) (t : SavedTeam) (c : Nat) : Bool := s.admits n c && s.savedFits t c

/-- The saved teams of a node that return together from team `idx` on: the whole gang, in the order of GANGPOS. -/
def PoolNode.savedUnit (n : PoolNode) (idx : Nat) : List SavedTeam :=
  if nrIsGang n.words then sortBy (fun t => t.idx) (n.saved.filter (fun t => t.idx / nrGang n.words == idx / nrGang n.words))
  else n.saved.filter (fun t => t.idx == idx)

/-- A member of the gang of team `idx` is resident. -/
def State.gangResident (s : State) (n : PoolNode) (idx : Nat) : Bool :=
  n.resident.any (fun t => (s.team t).idx / nrUnit n.words == idx / nrUnit n.words)

/-- Every member of a saved unit may be restored on its core of a list. -/
def State.takesUnit (s : State) (n : PoolNode) (ts : List SavedTeam) (cs : List Nat) : Bool :=
  ts.length == cs.length && (ts.zip cs).all (fun p => s.admitsSaved n p.1 p.2)

/-- Each member, in the order of GANGPOS, on the first core of an ascending list that suits it and that lies after those of the members
before it. -/
def spreadUnit (ok : SavedTeam → Nat → Bool) : List SavedTeam → List Nat → Option (List Nat)
  | [], _ => some []
  | _ :: _, [] => none
  | t :: ts, c :: cs => if ok t c then (spreadUnit ok ts cs).map (c :: ·) else spreadUnit ok (t :: ts) cs

/-- Cores of one cluster for a saved gang (R345, R355): the first ones in R344's order if they suit each member, else any that do. -/
def State.spreadGang (s : State) (n : PoolNode) (ts : List SavedTeam) (l : List Nat) : Option (List Nat) :=
  let first := gangOrder n.words (l.take ts.length)
  if s.takesUnit n ts first then some first else spreadUnit (s.admitsSaved n) ts (gangOrder n.words l)

/-- Cores for the members of a saved unit (R355): each member's own conditions hold on its core; a gang returns only when
none of its members is resident any more. -/
def State.savedCores (s : State) (n : PoolNode) (idx : Nat) : Option (List Nat) :=
  if s.gangResident n idx then none
  else
    let ts := n.savedUnit idx
    let cs := s.coresFor n.words (fun c => ts.any (fun t => s.admitsSaved n t c))
    if nrIsGang n.words then
      (dedupNat (cs.map (fun c => colCluster (coreCol c)))).findSome? (fun cl =>
        s.spreadGang n ts (cs.filter (fun c => colCluster (coreCol c) == cl)))
    else (cs.head?).map (fun c => [c])

/-- The units of a node that wait for cores, lowest team number first (R341): saved ones and the next new one. -/
def PoolNode.offers (n : PoolNode) : List (Nat × Bool) :=
  let sv := (dedupNat (n.saved.map (fun t => t.idx / nrUnit n.words))).map (fun g => (g * nrUnit n.words, true))
  sortBy (fun p => p.1) (sv ++ (if n.next < nrTeams n.words then [(n.next, false)] else []))

/-- Cores for an offer. -/
def State.offerCores (s : State) (n : PoolNode) (o : Nat × Bool) : Option (List Nat) :=
  if o.2 then s.savedCores n o.1 else s.placeFor n

/-- The placement that the pool makes next (R344): the first offer, in the pool's order, that some cores can take. -/
def State.nextPlacement (s : State) : Option (PoolNode × Nat × Bool × List Nat) :=
  s.poolOrder.findSome? (fun n => if nrKind n.words ≤ 2 then
    n.offers.findSome? (fun o => (s.offerCores n o).map (fun cs => (n, o.1, o.2, cs))) else none)

/-- R342 to R345. -/
def execTeamPlace (node : Nat) (s : State) : Host.Outcome State Fault Refusal :=
  match s.nextPlacement with
  | some (n, _, false, cs) => if n.node == node then .next (s.placeUnit n cs) else .next s
  | _ => .next s

/-! ### Reservation -/

/-- The node has been in the pool for 2^20 cycles of column 0 with no team placed (R346). -/
def State.waitedLong (s : State) (n : PoolNode) : Bool := n.since + 2 ^ 20 ≤ s.cycle 0

/-- A core may take a team of an offer, its split aside: a saved one's own conditions hold there too (R343, R355). -/
def State.offerFits (s : State) (n : PoolNode) (o : Nat × Bool) (c : Nat) : Bool := !o.2 || (n.savedUnit o.1).any (fun t => s.savedFits t c)

/-- Some cores of a cluster hold every team of an offer, a core each, their split aside (R345, R346, R355). -/
def State.offerTakes (s : State) (n : PoolNode) (o : Nat × Bool) (l : List Nat) : Bool :=
  if o.2 then (spreadUnit s.savedFits (n.savedUnit o.1) (gangOrder n.words l)).isSome else nrUnit n.words ≤ l.length

/-- Cores that an offer of a node could use but for their split, and that the node has not reserved yet (R346). -/
def State.splitOnly (s : State) (n : PoolNode) (o : Nat × Bool) (c : Nat) : Bool :=
  (s.core c).reserved.isNone && s.openTo c n.node (nrCourses n.words) (nrSplit n.words) && !s.splitFits c (nrSplit n.words) && s.offerFits n o c

/-- The core is reserved for a node. -/
def State.reservedFor (s : State) (n : PoolNode) (c : Nat) : Bool := (s.core c).reserved == some n.node

/-- The cores of a cluster that an offer could take at once, or that its node has reserved. -/
def State.atOnce (s : State) (n : PoolNode) (o : Nat × Bool) (l : List Nat) : List Nat := l.filter (fun c => !s.splitOnly n o c)

/-- Cores without the ones, tried from the last on, that an offer does not need beside others. -/
def State.onlyNeeded (s : State) (n : PoolNode) (o : Nat × Bool) (others more : List Nat) : List Nat :=
  more.reverse.foldl (fun l c => if s.offerTakes n o (others ++ l.erase c) then l.erase c else l) more

/-- The cores among those of a cluster, in R344's order, that a team or gang still needs reserved, beside the ones that it could take
at once and those that it has reserved (R346): the first ones that are enough, less any that it can spare; none where the cluster
has too few. -/
def State.reserveIn (s : State) (n : PoolNode) (o : Nat × Bool) (l : List Nat) : Option (List Nat) :=
  let more := l.filter (s.splitOnly n o)
  let others := s.atOnce n o l
  if s.offerTakes n o others then none
  else ((List.range (more.length + 1)).find? (fun k => s.offerTakes n o (others ++ more.take k))).map
    (fun k => s.onlyNeeded n o others (more.take k))

/-- The cores of each cluster, in R344's order, that may come to hold an offer's teams (R346). -/
def State.offerClusters (s : State) (n : PoolNode) (o : Nat × Bool) : List (List Nat) :=
  let cs := s.coresFor n.words (fun c => s.admits n c && s.offerFits n o c || s.splitOnly n o c || s.reservedFor n c)
  (dedupNat (cs.map (fun c => colCluster (coreCol c)))).map (fun cl => cs.filter (fun c => colCluster (coreCol c) == cl))

/-- The cores that a node reserves for an offer (R346). A gang's lie in one cluster, with those that it has reserved before. -/
def State.reserveFor (s : State) (n : PoolNode) (o : Nat × Bool) : Option (List Nat) :=
  let mine := allCores.filter (s.reservedFor n)
  (s.offerClusters n o).findSome? (fun l => if !nrIsGang n.words || mine.all l.contains then s.reserveIn n o l else none)

/-- The cores that a node has reserved are enough for an offer, once they are empty (R346). -/
def State.hasEnough (s : State) (n : PoolNode) (o : Nat × Bool) : Bool :=
  (s.offerClusters n o).any (fun l => s.offerTakes n o (s.atOnce n o l))

/-- The cores that a node reserves (R346): the head of the pool has waited long, none of its teams can be placed nor has cores reserved,
and one of them, the first in their order, lacks cores only by their split. -/
def State.toReserve (s : State) (n : PoolNode) : Option (List Nat) :=
  let os := n.offers.filter (fun o => !(o.2 && s.gangResident n o.1))
  if s.poolHead == some n.node && s.waitedLong n && nrKind n.words ≤ 2 && os.all (fun o => (s.offerCores n o).isNone && !s.hasEnough n o) then
    os.findSome? (s.reserveFor n)
  else none

/-- R346. -/
def execSplitReservation (node : Nat) (s : State) : Host.Outcome State Fault Refusal :=
  match s.poolNode? node with
  | none => .next s
  | some n => match s.toReserve n with
    | none => .next s
    | some cs => .next (cs.foldl (fun s c => s.modCore c (fun k => { k with reserved := some node })) s)

/-! ### Leaving a core -/

/-- A core whose last team has left: it has no split, and its drain is over (R354). -/
def State.emptied (s : State) (c : Nat) : State :=
  if (s.teamsOn c).isEmpty then s.modCore c (fun k => { k with split := none, draining := none }) else s

/-- The records of a team's courses that still wait for room are withdrawn when the team leaves its core, since their handles then name
nothing (R100, R102): the model's choice (notes/assumptions/86). -/
def State.dropRecords (s : State) (T : Team) : State :=
  s.modCol (coreCol T.core) (fun k => { k with scqWait := k.scqWait.filter (fun x => x.handle % 2 ^ 14 != T.handle 0) })

/-- What a unit holds for a team that leaves its core goes (R306, R318, R323). -/
def Coil.left (u : Coil) (t : Nat) : Coil :=
  let u := if u.owner == some t then u.freed t else u
  { u with link := u.link.filter (fun e => e.for_ != t), wire := u.wire.filter (fun x => x.1 != t), missed := mapDel t u.missed }

/-- A team leaves its core: its share, slot, lock entries, queued commands, Coil unit and B store go (R354 step 5, R269, R306,
R323). Halves of the B store that the team leaves behind, in whatever state, become free, and WIDX, RIDX, ERR and XOV 0: the spec only says
that ownership ends, so this is the model's choice (notes/assumptions/89). -/
def State.leaveCore (s : State) (t : Nat) : State :=
  let c := (s.team t).core
  let s := s.dropRecords (s.team t)
  let s := { s with teams := mapDel t s.teams }
  let s := s.modCore c (fun k =>
    let own := k.coil.owner == some t
    let ids := (k.slips.filter (fun x => x.team == t)).map (·.id) ++ (k.wheel.filter (fun x => x.team == t)).map (·.id) ++
      (if own then k.coil.queue.map (·.id) else [])
    { k with
      slips := k.slips.filter (fun x => x.team != t)
      wheel := k.wheel.filter (fun x => x.team != t)
      coil := k.coil.left t
      bring := if k.bring.owner == some t then { bytes := k.bring.bytes } else k.bring
      locks := k.locks.filter (fun e => !ids.contains e.cmd) })
  s.emptied c

end Sys2Proof.Machine
end

