-- ==== Sys2Proof/Machine/Context.lean ====
section
/-! DEFINITION. Course blocks and context areas (R105), `csave` and `cload` (R103), suspension records (R101), and the context
of a team with the areas of Slip (R279), the Wheel (R304) and Coil (R326). -/

namespace Sys2Proof.Machine

/-! ### Words -/

/-- The bytes of some words (R6). -/
def wordBytes (ws : List Nat) : List Byte := ws.flatMap (leBytes 8)

/-- The words of some bytes (R6). -/
def bytesWords (n : Nat) (at_ : Nat → Byte) : List Nat :=
  (List.range n).map (fun i => leVal ((List.range 8).map (fun j => at_ (8 * i + j))))

/-- Zero words. -/
def zeros (n : Nat) : List Nat := List.replicate n 0

/-- Some bytes padded with zeros to a multiple of `m`. -/
def padTo (m : Nat) (bs : List Byte) : List Byte := bs ++ List.replicate (roundUp bs.length m - bs.length) 0

/-! ### Course blocks -/

/-- Bytes of a lane block and of a course block (R105). -/
def laneLen (regs : Nat) : Nat := 256 + 8 * regs
/-- CB of R105. -/
def blockLen (regs : Nat) : Nat := 256 + 32 * laneLen regs

/-- The flags word of a lane (R105); only a live lane has a call depth (R65). -/
def Lane.flagWord (L : Lane) : Nat :=
  (if L.cls == .live then L.depth else 0) + 2 ^ 8 * bit (L.cls == .absent) + 2 ^ 9 * bit (L.cls == .helper) + 2 ^ 10 * bit L.intrap + 2 ^ 11 * bit L.pend +
  2 ^ 12 * L.issued + 2 ^ 24 * L.twr + (match L.held with
    | none => 0
    | some b => 2 ^ 36 + 2 ^ 32 * b)

/-- Two index registers in a word (R105). -/
def Lane.idxWord (L : Lane) (i : Nat) : Nat :=
  let x (n : Nat) : Nat := L.xVal n + 2 ^ 16 * L.xLim n
  x (2 * i) + 2 ^ 32 * x (2 * i + 1)

/-- The full bits of the registers below `regs` (R105). -/
def Lane.vFullBits (L : Lane) (regs : Nat) : Nat := (~~~L.vE).toNat % 2 ^ regs

/-- A lane block (R105). -/
def Lane.block (L : Lane) (regs : Nat) : List Nat :=
  [L.pc.toNat, L.flagWord, L.ltcause.toNat, L.ltpc.toNat, L.ltaddr.toNat, L.ltinfo.toNat] ++
  (List.range 8).map (fun n => (mapGet 0 n L.t : Word).toNat) ++ (List.range 4).map L.idxWord ++
  [L.p.toNat, (~~~L.pE).toNat] ++ (List.range 4).map (fun i => fld (L.vFullBits regs) (64 * i) 64) ++ zeros 8 ++
  (List.range regs).map (fun n => (L.vGet n).toNat)

/-- A course block (R105). -/
def Course.block (C : Course) (regs : Nat) : List Nat :=
  [C.backcnt + 2 ^ 16 * bit C.coh.isSome + 2 ^ 17 * bit C.suspended, C.fpsr,
   C.awaits.getD 0 0 + 2 ^ 10 * C.awaits.getD 1 0 + 2 ^ 20 * C.awaits.getD 2 0, C.stvec.toNat] ++ zeros 28 ++
  (List.range 32).flatMap (fun l => (C.lane l).block regs)

/-- A course whose lanes' PCs are resolved where they can be (R38). -/
def State.resolved (s : State) (t c : Nat) : Course :=
  let C := s.course t c
  { C with lanes := C.lanes.map (fun L =>
      if L.cls == .live && L.seqIn then
        let r := s.resolve t L.pc true
        { L with pc := r.1, seqIn := r.2 }
      else L) }

/-- A lane block keeps R105: RSV bits are 0, ISSUED is at most 23 and 0 where PEND is 0, HELPER and EXITED exclude each other and any
DEPTH or PEND, which live lanes alone have (R63, R65; notes/assumptions/43), and no index limit is above 256 (R87). -/
def laneBlockOk (regs : Nat) (b : List Nat) : Bool :=
  let f := nw b 1
  fld f 17 7 == 0 && fld f 37 27 == 0 && fld f 12 5 ≤ 23 && (bitN f 11 || fld f 12 5 == 0) && !(bitN f 8 && bitN f 9) &&
  ((!bitN f 11 && fld f 0 8 == 0) || (!bitN f 8 && !bitN f 9)) && (bitN f 36 || fld f 32 4 == 0) &&
  nw b 2 &&& sysRsv 0x041 == 0 && nw b 5 &&& sysRsv 0x044 == 0 && fld (nw b 5) 16 5 ≤ 23 &&
  (List.range 4).all (fun i => fld (nw b (14 + i)) 25 7 == 0 && fld (nw b (14 + i)) 57 7 == 0 &&
    fld (nw b (14 + i)) 16 9 ≤ 256 && fld (nw b (14 + i)) 48 9 ≤ 256) &&
  fld (nw b 18) 48 16 == 0 && fld (nw b 19) 48 16 == 0 &&
  (List.range 4).all (fun i => fld (nw b (20 + i)) (min 64 (regs - 64 * i)) 64 == 0) && (List.range 8).all (fun i => nw b (24 + i) == 0)

/-- A lane from its block, which replaces its state and with it what was uncorrectable in its registers (R400); its transaction and
what pends for it are kept. A block has no place for a transfer (a branch, a call, an exit or a barrier) that the lane had performed in
a batch suspended before its trailer: the transfer is given up and the lane goes on in sequence, while `cload.go`, which loads no block,
keeps it. That is the model's choice (notes/assumptions/85). So is that a PC which is the address of a line, and names no granule of it,
stands for entering the line in sequence (notes/assumptions/100). -/
def Lane.load (L : Lane) (regs : Nat) (b : List Nat) : Lane :=
  let f := nw b 1
  let full := (List.range 4).foldl (fun a i => a + nw b (20 + i) * 2 ^ (64 * i)) 0
  { L with
    cls := if bitN f 8 then .absent else if bitN f 9 then .helper else .live
    pc := wordOf (nw b 0)
    seqIn := nw b 0 % 128 == 0
    depth := fld f 0 8
    pend := bitN f 11
    issued := fld f 12 5
    twr := fld f 24 8
    held := if bitN f 36 then some (fld f 32 4) else none
    intrap := bitN f 10
    ltcause := wordOf (nw b 2)
    ltpc := wordOf (nw b 3)
    ltaddr := wordOf (nw b 4)
    ltinfo := wordOf (nw b 5)
    t := (List.range 8).map (fun n => (n, wordOf (nw b (6 + n))))
    xv := (List.range 8).map (fun n => (n, fld (nw b (14 + n / 2)) (32 * (n % 2)) 16))
    xl := (List.range 8).map (fun n => (n, fld (nw b (14 + n / 2)) (32 * (n % 2) + 16) 9))
    p := BitVec.ofNat 48 (nw b 18)
    pE := ~~~BitVec.ofNat 48 (nw b 19)
    vE := BitVec.ofNat 256 (2 ^ regs - 1 - full % 2 ^ regs)
    v := (List.range regs).map (fun n => (n, wordOf (nw b (32 + n))))
    xfer := none
    back := false
    bad := [] }

/-- The words of lane `l`'s block within a course block. -/
def laneWords (regs : Nat) (b : List Nat) (l : Nat) : List Nat := (b.drop (32 + l * (32 + regs))).take (32 + regs)

/-- A specifier that a trailer can await (R51): a lane register below regs, a uniform register, a predicate or a queue register. -/
def awaitOk (regs x : Nat) : Bool :=
  match opndOf x with
  | some (.v n) => n < regs
  | some (.k _) | some (.p _) | some (.eq _) => true
  | _ => false

/-- A course block keeps R105; STVEC is 0 in a user course's. -/
def courseBlockOk (regs : Nat) (sup : Bool) (b : List Nat) : Bool :=
  fld (nw b 0) 0 11 ≤ 1024 && fld (nw b 0) 11 5 == 0 && fld (nw b 0) 18 46 == 0 && nw b 1 < 32 && fld (nw b 2) 30 34 == 0 &&
  (List.range 3).all (fun i => awaitOk regs (fld (nw b 2) (10 * i) 10)) && nw b 3 &&& sysRsv 0x105 == 0 && (sup || nw b 3 == 0) &&
  (List.range 28).all (fun i => nw b (4 + i) == 0) && (List.range 32).all (fun l => laneBlockOk regs (laneWords regs b l))

/-- A course from its block (R103, R105). The block holds BACKCNT and not the cohort that last issued: the first cohort to issue is taken as
that one, and BACKCNT is kept (R67), by the model's choice (notes/assumptions/99). -/
def Course.load (C : Course) (regs : Nat) (b : List Nat) : Course :=
  { C with
    backcnt := fld (nw b 0) 0 11
    fpsr := nw b 1
    awaits := (List.range 3).map (fun i => fld (nw b 2) (10 * i) 10)
    stvec := wordOf (nw b 3)
    lastCoh := none
    coh := none
    parked := none
    walked := []
    refused := 0
    recRefused := 0
    lanes := (List.range 32).map (fun l => (C.lane l).load regs (laneWords regs b l)) }

/-! ### csave and cload -/

/-- The team and course that a handle names (R100). -/
def State.handleOf (s : State) (h : Word) : Option (Nat × Nat) :=
  match (s.teamsOn (wfld h 0 10)).find? (fun p => p.2.slot == wfld h 10 4) with
  | none => none
  | some p => if wfld h 14 5 < p.2.courses.length then some (p.1, wfld h 14 5) else none

/-- The faults of a handle (R103). One with a bit above 18 set names no course of the column, and one that names no resident team or
course names none that is suspended: the model's choice (notes/assumptions/43). -/
def Run.handleFault (r : Run) (h : Word) : Option FltRec :=
  if wfld h 19 45 != 0 || coreCol (wfld h 0 10) != r.col then some { cls := 0x10, reason := 0x01 }
  else match r.s0.handleOf h with
    | some (t, c) => if (r.s0.course t c).suspended then none else some { cls := 0x10, reason := 0x02 }
    | none => some { cls := 0x10, reason := 0x02 }

/-- One address in each 64 KiB page of a range. -/
def pageHeads (a : Word) (n : Nat) : List Word :=
  (List.range ((a.toNat % 65536 + n + 65535) / 65536)).map (fun i => if i = 0 then a else wordOf ((a.toNat / 65536 + i) * 65536))

/-- The faults and waits of a block's pages, and LOCK (R103, R160, R30). -/
def Run.blockFault (r : Run) (a : Word) (n : Nat) (k : AccessKind) : Option FltRec :=
  (pageHeads a n).findSome? (fun x => match r.s0.translate r.t r.c x k with
    | .fault f => some f
    | _ => none) <|> lockFault (r.s0.core r.core) (.glob r.T.asid) a (va56 a) n (k != .store)

/-- The pages of a block that a walk is wanted for. -/
def Run.blockPages (r : Run) (a : Word) (n : Nat) (k : AccessKind) : List Nat :=
  (pageHeads a n).filterMap (fun x => match r.s0.translate r.t r.c x k with
    | .wait p => some p
    | _ => none)

/-- The address space of the run's team. -/
def Run.engine (r : Run) : Eng := ⟨r.core, r.T.asid, r.T.ptroot, r.T.sup⟩

/-- A block's access has met what its pages' translation does not show: a slice refuses an old generation up to three times (R31),
anything else is a fault. -/
def Run.blockTrouble (r : Run) (cls : Nat) (addr : Word) : State :=
  if cls = 0x0B && r.C.recRefused < 3 then r.recRefuse [va56 addr / 2 ^ 16]
  else (r.faultAll { cls := cls, reason := if cls = 0x0B then 0 else 0x01, addr := addr }).finish

/-- An instruction that moves a block: its checks, then the move (R103). -/
def blockRun (o : Ops) (k : AccessKind) (s : State) (move : Run → Nat → Nat → Nat → State) : Host.Outcome State Fault Refusal :=
  withRun o { helps := false, priv := some (0x01, 0) } s (fun r => r.once
    (fun l => match r.handleFault (r.a l) with
      | some f => some f
      | none => alignFault 256 (r.b l))
    (fun r l => match r.s0.handleOf (r.a l) with
      | none => r.finish
      | some (t, c) =>
        let n := blockLen (r.s0.team t).split.regs
        let pages := r.blockPages (r.b l) n k
        if !pages.isEmpty then r.parkWalk pages
        else match r.blockFault (r.b l) n k with
          | some f => (r.faultAll f).finish
          | none => move r l t c))

/-- R103. -/
def execCsave (o : Ops) (s : State) : Host.Outcome State Fault Refusal :=
  blockRun o .store s (fun r l t c =>
    let regs := (r.s0.team t).split.regs
    let bs := wordBytes ((r.s0.resolved t c).block regs)
    let wid := r.s.nextId
    match State.engWrite { r.s with nextId := r.s.nextId + 1 } r.engine ⟨r.t, r.c, l, wid⟩ (chunksOf (bytesAt (r.b l).toNat bs)) wid with
    | .bad cls addr => r.blockTrouble cls addr
    | .ok _ s => (Run.owe { r with s := s.trackWrite ⟨r.t, r.c, l, wid⟩ r.core wid } l (wordOf bs.length) [(wid, 3)]).finish)

/-- A record of a course that still waits for room is withdrawn: the course is no longer suspended (R102;
notes/assumptions/68). -/
def State.dropWaiting (s : State) (t c : Nat) : State :=
  let h := (s.team t).handle c
  s.modCol (s.colOf t) (fun k => { k with scqWait := k.scqWait.filter (fun x => x.handle != h) })

/-- A course is resumed (R103): it is eligible again, what pends for it is met at its batch boundary, and it has arrived at a
barrier where every live lane of it is held (R82). -/
def State.resume (s : State) (t c : Nat) : State :=
  (((((s.dropWaiting t c).modCourse t c (fun C => { C with suspended := false, parked := none })).lateQuiesce t c).boundary t c)).releaseBars t

/-- `cload` from a block (R103). -/
def cloadRun' (o : Ops) (go : Bool) (s : State) : Host.Outcome State Fault Refusal :=
  blockRun o .load s (fun r l t c =>
    let regs := (r.s0.team t).split.regs
    let n := blockLen regs
    match r.s.engGather r.engine [((r.b l).toNat, n)] with
    | .bad cls addr => r.blockTrouble cls addr
    | .ok d s =>
      let b := bytesWords (n / 8) (fun i => d.at ((r.b l).toNat + i))
      if !courseBlockOk regs (r.s0.team t).sup b then (r.faultAll { cls := 0x10, reason := 0x03 }).finish
      else
        let s := s.modCourse t c (·.load regs b)
        (Run.owe { r with s := if go then s.resume t c else s } l (wordOf n) []).finish)

/-- R103. -/
def execCloadLd (o : Ops) (s : State) : Host.Outcome State Fault Refusal := cloadRun' o false s
/-- R103. -/
def execCloadRun (o : Ops) (s : State) : Host.Outcome State Fault Refusal := cloadRun' o true s

/-- `cload` without a block (R103). -/
def handleRun (o : Ops) (s : State) (f : State → Nat → Nat → State) : Host.Outcome State Fault Refusal :=
  withRun o { helps := false, priv := some (0x01, 0) } s (fun r => r.once (fun l => r.handleFault (r.a l)) (fun r l =>
    match r.s0.handleOf (r.a l) with
    | none => r.finish
    | some (t, c) => (Run.owe { r with s := f r.s t c } l 0 []).finish))

/-- R103. -/
def execCloadGo (o : Ops) (s : State) : Host.Outcome State Fault Refusal := handleRun o s State.resume

/-- The wait entries of some accesses end with their word's value (R226). -/
def State.cancelWaits (s : State) (p : Flight → Bool) : State :=
  (s.flights.filter (fun f => f.kind == .wwait && p f)).foldl (fun s f => match s.entryOf f.id with
    | some (home, e) => s.cancelWait home e
    | none => s) s

/-- R103, R226: every lane of the course is absent and the course finishes; barriers that waited for it are released (R107). -/
def execCloadEnd (o : Ops) (s : State) : Host.Outcome State Fault Refusal :=
  handleRun o s (fun s t c =>
    let s := (s.dropWaiting t c).modCourse t c (fun C => { C with
      suspended := false
      coh := none
      parked := none
      lanes := C.lanes.map (fun L => { L with cls := .absent, held := none, pend := false, defs := [], cone := none, tx := {} }) })
    (s.cancelWaits (fun f => f.team == t && f.crs == c)).releaseBars t)

/-- R101: a record that waits enters the supervisor course queue of its column. -/
def execSuspensionRecordPush (col : Nat) (s : State) : Host.Outcome State Fault Refusal :=
  match (s.column col).scqWait with
  | [] => .next s
  | x :: r =>
    if 64 ≤ (s.column col).scq.length then .next s
    else .next (s.modCol col (fun k => { k with scqWait := r, scq := k.scq ++ [x] }))

/-! ### Context areas -/

/-- Address of a team's context area (R354). -/
def ctxAddr (w : NodeRec) (idx : Nat) : Nat := nrCtx w + idx * nrStride w * 65536

/-- Courses of a team that have arrived at a barrier, as a mask (R105): those with a lane held at it. A finished course, which counts
as arrived at every barrier (R63), is left out of the mask: the model's choice (notes/assumptions/43). -/
def Team.arrivals (T : Team) (id : Nat) : Nat :=
  maskOf ((T.courses.filter (fun C => C.arrived id && C.lanes.any (fun L => L.held == some id))).map (·.num))

/-- The queue bindings of a team, four in a word (R105). -/
def Team.bindWord (T : Team) (i : Nat) : Nat :=
  (List.range 4).foldl (fun a j =>
    let p := T.portOf (4 * i + j)
    a + (if p = 0 then 0 else p + 2 ^ 15) * 2 ^ (16 * j)) 0

/-- The first 0x0A00 bytes of a team's context (R105), as words. -/
def State.ctxHead (s : State) (t : Nat) : List Nat :=
  let T := s.team t
  [T.nlanes * 2 ^ 32 + T.courses.length * 2 ^ 16 + 1, splitReg (some T.split), T.node, T.tz * 2 ^ 32 + T.ty * 2 ^ 16 + T.tx,
   T.gangsize * 2 ^ 16 + T.gangpos, tstatReg s t, T.fpcr, T.utvec.toNat, T.utmask.toNat, T.ckvec.toNat] ++
  (List.range 4).map T.bindWord ++ (List.range 16).map T.arrivals ++
  (List.range 4).map (fun i => fld (~~~T.kE).toNat (64 * i) 64) ++ zeros 30 ++ (List.range 256).map (fun n => (T.kGet n).toNat)

/-- The presence bits of a team's local memory (R105): bytes, padded to 64. -/
def Team.presBytes (T : Team) : List Byte :=
  padTo 64 ((List.range (T.locSize / 512)).map (fun i =>
    BitVec.ofNat 8 (maskOf ((List.range 8).filter (fun j => !T.absent.contains (8 * i + j))))))

/-- The first part of a team's context: everything before the engine state. -/
def State.ctxMain (s : State) (t : Nat) : List Byte :=
  let T := s.team t
  wordBytes (s.ctxHead t ++ (List.range T.courses.length).flatMap (fun c => (s.resolved t c).block T.split.regs)) ++
  T.presBytes ++ (List.range T.locSize).map T.locByte

/-- Waiting entries of some Slip ports with their ports, oldest first (R279). -/
def slipEntriesOf (ports : List (Nat × List QEntry)) : List (Nat × QEntry) :=
  sortBy (fun p => p.2.ord) (ports.flatMap (fun p => if 1 ≤ p.1 && p.1 ≤ 15 then p.2.map (fun e => (p.1, e)) else []))

/-- Waiting entries of the team's Slip ports. -/
def Team.slipEntries (T : Team) : List (Nat × QEntry) := slipEntriesOf T.ports

/-- The bytes of a half of the B store. -/
def State.halfBytes (s : State) (core h : Nat) : List Byte :=
  (List.range (2 ^ 18)).map (fun i => (mapGet? (h * 2 ^ 18 + i) (s.core core).bring.bytes).getD (Config.bstoreByte core (h * 2 ^ 18 + i)))

/-- Slip's area (R279). -/
def State.slipArea (s : State) (t : Nat) : List Byte :=
  let T := s.team t
  let own := (s.core T.core).bring.owner == some t
  let es := T.slipEntries
  wordBytes ([T.slipErr, if own then s.bringWord T.core else 0, es.length] ++ zeros 5 ++
    es.flatMap (fun e => [(e.2.slots.getD 0 0 : Word).toNat, e.1]) ++ zeros (2 * (64 - es.length))) ++
  (if own then [0, 1].flatMap (fun h => if (s.core T.core).bring.st h = 0 then [] else s.halfBytes T.core h) else [])

/-- The low bits of an instruction, and D's specifier (R304, R326). -/
def insWords (i : Instr) : List Nat :=
  let w := (encode i).getD 0
  [fld w 0 64, fld w 64 64]

/-- Values of A, B and C of a Wheel command (R304); those of `wacc` lie in the lanes' registers. -/
def WOp.values : WOp → List Nat
  | .zero t => [t, 0, 0]
  | .loop _ a b c => [a.toNat, b.toNat, c.toNat]
  | .drain _ a b c => [a.toNat, b.toNat, c.toNat]
  | .rd ls _ => [(((ls.head?).map (fun (p : Nat × Word) => p.2)).getD 0).toNat, 0, 0]
  | .wr ls =>
      let p := ((ls.head?).map (fun (q : Nat × Word × Word) => q.2)).getD (0, 0)
      [p.1.toNat, p.2.toNat, 0]

/-- D's specifier of an instruction. -/
def dSpec (i : Instr) : Nat := ((opsOf i).map (fun o => specOf o.d)).getD 0

/-- A saved Wheel command (R304). -/
def WCmd.words (w : WCmd) : List Nat := insWords w.ins ++ w.op.values ++ [dSpec w.ins, 0, 0]

/-- Tiles of a mask, ascending. -/
def tileList (m : Nat) : List Nat := bitList 16 m

/-- The bytes of a tile (R304). -/
def Core.tileBytes (k : Core) (tile : Nat) : List Byte :=
  (List.range 64).flatMap (fun m => (List.range 64).flatMap (fun n => leBytes 4 (k.accGet tile m n)))

/-- The Wheel's area (R304). -/
def State.wheelArea (s : State) (t : Nat) : List Byte :=
  let T := s.team t
  let k := s.core T.core
  let ws := k.wheel.filter (fun w => w.team == t)
  padTo 4096 (wordBytes ([s.wheelWord t, (match T.wheelHalf with
    | none => 0
    | some h => 2 + h), ws.length] ++ zeros 5 ++ ws.flatMap WCmd.words)) ++
  (tileList T.tiles).flatMap k.tileBytes

/-- The last word of a saved Coil command (R326). -/
def CilCmd.phaseWord (w : CilCmd) : Nat :=
  match w.op with
  | .job m _ => if w.phase = 0 then 0 else w.phase * 2 ^ 48 + cjGroups m * 2 ^ 32 + w.steps
  | .car _ _ _ _ => 0

/-- Values of A and B of a Coil command. -/
def CilOp.values : CilOp → List Nat
  | .job _ a => [a.toNat, 0]
  | .car _ _ a n => [a.toNat, n]

/-- A saved Coil command (R326). -/
def CilCmd.words (w : CilCmd) : List Nat := insWords w.ins ++ w.op.values ++ [dSpec w.ins, w.phaseWord, 0, 0]

/-- Code of an operator with the carry limit, as M[9:0] of `cdef` (R326). -/
def coperCode (p : COperator) (tlim : Nat) : Nat := semiCode p.semi + 8 * shapeCode p.shape + 32 * tlim

/-- An element in 24 bytes. -/
def elem24 (e : List Nat) : List Byte := (List.range 6).flatMap (fun j => leBytes 4 (e.getD j 0))

/-- A saved carry (R326). -/
def Carry.bytes (c : Carry) : List Byte :=
  leBytes 8 (c.chans % 128 + coperCode c.coper 0 * 2 ^ 8 + 2 ^ 15 * bit c.poison) ++ (List.range 128).flatMap (fun i => elem24 (c.vals.getD i []))

/-- No carry. -/
def noCarry : List Byte := List.replicate 3080 0

/-- A group buffer entry (R326). -/
def QEntry.bytes (e : QEntry) : List Byte :=
  wordBytes ((List.range 32).map (fun i => (e.slots.getD i 0 : Word).toNat) ++ [e.mask] ++ zeros 7)

/-- The carries in a link buffer that are for a team (R318, R326). -/
def Coil.carriesOf (u : Coil) (t : Nat) : List Carry := (u.link.filter (fun e => !e.late && e.for_ == t)).map (·.carry)

/-- Coil's area (R326); all zero for a team that does not own the unit, but for the carries in the link buffer that are for it. -/
def State.coilArea (s : State) (t : Nat) : List Byte :=
  let here := (s.core (s.team t).core).coil
  let link := here.carriesOf t
  let own := here.owner == some t
  if !own && link.isEmpty then List.replicate (0x3200 + 4 * 64 * 320) 0
  else
    let u : Coil := if own then here else {}
    let carry (c : Option Carry) : List Byte := match c with
      | some c => c.bytes
      | none => noCarry
    wordBytes ([u.status t, link.length * 2 ^ 13 + bit u.out.isSome * 2 ^ 12 + (if own then coperCode u.coper u.tlim else 0), u.queue.length] ++ zeros 5 ++
      u.queue.flatMap CilCmd.words ++ zeros (8 * (4 - u.queue.length))) ++
    (List.range 128).flatMap (fun c => elem24 (u.cregAt c)) ++
    carry (u.out.map (·.2)) ++ carry link[0]? ++ carry link[1]? ++ List.replicate (0x3200 - (0x0D40 + 3 * 3080)) 0 ++
    [0, 1, 2, 3].flatMap (fun g =>
      let es := u.groups.getD g []
      es.flatMap QEntry.bytes ++ List.replicate (320 * (64 - es.length)) 0)

/-- A team's context (R105, R279, R304, R326): each engine's area begins at a 4 KiB boundary. -/
def State.context (s : State) (t : Nat) : List Byte :=
  padTo 4096 (s.ctxMain t) ++ padTo 4096 (s.slipArea t) ++ padTo 4096 (s.wheelArea t) ++ s.coilArea t

end Sys2Proof.Machine
end

