-- ==== Sys2Proof/Machine/Preempt.lean ====
section
/-! DEFINITION. Retirement (R34, R323), drains (R352 to R354), forced saves (R106, R354, R356), restores (R355) and park
eviction (R357). -/

namespace Sys2Proof.Machine

/-! ### Retirement -/

/-- Accesses that a team's retirement waits for (R34): not a load that is still under way, and not a glaze store that this
device has applied when the node's scope is the device. -/
def Flight.holdsTeam (f : Flight) (scope : Nat) : Bool :=
  match f.kind with
  | .store | .str | .stl | .latomR | .atom | .nred | .txe | .wwake | .range _ | .dalloc | .dfree | .fbar | .launch => true
  | .lpres _ => true
  | .gst => f.stage < 3 || 8 ≤ scope
  | _ => false

/-- SCOPE of a team's node; device scope where the node is not in the pool. -/
def State.scopeOfNode (s : State) (t : Nat) : Nat := ((s.poolNode? (s.team t).record).map (fun n => nrScope n.words)).getD 6

/-- An access of another member of the gang to a team's local memory. -/
def Flight.visits (f : Flight) (t : Nat) : Bool :=
  f.team != t && f.peer == t + 1 && (f.kind == .ldr || f.kind == .str || f.kind == .latomR)

/-- Accesses of the gang's other members to a team's local memory. -/
def State.visited (s : State) (t : Nat) : Bool :=
  s.flights.any (·.visits t) ||
  s.cores.any (fun p => p.2.slips.any (fun c => c.team != t && c.dstTeam == some t))

/-- The engines of its core hold no command of a team. -/
def Core.idleFor (k : Core) (t : Nat) : Bool :=
  !k.slips.any (fun c => c.team == t) && !k.wheel.any (fun c => c.team == t) && !k.coil.queue.any (fun c => c.team == t)

/-- The conditions of R34: the counters that the team's commands have named have reached zero. -/
def State.teamOver (s : State) (t : Nat) : Bool :=
  let T := s.team t
  T.named.isEmpty && T.courses.all Course.finished && (s.core T.core).idleFor t && !s.flights.any (fun f => f.team == t && f.holdsTeam (s.scopeOfNode t)) &&
  !s.visited t

/-- The carry in a team's outgoing slot still has a receiver. -/
def State.carryLeft (s : State) (t : Nat) : Bool :=
  let T := s.team t
  let u := (s.core T.core).coil
  u.owner == some t && u.out.isSome && (s.gangTeam t (T.gangpos + 1)).isSome

/-- The team owns a unit with unsealed jobs. -/
def State.unsealedOf (s : State) (t : Nat) : Bool :=
  let u := (s.core (s.team t).core).coil
  u.owner == some t && !u.unsealed.isEmpty

/-- A team can retire, or its retirement can begin with a seal (R34, R323). -/
def State.retireDue (s : State) (t : Nat) : Bool :=
  (mapGet? t s.teams).isSome && s.teamOver t && (s.unsealedOf t || !s.carryLeft t)

/-- Retirement seals a team's sent jobs, which have nothing left to wait for (R323). -/
def State.sealAll (s : State) (t : Nat) : State :=
  s.modCoil (s.team t).core (fun u => { u with unsealed := [], seals := u.seals ++ u.unsealed.map (fun j => (j, [])) })

/-- A team is one of its node's retired teams (R339, R349). -/
def State.countRetired (s : State) (record t idx : Nat) (failed : Option Nat) : State :=
  (s.modNode record (fun n => { n with
    resident := n.resident.filter (· != t)
    retired := n.retired + 1
    failed := if failed.isSome then failed else n.failed })).signalTeam record idx

/-- A team retires (R34): what it still waited for is dropped. -/
def State.retireTeam (s : State) (t : Nat) (failed : Option Nat) : State :=
  let T := s.team t
  let s := s.cancelWaits (fun f => f.team == t)
  let s := { s with flights := s.flights.filter (fun f => f.team != t) }
  (s.leaveCore t).countRetired T.record t T.idx failed

/-- R34, R323. -/
def execTeamRetire (team : Nat) (s : State) : Host.Outcome State Fault Refusal :=
  if !s.retireDue team then .next s
  else .next (if s.unsealedOf team then s.sealAll team else s.retireTeam team none)

/-! ### Drains -/

/-- CSTRIDE of a resident team's node; 0 for a team whose node is not in the pool. -/
def State.strideOf (s : State) (t : Nat) : Nat := ((s.poolNode? (s.team t).record).map (fun n => nrStride n.words)).getD 0

/-- The members of a team's gang, itself among them. -/
def State.gangOf (s : State) (t : Nat) : List Nat :=
  let g := (s.team t).gang
  if g = 0 then [t] else (s.teams.filter (fun p => p.2.gang == g)).map (·.1)

/-- Cores with the cores of the gangs that have a member on one of them, `fuel` times over (R352). -/
def State.withGangs (s : State) : Nat → List Nat → List Nat
  | 0, cs => cs
  | fuel + 1, cs =>
    let more := dedupNat (cs ++ ((s.teams.filter (fun p => cs.contains p.2.core)).flatMap
      (fun p => (s.gangOf p.1).map (fun u => (s.team u).core))))
    if more.length = cs.length then cs else State.withGangs s fuel more

/-- Some cores begin to drain, with those of their gangs (R352, R354). -/
def State.startDrain (s : State) (cs : List Nat) : State :=
  (s.withGangs 768 cs).foldl (fun s c =>
    if (s.core c).draining.isSome then s else s.modCore c (fun k => { k with draining := some (s.cycle (coreCol c)) })) s

/-- Software has requested the drain of a core that holds a team (R352, R362). -/
def State.drainDue (s : State) (core : Nat) : Bool :=
  s.quiesce.phase == .none && bitN (s.column (coreCol core)).drainreq (coreSlot core) && (s.core core).draining.isNone &&
  !(s.teamsOn core).isEmpty

/-- R354. -/
def execDrain (core : Nat) (s : State) : Host.Outcome State Fault Refusal :=
  if s.drainDue core then .next (s.startDrain [core]) else .next s

/-- A team of a node would fit on a core that holds no team (R62, R74, R229). -/
def State.fitsEmpty (s : State) (node core : Nat) : Bool :=
  match s.poolNode? node with
  | none => false
  | some n => State.fits { s with teams := s.teams.filter (fun p => p.2.core != core) } core (nrCourses n.words) (nrSplit n.words)

/-- A core that may be drained for a node of priority 3 (R352). -/
def State.drainable (s : State) (node core : Nat) : Bool :=
  bitN (s.column (coreCol core)).cmap (coreSlot core) && (s.core core).draining.isNone &&
  !bitN (s.column (coreCol core)).drainreq (coreSlot core) && s.fitsEmpty node core &&
  ((s.core core).reserved.isNone || (s.core core).reserved == some node) &&
  (s.teamsOn core).all (fun p => s.strideOf p.1 != 0 && (match s.poolNode? p.2.record with
    | none => false
    | some n => nrPrio n.words < 3))

/-- The cores that a node of priority 3 drains (R352). -/
def State.priorityDrain (s : State) (n : PoolNode) : Option (List Nat) :=
  if s.quiesce.phase == .none && nrPrio n.words = 3 && s.poolHead == some n.node && n.headSince + 2 ^ 20 ≤ s.cycle 0 && s.waitedLong n &&
    !s.cores.any (fun p => p.2.reserved == some n.node && p.2.draining.isSome) && s.nextPlacement.isNone then
    s.unitCores n.words (s.drainable n.node)
  else none

/-- R352. -/
def execPriorityDrain (node : Nat) (s : State) : Host.Outcome State Fault Refusal :=
  match s.poolNode? node with
  | none => .next s
  | some n => match s.priorityDrain n with
    | none => .next s
    | some cs => .next (cs.foldl (fun s c => s.modCore c (fun k => { k with reserved := some node }))
        (s.startDrain (cs.filter (fun c => !(s.teamsOn c).isEmpty))))

/-- A forced save of some teams begins, with all members of their gangs (R354). -/
def State.startSaves (s : State) (ts : List Nat) : State :=
  (ts.flatMap s.gangOf).foldl (fun s t => s.modTeam t (fun T => { T with saving := true })) s

/-- Teams of a core that its drain will save. -/
def State.toSave (s : State) (core : Nat) : List Nat :=
  ((s.teamsOn core).filter (fun p => s.strideOf p.1 != 0 && !p.2.saving)).map (·.1)

/-- The limit of a drain has passed and teams are left to save (R353, R354). -/
def State.limitPassed (s : State) (core : Nat) : Bool :=
  match (s.core core).draining with
  | none => false
  | some t0 => s.quiesce.phase == .none && wfld (s.core core).drainlim 0 32 ≤ s.cycle (coreCol core) - t0 && !(s.toSave core).isEmpty

/-- R354. -/
def execDrainLimitExpiry (core : Nat) (s : State) : Host.Outcome State Fault Refusal :=
  if s.limitPassed core then .next (s.startSaves (s.toSave core)) else .next s

/-! ### Forced save -/

/-- Every course of a team stands at a batch boundary, or where it is parked or suspended (R106). -/
def Team.stopped (T : Team) : Bool := T.courses.all (fun C => C.coh.isNone || C.parked.isSome || C.suspended)

/-- An access that a save need not wait for, since it waits at a unit that is saved as well. -/
def State.staysSaved (s : State) (f : Flight) : Bool :=
  match f.kind with
  | .rwait | .rwaitB => f.stage == 0
  | .ldl | .stl | .ldr | .latom | .latomR | .lpres _ => f.stage == 0 && !s.unitReady f
  | _ => false

/-- A Wheel command of the team is running (R304): a loop that waits for a half has not started. -/
def WCmd.running (w : WCmd) : Bool :=
  w.started && (match w.op with
    | .loop _ _ _ _ => w.half.isSome || w.isOver
    | _ => true)

/-- A unit stands at its carry boundary for a team of its core (R326). -/
def Coil.atBoundary (u : Coil) (t : Nat) : Bool :=
  !u.wire.any (fun x => x.1 == t) && (u.owner != some t || u.queue.all (fun w => w.wid.isNone))

/-- Steps 1 to 3 of a forced save are done (R354). -/
def State.settled (s : State) (t : Nat) : Bool :=
  let T := s.team t
  let k := s.core T.core
  T.saving && T.stopped && s.flights.all (fun f => (f.team != t && !f.visits t) || s.staysSaved f) &&
  !s.cores.any (fun p => p.2.slips.any (fun c => c.team != t && c.dstTeam == some t)) && !k.slips.any (fun c => c.team == t) && !k.wheel.any (fun w => w.team == t && w.running) &&
  k.coil.atBoundary t

/-- Wait entries of a team whose courses have stopped are to be cancelled (R226). -/
def State.waitsLeft (s : State) (t : Nat) : Bool :=
  (s.team t).saving && (s.team t).stopped && s.flights.any (fun f => f.kind == .wwait && f.team == t && (s.entryOf f.id).isSome)

/-- What of a team its context does not hold; pending Cone steps are discarded (R368). -/
def Team.savedLanes (T : Team) : List SavedLane :=
  T.courses.flatMap (fun C => (List.range 32).map (fun l =>
    let L := C.lane l
    { crs := C.num, lane := l, defs := L.defs, xfer := L.xfer, back := L.back, bad := L.bad, seqIn := L.seqIn }))

/-- The records of a team's courses that still wait for room (R102). -/
def State.recordsOf (s : State) (t : Nat) : List SuspRec :=
  let h := (s.team t).handle 0
  (s.column (s.colOf t)).scqWait.filter (fun x => x.handle % 2 ^ 14 == h)

/-- The uncorrectable words of the halves that a team's B store keeps, and of its tiles (R400). -/
def Core.poisonOf (k : Core) (T : Team) (own : Bool) : List Nat × List Nat :=
  (if own then k.bpoison.filter (fun w => k.bring.st (w / 2 ^ 18) != 0) else [],
   k.apoison.filter (fun w => bitN T.tiles (w / 16384)))

/-- A saved team as its node keeps it. -/
def State.savedOf (s : State) (t : Nat) : SavedTeam :=
  let T := s.team t
  let k := s.core T.core
  let ws := k.wheel.filter (fun w => w.team == t)
  let own := k.coil.owner == some t
  let cs := if own then k.coil.queue else []
  let ids := ws.map (·.id) ++ cs.map (·.id)
  { idx := T.idx
    serial := t
    signalled := T.signalled
    early := T.early
    away := if T.evicted then some T.core else none
    ownsB := k.bring.owner == some t
    ownsCoil := own
    tiles := T.tiles
    ports := T.ports
    lanes := T.savedLanes
    cohorts := T.courses.map (fun C => { crs := C.num, coh := C.coh, lastCoh := C.lastCoh })
    asid := T.asid
    ptroot := T.ptroot
    kbad := T.kbad
    lbad := T.lbad
    named := T.named
    fbars := T.courses.map (fun C => (C.num, C.fbarEp, C.gwaitEnd))
    kScope := T.kScope
    ringScope := T.ringScope
    halfScopes := (k.bring.sc0, k.bring.sc1)
    locks := k.locks.filter (fun e => ids.contains e.cmd)
    wheel := ws
    cils := cs
    missed := mapGet 0 t k.coil.missed
    bpoison := (k.poisonOf T (k.bring.owner == some t)).1
    apoison := (k.poisonOf T false).2
    groups := if own then k.coil.groups.map (·.length) else []
    seals := if own then k.coil.seals.map (·.2) else []
    waiting := s.recordsOf t }

/-- Whose accesses a save and a restore make (R354). -/
def nodeEng (w : NodeRec) (core : Nat) : Eng := ⟨core, nrAsid w, nrRoot w, nrSup w⟩

/-- An access to a context has met an entry of the core's TLB that a slice refuses: it is tried again with a new one (R31). -/
def State.staleSpace (s : State) (cls : Nat) (w : NodeRec) (core : Nat) : Bool :=
  cls == 0x0B && (s.core core).tlb.any (fun e => e.asid == nrAsid w)

/-- Step 4 of a forced save (R354); a write that fails, or that is refused a fourth time (R31), discards the team (R356). -/
def State.saveWrite (s : State) (t : Nat) (n : PoolNode) : State :=
  let T := s.team t
  let wid := s.nextId
  match State.engWrite { s with nextId := s.nextId + 1 } (nodeEng n.words T.core) ⟨t, 0, 0, wid⟩
      (chunksOf (bytesAt (ctxAddr n.words T.idx) (s.context t))) wid with
  | .bad cls _ =>
    if s.staleSpace cls n.words T.core && T.saveTries < 3
    then (s.dropAsid T.core (nrAsid n.words)).modTeam t (fun T => { T with saveTries := T.saveTries + 1 })
    else s.retireTeam t (some 0x10)
  | .ok _ s => s.modTeam t (fun T => { T with saveWid := some wid })

/-- Step 5 of a forced save (R354): the team leaves its core and waits in the pool. -/
def State.saveLeave (s : State) (t : Nat) (n : PoolNode) : State :=
  let sv := s.savedOf t
  (s.leaveCore t).modNode n.node (fun n => { n with resident := n.resident.filter (· != t), saved := n.saved ++ [sv] })

/-- What a forced save of a team does next: 1 its wait entries end, 2 its context is written, 3 it leaves its core; 0 nothing
yet. A quiesce holds it (R391). -/
def State.saveStage (s : State) (t : Nat) : Nat :=
  let gang := s.gangOf t
  if s.quiesce.phase != .none then 0
  else if s.waitsLeft t then 1
  else if !gang.all s.settled then 0
  else if (s.team t).saveWid.isNone then 2
  else if gang.all (fun u => match (s.team u).saveWid with
    | none => false
    | some w => s.landedAt w 6) then 3
  else 0

/-- R106, R226, R304, R326, R354, R356. -/
def execForcedSave (team : Nat) (s : State) : Host.Outcome State Fault Refusal :=
  match s.poolNode? (s.team team).record with
  | none => .next s
  | some n => match s.saveStage team with
    | 1 => .next (s.cancelWaits (fun f => f.team == team))
    | 2 => .next (s.saveWrite team n)
    | 3 => .next (s.saveLeave team n)
    | _ => .next s

/-! ### Restore -/

/-- A word of a context. -/
def ctxW (b : Nat → Byte) (off : Nat) : Nat := leVal ((List.range 8).map (fun i => b (off + i)))

/-- Some words of a context. -/
def ctxWs (b : Nat → Byte) (off n : Nat) : List Nat := bytesWords n (fun i => b (off + i))

/-- Offsets of the presence bits, the local image and Slip's area in a context (R105, R279). -/
def ctxPres (T : Team) : Nat := 0x0A00 + T.courses.length * blockLen T.split.regs
/-- Offset of the local image. -/
def ctxLocal (T : Team) : Nat := ctxPres T + roundUp (T.locSize / 512) 64
/-- Offset of Slip's area. -/
def ctxSlip (T : Team) : Nat := roundUp (ctxLocal T + T.locSize) 4096

/-- A team owns its core's B store by the word of its context (R271, R279). -/
def ownsWord (w : Nat) : Bool := bitN w 12

/-- Offset of the Wheel's area: Slip's holds the image of each half that is not free (R279, R304). -/
def ctxWheel (T : Team) (b : Nat → Byte) : Nat :=
  let w := ctxW b (ctxSlip T + 8)
  let halves := if ownsWord w then bit (fld w 0 2 != 0) + bit (fld w 2 2 != 0) else 0
  roundUp (ctxSlip T + 0x440 + halves * 2 ^ 18) 4096

/-- Offset of Coil's area (R326). -/
def ctxCoil (T : Team) (b : Nat → Byte) : Nat :=
  ctxWheel T b + 0x1000 + 0x4000 * (tileList (fld (ctxW b (ctxWheel T b)) 0 16)).length

/-- A course as a context holds it, with what the context does not hold; every live lane's transaction is open and doomed
(R244). -/
def restoredCourse (T : Team) (sv : SavedTeam) (b : Nat → Byte) (C : Course) : Course :=
  let regs := T.split.regs
  let ws := ctxWs b (0x0A00 + C.num * blockLen regs) (blockLen regs / 8)
  let C := C.load regs ws
  let h := ((sv.fbars.find? (fun p => p.1 == C.num)).map (fun p => p.2)).getD (none, none)
  let x := sv.cohorts.find? (fun p => p.crs == C.num)
  { C with
    coh := if bitN (nw ws 0) 16 then x.bind (·.coh) else none
    lastCoh := x.bind (·.lastCoh)
    suspended := bitN (nw ws 0) 17
    fbarEp := h.1
    gwaitEnd := h.2
    lanes := (List.range 32).map (fun l =>
      let y := (sv.lanes.find? (fun x => x.crs == C.num && x.lane == l)).getD { crs := C.num, lane := l, defs := [] }
      { C.lane l with
      seqIn := y.seqIn && (C.lane l).seqIn
      defs := y.defs
      xfer := y.xfer
      back := y.back
      bad := y.bad
      tx := if (C.lane l).cls == .live then { opened := true, doomed := true } else {} }) }

/-- Saved entries of a team's Slip ports (R279), each with the scope of its acquire (R262). -/
def ctxEntries (T : Team) (sv : SavedTeam) (b : Nat → Byte) : List (Nat × List QEntry) :=
  let o := ctxSlip T
  let old := slipEntriesOf sv.ports
  (List.range (min 64 (fld (ctxW b (o + 0x10)) 0 7))).foldl (fun m i =>
    let e : QEntry := (old[i]?.map (·.2)).getD { slots := [], mask := 0 }
    mapMod [] (fld (ctxW b (o + 0x48 + 16 * i)) 0 4) (· ++ [{ portEntry (ctxW b (o + 0x40 + 16 * i)) e.scope with ord := e.ord }]) m) []

/-- A team from its context (R105, R279, R304, R355). -/
def restoredTeam (T : Team) (sv : SavedTeam) (b : Nat → Byte) : Team :=
  let q (n : Nat) : Nat := fld (ctxW b (0x50 + 8 * (n / 4))) (16 * (n % 4)) 16
  let full := (List.range 4).foldl (fun a i => a + ctxW b (0xF0 + 8 * i) * 2 ^ (64 * i)) 0
  let wh := ctxWheel T b
  { T with
    courses := T.courses.map (restoredCourse T sv b)
    terr := bitN (ctxW b 0x28) 0
    fpcr := fld (ctxW b 0x30) 0 5
    utvec := wordOf (ctxW b 0x38)
    utmask := wordOf (ctxW b 0x40)
    ckvec := wordOf (ctxW b 0x48)
    eqs := (List.range 16).filterMap (fun n => if bitN (q n) 15 then some (n, q n % 128) else none)
    k := (List.range 256).map (fun n => (n, wordOf (ctxW b (0x200 + 8 * n))))
    kE := ~~~BitVec.ofNat 256 full
    kScope := sv.kScope
    absent := (List.range (T.locSize / 64)).filter (fun ln => !bitN (b (ctxPres T + ln / 8)).toNat (ln % 8))
    lmem := (List.range T.locSize).map (fun a => (a, b (ctxLocal T + a)))
    ports := ctxEntries T sv b ++ sv.ports.filter (fun p => !(1 ≤ p.1 && p.1 ≤ 15))
    asid := sv.asid
    ptroot := sv.ptroot
    kbad := sv.kbad
    lbad := sv.lbad
    named := sv.named
    slipErr := ctxW b (ctxSlip T)
    ringScope := sv.ringScope
    tiles := fld (ctxW b wh) 0 16
    wheelErr := ctxW b wh / 2 ^ 16 * 2 ^ 16 - fld (ctxW b wh) 24 8 * 2 ^ 24
    wheelHalf := if bitN (ctxW b (wh + 8)) 1 then some (fld (ctxW b (wh + 8)) 0 1) else none
    signalled := sv.signalled }

/-- The B store of a core from the context of the team that owns it (R279). -/
def restoredRing (T : Team) (sv : SavedTeam) (b : Nat → Byte) (t : Nat) (old : BRing) : BRing :=
  let o := ctxSlip T
  let w := ctxW b (o + 8)
  let img (h at_ : Nat) : List (Nat × Byte) := (List.range (2 ^ 18)).map (fun i => (h * 2 ^ 18 + i, b (at_ + i)))
  let n0 := bit (fld w 0 2 != 0)
  let bytes := (if n0 = 1 then img 0 (o + 0x440) else []) ++ (if fld w 2 2 != 0 then img 1 (o + 0x440 + n0 * 2 ^ 18) else [])
  { st0 := fld w 0 2, st1 := fld w 2 2, widx := fld w 4 1, ridx := fld w 5 1, cur := fld w 6 1, curv := bitN w 7,
    err0 := bitN w 8, err1 := bitN w 9, xov0 := bitN w 10, xov1 := bitN w 11,
    last0 := false, last1 := false, sc0 := sv.halfScopes.1, sc1 := sv.halfScopes.2, owner := some t,
    bytes := bytes.foldl (fun m p => mapPut p.1 p.2 m) old.bytes }

/-- The tile words of a context (R304). -/
def restoredTiles (T : Team) (b : Nat → Byte) (acc : List (Nat × Word)) : List (Nat × Word) :=
  let o := ctxWheel T b + 0x1000
  let ts := tileList (fld (ctxW b (ctxWheel T b)) 0 16)
  (List.range ts.length).foldl (fun m i => (List.range 4096).foldl (fun m j =>
    mapPut (ts.getD i 0 * 4096 + j) (wordOf (leVal ((List.range 4).map (fun x => b (o + 0x4000 * i + 4 * j + x))))) m) m) acc

/-- The instruction of a saved command. -/
def savedIns (b : Nat → Byte) (o : Nat) : Option Instr := (decode (ctxW b o + ctxW b (o + 8) * 2 ^ 64)).toOption

/-- The operation of a saved Wheel command; the lanes of `wacc` are those of its issue (notes/assumptions/31). -/
def savedWOp (i : Instr) (a b c : Word) (old : WOp) : Option WOp :=
  match i with
  | .wzero _ => some (.zero a.toNat)
  | .wloop _ m => some (.loop m a b c)
  | .wdrain _ m => some (.drain m a b c)
  | .waccRd _ => some old
  | .waccWr _ => some old
  | _ => none

/-- The Wheel commands of a context, each ahead of any new one (R304). -/
def restoredWheel (T : Team) (sv : SavedTeam) (b : Nat → Byte) (t id : Nat) : List WCmd :=
  let o := ctxWheel T b
  (List.range (min sv.wheel.length (ctxW b (o + 0x10)))).filterMap (fun i =>
    let p := o + 0x40 + 64 * i
    let v (j : Nat) : Word := wordOf (ctxW b (p + 16 + 8 * j))
    match sv.wheel[i]?, savedIns b p with
    | some w, some ins => (savedWOp ins (v 0) (v 1) (v 2) w.op).map (fun op => { w with
        id := id + i, team := t, ins := ins, op := op, started := false, req := none, half := none, step := 0, tries := 0, stall := none })
    | _, _ => none)

/-- An element of a context (R326). -/
def ctxElem (p : COperator) (b : Nat → Byte) (o : Nat) : List Nat :=
  (List.range (shapeV p.shape)).map (fun j => leVal ((List.range 4).map (fun i => b (o + 4 * j + i))))

/-- The operator of a code. -/
def coperOf (x : Nat) : COperator := ⟨semiOf (fld x 0 3), shapeOf (fld x 3 2)⟩

/-- A carry of a context (R326). -/
def ctxCarry (b : Nat → Byte) (o : Nat) : Carry :=
  let w := ctxW b o
  let p := coperOf (fld w 8 7)
  let n := if fld w 0 7 = 0 then 128 else fld w 0 7
  { coper := p, chans := n, vals := if bitN w 15 then [] else (List.range n).map (fun i => ctxElem p b (o + 8 + 24 * i)), poison := bitN w 15 }

/-- The Coil commands of a context (R326). A job's carry limit starts again. -/
def restoredCils (T : Team) (sv : SavedTeam) (b : Nat → Byte) (t id now : Nat) : List CilCmd :=
  let o := ctxCoil T b
  (List.range (min sv.cils.length (ctxW b (o + 0x10)))).filterMap (fun i =>
    let p := o + 0x40 + 64 * i
    let x := ctxW b (p + 40)
    match sv.cils[i]?, savedIns b p with
    | some w, some ins =>
      let w := { w with id := id + i, team := t, ins := ins, phase := fld x 48 16, steps := fld x 0 32, since := now, tries := 0, stall := none }
      (match ins with
       | .cjob _ m => some { w with op := .job m (wordOf (ctxW b (p + 16))) }
       | .ccarLd _ _ loc => some { w with op := .car false loc (wordOf (ctxW b (p + 16))) (ctxW b (p + 24)) }
       | .ccarSt _ _ loc => some { w with op := .car true loc (wordOf (ctxW b (p + 16))) (ctxW b (p + 24)) }
       | _ => none)
    | _, _ => none)

/-- The job sends its carry on. -/
def CilCmd.sends (w : CilCmd) : Bool :=
  match w.op with
  | .job m _ => m.send
  | .car _ _ _ _ => false

/-- The `n` entries of a group buffer (R326). -/
def ctxGroup (b : Nat → Byte) (o n : Nat) : List QEntry :=
  (List.range n).map (fun i =>
    { slots := (List.range 32).map (fun j => wordOf (ctxW b (o + 320 * i + 8 * j))), mask := ctxW b (o + 320 * i + 256) })

/-- The carries in the link buffer of a context (R326): they arrive at the restore. -/
def ctxLinks (T : Team) (b : Nat → Byte) (t now : Nat) : List LinkEnt :=
  let o := ctxCoil T b
  (List.range (fld (ctxW b (o + 8)) 13 3)).map (fun i =>
    { for_ := t, came := now, late := false, carry := ctxCarry b (o + 0x0D40 + 3080 * (i + 1)) })

/-- The Coil unit of a context (R326); job `id0` is the one whose carry stands in the outgoing slot, and each sealed job's carry waits for
what its seal covers, as before the save (R106, R320). -/
def restoredCoil (T : Team) (sv : SavedTeam) (b : Nat → Byte) (t id0 : Nat) (q : List CilCmd) (old : Coil) : Coil :=
  let o := ctxCoil T b
  let st := ctxW b o
  let w := ctxW b (o + 8)
  let p := coperOf w
  let out : Option (Nat × Carry) := if bitN w 12 then some (id0, ctxCarry b (o + 0x0D40)) else none
  let jobs := (if out.isSome then [id0] else []) ++ (q.filter CilCmd.sends).map (·.id)
  let open_ := fld st 18 3
  { owner := some t, coper := p, tlim := fld w 5 5, queue := q, out := out, link := old.link, wire := old.wire, missed := old.missed,
    creg := (List.range 128).map (fun c => ctxElem p b (o + 0x140 + 24 * c)),
    groups := (List.range 4).map (fun g => ctxGroup b (o + 0x3200 + 64 * 320 * g) (sv.groups.getD g 0)),
    unsealed := jobs.drop (jobs.length - open_), seals := (jobs.take (jobs.length - open_)).zip (sv.seals ++ jobs.map (fun _ => [])),
    lastReason := fld st 32 8, err := bitN st 16, poison := bitN st 15, flagOF := bitN st 14, flagNV := bitN st 13 }

/-- The lock entries of restored commands: old numbers are replaced by new ones, and so is the team's. -/
def restoredLocks (sv : SavedTeam) (t : Nat) (ids : List (Nat × Nat)) : List LockEnt :=
  sv.locks.filterMap (fun e => (mapGet? e.cmd ids).map (fun n => { e with
    cmd := n
    space := if e.space = .loc sv.serial then .loc t else e.space }))

/-- Accesses that stayed under way while their team was saved go on for its new number (R106). -/
def State.renameFlights (s : State) (old t core : Nat) : State :=
  { s with flights := s.flights.map (fun f =>
      let f := if f.team = old then { f with team := t, core := core } else f
      if f.peer = old && f.kind == .rwait then { f with peer := t }
      else if f.peer = old + 1 && (f.isLocal || f.kind == .ldr || f.kind == .latomR) then { f with peer := t + 1 } else f) }

/-- A saved team cannot be read back and is discarded (R400). -/
def State.discardSaved (s : State) (n : PoolNode) (sv : SavedTeam) : State :=
  let s := { s with flights := s.flights.filter (fun f => f.team != sv.serial) }
  (s.modNode n.node (fun n => { n with saved := n.saved.filter (fun x => x.idx != sv.idx) })).countRetired n.node sv.serial sv.idx
    (some 0x10)

/-- A unit takes back what was in its link buffer for a team, and the count of jobs whose carries are still to come (R326). -/
def Coil.relink (u : Coil) (sv : SavedTeam) (t : Nat) (es : List LinkEnt) : Coil :=
  { u with link := u.link ++ es, missed := if sv.missed = 0 then u.missed else mapPut t sv.missed u.missed }

/-- The words of a half are replaced by those that a context gives back, with their poison (R400). -/
def restoredPoison (ring : BRing) (sv : SavedTeam) (old : List Nat) : List Nat :=
  old.filter (fun w => ring.st (w / 2 ^ 18) == 0) ++ sv.bpoison

/-- What the engines of its core take back from the context of a team (R279, R304, R326). Its commands are queued at once, beyond 8 in
the Wheel's queue and 32 in the lock table where other teams' commands leave no room: the spec names no wait for a restore, and this is the
model's choice (notes/assumptions/88). -/
def State.restoreEngines (s : State) (T : Team) (sv : SavedTeam) (b : Nat → Byte) (t : Nat) : State :=
  let id := s.nextId
  let now := s.cycle (coreCol T.core)
  let ws := restoredWheel T sv b t id
  let cs := restoredCils T sv b t (id + 8) now
  let owns := sv.ownsCoil && bitN (ctxW b (ctxCoil T b)) 17
  let ring : Bool := sv.ownsB && ownsWord (ctxW b (ctxSlip T + 8))
  let ids := (numbered sv.wheel).map (fun p => (p.2.id, id + p.1)) ++ (numbered sv.cils).map (fun p => (p.2.id, id + 8 + p.1))
  let live := ws.map (·.id) ++ cs.map (·.id)
  State.modCore { s with nextId := s.nextId + 16 } T.core (fun k => { k with
    bring := if ring then restoredRing T sv b t k.bring else k.bring
    bpoison := if ring then restoredPoison (restoredRing T sv b t k.bring) sv k.bpoison else k.bpoison
    acc := restoredTiles T b k.acc
    apoison := k.apoison.filter (fun w => !bitN (fld (ctxW b (ctxWheel T b)) 0 16) (w / 16384)) ++ sv.apoison
    wheel := k.wheel ++ ws
    coil := Coil.relink (if owns then restoredCoil T sv b t (id + 12) cs k.coil else k.coil) sv t (ctxLinks T b t now)
    locks := k.locks ++ (restoredLocks sv t ids).filter (fun e => live.contains e.cmd) })

/-- A quiesce request that reached a saved course reaches the restored one (R391). -/
def State.lateCk (s : State) (t : Nat) (p : Nat × Nat) : State :=
  let s : State := { s with quiesce := { s.quiesce with pendCk := (t, p.2) :: s.quiesce.pendCk.filter (· != p) } }
  if (s.course t p.2).suspended then s else s.lateQuiesce t p.2

/-- The requests of R391 of a team that is restored. -/
def State.lateCks (s : State) (old t : Nat) : State :=
  (s.quiesce.pendCk.filter (fun p => p.1 == old)).foldl (fun s p => s.lateCk t p) s

/-- The records that still waited for room when the team was saved wait anew, under its new handles (R101, R102;
notes/assumptions/86). -/
def State.renewRecords (s : State) (T : Team) (sv : SavedTeam) : State :=
  sv.waiting.foldl (fun s r => s.scqRecord (coreCol T.core) { r with handle := T.handle (r.handle / 2 ^ 14) }) s

/-- A saved team is resident again. -/
def State.restoreEnd (s : State) (n : PoolNode) (sv : SavedTeam) (t : Nat) : State :=
  s.modNode n.node (fun n => { n with
    saved := n.saved.filter (fun x => x.idx != sv.idx)
    resident := n.resident ++ [t]
    since := s.cycle 0 })

/-- The team `t` that a context makes (R355). -/
def State.restoreFrom (s : State) (n : PoolNode) (sv : SavedTeam) (core gang t : Nat) (d : EngData) : State :=
  let b (i : Nat) : Byte := d.at (ctxAddr n.words sv.idx + i)
  let T := newTeam n sv.idx core ((s.freeSlot core).getD 0) (sv.idx % nrUnit n.words) gang sv.early t
  ((((((s.takeTeam (restoredTeam T sv b)).restoreEngines T sv b t).renameFlights sv.serial t core).acquire core 9).lateCks
    sv.serial t).renewRecords T sv).restoreEnd n sv t

/-- The context of a saved team, read through the engine's path. -/
def State.readContext (s : State) (n : PoolNode) (sv : SavedTeam) (core : Nat) : EngOut :=
  State.engGather { s with nextId := s.nextId + 1 } (nodeEng n.words core)
    [(ctxAddr n.words sv.idx, ctxSize (nrCourses n.words) (nrSplit n.words))]

/-- What a restore does with what it read of a context (R355, R400). -/
def State.restoreWith (s : State) (n : PoolNode) (sv : SavedTeam) (core gang : Nat) : EngOut → State
  | .bad _ _ => s.discardSaved n sv
  | .ok d u => u.restoreFrom n sv core gang s.nextId d

/-- A saved team returns to a core (R355): what the core's TLB holds of its address space is of an older use. -/
def State.restoreTeam (s : State) (n : PoolNode) (sv : SavedTeam) (core gang : Nat) : State :=
  let s := s.dropAsid core (nrAsid n.words)
  s.restoreWith n sv core gang (s.readContext n sv core)

/-- A new gang number where a node's teams form gangs. -/
def State.newGang (s : State) (n : PoolNode) : State := if nrIsGang n.words then { s with nextId := s.nextId + 1 } else s

/-- The saved teams of a scheduling unit return, each on the core that was found for it (R355). -/
def State.restoreUnit (s : State) (n : PoolNode) (idx : Nat) (cs : List Nat) : State :=
  (((n.savedUnit idx).zip cs).foldl (fun u p => u.restoreTeam n p.1 p.2
    (if nrIsGang n.words then s.nextId else 0)) (s.newGang n)).endEviction n.node

/-- R106, R355. -/
def execRestore (node team : Nat) (s : State) : Host.Outcome State Fault Refusal :=
  match s.nextPlacement with
  | some (n, idx, true, cs) => if n.node != node || idx != team then .next s else .next (s.restoreUnit n idx cs)
  | _ => .next s

/-! ### Park eviction -/


/-- A team of some node that waits in the pool would fit on a core, which one team less would leave room on (R357). -/
def State.fitsWithout (s : State) (n : PoolNode) (core t : Nat) : Bool :=
  let s := { s with teams := mapDel t s.teams }
  n.offers.any (fun o => if o.2 then (n.savedUnit o.1).any (fun sv => s.admitsSaved n sv core) else s.admits n core)

/-- EP of a resident team's node. -/
def State.teamEp (s : State) (t : Nat) : Nat := ((s.poolNode? (s.team t).record).map s.ep).getD 0

/-- The victim among some teams (R357): the lowest EP, and among equals the one placed last. -/
def State.victim (s : State) (ts : List Nat) : Option Nat := minBy (fun t => s.teamEp t * 2 ^ 64 + (2 ^ 64 - 1 - (s.team t).placed)) ts

/-- The node that waits for a core and the team that park eviction takes from it (R357): the node's team would fit if some resident team
were removed, and the victim is the one of all that R357 names. -/
def State.evictionOf (s : State) (core : Nat) : Option (Nat × Nat) :=
  let ts := (s.teamsOn core).map (·.1)
  let k := s.core core
  if s.quiesce.phase != .none || ts.isEmpty || wfld k.parklim 0 32 = 0 || k.draining.isSome || bitN (s.column (coreCol core)).drainreq (coreSlot core) ||
    ts.any (fun t => (s.team t).saving) || !ts.all (s.reachedPark core) then none
  else match s.victim (ts.filter (fun t => s.strideOf t != 0)) with
    | none => none
    | some t => ((s.poolOrder.filter PoolNode.waiting).find? (fun n => ts.any (s.fitsWithout n core))).map (fun n => (n.node, t))

/-- An eviction ends what earlier ones have promised on the core (R357, R358): every team there has reached PARKLIM, so no saved team is
kept away from it on account of one of them. While the core still waits for the team of an eviction, nothing ends. -/
def State.endBars (s : State) (core : Nat) : State :=
  if (s.core core).evictFor.isSome then s
  else { s with pool := s.pool.map (fun n => { n with
    saved := n.saved.map (fun t => { t with away := if t.away = some core then none else t.away }) }) }

/-- R357. -/
def execParkEviction (core : Nat) (s : State) : Host.Outcome State Fault Refusal :=
  match s.evictionOf core with
  | none => .next s
  | some (node, t) => .next ((((s.endBars core).startSaves [t]).modTeam t (fun T => { T with evicted := true })).modCore core (fun k => { k with
      reserved := some node
      evictFor := some node
      admitted := none }))

end Sys2Proof.Machine
end

