-- ==== Sys2Proof/Machine/Column.lean ====
section
/-! DEFINITION. Column cores and the host: their accesses to the device (R209, R360, R361, R372), the column control page's
steps (R362 to R365, R373), and the dispatcher's hand-over of COLUMN and HOST nodes (R347). -/

namespace Sys2Proof.Machine

/-! ### Accesses in streams -/

/-- Stream number that stands for host writes without a sequence number (R372). -/
def noStream : Nat := 0x1_0000

/-- The home of an access of a column core or of the host: 64 for the host range. -/
def State.portHome (s : State) (pa : Nat) : Nat :=
  if isHost pa then 64
  else match ctlPage pa, linePage pa with
    | some (c, _), _ => c
    | none, some (c, _) => c
    | none, none => s.home pa

/-- A write of a column core or of the host leaves with the next sequence number of its stream for its home (R209). -/
def State.portSend (s : State) (p : PortAcc) : State :=
  let home := s.portHome p.pa
  let seq := mapGet 0 p.stream (s.column home).streams
  let s := { s with port := s.port ++ [{ p with id := s.nextId, home := home, seq := seq }], nextId := s.nextId + 1 }
  if p.stream = noStream then s
  else s.modCol home (fun k => { k with streams := mapPut p.stream ((seq + 1) % 2 ^ 32) k.streams })

/-- The access shares a byte with some range. -/
def PortAcc.touches (p : PortAcc) (pa n : Nat) : Bool := p.pa < pa + n && pa < p.pa + p.size

/-- Earlier writes of the same stream to other homes (R372). -/
def State.otherHomes (s : State) (p : PortAcc) : Bool := s.port.any (fun q => q.stream == p.stream && q.id < p.id && q.home != p.home)

/-- Rank of a stream's writes at their home (R220). -/
def PortAcc.rank (p : PortAcc) : Nat := if p.stream < 64 then rankColumn else rankHost

/-- A home may perform a write in this cycle (R209, R212, R220, R228, R336, R361, R372): it is the next of its stream and comes after what its
column's near slice accepted before it for the same bytes and after what the home took before to the same words, a release and a posted write wait for their predecessors, and a launch line
has room. -/
def State.portReady (s : State) (p : PortAcc) : Bool :=
  p.stage == 0 && (p.home == 64 || (s.sliceFree p.home p.rank && !s.queuedOn p.pa p.size)) && !(p.stream < 64 && s.keptBefore p.stream p.id p.pa p.size) && (p.stream == noStream || p.seq == mapGet 0 p.stream (s.column p.home).nextSeq) &&
  (!p.rel || !s.port.any (fun q => q.stream == p.stream && q.id < p.id)) && (p.stream != 0x0100 || !s.otherHomes p) &&
  (match launchAt p.pa p.size p.data with
   | some (c, prio) => p.kind != .store || s.lineRoom c prio
   | none => true)

/-- The bytes of a range as a column core's read copies hold them, none unless it holds them all (R361). -/
def Column.copied (k : Column) (pa n : Nat) : Option (List Byte) := (List.range n).mapM (fun i => mapGet? (pa + i) k.copies)

/-- A column core's read copies without a range. -/
def Column.dropCopies (k : Column) (pa n : Nat) : Column := { k with copies := k.copies.filter (fun c => !(pa ≤ c.1 && c.1 < pa + n)) }

/-- A column core keeps a copy of what it has read. -/
def Column.keepCopies (k : Column) (pa : Nat) : List Byte → Column
  | [] => k
  | b :: r => Column.keepCopies { k with copies := mapPut pa b k.copies } (pa + 1) r

/-- The column core's read copies are invalidated by an acquire of its own (R235, R361). -/
def State.acquireCopies (s : State) (p : PortAcc) : State := if p.acq then s.modCol p.stream (fun k => { k with copies := [] }) else s

/-- What a column core has read at an address. -/
def State.colRead (s : State) (col pa : Nat) (v : Word) : State := s.modCol col (fun k => { k with reads := mapPut pa v k.reads })

/-- Bytes written to memory by a column core or the host; a glaze window discards and counts them (R383). -/
def State.portBytes (s : State) (p : PortAcc) (bs : List Byte) : State :=
  if !s.portMem p.pa then s
  else if (s.windowAt p.pa).isSome then { s with gdisc := (s.gdisc + 1) % 2 ^ 64 }
  else s.homeWrite p.pa bs (some p.id)

/-- A plain write is performed (R209, R336, R362). -/
def State.portStore (s : State) (p : PortAcc) : State :=
  match launchAt p.pa p.size p.data with
  | some (c, prio) => s.appendLine c prio p.data .supervisor
  | none => match linePage p.pa with
    | some (c, _) => s.discardLaunch c
    | none => if (ctlPage p.pa).isSome then s.ctlStore false p.pa p.size p.data else s.portBytes p (leBytes p.size p.data.toNat)

/-- An AMO is performed by the owner of its word (R228, R361); an uncorrectable word is not changed and gives no value (R400). -/
def State.portAmo (s : State) (p : PortAcc) (op : AOp) (ty : Ty) : State :=
  if !s.portMem p.pa || s.poisoned p.pa p.size then s
  else
    let old := memRead s.mem p.pa p.size
    (s.portBytes p (leBytes p.size (aopNew op ty old p.data.toNat p.cmp.toNat))).colRead p.stream p.pa (extOld ty old)

/-- SC succeeds while its word holds the value that LR recorded (R361, R242): it returns 0, and 1 where it fails. -/
def State.portSc (s : State) (p : PortAcc) : State :=
  if s.portMem p.pa && !s.poisoned p.pa p.size && memRead s.mem p.pa p.size = p.cmp.toNat
  then (s.portBytes p (leBytes p.size p.data.toNat)).colRead p.stream p.pa 0
  else s.colRead p.stream p.pa 1

/-- A home performs a write of a stream. -/
def State.portPerform (s : State) (p : PortAcc) : State :=
  let s := if p.home = 64 then s else s.take p.home p.rank
  let s := match p.kind with
    | .store => s.portStore p
    | .amo op ty => (s.portAmo p op ty).acquireCopies p
    | .sc => s.portSc p
  let s := { s with port := s.port.map (fun q => if q.id == p.id then { q with stage := 1 } else q) }
  if p.stream = noStream then s
  else s.modCol p.home (fun k => { k with nextSeq := mapPut p.stream ((p.seq + 1) % 2 ^ 32) k.nextSeq })

/-- The writes of a stream that their home may perform; those without a sequence number are unordered. -/
def State.streamReady (s : State) (home stream : Nat) : List PortAcc :=
  s.port.filter (fun p => p.home == home && p.stream == stream && s.portReady p)

/-- R209, R361, R372. -/
def execHomeStreamWrite (home stream : Nat) (s : State) : Host.Outcome State Fault Refusal :=
  let ps := s.streamReady home stream
  match ps[Config.choose s.tick % ps.length]? with
  | none => .next s
  | some p => .next (s.portPerform p)

/-! ### Accesses of a column core -/

/-- A column core's earlier acquire has not been performed. -/
def State.ccAcquiring (s : State) (col : Nat) : Bool := s.port.any (fun p => p.stream == col && p.acq)

/-- A slice may take a read of some bytes of memory in this cycle (R220), a home slice after what it took before to the same words (R228). -/
def State.readFree (s : State) (slice rank pa n : Nat) : Bool :=
  !(isHbm pa || isWindow pa) || (s.sliceFree slice rank && !(slice == s.home pa && s.queuedOn pa n))

/-- The slice takes a read of memory (R220). -/
def State.readTake (s : State) (slice rank pa : Nat) : State := if isHbm pa || isWindow pa then s.take slice rank else s

/-- A column core can make an access now: reads wait for its own writes of those bytes and for the slice, a fence for its writes
(R220, R361). -/
def State.ccReady (s : State) (col : Nat) (a : CcAcc) : Bool :=
  !s.ccAcquiring col && (match a with
    | .load pa size => !s.port.any (fun p => p.stream == col && p.touches pa size) && s.readFree (s.server col pa).1 rankColumn pa size
    | .lr pa => !s.port.any (fun p => p.stream == col && p.touches pa 8) && s.readFree (s.home pa) rankColumn pa 8
    | .fence pw _ => !pw || !s.port.any (fun p => p.stream == col)
    | _ => true)

/-- What a column core or the host reads at an address, none where it meets an uncorrectable word (R205, R361, R400): `mem` is what
memory gives it there, and `bad` says that this holds such a word. -/
def State.portRead (s : State) (mem : List Byte × State) (bad : Bool) (pa size : Nat) : Option Word × State :=
  if isIO pa then
    let r := s.ioRead false pa size
    (some r.1, r.2)
  else if isHost pa then (some s.freeWord.1, s.freeWord.2)
  else if !s.portMem pa then (some 0, s)
  else if bad then (none, s)
  else (some (wordOf (leVal mem.1)), mem.2)

/-- A column core keeps what a load of normal memory gave it (R360, R361). -/
def State.keepRead (s : State) (col pa size : Nat) (v : Option Word) : State :=
  match v with
  | some v => if isHbm pa || isWindow pa then s.modCol col (fun k => k.keepCopies pa (leBytes size v.toNat)) else s
  | none => s

/-- The read copy that serves a load of a column core; whether one serves it is free (R361; notes/assumptions/12). -/
def State.copyFor (s : State) (col pa size : Nat) : Option (List Byte) :=
  if Config.copyHit s.tick then (s.column col).copied pa size else none

/-- A column core reads from a copy of its own or through its near slice (R361). -/
def State.colLoad (s : State) (col pa size : Nat) : Option Word × State :=
  match s.copyFor col pa size with
  | some bs => (some (wordOf (leVal bs)), s)
  | none =>
    let slice := (s.server col pa).1
    let r := s.portRead (s.loadBytes col 0 pa size 0) (s.poisonedFor col pa size) pa size
    (r.1, (r.2.readTake slice rankColumn pa).keepRead col pa size r.1)

/-- A write, AMO or SC of a column core leaves; its own copies of the bytes go (R361). -/
def State.ccSend (s : State) (p : PortAcc) : State := (s.modCol p.stream (fun k => k.dropCopies p.pa p.size)).portSend p

/-- LR reads its word at the home slice (R361). -/
def State.colLr (s : State) (col pa : Nat) : Option Word × State :=
  let r := s.portRead (s.homeBytes col pa 8) (s.poisonedFor col pa 8) pa 8
  (r.1, r.2.readTake (s.home pa) rankColumn pa)

/-- The host reads from tower 0 (R371). -/
def State.hostLoad (s : State) (pa size : Nat) : Option Word × State :=
  let slice := (s.server 0 pa).1
  let r := s.portRead (s.sliceRead 0 0 pa size 0) (s.poisoned pa size) pa size
  (r.1, r.2.readTake slice rankHost pa)

/-- A size of access that the device takes: 1, 2, 4 or 8 bytes, aligned. -/
def portSize (pa size : Nat) : Bool := (size == 1 || size == 2 || size == 4 || size == 8) && pa % size == 0

/-- A store of another size or alignment is dropped; one to a launch line counts in LDISC (R336). -/
def State.oddStore (s : State) (pa : Nat) : State :=
  match linePage pa with
  | some (c, _) => s.discardLaunch c
  | none => s

/-- A column core makes an access (R361). A load of a register or launch line of another size or alignment gives 0 (R362); a fence whose
predecessors hold R or I drops its read copies. -/
def State.ccAccess (s : State) (col : Nat) (a : CcAcc) : State :=
  let base : PortAcc := { id := 0, stream := col, seq := 0, home := 0, pa := 0, size := 8, data := 0 }
  match a with
  | .load pa size =>
    if !portSize pa size then (if isIO pa then s.colRead col pa 0 else s)
    else match s.colLoad col pa size with
      | (some v, s) => s.colRead col pa v
      | (none, s) => s
  | .store pa size v => if portSize pa size then s.ccSend { base with pa := pa, size := size, data := v } else s.oddStore pa
  | .amo op ty o pa v c =>
    if portSize pa (tyBytes ty) && (isHbm pa || isWindow pa) then s.ccSend { base with
      pa := pa, size := tyBytes ty, data := v, cmp := c, kind := .amo op ty, acq := o.acq, rel := o.rel } else s
  | .lr pa =>
    if pa % 8 != 0 || !(isHbm pa || isWindow pa) then s
    else match s.colLr col pa with
      | (some v, s) => (s.colRead col pa v).modCol col (fun k => { k.dropCopies pa 8 with resv := some (pa, v) })
      | (none, s) => s
  | .sc pa v =>
    let r := (s.column col).resv
    let s := s.modCol col (fun k => { k with resv := none })
    match r with
    | some (x, old) => if x = pa then s.ccSend { base with pa := pa, data := v, cmp := old, kind := .sc } else s.colRead col pa 1
    | none => s.colRead col pa 1
  | .fence _ pr => if pr then s.modCol col (fun k => { k with copies := [] }) else s

/-! ### The host -/

/-- The stream of a host write (R372). -/
def hostStream : HostKind → Nat
  | .posted => 0x0100
  | .relaxed => noStream
  | .cxl => 0x0200

/-- What an offset in a BAR maps (R371): BAR 0 the control pages, BAR 2 the launch lines. -/
def barAddr (bar off : Nat) : Option Nat :=
  if 256 * 1024 ≤ off then none
  else if bar = 0 then some (0xF_8000_0010_0000 + off)
  else if bar = 2 then some (0xF_8000_0000_0000 + off)
  else none

/-- The address lies behind a BAR (R371). -/
def inBar (pa : Nat) : Bool :=
  barAddr 0 (pa - 0xF_8000_0010_0000) == some pa || barAddr 2 (pa - 0xF_8000_0000_0000) == some pa

/-- Where the host reaches: its own memory lies outside; CXL.mem maps memory and windows alone, the BARs the control pages and launch
lines (R371). An event of the host carries the device address that it maps to. -/
def hostReach (k : HostKind) (pa : Nat) : Bool :=
  match k with
  | .cxl => isHbm pa || isWindow pa
  | _ => isHbm pa || isWindow pa || inBar pa

/-- R336, R372. -/
def execHostWrite (kind : HostKind) (pa size : Nat) (val : Word) (s : State) : Host.Outcome State Fault Refusal :=
  if s.boot.stage != 6 || !hostReach kind pa then .next s
  else if !portSize pa size then .next (s.oddStore pa)
  else .next (s.portSend { id := 0, stream := hostStream kind, seq := 0, home := 0, pa := pa, size := size, data := val })

/-- No write of stream 0x0100 is left to be performed at device scope (R372), and the slice may take the read (R220). -/
def State.hostReadDue (s : State) (pa size : Nat) : Bool :=
  s.boot.stage == 6 && !s.port.any (fun p => p.stream == 0x0100) && s.readFree (s.server 0 pa).1 rankHost pa size

/-- R372. A read of a register or launch line of another size or alignment gives 0 (R362). -/
def execHostRead (pa size : Nat) (s : State) : Host.Outcome State Fault Refusal :=
  if !s.hostReadDue pa size || !hostReach .posted pa then .next s
  else if !portSize pa size then .next (if inBar pa then { s with hreads := mapPut pa 0 s.hreads } else s)
  else match s.hostLoad pa size with
    | (some v, s) => .next { s with hreads := mapPut pa v s.hreads }
    | (none, s) => .next s

/-! ### Registers of the control page -/

/-- A write of a register by a column core or the host, taken whole (R11, R362); one of no register of this device does nothing. -/
def regEvent (ok : Bool) (s s' : State) : Host.Outcome State Fault Refusal := .next (if ok then s' else s)

/-- R11, R362. -/
def execRegisterWrite (col off : Nat) (val : Word) (s : State) : Host.Outcome State Fault Refusal :=
  regEvent (col < 64 && off % 8 = 0 && off < 4096) s (s.regWrite col off val)
/-- R363. -/
def execWaitaddrWrite (col : Nat) (val : Word) (s : State) : Host.Outcome State Fault Refusal :=
  regEvent (col < 64) s (s.writeWaitaddr col val)
/-- R225, R363. -/
def execWakeWrite (col : Nat) (val : Word) (s : State) : Host.Outcome State Fault Refusal :=
  regEvent (col < 64) s (s.writeWake col val)
/-- R364. -/
def execTaskdoneWrite (col : Nat) (val : Word) (s : State) : Host.Outcome State Fault Refusal :=
  regEvent (col < 64) s (s.writeTaskdone col val)
/-- R362. -/
def execDrainreqWrite (col : Nat) (val : Word) (s : State) : Host.Outcome State Fault Refusal :=
  regEvent (col < 64) s (s.writeDrainreq col val)
/-- R365. -/
def execArenaWrite (col n : Nat) (hi : Bool) (val : Word) (s : State) : Host.Outcome State Fault Refusal :=
  regEvent (col < 64 && n < 16) s (s.writeArena col n hi val)
/-- R408. -/
def execPinmapWrite (n : Nat) (hi : Bool) (val : Word) (s : State) : Host.Outcome State Fault Refusal :=
  regEvent (n < 64) s (s.writePinmap n hi val)
/-- R382. -/
def execGwinWrite (g : Nat) (hi : Bool) (val : Word) (s : State) : Host.Outcome State Fault Refusal :=
  regEvent (g < 256) s (s.writeGwin g hi val)

/-- A column core loads a register of a control page (R362). -/
def regLoad (col off : Nat) (s : State) : Host.Outcome State Fault Refusal :=
  if 64 ≤ col then .next s
  else
    let r := s.regRead col off
    .next (r.2.colRead col (0xF_8000_0010_0000 + col * 4096 + off) r.1)

/-- R364. -/
def execTaskqPop (col : Nat) (s : State) : Host.Outcome State Fault Refusal := regLoad col 0x060 s
/-- R364. -/
def execSuspqPop (col : Nat) (s : State) : Host.Outcome State Fault Refusal := regLoad col 0x070 s
/-- R381. -/
def execMigqPop (s : State) : Host.Outcome State Fault Refusal := regLoad 0 0x318 s
/-- R402. -/
def execRaslogPop (col : Nat) (s : State) : Host.Outcome State Fault Refusal := regLoad col 0x510 s
/-- R405. -/
def execPwrnowRead (s : State) : Host.Outcome State Fault Refusal := regLoad 0 0x608 s

/-- The wait of a column core has ended and is to be reported (R363). -/
def State.columnEnded (s : State) (col : Nat) : Option (Nat × WaitEnt) :=
  match s.columnEntry col with
  | none => none
  | some x => if x.2.ended then some x else none

/-- R363. -/
def execColumnWaitEnd (col : Nat) (s : State) : Host.Outcome State Fault Refusal :=
  match s.columnEnded col with
  | none => .next s
  | some (h, e) => .next ((s.modCol h (fun k => { k with waits := k.waits.filter (fun x => x != e) })).waitOver col e.val)

/-! ### COLUMN and HOST nodes -/

/-- The first column in R344's order (R347). -/
def State.taskCol (s : State) (w : NodeRec) : Nat :=
  let m := s.tileCols w
  (minBy (s.colKey m (s.firstCol m)) (List.range 64)).getD 0

/-- A COLUMN task can be handed over: its column's queue has room (R364). -/
def State.taskDue (s : State) (n : PoolNode) : Bool :=
  nrKind n.words == 3 && !n.refused && !n.taskOut && n.retired == 0 && (s.column (s.taskCol n.words)).taskq.length < 64

/-- R347, R364. -/
def execColumnTaskHandoff (node : Nat) (s : State) : Host.Outcome State Fault Refusal :=
  match s.poolNode? node with
  | none => .next s
  | some n =>
    if !s.taskDue n then .next s
    else
      let c := s.taskCol n.words
      let s := (s.runRec node).modNode node (fun n => { n with taskOut := true, since := s.cycle 0 })
      .next ((s.modCol c (fun k => { k with taskq := k.taskq ++ [node], tasks := k.tasks ++ [node] })).setInt c 1)

/-- Entries, tail and head of the host's ring (R373). -/
def State.ringFull (s : State) : Bool :=
  let n := fld s.hnqctl.toNat 0 16
  n = 0 || (fld s.hnqctl.toNat 16 16 + 1) % n == fld s.hnqctl.toNat 32 16 % n

/-- The notification of a HOST node can go on: it is to be passed to the port, or the ring has room, or there is no ring. -/
def State.notifyDue (s : State) (n : PoolNode) : Bool :=
  nrKind n.words == 4 && !n.refused && !n.notified && (nrState (s.nodeAt n.node) == 2 || s.hnqbase == 0 || !s.ringFull)

/-- R347, R373: the node is RUNNING once its notification is passed to the port; the port then writes the entry, raises vector
64 and advances TAIL. -/
def execHostNotification (node : Nat) (s : State) : Host.Outcome State Fault Refusal :=
  match s.poolNode? node with
  | none => .next s
  | some n =>
    if !s.notifyDue n then .next s
    else if nrState (s.nodeAt node) = 2 then .next (s.runRec node)
    else if s.hnqbase = 0 then .next (s.modNode node (fun n => { n with notified := true, failed := some 0x01 }))
    else
      let tail := fld s.hnqctl.toNat 16 16
      let s := { s with notes := mapPut (s.hnqbase.toNat + 8 * tail) (nrSelf n.words) s.notes, vectors := s.vectors ++ [64],
                        hnqctl := wordOf (setFld s.hnqctl.toNat 16 16 ((tail + 1) % fld s.hnqctl.toNat 0 16)) }
      .next (s.modNode node (fun n => { n with notified := true }))

end Sys2Proof.Machine
end

