-- ==== Sys2Proof/Machine/IntOps.lean ====
section
/-! DEFINITION. The integer instructions of the Lane ALU (R126, R129 to R138). -/

namespace Sys2Proof.Machine

/-- An instruction whose element result is a function of the elements of A and B, cut under R126. -/
def int2 (o : Ops) (ty : Ty) (sat : Bool) (s : State) (f : Nat → Nat → Int) : Host.Outcome State Fault Refusal :=
  aluRun o {} s (fun r l => intRes ty (fun i => cut ty sat (f (r.ea ty l i) (r.eb ty l i))))

/-- An instruction whose element result is a function of the element of A. -/
def int1 (o : Ops) (ty : Ty) (sat : Bool) (s : State) (f : Nat → Int) : Host.Outcome State Fault Refusal :=
  aluRun o {} s (fun r l => intRes ty (fun i => cut ty sat (f (r.ea ty l i))))

/-- The greatest value of a type (R115). -/
def tyHi (ty : Ty) : Int := intHi (tySigned ty) (tyW ty)
/-- The least value of a type. -/
def tyLo (ty : Ty) : Int := intLo (tySigned ty) (tyW ty)

/-- Division that truncates towards zero (R126). -/
def divZ (a b : Int) : Int := a.sign * b.sign * ((a.natAbs / b.natAbs : Nat) : Int)

/-- Quotient of R129. -/
def divI (ty : Ty) (sat : Bool) (a b : Int) : Int :=
  if b = 0 then (if tySigned ty then -1 else tyHi ty)
  else if tySigned ty && a = tyLo ty && b = -1 then (if sat then tyHi ty else tyLo ty)
  else divZ a b

/-- Remainder of R129. -/
def remI (ty : Ty) (a b : Int) : Int :=
  if b = 0 then a
  else if tySigned ty && a = tyLo ty && b = -1 then 0
  else a - b * divZ a b

/-- Least of two. -/
def minI (a b : Int) : Int := if b < a then b else a
/-- Greatest of two. -/
def maxI (a b : Int) : Int := if a < b then b else a

/-- R129. -/
def execAdd (o : Ops) (ty : Ty) (sat : Bool) (s : State) : Host.Outcome State Fault Refusal :=
  int2 o ty sat s (fun a b => valI ty a + valI ty b)
/-- R129. -/
def execSub (o : Ops) (ty : Ty) (sat : Bool) (s : State) : Host.Outcome State Fault Refusal :=
  int2 o ty sat s (fun a b => valI ty a - valI ty b)
/-- R129. -/
def execMul (o : Ops) (ty : Ty) (sat : Bool) (s : State) : Host.Outcome State Fault Refusal :=
  int2 o ty sat s (fun a b => valI ty a * valI ty b)
/-- R129: the upper half of the product. -/
def execMulh (o : Ops) (ty : Ty) (s : State) : Host.Outcome State Fault Refusal :=
  int2 o ty false s (fun a b => (valI ty a * valI ty b).fdiv ((2 ^ tyW ty : Nat) : Int))
/-- R131. -/
def execMad (o : Ops) (ty : Ty) (sat : Bool) (s : State) : Host.Outcome State Fault Refusal :=
  aluRun o {} s (fun r l => intRes ty (fun i =>
    cut ty sat (valI ty (r.ea ty l i) * valI ty (r.eb ty l i) + valI ty (r.ec ty l i))))
/-- R131: C and the result have 64 bits. -/
def execMadw (o : Ops) (ty : Ty) (sat : Bool) (s : State) : Host.Outcome State Fault Refusal :=
  aluRun o {} s (fun r l =>
    let w : Ty := if tySigned ty then .i64 else .n64
    { val := place w [cut w sat (valI ty (r.ea ty l 0) * valI ty (r.eb ty l 0) + valI w (r.ec w l 0))] })
/-- R129. -/
def execDiv (o : Ops) (ty : Ty) (sat : Bool) (s : State) : Host.Outcome State Fault Refusal :=
  int2 o ty sat s (fun a b => divI ty sat (valI ty a) (valI ty b))
/-- R129. -/
def execRem (o : Ops) (ty : Ty) (s : State) : Host.Outcome State Fault Refusal :=
  int2 o ty false s (fun a b => remI ty (valI ty a) (valI ty b))
/-- R129. -/
def execMin (o : Ops) (ty : Ty) (s : State) : Host.Outcome State Fault Refusal :=
  int2 o ty false s (fun a b => minI (valI ty a) (valI ty b))
/-- R129. -/
def execMax (o : Ops) (ty : Ty) (s : State) : Host.Outcome State Fault Refusal :=
  int2 o ty false s (fun a b => maxI (valI ty a) (valI ty b))

/-- A change of the sign bit of float elements; a NaN becomes canonical (R130). -/
def signOp (o : Ops) (ty : Ty) (s : State) (neg : Bool) : Host.Outcome State Fault Refusal :=
  aluRun o {} s (fun r l => intRes ty (fun i =>
    let f := tyFmt ty
    let x := r.ea ty l i
    if (unpackF f x).isNan then (nanRes f 0).1 else withSign f (neg && !fmtSign f x) (fmtMag f x)))

/-- R130. -/
def execAbs (o : Ops) (ty : Ty) (sat : Bool) (s : State) : Host.Outcome State Fault Refusal :=
  if tyInt ty then int1 o ty sat s (fun a => ((valI ty a).natAbs : Int)) else signOp o ty s false
/-- R130. -/
def execNeg (o : Ops) (ty : Ty) (sat : Bool) (s : State) : Host.Outcome State Fault Refusal :=
  if tyInt ty then int1 o ty sat s (fun a => -valI ty a) else signOp o ty s true
/-- R129. -/
def execAnd (o : Ops) (ty : Ty) (s : State) : Host.Outcome State Fault Refusal :=
  int2 o ty false s (fun a b => ((a &&& b : Nat) : Int))
/-- R129. -/
def execOr (o : Ops) (ty : Ty) (s : State) : Host.Outcome State Fault Refusal :=
  int2 o ty false s (fun a b => ((a ||| b : Nat) : Int))
/-- R129. -/
def execXor (o : Ops) (ty : Ty) (s : State) : Host.Outcome State Fault Refusal :=
  int2 o ty false s (fun a b => ((a ^^^ b : Nat) : Int))

/-- Bitwise complement in `w` bits. -/
def notN (w x : Nat) : Nat := 2 ^ w - 1 - x % 2 ^ w

/-- R130. -/
def execNot (o : Ops) (ty : Ty) (s : State) : Host.Outcome State Fault Refusal :=
  int1 o ty false s (fun a => (notN (tyW ty) a : Int))
/-- R129: A and not B. -/
def execAndn (o : Ops) (ty : Ty) (s : State) : Host.Outcome State Fault Refusal :=
  int2 o ty false s (fun a b => ((a &&& notN (tyW ty) b : Nat) : Int))
/-- R129, R126: the amount is taken modulo the width. -/
def execShl (o : Ops) (ty : Ty) (sat : Bool) (s : State) : Host.Outcome State Fault Refusal :=
  int2 o ty sat s (fun a b => valI ty a * ((2 ^ (b % tyW ty) : Nat) : Int))
/-- R129. -/
def execShr (o : Ops) (ty : Ty) (s : State) : Host.Outcome State Fault Refusal :=
  int2 o ty false s (fun a b => ((a / 2 ^ (b % tyW ty) : Nat) : Int))
/-- R129. -/
def execSra (o : Ops) (ty : Ty) (s : State) : Host.Outcome State Fault Refusal :=
  int2 o ty false s (fun a b => (sextN (tyW ty) a).fdiv ((2 ^ (b % tyW ty) : Nat) : Int))
/-- R129. -/
def execRot (o : Ops) (ty : Ty) (s : State) : Host.Outcome State Fault Refusal :=
  int2 o ty false s (fun a b =>
    let n := b % tyW ty
    ((a * 2 ^ n % 2 ^ tyW ty + a / 2 ^ (tyW ty - n) : Nat) : Int))

/-- Leading zero bits of a `w`-bit pattern; `w` for 0 (R130). -/
def clzN (w x : Nat) : Nat := if x = 0 then w else w - 1 - Nat.log2 x
/-- Trailing zero bits of a `w`-bit pattern. -/
def ctzN (w x : Nat) : Nat := ((List.range w).find? (fun i => bitN x i)).getD w
/-- Number of one bits. -/
def popN (w x : Nat) : Nat := ((List.range w).filter (fun i => bitN x i)).length
/-- The bits in reverse order. -/
def brevN (w x : Nat) : Nat := ((List.range w).filter (fun i => bitN x i)).foldl (fun a i => a + 2 ^ (w - 1 - i)) 0

/-- R130. -/
def execClz (o : Ops) (ty : Ty) (s : State) : Host.Outcome State Fault Refusal :=
  int1 o ty false s (fun a => (clzN (tyW ty) a : Int))
/-- R130. -/
def execPopc (o : Ops) (ty : Ty) (s : State) : Host.Outcome State Fault Refusal :=
  int1 o ty false s (fun a => (popN (tyW ty) a : Int))
/-- R130. -/
def execBrev (o : Ops) (ty : Ty) (s : State) : Host.Outcome State Fault Refusal :=
  int1 o ty false s (fun a => (brevN (tyW ty) a : Int))
/-- R130. -/
def execCtz (o : Ops) (ty : Ty) (s : State) : Host.Outcome State Fault Refusal :=
  int1 o ty false s (fun a => (ctzN (tyW ty) a : Int))

/-- The field of R132. -/
def bfxN (ty : Ty) (a b c : Nat) : Int :=
  let p := min b (tyW ty)
  let l := min c (tyW ty - p)
  let f := a / 2 ^ p % 2 ^ l
  if l = 0 then 0 else if tySigned ty then sextN l f else (f : Int)

/-- R132. -/
def execBfx (o : Ops) (ty : Ty) (s : State) : Host.Outcome State Fault Refusal :=
  aluRun o {} s (fun r l => intRes ty (fun i => cut ty false (bfxN ty (r.ea ty l i) (r.eb ty l i) (r.ec ty l i))))
/-- R132. -/
def execBfi (o : Ops) (ty : Ty) (pos len : Nat) (s : State) : Host.Outcome State Fault Refusal :=
  int2 o ty false s (fun a b => (setFld b pos len a : Int))

/-- A byte of D of prmt (R133): `v` is the 16-byte value, `k` the control byte. -/
def prmtByte (v k : Nat) : Nat :=
  let sel := fld v (8 * fld k 0 4) 8
  let x := if bitN k 4 then 0 else if bitN k 5 then (if bitN sel 7 then 0xFF else 0) else sel
  if bitN k 6 then 0xFF - x else x

/-- R133. -/
def execPrmt (o : Ops) (s : State) : Host.Outcome State Fault Refusal :=
  aluRun o {} s (fun r l =>
    let v := (r.b l).toNat * 2 ^ 64 + (r.a l).toNat
    { val := wordOf (packBits 8 ((List.range 8).map (fun j => prmtByte v (wfld (r.cc l) (8 * j) 8)))) })

/-- R134. -/
def execSel (o : Ops) (ty : Ty) (s : State) : Host.Outcome State Fault Refusal :=
  aluRun o {} s (fun r l =>
    if isPred o.c.op then
      { val := if (r.cc l).getLsbD 0 then whole ty o.a.op (r.a l) else whole ty o.b.op (r.b l) }
    else intRes ty (fun i => if r.ec ty l i != 0 then r.ea ty l i else r.eb ty l i))

/-- Integer comparison (R110, R135). -/
def cmpI (c : Cond) (a b : Int) : Bool :=
  match c with
  | .eq => a == b
  | .ne => a != b
  | .lt => decide (a < b)
  | .le => decide (a ≤ b)
  | .gt => decide (b < a)
  | .ge => decide (b ≤ a)

/-- A comparison's result (R135): a predicate, or all ones in each element for which it holds. -/
def maskRes (o : Ops) (ty : Ty) (f : Nat → Bool) : LRes :=
  if isPred o.d then { val := wordOf (bit (f 0)) } else intRes ty (fun i => if f i then 2 ^ tyW ty - 1 else 0)

/-- R135. -/
def execCmp (o : Ops) (ty : Ty) (cond : Cond) (s : State) : Host.Outcome State Fault Refusal :=
  aluRun o {} s (fun r l => maskRes o ty (fun i => cmpI cond (valI ty (r.ea ty l i)) (valI ty (r.eb ty l i))))

/-- Sum or difference with carry (R136) and the carry out. -/
def addcN (w : Nat) (sub : Bool) (a b ci : Nat) : Int × Bool :=
  if sub then ((a : Int) - b - ci, decide (a < b + ci)) else ((a + b + ci : Nat), decide (2 ^ w ≤ a + b + ci))

/-- R136: the carry-out predicate is written in the lanes that perform the instruction, and with 0 in the helper lanes whose fault is
discarded (R64); with a D that no lane writes by itself that is the model's choice (notes/assumptions/79). -/
def execAddc (o : Ops) (ty : Ty) (sub : Bool) (co : Option Nat) (s : State) : Host.Outcome State Fault Refusal :=
  withRun o { pred := co } s (fun r =>
    let f (l : Nat) : Int × Bool := addcN (tyW ty) sub (r.ea ty l 0) (r.eb ty l 0) (wfld (r.cc l) 0 1)
    let r := r.write (fun l => { val := place ty [truncN (tyW ty) (f l).1] })
    match co with
    | none => r.finish
    | some n =>
      let s := r.good.foldl (fun s l => s.modLane r.t r.c l (fun L => L.pPut n (f l).2)) r.s
      { r with s := r.failedHelpers.foldl (fun s l => s.modLane r.t r.c l (fun L => L.pPut n false)) s }.finish)

/-- R137. -/
def execLea (o : Ops) (sh : Nat) (sx : Bool) (s : State) : Host.Outcome State Fault Refusal :=
  aluRun o {} s (fun r l =>
    let b : Word := if sx then wordOfInt (sextN 32 (r.b l).toNat) else r.b l
    { val := r.a l + b * wordOf (2 ^ sh) + r.cc l })

/-- R130. -/
def execMov (o : Ops) (s : State) : Host.Outcome State Fault Refusal :=
  aluRun o {} s (fun r l => { val := r.a l })

/-- D of the F96-I form of ldi (R138). An FP6 type has elements of 8 bits here, whose bits [7:6] are kept as they are, which is the
model's choice (notes/assumptions/80). -/
def ldi32 (ty : Ty) (imm : Nat) : Word :=
  match ty with
  | .i64 => wordOfInt (sextN 32 imm)
  | .n64 => wordOf imm
  | .f64 => wordOf (imm * 2 ^ 32)
  | t => if tyN t = 1 then place t [imm % 2 ^ tyW t] else wordOf (imm + imm * 2 ^ 32)

/-- R138. -/
def execLdiF96 (o : Ops) (ty : Ty) (imm : BitVec 32) (s : State) : Host.Outcome State Fault Refusal :=
  aluRun o {} s (fun _ _ => { val := ldi32 ty imm.toNat })
/-- R138; the type does not matter. -/
def execLdiF128 (o : Ops) (ty : Ty) (imm : Word) (s : State) : Host.Outcome State Fault Refusal :=
  aluRun o {} s (fun _ _ => { val := match ty with | _ => imm })

end Sys2Proof.Machine
end

