-- ==== Sys2Proof/Machine/FloatOps.lean ====
section
/-! DEFINITION. The float instructions (R139 to R149) and the conversions (R150 to R153) of the Lane ALU. -/

namespace Sys2Proof.Machine

/-- A float instruction over the elements of A and B. -/
def flt2 (o : Ops) (ty : Ty) (s : State) (f : Nat → Nat → FRes) : Host.Outcome State Fault Refusal :=
  aluRun o {} s (fun r l => fltMap ty (fun i => f (r.ea ty l i) (r.eb ty l i)))

/-- A float instruction over the elements of A. -/
def flt1 (o : Ops) (ty : Ty) (s : State) (f : Nat → FRes) : Host.Outcome State Fault Refusal :=
  aluRun o {} s (fun r l => fltMap ty (fun i => f (r.ea ty l i)))

/-- R139. -/
def execFadd (o : Ops) (m : FMod) (s : State) : Host.Outcome State Fault Refusal :=
  flt2 o m.ty s (faddE (tyFmt m.ty) m.rm m.ftz false)
/-- R139. -/
def execFsub (o : Ops) (m : FMod) (s : State) : Host.Outcome State Fault Refusal :=
  flt2 o m.ty s (faddE (tyFmt m.ty) m.rm m.ftz true)
/-- R139. -/
def execFmul (o : Ops) (m : FMod) (s : State) : Host.Outcome State Fault Refusal :=
  flt2 o m.ty s (fmulE (tyFmt m.ty) m.rm m.ftz)
/-- R139. -/
def execFfma (o : Ops) (m : FMod) (s : State) : Host.Outcome State Fault Refusal :=
  aluRun o {} s (fun r l => fltMap m.ty (fun i =>
    ffmaE (tyFmt m.ty) m.rm m.ftz (r.ea m.ty l i) (r.eb m.ty l i) (r.ec m.ty l i)))
/-- R140. -/
def execFmin (o : Ops) (m : FMod) (nan : Bool) (s : State) : Host.Outcome State Fault Refusal :=
  flt2 o m.ty s (fminE (tyFmt m.ty) m.ftz false nan)
/-- R140. -/
def execFmax (o : Ops) (m : FMod) (nan : Bool) (s : State) : Host.Outcome State Fault Refusal :=
  flt2 o m.ty s (fminE (tyFmt m.ty) m.ftz true nan)

/-- R141. -/
def execFcmp (o : Ops) (m : FMod) (cond : FCond) (s : State) : Host.Outcome State Fault Refusal :=
  aluRun o {} s (fun r l =>
    let f (i : Nat) : Bool × Nat := fcmpE (tyFmt m.ty) m.ftz cond (r.ea m.ty l i) (r.eb m.ty l i)
    let els := (idxs m.ty).map (fun i => (f i).2)
    { maskRes o m.ty (fun i => (f i).1) with flags := els.foldl (fun a x => a ||| x) 0, elems := els })

/-- R142. -/
def execFclass (o : Ops) (m : FMod) (s : State) : Host.Outcome State Fault Refusal :=
  flt1 o m.ty s (fun a => (fclassE (tyFmt m.ty) m.ftz a, 0))
/-- R143. -/
def execFrnd (o : Ops) (m : FMod) (nx : Bool) (s : State) : Host.Outcome State Fault Refusal :=
  flt1 o m.ty s (frndE (tyFmt m.ty) m.rm m.ftz nx)
/-- R144. -/
def execFdiv (o : Ops) (m : FMod) (s : State) : Host.Outcome State Fault Refusal :=
  flt2 o m.ty s (fdivE (tyFmt m.ty) m.rm m.ftz)
/-- R144. -/
def execFsqrt (o : Ops) (m : FMod) (s : State) : Host.Outcome State Fault Refusal :=
  flt1 o m.ty s (fsqrtE (tyFmt m.ty) m.rm m.ftz)
/-- R147 to R149. -/
def execFrcp (o : Ops) (m : FMod) (s : State) : Host.Outcome State Fault Refusal :=
  flt1 o m.ty s (sfnE (tyFmt m.ty) .rcp m.ftz)
/-- R147 to R149. -/
def execFrsq (o : Ops) (m : FMod) (s : State) : Host.Outcome State Fault Refusal :=
  flt1 o m.ty s (sfnE (tyFmt m.ty) .rsq m.ftz)
/-- R147 to R149. -/
def execFex2 (o : Ops) (m : FMod) (s : State) : Host.Outcome State Fault Refusal :=
  flt1 o m.ty s (sfnE (tyFmt m.ty) .ex2 m.ftz)
/-- R147 to R149. -/
def execFlg2 (o : Ops) (m : FMod) (s : State) : Host.Outcome State Fault Refusal :=
  flt1 o m.ty s (sfnE (tyFmt m.ty) .lg2 m.ftz)
/-- R147 to R149. -/
def execFsin (o : Ops) (m : FMod) (s : State) : Host.Outcome State Fault Refusal :=
  flt1 o m.ty s (sfnE (tyFmt m.ty) .sin m.ftz)
/-- R147 to R149. -/
def execFcos (o : Ops) (m : FMod) (s : State) : Host.Outcome State Fault Refusal :=
  flt1 o m.ty s (sfnE (tyFmt m.ty) .cos m.ftz)
/-- R147 to R149. -/
def execFtanh (o : Ops) (m : FMod) (s : State) : Host.Outcome State Fault Refusal :=
  flt1 o m.ty s (sfnE (tyFmt m.ty) .tanh m.ftz)

/-- R145: one binary32 result per pair of source elements. -/
def execFdot2 (o : Ops) (m : FMod) (s : State) : Host.Outcome State Fault Refusal :=
  aluRun o {} s (fun r l =>
    let f := tyFmt m.ty
    let u (x : Nat) : FV := unpackF f (ftzSrc f m.ftz x)
    let ct : Ty := if m.ty == .f32x2 then .f32 else .f32x2
    let res (j : Nat) : FRes :=
      fmaFV fmtF32 m.rm m.ftz
        [(u (r.ea m.ty l (2 * j)), u (r.eb m.ty l (2 * j))), (u (r.ea m.ty l (2 * j + 1)), u (r.eb m.ty l (2 * j + 1)))]
        (unpackF fmtF32 (ftzSrc fmtF32 m.ftz (r.ec ct l j)))
    fltRes ct ((List.range (tyN m.ty / 2)).map res))

/-- R146: B is a signed integer of the element's width. -/
def execFscal (o : Ops) (m : FMod) (s : State) : Host.Outcome State Fault Refusal :=
  aluRun o {} s (fun r l => fltMap m.ty (fun i =>
    let n : Int := match o.b.op with
      | .imm b => sextN 8 b.toNat
      | _ => sextN (tyW m.ty) (wfld (r.b l) (tyW m.ty * i) (tyW m.ty))
    fscalE (tyFmt m.ty) m.rm m.ftz (r.ea m.ty l i) n))

/-! ### Conversions -/

/-- One element converted (R125). -/
def convE (dt st : Ty) (rm : RM) (a : Nat) : FRes :=
  if tyInt dt then
    if tyInt st then (cut dt true (valI st a), 0)
    else
      let (z, f) := cvtFI (tyFmt st) (tySigned dt) (tyW dt) rm a
      (truncN (tyW dt) z, f)
  else if tyInt st then cvtIF (tyFmt dt) rm (valI st a)
  else cvtFF (tyFmt dt) (tyFmt st) rm a

/-- R150. -/
def execCvt (o : Ops) (dt st : Ty) (rm : RM) (s : State) : Host.Outcome State Fault Refusal :=
  aluRun o {} s (fun r l => fltRes dt ((idxs st).map (fun i => convE dt st rm (r.ea st l i))))

/-- R153, MODE 0. -/
def execCvtmxQ (o : Ops) (dt st : Ty) (rm : RM) (s : State) : Host.Outcome State Fault Refusal :=
  aluRun o {} s (fun r l =>
    let sc := wfld (r.cc l) 0 8
    let src := (idxs st).map (r.ea st l) ++ (idxs st).map (r.eb st l)
    fltRes dt (src.map (fun x => mxQuant dt rm sc (unpackF (tyFmt st) x))))

/-- R153, MODE 1. -/
def execCvtmxD (o : Ops) (dt st : Ty) (rm : RM) (grp : Nat) (s : State) : Host.Outcome State Fault Refusal :=
  aluRun o {} s (fun r l =>
    let sc := wfld (r.cc l) 0 8
    fltRes dt ((idxs dt).map (fun j => mxDequant (tyFmt dt) st rm sc (r.ea st l (tyN dt * grp + j)))))

/-- R153, MODE 2. -/
def execCvtmxS (o : Ops) (dt : Ty) (s : State) : Host.Outcome State Fault Refusal :=
  aluRun o {} s (fun r l => { val := wordOf (mxScale dt (r.ea .f32 l 0)) })

/-- R151. -/
def execPk (o : Ops) (dt st : Ty) (rm : RM) (s : State) : Host.Outcome State Fault Refusal :=
  aluRun o {} s (fun r l =>
    fltRes dt ((idxs st).map (fun i => convE dt st rm (r.ea st l i)) ++
               (idxs st).map (fun i => convE dt st rm (r.eb st l i))))

/-- R152: only NV of a signalling NaN is raised. -/
def execUpk (o : Ops) (dt st : Ty) (hi : Bool) (s : State) : Host.Outcome State Fault Refusal :=
  aluRun o {} s (fun r l =>
    let base := if hi then tyN dt else 0
    fltRes dt ((idxs dt).map (fun i =>
      let x := convE dt st .rne (r.ea st l (base + i))
      (x.1, x.2 &&& fNV))))

end Sys2Proof.Machine
end

