-- ==== Sys2Proof/Machine/CrossLane.lean ====
section
/-! DEFINITION. Cross-lane and quad instructions (R154 to R158). -/

namespace Sys2Proof.Machine

/-- Source A of a participant fails an operand check of R70, so that the spec states no value for it. -/
def Run.noA (r : Run) (m : Nat) : Bool := (fieldFault r.T.split.regs (r.L m) r.o.ib 1 r.o.a.op).isSome

/-- Source A of a participant as other lanes read it: a free value where an operand check of R70 leaves none
(notes/assumptions/28). -/
def Run.xa (r : Run) (m : Nat) : Word := if r.noA m then Config.freeWord (r.s0.fresh + m) else r.a m

/-- Element `i` of source A of a participant. -/
def Run.xe (r : Run) (ty : Ty) (m i : Nat) : Nat := elem ty r.o.a.op (r.xa m) i

/-- The contributors (R154). -/
def Run.contributors (r : Run) : List Nat := r.on.filter r.live

/-- A fault of class `cls` in the lanes where `bad` holds, in the place of those of the classes `after`, which come later. -/
def Run.instead (r : Run) (after : List Nat) (bad : Nat → Bool) (cls reason : Nat) : Run :=
  { r with flt := r.flt.filter (fun p => !(after.contains p.2.cls && bad p.1)) }.check r.on (fun l =>
    if bad l then some { cls := cls, reason := reason, detail := specOf r.o.a.op } else none)

/-- What a writer meets whose result would read an A, its own or another participant's, that is empty (R154) or uncorrectable (R400): EMPTY
or MEMERR, each before one of its kind of a later field. That MEMERR is judged like EMPTY, in the writers that read the register, is the
model's choice (notes/assumptions/62). Which A a `shfl` reads in a writer whose own B is empty is not stated: the model goes by what that
register last held (notes/assumptions/94). -/
def Run.judgeA (r : Run) (reads : Nat → List Nat) : Run :=
  (r.instead [0x05, 0x17] (fun l => (reads l).any (fun m => !srcFull r.T (r.L m) (fun n => (r.head n).isSome) r.o.ib r.o.a.op)) 0x05 0x01).instead
    [0x17] (fun l => (reads l).any (fun m => srcBad r.T (r.L m) r.o.ib r.o.a.op)) 0x17 0x05

/-- A cross-lane instruction: `reads` are the lanes whose A a writer's result reads. -/
def crossRun (o : Ops) (s : State) (reads : Run → Nat → List Nat) (res : Run → Nat → LRes) :
    Host.Outcome State Fault Refusal :=
  withRun o { ownA := true } s (fun r =>
    let r := (r.judgeA (reads r)).write (res r)
    let r := if r.act.any r.noA then { r with s := { r.s with fresh := r.s.fresh + 32 } } else r
    r.finish)

/-- A lane if it is a participant, otherwise the writer's own lane (R155, R156). -/
def Run.orOwn (r : Run) (l src : Nat) : Nat := if r.act.contains src then src else l

/-- Source lane of shfl (R155). -/
def shflSrc (mode seg l : Nat) (b : Word) : Nat :=
  let S := segSize seg
  let q := l - l % S
  let i := l % S
  match mode with
  | 0 => q + b.toNat % S
  | 1 => q + (i + b.toNat) % S
  | 2 => q + (S - 1 - i + b.toNat) % S
  | _ => q + (i ^^^ (b.toNat % S))

/-- A whole register read from a source lane. -/
def moveRun (o : Ops) (s : State) (src : Run → Nat → Nat) : Host.Outcome State Fault Refusal :=
  crossRun o s (fun r l => [r.orOwn l (src r l)]) (fun r l => { val := r.xa (r.orOwn l (src r l)) })

/-- R155. -/
def execShfl (o : Ops) (mode seg : Nat) (s : State) : Host.Outcome State Fault Refusal :=
  moveRun o s (fun r l => shflSrc mode seg l (r.b l))
/-- R156. -/
def execQx (o : Ops) (mode : Nat) (s : State) : Host.Outcome State Fault Refusal :=
  moveRun o s (fun _ l => l ^^^ (mode + 1))
/-- R156. -/
def execQbc (o : Ops) (lane : Nat) (s : State) : Host.Outcome State Fault Refusal :=
  moveRun o s (fun _ l => 4 * (l / 4) + lane)

/-- One step of a combination (R157). -/
def combine (ty : Ty) (op : COp) (a b : Nat) : FRes :=
  if tyInt ty then
    (match op with
     | .add => cut ty false (valI ty a + valI ty b)
     | .min => cut ty false (minI (valI ty a) (valI ty b))
     | .max => cut ty false (maxI (valI ty a) (valI ty b))
     | .and => a &&& b
     | .or => a ||| b
     | .xor => a ^^^ b, 0)
  else match op with
    | .min => fminE (tyFmt ty) false false false a b
    | .max => fminE (tyFmt ty) false true false a b
    | _ => faddE (tyFmt ty) .rne false false a b

/-- The identity of a combination (R157). -/
def identE (ty : Ty) (op : COp) : Nat :=
  if tyInt ty then
    match op with
    | .min => truncN (tyW ty) (tyHi ty)
    | .max => truncN (tyW ty) (tyLo ty)
    | .and => 2 ^ tyW ty - 1
    | _ => 0
  else match op with
    | .min => withSign (tyFmt ty) false (fmtInf (tyFmt ty))
    | .max => withSign (tyFmt ty) true (fmtInf (tyFmt ty))
    | _ => 0

/-- A contributor's element as a result: a NaN is canonical, and NV is set by a signalling one (R119). -/
def contributed (ty : Ty) (x : Nat) : FRes :=
  if tyInt ty then (x, 0)
  else match unpackF (tyFmt ty) x with
    | .nan s => nanRes (tyFmt ty) (if s then fNV else 0)
    | _ => (x, 0)

/-- A left-to-right combination with the flags of its steps (R157). -/
def combineAll (ty : Ty) (op : COp) : List Nat → FRes
  | [] => (identE ty op, 0)
  | x :: xs => xs.foldl (fun a y => let z := combine ty op a.1 y; (z.1, a.2 ||| z.2)) (contributed ty x)

/-- The contributors that a writer combines. -/
def Run.combined (r : Run) (seg l : Nat) (upto : Option Bool) : List Nat :=
  r.contributors.filter (fun m => sameSeg seg l m && match upto with
    | none => true
    | some excl => if excl then m < l else m ≤ l)

/-- A reduction or scan (R157). -/
def combineRun (o : Ops) (ty : Ty) (op : COp) (seg : Nat) (upto : Option Bool) (s : State) :
    Host.Outcome State Fault Refusal :=
  crossRun o s (fun r l => r.combined seg l upto) (fun r l =>
    fltMap ty (fun i => combineAll ty op ((r.combined seg l upto).map (fun m => r.xe ty m i))))

/-- R157. -/
def execCredc (o : Ops) (ty : Ty) (op : COp) (seg : Nat) (s : State) : Host.Outcome State Fault Refusal :=
  combineRun o ty op seg none s
/-- R157. -/
def execCscan (o : Ops) (ty : Ty) (op : COp) (seg : Nat) (excl : Bool) (s : State) : Host.Outcome State Fault Refusal :=
  combineRun o ty op seg (some excl) s

/-- R158. -/
def execMatchx (o : Ops) (ty : Ty) (seg : Nat) (s : State) : Host.Outcome State Fault Refusal :=
  crossRun o s (fun r l => l :: r.combined seg l none) (fun r l =>
    { val := wordOf (maskOf ((r.combined seg l none).filter (fun m => r.xe ty m 0 == r.xe ty l 0))) })

end Sys2Proof.Machine
end

