-- ==== Sys2Proof/Machine/Service.lean ====
section
/-! DEFINITION. Atomics (R232 to R236), transactions (R237 to R244) and device-side allocation (R245 to R247), at the issuing
core and at their owner. -/

namespace Sys2Proof.Machine

/-! ### Requests -/

/-- The column whose service course takes a request (R228, R246). -/
def State.ownerOf (s : State) (f : Flight) : Nat := if f.kind == .dalloc then coreCol f.core else s.home f.pa

/-- The kinds of request that a service course takes. -/
def Flight.isRequest (f : Flight) : Bool := f.fmode == 0 && (f.kind == .atom || f.kind == .txe || f.kind == .dalloc)

/-- The requests in a column's queue (R230). -/
def State.requestQueue (s : State) (col : Nat) : List Flight := s.flights.filter (fun g => g.isRequest && g.stage == 1 && s.ownerOf g == col)

/-- The generation of a request is current; an allocation names no page. -/
def State.requestOk (s : State) (f : Flight) : Bool := f.kind == .dalloc || s.genOk f

/-- A request goes before the later ones of its core to its owner, and each lane of an instruction before the higher ones (R228,
R230); one that still waits to be sent, or is refused, holds only the lanes of its own instruction, and so does one that the queue holds
under an old generation, which will be refused (R31). -/
def State.requestFirst (s : State) (f : Flight) : Bool :=
  !s.flights.any (fun g => g.id < f.id && g.isRequest && g.core == f.core &&
    ((g.ins == f.ins && g.team == f.team && g.crs == f.crs && (g.stage == 0 || (g.stage == 1 && !s.requestOk g))) ||
     (g.stage == 0 && s.ownerOf g == s.ownerOf f && s.requestOk g && s.ready g)))

/-- A request may enter its owner's queue, which has room for 256 (R220, R230). -/
def State.mayEnter (s : State) (f : Flight) : Bool :=
  f.stage == 0 && s.requestOk f && s.ready f && s.requestFirst f && (s.requestQueue (s.ownerOf f)).length < 256 &&
  s.sliceFree (s.ownerOf f) f.core

/-- A request enters its owner's queue (R230). -/
def State.enterQueue (s : State) (f : Flight) : State :=
  (State.modFlight { s with nextId := s.nextId + 1 } f.id (fun g => { g with stage := 1, acc := s.nextId })).take (s.ownerOf f) f.core

/-- A request is sent (R230); whether it has reached its queue by the end of the step is open (notes/assumptions/69). -/
def State.request (s : State) (f : Flight) : State :=
  let g := { f with id := s.nextId }
  if g.isRequest && Config.arrives s.tick && s.mayEnter g then (s.send { g with stage := 1, acc := g.id }).take (s.ownerOf g) f.core
  else s.send f

/-- The owner performs the request next: it is the oldest of the queue, or it arrives where the queue is empty (R228, R230). -/
def State.requestNext (s : State) (f : Flight) : Bool :=
  let q := s.requestQueue (s.ownerOf f)
  if f.stage == 1 then s.requestOk f && q.all (fun g => f.acc ≤ g.acc) else q.isEmpty && s.mayEnter f

/-- The owner can take a request of this kind, to its queue or to perform it. -/
def State.requestDue (s : State) (f : Flight) (k : FKind) : Bool :=
  f.kind == k && f.fmode == 0 && (s.requestNext f || s.mayEnter f)

/-- The owner has performed a request: the slice takes one that did not come out of the queue, for which its turn has passed (R220). -/
def State.takeNew (s : State) (col : Nat) (f : Flight) : State := if f.stage = 1 then s else s.take col f.core

/-- A request enters its owner's queue, or is performed, with what `act` then leaves. -/
def State.serve (s : State) (f : Flight) (act : State) : State :=
  if s.requestNext f then act.takeNew (s.ownerOf f) f else s.enterQueue f

/-! ### Atomics -/

/-- R234. -/
def execAtom (o : Ops) (op : AOp) (ty : Ty) (ord : Ord) (scope : Scope) (off : Int) (s : State) : Host.Outcome State Fault Refusal :=
  withRun o { helps := false } s (fun r =>
    match r.access r.goodLive .atomic (tyBytes ty) (r.xa0 off) with
    | .parked s => s
    | .go r acc =>
      let r := r.checkAcc acc uncachedFault
      let r := r.checkAcc acc r.s0.glazeFault
      let r := r.checkAcc acc (r.globLock (tyBytes ty) false)
      { r with s := (r.passed acc).foldl (fun (s : State) (a : Acc) => ((s.modCore r.core
          (fun k => if pteFmode a.e.pte = 0 then k.l1Drop a.pa else k)).farWrite r.core (pteFmode a.e.pte) (ptePeer a.e.pte) a.pa
          (tyBytes ty)).request { r.flight .atom a with
          size := tyBytes ty, aop := op, ty := ty, scope := scopeCode scope, acq := ord.acq, rel := ord.rel, dest := r.destOf a.l,
          data := wordOf (opPattern ty o.b.op (r.b a.l)), cmp := wordOf (opPattern ty o.c.op (r.cc a.l)),
          after := s.orders r.t r.c a.l 0 (ord.acq || ord.rel) (if ord.rel then some scope else none) }) r.s }.finish)

/-- A request is answered: its value waits for the reply. -/
def State.answer (s : State) (id : Nat) (v : Word) : State := s.modFlight id (fun f => { f with stage := 2, val := v })

/-- An atomic is performed by its owner (R234, R235, R205, R400). A failing `cas` writes nothing and counts as a read. -/
def State.atomAt (s : State) (f : Flight) : State :=
  if s.beyondWindow f.pa then ((s.land f 0 false).dropFlight f.id).defer f 0x0A 0x87 f.va
  else if s.poisoned f.pa f.size then ((s.land f 0 false).dropFlight f.id).defer f 0x17 (s.poisonReason f.pa) f.va
  else
    let home := s.home f.pa
    let old := memRead s.mem f.pa f.size
    let s := s.answer f.id (extOld f.ty old)
    if f.aop == .cas && old != f.cmp.toNat then
      (if isWindow f.pa then s else s.countRead home (colTower (coreCol f.core)) (regionOf f.pa))
    else s.homeWrite f.pa (leBytes f.size (aopNew f.aop f.ty old f.data.toNat f.cmp.toNat)) (some f.id)

/-- R228, R234. -/
def execAtomAtOwner (id : Nat) (s : State) : Host.Outcome State Fault Refusal :=
  match s.flight? id with
  | none => .next s
  | some f => if s.requestDue f .atom then .next (s.serve f (s.atomAt f)) else .next s

/-- The writes of a request are performed at its scope (R211, R234, R243). -/
def State.replyDue (s : State) (f : Flight) : Bool :=
  (f.kind == .atom || f.kind == .txe || f.kind == .dalloc) && f.stage == 2 && f.after.all (fun p => s.performedAt p.1 p.2) &&
  (if f.scope ≤ 3 then true
   else if f.scope ≤ 5 then !s.invalOpen f.id (fun c => c / 16 == coreCol f.core / 16)
   else !s.invalOpen f.id (fun _ => true))

/-- The outcome predicate of a reply (R243, R246). -/
def Flight.outcome (f : Flight) : Bool :=
  match f.kind with
  | .txe => f.val.toNat % 256 == 0
  | .dalloc => f.count == 1
  | _ => false

/-- The lines of a request leave its core's L1: what another access of the core filled since its issue may be older than what the
request wrote (R210). -/
def Core.dropLines (k : Core) (f : Flight) : Core :=
  if f.fmode = 0 then { k with l1 := k.l1.filter (fun x => !(f.pa / 64 ≤ x.line && x.line * 64 < f.pa + f.size)) } else k

/-- A reply fills its destination (R231); what is not yet performed at device scope stays under way as a write, which has its home ack
once its own tower's replica has removed the granules (R208, R211), and an acquire takes place (R235, R243). -/
def State.reply (s : State) (f : Flight) : State :=
  let s := s.land f f.val f.outcome
  let s := if f.kind == .dalloc then s else s.modCore f.core (·.dropLines f)
  let s := if f.acq then s.acquire f.core f.scope else s
  if s.invalOpen f.id (fun _ => true) then
    let home := s.invalOpen f.id (fun c => c / 16 == coreCol f.core / 16)
    s.modFlight f.id (fun f => { f with
      kind := .store, stage := if home then 2 else 3, dest := .none, pn := none, acq := false, past := true })
  else (s.dropFlight f.id).releaseBars f.team

/-- R231. -/
def execServiceReply (id : Nat) (s : State) : Host.Outcome State Fault Refusal :=
  match s.flight? id with
  | none => .next s
  | some f => if s.replyDue f then .next (s.reply f) else .next s

/-! ### Transactions -/

/-- R239. -/
def execTxb (o : Ops) (s : State) : Host.Outcome State Fault Refusal :=
  withRun o { d := .none, helps := false } s (fun r =>
    { r with s := r.goodLive.foldl (fun s l =>
        (s.detach r.t r.c l).modLane r.t r.c l (fun L => { L with tx := { opened := true } })) r.s }.finish)

/-- R239. -/
def execTxa (o : Ops) (s : State) : Host.Outcome State Fault Refusal :=
  withRun o { d := .none, helps := false } s (fun r =>
    { r with s := r.goodLive.foldl (fun s l => if (r.L l).tx.opened then
        (s.detach r.t r.c l).modLane r.t r.c l (fun L => { L with tx := {} }) else s) r.s }.finish)

/-- Transaction of a lane. -/
def Run.tx (r : Run) (l : Nat) : Txn := (r.L l).tx

/-- Words of a lane's read set, with those under way. -/
def Run.readWords (r : Run) (l : Nat) : List Nat :=
  dedupNat ((r.tx l).rset.map (·.1) ++ ((r.s0.ofLane r.t r.c l).filter (fun f => f.kind == .txld)).map (·.pa))

/-- UNCACHED, then TXN, of a word whose page does not take transactions (R232). -/
def Run.txnPage (r : Run) (a : Acc) : Option FltRec :=
  if pteAttr a.e.pte != 0 then uncachedFault a
  else if pteFmode a.e.pte != 0 || r.s0.inWindow a then some { cls := 0x0F, reason := 0x04, addr := a.x }
  else none

/-- TXN of a word outside the transaction line, or of a set that is full (R240). -/
def Run.txnLine (r : Run) (store : Bool) (a : Acc) : Option FltRec :=
  let tx := r.tx a.l
  let inW := tx.wset.any (fun p => p.1 == a.pa)
  let full := if store then !inW && 4 ≤ tx.wset.length
    else !inW && !(r.readWords a.l).contains a.pa && 4 ≤ (r.readWords a.l).length
  if tx.line != none && tx.line != some (a.pa / 256) then some { cls := 0x0F, reason := 0x02, addr := a.x }
  else if full then some { cls := 0x0F, reason := 0x03, addr := a.x }
  else none

/-- The transaction line of a lane is the one of an access (R240). -/
def Run.setLine (r : Run) (a : Acc) : Run :=
  { r with s := r.s.modLane r.t r.c a.l (fun L => { L with tx := { L.tx with
      line := some (a.pa / 256), vline := a.x.toNat / 256, gen := a.e.gen } }) }

/-- The lanes that fault close their transaction (R240). -/
def Run.closeTx (r : Run) (ls : List Nat) : Run :=
  { r with s := (ls.filter (fun l => !r.ok l)).foldl (fun s l =>
      (s.detach r.t r.c l).modLane r.t r.c l (fun L => { L with tx := { L.tx with opened := false } })) r.s }

/-- The checks of R240 for the lanes whose transaction is not doomed; `act` acts on each access that passes, `doomed` on
each doomed lane. -/
def txAccess (o : Ops) (p : Pro) (store : Bool) (off : Int) (s : State) (act : Run → Acc → Run) (doomed : Run → Nat → Run) :
    Host.Outcome State Fault Refusal :=
  withRun o p s (fun r =>
    let ls := r.goodLive
    let r := r.check ls (fun l => if (r.tx l).opened then none else some { cls := 0x0F, reason := 0x01 })
    let dm := (ls.filter r.ok).filter (fun l => (r.tx l).doomed)
    match r.access ((ls.filter r.ok).filter (fun l => !(r.tx l).doomed)) .atomic 8 (r.xab off) with
    | .parked s => s
    | .go r acc =>
      let r := r.checkAcc acc r.txnPage
      let r := r.checkAcc acc (r.txnLine store)
      let r := if store then r else r.checkAcc acc (r.globLock 8 true)
      let r := (r.passed acc).foldl (fun r a => act (r.setLine a) a) r
      ((dm.foldl doomed r).closeTx ls).finish)

/-- R240: a word of the write set or the read set is there at once; another is read at its home. -/
def Run.txRead (r : Run) (a : Acc) : Run :=
  match (r.tx a.l).wset.find? (fun p => p.1 == a.pa) with
  | some p => r.setDest a.l p.2
  | none => match (r.tx a.l).rset.find? (fun p => p.1 == a.pa) with
    | some p => r.setDest a.l p.2
    | none => { r with s := r.s.send { r.flight .txld a with dest := r.destOf a.l, after := r.s0.acqAfter r.t r.c a.l } }

/-- R240. -/
def execTxld (o : Ops) (off : Int) (s : State) : Host.Outcome State Fault Refusal :=
  txAccess o { helps := false } false off s (fun r a => r.txRead a) (fun r l => r.setDest l 0)

/-- A list of words with one put or replaced. -/
def putWord (ws : List (Nat × Word)) (a : Nat) (v : Word) : List (Nat × Word) :=
  if ws.any (fun p => p.1 == a) then ws.map (fun p => if p.1 == a then (a, v) else p) else ws ++ [(a, v)]

/-- R240. -/
def execTxst (o : Ops) (off : Int) (s : State) : Host.Outcome State Fault Refusal :=
  txAccess o { d := .none, helps := false } true off s (fun r a =>
    { r with s := r.s.modLane r.t r.c a.l (fun L => { L with tx := { L.tx with wset := putWord L.tx.wset a.pa (r.cc a.l) } }) })
    (fun r _ => r)

/-- Words of a lane's footprint (R241). -/
def Txn.footprint (x : Txn) : List Nat := x.rset.map (·.1) ++ x.wset.map (·.1)

/-- Two lanes of one `txe` conflict (R241). -/
def txConflict (x y : Txn) : Bool :=
  x.footprint.any (fun w => y.footprint.contains w && (x.wset.any (fun p => p.1 == w) || y.wset.any (fun p => p.1 == w)))

/-- The lanes that go ahead, in ascending order (R241). -/
def txAhead (tx : Nat → Txn) (ls : List Nat) : List Nat :=
  ls.foldl (fun ahead l => if ahead.any (fun h => txConflict (tx l) (tx h)) then ahead else ahead ++ [l]) []

/-- LOCK of a lane that goes ahead (R241): a word of its write set overlaps a lock entry of the core, of either kind with REASON
0x02. -/
def Run.txLock (r : Run) (l : Nat) : Option FltRec :=
  (((r.tx l).wset.filterMap (fun p =>
    let va := (r.tx l).vline * 256 + p.1 % 256
    lockFault (r.s0.core r.core) (.glob r.T.asid) (wordOf va) (va % 2 ^ 56) 8 false)).head?).map (fun f => { f with reason := 0x02 })

/-- An empty transaction commits with nothing sent (R241, R248): one with ORD is a synchronising access all the same, whose status
follows what it waits for (R216, R243). -/
def Run.txEmpty (r : Run) (ord : Ord) (scope : Scope) (pn l : Nat) : Run :=
  { r with s := r.s.send { r.request .txe l with
      size := 0, dest := r.destOf l, pn := some pn, scope := scopeCode scope, acq := ord.acq, rel := ord.rel, stage := 2, val := txStatus 0 0,
      after := (if ord.rel then r.s.releaseWaits r.t r.c l (scopeCode scope) else []) ++ r.s.orders r.t r.c l 0 true none } }

/-- A status that is known at issue lands at once. -/
def Run.txNow (r : Run) (pn status l : Nat) : Run :=
  let r := r.setDest l (txStatus status 0)
  { r with s := r.s.modLane r.t r.c l (fun L => L.pPut pn (status == 0)) }

/-- A commit leaves for its owner (R241). -/
def Run.txSend (r : Run) (ord : Ord) (scope : Scope) (pn l : Nat) : Run :=
  let x := r.tx l
  { r with s := r.s.request { r.request .txe l with
      gen := x.gen, va := wordOf (x.vline * 256), pa := (x.line.getD 0) * 256, size := 256,
      dest := r.destOf l, pn := some pn, scope := scopeCode scope, acq := ord.acq, rel := ord.rel, rset := x.rset, wset := x.wset,
      after := (if ord.rel then r.s.releaseWaits r.t r.c l (scopeCode scope) else []) ++
        r.s.orders r.t r.c l 0 (ord.acq || ord.rel) none } }

/-- R241. -/
def execTxe (o : Ops) (ord : Ord) (scope : Scope) (pn : Nat) (s : State) : Host.Outcome State Fault Refusal :=
  withRun o { pred := some pn, helps := false } s (fun r =>
    let ls := r.goodLive
    let ws := r.openPerf ls (fun l => ((s.ofLane r.t r.c l).filter (fun f => f.kind == .txld)).map (fun f => (f.id, 100)))
    if !ws.isEmpty then r.park ws
    else
      let r := r.check ls (fun l => if (r.tx l).opened then none else some { cls := 0x0F, reason := 0x01 })
      let os := ls.filter r.ok
      let dm := os.filter (fun l => (r.tx l).doomed)
      let rest := os.filter (fun l => !(r.tx l).doomed)
      let em := rest.filter (fun l => (r.tx l).footprint.isEmpty)
      let g := rest.filter (fun l => !(r.tx l).footprint.isEmpty)
      let ahead := txAhead r.tx g
      let r := r.check ahead r.txLock
      let r := dm.foldl (fun r l => r.txNow pn 4 l) r
      let r := em.foldl (fun r l => if ord.acq || ord.rel then r.txEmpty ord scope pn l else r.txNow pn 0 l) r
      let r := (g.filter (fun l => !ahead.contains l)).foldl (fun r l => r.txNow pn 1 l) r
      let r := (ahead.filter r.ok).foldl (fun r l => r.txSend ord scope pn l) r
      { r with s := (os.filter r.ok).foldl (fun s l =>
          s.modLane r.t r.c l (fun L => { L with tx := { L.tx with opened := false } })) r.s }.finish)

/-- The words of a read set that differ, or that are uncorrectable (R242, R243). -/
def State.differing (s : State) (rs : List (Nat × Word)) : List (Nat × Word) :=
  rs.filter (fun p => s.poisoned p.1 8 || wordOf (memRead s.mem p.1 8) != p.2)

/-- Index of a word in a read set. -/
def wordIdx (rs : List (Nat × Word)) (a : Nat) : Nat := (rs.map (·.1)).findIdx (· == a)

/-- The writes of a commit, with one invalidation for each replica slice that covers every written granule (R242). -/
def State.commitWrites (s : State) (ws : List (Nat × Word)) (who line : Nat) : State :=
  let s := ws.foldl (fun s p => s.homePut p.1 (leBytes 8 p.2.toNat)) s
  if mayReplicate line && !ws.isEmpty
  then s.sendInval (s.home line) (regionOf line) (dedupNat (ws.map (fun p => granOf p.1))) (some who) else s

/-- A transaction is validated and committed by its owner (R242, R243): an uncorrectable word is named before one that differs. -/
def State.commitAt (s : State) (f : Flight) : State :=
  if s.beyondWindow f.pa then (s.answer f.id (txStatus 2 0)).defer f 0x0A 0x87 f.va
  else
    let bad := minBy (fun p => p.1) (f.rset.filter (fun p => s.poisoned p.1 8))
    match bad, minBy (fun p => p.1) (s.differing f.rset) with
    | some w, _ => (s.answer f.id (txStatus 2 (wordIdx f.rset w.1))).defer f 0x17 (s.poisonReason w.1) (f.va + wordOf (w.1 % 256))
    | none, some w => s.answer f.id (txStatus 2 (wordIdx f.rset w.1))
    | none, none => (s.answer f.id (txStatus 0 0)).commitWrites f.wset f.id f.pa

/-- R242. -/
def execTxCommitAtOwner (id : Nat) (s : State) : Host.Outcome State Fault Refusal :=
  match s.flight? id with
  | none => .next s
  | some f => if s.requestDue f .txe then .next (s.serve f (s.commitAt f)) else .next s

/-! ### Allocation -/

/-- A power of two. -/
def isPow2 (n : Nat) : Bool := n != 0 && n == 2 ^ Nat.log2 n

/-- ENGINE of `dalloc` (R246). -/
def dallocFault (a b : Word) : Option FltRec :=
  if a = 0 || 2 ^ 32 < a.toNat || (b ≠ 0 && (!isPow2 b.toNat || b.toNat < 64 || 2 ^ 21 < b.toNat))
  then some { cls := 0x10, reason := 0x04 } else none

/-- R246. -/
def execDalloc (o : Ops) (pn : Nat) (s : State) : Host.Outcome State Fault Refusal :=
  withRun o { pred := some pn, helps := false } s (fun r =>
    let r := r.check r.goodLive (fun l => dallocFault (r.a l) (r.b l))
    { r with s := r.goodLive.foldl (fun s l => s.request { r.request .dalloc l with
        data := r.a l, cmp := r.b l, dest := r.destOf l, pn := some pn }) r.s }.finish)

/-- The gaps of an arena between its blocks, ascending: first byte and one past the last. -/
def gaps (lo hi : Nat) : List (Nat × Nat) → List (Nat × Nat)
  | [] => if lo < hi then [(lo, hi)] else []
  | (b, n) :: r => (if lo < b then [(lo, b)] else []) ++ gaps (b + n) hi r

/-- Arena, first aligned base and number of aligned bases of each gap of the column that holds `size` bytes (R246). -/
def Column.places (k : Column) (asid size al : Nat) : List (Nat × Nat × Nat) :=
  k.arenas.flatMap (fun p => if p.2.en && p.2.asid == asid then
    (gaps p.2.base.toNat (p.2.base.toNat + p.2.size * 65536) p.2.blocks).filterMap (fun g =>
      let b := roundUp g.1 al
      if b + size ≤ g.2 then some (p.1, b, (g.2 - size - b) / al + 1) else none)
    else [])

/-- The `i`-th place of a list of gaps: arena and base. -/
def pickPlace (al : Nat) : List (Nat × Nat × Nat) → Nat → Option (Nat × Nat)
  | [], _ => none
  | (n, b, c) :: r, i => if i < c then some (n, b + i * al) else pickPlace al r (i - c)

/-- Insert a block into an arena's list, ascending. -/
def addBlock (bs : List (Nat × Nat)) (b n : Nat) : List (Nat × Nat) := insertBy (fun p => p.1) (b, n) bs

/-- The service course takes an allocation (R246); which admissible place it gives is not architectural
(notes/assumptions/19). -/
def State.allocAt (s : State) (f : Flight) : State :=
  let col := coreCol f.core
  let size := roundUp f.data.toNat 64
  let al := max 64 f.cmp.toNat
  let ps := (s.column col).places f.asid size al
  let total := ps.foldl (fun a p => a + p.2.2) 0
  match (if total = 0 then none else pickPlace al ps (Config.allocChoice s.tick % total)) with
  | none => s.modFlight f.id (fun f => { f with stage := 2, val := 0, count := 0 })
  | some (n, b) =>
    (s.modCol col (fun k => { k with arenas := mapMod {} n (fun a => { a with blocks := addBlock a.blocks b size }) k.arenas })).modFlight
      f.id (fun f => { f with stage := 2, val := wordOf b, count := 1 })

/-- R246. -/
def execDallocAtServiceCourse (id : Nat) (s : State) : Host.Outcome State Fault Refusal :=
  match s.flight? id with
  | none => .next s
  | some f => if s.requestDue f .dalloc then .next (s.serve f (s.allocAt f)) else .next s

/-- R247: the free waits for every earlier access of its lane at device scope. -/
def execDfree (o : Ops) (s : State) : Host.Outcome State Fault Refusal :=
  withRun o { d := .none, helps := false } s (fun r =>
    { r with s := r.goodLive.foldl (fun s l => s.send { r.request .dfree l with
        va := r.a l, after := s.acqAfter r.t r.c l ++ s.releaseWaits r.t r.c l 6 }) r.s }.finish)

/-- The arena of an address space that holds a block with this base: its column and number. -/
def State.arenaOf (s : State) (asid b : Nat) : Option (Nat × Nat) :=
  s.columns.findSome? (fun p => (p.2.arenas.find? (fun a => a.2.en && a.2.asid == asid && a.2.blocks.any (fun x => x.1 == b))).map
    (fun a => (p.1, a.1)))

/-- A free takes effect (R247). -/
def State.freeAt (s : State) (f : Flight) : State :=
  let s := s.dropFlight f.id
  if f.va = 0 then s
  else match s.arenaOf f.asid f.va.toNat with
    | none => s.defer f 0x10 0x87 f.va
    | some (c, n) => s.modCol c (fun k => { k with
        arenas := mapMod {} n (fun a => { a with blocks := a.blocks.filter (fun x => x.1 != f.va.toNat) }) k.arenas })

/-- The free may take effect. -/
def State.freeDue (s : State) (f : Flight) : Bool := f.kind == .dfree && f.after.all (fun p => s.performedAt p.1 p.2)

/-- R247. -/
def execDfreeAtOwner (id : Nat) (s : State) : Host.Outcome State Fault Refusal :=
  match s.flight? id with
  | none => .next s
  | some f => if s.freeDue f then .next (s.freeAt f) else .next s

end Sys2Proof.Machine
end

