-- ==== Sys2Proof/Machine/Fabric.lean ====
section
/-! DEFINITION. The fabric port: accesses to peers (R376 to R381), glaze groups (R382 to R388), switch reductions (R389) and
partition barriers (R390). -/

namespace Sys2Proof.Machine

/-! ### Peers -/

/-- The peer takes an address that is HBM4E memory or a window (R376). -/
def peerTakes (pa : Nat) : Bool := isHbm pa || isWindow pa

/-- Kinds of access that the fabric carries, and whether one is still to be performed there (R376). -/
def Flight.atPeer (f : Flight) : Bool :=
  f.fmode != 0 && (match f.kind with
    | .load | .mmioLoad | .pf | .atom | .nred => f.stage == 0
    | .store => f.stage == 1
    | _ => false)

/-- An access comes back to a home slice of this device, where the fabric port's requests rank last (R220, R376). -/
def State.comesBack (s : State) (f : Flight) : Bool := f.peer == s.device && peerTakes f.pa

/-- The home slice of this device can take an access of the fabric port to some bytes in this cycle (R220): after what it took before to the
same words (R248). -/
def State.portFree (s : State) (pa n : Nat) : Bool := s.sliceFree (s.home pa) rankFabric && !s.queuedOn pa n

/-- The peer can perform an access in this cycle: the port keeps the order of a core's requests to a line (R379). -/
def State.peerDue (s : State) (f : Flight) : Bool :=
  f.atPeer && s.ready f && s.syncFree f && (!s.comesBack f || s.portFree f.pa f.size)

/-- The home slice of this device takes an access that has come back to it. -/
def State.peerTake (s : State) (f : Flight) : State := if s.comesBack f then s.take (s.home f.pa) rankFabric else s

/-- A load or prefetch of a page with FMODE 2 keeps a copy of its granule (R188, R377), unless its column has a write of it under way. -/
def State.keepsCopy (s : State) (f : Flight) : Bool :=
  (f.kind == .load || f.kind == .pf) && f.fmode == 2 && f.attr == 0 && !(f.peer == s.device && s.poisoned f.lineBase 64) &&
  !s.flights.any (fun g => coreCol g.core == coreCol f.core && g.fmode == 2 && g.peer == f.peer && g.stage < 3 &&
    (g.kind == .store || g.kind == .atom || g.kind == .nred) && g.pa < f.lineBase + 64 && f.lineBase < g.pa + g.size)

/-- A granule of a peer enters the near slice and L1 (R377). -/
def State.keepCopy (s : State) (f : Flight) (bs : List Byte) : State :=
  (s.modCol (coreCol f.core) (fun k => { k with
    near := { peer := f.peer, base := f.lineBase, data := bs } :: k.near.filter (fun c => !(c.peer == f.peer && c.base == f.lineBase)) })).farFill f bs

/-- The granule that a load of a peer's page brings: this device's own, or `data` in one whose other bytes lie outside
(notes/assumptions/11). -/
def State.peerLine (s : State) (f : Flight) (data : Word) : List Byte × State :=
  if f.peer = s.device then s.sliceRead (s.home f.pa) 0 f.lineBase 64 0
  else
    let r := s.freeBytes 64
    ((KeptStore.mk 0 f.pa f.size data).over f.lineBase r.1, r.2)

/-- The value of a load from a peer is fixed: the near slice lays over the bytes what it keeps of its column's stores to them (R212). -/
def State.fixFar (s : State) (f : Flight) (bs : List Byte) : State :=
  s.fix f.id (loadExt f.size f.sext (leVal (s.overFar (coreCol f.core) f.peer f.pa bs)))

/-- A load from a peer (R376, R377): from this device when it is the peer. -/
def State.peerLoad (s : State) (f : Flight) (data : Word) : State :=
  let s := if f.acq then s.acquire f.core f.scope else s
  if s.keepsCopy f then
    let r := s.peerLine f data
    (r.2.keepCopy f r.1).fixFar f ((r.1.drop (f.pa % 64)).take f.size)
  else if f.peer = s.device then
    let r := s.sliceRead (s.home f.pa) 0 f.pa f.size 0
    r.2.fixFar f r.1
  else s.fixFar f (leBytes f.size data.toNat)

/-- A prefetch of a peer's page keeps the copy that a load would keep (R188, R377). -/
def State.peerPrefetch (s : State) (f : Flight) (data : Word) : State :=
  (if s.keepsCopy f then
    let r := s.peerLine f data
    r.2.keepCopy f r.1
  else s).dropFlight f.id

/-- The bytes of a write on its way to a peer: an engine's run, or the operand of a store (R376). -/
def Flight.bytes (f : Flight) : List Byte :=
  if f.wset.isEmpty then leBytes f.size f.data.toNat else f.wset.map (fun p => p.2.setWidth 8)

/-- A write at this device for an access that came back to it; a glaze window takes none (R383). -/
def State.peerPut (s : State) (f : Flight) (pa : Nat) (bs : List Byte) : State :=
  if f.peer != s.device || (s.windowAt pa).isSome then s else s.homeWrite pa bs (some f.id)

/-- An atomic at its peer (R235, R376): a failing `cas` writes nothing and counts as a read. -/
def State.peerAtom (s : State) (f : Flight) (data : Word) : State :=
  let old := if f.peer = s.device then memRead s.mem f.pa f.size else data.toNat % 2 ^ (8 * f.size)
  (if f.aop == .cas && old != f.cmp.toNat then
    (if f.peer != s.device || isWindow f.pa then s else s.countRead (s.home f.pa) 0 (regionOf f.pa))
   else s.peerPut f f.pa (leBytes f.size (aopNew f.aop f.ty old f.data.toNat f.cmp.toNat))).answer f.id (extOld f.ty old)

/-- An access fails at its peer: a load or an atomic gets 0, and the fault is deferred (R174, R376). -/
def State.peerFail (s : State) (f : Flight) (cls reason : Nat) : State :=
  match f.kind with
  | .pf => s.dropFlight f.id
  | .load | .mmioLoad => s.fixFault f cls reason
  | _ => ((s.land f 0 false).dropFlight f.id).defer f cls reason f.va

/-- An access that has come back to this device meets an uncorrectable word (R400), over which its column keeps no store of the whole
word (R212). -/
def State.farBad (s : State) (f : Flight) : Bool :=
  f.kind != .store && (if f.isLoad then s.poisonedFar (coreCol f.core) f.peer f.pa f.size else s.poisoned f.pa f.size)

/-- An access is performed at its peer, which acknowledges it (R376, R211); one that has come back to this device meets what its
home slice finds (R205, R400, R406). -/
def State.peerPerform (s : State) (f : Flight) (data : Word) : State :=
  if s.comesBack f && s.beyondWindow f.pa then s.peerFail f 0x0A 0x87
  else if s.comesBack f && s.farBad f then s.peerFail f 0x17 (if f.kind == .nred then 0x82 else s.poisonReason f.pa)
  else match f.kind with
    | .load | .mmioLoad => s.peerLoad f data
    | .pf => s.peerPrefetch f data
    | .store => (s.peerPut f f.pa f.bytes).modFlight f.id (fun f => { f with stage := 3 })
    | .nred => (s.peerPut f f.pa (leBytes f.size (aopNew f.aop f.ty (memRead s.mem f.pa f.size) f.data.toNat 0))).modFlight f.id
        (fun f => { f with stage := 2 })
    | _ => s.peerAtom f data

/-- A contribution or an arrival on its way to its group's switch (R389, R390). -/
def Flight.atSwitch (f : Flight) : Bool := (f.kind == .fred || f.kind == .fbar) && f.stage == 0

/-- A glaze group. -/
def State.group (s : State) (g : Nat) : Group := mapGet {} g s.groups
/-- The state with a group changed. -/
def State.modGroup (s : State) (g : Nat) (f : Group → Group) : State := { s with groups := mapMod {} g f s.groups }

/-- This device's contributions to a group that the switch has accepted, oldest first. -/
def State.ownReds (s : State) (g : Nat) : List Flight := s.flights.filter (fun f => f.kind == .fred && f.stage == 1 && f.peer == g)

/-- Open reductions of a group (R389): at each offset as many as its busiest device has contributed to. -/
def State.openReds (s : State) (g : Nat) : Nat :=
  let own := s.ownReds g
  let rs := (s.group g).reds
  (dedupNat (own.map (·.count) ++ rs.map (·.off))).foldl (fun n off =>
    n + ((s.group g).members.map (fun d => (rs.filter (fun x => x.dev == d && x.off == off)).length)).foldl max
      (own.filter (fun f => f.count == off)).length) 0

/-- The switch can take what is on its way: a contribution while fewer than 65,536 reductions are open, after those of its lane and those
that wait in the port before it (R389). -/
def State.switchTakes (s : State) (f : Flight) : Bool :=
  f.atSwitch && f.after.all (fun p => s.performedAt p.1 p.2) &&
  (f.kind == .fbar || (s.openReds f.peer < 65536 &&
    !s.flights.any (fun g => g.id < f.id && g.kind == .fred && g.stage == 0 && g.peer == f.peer &&
      ((g.team == f.team && g.crs == f.crs && g.lane == f.lane) || g.after.all (fun p => s.performedAt p.1 p.2)))))

/-- The switch accepts a contribution, or counts an arrival (R389, R390). -/
def State.switchTake (s : State) (f : Flight) : State :=
  if f.kind == .fbar then (s.modGroup f.peer (fun G => { G with arrived := G.arrived + 1 })).dropFlight f.id
  else s.modFlight f.id (fun f => { f with stage := 1 })

/-- R376 to R379, R389, R390: `data` is what the peer's memory holds, which lies outside (notes/assumptions/11). -/
def execFabricRequestAtPeer (id : Nat) (data : Word) (refused : Bool) (s : State) : Host.Outcome State Fault Refusal :=
  match s.flight? id with
  | none => .next s
  | some f =>
    if s.switchTakes f then .next (s.switchTake f)
    else if !s.peerDue f || refused == peerTakes f.pa then .next s
    else
      let s := State.countMig { s with fresh := s.fresh + 1 } f.fmode f.peer f.pa
      .next (((if refused then s.peerFail f 0x0A 0x89 else s.peerPerform f data).releaseBars f.team).peerTake f)

/-- A write of another package at its home (R376); a glaze window takes none (R383). -/
def State.foreignPut (s : State) (pa : Nat) (bs : List Byte) : State :=
  if !s.portMem pa || (s.windowAt pa).isSome then s else s.homeWrite pa bs none

/-- An access of another package to this device's memory (R376): what it reads is not kept here, and it ranks last at the home slice
(R220). -/
def State.fromPeer (s : State) (a : CcAcc) : State :=
  match a with
  | .load pa size => if s.portMem pa && !s.poisoned pa size then (s.sliceRead (s.home pa) 0 pa size 0).2 else s
  | .store pa size v => s.foreignPut pa (leBytes size v.toNat)
  | .amo op ty _ pa v c =>
    let old := memRead s.mem pa (tyBytes ty)
    if !s.portMem pa || s.poisoned pa (tyBytes ty) then s
    else if op == .cas && old != c.toNat then (s.sliceRead (s.home pa) 0 pa (tyBytes ty) 0).2
    else s.foreignPut pa (leBytes (tyBytes ty) (aopNew op ty old v.toNat c.toNat))
  | _ => s

/-- The bytes that an access of another package names, where it is one that the fabric carries. -/
def peerSpan (a : CcAcc) : Option (Nat × Nat) :=
  let x := match a with
    | .load pa size | .store pa size _ => some (pa, size)
    | .amo _ ty _ pa _ _ => some (pa, tyBytes ty)
    | _ => none
  x.filter (fun p => peerTakes p.1 && portSize p.1 p.2)

/-- An access of another package can be performed in this cycle (R220, R248). -/
def State.fromPeerDue (s : State) (a : CcAcc) : Bool := (peerSpan a).all (fun p => s.portFree p.1 p.2)

/-- An access of another package is taken at its home; one that the fabric does not carry is refused (R376). -/
def State.takePeer (s : State) (a : CcAcc) : State :=
  match peerSpan a with
  | some p => (s.fromPeer a).take (s.home p.1) rankFabric
  | none => s

/-- A transaction of the port that a timer watches (R380): one that has left its core, which holds an access back until what goes before it
is performed, and for which the switch has room (R389). -/
def State.watches (s : State) (f : Flight) : Bool :=
  (f.atPeer && s.ready f) || (f.kind == .gst && f.stage == 0 && f.after.all (fun p => s.performedAt p.1 p.2)) || s.switchTakes f

/-- A cause of a quiesce is reported to the fabric manager (R391): one that arises while another is dealt with starts none. -/
def State.report (s : State) (c : QCause) : State :=
  if s.quiesce.cause.isSome || s.quiesce.phase != .none then s else { s with quiesce := { s.quiesce with cause := some c } }

/-- The peer whose page is the first of some lines that an engine reads through the fabric (R376). -/
def State.engPeer (s : State) (g : Eng) (lines : List Nat) : Option Nat :=
  lines.findSome? (fun ln => match s.engTr g (wordOf (ln * 64)) .load with
    | .ok e _ => if pteFmode e.pte != 0 then some (ptePeer e.pte) else none
    | .bad _ => none)

/-- The peer from which a Slip command reads next. -/
def State.slipPeer (s : State) (core : Nat) (c : SlipCmd) : Option Nat :=
  if c.active && c.dir != 1 then c.todo.findSome? (fun p => s.engPeer (c.eng s core) (c.lines p)) else none

/-- The peer from which a Coil command reads. -/
def State.cilPeer (s : State) (core : Nat) (w : CilCmd) : Option Nat :=
  match w.op with
  | .car false false a n => if w.stall.isNone then s.engPeer (w.eng s core) (linesOf [(a.toNat, carBytes w.coper n)]) else none
  | _ => none

/-- The peer from which the engine command with a number reads (R380). -/
def State.readPeer (s : State) (id : Nat) : Option Nat :=
  s.cores.findSome? (fun p => match p.2.slips.find? (fun c => c.id == id), (p.2.coil.queue.head?).filter (fun w => w.id == id) with
    | some c, _ => s.slipPeer p.1 c
    | none, some w => s.cilPeer p.1 w
    | none, none => none)

/-- The `n`th expiry of the timer of a transaction with a peer (R380): two retransmit, the third declares the peer unreachable. -/
def State.expiry (s : State) (n peer : Nat) : State :=
  if n < 2 then { s with fstat := setFld s.fstat 0 32 (fld s.fstat 0 32 + 1) }
  else State.report { s with fstat := setFld s.fstat 32 12 peer } (.peerLoss peer)

/-- R380, of an access in flight or of an engine's read. The switch of a group has no number as a peer. -/
def execFabricTimerExpiry (id : Nat) (s : State) : Host.Outcome State Fault Refusal :=
  match s.flight? id with
  | none => match s.readPeer id with
    | none => .next s
    | some p =>
      let n := mapGet 0 id s.timers
      if 3 ≤ n then .next s else .next (State.expiry { s with timers := mapPut id (n + 1) s.timers } n p)
  | some f =>
    if !s.watches f || 3 ≤ f.swz then .next s
    else
      let s := s.modFlight id (fun f => { f with swz := f.swz + 1 })
      if f.fmode != 0 then .next (s.expiry f.swz f.peer)
      else if f.swz < 2 then .next (s.expiry f.swz 0)
      else .next (s.freeWord.2.expiry f.swz (s.freeWord.1.toNat % 4096))

/-! ### Groups -/

/-- A glaze window. -/
def State.gwin (s : State) (g : Nat) : Gwin := mapGet {} g s.gwins
/-- The state with a window changed. -/
def State.modGwin (s : State) (g : Nat) (f : Gwin → Gwin) : State := { s with gwins := mapMod {} g f s.gwins }

/-- GLAZE of an address that lies in no enabled window, or in that of a group that is LOST (R386). -/
def State.gstFault (s : State) (a : Acc) : Option FltRec :=
  if pteFmode a.e.pte != 0 then some { cls := 0x14, reason := 0x04, addr := a.x }
  else match s.windowAt a.pa with
    | none => some { cls := 0x14, reason := 0x04, addr := a.x }
    | some (g, _) => if (s.gwin g).lost then some { cls := 0x14, reason := 0x03, addr := a.x } else none

/-- The checks of R386, and what each lane that passes sends. -/
def glazeRun (o : Ops) (size : Nat) (off : Int) (s : State) (f : Run → Acc → Nat → Nat → Flight) : Host.Outcome State Fault Refusal :=
  withRun o { helps := false } s (fun r =>
    match r.access r.goodLive .store size (r.xab off) with
    | .parked s => s
    | .go r acc =>
      let r := r.checkAcc acc r.s0.gstFault
      let r := r.checkAcc acc (r.globLock size false)
      let mark := r.s.nextId
      { r with s := (r.passed acc).foldl (fun (s : State) (a : Acc) => match r.s0.windowAt a.pa with
          | none => s
          | some (g, base) => s.send { f r a g (a.pa - base) with
              size := size, peer := g, acc := mark, dest := r.destOf a.l, after := s.acqAfter r.t r.c a.l }) r.s }.finish)

/-- R386. -/
def execGst (o : Ops) (size : LSize) (off : Int) (s : State) : Host.Outcome State Fault Refusal :=
  glazeRun o (lsBytes size) off s (fun r a _ x => { r.flight .gst a with count := x, data := r.cc a.l })

/-- The sequencer stamps a store and multicasts it (R384): whether it reaches this device at once is open. -/
def State.stampStore (s : State) (g off size : Nat) (data : Word) : Nat × State :=
  let n := (s.group g).next
  let x : GStore := { stamp := n, off := off, size := size, data := data }
  let lost := s.freeWord.1.getLsbD 0
  (n, s.freeWord.2.modGroup g (fun G => { G with
    next := (n + 1) % 2 ^ 48
    buffer := (G.buffer ++ [x]).drop (G.buffer.length + 1 - 65536)
    pending := if lost then G.pending else G.pending ++ [x] }))

/-- Stores of this device that the sequencer may stamp: those of an instruction, once each may leave. -/
def State.toStamp (s : State) (g : Nat) : List Nat :=
  let fs := s.flights.filter (fun f => f.kind == .gst && f.stage == 0 && f.peer == g)
  (dedupNat (fs.map (·.acc))).filter (fun m => (fs.filter (fun f => f.acc == m)).all (fun f => f.after.all (fun p => s.performedAt p.1 p.2)))

/-- A lane's store is stamped: D receives the number (R386). -/
def State.stampFlight (s : State) (f : Flight) : State :=
  let r := s.stampStore f.peer f.count f.size f.data
  (r.2.land f (wordOf r.1) false).modFlight f.id (fun f => { f with stage := 2, val := wordOf r.1 })

/-- R384, R386: the lanes of one instruction are stamped consecutively, in ascending lane order. -/
def execGlazeStamp (group : Nat) (s : State) : Host.Outcome State Fault Refusal :=
  let ms := s.toStamp group
  match ms[Config.choose s.tick % ms.length]? with
  | none => .next s
  | some m => .next ((s.flights.filter (fun f => f.kind == .gst && f.stage == 0 && f.peer == group && f.acc == m)).foldl
      State.stampFlight s)

/-- Every other member has applied a number. -/
def Group.allApplied (G : Group) (n : Nat) : Bool := G.members.isEmpty || n ≤ G.peersApplied

/-- Glaze stores of this device that are applied here and at every member are over (R211, R390). -/
def State.dropApplied (s : State) (g : Nat) : State :=
  let G := s.group g
  { s with flights := s.flights.filter (fun f => !(f.kind == .gst && f.peer == g && f.stage == 3 && G.allApplied f.val.toNat)) }

/-- A number is applied (R384). -/
def State.setApplied (s : State) (g n : Nat) : State :=
  let s := s.modGwin g (fun w => { w with applied := n })
  let s := s.modGroup g (fun G => { G with applying := none, pending := G.pending.filter (fun x => x.stamp != n) })
  State.dropApplied { s with flights := s.flights.map (fun f =>
    if f.kind == .gst && f.peer == g && f.stage == 2 && f.val == wordOf n then { f with stage := 3 } else f) } g

/-- The next store of a group has reached this device. -/
def State.nextStore (s : State) (g : Nat) : Option GStore := (s.group g).pending.find? (fun x => x.stamp == (s.gwin g).applied + 1)

/-- A store's bytes are written into this device's window (R384, R218). -/
def State.applyBytes (s : State) (g : Nat) (x : GStore) (who : Option Nat) : State :=
  s.homeWrite ((s.gwin g).base * 2 ^ 16 + x.off) (leBytes x.size x.data.toNat) who

/-- The address of a store's bytes in this device's window. -/
def State.storeAddr (s : State) (g : Nat) (x : GStore) : Nat := (s.gwin g).base * 2 ^ 16 + x.off

/-- A member can apply a store, whose home takes it from the fabric port (R220), or the store that it has written is performed at device
scope. -/
def State.applyDue (s : State) (g : Nat) : Bool :=
  (s.gwin g).en && !(s.gwin g).lost && (match (s.group g).applying with
    | some w => !s.invalOpen w (fun _ => true)
    | none => (s.nextStore g).any (fun x => s.portFree (s.storeAddr g x) x.size))

/-- R218, R220, R384. -/
def execGlazeApply (group : Nat) (s : State) : Host.Outcome State Fault Refusal :=
  if !s.applyDue group then .next s
  else match (s.group group).applying, s.nextStore group with
    | some _, _ => .next (s.setApplied group ((s.gwin group).applied + 1))
    | none, some x =>
      let wid := s.nextId
      let s := State.applyBytes (State.take { s with nextId := s.nextId + 1 } (s.home (s.storeAddr group x)) rankFabric) group x (some wid)
      .next (if s.invalOpen wid (fun _ => true) then s.modGroup group (fun G => { G with applying := some wid })
        else s.setApplied group x.stamp)
    | none, none => .next s

/-- A number is missing at this device (R384). -/
def State.replayDue (s : State) (g : Nat) : Bool :=
  (s.gwin g).en && !(s.gwin g).lost && (s.group g).applying.isNone && (s.gwin g).applied + 1 < (s.group g).next && (s.nextStore g).isNone

/-- R384: the missing store comes from the replay buffer, or the group is LOST. -/
def execGlazeReplayRequest (group : Nat) (s : State) : Host.Outcome State Fault Refusal :=
  if !s.replayDue group then .next s
  else match (s.group group).buffer.find? (fun x => x.stamp == (s.gwin group).applied + 1) with
    | some x => .next (s.modGroup group (fun G => { G with pending := G.pending ++ [x] }))
    | none => .next ((s.modGwin group (fun w => { w with lost := true })).report .lostGroup)

/-- The checks of `gwait` and `fbar` (R387, R390). -/
def State.groupFault (s : State) (a b : Word) : Option FltRec :=
  let w := s.gwin a.toNat
  if wfld a 8 56 != 0 || wfld b 48 16 != 0 then some { cls := 0x10, reason := 0x04 }
  else if !w.en then some { cls := 0x14, reason := 0x02 }
  else if w.lost then some { cls := 0x14, reason := 0x03 }
  else none

/-- Park at an instruction that has changed its course (R69). -/
def Run.parkWith (r : Run) (f : State → State) (ws : List Wait) : State := (f r.s0).park r.t r.c ws

/-- A run whose own course is changed, however its instruction ends; one that parks starts from the state before it. -/
def Run.modCourse (r : Run) (f : Course → Course) : Run := { r with s := r.s.modCourse r.t r.c f }

/-- R387: the deadline of an earlier issue is used up when the instruction ends, in a fault too. -/
def execGwait (o : Ops) (tout : Nat) (s : State) : Host.Outcome State Fault Refusal :=
  withRun o {} s (fun r => (r.modCourse (fun C => { C with gwaitEnd := none })).once (fun l => r.s0.groupFault (r.a l) (r.b l)) (fun r l =>
    let g := (r.a l).toNat
    let n := wfld (r.b l) 0 48
    let now := r.s0.cycle r.col
    let dl : Option Nat := match r.C.gwaitEnd with
      | some d => some d
      | none => if tout = 0 then none else some (now + 2 ^ tout)
    let got := (r.s0.gwin g).applied
    if n ≤ got || dl.any (fun d => d ≤ now) then
      let r := r.write (fun _ => { val := wordOf got })
      { r with s := if n ≤ got then r.s.acquire r.core 6 else r.s }.finish
    else r.parkWith (fun s => s.modCourse r.t r.c (fun C => { C with gwaitEnd := dl })) [.gwait g n dl]))

/-- A course parked at `gwait` has waited for its 2^TO cycles (R387). -/
def State.gwaitOver (s : State) (t c : Nat) : Bool :=
  ((s.course t c).parked.getD []).any (fun w => match w with
    | .gwait _ _ (some d) => d ≤ s.cycle (s.colOf t)
    | _ => false)

/-- R387: the course goes on; its `gwait` is then issued again and returns. -/
def execGwaitTimeout (team crs : Nat) (s : State) : Host.Outcome State Fault Refusal :=
  if s.gwaitOver team crs then .next (s.modCourse team crs (fun C => { C with parked := some [.tick] })) else .next s

/-- R388. -/
def execGsn (o : Ops) (s : State) : Host.Outcome State Fault Refusal :=
  withRun o { d := .now } s (fun r =>
    let r := r.check r.good (fun l => if wfld (r.a l) 8 56 != 0 then some { cls := 0x10, reason := 0x04 } else none)
    (r.write (fun l =>
      let w := r.s0.gwin (r.a l).toNat
      { val := wordOf (bit w.lost * 2 ^ 63 + bit w.en * 2 ^ 62 + w.applied) })).finish)

/-! ### Reductions -/

/-- R389: each lane's contribution, whose immediate is expanded for its type (R46), leaves for the switch. -/
def execFred (o : Ops) (op : AOp) (ty : Ty) (off : Int) (s : State) : Host.Outcome State Fault Refusal :=
  glazeRun o (tyBytes ty) off s (fun r a _ x => { r.flight .fred a with
      count := x, aop := op, ty := ty, data := wordOf (opPattern ty o.c.op (r.cc a.l)) })

/-- Every member's contribution to the oldest reduction at an offset (R389); none while one is missing. -/
def State.fredSet (s : State) (g off : Nat) : Option (Flight × List GRed) :=
  match (s.ownReds g).find? (fun f => f.count == off) with
  | none => none
  | some f =>
    let G := s.group g
    let xs := G.members.filterMap (fun d => G.reds.find? (fun x => x.dev == d && x.off == off))
    if xs.length = G.members.length then some (f, xs) else none

/-- A combined value: a NaN of `.fadd` is canonical, one of a lone contribution too (R389). -/
def canonRed (f : Flight) (v : Nat) : Nat :=
  if f.aop == .fadd then packBits (tyW f.ty) ((idxs f.ty).map (fun i =>
    let x := fld v (tyW f.ty * i) (tyW f.ty)
    if (unpackF (tyFmt f.ty) x).isNan then (tyFmt f.ty).nan.getD x else x)) else v

/-- The combined value, in ascending order of the devices (R389). -/
def combineReds (dev : Nat) (f : Flight) (xs : List GRed) : Nat :=
  let m := 2 ^ (8 * f.size)
  match sortBy (fun x => x.1) ((dev, f.data.toNat % m) :: xs.map (fun x => (x.dev, x.data.toNat % m))) with
  | [] => 0
  | x :: r => canonRed f (r.foldl (fun v y => aopNew f.aop f.ty v y.2 0) x.2)

/-- A reduction completes (R389): the combined value is stamped as a glaze store, unless the contributions disagree. -/
def State.completeRed (s : State) (group off : Nat) (f : Flight) (xs : List GRed) : State :=
  let s0 := (s.modGroup group (fun G => { G with reds := xs.foldl (fun l x => l.erase x) G.reds })).dropFlight f.id
  if xs.all (fun x => x.op == f.aop && x.ty == f.ty && x.size == f.size) then
    let r := s0.stampStore group off f.size (wordOf (combineReds s.device f xs))
    r.2.land f (wordOf r.1) false
  else (s0.land f 0 false).defer f 0x14 0x85 f.va

/-- R389. -/
def execFredComplete (group off : Nat) (s : State) : Host.Outcome State Fault Refusal :=
  match s.fredSet group off with
  | none => .next s
  | some (f, xs) => .next (s.completeRed group off f xs)

/-! ### Barriers -/

/-- What the release of `fbar` waits for (R390): the cohort's earlier accesses at partition scope, and its contributions. -/
def Run.fbarWaits (r : Run) : List Wait :=
  r.openPerf (r.act.filter r.live) (fun l =>
    r.s0.releaseWaits r.t r.c l 8 ++ ((r.s0.ofLane r.t r.c l).filter (fun f => f.kind == .fred)).map (fun f => (f.id, 8)))

/-- Arrivals of this device on their way to a group's switch (R390). -/
def State.arriving (s : State) (g : Nat) : Nat := (s.flights.filter (fun f => f.kind == .fbar && f.peer == g)).length

/-- An arrival leaves for the switch of a group, and the course waits for the episode in which it counts (R390). -/
def Run.arrive (r : Run) (g l ep : Nat) (s : State) : State :=
  State.modCourse { s with
    flights := s.flights ++ [{ id := s.nextId, kind := .fbar, team := r.t, crs := r.c, lane := l, core := r.core, peer := g }]
    nextId := s.nextId + 1 } r.t r.c (fun C => { C with fbarEp := some (g, ep) })

/-- R390: the episode of an earlier issue is used up when the instruction ends, in a fault too. -/
def execFbar (o : Ops) (s : State) : Host.Outcome State Fault Refusal :=
  withRun o {} s (fun r => (r.modCourse (fun C => { C with fbarEp := none })).once (fun l => r.s0.groupFault (r.a l) 0) (fun r l =>
    let g := (r.a l).toNat
    match r.C.fbarEp with
    | none =>
      let ws := r.fbarWaits
      if !ws.isEmpty then r.park ws
      else
        let G := r.s0.group g
        let ep := G.episode + G.arrived + r.s0.arriving g
        r.parkWith (r.arrive g l ep) [.fbar g ep]
    | some (g, ep) =>
      if (r.s0.group g).episode ≤ ep then r.park [.fbar g ep]
      else
        let r := r.write (fun _ => { val := wordOf ep })
        { r with s := r.s.acquire r.core 8 }.finish))

/-- Every member has arrived in the episode (R390). -/
def State.episodeDue (s : State) (g : Nat) : Bool :=
  let G := s.group g
  G.arrived != 0 && G.members.all (fun d => mapGet 0 d G.peerArr != 0)

/-- The oldest open episode of a group is complete (R390). -/
def Group.nextEpisode (G : Group) : Group :=
  { G with
    episode := G.episode + 1
    arrived := G.arrived - 1
    peerArr := G.members.map (fun d => (d, mapGet 0 d G.peerArr - 1)) }

/-- R390. -/
def execFbarEpisodeComplete (group : Nat) (s : State) : Host.Outcome State Fault Refusal :=
  if s.episodeDue group then .next (s.modGroup group Group.nextEpisode) else .next s

end Sys2Proof.Machine
end

