-- ==== Sys2Proof/Machine/Mgmt.lean ====
section
/-! DEFINITION. Bring-up and attestation (R395 to R398), the Cone governor (R367, R368), power (R404, R405), RAS (R400 to R402),
the management endpoint (R407), the device number (R17), and what the world outside hands in. -/

namespace Sys2Proof.Machine

/-! ### Bring-up -/

/-- A failure of a stage that comes from outside (R395): the fuses cannot be read, or a link or memory cannot be trained, and the ERROR that
it leaves. -/
def bootFailure (f : Nat × Nat) : Bool := [(1, 1), (4, 5)].contains f

/-- HBM4E is zeroed with correct ECC (R395); the windows keep their contents (R203). -/
def State.zeroMemory (s : State) : State :=
  { s with mem := s.mem.filter (fun c => isWindow c.1), poison := s.poison.filter isWindow }

/-- Every column, changed. -/
def State.allCols (s : State) (f : Nat → Column → Column) : State := (List.range 64).foldl (fun (s : State) c => s.modCol c (f c)) s

/-- The service context of a column as it is placed (R229): one supervisor course of 32 lanes with 64 registers, in no team slot. What
its registers hold is not stated, nor where the fault-handling course of the column stands and how many lanes it has: the model gives it a
context of the same form on the same core (R395; notes/assumptions/60). -/
def serviceTeam (core : Nat) : Team :=
  { serial := 0, core := core, slot := 0, node := 0, sup := true, nlanes := 32, split := { regs := 64, loc := 0, l1 := 0 },
    courses := [{ num := 0, seq := 0, lanes := List.replicate 32 { cls := .live } }] }

/-- Bytes as numbers. -/
def byteNums (bs : List Byte) : List Nat := bs.map BitVec.toNat

/-- What the manifest says beside its signature (R396): its key, its version, and each image's SVN and digest. -/
def Flash.manifest (F : Flash) : List Nat := byteNums F.key ++ F.svn :: (F.firmware ++ F.images).flatMap (fun i => [i.svn, i.digest])

/-- What a stage of bring-up loads (R395, R398): the fuses, the manifest, the firmware, the supervisor images; the others load nothing. -/
def State.loaded (s : State) (stage : Nat) : List Nat :=
  match stage with
  | 1 => s.fuseKey :: s.fuseSvn :: (List.range 64).map (fun c => (s.column c).cmap)
  | 2 => s.flash.manifest ++ byteNums s.flash.signature
  | 3 => s.flash.firmware.flatMap (fun i => byteNums i.bytes)
  | 5 => s.flash.images.flatMap (fun i => byteNums i.bytes)
  | _ => []

/-- A supervisor image is loaded into HBM4E (R395). -/
def State.loadImage (s : State) (i : Image) : State :=
  if isHbm (i.base + i.bytes.length) then { s with mem := memPutBytes s.mem i.base i.bytes } else s

/-- Stage 1 (R395, R398): the fuses are read and the identity key is derived. -/
def State.readFuses (s : State) : State :=
  { s with boot := { s.boot with svn := s.fuseSvn % 2 ^ 16, key := Config.idKey s.fuseSeed } }

/-- Firmware that runs may raise the fused SVN, and nothing lowers it (R396): to a free value. -/
def State.raiseSvn (s : State) : State :=
  { s with fuseSvn := max s.fuseSvn (wfld (Config.freeWord s.fresh) 0 16), fresh := s.fresh + 1 }

/-- Stage 5 (R229, R369, R395): the firmware locks DUTY, places the service course and the fault-handling course of every column that has a
service slot, and loads the supervisor images. -/
def State.stage5 (s : State) : State :=
  let s := s.allCols (fun c k =>
    let ctx := k.serviceSlot.map (fun i => serviceTeam (12 * c + i))
    { k with duty := 0x100, service := ctx, handler := ctx })
  s.flash.images.foldl (fun (s : State) i => s.loadImage i) s

/-- The stages up to `n` are done (R395): each records a measurement (R398). -/
def State.bootTo (s : State) (n : Nat) : State :=
  let s : State := { s with boot := { s.boot with stage := n, measures := (List.range n).map (fun i => Config.digest (s.loaded (i + 1))) } }
  let s := if 1 ≤ n then s.readFuses else s
  let s := if 3 ≤ n then s.raiseSvn else s
  let s := if 4 ≤ n then s.zeroMemory else s
  if 5 ≤ n then s.stage5 else s

/-- The monitors are sampled during power-on reset (R366): TEMP of each column is what was measured. -/
def State.sampleTemp (s : State) : State :=
  { s.allCols (fun c k => { k with cone := setFld k.cone 24 8 (wfld (Config.freeWord (s.fresh + c)) 0 8) }) with fresh := s.fresh + 64 }

/-- A column keeps nothing of its own over a power-on reset but its fuses (R12, R18). -/
def Column.resetAll (k : Column) : Column := { cmap := k.cmap }

/-- Every register at its reset value (R12). Memory and windows keep their bytes until bring-up zeroes the first, and what lies outside
the package stays; the counters of the model go on (notes/assumptions/1). -/
def State.powerOn (s : State) : State :=
  { State.reset with
    tick := s.tick, nextId := s.nextId, fresh := s.fresh, born := s.tick, inputs := s.inputs, mem := s.mem, poison := s.poison
    columns := s.columns.map (fun p => (p.1, p.2.resetAll))
    hreads := s.hreads, mreads := s.mreads, notes := s.notes, vectors := s.vectors
    fuseSvn := s.fuseSvn, fuseKey := s.fuseKey, fuseSeed := s.fuseSeed, flash := s.flash }

/-- An image whose bytes do not have the digest that the manifest gives (R395). -/
def Image.spoilt (i : Image) : Bool := Config.digest (byteNums i.bytes) != i.digest

/-- The manifest is signed by the key whose digest is fused (R396). -/
def State.signed (s : State) : Bool :=
  Config.digest (byteNums s.flash.key) == s.fuseKey && Config.verify (byteNums s.flash.key) s.flash.manifest (byteNums s.flash.signature)

/-- The failure that fuses and flash lead to (R395, R396): the manifest's key and signature, its SVN, the digests of the images. -/
def State.bootFails (s : State) : Option (Nat × Nat) :=
  if !s.signed then some (2, 2)
  else if s.flash.svn < s.fuseSvn then some (2, 3)
  else if s.flash.firmware.any (·.spoilt) then some (3, 4)
  else if s.flash.images.any (·.spoilt) then some (5, 6)
  else none

/-- The failure of the lower stage, or of the lower code (notes/assumptions/21). -/
def firstFailure (a b : Option (Nat × Nat)) : Option (Nat × Nat) :=
  match a, b with
  | some x, some y => some (if x.1 * 16 + x.2 ≤ y.1 * 16 + y.2 then x else y)
  | none, y => y
  | x, none => x

/-- Bring-up to stage 6, or up to a stage that fails (R395). -/
def State.bringUp (s : State) : Option (Nat × Nat) → State
  | none => s.bootTo 6
  | some f =>
    let s := s.bootTo (f.1 - 1)
    { s with boot := { s.boot with error := f.2 } }

/-- R395 to R398, R12: every reset value, then bring-up. The reading of the fuses and the training of links and memory fail by `failAt`
(notes/assumptions/21). -/
def execPowerOnReset (failAt : Option (Nat × Nat)) (s : State) : Host.Outcome State Fault Refusal :=
  if failAt.any (fun f => !bootFailure f) then .next s
  else
    let s := s.powerOn.sampleTemp
    .next (s.bringUp (firstFailure failAt s.bootFails))

/-- A report (R398): certificate, measurements, BOOTSTAT and nonce, with the identity key's signature over them. -/
def State.measured (s : State) (nonce : Nat) : List Nat :=
  let body := s.flash.cert :: s.boot.measures ++ [s.bootstat, nonce % 2 ^ 256]
  body ++ [Config.sign s.boot.key body]

/-- The device answers the management interface (R395, R407): from stage 1 onward, and where a stage has failed. -/
def Boot.answers (b : Boot) : Bool := b.stage != 0 || b.error != 0

/-- R398. -/
def execMeasurementReport (nonce : Nat) (s : State) : Host.Outcome State Fault Refusal :=
  if !s.boot.answers then .next s
  else .next { s with boot := { s.boot with report := s.measured nonce } }

/-- R17: the fabric manager sets the device's number in its partition. -/
def execDeviceNumberSet (n : Nat) (s : State) : Host.Outcome State Fault Refusal := .next { s with device := n % 4096 }

/-! ### The Cone governor -/

/-- The step that the governor aims at and its cause (R367): CAP is Max(CONECTL.CAP, PFLOOR) (R404). `coneCnt` counts the
evaluations in which no faster step may come. -/
def Column.coneAim (k : Column) (t : Nat) (droop : Bool) : Nat × Nat :=
  let st := k.coneStep
  let x :=
    if fld k.conectl 24 8 ≤ t then (3, 1)
    else if fld k.conectl 16 8 ≤ t then (min 3 (st + 1), 1)
    else if droop then (min 3 (st + 1), 2)
    else if t < fld k.conectl 8 8 && k.coneCnt = 0 then (st - 1, 1)
    else (st, 0)
  let cap := max (fld k.conectl 0 2) k.pfloor
  if x.1 < cap then (cap, 3) else x

/-- CONE after a step event (R366). -/
def coneAfter (old n cause : Nat) : Nat :=
  setFld (setFld (setFld (setFld old 0 2 n) 3 1 (bit (n < fld old 0 2))) 4 2 cause) 32 32 (fld old 32 32 + 1)

/-- The user teams of a column that accept CONE (R368). -/
def State.coneTeams (s : State) (col : Nat) : List Nat :=
  (s.teams.filter (fun p => coreCol p.2.core == col && !p.2.sup && bitN p.2.utmask.toNat 0x16)).map (·.1)

/-- A step event pends for a course's live lanes, and is delivered at once to one that stands at a batch boundary (R368). -/
def State.coneCourse (s : State) (t c step seq : Nat) : State :=
  (s.modCourse t c (fun C => { C with lanes := C.lanes.map (fun L =>
    if L.cls == .live then { L with cone := some (step, seq) } else L) })).boundary t c

/-- A step event reaches the courses of a column (R368). -/
def State.conePend (s : State) (col : Nat) : State :=
  let x := (s.column col).cone
  (s.coneTeams col).foldl (fun (s : State) t =>
    (List.range (s.team t).courses.length).foldl (fun (s : State) c => s.coneCourse t c (fld x 0 2) (fld x 32 32)) s) s

/-- R367, R368, R404: what the monitors report comes from outside. -/
def execConeEvaluation (col temp : Nat) (droop : Bool) (s : State) : Host.Outcome State Fault Refusal :=
  if 64 ≤ col then .next s
  else
    let t := min temp 255
    let s := s.modCol col (fun k => { k with cone := setFld k.cone 24 8 t })
    let k := s.column col
    let x := k.coneAim t droop
    if x.1 = k.coneStep then .next (s.modCol col (fun k => { k with coneCnt := k.coneCnt - 1 }))
    else
      let s := s.modCol col (fun k => { k with
        cone := coneAfter k.cone x.1 x.2
        coneCnt := if k.coneStep < x.1 then 16 else k.coneCnt - 1 })
      .next ((s.setInt col 3).conePend col)

/-! ### Power -/

/-- TEMP of a column. -/
def State.temp (s : State) (col : Nat) : Nat := fld (s.column col).cone 24 8

/-- The column whose PFLOOR rises (R404). -/
def State.hottest (s : State) : Option Nat := minBy (fun c => 255 - s.temp c) ((List.range 64).filter (fun c => (s.column c).pfloor < 3))
/-- The column whose PFLOOR falls (R404). -/
def State.coolest (s : State) : Option Nat := minBy s.temp ((List.range 64).filter (fun c => (s.column c).pfloor != 0))

/-- PFLOOR of a column, changed. -/
def State.movePfloor (s : State) (c : Option Nat) (f : Nat → Nat) : State :=
  match c with
  | none => s
  | some c => s.modCol c (fun k => { k with pfloor := f k.pfloor })

/-- R404, R405: the package's average comes from outside. -/
def execPowerManagerTick (avg : Nat) (s : State) : Host.Outcome State Fault Refusal :=
  let a := avg % 2 ^ 16
  let s : State := { s with pwravg := a, pwrpeak := max s.pwrpeak a }
  .next (if s.pwrlim < a then s.movePfloor s.hottest (· + 1)
    else if 10 * a < 9 * s.pwrlim then s.movePfloor s.coolest (· - 1) else s)

/-! ### RAS -/

/-- A record goes before one of the same cycle and a higher address (R401). -/
def RasRec.before (r x : RasRec) : Bool := r.cycle == x.cycle && r.loc < x.loc

/-- A record is logged unless the queue of 64 is full (R402); those of one cycle stand in ascending address order (R401). -/
def Column.rasPush (k : Column) (r : RasRec) : Column :=
  { k with raslog := (k.raslog.filter (fun x => !r.before x) ++ r :: k.raslog.filter r.before).take 64 }

/-- LOC of an error as it is logged (R402): a physical address, or a core's number and a byte offset. -/
def rasLoc (unit loc : Nat) : Nat := if unit < 2 then loc % 2 ^ 52 else fld loc 42 10 * 2 ^ 42 + fld loc 0 20

/-- The location of an error (R401): an HBM4E granule, or an 8-byte word of an array. -/
def locKey (unit loc : Nat) : Nat := if unit = 0 then loc / 64 * 64 else loc / 8 * 8

/-- When a location had its last corrected error (R401). -/
def Column.lastAt (k : Column) (unit loc : Nat) : Option Nat :=
  (k.locs.find? (fun x => x.1 == unit && x.2.1 == locKey unit loc)).map (·.2.2)

/-- The table of the 64 most recent locations, with one renewed (R401). -/
def Column.noteLoc (k : Column) (unit loc now : Nat) : Column :=
  let l := k.locs.filter (fun x => !(x.1 == unit && x.2.1 == locKey unit loc)) ++ [(unit, locKey unit loc, now)]
  { k with locs := l.drop (l.length - 64) }

/-- A field that saturates. -/
def satInc (x w : Nat) : Nat := if x + 1 < 2 ^ w then x + 1 else x

/-- R399, R401, R402: no value changes; the error is classified, counted and logged, as transient where classification is stopped
(notes/assumptions/59). -/
def execCorrectedError (col unit loc : Nat) (s : State) : Host.Outcome State Fault Refusal :=
  if 64 ≤ col || 5 < unit then .next s
  else
    let now := s.cycle col
    let k := s.column col
    let loc := rasLoc unit loc
    let lasting := wfld k.rasctl 0 1 = 1 && (k.lastAt unit loc).any (fun t => now - t < 2 ^ wfld k.rasctl 8 8)
    .next (s.modCol col (fun k =>
      let x := setFld k.rasstat.toNat 0 32 (wfld k.rasstat 0 32 + 1)
      let x := if lasting then setFld x 32 16 (satInc (fld x 32 16) 16) else x
      { k.noteLoc unit loc now with rasstat := wordOf x }.rasPush { kind := bit lasting, unit := unit, loc := loc, cycle := now }))

/-- Which word of the core store of a core an offset names is not stated (notes/assumptions/12): a register or temporary of a
lane, a uniform register, or a word of local memory of the team in a slot. -/
def State.hitCore (s : State) (core off : Nat) : State :=
  let x := Config.coreWord core off
  match (s.teamsOn core).find? (fun p => p.2.slot == fld x 0 4) with
  | none => s
  | some (t, T) => match fld x 4 2 with
    | 0 => s.modLane t (fld x 8 5) (fld x 13 5) (fun L => { L with bad := fld x 18 8 % T.split.regs :: L.bad })
    | 1 => s.modLane t (fld x 8 5) (fld x 13 5) (fun L => { L with bad := (0x200 + fld x 18 3) :: L.bad })
    | 2 => s.modTeam t (fun T => { T with kbad := (1 + fld x 18 8 % 255) :: T.kbad })
    | _ => if T.locSize = 0 then s else s.modTeam t (fun T => { T with lbad := (fld x 18 20 % T.locSize / 8 * 8) :: T.lbad })

/-- The word of a location is poisoned (R400). No rule says what reads a word of the other arrays (notes/assumptions/78). -/
def State.poisonAt (s : State) (unit loc : Nat) : State :=
  let core := fld loc 42 10
  let w := fld loc 0 20 / 8 * 8
  match unit with
  | 0 | 1 => if s.portMem (loc / 8 * 8) then { s with poison := (loc / 8 * 8) :: s.poison.filter (· != loc / 8 * 8) } else s
  | 2 => s.modCore core (fun k => { k with bpoison := w :: k.bpoison.filter (· != w) })
  | 3 => s.modCore core (fun k => { k with apoison := w :: k.apoison.filter (· != w) })
  | 4 => s.hitCore core w
  | _ => s.modCore core (fun k => { k with spoison := w :: k.spoison.filter (· != w) })

/-- R400, R402. -/
def execUncorrectableError (col unit loc : Nat) (s : State) : Host.Outcome State Fault Refusal :=
  if 64 ≤ col || 5 < unit then .next s
  else .next ((s.poisonAt unit loc).modCol col (fun k =>
    { k with rasstat := wordOf (setFld k.rasstat.toNat 48 16 (satInc (wfld k.rasstat 48 16) 16)) }.rasPush
      { kind := 2, unit := unit, loc := rasLoc unit loc, cycle := s.cycle col }))

/-! ### The management endpoint -/

/-- Registers that the endpoint reads (R407). -/
def mgmtReads (col off : Nat) : Bool :=
  col < 64 && ([0x008, 0x508, 0x510, 0x518].contains off || (col == 0 && [0x308, 0x608, 0x610].contains off))

/-- Registers that the endpoint writes (R407). -/
def mgmtWrites (col off : Nat) : Bool := col < 64 && ([0x020, 0x500].contains off || (col == 0 && off == 0x600))

/-- Address of a register of a control page (R360). -/
def ctlAddr (col off : Nat) : Nat := 0xF_8000_0010_0000 + col * 4096 + off

/-- R407: reads and writes act as accesses by column core 0 (R11, R361). -/
def execManagementRequest (r : Mgmt) (s : State) : Host.Outcome State Fault Refusal :=
  if !s.boot.answers then .next s
  else match r with
    | .report nonce => .next { s with boot := { s.boot with report := s.measured nonce } }
    | .read col off =>
      if !mgmtReads col off || !s.ccReady 0 (.load (ctlAddr col off) 8) then .next s
      else
        let x := s.regRead col off
        .next { x.2 with mreads := mapPut (ctlAddr col off) x.1 x.2.mreads }
    | .write col off v =>
      if !mgmtWrites col off then .next s
      else .next (s.portSend { id := 0, stream := 0, seq := 0, home := 0, pa := ctlAddr col off, size := 8, data := v })

/-! ### What the world outside hands in -/

/-- The oldest input can be taken now: most of them wait for the end of bring-up, and an access for what it comes after. -/
def State.inputReady (s : State) (x : Input) : Bool :=
  match x with
  | .event (.powerOnReset _) | .event (.deviceNumberSet _) | .event (.measurementReport _) | .event (.managementRequest (.write _ _ _))
  | .event (.managementRequest (.report _)) => true
  | .event (.managementRequest (.read col off)) => !s.boot.answers || s.ccReady 0 (.load (ctlAddr col off) 8)
  | .event (.hostRead pa size) => s.hostReadDue pa size
  | .cc col a => s.boot.stage == 6 && s.ccReady col a
  | .peer a => s.boot.stage == 6 && s.fromPeerDue a
  | _ => s.boot.stage == 6

/-- What reaches this device from another member of a glaze group. -/
def State.takeInput (s : State) (x : Input) : State :=
  match x with
  | .event _ => s
  | .cc col a => if col < 64 then s.ccAccess col a else s
  | .peer a => s.takePeer a
  | .members g ds => s.modGroup g (fun G => { G with members := dedupNat (ds.filter (· != s.device)) })
  | .glaze g off size data =>
    if (s.gwin g).en && portSize off size && off + size ≤ ((s.gwin g).sizem1 + 1) * 2 ^ 16 then (s.stampStore g off size data).2 else s
  | .contribution g r => if (s.group g).members.contains r.dev then s.modGroup g (fun G => { G with reds := G.reds ++ [r] }) else s
  | .arrival g dev =>
    if (s.group g).members.contains dev then s.modGroup g (fun G => { G with peerArr := mapMod 0 dev (· + 1) G.peerArr }) else s
  | .applied g n => State.dropApplied (s.modGroup g (fun G => { G with peersApplied := max G.peersApplied n })) g

end Sys2Proof.Machine
end

