-- ==== Sys2Proof/Machine/Quiesce.lean ====
section
/-! DEFINITION. A partition quiesce: its four phases on this device (R391 to R393, R27, R279, R304, R327). -/

namespace Sys2Proof.Machine

/-! ### Stop -/

/-- The epoch after one (R391). -/
def nextEpoch (n : Nat) : Nat := if n ≥ 65535 then 1 else n + 1

/-- REASON of a cause (R393). -/
def causeReason : QCause → Nat
  | .peerLoss _ => 1
  | .checkpoint => 2
  | .lostGroup => 3

/-- The peer that a cause names. -/
def causePeer : QCause → Option Nat
  | .peerLoss p => some (p % 4096)
  | _ => none

/-- R391: a cause that arises while a quiesce runs starts no second one. -/
def execQuiesceStop (cause : QCause) (s : State) : Host.Outcome State Fault Refusal :=
  if s.quiesce.phase != .none then .next s
  else .next { s with quiesce := { s.quiesce with
    phase := .stopped
    epoch := nextEpoch s.quiesce.epoch
    reason := causeReason cause
    peer := causePeer cause
    cause := none } }

/-! ### Drain -/

/-- Every user course stands still (R391). -/
def State.usersStopped (s : State) : Bool := s.teams.all (fun p => p.2.sup || p.2.stopped)

/-- D of an access that is given up receives 0 (R392). -/
def State.giveZero (s : State) (f : Flight) : State := (((s.land f 0 false).dropFlight f.id).setTerr f.team)

/-- The bytes that a posted write to a peer would write. -/
def State.settleBytes (s : State) (f : Flight) : List Byte :=
  if f.kind == .nred then leBytes f.size (aopNew f.aop f.ty (memRead s.mem f.pa f.size) f.data.toNat 0) else f.bytes

/-- A posted write to a peer is performed or discarded, each aligned word by itself (R392): at this device, when it is its own peer, a
free bit says which. -/
def State.settleWrite (s : State) (f : Flight) : State :=
  let bs := s.settleBytes f
  let s := (wordsOf f.pa bs.length).foldl (fun (s : State) (w : Nat) =>
    let keep := s.freeWord.1.getLsbD 0
    let lo := max w f.pa
    let hi := min (w + 8) (f.pa + bs.length)
    if keep then s.freeWord.2.peerPut f lo ((bs.drop (lo - f.pa)).take (hi - lo)) else s.freeWord.2) s
  (s.dropFlight f.id).setTerr f.team

/-- What becomes of an access of the fabric (R392). -/
def State.settleFlight (s : State) (f : Flight) : State :=
  if f.kind == .fred || (f.kind == .gst && f.stage == 0) then s.giveZero f
  else if f.kind == .fbar then s.dropFlight f.id
  else if f.fmode = 0 then s
  else match f.kind with
    | .load | .mmioLoad | .atom => if f.stage = 0 then s.giveZero f else s
    | .pf => s.dropFlight f.id
    | .store => if f.stage < 3 then s.settleWrite f else s
    | .nred => if f.stage = 0 then s.settleWrite f else s
    | _ => s

/-- An open reduction is discarded, and every open episode, which keeps its number: there are as many as the member that has arrived most
often has arrivals, of which `onWay` of this device have still to reach the switch (R390, R392). -/
def Group.settle (G : Group) (onWay : Nat) : Group :=
  { G with
    reds := []
    episode := G.episode + (G.peerArr.map (·.2)).foldl max (G.arrived + onWay)
    arrived := 0
    peerArr := [] }

/-- An episode that is discarded while it is open has a number that never comes (R392): no episode is left that would release the course. -/
def keepEp (episode : Nat → Nat) (x : Nat × Nat) : Nat × Nat := if episode x.1 ≤ x.2 then (x.1, 2 ^ 64) else x

/-- A wait for an open episode, which is discarded. -/
def Wait.keepFbar (episode : Nat → Nat) : Wait → Wait
  | .fbar g ep => .fbar g (keepEp episode (g, ep)).2
  | w => w

/-- A supervisor course parked at the `fbar` of an open episode stays so (R392); one whose episode is complete goes on. -/
def Course.keepFbar (episode : Nat → Nat) (C : Course) : Course :=
  { C with fbarEp := C.fbarEp.map (keepEp episode), parked := C.parked.map (fun ws => ws.map (Wait.keepFbar episode)) }

/-- The same of the courses of a team that a forced save has taken from its core. -/
def SavedTeam.keepFbar (episode : Nat → Nat) (t : SavedTeam) : SavedTeam :=
  { t with fbars := t.fbars.map (fun x => (x.1, x.2.1.map (keepEp episode), x.2.2)) }

/-- Reductions of a group to which every member has contributed are complete (R389), so they are stamped and not discarded (R392). -/
def State.closeReds (s : State) (g : Nat) : Nat → State
  | 0 => s
  | fuel + 1 =>
    match (s.ownReds g).findSome? (fun f => (s.fredSet g f.count).map (fun p => (f.count, p))) with
    | none => s
    | some (off, f, xs) => State.closeReds (s.completeRed g off f xs) g fuel

/-- Episodes of a group in which every member has arrived are complete (R390), so they are not discarded (R392). -/
def State.closeEpisodes (s : State) (g : Nat) : Nat → State
  | 0 => s
  | fuel + 1 => if s.episodeDue g then State.closeEpisodes (s.modGroup g Group.nextEpisode) g fuel else s

/-- What the switch has complete of a group is no longer open (R389, R390). -/
def State.closeGroup (s : State) (g : Nat) : State :=
  (s.closeReds g s.flights.length).closeEpisodes g (s.group g).arrived

/-- Groups with anything at the switch, or on its way there. -/
def State.switchGroups (s : State) : List Nat :=
  dedupNat (s.groups.map (·.1) ++ (s.flights.filter (fun f => f.kind == .fred)).map (·.peer))

/-- A Slip command's counter is zeroed, or its slot or half filled with ERR, at once (R27, R279); a push waits for room (R262). -/
def State.quiesceSlip (s : State) (core : Nat) (c : SlipCmd) : State :=
  let c' := { c with err := true, todo := [], landing := [], stall := none, fail := none }
  let s := (s.dropSlip core c).setTerr c.team
  if c'.completeDue then s.completeSlip core c' else s

/-- A half that is filling becomes filled with ERR (R279). -/
def BRing.quiesce (b : BRing) : BRing :=
  let e0 := b.st0 == 1
  let e1 := b.st1 == 1
  { b with
    st0 := if e0 then 2 else b.st0
    st1 := if e1 then 2 else b.st1
    err0 := b.err0 || e0
    err1 := b.err1 || e1
    last0 := b.last0 || e0
    last1 := b.last1 || e1
    curv := b.curv && !(if b.cur = 0 then e0 else e1) }

/-- A Wheel command that has not started is discarded (R304): what it would have reported is reported as abandoned. -/
def State.quiesceWheel (s : State) (core : Nat) (w : WCmd) : State :=
  if w.running then s
  else
    let drop (s : State) : State := s.modCore core (fun k => { k.dropLocks w.id with wheel := k.wheel.filter (fun x => x.id != w.id) })
    let s := s.setTerr w.team
    match w.op with
    | .loop _ _ _ _ | .drain _ _ _ _ =>
      let s := s.landed w.team w.report w.count
      ((s.modTeam w.team (·.setLines w.lines)).modWheel core w.id (fun w => { w with
        started := true, isOver := true, err := true, count := 0, req := none, stall := none })).modCore core (fun k => k.dropLocks w.id)
    | .rd ls d => drop (ls.foldl (fun s p =>
        let x := s.freeWord
        x.2.modLane w.team w.crs p.1 (fun L => L.vPut d x.1)) s)
    | _ => drop s

/-- A Coil command is abandoned, with no CARRY (R325, R327). -/
def State.quiesceCil (s : State) (core : Nat) (w : CilCmd) : State :=
  ((s.modCoil core (fun u => { u with err := true })).endCil core w true).setTerr w.team

/-- Carries, unsealed jobs and group buffers are emptied; CREG and the operator are kept (R327). -/
def Coil.quiesce (u : Coil) : Coil :=
  { u with link := [], wire := [], missed := [], out := none, unsealed := [], seals := [], groups := [[], [], [], []] }

/-- What a quiesce does to the engines of a core. The Wheel comes first: a loop that still waits for a half is discarded and takes none of
those that a copy given up now fills (R279, R304, R305). -/
def State.quiesceCore (s : State) (core : Nat) : State :=
  let s := (s.core core).wheel.foldl (fun (s : State) (w : WCmd) => s.quiesceWheel core w) s
  let s := (s.core core).slips.foldl (fun (s : State) (c : SlipCmd) => s.quiesceSlip core c) s
  let s := s.modCore core (fun k => { k with bring := k.bring.quiesce })
  let s := (s.core core).coil.queue.foldl (fun (s : State) (w : CilCmd) => s.quiesceCil core w) s
  (s.modCore core (fun k => { k with coil := k.coil.quiesce })).serveHalves core 2

/-- The settlement of R392. -/
def State.settleAll (s : State) : State :=
  let s := s.switchGroups.foldl State.closeGroup s
  let onWay := s.arriving
  let episode (g : Nat) : Nat := (s.group g).episode
  let s := s.flights.foldl (fun (s : State) (f : Flight) => s.settleFlight f) s
  let s : State := { s with groups := s.groups.map (fun p => (p.1, p.2.settle (onWay p.1))) }
  let s : State := { s with teams := s.teams.map (fun p => (p.1, { p.2 with courses := p.2.courses.map (Course.keepFbar episode) })) }
  let s : State := { s with pool := s.pool.map (fun n => { n with saved := n.saved.map (SavedTeam.keepFbar episode) }) }
  let s := s.cores.foldl (fun (s : State) (p : Nat × Core) => s.quiesceCore p.1) s
  s.teams.foldl (fun (s : State) (p : Nat × Team) => s.releaseBars p.1) s

/-- The Drain phase can end: every user course has stopped (R391). -/
def State.qdrainDue (s : State) : Bool := s.quiesce.phase == .stopped && s.usersStopped

/-- R391, R392. -/
def execQuiesceDrain (s : State) : Host.Outcome State Fault Refusal :=
  if !s.qdrainDue then .next s
  else
    let s := s.settleAll
    .next { s with quiesce := { s.quiesce with phase := .drained } }

/-! ### Reconfigure -/

/-- Lost devices leave a group. -/
def Group.remove (lost : List Nat) (G : Group) : Group :=
  { G with
    members := G.members.filter (fun d => !lost.contains d)
    reds := G.reds.filter (fun x => !lost.contains x.dev)
    peerArr := G.peerArr.filter (fun p => !lost.contains p.1) }

/-- The stamped store with the next number, where the sequencer still has it. -/
def State.sequenced (s : State) (g : Nat) : Option GStore :=
  match s.nextStore g with
  | some x => some x
  | none => (s.group g).buffer.find? (fun x => x.stamp == (s.gwin g).applied + 1)

/-- The invalidations of a write, and what stands before them in their channels, reach the replica slices (R208): the write is then
performed at device scope. -/
def State.finishWrite (s : State) (wid : Nat) : State :=
  s.columns.foldl (fun (s : State) p =>
    if p.2.inval.any (fun x => x.2.2 == some wid) then p.2.inval.foldl (fun (s : State) x => s.applyInval p.1 x) s else s) s

/-- Apply a group's stamped stores here, in order, each of them performed at device scope before its number is applied (R391, R384). -/
def State.applyStamped (s : State) (g : Nat) : Nat → State
  | 0 => s
  | fuel + 1 =>
    if (s.gwin g).lost || (s.group g).next ≤ (s.gwin g).applied + 1 then s
    else match (s.group g).applying, s.sequenced g with
      | some w, _ => State.applyStamped ((s.finishWrite w).setApplied g ((s.gwin g).applied + 1)) g fuel
      | none, some x =>
        let wid := s.nextId
        State.applyStamped (((State.applyBytes { s with nextId := wid + 1 } g x (some wid)).finishWrite wid).setApplied g x.stamp) g fuel
      | none, none => s.modGwin g (fun w => { w with lost := true })

/-- Every surviving member has applied what was stamped (R391). -/
def State.allApplied (s : State) (g : Nat) : State :=
  State.dropApplied (s.modGroup g (fun G => { G with peersApplied := max G.peersApplied (G.next - 1) })) g

/-- A group in the Reconfigure phase. -/
def State.reconfigure (s : State) (lost : List Nat) (g : Nat) : State :=
  let s := s.modGroup g (Group.remove lost)
  if (s.gwin g).en then (s.applyStamped g ((s.group g).next - (s.gwin g).applied)).allApplied g else s

/-- R391. -/
def execQuiesceReconfigure (lost : List Nat) (s : State) : Host.Outcome State Fault Refusal :=
  if s.quiesce.phase != .drained then .next s
  else
    let s := (s.groups.map (·.1)).foldl (fun (s : State) g => s.reconfigure lost g) s
    .next { s with quiesce := { s.quiesce with phase := .reconfigured } }

/-! ### Resume -/

/-- QUIESCE pends for a course. -/
def State.pendQuiesce (s : State) (t c : Nat) : State :=
  { s with quiesce := { s.quiesce with pendCk := (t, c) :: s.quiesce.pendCk.filter (· != (t, c)) } }

/-- QUIESCE reaches a resident course (R393): one that is suspended takes it once it is resumed. -/
def State.quiesceCourse (s : State) (t c : Nat) : State :=
  let C := s.course t c
  if C.finished then s else if C.suspended then s.pendQuiesce t c else s.takeQuiesce t c

/-- QUIESCE for the courses of a team. -/
def State.quiesceTeam (s : State) (t : Nat) : State :=
  (List.range (s.team t).courses.length).foldl (fun (s : State) c => s.quiesceCourse t c) s

/-- QUIESCE pends for the courses of the saved user teams. -/
def State.quiesceSaved (s : State) (n : PoolNode) : State :=
  if nrSup n.words then s
  else n.saved.foldl (fun (s : State) (t : SavedTeam) =>
    (List.range (nrCourses n.words)).foldl (fun (s : State) c => s.pendQuiesce t.serial c) s) s

/-- R391, R393. -/
def execQuiesceResume (s : State) : Host.Outcome State Fault Refusal :=
  if s.quiesce.phase != .reconfigured then .next s
  else
    let s : State := { s with
      fstat := setFld s.fstat 48 16 s.quiesce.epoch
      quiesce := { s.quiesce with phase := .none } }
    let s := s.teams.foldl (fun (s : State) (p : Nat × Team) => if p.2.sup then s else s.quiesceTeam p.1) s
    .next (s.pool.foldl (fun (s : State) (n : PoolNode) => s.quiesceSaved n) s)

end Sys2Proof.Machine
end

