-- ==== Sys2Proof/Machine/Dispatch.lean ====
section
/-! DEFINITION. One arm per row of the opcode table: the meaning of each instruction and event. -/

namespace Sys2Proof.Machine

def exec (i : Instr) (s : State) : Host.Outcome State Fault Refusal :=
  match i with
  | .nop o => Sys2Proof.Machine.execNop o s
  | .btl o count yld => Sys2Proof.Machine.execBtl o count yld s
  | .suspensionRecordPush col => Sys2Proof.Machine.execSuspensionRecordPush col s
  | .bra o off => Sys2Proof.Machine.execBra o off s
  | .brx o => Sys2Proof.Machine.execBrx o s
  | .call o off => Sys2Proof.Machine.execCall o off s
  | .callx o => Sys2Proof.Machine.execCallx o s
  | .ret o => Sys2Proof.Machine.execRet o s
  | .exit o => Sys2Proof.Machine.execExit o s
  | .trap o code => Sys2Proof.Machine.execTrap o code s
  | .yield o => Sys2Proof.Machine.execYield o s
  | .bar o id => Sys2Proof.Machine.execBar o id s
  | .pldr o quad => Sys2Proof.Machine.execPldr o quad s
  | .pand o => Sys2Proof.Machine.execPand o s
  | .por o => Sys2Proof.Machine.execPor o s
  | .pxor o => Sys2Proof.Machine.execPxor o s
  | .pandn o => Sys2Proof.Machine.execPandn o s
  | .pnot o => Sys2Proof.Machine.execPnot o s
  | .pmov o => Sys2Proof.Machine.execPmov o s
  | .voteAny o seg => Sys2Proof.Machine.execVoteAny o seg s
  | .voteAll o seg => Sys2Proof.Machine.execVoteAll o seg s
  | .voteBallot o seg => Sys2Proof.Machine.execVoteBallot o seg s
  | .voteCount o seg => Sys2Proof.Machine.execVoteCount o seg s
  | .xset o limit => Sys2Proof.Machine.execXset o limit s
  | .xadd o => Sys2Proof.Machine.execXadd o s
  | .qbind o => Sys2Proof.Machine.execQbind o s
  | .qstat o => Sys2Proof.Machine.execQstat o s
  | .srd o num => Sys2Proof.Machine.execSrd o num s
  | .swr o num => Sys2Proof.Machine.execSwr o num s
  | .tret o => Sys2Proof.Machine.execTret o s
  | .sret o => Sys2Proof.Machine.execSret o s
  | .csave o => Sys2Proof.Machine.execCsave o s
  | .cloadLd o => Sys2Proof.Machine.execCloadLd o s
  | .cloadRun o => Sys2Proof.Machine.execCloadRun o s
  | .cloadGo o => Sys2Proof.Machine.execCloadGo o s
  | .cloadEnd o => Sys2Proof.Machine.execCloadEnd o s
  | .add o ty sat => Sys2Proof.Machine.execAdd o ty sat s
  | .sub o ty sat => Sys2Proof.Machine.execSub o ty sat s
  | .mul o ty sat => Sys2Proof.Machine.execMul o ty sat s
  | .mulh o ty => Sys2Proof.Machine.execMulh o ty s
  | .mad o ty sat => Sys2Proof.Machine.execMad o ty sat s
  | .madw o ty sat => Sys2Proof.Machine.execMadw o ty sat s
  | .div o ty sat => Sys2Proof.Machine.execDiv o ty sat s
  | .rem o ty => Sys2Proof.Machine.execRem o ty s
  | .min o ty => Sys2Proof.Machine.execMin o ty s
  | .max o ty => Sys2Proof.Machine.execMax o ty s
  | .abs o ty sat => Sys2Proof.Machine.execAbs o ty sat s
  | .neg o ty sat => Sys2Proof.Machine.execNeg o ty sat s
  | .and o ty => Sys2Proof.Machine.execAnd o ty s
  | .or o ty => Sys2Proof.Machine.execOr o ty s
  | .xor o ty => Sys2Proof.Machine.execXor o ty s
  | .not o ty => Sys2Proof.Machine.execNot o ty s
  | .andn o ty => Sys2Proof.Machine.execAndn o ty s
  | .shl o ty sat => Sys2Proof.Machine.execShl o ty sat s
  | .shr o ty => Sys2Proof.Machine.execShr o ty s
  | .sra o ty => Sys2Proof.Machine.execSra o ty s
  | .rot o ty => Sys2Proof.Machine.execRot o ty s
  | .clz o ty => Sys2Proof.Machine.execClz o ty s
  | .popc o ty => Sys2Proof.Machine.execPopc o ty s
  | .brev o ty => Sys2Proof.Machine.execBrev o ty s
  | .ctz o ty => Sys2Proof.Machine.execCtz o ty s
  | .bfx o ty => Sys2Proof.Machine.execBfx o ty s
  | .bfi o ty pos len => Sys2Proof.Machine.execBfi o ty pos len s
  | .prmt o => Sys2Proof.Machine.execPrmt o s
  | .sel o ty => Sys2Proof.Machine.execSel o ty s
  | .cmp o ty cond => Sys2Proof.Machine.execCmp o ty cond s
  | .addc o ty sub co => Sys2Proof.Machine.execAddc o ty sub co s
  | .lea o sh sx => Sys2Proof.Machine.execLea o sh sx s
  | .mov o => Sys2Proof.Machine.execMov o s
  | .ldiF96 o ty imm => Sys2Proof.Machine.execLdiF96 o ty imm s
  | .ldiF128 o ty imm => Sys2Proof.Machine.execLdiF128 o ty imm s
  | .fadd o m => Sys2Proof.Machine.execFadd o m s
  | .fsub o m => Sys2Proof.Machine.execFsub o m s
  | .fmul o m => Sys2Proof.Machine.execFmul o m s
  | .ffma o m => Sys2Proof.Machine.execFfma o m s
  | .fmin o m nan => Sys2Proof.Machine.execFmin o m nan s
  | .fmax o m nan => Sys2Proof.Machine.execFmax o m nan s
  | .fcmp o m cond => Sys2Proof.Machine.execFcmp o m cond s
  | .fclass o m => Sys2Proof.Machine.execFclass o m s
  | .frnd o m nx => Sys2Proof.Machine.execFrnd o m nx s
  | .fdiv o m => Sys2Proof.Machine.execFdiv o m s
  | .fsqrt o m => Sys2Proof.Machine.execFsqrt o m s
  | .frcp o m => Sys2Proof.Machine.execFrcp o m s
  | .frsq o m => Sys2Proof.Machine.execFrsq o m s
  | .fex2 o m => Sys2Proof.Machine.execFex2 o m s
  | .flg2 o m => Sys2Proof.Machine.execFlg2 o m s
  | .fsin o m => Sys2Proof.Machine.execFsin o m s
  | .fcos o m => Sys2Proof.Machine.execFcos o m s
  | .ftanh o m => Sys2Proof.Machine.execFtanh o m s
  | .fdot2 o m => Sys2Proof.Machine.execFdot2 o m s
  | .fscal o m => Sys2Proof.Machine.execFscal o m s
  | .cvt o dt st rm => Sys2Proof.Machine.execCvt o dt st rm s
  | .cvtmxQ o dt st rm => Sys2Proof.Machine.execCvtmxQ o dt st rm s
  | .cvtmxD o dt st rm grp => Sys2Proof.Machine.execCvtmxD o dt st rm grp s
  | .cvtmxS o dt => Sys2Proof.Machine.execCvtmxS o dt s
  | .pk o dt st rm => Sys2Proof.Machine.execPk o dt st rm s
  | .upk o dt st hi => Sys2Proof.Machine.execUpk o dt st hi s
  | .shfl o mode seg => Sys2Proof.Machine.execShfl o mode seg s
  | .qx o mode => Sys2Proof.Machine.execQx o mode s
  | .qbc o lane => Sys2Proof.Machine.execQbc o lane s
  | .credc o ty op seg => Sys2Proof.Machine.execCredc o ty op seg s
  | .cscan o ty op seg excl => Sys2Proof.Machine.execCscan o ty op seg excl s
  | .matchx o ty seg => Sys2Proof.Machine.execMatchx o ty seg s
  | .ld o m => Sys2Proof.Machine.execLd o m s
  | .st o m => Sys2Proof.Machine.execSt o m s
  | .ldl o m => Sys2Proof.Machine.execLdl o m s
  | .stl o m => Sys2Proof.Machine.execStl o m s
  | .ldr o m => Sys2Proof.Machine.execLdr o m s
  | .str o m => Sys2Proof.Machine.execStr o m s
  | .ldk o m => Sys2Proof.Machine.execLdk o m s
  | .pf o msc span off => Sys2Proof.Machine.execPf o msc span off s
  | .latom o m => Sys2Proof.Machine.execLatom o m s
  | .lpresQ o off => Sys2Proof.Machine.execLpresQ o off s
  | .lpresClr o off => Sys2Proof.Machine.execLpresClr o off s
  | .lpresSet o off => Sys2Proof.Machine.execLpresSet o off s
  | .tlbi o kind scope => Sys2Proof.Machine.execTlbi o kind scope s
  | .asgen o => Sys2Proof.Machine.execAsgen o s
  | .translationWalkDone col asid page => Sys2Proof.Machine.execTranslationWalkDone col asid page s
  | .generationRefusal id => Sys2Proof.Machine.execGenerationRefusal id s
  | .loadDataLands id => Sys2Proof.Machine.execLoadDataLands id s
  | .fence o acq rel sc scope => Sys2Proof.Machine.execFence o acq rel sc scope s
  | .cflush o scope off => Sys2Proof.Machine.execCflush o scope off s
  | .cwb o scope off => Sys2Proof.Machine.execCwb o scope off s
  | .cinv o scope off => Sys2Proof.Machine.execCinv o scope off s
  | .cspan o scope span off => Sys2Proof.Machine.execCspan o scope span off s
  | .rangeOpAtSlice id col => Sys2Proof.Machine.execRangeOpAtSlice id col s
  | .sliceRead id => Sys2Proof.Machine.execSliceRead id s
  | .sliceWrite id => Sys2Proof.Machine.execSliceWrite id s
  | .homeStreamWrite home stream => Sys2Proof.Machine.execHomeStreamWrite home stream s
  | .replicationSwitch col region => Sys2Proof.Machine.execReplicationSwitch col region s
  | .replicationCounterHalving col => Sys2Proof.Machine.execReplicationCounterHalving col s
  | .replicaInvalidation col => Sys2Proof.Machine.execReplicaInvalidation col s
  | .nred o op ty scope off => Sys2Proof.Machine.execNred o op ty scope off s
  | .nredAtHome id => Sys2Proof.Machine.execNredAtHome id s
  | .wwait o tout off => Sys2Proof.Machine.execWwait o tout off s
  | .waitEntryEnd id => Sys2Proof.Machine.execWaitEntryEnd id s
  | .waitDeadlineExpiry id => Sys2Proof.Machine.execWaitDeadlineExpiry id s
  | .wwake o => Sys2Proof.Machine.execWwake o s
  | .mswin o => Sys2Proof.Machine.execMswin o s
  | .atom o op ty ord scope off => Sys2Proof.Machine.execAtom o op ty ord scope off s
  | .atomAtOwner id => Sys2Proof.Machine.execAtomAtOwner id s
  | .serviceReply id => Sys2Proof.Machine.execServiceReply id s
  | .txb o => Sys2Proof.Machine.execTxb o s
  | .txld o off => Sys2Proof.Machine.execTxld o off s
  | .txst o off => Sys2Proof.Machine.execTxst o off s
  | .txe o ord scope pn => Sys2Proof.Machine.execTxe o ord scope pn s
  | .txCommitAtOwner id => Sys2Proof.Machine.execTxCommitAtOwner id s
  | .txa o => Sys2Proof.Machine.execTxa o s
  | .dalloc o pn => Sys2Proof.Machine.execDalloc o pn s
  | .dfree o => Sys2Proof.Machine.execDfree o s
  | .slipLd o ring e => Sys2Proof.Machine.execSlipLd o ring e s
  | .slipSt o e => Sys2Proof.Machine.execSlipSt o e s
  | .slipRl o ring e => Sys2Proof.Machine.execSlipRl o ring e s
  | .slipBs o e => Sys2Proof.Machine.execSlipBs o e s
  | .slipx o bs ring tgt e => Sys2Proof.Machine.execSlipx o bs ring tgt e s
  | .slipc o lb e => Sys2Proof.Machine.execSlipc o lb e s
  | .copyPieceLands id piece => Sys2Proof.Machine.execCopyPieceLands id piece s
  | .copyComplete id => Sys2Proof.Machine.execCopyComplete id s
  | .completionPortPush id => Sys2Proof.Machine.execCompletionPortPush id s
  | .slipTranslationRewalk id => Sys2Proof.Machine.execSlipTranslationRewalk id s
  | .slipStallTimeout id => Sys2Proof.Machine.execSlipStallTimeout id s
  | .commandAbandon id => Sys2Proof.Machine.execCommandAbandon id s
  | .tlr o addr => Sys2Proof.Machine.execTlr o addr s
  | .rinit o n => Sys2Proof.Machine.execRinit o n s
  | .rwait o => Sys2Proof.Machine.execRwait o s
  | .rwaitB o => Sys2Proof.Machine.execRwaitB o s
  | .rrel o => Sys2Proof.Machine.execRrel o s
  | .rrelB o => Sys2Proof.Machine.execRrelB o s
  | .rstatRing o => Sys2Proof.Machine.execRstatRing o s
  | .rstatB o => Sys2Proof.Machine.execRstatB o s
  | .rstatSt o => Sys2Proof.Machine.execRstatSt o s
  | .rstatStc o => Sys2Proof.Machine.execRstatStc o s
  | .wcfg o => Sys2Proof.Machine.execWcfg o s
  | .wzero o => Sys2Proof.Machine.execWzero o s
  | .wloop o m => Sys2Proof.Machine.execWloop o m s
  | .wheelCommandStart core => Sys2Proof.Machine.execWheelCommandStart core s
  | .wloopComplete core => Sys2Proof.Machine.execWloopComplete core s
  | .wdrain o m => Sys2Proof.Machine.execWdrain o m s
  | .wdrainComplete core => Sys2Proof.Machine.execWdrainComplete core s
  | .waccRd o => Sys2Proof.Machine.execWaccRd o s
  | .waccWr o => Sys2Proof.Machine.execWaccWr o s
  | .wstat o clr => Sys2Proof.Machine.execWstat o clr s
  | .cdef o op tout => Sys2Proof.Machine.execCdef o op tout s
  | .cdefFree o => Sys2Proof.Machine.execCdefFree o s
  | .cjob o m => Sys2Proof.Machine.execCjob o m s
  | .cjobComplete core => Sys2Proof.Machine.execCjobComplete core s
  | .carrySend core => Sys2Proof.Machine.execCarrySend core s
  | .carryArrive core => Sys2Proof.Machine.execCarryArrive core s
  | .carryLimitExpiry core => Sys2Proof.Machine.execCarryLimitExpiry core s
  | .cseal o => Sys2Proof.Machine.execCseal o s
  | .ccarLd o scope loc => Sys2Proof.Machine.execCcarLd o scope loc s
  | .ccarSt o scope loc => Sys2Proof.Machine.execCcarSt o scope loc s
  | .cstat o clr => Sys2Proof.Machine.execCstat o clr s
  | .nsig o => Sys2Proof.Machine.execNsig o s
  | .nwait o => Sys2Proof.Machine.execNwait o s
  | .nlaunch o prio col => Sys2Proof.Machine.execNlaunch o prio col s
  | .launchStore col prio val auth flight => Sys2Proof.Machine.execLaunchStore col prio val auth flight s
  | .dispatchRecord col => Sys2Proof.Machine.execDispatchRecord col s
  | .heldNodeEnterPool col => Sys2Proof.Machine.execHeldNodeEnterPool col s
  | .teamPlace node => Sys2Proof.Machine.execTeamPlace node s
  | .splitReservation node => Sys2Proof.Machine.execSplitReservation node s
  | .teamRetire team => Sys2Proof.Machine.execTeamRetire team s
  | .nodeComplete node => Sys2Proof.Machine.execNodeComplete node s
  | .priorityDrain node => Sys2Proof.Machine.execPriorityDrain node s
  | .drain core => Sys2Proof.Machine.execDrain core s
  | .drainLimitExpiry core => Sys2Proof.Machine.execDrainLimitExpiry core s
  | .forcedSave team => Sys2Proof.Machine.execForcedSave team s
  | .restore node team => Sys2Proof.Machine.execRestore node team s
  | .parkEviction core => Sys2Proof.Machine.execParkEviction core s
  | .gst o size off => Sys2Proof.Machine.execGst o size off s
  | .glazeStamp group => Sys2Proof.Machine.execGlazeStamp group s
  | .glazeApply group => Sys2Proof.Machine.execGlazeApply group s
  | .glazeReplayRequest group => Sys2Proof.Machine.execGlazeReplayRequest group s
  | .gwait o tout => Sys2Proof.Machine.execGwait o tout s
  | .gwaitTimeout team crs => Sys2Proof.Machine.execGwaitTimeout team crs s
  | .gsn o => Sys2Proof.Machine.execGsn o s
  | .fred o op ty off => Sys2Proof.Machine.execFred o op ty off s
  | .fredComplete group off => Sys2Proof.Machine.execFredComplete group off s
  | .fbar o => Sys2Proof.Machine.execFbar o s
  | .fbarEpisodeComplete group => Sys2Proof.Machine.execFbarEpisodeComplete group s
  | .fabricRequestAtPeer id data refused => Sys2Proof.Machine.execFabricRequestAtPeer id data refused s
  | .fabricTimerExpiry id => Sys2Proof.Machine.execFabricTimerExpiry id s
  | .quiesceStop cause => Sys2Proof.Machine.execQuiesceStop cause s
  | .quiesceDrain => Sys2Proof.Machine.execQuiesceDrain s
  | .quiesceReconfigure lost => Sys2Proof.Machine.execQuiesceReconfigure lost s
  | .quiesceResume => Sys2Proof.Machine.execQuiesceResume s
  | .waitaddrWrite col val => Sys2Proof.Machine.execWaitaddrWrite col val s
  | .columnWaitEnd col => Sys2Proof.Machine.execColumnWaitEnd col s
  | .wakeWrite col val => Sys2Proof.Machine.execWakeWrite col val s
  | .columnTaskHandoff node => Sys2Proof.Machine.execColumnTaskHandoff node s
  | .taskqPop col => Sys2Proof.Machine.execTaskqPop col s
  | .taskdoneWrite col val => Sys2Proof.Machine.execTaskdoneWrite col val s
  | .suspqPop col => Sys2Proof.Machine.execSuspqPop col s
  | .migqPop => Sys2Proof.Machine.execMigqPop s
  | .raslogPop col => Sys2Proof.Machine.execRaslogPop col s
  | .hostNotification node => Sys2Proof.Machine.execHostNotification node s
  | .powerOnReset failAt => Sys2Proof.Machine.execPowerOnReset failAt s
  | .storeAcknowledgement id ack => Sys2Proof.Machine.execStoreAcknowledgement id ack s
  | .ccarComplete core => Sys2Proof.Machine.execCcarComplete core s
  | .dallocAtServiceCourse id => Sys2Proof.Machine.execDallocAtServiceCourse id s
  | .dfreeAtOwner id => Sys2Proof.Machine.execDfreeAtOwner id s
  | .pwrnowRead => Sys2Proof.Machine.execPwrnowRead s
  | .coneEvaluation col temp droop => Sys2Proof.Machine.execConeEvaluation col temp droop s
  | .powerManagerTick avg => Sys2Proof.Machine.execPowerManagerTick avg s
  | .drainreqWrite col val => Sys2Proof.Machine.execDrainreqWrite col val s
  | .arenaWrite col n hi val => Sys2Proof.Machine.execArenaWrite col n hi val s
  | .pinmapWrite n hi val => Sys2Proof.Machine.execPinmapWrite n hi val s
  | .gwinWrite g hi val => Sys2Proof.Machine.execGwinWrite g hi val s
  | .registerWrite col off val => Sys2Proof.Machine.execRegisterWrite col off val s
  | .hostWrite kind pa size val => Sys2Proof.Machine.execHostWrite kind pa size val s
  | .hostRead pa size => Sys2Proof.Machine.execHostRead pa size s
  | .correctedError col unit loc => Sys2Proof.Machine.execCorrectedError col unit loc s
  | .uncorrectableError col unit loc => Sys2Proof.Machine.execUncorrectableError col unit loc s
  | .measurementReport nonce => Sys2Proof.Machine.execMeasurementReport nonce s
  | .managementRequest r => Sys2Proof.Machine.execManagementRequest r s
  | .deviceNumberSet n => Sys2Proof.Machine.execDeviceNumberSet n s

end Sys2Proof.Machine
end

