-- ==== Sys2Proof/Machine/Due.lean ====
section
/-! DEFINITION. Which events are due in a state: those whose cause the state holds (spec/95_what_each_step_holds.md). -/

namespace Sys2Proof.Machine

/-- An event where its condition holds. -/
def offer (b : Bool) (i : Instr) : List Instr := if b then [i] else []

/-- Bring-up (R395). -/
def State.dueBoot (s : State) : List Instr := offer (s.boot.stage == 0 && s.boot.error == 0) (.powerOnReset none)

/-- Events of an access in flight. -/
def State.dueFlight (s : State) (f : Flight) : List Instr :=
  offer (s.refusalDue f) (.generationRefusal f.id) ++
  offer (s.readDue f || s.nearDue f) (.sliceRead f.id) ++
  offer (s.landDue f) (.loadDataLands f.id) ++
  offer (s.writeDue f) (.sliceWrite f.id) ++
  ([Ack.near, .home, .last].filter (s.ackDue f)).map (fun a => .storeAcknowledgement f.id a) ++
  ((match f.kind with
    | .range _ => f.cols.filter (s.rangeDue f)
    | _ => []).map (fun c => .rangeOpAtSlice f.id c)) ++
  offer (s.nredDue f) (.nredAtHome f.id) ++
  offer (s.waitEndDue f) (.waitEntryEnd f.id) ++
  offer ((s.entryOf f.id).any (fun p => s.expired p.1 p.2)) (.waitDeadlineExpiry f.id) ++
  offer (s.requestDue f .atom) (.atomAtOwner f.id) ++
  offer (s.requestDue f .txe) (.txCommitAtOwner f.id) ++
  offer (s.requestDue f .dalloc) (.dallocAtServiceCourse f.id) ++
  offer (s.freeDue f) (.dfreeAtOwner f.id) ++
  offer (s.replyDue f) (.serviceReply f.id) ++
  ((s.launchOf f).toList.filter (fun x => s.lineRoom x.1 x.2.1)).map (fun x => .launchStore x.1 x.2.1 x.2.2.1 x.2.2.2 (some f.id)) ++
  offer (s.peerDue f || s.switchTakes f) (.fabricRequestAtPeer f.id (Config.freeWord s.fresh) (!peerTakes f.pa)) ++
  offer (s.watches f && f.swz < 3) (.fabricTimerExpiry f.id)

/-- Events of the writes of column cores and the host. -/
def State.duePort (s : State) : List Instr :=
  s.port.flatMap (fun p =>
    offer (s.portReady p) (.homeStreamWrite p.home p.stream) ++ offer (s.portAckDue p) (.storeAcknowledgement p.id .last))

/-- Events of a column. -/
def State.dueColumn (s : State) (col : Nat) (k : Column) : List Instr :=
  k.walking.map (fun w => .translationWalkDone col w.asid w.page) ++
  (k.counters.filter (s.switchDue col)).map (fun c => .replicationSwitch col c.region) ++
  offer (!k.counters.isEmpty && s.halvingDue col) (.replicationCounterHalving col) ++
  offer (!k.inval.isEmpty) (.replicaInvalidation col) ++
  offer (!k.scqWait.isEmpty && k.scq.length < 64) (.suspensionRecordPush col) ++
  offer (!k.held.isEmpty && s.pool.length < 4096) (.heldNodeEnterPool col) ++
  offer (s.dispatchDue col) (.dispatchRecord col) ++
  ((k.waits.filter (fun e => e.who.isNone && e.ended)).map (fun e => .columnWaitEnd e.col)) ++
  (if k.drainreq = 0 then [] else ((List.range 12).filter (fun i => s.drainDue (12 * col + i))).map (fun i => .drain (12 * col + i)))

/-- Events of a Slip command. -/
def State.dueSlip (s : State) (core : Nat) (c : SlipCmd) : List Instr :=
  ((c.todo ++ c.landing.map (·.1)).filter (s.pieceDue core c)).map (fun p => .copyPieceLands c.id p) ++
  offer ((s.slipPeer core c).isSome && mapGet 0 c.id s.timers < 3) (.fabricTimerExpiry c.id) ++
  offer c.completeDue (.copyComplete c.id) ++
  offer (s.slipPushDue c) (.completionPortPush c.id) ++
  offer c.fail.isSome (.commandAbandon c.id)

/-- Events of a stalled command. -/
def State.dueStall (s : State) (id : Nat) : List Instr :=
  match s.stalled? id with
  | none => []
  | some x => offer (s.rewalkDue x) (.slipTranslationRewalk id) ++ offer (s.stallOver x) (.slipStallTimeout id)

/-- The commands of a core that are stalled. -/
def Core.stalledIds (k : Core) : List Nat :=
  (k.slips.filter (fun c => c.stall.isSome)).map (·.id) ++ (k.wheel.filter (fun w => w.stall.isSome)).map (·.id) ++
  (k.coil.queue.filter (fun w => w.stall.isSome)).map (·.id)

/-- Events of a Wheel. -/
def State.dueWheel (s : State) (core : Nat) : List Instr :=
  match s.wheelHead core with
  | none => []
  | some w => offer (s.startDue core) (.wheelCommandStart core) ++ offer (s.wloopDue w) (.wloopComplete core) ++
      offer (s.wdrainDue core w) (.wdrainComplete core)

/-- Events of a Coil unit. -/
def State.dueCoil (s : State) (core : Nat) (u : Coil) : List Instr :=
  (match s.cilHead core with
   | none => []
   | some w => offer (s.cjobDue core w) (.cjobComplete core) ++ offer (s.ccarDue core w) (.ccarComplete core) ++
       offer ((s.cilPeer core w).isSome && mapGet 0 w.id s.timers < 3) (.fabricTimerExpiry w.id) ++
       offer (s.limitOver core w) (.carryLimitExpiry core)) ++
  offer (u.out.isSome && s.sendDue core) (.carrySend core) ++ offer (!u.wire.isEmpty) (.carryArrive core)

/-- Events of a core. -/
def State.dueCore (s : State) (core : Nat) (k : Core) : List Instr :=
  k.slips.flatMap (s.dueSlip core) ++ k.stalledIds.flatMap s.dueStall ++ s.dueWheel core ++ s.dueCoil core k.coil ++
  offer (s.limitPassed core) (.drainLimitExpiry core) ++ offer (!s.pool.isEmpty && (s.evictionOf core).isSome) (.parkEviction core)

/-- Events of a node in the pool. -/
def State.dueNode (s : State) (n : PoolNode) : List Instr :=
  offer ((s.visitOf n.node).isNone && s.nodeDue n.node) (.nodeComplete n.node) ++
  offer (s.toReserve n).isSome (.splitReservation n.node) ++
  offer (s.priorityDrain n).isSome (.priorityDrain n.node) ++
  offer (s.taskDue n) (.columnTaskHandoff n.node) ++
  offer (s.notifyDue n) (.hostNotification n.node)

/-- The next team that the dispatcher places or restores. -/
def State.duePlace (s : State) : List Instr :=
  if s.pool.isEmpty then []
  else match s.nextPlacement with
    | none => []
    | some (n, idx, back, _) => if back then [.restore n.node idx] else [.teamPlace n.node]

/-- Events of a team. -/
def State.dueTeam (s : State) (t : Nat) (T : Team) : List Instr :=
  offer (s.retireDue t) (.teamRetire t) ++
  offer (T.saving && (s.poolNode? T.record).isSome && s.saveStage t != 0) (.forcedSave t) ++
  (T.courses.filter (fun C => s.gwaitOver t C.num)).map (fun C => .gwaitTimeout t C.num)

/-- Events of a glaze group. -/
def State.dueGroup (s : State) (g : Nat) : List Instr :=
  offer (!(s.toStamp g).isEmpty) (.glazeStamp g) ++ offer (s.applyDue g) (.glazeApply g) ++
  offer (s.replayDue g) (.glazeReplayRequest g) ++ offer (s.episodeDue g) (.fbarEpisodeComplete g) ++
  ((dedupNat ((s.ownReds g).map (·.count))).filter (fun off => (s.fredSet g off).isSome)).map (fun off => .fredComplete g off)

/-- Groups with something under way. -/
def State.busyGroups (s : State) : List Nat :=
  dedupNat (s.gwins.map (·.1) ++ s.groups.map (·.1) ++
    (s.flights.filter (fun f => f.kind == .gst || f.kind == .fred || f.kind == .fbar)).map (·.peer))

/-- Phases of a quiesce (R391). -/
def State.dueQuiesce (s : State) : List Instr :=
  match s.quiesce.phase with
  | .none => s.quiesce.cause.toList.map .quiesceStop
  | .stopped => offer s.usersStopped .quiesceDrain
  | .drained => [.quiesceReconfigure s.quiesce.peer.toList]
  | .reconfigured => [.quiesceResume]

/-- The events that are due. -/
def State.due (s : State) : List Instr :=
  s.dueBoot ++ s.flights.flatMap s.dueFlight ++ s.duePort ++ s.columns.flatMap (fun p => s.dueColumn p.1 p.2) ++
  s.cores.flatMap (fun p => s.dueCore p.1 p.2) ++ s.visits.flatMap (fun v => offer (s.nodeDue v.node) (.nodeComplete v.node)) ++
  s.pool.flatMap s.dueNode ++ s.duePlace ++ s.teams.flatMap (fun p => s.dueTeam p.1 p.2) ++ s.busyGroups.flatMap s.dueGroup ++
  s.dueQuiesce

end Sys2Proof.Machine
end

