-- ==== Sys2Proof/Machine/Issue.lean ====
section
/-! DEFINITION. The issue of one instruction by a sequencer (R50, R54, R65, R72): the course is chosen, its batch begins or
goes on, its line is fetched, and either an instruction stands ready for exec or the course waits, is refused or faults. -/

namespace Sys2Proof.Machine

/-- What the issue cycle of a sequencer comes to: an instruction to run in a state, or a state. -/
inductive IssueOut where
  | run (i : Instr) (s : State)
  | done (s : State)

/-- Park a course whose fetch waits for a walk (R171); its lanes keep their place. -/
def State.parkFetch (s : State) (t c page : Nat) (h : Cohort) : State :=
  let s := s.startWalk t page
  let asid := (s.team t).asid
  s.modCourse t c (fun C => { C with
    parked := some [.walk asid page],
    lanes := h.lanes.foldl (fun ls l => ls.modify l (fun L =>
      { L with pc := h.pc, seqIn := h.succIn, pend := true, issued := h.issued })) C.lanes })

/-- A refused fetch: the core drops its TLB entries of the ASID and the course fetches again (R31). -/
def State.refuseFetch (s : State) (t c : Nat) : State :=
  let T := s.team t
  let s := s.dropAsid T.core T.asid
  s.modCourse t c (fun C => { C with refused := C.refused + 1, walked := [], parked := none })

/-- A fetch ends in a fault: what was kept for it (its refusals and the outcome of its walk) is used up, so that the next fetch begins
anew (R31, R171). -/
def State.endFetch (s : State) (t c : Nat) : State := s.modCourse t c (fun C => { C with refused := 0, walked := [] })

/-- The cohort stands at an instruction: its address, successor and the successor of its trailer (R38, R78). -/
def State.standAt (s : State) (t c : Nat) (pc succ : Word) (succIn : Bool) (link : Word) : State :=
  { s.modCourse t c (fun C => { C with
      refused := 0,
      coh := C.coh.map (fun h => { h with pc := pc, succ := succ, succIn := succIn, link := link }) }) with
    focus := some (t, c) }

/-- A fault of a line that was to be entered in sequence, and not of an instruction in it (ILLEGAL and PRIV, R54). -/
def FltRec.atLine (f : FltRec) : Bool := f.cls != 0x01 && f.cls != 0x04

/-- The lanes of a cohort that a fault of the line ahead leaves pending still have that line to enter in sequence once the course
goes on (R38, R107). -/
def State.stillToEnter (s : State) (t c : Nat) (h : Cohort) (f : FltRec) : State :=
  if !(h.succIn && f.atLine) then s
  else h.lanes.foldl (fun s l => s.modLane t c l (fun L => if L.pend then { L with pc := h.pc, seqIn := true } else L)) s

/-- The issue cycle for a course. -/
def State.issueFor (s : State) (core q t c : Nat) : IssueOut :=
  let s := s.takeTurn core q (t, c)
  let fresh := (s.course t c).coh.isNone
  let s := s.setRunning core q (t, c) fresh
  let s := if fresh then s.beginBatch t c else s
  match (s.course t c).coh with
  | none => .done s
  | some h => match s.frontEnd t c h.pc h.succIn h.issued with
    | .wait page => .done (s.parkFetch t c page h)
    | .refuse => .done (s.refuseFetch t c)
    | .fault f pc => .done (((s.endFetch t c).deliver t c (h.lanes.map (fun l => (l, f))) pc pc false h.issued).stillToEnter t c h f)
    | .issue i pc succ succIn link => .run i (s.standAt t c pc succ succIn link)

/-- The issue cycle of a sequencer (R72). -/
def State.issueAt (s : State) (core q : Nat) : IssueOut :=
  match s.pick core q with
  | none => .done s
  | some (t, c) => s.issueFor core q t c

end Sys2Proof.Machine
end

