-- ==== Sys2Proof/Machine/Load.lean ====
section
/-! DEFINITION. A program as it stands when something outside the machine has loaded it (notes/assumptions/4): one
supervisor team of one lane at an instruction of a fetch line that a trailer follows. -/

namespace Sys2Proof.Machine

/-- The word of a trailer that ends a batch of one instruction and awaits nothing (R51). -/
def loadTrailer : Nat := 0x01 * 4 + 48 * 2 ^ 10 + 0x100 * 2 ^ 17 + 0x100 * 2 ^ 27 + 0x100 * 2 ^ 37 + 2 ^ 51

/-- Granules of an instruction whose first byte is known (R36); a length field of 0b11 has none that count here. -/
def loadLen (w : Nat) : Nat := 2 + w % 4

/-- The fetch line that holds the instruction `w` at granule 0, and a trailer after it. -/
def loadLine (w : Nat) : Nat :=
  if w % 4 = 3 then 1 + 2 ^ 30 + w * 2 ^ 64
  else 1 + 2 ^ loadLen w + 2 ^ 30 + w * 2 ^ 64 + loadTrailer * 2 ^ (64 + 32 * loadLen w)

/-- The instructions already counted in the batch: a trailer stands after as many as its COUNT says. -/
def loadIssued (w : Nat) : Nat := if fld w 2 8 = 0x01 then fld w 51 5 else 0

/-- The leaf that translates the page of the line: readable, writable, executable, supervisor only (R164). -/
def loadTlb (gen : Nat) : TlbEnt := { asid := 0, vbase := 0, lvl := 4, gen := gen, pte := 0x1F }

/-- The one course: lane 0 is live and stands inside its batch. -/
def loadCourse (w : Nat) : Course :=
  { num := 0, seq := 0, lastCoh := some [0],
    lanes := (List.range 32).map (fun l =>
      if l = 0 then { cls := .live, pc := 8 } else if l < 4 then { cls := .helper } else {}),
    coh := some { lanes := [0], pc := 8, issued := loadIssued w } }

/-- The one team: supervisor mode, address space 0, page table at address 0. -/
def loadTeam (w : Nat) : Team :=
  { serial := 0, core := 0, slot := 0, node := 0, sup := true, nlanes := 1, split := ⟨256, 64, 64⟩, courses := [loadCourse w] }

/-- The state with the instruction `w` loaded, and nothing else under way: clocks, counters and memory are kept. -/
def State.load (s : State) (w : Nat) : State :=
  { tick := s.tick, nextId := s.nextId, fresh := s.fresh,
    mem := memWrite s.mem 0 128 (loadLine w),
    boot := { stage := 6 },
    teams := [(0, loadTeam w)],
    cores := [(0, { split := some ⟨256, 64, 64⟩, tlb := [loadTlb 0] })] }

end Sys2Proof.Machine
end

