-- ==== Sys2Proof/Machine/Step.lean ====
section
/-! DEFINITION. One step: an event that is due, an input from outside, or the issue of one instruction by a sequencer. -/

namespace Sys2Proof.Machine

/-- What a step can do. -/
inductive Choice where
  | event (i : Instr)
  | input (x : Input)
  | issue (core q : Nat)
  deriving DecidableEq, Repr

/-- Everything that can happen next: the oldest input, due events, issuing sequencers (notes/assumptions/5). -/
def State.choices (s : State) : List Choice :=
  ((s.inputs.take 1).filter s.inputReady).map Choice.input ++ (s.due.map Choice.event ++ s.issuers.map (fun p => Choice.issue p.1 p.2))

/-- One of the choices: the only one, or the one that Config.choose names at this step (notes/assumptions/5). -/
def State.chosen (s : State) : Option Choice :=
  match s.choices with
  | [] => none
  | [c] => some c
  | c :: cs => (c :: cs)[Config.choose s.tick % (c :: cs).length]?

/-- The state after an issue cycle: the instruction that stands ready is executed. -/
def afterIssue : IssueOut → Host.Outcome State Fault Refusal
  | .run i s => exec i s
  | .done s => .next s

/-- An input is taken: an event is executed with no course in focus, anything else changes the state it reaches. -/
def State.performInput (s : State) : Input → Host.Outcome State Fault Refusal
  | .event i => exec i { s with focus := none }
  | x => .next (s.takeInput x)

/-- What a choice does. -/
def State.perform (s : State) : Choice → Host.Outcome State Fault Refusal
  | .event i => exec i s
  | .input x => State.performInput { s with inputs := s.inputs.drop 1 } x
  | .issue core q => afterIssue (s.issueAt core q)

/-- The state as time has gone on (R9, R91, R357). -/
def State.later (s : State) : State := { s with tick := s.tick + 1, stalls := s.stallsLater }

/-- One step: time goes on, and one of the things that can then happen does. -/
def step (s : State) : Host.Outcome State Fault Refusal :=
  match s.later.chosen with
  | none => .next s.later
  | some c => s.later.perform c

/-- The state in which the instruction of the table word stands where the next step fetches (notes/assumptions/4). -/
def State.withFetchWord (s : State) (nbits w : Nat) : State := s.load (w % 2 ^ nbits)

end Sys2Proof.Machine
end

