-- ==== Sys2Proof/Safety.lean ====
section
/-! DEFINITION. What counts as a safe state and a safe step, in the terms that statements use: memory in its canonical form,
an instruction that stands ready to be performed without a park or a fault of the common checks, and the run that it then
has. -/

namespace Sys2Proof

open Machine

/-- The form that every memory operation keeps. -/
def MemOk (s : State) : Prop := Memory.wf s.mem = true

namespace Machine

/-- The active lanes of a cohort of a course (R64). -/
def State.activeOf (s : State) (t c : Nat) (h : Cohort) : List Nat := (s.course t c).active h.lanes

/-- The active lanes whose guard is true (R48). -/
def State.guarded (s : State) (t c : Nat) (h : Cohort) (g : Guard) : List Nat :=
  (s.activeOf t c h).filter (fun l => guardOn g (s.lane t c l))

/-- The lane that R73 chooses: the lowest active, guarded-on, live lane. -/
def State.chosenLane (s : State) (t c : Nat) (h : Cohort) (g : Guard) : Option Nat :=
  ((s.guarded t c h g).filter (fun l => (s.lane t c l).cls == .live)).head?

/-- The lanes that perform an instruction which meets no check: the guarded-on lanes, or the one lane of R187. -/
def State.performers (s : State) (t c : Nat) (h : Cohort) (g : Guard) (one : Bool) : List Nat :=
  if one then (s.chosenLane t c h g).toList else s.guarded t c h g

/-- The sources that an instruction reads, with the numbers of their fields (R70). -/
def Pro.sources (p : Pro) (o : Ops) : List (Nat × Src) := (if p.nA then [] else [(1, o.a)]) ++ [(2, o.b), (3, o.c)]

/-- A source of a lane is full (R22, R24). -/
def State.srcFull (s : State) (t c l : Nat) (o : Ops) (x : Opnd) : Bool :=
  Machine.srcFull (s.team t) (s.lane t c l) (fun n => (headOf s t o n).isSome) o.ib x

/-- The destination of a lane is full, or its queue has room (R23, R24, R89). -/
def State.dstFull (s : State) (t c l : Nat) (o : Ops) (x : Opnd) : Bool :=
  match x with
  | .eq _ => s.coilRoom t c != 0
  | x => Machine.srcFull (s.team t) (s.lane t c l) (fun _ => true) o.ib x

/-- An instruction with the operands `o` passes the checks of R70 that every instruction makes: its course is in focus with the
cohort `h`, its guard is full, its mode suffices, its queue registers are bound, its operand fields name what there is, and
what it reads and writes is full and sound. -/
structure Ready (o : Ops) (p : Pro) (s : State) (t c : Nat) (h : Cohort) : Prop where
  focus : s.focus = some (t, c)
  cohort : (s.course t c).coh = some h
  guardFull : ∀ n, o.g.p = some n → ∀ l ∈ s.activeOf t c h, eGet (s.lane t c l).pE n = false
  mode : p.priv.isSome → (s.team t).sup = true
  popPorts : ∀ x ∈ p.sources o, ∀ n, eqOf x.2.op = some n → portFault s t c n false = none
  pushPort : p.d = .full → ∀ n, eqOf o.d = some n → portFault s t c n true = none
  fields : ∀ l ∈ s.performers t c h o.g p.one, ∀ x ∈ p.sources o ++ [(0, ({ op := o.d } : Src))],
    fieldFault (s.team t).split.regs (s.lane t c l) o.ib x.1 x.2.op = none
  waitFull : ∀ l ∈ (if p.one then s.performers t c h o.g true else s.activeOf t c h), ∀ x ∈ p.sources o,
    (x.2.w || isPred x.2.op) = true → s.srcFull t c l o x.2.op = true
  destFull : p.d = .full → ∀ l ∈ (if p.one then s.performers t c h o.g true else s.activeOf t c h),
    s.dstFull t c l o o.d = true
  counterFree : p.d = .counter → ∀ k, o.d = .k k → s.produces t k = false
  predFull : ∀ n, p.pred = some n → ∀ l ∈ (if p.one then s.performers t c h o.g true else s.activeOf t c h),
    eGet (s.lane t c l).pE n = false
  sourceFull : ∀ l ∈ s.performers t c h o.g p.one, ∀ x ∈ p.sources o, (p.ownA && x.1 == 1) = false →
    s.srcFull t c l o x.2.op = true
  sound : ∀ l ∈ s.performers t c h o.g p.one, ∀ x ∈ p.sources o, (p.ownA && x.1 == 1) = false → srcBad (s.team t) (s.lane t c l) o.ib x.2.op = false

/-- The run of an instruction that stands ready: no lane has a fault. -/
def readyRun (o : Ops) (p : Pro) (s : State) (t c : Nat) (h : Cohort) : Run :=
  { s0 := s, s := s, t := t, c := c, o := o, d := p.d, helps := p.helps, act := s.activeOf t c h, on := s.performers t c h o.g p.one,
    ip := h.pc, succ := h.succ, succIn := h.succIn, issued := h.issued,
    pops := ((p.sources o).filterMap (fun x => eqOf x.2.op)).map (s.team t).portOf }

/-! ### What an instruction in registers leaves, and what it does not change -/

/-- Source `x` of an instruction with the operands `o`, in a lane before the instruction (R44, R89). -/
def State.srcWord (s : State) (t c l : Nat) (o : Ops) (x : Opnd) : Word :=
  srcVal (s.team t) (s.lane t c l) (headOf s t o) l o.ib x

/-- Element `i` of type `ty` of source `x` of a lane (R108). -/
def State.srcElem (s : State) (t c l : Nat) (o : Ops) (ty : Ty) (x : Opnd) (i : Nat) : Nat := elem ty x (s.srcWord t c l o x) i

/-- The team's uniform registers when the chosen lane writes its result to `x` (R45, R73). -/
def Team.written (T : Team) (x : Opnd) (ch : Option Nat) (val : Nat → Word) : Team :=
  match x, ch with
  | .k n, some l => T.kPut n (val l)
  | _, _ => T

/-- The entry that a push of the results of some lanes makes (R89). -/
def pushedEntry (ls : List Nat) (val : Nat → Word) : QEntry :=
  { slots := (List.range 32).map (fun l => if ls.contains l then val l else 0), mask := maskOf ls }

/-- Everything that an instruction of course `c` of team `t` in registers leaves as it was: all but the course's lanes,
cohort and flags, the team's uniform registers, and what the sources consume (R89, R217). -/
structure Kept (s : State) (t c : Nat) (s' : State) : Prop where
  rest : { s' with teams := s.teams, cores := s.cores, columns := s.columns } = s
  teams : ∀ u, u ≠ t → s'.team u = s.team u
  courses : ∀ d, d ≠ c → s'.course t d = s.course t d
  team : ∃ k kE kbad named kScope ports crs, s'.team t =
    { s.team t with k := k, kE := kE, kbad := kbad, named := named, kScope := kScope, ports := ports, courses := crs }
  course : ∃ ls pk wk rr coh fl, s'.course t c =
    { s.course t c with lanes := ls, parked := pk, walked := wk, recRefused := rr, coh := coh, fpsr := fl }
  core : ∀ q, ∃ l1 coil, s'.core q = { s.core q with l1 := l1, coil := coil }
  column : ∀ q, ∃ scq, s'.column q = { s.column q with scq := scq }

/-- The cohort after an instruction that counts towards its batch: it goes on to the successor (R38, R50). -/
def Cohort.next (h : Cohort) : Cohort := { h with issued := h.issued + 1, pc := h.succ }

/-- No source is a queue register, and no source counter holds back an acquire: nothing is consumed (R89, R217). -/
def State.plainSrcs (s : State) (t : Nat) (o : Ops) : Prop :=
  ∀ x ∈ [o.a.op, o.b.op, o.c.op], eqOf x = none ∧ ∀ n, x = .k n → mapGet? n (s.team t).kScope = none

/-- What is left by an instruction in registers that ran without a fault: `upd` in the lanes that perform it (R64), `val` in
a uniform register or queue named by D, the flags `fl`, and the cohort `h'`. -/
structure Done (o : Ops) (one : Bool) (s : State) (t c : Nat) (h : Cohort) (upd : Nat → Lane → Lane) (val : Nat → Word) (fl : Nat)
    (h' : Cohort) (s' : State) : Prop where
  kept : Kept s t c s'
  cohort : (s'.course t c).coh = some h'
  parked : (s'.course t c).parked = none
  lanes : ∀ l, s'.lane t c l =
    if l ∈ s.performers t c h o.g one ∧ l < (s.course t c).lanes.length then upd l (s.lane t c l) else s.lane t c l
  uniform : let T := (s.team t).written o.d (s.chosenLane t c h o.g) val
    (s'.team t).k = T.k ∧ (s'.team t).kE = T.kE ∧ (s'.team t).kbad = T.kbad ∧ (s'.team t).named = T.named
  fpsr : (s'.course t c).fpsr = (s.course t c).fpsr ||| fl
  coil : ∀ q, (s'.core q).coil =
    if q = (s.team t).core ∧ (eqOf o.d).isSome ∧ s.performers t c h o.g one ≠ [] then
      { (s.core q).coil with groups := (s.core q).coil.groups.modify c (· ++
        [pushedEntry ((s.performers t c h o.g one).filter (fun l => (s.lane t c l).cls == .live)) val]) }
    else (s.core q).coil
  unconsumed : s.plainSrcs t o → (s'.team t).kScope = (s.team t).kScope ∧ (s'.team t).ports = (s.team t).ports ∧
    (∀ q, (s'.core q).l1 = (s.core q).l1) ∧ ∀ q, (s'.column q).scq = (s.column q).scq

/-- A result `val` in the lanes that perform the instruction, or where else D says; `fl` are the flags raised. -/
abbrev Wrote (o : Ops) (one : Bool) (s : State) (t c : Nat) (h : Cohort) (val : Nat → Word) (fl : Nat) (s' : State) : Prop :=
  Done o one s t c h (fun l L => L.putReg o.ib o.d (val l)) val fl h.next s'

/-- The live lanes that perform the instruction change by `upd`, and nothing else is written. -/
abbrev Moved (o : Ops) (s : State) (t c : Nat) (h : Cohort) (upd : Nat → Lane → Lane) (s' : State) : Prop :=
  Done { o with d := .none } false s t c h (fun l L => if L.cls = .live then upd l L else L) (fun _ => 0) 0 h.next s'

/-! ### Results element by element -/

/-- The word holds the elements `f` of a type, and a scalar below 64 bits is extended by its type (R108). -/
def Holds (ty : Ty) (w : Word) (f : Nat → Nat) : Prop :=
  (∀ i, i < tyN ty → wfld w (tyW ty * i) (tyW ty) = f i ∧ f i < 2 ^ tyW ty) ∧
  (tyN ty = 1 → if tyInt ty && tySigned ty then w = wordOfInt (sextN (tyW ty) (f 0)) else w.toNat = f 0)

/-- The pattern `x` is the integer `z` cut to the element width, or saturated in the type's range (R126). -/
def IntIs (ty : Ty) (sat : Bool) (z : Int) (x : Nat) : Prop :=
  x < 2 ^ tyW ty ∧
  if sat then valI ty x = satI z (intLo (tySigned ty) (tyW ty)) (intHi (tySigned ty) (tyW ty))
  else ((2 ^ tyW ty : Nat) : Int) ∣ valI ty x - z

/-- The instruction completes, raises no flag and writes words of which `R` holds in the lanes that perform it. -/
def Gives (i : Instr) (o : Ops) (one : Bool) (s : State) (t c : Nat) (h : Cohort) (R : Nat → Word → Prop) : Prop :=
  ∃ s' val, exec i s = .next s' ∧ Wrote o one s t c h val 0 s' ∧ ∀ l ∈ s.performers t c h o.g one, R l (val l)

/-- The instruction completes and element `n` of the result of lane `l` satisfies `R l n`. -/
def GivesElems (i : Instr) (o : Ops) (s : State) (t c : Nat) (h : Cohort) (ty : Ty) (R : Nat → Nat → Nat → Prop) : Prop :=
  Gives i o false s t c h (fun l w => ∃ f, Holds ty w f ∧ ∀ n, n < tyN ty → R l n (f n))

/-! ### Results that raise flags -/

/-- The flags `fl` of lane `l` count: the lane is live, and the lane that writes where D is a uniform register (R123). -/
def State.counts (s : State) (t c : Nat) (h : Cohort) (o : Ops) (l : Nat) : Bool :=
  (s.lane t c l).cls == .live && (match o.d with
    | .k _ => s.chosenLane t c h o.g == some l
    | _ => true)

/-- The flags that the lanes raise together (R121, R123). -/
def State.flagsOr (s : State) (t c : Nat) (h : Cohort) (o : Ops) (fl : Nat → Nat) : Nat :=
  ((s.performers t c h o.g false).filter (s.counts t c h o)).foldl (fun a l => a ||| fl l) 0

/-- The flags that FPCR enables, as it stood at the start of the cycle (R159). -/
def State.enabled (s : State) (t : Nat) : Nat := ((s.team t).atStart (s.cycle (coreCol (s.team t).core))).1

/-- The flags of lane `l` are judged: they count, or the lane is a helper whose own register is the destination (R64, R159). -/
def State.judged (s : State) (t c : Nat) (h : Cohort) (o : Ops) (l : Nat) : Bool :=
  s.counts t c h o l || ((s.lane t c l).cls != .live && (match o.d with
    | .k _ | .eq _ => false
    | _ => true))

/-- FPX (R97, R123): FPSR takes the flags of all lanes; a live lane that raises a flag that FPCR enables takes the trap state of class
0x12 with its flags as REASON and does not write D, and a uniform D then keeps its value; the other live lanes write a D of their own. -/
def FpxIs (o : Ops) (s : State) (t c : Nat) (h : Cohort) (val : Nat → Word) (fl : Nat → Nat) (s' : State) : Prop :=
  (s'.course t c).fpsr = (s.course t c).fpsr ||| s.flagsOr t c h o fl ∧
  ∀ l ∈ s.performers t c h o.g false, (s.lane t c l).cls = .live → l < (s.course t c).lanes.length →
    let L := s.lane t c l
    let L' := s'.lane t c l
    if s.counts t c h o l = true ∧ fl l &&& s.enabled t ≠ 0 then
      L'.ltcause = 0x12 ∧ L'.ltpc = h.pc ∧ L'.ltaddr = 0 ∧ wfld L'.ltinfo 0 8 = fl l % 256 ∧ L'.p = L.p ∧ L'.pE = L.pE ∧
      (∀ k, o.d = .k k → (s'.team t).kGet k = (s.team t).kGet k)
    else L'.v = (L.putReg o.ib o.d (val l)).v ∧ L'.p = (L.putReg o.ib o.d (val l)).p

/-- The instruction completes and gives each lane that performs it a word and flags of which `R` holds; where FPCR enables no flag,
or none that a lane raises, the words are written and FPSR takes the flags; in any case the lanes that raise an enabled flag take FPX
(R123, R159). -/
def GivesFlags (i : Instr) (o : Ops) (s : State) (t c : Nat) (h : Cohort) (R : Nat → Word → Nat → Prop) : Prop :=
  ∃ s' val fl, exec i s = .next s' ∧ (∀ l ∈ s.performers t c h o.g false, R l (val l) (fl l)) ∧
    (s.enabled t = 0 ∨ (∀ l ∈ s.performers t c h o.g false, s.judged t c h o l = true → fl l &&& s.enabled t = 0) →
      Wrote o false s t c h val (s.flagsOr t c h o fl) s') ∧ FpxIs o s t c h val fl s'

/-- The flags of the elements of a result together (R123). -/
def flagsOfElems (n : Nat) (f : Nat → FRes) : Nat := ((List.range n).map f).foldl (fun a x => a ||| x.2) 0

/-- The same element by element: pattern and flags of element `n` of lane `l` satisfy `R l n`. -/
def GivesFloat (i : Instr) (o : Ops) (s : State) (t c : Nat) (h : Cohort) (ty : Ty) (R : Nat → Nat → FRes → Prop) : Prop :=
  GivesFlags i o s t c h (fun l w fl => ∃ f : Nat → FRes, Holds ty w (fun n => (f n).1) ∧ fl = flagsOfElems (tyN ty) f ∧
    ∀ n, n < tyN ty → R l n (f n))

/-! ### Exact values and rounding -/

/-- The number that a finite value stands for (R112). -/
def FV.num : FV → ℚ
  | .fin s n x => (if s then -1 else 1) * (n : ℚ) * (2 : ℚ) ^ x
  | _ => 0

/-- The magnitude of a code of a format, taken without an upper bound on the exponent (R112, R116). -/
def magOf (f : Fmt) (c : Nat) : ℚ := ((finMag f c).1 : ℚ) * (2 : ℚ) ^ (finMag f c).2

/-- R116: step `c` of the rising steps `m` is what the magnitude rounds to that `lt` compares (`lt q`: q lies below it; `eq q`: q is it),
for a value of sign `s`, and whether that is inexact. -/
def RoundsTo (m : Nat → ℚ) (rm : RM) (s : Bool) (lt eq : ℚ → Prop) (c : Nat) (inexact : Bool) : Prop :=
  (inexact = false ∧ eq (m c)) ∨
  (inexact = true ∧ ∃ k, lt (m k) ∧ ¬lt (m (k + 1)) ∧ ¬eq (m (k + 1)) ∧
    let mid := (m k + m (k + 1)) / 2
    let up : Prop := match rm with
      | .rz => False
      | .ru => s = false
      | .rd => s = true
      | .rne => lt mid ∨ (eq mid ∧ k % 2 = 1)
      | .rna => lt mid ∨ eq mid
    (up → c = k + 1) ∧ (¬up → c = k))

/-- R116 to R118: the pattern and flags of a nonzero value of sign `s` whose magnitude `lt` and `eq` compare. -/
def Rounded (f : Fmt) (rm : RM) (ftz s : Bool) (lt eq : ℚ → Prop) (r : FRes) : Prop :=
  ∃ c inexact, RoundsTo (magOf f) rm s lt eq c inexact ∧ r =
    if f.maxCode < c then ovfRes f rm s
    else if 0 < c ∧ c < 2 ^ f.t then
      (if ftz then (withSign f s 0, fUF ||| fNX) else (withSign f s c, if inexact then fUF ||| fNX else 0))
    else (withSign f s c, if inexact then fNX else 0)

/-- The same for a nonzero rational number. -/
def RoundedQ (f : Fmt) (rm : RM) (ftz : Bool) (v : ℚ) (r : FRes) : Prop :=
  Rounded f rm ftz (decide (v < 0)) (· < |v|) (· = |v|) r

/-- A source of a float instruction: its value after FTZ (R118). -/
def srcF (f : Fmt) (ftz : Bool) (a : Nat) : FV := unpackF f (ftzSrc f ftz a)

/-- A NaN result that raises NV when one of the sources is a signalling NaN (R119). -/
def nanOf (f : Fmt) (vs : List FV) : FRes := nanRes f (if vs.any FV.isSig then fNV else 0)

/-- R116 to R120: the sum of values that are no NaN, rounded once. -/
def SumIs (f : Fmt) (rm : RM) (ftz : Bool) (ts : List FV) (r : FRes) : Prop :=
  if ts.any (fun v => v.isInf && v.sign) && ts.any (fun v => v.isInf && !v.sign) then r = nanRes f fNV
  else if ts.any FV.isInf then r = (withSign f (ts.any (fun v => v.isInf && v.sign)) (fmtInf f), 0)
  else if (ts.map FV.num).sum = 0 then
    r = (withSign f (if ts.all FV.isZero && ts.all FV.sign then true
      else if ts.all FV.isZero && ts.all (fun v => !v.sign) then false else rm == .rd) 0, 0)
  else RoundedQ f rm ftz (ts.map FV.num).sum r

/-- The product of two values that are no NaN and not a zero and an infinity (R120). -/
def prodV (a b : FV) : FV :=
  match a, b with
  | .fin s n x, .fin t m y => .fin (s != t) (n * m) (x + y)
  | _, _ => .inf (a.sign != b.sign)

/-- R139, R145: a sum of products and an addend with one rounding. -/
def FmaIs (f : Fmt) (rm : RM) (ftz : Bool) (ps : List (FV × FV)) (c : FV) (r : FRes) : Prop :=
  let all := c :: ps.flatMap (fun p => [p.1, p.2])
  if ps.any (fun p => (p.1.isZero && p.2.isInf) || (p.1.isInf && p.2.isZero)) then r = nanRes f fNV
  else if all.any FV.isNan then r = nanOf f all
  else SumIs f rm ftz (ps.map (fun p => prodV p.1 p.2) ++ [c]) r

/-- The order of values that are no NaN, in which the zeros are equal. -/
def FV.lt (a b : FV) : Prop :=
  match a, b with
  | .inf s, .inf t => s = true ∧ t = false
  | .inf s, .fin _ _ _ => s = true
  | .fin _ _ _, .inf t => t = false
  | .fin _ _ _, .fin _ _ _ => a.num < b.num
  | _, _ => False

/-- The order of R140, in which -0 is below +0. -/
def FV.below (a b : FV) : Prop := a.lt b ∨ (a.isZero = true ∧ b.isZero = true ∧ a.sign = true ∧ b.sign = false)

/-- The pattern `x` of a type stands for the integer `z`. -/
def IsInt (ty : Ty) (z : Int) (x : Nat) : Prop := x < 2 ^ tyW ty ∧ valI ty x = z

/-- R125: an element of type `st` converted to type `dt`. -/
def ConvIs (dt st : Ty) (rm : RM) (a : Nat) (r : FRes) : Prop :=
  if tyInt dt then
    let lo := intLo (tySigned dt) (tyW dt)
    let hi := intHi (tySigned dt) (tyW dt)
    if tyInt st then IsInt dt (satI (valI st a) lo hi) r.1 ∧ r.2 = 0
    else match unpackF (tyFmt st) a with
      | .nan _ => r = (0, fNV)
      | .inf s => IsInt dt (if s then lo else hi) r.1 ∧ r.2 = fNV
      | .fin s n x => ∃ k inexact, RoundsTo (fun k => (k : ℚ)) rm s (· < |(FV.fin s n x).num|) (· = |(FV.fin s n x).num|) k inexact ∧
          let z : Int := if s then -(k : Int) else k
          IsInt dt (satI z lo hi) r.1 ∧ r.2 = if z < lo ∨ hi < z then fNV else if inexact then fNX else 0
  else
    let d := tyFmt dt
    if tyInt st then (if valI st a = 0 then r = (0, 0) else RoundedQ d rm false (valI st a : ℚ) r)
    else match unpackF (tyFmt st) a with
      | .nan s => r = nanRes d (if s then fNV else 0)
      | .inf s => r = if d.hasInf then (withSign d s (fmtInf d), 0) else (withSign d s d.maxCode, fOF ||| fNX)
      | .fin s n x => if n = 0 then r = (withSign d s 0, 0) else RoundedQ d rm false (FV.fin s n x).num r

/-! ### Instructions that do more than write registers -/

/-- The instruction ends: its sources are consumed, its cohort goes on to the successor, and otherwise the state is `W`. -/
abbrev Ended (o : Ops) (W : State) (t c : Nat) (h : Cohort) (s' : State) : Prop :=
  Done { o with d := .none } false W t c h (fun _ L => L) (fun _ => 0) 0 h.next s'

/-- The instruction completes: it makes `W` of the state and ends. -/
def Ends (i : Instr) (o : Ops) (s : State) (t c : Nat) (h : Cohort) (W : State) : Prop :=
  ∃ s', exec i s = .next s' ∧ (W.course t c).coh = (s.course t c).coh ∧ Ended o W t c h s'

/-! ### Combinations across lanes -/

/-- A cross-lane instruction stands ready (R154): no participant's A fails an operand check, and what the writers read is full and sound. -/
structure CrossReady (o : Ops) (s : State) (t c : Nat) (h : Cohort) (reads : Nat → List Nat) : Prop where
  ready : Ready o { ownA := true } s t c h
  named : ∀ m ∈ s.activeOf t c h, fieldFault (s.team t).split.regs (s.lane t c m) o.ib 1 o.a.op = none
  full : ∀ l ∈ s.performers t c h o.g false, ∀ m ∈ reads l, s.srcFull t c m o o.a.op = true
  soundA : ∀ l ∈ s.performers t c h o.g false, ∀ m ∈ reads l, srcBad (s.team t) (s.lane t c m) o.ib o.a.op = false

/-- The contributors of a lane's segment in rising order (R154). -/
def State.contributors (s : State) (t c : Nat) (h : Cohort) (g : Guard) (seg l : Nat) : List Nat :=
  (s.performers t c h g false).filter (fun m => (s.lane t c m).cls == .live && m / (32 / 2 ^ seg) == l / (32 / 2 ^ seg))

/-- The lesser of two float operands, or the greater (R140). -/
def PickF (f : Fmt) (isMax : Bool) (x y : Nat) (r : FRes) : Prop :=
  let a := unpackF f x
  let b := unpackF f y
  if a.isNan && b.isNan then r = nanOf f [a, b]
  else if a.isNan || b.isNan then r = (if a.isNan then y else x, if a.isSig || b.isSig then fNV else 0)
  else ((if isMax then a.below b else b.below a) → r = (y, 0)) ∧ (¬(if isMax then a.below b else b.below a) → r = (x, 0))

/-- One step of a combination (R157). -/
def StepIs (ty : Ty) (op : COp) (x y : Nat) (r : FRes) : Prop :=
  if tyInt ty then r.2 = 0 ∧ r.1 < 2 ^ tyW ty ∧ match op with
    | .add => IntIs ty false (valI ty x + valI ty y) r.1
    | .min => valI ty r.1 = min (valI ty x) (valI ty y)
    | .max => valI ty r.1 = max (valI ty x) (valI ty y)
    | .and => r.1 = x &&& y
    | .or => r.1 = x ||| y
    | .xor => r.1 = x ^^^ y
  else
    let f := tyFmt ty
    let a := unpackF f x
    let b := unpackF f y
    match op with
    | .min => PickF f false x y r
    | .max => PickF f true x y r
    | _ => if a.isNan || b.isNan then r = nanOf f [a, b] else SumIs f .rne false [a, b] r

/-- The rest of a left-to-right combination, from what stands so far (R157). -/
def ChainIs (ty : Ty) (op : COp) : FRes → List Nat → FRes → Prop
  | a, [], r => r = a
  | a, y :: ys, r => ∃ z, StepIs ty op a.1 y z ∧ ChainIs ty op (z.1, a.2 ||| z.2) ys r

/-- A left-to-right combination of elements, the first of which gives the canonical NaN where it is a NaN (R119), or the identity (R157). -/
def CombinedIs (ty : Ty) (op : COp) (xs : List Nat) (r : FRes) : Prop :=
  match xs with
  | x :: ys => let v := unpackF (tyFmt ty) x
    ChainIs ty op (if !tyInt ty && v.isNan then nanOf (tyFmt ty) [v] else (x, 0)) ys r
  | [] => r.2 = 0 ∧ r.1 < 2 ^ tyW ty ∧
    if tyInt ty then match op with
      | .min => valI ty r.1 = intHi (tySigned ty) (tyW ty)
      | .max => valI ty r.1 = intLo (tySigned ty) (tyW ty)
      | .and => r.1 = 2 ^ tyW ty - 1
      | _ => r.1 = 0
    else match op with
      | .min => unpackF (tyFmt ty) r.1 = .inf false
      | .max => unpackF (tyFmt ty) r.1 = .inf true
      | _ => r.1 = 0

/-! ### Lanes that meet a fault -/

/-- The trap state of R94 and R97 in a lane: class, address of the instruction, REASON, the temporaries' written mask and the count
before the instruction, RESUME, and no data address or DETAIL. -/
def TrapStateOf (L' : Lane) (cls : Nat) (pc : Word) (reason twr issued : Nat) : Prop :=
  L'.ltcause = wordOf cls ∧ L'.ltpc = pc ∧ L'.ltaddr = 0 ∧ wfld L'.ltinfo 0 8 = reason ∧ wfld L'.ltinfo 8 8 = twr ∧
  wfld L'.ltinfo 16 5 = issued ∧ wfld L'.ltinfo 21 1 = 1 ∧ wfld L'.ltinfo 22 42 = 0

/-- A lane after the entry of R94 through a vector whose handler is at `entry`: the temporaries saved from `ts` on, INTRAP set. -/
def EnteredAs (L L' : Lane) (ts : Nat) (entry : Word) : Prop :=
  (∀ n, n < 8 → L'.vGet (ts + n) = L.tGet n ∧ eGet L'.vE (ts + n) = false) ∧
  (∀ n, n < ts ∨ ts + 8 ≤ n → L'.vGet n = L.vGet n ∧ eGet L'.vE n = eGet L.vE n) ∧
  L'.intrap = true ∧ L'.pend = false ∧ L'.pc = entry ∧ L'.depth = L.depth ∧ L'.p = L.p ∧ L'.cls = L.cls

/-! ### Accesses that leave the core -/

/-- Lane `l` and register `n` that a destination names. -/
def Dest.names (d : Dest) (l n : Nat) : Bool :=
  match d with
  | .v a b => a == l && b == n
  | .vs rs => rs.contains (l, n)
  | _ => false

/-- The instruction completes and its accesses `fs` leave the core (R23, R211): they take the next issue numbers, their destinations
become empty, and nothing else is written. -/
structure Issued (o : Ops) (s : State) (t c : Nat) (h : Cohort) (fs : List Flight) (s' : State) : Prop where
  rest : { s' with teams := s.teams, cores := s.cores, columns := s.columns, flights := s.flights, nextId := s.nextId, fresh := s.fresh } = s
  flights : s'.flights = s.flights ++ fs
  ids : fs.map (·.id) = (List.range fs.length).map (s.nextId + ·)
  nextId : s'.nextId = s.nextId + fs.length
  teams : ∀ u, u ≠ t → s'.team u = s.team u
  courses : ∀ d, d ≠ c → s'.course t d = s.course t d
  team : ∃ kE kScope ports crs, s'.team t = { s.team t with kE := kE, kScope := kScope, ports := ports, courses := crs }
  course : ∃ ls, s'.course t c = { s.course t c with lanes := ls, parked := none, walked := [], recRefused := 0, coh := some h.next }
  uniform : ∀ n, n < 256 → eGet (s'.team t).kE n = (eGet (s.team t).kE n || (n != 0 && fs.any (fun f => f.dest == .k n)))
  lanes : ∀ l, ∃ vE pE, s'.lane t c l = { s.lane t c l with vE := vE, pE := pE } ∧
    ∀ n, n < 256 → l < (s.course t c).lanes.length → eGet vE n = (eGet (s.lane t c l).vE n || fs.any (fun f => f.dest.names l n))
  preds : ∀ l n, n < 48 → l < (s.course t c).lanes.length → eGet (s'.lane t c l).pE n =
    (eGet (s.lane t c l).pE n || fs.any (fun f => f.lane == l && f.pn == some n))
  cores : ∀ q, ∃ tlb l1, s'.core q = { s.core q with tlb := tlb, l1 := l1 }
  columns : ∀ q, ∃ scq near took, s'.column q = { s.column q with scq := scq, near := near, took := took }

/-- The instruction completes and sends accesses of which `R` holds. -/
def Sends (i : Instr) (o : Ops) (s : State) (t c : Nat) (h : Cohort) (R : List Flight → Prop) : Prop :=
  ∃ s' fs, exec i s = .next s' ∧ Issued o s t c h fs s' ∧ (∀ f ∈ fs, f.team = t ∧ f.crs = c ∧ f.core = (s.team t).core) ∧ R fs

/-- One access for each of some lanes, in ascending order, of each of which `R` holds. -/
def OnePer (ls : List Nat) (fs : List Flight) (R : Nat → Flight → Prop) : Prop := fs.map (·.lane) = ls ∧ ∀ f ∈ fs, R f.lane f

/-- The live lanes that perform an instruction. -/
def State.livePerf (s : State) (t c : Nat) (h : Cohort) (g : Guard) : List Nat :=
  (s.performers t c h g false).filter (fun l => (s.lane t c l).cls == .live)

/-- Where the result of a lane goes (R23, R45, R73, R89): a lane register, for the chosen lane the uniform register or an entry of the
queue, or nowhere. -/
def State.destIn (s : State) (t c : Nat) (h : Cohort) (o : Ops) (l : Nat) : Dest :=
  match o.d with
  | .v n => .v l n
  | .vx n => .v l ((s.lane t c l).idx o.ib n)
  | .k n => if n != 0 && s.chosenLane t c h o.g == some l then .k n else .none
  | .eq _ => if s.chosenLane t c h o.g == some l then .push l else .none
  | _ => .none

/-- Address `x` of a course translates for an access to `pa` under the leaf entry `pte` (R160 to R171). -/
def State.mapped (s : State) (t c : Nat) (x : Word) (k : AccessKind) (pa pte : Nat) : Prop := ∃ e, s.translate t c x k = .hit e pa ∧ e.pte = pte

/-- No command of the core locks the range of a global access (R30); `onlyDst`: against destination ranges only. -/
def State.unlockedAt (s : State) (t : Nat) (x : Word) (n : Nat) (onlyDst : Bool) : Prop :=
  lockFault (s.core (s.team t).core) (.glob (s.team t).asid) x (va56 x) n onlyDst = none

/-- No earlier access of the lane holds back its local accesses (R181, R185). -/
def State.localFree (s : State) (t c l : Nat) : Prop :=
  (∀ f ∈ s.ofLane t c l, f.kind = .ldl ∨ f.kind = .stl ∨ f.kind = .latom ∨ f.onPresence = true → f.stage ≠ 0) ∧ ∀ p ∈ s.acqAfter t c l, s.performedAt p.1 p.2 = true

/-- The type fits the operation: a float type for the float operations, otherwise an integer of at least 8 bits (R189, R221, R233). -/
def fitsTy (op : AOp) (ty : Ty) : Bool :=
  match op with
  | .fadd | .fmin | .fmax => tyFlt ty
  | _ => tyInt ty && tyN ty == 1

/-- R189, R221, R233: the new word of an atomic operation, from the old word and the operands. -/
def AopIs (op : AOp) (ty : Ty) (old b c new : Nat) : Prop :=
  let w := tyW ty * tyN ty
  let el := fun x i => fld x (tyW ty * i) (tyW ty)
  let f := tyFmt ty
  new < 2 ^ w ∧ match op with
  | .add => new = (old + b) % 2 ^ w
  | .and => ∀ j, j < w → new.testBit j = (old.testBit j && b.testBit j)
  | .or => ∀ j, j < w → new.testBit j = (old.testBit j || b.testBit j)
  | .xor => ∀ j, j < w → new.testBit j = (old.testBit j ^^ b.testBit j)
  | .min => valI ty new = min (valI ty old) (valI ty b)
  | .max => valI ty new = max (valI ty old) (valI ty b)
  | .swap => new = b
  | .cas => new = if old = c then b else old
  | .fadd => ∀ i, i < tyN ty → ∃ fl, let x := unpackF f (el old i)
      let y := unpackF f (el b i)
      if x.isNan || y.isNan then (el new i, fl) = nanOf f [x, y] else SumIs f .rne false [x, y] (el new i, fl)
  | .fmin => ∀ i, i < tyN ty → ∃ fl, PickF f false (el old i) (el b i) (el new i, fl)
  | .fmax => ∀ i, i < tyN ty → ∃ fl, PickF f true (el old i) (el b i) (el new i, fl)

/-- Only lanes of a course change, by `upd`, and the accesses in flight, by `fl`. -/
structure Relaned (s : State) (t c : Nat) (upd : Nat → Lane → Lane) (fl : Flight → Flight) (W : State) : Prop where
  rest : { W with teams := s.teams, flights := s.flights } = s
  teams : ∀ u, u ≠ t → W.team u = s.team u
  courses : ∀ d, d ≠ c → W.course t d = s.course t d
  team : ∃ crs, W.team t = { s.team t with courses := crs }
  course : ∃ ls, W.course t c = { s.course t c with lanes := ls }
  lanes : ∀ l, W.lane t c l = if l < (s.course t c).lanes.length then upd l (s.lane t c l) else s.lane t c l
  flights : W.flights = s.flights.map fl

/-- A word of a lane's transaction may be accessed (R240): it is aligned, mapped to plain memory outside every window, in the
transaction line, and there is room for it. -/
def State.txWord (s : State) (t c l : Nat) (store : Bool) (x : Word) (e : TlbEnt) (pa : Nat) : Prop :=
  let tx := (s.lane t c l).tx
  let inW := pa ∈ tx.wset.map (·.1)
  let reads := dedupNat (tx.rset.map (·.1) ++ ((s.ofLane t c l).filter (fun f => f.kind == .txld)).map (·.pa))
  tx.opened = true ∧ tx.doomed = false ∧ x.toNat % 8 = 0 ∧ s.translate t c x .atomic = .hit e pa ∧
  pteAttr e.pte = 0 ∧ pteFmode e.pte = 0 ∧ s.windowAt pa = none ∧ (tx.line = none ∨ tx.line = some (pa / 256)) ∧
  (if store then inW ∨ tx.wset.length < 4 else s.unlockedAt t x 8 true ∧ (inW ∨ pa ∈ reads ∨ reads.length < 4))

/-- The accesses of a team's core, as an engine makes them. -/
def State.engineOf (s : State) (t : Nat) : Eng := ⟨(s.team t).core, (s.team t).asid, (s.team t).ptroot, (s.team t).sup⟩

/-- The record that lane `l` reads at `x` can be read (R177, R205, R212, R220, R256, R376, R379): mapped, unlocked, current, sound, at
memory, not beyond a window; no access to its line holds it back, nor for MMIO one of the lane's MMIO accesses (R167), and the slice takes
it in this cycle. -/
def State.recordAt (s : State) (t c l : Nat) (x : Word) (e : TlbEnt) (pa : Nat) : Prop :=
  let T := s.team t
  x.toNat % 64 = 0 ∧ s.translate t c x .load = .hit e pa ∧ s.unlockedAt t x 64 true ∧ (∀ p ∈ s.acqAfter t c l, s.performedAt p.1 p.2 = true) ∧
  ((s.lane t c l).cls = .live ∨ pteAttr e.pte ≠ 2) ∧
  (∀ g ∈ s.flights, g.core = T.core → g.pa / 64 = pa / 64 → if pteFmode e.pte = 0 then
      g.fmode = 0 → ¬(g.kind = .atom ∧ g.team = t ∧ g.crs = c ∧ g.lane = l) ∧ ¬(g.kind = .store ∧ g.stage = 0)
    else g.fmode ≠ 0 → g.peer = ptePeer e.pte → g.kind ≠ .store ∧ g.kind ≠ .atom ∧ g.kind ≠ .nred ∧ (g.isLoad = true → g.stage ≠ 0)) ∧
  (if pteFmode e.pte = 0 then e.gen = s.gen (s.home pa) T.asid ∧ (isHost pa = true ∨ isIO pa = true ∨
      (let sl := s.engSlice (s.engineOf t) e pa .load
       s.sliceFree sl T.core = true ∧ (sl = s.home pa → s.queuedOn pa 64 = false)))
    else isHbm pa = true ∨ isWindow pa = true) ∧
  (pteFmode e.pte = 0 ∨ ptePeer e.pte = s.device → s.beyondWindow pa = false) ∧
  (∀ j, j < 8 → s.engPoison (T.core / 12) e (pa + 8 * j) 8 = false) ∧
  (pteAttr e.pte = 2 → ∀ g ∈ s.ofLane t c l, g.isGlob = true → g.attr ≠ 2)

/-- The bytes of that record, and the state after its read. -/
def State.recordRead (s : State) (t : Nat) (e : TlbEnt) (pa : Nat) : List Byte × State :=
  (s.addTlb (s.team t).core e).readRec (s.engineOf t) e pa

/-- A command has joined a queue of its core (R26, R28, R29): it takes the next number, its bytes are charged, its ranges are locked, the
lines that it writes are absent, and `f` queues it. -/
def State.queued (s : State) (t : Nat) (report : Report) (count scope : Nat) (es : List LockEnt) (lines : List Nat) (f : Core → Core) : State :=
  ((State.charged { s with nextId := s.nextId + 1 } t report count scope).modCore (s.team t).core (fun k => f (k.addLocks es))).modTeam t
    (fun T => T.clearLines lines)

/-- The command that lane `l` gives to the Wheel (R290). -/
def State.wheelCmd (s : State) (t c : Nat) (h : Cohort) (l : Nat) (i : Instr) (op : WOp) (report : Report) (count scope : Nat) : WCmd :=
  let T := s.team t
  { id := s.nextId, team := t, crs := c, lane := l, asid := T.asid, root := T.ptroot, sup := T.sup, ipc := h.pc, ins := i, op := op,
    report := report, count := count, scope := scope }

/-- The command that lane `l` gives to Coil (R306). -/
def State.coilCmd (s : State) (t c : Nat) (h : Cohort) (l : Nat) (o : Ops) (i : Instr) (op : CilOp) (count scope : Nat) : CilCmd :=
  let T := s.team t
  { id := s.nextId, team := t, crs := c, lane := l, asid := T.asid, root := T.ptroot, sup := T.sup, ipc := h.pc, ins := i, op := op,
    coper := (s.core T.core).coil.coper, report := wheelReport T o.d, count := count, scope := scope }

/-! ### What happens to an access on its way -/

/-- A value has landed where an access says (R23, R89): its register is full and holds it, or the queue of Coil has an entry with it, its
outcome predicate is full too, the access is gone, and nothing else is written. -/
structure Landed (s : State) (f : Flight) (v : Word) (pv : Bool) (s' : State) : Prop where
  rest : { s' with teams := s.teams, flights := s.flights, cores := s.cores } = s
  cores : ∀ q, s'.core q = match f.dest with
    | .push l => (s.pushLane f.team f.crs l v).core q
    | _ => s.core q
  teams : ∀ u, u ≠ f.team → s'.team u = s.team u
  courses : ∀ d, d ≠ f.crs → s'.course f.team d = s.course f.team d
  team : s'.team f.team = { (match f.dest with
    | .k n => (s.team f.team).kPut n v
    | _ => s.team f.team) with courses := (s'.team f.team).courses }
  course : s'.course f.team f.crs = { s.course f.team f.crs with lanes := (s'.course f.team f.crs).lanes }
  lanes : ∀ l, l < (s.course f.team f.crs).lanes.length → s'.lane f.team f.crs l =
    let L := match f.dest with
      | .v m n => if m = l then (s.lane f.team f.crs l).vPut n v else s.lane f.team f.crs l
      | .vs rs => rs.foldl (fun L p => if p.1 = l then L.vPut p.2 v else L) (s.lane f.team f.crs l)
      | _ => s.lane f.team f.crs l
    match f.pn with
    | some n => if l = f.lane then L.pPut n pv else L
    | none => L
  gone : s'.flights = s.flights.filter (fun g => g.id != f.id)

/-- The home slice holds the granule of an address, or the address lies in a window of the towers (R194, R203). -/
def State.inSlice (s : State) (pa : Nat) : Bool :=
  isWindow pa || ((s.column (s.home pa)).blockAt (regionOf pa) (granOf pa)).isSome

/-- Bytes of one granule are written at its home, which ends the wait entries on their words (R198, R224, R400). -/
structure SliceStored (s : State) (pa : Nat) (bs : List Byte) (s' : State) : Prop where
  rest : { s' with mem := s.mem, poison := s.poison, columns := s.columns, flights := s.flights, nextId := s.nextId } = s
  mem : s'.mem = memPutBytes s.mem pa bs
  poison : s'.poison = clearPoison s.poison pa bs.length
  woken : ∀ e ∈ (s'.column (s.home pa)).waits, e.ended = false → e.pa ∉ wordsOf pa bs.length
  flights : s'.flights.map (fun f => { f with stage := 0, val := 0 }) = s.flights.map (fun f => { f with stage := 0, val := 0 })

/-- No wait entry belongs to an access. -/
def State.unwatched (s : State) (id : Nat) : Prop := ∀ q, ∀ e ∈ (s.column q).waits, e.who ≠ some id

/-! ### Engine commands that end -/

/-- A Wheel command has left its queue with its locks and has reported (R29, R291, R303). -/
structure WheelGone (S : State) (core : Nat) (w : WCmd) (s' : State) : Prop where
  rest : { s' with teams := S.teams, cores := S.cores, nextId := S.nextId } = S
  unit : s'.core core = { S.core core with wheel := (S.core core).wheel.filter (fun x => x.id != w.id), locks := (S.core core).locks.filter (fun e => e.cmd != w.id) }
  cores : ∀ q, q ≠ core → s'.core q = S.core q
  teams : ∀ u, u ≠ w.team → s'.team u = S.team u
  team : ∃ k kE named ports, s'.team w.team = { S.team w.team with k := k, kE := kE, named := named, ports := ports, terr := (S.team w.team).terr || w.err, wheelErr := (S.team w.team).wheelErr ||| (bit w.inv * 2 ^ 16 + bit w.ovf * 2 ^ 17 + bit w.xov * 2 ^ 18 + bit w.err * 2 ^ 19) }
  counter : ∀ n, n ≠ 0 → (s'.team w.team).kGet n = if w.report = .counter n then (S.team w.team).kGet n - wordOf w.count else (S.team w.team).kGet n
  ports : (s'.team w.team).ports = match w.report with
    | .port n => mapMod [] n (· ++ [{ portEntry w.status w.scope with ord := S.nextId }]) (S.team w.team).ports
    | _ => (S.team w.team).ports

/-- A Coil command has left its queue with its locks, the lines that it wrote are present, and it has reported (R28, R29, R317, R324). -/
structure CoilGone (S : State) (core : Nat) (w : CilCmd) (err : Bool) (s' : State) : Prop where
  rest : { s' with teams := S.teams, cores := S.cores, nextId := S.nextId } = S
  queue : (s'.core core).coil.queue = (S.core core).coil.queue.filter (fun x => x.id != w.id)
  locks : (s'.core core).locks = (S.core core).locks.filter (fun e => e.cmd != w.id)
  absent : (s'.team w.team).absent = (S.team w.team).absent.filter (fun x => !w.lines.contains x)
  counter : ∀ n, n ≠ 0 → (s'.team w.team).kGet n = if w.report = .counter n then (S.team w.team).kGet n - wordOf w.count else (S.team w.team).kGet n
  ports : (s'.team w.team).ports = match w.report with
    | .port n => mapMod [] n (· ++ [{ portEntry (w.op.tag * 2 ^ 20 + bit w.ovf * 2 ^ 7 + bit w.inv * 2 ^ 6 + bit err * 2 ^ 5) w.scope with ord := S.nextId }]) (S.team w.team).ports
    | _ => (S.team w.team).ports

/-- The operand checks of an instruction that departs from them in nothing. -/
def plainPro : Pro := {}

end Machine

end Sys2Proof
end

