-- ==== Sys2Proof/Certificates/Slice0/Obligations.lean ====
section
/-! DEFINITION. The statements for the provers. -/

section Statements

open Sys2Proof Sys2Proof.Machine

/-- R129, R131 (with R108, R126): sums, differences and products, element by element, exact and then cut or saturated.
R131: the wide product and sum, whose addend and result have 64 bits of the type's signedness. -/
def Obligations.IntegerArithmetic : Prop :=
  (∀ (o : Ops) (ty : Ty) (sat : Bool) (s : State) (t c : Nat) (h : Cohort), Ready o plainPro s t c h →
    let A := fun l n => valI ty (s.srcElem t c l o ty o.a.op n)
    let B := fun l n => valI ty (s.srcElem t c l o ty o.b.op n)
    let C := fun l n => valI ty (s.srcElem t c l o ty o.c.op n)
    GivesElems (.add o ty sat) o s t c h ty (fun l n x => IntIs ty sat (A l n + B l n) x) ∧
    GivesElems (.sub o ty sat) o s t c h ty (fun l n x => IntIs ty sat (A l n - B l n) x) ∧
    GivesElems (.mul o ty sat) o s t c h ty (fun l n x => IntIs ty sat (A l n * B l n) x) ∧
    GivesElems (.mad o ty sat) o s t c h ty (fun l n x => IntIs ty sat (A l n * B l n + C l n) x) ∧
    GivesElems (.mulh o ty) o s t c h ty (fun l n x => ∃ z : Int,
      z * ((2 ^ tyW ty : Nat) : Int) ≤ A l n * B l n ∧ A l n * B l n < (z + 1) * ((2 ^ tyW ty : Nat) : Int) ∧ IntIs ty false z x)) ∧
  (∀ (o : Ops) (ty : Ty) (sat : Bool) (s : State) (t c : Nat) (h : Cohort), Ready o plainPro s t c h →
    let w : Ty := if tySigned ty then .i64 else .n64
    GivesElems (.madw o ty sat) o s t c h w (fun l _ x => IntIs w sat
      (valI ty (s.srcElem t c l o ty o.a.op 0) * valI ty (s.srcElem t c l o ty o.b.op 0) +
        valI w (s.srcElem t c l o w o.c.op 0)) x))

/-- R129 and R126: division truncates towards zero, the remainder takes the dividend's sign, and the corners.
R129: the lesser and the greater of two elements. -/
def Obligations.IntegerDivisionAndExtremes : Prop :=
  (∀ (o : Ops) (ty : Ty) (sat : Bool) (s : State) (t c : Nat) (h : Cohort), Ready o plainPro s t c h →
    let A := fun l n => valI ty (s.srcElem t c l o ty o.a.op n)
    let B := fun l n => valI ty (s.srcElem t c l o ty o.b.op n)
    GivesElems (.div o ty sat) o s t c h ty (fun l n x =>
      if B l n = 0 then x = 2 ^ tyW ty - 1
      else if tySigned ty ∧ A l n = intLo true (tyW ty) ∧ B l n = -1 then
        valI ty x = (if sat then intHi true (tyW ty) else intLo true (tyW ty))
      else valI ty x = (A l n).tdiv (B l n)) ∧
    GivesElems (.rem o ty) o s t c h ty (fun l n x =>
      if B l n = 0 then valI ty x = A l n else valI ty x = (A l n).tmod (B l n))) ∧
  (∀ (o : Ops) (ty : Ty) (s : State) (t c : Nat) (h : Cohort), Ready o plainPro s t c h →
    let A := fun l n => valI ty (s.srcElem t c l o ty o.a.op n)
    let B := fun l n => valI ty (s.srcElem t c l o ty o.b.op n)
    GivesElems (.min o ty) o s t c h ty (fun l n x => valI ty x = min (A l n) (B l n)) ∧
    GivesElems (.max o ty) o s t c h ty (fun l n x => valI ty x = max (A l n) (B l n)))

/-- R129, R130: bitwise operations, bit by bit. -/
def Obligations.Bitwise : Prop :=
  ∀ (o : Ops) (ty : Ty) (s : State) (t c : Nat) (h : Cohort), Ready o plainPro s t c h →
    let A := fun l n => s.srcElem t c l o ty o.a.op n
    let B := fun l n => s.srcElem t c l o ty o.b.op n
    GivesElems (.and o ty) o s t c h ty (fun l n x => ∀ j, j < tyW ty → x.testBit j = ((A l n).testBit j && (B l n).testBit j)) ∧
    GivesElems (.or o ty) o s t c h ty (fun l n x => ∀ j, j < tyW ty → x.testBit j = ((A l n).testBit j || (B l n).testBit j)) ∧
    GivesElems (.xor o ty) o s t c h ty (fun l n x => ∀ j, j < tyW ty → x.testBit j = ((A l n).testBit j ^^ (B l n).testBit j)) ∧
    GivesElems (.andn o ty) o s t c h ty (fun l n x => ∀ j, j < tyW ty → x.testBit j = ((A l n).testBit j && !(B l n).testBit j)) ∧
    GivesElems (.not o ty) o s t c h ty (fun l n x => ∀ j, j < tyW ty → x.testBit j = !(A l n).testBit j)

/-- R129 and R126: shifts and rotates by the element of B modulo the width. -/
def Obligations.Shifts : Prop :=
  ∀ (o : Ops) (ty : Ty) (sat : Bool) (s : State) (t c : Nat) (h : Cohort), Ready o plainPro s t c h → tyInt ty = true →
    let A := fun l n => s.srcElem t c l o ty o.a.op n
    let m := fun l n => s.srcElem t c l o ty o.b.op n % tyW ty
    GivesElems (.shl o ty sat) o s t c h ty (fun l n x => IntIs ty sat (valI ty (A l n) * ((2 ^ m l n : Nat) : Int)) x) ∧
    GivesElems (.shr o ty) o s t c h ty (fun l n x => ∀ j, j < tyW ty → x.testBit j = (A l n).testBit (j + m l n)) ∧
    GivesElems (.sra o ty) o s t c h ty (fun l n x => ∀ j, j < tyW ty →
      x.testBit j = (A l n).testBit (if j + m l n < tyW ty then j + m l n else tyW ty - 1)) ∧
    GivesElems (.rot o ty) o s t c h ty (fun l n x => ∀ j, j < tyW ty →
      x.testBit ((j + m l n) % tyW ty) = (A l n).testBit j)

/-- R130: leading and trailing zero bits, one bits, and the bits in reverse order.
R132: the fields that `bfx` extracts and `bfi` inserts. -/
def Obligations.BitCountsAndFields : Prop :=
  (∀ (o : Ops) (ty : Ty) (s : State) (t c : Nat) (h : Cohort), Ready o plainPro s t c h → tyInt ty = true →
    let A := fun l n => s.srcElem t c l o ty o.a.op n
    GivesElems (.clz o ty) o s t c h ty (fun l n x => x ≤ tyW ty ∧ (∀ j, tyW ty - x ≤ j → j < tyW ty → (A l n).testBit j = false) ∧
      (x < tyW ty → (A l n).testBit (tyW ty - 1 - x) = true)) ∧
    GivesElems (.ctz o ty) o s t c h ty (fun l n x => x ≤ tyW ty ∧ (∀ j, j < x → (A l n).testBit j = false) ∧
      (x < tyW ty → (A l n).testBit x = true)) ∧
    GivesElems (.popc o ty) o s t c h ty (fun l n x => x = ((List.range (tyW ty)).filter (A l n).testBit).length) ∧
    GivesElems (.brev o ty) o s t c h ty (fun l n x => ∀ j, j < tyW ty → x.testBit j = (A l n).testBit (tyW ty - 1 - j))) ∧
  (∀ (o : Ops) (ty : Ty) (s : State) (t c : Nat) (h : Cohort), Ready o plainPro s t c h → tyInt ty = true →
    let A := fun l n => s.srcElem t c l o ty o.a.op n
    let B := fun l n => s.srcElem t c l o ty o.b.op n
    let C := fun l n => s.srcElem t c l o ty o.c.op n
    GivesElems (.bfx o ty) o s t c h ty (fun l n x =>
      let p := min (B l n) (tyW ty)
      let len := min (C l n) (tyW ty - p)
      ∀ j, j < tyW ty → x.testBit j =
        if j < len then (A l n).testBit (p + j) else (tySigned ty && decide (0 < len) && (A l n).testBit (p + len - 1))) ∧
    ∀ pos len, pos + len ≤ tyW ty → GivesElems (.bfi o ty pos len) o s t c h ty (fun l n x => ∀ j, j < tyW ty →
      x.testBit j = if pos ≤ j ∧ j < pos + len then (A l n).testBit (j - pos) else (B l n).testBit j))

/-- R130: absolute value and negation of integers.
R130: `abs` clears the sign bit of a float element and `neg` inverts it; a NaN gives the canonical NaN. -/
def Obligations.SignOperations : Prop :=
  (∀ (o : Ops) (ty : Ty) (sat : Bool) (s : State) (t c : Nat) (h : Cohort), Ready o plainPro s t c h → tyInt ty = true →
    let A := fun l n => valI ty (s.srcElem t c l o ty o.a.op n)
    GivesElems (.abs o ty sat) o s t c h ty (fun l n x => IntIs ty sat ((A l n).natAbs : Int) x) ∧
    GivesElems (.neg o ty sat) o s t c h ty (fun l n x => IntIs ty sat (-A l n) x)) ∧
  (∀ (o : Ops) (ty : Ty) (sat : Bool) (s : State) (t c : Nat) (h : Cohort), Ready o plainPro s t c h → tyInt ty = false → tyFlt ty = true →
    let A := fun l n => s.srcElem t c l o ty o.a.op n
    let nan := fun l n => (unpackF (tyFmt ty) (A l n)).isNan = true
    GivesElems (.abs o ty sat) o s t c h ty (fun l n x => if nan l n then some x = (tyFmt ty).nan else
      ∀ j, j < tyW ty → x.testBit j = (j != tyW ty - 1 && (A l n).testBit j)) ∧
    GivesElems (.neg o ty sat) o s t c h ty (fun l n x => if nan l n then some x = (tyFmt ty).nan else
      ∀ j, j < tyW ty → x.testBit j = if j = tyW ty - 1 then !(A l n).testBit j else (A l n).testBit j))

/-- R133: each byte of the result of `prmt`.
R134: both forms of `sel`. -/
def Obligations.PermuteAndSelect : Prop :=
  (∀ (o : Ops) (s : State) (t c : Nat) (h : Cohort), Ready o plainPro s t c h →
    Gives (.prmt o) o false s t c h (fun l w => ∀ j, j < 8 →
      let k := wfld (s.srcWord t c l o o.c.op) (8 * j) 8
      let x := fld k 0 4
      let b := if x < 8 then wfld (s.srcWord t c l o o.a.op) (8 * x) 8 else wfld (s.srcWord t c l o o.b.op) (8 * (x - 8)) 8
      let r := if k.testBit 4 then 0 else if k.testBit 5 then (if b.testBit 7 then 255 else 0) else b
      wfld w (8 * j) 8 = if k.testBit 6 then 255 - r else r)) ∧
  (∀ (o : Ops) (ty : Ty) (s : State) (t c : Nat) (h : Cohort), Ready o plainPro s t c h →
    (∀ n, o.c.op = .p n → Gives (.sel o ty) o false s t c h (fun l w => w =
      if (s.lane t c l).pGet n then whole ty o.a.op (s.srcWord t c l o o.a.op) else whole ty o.b.op (s.srcWord t c l o o.b.op))) ∧
    ((∀ n, o.c.op ≠ .p n) → GivesElems (.sel o ty) o s t c h ty (fun l n x => x =
      if s.srcElem t c l o ty o.c.op n ≠ 0 then s.srcElem t c l o ty o.a.op n else s.srcElem t c l o ty o.b.op n)))

/-- R135 (with R110): comparisons, into a predicate and into elements of ones or zeros. -/
def Obligations.IntegerCompare : Prop :=
  ∀ (o : Ops) (ty : Ty) (cond : Cond) (s : State) (t c : Nat) (h : Cohort), Ready o plainPro s t c h →
    let A := fun l n => valI ty (s.srcElem t c l o ty o.a.op n)
    let B := fun l n => valI ty (s.srcElem t c l o ty o.b.op n)
    let holds := fun l n => match cond with
      | .eq => A l n = B l n
      | .ne => A l n ≠ B l n
      | .lt => A l n < B l n
      | .le => A l n ≤ B l n
      | .gt => A l n > B l n
      | .ge => A l n ≥ B l n
    (∀ n, o.d = .p n → Gives (.cmp o ty cond) o false s t c h (fun l w => w.getLsbD 0 = true ↔ holds l 0)) ∧
    ((∀ n, o.d ≠ .p n) → GivesElems (.cmp o ty cond) o s t c h ty (fun l n x => (holds l n → x = 2 ^ tyW ty - 1) ∧ (¬holds l n → x = 0)))

/-- R137, R138, R130: addresses, immediates and moves.
R136: sum and difference with carry; the carry-out predicate is written in the lanes that write D. Which lanes those are where D is no
lane register, and bits [7:6] of an FP6 immediate, are the model's choice (notes/assumptions/79, 80). -/
def Obligations.MovesAddressesAndCarry : Prop :=
  (∀ (o : Ops) (s : State) (t c : Nat) (h : Cohort), Ready o plainPro s t c h →
    let A := fun l => s.srcWord t c l o o.a.op
    let B := fun l => s.srcWord t c l o o.b.op
    let C := fun l => s.srcWord t c l o o.c.op
    Gives (.mov o) o false s t c h (fun l w => w = A l) ∧
    (∀ sh, Gives (.lea o sh false) o false s t c h (fun l w => w = A l + B l <<< sh + C l)) ∧
    (∀ sh, Gives (.lea o sh true) o false s t c h (fun l w => w = A l + ((B l).truncate 32).signExtend 64 <<< sh + C l)) ∧
    (∀ ty imm, Gives (.ldiF128 o ty imm) o false s t c h (fun _ w => w = imm)) ∧
    (∀ imm : BitVec 32, Gives (.ldiF96 o .i64 imm) o false s t c h (fun _ w => w = imm.signExtend 64)) ∧
    (∀ imm : BitVec 32, Gives (.ldiF96 o .n64 imm) o false s t c h (fun _ w => w = imm.zeroExtend 64)) ∧
    (∀ imm : BitVec 32, Gives (.ldiF96 o .f64 imm) o false s t c h (fun _ w => w = imm ++ 0#32)) ∧
    (∀ ty (imm : BitVec 32), tyN ty ≠ 1 → Gives (.ldiF96 o ty imm) o false s t c h (fun _ w => w = imm ++ imm)) ∧
    (∀ ty (imm : BitVec 32), tyN ty = 1 → tyW ty ≤ 32 → imm.toNat < 2 ^ tyW ty →
      GivesElems (.ldiF96 o ty imm) o s t c h ty (fun _ _ x => x = imm.toNat))) ∧
  (∀ (o : Ops) (ty : Ty) (sub : Bool) (co : Option Nat) (s : State) (t c : Nat) (h : Cohort), Ready o { pred := co } s t c h →
    (ty = .n64 ∨ ty = .n32) → (o.c.op = .k 0 ∨ ∃ n, o.c.op = .p n) →
    let ci := fun l => match o.c.op with
      | .p n => bit ((s.lane t c l).pGet n)
      | _ => 0
    let z := fun l => if sub then (s.srcElem t c l o ty o.a.op 0 : Int) - s.srcElem t c l o ty o.b.op 0 - ci l
      else (s.srcElem t c l o ty o.a.op 0 : Int) + s.srcElem t c l o ty o.b.op 0 + ci l
    let out := fun l => if sub then decide (z l < 0) else decide (((2 ^ tyW ty : Nat) : Int) ≤ z l)
    ∃ s0 s' val, exec (.addc o ty sub co) s = .next s' ∧ Wrote o false s t c h val 0 s0 ∧
      (∀ l ∈ s.performers t c h o.g false, ((val l).toNat : Int) = z l % ((2 ^ tyW ty : Nat) : Int)) ∧
      (∀ l, s'.lane t c l = match co with
        | none => s0.lane t c l
        | some n => if l ∈ s.performers t c h o.g false ∧ l < (s.course t c).lanes.length then (s0.lane t c l).pPut n (out l) else s0.lane t c l) ∧
      (∃ crs, { s' with teams := s0.teams } = s0 ∧ s'.team t = { s0.team t with courses := crs }) ∧
      (∀ u, u ≠ t → s'.team u = s0.team u) ∧ (∀ d, d ≠ c → s'.course t d = s0.course t d) ∧
      ∃ ls, s'.course t c = { s0.course t c with lanes := ls })

/-- R139: sums, differences, products and fused products, rounded once. -/
def Obligations.FloatArithmetic : Prop :=
  ∀ (o : Ops) (m : FMod) (s : State) (t c : Nat) (h : Cohort), Ready o plainPro s t c h → tyFlt m.ty = true →
    let f := tyFmt m.ty
    let A := fun l n => srcF f m.ftz (s.srcElem t c l o m.ty o.a.op n)
    let B := fun l n => srcF f m.ftz (s.srcElem t c l o m.ty o.b.op n)
    let C := fun l n => srcF f m.ftz (s.srcElem t c l o m.ty o.c.op n)
    let sum := fun (a b : FV) r => if a.isNan || b.isNan then r = nanOf f [a, b] else SumIs f m.rm m.ftz [a, b] r
    GivesFloat (.fadd o m) o s t c h m.ty (fun l n => sum (A l n) (B l n)) ∧
    GivesFloat (.fsub o m) o s t c h m.ty (fun l n => sum (A l n) (B l n).negate) ∧
    GivesFloat (.fmul o m) o s t c h m.ty (fun l n r =>
      let a := A l n
      let b := B l n
      if a.isNan || b.isNan then r = nanOf f [a, b]
      else if (a.isZero && b.isInf) || (a.isInf && b.isZero) then r = nanRes f fNV
      else if a.isInf || b.isInf then r = (withSign f (a.sign != b.sign) (fmtInf f), 0)
      else if a.isZero || b.isZero then r = (withSign f (a.sign != b.sign) 0, 0)
      else RoundedQ f m.rm m.ftz (a.num * b.num) r) ∧
    GivesFloat (.ffma o m) o s t c h m.ty (fun l n => FmaIs f m.rm m.ftz [(A l n, B l n)] (C l n))

/-- R144, R143: quotients and square roots, correctly rounded, and rounding to an integral value. -/
def Obligations.FloatDivisionAndRounding : Prop :=
  ∀ (o : Ops) (m : FMod) (nx : Bool) (s : State) (t c : Nat) (h : Cohort), Ready o plainPro s t c h → tyFlt m.ty = true →
    let f := tyFmt m.ty
    let p := fun l n => ftzSrc f m.ftz (s.srcElem t c l o m.ty o.a.op n)
    let A := fun l n => srcF f m.ftz (s.srcElem t c l o m.ty o.a.op n)
    let B := fun l n => srcF f m.ftz (s.srcElem t c l o m.ty o.b.op n)
    GivesFloat (.fdiv o m) o s t c h m.ty (fun l n r =>
      let a := A l n
      let b := B l n
      let sg := a.sign != b.sign
      if a.isNan || b.isNan then r = nanOf f [a, b]
      else if (a.isInf && b.isInf) || (a.isZero && b.isZero) then r = nanRes f fNV
      else if a.isInf then r = (withSign f sg (fmtInf f), 0)
      else if b.isInf || a.isZero then r = (withSign f sg 0, 0)
      else if b.isZero then r = (withSign f sg (fmtInf f), fDZ)
      else RoundedQ f m.rm m.ftz (a.num / b.num) r) ∧
    GivesFloat (.fsqrt o m) o s t c h m.ty (fun l n r =>
      let a := A l n
      if a.isNan then r = nanOf f [a]
      else if a.isZero then r = (withSign f a.sign 0, 0)
      else if a.sign then r = nanRes f fNV
      else if a.isInf then r = (withSign f false (fmtInf f), 0)
      else Rounded f m.rm m.ftz false (fun q => q * q < a.num) (fun q => q * q = a.num) r) ∧
    GivesFloat (.frnd o m nx) o s t c h m.ty (fun l n r =>
      let a := A l n
      if a.isNan then r = nanOf f [a]
      else if a.isInf || a.isZero then r = (p l n, 0)
      else ∃ k inexact, RoundsTo (fun k => (k : ℚ)) m.rm a.sign (· < |a.num|) (· = |a.num|) k inexact ∧
        (∃ j e, unpackF f r.1 = .fin a.sign j e) ∧ |(unpackF f r.1).num| = k ∧ r.2 = if nx && inexact then fNX else 0)

/-- R140 to R142: the lesser and greater operand, comparison, and classification. -/
def Obligations.FloatCompare : Prop :=
  ∀ (o : Ops) (m : FMod) (nan : Bool) (cond : FCond) (s : State) (t c : Nat) (h : Cohort), Ready o plainPro s t c h → tyFlt m.ty = true →
    let f := tyFmt m.ty
    let P := fun l n => ftzSrc f m.ftz (s.srcElem t c l o m.ty o.a.op n)
    let Q := fun l n => ftzSrc f m.ftz (s.srcElem t c l o m.ty o.b.op n)
    let A := fun l n => unpackF f (P l n)
    let B := fun l n => unpackF f (Q l n)
    let sig := fun l n => if (A l n).isSig || (B l n).isSig then fNV else 0
    let pick := fun (isMax : Bool) l n (r : FRes) =>
      if (A l n).isNan && (B l n).isNan then r = nanOf f [A l n, B l n]
      else if (A l n).isNan || (B l n).isNan then
        (if nan then r = nanOf f [A l n, B l n] else r = (if (A l n).isNan then Q l n else P l n, sig l n))
      else (((if isMax then (A l n).below (B l n) else (B l n).below (A l n)) → r = (Q l n, 0)) ∧
        (¬(if isMax then (A l n).below (B l n) else (B l n).below (A l n)) → r = (P l n, 0)))
    let un := fun l n => ((A l n).isNan || (B l n).isNan) = true
    let holds := fun l n => match cond with
      | .eq => ¬un l n ∧ ¬(A l n).lt (B l n) ∧ ¬(B l n).lt (A l n)
      | .ne => un l n ∨ (A l n).lt (B l n) ∨ (B l n).lt (A l n)
      | .lt => ¬un l n ∧ (A l n).lt (B l n)
      | .le => ¬un l n ∧ ¬(B l n).lt (A l n)
      | .gt => ¬un l n ∧ (B l n).lt (A l n)
      | .ge => ¬un l n ∧ ¬(A l n).lt (B l n)
      | .ord => ¬un l n
      | .un => un l n
    let nv := fun l n => if (match cond with
      | .lt | .le | .gt | .ge => (A l n).isNan || (B l n).isNan
      | _ => (A l n).isSig || (B l n).isSig) then fNV else 0
    GivesFloat (.fmin o m nan) o s t c h m.ty (pick false) ∧
    GivesFloat (.fmax o m nan) o s t c h m.ty (pick true) ∧
    ((∀ n, o.d ≠ .p n) → GivesFloat (.fcmp o m cond) o s t c h m.ty (fun l n r =>
      (holds l n → r = (2 ^ tyW m.ty - 1, nv l n)) ∧ (¬holds l n → r = (0, nv l n)))) ∧
    (tyN m.ty = 1 → ∀ n, o.d = .p n → GivesFlags (.fcmp o m cond) o s t c h (fun l w fl =>
      (w.getLsbD 0 = true ↔ holds l 0) ∧ fl = nv l 0)) ∧
    GivesFloat (.fclass o m) o s t c h m.ty (fun l n r => r.2 = 0 ∧ r.1 = 2 ^ (match A l n with
      | .inf true => 0
      | .inf false => 7
      | .nan true => 8
      | .nan false => 9
      | .fin sg k _ => if k = 0 then (if sg then 3 else 4)
        else if fmtMag f (P l n) < 2 ^ f.t then (if sg then 2 else 5) else (if sg then 1 else 6)))

/-- R145, R146: the two-term dot product with one rounding, and scaling by a power of two. The sign of a sum of three zeros of one sign
is the model's choice (notes/assumptions/81). -/
def Obligations.DotAndScale : Prop :=
  ∀ (o : Ops) (m : FMod) (s : State) (t c : Nat) (h : Cohort), Ready o plainPro s t c h →
    let f := tyFmt m.ty
    let A := fun l n => srcF f m.ftz (s.srcElem t c l o m.ty o.a.op n)
    let B := fun l n => srcF f m.ftz (s.srcElem t c l o m.ty o.b.op n)
    let ct : Ty := if m.ty = .f32x2 then .f32 else .f32x2
    ((m.ty = .f16x4 ∨ m.ty = .bf16x4 ∨ m.ty = .f32x2) → GivesFloat (.fdot2 o m) o s t c h ct (fun l j =>
      FmaIs fmtF32 m.rm m.ftz [(A l (2 * j), B l (2 * j)), (A l (2 * j + 1), B l (2 * j + 1))]
        (srcF fmtF32 m.ftz (s.srcElem t c l o ct o.c.op j)))) ∧
    (tyFlt m.ty = true → (∀ b, o.b.op ≠ .imm b) → GivesFloat (.fscal o m) o s t c h m.ty (fun l n r =>
      let a := A l n
      let e := sextN (tyW m.ty) (s.srcElem t c l o m.ty o.b.op n)
      if a.isNan then r = nanOf f [a]
      else if a.isInf then r = (withSign f a.sign (fmtInf f), 0)
      else if a.isZero then r = (withSign f a.sign 0, 0)
      else RoundedQ f m.rm m.ftz (a.num * 2 ^ e) r)) ∧
    (tyFlt m.ty = true → ∀ b, o.b.op = .imm b → GivesFloat (.fscal o m) o s t c h m.ty (fun l n r =>
      let a := A l n
      if a.isNan then r = nanOf f [a]
      else if a.isInf then r = (withSign f a.sign (fmtInf f), 0)
      else if a.isZero then r = (withSign f a.sign 0, 0)
      else RoundedQ f m.rm m.ftz (a.num * 2 ^ b.toInt) r))

/-- R149: what the special functions give at special values. Each gives the same result for the same input bits on every lane
and in every state (R148). -/
def Obligations.SpecialFunctions : Prop :=
  ∀ m : FMod, (m.ty = .f32 ∨ m.ty = .f16 ∨ m.ty = .bf16 ∨ m.ty = .f32x2 ∨ m.ty = .f16x4 ∨ m.ty = .bf16x4) →
    let f := tyFmt m.ty
    let inf := fun s => (withSign f s (fmtInf f) : Nat)
    let zero := fun s => (withSign f s 0 : Nat)
    let one := fun s => (withSign f s (f.bias * 2 ^ f.t) : Nat)
    let inv : FRes := nanRes f fNV
    ∀ fn : SFn, ∃ F : Nat → FRes,
      (∀ a, match fn, srcF f m.ftz a with
        | _, .nan sg => F a = nanRes f (if sg then fNV else 0)
        | .rcp, .inf sg => F a = (zero sg, 0)
        | .rsq, .inf sg => F a = if sg then inv else (zero false, 0)
        | .ex2, .inf sg => F a = if sg then (zero false, 0) else (inf false, 0)
        | .lg2, .inf sg => F a = if sg then inv else (inf false, 0)
        | .sin, .inf _ => F a = inv
        | .cos, .inf _ => F a = inv
        | .tanh, .inf sg => F a = (one sg, 0)
        | fn, .fin sg n x =>
          let v := (FV.fin sg n x).num
          (n = 0 → F a = match fn with
            | .rcp => (inf sg, fDZ)
            | .rsq => (inf sg, fDZ)
            | .ex2 => (one false, 0)
            | .lg2 => (inf true, fDZ)
            | .sin => (zero sg, 0)
            | .cos => (one false, 0)
            | .tanh => (zero sg, 0)) ∧
          (v = 1 → match fn with
            | .rcp => F a = (one false, 0)
            | .rsq => F a = (one false, 0)
            | .ex2 => F a = (withSign f false ((f.bias + 1) * 2 ^ f.t), 0)
            | .lg2 => F a = (zero false, 0)
            | _ => True) ∧
          (v < 0 → fn = .rsq ∨ fn = .lg2 → F a = inv) ∧
          (fn = .ex2 → m.ftz = false → ∀ (z : Int) (k : Nat), v = z → k ≤ f.maxCode → magOf f k = 2 ^ z → F a = (k, 0)) ∧
          (fn = .rcp → v ≠ 0 → magOf f (f.maxCode + 1) ≤ |v|⁻¹ → F a = (inf sg, fOF ||| fNX))) ∧
      ∀ (o : Ops) (s : State) (t c : Nat) (h : Cohort), Ready o plainPro s t c h →
        GivesFloat (match fn with
          | .rcp => .frcp o m
          | .rsq => .frsq o m
          | .ex2 => .fex2 o m
          | .lg2 => .flg2 o m
          | .sin => .fsin o m
          | .cos => .fcos o m
          | .tanh => .ftanh o m) o s t c h m.ty (fun l n r => r = F (s.srcElem t c l o m.ty o.a.op n))

/-- R150 to R152 with R125: conversion element by element, with narrowing and packing, and with widening of a half. -/
def Obligations.Conversions : Prop :=
  ∀ (o : Ops) (dt st : Ty) (rm : RM) (hi : Bool) (s : State) (t c : Nat) (h : Cohort), Ready o plainPro s t c h →
    let A := fun l n => s.srcElem t c l o st o.a.op n
    let B := fun l n => s.srcElem t c l o st o.b.op n
    (tyN dt = tyN st → GivesFloat (.cvt o dt st rm) o s t c h dt (fun l n => ConvIs dt st rm (A l n))) ∧
    (tyN dt = 2 * tyN st → GivesFloat (.pk o dt st rm) o s t c h dt (fun l n r =>
      if n < tyN st then ConvIs dt st rm (A l n) r
      else ConvIs dt st rm (B l (n - tyN st)) r)) ∧
    (tyN st = 2 * tyN dt → GivesFloat (.upk o dt st hi) o s t c h dt (fun l n r =>
      ∃ fl, ConvIs dt st .rne (A l (if hi then tyN dt + n else n)) (r.1, fl) ∧ r.2 = fl &&& fNV))

/-- R153: conversion of values to elements of an MX block and back, and the scale of a block. That an MXINT8 element which rounds exactly and is
then clipped raises no NX is the model's choice (notes/assumptions/93). -/
def Obligations.MxConversions : Prop :=
  ∀ (o : Ops) (mx wt : Ty) (rm : RM) (grp : Nat) (s : State) (t c : Nat) (h : Cohort), Ready o plainPro s t c h →
    mx ∈ [Ty.i8x8, .e4m3x8, .e5m2x8, .e3m2x8, .e2m3x8, .e2m1x16] →
    let sc := fun l => wfld (s.srcWord t c l o o.c.op) 0 8
    let w := fun l => (2 : ℚ) ^ ((sc l : Int) - 127)
    (wt = .bf16x4 ∨ wt = .f16x4 → GivesFloat (.cvtmxQ o mx wt rm) o s t c h mx (fun l n r =>
      if 8 ≤ n then r = (0, 0) else
      let v := unpackF (tyFmt wt) (if n < 4 then s.srcElem t c l o wt o.a.op n else s.srcElem t c l o wt o.b.op (n - 4))
      if sc l = 0xFF ∨ v.isNan = true then r = (if mx = .e4m3x8 then 0x7F else if mx = .e5m2x8 then 0x7E else 0, fNV)
      else if mx = .i8x8 then
        (if v.isInf then r = (if v.sign then 0x81 else 0x7F, fOF ||| fNX)
        else ∃ k inexact, RoundsTo (fun k => (k : ℚ)) rm v.sign (· < |v.num / w l * 64|) (· = |v.num / w l * 64|) k inexact ∧
          IsInt .i8x8 (satI (if v.sign then -(k : Int) else k) (-128) 127) r.1 ∧ r.2 = if inexact then fNX else 0)
      else if v.isInf then r = (withSign (tyFmt mx) v.sign (tyFmt mx).maxCode, fOF ||| fNX)
      else if v.isZero then r = (withSign (tyFmt mx) v.sign 0, 0)
      else RoundedQ { tyFmt mx with hasInf := false } rm false (v.num / w l) r)) ∧
    (wt = .f32x2 ∨ wt = .bf16x4 → tyN wt * grp + tyN wt ≤ tyN mx → GivesFloat (.cvtmxD o wt mx rm grp) o s t c h wt (fun l n r =>
      let x := s.srcElem t c l o mx o.a.op (tyN wt * grp + n)
      let v := if mx = .i8x8 then FV.fin (decide (sextN 8 x < 0)) (sextN 8 x).natAbs (-6) else unpackF (tyFmt mx) (x % 2 ^ fmtW (tyFmt mx))
      if sc l = 0xFF ∨ v.isNan = true then r = nanRes (tyFmt wt) 0
      else if v.isInf then r = (withSign (tyFmt wt) v.sign (fmtInf (tyFmt wt)), 0)
      else if v.isZero then r = (withSign (tyFmt wt) v.sign 0, 0)
      else RoundedQ (tyFmt wt) rm false (v.num * w l) r)) ∧
    Gives (.cvtmxS o mx) o false s t c h (fun l d =>
      match unpackF fmtF32 (s.srcElem t c l o .f32 o.a.op 0) with
      | .fin sg n x => if n = 0 then d = 0 else
          ∃ e : Int, (2 : ℚ) ^ e ≤ |(FV.fin sg n x).num| ∧ |(FV.fin sg n x).num| < 2 ^ (e + 1) ∧
            d.toInt = satI (e - mxEmax mx) (-127) 127 + 127
      | _ => d = 0xFF)

/-- R84, R85: leaders, and operations on predicates.
R86: the votes of the live lanes of a segment. -/
def Obligations.PredicatesAndVotes : Prop :=
  (∀ (o : Ops) (s : State) (t c : Nat) (h : Cohort), Ready o plainPro s t c h →
    let A := fun l => (s.srcWord t c l o o.a.op).getLsbD 0
    let B := fun l => (s.srcWord t c l o o.b.op).getLsbD 0
    let voter := fun m => m ∈ s.performers t c h o.g false ∧ (s.lane t c m).cls = .live
    Gives (.pldr o false) o false s t c h (fun l w => w.getLsbD 0 = true ↔ voter l ∧ ∀ m, voter m → l ≤ m) ∧
    Gives (.pldr o true) o false s t c h (fun l w => w.getLsbD 0 = true ↔ voter l ∧ ∀ m, voter m → m / 4 = l / 4 → l ≤ m) ∧
    Gives (.pand o) o false s t c h (fun l w => w.getLsbD 0 = (A l && B l)) ∧
    Gives (.por o) o false s t c h (fun l w => w.getLsbD 0 = (A l || B l)) ∧
    Gives (.pxor o) o false s t c h (fun l w => w.getLsbD 0 = (A l ^^ B l)) ∧
    Gives (.pandn o) o false s t c h (fun l w => w.getLsbD 0 = (A l && !B l)) ∧
    Gives (.pnot o) o false s t c h (fun l w => w.getLsbD 0 = !A l) ∧
    Gives (.pmov o) o false s t c h (fun l w => w.getLsbD 0 = A l)) ∧
  (∀ (o : Ops) (seg : Nat) (s : State) (t c : Nat) (h : Cohort), Ready o plainPro s t c h → seg ≤ 4 →
    let A := fun l => (s.srcWord t c l o o.a.op).getLsbD 0
    let voter := fun l m => m ∈ s.performers t c h o.g false ∧ (s.lane t c m).cls = .live ∧ m / (32 / 2 ^ seg) = l / (32 / 2 ^ seg)
    Gives (.voteAny o seg) o false s t c h (fun l w => w.getLsbD 0 = true ↔ ∃ m, voter l m ∧ A m = true) ∧
    Gives (.voteAll o seg) o false s t c h (fun l w => w.getLsbD 0 = true ↔ ∀ m, voter l m → A m = true) ∧
    Gives (.voteBallot o seg) o false s t c h (fun l w => ∀ j, j < 64 → (w.getLsbD j = true ↔ voter l j ∧ A j = true)) ∧
    Gives (.voteCount o seg) o false s t c h (fun l w => ∃ ms : List Nat, ms.Nodup ∧ (∀ m, m ∈ ms ↔ voter l m ∧ A m = true) ∧ w.toNat = ms.length))

/-- R155, R156: whole registers from another lane of the segment or quad, or the writer's own where that lane does not
participate.
R157, R158: reductions, scans and matches over the contributors of a segment. -/
def Obligations.CrossLane : Prop :=
  (∀ (o : Ops) (s : State) (t c : Nat) (h : Cohort) (src : Nat → Nat),
    let from' := fun l => if src l ∈ s.activeOf t c h then src l else l
    CrossReady o s t c h (fun l => [from' l]) →
    let B := fun l => (s.srcWord t c l o o.b.op).toNat
    let gives := fun i => Gives i o false s t c h (fun l w => w = s.srcWord t c (from' l) o o.a.op)
    (∀ mode seg, mode ≤ 3 → seg ≤ 4 →
      let S := 32 / 2 ^ seg
      (∀ l, src l = l - l % S + match mode with
        | 0 => B l % S
        | 1 => (l % S + B l) % S
        | 2 => (S - 1 - l % S + B l) % S
        | _ => (l % S) ^^^ (B l % S)) → gives (.shfl o mode seg)) ∧
    ((∀ l, src l = l ^^^ 1) → gives (.qx o 0)) ∧
    ((∀ l, src l = l ^^^ 2) → gives (.qx o 1)) ∧
    ((∀ l, src l = l ^^^ 3) → gives (.qx o 2)) ∧
    (∀ n, n < 4 → (∀ l, src l = 4 * (l / 4) + n) → gives (.qbc o n))) ∧
  (∀ (o : Ops) (ty : Ty) (op : COp) (seg : Nat) (excl : Bool) (s : State) (t c : Nat) (h : Cohort), seg ≤ 4 →
    let cs := s.contributors t c h o.g seg
    let A := fun i m => s.srcElem t c m o ty o.a.op i
    let upto := fun l => (cs l).filter (fun m => if excl then decide (m < l) else decide (m ≤ l))
    ((tyInt ty = true ∨ tyFlt ty = true ∧ (op = .add ∨ op = .min ∨ op = .max)) →
      (CrossReady o s t c h cs → GivesFloat (.credc o ty op seg) o s t c h ty (fun l n => CombinedIs ty op ((cs l).map (A n)))) ∧
      (CrossReady o s t c h upto → GivesFloat (.cscan o ty op seg excl) o s t c h ty (fun l n => CombinedIs ty op ((upto l).map (A n))))) ∧
    (CrossReady o s t c h (fun l => l :: cs l) → Gives (.matchx o ty seg) o false s t c h (fun l w =>
      ∀ j, j < 64 → (w.getLsbD j = true ↔ j ∈ cs l ∧ A 0 j = A 0 l))))

/-- R87: an index register takes 16 bits of a source and a limit.
R88, R90: binding a queue register to a port, when it is bound already, and what `qstat` reports (notes/assumptions/67 says what still
parks it). -/
def Obligations.IndexAndQueueRegisters : Prop :=
  (∀ (o : Ops) (n limit : Nat) (s : State) (t c : Nat) (h : Cohort), Ready o { d := .none } s t c h → o.d = .x n →
    let sets := fun i (val lim : Nat → Nat) => ∃ s', exec i s = .next s' ∧
      Done { o with d := .none } false s t c h (fun l L => { L with xv := mapPut n (val l) L.xv, xl := mapPut n (lim l) L.xl })
        (fun _ => 0) 0 h.next s'
    let A := fun l => (s.srcWord t c l o o.a.op).toNat
    let B := fun l => (s.srcWord t c l o o.b.op).toNat
    sets (.xset o limit) (fun l => A l % 2 ^ 16) (fun _ => limit) ∧
    ∀ m, o.a.op = .x m → sets (.xadd o) (fun l => (A l + B l) % 2 ^ 16) (fun l => (s.lane t c l).xLim m)) ∧
  (∀ (o : Ops) (n : Nat) (s : State) (t c : Nat) (h : Cohort),
    let T := s.team t
    let cur := T.portOf n
    (∀ l, Ready o { d := .none } s t c h → o.d = .eq n → s.chosenLane t c h o.g = some l →
      let p := (s.srcWord t c l o o.a.op).toNat
      (p < 0x22 ∨ (p = 0x7F ∧ T.sup = true)) → (p = 0 ∨ cur = 0 ∨ cur = p) →
      Ends (.qbind o) o s t c h (s.modTeam t (fun T => { T with eqs := mapPut n p T.eqs }))) ∧
    (Ready o { d := .none } s t c h → o.d = .eq n → s.chosenLane t c h o.g = none → Ends (.qbind o) o s t c h s) ∧
    (Ready o { nA := true, d := .now } s t c h → o.a.op = .eq n → Gives (.qstat o) o false s t c h (fun _ w =>
      w.getLsbD 63 = decide (cur ≠ 0) ∧ (cur < 0x80 → s.portLen t cur < 2 ^ 16 →
        wfld w 48 15 * 2 ^ 16 + wfld w 32 16 = cur ∧
        wfld w 16 16 = (if cur = 0x20 then s.coilRoom t c else 0) ∧
        wfld w 0 16 = (if cur = 0 ∨ cur = 0x20 then 0 else s.portLen t cur)))))

/-- R91: what `srd` reads. -/
def Obligations.SystemRegisterRead : Prop :=
  ∀ (o : Ops) (num : Nat) (s : State) (t c : Nat) (h : Cohort),
    Ready o { priv := if 0x100 ≤ num then some (0x02, num) else none } s t c h →
    let T := s.team t
    let C := s.course t c
    let k := s.column (T.core / 12)
    ∀ v : Nat → Word, (num, v) ∈ ([
      (0x000, fun l => wordOf l), (0x001, fun l => wordOf (l / 4)), (0x002, fun _ => wordOf c), (0x003, fun _ => wordOf T.idx),
      (0x004, fun _ => wordOf T.tx), (0x005, fun _ => wordOf T.ty), (0x006, fun _ => wordOf T.tz), (0x007, fun _ => wordOf T.nteams),
      (0x008, fun _ => wordOf T.core), (0x009, fun _ => wordOf (T.core / 12)), (0x00A, fun _ => wordOf (T.core / 12 / 8)),
      (0x00B, fun _ => wordOf (T.core / 12 / 16)), (0x00C, fun _ => wordOf s.device), (0x00D, fun _ => wordOf T.node),
      (0x00E, fun _ => wordOf T.gangpos), (0x00F, fun _ => wordOf T.gangsize),
      (0x010, fun _ => wordOf (((s.core T.core).split.map (fun x => x.regs + x.loc / 16 * 2 ^ 16 + x.l1 / 64 * 2 ^ 32)).getD 0)),
      (0x020, fun _ => wordOf T.fpcr),
      (0x022, fun _ => wordOf (bit T.terr + 4 * bit (s.core T.core).draining.isSome + 256 * (T.courses.filter (·.suspended)).length)),
      (0x030, fun _ => wordOf (s.cycle (T.core / 12))),
      (0x021, fun _ => wordOf C.fpsr), (0x031, fun _ => wordOf k.cone), (0x040, fun _ => T.utvec),
      (0x041, fun l => (s.lane t c l).ltcause), (0x042, fun l => (s.lane t c l).ltpc), (0x043, fun l => (s.lane t c l).ltaddr),
      (0x044, fun l => (s.lane t c l).ltinfo), (0x045, fun _ => T.utmask), (0x046, fun _ => T.ckvec),
      (0x047, fun l => wordOf (s.lane t c l).depth), (0x100, fun _ => wordOf T.asid),
      (0x101, fun _ => wordOf (mapGet 0 T.asid k.gens)), (0x102, fun _ => wordOf (T.ptroot * 4096)),
      (0x103, fun _ => (s.core T.core).drainlim), (0x104, fun _ => (s.core T.core).parklim), (0x105, fun _ => C.stvec),
      (0x106, fun _ => wordOf (k.scq.length + 256 * k.scqWait.length))] : List (Nat × (Nat → Word))) →
    Gives (.srd o num) o false s t c h (fun l w => w = v l)

/-- R91, R73: what `swr` writes, lane by lane or with the value of the chosen lane; a read-only register ignores it. The values that
FPCR, UTVEC, UTMASK and STVEC have at the start of the cycle stay in force for the faults of that cycle (R93, R159). -/
def Obligations.SystemRegisterWrite : Prop :=
  ∀ (o : Ops) (num : Nat) (s : State) (t c : Nat) (h : Cohort),
    Ready o { d := .none, priv := if 0x100 ≤ num then some (0x02, num) else none } s t c h →
    let A := fun l => s.srcWord t c l o o.a.op
    let now := s.cycle (s.colOf t)
    (∀ l ∈ s.performers t c h o.g false, (s.lane t c l).cls = .live →
      (A l).toNat &&& sysRsv num = 0 ∧ (num = 0x044 → wfld (A l) 16 5 ≤ 23)) →
    (∀ upd : Nat → Lane → Lane, (num, upd) ∈ ([
        (0x041, fun l L => { L with ltcause := A l }), (0x042, fun l L => { L with ltpc := A l }),
        (0x043, fun l L => { L with ltaddr := A l }), (0x044, fun l L => { L with ltinfo := A l })] : List (Nat × (Nat → Lane → Lane))) →
      ∃ s', exec (.swr o num) s = .next s' ∧ Moved o s t c h upd s') ∧
    (∀ l, s.chosenLane t c h o.g = some l → ∀ W, (num, W) ∈ ([
        (0x020, s.modTeam t (fun T => { T.keepOld now with fpcr := (A l).toNat })), (0x021, s.modCourse t c (fun C => { C with fpsr := (A l).toNat })),
        (0x022, s.modTeam t (fun T => { T with terr := T.terr && !(A l).getLsbD 0 })),
        (0x040, s.modTeam t (fun T => { T.keepOld now with utvec := A l })), (0x045, s.modTeam t (fun T => { T.keepOld now with utmask := A l })),
        (0x046, s.modTeam t (fun T => { T with ckvec := A l })), (0x100, s.modTeam t (fun T => { T with asid := (A l).toNat })),
        (0x102, s.modTeam t (fun T => { T with ptroot := wfld (A l) 12 40 })),
        (0x103, s.modCore (s.team t).core (fun k => { k with drainlim := A l })),
        (0x104, s.modCore (s.team t).core (fun k => { k with parklim := A l })),
        (0x105, s.modCourse t c (fun C => { C.keepOld now with stvec := A l }))] : List (Nat × State)) → Ends (.swr o num) o s t c h W) ∧
    (s.chosenLane t c h o.g = none → num < 0x041 ∨ 0x044 < num → Ends (.swr o num) o s t c h s) ∧
    (num ∈ [0x000, 0x001, 0x002, 0x003, 0x004, 0x005, 0x006, 0x007, 0x008, 0x009, 0x00A, 0x00B, 0x00C, 0x00D, 0x00E, 0x00F, 0x010,
      0x030, 0x031, 0x047, 0x101, 0x106] → Ends (.swr o num) o s t c h s)

/-- R77 to R79, R81, R82: what the transfers, `yield` and `bar` leave for the trailer. -/
def Obligations.Transfers : Prop :=
  ∀ (o : Ops) (off : BitVec 32) (id : Nat) (s : State) (t c : Nat) (h : Cohort),
    let A := fun l => s.srcWord t c l o o.a.op
    let rel := fun (_ : Nat) => h.pc + off.signExtend 64
    let live := fun l => l ∈ s.performers t c h o.g false ∧ (s.lane t c l).cls = .live
    let back := fun (d : Word) => decide (d.toNat ≤ h.pc.toNat)
    (Ready o { d := .none } s t c h →
      Ends (.nop o) o s t c h s ∧
      (∃ s', exec (.exit o) s = .next s' ∧ Moved o s t c h (fun _ L => { L with xfer := some .exit }) s') ∧
      (∃ s', exec (.bar o id) s = .next s' ∧ Moved o s t c h (fun _ L => { L with xfer := some (.hold id) }) s') ∧
      (∃ s', exec (.yield o) s = .next s' ∧ ∀ y, (y = true ↔ h.yld = true ∨ ∃ l, live l) →
        Done { o with d := .none } false s t c h (fun _ L => L) (fun _ => 0) 0 (Cohort.next { h with yld := y }) s') ∧
      ((∀ l, live l → s.markFault t false (rel l) = none) → ∃ s', exec (.bra o off) s = .next s' ∧
        Moved o s t c h (fun l L => { L with xfer := some (.jump (rel l) L.depth), back := back (rel l) }) s') ∧
      ((∀ l, live l → s.markFault t false (A l) = none) → ∃ s', exec (.brx o) s = .next s' ∧
        Moved o s t c h (fun l L => { L with xfer := some (.jump (A l) L.depth), back := back (A l) }) s') ∧
      ((∀ l, live l → s.markFault t false (A l) = none ∧ (s.lane t c l).depth ≠ 0) → ∃ s', exec (.ret o) s = .next s' ∧
        Moved o s t c h (fun l L => { L with xfer := some (.jump (A l) (L.depth - 1)), back := false }) s')) ∧
    (Ready o plainPro s t c h → (∃ n, o.d = .v n ∨ o.d = .k n) →
      let calls := fun i (dest : Nat → Word) => (∀ l, live l → s.markFault t true (dest l) = none ∧ (s.lane t c l).depth ≠ 255) →
        ∃ s', exec i s = .next s' ∧ Done o false s t c h (fun l L => if L.cls = .live then
          { L.putReg o.ib o.d h.link with xfer := some (.jump (dest l) (L.depth + 1)), back := false } else L) (fun _ => h.link) 0 h.next s'
      calls (.call o off) rel ∧ calls (.callx o) A)

/-- R80, R93, R94, R97, R99: `trap` raises SWTRAP in the live lanes. In user mode a lane enters the handler that UTVEC and UTMASK name at
the start of the cycle, in supervisor mode that of STVEC. A lane for which the vector is not enabled, whose class it does not accept, that is
in a handler already, or whose temporaries it cannot save stays at the instruction and the course is suspended: the record of a user course is
pushed or waits for room (R101, R102), a supervisor course is reported to the column core (R364). -/
def Obligations.TrapEntry : Prop :=
  ∀ (o : Ops) (code : Nat) (s : State) (t c : Nat) (h : Cohort), Ready o { d := .none } s t c h → code < 256 →
    let T := s.team t
    let u := (T.atStart (s.cycle (s.colOf t))).2
    let v := if T.sup then (s.course t c).stvecAt (s.cycle (s.colOf t)) else u.1
    let ts := if T.sup then wfld v 56 8 else wfld u.2 56 8
    let traps := fun l => l ∈ s.performers t c h o.g false ∧ (s.lane t c l).cls = .live ∧ l < (s.course t c).lanes.length
    let enters := fun l => traps l ∧ v.getLsbD 0 = true ∧ (T.sup = true ∨ u.2.getLsbD 0x18 = true) ∧ ts + 7 < T.split.regs ∧ (s.lane t c l).intrap = false
    let stays := fun l => traps l ∧ ¬enters l
    h.issued < 32 → T.split.regs ≤ 256 → (∀ l, traps l → (s.lane t c l).twr < 256) →
    ∃ s', exec (.trap o code) s = .next s' ∧ s'.mem = s.mem ∧ s'.flights = s.flights ∧
      (∀ l, traps l → TrapStateOf (s'.lane t c l) 0x18 h.succ code (s.lane t c l).twr h.issued) ∧
      (∀ l, enters l → EnteredAs (s.lane t c l) (s'.lane t c l) ts (canon56 (wfld v 7 49 * 128))) ∧
      ((∀ l, ¬stays l) → (s'.course t c).suspended = (s.course t c).suspended ∧ (∀ l, ¬traps l → s'.lane t c l = s.lane t c l) ∧
        (∀ h', (s'.course t c).coh = some h' → ∃ ls, h' = { h.next with lanes := ls } ∧ ∀ l, l ∈ ls ↔ l ∈ h.lanes ∧ ¬traps l)) ∧
      ((∃ l, stays l) → (s'.course t c).suspended = true ∧ (s'.course t c).coh = none ∧
        (∀ l, stays l → (s'.lane t c l).pc = h.pc ∧ (s'.lane t c l).pend = true ∧ (s'.lane t c l).issued = h.issued) ∧
        (∀ l, l ∈ h.lanes → ¬traps l → l < (s.course t c).lanes.length →
          (s'.lane t c l).pc = h.succ ∧ (s'.lane t c l).pend = true ∧ (s'.lane t c l).issued = h.issued + 1) ∧
        let k := s.column (T.core / 12)
        let k' := s'.column (T.core / 12)
        (T.sup = true → k'.scq = k.scq ∧ k'.scqWait = k.scqWait ∧ if k.suspq.length < 16 then
          k'.suspq = k.suspq ++ [T.handle c] ∧ bitN k'.intstat 2 = true else k'.suspq = k.suspq) ∧
        (T.sup = false → k'.suspq = k.suspq ∧ ∃ r, (if k.scqWait = [] ∧ k.scq.length < 64 then k'.scq = k.scq ++ [r] ∧ k'.scqWait = []
          else k'.scq = k.scq ∧ k'.scqWait = k.scqWait ++ [r]) ∧ r.handle = T.handle (s.course t c).num ∧
          r.node = T.node ∧ r.ltpc = h.succ ∧ ∀ l, l < 32 → (bitN r.info l = true ↔ stays l)))

/-- R95: the return from a handler restores the temporaries and, with RESUME, the place in the batch. -/
def Obligations.TrapReturn : Prop :=
  ∀ (o : Ops) (s : State) (t c : Nat) (h : Cohort), Ready o { d := .none } s t c h →
    let T := s.team t
    let returns := fun (i : Instr) (ts : Nat) =>
      (∀ l ∈ s.performers t c h o.g false, (s.lane t c l).cls = .live → (s.lane t c l).intrap = true) →
      ∃ s' upd, exec i s = .next s' ∧ Moved o s t c h upd s' ∧ ∀ l L,
        (upd l L).intrap = false ∧ (∀ n, n < 8 → ts + n < T.split.regs → mapGet 0 n (upd l L).t = L.vGet (ts + n)) ∧
        (upd l L).xfer = some (if L.ltinfo.getLsbD 21 then .ret L.ltpc true (wfld L.ltinfo 16 5) (wfld L.ltinfo 8 8)
          else .ret L.ltpc false 0 0) ∧
        { upd l L with t := L.t, intrap := L.intrap, xfer := L.xfer } = L
    (T.sup = false → returns (.tret o) (wfld T.utmask 56 8)) ∧
    (T.sup = true → returns (.sret o) (wfld (s.course t c).stvec 56 8))

/-- R51, R66, R78, R79, R82, R95: the trailer ends the batch, and what it makes of each lane of its cohort for which no fault or CONE
event pends. That an awaited `v` register at or beyond the split raises no SPLIT is the model's choice (notes/assumptions/95). -/
def Obligations.Trailer : Prop :=
  ∀ (o : Ops) (count : Nat) (yld : Bool) (s : State) (t c : Nat) (h : Cohort),
    s.focus = some (t, c) → (s.course t c).coh = some h → c < (s.team t).courses.length → 1 ≤ count → count ≤ 24 → h.issued = count →
    (∀ x ∈ [o.d, o.a.op, o.b.op], ∀ n, x = .eq n → (s.team t).portOf n ≠ 0) →
    let calm := fun l => (s.lane t c l).defs = [] ∧ (s.lane t c l).cone = none
    ∃ s', exec (.btl o count yld) s = .next s' ∧ s'.mem = s.mem ∧ s'.flights = s.flights ∧ (∀ u, u ≠ t → s'.team u = s.team u) ∧
      (s'.course t c).coh = none ∧ (s'.course t c).parked = none ∧
      (s'.course t c).awaits = [specOf o.d, specOf o.a.op, specOf o.b.op] ∧
      (s'.course t c).backcnt = (if h.lanes.all (fun l => (s.lane t c l).back) then min 1024 ((s.course t c).backcnt + 1) else 0) ∧
      (∀ l ∈ h.lanes, l < (s.course t c).lanes.length → calm l →
        let L := s.lane t c l
        let L' := s'.lane t c l
        L'.v = L.v ∧ L'.vE = L.vE ∧ L'.p = L.p ∧ L'.pE = L.pE ∧ L'.xfer = none ∧ L'.back = false ∧
        (match L.xfer with
        | none => L'.pc = h.succ ∧ L'.pend = false ∧ L'.issued = 0 ∧ L'.twr = 0 ∧ L'.depth = L.depth
        | some (.jump pc d) => L'.pc = pc ∧ L'.pend = false ∧ L'.issued = 0 ∧ L'.twr = 0 ∧ L'.depth = d
        | some (.ret pc p i w) => L'.pc = pc ∧ L'.pend = p ∧ L'.issued = i ∧ L'.twr = w ∧ L'.depth = L.depth
        | some .exit => L'.cls ≠ .live ∧ L'.held = none
        | some (.hold id) => L'.pc = h.succ ∧ L'.pend = false ∧ L'.issued = 0 ∧ L'.twr = 0 ∧ (L'.held = some id ∨ L'.held = none))) ∧
      (∀ l, l ∉ (s.course t c).active h.lanes → (s.lane t c l).cls = .live → calm l →
        let L := s.lane t c l
        let L' := s'.lane t c l
        { L' with held := L.held } = L) ∧
      (∀ id, id < 16 → (∃ l, (s'.lane t c l).held = some id) → (s.course t c).suspended = false →
        (∃ C ∈ (s'.team t).courses, C.arrived id = false) ∨
        ∃ f ∈ s.flights, f.team = t ∧ (f.kind = .str ∨ f.kind = .stl ∨ f.kind = .latomR ∨ f.kind = .latom ∨ f.onPresence = true) ∧ f.performed 1 = false)

/-- R184, R185, R187: a global load sends one access for each lane that performs it, `ldk` one for the cohort. A plain load of this device's
memory whose line the core's L1 keeps, which neither an earlier access nor an acquire beyond the core keeps from it, has its value fixed at
issue (R176); every value lands later (LOAD_DATA_LANDS). -/
def Obligations.GlobalLoads : Prop :=
  ∀ (o : Ops) (m : LdM) (s : State) (t c : Nat) (h : Cohort) (pa pte : Nat → Nat),
    let T := s.team t
    let size := lsBytes m.size
    let X := fun l => s.srcWord t c l o o.a.op + s.srcWord t c l o o.b.op + wordOfInt m.off
    let sends := fun (i : Instr) (one : Bool) => Ready o { one := one } s t c h →
      (∀ l ∈ s.performers t c h o.g one, (X l).toNat % size = 0 ∧ s.mapped t c (X l) .load (pa l) (pte l) ∧ s.unlockedAt t (X l) size true ∧
        ((s.lane t c l).cls ≠ .live → pteAttr (pte l) ≠ 2)) →
      Sends i o s t c h (fun fs => OnePer (s.performers t c h o.g one) fs (fun l f =>
        f.kind = (if pteAttr (pte l) = 2 then .mmioLoad else .load) ∧ f.va = X l ∧ f.pa = pa l ∧ f.attr = pteAttr (pte l) ∧
        f.fmode = pteFmode (pte l) ∧ f.peer = ptePeer (pte l) ∧ f.size = size ∧ f.sext = lsSigned m.size ∧ f.asid = T.asid ∧
        f.dest = s.destIn t c h o l ∧ f.acq = m.acq.isSome ∧ f.scope = (m.acq.map scopeCode).getD 0 ∧ f.rel = false ∧
        ((f.stage = 0 ∧ f.after = s.orders t c l (pteAttr (pte l)) m.acq.isSome none) ∨
          (f.stage = 1 ∧ ∃ x ∈ (s.core T.core).l1, x.asid = T.asid ∧
            x.line = (if pteFmode (pte l) = 0 then pa l / 64 else farLine (ptePeer (pte l)) (pa l)) ∧
            f.val = loadExt size (lsSigned m.size) (leVal ((x.data.drop (pa l % 64)).take size)))) ∧
        (pteFmode (pte l) = 0 → (∀ sc, m.acq = some sc → scopeCode sc < 2) → s.l1Serves f = true →
          ((s.core T.core).l1At T.asid (pa l / 64)).isSome = true → f.stage = 1)))
    sends (.ld o m) false ∧ sends (.ldk o m) true

/-- R184, R186, R188: a global store sends one access for each live lane that performs it, with what its lane's earlier accesses make it
wait for; a prefetch sends one only where the translation serves and the page is plain memory, of which L1 keeps the line of this device's
memory and of a page with FMODE 2 (R377), and it never parks or faults. No byte of memory changes yet. -/
def Obligations.GlobalStoresAndPrefetch : Prop :=
  ∀ (o : Ops) (m : StM) (msc : Bool) (span : Nat) (off : Int) (s : State) (t c : Nat) (h : Cohort) (pa pte : Nat → Nat),
    let size := lsBytes m.size
    let X := fun (off : Int) l => s.srcWord t c l o o.a.op + s.srcWord t c l o o.b.op + wordOfInt off
    let ls := s.livePerf t c h o.g
    (Ready o { d := .none } s t c h →
      (∀ l ∈ ls, (X m.off l).toNat % size = 0 ∧ s.mapped t c (X m.off l) .store (pa l) (pte l) ∧ s.unlockedAt t (X m.off l) size false ∧
        (pteFmode (pte l) = 0 → s.windowAt (pa l) = none)) →
      Sends (.st o m) o s t c h (fun fs => OnePer ls fs (fun l f =>
        f.kind = .store ∧ f.va = X m.off l ∧ f.pa = pa l ∧ f.attr = pteAttr (pte l) ∧ f.fmode = pteFmode (pte l) ∧ f.peer = ptePeer (pte l) ∧
        f.size = size ∧ f.data = s.srcWord t c l o o.c.op ∧ f.asid = (s.team t).asid ∧ f.dest = .none ∧ f.stage = 0 ∧
        f.rel = m.rel.isSome ∧ f.scope = (m.rel.map scopeCode).getD 0 ∧ f.after = s.orders t c l (pteAttr (pte l)) m.rel.isSome m.rel))) ∧
    (s.focus = some (t, c) → (s.course t c).coh = some h → Sends (.pf o msc span off) o s t c h (fun fs =>
      (∀ f ∈ fs, f.kind = .pf ∧ f.dest = .none ∧ f.span = span ∧ f.attr = 0 ∧ f.fillL1 = (!msc && (f.fmode == 0 || f.fmode == 2)) ∧
        f.after = s.acqAfter t c f.lane ∧ ∃ pte, s.mapped t c (X off f.lane) .load f.pa pte ∧ pteAttr pte = 0) ∧
      (Ready o { d := .none } s t c h → ∀ l, (∃ f ∈ fs, f.lane = l) ↔
        l ∈ s.performers t c h o.g false ∧ ∃ pa pte, s.mapped t c (X off l) .load pa pte ∧ pteAttr pte = 0)))

/-- R161, R180, R184 to R186: local loads and stores of lines that are present. A store changes only the bytes at its physical offset. Where
a lane of the instruction has a local access or an acquire before it, its accesses wait for their turn at the unit (R181, R185); a store
never waits in the course. -/
def Obligations.LocalAccesses : Prop :=
  ∀ (o : Ops) (m : LocM) (s : State) (t c : Nat) (h : Cohort),
    let T := s.team t
    let size := lsBytes m.size
    let X := fun l => s.srcWord t c l o o.a.op + s.srcWord t c l o o.b.op + wordOfInt m.off
    let P := fun l => phys m.swz (X l).toNat
    let ok := fun l => (X l).toNat % size = 0 ∧ (X l).toNat < T.split.loc * 1024
    let free := fun ls => ∀ l ∈ ls, s.localFree t c l
    let waits := fun l (f : Flight) => f.stage = 0 ∧ f.va = X l ∧ f.pa = P l ∧ f.peer = t + 1 ∧ f.size = size ∧ f.after = s.acqAfter t c l
    (Ready o {} s t c h →
      let ls := s.performers t c h o.g false
      (∀ l ∈ ls, ok l ∧ T.absent.contains (P l / 64) = false ∧ T.locBad (P l) size = false) →
      (free ls → Sends (.ldl o m) o s t c h (fun fs => OnePer ls fs (fun l f =>
        f.kind = .load ∧ f.stage = 1 ∧ f.dest = s.destIn t c h o l ∧ f.after = [] ∧
        f.val = loadExt size (lsSigned m.size) (leVal ((List.range size).map (fun i => T.locByte (P l + i))))))) ∧
      (¬free ls → Sends (.ldl o m) o s t c h (fun fs => OnePer ls fs (fun l f =>
        f.kind = .ldl ∧ waits l f ∧ f.sext = lsSigned m.size ∧ f.dest = s.destIn t c h o l)))) ∧
    (Ready o { d := .none } s t c h →
      let ls := s.livePerf t c h o.g
      (∀ l ∈ ls, ok l ∧ lockFault (s.core T.core) (.loc t) (X l) (P l) size false = none) →
      let W := ls.foldl (fun s l => s.modTeam t (fun T => T.locWrite (P l) size (s.srcWord t c l o o.c.op).toNat)) s
      (free ls → Ends (.stl o m) o s t c h W ∧
        (∀ a, (∀ l ∈ ls, a < P l ∨ P l + size ≤ a) → (W.team t).locByte a = T.locByte a) ∧
        (∀ l ∈ ls, (∀ k ∈ ls, l < k → P k + size ≤ P l ∨ P l + size ≤ P k) →
          (W.team t).locRead (P l) size = (s.srcWord t c l o o.c.op).toNat % 2 ^ (8 * size))) ∧
      (¬free ls → Sends (.stl o m) o s t c h (fun fs => OnePer ls fs (fun l f =>
        f.kind = .stl ∧ waits l f ∧ f.data = s.srcWord t c l o o.c.op ∧ f.dest = .none))))

/-- R162, R185, R186: remote-local accesses leave for the unit of the named member of the gang. That a lock of a remote range is compared by the
target team and its position, and that an access to a member that has left is sent all the same, are the model's choices
(notes/assumptions/84, 30). -/
def Obligations.RemoteAccesses : Prop :=
  ∀ (o : Ops) (m : LocM) (s : State) (t c : Nat) (h : Cohort),
    let T := s.team t
    let size := lsBytes m.size
    let X := fun l => s.srcWord t c l o o.a.op + s.srcWord t c l o o.b.op + wordOfInt m.off
    let pos := fun l => wfld (X l) 56 8
    let ok := fun l => (X l).toNat % size = 0 ∧ pos l < T.gangsize ∧ wfld (X l) 32 24 = 0 ∧ wfld (X l) 0 32 < T.split.loc * 1024
    let sent := fun l (f : Flight) => f.va = X l ∧ f.pa = phys m.swz (wfld (X l) 0 32) ∧ f.peer = s.target t (pos l) ∧ f.size = size ∧
      f.stage = 0 ∧ f.after = s.acqAfter t c l
    (Ready o {} s t c h → (∀ l ∈ s.performers t c h o.g false, ok l) →
      Sends (.ldr o m) o s t c h (fun fs => OnePer (s.performers t c h o.g false) fs (fun l f =>
        f.kind = .ldr ∧ sent l f ∧ f.sext = lsSigned m.size ∧ f.dest = s.destIn t c h o l))) ∧
    (Ready o { d := .none } s t c h →
      (∀ l ∈ s.livePerf t c h o.g, ok l ∧ lockFault (s.core T.core) (.rem (s.target t (pos l)) (pos l)) (X l)
        (phys m.swz (wfld (X l) 0 32)) size false = none) →
      Sends (.str o m) o s t c h (fun fs => OnePer (s.livePerf t c h o.g) fs (fun l f =>
        f.kind = .str ∧ sent l f ∧ f.data = s.srcWord t c l o o.c.op ∧ f.dest = .none)))

/-- R189: a local atomic on a present line is performed at the unit, where one live lane performs the instruction; those on absent lines,
and those of an instruction of which a lane has a local access or an acquire before it, wait there (R181); a remote one leaves for the unit
of the named member, checked against the core's locks (notes/assumptions/71, 84). -/
def Obligations.LocalAtomics : Prop :=
  ∀ (o : Ops) (m : LatomM) (s : State) (t c : Nat) (h : Cohort), Ready o {} s t c h →
    let T := s.team t
    let size := tyW m.ty * tyN m.ty / 8
    let X := fun l => s.srcWord t c l o o.a.op + wordOfInt m.off
    let B := fun l => opPattern m.ty o.b.op (s.srcWord t c l o o.b.op)
    let C := fun l => opPattern m.ty o.c.op (s.srcWord t c l o o.c.op)
    let P := fun l => phys m.swz (X l).toNat
    (∀ l, m.rem = false → s.livePerf t c h o.g = [l] → fitsTy m.op m.ty = true →
      (X l).toNat % size = 0 → (X l).toNat < T.split.loc * 1024 → s.localFree t c l →
      lockFault (s.core T.core) (.loc t) (X l) (P l) size false = none → T.absent.contains (P l / 64) = false → T.locBad (P l) size = false →
      ∃ s0 new, s0 = s.modTeam t (fun T => T.locWrite (P l) size new) ∧ AopIs m.op m.ty (T.locRead (P l) size) (B l) (C l) new ∧
        (∀ a, a < P l ∨ P l + size ≤ a → (s0.team t).locByte a = T.locByte a) ∧
        ∃ s' fs, exec (.latom o m) s = .next s' ∧ Issued o s0 t c h fs s' ∧ OnePer [l] fs (fun l f =>
          f.kind = .load ∧ f.stage = 1 ∧ f.dest = s.destIn t c h o l ∧ f.val = extOld m.ty (T.locRead (P l) size))) ∧
    (m.rem = false → (∀ l ∈ s.livePerf t c h o.g, (X l).toNat % size = 0 ∧ (X l).toNat < T.split.loc * 1024 ∧
        lockFault (s.core T.core) (.loc t) (X l) (P l) size false = none ∧ T.locBad (P l) size = false) →
      ((∀ l ∈ s.livePerf t c h o.g, T.absent.contains (P l / 64) = true) ∨ ∃ l ∈ s.livePerf t c h o.g, ¬s.localFree t c l) →
      Sends (.latom o m) o s t c h (fun fs => OnePer (s.livePerf t c h o.g) fs (fun l f =>
        f.kind = .latom ∧ f.va = X l ∧ f.pa = P l ∧ f.peer = t + 1 ∧ f.aop = m.op ∧ f.ty = m.ty ∧ f.data = wordOf (B l) ∧ f.cmp = wordOf (C l) ∧
        f.stage = 0 ∧ f.after = s.acqAfter t c l ∧ f.dest = s.destIn t c h o l))) ∧
    (m.rem = true → (∀ l ∈ s.livePerf t c h o.g, (X l).toNat % size = 0 ∧ wfld (X l) 56 8 < T.gangsize ∧ wfld (X l) 32 24 = 0 ∧
        wfld (X l) 0 32 < T.split.loc * 1024 ∧ lockFault (s.core T.core) (.rem (s.target t (wfld (X l) 56 8)) (wfld (X l) 56 8)) (X l)
          (phys m.swz (wfld (X l) 0 32)) size false = none) →
      Sends (.latom o m) o s t c h (fun fs => OnePer (s.livePerf t c h o.g) fs (fun l f =>
        f.kind = .latomR ∧ f.va = X l ∧ f.pa = phys m.swz (wfld (X l) 0 32) ∧ f.peer = s.target t (wfld (X l) 56 8) ∧
        f.aop = m.op ∧ f.ty = m.ty ∧ f.data = wordOf (B l) ∧ f.cmp = wordOf (C l) ∧ f.dest = s.destIn t c h o l)))

/-- R190: the presence bits of a block of 64 lines are read, cleared and set. A read answers at once (what still parks it is the model's
choice, notes/assumptions/67); a change waits at the unit where a lane of the instruction has a local access or an acquire before it
(R181, R185). -/
def Obligations.PresenceBits : Prop :=
  ∀ (o : Ops) (off : Int) (s : State) (t c : Nat) (h : Cohort),
    let T := s.team t
    let X := fun l => s.srcWord t c l o o.a.op + wordOfInt off
    let B := fun l => s.srcWord t c l o o.b.op
    let ok := fun l => (X l).toNat % 4096 = 0 ∧ (X l).toNat < T.split.loc * 1024
    let named := fun ln => ∃ l ∈ s.livePerf t c h o.g, ∃ j, j < 64 ∧ (B l).getLsbD j = true ∧ ln = (X l).toNat / 64 + j
    let sets := fun i (now : Nat → Prop) => ∃ ab, (∀ ln, ln ∈ ab ↔ now ln) ∧
      Ends i o s t c h (s.modTeam t (fun T => { T with absent := ab }))
    (Ready o { d := .now } s t c h → (∀ l ∈ s.performers t c h o.g false, ok l) →
      Gives (.lpresQ o off) o false s t c h (fun l w => (∀ f ∈ s.ofLane t c l, f.onPresence = false) →
        ∀ j, j < 64 → (w.getLsbD j = true ↔ (X l).toNat / 64 + j ∉ T.absent))) ∧
    (Ready o { d := .none } s t c h →
      let ls := s.livePerf t c h o.g
      (∀ l ∈ ls, ok l ∧ ∀ j, j < 64 → (B l).getLsbD j = true →
        lockFault (s.core T.core) (.loc t) (X l) (((X l).toNat / 64 + j) * 64) 64 true = none) →
      ((∀ l ∈ ls, s.localFree t c l) →
        sets (.lpresClr o off) (fun ln => ln ∈ T.absent ∨ named ln) ∧ sets (.lpresSet o off) (fun ln => ln ∈ T.absent ∧ ¬named ln)) ∧
      ((∃ l ∈ ls, ¬s.localFree t c l) → ∀ i k, (i, k) ∈ [(Instr.lpresClr o off, 1), (.lpresSet o off, 2)] →
        Sends i o s t c h (fun fs => OnePer ls fs (fun l f => f.kind = .lpres k ∧ f.va = X l ∧ f.pa = (X l).toNat ∧ f.peer = t + 1 ∧
          f.data = B l ∧ f.stage = 0 ∧ f.after = s.acqAfter t c l ∧ f.dest = .none))))

/-- R191 to R193, R32: TLB entries that an invalidation names are gone from the units of its scope, and the L1 with them; walks of the
address space that are under way in the columns of those cores are discarded, and the result waits for the accesses still in those
cores; `asgen` gives an ASID its next generation in every column, at once by the model's choice (notes/assumptions/72). -/
def Obligations.TranslationControl : Prop :=
  ∀ (o : Ops) (kind : Nat) (scope : Scope) (s : State) (t c : Nat) (h : Cohort) (l : Nat),
    Ready o { priv := some (0x01, 0) } s t c h → s.chosenLane t c h o.g = some l →
    let T := s.team t
    let col := T.core / 12
    let A := s.srcWord t c l o o.a.op
    let B := s.srcWord t c l o o.b.op
    let asid := wfld A 0 16
    let lands := fun (s' : State) (v : Word) (after : List (Nat × Nat)) => ∃ f, s'.flights = s.flights ++ [f] ∧ f.id = s.nextId ∧ f.kind = .load ∧ f.stage = 1 ∧
      f.team = t ∧ f.crs = c ∧ f.lane = l ∧ f.dest = s.destIn t c h o l ∧ f.val = v ∧ f.after = after
    (kind ≤ 2 → (scope = .core ∨ scope = .col ∨ scope = .dev) → wfld A 16 48 = 0 →
      let hit := fun (e : TlbEnt) => match kind with
        | 0 => e.asid = asid
        | 1 => e.asid = asid ∧ e.vbase ≤ wfld B 0 56 ∧ wfld B 0 56 < e.vbase + 2 ^ pageShift e.lvl
        | _ => True
      let cores := fun q => match scope with
        | .core => q = T.core
        | .col => q / 12 = col
        | _ => q < 768
      let cols := fun q => match scope with
        | .core => False
        | .col => q = col
        | _ => q < 64
      ∃ s', exec (.tlbi o kind scope) s = .next s' ∧ s'.mem = s.mem ∧
        (∃ after, lands s' 0 after ∧ ∀ p, p ∈ after ↔ p.2 = 101 ∧ ∃ f ∈ s.flights, f.id = p.1 ∧
          (f.isGlob = true ∨ f.kind = .gst ∨ f.kind = .fred ∨ f.kind = .launch) ∧ f.stage = 0 ∧ cores f.core ∧
          (kind = 2 ∨ f.asid = asid)) ∧
        (∀ q, cores q → (s'.core q).l1 = [] ∧ ∀ e, e ∈ (s'.core q).tlb ↔ e ∈ (s.core q).tlb ∧ ¬hit e) ∧
        (∀ q, ¬cores q → q ≠ T.core → s'.core q = s.core q) ∧
        (∀ q, cols q → ∀ e, e ∈ (s'.column q).tlb ↔ e ∈ (s.column q).tlb ∧ ¬hit e) ∧
        (∀ q, ¬cols q → (s'.column q).tlb = (s.column q).tlb) ∧
        (∀ q, (∃ k, cores k ∧ k / 12 = q) → ∀ w, w ∈ (s'.column q).walks ↔ w ∈ (s.column q).walks ∧ kind ≠ 2 ∧ w.asid ≠ asid) ∧
        ∀ q, (s'.column q).gens = (s.column q).gens) ∧
    (wfld A 16 48 = 0 →
      let g := (s.gen col asid + 1) % 4096
      ∃ s', exec (.asgen o) s = .next s' ∧ s'.mem = s.mem ∧ lands s' (wordOf g) [] ∧
        (∀ q, q < 64 → ∀ a, s'.gen q a = if a = asid then g else s.gen q a) ∧
        (g ≠ 0 → ∀ q, (s'.core q).tlb = (s.core q).tlb ∧ (s'.column q).tlb = (s.column q).tlb) ∧
        (g = 0 → ∀ q, (q < 768 → (s'.core q).l1 = [] ∧ ∀ e ∈ (s'.core q).tlb, e.asid ≠ asid) ∧
          (q < 64 → ∀ e ∈ (s'.column q).tlb, e.asid ≠ asid)))

/-- R214, R215, R200, R201: a fence that has nothing to wait for; a range operation leaves for every home of its granules, and one of
no granules gives 0 at once. -/
def Obligations.FencesAndRanges : Prop :=
  ∀ (o : Ops) (acq rel sc : Bool) (scope : Scope) (span : Nat) (off : Int) (s : State) (t c : Nat) (h : Cohort),
    let core := (s.team t).core
    (Ready o { d := .none } s t c h →
      (∀ l ∈ s.activeOf t c h, (s.lane t c l).cls = .live → ∀ f ∈ s.ofLane t c l,
        (rel = true → (f.isAccess = true ∨ f.kind = .nred ∧ f.scope ≤ scopeCode scope) → s.performedAt f.id (scopeCode scope) = true) ∧
        (acq = true → (f.isLoad = true ∨ f.kind = .ldr ∨ f.kind = .ldl) → s.performedAt f.id 100 = true)) →
      Ends (.fence o acq rel sc scope) o s t c h (if acq then s.acquire core (scopeCode scope) else s)) ∧
    (Ready o {} s t c h → ∀ (op : Nat) (i : Instr),
      (op, i) ∈ [(0x91, Instr.cflush o scope off), (0x92, .cwb o scope off), (0x93, .cinv o scope off), (0x94, .cspan o scope span off)] →
      let X := fun l => s.srcWord t c l o o.a.op + wordOfInt off
      let N := fun l => (s.srcWord t c l o o.b.op).toNat
      let ls := s.livePerf t c h o.g
      (∀ l ∈ ls, (X l).toNat % 64 = 0) →
      (∀ (e : Nat → TlbEnt) (pa : Nat → Nat),
        (∀ l ∈ ls, 0 < N l ∧ N l < 2 ^ 24 ∧ s.translate t c (X l) (if op = 0x93 then .store else .load) = .hit (e l) (pa l) ∧
          va56 (X l) + 64 * N l ≤ (e l).vbase + 2 ^ pageShift (e l).lvl ∧ rangeIdle op (pteAttr (e l).pte) (pteFmode (e l).pte) = false ∧
          (op = 0x93 → (pteFmode (e l).pte = 0 → ∀ w ∈ s.windows, pa l + 64 * N l ≤ w.2.1 ∨ w.2.1 + w.2.2 ≤ pa l) ∧
            s.unlockedAt t (X l) (64 * N l) false)) →
        Sends i o s t c h (fun fs => OnePer ls fs (fun l f => f.kind = .range op ∧ f.va = X l ∧ f.pa = pa l ∧ f.size = 64 * N l ∧
          f.span = (if op = 0x94 then span else 0) ∧ f.scope = scopeCode scope ∧ f.dest = s.destIn t c h o l ∧ f.stage = 0 ∧
          f.count = 0 ∧ f.after = s.acqAfter t c l ∧ f.fmode = pteFmode (e l).pte ∧ f.peer = ptePeer (e l).pte ∧
          if f.fmode = 0 then ∀ q, q ∈ f.cols ↔ ∃ a, pa l ≤ a ∧ a < pa l + 64 * N l ∧ s.home (a / 4096 * 4096) = q
          else f.cols = [core / 12]))) ∧
      ((∃ n, o.d = .v n ∨ o.d = .vx n ∨ o.d = .k n) → (∀ l ∈ ls, N l = 0) → ∃ s', exec i s = .next s' ∧
        Done o false s t c h (fun _ L => if L.cls = .live then L.putReg o.ib o.d 0 else L) (fun _ => 0) 0 h.next s'))

/-- R222, R234, R224, R225: near reductions, atomics, waits and wakes of plain memory leave for its home, one for each live lane; when an
atomic reaches its owner's queue is open (notes/assumptions/69). -/
def Obligations.HomeRequests : Prop :=
  ∀ (o : Ops) (op : AOp) (ty : Ty) (ord : Ord) (scope : Scope) (tout : Nat) (off : Int) (s : State) (t c : Nat) (h : Cohort)
    (e : Nat → TlbEnt) (pa : Nat → Nat),
    let A := fun l => s.srcWord t c l o o.a.op
    let B := fun l => s.srcWord t c l o o.b.op
    let C := fun l => s.srcWord t c l o o.c.op
    let X := fun l => A l + wordOfInt off
    let ls := s.livePerf t c h o.g
    let size := tyW ty * tyN ty / 8
    let at_ := fun (x : Nat → Word) (k : AccessKind) (n : Nat) => ∀ l ∈ ls, (x l).toNat % n = 0 ∧
      s.translate t c (x l) k = .hit (e l) (pa l) ∧ pteAttr (e l).pte = 0
    let plain := ∀ l ∈ ls, (pteFmode (e l).pte = 0 → s.windowAt (pa l) = none) ∧ s.unlockedAt t (X l) size false
    let own := ∀ l ∈ ls, pteFmode (e l).pte = 0
    let names := fun (x : Nat → Word) l (f : Flight) => f.va = x l ∧ f.pa = pa l ∧ f.attr = 0 ∧ f.fmode = pteFmode (e l).pte ∧
      f.peer = ptePeer (e l).pte ∧ f.gen = (e l).gen ∧ f.asid = (s.team t).asid
    (Ready o { d := .none } s t c h → at_ X .atomic size → plain →
      Sends (.nred o op ty scope off) o s t c h (fun fs => OnePer ls fs (fun l f => f.kind = .nred ∧ names X l f ∧ f.size = size ∧
        f.aop = op ∧ f.ty = ty ∧ f.scope = scopeCode scope ∧ f.data = wordOf (opPattern ty o.b.op (B l)) ∧ f.dest = .none ∧ f.after = [] ∧ f.stage = 0))) ∧
    (Ready o {} s t c h → at_ X .atomic size → plain →
      Sends (.atom o op ty ord scope off) o s t c h (fun fs => OnePer ls fs (fun l f => f.kind = .atom ∧ names X l f ∧ f.size = size ∧
        f.aop = op ∧ f.ty = ty ∧ f.scope = scopeCode scope ∧ f.acq = ord.acq ∧ f.rel = ord.rel ∧
        f.data = wordOf (opPattern ty o.b.op (B l)) ∧ f.cmp = wordOf (opPattern ty o.c.op (C l)) ∧ f.dest = s.destIn t c h o l ∧
        f.after = s.orders t c l 0 (ord.acq || ord.rel) (if ord.rel then some scope else none) ∧
        (f.stage = 0 ∨ f.stage = 1 ∧ f.fmode = 0 ∧ Config.arrives s.tick = true)))) ∧
    (Ready o {} s t c h → at_ X .load 8 → own →
      Sends (.wwait o tout off) o s t c h (fun fs => OnePer ls fs (fun l f => f.kind = .wwait ∧ names X l f ∧ f.cmp = B l ∧
        f.span = tout ∧ f.dest = s.destIn t c h o l ∧ f.after = s.acqAfter t c l ∧ f.stage = 0))) ∧
    (Ready o { d := .none } s t c h → at_ A .store 8 → own → (∀ l ∈ ls, (B l).toNat < 2 ^ 16) →
      Sends (.wwake o) o s t c h (fun fs => OnePer ls fs (fun l f => f.kind = .wwake ∧ names A l f ∧ f.span = (B l).toNat ∧
        f.dest = .none ∧ f.after = s.acqAfter t c l ∧ f.stage = 0)))

/-- R204, R246, R247: a tower's window takes a new size, where no lane waits on a word of a window; allocations and frees leave for the
service course. That the bytes of a window that grows read as memory which nothing has written is the model's choice (notes/assumptions/9;
R204 leaves them undefined), and so is when an allocation reaches the service course (notes/assumptions/69). -/
def Obligations.WindowsAndAllocation : Prop :=
  ∀ (o : Ops) (pn : Nat) (s : State) (t c : Nat) (h : Cohort),
    let A := fun l => s.srcWord t c l o o.a.op
    let B := fun l => s.srcWord t c l o o.b.op
    let ls := s.livePerf t c h o.g
    (∀ l, Ready o { priv := some (0x01, 0) } s t c h → s.chosenLane t c h o.g = some l → (A l).toNat < 4 → (B l).toNat ≤ 32 →
      (∀ q, ∀ e ∈ (s.column q).waits, e.ended = false → isWindow e.pa = false) →
      let tw := (A l).toNat
      let n := (B l).toNat
      let old := (s.column (16 * tw)).wunits
      ∃ s' f, exec (.mswin o) s = .next s' ∧ s'.flights = s.flights ++ [f] ∧ f.id = s.nextId ∧ f.kind = .load ∧ f.stage = 1 ∧
        f.team = t ∧ f.crs = c ∧ f.lane = l ∧ f.dest = s.destIn t c h o l ∧ f.val = wordOf old ∧
        (∀ q, (s'.column q).wunits = if q = 16 * tw then n else (s.column q).wunits) ∧
        (n ≤ old → ∀ a, a < windowBase + tw * 0x1000_0000 + n * 8 * 2 ^ 20 ∨ windowBase + (tw + 1) * 0x1000_0000 ≤ a →
          memByte s'.mem a = memByte s.mem a) ∧
        (∀ a, windowBase + tw * 0x1000_0000 + min old n * 8 * 2 ^ 20 ≤ a → a < windowBase + (tw + 1) * 0x1000_0000 →
          memByte s'.mem a = unlisted a)) ∧
    (Ready o { pred := some pn } s t c h →
      (∀ l ∈ ls, A l ≠ 0 ∧ (A l).toNat ≤ 2 ^ 32 ∧ (B l = 0 ∨ ∃ k, 6 ≤ k ∧ k ≤ 21 ∧ (B l).toNat = 2 ^ k)) →
      Sends (.dalloc o pn) o s t c h (fun fs => OnePer ls fs (fun l f => f.kind = .dalloc ∧ f.data = A l ∧ f.cmp = B l ∧
        f.asid = (s.team t).asid ∧ f.dest = s.destIn t c h o l ∧ f.pn = some pn ∧
        (f.stage = 0 ∨ f.stage = 1 ∧ Config.arrives s.tick = true)))) ∧
    (Ready o { d := .none } s t c h →
      Sends (.dfree o) o s t c h (fun fs => OnePer ls fs (fun l f => f.kind = .dfree ∧ f.va = A l ∧ f.asid = (s.team t).asid ∧
        f.dest = .none ∧ f.after = s.acqAfter t c l ++ s.releaseWaits t c l 6)))

/-- R239 to R241, R243: a transaction is opened and abandoned, its words are read and kept, and it is committed: at once where it is doomed,
empty or behind a lane that it conflicts with, by its owner otherwise; an empty one with ORD is a synchronising access all the same, whose
status follows what it waits for. When a commit reaches its owner's queue is open (notes/assumptions/69). -/
def Obligations.Transactions : Prop :=
  ∀ (o : Ops) (ord : Ord) (scope : Scope) (pn : Nat) (off : Int) (s : State) (t c : Nat) (h : Cohort) (e : Nat → TlbEnt) (pa : Nat → Nat),
    let X := fun l => s.srcWord t c l o o.a.op + s.srcWord t c l o o.b.op + wordOfInt off
    let ls := s.livePerf t c h o.g
    let tx := fun l => (s.lane t c l).tx
    let detached := fun (on : Nat → Prop) (f g : Flight) =>
      (f.kind = .txld ∧ f.team = t ∧ f.crs = c ∧ on f.lane → g = { f with kind := .load }) ∧
      (¬(f.kind = .txld ∧ f.team = t ∧ f.crs = c ∧ on f.lane) → g = f)
    let lined := fun l (L : Lane) => if l ∈ ls then
      { L with tx := { L.tx with line := some (pa l / 256), vline := (X l).toNat / 256, gen := (e l).gen } } else L
    (Ready o { d := .none } s t c h →
      (∃ W fl, (∀ f, detached (· ∈ ls) f (fl f)) ∧
        Relaned s t c (fun l L => if l ∈ ls then { L with tx := { opened := true } } else L) fl W ∧ Ends (.txb o) o s t c h W) ∧
      (∃ W fl, (∀ f, detached (fun l => l ∈ ls ∧ (tx l).opened = true) f (fl f)) ∧
        Relaned s t c (fun l L => if l ∈ ls ∧ L.tx.opened = true then { L with tx := {} } else L) fl W ∧ Ends (.txa o) o s t c h W)) ∧
    (Ready o {} s t c h → (∀ l ∈ ls, s.txWord t c l false (X l) (e l) (pa l)) →
      (∀ l ∈ ls, ∀ p ∈ (tx l).rset ++ (tx l).wset, p.1 ≠ pa l) →
      ∃ W s' fs, Relaned s t c lined id W ∧ exec (.txld o off) s = .next s' ∧ Issued o W t c h fs s' ∧ OnePer ls fs (fun l f =>
        f.kind = .txld ∧ f.va = X l ∧ f.pa = pa l ∧ f.gen = (e l).gen ∧ f.dest = s.destIn t c h o l ∧ f.stage = 0 ∧
        f.after = s.acqAfter t c l)) ∧
    (∀ n, Ready o {} s t c h → o.d = .v n → (∀ l ∈ ls, (tx l).opened = true ∧ ((tx l).doomed = true ∨
        s.txWord t c l false (X l) (e l) (pa l) ∧ ∃ p ∈ (tx l).wset ++ (tx l).rset, p.1 = pa l)) →
      ∃ s', exec (.txld o off) s = .next s' ∧ s'.mem = s.mem ∧ s'.flights = s.flights ∧ (s'.course t c).coh = some h.next ∧ ∀ l ∈ ls,
        eGet (s'.lane t c l).vE n = false ∧ (s'.lane t c l).tx.rset = (tx l).rset ∧ (s'.lane t c l).tx.wset = (tx l).wset ∧
        some ((s'.lane t c l).vGet n) = if (tx l).doomed = true then some 0
          else (((tx l).wset ++ (tx l).rset).find? (fun p => p.1 == pa l)).map (·.2)) ∧
    (Ready o { d := .none } s t c h → (∀ l ∈ ls, s.txWord t c l true (X l) (e l) (pa l)) →
      ∃ W tlb s', exec (.txst o off) s = .next s' ∧ Ended o (W.modCore (s.team t).core (fun k => { k with tlb := tlb })) t c h s' ∧
        Relaned s t c (fun l L => if l ∈ ls then
          (let M := lined l L
           let v := s.srcWord t c l o o.c.op
           let ws := if ∃ p ∈ L.tx.wset, p.1 = pa l then L.tx.wset.map (fun p => if p.1 = pa l then (pa l, v) else p)
             else L.tx.wset ++ [(pa l, v)]
           { M with tx := { M.tx with wset := ws } })
          else L) id W) ∧
    (∀ n, n < 256 → pn < 48 → Ready o { pred := some pn } s t c h → o.d = .v n →
      (∀ l ∈ ls, (tx l).opened = true ∧ (∀ f ∈ s.ofLane t c l, f.kind ≠ .txld) ∧
        ∀ p ∈ (tx l).wset, s.unlockedAt t (wordOf ((tx l).vline * 256 + p.1 % 256)) 8 false) →
      let goes := fun l => (tx l).doomed = false ∧ (tx l).footprint ≠ []
      ∃ s' es fs empty sent, exec (.txe o ord scope pn) s = .next s' ∧ s'.mem = s.mem ∧ s'.flights = s.flights ++ es ++ fs ∧
        (∀ l, l ∈ empty ↔ l ∈ ls ∧ (tx l).doomed = false ∧ (tx l).footprint = [] ∧ (ord.acq || ord.rel) = true) ∧
        OnePer empty es (fun l f => f.kind = .txe ∧ f.stage = 2 ∧ f.val = 0 ∧ f.wset = [] ∧ f.scope = scopeCode scope ∧
          f.acq = ord.acq ∧ f.rel = ord.rel ∧ f.dest = .v l n ∧ f.pn = some pn ∧
          f.after = (if ord.rel then s.releaseWaits t c l (scopeCode scope) else []) ++ s.orders t c l 0 true none) ∧
        (∀ l, l ∈ sent ↔ l ∈ ls ∧ goes l ∧ ∀ m ∈ sent, m < l → txConflict (tx l) (tx m) = false) ∧
        OnePer sent fs (fun l f => f.kind = .txe ∧ f.pa = ((tx l).line.getD 0) * 256 ∧ f.gen = (tx l).gen ∧ f.rset = (tx l).rset ∧
          f.wset = (tx l).wset ∧ f.scope = scopeCode scope ∧ f.acq = ord.acq ∧ f.rel = ord.rel ∧ f.dest = .v l n ∧ f.pn = some pn ∧
          f.after = (if ord.rel then s.releaseWaits t c l (scopeCode scope) else []) ++ s.orders t c l 0 (ord.acq || ord.rel) none ∧
          (f.stage = 0 ∨ f.stage = 1 ∧ Config.arrives s.tick = true)) ∧
        ∀ l ∈ ls, (s'.lane t c l).tx = { tx l with opened := false } ∧
          (l ∈ sent ∨ l ∈ empty → eGet (s'.lane t c l).vE n = true ∧ eGet (s'.lane t c l).pE pn = true) ∧
          (l ∉ sent ∧ l ∉ empty → eGet (s'.lane t c l).vE n = false ∧ eGet (s'.lane t c l).pE pn = false ∧
            let status := if (tx l).doomed = true then 4 else if (tx l).footprint = [] then 0 else 1
            (s'.lane t c l).vGet n = wordOf status ∧ (s'.lane t c l).pGet pn = decide (status = 0)))

/-- R254 to R258, R264, R269, R270, R275, R29: a copy whose checks pass, issued by one live lane. What it locks beyond the words of R29 and
R258 (no lock of an empty interval, the scales of an expansion, the rows of a `slipc`) is the model's choice (notes/assumptions/55), and so is
ENGINE 0x12 for a SWZ other than 0 of a B-store copy, which the checks shut out (notes/assumptions/90), that a copy
to a member that has left is issued all the same (notes/assumptions/30), that a lock of a remote range is compared by the target team and its
position (notes/assumptions/84), and that the record's read does not look into the L1 (notes/assumptions/97). -/
def Obligations.SlipCopies : Prop :=
  ∀ (o : Ops) (ring bs : Bool) (tgt : XTgt) (lb : Nat) (e : SlipE) (i : Instr) (f : SlipForm) (s : State) (t c : Nat) (h : Cohort) (l : Nat)
    (x : TlbEnt) (pa : Nat),
    (i, f) ∈ [(Instr.slipLd o ring e, SlipForm.mk 0 ring none none e), (.slipSt o e, ⟨1, false, none, none, e⟩),
      (.slipRl o ring e, ⟨2, ring, none, none, e⟩), (.slipBs o e, ⟨3, false, none, none, e⟩),
      (.slipx o bs ring tgt e, ⟨if bs then 3 else 0, ring, some tgt, none, e⟩), (.slipc o lb e, ⟨0, false, none, some lb, e⟩)] →
    Ready o { d := .counter } s t c h → s.livePerf t c h o.g = [l] →
    let T := s.team t
    let k := s.core T.core
    let A := s.srcWord t c l o o.a.op
    let C := s.srcWord t c l o o.c.op
    let rec_ := (s.recordRead t x pa).1
    let id := (s.recordRead t x pa).2.nextId
    let r := tlrOf rec_
    let cs := slipCoords (s.srcWord t c l o o.b.op) C
    let rows := f.lb.map (fun lb => slipcRows T lb rec_ r cs f.e20)
    let bytes := f.dstBytes r rows
    let box := if f.dir = 2 then (s.gangTeam t e.pos).getD noTeam else t
    let B := s.team box
    let slot := B.ringW e.off
    let off := if f.ring then B.slotOff e.off (slot % B.ringN e.off) else e.off
    let half := if e.isNew then k.bring.widx else k.bring.cur
    let area := if f.lb.isSome then r.boxBytes else bytes
    let es := (readyRun o { d := .counter } s t c h).slipLocks f r cs rows id off area
    s.recordAt t c l A x pa → tlrBads rec_ = [] → f.agrees r = true → (∀ g, f.tgt = some g → slipxOk g r.efmt = true) →
    f.coordsOk r cs C = true → e.off % 64 = 0 → bytes ≤ 2 ^ 20 →
    (f.dir ≠ 3 → e.off + (if f.ring then 64 else area) ≤ T.locSize) → (f.dir = 3 → e.off + bytes ≤ 2 ^ 18) →
    (f.dir = 2 → e.pos < T.gangsize) →
    (f.ring = true → B.locBad e.off 64 = false ∧ B.ringOk e.off = true ∧ r.boxBytes ≤ B.slotBytes e.off ∧ B.ringRoom e.off 1 = true ∧ off + bytes ≤ T.locSize) →
    (f.ring = false → reportFault T 0x01 0x0F o.d = none ∧ ∀ n, o.d = .k n → n < 256 ∧ T.outstanding n + bytes < 2 ^ 48) →
    (f.dir = 3 → (k.bring.owner = none ∨ k.bring.owner = some t) ∧ (e.isNew = true ∨ k.bring.curv = true) ∧
      (e.isNew = true → k.bring.st k.bring.widx = 0)) →
    locksFree k es = true →
    ∃ s' cmd, exec i s = .next s' ∧ (s'.course t c).coh = some h.next ∧ s'.flights = s.flights ∧ s'.nextId = id + 1 ∧
      (s'.core T.core).slips = k.slips ++ [cmd] ∧ cmd.id = id ∧ cmd.team = t ∧ cmd.crs = c ∧ cmd.lane = l ∧ cmd.dir = f.dir ∧
      cmd.dst = (if f.dir = 3 then .bst half else if f.dir = 2 then .rem box e.pos else .loc) ∧ cmd.off = off ∧ cmd.bytes = bytes ∧
      cmd.tgt = f.tgt ∧ cmd.tlr = r ∧ cmd.coords = cs ∧ cmd.rows = rows ∧ (∀ p, p ∈ cmd.todo ↔ 64 * p < bytes) ∧ cmd.landing = [] ∧
      cmd.stall = none ∧ cmd.fail = none ∧ cmd.err = false ∧
      cmd.report = (if f.ring then .ring box e.off (slot % B.ringN e.off) else reportOf T o.d) ∧
      (∀ x ∈ es, ∃ y ∈ (s'.core T.core).locks, { y with idx := x.idx } = x) ∧
      (∀ u, cmd.dstTeam = some u → (mapGet? u s.teams).isSome → ∀ ln ∈ cmd.linesAt 0 bytes, ln ∈ (s'.team u).absent) ∧
      (∀ n, cmd.report = .counter n → (s'.team t).kGet n = T.kGet n + wordOf bytes ∧
        (eGet (s'.team t).kE n = false ↔ T.kGet n + wordOf bytes = 0)) ∧
      (f.ring = true → (mapGet? box s.teams).isSome → (s'.team box).locRead e.off 16 = (B.ringReserve e.off).locRead e.off 16) ∧
      (f.dir = 3 → (e.isNew = true → (s'.core T.core).bring.owner = some t ∧ (s'.core T.core).bring.st half = 1 ∧
          (s'.core T.core).bring.widx = 1 - k.bring.widx) ∧ (s'.core T.core).bring.curv = !e.isLast) ∧
      (∀ n, f.lb = some n → mapGet? n (s'.team t).lbs = some ⟨rec_, cs, f.e20⟩)

/-- R263 to R268, R271, R280: rings are set up, waited for and released, their status is read (notes/assumptions/67), and a record's
address or size is (that its read does not look into the L1 is the model's choice, notes/assumptions/97). -/
def Obligations.RingInstructions : Prop :=
  ∀ (o : Ops) (n : Nat) (addr : Bool) (s : State) (t c : Nat) (h : Cohort) (l : Nat),
    let T := s.team t
    let k := s.core T.core
    let A := s.srcWord t c l o o.a.op
    let B := s.srcWord t c l o o.b.op
    let hdr := A.toNat
    let owns := k.bring.owner = none ∨ k.bring.owner = some t
    let header := hdr % 64 = 0 ∧ hdr + 64 ≤ T.locSize ∧ T.locBad hdr 64 = false ∧ T.ringOk hdr = true
    let R := readyRun o {} s t c h
    let waits := fun (s' : State) (kind : FKind) (f : Flight) => f ∈ s'.flights ∧ f.id = s.nextId ∧ f.kind = kind ∧ f.team = t ∧
      f.crs = c ∧ f.lane = l ∧ f.core = T.core ∧ f.dest = R.destAll
    (∀ e pa, Ready o {} s t c h → s.performers t c h o.g false = [l] → s.recordAt t c l A e pa →
      let rec_ := (s.recordRead t e pa).1
      ∃ s' f, exec (.tlr o addr) s = .next s' ∧ s'.flights = s.flights ++ [f] ∧ f.id = (s.recordRead t e pa).2.nextId ∧ f.kind = .load ∧ f.stage = 1 ∧
        f.team = t ∧ f.crs = c ∧ f.lane = l ∧ f.dest = s.destIn t c h o l ∧
        f.val = if tlrBads rec_ ≠ [] then 0 else if addr then (tlrOf rec_).tensorAddr (slipCoords B (s.srcWord t c l o o.c.op))
          else wordOf (tlrOf rec_).boxBytes) ∧
    (Ready o { d := .none } s t c h → s.chosenLane t c h o.g = some l →
      (s.localFree t c l → hdr % 64 = 0 → 2 ≤ n → n ≤ 16 → B.toNat % 64 = 0 → 64 ≤ B.toNat → B.toNat ≤ 2 ^ 20 →
        hdr + 64 + n * B.toNat ≤ T.locSize → T.locBad hdr 64 = false → (T.ringOk hdr = true → T.ringRes hdr = 0 ∧ T.ringTaken hdr = 0) →
        Ends (.rinit o n) o s t c h (s.modTeam t (fun T => ((T.locWrite hdr 8 n).locWrite (hdr + 8) 8 B.toNat).locWrite (hdr + 16) 48 0))) ∧
      (s.localFree t c l → header → B.toNat < T.ringN hdr → bitN (T.ringTaken hdr) B.toNat = true →
        Ends (.rrel o) o s t c h (s.modTeam t (fun T => T.locWrite hdr 8 (setBit (T.locRead hdr 8) (48 + B.toNat) false)))) ∧
      (owns → B.toNat < 2 → (k.bring.st B.toNat = 2 ∨ k.bring.st B.toNat = 3) →
        let W := (s.modCore T.core (fun k => { k with bring := k.bring.setSt B.toNat 0 })).modTeam t
          (fun T => { T with wheelHalf := if T.wheelHalf = some B.toNat then none else T.wheelHalf })
        Ends (.rrelB o) o s t c h (if (W.core T.core).bring.owner = some t ∧ k.bring.st (1 - B.toNat) = 0 ∧ k.bring.curv = false ∧
            k.wheel.all (fun w => w.team != t || (match w.op with | .loop _ _ _ _ => false | _ => true)) = true
          then W.modCore T.core (fun k => { k with bring := { k.bring with owner := none } }) else W))) ∧
    (Ready o {} s t c h → s.chosenLane t c h o.g = some l →
      (s.localFree t c l → header → s.ringWaiters t hdr = [] →
        ∃ s' f, exec (.rwait o) s = .next s' ∧ waits s' .rwait f ∧ f.peer = t ∧ f.pa = hdr ∧
          if bitN (T.ringFill hdr) (T.ringR hdr) = true then f.stage = 1 ∧ f.val = T.ringGive hdr ∧
            (s'.team t).locRead hdr 64 = (T.ringHand hdr).locRead hdr 64
          else f.stage = 0 ∧ (s'.team t).locRead hdr 64 = T.locRead hdr 64) ∧
      (owns → s.halfWaiters T.core = [] → k.loopWaiter = none →
        ∃ s' f, exec (.rwaitB o) s = .next s' ∧ waits s' .rwaitB f ∧
          if k.bring.st k.bring.ridx = 2 then f.stage = 1 ∧ (s'.core T.core).bring.st k.bring.ridx = 3 ∧
            (s'.core T.core).bring.ridx = 1 - k.bring.ridx ∧
            f.val = wordOf (bit (k.bring.xov k.bring.ridx) * 2 ^ 9 + bit (k.bring.err k.bring.ridx) * 2 ^ 8 + k.bring.ridx)
          else f.stage = 0 ∧ (s'.core T.core).bring = k.bring)) ∧
    (Ready o { d := .now, ownA := true } s t c h → s.chosenLane t c h o.g = some l →
      (header → srcBad T (s.lane t c l) o.ib o.a.op = false → Gives (.rstatRing o) o false s t c h (fun _ w => w = wordOf (T.locRead hdr 8))) ∧
      Gives (.rstatB o) o false s t c h (fun _ w => w = wordOf (k.bring.st0 + k.bring.st1 * 4 + k.bring.widx * 2 ^ 4 + k.bring.ridx * 2 ^ 5 +
        k.bring.cur * 2 ^ 6 + bit k.bring.curv * 2 ^ 7 + bit k.bring.err0 * 2 ^ 8 + bit k.bring.err1 * 2 ^ 9 + bit k.bring.xov0 * 2 ^ 10 +
        bit k.bring.xov1 * 2 ^ 11 + (k.bring.owner.map (fun u => 2 ^ 12 + (s.team u).slot * 2 ^ 13)).getD 0)) ∧
      Gives (.rstatSt o) o false s t c h (fun _ w => w = wordOf T.slipErr) ∧
      ∃ s', exec (.rstatStc o) s = .next s' ∧
        Wrote o false (s.modTeam t (fun T => { T with slipErr := 0 })) t c h (fun _ => wordOf T.slipErr) 0 s')

/-- R284, R290, R293 to R296, R298, R301 to R303: tiles are owned, and what the Wheel is given joins its queue (what still parks `wstat`:
notes/assumptions/67; a loop waits for no lock of its panels: notes/assumptions/92). -/
def Obligations.WheelInstructions : Prop :=
  ∀ (o : Ops) (clr : Bool) (ml : WloopM) (md : WdrainM) (s : State) (t c : Nat) (h : Cohort) (l : Nat),
    let T := s.team t
    let k := s.core T.core
    let A := fun l => s.srcWord t c l o o.a.op
    let B := fun l => s.srcWord t c l o o.b.op
    let C := s.srcWord t c l o o.c.op
    let ps := s.performers t c h o.g false
    let owned := fun tiles => ∀ j, bitN tiles j = true → bitN T.tiles j = true
    let join := fun (w : WCmd) es => s.queued t w.report w.count w.scope es w.lines (fun k => { k with wheel := k.wheel ++ [w] })
    let room := fun es => k.wheel.length < 8 ∧ locksFree k es = true
    let reports := fun count => o.d = .k 0 ∨ (reportFault T 0x10 0x1F o.d = none ∧ ∀ n, o.d = .k n → T.outstanding n + count < 2 ^ 48)
    let cmd := s.wheelCmd t c h
    (Ready o {} s t c h → s.chosenLane t c h o.g = some l → (∀ n, o.d ≠ .eq n) →
      let new := (A l).toNat
      new < 2 ^ 16 → (∀ p ∈ s.teams, p.1 ≠ t → p.2.core = T.core → p.2.tiles &&& new = 0) →
      (∀ w ∈ k.wheel, w.team = t → w.op.names (T.tiles - (T.tiles &&& new)) = false) →
      let W := (s.modCore T.core (fun k => k.accZero (new - (new &&& T.tiles)))).modTeam t (fun T => { T with tiles := new })
      ∃ s', exec (.wcfg o) s = .next s' ∧ Done o false W t c h (fun m L => if m = l then L.putReg o.ib o.d (wordOf T.tiles) else L)
        (fun _ => wordOf T.tiles) 0 h.next s') ∧
    (Ready o { d := .now } s t c h → ∃ s', exec (.wstat o clr) s = .next s' ∧
      Wrote o false (if clr = true ∧ s.livePerf t c h o.g ≠ [] then s.modTeam t (fun T => { T with wheelErr := 0 }) else s) t c h
        (fun _ => wordOf (T.wheelErr + (k.wheel.filter (fun w => w.team == t)).length * 2 ^ 24 + T.tiles)) 0 s') ∧
    (Ready o { d := .none } s t c h → s.chosenLane t c h o.g = some l → (A l).toNat < 2 ^ 16 → owned (A l).toNat → room [] →
      Ends (.wzero o) o s t c h (if A l = 0 then s else join (cmd l (.wzero o) (.zero (A l).toNat) .none 0 0) [])) ∧
    (∀ n, Ready o {} s t c h → (s.livePerf t c h o.g).head? = some l → o.d = .v n → (∀ m ∈ ps, (A m).toNat < 2 ^ 15 ∧ owned (2 ^ wfld (A m) 0 4)) → room [] →
      ∃ s', exec (.waccRd o) s = .next s' ∧
        Done { o with d := .none } false (join (cmd l (.waccRd o) (.rd (ps.map (fun m => (m, A m))) n) .none 0 0) []) t c h
          (fun _ L => L.vEmpty n) (fun _ => 0) 0 h.next s') ∧
    (Ready o { d := .none } s t c h → (s.livePerf t c h o.g).head? = some l →
      (∀ m ∈ s.livePerf t c h o.g, (A m).toNat < 2 ^ 15 ∧ owned (2 ^ wfld (A m) 0 4)) → room [] →
      Ends (.waccWr o) o s t c h
        (join (cmd l (.waccWr o) (.wr ((s.livePerf t c h o.g).map (fun m => (m, A m, B m)))) .none 0 0) [])) ∧
    (Ready o { d := .counter } s t c h → s.chosenLane t c h o.g = some l →
      let count := 4 * (cMm C + 1) * (cNn C + 1)
      let rg := swzRange (aSwz (A l)) (aAddr (A l)) (aEnd ml (A l) C - aAddr (A l))
      let es : List LockEnt := [{ cmd := s.nextId, idx := 0, src := true, space := .loc t, lo := rg.1, hi := rg.2 }]
      reports count → wloopDescOk ml (A l) (B l) C = true → owned (2 ^ ml.tile) → k.bring.owner = some t →
      (bHold (B l) = true → s.holdsHalf t = true) → bOff (B l) + (cKsteps C - 1) * bInc (B l) + wBytes ml.bfmt ≤ 4096 →
      (ml.bmx = true → bSc (B l) + cKsteps C ≤ 4096) → aEnd ml (A l) C ≤ T.locSize → k.wheel.length < 8 → lockRoom k 1 = true →
      Ends (.wloop o ml) o s t c h (join (cmd l (.wloop o ml) (.loop ml (A l) (B l) C) (wheelReport T o.d) count 2) es)) ∧
    (Ready o { d := .counter } s t c h → s.chosenLane t c h o.g = some l →
      let R := readyRun o { d := .counter } s t c h
      let es := (if wdPrim md then [R.drainLock s.nextId md.dsp md.dswz (A l) (wdPrimLen md (B l))] else []) ++
        (if wdTrans md then [R.drainLock s.nextId md.tsp md.tswz C (wdTransLen md (B l))] else [])
      reports (wdCount md) → R.wdrainFault md (A l) (B l) C = none → room es →
      Ends (.wdrain o md) o s t c h (join { cmd l (.wdrain o md) (.drain md (A l) (B l) C) (wheelReport T o.d) (wdCount md)
        (scopeCode md.scope) with lines := wdLines md (A l) (B l) C } es))

/-- R306, R312 to R314, R320, R324, R325: Coil is taken and freed, what it is given joins its queue, a job is sealed, its status is read
(notes/assumptions/67). The model's choices in it: `k0` as D reports nothing (notes/assumptions/29), `cdef.free` of a unit without an owner,
and what a freed unit keeps of other teams' carries (notes/assumptions/40), what `cseal` covers (notes/assumptions/41). -/
def Obligations.CoilInstructions : Prop :=
  ∀ (o : Ops) (op : COperator) (tout : Nat) (clr : Bool) (m : CjobM) (scope : Scope) (s : State) (t c : Nat) (h : Cohort) (l : Nat),
    let T := s.team t
    let u := (s.core T.core).coil
    let A := s.srcWord t c l o o.a.op
    let B := (s.srcWord t c l o o.b.op).toNat
    let coil := fun (s : State) f => s.modCore T.core (fun k => { k with coil := f k.coil })
    let join := fun (s : State) (w : CilCmd) es send => s.queued t w.report w.count w.scope es w.lines (fun k => { k with coil :=
      { k.coil with queue := k.coil.queue ++ [w], unsealed := if send then k.coil.unsealed ++ [w.id] else k.coil.unsealed } })
    let room := fun es => u.queue.length < 4 ∧ locksFree (s.core T.core) es = true
    let cmd := s.coilCmd t c h l o
    let reports := fun count => o.d = .k 0 ∨ (reportFault T 0x21 0x21 o.d = none ∧ ∀ n, o.d = .k n → T.outstanding n + count < 2 ^ 48)
    (Ready o { d := .now } s t c h → ∃ s', exec (.cstat o clr) s = .next s' ∧
      Wrote o false (if clr = true ∧ s.livePerf t c h o.g ≠ [] ∧ u.owner = some t then
          coil s (fun u => { u with err := false, poison := false, flagOF := false, flagNV := false, lastReason := 0 }) else s) t c h
        (fun _ => if u.owner = some t then wordOf (semiCode u.coper.semi + shapeCode u.coper.shape * 8 + u.tlim * 2 ^ 8 + bit u.flagNV * 2 ^ 13 +
          bit u.flagOF * 2 ^ 14 + bit u.poison * 2 ^ 15 + bit u.err * 2 ^ 16 + 2 ^ 17 + u.unsealed.length * 2 ^ 18 + u.queue.length * 2 ^ 21 +
          u.lastReason * 2 ^ 32) else 0) 0 s') ∧
    (Ready o { d := .none } s t c h → s.chosenLane t c h o.g = some l →
      let tlim := if tout = 0 then 24 else tout
      (u.owner = none ∨ u.owner = some t →
        (u.owner = some t ∧ u.coper = op → Ends (.cdef o op tout) o s t c h (coil s (fun u => { u with tlim := tlim }))) ∧
        (¬(u.owner = some t ∧ u.coper = op) → (∀ w ∈ u.queue, w.team ≠ t) →
          Ends (.cdef o op tout) o s t c h (coil s (fun u => { u with
            owner := some t, coper := op, tlim := tlim, creg := List.replicate 128 (cilIdent op) })))) ∧
      (u.owner = none → Ends (.cdefFree o) o s t c h s) ∧
      (u.owner = some t → u.queue = [] → u.unsealed = [] → u.out = none →
        Ends (.cdefFree o) o s t c h (coil s (fun u => { wire := u.wire, missed := u.missed, link := u.link.filter (fun e => e.for_ != t) }))) ∧
      (∀ j js, u.owner = some t → u.unsealed = j :: js → Ends (.cseal o) o s t c h (coil s (fun u => { u with
        unsealed := js, seals := u.seals ++ [(j, (readyRun o { d := .none } s t c h).sealed)] })))) ∧
    (Ready o { d := .counter } s t c h → s.chosenLane t c h o.g = some l → u.owner = some t →
      (let n := cjSteps m * cjChans m * (4 * shapeV u.coper.shape)
       let es : List LockEnt := [{ cmd := s.nextId, idx := 0, src := false, space := .loc t, lo := A.toNat, hi := A.toNat + n - 1 }]
       reports n → A.toNat % 64 = 0 → A.toNat + n ≤ T.locSize → (m.cin = 2 ∨ m.send = true → T.coil = true) →
       (m.cin = 2 → T.gangpos ≠ 0) → (m.send = true → T.gangpos + 1 ≠ T.gangsize ∧ u.unsealed.length < 4) → room es →
       let w := cmd (.cjob o m) (.job m A) n (if m.cin = 2 then max 4 (scopeCode m.scope) else scopeCode m.scope)
       Ends (.cjob o m) o s t c h (join s { w with lines := physLines 0 A.toNat n } es m.send)) ∧
      (∀ (st : Bool) (i : Instr) (loc : Bool), i = (if st then .ccarSt o scope loc else .ccarLd o scope loc) →
        let n := B * (4 * shapeV u.coper.shape)
        let w0 := cmd i (.car st loc A B) n (scopeCode scope)
        let w := { w0 with lines := if st && loc then physLines 0 A.toNat n else [] }
        let lo := if loc then A.toNat else va56 A
        let sp : Space := if loc then .loc t else .glob T.asid
        let es : List LockEnt := [{ cmd := s.nextId, idx := 0, src := !st, space := sp, lo := lo, hi := lo + n - 1 }]
        reports n → 1 ≤ B → B ≤ 128 → A.toNat % 16 = 0 → room es →
        (loc = true → A.toNat + n ≤ T.locSize → Ends i o s t c h (join s w es false)) ∧
        (loc = false → ∀ e pa, s.translate t c A (if st then .store else .load) = .hit e pa →
          Ends i o s t c h (join (s.addTlb T.core e) w es false))))

/-- R103, R82, R349 to R351: nodes are signalled, waited for and launched; a suspended course of the column is saved, loaded, resumed
and ended. A course that is resumed may be the last to arrive at a barrier, whose lanes are then no longer held. That its waiting record
is withdrawn, and what a handle of no course gives, are the model's choice (notes/assumptions/43, 68), and so is what a loaded block makes of a
transfer, of the cohort that last issued and of a PC that is a line address (notes/assumptions/85, 99, 100). -/
def Obligations.NodesAndContext : Prop :=
  ∀ (o : Ops) (prio : Nat) (col : Bool) (s : State) (t c : Nat) (h : Cohort) (l : Nat),
    let T := s.team t
    let A := fun l => s.srcWord t c l o o.a.op
    let B := fun l => s.srcWord t c l o o.b.op
    let ls := s.livePerf t c h o.g
    (Ready o { d := .none } s t c h → s.chosenLane t c h o.g = some l →
      (T.signalled = true → Ends (.nsig o) o s t c h s) ∧
      (∀ n, T.signalled = false → s.poolNode? T.record = some n → n.sigDone = false → T.idx ∉ n.sig → ∃ W m, Ends (.nsig o) o s t c h W ∧
        { W with teams := s.teams, pool := s.pool, visits := s.visits } = s ∧ W.team t = { T with signalled := true } ∧
        (∀ u, u ≠ t → W.team u = s.team u) ∧ W.poolNode? T.record = some m ∧ m.sig = T.idx :: n.sig ∧
        (∀ k, k ≠ T.record → W.poolNode? k = s.poolNode? k) ∧
        if n.sig.length + 1 = nrTeams n.words then m.sigDone = true ∧ ∃ v, W.visits = s.visits ++ [v] ∧ v.node = T.record ∧ v.kind = 0 ∧
          v.signalled = true else m.sigDone = false ∧ W.visits = s.visits)) ∧
    (Ready o {} s t c h → s.performers t c h o.g false ≠ [] → s.nodeRem T.record = 0 →
      ∃ s', exec (.nwait o) s = .next s' ∧ Wrote o false (s.acquire T.core (s.predsOf T.record).2) t c h
        (fun _ => wordOf ((s.predsOf T.record).1 % 2 ^ 16)) 0 s') ∧
    (∀ (e : Nat → TlbEnt) (pa : Nat → Nat), Ready o {} s t c h →
      (∀ l ∈ ls, (A l).toNat % 128 = 0 ∧ s.translate t c (A l) .launch = .hit (e l) (pa l) ∧ pteAttr (e l).pte = 0 ∧
        (col = true → (B l).toNat < 64)) →
      Sends (.nlaunch o prio col) o s t c h (fun fs => OnePer ls fs (fun l f => f.kind = .launch ∧ f.va = A l ∧ f.pa = pa l ∧ f.span = prio ∧
        f.count = (if col then (B l).toNat else T.core / 12) ∧ f.dest = s.destIn t c h o l ∧ f.stage = 0 ∧
        f.after = s.acqAfter t c l ++ s.relAfter t c l 6))) ∧
    (∀ u d, Ready o { priv := some (0x01, 0) } s t c h → s.chosenLane t c h o.g = some l → wfld (A l) 19 45 = 0 →
      wfld (A l) 0 10 / 12 = T.core / 12 → s.handleOf (A l) = some (u, d) → (s.course u d).suspended = true → (u, d) ≠ (t, c) →
      let R := readyRun o { priv := some (0x01, 0) } s t c h
      let regs := (s.team u).split.regs
      let n := blockLen regs
      let b := (B l).toNat
      let lands := fun (s' : State) (v : Word) => ∃ f ∈ s'.flights, f.kind = .load ∧ f.stage = 1 ∧ f.team = t ∧ f.crs = c ∧ f.lane = l ∧
        f.dest = s.destIn t c h o l ∧ f.val = v
      let reach := fun k => b % 256 = 0 ∧ R.blockPages (B l) n k = [] ∧ R.blockFault (B l) n k = none
      let calm := (∀ L ∈ (s.course u d).lanes, L.defs = [] ∧ L.cone = none) ∧ (u, d) ∉ s.quiesce.pendCk ∧ (s.course u d).coh = none
      let resumes := fun (s' : State) (C : Course) =>
        let C' := s'.course u d
        { C' with lanes := [], barId := C.barId } = { C with lanes := [], suspended := false, parked := none } ∧
        C'.lanes.length = C.lanes.length ∧ ∀ x, { C'.lane x with held := (C.lane x).held } = C.lane x ∧
          ((C'.lane x).held = (C.lane x).held ∨ (C'.lane x).held = none)
      (let S0 := { s with nextId := s.nextId + 1 }
       let cs := chunksOf (bytesAt b (wordBytes ((s.resolved u d).block regs)))
       reach .store → S0.engBadChunk R.engine cs = none → ∃ s', exec (.csave o) s = .next s' ∧
        s'.mem = (cs.foldl (fun S k => S.engPut R.engine ⟨t, c, l, s.nextId⟩ s.nextId k) S0).mem ∧ (s'.course u d) = (s.course u d) ∧
        lands s' (wordOf (wordBytes ((s.resolved u d).block regs)).length)) ∧
      (∀ D S1, reach .load → s.engGather R.engine [(b, n)] = .ok D S1 →
        let words := bytesWords (n / 8) (fun i => D.at (b + i))
        courseBlockOk regs (s.team u).sup words = true →
        (∃ s', exec (.cloadLd o) s = .next s' ∧ s'.course u d = (s.course u d).load regs words ∧ lands s' (wordOf n)) ∧
        (calm → ∃ s', exec (.cloadRun o) s = .next s' ∧ lands s' (wordOf n) ∧ resumes s' ((s.course u d).load regs words))) ∧
      (calm → ∃ s', exec (.cloadGo o) s = .next s' ∧ s'.mem = s.mem ∧ lands s' 0 ∧ resumes s' (s.course u d)) ∧
      ∃ s', exec (.cloadEnd o) s = .next s' ∧ s'.mem = s.mem ∧ lands s' 0 ∧ (s'.course u d).suspended = false ∧
        (s'.course u d).coh = none ∧ (s'.course u d).finished = true)

/-- R386 to R390: glaze stores and contributions leave for the switch, `gwait`, `gsn` and `fbar` answer for an enabled window that is not
lost, `gsn` without waiting for D; where the number or the episode has not come the course parks, an `fbar` with its arrival on the way to
the switch. -/
def Obligations.FabricInstructions : Prop :=
  ∀ (o : Ops) (size : LSize) (op : AOp) (ty : Ty) (off : Int) (tout : Nat) (s : State) (t c : Nat) (h : Cohort) (l : Nat),
    let T := s.team t
    let C := s.course t c
    let A := fun l => s.srcWord t c l o o.a.op
    let B := fun l => s.srcWord t c l o o.b.op
    let X := fun l => A l + B l + wordOfInt off
    let ls := s.livePerf t c h o.g
    let open_ := fun g => (s.gwin g).en = true ∧ (s.gwin g).lost = false
    (∀ (e : Nat → TlbEnt) (pa g base : Nat → Nat) (n : Nat), Ready o {} s t c h →
      (∀ l ∈ ls, (X l).toNat % n = 0 ∧ s.translate t c (X l) .store = .hit (e l) (pa l) ∧ pteFmode (e l).pte = 0 ∧
        s.windowAt (pa l) = some (g l, base l) ∧ (s.gwin (g l)).lost = false ∧ s.unlockedAt t (X l) n false) →
      let sent := fun l (f : Flight) => f.va = X l ∧ f.pa = pa l ∧ f.count = pa l - base l ∧ f.peer = g l ∧ f.size = n ∧
        f.acc = s.nextId ∧ f.dest = s.destIn t c h o l ∧ f.after = s.acqAfter t c l ∧ f.stage = 0
      (n = lsBytes size → Sends (.gst o size off) o s t c h (fun fs => OnePer ls fs (fun l f => f.kind = .gst ∧
        f.data = s.srcWord t c l o o.c.op ∧ sent l f))) ∧
      (n = tyW ty * tyN ty / 8 → Sends (.fred o op ty off) o s t c h (fun fs => OnePer ls fs (fun l f =>
        f.kind = .fred ∧ f.aop = op ∧ f.ty = ty ∧ f.data = wordOf (opPattern ty o.c.op (s.srcWord t c l o o.c.op)) ∧ sent l f)))) ∧
    (Ready o { d := .now } s t c h → (∀ l ∈ s.performers t c h o.g false, (A l).toNat < 2 ^ 8) →
      Gives (.gsn o) o false s t c h (fun l w => w = wordOf ((s.gwin (A l).toNat).applied + 2 ^ 62 * bit (s.gwin (A l).toNat).en +
        2 ^ 63 * bit (s.gwin (A l).toNat).lost))) ∧
    (Ready o {} s t c h → s.chosenLane t c h o.g = some l → (A l).toNat < 2 ^ 8 → open_ (A l).toNat →
      let g := (A l).toNat
      let G := s.group g
      let n := (B l).toNat
      let now := s.cycle (T.core / 12)
      let got := (s.gwin g).applied
      let S1 := s.modCourse t c (fun C => { C with gwaitEnd := none })
      let S2 := s.modCourse t c (fun C => { C with fbarEp := none })
      (n < 2 ^ 48 → n ≤ got → ∃ s', exec (.gwait o tout) s = .next s' ∧
        Wrote o false (S1.acquire T.core 6) t c h (fun _ => wordOf got) 0 s') ∧
      (∀ d, n < 2 ^ 48 → got < n → C.gwaitEnd = some d → d ≤ now → ∃ s', exec (.gwait o tout) s = .next s' ∧
        Wrote o false S1 t c h (fun _ => wordOf got) 0 s') ∧
      (n < 2 ^ 48 → got < n → (∀ d, C.gwaitEnd = some d → now < d) → ∃ s', exec (.gwait o tout) s = .next s' ∧ s'.mem = s.mem ∧
        s'.flights = s.flights ∧ ∃ dl, dl = (if C.gwaitEnd ≠ none then C.gwaitEnd else if tout = 0 then none else some (now + 2 ^ tout)) ∧
          (s'.course t c).gwaitEnd = dl ∧
          (s'.course t c).parked = some [.gwait g n dl] ∧ (s'.course t c).coh = C.coh.map (fun h => { h with succIn := false })) ∧
      (∀ ep, C.fbarEp = some (g, ep) → ep < G.episode → ∃ s', exec (.fbar o) s = .next s' ∧
        Wrote o false (S2.acquire T.core 8) t c h (fun _ => wordOf ep) 0 s') ∧
      (∀ ep, C.fbarEp = some (g, ep) → G.episode ≤ ep → ∃ s', exec (.fbar o) s = .next s' ∧ s'.flights = s.flights ∧ s'.group g = G ∧
        (s'.course t c).fbarEp = some (g, ep) ∧ (s'.course t c).parked = some [.fbar g ep]) ∧
      (C.fbarEp = none → (readyRun o {} s t c h).fbarWaits = [] → ∃ s' f, exec (.fbar o) s = .next s' ∧ s'.mem = s.mem ∧
        s'.flights = s.flights ++ [f] ∧ f.id = s.nextId ∧ f.kind = .fbar ∧ f.peer = g ∧ f.stage = 0 ∧ f.after = [] ∧ s'.group g = G ∧
        let ep := G.episode + G.arrived + (s.flights.filter (fun x => x.kind == .fbar && x.peer == g)).length
        (s'.course t c).fbarEp = some (g, ep) ∧ (s'.course t c).parked = some [.fbar g ep]))
/-- R170, R171, R31, R173, R174, R196, R224, R23: a walk ends, a refused access is translated afresh or its fault is deferred, a slice serves
a read of memory that it holds, a value lands. The model's choices in it: what a load of the unit of a gang member that has left receives
(notes/assumptions/30), the deferred fault of an access whose fresh leaf does not take it and the end of a transaction with it
(notes/assumptions/48), MEMERR at a unit (notes/assumptions/50). -/
def Obligations.WalksReadsAndLanding : Prop :=
  ∀ (s : State) (id : Nat) (f : Flight),
    (∀ col asid page w, (s.column col).walking.find? (fun w => w.asid == asid && w.page == page) = some w →
      let r := walkRes asid page (s.gen col asid) (s.walk w.root (page * 2 ^ 16))
      (w.gen ≠ s.gen col asid → exec (.translationWalkDone col asid page) s =
        .next (s.modCol col (fun k => { k with walks := k.walks.filter (fun x => x != w) }))) ∧
      (w.gen = s.gen col asid → ∃ s', exec (.translationWalkDone col asid page) s = .next s' ∧
        { s' with teams := s.teams, cores := s.cores, columns := s.columns } = s ∧
        (∀ t, s'.team t = { s.team t with courses := (s.team t).courses.map (fun C =>
          if waitsWalk (s.team t) C col w then { C with walked := C.walked ++ [r] } else C) }) ∧
        (s'.column col).walks = (s.column col).walks.filter (fun x => x != w) ∧ (∀ q, q ≠ col → s'.column q = s.column q) ∧
        (∀ e, r.ent = some e → e ∈ (s'.column col).tlb ∧
          ∀ p ∈ s.teams, p.2.courses.any (fun C => waitsWalk p.2 C col w) = true → e ∈ (s'.core p.2.core).tlb) ∧
        (r.ent = none → (s'.column col).tlb = (s.column col).tlb ∧ s'.cores = s.cores))) ∧
    (s.flight? id = some f →
      let S0 := s.modCore f.core (fun k => { k with tlb := k.tlb.filter (fun e => e.asid != f.asid) })
      let root := if (s.team f.team).asid = f.asid then (s.team f.team).ptroot else f.root
      let shut := fun (S : State) => if f.kind = .txld then
        (S.detach f.team f.crs f.lane).modLane f.team f.crs f.lane (fun L => { L with tx := { L.tx with opened := false } }) else S
      let failed := fun cls reason => if f.kind = .txe then (S0.land f 3 false).dropFlight id
        else (shut ((S0.land f 0 false).dropFlight id)).defer f cls reason f.va
      (s.refusalDue f = true →
        (f.kind = .pf → exec (.generationRefusal id) s = .next (S0.dropFlight id)) ∧
        (f.kind ≠ .pf → 3 ≤ f.tries → exec (.generationRefusal id) s = .next (failed 0x0B 0x80)) ∧
        (f.kind ≠ .pf → f.tries < 3 → ∀ r d, s.walk root (va56 f.va) = .bad r d →
          exec (.generationRefusal id) s = .next (failed 0x09 (r ||| 0x80))) ∧
        (f.kind ≠ .pf → f.tries < 3 → s.walk root (va56 f.va) = .memerr → exec (.generationRefusal id) s = .next (failed 0x17 0x81)) ∧
        (f.kind ≠ .pf → f.tries < 3 → ∀ lvl pte, s.walk root (va56 f.va) = .leaf lvl pte →
          let g := s.gen (f.core / 12) f.asid
          let e := tlbEntOf f.asid (va56 f.va) g lvl pte
          let pa := e.pa (va56 f.va)
          let plain := pteAttr pte = 0 ∧ pteFmode pte = 0
          let next := { f with
            gen := g, pa := pa, attr := pteAttr pte, fmode := pteFmode pte, peer := ptePeer pte, tries := f.tries + 1, stage := 0
            acc := if f.kind = .store then f.acc else 0
            kind := if f.kind = .load ∨ f.kind = .mmioLoad then (if pteAttr pte = 2 then .mmioLoad else .load) else f.kind
            fillL1 := f.fillL1 && pteAttr pte == 0 && (pteFmode pte == 0 || pteFmode pte == 2)
            cols := if f.isRange then (if pteFmode pte = 0 then s.rangeCols pa (f.size / 64) else [f.core / 12]) else []
            after := f.after ++ (if pteAttr pte = 2 then (s.mmioAfter f.team f.crs f.lane).filter (fun p => p.1 < f.id) else []) }
          (∀ r, protReason (s.team f.team).sup f.need pte = some r → exec (.generationRefusal id) s = .next (failed 0x0A (r ||| 0x80))) ∧
          (protReason (s.team f.team).sup f.need pte = none →
            (∀ c r, s.leafFault f e = some (c, r) → exec (.generationRefusal id) s = .next (failed c (r ||| 0x80))) ∧
            (s.leafFault f e = none → f.kind = .txe → pa / 256 ≠ f.pa / 256 ∨ pteFmode pte ≠ 0 →
              exec (.generationRefusal id) s = .next (failed 0 0)) ∧
            (s.leafFault f e = none → (f.kind = .txe → pa / 256 = f.pa / 256 ∧ plain) →
              (next.unsent = true → exec (.generationRefusal id) s = .next ((S0.land f 0 false).dropFlight id)) ∧
              (next.unsent = false → ∃ s', exec (.generationRefusal id) s = .next s' ∧
                { s' with cores := s.cores, columns := s.columns, flights := s.flights } = s ∧
                s'.flights = s.flights.map (fun x => if x.id = id then next else x) ∧
                (∀ q, ∃ near, s'.column q = { s.column q with near := near }) ∧
                (pteFmode pte ≠ 2 ∨ (f.kind ≠ .store ∧ f.kind ≠ .atom ∧ f.kind ≠ .nred) → ∀ q, s'.column q = s.column q) ∧
                (pteFmode pte = 2 → (f.kind = .store ∨ f.kind = .atom ∨ f.kind = .nred) →
                  (∀ y ∈ (s'.column (f.core / 12)).near, y.meets (ptePeer pte) pa f.size = false) ∧
                  ∀ x ∈ (s'.core f.core).l1, ¬(farLine (ptePeer pte) pa ≤ x.line ∧ x.line ≤ farLine (ptePeer pte) (pa + (f.size - 1)))) ∧
                (pteFmode pte = 0 → f.kind = .store → (s'.core f.core).l1 =
                  if f.fmode = 0 ∧ f.pa = pa then (s.core f.core).l1
                  else ((s.storesOver next).foldl (fun k g => g.layIn k) (next.layIn (s.core f.core))).l1) ∧
                (pteFmode pte = 0 → f.kind = .atom → ∀ x ∈ (s'.core f.core).l1, x.line ≠ pa / 64) ∧
                (∀ q, q ≠ f.core → s'.core q = s.core q) ∧ e ∈ (s'.core f.core).tlb ∧
                ∀ x ∈ (s'.core f.core).tlb, x.asid = f.asid → x = e))))) ∧
      (s.readDue f = true →
        (f.kind = .txld → f.acq = false → s.beyondWindow f.pa = true → exec (.sliceRead id) s =
          .next (((((shut s).modFlight id (fun x => { x with stage := 1, val := 0 })).defer f 0x0A 0x87 f.va).modFlight id (fun x =>
            { x with kind := .load })).take (s.home f.pa) f.core)) ∧
        (f.kind = .pf → ∃ s', exec (.sliceRead id) s = .next s' ∧ s'.flights = s.flights.filter (fun g => g.id != id) ∧ s'.teams = s.teams) ∧
        (f.kind = .wwait → s.beyondWindow f.pa = false → s.poisoned f.pa 8 = false →
          let v := wordOf (memRead s.mem f.pa 8)
          let k := s.column (s.home f.pa)
          let e : WaitEnt := { pa := f.pa, asid := f.asid, who := some id, col := s.home f.pa,
                               deadline := if f.span = 0 then none else some (s.cycle (s.home f.pa) + 2 ^ f.span) }
          (v ≠ f.cmp ∨ 1024 ≤ k.waitUse → exec (.sliceRead id) s =
            .next ((s.modFlight id (fun x => { x with stage := 4, val := v })).take (s.home f.pa) f.core)) ∧
          (v = f.cmp → k.waitUse < 1024 → exec (.sliceRead id) s =
            .next (((s.modCol (s.home f.pa) (fun k => { k with waits := k.waits ++ [e] })).modFlight id (fun x =>
              { x with stage := 1 })).take (s.home f.pa) f.core))) ∧
        (f.kind = .load → f.attr = 0 → isHbm f.pa = true → s.inSlice f.pa = true → f.pa % 64 + f.size ≤ 64 →
          ((s.column (s.home f.pa)).counter (regionOf f.pa)).repl = false → s.poisoned f.pa f.size = false →
          (∀ k ∈ s.kept (f.core / 12) true, f.pa + f.size ≤ k.pa ∨ k.pa + k.size ≤ f.pa) →
          ∃ s', exec (.sliceRead id) s = .next s' ∧ s'.mem = s.mem ∧
            s'.flight? id = some { f with stage := 1, val := loadExt f.size f.sext (memRead s.mem f.pa f.size) } ∧
            ((∀ g ∈ s.flights, s.mergeable f g = false) → s'.teams = s.teams ∧ (∀ j, j ≠ id → s'.flight? j = s.flight? j) ∧
              (∀ q, q ≠ f.core → s'.core q = s.core q) ∧
              (f.acq = false → f.fillL1 = false → s'.core f.core =
                { s.core f.core with l1 := (s.core f.core).l1.filter (fun x => x.line != f.pa / 64) })))) ∧
      (f.team ∈ s.teams.map (·.1) → s.landDue f = true →
        let lands := fun S v => ∃ s', exec (.loadDataLands id) s = .next s' ∧ Landed S f v false s'
        ((f.kind = .load ∨ f.kind = .mmioLoad) → lands s f.val) ∧
        (f.kind = .txld → (∀ p ∈ (s.lane f.team f.crs f.lane).tx.rset, p.1 ≠ f.pa) →
          lands (s.modLane f.team f.crs f.lane (fun L => { L with tx := { L.tx with rset := L.tx.rset ++ [(f.pa, f.val)] } })) f.val) ∧
        (f.kind = .txld → ∀ p, (s.lane f.team f.crs f.lane).tx.rset.find? (fun p => p.1 == f.pa) = some p → lands s p.2) ∧
        ((f.kind = .ldl ∨ f.kind = .ldr ∨ f.kind = .latom ∨ f.kind = .latomR) → s.unitBad f = true → exec (.loadDataLands id) s =
          .next (((((s.unitTake f).land f 0 false).dropFlight id).defer f 0x17 0x85 f.va).releaseBars f.team)) ∧
        ((f.kind = .ldl ∨ f.kind = .ldr) → s.targetGone f = false → s.unitBad f = false →
          lands (s.unitTake f) (loadExt f.size f.sext ((s.team (f.peer - 1)).locRead f.pa f.size))) ∧
        (f.kind = .ldr → s.targetGone f = true → ∃ v, lands { s with fresh := s.fresh + 1 } v) ∧
        (∀ op, f.kind = .range op → lands s (wordOf f.count)) ∧
        ((f.kind = .rwait ∨ f.kind = .rwaitB) → lands (s.acquire f.core f.scope) f.val) ∧
        ((f.kind = .latom ∨ f.kind = .latomR) → s.targetGone f = false → s.unitBad f = false → fitsTy f.aop f.ty = true →
          f.data.toNat < 2 ^ (tyW f.ty * tyN f.ty) → f.cmp.toNat < 2 ^ (tyW f.ty * tyN f.ty) →
          let old := (s.team (f.peer - 1)).locRead f.pa (tyW f.ty * tyN f.ty / 8)
          ∃ S new s', S = (s.unitTake f).modTeam (f.peer - 1) (fun T => T.locWrite f.pa (tyW f.ty * tyN f.ty / 8) new) ∧
            AopIs f.aop f.ty old f.data.toNat f.cmp.toNat new ∧ Landed S f (extOld f.ty old) false s' ∧
            exec (.loadDataLands id) s = .next (s'.releaseBars f.team))))

/-- R198, R205, R211, R212, R200, R201, R222, R224, R225: stores are accepted, performed and acknowledged, near reductions performed, waits
ended, and range operations done at each home. The model's choices in it: a store to the unit of a gang member that has left writes nothing
(notes/assumptions/30), what a range operation counts over several homes (notes/assumptions/46) and over a peer's granules
(notes/assumptions/76), and what a wait receives whose word is uncorrectable as it ends (notes/assumptions/50). -/
def Obligations.WritesWaitsAndRanges : Prop :=
  ∀ (s : State) (id : Nat) (f : Flight), s.flight? id = some f →
    let near := fun g : Flight => coreCol g.core / 16
    let tagged := fun s : State => s.modCore f.core (fun k => { k with mergeTag := (k.mergeTag + 1) % 65536 })
    let plain := isHost f.pa = false ∧ isIO f.pa = false ∧ s.beyondWindow f.pa = false ∧ s.inSlice f.pa = true ∧ s.unwatched id
    (s.writeDue f = true → plain → f.attr = 0 →
      ∃ s', exec (.sliceWrite id) s = .next s' ∧ SliceStored s f.pa (leBytes f.size f.data.toNat) s' ∧
        s'.flight? id = some { f with stage := 2 } ∧
        (isWindow f.pa = false → ∃ b ∈ (s'.column (s.home f.pa)).blocks, b.holds (regionOf f.pa) (granOf f.pa) = true ∧
          granOf f.pa ∈ b.dirty)) ∧
    (s.writeDue f = true → s.beyondWindow f.pa = true → exec (.sliceWrite id) s =
      .next (((s.dropFlight id).defer f 0x0A 0x87 f.va).take (s.home f.pa) f.core)) ∧
    (f.kind = .store →
      (f.stage = 0 → s.genOk f = true → s.ready f = true → s.sliceFree (f.core / 12) f.core = true →
        exec (.storeAcknowledgement id .near) s =
        .next ((State.modFlight { s with nextId := s.nextId + 1 } id (fun x =>
          { x with stage := 1, acc := if f.acc = 0 then s.nextId else f.acc })).take (f.core / 12) f.core)) ∧
      (f.stage = 2 → (∀ p ∈ s.columns, p.1 / 16 = near f → ∀ x ∈ p.2.inval, x.2.2 ≠ some id) →
        exec (.storeAcknowledgement id .home) s = .next ((tagged s).modFlight id (fun x => { x with stage := 3 })))) ∧
    (((f.kind = .store ∨ f.kind = .str ∨ f.kind = .stl) ∧ f.stage = 3 ∨ f.kind = .nred ∧ f.stage = 2) → (∀ p ∈ s.columns, ∀ x ∈ p.2.inval, x.2.2 ≠ some id) →
      ∃ s', exec (.storeAcknowledgement id .last) s = .next s' ∧ s'.mem = s.mem ∧ s'.columns = s.columns ∧
        s'.flights = s.flights.filter (fun g => g.id != id) ∧ s'.cores = (tagged s).cores ∧
        ((∀ t c l, (s.lane t c l).held = none) → s'.teams = s.teams)) ∧
    ((f.kind = .str ∨ f.kind = .stl) → s.unitReady f = true → exec (.storeAcknowledgement id .home) s =
      .next ((if s.targetGone f = true then s
        else (s.unitTake f).modTeam (f.peer - 1) (fun T => T.locWrite f.pa f.size f.data.toNat)).modFlight id (fun x => { x with stage := 3 }))) ∧
    (∀ k, f.kind = .lpres k → s.unitReady f = true → s.targetGone f = false → exec (.storeAcknowledgement id .home) s =
      .next ((((s.unitTake f).modTeam (f.peer - 1) (fun T => T.presence k (presLines f.va f.data))).dropFlight id).releaseBars f.team)) ∧
    (s.nredDue f = true → plain → s.poisoned f.pa f.size = false → f.size = tyW f.ty * tyN f.ty / 8 → fitsTy f.aop f.ty = true →
      f.data.toNat < 2 ^ (tyW f.ty * tyN f.ty) →
      ∃ s' new, exec (.nredAtHome id) s = .next s' ∧ AopIs f.aop f.ty (memRead s.mem f.pa f.size) f.data.toNat 0 new ∧
        SliceStored s f.pa (leBytes f.size new) s' ∧ s'.flight? id = some { f with stage := 2 }) ∧
    (f.kind = .wwait → f.stage = 4 → f.team ∈ s.teams.map (·.1) → ∃ s', exec (.waitEntryEnd id) s = .next s' ∧ Landed s f f.val false s') ∧
    (f.kind = .wwait → f.stage = 5 →
      exec (.waitEntryEnd id) s = .next (((s.land f 0 false).dropFlight id).defer f 0x17 f.val.toNat f.va)) ∧
    (f.kind = .wwake → f.stage = 0 → s.genOk f = true → s.ready f = true → s.sliceFree (s.home f.pa) f.core = true → s.queuedOn f.pa 8 = false →
      s.beyondWindow f.pa = false → s.unwatched id →
      let es := (s.column (s.home f.pa)).waitsOn f.pa
      let woken := if f.span = 0 then es else es.take f.span
      ∃ s', exec (.waitEntryEnd id) s = .next s' ∧ { s' with columns := s.columns, flights := s.flights } = s ∧ s'.flight? id = none ∧
        (∀ e ∈ woken, e ∉ (s'.column (s.home f.pa)).waits) ∧
        (∀ e ∈ (s.column (s.home f.pa)).waits, e ∉ woken → e ∈ (s'.column (s.home f.pa)).waits) ∧
        ∀ j g, j ≠ id → s.flight? j = some g → s'.flight? j = some (if ∃ e ∈ woken, e.who = some j then
          if s.poisoned f.pa 8 then { g with stage := 5, val := wordOf (s.poisonReason f.pa) }
          else { g with stage := 4, val := wordOf (memRead s.mem f.pa 8) } else g)) ∧
    (∀ q e d, s.entryOf id = some (q, e) → e.deadline = some d → d ≤ s.cycle q → exec (.waitDeadlineExpiry id) s =
      .next ((s.modCol q (fun k => { k with waits := k.waits.filter (fun x => x != e) })).modFlight id (fun x =>
        if s.poisoned e.pa 8 = true ∧ s.beyondWindow e.pa = false then { x with stage := 5, val := wordOf (s.poisonReason e.pa) }
        else { x with stage := 4, val := wordOf (memRead s.mem e.pa 8) }))) ∧
    (∀ op q, f.kind = .range op → f.fmode ≠ 0 → s.rangeDue f q = true → ∃ s' n, exec (.rangeOpAtSlice id q) s = .next s' ∧ s'.mem = s.mem ∧
      s'.teams = s.teams ∧ n ≤ f.size / 64 ∧ s'.flight? id = some { f with count := n, cols := [], stage := 1 }) ∧
    (∀ op q, f.kind = .range op → f.fmode = 0 → s.rangeDue f q = true → f.size % 64 = 0 →
      (∃ a, f.pa ≤ a ∧ a < f.pa + f.size ∧ s.beyondWindow a = true) →
      exec (.rangeOpAtSlice id q) s = .next ((((s.land f 0 false).dropFlight id).defer f 0x0A 0x87 f.va).take q f.core)) ∧
    (∀ op rg, f.kind = .range op → f.fmode = 0 → s.rangeDue f (s.home (rg * 4096)) = true → regionsOf f.pa (f.size / 64) = [rg] →
      isWindow (rg * 4096) = false → op ∈ [0x91, 0x92, 0x93, 0x94] →
      let q := s.home (rg * 4096)
      let k := s.column q
      let gs := gransOf f.pa (f.size / 64) rg
      let n := match op with
        | 0x94 => 0
        | 0x93 => (gs.filter (fun g => (k.blockAt rg g).any (fun b => !b.replica))).length
        | _ => (k.dirtyOf rg gs).length
      ∃ s', exec (.rangeOpAtSlice id q) s = .next s' ∧ s'.teams = s.teams ∧
        s'.flight? id = some { f with count := f.count + n, cols := f.cols.filter (· != q), stage := 1 } ∧
        (op ≠ 0x93 → op ≠ 0x91 → s'.mem = s.mem ∧ s'.cores = s.cores) ∧
        (op = 0x92 → (s'.column q).dirtyOf rg gs = []) ∧
        (op = 0x94 → { s'.column q with took := k.took } = k.setSpan rg f.span) ∧
        (op = 0x91 ∨ op = 0x93 → (∀ g ∈ gs, ∀ b ∈ (s'.column q).blocks, b.replica = false → b.holds rg g = false) ∧
          ∀ x ∈ (s'.core f.core).l1, x.line < f.pa / 64 ∨ f.pa / 64 + f.size / 64 ≤ x.line))
/-- R206, R208, R231, R234, R235, R242, R243, R246, R247: a region changes its mode, counters halve, a replica goes; the owner of a word
performs atomics and commits, a service course allocates and frees, and a reply fills its destination. -/
def Obligations.ReplicationAndService : Prop :=
  ∀ (s : State) (col region id : Nat) (f : Flight),
    let k := s.column col
    (s.switchDue col (k.counter region) = true →
      ((k.counter region).repl = false → exec (.replicationSwitch col region) s = .next (s.modCol col (fun k => { k with
        counters := k.counters.map (fun x => if x.region == region then { x with repl := true } else x) }))) ∧
      ((k.counter region).repl = true → ∃ s', exec (.replicationSwitch col region) s = .next s' ∧
        { s' with columns := s.columns, nextId := s.nextId } = s ∧ (∀ x ∈ (s'.column col).counters, x.region = region → x.repl = false) ∧
        ∀ q, q ∈ replicaCols col → ∀ g, g < 64 → (∃ b, (s.column q).blockAt region g = some b ∧ b.replica = true) →
          ∃ gs, (region, gs, some s.nextId) ∈ (s'.column q).inval ∧ g ∈ gs)) ∧
    (let now := s.cycle col / 2 ^ wfld k.repctl 48 8
     k.halved < now → exec (.replicationCounterHalving col) s = .next (s.modCol col (fun k => { k with
      halved := now, counters := k.counters.map (fun x =>
        { x with rcnt := x.rcnt / 2 ^ (now - k.halved), wcnt := x.wcnt / 2 ^ (now - k.halved) }) }))) ∧
    (∀ rg gs who rest, k.inval = (rg, gs, who) :: rest → (∀ g ∈ gs, ∀ b ∈ k.blocks, b.holds rg g = true → b.replica = true) →
      ∃ s', exec (.replicaInvalidation col) s = .next s' ∧ { s' with columns := s.columns, mem := s.mem } = s ∧
        (∀ q, q ≠ col → s'.column q = s.column q) ∧ (s'.column col).inval = rest ∧
        (∀ g ∈ gs, ∀ b ∈ (s'.column col).blocks, b.holds rg g = false) ∧
        (∀ rg' g', (∃ b ∈ (s'.column col).blocks, b.holds rg' g' = true) → ∃ b ∈ k.blocks, b.holds rg' g' = true) ∧
        ((∀ b ∈ k.blocks, b.region = rg → (∃ g ∈ gs, b.holds rg g = true) → ∀ g, b.holds rg g = true → g ∈ gs ∧ g < 64) → s'.mem = s.mem ∧
          ∀ rg' g', ¬(rg' = rg ∧ g' ∈ gs) →
            ((∃ b ∈ (s'.column col).blocks, b.holds rg' g' = true) ↔ ∃ b ∈ k.blocks, b.holds rg' g' = true))) ∧
    (s.flight? id = some f →
      let bits := tyW f.ty * tyN f.ty
      let held := fun a => isHost a = false ∧ isIO a = false ∧ s.inSlice a = true
      let noLines := if f.kind = .dalloc then s else s.modCore f.core (·.dropLines f)
      let taken := fun S : State => if f.stage = 1 then S else S.take (s.ownerOf f) f.core
      let landed := fun v pv s' => Landed (if f.acq then noLines.acquire f.core f.scope else noLines) f v pv s'
      (∀ i k, (i, k) ∈ [(Instr.atomAtOwner id, FKind.atom), (.txCommitAtOwner id, .txe), (.dallocAtServiceCourse id, .dalloc)] →
        s.requestDue f k = true → s.requestNext f = false → exec i s = .next ((State.modFlight { s with nextId := s.nextId + 1 } id (fun g =>
          { g with stage := 1, acc := s.nextId })).take (s.ownerOf f) f.core)) ∧
      (s.requestDue f .atom = true → s.requestNext f = true → s.beyondWindow f.pa = false → s.poisoned f.pa f.size = false → held f.pa → s.unwatched id →
        f.size = bits / 8 → fitsTy f.aop f.ty = true → f.data.toNat < 2 ^ bits → f.cmp.toNat < 2 ^ bits →
        let old := memRead s.mem f.pa f.size
        ∃ s', exec (.atomAtOwner id) s = .next s' ∧ s'.flight? id = some { f with stage := 2, val := extOld f.ty old } ∧
          if f.aop = .cas ∧ old ≠ f.cmp.toNat then s'.mem = s.mem ∧ s'.poison = s.poison
          else ∃ new, AopIs f.aop f.ty old f.data.toNat f.cmp.toNat new ∧
            SliceStored (s.answer id (extOld f.ty old)) f.pa (leBytes f.size new) s') ∧
      (s.replyDue f = true → f.team ∈ s.teams.map (·.1) → s.invalOpen id (fun _ => true) = false →
        ∃ s', landed f.val f.outcome s' ∧ exec (.serviceReply id) s = .next (s'.releaseBars f.team)) ∧
      (s.replyDue f = true → f.team ∈ s.teams.map (·.1) → s.invalOpen id (fun _ => true) = true →
        ∃ s' s1, exec (.serviceReply id) s = .next s' ∧ landed f.val f.outcome s1 ∧ { s' with flights := s1.flights } = s1 ∧
          s'.flight? id = some { f with kind := .store, dest := .none, pn := none, acq := false, past := true
                                        stage := if s.invalOpen id (fun q => q / 16 == f.core / 12 / 16) then 2 else 3 }) ∧
      (s.requestDue f .txe = true → s.requestNext f = true → s.beyondWindow f.pa = false → (∀ p ∈ f.rset, s.poisoned p.1 8 = false) →
        ((∀ p ∈ f.rset, wordOf (memRead s.mem p.1 8) = p.2) → (∀ p ∈ f.wset, held p.1) → s.unwatched id →
          ∃ s', exec (.txCommitAtOwner id) s = .next s' ∧
            { s' with mem := s.mem, poison := s.poison, columns := s.columns, flights := s.flights, nextId := s.nextId } = s ∧
            s'.mem = f.wset.foldl (fun m p => memWrite m p.1 8 p.2.toNat) s.mem ∧
            s'.flight? id = some { f with stage := 2, val := 0 }) ∧
        (∀ w ∈ f.rset, wordOf (memRead s.mem w.1 8) ≠ w.2 → (∀ p ∈ f.rset, wordOf (memRead s.mem p.1 8) ≠ p.2 → w.1 ≤ p.1) →
          exec (.txCommitAtOwner id) s = .next (taken (s.answer id (wordOf (2 + 2 ^ 8 * wordIdx f.rset w.1)))))) ∧
      (s.requestDue f .dalloc = true → s.requestNext f = true →
        let q := coreCol f.core
        let size := roundUp f.data.toNat 64
        let al := max 64 f.cmp.toNat
        ((s.column q).places f.asid size al = [] →
          exec (.dallocAtServiceCourse id) s = .next (taken (s.modFlight id (fun x => { x with stage := 2, val := 0, count := 0 })))) ∧
        ((s.column q).places f.asid size al ≠ [] →
          (∀ p ∈ (s.column q).arenas, p.2.blocks.Pairwise (fun x y => x.1 + x.2 ≤ y.1) ∧
            ∀ x ∈ p.2.blocks, p.2.base.toNat ≤ x.1 ∧ x.1 + x.2 ≤ p.2.base.toNat + p.2.size * 65536) →
          ∃ n a b, (n, a) ∈ (s.column q).arenas ∧ a.en = true ∧ a.asid = f.asid ∧ b % al = 0 ∧ a.base.toNat ≤ b ∧
            b + size ≤ a.base.toNat + a.size * 65536 ∧ (∀ x ∈ a.blocks, x.1 + x.2 ≤ b ∨ b + size ≤ x.1) ∧
            exec (.dallocAtServiceCourse id) s = .next (taken ((s.modCol q (fun k => { k with
              arenas := mapMod {} n (fun a => { a with blocks := addBlock a.blocks b size }) k.arenas })).modFlight id (fun x =>
                { x with stage := 2, val := wordOf b, count := 1 }))))) ∧
      (f.kind = .dfree → (∀ p ∈ f.after, s.performedAt p.1 p.2 = true) →
        (f.va = 0 → exec (.dfreeAtOwner id) s = .next (s.dropFlight id)) ∧
        (f.va ≠ 0 → s.arenaOf f.asid f.va.toNat = none →
          exec (.dfreeAtOwner id) s = .next ((s.dropFlight id).defer f 0x10 0x87 f.va)) ∧
        (∀ c n, f.va ≠ 0 → s.arenaOf f.asid f.va.toNat = some (c, n) → exec (.dfreeAtOwner id) s =
          .next ((s.dropFlight id).modCol c (fun k => { k with arenas := mapMod {} n (fun a =>
            { a with blocks := a.blocks.filter (fun x => x.1 != f.va.toNat) }) k.arenas })))))
/-- R26 to R29, R253, R259, R261 to R264, R270, R273, R277, R278: pieces of a copy land, expanded where it expands, each word of local memory
read once; it completes and reports, it stalls, walks again, and once it has met a fault is abandoned. ENGINE 0x13, deferred, of a copy whose
ring header is broken or whose slot is not reserved as it completes is the model's choice (notes/assumptions/55), and so is MEMERR, deferred,
where a word of that header is uncorrectable (notes/assumptions/50). -/
def Obligations.SlipEvents : Prop :=
  ∀ (s : State) (id core : Nat) (c : SlipCmd), s.slip? id = some (core, c) → (s.core core).slips.find? (fun x => x.id == id) = some c →
    c.team ∈ s.teams.map (·.1) →
    let T := s.team c.team
    let s0 := { s with timers := mapDel id s.timers }
    let rest := fun p => if c.dir = 1 ∧ ∀ q ∈ c.todo, q ≠ p → c.writes q = [] then [] else c.todo.filter (· != p)
    let less := fun p => { c with todo := rest p, landing := c.landing.filter (fun x => x.1 != p), refusals := c.refusals.filter (· != p) }
    let left := fun (c : SlipCmd) => (c.todo.map (fun p => (c.writes p).length +
        (if c.dir = 1 then ((c.span p).filter (fun b => (c.outAddr b).isNone)).length else 0))).sum +
      (c.landing.map (fun x => (c.writes x.1).length)).sum
    let counted := fun (n : Nat) (s' : State) => ∀ k, c.report = .counter k → k ≠ 0 → (s'.team c.team).kGet k = T.kGet k - wordOf n ∧
      (n ≠ 0 → eGet (s'.team c.team).kE k = (k < 256 && T.kGet k - wordOf n != 0))
    let stands := fun p (s' : State) => ∀ t, c.dstTeam = some t → (s'.team t).absent = (s.team t).absent.filter (fun x =>
      !((c.linesAt (64 * p) (c.span p).length).filter (fun x =>
        !((less p).todo.flatMap (fun q => c.linesAt (64 * q) (c.span q).length)).contains x)).contains x)
    (∀ p d S u, s.pieceDue core c p = true → (∀ x ∈ c.landing, x.1 ≠ p) → c.dir ≠ 1 → c.rows = none →
      (c.dst = .loc ∧ u = c.team ∨ (∃ pos, c.dst = .rem u pos) ∧ u ∈ s.teams.map (·.1)) →
      let f := c.fetched T p
      let at_ := fun b => phys c.tlr.swz (c.off + b)
      s0.pieceData core f p = .ok d S → partlyBad (s.team u).lbad ((c.span p).map at_) = false →
      ∃ s' gap, exec (.copyPieceLands id p) s = .next s' ∧ s'.mem = S.mem ∧
        let sat := (c.span p).any (fun b => (c.byteAt d gap b).2)
        s'.slip? id = some (core, { less p with buf := f.buf, xov := c.xov || sat }) ∧
        counted (left c - left (less p)) s' ∧ stands p s' ∧ bitN (s'.team c.team).slipErr 0 = (bitN T.slipErr 0 || sat) ∧
        (∀ b ∈ c.span p, (s'.team u).locByte (at_ b) = (c.byteAt d gap b).1) ∧
        (∀ a, (∀ b ∈ c.span p, a ≠ at_ b) → (s'.team u).locByte a = (s.team u).locByte a) ∧
        (∀ t, t ≠ u → ∀ a, (s'.team t).locByte a = (s.team t).locByte a) ∧ ∀ t, t ≠ c.team → t ≠ u → s'.team t = s.team t) ∧
    (∀ p h d S, s.pieceDue core c p = true → (∀ x ∈ c.landing, x.1 ≠ p) → c.dir ≠ 1 → c.tgt = none → c.rows = none → c.dst = .bst h →
      let f := c.fetched T p
      s0.pieceData core f p = .ok d S → partlyBad (s.core core).bpoison ((c.span p).map (fun b => h * 2 ^ 18 + c.off + b)) = false →
      s.halfWaiters core = [] → (s.core core).loopWaiter = none →
      let b := (s.core core).bring
      ∃ s', exec (.copyPieceLands id p) s = .next s' ∧ s'.mem = S.mem ∧ s'.slip? id = some (core, { less p with buf := f.buf }) ∧
        counted (left c - left (less p)) s' ∧ (∀ x, mapGet? x (s'.core core).bring.bytes = match (c.span p).find? (fun b => x == h * 2 ^ 18 + c.off + b) with
          | some b => some (c.byteAt d 0 b).1
          | none => mapGet? x b.bytes) ∧
        (s'.core core).bring.st h = if (less p).todo.isEmpty && (less p).landing.isEmpty && b.last h && b.st h == 1 &&
          (s.core core).slips.all (fun x => x.id == id || x.dst != .bst h || x.isOver) then 2 else b.st h) ∧
    (∀ p S, s.pieceDue core c p = true → (∀ x ∈ c.landing, x.1 ≠ p) → c.dir = 1 →
      (∀ b ∈ c.readsOut p, T.locBad (phys c.tlr.swz (c.off + b)) 1 = false) →
      let f := c.readSrc T ((c.readsOut p).map (fun b => phys c.tlr.swz (c.off + b)))
      let sent := { c with todo := rest p, landing := c.landing ++ [(p, s.nextId)], refusals := c.refusals.filter (· != p), buf := f.buf }
      State.engWrite { s0 with nextId := s.nextId + 1 } (c.eng s core) c.issuer (f.chunks p) s.nextId = .ok [] S →
      ∃ s', exec (.copyPieceLands id p) s = .next s' ∧ s'.mem = S.mem ∧
        ((S.trackWrite c.issuer core s.nextId).landedAt s.nextId c.tlr.scope = true →
          s'.slip? id = some (core, { less p with buf := f.buf }) ∧ counted (left c - left (less p)) s') ∧
        ((S.trackWrite c.issuer core s.nextId).landedAt s.nextId c.tlr.scope = false → counted (left c - left sent) s' ∧
          (∀ t, t ≠ c.team → s'.team t = s.team t) ∧ s'.slip? id = some (core, sent))) ∧
    (∀ p w, s.pieceDue core c p = true → c.landing.find? (fun x => x.1 == p) = some (p, w) →
      ∃ s', exec (.copyPieceLands id p) s = .next s' ∧ s'.mem = s.mem ∧ ((∀ h, c.dst ≠ .bst h) → s'.flights = s.flights) ∧
        s'.slip? id = some (core, less p) ∧ counted (left c - left (less p)) s' ∧ stands p s') ∧
    (c.completeDue = true →
      let gone := s.modCore core (fun k => { k.dropLocks id with slips := k.slips.filter (fun x => x.id != id) })
      ((∀ t hdr slot, c.report ≠ .ring t hdr slot) → exec (.copyComplete id) s = .next gone) ∧
      (∀ t hdr slot, c.report = .ring t hdr slot → (s.team t).locBad hdr 64 = false → (s.team t).ringOk hdr = true →
        bitN ((s.team t).ringRes hdr) slot = true → s.ringWaiters t hdr = [] →
        exec (.copyComplete id) s = .next (gone.modTeam t (fun T => { T.ringFilled hdr slot c.err c.xov with
          ringScope := mapPut (slotKey hdr slot) c.tlr.scope T.ringScope }))) ∧
      (∀ t hdr slot, c.report = .ring t hdr slot → (s.team t).locBad hdr 64 = false →
        (s.team t).ringOk hdr = false ∨ bitN ((s.team t).ringRes hdr) slot = false →
        exec (.copyComplete id) s = .next (gone.deferAt c.team c.crs c.lane id 0x10 0x13 (wordOf hdr) c.ipc)) ∧
      (∀ t hdr slot, c.report = .ring t hdr slot → (s.team t).locBad hdr 64 = true →
        exec (.copyComplete id) s = .next (gone.deferAt c.team c.crs c.lane id 0x17 0x85 (wordOf hdr) c.ipc))) ∧
    (∀ n, c.report = .port n → c.isOver = true → c.pushed = false → T.poolUsed 0x01 0x0F < 64 → exec (.completionPortPush id) s =
      .next ((s.portPush c.team n (portEntry c.status c.tlr.scope)).modSlip core id (fun c => { c with pushed := true }))) ∧
    (∀ first last addr, s.stalled? id = some ⟨core, c.eng s core, if c.dir = 1 then .store else .load, first, last, addr⟩ →
      (∀ w ∈ (s.core core).wheel, w.id ≠ id) → (∀ w ∈ (s.core core).coil.queue, w.id ≠ id) →
      let bad := s.engTr (c.eng s core) addr (if c.dir = 1 then .store else .load) = .bad 0x09
      let now := s.cycle (core / 12)
      (bad → exec (.slipTranslationRewalk id) s = .next (s.setStall core id (some (first, now, addr)))) ∧
      (¬bad → exec (.slipTranslationRewalk id) s = .next (s.setStall core id none)) ∧
      (bad → first + 2 ^ 20 ≤ now → exec (.slipStallTimeout id) s =
        .next ((s.setStall core id none).modSlip core id (fun c => { c with fail := some (0x09, addr) }))) ∧
      ∀ x, (s.setStall core id x).slip? id = some (core, { c with stall := x })) ∧
    (∀ cls addr, c.fail = some (cls, addr) →
      ∃ S, exec (.commandAbandon id) s = .next (S.deferAt c.team c.crs c.lane id 0x10 (0x80 + cls) addr c.ipc) ∧
        { S with teams := s.teams, cores := s.cores, flights := s.flights } = s ∧ ((∀ h, c.dst ≠ .bst h) → S.flights = s.flights) ∧
        counted (left c) S ∧ (S.team c.team).terr = true ∧
        wfld (wordOf (S.team c.team).slipErr) 8 8 = (0x80 + cls) % 256 ∧ bitN (S.team c.team).slipErr 1 = true ∧
        (∀ t, c.dstTeam = some t → (S.team t).absent = (s.team t).absent.filter (fun x => !(c.linesAt 0 c.bytes).contains x)) ∧
        S.slip? id = some (core, { c with err := true, todo := [], landing := [], stall := none, fail := none }) ∧
        ∀ y ∈ (S.core core).locks, y.cmd ≠ id)
/-- R286, R288, R290, R291, R297, R298, R301, R302: the command at the head of a Wheel's queue starts, a loop does its K-steps, a drain writes,
and both end with their report. That each occurrence of the event does the K-steps whose lines are present, one at a time, is the model's
choice (notes/assumptions/56), and so are what an uncorrectable word of the A panel reads as (notes/assumptions/50) and that a partial write of
such a word ends the drain with 0x97 (notes/assumptions/75). -/
def Obligations.WheelEvents : Prop :=
  ∀ (s : State) (core : Nat) (w : WCmd), (s.core core).wheel.head? = some w → w.team ∈ s.teams.map (·.1) →
    let k := s.core core
    let T := s.team w.team
    let pair := fun (a : Word) => (wfld a 0 4, wfld a 4 6, 2 * wfld a 10 5)
    let started := s.modWheel core w.id (fun w => { w with started := true })
    (w.started = false → T.saving = false →
      (∀ tiles, w.op = .zero tiles → ∃ s', exec (.wheelCommandStart core) s = .next s' ∧ WheelGone (s.modCore core (fun k => { k with
        acc := k.acc.filter (fun p => !bitN tiles (p.1 / 4096)), apoison := k.apoison.filter (fun x => !bitN tiles (x / 16384)) })) core w s') ∧
      (∀ ls d, w.op = .rd ls d →
        let bad := ls.any (fun p => k.accBad (pair p.2).1 (pair p.2).2.1 (pair p.2).2.2)
        ∃ s' S, exec (.wheelCommandStart core) s = .next s' ∧ WheelGone S core { w with err := bad } s' ∧
        S = ls.foldl (fun S p => S.modLane w.team w.crs p.1 (fun L => L.vPut d (wordOf (k.accRead false (pair p.2).1 (pair p.2).2.1 (pair p.2).2.2 +
          k.accRead false (pair p.2).1 (pair p.2).2.1 ((pair p.2).2.2 + 1) * 2 ^ 32)))) s) ∧
      (∀ ls, w.op = .wr ls → ∃ s' S, exec (.wheelCommandStart core) s = .next s' ∧ WheelGone S core w s' ∧
        { S with cores := s.cores } = s ∧
        ∀ t m n, (S.core core).accGet t m n = ls.foldl (fun x (p : Nat × Word × Word) =>
          let q := accKey (pair p.2.1).1 (pair p.2.1).2.1 (pair p.2.1).2.2
          if accKey t m n = q + 1 then wfld p.2.2 32 32 else if accKey t m n = q then wfld p.2.2 0 32 else x) (k.accGet t m n)) ∧
      (∀ m a b c, w.op = .loop m a b c →
        (∀ h, bHold b = true → T.wheelHalf = some h → exec (.wheelCommandStart core) s =
          .next (s.modWheel core w.id (fun w => { w with started := true, half := some h }))) ∧
        (bHold b = true → T.wheelHalf = none → exec (.wheelCommandStart core) s = .next (started.abandonWheel core w 0x23 0)) ∧
        (bHold b = false → k.bring.st k.bring.ridx ≠ 2 → exec (.wheelCommandStart core) s = .next
          (State.modWheel { s with nextId := s.nextId + 1 } core w.id (fun w => { w with started := true, req := some s.nextId }))) ∧
        (let h := k.bring.ridx
         bHold b = false → k.bring.st h = 2 → w.half = none → s.halfWaiters core = [] → ∃ s', exec (.wheelCommandStart core) s = .next s' ∧
          s'.mem = s.mem ∧ s'.flights = s.flights ∧ (s'.team w.team).wheelHalf = some h ∧ (s'.core core).bring.st h = 3 ∧
          (s'.core core).bring.ridx = 1 - h ∧
          (s'.core core).wheel.head? = some { w with started := true, req := some s.nextId, half := some h })) ∧
      (∀ m a b c, w.op = .drain m a b c → exec (.wheelCommandStart core) s = .next started)) ∧
    (∀ m a b c, w.op = .loop m a b c → w.started = true →
      (w.isOver = true → s.wheelRoom w = true → ∃ S, WheelGone s core w S ∧ exec (.wloopComplete core) s = .next (S.dropOwner core w.team)) ∧
      (∀ h, w.isOver = false → w.half = some h → w.step < cKsteps c → cMm c < 64 → cNn c < 64 → T.aPresent m a c w.step = true →
        s.unitBehind w.issuer = false → (w.step + 1 < cKsteps c → T.aPresent m a c (w.step + 1) = false) →
        ∃ s', exec (.wloopComplete core) s = .next s' ∧ s'.mem = s.mem ∧ s'.flights = s.flights ∧
          (∀ r n, r ≤ cMm c → n ≤ cNn c → (s'.core core).accGet m.tile r n = (macWord m ((T.blurred s.fresh).aBlock m a c w.step r) (s.bBlock core h m b c w.step n)
            (if w.step = 0 ∧ m.zero = true then 0 else k.accRead (intLoop m) m.tile r n)).1 % 2 ^ 32) ∧
          (∀ t r n, r < 64 → n < 64 → t ≠ m.tile ∨ cMm c < r ∨ cNn c < n → (s'.core core).accGet t r n = k.accGet t r n) ∧
          (w.step + 1 < cKsteps c → (s'.core core).wheel.head?.map (·.step) = some (w.step + 1)) ∧
          (w.step + 1 = cKsteps c → s.wheelRoom w = true → ∀ x ∈ (s'.core core).wheel, x.id ≠ w.id))) ∧
    (∀ m a b c, w.op = .drain m a b c → w.started = true →
      (w.isOver = true ∧ s.wheelRoom w = true ∨ w.isOver = false ∧ (∃ id, w.wid = some id ∧ s.landedAt id w.scope = true) ∧ s.wheelRoom w = true →
        ∃ s' S, exec (.wdrainComplete core) s = .next s' ∧ WheelGone S core w s' ∧
          S = (if w.isOver then s else s.modCore core (·.drainClr m)).modTeam w.team (·.setLines w.lines)) ∧
      (w.isOver = false → w.wid = none → w.stall = none → s.engFree (w.eng s core) w.issuer (wdGlobLines m a b c) .store = true →
        let p := if wdPrim m then k.primCopy m a b else ([], 0)
        let t := if wdTrans m then k.transCopy m b c else ([], 0)
        let cs := wdGlobals m p t
        let S0 := { s with nextId := s.nextId + 1 }
        (wdBad T m p t = true → exec (.wdrainComplete core) s = .next (s.abandonWheel core w 0x97 a)) ∧
        (∀ S, wdBad T m p t = false → S0.engWrite (w.eng s core) w.issuer cs s.nextId = .ok [] S → ∃ s', exec (.wdrainComplete core) s = .next s' ∧ s'.mem = S.mem ∧
          (s'.team w.team).lmem = (let T := if wdPrim m && m.dsp then T.putAll m.dswz p.1 else T
            if wdTrans m && m.tsp then T.putAll m.tswz t.1 else T).lmem ∧
          ((S.trackWrite w.issuer core s.nextId).landedAt s.nextId w.scope = false →
            (s'.core core).wheel.head?.map (·.wid) = some (some s.nextId)) ∧
          ((S.trackWrite w.issuer core s.nextId).landedAt s.nextId w.scope = true → s.wheelRoom w = true →
            ∀ x ∈ (s'.core core).wheel, x.id ≠ w.id)) ∧
        (∀ cls addr, wdBad T m p t = false → S0.engWrite (w.eng s core) w.issuer cs s.nextId = .bad cls addr →
          exec (.wdrainComplete core) s = .next (
          if cls = 0x09 then s.modWheel core w.id (fun w => { w with stall := some (s.cycle (core / 12), s.cycle (core / 12), addr) })
          else if cls = 0x0B ∧ w.tries < 3 then (s.dropAsid core w.asid).modWheel core w.id (fun w => { w with tries := w.tries + 1 })
          else s.abandonWheel core w (0x80 + cls) addr))))

/-- R309, R315 to R317, R318, R319, R322, R324, R328: a job takes the inputs of a step, takes its carry-in and completes; carries move along
the chain, each to the member for which it is meant; a carry is read from memory or written to it. That a carry whose receiver has retired is
dropped is the model's choice (notes/assumptions/40), and so are 0x97 for a partial write of an uncorrectable word (notes/assumptions/75) and
for what a job reads in its result area (notes/assumptions/50). -/
def Obligations.CoilEvents : Prop :=
  ∀ (s : State) (core : Nat),
    let u := (s.core core).coil
    (∀ j cy, u.out = some (j, cy) → s.sendDue core = true →
      let S := s.modCoil core (fun u => { u with out := none, seals := u.seals.filter (fun p => p.1 != j) })
      (∀ t k, s.chainNext core = some (t, k) → exec (.carrySend core) s = .next (S.modCoil k (fun u => { u with wire := u.wire ++ [(t, cy)] }))) ∧
      (s.chainNext core = none → exec (.carrySend core) s = .next S)) ∧
    (∀ t cy cs, u.wire = (t, cy) :: cs → exec (.carryArrive core) s = .next (s.modCoil core (fun u => { u with
      wire := cs, missed := mapMod 0 t (· - 1) u.missed
      link := u.link ++ [{ for_ := t, came := s.cycle (core / 12), late := mapGet 0 t u.missed != 0, carry := cy }] }))) ∧
    (∀ w, u.queue.head? = some w → w.team ∈ s.teams.map (·.1) →
      let T := s.team w.team
      let V := shapeV w.coper.shape
      let n := fun e : List CilV => e.map (fun v => v.v % 2 ^ 32)
      let gone := fun cls reason (S : State) => S.abandonCil core w cls reason 0
      (∀ m a, w.op = .job m a →
        let chans := cjChans m
        let row := fun (S : State) t c => (S.team w.team).elem w.coper (resAt w m a t c)
        let fin := fun (s' : State) (cin : Nat → List Nat) =>
          (∀ t c, t < cjSteps m → c < chans → row s' t c = n (combV w.coper (cin c) (row s t c))) ∧
          (∀ c, c < chans → c < 128 → (s'.core core).coil.cregAt c = row s' (cjSteps m - 1) c) ∧
          (∀ c, chans ≤ c → c < 128 → (s'.core core).coil.cregAt c = u.cregAt c) ∧
          (m.send = true → ∃ cy, (s'.core core).coil.out = some (w.id, cy) ∧ cy.poison = false ∧ cy.coper = w.coper ∧ cy.chans = chans ∧
            ∀ c, c < chans → cy.vals.getD c [] = row s' (cjSteps m - 1) c)
        let bad := s.cjobBad w m a
        (T.saving = false → bad = true → s.cjobHeld core w m a = false → w.phase ≤ 1 → cjSteps m ≤ w.steps ∨ u.stepReady w m = true →
          exec (.cjobComplete core) s = .next (gone 0x10 0x97 (if m.cin = 2 then s.modCoil core (·.missCarry w.team) else s))) ∧
        (T.saving = false → bad = false → w.phase ≤ 1 → w.steps + 1 < cjSteps m → u.stepReady w m = true →
          (∃ g, g < cjGroups m ∧ (u.groups.getD g []).length < 2 * cjPushes w.coper) → u.groups.length = 4 → cjGroups m ≤ 4 →
          let el := fun c => elemOf w.coper ((u.groups.getD (c / 32) []).take (cjPushes w.coper)) (c % 32)
          ∃ s', exec (.cjobComplete core) s = .next s' ∧ s'.mem = s.mem ∧
            (∀ c, c < chans → row s' w.steps c = if w.steps % 16 = 0 then el c else n (combV w.coper (row s (w.steps - 1) c) (el c))) ∧
            (∀ g, g < 4 → (s'.core core).coil.groups.getD g [] =
              if g < cjGroups m then (u.groups.getD g []).drop (cjPushes w.coper) else u.groups.getD g []) ∧
            (s'.core core).coil.queue.head?.map (fun w => (w.phase, w.steps)) = some (1, w.steps + 1)) ∧
        (T.saving = false → bad = false → w.phase = 3 → (m.send = true → u.out = none) → m.cin ≤ 1 → ∃ s', exec (.cjobComplete core) s = .next s' ∧ s'.mem = s.mem ∧
          (s'.core core).coil.queue = u.queue.filter (fun x => x.id != w.id) ∧
          fin s' (fun c => if m.cin = 0 then cilIdent w.coper else u.cregAt c)) ∧
        (∀ e, T.saving = false → w.phase = 4 → m.cin = 2 → u.link.find? (fun e => !e.late && e.for_ == w.team) = some e → e.came < w.since + 2 ^ u.tlim →
          let S := s.modCoil core (fun u => { u with link := u.link.erase e, poison := u.poison || e.carry.poison })
          (e.carry.poison = true → exec (.cjobComplete core) s = .next (gone 0x13 0x11 S)) ∧
          (e.carry.poison = false → e.carry.coper ≠ w.coper ∨ e.carry.chans ≠ chans → exec (.cjobComplete core) s = .next (gone 0x13 0x12 S)) ∧
          (bad = false → e.carry.poison = false → e.carry.coper = w.coper → e.carry.chans = chans → ∃ s', exec (.cjobComplete core) s = .next s' ∧
            s'.mem = s.mem ∧ (s'.core core).coil.queue = u.queue.filter (fun x => x.id != w.id) ∧ fin s' (fun c => e.carry.vals.getD c []))) ∧
        (T.saving = false → w.phase = 4 → m.cin = 2 → u.carryFor w = none → w.since + 2 ^ u.tlim < s.cycle (core / 12) →
          exec (.carryLimitExpiry core) s = .next (gone 0x13 0x10 (s.modCoil core (·.missCarry w.team))))) ∧
      (∀ st loc a c, w.op = .car st loc a c → w.stall = none → T.saving = false →
        let len := c * (4 * V)
        let sL := { s with timers := mapDel w.id s.timers }
        let bytes := u.cregBytes w.coper c
        let gone := fun S s' => CoilGone S core w false s'
        let filled := fun at_ S => S.modCoil core (fun u => u.setCreg (elemsOf w.coper c at_))
        let part := partlyBad T.lbad ((List.range bytes.length).map (a.toNat + ·))
        let free := s.engFree (w.eng s core) w.issuer (linesOf [(a.toNat, len)]) (if st then .store else .load) = true
        (∀ id, w.wid = some id → s.landedAt id w.scope = true → ∃ s', exec (.ccarComplete core) s = .next s' ∧ gone s s') ∧
        (w.wid = none → loc = true → (if st then part = true else s.unitBehind w.issuer = false ∧ T.locBad a.toNat len = true) →
          exec (.ccarComplete core) s = .next ((if st then s else sL).abandonCil core w 0x10 0x97 a)) ∧
        (w.wid = none → st = false → loc = true → s.unitBehind w.issuer = false → T.locBad a.toNat len = false → ∃ s', exec (.ccarComplete core) s = .next s' ∧
          gone (filled (fun i => T.locByte (a.toNat + i)) sL) s') ∧
        (∀ d S, w.wid = none → st = false → loc = false → free → sL.engGather (w.eng s core) [(a.toNat, len)] = .ok d S →
          ∃ s', exec (.ccarComplete core) s = .next s' ∧ gone (filled (fun i => d.at (a.toNat + i)) S) s') ∧
        (w.wid = none → st = true → loc = true → part = false → ∃ s', exec (.ccarComplete core) s = .next s' ∧
          gone (s.modTeam w.team (·.locPut a.toNat bytes)) s' ∧
          ∀ x, (s'.team w.team).locByte x = if a.toNat ≤ x ∧ x < a.toNat + bytes.length then bytes.getD (x - a.toNat) 0 else T.locByte x) ∧
        (∀ S, w.wid = none → st = true → loc = false → free →
          State.engWrite { s with nextId := s.nextId + 1 } (w.eng s core) w.issuer (chunksOf (bytesAt a.toNat bytes)) s.nextId = .ok [] S →
          ∃ s', exec (.ccarComplete core) s = .next s' ∧ s'.mem = S.mem ∧
            if (S.trackWrite w.issuer core s.nextId).landedAt s.nextId w.scope then
              (s'.core core).coil.queue = u.queue.filter (fun x => x.id != w.id)
            else (s'.core core).coil.queue.head?.map (·.wid) = some (some s.nextId)) ∧
        (∀ cls addr, w.wid = none → loc = false → free →
          (if st then State.engWrite { s with nextId := s.nextId + 1 } (w.eng s core) w.issuer (chunksOf (bytesAt a.toNat bytes)) s.nextId
            else sL.engGather (w.eng s core) [(a.toNat, len)]) = .bad cls addr → exec (.ccarComplete core) s = .next (
          let S := if st then s else sL
          if cls = 0x09 then S.modCil core w.id (fun w => { w with stall := some (s.cycle (core / 12), s.cycle (core / 12), addr) })
          else if cls = 0x0B ∧ w.tries < 3 then (S.dropAsid core w.asid).modCil core w.id (fun w => { w with tries := w.tries + 1 })
          else S.abandonCil core w 0x10 (0x80 + cls) addr))))

/-- R332, R335 to R340, R347, R351, R364, R373: records are launched, taken, checked and held, a node completes and its successors are told, a
task and a notification are handed over. That a HOST node is RUNNING once its notification is passed to the port, and STATE 3 at the
hand-over of a task, are the model's choices (notes/assumptions/58), and so is one successor at a time (notes/assumptions/54). -/
def Obligations.NodeEvents : Prop :=
  ∀ (s : State) (node : Nat) (n : PoolNode), isHbm node = true → node % 128 = 0 →
    let st := fun (s : State) => nrState (s.nodeAt node)
    (∀ col prio val auth, prio < 4 → col < 64 → val.toNat % 128 = 0 → (s.column col).launchLen prio < 256 →
      exec (.launchStore col prio val auth none) s =
        .next (s.modCol col (fun k => { k with launch := mapMod [] prio (· ++ [(val.toNat, auth)]) k.launch }))) ∧
    (∀ col prio val auth id f, s.lineRoom col prio = true → s.flight? id = some f → s.launchOf f = some (col, prio, val, auth) →
      f.team ∈ s.teams.map (·.1) →
      let S := s.modCol col (fun k => { k with launch := mapMod [] prio (· ++ [(val.toNat, auth)]) k.launch })
      (f.kind = .launch → ∃ s', exec (.launchStore col prio val auth (some id)) s = .next s' ∧ Landed S f 0 false s') ∧
      (f.kind = .store → exec (.launchStore col prio val auth (some id)) s = .next (S.modFlight id (fun x => { x with stage := 2 })))) ∧
    (∀ col p auth, (s.column col).nextRecord = some (p, node, auth) → s.pool.length < 3072 →
      let S := s.modCol col (fun k => { k with launch := mapMod [] p (fun q => q.drop 1) k.launch })
      (st s ≠ 0 ∨ s.isReady node = true →
        exec (.dispatchRecord col) s = .next (S.modCol col (fun k => { k with ldisc := (k.ldisc + 1) % 2 ^ 64 }))) ∧
      (st s = 0 → s.isReady node = false → S.recErr node (some auth) = none → ∃ s' m, exec (.dispatchRecord col) s = .next s' ∧ st s' = 2 ∧ s'.teams = s.teams ∧
        s'.pool.map (·.node) = s.pool.map (·.node) ++ [node] ∧ m ∈ s'.pool ∧ m.node = node ∧ m.next = 0 ∧ s.nextId ≤ m.ord ∧
        nrState m.words = 2) ∧
      (∀ e bad, st s = 0 → s.isReady node = false → S.recErr node (some auth) = some (e, bad) → ∃ s', exec (.dispatchRecord col) s = .next s' ∧ st s' = 5 ∧
        fld (nw (s'.nodeAt node) 7) 56 8 = e ∧ s'.pool = s.pool ∧ (bad = true → s'.visits = s.visits) ∧
        (bad = false → ∃ v, s'.visits = s.visits ++ [v] ∧ v.node = node ∧ v.kind = 2))) ∧
    (∀ col r, (s.column col).held = node :: r → s.pool.length < 4096 → ∃ s', exec (.heldNodeEnterPool col) s = .next s' ∧
      s'.mem = s.mem ∧ (s'.column col).held = r ∧ s'.pool.map (·.node) = s.pool.map (·.node) ++ [node]) ∧
    (s.visitOf node = none → s.poolNode? node = some n → s.completeDue n = true →
      let err := if (s.predsOf node).1 ≠ 0 then 0x20 else n.failed.getD 0
      ∃ s', exec (.nodeComplete node) s = .next s' ∧ s'.teams = s.teams ∧ s'.pool.map (·.node) = (s.pool.map (·.node)).filter (· != node) ∧
        (n.refused = true → s'.mem = s.mem ∧ s'.visits = s.visits) ∧
        (n.refused = false → st s' = (if err = 0 then 4 else 5) ∧ fld (nw (s'.nodeAt node) 7) 56 8 = err % 256 ∧
          ∃ v, s'.visits = s.visits ++ [v] ∧ v.node = node ∧ v.kind = (if err = 0 then 1 else 2) ∧ v.signalled = n.sigDone)) ∧
    (s.visitOf node = none → s.poolNode? node = some n → s.completeDue n = false → s.taskSignal n = true →
      ∃ s' m v, exec (.nodeComplete node) s = .next s' ∧ s'.mem = s.mem ∧ s'.teams = s.teams ∧ s'.poolNode? node = some m ∧
        m.sigDone = true ∧ s'.visits = s.visits ++ [v] ∧ v.node = node ∧ v.kind = 0 ∧ v.signalled = true) ∧
    (∀ pred v v' va pte x, s.visitOf pred = some v → s.visitStep v = (some va, some v') → v.kind = 1 →
      s.spaceAt v.words (wordOf va) .load = some (pte, node) → s.spaceAt v.words (wordOf va) .store = some x → pteFmode pte = 0 →
      s.poisoned node 128 = false → succRefused v.words (s.nodeAt node) = false → st s = 1 → 2 ≤ nrRem (s.nodeAt node) →
      ∃ s', exec (.nodeComplete pred) s = .next s' ∧ st s' = 1 ∧ nrRem (s'.nodeAt node) = nrRem (s.nodeAt node) - 1 ∧
        s'.visits = v' :: s.visits.erase v ∧ s'.pool = s.pool ∧ s'.teams = s.teams) ∧
    (s.poolNode? node = some n → s.taskDue n = true →
      let c := s.taskCol n.words
      ∃ s' m, exec (.columnTaskHandoff node) s = .next s' ∧ (s'.column c).taskq = (s.column c).taskq ++ [node] ∧
        (s'.column c).tasks = (s.column c).tasks ++ [node] ∧ bitN (s'.column c).intstat 1 = true ∧
        s'.poolNode? node = some m ∧ m.taskOut = true ∧ (st s = 2 → st s' = 3)) ∧
    (s.poolNode? node = some n → s.notifyDue n = true →
      (st s = 2 → ∃ s', exec (.hostNotification node) s = .next s' ∧ st s' = 3 ∧ s'.notes = s.notes) ∧
      (st s ≠ 2 → s.hnqbase ≠ 0 → ∃ s' m, exec (.hostNotification node) s = .next s' ∧ s'.mem = s.mem ∧
        s'.notes = mapPut (s.hnqbase.toNat + 8 * wfld s.hnqctl 16 16) (nrSelf n.words) s.notes ∧ s'.vectors = s.vectors ++ [64] ∧
        wfld s'.hnqctl 16 16 = (wfld s.hnqctl 16 16 + 1) % wfld s.hnqctl 0 16 ∧ s'.poolNode? node = some m ∧ m.notified = true) ∧
      (st s ≠ 2 → s.hnqbase = 0 → ∃ s' m, exec (.hostNotification node) s = .next s' ∧ s'.notes = s.notes ∧
        s'.poolNode? node = some m ∧ m.notified = true ∧ m.failed = some 0x01))

/-- R34, R101, R323, R341 to R346, R352 to R357: teams are placed, reserve, retire, are drained, saved, restored and evicted. The model's
choices are the slot among the free ones (notes/assumptions/39), what a restore gives back beyond R105 (notes/assumptions/31), that a team
whose context cannot be written or read is discarded alone (notes/assumptions/51), and the details of park eviction
(notes/assumptions/53). -/
def Obligations.PlacementEvents : Prop :=
  ∀ (s : State) (node : Nat) (n : PoolNode) (c t : Nat),
    let T := s.team t
    let leaves := fun (s' : State) => mapGet? t s'.teams = none ∧ ∀ u, u ≠ t → s'.team u = s.team u
    (∀ i, s.nextPlacement = some (n, i, false, [c]) → nrIsGang n.words = false → n.node = node → isHbm node = true → node % 128 = 0 →
      ∃ s' early m u, exec (.teamPlace node) s = .next s' ∧ s.nextId ≤ u ∧ s'.nextId = u + 1 ∧
        s'.team u = newTeam n n.next c ((s.freeSlot c).getD 0) 0 0 early u ∧
        (∀ v, v ≠ u → s'.team v = s.team v) ∧ (s'.core c).split = some (nrSplit n.words) ∧
        s'.poolNode? node = some m ∧ m.resident.getLast? = some u ∧
        (nrState (s.nodeAt node) = 2 → nrState (s'.nodeAt node) = 3)) ∧
    (∀ cs, s.poolNode? node = some n → s.toReserve n = some cs →
      exec (.splitReservation node) s = .next (cs.foldl (fun s c => s.modCore c (fun k => { k with reserved := some node })) s)) ∧
    (s.retireDue t = true →
      (s.unsealedOf t = true → exec (.teamRetire t) s = .next (s.modCoil T.core (fun u => { u with
        unsealed := [], seals := u.seals ++ u.unsealed.map (fun j => (j, [])) }))) ∧
      (s.unsealedOf t = false → ∃ s', exec (.teamRetire t) s = .next s' ∧ leaves s' ∧ s'.mem = s.mem ∧ (∀ f ∈ s'.flights, f.team ≠ t) ∧
        ∀ m, s.poolNode? T.record = some m → ∃ m', s'.poolNode? T.record = some m' ∧ m'.retired = m.retired + 1 ∧
          m'.resident = m.resident.filter (· != t))) ∧
    (∀ cs, s.poolNode? node = some n → s.priorityDrain n = some cs → ∃ s', exec (.priorityDrain node) s = .next s' ∧
      { s' with cores := s.cores } = s ∧ ∀ c ∈ cs, (s'.core c).reserved = some node ∧
        (s.teamsOn c ≠ [] → (s'.core c).draining.isSome = true)) ∧
    (s.drainDue c = true → ∃ s', exec (.drain c) s = .next s' ∧ { s' with cores := s.cores } = s ∧
      (s'.core c).draining = some (s.cycle (c / 12)) ∧ (∀ q, ∃ d, s'.core q = { s.core q with draining := d }) ∧
      ∀ q, (s.core q).draining.isSome = true → s'.core q = s.core q) ∧
    (s.limitPassed c = true → ∃ s', exec (.drainLimitExpiry c) s = .next s' ∧ { s' with teams := s.teams } = s ∧
      (∀ u ∈ s.toSave c, (s'.team u).saving = true) ∧
      ∀ u, ∃ b, s'.team u = { s.team u with saving := b } ∧ ((s.team u).saving = true → b = true)) ∧
    (s.poolNode? T.record = some n →
      (s.saveStage t = 1 → exec (.forcedSave t) s = .next (s.cancelWaits (fun f => f.team == t))) ∧
      (s.saveStage t = 2 →
        let out := State.engWrite { s with nextId := s.nextId + 1 } (nodeEng n.words T.core)
          ⟨t, 0, 0, s.nextId⟩ (chunksOf (bytesAt (ctxAddr n.words T.idx) (s.context t))) s.nextId
        (∀ S, out = .ok [] S → exec (.forcedSave t) s = .next (S.modTeam t (fun T => { T with saveWid := some s.nextId }))) ∧
        (∀ cls a, out = .bad cls a → exec (.forcedSave t) s = .next (
          if s.staleSpace cls n.words T.core ∧ T.saveTries < 3 then
            (s.dropAsid T.core (nrAsid n.words)).modTeam t (fun T => { T with saveTries := T.saveTries + 1 })
          else s.retireTeam t (some 0x10)))) ∧
      (s.saveStage t = 3 → ∃ s' m, exec (.forcedSave t) s = .next s' ∧ leaves s' ∧ s'.mem = s.mem ∧ s'.poolNode? T.record = some m ∧
        t ∉ m.resident ∧ m.saved.map (·.serial) = n.saved.map (·.serial) ++ [t])) ∧
    (∀ i sv, s.nextPlacement = some (n, i, true, [c]) → nrIsGang n.words = false → n.node = node → n.savedUnit i = [sv] →
      let out := (s.dropAsid c (nrAsid n.words)).readContext n sv c
      (∀ d S, out = .ok d S → (∀ p ∈ s.quiesce.pendCk, p.1 ≠ sv.serial) → ∃ s' m, exec (.restore node i) s = .next s' ∧
        s'.team s.nextId = restoredTeam (newTeam n sv.idx c ((s.freeSlot c).getD 0) 0 0 sv.early s.nextId) sv
          (fun k => d.at (ctxAddr n.words sv.idx + k)) ∧ (∀ u, u ≠ s.nextId → s'.team u = s.team u) ∧
        s'.poolNode? node = some m ∧ s.nextId ∈ m.resident ∧ ∀ x ∈ m.saved, x.idx ≠ sv.idx) ∧
      (∀ cls a, out = .bad cls a → ∃ s' m, exec (.restore node i) s = .next s' ∧ s'.teams = s.teams ∧ s'.mem = s.mem ∧
        s'.poolNode? node = some m ∧ m.failed = some 0x10 ∧ ∀ x ∈ m.saved, x.idx ≠ sv.idx)) ∧
    (s.evictionOf c = some (node, t) → ∃ s', exec (.parkEviction c) s = .next s' ∧
      { s' with teams := s.teams, cores := s.cores, pool := s.pool } = s ∧
      s'.pool = (if (s.core c).evictFor.isSome then s.pool else s.pool.map (fun n => { n with
        saved := n.saved.map (fun x => { x with away := if x.away = some c then none else x.away }) })) ∧
      (s'.team t).saving = true ∧ (s'.team t).evicted = true ∧
      s'.core c = { s.core c with reserved := some node, evictFor := some node, admitted := none }) ∧
    (∀ q x r, (s.column q).scqWait = x :: r → (s.column q).scq.length < 64 → exec (.suspensionRecordPush q) s =
      .next (s.modCol q (fun k => { k with scqWait := r, scq := k.scq ++ [x] })))

/-- R220, R376, R379, R380, R384, R386, R387, R389, R390: accesses reach a peer, which may be this device, or are timed out, and glaze
stores, reductions and barriers of a group go on. -/
def Obligations.FabricEvents : Prop :=
  ∀ (s : State) (g id : Nat) (f : Flight),
    let G := s.group g
    let w := s.gwin g
    let live := w.en = true ∧ w.lost = false
    (s.flight? id = some f →
      (∀ data, s.peerDue f = true → (isHbm f.pa || isWindow f.pa) = true → f.peer ≠ s.device →
        let old := data.toNat % 2 ^ (8 * f.size)
        let near := s.keepsCopy f = true
        ∃ s', exec (.fabricRequestAtPeer id data false) s = .next s' ∧ s'.mem = s.mem ∧ (¬near → s'.columns = s.columns) ∧
          (¬near → f.acq = false → s'.cores = s.cores) ∧
          ((f.kind = .load ∨ f.kind = .mmioLoad) → f.pa % 64 + f.size ≤ 64 →
            s'.flight? id = some { f with stage := 1, val := loadExt f.size f.sext (leVal (s.overFar (coreCol f.core) f.peer f.pa (leBytes f.size data.toNat))) }) ∧
          (near → f.pa % 64 + f.size ≤ 64 → ∃ cp, (s'.column (coreCol f.core)).near.head? = some cp ∧ cp.peer = f.peer ∧
            cp.base = f.pa / 64 * 64 ∧ leVal ((cp.data.drop (f.pa % 64)).take f.size) = data.toNat % 2 ^ (8 * f.size)) ∧
          (f.kind = .store → s'.flight? id = some { f with stage := 3 }) ∧
          (f.kind = .nred → s'.flight? id = some { f with stage := 2 }) ∧
          (f.kind = .atom → s'.flight? id = some { f with stage := 2, val := extOld f.ty old }) ∧
          (f.kind = .pf → s'.flights = s.flights.filter (fun x => x.id != id))) ∧
      (∀ data, s.peerDue f = true → (isHbm f.pa || isWindow f.pa) = true → f.peer = s.device →
        let beyond := s.beyondWindow f.pa
        let cls := if beyond then 0x0A else 0x17
        let reason := if beyond then 0x87 else if f.kind = .nred then 0x82 else s.poisonReason f.pa
        let old := memRead s.mem f.pa f.size
        (beyond = true ∨ s.farBad f = true →
          ∃ S : State, { S with fresh := s.fresh, migcnt := s.migcnt, migq := s.migq } = s ∧ exec (.fabricRequestAtPeer id data false) s =
            .next (((if f.kind = .pf then S.dropFlight id
              else if f.kind = .load ∨ f.kind = .mmioLoad then (S.fix id 0).defer f cls reason f.va
              else ((S.land f 0 false).dropFlight id).defer f cls reason f.va).releaseBars f.team).take (s.home f.pa) rankFabric)) ∧
        (beyond = false → s.farBad f = false → s.windowAt f.pa = none → s.inSlice f.pa = true →
          ∃ s', exec (.fabricRequestAtPeer id data false) s = .next s' ∧
            (f.kind = .load → s.keepsCopy f = false → s'.mem = s.mem ∧
              s'.flight? id = some { f with stage := 1, val := loadExt f.size f.sext (leVal (s.overFar (coreCol f.core) f.peer f.pa (memBytes s.mem f.pa f.size))) }) ∧
            (f.kind = .store → s'.mem = memPutBytes s.mem f.pa f.bytes ∧ ∃ x, s'.flight? id = some x ∧ x.stage = 3) ∧
            (f.kind = .nred → s'.mem = memWrite s.mem f.pa f.size (aopNew f.aop f.ty old f.data.toNat 0) ∧
              ∃ x, s'.flight? id = some x ∧ x.stage = 2) ∧
            (f.kind = .atom → s'.mem = (if f.aop = .cas ∧ old ≠ f.cmp.toNat then s.mem
                else memWrite s.mem f.pa f.size (aopNew f.aop f.ty old f.data.toNat f.cmp.toNat)) ∧
              ∃ x, s'.flight? id = some x ∧ x.stage = 2 ∧ x.val = extOld f.ty old))) ∧
      (∀ data refused, s.switchTakes f = true →
        (f.kind = .fbar → exec (.fabricRequestAtPeer id data refused) s =
          .next ((s.modGroup f.peer (fun G => { G with arrived := G.arrived + 1 })).dropFlight id)) ∧
        (f.kind = .fred → exec (.fabricRequestAtPeer id data refused) s = .next (s.modFlight id (fun x => { x with stage := 1 })))) ∧
      (∀ data, s.peerDue f = true → (isHbm f.pa || isWindow f.pa) = false →
        ∃ S : State, { S with fresh := s.fresh, migcnt := s.migcnt, migq := s.migq } = s ∧ exec (.fabricRequestAtPeer id data true) s =
          .next ((if f.kind = .pf then S.dropFlight id
            else if f.kind = .load ∨ f.kind = .mmioLoad then (S.fix id 0).defer f 0x0A 0x89 f.va
            else ((S.land f 0 false).dropFlight id).defer f 0x0A 0x89 f.va).releaseBars f.team)) ∧
      (s.watches f = true →
        let S := s.modFlight id (fun x => { x with swz := x.swz + 1 })
        (f.swz < 2 → exec (.fabricTimerExpiry id) s = .next { S with fstat := setFld s.fstat 0 32 (fld s.fstat 0 32 + 1) }) ∧
        (f.swz = 2 → f.fmode ≠ 0 → ∃ s', exec (.fabricTimerExpiry id) s = .next s' ∧ { s' with fstat := s.fstat, quiesce := s.quiesce } = S ∧
          fld s'.fstat 32 12 = f.peer % 4096 ∧ (s.quiesce.phase = .none → s.quiesce.cause = none → s'.quiesce.cause = some (.peerLoss f.peer)))) ∧
      (∀ m, s.toStamp g = [m] → s.flights.filter (fun x => x.kind == .gst && x.stage == 0 && x.peer == g && x.acc == m) = [f] →
        f.team ∈ s.teams.map (·.1) →
        let x : GStore := { stamp := G.next, off := f.count, size := f.size, data := f.data }
        ∃ s' s1 S, exec (.glazeStamp g) s = .next s' ∧ Landed S f (wordOf G.next) false s1 ∧ S.teams = s.teams ∧ s'.teams = s1.teams ∧
          s'.mem = s.mem ∧ s'.flight? id = some { f with stage := 2, val := wordOf G.next } ∧ (s'.group g).next = (G.next + 1) % 2 ^ 48 ∧
          (s'.group g).buffer.getLast? = some x ∧ ((s'.group g).pending = G.pending ∨ (s'.group g).pending = G.pending ++ [x])) ∧
      (∀ off xs, s.fredSet g off = some (f, xs) → f.team ∈ s.teams.map (·.1) →
        let agree := ∀ x ∈ xs, x.op = f.aop ∧ x.ty = f.ty ∧ x.size = f.size
        let S := (s.modGroup g (fun G => { G with reds := xs.foldl (fun l x => l.erase x) G.reds }))
        (agree → ∃ s' s1 S, exec (.fredComplete g off) s = .next s' ∧ Landed S f (wordOf G.next) false s1 ∧ S.teams = s.teams ∧
          s'.teams = s1.teams ∧ s'.mem = s.mem ∧ s'.flight? id = none ∧ (s'.group g).next = (G.next + 1) % 2 ^ 48 ∧
          (s'.group g).buffer.getLast? = some { stamp := G.next, off := off, size := f.size, data := wordOf (combineReds s.device f xs) }) ∧
        (¬agree → exec (.fredComplete g off) s = .next (((S.dropFlight id).land f 0 false).defer f 0x14 0x85 f.va)))) ∧
    (∀ p, s.flight? id = none → s.readPeer id = some p →
      let n := mapGet 0 id s.timers
      let S := { s with timers := mapPut id (n + 1) s.timers }
      (n < 2 → exec (.fabricTimerExpiry id) s = .next { S with fstat := setFld s.fstat 0 32 (fld s.fstat 0 32 + 1) }) ∧
      (n = 2 → ∃ s', exec (.fabricTimerExpiry id) s = .next s' ∧ { s' with fstat := s.fstat, quiesce := s.quiesce } = S ∧
        fld s'.fstat 32 12 = p % 4096 ∧ (s.quiesce.phase = .none → s.quiesce.cause = none → s'.quiesce.cause = some (.peerLoss p)))) ∧
    (live → (∀ a, G.applying = some a → s.invalOpen a (fun _ => true) = false → ∃ s', exec (.glazeApply g) s = .next s' ∧ s'.mem = s.mem ∧
        s'.teams = s.teams ∧ (s'.gwin g).applied = w.applied + 1 ∧ (s'.group g).applying = none) ∧
      (∀ x, G.applying = none → G.pending.find? (fun x => x.stamp == w.applied + 1) = some x →
        s.portFree (w.base * 2 ^ 16 + x.off) x.size = true →
        isHbm (w.base * 2 ^ 16 + x.off) = true → s.inSlice (w.base * 2 ^ 16 + x.off) = true →
        ∃ s', exec (.glazeApply g) s = .next s' ∧ s'.mem = memWrite s.mem (w.base * 2 ^ 16 + x.off) x.size x.data.toNat ∧ s'.teams = s.teams ∧
          ((s'.gwin g).applied = x.stamp ∧ (s'.group g).applying = none ∨
            (s'.gwin g).applied = w.applied ∧ (s'.group g).applying = some s.nextId)) ∧
      (G.applying = none → w.applied + 1 < G.next → (∀ x ∈ G.pending, x.stamp ≠ w.applied + 1) →
        (∀ x, G.buffer.find? (fun x => x.stamp == w.applied + 1) = some x → exec (.glazeReplayRequest g) s =
          .next (s.modGroup g (fun G => { G with pending := G.pending ++ [x] }))) ∧
        ((∀ x ∈ G.buffer, x.stamp ≠ w.applied + 1) → ∃ s', exec (.glazeReplayRequest g) s = .next s' ∧
          { s' with gwins := s.gwins, quiesce := s.quiesce } = s ∧ s'.gwin g = { w with lost := true } ∧
          (s.quiesce.phase = .none → s.quiesce.cause = none → s'.quiesce.cause = some .lostGroup)))) ∧
    (∀ t c n d, (s.course t c).parked = some [.gwait g n (some d)] → d ≤ s.cycle (s.colOf t) →
      exec (.gwaitTimeout t c) s = .next (s.modCourse t c (fun C => { C with parked := some [.tick] }))) ∧
    (G.arrived ≠ 0 → (∀ d ∈ G.members, mapGet 0 d G.peerArr ≠ 0) → exec (.fbarEpisodeComplete g) s = .next (s.modGroup g (fun G => { G with
      episode := G.episode + 1, arrived := G.arrived - 1, peerArr := G.members.map (fun d => (d, mapGet 0 d G.peerArr - 1)) })))

/-- R391 to R393, R27, R279, R327: a partition quiesce goes through its four phases. That QUIESCE stays pending for a course that is
suspended is the model's choice (notes/assumptions/25). -/
def Obligations.QuiesceEvents : Prop :=
  ∀ (s : State) (cause : QCause) (lost : List Nat), (s.teams.map (·.1)).Nodup →
    (s.quiesce.phase = .none → ∃ q, exec (.quiesceStop cause) s = .next { s with quiesce := q } ∧ q.phase = .stopped ∧ q.cause = none ∧
      q.epoch = (if 65535 ≤ s.quiesce.epoch then 1 else s.quiesce.epoch + 1) ∧ q.pendCk = s.quiesce.pendCk ∧
      match cause with
      | .peerLoss p => q.reason = 1 ∧ q.peer = some (p % 4096)
      | .checkpoint => q.reason = 2 ∧ q.peer = none
      | .lostGroup => q.reason = 3 ∧ q.peer = none) ∧
    (s.quiesce.phase = .stopped → (∀ p ∈ s.teams, p.2.sup = false → p.2.stopped = true) →
      ∃ s', exec .quiesceDrain s = .next s' ∧ s'.quiesce = { s.quiesce with phase := .drained } ∧
        (∀ f ∈ s'.flights, f.kind ≠ .fred) ∧ (∀ g, (s'.group g).reds = [] ∧ (s'.group g).arrived = 0 ∧ (s'.group g).peerArr = [] ∧
          ((∀ off, s.fredSet g off = none) → (s'.group g).next = (s.group g).next) ∧ (s.group g).episode ≤ (s'.group g).episode) ∧
        ∀ q, (s'.core q).coil.queue = [] ∧ (s'.core q).coil.link = [] ∧ (s'.core q).coil.out = none ∧
          (s'.core q).coil.creg = (s.core q).coil.creg ∧ ∀ c ∈ (s'.core q).slips, c.err = true ∧ c.todo = []) ∧
    (s.quiesce.phase = .drained → ∃ s', exec (.quiesceReconfigure lost) s = .next s' ∧ s'.quiesce = { s.quiesce with phase := .reconfigured } ∧
      s'.teams = s.teams ∧ s'.cores = s.cores ∧ ∀ g ∈ s.groups.map (·.1), (s'.group g).members = (s.group g).members.filter (fun d => !lost.contains d) ∧
        ((s.gwin g).en = true → (s'.gwin g).lost = true ∨ (s'.group g).next ≤ (s'.gwin g).applied + 1)) ∧
    (s.quiesce.phase = .reconfigured → ∃ s', exec .quiesceResume s = .next s' ∧ s'.quiesce.phase = .none ∧ s'.mem = s.mem ∧
      fld s'.fstat 48 16 = s.quiesce.epoch % 2 ^ 16 ∧
      ∀ t, (s'.team t).k = (s.team t).k ∧ ((s.team t).sup = true → s'.team t = s.team t) ∧
        ∀ c l, (s.team t).sup = false → (s.lane t c l).cls = .live → l < 32 →
          if (s.course t c).suspended then s'.course t c = s.course t c ∧ (t, c) ∈ s'.quiesce.pendCk
          else (s'.lane t c l).ltcause = 0x15 ∧ (s'.course t c).parked = none ∧ (s'.course t c).coh = none)
/-- R209, R225, R228, R361 to R364, R372, R381, R402, R405: writes of column cores and of the host reach their homes, waits and wakes of a column
core act, and a load of a queue's register takes its oldest record. That PEAK is 0 once PWRNOW is read is the model's choice
(notes/assumptions/49), and so are which register shows the column core a user course's record (notes/assumptions/87) and that a write of
WAITADDR that names no word of memory leaves a pending entry as it is (notes/assumptions/45). -/
def Obligations.ColumnAndHostAccesses : Prop :=
  ∀ (s : State) (col : Nat) (v : Word),
    let k := s.column col
    let word := fun a => wordOf (memRead s.mem a 8)
    let got := fun (off : Nat) (x : Nat) (S : State) =>
      S.modCol col (fun k => { k with reads := mapPut (0xF_8000_0010_0000 + col * 4096 + off) (wordOf x) k.reads })
    (∀ home stream p, s.streamReady home stream = [p] →
      let sent := fun (s' : State) => exec (.homeStreamWrite home stream) s = .next s' ∧ s'.teams = s.teams ∧
        (s'.port = s.port.map (fun q => if q.id = p.id then { q with stage := 1 } else q)) ∧
        (stream ≠ 0x1_0000 → mapGet? stream (s'.column home).nextSeq = some ((p.seq + 1) % 2 ^ 32))
      let here := isHbm p.pa = true ∧ s.windowAt p.pa = none ∧ s.inSlice p.pa = true
      (p.kind = .store → here → ∃ s', sent s' ∧ s'.mem = memWrite s.mem p.pa p.size p.data.toNat) ∧
      (∀ c prio, p.kind = .store → launchAt p.pa p.size p.data = some (c, prio) → ∃ s', sent s' ∧ s'.mem = s.mem ∧
        (s'.column c).launch = mapMod [] prio (· ++ [(p.data.toNat, .supervisor)]) (s.column c).launch) ∧
      (∀ op ty, p.kind = .amo op ty → here → s.poisoned p.pa p.size = false → p.size = tyW ty * tyN ty / 8 → fitsTy op ty = true →
        p.data.toNat < 2 ^ (tyW ty * tyN ty) → p.cmp.toNat < 2 ^ (tyW ty * tyN ty) →
        let old := memRead s.mem p.pa p.size
        ∃ s' new, sent s' ∧ AopIs op ty old p.data.toNat p.cmp.toNat new ∧ s'.mem = memWrite s.mem p.pa p.size new ∧
          mapGet? p.pa (s'.column stream).reads = some (extOld ty old)) ∧
      (p.kind = .sc → here → s.poisoned p.pa p.size = false → ∃ s', sent s' ∧
        if memRead s.mem p.pa p.size = p.cmp.toNat then s'.mem = memWrite s.mem p.pa p.size p.data.toNat ∧
          mapGet? p.pa (s'.column stream).reads = some 0
        else s'.mem = s.mem ∧ mapGet? p.pa (s'.column stream).reads = some 1)) ∧
    (∀ kind pa size, s.boot.stage = 6 → size ∈ [1, 2, 4, 8] → pa % size = 0 → hostReach kind pa = true → ∃ s' p, exec (.hostWrite kind pa size v) s = .next s' ∧
      { s' with port := s.port, columns := s.columns, nextId := s.nextId } = s ∧ s'.port = s.port ++ [p] ∧ p.id = s.nextId ∧ p.pa = pa ∧
      p.size = size ∧ p.data = v ∧ p.kind = .store ∧ p.stage = 0 ∧ p.stream = hostStream kind ∧ p.home = s.portHome pa ∧
      p.seq = mapGet 0 p.stream (s.column p.home).streams) ∧
    (∀ pa size, s.boot.stage = 6 → (∀ p ∈ s.port, p.stream ≠ 0x0100) → size ∈ [1, 2, 4, 8] → pa % size = 0 →
      s.readFree (s.server 0 pa).1 rankHost pa size = true →
      (isHbm pa = true → s.inSlice pa = true → ((s.column (s.home pa)).counter (regionOf pa)).repl = false → s.poisoned pa size = false →
        ∃ s', exec (.hostRead pa size) s = .next s' ∧ s'.mem = s.mem ∧ s'.teams = s.teams ∧
          s'.hreads = mapPut pa (wordOf (memRead s.mem pa size)) s.hreads) ∧
      (∀ c off, size = 8 → ctlPage pa = some (c, off) → exec (.hostRead pa size) s =
        .next (let S := s.regPop c off
          { S with hreads := mapPut pa (wordOf (s.regPeek c off)) s.hreads }))) ∧
    (col < 64 →
      exec (.taskqPop col) s = .next (got 0x060 (k.taskq.head?.getD 0) (s.modCol col (fun k => { k with taskq := k.taskq.drop 1 }))) ∧
      (∀ x r, k.suspq = x :: r → exec (.suspqPop col) s = .next (got 0x070 (2 ^ 63 + x) (s.modCol col (fun k => { k with suspq := r })))) ∧
      (∀ x r, k.suspq = [] → bitN k.duty 2 = true → k.scq = x :: r →
        exec (.suspqPop col) s = .next (got 0x070 (2 ^ 63 + x.handle) (s.modCol col (fun k => { k with scq := r })))) ∧
      (∀ x r, k.raslog = x :: r → exec (.raslogPop col) s =
        .next (got 0x510 (2 ^ 63 + x.unit * 2 ^ 60 + x.kind * 2 ^ 58 + x.loc) (s.modCol col (fun k => { k with raslog := r })))) ∧
      (k.suspq = [] → bitN k.duty 2 = false ∨ k.scq = [] → ∃ s', exec (.suspqPop col) s = .next s' ∧ mapGet? (0xF_8000_0010_0000 + col * 4096 + 0x070) (s'.column col).reads = some 0) ∧
      (k.raslog = [] → ∃ s', exec (.raslogPop col) s = .next s' ∧ mapGet? (0xF_8000_0010_0000 + col * 4096 + 0x510) (s'.column col).reads = some 0) ∧
      (col = 0 → exec .migqPop s = .next (got 0x318 (s.migq.head?.getD 0) { s with migq := s.migq.drop 1 }) ∧
        exec .pwrnowRead s = .next (got 0x608 (s.pwrpeak * 2 ^ 16 + s.pwravg) { s with pwrpeak := 0 })) ∧
      (let a := v.toNat
       let h := s.home a
       let S := s.modCol col (fun k => { k with waitaddr := v })
       (a % 8 ≠ 0 ∨ (isHbm a || isWindow a) = false → exec (.waitaddrWrite col v) s = .next (s.modCol col (fun k => { k with waitres := 0 }))) ∧
       (a % 8 = 0 → isHbm a = true → s.columnEntry col = none →
         (word a ≠ k.waitval ∨ 1024 ≤ (s.column h).waitUse → exec (.waitaddrWrite col v) s =
           .next ((S.modCol col (fun k => { k with waitres := word a })).setInt col 0)) ∧
         (word a = k.waitval → (s.column h).waitUse < 1024 → exec (.waitaddrWrite col v) s = .next (S.modCol h (fun k => { k with
           waits := k.waits ++ [{ pa := a, asid := 0, who := none, col := col, deadline := none }] }))))) ∧
      (let w := v.toNat / 8 * 8
       isHbm w = true → ∃ s', exec (.wakeWrite col v) s = .next s' ∧ s'.mem = s.mem ∧ s'.teams = s.teams ∧ (s'.column col).wake = v ∧
         (∀ e ∈ (s'.column (s.home w)).waits, e.ended = false → e.pa ≠ w) ∧
         ∀ e ∈ (s.column (s.home w)).waits, e.ended = false → e.pa = w →
           (e.who = none → { e with ended := true, val := word w } ∈ (s'.column (s.home w)).waits) ∧
           ∀ j f, e.who = some j → s.flight? j = some f → s'.flight? j = some
             (if s.poisoned w 8 then { f with stage := 5, val := wordOf (s.poisonReason w) } else { f with stage := 4, val := word w })) ∧
      (let node := v.toNat - wfld v 0 1
       (node ∈ k.tasks → ∃ s', exec (.taskdoneWrite col v) s = .next s' ∧ { s' with columns := s.columns, pool := s.pool } = s ∧
         node ∉ (s'.column col).tasks ∧ (s'.column col).taskdone = v ∧ ∀ n, s.poolNode? node = some n → s'.poolNode? node = some { n with
           taskOut := false, retired := n.retired + 1, failed := if wfld v 0 1 = 1 then some 0x30 else n.failed }) ∧
       (node ∉ k.tasks → exec (.taskdoneWrite col v) s =
         .next (s.modCol col (fun k => { k with ldisc := (k.ldisc + 1) % 2 ^ 64 }))))) ∧
    (∀ h e, s.columnEntry col = some (h, e) → e.ended = true → exec (.columnWaitEnd col) s =
      .next (((s.modCol h (fun k => { k with waits := k.waits.filter (fun x => x != e) })).modCol col (fun k => { k with waitres := e.val })).setInt col 0))

/-- R11, R206, R207, R362, R365, R366, R369, R371, R373, R378, R380, R382, R402, R404, R408: what a write of a register of a control page
does; one that is read-only or absent ignores it. Which saves a drain that stops gives up is the model's choice (notes/assumptions/45), and so is
that HNQBASE takes every multiple of 4,096 (notes/assumptions/98). -/
def Obligations.RegisterWrites : Prop :=
  ∀ (s : State) (col n : Nat) (v : Word), col < 64 → n < 64 →
    let k := s.column col
    let wr := fun off => exec (.registerWrite col off v) s
    (∃ s', wr 0x028 = .next s' ∧ { s' with columns := s.columns } = s ∧ (∀ q, q ≠ col → s'.column q = s.column q) ∧
      s'.column col = if bitN k.duty 8 then k else { k with duty := wfld v 0 5 + 2 ^ 8 * wfld v 8 1 }) ∧
    wr 0x030 = .next (s.modCol col (fun k => { k with intstat := k.intstat - (k.intstat &&& wfld v 0 4) })) ∧
    wr 0x038 = .next (let S := s.modCol col (fun k => { k with inten := wfld v 0 4 })
      if ∃ b ∈ List.range 4, bitN k.intstat b = true ∧ bitN k.inten b = false ∧ bitN v.toNat b = true then { S with vectors := s.vectors ++ [col] } else S) ∧
    (∃ s', wr 0x000 = .next s' ∧ { s' with columns := s.columns, nextId := s.nextId } = s ∧
      let r := (s'.column col).repctl
      wfld r 0 1 = wfld v 0 1 ∧ wfld r 16 16 = wfld v 16 16 ∧ wfld r 32 16 = wfld v 32 16 ∧
      wfld r 48 8 = (if 10 ≤ wfld v 48 8 ∧ wfld v 48 8 ≤ 40 then wfld v 48 8 else wfld k.repctl 48 8) ∧
      (wfld v 0 1 = 0 → ∀ c ∈ (s'.column col).counters, c.repl = false)) ∧
    (∃ x, wr 0x010 = .next (s.modCol col (fun k => { k with conectl := x })) ∧ fld x 0 2 = wfld v 0 2 ∧
      fld x 8 24 = (if wfld v 8 8 < wfld v 16 8 ∧ wfld v 16 8 < wfld v 24 8 then wfld v 8 24 else fld k.conectl 8 24)) ∧
    (∃ x, wr 0x500 = .next (s.modCol col (fun k => { k with rasctl := x })) ∧ wfld x 0 1 = wfld v 0 1 ∧
      wfld x 8 8 = (if 20 ≤ wfld v 8 8 ∧ wfld v 8 8 ≤ 40 then wfld v 8 8 else wfld k.rasctl 8 8)) ∧
    wr 0x048 = .next (s.modCol col (fun k => { k with waitval := v })) ∧
    (∀ off ∈ [0x008, 0x018, 0x050, 0x060, 0x070, 0x308, 0x318, 0x320, 0x508, 0x510, 0x518, 0x608, 0x610, 0xF00], wr off = .next s) ∧
    (∀ off ∈ [0x200, 0x208, 0x300, 0x310, 0x600], col ≠ 0 → wr off = .next s) ∧
    (col = 0 → wr 0x200 = .next (if v.toNat % 4096 = 0 then { s with hnqbase := v } else s) ∧
      ∃ x, wr 0x208 = .next { s with hnqctl := x } ∧ wfld x 32 16 = wfld v 32 16 ∧ wfld x 16 16 = wfld s.hnqctl 16 16 ∧
        wfld x 0 16 = (if 16 ≤ wfld v 0 16 ∧ wfld v 0 16 ≤ 4096 then wfld v 0 16 else wfld s.hnqctl 0 16)) ∧
    (col = 0 → wr 0x300 = .next (if wfld v 0 16 = 0 then s else { s with ftimer := wfld v 0 16 }) ∧
      wr 0x310 = .next { s with migctl := wfld v 0 16 } ∧
      wr 0x600 = .next (if 500 ≤ wfld v 0 16 ∧ wfld v 0 16 ≤ 2600 then { s with pwrlim := wfld v 0 16 } else s)) ∧
    (∃ s', exec (.drainreqWrite col v) s = .next s' ∧ { s' with teams := s.teams, cores := s.cores, columns := s.columns } = s ∧
      (s'.column col).drainreq = wfld v 0 12 ∧
      ∀ q, if q / 12 = col ∧ bitN (wfld v 0 12) (q % 12) = false
        then s'.core q = { s.core q with draining := none } else s'.core q = s.core q) ∧
    (n < 16 →
      let a := k.arena n
      let put := fun (x : Arena) => s.modCol col (fun k => { k with arenas := mapPut n x k.arenas })
      let asid := wfld v 48 16
      let size := wfld v 16 24
      (exec (.arenaWrite col n false v) s = .next (if a.en then s else put { a with base := v })) ∧
      (a.en = true → exec (.arenaWrite col n true v) s =
        .next (if wfld v 40 1 = 1 then s else put { base := a.base, asid := asid, en := false, size := size, blocks := [] })) ∧
      (a.en = false → wfld v 40 1 ≠ 1 → exec (.arenaWrite col n true v) s = .next (put { a with asid := asid, size := size })) ∧
      (a.en = false → wfld v 40 1 = 1 →
        let ok := size ≠ 0 ∧ canonical a.base = true ∧ a.base.toNat % 65536 = 0 ∧ ∀ b ∈ s.arenasOn, b.asid = asid →
          a.base.toNat + size * 65536 ≤ b.base.toNat ∨ b.base.toNat + b.size * 65536 ≤ a.base.toNat
        (ok → exec (.arenaWrite col n true v) s = .next (put { base := a.base, asid := asid, en := true, size := size, blocks := [] })) ∧
        (¬ok → exec (.arenaWrite col n true v) s = .next s))) ∧
    (let e := mapGet (0, 0) n s.pinmap
     let en := wfld e.2 40 1 = 1
     let put := fun (x : Word × Word) => { s with pinmap := mapPut n x s.pinmap }
     let lo := wordOf (wfld v 16 36 * 2 ^ 16)
     let hi := fun b => wordOf (wfld v 48 6 * 2 ^ 48 + b * 2 ^ 40 + wfld v 16 24 * 2 ^ 16)
     let base := wfld e.1 16 36 * 65536
     let size := wfld v 16 24 * 65536
     let ok := size ≠ 0 ∧ base + size ≤ 0xE_0000_0000_0000 ∧ ∀ r ∈ s.pinRanges, base + size ≤ r.1 ∨ r.1 + r.2.1 ≤ base
     exec (.pinmapWrite n false v) s = .next (if en then s else put (lo, e.2)) ∧
     (wfld v 40 1 = 0 → exec (.pinmapWrite n true v) s = .next (put (e.1, hi 0))) ∧
     (wfld v 40 1 = 1 → en ∨ ¬ok → exec (.pinmapWrite n true v) s = .next s) ∧
     (wfld v 40 1 = 1 → ¬en → ok → exec (.pinmapWrite n true v) s = .next (put (e.1, hi 1)))) ∧
    (let w := s.gwin n
     let on := wfld v 0 1 = 1
     exec (.gwinWrite n true v) s = .next s ∧
     (w.en = true → on → exec (.gwinWrite n false v) s = .next s) ∧
     (w.en = false → on → ∃ s', exec (.gwinWrite n false v) s = .next s' ∧ { s' with gwins := s.gwins, groups := s.groups } = s ∧
       s'.gwin n = { en := true, lost := false, base := wfld v 16 36, sizem1 := wfld v 52 10, applied := 0 } ∧
       (s'.group n).next = 1 ∧ (s'.group n).pending = [] ∧ (s'.group n).buffer = [] ∧ (s'.group n).members = (s.group n).members) ∧
     (¬on → exec (.gwinWrite n false v) s = .next (s.modGwin n (fun w => { w with en := false, base := wfld v 16 36, sizem1 := wfld v 52 10 }))))

/-- R17, R366, R367, R395 to R402, R404, R405, R407: bring-up, the governor, the power manager, errors and the management endpoint. What
a power-on reset of a running device keeps is the model's choice (notes/assumptions/1), and so are the two failures that come from outside
(notes/assumptions/21), the functions that digest, verify and sign, what each stage's digest covers (notes/assumptions/22), that DUTY is written 0x100 in every column, and that an error is
logged as transient where classification is stopped (notes/assumptions/59). -/
def Obligations.PackageEvents : Prop :=
  ∀ (s : State) (col : Nat),
    let k := s.column col
    (let fresh := fun (s' : State) => s'.teams = [] ∧ s'.flights = [] ∧ s'.cores = State.reset.cores ∧ s'.quiesce = State.reset.quiesce;
      let key := byteNums s.flash.key
      let signed := Config.digest key = s.fuseKey ∧ Config.verify key s.flash.manifest (byteNums s.flash.signature) = true
      let keyOk := signed ∧ s.fuseSvn ≤ s.flash.svn
      let sound := fun (is : List Image) => ∀ i ∈ is, Config.digest (byteNums i.bytes) = i.digest
      let stops := fun (f : Option (Nat × Nat)) (st e : Nat) => ∃ s', exec (.powerOnReset f) s = .next s' ∧
        s'.boot.stage = st - 1 ∧ s'.boot.error = e ∧ s'.boot.measures.length = st - 1 ∧ s.fuseSvn ≤ s'.fuseSvn ∧ fresh s' ∧ (st ≤ 4 → s'.mem = s.mem)
      (keyOk → sound s.flash.firmware → sound s.flash.images →
        (∃ s', exec (.powerOnReset none) s = .next s' ∧ s'.boot.stage = 6 ∧ s'.boot.error = 0 ∧ s'.boot.svn = s.fuseSvn % 2 ^ 16 ∧
          s.fuseSvn ≤ s'.fuseSvn ∧ s'.boot.measures.length = 6 ∧ fresh s' ∧
          (∀ a, isWindow a = false → (∀ i ∈ s.flash.images, a < i.base ∨ i.base + i.bytes.length ≤ a) → memByte s'.mem a = 0 ∧ a ∉ s'.poison) ∧
          (∀ i, s.flash.images = [i] → isHbm (i.base + i.bytes.length) = true → memBytes s'.mem i.base i.bytes.length = i.bytes) ∧
          (∀ a, isWindow a = true → memByte s'.mem a = memByte s.mem a) ∧
          ∀ c, c < 64 → (s'.column c).duty = 0x100 ∧ (s'.column c).service.isSome = (s.column c).serviceSlot.isSome ∧
            (s'.column c).handler.isSome = (s.column c).serviceSlot.isSome) ∧
        ∀ st e, (st, e) ∈ [(1, 1), (4, 5)] → stops (some (st, e)) st e) ∧
      (¬signed → stops none 2 2) ∧
      (signed → s.flash.svn < s.fuseSvn → stops none 2 3) ∧
      (keyOk → ¬sound s.flash.firmware → stops none 3 4) ∧
      (keyOk → sound s.flash.firmware → ¬sound s.flash.images → stops none 5 6)) ∧
    (∀ temp droop, col < 64 → fld k.conectl 0 2 = 0 → k.pfloor = 0 →
      let t := min temp 255
      let st := fld k.cone 0 2
      let next := if fld k.conectl 24 8 ≤ t then 3 else if fld k.conectl 16 8 ≤ t ∨ droop = true then min 3 (st + 1)
        else if t < fld k.conectl 8 8 ∧ k.coneCnt = 0 then st - 1 else st
      ∃ s', exec (.coneEvaluation col temp droop) s = .next s' ∧ s'.mem = s.mem ∧ fld (s'.column col).cone 24 8 = t ∧
        fld (s'.column col).cone 0 2 = next ∧
        (next = st → s'.teams = s.teams ∧ fld (s'.column col).cone 32 32 = fld k.cone 32 32 ∧ (s'.column col).coneCnt = k.coneCnt - 1) ∧
        (next ≠ st → fld (s'.column col).cone 32 32 = (fld k.cone 32 32 + 1) % 2 ^ 32 ∧ bitN (s'.column col).intstat 3 = true ∧
          bitN (s'.column col).cone 3 = (next < st) ∧ (st < next → (s'.column col).coneCnt = 16))) ∧
    (∀ avg, avg < 2 ^ 16 → ∃ s', exec (.powerManagerTick avg) s = .next s' ∧ s'.pwravg = avg ∧ s'.pwrpeak = max s.pwrpeak avg ∧
      { s' with pwravg := s.pwravg, pwrpeak := s.pwrpeak, columns := s.columns } = s ∧
      (s.pwrlim < avg → ∀ c, s.hottest = some c → (s'.column c).pfloor = (s.column c).pfloor + 1) ∧
      (10 * avg < 9 * s.pwrlim → ∀ c, s.coolest = some c → (s'.column c).pfloor = (s.column c).pfloor - 1) ∧
      (9 * s.pwrlim ≤ 10 * avg → avg ≤ s.pwrlim → s'.columns = s.columns)) ∧
    (∀ unit loc, col < 64 → unit ≤ 5 →
      let at_ := if unit < 2 then loc % 2 ^ 52 else fld loc 42 10 * 2 ^ 42 + fld loc 0 20
      let logged := fun (s' : State) kind => let r : RasRec := ⟨kind, unit, at_, s.cycle col⟩
        (s'.column col).raslog = (k.raslog.filter (fun x => !r.before x) ++ r :: k.raslog.filter r.before).take 64
      (∃ s' kind, exec (.correctedError col unit loc) s = .next s' ∧ { s' with columns := s.columns } = s ∧ (∀ q, q ≠ col → s'.column q = s.column q) ∧
        wfld (s'.column col).rasstat 0 32 = (wfld k.rasstat 0 32 + 1) % 2 ^ 32 ∧
        wfld (s'.column col).rasstat 48 16 = wfld k.rasstat 48 16 ∧ kind ≤ 1 ∧ logged s' kind ∧
        (kind = 1 ↔ wfld k.rasctl 0 1 = 1 ∧ ∃ t, k.lastAt unit at_ = some t ∧ s.cycle col - t < 2 ^ wfld k.rasctl 8 8) ∧
        (kind = 0 → wfld (s'.column col).rasstat 32 16 = wfld k.rasstat 32 16) ∧
        (kind = 1 → wfld (s'.column col).rasstat 32 16 = min (2 ^ 16 - 1) (wfld k.rasstat 32 16 + 1))) ∧
      ∃ s', exec (.uncorrectableError col unit loc) s = .next s' ∧ s'.mem = s.mem ∧ s'.flights = s.flights ∧ logged s' 2 ∧
        wfld (s'.column col).rasstat 48 16 = min (2 ^ 16 - 1) (wfld k.rasstat 48 16 + 1) ∧
        wfld (s'.column col).rasstat 0 32 = wfld k.rasstat 0 32 ∧
        (unit ≤ 1 → s.portMem (loc / 8 * 8) = true → loc / 8 * 8 ∈ s'.poison) ∧
        (unit = 2 → fld loc 0 20 / 8 * 8 ∈ (s'.core (fld loc 42 10)).bpoison) ∧
        (unit = 3 → fld loc 0 20 / 8 * 8 ∈ (s'.core (fld loc 42 10)).apoison)) ∧
    (∀ nonce, s.boot.stage ≠ 0 ∨ s.boot.error ≠ 0 →
      let body := s.flash.cert :: s.boot.measures ++ [s.boot.svn * 2 ^ 32 + s.boot.error * 2 ^ 8 + s.boot.stage, nonce % 2 ^ 256]
      let S := { s with boot := { s.boot with report := body ++ [Config.sign s.boot.key body] } }
      exec (.measurementReport nonce) s = .next S ∧ exec (.managementRequest (.report nonce)) s = .next S) ∧
    (∀ off, s.boot.stage ≠ 0 ∨ s.boot.error ≠ 0 → col < 64 →
      off ∈ [0x008, 0x508, 0x510, 0x518] ∨ col = 0 ∧ off ∈ [0x308, 0x608, 0x610] → s.port = [] → exec (.managementRequest (.read col off)) s =
      .next (let S := s.regPop col off
        { S with mreads := mapPut (0xF_8000_0010_0000 + col * 4096 + off) (wordOf (s.regPeek col off)) s.mreads })) ∧
    (∀ off v, s.boot.stage ≠ 0 ∨ s.boot.error ≠ 0 → col < 64 → off ∈ [0x020, 0x500] ∨ col = 0 ∧ off = 0x600 → ∃ s' p, exec (.managementRequest (.write col off v)) s = .next s' ∧
      s'.mem = s.mem ∧ s'.port = s.port ++ [p] ∧ p.id = s.nextId ∧ p.stream = 0 ∧ p.size = 8 ∧ p.data = v ∧ p.kind = .store ∧
      p.pa = 0xF_8000_0010_0000 + col * 4096 + off) ∧
    ∀ n, exec (.deviceNumberSet n) s = .next { s with device := n % 4096 }

/-- R12 with R207, R353, R366, R378, R381, R397, R402, R404, R405: what the registers hold after power-on reset where the spec gives the value,
as a read of a control page finds it; no team is resident, and memory has its canonical form. -/
def Obligations.ResetValues : Prop :=
  let s := State.reset
  let rd := fun col off => s.regPeek col off
  MemOk s ∧ s.teams = [] ∧ s.flights = [] ∧ s.device = 0 ∧ s.pool = [] ∧
  (rd 0 0x610 = 0 ∧ rd 0 0x300 = 50 ∧ rd 0 0x308 = 0 ∧ rd 0 0x310 = 1024 ∧ rd 0 0x318 = 0 ∧ rd 0 0x320 = 0 ∧ rd 0 0x600 = 2600 ∧ rd 0 0x608 = 0) ∧
  (∀ col, col < 64 →
    rd col 0x000 = 20 * 2 ^ 48 + 256 * 2 ^ 32 + 16 * 2 ^ 16 + 1 ∧ rd col 0x010 = 105 * 2 ^ 24 + 95 * 2 ^ 16 + 85 * 2 ^ 8 ∧
    rd col 0x500 = 30 * 2 ^ 8 + 1 ∧ rd col 0x508 = 0 ∧ rd col 0x510 = 0 ∧ fld (rd col 0x008) 32 32 = 0 ∧ fld (rd col 0x008) 0 6 = 0 ∧
    (s.column col).pfloor = 0) ∧
  (∀ q, q < 768 → (s.core q).drainlim = 0x0020_0000 ∧ (s.core q).parklim = 0x0040_0000)

/-- The words of 02, 03, 04, 05, 06, 07, 08, 09, 10, 11 and 13 that the spec writes out are read as the instructions they stand for, and a
word of all ones and a reserved SCOPE are refused (R53, R214). -/
def Obligations.SpecWordsDecode : Prop :=
  let sv := fun x : Opnd => (⟨x, false, false⟩ : Src)
  let ops := fun d a b c : Opnd => (⟨⟨none, false⟩, d, sv a, sv b, sv c, 0⟩ : Ops)
  decode 0x0018_2008_0200_C004 = .ok (.btl (ops (.k 0) (.k 0) (.k 0) .none) 3 false) ∧
  decode 0x0048_0000_0002_C048 = .ok (.srd (ops (.v 1) .none .none .none) 9) ∧
  decode 0x0090_0060_200A_C100 = .ok (.fadd (ops (.v 5) (.v 4) (.v 3) .none) ⟨.f32x2, .rne, false⟩) ∧
  decode (0x0010_2140_3000_C1CD + 2 ^ 64 * 0xC000_0100) = .ok (.stl (ops .none (.v 6) (.k 10) (.k 0)) ⟨.n32, 0, false, -1024⟩) ∧
  decode 0x01B0_0000_0000_C240 = .ok (.fence (ops .none .none .none .none) true true true .dev) ∧
  decode (0x6720_0060_1008_C281 + 2 ^ 64 * 0x4000_0005) = .ok (.atom (ops (.v 4) (.v 2) (.v 3) (.v 5)) .cas .n64 ⟨true, false⟩ .dev 0) ∧
  decode 0x0000_0008_6012_C2D4 = .ok (.rwait (ops (.v 9) (.k 12) .none .none)) ∧
  decode 0x0000_0018_3812_C300 = .ok (.wcfg (ops (.v 9) (.imm 7) .none .none)) ∧
  decode 0x0040_0000_0000_C340 = .ok (.cdef (ops .none .none .none .none) ⟨.addmul, .affine⟩ 0) ∧
  decode 0x0010_0000_400A_C369 = .ok (.nlaunch (ops (.v 5) (.v 8) .none .none) 2 false) ∧
  decode (0x0018_21E1_4854_C381 + 2 ^ 64 * 0x28) = .ok (.gst (ops (.v 42) (.v 41) (.k 15) (.v 40)) .n64 0) ∧
  decode 0xFFFF_FFFF_FFFF_FFFF = .error 0x01 ∧ decode (10 * 2 ^ 51 + 48 * 2 ^ 10 + 0x90 * 2 ^ 2) = .error 0x0B

/-- R36, R38, R50, R53, R54, R72: a step performs the one thing chosen among those that can happen (notes/assumptions/5 says that the choice
is free); where that is the issue of a sequencer, it is exec of the instruction that the bytes at the PC decode to, with the course in
focus and its cohort at the instruction's address and successor; a word that decodes to nothing faults every lane of the cohort, and so
does one beyond the 24 of a batch or a transfer that no trailer follows. That a transfer runs where the line of its successor cannot be
looked at is the model's choice (notes/assumptions/65). -/
def Obligations.StepRunsDecoded : Prop :=
  ∀ s : State,
    (s.later.chosen = none → step s = .next s.later) ∧
    (∀ i, s.later.chosen = some (.event i) → i ∈ s.later.due ∧ step s = exec i s.later) ∧
    (∀ i, s.later.chosen = some (.input (.event i)) → step s = exec i { s.later with inputs := s.later.inputs.drop 1, focus := none }) ∧
    ∀ core q t c h w g, s.later.chosen = some (.issue core q) → s.later.pick core q = some (t, c) →
      let fresh := (s.later.course t c).coh.isNone
      let A := (s.later.takeTurn core q (t, c)).setRunning core q (t, c) fresh
      let S := if fresh then A.beginBatch t c else A
      let line := lineOf h.pc
      let word := fld w (64 + 32 * g) (32 * instLen w g)
      let op := fld word 2 8
      let succ := (S.successor t line w g).1
      let succIn := (S.successor t line w g).2
      (S.course t c).coh = some h → h.succIn = false → S.fetch t c line = .line w → lineReason w = none → granuleOf h.pc = some g →
      bitN (lineStart w) g = true →
      (∀ i, decode word = .ok i → (supOnly op = true → (S.team t).sup = true) → (op = 0x01 ∨ h.issued < 24) →
        (op ∉ [0x02, 0x03, 0x04, 0x05, 0x06, 0x07, 0x0A, 0x14, 0x15] ∨ S.opAt t succ succIn = none ∨ S.opAt t succ succIn = some (some 0x04)) →
        ∃ link, step s = exec i (S.standAt t c h.pc succ succIn link) ∧
          (S.standAt t c h.pc succ succIn link).focus = some (t, c) ∧
          ∀ w' j, S.peekLine t (lineOf succ) = some w' → granuleOf succ = some j → link = (S.successor t (lineOf succ) w' j).1) ∧
      (∀ i x, decode word = .ok i → (supOnly op = true → (S.team t).sup = true) → op ≠ 0x01 →
        24 ≤ h.issued ∨ (op ∈ [0x02, 0x03, 0x04, 0x05, 0x06, 0x07, 0x0A, 0x14, 0x15] ∧ S.opAt t succ succIn = some x ∧ x ≠ some 0x04) →
        step s = .next ((S.endFetch t c).deliver t c (h.lanes.map (fun l => (l, { cls := 0x01, reason := 0x04 }))) h.pc h.pc false h.issued)) ∧
      (∀ n, decodeHead word = .error n →
        step s = .next ((S.endFetch t c).deliver t c (h.lanes.map (fun l => (l, { cls := 0x01, reason := n }))) h.pc h.pc false h.issued))

/-- R40 to R52 with the opcode map: every well-formed instruction has a word, and that word decodes to it, with every operand, modifier and
immediate at every value that the encoding admits. -/
def Obligations.EncodeThenDecode : Prop :=
  ∀ i : Instr, WellFormed i → ∃ w, encode i = some w ∧ decode w = .ok i

/-- Every step keeps memory in its one canonical form: addresses rise strictly, and no listed byte is the one that an unlisted address
reads as (notes/assumptions/9 says what those are). -/
def Obligations.StepsKeepMemoryForm : Prop :=
  ∀ s s' : State, MemOk s → step s = .next s' → MemOk s'

end Statements
end

