-- ==== Sys2Proof/Laws/Memory.lean ====
section
/-! SUPPORT. Laws of the sparse tables and of memory: read after write, the canonical form, and byte order. -/

namespace Sys2Proof.Machine

/-! ### Tables -/

section Maps
variable {α : Type}

theorem mapGet?_mapPut_same (k : Nat) (v : α) (m : List (Nat × α)) : mapGet? k (mapPut k v m) = some v := by
  induction m with
  | nil => simp [mapPut, mapGet?]
  | cons p r ih =>
    obtain ⟨j, w⟩ := p
    simp only [mapPut]
    split
    · simp [mapGet?]
    · split
      · simp [mapGet?]
      · simp [mapGet?, *]

theorem mapGet?_mapPut_ne {j k : Nat} (h : j ≠ k) (v : α) (m : List (Nat × α)) :
    mapGet? j (mapPut k v m) = mapGet? j m := by
  induction m with
  | nil => simp [mapPut, mapGet?, h.symm]
  | cons p r ih =>
    obtain ⟨i, w⟩ := p
    simp only [mapPut]
    split
    · subst_vars; simp [mapGet?, h.symm]
    · split
      · simp [mapGet?, h.symm]
      · simp only [mapGet?, ih]

theorem mapGet_mapPut_same (d : α) (k : Nat) (v : α) (m : List (Nat × α)) : mapGet d k (mapPut k v m) = v := by
  simp [mapGet, mapGet?_mapPut_same]

theorem mapGet_mapPut_ne (d : α) {j k : Nat} (h : j ≠ k) (v : α) (m : List (Nat × α)) :
    mapGet d j (mapPut k v m) = mapGet d j m := by
  simp [mapGet, mapGet?_mapPut_ne h]

theorem mapGet_mapMod_same (d : α) (k : Nat) (f : α → α) (m : List (Nat × α)) :
    mapGet d k (mapMod d k f m) = f (mapGet d k m) := mapGet_mapPut_same ..

theorem mapGet_mapMod_ne (d : α) {j k : Nat} (h : j ≠ k) (f : α → α) (m : List (Nat × α)) :
    mapGet d j (mapMod d k f m) = mapGet d j m := mapGet_mapPut_ne d h ..

theorem mapGet?_mapDel_same (k : Nat) (m : List (Nat × α)) : mapGet? k (mapDel k m) = none := by
  induction m with
  | nil => rfl
  | cons p r ih =>
    obtain ⟨j, w⟩ := p
    by_cases hj : j = k
    · subst hj; simpa [mapDel, mapGet?] using ih
    · simpa [mapDel, mapGet?, hj] using ih

theorem mapGet?_mapDel_ne {j k : Nat} (h : j ≠ k) (m : List (Nat × α)) : mapGet? j (mapDel k m) = mapGet? j m := by
  induction m with
  | nil => rfl
  | cons p r ih =>
    obtain ⟨i, w⟩ := p
    by_cases hi : i = k
    · subst hi; simpa [mapDel, mapGet?, h.symm] using ih
    · have : mapDel k ((i, w) :: r) = (i, w) :: mapDel k r := by simp [mapDel, hi]
      rw [this]; simp only [mapGet?, ih]

theorem mapGet?_mem {k : Nat} {v : α} {m : List (Nat × α)} (h : mapGet? k m = some v) : (k, v) ∈ m := by
  induction m with
  | nil => simp [mapGet?] at h
  | cons p r ih =>
    obtain ⟨j, w⟩ := p
    simp only [mapGet?] at h
    split at h
    · simp_all
    · simp [ih h]

end Maps

/-! ### The canonical form of memory -/

theorem risingFrom_iff (m : List Host.Cell) : risingFrom m = true ↔ m.Pairwise (fun x y => x.1 < y.1) := by
  induction m with
  | nil => simp [risingFrom]
  | cons x r ih =>
    cases r with
    | nil => simp [risingFrom]
    | cons y r =>
      simp only [risingFrom, Bool.and_eq_true, decide_eq_true_eq, ih, List.pairwise_cons, List.mem_cons, forall_eq_or_imp]
      exact ⟨fun ⟨h1, h2, h3⟩ => ⟨⟨h1, fun z hz => h1.trans (h2 z hz)⟩, h2, h3⟩, fun ⟨⟨h1, _⟩, h2⟩ => ⟨h1, h2⟩⟩

theorem wf_iff (m : List Host.Cell) :
    Memory.wf m = true ↔ m.Pairwise (fun x y => x.1 < y.1) ∧ ∀ c ∈ m, c.2 ≠ unlisted c.1 := by
  simp [Memory.wf, risingFrom_iff]

theorem wf_nil : Memory.wf [] = true := rfl

/-- Leaving cells out keeps the form. -/
theorem wf_filter (p : Host.Cell → Bool) {m : List Host.Cell} (h : Memory.wf m = true) : Memory.wf (m.filter p) = true := by
  rw [wf_iff] at *
  exact ⟨h.1.filter p, fun c hc => h.2 c (List.mem_of_mem_filter hc)⟩

theorem mem_mapPut {k : Nat} {v : Byte} {m : List Host.Cell} {c : Host.Cell} (h : c ∈ mapPut k v m) : c = (k, v) ∨ c ∈ m := by
  induction m with
  | nil => simpa [mapPut] using h
  | cons p r ih =>
    obtain ⟨j, w⟩ := p
    simp only [mapPut] at h
    split at h
    · simp at h; tauto
    · split at h
      · simpa only [List.mem_cons] using h
      · simp only [List.mem_cons] at h ⊢
        rcases h with h | h
        · exact .inr (.inl h)
        · rcases ih h with h | h
          · exact .inl h
          · exact .inr (.inr h)

theorem pairwise_mapPut (k : Nat) (v : Byte) {m : List Host.Cell} (h : m.Pairwise (fun x y => x.1 < y.1)) :
    (mapPut k v m).Pairwise (fun x y => x.1 < y.1) := by
  induction m with
  | nil => simp [mapPut]
  | cons p r ih =>
    obtain ⟨j, w⟩ := p
    rw [List.pairwise_cons] at h
    simp only [mapPut]
    split
    · subst_vars; exact List.pairwise_cons.mpr ⟨h.1, h.2⟩
    · split
      · next hkj =>
        refine List.pairwise_cons.mpr ⟨?_, List.pairwise_cons.mpr h⟩
        intro a ha
        rcases List.mem_cons.mp ha with rfl | ha
        · exact hkj
        · exact hkj.trans (h.1 a ha)
      · next hne hlt =>
        refine List.pairwise_cons.mpr ⟨?_, ih h.2⟩
        intro a ha
        rcases mem_mapPut ha with rfl | ha
        · simp only; omega
        · exact h.1 a ha

/-- Writing a byte keeps the form. -/
theorem wf_memPut (a : Nat) (b : Byte) {m : List Host.Cell} (h : Memory.wf m = true) : Memory.wf (memPut m a b) = true := by
  unfold memPut
  split
  · exact wf_filter _ h
  · next hb =>
    rw [wf_iff] at *
    refine ⟨pairwise_mapPut a b h.1, fun c hc => ?_⟩
    rcases mem_mapPut hc with rfl | hc
    · exact hb
    · exact h.2 c hc

theorem wf_memPutBytes (a : Nat) (bs : List Byte) {m : List Host.Cell} (h : Memory.wf m = true) :
    Memory.wf (memPutBytes m a bs) = true := by
  induction bs generalizing a m with
  | nil => exact h
  | cons b r ih => exact ih (a + 1) (wf_memPut a b h)

theorem wf_memWrite (a n v : Nat) {m : List Host.Cell} (h : Memory.wf m = true) : Memory.wf (memWrite m a n v) = true :=
  wf_memPutBytes a _ h

/-- Writing single bytes from a list keeps the form. -/
theorem wf_foldl_memPut (bs : List (Nat × Byte)) {m : List Host.Cell} (h : Memory.wf m = true) :
    Memory.wf (bs.foldl (fun m (p : Nat × Byte) => memPut m p.1 p.2) m) = true := by
  induction bs generalizing m with
  | nil => exact h
  | cons p r ih => exact ih (wf_memPut p.1 p.2 h)

/-! ### Read after write -/

theorem memByte_memPut_same (m : List Host.Cell) (a : Nat) (b : Byte) : memByte (memPut m a b) a = b := by
  unfold memByte memPut
  split
  · simp [mapGet?_mapDel_same, *]
  · simp [mapGet?_mapPut_same]

theorem memByte_memPut_ne (m : List Host.Cell) {x a : Nat} (h : x ≠ a) (b : Byte) : memByte (memPut m a b) x = memByte m x := by
  unfold memByte memPut
  split
  · simp [mapGet?_mapDel_ne h]
  · simp [mapGet?_mapPut_ne h]

/-- A write leaves every byte outside it alone. -/
theorem memByte_memPutBytes_out (m : List Host.Cell) (a : Nat) (bs : List Byte) {x : Nat} (h : x < a ∨ a + bs.length ≤ x) :
    memByte (memPutBytes m a bs) x = memByte m x := by
  induction bs generalizing a m with
  | nil => rfl
  | cons b r ih =>
    simp only [List.length_cons] at h
    rw [memPutBytes, ih _ (a + 1) (by omega), memByte_memPut_ne m (by omega)]

/-- A byte written is read back. -/
theorem memByte_memPutBytes_in (m : List Host.Cell) (a : Nat) (bs : List Byte) {i : Nat} (h : i < bs.length) :
    memByte (memPutBytes m a bs) (a + i) = bs[i] := by
  induction bs generalizing a m i with
  | nil => simp at h
  | cons b r ih =>
    cases i with
    | zero => simp only [memPutBytes, Nat.add_zero, List.getElem_cons_zero]
              rw [memByte_memPutBytes_out _ _ _ (by omega), memByte_memPut_same]
    | succ i =>
      have := ih (memPut m a b) (a + 1) (i := i) (by simpa using h)
      simpa [memPutBytes, Nat.add_assoc, Nat.add_comm 1 i] using this

theorem length_leBytes (n x : Nat) : (leBytes n x).length = n := by
  induction n generalizing x with
  | zero => rfl
  | succ n ih => simp [leBytes, ih]

theorem leVal_leBytes (n x : Nat) : leVal (leBytes n x) = x % 256 ^ n := by
  induction n generalizing x with
  | zero => simp [leBytes, leVal, Nat.mod_one]
  | succ n ih =>
    rw [leBytes, leVal, ih, Nat.pow_succ, Nat.mul_comm (256 ^ n) 256, Nat.mod_mul]
    simp

theorem memBytes_memPutBytes (m : List Host.Cell) (a : Nat) (bs : List Byte) :
    memBytes (memPutBytes m a bs) a bs.length = bs := by
  apply List.ext_getElem
  · simp [memBytes]
  · intro i h1 h2
    simp [memBytes, memByte_memPutBytes_in m a bs h2]

/-- A value written in `n` bytes is read back modulo 2^(8n) (R6). -/
theorem memRead_memWrite (m : List Host.Cell) (a n v : Nat) : memRead (memWrite m a n v) a n = v % 256 ^ n := by
  have := memBytes_memPutBytes m a (leBytes n v)
  rw [length_leBytes] at this
  rw [memRead, memWrite, this, leVal_leBytes]

end Sys2Proof.Machine
end

