-- ==== Sys2Proof/Laws/State.lean ====
section
/-! SUPPORT. One lemma for each field and each update of the state, so that no proof unfolds a record update. -/

namespace Sys2Proof.Machine


/-! ### A team -/

@[simp] theorem State.modTeam_tick (s : State) (t : Nat) (f : Team → Team) : (s.modTeam t f).tick = s.tick := by unfold State.modTeam; split <;> rfl
@[simp] theorem State.modTeam_nextId (s : State) (t : Nat) (f : Team → Team) : (s.modTeam t f).nextId = s.nextId := by unfold State.modTeam; split <;> rfl
@[simp] theorem State.modTeam_fresh (s : State) (t : Nat) (f : Team → Team) : (s.modTeam t f).fresh = s.fresh := by unfold State.modTeam; split <;> rfl
@[simp] theorem State.modTeam_focus (s : State) (t : Nat) (f : Team → Team) : (s.modTeam t f).focus = s.focus := by unfold State.modTeam; split <;> rfl
@[simp] theorem State.modTeam_inputs (s : State) (t : Nat) (f : Team → Team) : (s.modTeam t f).inputs = s.inputs := by unfold State.modTeam; split <;> rfl
@[simp] theorem State.modTeam_mem (s : State) (t : Nat) (f : Team → Team) : (s.modTeam t f).mem = s.mem := by unfold State.modTeam; split <;> rfl
@[simp] theorem State.modTeam_poison (s : State) (t : Nat) (f : Team → Team) : (s.modTeam t f).poison = s.poison := by unfold State.modTeam; split <;> rfl
@[simp] theorem State.modTeam_cores (s : State) (t : Nat) (f : Team → Team) : (s.modTeam t f).cores = s.cores := by unfold State.modTeam; split <;> rfl
@[simp] theorem State.modTeam_columns (s : State) (t : Nat) (f : Team → Team) : (s.modTeam t f).columns = s.columns := by unfold State.modTeam; split <;> rfl
@[simp] theorem State.modTeam_flights (s : State) (t : Nat) (f : Team → Team) : (s.modTeam t f).flights = s.flights := by unfold State.modTeam; split <;> rfl
@[simp] theorem State.modTeam_pinmap (s : State) (t : Nat) (f : Team → Team) : (s.modTeam t f).pinmap = s.pinmap := by unfold State.modTeam; split <;> rfl
@[simp] theorem State.modTeam_pool (s : State) (t : Nat) (f : Team → Team) : (s.modTeam t f).pool = s.pool := by unfold State.modTeam; split <;> rfl
@[simp] theorem State.modTeam_preds (s : State) (t : Nat) (f : Team → Team) : (s.modTeam t f).preds = s.preds := by unfold State.modTeam; split <;> rfl
@[simp] theorem State.modTeam_visits (s : State) (t : Nat) (f : Team → Team) : (s.modTeam t f).visits = s.visits := by unfold State.modTeam; split <;> rfl
@[simp] theorem State.modTeam_device (s : State) (t : Nat) (f : Team → Team) : (s.modTeam t f).device = s.device := by unfold State.modTeam; split <;> rfl
@[simp] theorem State.modTeam_boot (s : State) (t : Nat) (f : Team → Team) : (s.modTeam t f).boot = s.boot := by unfold State.modTeam; split <;> rfl
@[simp] theorem State.modTeam_gwins (s : State) (t : Nat) (f : Team → Team) : (s.modTeam t f).gwins = s.gwins := by unfold State.modTeam; split <;> rfl
@[simp] theorem State.modTeam_groups (s : State) (t : Nat) (f : Team → Team) : (s.modTeam t f).groups = s.groups := by unfold State.modTeam; split <;> rfl
@[simp] theorem State.modTeam_quiesce (s : State) (t : Nat) (f : Team → Team) : (s.modTeam t f).quiesce = s.quiesce := by unfold State.modTeam; split <;> rfl
@[simp] theorem State.modTeam_port (s : State) (t : Nat) (f : Team → Team) : (s.modTeam t f).port = s.port := by unfold State.modTeam; split <;> rfl
@[simp] theorem State.modTeam_hreads (s : State) (t : Nat) (f : Team → Team) : (s.modTeam t f).hreads = s.hreads := by unfold State.modTeam; split <;> rfl
@[simp] theorem State.modTeam_mreads (s : State) (t : Nat) (f : Team → Team) : (s.modTeam t f).mreads = s.mreads := by unfold State.modTeam; split <;> rfl
@[simp] theorem State.modTeam_stalls (s : State) (t : Nat) (f : Team → Team) : (s.modTeam t f).stalls = s.stalls := by unfold State.modTeam; split <;> rfl
@[simp] theorem State.modTeam_timers (s : State) (t : Nat) (f : Team → Team) : (s.modTeam t f).timers = s.timers := by unfold State.modTeam; split <;> rfl
@[simp] theorem State.modTeam_ftimer (s : State) (t : Nat) (f : Team → Team) : (s.modTeam t f).ftimer = s.ftimer := by unfold State.modTeam; split <;> rfl
@[simp] theorem State.modTeam_fstat (s : State) (t : Nat) (f : Team → Team) : (s.modTeam t f).fstat = s.fstat := by unfold State.modTeam; split <;> rfl
@[simp] theorem State.modTeam_migctl (s : State) (t : Nat) (f : Team → Team) : (s.modTeam t f).migctl = s.migctl := by unfold State.modTeam; split <;> rfl
@[simp] theorem State.modTeam_migq (s : State) (t : Nat) (f : Team → Team) : (s.modTeam t f).migq = s.migq := by unfold State.modTeam; split <;> rfl
@[simp] theorem State.modTeam_migcnt (s : State) (t : Nat) (f : Team → Team) : (s.modTeam t f).migcnt = s.migcnt := by unfold State.modTeam; split <;> rfl
@[simp] theorem State.modTeam_gdisc (s : State) (t : Nat) (f : Team → Team) : (s.modTeam t f).gdisc = s.gdisc := by unfold State.modTeam; split <;> rfl
@[simp] theorem State.modTeam_hnqbase (s : State) (t : Nat) (f : Team → Team) : (s.modTeam t f).hnqbase = s.hnqbase := by unfold State.modTeam; split <;> rfl
@[simp] theorem State.modTeam_hnqctl (s : State) (t : Nat) (f : Team → Team) : (s.modTeam t f).hnqctl = s.hnqctl := by unfold State.modTeam; split <;> rfl
@[simp] theorem State.modTeam_notes (s : State) (t : Nat) (f : Team → Team) : (s.modTeam t f).notes = s.notes := by unfold State.modTeam; split <;> rfl
@[simp] theorem State.modTeam_vectors (s : State) (t : Nat) (f : Team → Team) : (s.modTeam t f).vectors = s.vectors := by unfold State.modTeam; split <;> rfl
@[simp] theorem State.modTeam_pwrlim (s : State) (t : Nat) (f : Team → Team) : (s.modTeam t f).pwrlim = s.pwrlim := by unfold State.modTeam; split <;> rfl
@[simp] theorem State.modTeam_pwrpeak (s : State) (t : Nat) (f : Team → Team) : (s.modTeam t f).pwrpeak = s.pwrpeak := by unfold State.modTeam; split <;> rfl
@[simp] theorem State.modTeam_pwravg (s : State) (t : Nat) (f : Team → Team) : (s.modTeam t f).pwravg = s.pwravg := by unfold State.modTeam; split <;> rfl
@[simp] theorem State.modTeam_fuseSvn (s : State) (t : Nat) (f : Team → Team) : (s.modTeam t f).fuseSvn = s.fuseSvn := by unfold State.modTeam; split <;> rfl
@[simp] theorem State.modTeam_fuseKey (s : State) (t : Nat) (f : Team → Team) : (s.modTeam t f).fuseKey = s.fuseKey := by unfold State.modTeam; split <;> rfl
@[simp] theorem State.modTeam_fuseSeed (s : State) (t : Nat) (f : Team → Team) : (s.modTeam t f).fuseSeed = s.fuseSeed := by unfold State.modTeam; split <;> rfl
@[simp] theorem State.modTeam_flash (s : State) (t : Nat) (f : Team → Team) : (s.modTeam t f).flash = s.flash := by unfold State.modTeam; split <;> rfl

/-! ### A core -/

@[simp] theorem State.modCore_tick (s : State) (c : Nat) (f : Core → Core) : (s.modCore c f).tick = s.tick := rfl
@[simp] theorem State.modCore_nextId (s : State) (c : Nat) (f : Core → Core) : (s.modCore c f).nextId = s.nextId := rfl
@[simp] theorem State.modCore_fresh (s : State) (c : Nat) (f : Core → Core) : (s.modCore c f).fresh = s.fresh := rfl
@[simp] theorem State.modCore_focus (s : State) (c : Nat) (f : Core → Core) : (s.modCore c f).focus = s.focus := rfl
@[simp] theorem State.modCore_inputs (s : State) (c : Nat) (f : Core → Core) : (s.modCore c f).inputs = s.inputs := rfl
@[simp] theorem State.modCore_mem (s : State) (c : Nat) (f : Core → Core) : (s.modCore c f).mem = s.mem := rfl
@[simp] theorem State.modCore_poison (s : State) (c : Nat) (f : Core → Core) : (s.modCore c f).poison = s.poison := rfl
@[simp] theorem State.modCore_teams (s : State) (c : Nat) (f : Core → Core) : (s.modCore c f).teams = s.teams := rfl
@[simp] theorem State.modCore_columns (s : State) (c : Nat) (f : Core → Core) : (s.modCore c f).columns = s.columns := rfl
@[simp] theorem State.modCore_flights (s : State) (c : Nat) (f : Core → Core) : (s.modCore c f).flights = s.flights := rfl
@[simp] theorem State.modCore_pinmap (s : State) (c : Nat) (f : Core → Core) : (s.modCore c f).pinmap = s.pinmap := rfl
@[simp] theorem State.modCore_pool (s : State) (c : Nat) (f : Core → Core) : (s.modCore c f).pool = s.pool := rfl
@[simp] theorem State.modCore_preds (s : State) (c : Nat) (f : Core → Core) : (s.modCore c f).preds = s.preds := rfl
@[simp] theorem State.modCore_visits (s : State) (c : Nat) (f : Core → Core) : (s.modCore c f).visits = s.visits := rfl
@[simp] theorem State.modCore_device (s : State) (c : Nat) (f : Core → Core) : (s.modCore c f).device = s.device := rfl
@[simp] theorem State.modCore_boot (s : State) (c : Nat) (f : Core → Core) : (s.modCore c f).boot = s.boot := rfl
@[simp] theorem State.modCore_gwins (s : State) (c : Nat) (f : Core → Core) : (s.modCore c f).gwins = s.gwins := rfl
@[simp] theorem State.modCore_groups (s : State) (c : Nat) (f : Core → Core) : (s.modCore c f).groups = s.groups := rfl
@[simp] theorem State.modCore_quiesce (s : State) (c : Nat) (f : Core → Core) : (s.modCore c f).quiesce = s.quiesce := rfl
@[simp] theorem State.modCore_port (s : State) (c : Nat) (f : Core → Core) : (s.modCore c f).port = s.port := rfl
@[simp] theorem State.modCore_hreads (s : State) (c : Nat) (f : Core → Core) : (s.modCore c f).hreads = s.hreads := rfl
@[simp] theorem State.modCore_mreads (s : State) (c : Nat) (f : Core → Core) : (s.modCore c f).mreads = s.mreads := rfl
@[simp] theorem State.modCore_stalls (s : State) (c : Nat) (f : Core → Core) : (s.modCore c f).stalls = s.stalls := rfl
@[simp] theorem State.modCore_timers (s : State) (c : Nat) (f : Core → Core) : (s.modCore c f).timers = s.timers := rfl
@[simp] theorem State.modCore_ftimer (s : State) (c : Nat) (f : Core → Core) : (s.modCore c f).ftimer = s.ftimer := rfl
@[simp] theorem State.modCore_fstat (s : State) (c : Nat) (f : Core → Core) : (s.modCore c f).fstat = s.fstat := rfl
@[simp] theorem State.modCore_migctl (s : State) (c : Nat) (f : Core → Core) : (s.modCore c f).migctl = s.migctl := rfl
@[simp] theorem State.modCore_migq (s : State) (c : Nat) (f : Core → Core) : (s.modCore c f).migq = s.migq := rfl
@[simp] theorem State.modCore_migcnt (s : State) (c : Nat) (f : Core → Core) : (s.modCore c f).migcnt = s.migcnt := rfl
@[simp] theorem State.modCore_gdisc (s : State) (c : Nat) (f : Core → Core) : (s.modCore c f).gdisc = s.gdisc := rfl
@[simp] theorem State.modCore_hnqbase (s : State) (c : Nat) (f : Core → Core) : (s.modCore c f).hnqbase = s.hnqbase := rfl
@[simp] theorem State.modCore_hnqctl (s : State) (c : Nat) (f : Core → Core) : (s.modCore c f).hnqctl = s.hnqctl := rfl
@[simp] theorem State.modCore_notes (s : State) (c : Nat) (f : Core → Core) : (s.modCore c f).notes = s.notes := rfl
@[simp] theorem State.modCore_vectors (s : State) (c : Nat) (f : Core → Core) : (s.modCore c f).vectors = s.vectors := rfl
@[simp] theorem State.modCore_pwrlim (s : State) (c : Nat) (f : Core → Core) : (s.modCore c f).pwrlim = s.pwrlim := rfl
@[simp] theorem State.modCore_pwrpeak (s : State) (c : Nat) (f : Core → Core) : (s.modCore c f).pwrpeak = s.pwrpeak := rfl
@[simp] theorem State.modCore_pwravg (s : State) (c : Nat) (f : Core → Core) : (s.modCore c f).pwravg = s.pwravg := rfl
@[simp] theorem State.modCore_fuseSvn (s : State) (c : Nat) (f : Core → Core) : (s.modCore c f).fuseSvn = s.fuseSvn := rfl
@[simp] theorem State.modCore_fuseKey (s : State) (c : Nat) (f : Core → Core) : (s.modCore c f).fuseKey = s.fuseKey := rfl
@[simp] theorem State.modCore_fuseSeed (s : State) (c : Nat) (f : Core → Core) : (s.modCore c f).fuseSeed = s.fuseSeed := rfl
@[simp] theorem State.modCore_flash (s : State) (c : Nat) (f : Core → Core) : (s.modCore c f).flash = s.flash := rfl

/-! ### A column -/

@[simp] theorem State.modCol_tick (s : State) (c : Nat) (f : Column → Column) : (s.modCol c f).tick = s.tick := rfl
@[simp] theorem State.modCol_nextId (s : State) (c : Nat) (f : Column → Column) : (s.modCol c f).nextId = s.nextId := rfl
@[simp] theorem State.modCol_fresh (s : State) (c : Nat) (f : Column → Column) : (s.modCol c f).fresh = s.fresh := rfl
@[simp] theorem State.modCol_focus (s : State) (c : Nat) (f : Column → Column) : (s.modCol c f).focus = s.focus := rfl
@[simp] theorem State.modCol_inputs (s : State) (c : Nat) (f : Column → Column) : (s.modCol c f).inputs = s.inputs := rfl
@[simp] theorem State.modCol_mem (s : State) (c : Nat) (f : Column → Column) : (s.modCol c f).mem = s.mem := rfl
@[simp] theorem State.modCol_poison (s : State) (c : Nat) (f : Column → Column) : (s.modCol c f).poison = s.poison := rfl
@[simp] theorem State.modCol_teams (s : State) (c : Nat) (f : Column → Column) : (s.modCol c f).teams = s.teams := rfl
@[simp] theorem State.modCol_cores (s : State) (c : Nat) (f : Column → Column) : (s.modCol c f).cores = s.cores := rfl
@[simp] theorem State.modCol_flights (s : State) (c : Nat) (f : Column → Column) : (s.modCol c f).flights = s.flights := rfl
@[simp] theorem State.modCol_pinmap (s : State) (c : Nat) (f : Column → Column) : (s.modCol c f).pinmap = s.pinmap := rfl
@[simp] theorem State.modCol_pool (s : State) (c : Nat) (f : Column → Column) : (s.modCol c f).pool = s.pool := rfl
@[simp] theorem State.modCol_preds (s : State) (c : Nat) (f : Column → Column) : (s.modCol c f).preds = s.preds := rfl
@[simp] theorem State.modCol_visits (s : State) (c : Nat) (f : Column → Column) : (s.modCol c f).visits = s.visits := rfl
@[simp] theorem State.modCol_device (s : State) (c : Nat) (f : Column → Column) : (s.modCol c f).device = s.device := rfl
@[simp] theorem State.modCol_boot (s : State) (c : Nat) (f : Column → Column) : (s.modCol c f).boot = s.boot := rfl
@[simp] theorem State.modCol_gwins (s : State) (c : Nat) (f : Column → Column) : (s.modCol c f).gwins = s.gwins := rfl
@[simp] theorem State.modCol_groups (s : State) (c : Nat) (f : Column → Column) : (s.modCol c f).groups = s.groups := rfl
@[simp] theorem State.modCol_quiesce (s : State) (c : Nat) (f : Column → Column) : (s.modCol c f).quiesce = s.quiesce := rfl
@[simp] theorem State.modCol_port (s : State) (c : Nat) (f : Column → Column) : (s.modCol c f).port = s.port := rfl
@[simp] theorem State.modCol_hreads (s : State) (c : Nat) (f : Column → Column) : (s.modCol c f).hreads = s.hreads := rfl
@[simp] theorem State.modCol_mreads (s : State) (c : Nat) (f : Column → Column) : (s.modCol c f).mreads = s.mreads := rfl
@[simp] theorem State.modCol_stalls (s : State) (c : Nat) (f : Column → Column) : (s.modCol c f).stalls = s.stalls := rfl
@[simp] theorem State.modCol_timers (s : State) (c : Nat) (f : Column → Column) : (s.modCol c f).timers = s.timers := rfl
@[simp] theorem State.modCol_ftimer (s : State) (c : Nat) (f : Column → Column) : (s.modCol c f).ftimer = s.ftimer := rfl
@[simp] theorem State.modCol_fstat (s : State) (c : Nat) (f : Column → Column) : (s.modCol c f).fstat = s.fstat := rfl
@[simp] theorem State.modCol_migctl (s : State) (c : Nat) (f : Column → Column) : (s.modCol c f).migctl = s.migctl := rfl
@[simp] theorem State.modCol_migq (s : State) (c : Nat) (f : Column → Column) : (s.modCol c f).migq = s.migq := rfl
@[simp] theorem State.modCol_migcnt (s : State) (c : Nat) (f : Column → Column) : (s.modCol c f).migcnt = s.migcnt := rfl
@[simp] theorem State.modCol_gdisc (s : State) (c : Nat) (f : Column → Column) : (s.modCol c f).gdisc = s.gdisc := rfl
@[simp] theorem State.modCol_hnqbase (s : State) (c : Nat) (f : Column → Column) : (s.modCol c f).hnqbase = s.hnqbase := rfl
@[simp] theorem State.modCol_hnqctl (s : State) (c : Nat) (f : Column → Column) : (s.modCol c f).hnqctl = s.hnqctl := rfl
@[simp] theorem State.modCol_notes (s : State) (c : Nat) (f : Column → Column) : (s.modCol c f).notes = s.notes := rfl
@[simp] theorem State.modCol_vectors (s : State) (c : Nat) (f : Column → Column) : (s.modCol c f).vectors = s.vectors := rfl
@[simp] theorem State.modCol_pwrlim (s : State) (c : Nat) (f : Column → Column) : (s.modCol c f).pwrlim = s.pwrlim := rfl
@[simp] theorem State.modCol_pwrpeak (s : State) (c : Nat) (f : Column → Column) : (s.modCol c f).pwrpeak = s.pwrpeak := rfl
@[simp] theorem State.modCol_pwravg (s : State) (c : Nat) (f : Column → Column) : (s.modCol c f).pwravg = s.pwravg := rfl
@[simp] theorem State.modCol_fuseSvn (s : State) (c : Nat) (f : Column → Column) : (s.modCol c f).fuseSvn = s.fuseSvn := rfl
@[simp] theorem State.modCol_fuseKey (s : State) (c : Nat) (f : Column → Column) : (s.modCol c f).fuseKey = s.fuseKey := rfl
@[simp] theorem State.modCol_fuseSeed (s : State) (c : Nat) (f : Column → Column) : (s.modCol c f).fuseSeed = s.fuseSeed := rfl
@[simp] theorem State.modCol_flash (s : State) (c : Nat) (f : Column → Column) : (s.modCol c f).flash = s.flash := rfl

/-! ### A course -/

@[simp] theorem State.modCourse_tick (s : State) (t c : Nat) (f : Course → Course) : (s.modCourse t c f).tick = s.tick := State.modTeam_tick ..
@[simp] theorem State.modCourse_nextId (s : State) (t c : Nat) (f : Course → Course) : (s.modCourse t c f).nextId = s.nextId := State.modTeam_nextId ..
@[simp] theorem State.modCourse_fresh (s : State) (t c : Nat) (f : Course → Course) : (s.modCourse t c f).fresh = s.fresh := State.modTeam_fresh ..
@[simp] theorem State.modCourse_focus (s : State) (t c : Nat) (f : Course → Course) : (s.modCourse t c f).focus = s.focus := State.modTeam_focus ..
@[simp] theorem State.modCourse_inputs (s : State) (t c : Nat) (f : Course → Course) : (s.modCourse t c f).inputs = s.inputs := State.modTeam_inputs ..
@[simp] theorem State.modCourse_mem (s : State) (t c : Nat) (f : Course → Course) : (s.modCourse t c f).mem = s.mem := State.modTeam_mem ..
@[simp] theorem State.modCourse_poison (s : State) (t c : Nat) (f : Course → Course) : (s.modCourse t c f).poison = s.poison := State.modTeam_poison ..
@[simp] theorem State.modCourse_cores (s : State) (t c : Nat) (f : Course → Course) : (s.modCourse t c f).cores = s.cores := State.modTeam_cores ..
@[simp] theorem State.modCourse_columns (s : State) (t c : Nat) (f : Course → Course) : (s.modCourse t c f).columns = s.columns := State.modTeam_columns ..
@[simp] theorem State.modCourse_flights (s : State) (t c : Nat) (f : Course → Course) : (s.modCourse t c f).flights = s.flights := State.modTeam_flights ..
@[simp] theorem State.modCourse_pinmap (s : State) (t c : Nat) (f : Course → Course) : (s.modCourse t c f).pinmap = s.pinmap := State.modTeam_pinmap ..
@[simp] theorem State.modCourse_pool (s : State) (t c : Nat) (f : Course → Course) : (s.modCourse t c f).pool = s.pool := State.modTeam_pool ..
@[simp] theorem State.modCourse_preds (s : State) (t c : Nat) (f : Course → Course) : (s.modCourse t c f).preds = s.preds := State.modTeam_preds ..
@[simp] theorem State.modCourse_visits (s : State) (t c : Nat) (f : Course → Course) : (s.modCourse t c f).visits = s.visits := State.modTeam_visits ..
@[simp] theorem State.modCourse_device (s : State) (t c : Nat) (f : Course → Course) : (s.modCourse t c f).device = s.device := State.modTeam_device ..
@[simp] theorem State.modCourse_boot (s : State) (t c : Nat) (f : Course → Course) : (s.modCourse t c f).boot = s.boot := State.modTeam_boot ..
@[simp] theorem State.modCourse_gwins (s : State) (t c : Nat) (f : Course → Course) : (s.modCourse t c f).gwins = s.gwins := State.modTeam_gwins ..
@[simp] theorem State.modCourse_groups (s : State) (t c : Nat) (f : Course → Course) : (s.modCourse t c f).groups = s.groups := State.modTeam_groups ..
@[simp] theorem State.modCourse_quiesce (s : State) (t c : Nat) (f : Course → Course) : (s.modCourse t c f).quiesce = s.quiesce := State.modTeam_quiesce ..
@[simp] theorem State.modCourse_port (s : State) (t c : Nat) (f : Course → Course) : (s.modCourse t c f).port = s.port := State.modTeam_port ..
@[simp] theorem State.modCourse_hreads (s : State) (t c : Nat) (f : Course → Course) : (s.modCourse t c f).hreads = s.hreads := State.modTeam_hreads ..
@[simp] theorem State.modCourse_mreads (s : State) (t c : Nat) (f : Course → Course) : (s.modCourse t c f).mreads = s.mreads := State.modTeam_mreads ..
@[simp] theorem State.modCourse_stalls (s : State) (t c : Nat) (f : Course → Course) : (s.modCourse t c f).stalls = s.stalls := State.modTeam_stalls ..
@[simp] theorem State.modCourse_timers (s : State) (t c : Nat) (f : Course → Course) : (s.modCourse t c f).timers = s.timers := State.modTeam_timers ..
@[simp] theorem State.modCourse_ftimer (s : State) (t c : Nat) (f : Course → Course) : (s.modCourse t c f).ftimer = s.ftimer := State.modTeam_ftimer ..
@[simp] theorem State.modCourse_fstat (s : State) (t c : Nat) (f : Course → Course) : (s.modCourse t c f).fstat = s.fstat := State.modTeam_fstat ..
@[simp] theorem State.modCourse_migctl (s : State) (t c : Nat) (f : Course → Course) : (s.modCourse t c f).migctl = s.migctl := State.modTeam_migctl ..
@[simp] theorem State.modCourse_migq (s : State) (t c : Nat) (f : Course → Course) : (s.modCourse t c f).migq = s.migq := State.modTeam_migq ..
@[simp] theorem State.modCourse_migcnt (s : State) (t c : Nat) (f : Course → Course) : (s.modCourse t c f).migcnt = s.migcnt := State.modTeam_migcnt ..
@[simp] theorem State.modCourse_gdisc (s : State) (t c : Nat) (f : Course → Course) : (s.modCourse t c f).gdisc = s.gdisc := State.modTeam_gdisc ..
@[simp] theorem State.modCourse_hnqbase (s : State) (t c : Nat) (f : Course → Course) : (s.modCourse t c f).hnqbase = s.hnqbase := State.modTeam_hnqbase ..
@[simp] theorem State.modCourse_hnqctl (s : State) (t c : Nat) (f : Course → Course) : (s.modCourse t c f).hnqctl = s.hnqctl := State.modTeam_hnqctl ..
@[simp] theorem State.modCourse_notes (s : State) (t c : Nat) (f : Course → Course) : (s.modCourse t c f).notes = s.notes := State.modTeam_notes ..
@[simp] theorem State.modCourse_vectors (s : State) (t c : Nat) (f : Course → Course) : (s.modCourse t c f).vectors = s.vectors := State.modTeam_vectors ..
@[simp] theorem State.modCourse_pwrlim (s : State) (t c : Nat) (f : Course → Course) : (s.modCourse t c f).pwrlim = s.pwrlim := State.modTeam_pwrlim ..
@[simp] theorem State.modCourse_pwrpeak (s : State) (t c : Nat) (f : Course → Course) : (s.modCourse t c f).pwrpeak = s.pwrpeak := State.modTeam_pwrpeak ..
@[simp] theorem State.modCourse_pwravg (s : State) (t c : Nat) (f : Course → Course) : (s.modCourse t c f).pwravg = s.pwravg := State.modTeam_pwravg ..
@[simp] theorem State.modCourse_fuseSvn (s : State) (t c : Nat) (f : Course → Course) : (s.modCourse t c f).fuseSvn = s.fuseSvn := State.modTeam_fuseSvn ..
@[simp] theorem State.modCourse_fuseKey (s : State) (t c : Nat) (f : Course → Course) : (s.modCourse t c f).fuseKey = s.fuseKey := State.modTeam_fuseKey ..
@[simp] theorem State.modCourse_fuseSeed (s : State) (t c : Nat) (f : Course → Course) : (s.modCourse t c f).fuseSeed = s.fuseSeed := State.modTeam_fuseSeed ..
@[simp] theorem State.modCourse_flash (s : State) (t c : Nat) (f : Course → Course) : (s.modCourse t c f).flash = s.flash := State.modTeam_flash ..

/-! ### A lane -/

@[simp] theorem State.modLane_tick (s : State) (t c l : Nat) (f : Lane → Lane) : (s.modLane t c l f).tick = s.tick := State.modTeam_tick ..
@[simp] theorem State.modLane_nextId (s : State) (t c l : Nat) (f : Lane → Lane) : (s.modLane t c l f).nextId = s.nextId := State.modTeam_nextId ..
@[simp] theorem State.modLane_fresh (s : State) (t c l : Nat) (f : Lane → Lane) : (s.modLane t c l f).fresh = s.fresh := State.modTeam_fresh ..
@[simp] theorem State.modLane_focus (s : State) (t c l : Nat) (f : Lane → Lane) : (s.modLane t c l f).focus = s.focus := State.modTeam_focus ..
@[simp] theorem State.modLane_inputs (s : State) (t c l : Nat) (f : Lane → Lane) : (s.modLane t c l f).inputs = s.inputs := State.modTeam_inputs ..
@[simp] theorem State.modLane_mem (s : State) (t c l : Nat) (f : Lane → Lane) : (s.modLane t c l f).mem = s.mem := State.modTeam_mem ..
@[simp] theorem State.modLane_poison (s : State) (t c l : Nat) (f : Lane → Lane) : (s.modLane t c l f).poison = s.poison := State.modTeam_poison ..
@[simp] theorem State.modLane_cores (s : State) (t c l : Nat) (f : Lane → Lane) : (s.modLane t c l f).cores = s.cores := State.modTeam_cores ..
@[simp] theorem State.modLane_columns (s : State) (t c l : Nat) (f : Lane → Lane) : (s.modLane t c l f).columns = s.columns := State.modTeam_columns ..
@[simp] theorem State.modLane_flights (s : State) (t c l : Nat) (f : Lane → Lane) : (s.modLane t c l f).flights = s.flights := State.modTeam_flights ..
@[simp] theorem State.modLane_pinmap (s : State) (t c l : Nat) (f : Lane → Lane) : (s.modLane t c l f).pinmap = s.pinmap := State.modTeam_pinmap ..
@[simp] theorem State.modLane_pool (s : State) (t c l : Nat) (f : Lane → Lane) : (s.modLane t c l f).pool = s.pool := State.modTeam_pool ..
@[simp] theorem State.modLane_preds (s : State) (t c l : Nat) (f : Lane → Lane) : (s.modLane t c l f).preds = s.preds := State.modTeam_preds ..
@[simp] theorem State.modLane_visits (s : State) (t c l : Nat) (f : Lane → Lane) : (s.modLane t c l f).visits = s.visits := State.modTeam_visits ..
@[simp] theorem State.modLane_device (s : State) (t c l : Nat) (f : Lane → Lane) : (s.modLane t c l f).device = s.device := State.modTeam_device ..
@[simp] theorem State.modLane_boot (s : State) (t c l : Nat) (f : Lane → Lane) : (s.modLane t c l f).boot = s.boot := State.modTeam_boot ..
@[simp] theorem State.modLane_gwins (s : State) (t c l : Nat) (f : Lane → Lane) : (s.modLane t c l f).gwins = s.gwins := State.modTeam_gwins ..
@[simp] theorem State.modLane_groups (s : State) (t c l : Nat) (f : Lane → Lane) : (s.modLane t c l f).groups = s.groups := State.modTeam_groups ..
@[simp] theorem State.modLane_quiesce (s : State) (t c l : Nat) (f : Lane → Lane) : (s.modLane t c l f).quiesce = s.quiesce := State.modTeam_quiesce ..
@[simp] theorem State.modLane_port (s : State) (t c l : Nat) (f : Lane → Lane) : (s.modLane t c l f).port = s.port := State.modTeam_port ..
@[simp] theorem State.modLane_hreads (s : State) (t c l : Nat) (f : Lane → Lane) : (s.modLane t c l f).hreads = s.hreads := State.modTeam_hreads ..
@[simp] theorem State.modLane_mreads (s : State) (t c l : Nat) (f : Lane → Lane) : (s.modLane t c l f).mreads = s.mreads := State.modTeam_mreads ..
@[simp] theorem State.modLane_stalls (s : State) (t c l : Nat) (f : Lane → Lane) : (s.modLane t c l f).stalls = s.stalls := State.modTeam_stalls ..
@[simp] theorem State.modLane_timers (s : State) (t c l : Nat) (f : Lane → Lane) : (s.modLane t c l f).timers = s.timers := State.modTeam_timers ..
@[simp] theorem State.modLane_ftimer (s : State) (t c l : Nat) (f : Lane → Lane) : (s.modLane t c l f).ftimer = s.ftimer := State.modTeam_ftimer ..
@[simp] theorem State.modLane_fstat (s : State) (t c l : Nat) (f : Lane → Lane) : (s.modLane t c l f).fstat = s.fstat := State.modTeam_fstat ..
@[simp] theorem State.modLane_migctl (s : State) (t c l : Nat) (f : Lane → Lane) : (s.modLane t c l f).migctl = s.migctl := State.modTeam_migctl ..
@[simp] theorem State.modLane_migq (s : State) (t c l : Nat) (f : Lane → Lane) : (s.modLane t c l f).migq = s.migq := State.modTeam_migq ..
@[simp] theorem State.modLane_migcnt (s : State) (t c l : Nat) (f : Lane → Lane) : (s.modLane t c l f).migcnt = s.migcnt := State.modTeam_migcnt ..
@[simp] theorem State.modLane_gdisc (s : State) (t c l : Nat) (f : Lane → Lane) : (s.modLane t c l f).gdisc = s.gdisc := State.modTeam_gdisc ..
@[simp] theorem State.modLane_hnqbase (s : State) (t c l : Nat) (f : Lane → Lane) : (s.modLane t c l f).hnqbase = s.hnqbase := State.modTeam_hnqbase ..
@[simp] theorem State.modLane_hnqctl (s : State) (t c l : Nat) (f : Lane → Lane) : (s.modLane t c l f).hnqctl = s.hnqctl := State.modTeam_hnqctl ..
@[simp] theorem State.modLane_notes (s : State) (t c l : Nat) (f : Lane → Lane) : (s.modLane t c l f).notes = s.notes := State.modTeam_notes ..
@[simp] theorem State.modLane_vectors (s : State) (t c l : Nat) (f : Lane → Lane) : (s.modLane t c l f).vectors = s.vectors := State.modTeam_vectors ..
@[simp] theorem State.modLane_pwrlim (s : State) (t c l : Nat) (f : Lane → Lane) : (s.modLane t c l f).pwrlim = s.pwrlim := State.modTeam_pwrlim ..
@[simp] theorem State.modLane_pwrpeak (s : State) (t c l : Nat) (f : Lane → Lane) : (s.modLane t c l f).pwrpeak = s.pwrpeak := State.modTeam_pwrpeak ..
@[simp] theorem State.modLane_pwravg (s : State) (t c l : Nat) (f : Lane → Lane) : (s.modLane t c l f).pwravg = s.pwravg := State.modTeam_pwravg ..
@[simp] theorem State.modLane_fuseSvn (s : State) (t c l : Nat) (f : Lane → Lane) : (s.modLane t c l f).fuseSvn = s.fuseSvn := State.modTeam_fuseSvn ..
@[simp] theorem State.modLane_fuseKey (s : State) (t c l : Nat) (f : Lane → Lane) : (s.modLane t c l f).fuseKey = s.fuseKey := State.modTeam_fuseKey ..
@[simp] theorem State.modLane_fuseSeed (s : State) (t c l : Nat) (f : Lane → Lane) : (s.modLane t c l f).fuseSeed = s.fuseSeed := State.modTeam_fuseSeed ..
@[simp] theorem State.modLane_flash (s : State) (t c l : Nat) (f : Lane → Lane) : (s.modLane t c l f).flash = s.flash := State.modTeam_flash ..

/-! ### An access in flight -/

@[simp] theorem State.modFlight_tick (s : State) (id : Nat) (f : Flight → Flight) : (s.modFlight id f).tick = s.tick := rfl
@[simp] theorem State.modFlight_nextId (s : State) (id : Nat) (f : Flight → Flight) : (s.modFlight id f).nextId = s.nextId := rfl
@[simp] theorem State.modFlight_fresh (s : State) (id : Nat) (f : Flight → Flight) : (s.modFlight id f).fresh = s.fresh := rfl
@[simp] theorem State.modFlight_focus (s : State) (id : Nat) (f : Flight → Flight) : (s.modFlight id f).focus = s.focus := rfl
@[simp] theorem State.modFlight_inputs (s : State) (id : Nat) (f : Flight → Flight) : (s.modFlight id f).inputs = s.inputs := rfl
@[simp] theorem State.modFlight_mem (s : State) (id : Nat) (f : Flight → Flight) : (s.modFlight id f).mem = s.mem := rfl
@[simp] theorem State.modFlight_poison (s : State) (id : Nat) (f : Flight → Flight) : (s.modFlight id f).poison = s.poison := rfl
@[simp] theorem State.modFlight_teams (s : State) (id : Nat) (f : Flight → Flight) : (s.modFlight id f).teams = s.teams := rfl
@[simp] theorem State.modFlight_cores (s : State) (id : Nat) (f : Flight → Flight) : (s.modFlight id f).cores = s.cores := rfl
@[simp] theorem State.modFlight_columns (s : State) (id : Nat) (f : Flight → Flight) : (s.modFlight id f).columns = s.columns := rfl
@[simp] theorem State.modFlight_pinmap (s : State) (id : Nat) (f : Flight → Flight) : (s.modFlight id f).pinmap = s.pinmap := rfl
@[simp] theorem State.modFlight_pool (s : State) (id : Nat) (f : Flight → Flight) : (s.modFlight id f).pool = s.pool := rfl
@[simp] theorem State.modFlight_preds (s : State) (id : Nat) (f : Flight → Flight) : (s.modFlight id f).preds = s.preds := rfl
@[simp] theorem State.modFlight_visits (s : State) (id : Nat) (f : Flight → Flight) : (s.modFlight id f).visits = s.visits := rfl
@[simp] theorem State.modFlight_device (s : State) (id : Nat) (f : Flight → Flight) : (s.modFlight id f).device = s.device := rfl
@[simp] theorem State.modFlight_boot (s : State) (id : Nat) (f : Flight → Flight) : (s.modFlight id f).boot = s.boot := rfl
@[simp] theorem State.modFlight_gwins (s : State) (id : Nat) (f : Flight → Flight) : (s.modFlight id f).gwins = s.gwins := rfl
@[simp] theorem State.modFlight_groups (s : State) (id : Nat) (f : Flight → Flight) : (s.modFlight id f).groups = s.groups := rfl
@[simp] theorem State.modFlight_quiesce (s : State) (id : Nat) (f : Flight → Flight) : (s.modFlight id f).quiesce = s.quiesce := rfl
@[simp] theorem State.modFlight_port (s : State) (id : Nat) (f : Flight → Flight) : (s.modFlight id f).port = s.port := rfl
@[simp] theorem State.modFlight_hreads (s : State) (id : Nat) (f : Flight → Flight) : (s.modFlight id f).hreads = s.hreads := rfl
@[simp] theorem State.modFlight_mreads (s : State) (id : Nat) (f : Flight → Flight) : (s.modFlight id f).mreads = s.mreads := rfl
@[simp] theorem State.modFlight_stalls (s : State) (id : Nat) (f : Flight → Flight) : (s.modFlight id f).stalls = s.stalls := rfl
@[simp] theorem State.modFlight_timers (s : State) (id : Nat) (f : Flight → Flight) : (s.modFlight id f).timers = s.timers := rfl
@[simp] theorem State.modFlight_ftimer (s : State) (id : Nat) (f : Flight → Flight) : (s.modFlight id f).ftimer = s.ftimer := rfl
@[simp] theorem State.modFlight_fstat (s : State) (id : Nat) (f : Flight → Flight) : (s.modFlight id f).fstat = s.fstat := rfl
@[simp] theorem State.modFlight_migctl (s : State) (id : Nat) (f : Flight → Flight) : (s.modFlight id f).migctl = s.migctl := rfl
@[simp] theorem State.modFlight_migq (s : State) (id : Nat) (f : Flight → Flight) : (s.modFlight id f).migq = s.migq := rfl
@[simp] theorem State.modFlight_migcnt (s : State) (id : Nat) (f : Flight → Flight) : (s.modFlight id f).migcnt = s.migcnt := rfl
@[simp] theorem State.modFlight_gdisc (s : State) (id : Nat) (f : Flight → Flight) : (s.modFlight id f).gdisc = s.gdisc := rfl
@[simp] theorem State.modFlight_hnqbase (s : State) (id : Nat) (f : Flight → Flight) : (s.modFlight id f).hnqbase = s.hnqbase := rfl
@[simp] theorem State.modFlight_hnqctl (s : State) (id : Nat) (f : Flight → Flight) : (s.modFlight id f).hnqctl = s.hnqctl := rfl
@[simp] theorem State.modFlight_notes (s : State) (id : Nat) (f : Flight → Flight) : (s.modFlight id f).notes = s.notes := rfl
@[simp] theorem State.modFlight_vectors (s : State) (id : Nat) (f : Flight → Flight) : (s.modFlight id f).vectors = s.vectors := rfl
@[simp] theorem State.modFlight_pwrlim (s : State) (id : Nat) (f : Flight → Flight) : (s.modFlight id f).pwrlim = s.pwrlim := rfl
@[simp] theorem State.modFlight_pwrpeak (s : State) (id : Nat) (f : Flight → Flight) : (s.modFlight id f).pwrpeak = s.pwrpeak := rfl
@[simp] theorem State.modFlight_pwravg (s : State) (id : Nat) (f : Flight → Flight) : (s.modFlight id f).pwravg = s.pwravg := rfl
@[simp] theorem State.modFlight_fuseSvn (s : State) (id : Nat) (f : Flight → Flight) : (s.modFlight id f).fuseSvn = s.fuseSvn := rfl
@[simp] theorem State.modFlight_fuseKey (s : State) (id : Nat) (f : Flight → Flight) : (s.modFlight id f).fuseKey = s.fuseKey := rfl
@[simp] theorem State.modFlight_fuseSeed (s : State) (id : Nat) (f : Flight → Flight) : (s.modFlight id f).fuseSeed = s.fuseSeed := rfl
@[simp] theorem State.modFlight_flash (s : State) (id : Nat) (f : Flight → Flight) : (s.modFlight id f).flash = s.flash := rfl
@[simp] theorem State.dropFlight_tick (s : State) (id : Nat) : (s.dropFlight id).tick = s.tick := rfl
@[simp] theorem State.dropFlight_nextId (s : State) (id : Nat) : (s.dropFlight id).nextId = s.nextId := rfl
@[simp] theorem State.dropFlight_fresh (s : State) (id : Nat) : (s.dropFlight id).fresh = s.fresh := rfl
@[simp] theorem State.dropFlight_focus (s : State) (id : Nat) : (s.dropFlight id).focus = s.focus := rfl
@[simp] theorem State.dropFlight_inputs (s : State) (id : Nat) : (s.dropFlight id).inputs = s.inputs := rfl
@[simp] theorem State.dropFlight_mem (s : State) (id : Nat) : (s.dropFlight id).mem = s.mem := rfl
@[simp] theorem State.dropFlight_poison (s : State) (id : Nat) : (s.dropFlight id).poison = s.poison := rfl
@[simp] theorem State.dropFlight_teams (s : State) (id : Nat) : (s.dropFlight id).teams = s.teams := rfl
@[simp] theorem State.dropFlight_cores (s : State) (id : Nat) : (s.dropFlight id).cores = s.cores := rfl
@[simp] theorem State.dropFlight_columns (s : State) (id : Nat) : (s.dropFlight id).columns = s.columns := rfl
@[simp] theorem State.dropFlight_pinmap (s : State) (id : Nat) : (s.dropFlight id).pinmap = s.pinmap := rfl
@[simp] theorem State.dropFlight_pool (s : State) (id : Nat) : (s.dropFlight id).pool = s.pool := rfl
@[simp] theorem State.dropFlight_preds (s : State) (id : Nat) : (s.dropFlight id).preds = s.preds := rfl
@[simp] theorem State.dropFlight_visits (s : State) (id : Nat) : (s.dropFlight id).visits = s.visits := rfl
@[simp] theorem State.dropFlight_device (s : State) (id : Nat) : (s.dropFlight id).device = s.device := rfl
@[simp] theorem State.dropFlight_boot (s : State) (id : Nat) : (s.dropFlight id).boot = s.boot := rfl
@[simp] theorem State.dropFlight_gwins (s : State) (id : Nat) : (s.dropFlight id).gwins = s.gwins := rfl
@[simp] theorem State.dropFlight_groups (s : State) (id : Nat) : (s.dropFlight id).groups = s.groups := rfl
@[simp] theorem State.dropFlight_quiesce (s : State) (id : Nat) : (s.dropFlight id).quiesce = s.quiesce := rfl
@[simp] theorem State.dropFlight_port (s : State) (id : Nat) : (s.dropFlight id).port = s.port := rfl
@[simp] theorem State.dropFlight_hreads (s : State) (id : Nat) : (s.dropFlight id).hreads = s.hreads := rfl
@[simp] theorem State.dropFlight_mreads (s : State) (id : Nat) : (s.dropFlight id).mreads = s.mreads := rfl
@[simp] theorem State.dropFlight_stalls (s : State) (id : Nat) : (s.dropFlight id).stalls = s.stalls := rfl
@[simp] theorem State.dropFlight_timers (s : State) (id : Nat) : (s.dropFlight id).timers = s.timers := rfl
@[simp] theorem State.dropFlight_ftimer (s : State) (id : Nat) : (s.dropFlight id).ftimer = s.ftimer := rfl
@[simp] theorem State.dropFlight_fstat (s : State) (id : Nat) : (s.dropFlight id).fstat = s.fstat := rfl
@[simp] theorem State.dropFlight_migctl (s : State) (id : Nat) : (s.dropFlight id).migctl = s.migctl := rfl
@[simp] theorem State.dropFlight_migq (s : State) (id : Nat) : (s.dropFlight id).migq = s.migq := rfl
@[simp] theorem State.dropFlight_migcnt (s : State) (id : Nat) : (s.dropFlight id).migcnt = s.migcnt := rfl
@[simp] theorem State.dropFlight_gdisc (s : State) (id : Nat) : (s.dropFlight id).gdisc = s.gdisc := rfl
@[simp] theorem State.dropFlight_hnqbase (s : State) (id : Nat) : (s.dropFlight id).hnqbase = s.hnqbase := rfl
@[simp] theorem State.dropFlight_hnqctl (s : State) (id : Nat) : (s.dropFlight id).hnqctl = s.hnqctl := rfl
@[simp] theorem State.dropFlight_notes (s : State) (id : Nat) : (s.dropFlight id).notes = s.notes := rfl
@[simp] theorem State.dropFlight_vectors (s : State) (id : Nat) : (s.dropFlight id).vectors = s.vectors := rfl
@[simp] theorem State.dropFlight_pwrlim (s : State) (id : Nat) : (s.dropFlight id).pwrlim = s.pwrlim := rfl
@[simp] theorem State.dropFlight_pwrpeak (s : State) (id : Nat) : (s.dropFlight id).pwrpeak = s.pwrpeak := rfl
@[simp] theorem State.dropFlight_pwravg (s : State) (id : Nat) : (s.dropFlight id).pwravg = s.pwravg := rfl
@[simp] theorem State.dropFlight_fuseSvn (s : State) (id : Nat) : (s.dropFlight id).fuseSvn = s.fuseSvn := rfl
@[simp] theorem State.dropFlight_fuseKey (s : State) (id : Nat) : (s.dropFlight id).fuseKey = s.fuseKey := rfl
@[simp] theorem State.dropFlight_fuseSeed (s : State) (id : Nat) : (s.dropFlight id).fuseSeed = s.fuseSeed := rfl
@[simp] theorem State.dropFlight_flash (s : State) (id : Nat) : (s.dropFlight id).flash = s.flash := rfl

/-! ### Registers of a lane -/

@[simp] theorem Lane.vPut_cls (L : Lane) (n : Nat) (x : Word) : (L.vPut n x).cls = L.cls := rfl
@[simp] theorem Lane.vPut_pc (L : Lane) (n : Nat) (x : Word) : (L.vPut n x).pc = L.pc := rfl
@[simp] theorem Lane.vPut_seqIn (L : Lane) (n : Nat) (x : Word) : (L.vPut n x).seqIn = L.seqIn := rfl
@[simp] theorem Lane.vPut_depth (L : Lane) (n : Nat) (x : Word) : (L.vPut n x).depth = L.depth := rfl
@[simp] theorem Lane.vPut_pend (L : Lane) (n : Nat) (x : Word) : (L.vPut n x).pend = L.pend := rfl
@[simp] theorem Lane.vPut_issued (L : Lane) (n : Nat) (x : Word) : (L.vPut n x).issued = L.issued := rfl
@[simp] theorem Lane.vPut_twr (L : Lane) (n : Nat) (x : Word) : (L.vPut n x).twr = L.twr := rfl
@[simp] theorem Lane.vPut_held (L : Lane) (n : Nat) (x : Word) : (L.vPut n x).held = L.held := rfl
@[simp] theorem Lane.vPut_intrap (L : Lane) (n : Nat) (x : Word) : (L.vPut n x).intrap = L.intrap := rfl
@[simp] theorem Lane.vPut_t (L : Lane) (n : Nat) (x : Word) : (L.vPut n x).t = L.t := rfl
@[simp] theorem Lane.vPut_p (L : Lane) (n : Nat) (x : Word) : (L.vPut n x).p = L.p := rfl
@[simp] theorem Lane.vPut_pE (L : Lane) (n : Nat) (x : Word) : (L.vPut n x).pE = L.pE := rfl
@[simp] theorem Lane.vPut_xv (L : Lane) (n : Nat) (x : Word) : (L.vPut n x).xv = L.xv := rfl
@[simp] theorem Lane.vPut_xl (L : Lane) (n : Nat) (x : Word) : (L.vPut n x).xl = L.xl := rfl
@[simp] theorem Lane.vPut_ltcause (L : Lane) (n : Nat) (x : Word) : (L.vPut n x).ltcause = L.ltcause := rfl
@[simp] theorem Lane.vPut_ltpc (L : Lane) (n : Nat) (x : Word) : (L.vPut n x).ltpc = L.ltpc := rfl
@[simp] theorem Lane.vPut_ltaddr (L : Lane) (n : Nat) (x : Word) : (L.vPut n x).ltaddr = L.ltaddr := rfl
@[simp] theorem Lane.vPut_ltinfo (L : Lane) (n : Nat) (x : Word) : (L.vPut n x).ltinfo = L.ltinfo := rfl
@[simp] theorem Lane.vPut_tx (L : Lane) (n : Nat) (x : Word) : (L.vPut n x).tx = L.tx := rfl
@[simp] theorem Lane.vPut_defs (L : Lane) (n : Nat) (x : Word) : (L.vPut n x).defs = L.defs := rfl
@[simp] theorem Lane.vPut_cone (L : Lane) (n : Nat) (x : Word) : (L.vPut n x).cone = L.cone := rfl
@[simp] theorem Lane.vPut_xfer (L : Lane) (n : Nat) (x : Word) : (L.vPut n x).xfer = L.xfer := rfl
@[simp] theorem Lane.vPut_back (L : Lane) (n : Nat) (x : Word) : (L.vPut n x).back = L.back := rfl
@[simp] theorem Lane.vEmpty_cls (L : Lane) (n : Nat) : (L.vEmpty n).cls = L.cls := rfl
@[simp] theorem Lane.vEmpty_pc (L : Lane) (n : Nat) : (L.vEmpty n).pc = L.pc := rfl
@[simp] theorem Lane.vEmpty_seqIn (L : Lane) (n : Nat) : (L.vEmpty n).seqIn = L.seqIn := rfl
@[simp] theorem Lane.vEmpty_depth (L : Lane) (n : Nat) : (L.vEmpty n).depth = L.depth := rfl
@[simp] theorem Lane.vEmpty_pend (L : Lane) (n : Nat) : (L.vEmpty n).pend = L.pend := rfl
@[simp] theorem Lane.vEmpty_issued (L : Lane) (n : Nat) : (L.vEmpty n).issued = L.issued := rfl
@[simp] theorem Lane.vEmpty_twr (L : Lane) (n : Nat) : (L.vEmpty n).twr = L.twr := rfl
@[simp] theorem Lane.vEmpty_held (L : Lane) (n : Nat) : (L.vEmpty n).held = L.held := rfl
@[simp] theorem Lane.vEmpty_intrap (L : Lane) (n : Nat) : (L.vEmpty n).intrap = L.intrap := rfl
@[simp] theorem Lane.vEmpty_t (L : Lane) (n : Nat) : (L.vEmpty n).t = L.t := rfl
@[simp] theorem Lane.vEmpty_v (L : Lane) (n : Nat) : (L.vEmpty n).v = L.v := rfl
@[simp] theorem Lane.vEmpty_p (L : Lane) (n : Nat) : (L.vEmpty n).p = L.p := rfl
@[simp] theorem Lane.vEmpty_pE (L : Lane) (n : Nat) : (L.vEmpty n).pE = L.pE := rfl
@[simp] theorem Lane.vEmpty_xv (L : Lane) (n : Nat) : (L.vEmpty n).xv = L.xv := rfl
@[simp] theorem Lane.vEmpty_xl (L : Lane) (n : Nat) : (L.vEmpty n).xl = L.xl := rfl
@[simp] theorem Lane.vEmpty_ltcause (L : Lane) (n : Nat) : (L.vEmpty n).ltcause = L.ltcause := rfl
@[simp] theorem Lane.vEmpty_ltpc (L : Lane) (n : Nat) : (L.vEmpty n).ltpc = L.ltpc := rfl
@[simp] theorem Lane.vEmpty_ltaddr (L : Lane) (n : Nat) : (L.vEmpty n).ltaddr = L.ltaddr := rfl
@[simp] theorem Lane.vEmpty_ltinfo (L : Lane) (n : Nat) : (L.vEmpty n).ltinfo = L.ltinfo := rfl
@[simp] theorem Lane.vEmpty_tx (L : Lane) (n : Nat) : (L.vEmpty n).tx = L.tx := rfl
@[simp] theorem Lane.vEmpty_defs (L : Lane) (n : Nat) : (L.vEmpty n).defs = L.defs := rfl
@[simp] theorem Lane.vEmpty_cone (L : Lane) (n : Nat) : (L.vEmpty n).cone = L.cone := rfl
@[simp] theorem Lane.vEmpty_xfer (L : Lane) (n : Nat) : (L.vEmpty n).xfer = L.xfer := rfl
@[simp] theorem Lane.vEmpty_back (L : Lane) (n : Nat) : (L.vEmpty n).back = L.back := rfl
@[simp] theorem Lane.vEmpty_bad (L : Lane) (n : Nat) : (L.vEmpty n).bad = L.bad := rfl
@[simp] theorem Lane.pPut_cls (L : Lane) (n : Nat) (b : Bool) : (L.pPut n b).cls = L.cls := rfl
@[simp] theorem Lane.pPut_pc (L : Lane) (n : Nat) (b : Bool) : (L.pPut n b).pc = L.pc := rfl
@[simp] theorem Lane.pPut_seqIn (L : Lane) (n : Nat) (b : Bool) : (L.pPut n b).seqIn = L.seqIn := rfl
@[simp] theorem Lane.pPut_depth (L : Lane) (n : Nat) (b : Bool) : (L.pPut n b).depth = L.depth := rfl
@[simp] theorem Lane.pPut_pend (L : Lane) (n : Nat) (b : Bool) : (L.pPut n b).pend = L.pend := rfl
@[simp] theorem Lane.pPut_issued (L : Lane) (n : Nat) (b : Bool) : (L.pPut n b).issued = L.issued := rfl
@[simp] theorem Lane.pPut_twr (L : Lane) (n : Nat) (b : Bool) : (L.pPut n b).twr = L.twr := rfl
@[simp] theorem Lane.pPut_held (L : Lane) (n : Nat) (b : Bool) : (L.pPut n b).held = L.held := rfl
@[simp] theorem Lane.pPut_intrap (L : Lane) (n : Nat) (b : Bool) : (L.pPut n b).intrap = L.intrap := rfl
@[simp] theorem Lane.pPut_t (L : Lane) (n : Nat) (b : Bool) : (L.pPut n b).t = L.t := rfl
@[simp] theorem Lane.pPut_v (L : Lane) (n : Nat) (b : Bool) : (L.pPut n b).v = L.v := rfl
@[simp] theorem Lane.pPut_vE (L : Lane) (n : Nat) (b : Bool) : (L.pPut n b).vE = L.vE := rfl
@[simp] theorem Lane.pPut_xv (L : Lane) (n : Nat) (b : Bool) : (L.pPut n b).xv = L.xv := rfl
@[simp] theorem Lane.pPut_xl (L : Lane) (n : Nat) (b : Bool) : (L.pPut n b).xl = L.xl := rfl
@[simp] theorem Lane.pPut_ltcause (L : Lane) (n : Nat) (b : Bool) : (L.pPut n b).ltcause = L.ltcause := rfl
@[simp] theorem Lane.pPut_ltpc (L : Lane) (n : Nat) (b : Bool) : (L.pPut n b).ltpc = L.ltpc := rfl
@[simp] theorem Lane.pPut_ltaddr (L : Lane) (n : Nat) (b : Bool) : (L.pPut n b).ltaddr = L.ltaddr := rfl
@[simp] theorem Lane.pPut_ltinfo (L : Lane) (n : Nat) (b : Bool) : (L.pPut n b).ltinfo = L.ltinfo := rfl
@[simp] theorem Lane.pPut_tx (L : Lane) (n : Nat) (b : Bool) : (L.pPut n b).tx = L.tx := rfl
@[simp] theorem Lane.pPut_defs (L : Lane) (n : Nat) (b : Bool) : (L.pPut n b).defs = L.defs := rfl
@[simp] theorem Lane.pPut_cone (L : Lane) (n : Nat) (b : Bool) : (L.pPut n b).cone = L.cone := rfl
@[simp] theorem Lane.pPut_xfer (L : Lane) (n : Nat) (b : Bool) : (L.pPut n b).xfer = L.xfer := rfl
@[simp] theorem Lane.pPut_back (L : Lane) (n : Nat) (b : Bool) : (L.pPut n b).back = L.back := rfl
@[simp] theorem Lane.pPut_bad (L : Lane) (n : Nat) (b : Bool) : (L.pPut n b).bad = L.bad := rfl
@[simp] theorem Lane.tPut_cls (L : Lane) (n : Nat) (x : Word) : (L.tPut n x).cls = L.cls := rfl
@[simp] theorem Lane.tPut_pc (L : Lane) (n : Nat) (x : Word) : (L.tPut n x).pc = L.pc := rfl
@[simp] theorem Lane.tPut_seqIn (L : Lane) (n : Nat) (x : Word) : (L.tPut n x).seqIn = L.seqIn := rfl
@[simp] theorem Lane.tPut_depth (L : Lane) (n : Nat) (x : Word) : (L.tPut n x).depth = L.depth := rfl
@[simp] theorem Lane.tPut_pend (L : Lane) (n : Nat) (x : Word) : (L.tPut n x).pend = L.pend := rfl
@[simp] theorem Lane.tPut_issued (L : Lane) (n : Nat) (x : Word) : (L.tPut n x).issued = L.issued := rfl
@[simp] theorem Lane.tPut_held (L : Lane) (n : Nat) (x : Word) : (L.tPut n x).held = L.held := rfl
@[simp] theorem Lane.tPut_intrap (L : Lane) (n : Nat) (x : Word) : (L.tPut n x).intrap = L.intrap := rfl
@[simp] theorem Lane.tPut_v (L : Lane) (n : Nat) (x : Word) : (L.tPut n x).v = L.v := rfl
@[simp] theorem Lane.tPut_vE (L : Lane) (n : Nat) (x : Word) : (L.tPut n x).vE = L.vE := rfl
@[simp] theorem Lane.tPut_p (L : Lane) (n : Nat) (x : Word) : (L.tPut n x).p = L.p := rfl
@[simp] theorem Lane.tPut_pE (L : Lane) (n : Nat) (x : Word) : (L.tPut n x).pE = L.pE := rfl
@[simp] theorem Lane.tPut_xv (L : Lane) (n : Nat) (x : Word) : (L.tPut n x).xv = L.xv := rfl
@[simp] theorem Lane.tPut_xl (L : Lane) (n : Nat) (x : Word) : (L.tPut n x).xl = L.xl := rfl
@[simp] theorem Lane.tPut_ltcause (L : Lane) (n : Nat) (x : Word) : (L.tPut n x).ltcause = L.ltcause := rfl
@[simp] theorem Lane.tPut_ltpc (L : Lane) (n : Nat) (x : Word) : (L.tPut n x).ltpc = L.ltpc := rfl
@[simp] theorem Lane.tPut_ltaddr (L : Lane) (n : Nat) (x : Word) : (L.tPut n x).ltaddr = L.ltaddr := rfl
@[simp] theorem Lane.tPut_ltinfo (L : Lane) (n : Nat) (x : Word) : (L.tPut n x).ltinfo = L.ltinfo := rfl
@[simp] theorem Lane.tPut_tx (L : Lane) (n : Nat) (x : Word) : (L.tPut n x).tx = L.tx := rfl
@[simp] theorem Lane.tPut_defs (L : Lane) (n : Nat) (x : Word) : (L.tPut n x).defs = L.defs := rfl
@[simp] theorem Lane.tPut_cone (L : Lane) (n : Nat) (x : Word) : (L.tPut n x).cone = L.cone := rfl
@[simp] theorem Lane.tPut_xfer (L : Lane) (n : Nat) (x : Word) : (L.tPut n x).xfer = L.xfer := rfl
@[simp] theorem Lane.tPut_back (L : Lane) (n : Nat) (x : Word) : (L.tPut n x).back = L.back := rfl
@[simp] theorem Lane.trapState_cls (L : Lane) (f : FltRec) (pc : Word) (r : Bool) (i w : Nat) : (L.trapState f pc r i w).cls = L.cls := rfl
@[simp] theorem Lane.trapState_pc (L : Lane) (f : FltRec) (pc : Word) (r : Bool) (i w : Nat) : (L.trapState f pc r i w).pc = L.pc := rfl
@[simp] theorem Lane.trapState_seqIn (L : Lane) (f : FltRec) (pc : Word) (r : Bool) (i w : Nat) : (L.trapState f pc r i w).seqIn = L.seqIn := rfl
@[simp] theorem Lane.trapState_depth (L : Lane) (f : FltRec) (pc : Word) (r : Bool) (i w : Nat) : (L.trapState f pc r i w).depth = L.depth := rfl
@[simp] theorem Lane.trapState_pend (L : Lane) (f : FltRec) (pc : Word) (r : Bool) (i w : Nat) : (L.trapState f pc r i w).pend = L.pend := rfl
@[simp] theorem Lane.trapState_issued (L : Lane) (f : FltRec) (pc : Word) (r : Bool) (i w : Nat) : (L.trapState f pc r i w).issued = L.issued := rfl
@[simp] theorem Lane.trapState_twr (L : Lane) (f : FltRec) (pc : Word) (r : Bool) (i w : Nat) : (L.trapState f pc r i w).twr = L.twr := rfl
@[simp] theorem Lane.trapState_held (L : Lane) (f : FltRec) (pc : Word) (r : Bool) (i w : Nat) : (L.trapState f pc r i w).held = L.held := rfl
@[simp] theorem Lane.trapState_intrap (L : Lane) (f : FltRec) (pc : Word) (r : Bool) (i w : Nat) : (L.trapState f pc r i w).intrap = L.intrap := rfl
@[simp] theorem Lane.trapState_t (L : Lane) (f : FltRec) (pc : Word) (r : Bool) (i w : Nat) : (L.trapState f pc r i w).t = L.t := rfl
@[simp] theorem Lane.trapState_v (L : Lane) (f : FltRec) (pc : Word) (r : Bool) (i w : Nat) : (L.trapState f pc r i w).v = L.v := rfl
@[simp] theorem Lane.trapState_vE (L : Lane) (f : FltRec) (pc : Word) (r : Bool) (i w : Nat) : (L.trapState f pc r i w).vE = L.vE := rfl
@[simp] theorem Lane.trapState_p (L : Lane) (f : FltRec) (pc : Word) (r : Bool) (i w : Nat) : (L.trapState f pc r i w).p = L.p := rfl
@[simp] theorem Lane.trapState_pE (L : Lane) (f : FltRec) (pc : Word) (r : Bool) (i w : Nat) : (L.trapState f pc r i w).pE = L.pE := rfl
@[simp] theorem Lane.trapState_xv (L : Lane) (f : FltRec) (pc : Word) (r : Bool) (i w : Nat) : (L.trapState f pc r i w).xv = L.xv := rfl
@[simp] theorem Lane.trapState_xl (L : Lane) (f : FltRec) (pc : Word) (r : Bool) (i w : Nat) : (L.trapState f pc r i w).xl = L.xl := rfl
@[simp] theorem Lane.trapState_tx (L : Lane) (f : FltRec) (pc : Word) (r : Bool) (i w : Nat) : (L.trapState f pc r i w).tx = L.tx := rfl
@[simp] theorem Lane.trapState_defs (L : Lane) (f : FltRec) (pc : Word) (r : Bool) (i w : Nat) : (L.trapState f pc r i w).defs = L.defs := rfl
@[simp] theorem Lane.trapState_cone (L : Lane) (f : FltRec) (pc : Word) (r : Bool) (i w : Nat) : (L.trapState f pc r i w).cone = L.cone := rfl
@[simp] theorem Lane.trapState_xfer (L : Lane) (f : FltRec) (pc : Word) (r : Bool) (i w : Nat) : (L.trapState f pc r i w).xfer = L.xfer := rfl
@[simp] theorem Lane.trapState_back (L : Lane) (f : FltRec) (pc : Word) (r : Bool) (i w : Nat) : (L.trapState f pc r i w).back = L.back := rfl
@[simp] theorem Lane.trapState_bad (L : Lane) (f : FltRec) (pc : Word) (r : Bool) (i w : Nat) : (L.trapState f pc r i w).bad = L.bad := rfl

/-! ### Registers and memory of a team -/

@[simp] theorem Team.kPut_serial (T : Team) (n : Nat) (x : Word) : (T.kPut n x).serial = T.serial := by unfold Team.kPut; split <;> rfl
@[simp] theorem Team.kPut_core (T : Team) (n : Nat) (x : Word) : (T.kPut n x).core = T.core := by unfold Team.kPut; split <;> rfl
@[simp] theorem Team.kPut_slot (T : Team) (n : Nat) (x : Word) : (T.kPut n x).slot = T.slot := by unfold Team.kPut; split <;> rfl
@[simp] theorem Team.kPut_node (T : Team) (n : Nat) (x : Word) : (T.kPut n x).node = T.node := by unfold Team.kPut; split <;> rfl
@[simp] theorem Team.kPut_record (T : Team) (n : Nat) (x : Word) : (T.kPut n x).record = T.record := by unfold Team.kPut; split <;> rfl
@[simp] theorem Team.kPut_gang (T : Team) (n : Nat) (x : Word) : (T.kPut n x).gang = T.gang := by unfold Team.kPut; split <;> rfl
@[simp] theorem Team.kPut_idx (T : Team) (n : Nat) (x : Word) : (T.kPut n x).idx = T.idx := by unfold Team.kPut; split <;> rfl
@[simp] theorem Team.kPut_tx (T : Team) (n : Nat) (x : Word) : (T.kPut n x).tx = T.tx := by unfold Team.kPut; split <;> rfl
@[simp] theorem Team.kPut_ty (T : Team) (n : Nat) (x : Word) : (T.kPut n x).ty = T.ty := by unfold Team.kPut; split <;> rfl
@[simp] theorem Team.kPut_tz (T : Team) (n : Nat) (x : Word) : (T.kPut n x).tz = T.tz := by unfold Team.kPut; split <;> rfl
@[simp] theorem Team.kPut_nteams (T : Team) (n : Nat) (x : Word) : (T.kPut n x).nteams = T.nteams := by unfold Team.kPut; split <;> rfl
@[simp] theorem Team.kPut_gangpos (T : Team) (n : Nat) (x : Word) : (T.kPut n x).gangpos = T.gangpos := by unfold Team.kPut; split <;> rfl
@[simp] theorem Team.kPut_gangsize (T : Team) (n : Nat) (x : Word) : (T.kPut n x).gangsize = T.gangsize := by unfold Team.kPut; split <;> rfl
@[simp] theorem Team.kPut_sup (T : Team) (n : Nat) (x : Word) : (T.kPut n x).sup = T.sup := by unfold Team.kPut; split <;> rfl
@[simp] theorem Team.kPut_coil (T : Team) (n : Nat) (x : Word) : (T.kPut n x).coil = T.coil := by unfold Team.kPut; split <;> rfl
@[simp] theorem Team.kPut_nlanes (T : Team) (n : Nat) (x : Word) : (T.kPut n x).nlanes = T.nlanes := by unfold Team.kPut; split <;> rfl
@[simp] theorem Team.kPut_split (T : Team) (n : Nat) (x : Word) : (T.kPut n x).split = T.split := by unfold Team.kPut; split <;> rfl
@[simp] theorem Team.kPut_courses (T : Team) (n : Nat) (x : Word) : (T.kPut n x).courses = T.courses := by unfold Team.kPut; split <;> rfl
@[simp] theorem Team.kPut_kScope (T : Team) (n : Nat) (x : Word) : (T.kPut n x).kScope = T.kScope := by unfold Team.kPut; split <;> rfl
@[simp] theorem Team.kPut_eqs (T : Team) (n : Nat) (x : Word) : (T.kPut n x).eqs = T.eqs := by unfold Team.kPut; split <;> rfl
@[simp] theorem Team.kPut_fpcr (T : Team) (n : Nat) (x : Word) : (T.kPut n x).fpcr = T.fpcr := by unfold Team.kPut; split <;> rfl
@[simp] theorem Team.kPut_terr (T : Team) (n : Nat) (x : Word) : (T.kPut n x).terr = T.terr := by unfold Team.kPut; split <;> rfl
@[simp] theorem Team.kPut_utvec (T : Team) (n : Nat) (x : Word) : (T.kPut n x).utvec = T.utvec := by unfold Team.kPut; split <;> rfl
@[simp] theorem Team.kPut_utmask (T : Team) (n : Nat) (x : Word) : (T.kPut n x).utmask = T.utmask := by unfold Team.kPut; split <;> rfl
@[simp] theorem Team.kPut_ckvec (T : Team) (n : Nat) (x : Word) : (T.kPut n x).ckvec = T.ckvec := by unfold Team.kPut; split <;> rfl
@[simp] theorem Team.kPut_asid (T : Team) (n : Nat) (x : Word) : (T.kPut n x).asid = T.asid := by unfold Team.kPut; split <;> rfl
@[simp] theorem Team.kPut_ptroot (T : Team) (n : Nat) (x : Word) : (T.kPut n x).ptroot = T.ptroot := by unfold Team.kPut; split <;> rfl
@[simp] theorem Team.kPut_lmem (T : Team) (n : Nat) (x : Word) : (T.kPut n x).lmem = T.lmem := by unfold Team.kPut; split <;> rfl
@[simp] theorem Team.kPut_absent (T : Team) (n : Nat) (x : Word) : (T.kPut n x).absent = T.absent := by unfold Team.kPut; split <;> rfl
@[simp] theorem Team.kPut_signalled (T : Team) (n : Nat) (x : Word) : (T.kPut n x).signalled = T.signalled := by unfold Team.kPut; split <;> rfl
@[simp] theorem Team.kPut_early (T : Team) (n : Nat) (x : Word) : (T.kPut n x).early = T.early := by unfold Team.kPut; split <;> rfl
@[simp] theorem Team.kPut_saveTries (T : Team) (n : Nat) (x : Word) : (T.kPut n x).saveTries = T.saveTries := by unfold Team.kPut; split <;> rfl
@[simp] theorem Team.kPut_placed (T : Team) (n : Nat) (x : Word) : (T.kPut n x).placed = T.placed := by unfold Team.kPut; split <;> rfl
@[simp] theorem Team.kPut_ports (T : Team) (n : Nat) (x : Word) : (T.kPut n x).ports = T.ports := by unfold Team.kPut; split <;> rfl
@[simp] theorem Team.kPut_slipErr (T : Team) (n : Nat) (x : Word) : (T.kPut n x).slipErr = T.slipErr := by unfold Team.kPut; split <;> rfl
@[simp] theorem Team.kPut_ringScope (T : Team) (n : Nat) (x : Word) : (T.kPut n x).ringScope = T.ringScope := by unfold Team.kPut; split <;> rfl
@[simp] theorem Team.kPut_lbs (T : Team) (n : Nat) (x : Word) : (T.kPut n x).lbs = T.lbs := by unfold Team.kPut; split <;> rfl
@[simp] theorem Team.kPut_tiles (T : Team) (n : Nat) (x : Word) : (T.kPut n x).tiles = T.tiles := by unfold Team.kPut; split <;> rfl
@[simp] theorem Team.kPut_wheelErr (T : Team) (n : Nat) (x : Word) : (T.kPut n x).wheelErr = T.wheelErr := by unfold Team.kPut; split <;> rfl
@[simp] theorem Team.kPut_wheelHalf (T : Team) (n : Nat) (x : Word) : (T.kPut n x).wheelHalf = T.wheelHalf := by unfold Team.kPut; split <;> rfl
@[simp] theorem Team.kPut_saving (T : Team) (n : Nat) (x : Word) : (T.kPut n x).saving = T.saving := by unfold Team.kPut; split <;> rfl
@[simp] theorem Team.kPut_saveWid (T : Team) (n : Nat) (x : Word) : (T.kPut n x).saveWid = T.saveWid := by unfold Team.kPut; split <;> rfl
@[simp] theorem Team.kPut_evicted (T : Team) (n : Nat) (x : Word) : (T.kPut n x).evicted = T.evicted := by unfold Team.kPut; split <;> rfl
@[simp] theorem Team.kPut_lbad (T : Team) (n : Nat) (x : Word) : (T.kPut n x).lbad = T.lbad := by unfold Team.kPut; split <;> rfl
@[simp] theorem Team.kEmpty_serial (T : Team) (n : Nat) : (T.kEmpty n).serial = T.serial := by unfold Team.kEmpty; split <;> rfl
@[simp] theorem Team.kEmpty_core (T : Team) (n : Nat) : (T.kEmpty n).core = T.core := by unfold Team.kEmpty; split <;> rfl
@[simp] theorem Team.kEmpty_slot (T : Team) (n : Nat) : (T.kEmpty n).slot = T.slot := by unfold Team.kEmpty; split <;> rfl
@[simp] theorem Team.kEmpty_node (T : Team) (n : Nat) : (T.kEmpty n).node = T.node := by unfold Team.kEmpty; split <;> rfl
@[simp] theorem Team.kEmpty_record (T : Team) (n : Nat) : (T.kEmpty n).record = T.record := by unfold Team.kEmpty; split <;> rfl
@[simp] theorem Team.kEmpty_gang (T : Team) (n : Nat) : (T.kEmpty n).gang = T.gang := by unfold Team.kEmpty; split <;> rfl
@[simp] theorem Team.kEmpty_idx (T : Team) (n : Nat) : (T.kEmpty n).idx = T.idx := by unfold Team.kEmpty; split <;> rfl
@[simp] theorem Team.kEmpty_tx (T : Team) (n : Nat) : (T.kEmpty n).tx = T.tx := by unfold Team.kEmpty; split <;> rfl
@[simp] theorem Team.kEmpty_ty (T : Team) (n : Nat) : (T.kEmpty n).ty = T.ty := by unfold Team.kEmpty; split <;> rfl
@[simp] theorem Team.kEmpty_tz (T : Team) (n : Nat) : (T.kEmpty n).tz = T.tz := by unfold Team.kEmpty; split <;> rfl
@[simp] theorem Team.kEmpty_nteams (T : Team) (n : Nat) : (T.kEmpty n).nteams = T.nteams := by unfold Team.kEmpty; split <;> rfl
@[simp] theorem Team.kEmpty_gangpos (T : Team) (n : Nat) : (T.kEmpty n).gangpos = T.gangpos := by unfold Team.kEmpty; split <;> rfl
@[simp] theorem Team.kEmpty_gangsize (T : Team) (n : Nat) : (T.kEmpty n).gangsize = T.gangsize := by unfold Team.kEmpty; split <;> rfl
@[simp] theorem Team.kEmpty_sup (T : Team) (n : Nat) : (T.kEmpty n).sup = T.sup := by unfold Team.kEmpty; split <;> rfl
@[simp] theorem Team.kEmpty_coil (T : Team) (n : Nat) : (T.kEmpty n).coil = T.coil := by unfold Team.kEmpty; split <;> rfl
@[simp] theorem Team.kEmpty_nlanes (T : Team) (n : Nat) : (T.kEmpty n).nlanes = T.nlanes := by unfold Team.kEmpty; split <;> rfl
@[simp] theorem Team.kEmpty_split (T : Team) (n : Nat) : (T.kEmpty n).split = T.split := by unfold Team.kEmpty; split <;> rfl
@[simp] theorem Team.kEmpty_courses (T : Team) (n : Nat) : (T.kEmpty n).courses = T.courses := by unfold Team.kEmpty; split <;> rfl
@[simp] theorem Team.kEmpty_k (T : Team) (n : Nat) : (T.kEmpty n).k = T.k := by unfold Team.kEmpty; split <;> rfl
@[simp] theorem Team.kEmpty_kScope (T : Team) (n : Nat) : (T.kEmpty n).kScope = T.kScope := by unfold Team.kEmpty; split <;> rfl
@[simp] theorem Team.kEmpty_eqs (T : Team) (n : Nat) : (T.kEmpty n).eqs = T.eqs := by unfold Team.kEmpty; split <;> rfl
@[simp] theorem Team.kEmpty_fpcr (T : Team) (n : Nat) : (T.kEmpty n).fpcr = T.fpcr := by unfold Team.kEmpty; split <;> rfl
@[simp] theorem Team.kEmpty_terr (T : Team) (n : Nat) : (T.kEmpty n).terr = T.terr := by unfold Team.kEmpty; split <;> rfl
@[simp] theorem Team.kEmpty_utvec (T : Team) (n : Nat) : (T.kEmpty n).utvec = T.utvec := by unfold Team.kEmpty; split <;> rfl
@[simp] theorem Team.kEmpty_utmask (T : Team) (n : Nat) : (T.kEmpty n).utmask = T.utmask := by unfold Team.kEmpty; split <;> rfl
@[simp] theorem Team.kEmpty_ckvec (T : Team) (n : Nat) : (T.kEmpty n).ckvec = T.ckvec := by unfold Team.kEmpty; split <;> rfl
@[simp] theorem Team.kEmpty_asid (T : Team) (n : Nat) : (T.kEmpty n).asid = T.asid := by unfold Team.kEmpty; split <;> rfl
@[simp] theorem Team.kEmpty_ptroot (T : Team) (n : Nat) : (T.kEmpty n).ptroot = T.ptroot := by unfold Team.kEmpty; split <;> rfl
@[simp] theorem Team.kEmpty_lmem (T : Team) (n : Nat) : (T.kEmpty n).lmem = T.lmem := by unfold Team.kEmpty; split <;> rfl
@[simp] theorem Team.kEmpty_absent (T : Team) (n : Nat) : (T.kEmpty n).absent = T.absent := by unfold Team.kEmpty; split <;> rfl
@[simp] theorem Team.kEmpty_signalled (T : Team) (n : Nat) : (T.kEmpty n).signalled = T.signalled := by unfold Team.kEmpty; split <;> rfl
@[simp] theorem Team.kEmpty_early (T : Team) (n : Nat) : (T.kEmpty n).early = T.early := by unfold Team.kEmpty; split <;> rfl
@[simp] theorem Team.kEmpty_saveTries (T : Team) (n : Nat) : (T.kEmpty n).saveTries = T.saveTries := by unfold Team.kEmpty; split <;> rfl
@[simp] theorem Team.kEmpty_placed (T : Team) (n : Nat) : (T.kEmpty n).placed = T.placed := by unfold Team.kEmpty; split <;> rfl
@[simp] theorem Team.kEmpty_ports (T : Team) (n : Nat) : (T.kEmpty n).ports = T.ports := by unfold Team.kEmpty; split <;> rfl
@[simp] theorem Team.kEmpty_slipErr (T : Team) (n : Nat) : (T.kEmpty n).slipErr = T.slipErr := by unfold Team.kEmpty; split <;> rfl
@[simp] theorem Team.kEmpty_ringScope (T : Team) (n : Nat) : (T.kEmpty n).ringScope = T.ringScope := by unfold Team.kEmpty; split <;> rfl
@[simp] theorem Team.kEmpty_lbs (T : Team) (n : Nat) : (T.kEmpty n).lbs = T.lbs := by unfold Team.kEmpty; split <;> rfl
@[simp] theorem Team.kEmpty_tiles (T : Team) (n : Nat) : (T.kEmpty n).tiles = T.tiles := by unfold Team.kEmpty; split <;> rfl
@[simp] theorem Team.kEmpty_wheelErr (T : Team) (n : Nat) : (T.kEmpty n).wheelErr = T.wheelErr := by unfold Team.kEmpty; split <;> rfl
@[simp] theorem Team.kEmpty_wheelHalf (T : Team) (n : Nat) : (T.kEmpty n).wheelHalf = T.wheelHalf := by unfold Team.kEmpty; split <;> rfl
@[simp] theorem Team.kEmpty_saving (T : Team) (n : Nat) : (T.kEmpty n).saving = T.saving := by unfold Team.kEmpty; split <;> rfl
@[simp] theorem Team.kEmpty_saveWid (T : Team) (n : Nat) : (T.kEmpty n).saveWid = T.saveWid := by unfold Team.kEmpty; split <;> rfl
@[simp] theorem Team.kEmpty_evicted (T : Team) (n : Nat) : (T.kEmpty n).evicted = T.evicted := by unfold Team.kEmpty; split <;> rfl
@[simp] theorem Team.kEmpty_kbad (T : Team) (n : Nat) : (T.kEmpty n).kbad = T.kbad := by unfold Team.kEmpty; split <;> rfl
@[simp] theorem Team.kEmpty_lbad (T : Team) (n : Nat) : (T.kEmpty n).lbad = T.lbad := by unfold Team.kEmpty; split <;> rfl
@[simp] theorem Team.kCount_serial (T : Team) (n : Nat) (x : Word) : (T.kCount n x).serial = T.serial := rfl
@[simp] theorem Team.kCount_core (T : Team) (n : Nat) (x : Word) : (T.kCount n x).core = T.core := rfl
@[simp] theorem Team.kCount_slot (T : Team) (n : Nat) (x : Word) : (T.kCount n x).slot = T.slot := rfl
@[simp] theorem Team.kCount_node (T : Team) (n : Nat) (x : Word) : (T.kCount n x).node = T.node := rfl
@[simp] theorem Team.kCount_record (T : Team) (n : Nat) (x : Word) : (T.kCount n x).record = T.record := rfl
@[simp] theorem Team.kCount_gang (T : Team) (n : Nat) (x : Word) : (T.kCount n x).gang = T.gang := rfl
@[simp] theorem Team.kCount_idx (T : Team) (n : Nat) (x : Word) : (T.kCount n x).idx = T.idx := rfl
@[simp] theorem Team.kCount_tx (T : Team) (n : Nat) (x : Word) : (T.kCount n x).tx = T.tx := rfl
@[simp] theorem Team.kCount_ty (T : Team) (n : Nat) (x : Word) : (T.kCount n x).ty = T.ty := rfl
@[simp] theorem Team.kCount_tz (T : Team) (n : Nat) (x : Word) : (T.kCount n x).tz = T.tz := rfl
@[simp] theorem Team.kCount_nteams (T : Team) (n : Nat) (x : Word) : (T.kCount n x).nteams = T.nteams := rfl
@[simp] theorem Team.kCount_gangpos (T : Team) (n : Nat) (x : Word) : (T.kCount n x).gangpos = T.gangpos := rfl
@[simp] theorem Team.kCount_gangsize (T : Team) (n : Nat) (x : Word) : (T.kCount n x).gangsize = T.gangsize := rfl
@[simp] theorem Team.kCount_sup (T : Team) (n : Nat) (x : Word) : (T.kCount n x).sup = T.sup := rfl
@[simp] theorem Team.kCount_coil (T : Team) (n : Nat) (x : Word) : (T.kCount n x).coil = T.coil := rfl
@[simp] theorem Team.kCount_nlanes (T : Team) (n : Nat) (x : Word) : (T.kCount n x).nlanes = T.nlanes := rfl
@[simp] theorem Team.kCount_split (T : Team) (n : Nat) (x : Word) : (T.kCount n x).split = T.split := rfl
@[simp] theorem Team.kCount_courses (T : Team) (n : Nat) (x : Word) : (T.kCount n x).courses = T.courses := rfl
@[simp] theorem Team.kCount_kScope (T : Team) (n : Nat) (x : Word) : (T.kCount n x).kScope = T.kScope := rfl
@[simp] theorem Team.kCount_eqs (T : Team) (n : Nat) (x : Word) : (T.kCount n x).eqs = T.eqs := rfl
@[simp] theorem Team.kCount_fpcr (T : Team) (n : Nat) (x : Word) : (T.kCount n x).fpcr = T.fpcr := rfl
@[simp] theorem Team.kCount_terr (T : Team) (n : Nat) (x : Word) : (T.kCount n x).terr = T.terr := rfl
@[simp] theorem Team.kCount_utvec (T : Team) (n : Nat) (x : Word) : (T.kCount n x).utvec = T.utvec := rfl
@[simp] theorem Team.kCount_utmask (T : Team) (n : Nat) (x : Word) : (T.kCount n x).utmask = T.utmask := rfl
@[simp] theorem Team.kCount_ckvec (T : Team) (n : Nat) (x : Word) : (T.kCount n x).ckvec = T.ckvec := rfl
@[simp] theorem Team.kCount_asid (T : Team) (n : Nat) (x : Word) : (T.kCount n x).asid = T.asid := rfl
@[simp] theorem Team.kCount_ptroot (T : Team) (n : Nat) (x : Word) : (T.kCount n x).ptroot = T.ptroot := rfl
@[simp] theorem Team.kCount_lmem (T : Team) (n : Nat) (x : Word) : (T.kCount n x).lmem = T.lmem := rfl
@[simp] theorem Team.kCount_absent (T : Team) (n : Nat) (x : Word) : (T.kCount n x).absent = T.absent := rfl
@[simp] theorem Team.kCount_signalled (T : Team) (n : Nat) (x : Word) : (T.kCount n x).signalled = T.signalled := rfl
@[simp] theorem Team.kCount_early (T : Team) (n : Nat) (x : Word) : (T.kCount n x).early = T.early := rfl
@[simp] theorem Team.kCount_saveTries (T : Team) (n : Nat) (x : Word) : (T.kCount n x).saveTries = T.saveTries := rfl
@[simp] theorem Team.kCount_placed (T : Team) (n : Nat) (x : Word) : (T.kCount n x).placed = T.placed := rfl
@[simp] theorem Team.kCount_ports (T : Team) (n : Nat) (x : Word) : (T.kCount n x).ports = T.ports := rfl
@[simp] theorem Team.kCount_slipErr (T : Team) (n : Nat) (x : Word) : (T.kCount n x).slipErr = T.slipErr := rfl
@[simp] theorem Team.kCount_ringScope (T : Team) (n : Nat) (x : Word) : (T.kCount n x).ringScope = T.ringScope := rfl
@[simp] theorem Team.kCount_lbs (T : Team) (n : Nat) (x : Word) : (T.kCount n x).lbs = T.lbs := rfl
@[simp] theorem Team.kCount_tiles (T : Team) (n : Nat) (x : Word) : (T.kCount n x).tiles = T.tiles := rfl
@[simp] theorem Team.kCount_wheelErr (T : Team) (n : Nat) (x : Word) : (T.kCount n x).wheelErr = T.wheelErr := rfl
@[simp] theorem Team.kCount_wheelHalf (T : Team) (n : Nat) (x : Word) : (T.kCount n x).wheelHalf = T.wheelHalf := rfl
@[simp] theorem Team.kCount_saving (T : Team) (n : Nat) (x : Word) : (T.kCount n x).saving = T.saving := rfl
@[simp] theorem Team.kCount_saveWid (T : Team) (n : Nat) (x : Word) : (T.kCount n x).saveWid = T.saveWid := rfl
@[simp] theorem Team.kCount_evicted (T : Team) (n : Nat) (x : Word) : (T.kCount n x).evicted = T.evicted := rfl
@[simp] theorem Team.kCount_kbad (T : Team) (n : Nat) (x : Word) : (T.kCount n x).kbad = T.kbad := rfl
@[simp] theorem Team.kCount_lbad (T : Team) (n : Nat) (x : Word) : (T.kCount n x).lbad = T.lbad := rfl
@[simp] theorem Team.locPut_serial (T : Team) (a : Nat) (bs : List Byte) : (T.locPut a bs).serial = T.serial := rfl
@[simp] theorem Team.locPut_core (T : Team) (a : Nat) (bs : List Byte) : (T.locPut a bs).core = T.core := rfl
@[simp] theorem Team.locPut_slot (T : Team) (a : Nat) (bs : List Byte) : (T.locPut a bs).slot = T.slot := rfl
@[simp] theorem Team.locPut_node (T : Team) (a : Nat) (bs : List Byte) : (T.locPut a bs).node = T.node := rfl
@[simp] theorem Team.locPut_record (T : Team) (a : Nat) (bs : List Byte) : (T.locPut a bs).record = T.record := rfl
@[simp] theorem Team.locPut_gang (T : Team) (a : Nat) (bs : List Byte) : (T.locPut a bs).gang = T.gang := rfl
@[simp] theorem Team.locPut_idx (T : Team) (a : Nat) (bs : List Byte) : (T.locPut a bs).idx = T.idx := rfl
@[simp] theorem Team.locPut_tx (T : Team) (a : Nat) (bs : List Byte) : (T.locPut a bs).tx = T.tx := rfl
@[simp] theorem Team.locPut_ty (T : Team) (a : Nat) (bs : List Byte) : (T.locPut a bs).ty = T.ty := rfl
@[simp] theorem Team.locPut_tz (T : Team) (a : Nat) (bs : List Byte) : (T.locPut a bs).tz = T.tz := rfl
@[simp] theorem Team.locPut_nteams (T : Team) (a : Nat) (bs : List Byte) : (T.locPut a bs).nteams = T.nteams := rfl
@[simp] theorem Team.locPut_gangpos (T : Team) (a : Nat) (bs : List Byte) : (T.locPut a bs).gangpos = T.gangpos := rfl
@[simp] theorem Team.locPut_gangsize (T : Team) (a : Nat) (bs : List Byte) : (T.locPut a bs).gangsize = T.gangsize := rfl
@[simp] theorem Team.locPut_sup (T : Team) (a : Nat) (bs : List Byte) : (T.locPut a bs).sup = T.sup := rfl
@[simp] theorem Team.locPut_coil (T : Team) (a : Nat) (bs : List Byte) : (T.locPut a bs).coil = T.coil := rfl
@[simp] theorem Team.locPut_nlanes (T : Team) (a : Nat) (bs : List Byte) : (T.locPut a bs).nlanes = T.nlanes := rfl
@[simp] theorem Team.locPut_split (T : Team) (a : Nat) (bs : List Byte) : (T.locPut a bs).split = T.split := rfl
@[simp] theorem Team.locPut_courses (T : Team) (a : Nat) (bs : List Byte) : (T.locPut a bs).courses = T.courses := rfl
@[simp] theorem Team.locPut_k (T : Team) (a : Nat) (bs : List Byte) : (T.locPut a bs).k = T.k := rfl
@[simp] theorem Team.locPut_kE (T : Team) (a : Nat) (bs : List Byte) : (T.locPut a bs).kE = T.kE := rfl
@[simp] theorem Team.locPut_kScope (T : Team) (a : Nat) (bs : List Byte) : (T.locPut a bs).kScope = T.kScope := rfl
@[simp] theorem Team.locPut_eqs (T : Team) (a : Nat) (bs : List Byte) : (T.locPut a bs).eqs = T.eqs := rfl
@[simp] theorem Team.locPut_fpcr (T : Team) (a : Nat) (bs : List Byte) : (T.locPut a bs).fpcr = T.fpcr := rfl
@[simp] theorem Team.locPut_terr (T : Team) (a : Nat) (bs : List Byte) : (T.locPut a bs).terr = T.terr := rfl
@[simp] theorem Team.locPut_utvec (T : Team) (a : Nat) (bs : List Byte) : (T.locPut a bs).utvec = T.utvec := rfl
@[simp] theorem Team.locPut_utmask (T : Team) (a : Nat) (bs : List Byte) : (T.locPut a bs).utmask = T.utmask := rfl
@[simp] theorem Team.locPut_ckvec (T : Team) (a : Nat) (bs : List Byte) : (T.locPut a bs).ckvec = T.ckvec := rfl
@[simp] theorem Team.locPut_asid (T : Team) (a : Nat) (bs : List Byte) : (T.locPut a bs).asid = T.asid := rfl
@[simp] theorem Team.locPut_ptroot (T : Team) (a : Nat) (bs : List Byte) : (T.locPut a bs).ptroot = T.ptroot := rfl
@[simp] theorem Team.locPut_absent (T : Team) (a : Nat) (bs : List Byte) : (T.locPut a bs).absent = T.absent := rfl
@[simp] theorem Team.locPut_signalled (T : Team) (a : Nat) (bs : List Byte) : (T.locPut a bs).signalled = T.signalled := rfl
@[simp] theorem Team.locPut_early (T : Team) (a : Nat) (bs : List Byte) : (T.locPut a bs).early = T.early := rfl
@[simp] theorem Team.locPut_saveTries (T : Team) (a : Nat) (bs : List Byte) : (T.locPut a bs).saveTries = T.saveTries := rfl
@[simp] theorem Team.locPut_placed (T : Team) (a : Nat) (bs : List Byte) : (T.locPut a bs).placed = T.placed := rfl
@[simp] theorem Team.locPut_ports (T : Team) (a : Nat) (bs : List Byte) : (T.locPut a bs).ports = T.ports := rfl
@[simp] theorem Team.locPut_slipErr (T : Team) (a : Nat) (bs : List Byte) : (T.locPut a bs).slipErr = T.slipErr := rfl
@[simp] theorem Team.locPut_ringScope (T : Team) (a : Nat) (bs : List Byte) : (T.locPut a bs).ringScope = T.ringScope := rfl
@[simp] theorem Team.locPut_lbs (T : Team) (a : Nat) (bs : List Byte) : (T.locPut a bs).lbs = T.lbs := rfl
@[simp] theorem Team.locPut_tiles (T : Team) (a : Nat) (bs : List Byte) : (T.locPut a bs).tiles = T.tiles := rfl
@[simp] theorem Team.locPut_wheelErr (T : Team) (a : Nat) (bs : List Byte) : (T.locPut a bs).wheelErr = T.wheelErr := rfl
@[simp] theorem Team.locPut_wheelHalf (T : Team) (a : Nat) (bs : List Byte) : (T.locPut a bs).wheelHalf = T.wheelHalf := rfl
@[simp] theorem Team.locPut_saving (T : Team) (a : Nat) (bs : List Byte) : (T.locPut a bs).saving = T.saving := rfl
@[simp] theorem Team.locPut_saveWid (T : Team) (a : Nat) (bs : List Byte) : (T.locPut a bs).saveWid = T.saveWid := rfl
@[simp] theorem Team.locPut_evicted (T : Team) (a : Nat) (bs : List Byte) : (T.locPut a bs).evicted = T.evicted := rfl
@[simp] theorem Team.locPut_kbad (T : Team) (a : Nat) (bs : List Byte) : (T.locPut a bs).kbad = T.kbad := rfl
@[simp] theorem Team.locWrite_serial (T : Team) (a n v : Nat) : (T.locWrite a n v).serial = T.serial := rfl
@[simp] theorem Team.locWrite_core (T : Team) (a n v : Nat) : (T.locWrite a n v).core = T.core := rfl
@[simp] theorem Team.locWrite_slot (T : Team) (a n v : Nat) : (T.locWrite a n v).slot = T.slot := rfl
@[simp] theorem Team.locWrite_node (T : Team) (a n v : Nat) : (T.locWrite a n v).node = T.node := rfl
@[simp] theorem Team.locWrite_record (T : Team) (a n v : Nat) : (T.locWrite a n v).record = T.record := rfl
@[simp] theorem Team.locWrite_gang (T : Team) (a n v : Nat) : (T.locWrite a n v).gang = T.gang := rfl
@[simp] theorem Team.locWrite_idx (T : Team) (a n v : Nat) : (T.locWrite a n v).idx = T.idx := rfl
@[simp] theorem Team.locWrite_tx (T : Team) (a n v : Nat) : (T.locWrite a n v).tx = T.tx := rfl
@[simp] theorem Team.locWrite_ty (T : Team) (a n v : Nat) : (T.locWrite a n v).ty = T.ty := rfl
@[simp] theorem Team.locWrite_tz (T : Team) (a n v : Nat) : (T.locWrite a n v).tz = T.tz := rfl
@[simp] theorem Team.locWrite_nteams (T : Team) (a n v : Nat) : (T.locWrite a n v).nteams = T.nteams := rfl
@[simp] theorem Team.locWrite_gangpos (T : Team) (a n v : Nat) : (T.locWrite a n v).gangpos = T.gangpos := rfl
@[simp] theorem Team.locWrite_gangsize (T : Team) (a n v : Nat) : (T.locWrite a n v).gangsize = T.gangsize := rfl
@[simp] theorem Team.locWrite_sup (T : Team) (a n v : Nat) : (T.locWrite a n v).sup = T.sup := rfl
@[simp] theorem Team.locWrite_coil (T : Team) (a n v : Nat) : (T.locWrite a n v).coil = T.coil := rfl
@[simp] theorem Team.locWrite_nlanes (T : Team) (a n v : Nat) : (T.locWrite a n v).nlanes = T.nlanes := rfl
@[simp] theorem Team.locWrite_split (T : Team) (a n v : Nat) : (T.locWrite a n v).split = T.split := rfl
@[simp] theorem Team.locWrite_courses (T : Team) (a n v : Nat) : (T.locWrite a n v).courses = T.courses := rfl
@[simp] theorem Team.locWrite_k (T : Team) (a n v : Nat) : (T.locWrite a n v).k = T.k := rfl
@[simp] theorem Team.locWrite_kE (T : Team) (a n v : Nat) : (T.locWrite a n v).kE = T.kE := rfl
@[simp] theorem Team.locWrite_kScope (T : Team) (a n v : Nat) : (T.locWrite a n v).kScope = T.kScope := rfl
@[simp] theorem Team.locWrite_eqs (T : Team) (a n v : Nat) : (T.locWrite a n v).eqs = T.eqs := rfl
@[simp] theorem Team.locWrite_fpcr (T : Team) (a n v : Nat) : (T.locWrite a n v).fpcr = T.fpcr := rfl
@[simp] theorem Team.locWrite_terr (T : Team) (a n v : Nat) : (T.locWrite a n v).terr = T.terr := rfl
@[simp] theorem Team.locWrite_utvec (T : Team) (a n v : Nat) : (T.locWrite a n v).utvec = T.utvec := rfl
@[simp] theorem Team.locWrite_utmask (T : Team) (a n v : Nat) : (T.locWrite a n v).utmask = T.utmask := rfl
@[simp] theorem Team.locWrite_ckvec (T : Team) (a n v : Nat) : (T.locWrite a n v).ckvec = T.ckvec := rfl
@[simp] theorem Team.locWrite_asid (T : Team) (a n v : Nat) : (T.locWrite a n v).asid = T.asid := rfl
@[simp] theorem Team.locWrite_ptroot (T : Team) (a n v : Nat) : (T.locWrite a n v).ptroot = T.ptroot := rfl
@[simp] theorem Team.locWrite_absent (T : Team) (a n v : Nat) : (T.locWrite a n v).absent = T.absent := rfl
@[simp] theorem Team.locWrite_signalled (T : Team) (a n v : Nat) : (T.locWrite a n v).signalled = T.signalled := rfl
@[simp] theorem Team.locWrite_early (T : Team) (a n v : Nat) : (T.locWrite a n v).early = T.early := rfl
@[simp] theorem Team.locWrite_saveTries (T : Team) (a n v : Nat) : (T.locWrite a n v).saveTries = T.saveTries := rfl
@[simp] theorem Team.locWrite_placed (T : Team) (a n v : Nat) : (T.locWrite a n v).placed = T.placed := rfl
@[simp] theorem Team.locWrite_ports (T : Team) (a n v : Nat) : (T.locWrite a n v).ports = T.ports := rfl
@[simp] theorem Team.locWrite_slipErr (T : Team) (a n v : Nat) : (T.locWrite a n v).slipErr = T.slipErr := rfl
@[simp] theorem Team.locWrite_ringScope (T : Team) (a n v : Nat) : (T.locWrite a n v).ringScope = T.ringScope := rfl
@[simp] theorem Team.locWrite_lbs (T : Team) (a n v : Nat) : (T.locWrite a n v).lbs = T.lbs := rfl
@[simp] theorem Team.locWrite_tiles (T : Team) (a n v : Nat) : (T.locWrite a n v).tiles = T.tiles := rfl
@[simp] theorem Team.locWrite_wheelErr (T : Team) (a n v : Nat) : (T.locWrite a n v).wheelErr = T.wheelErr := rfl
@[simp] theorem Team.locWrite_wheelHalf (T : Team) (a n v : Nat) : (T.locWrite a n v).wheelHalf = T.wheelHalf := rfl
@[simp] theorem Team.locWrite_saving (T : Team) (a n v : Nat) : (T.locWrite a n v).saving = T.saving := rfl
@[simp] theorem Team.locWrite_saveWid (T : Team) (a n v : Nat) : (T.locWrite a n v).saveWid = T.saveWid := rfl
@[simp] theorem Team.locWrite_evicted (T : Team) (a n v : Nat) : (T.locWrite a n v).evicted = T.evicted := rfl
@[simp] theorem Team.locWrite_kbad (T : Team) (a n v : Nat) : (T.locWrite a n v).kbad = T.kbad := rfl
@[simp] theorem Team.modCourse_serial (T : Team) (n : Nat) (f : Course → Course) : (T.modCourse n f).serial = T.serial := rfl
@[simp] theorem Team.modCourse_core (T : Team) (n : Nat) (f : Course → Course) : (T.modCourse n f).core = T.core := rfl
@[simp] theorem Team.modCourse_slot (T : Team) (n : Nat) (f : Course → Course) : (T.modCourse n f).slot = T.slot := rfl
@[simp] theorem Team.modCourse_node (T : Team) (n : Nat) (f : Course → Course) : (T.modCourse n f).node = T.node := rfl
@[simp] theorem Team.modCourse_record (T : Team) (n : Nat) (f : Course → Course) : (T.modCourse n f).record = T.record := rfl
@[simp] theorem Team.modCourse_gang (T : Team) (n : Nat) (f : Course → Course) : (T.modCourse n f).gang = T.gang := rfl
@[simp] theorem Team.modCourse_idx (T : Team) (n : Nat) (f : Course → Course) : (T.modCourse n f).idx = T.idx := rfl
@[simp] theorem Team.modCourse_tx (T : Team) (n : Nat) (f : Course → Course) : (T.modCourse n f).tx = T.tx := rfl
@[simp] theorem Team.modCourse_ty (T : Team) (n : Nat) (f : Course → Course) : (T.modCourse n f).ty = T.ty := rfl
@[simp] theorem Team.modCourse_tz (T : Team) (n : Nat) (f : Course → Course) : (T.modCourse n f).tz = T.tz := rfl
@[simp] theorem Team.modCourse_nteams (T : Team) (n : Nat) (f : Course → Course) : (T.modCourse n f).nteams = T.nteams := rfl
@[simp] theorem Team.modCourse_gangpos (T : Team) (n : Nat) (f : Course → Course) : (T.modCourse n f).gangpos = T.gangpos := rfl
@[simp] theorem Team.modCourse_gangsize (T : Team) (n : Nat) (f : Course → Course) : (T.modCourse n f).gangsize = T.gangsize := rfl
@[simp] theorem Team.modCourse_sup (T : Team) (n : Nat) (f : Course → Course) : (T.modCourse n f).sup = T.sup := rfl
@[simp] theorem Team.modCourse_coil (T : Team) (n : Nat) (f : Course → Course) : (T.modCourse n f).coil = T.coil := rfl
@[simp] theorem Team.modCourse_nlanes (T : Team) (n : Nat) (f : Course → Course) : (T.modCourse n f).nlanes = T.nlanes := rfl
@[simp] theorem Team.modCourse_split (T : Team) (n : Nat) (f : Course → Course) : (T.modCourse n f).split = T.split := rfl
@[simp] theorem Team.modCourse_k (T : Team) (n : Nat) (f : Course → Course) : (T.modCourse n f).k = T.k := rfl
@[simp] theorem Team.modCourse_kE (T : Team) (n : Nat) (f : Course → Course) : (T.modCourse n f).kE = T.kE := rfl
@[simp] theorem Team.modCourse_kScope (T : Team) (n : Nat) (f : Course → Course) : (T.modCourse n f).kScope = T.kScope := rfl
@[simp] theorem Team.modCourse_eqs (T : Team) (n : Nat) (f : Course → Course) : (T.modCourse n f).eqs = T.eqs := rfl
@[simp] theorem Team.modCourse_fpcr (T : Team) (n : Nat) (f : Course → Course) : (T.modCourse n f).fpcr = T.fpcr := rfl
@[simp] theorem Team.modCourse_terr (T : Team) (n : Nat) (f : Course → Course) : (T.modCourse n f).terr = T.terr := rfl
@[simp] theorem Team.modCourse_utvec (T : Team) (n : Nat) (f : Course → Course) : (T.modCourse n f).utvec = T.utvec := rfl
@[simp] theorem Team.modCourse_utmask (T : Team) (n : Nat) (f : Course → Course) : (T.modCourse n f).utmask = T.utmask := rfl
@[simp] theorem Team.modCourse_ckvec (T : Team) (n : Nat) (f : Course → Course) : (T.modCourse n f).ckvec = T.ckvec := rfl
@[simp] theorem Team.modCourse_asid (T : Team) (n : Nat) (f : Course → Course) : (T.modCourse n f).asid = T.asid := rfl
@[simp] theorem Team.modCourse_ptroot (T : Team) (n : Nat) (f : Course → Course) : (T.modCourse n f).ptroot = T.ptroot := rfl
@[simp] theorem Team.modCourse_lmem (T : Team) (n : Nat) (f : Course → Course) : (T.modCourse n f).lmem = T.lmem := rfl
@[simp] theorem Team.modCourse_absent (T : Team) (n : Nat) (f : Course → Course) : (T.modCourse n f).absent = T.absent := rfl
@[simp] theorem Team.modCourse_signalled (T : Team) (n : Nat) (f : Course → Course) : (T.modCourse n f).signalled = T.signalled := rfl
@[simp] theorem Team.modCourse_early (T : Team) (n : Nat) (f : Course → Course) : (T.modCourse n f).early = T.early := rfl
@[simp] theorem Team.modCourse_saveTries (T : Team) (n : Nat) (f : Course → Course) : (T.modCourse n f).saveTries = T.saveTries := rfl
@[simp] theorem Team.modCourse_placed (T : Team) (n : Nat) (f : Course → Course) : (T.modCourse n f).placed = T.placed := rfl
@[simp] theorem Team.modCourse_ports (T : Team) (n : Nat) (f : Course → Course) : (T.modCourse n f).ports = T.ports := rfl
@[simp] theorem Team.modCourse_slipErr (T : Team) (n : Nat) (f : Course → Course) : (T.modCourse n f).slipErr = T.slipErr := rfl
@[simp] theorem Team.modCourse_ringScope (T : Team) (n : Nat) (f : Course → Course) : (T.modCourse n f).ringScope = T.ringScope := rfl
@[simp] theorem Team.modCourse_lbs (T : Team) (n : Nat) (f : Course → Course) : (T.modCourse n f).lbs = T.lbs := rfl
@[simp] theorem Team.modCourse_tiles (T : Team) (n : Nat) (f : Course → Course) : (T.modCourse n f).tiles = T.tiles := rfl
@[simp] theorem Team.modCourse_wheelErr (T : Team) (n : Nat) (f : Course → Course) : (T.modCourse n f).wheelErr = T.wheelErr := rfl
@[simp] theorem Team.modCourse_wheelHalf (T : Team) (n : Nat) (f : Course → Course) : (T.modCourse n f).wheelHalf = T.wheelHalf := rfl
@[simp] theorem Team.modCourse_saving (T : Team) (n : Nat) (f : Course → Course) : (T.modCourse n f).saving = T.saving := rfl
@[simp] theorem Team.modCourse_saveWid (T : Team) (n : Nat) (f : Course → Course) : (T.modCourse n f).saveWid = T.saveWid := rfl
@[simp] theorem Team.modCourse_evicted (T : Team) (n : Nat) (f : Course → Course) : (T.modCourse n f).evicted = T.evicted := rfl
@[simp] theorem Team.modCourse_kbad (T : Team) (n : Nat) (f : Course → Course) : (T.modCourse n f).kbad = T.kbad := rfl
@[simp] theorem Team.modCourse_lbad (T : Team) (n : Nat) (f : Course → Course) : (T.modCourse n f).lbad = T.lbad := rfl
@[simp] theorem Course.modLane_num (C : Course) (l : Nat) (f : Lane → Lane) : (C.modLane l f).num = C.num := rfl
@[simp] theorem Course.modLane_seq (C : Course) (l : Nat) (f : Lane → Lane) : (C.modLane l f).seq = C.seq := rfl
@[simp] theorem Course.modLane_backcnt (C : Course) (l : Nat) (f : Lane → Lane) : (C.modLane l f).backcnt = C.backcnt := rfl
@[simp] theorem Course.modLane_lastCoh (C : Course) (l : Nat) (f : Lane → Lane) : (C.modLane l f).lastCoh = C.lastCoh := rfl
@[simp] theorem Course.modLane_fpsr (C : Course) (l : Nat) (f : Lane → Lane) : (C.modLane l f).fpsr = C.fpsr := rfl
@[simp] theorem Course.modLane_stvec (C : Course) (l : Nat) (f : Lane → Lane) : (C.modLane l f).stvec = C.stvec := rfl
@[simp] theorem Course.modLane_awaits (C : Course) (l : Nat) (f : Lane → Lane) : (C.modLane l f).awaits = C.awaits := rfl
@[simp] theorem Course.modLane_parked (C : Course) (l : Nat) (f : Lane → Lane) : (C.modLane l f).parked = C.parked := rfl
@[simp] theorem Course.modLane_suspended (C : Course) (l : Nat) (f : Lane → Lane) : (C.modLane l f).suspended = C.suspended := rfl
@[simp] theorem Course.modLane_coh (C : Course) (l : Nat) (f : Lane → Lane) : (C.modLane l f).coh = C.coh := rfl
@[simp] theorem Course.modLane_walked (C : Course) (l : Nat) (f : Lane → Lane) : (C.modLane l f).walked = C.walked := rfl
@[simp] theorem Course.modLane_refused (C : Course) (l : Nat) (f : Lane → Lane) : (C.modLane l f).refused = C.refused := rfl
@[simp] theorem Course.modLane_fbarEp (C : Course) (l : Nat) (f : Lane → Lane) : (C.modLane l f).fbarEp = C.fbarEp := rfl
@[simp] theorem Course.modLane_gwaitEnd (C : Course) (l : Nat) (f : Lane → Lane) : (C.modLane l f).gwaitEnd = C.gwaitEnd := rfl
@[simp] theorem Course.modLane_barId (C : Course) (l : Nat) (f : Lane → Lane) : (C.modLane l f).barId = C.barId := rfl

end Sys2Proof.Machine
end

