-- ==== Sys2Proof/Laws/Units.lean ====
section
/-! SUPPORT. What is read of a team, a course, a lane, a core or a column after another operation has changed one. -/

namespace Sys2Proof.Machine

/-! ### Cores and columns -/

theorem State.core_modCore_same (s : State) (c : Nat) (f : Core → Core) : (s.modCore c f).core c = f (s.core c) :=
  mapGet_mapMod_same ..

theorem State.core_modCore_ne (s : State) {c d : Nat} (h : d ≠ c) (f : Core → Core) : (s.modCore c f).core d = s.core d :=
  mapGet_mapMod_ne _ h ..

theorem State.column_modCol_same (s : State) (c : Nat) (f : Column → Column) : (s.modCol c f).column c = f (s.column c) :=
  mapGet_mapMod_same ..

theorem State.column_modCol_ne (s : State) {c d : Nat} (h : d ≠ c) (f : Column → Column) : (s.modCol c f).column d = s.column d :=
  mapGet_mapMod_ne _ h ..

@[simp] theorem State.core_modCol (s : State) (c : Nat) (f : Column → Column) (d : Nat) : (s.modCol c f).core d = s.core d := rfl
@[simp] theorem State.team_modCol (s : State) (c : Nat) (f : Column → Column) (t : Nat) : (s.modCol c f).team t = s.team t := rfl
@[simp] theorem State.course_modCol (s : State) (c : Nat) (f : Column → Column) (t d : Nat) :
    (s.modCol c f).course t d = s.course t d := rfl
@[simp] theorem State.lane_modCol (s : State) (c : Nat) (f : Column → Column) (t d l : Nat) :
    (s.modCol c f).lane t d l = s.lane t d l := rfl
@[simp] theorem State.column_modCore (s : State) (c : Nat) (f : Core → Core) (d : Nat) : (s.modCore c f).column d = s.column d := rfl
@[simp] theorem State.team_modCore (s : State) (c : Nat) (f : Core → Core) (t : Nat) : (s.modCore c f).team t = s.team t := rfl
@[simp] theorem State.course_modCore (s : State) (c : Nat) (f : Core → Core) (t d : Nat) :
    (s.modCore c f).course t d = s.course t d := rfl
@[simp] theorem State.lane_modCore (s : State) (c : Nat) (f : Core → Core) (t d l : Nat) :
    (s.modCore c f).lane t d l = s.lane t d l := rfl

/-! ### Teams -/

@[simp] theorem State.core_modTeam (s : State) (t : Nat) (f : Team → Team) (c : Nat) : (s.modTeam t f).core c = s.core c := by
  simp [State.core]
@[simp] theorem State.column_modTeam (s : State) (t : Nat) (f : Team → Team) (c : Nat) :
    (s.modTeam t f).column c = s.column c := by simp [State.column]

theorem State.get_modTeam_same {s : State} {t : Nat} {T : Team} (h : mapGet? t s.teams = some T) (f : Team → Team) :
    mapGet? t (s.modTeam t f).teams = some (f T) := by
  simp [State.modTeam, h, mapGet?_mapPut_same]

theorem State.get_modTeam_ne (s : State) {t u : Nat} (h : u ≠ t) (f : Team → Team) :
    mapGet? u (s.modTeam t f).teams = mapGet? u s.teams := by
  unfold State.modTeam
  split
  · rfl
  · simp [mapGet?_mapPut_ne h]

theorem State.team_eq {s : State} {t : Nat} {T : Team} (h : mapGet? t s.teams = some T) : s.team t = T := by
  simp [State.team, mapGet, h]

theorem State.team_modTeam_ne (s : State) {t u : Nat} (h : u ≠ t) (f : Team → Team) : (s.modTeam t f).team u = s.team u := by
  simp [State.team, mapGet, State.get_modTeam_ne s h]

theorem State.team_modTeam_same {s : State} {t : Nat} {T : Team} (h : mapGet? t s.teams = some T) (f : Team → Team) :
    (s.modTeam t f).team t = f (s.team t) := by
  rw [State.team_eq (State.get_modTeam_same h f), State.team_eq h]

/-- What a change of a team leaves alone is read as before, of every team. -/
theorem State.team_modTeam_keep {α : Type} (g : Team → α) (s : State) (t : Nat) (f : Team → Team)
    (hg : ∀ T, g (f T) = g T) (u : Nat) : g ((s.modTeam t f).team u) = g (s.team u) := by
  by_cases hu : u = t
  · subst hu
    cases h : mapGet? u s.teams with
    | none => simp [State.modTeam, h]
    | some T => rw [State.team_modTeam_same h, hg]
  · rw [State.team_modTeam_ne s hu]

/-! ### Courses -/

/-- The team has a course of this number. -/
def State.HasCourse (s : State) (t c : Nat) : Prop := ∃ T, mapGet? t s.teams = some T ∧ c < T.courses.length

theorem State.hasCourse_of_coh {s : State} {t c : Nat} {h : Cohort} (hc : (s.course t c).coh = some h) : s.HasCourse t c := by
  cases ht : mapGet? t s.teams with
  | none => simp [State.course, Team.course, State.team, mapGet, ht, Team.blank, Course.blank] at hc
  | some T =>
    refine ⟨T, ht, ?_⟩
    by_contra hlt
    simp [State.course, Team.course, State.team_eq ht, List.getD, Course.blank, List.getElem?_eq_none (Nat.le_of_not_lt hlt)] at hc

theorem Team.course_modCourse_same (T : Team) {n : Nat} (h : n < T.courses.length) (f : Course → Course) :
    (T.modCourse n f).course n = f (T.course n) := by
  simp [Team.modCourse, Team.course, List.getD, h]

theorem Team.course_modCourse_ne (T : Team) {n m : Nat} (h : m ≠ n) (f : Course → Course) :
    (T.modCourse n f).course m = T.course m := by
  simp [Team.modCourse, Team.course, List.getD, h.symm]

theorem Team.course_modCourse_keep {α : Type} (g : Course → α) (T : Team) (n : Nat) (f : Course → Course)
    (hg : ∀ C, g (f C) = g C) (m : Nat) : g ((T.modCourse n f).course m) = g (T.course m) := by
  by_cases hm : m = n
  · subst hm
    by_cases hl : m < T.courses.length
    · rw [Team.course_modCourse_same T hl, hg]
    · simp [Team.modCourse, Team.course, List.getD, hl]
  · rw [Team.course_modCourse_ne T hm]

@[simp] theorem Team.length_modCourse (T : Team) (n : Nat) (f : Course → Course) :
    (T.modCourse n f).courses.length = T.courses.length := by simp [Team.modCourse]

/-- A change of a team that keeps the number of its courses keeps which courses there are. -/
theorem State.HasCourse.modTeam {s : State} {t c : Nat} (h : s.HasCourse t c) (u : Nat) (f : Team → Team)
    (hf : ∀ T, (f T).courses.length = T.courses.length) : (s.modTeam u f).HasCourse t c := by
  obtain ⟨T, hT, hc⟩ := h
  by_cases hu : t = u
  · subst hu; exact ⟨_, State.get_modTeam_same hT f, by rwa [hf]⟩
  · exact ⟨T, by rwa [State.get_modTeam_ne s hu], hc⟩

theorem State.HasCourse.modCourse {s : State} {t c : Nat} (h : s.HasCourse t c) (u d : Nat) (f : Course → Course) :
    (s.modCourse u d f).HasCourse t c := h.modTeam u _ (fun T => T.length_modCourse d f)

theorem State.HasCourse.modLane {s : State} {t c : Nat} (h : s.HasCourse t c) (u d l : Nat) (f : Lane → Lane) :
    (s.modLane u d l f).HasCourse t c := h.modCourse u d _

theorem State.course_modCourse_same {s : State} {t c : Nat} (h : s.HasCourse t c) (f : Course → Course) :
    (s.modCourse t c f).course t c = f (s.course t c) := by
  obtain ⟨T, hT, hc⟩ := h
  rw [State.course, State.modCourse, State.team_modTeam_same hT, State.team_eq hT, Team.course_modCourse_same T hc,
    State.course, State.team_eq hT]

theorem State.course_modCourse_ne (s : State) {t c u d : Nat} (h : ¬(u = t ∧ d = c)) (f : Course → Course) :
    (s.modCourse t c f).course u d = s.course u d := by
  by_cases hu : u = t
  · subst hu
    have hd : d ≠ c := fun e => h ⟨rfl, e⟩
    exact State.team_modTeam_keep (fun T => T.course d) s u _ (fun T => T.course_modCourse_ne hd f) u
  · rw [State.course, State.modCourse, State.team_modTeam_ne s hu, State.course]

theorem State.course_modCourse_keep {α : Type} (g : Course → α) (s : State) (t c : Nat) (f : Course → Course)
    (hg : ∀ C, g (f C) = g C) (u d : Nat) : g ((s.modCourse t c f).course u d) = g (s.course u d) :=
  State.team_modTeam_keep (fun T => g (T.course d)) s t _ (fun T => T.course_modCourse_keep g c f hg d) u

/-- What a change of a course leaves alone of its team. -/
theorem State.team_modCourse_keep {α : Type} (g : Team → α) (s : State) (t c : Nat) (f : Course → Course)
    (hg : ∀ T, g (T.modCourse c f) = g T) (u : Nat) : g ((s.modCourse t c f).team u) = g (s.team u) :=
  State.team_modTeam_keep g s t _ hg u

/-! ### Lanes -/

theorem Course.lane_modLane_same (C : Course) {l : Nat} (h : l < C.lanes.length) (f : Lane → Lane) :
    (C.modLane l f).lane l = f (C.lane l) := by
  simp [Course.modLane, Course.lane, List.getD, h]

theorem Course.lane_modLane_ne (C : Course) {l m : Nat} (h : m ≠ l) (f : Lane → Lane) : (C.modLane l f).lane m = C.lane m := by
  simp [Course.modLane, Course.lane, List.getD, h.symm]

theorem Course.lane_modLane_keep {α : Type} (g : Lane → α) (C : Course) (l : Nat) (f : Lane → Lane)
    (hg : ∀ L, g (f L) = g L) (m : Nat) : g ((C.modLane l f).lane m) = g (C.lane m) := by
  by_cases hm : m = l
  · subst hm
    by_cases hl : m < C.lanes.length
    · rw [Course.lane_modLane_same C hl, hg]
    · simp [Course.modLane, Course.lane, List.getD, hl]
  · rw [Course.lane_modLane_ne C hm]

@[simp] theorem Course.length_modLane (C : Course) (l : Nat) (f : Lane → Lane) :
    (C.modLane l f).lanes.length = C.lanes.length := by simp [Course.modLane]

/-- A lane that is not absent stands in its course's list. -/
theorem Course.lane_lt {C : Course} {l : Nat} (h : (C.lane l).cls ≠ .absent) : l < C.lanes.length := by
  by_contra hl
  simp [Course.lane, List.getD, List.getElem?_eq_none (Nat.le_of_not_lt hl)] at h

theorem State.lane_modLane_same {s : State} {t c l : Nat} (h : s.HasCourse t c) (hl : l < (s.course t c).lanes.length)
    (f : Lane → Lane) : (s.modLane t c l f).lane t c l = f (s.lane t c l) := by
  rw [State.lane, State.modLane, State.course_modCourse_same h, Course.lane_modLane_same _ hl, State.lane]

theorem State.lane_modLane_ne (s : State) {t c l u d m : Nat} (h : ¬(u = t ∧ d = c ∧ m = l)) (f : Lane → Lane) :
    (s.modLane t c l f).lane u d m = s.lane u d m := by
  by_cases hc : u = t ∧ d = c
  · obtain ⟨rfl, rfl⟩ := hc
    have hm : m ≠ l := fun e => h ⟨rfl, rfl, e⟩
    exact State.course_modCourse_keep (fun C => C.lane m) s u d _ (fun C => C.lane_modLane_ne hm f) u d
  · rw [State.lane, State.modLane, State.course_modCourse_ne s hc, State.lane]

theorem State.lane_modLane_keep {α : Type} (g : Lane → α) (s : State) (t c l : Nat) (f : Lane → Lane)
    (hg : ∀ L, g (f L) = g L) (u d m : Nat) : g ((s.modLane t c l f).lane u d m) = g (s.lane u d m) :=
  State.course_modCourse_keep (fun C => g (C.lane m)) s t c _ (fun C => C.lane_modLane_keep g l f hg m) u d

/-- A change of a course that leaves its lanes alone. -/
theorem State.lane_modCourse_keep (s : State) (t c : Nat) (f : Course → Course) (hf : ∀ C, (f C).lanes = C.lanes) (u d m : Nat) :
    (s.modCourse t c f).lane u d m = s.lane u d m :=
  State.course_modCourse_keep (fun C => C.lane m) s t c f (fun C => by simp only [Course.lane, hf]) u d

@[simp] theorem State.length_lanes_modLane (s : State) (t c l : Nat) (f : Lane → Lane) (u d : Nat) :
    ((s.modLane t c l f).course u d).lanes.length = (s.course u d).lanes.length :=
  State.course_modCourse_keep (fun C => C.lanes.length) s t c _ (fun C => C.length_modLane l f) u d

/-! ### Changing several lanes -/

theorem State.HasCourse.foldLanes {s : State} {t c : Nat} (h : s.HasCourse t c) (u d : Nat) (g : Nat → Lane → Lane) (ls : List Nat) :
    (ls.foldl (fun s l => s.modLane u d l (g l)) s).HasCourse t c := by
  induction ls generalizing s with
  | nil => exact h
  | cons l r ih => exact ih (h.modLane u d l _)

/-- Lanes outside the list are as before. -/
theorem State.lane_foldLanes_out (s : State) (t c : Nat) (g : Nat → Lane → Lane) {ls : List Nat} {u d m : Nat}
    (h : ¬(u = t ∧ d = c ∧ m ∈ ls)) : (ls.foldl (fun s l => s.modLane t c l (g l)) s).lane u d m = s.lane u d m := by
  induction ls generalizing s with
  | nil => rfl
  | cons l r ih =>
    rw [List.foldl_cons, ih _ (fun e => h ⟨e.1, e.2.1, List.mem_cons_of_mem _ e.2.2⟩)]
    exact State.lane_modLane_ne s (fun e => h ⟨e.1, e.2.1, by simp [e.2.2]⟩) _

/-- Each lane of the list is changed once. -/
theorem State.lane_foldLanes_in {s : State} {t c : Nat} (hs : s.HasCourse t c) (g : Nat → Lane → Lane) {ls : List Nat}
    (hn : ls.Nodup) {m : Nat} (hm : m ∈ ls) (hl : m < (s.course t c).lanes.length) :
    (ls.foldl (fun s l => s.modLane t c l (g l)) s).lane t c m = g m (s.lane t c m) := by
  induction ls generalizing s with
  | nil => simp at hm
  | cons l r ih =>
    rw [List.nodup_cons] at hn
    rw [List.foldl_cons]
    by_cases e : m = l
    · subst e
      rw [State.lane_foldLanes_out _ _ _ _ (fun h => hn.1 h.2.2), State.lane_modLane_same hs hl]
    · rw [ih (hs.modLane t c l _) hn.2 ((List.mem_cons.mp hm).resolve_left e) (by simpa using hl)]
      rw [State.lane_modLane_ne s (fun h => e h.2.2)]

/-- What the change of each lane leaves alone is read as before, of every lane. -/
theorem State.lane_foldLanes_keep {α : Type} (k : Lane → α) (s : State) (t c : Nat) (g : Nat → Lane → Lane)
    (hk : ∀ l L, k (g l L) = k L) (ls : List Nat) (u d m : Nat) :
    k ((ls.foldl (fun s l => s.modLane t c l (g l)) s).lane u d m) = k (s.lane u d m) := by
  induction ls generalizing s with
  | nil => rfl
  | cons l r ih => rw [List.foldl_cons, ih, State.lane_modLane_keep k s t c l _ (hk l)]

/-- What a change of lanes leaves alone of every team. -/
theorem State.team_foldLanes_keep {α : Type} (k : Team → α) (s : State) (t c : Nat) (g : Nat → Lane → Lane)
    (hk : ∀ T f, k (T.modCourse c f) = k T) (ls : List Nat) (u : Nat) :
    k ((ls.foldl (fun s l => s.modLane t c l (g l)) s).team u) = k (s.team u) := by
  induction ls generalizing s with
  | nil => rfl
  | cons l r ih => rw [List.foldl_cons, ih]; exact State.team_modCourse_keep k s t c _ (fun T => hk T _) u

/-- What a change of lanes leaves alone of every course. -/
theorem State.course_foldLanes_keep {α : Type} (k : Course → α) (s : State) (t c : Nat) (g : Nat → Lane → Lane)
    (hk : ∀ C l f, k (C.modLane l f) = k C) (ls : List Nat) (u d : Nat) :
    k ((ls.foldl (fun s l => s.modLane t c l (g l)) s).course u d) = k (s.course u d) := by
  induction ls generalizing s with
  | nil => rfl
  | cons l r ih => rw [List.foldl_cons, ih]; exact State.course_modCourse_keep k s t c _ (fun C => hk C l _) u d

/-- A change of lanes changes nothing but the teams. -/
theorem State.foldLanes_keep {α : Type} (k : State → α) (s : State) (t c : Nat) (g : Nat → Lane → Lane)
    (hk : ∀ (s : State) l f, k (s.modLane t c l f) = k s) (ls : List Nat) :
    k (ls.foldl (fun s l => s.modLane t c l (g l)) s) = k s := by
  induction ls generalizing s with
  | nil => rfl
  | cons l r ih => rw [List.foldl_cons, ih, hk]

end Sys2Proof.Machine
end

