-- ==== Sys2Proof/Laws/MemBase.lean ====
section
/-! SUPPORT. Memory keeps its canonical form: the folds that definitions use. -/

namespace Sys2Proof.Machine

/-- An outcome whose next state keeps the form of memory. -/
def Keeps (x : Host.Outcome State Fault Refusal) : Prop := ∀ t, x = .next t → Memory.wf t.mem = true

@[simp] theorem keeps_next (t : State) : Keeps (.next t) ↔ Memory.wf t.mem = true := by simp [Keeps]
@[simp] theorem keeps_fault (f : Fault) : Keeps (.fault f) := by simp [Keeps]
@[simp] theorem keeps_refused (r : Refusal) : Keeps (.refused r) := by simp [Keeps]

@[simp] theorem foldl_mem {α : Type} (f : State → α → State) (h : ∀ s x, (f s x).mem = s.mem) (s : State) (l : List α) :
    (l.foldl f s).mem = s.mem := by
  induction l generalizing s with
  | nil => rfl
  | cons x r ih => rw [List.foldl_cons, ih, h]

@[simp] theorem foldl_run_mem {α : Type} (f : Run → α → Run) (h : ∀ r x, (f r x).s.mem = r.s.mem) (r : Run) (l : List α) :
    (l.foldl f r).s.mem = r.s.mem := by
  induction l generalizing r with
  | nil => rfl
  | cons x l ih => rw [List.foldl_cons, ih, h]

theorem foldl_wf {α : Type} (f : State → α → State) (h : ∀ s x, Memory.wf s.mem = true → Memory.wf (f s x).mem = true) (s : State)
    (hs : Memory.wf s.mem = true) (l : List α) : Memory.wf (l.foldl f s).mem = true := by
  induction l generalizing s with
  | nil => exact hs
  | cons x r ih => exact ih _ (h s x hs)

theorem foldl_run_wf {α : Type} (f : Run → α → Run)
    (h : ∀ r x, Memory.wf r.s.mem = true → Memory.wf r.s0.mem = true → Memory.wf (f r x).s.mem = true ∧ Memory.wf (f r x).s0.mem = true)
    (r : Run) (hr : Memory.wf r.s.mem = true) (hr0 : Memory.wf r.s0.mem = true) (l : List α) :
    Memory.wf (l.foldl f r).s.mem = true ∧ Memory.wf (l.foldl f r).s0.mem = true := by
  induction l generalizing r with
  | nil => exact ⟨hr, hr0⟩
  | cons x l ih => exact ih _ (h r x hr hr0).1 (h r x hr hr0).2

@[simp] theorem foldl_run_s0 {α : Type} (f : Run → α → Run) (h : ∀ r x, (f r x).s0 = r.s0) (r : Run) (l : List α) :
    (l.foldl f r).s0 = r.s0 := by
  induction l generalizing r with
  | nil => rfl
  | cons x l ih => rw [List.foldl_cons, ih, h]

/-- What each step of a fold keeps holds at its end. -/
theorem foldl_inv {α β : Type} (P : β → Prop) (f : β → α → β) (h : ∀ b x, P b → P (f b x)) (b : β) (hb : P b) (l : List α) :
    P (l.foldl f b) := by
  induction l generalizing b with
  | nil => exact hb
  | cons x r ih => exact ih _ (h b x hb)

end Sys2Proof.Machine
end

