-- ==== Sys2Proof/Laws/MemOps.lean ====
section
/-! SUPPORT. Memory keeps its canonical form: the definitions of Machine/Ops.lean. -/

set_option linter.all false

namespace Sys2Proof.Machine

@[simp] theorem State.take_mem (s : State) (col rank : Nat) : (State.take s col rank).mem = s.mem := by
  simp [State.take]

@[simp] theorem State.useUnit_mem (s : State) (core rank : Nat) : (State.useUnit s core rank).mem = s.mem := by
  simp [State.useUnit]

@[simp] theorem State.portPop_mem (s : State) (t port : Nat) : (State.portPop s t port).2.mem = s.mem := by
  unfold State.portPop
  repeat' first
    | rfl
    | (simp [apply_ite State.mem, apply_ite Run.s]; done)
    | split
    | refine (foldl_mem _ (fun s x => ?_) _ _).trans ?_
    | refine (foldl_run_mem _ (fun s x => ?_) _ _).trans ?_
    | dsimp only
    | simp

@[simp] theorem State.portPush_mem (s : State) (t port : Nat) (e : QEntry) : (State.portPush s t port e).mem = s.mem := by
  simp [State.portPush]

@[simp] theorem State.pushGroup_mem (s : State) (core c : Nat) (e : QEntry) : (State.pushGroup s core c e).mem = s.mem := by
  simp [State.pushGroup]

@[simp] theorem State.pushLane_mem (s : State) (t c l : Nat) (v : Word) : (State.pushLane s t c l v).mem = s.mem := by
  unfold State.pushLane
  repeat' first
    | rfl
    | (simp [apply_ite State.mem, apply_ite Run.s]; done)
    | split
    | refine (foldl_mem _ (fun s x => ?_) _ _).trans ?_
    | refine (foldl_run_mem _ (fun s x => ?_) _ _).trans ?_
    | dsimp only
    | simp

@[simp] theorem State.acquire_mem (s : State) (core scope : Nat) : (State.acquire s core scope).mem = s.mem := by
  unfold State.acquire
  repeat' first
    | rfl
    | (simp [apply_ite State.mem, apply_ite Run.s]; done)
    | split
    | refine (foldl_mem _ (fun s x => ?_) _ _).trans ?_
    | refine (foldl_run_mem _ (fun s x => ?_) _ _).trans ?_
    | dsimp only
    | simp

@[simp] theorem State.consume_mem (s : State) (t k : Nat) : (State.consume s t k).mem = s.mem := by
  unfold State.consume
  repeat' first
    | rfl
    | (simp [apply_ite State.mem, apply_ite Run.s]; done)
    | split
    | refine (foldl_mem _ (fun s x => ?_) _ _).trans ?_
    | refine (foldl_run_mem _ (fun s x => ?_) _ _).trans ?_
    | dsimp only
    | simp

@[simp] theorem State.setInt_mem (s : State) (col b : Nat) : (State.setInt s col b).mem = s.mem := by
  unfold State.setInt
  repeat' first
    | rfl
    | (simp [apply_ite State.mem, apply_ite Run.s]; done)
    | split
    | refine (foldl_mem _ (fun s x => ?_) _ _).trans ?_
    | refine (foldl_run_mem _ (fun s x => ?_) _ _).trans ?_
    | dsimp only
    | simp

@[simp] theorem State.setTerr_mem (s : State) (t : Nat) : (State.setTerr s t).mem = s.mem := by
  simp [State.setTerr]

@[simp] theorem State.scqRecord_mem (s : State) (col : Nat) (r : SuspRec) : (State.scqRecord s col r).mem = s.mem := by
  unfold State.scqRecord
  repeat' first
    | rfl
    | (simp [apply_ite State.mem, apply_ite Run.s]; done)
    | split
    | refine (foldl_mem _ (fun s x => ?_) _ _).trans ?_
    | refine (foldl_run_mem _ (fun s x => ?_) _ _).trans ?_
    | dsimp only
    | simp

@[simp] theorem State.suspend_mem (s : State) (t c : Nat) (lanes : List Nat) : (State.suspend s t c lanes).mem = s.mem := by
  unfold State.suspend
  repeat' first
    | rfl
    | (simp [apply_ite State.mem, apply_ite Run.s]; done)
    | split
    | refine (foldl_mem _ (fun s x => ?_) _ _).trans ?_
    | refine (foldl_run_mem _ (fun s x => ?_) _ _).trans ?_
    | dsimp only
    | simp

@[simp] theorem State.deliver_mem (s : State) (t c : Nat) (flts : List (Nat × FltRec)) (ip succ : Word) (succIn : Bool) (issued : Nat) : (State.deliver s t c flts ip succ succIn issued).mem = s.mem := by
  unfold State.deliver
  extract_lets T C now real entered marked s1 s2 s3 rest s4
  have h1 : s1.mem = s.mem := by simp only [s1]; split <;> simp
  have h2 : s2.mem = s.mem := by
    refine (foldl_mem _ (fun s x => ?_) _ _).trans h1
    split <;> simp
  have h3 : s3.mem = s.mem := (foldl_mem _ (fun s x => by simp) _ _).trans h2
  split
  · simp [h3]
  · simp [s4, h3]

@[simp] theorem State.park_mem (s : State) (t c : Nat) (ws : List Wait) : (State.park s t c ws).mem = s.mem := by
  unfold State.park
  repeat' first
    | rfl
    | (simp [apply_ite State.mem, apply_ite Run.s]; done)
    | split
    | refine (foldl_mem _ (fun s x => ?_) _ _).trans ?_
    | refine (foldl_run_mem _ (fun s x => ?_) _ _).trans ?_
    | dsimp only
    | simp

@[simp] theorem State.newId_mem (s : State) : (State.newId s).2.mem = s.mem := by
  simp [State.newId]

@[simp] theorem State.freeWord_mem (s : State) : (State.freeWord s).2.mem = s.mem := by
  simp [State.freeWord]

end Sys2Proof.Machine
end

