-- ==== Sys2Proof/Laws/MemOperands.lean ====
section
/-! SUPPORT. Memory keeps its canonical form: the definitions of Machine/Operands.lean. -/

set_option linter.all false

namespace Sys2Proof.Machine

@[simp] theorem Run.fault_s (r : Run) (l : Nat) (f : FltRec) : (r.fault l f).s = r.s := by
  unfold Run.fault; split <;> rfl

@[simp] theorem Run.fault_s0 (r : Run) (l : Nat) (f : FltRec) : (r.fault l f).s0 = r.s0 := by
  unfold Run.fault; split <;> rfl

@[simp] theorem Run.check_s (r : Run) (ls : List Nat) (f : Nat → Option FltRec) : (r.check ls f).s = r.s := by
  unfold Run.check
  induction ls generalizing r with
  | nil => rfl
  | cons l ls ih => rw [List.foldl_cons, ih]; split <;> simp

@[simp] theorem Run.check_s0 (r : Run) (ls : List Nat) (f : Nat → Option FltRec) : (r.check ls f).s0 = r.s0 := by
  unfold Run.check
  induction ls generalizing r with
  | nil => rfl
  | cons l ls ih => rw [List.foldl_cons, ih]; split <;> simp

@[simp] theorem Run.faultAll_s (r : Run) (f : FltRec) : (r.faultAll f).s = r.s := by
  unfold Run.faultAll
  generalize List.filter r.live r.on = ls
  rw [show r.s = Run.s { r with void := true } from rfl]
  generalize { r with void := true } = r'
  induction ls generalizing r' with
  | nil => rfl
  | cons l ls ih => rw [List.foldl_cons, ih]; simp

@[simp] theorem Run.faultAll_s0 (r : Run) (f : FltRec) : (r.faultAll f).s0 = r.s0 := by
  unfold Run.faultAll
  generalize List.filter r.live r.on = ls
  rw [show r.s0 = Run.s0 { r with void := true } from rfl]
  generalize { r with void := true } = r'
  induction ls generalizing r' with
  | nil => rfl
  | cons l ls ih => rw [List.foldl_cons, ih]; simp

@[simp] theorem Run.park_mem (r : Run) (ws : List Wait) : (r.park ws).mem = r.s0.mem := by simp [Run.park]

theorem Run.early_s (r : Run) (p : Pro) : (r.early p).s = r.s ∧ (r.early p).s0 = r.s0 := by
  have h1 : (r.narrow p.one).s = r.s ∧ (r.narrow p.one).s0 = r.s0 := by unfold Run.narrow; split <;> exact ⟨rfl, rfl⟩
  have h2 : ((r.narrow p.one).judgeMode p).s = r.s ∧ ((r.narrow p.one).judgeMode p).s0 = r.s0 := by
    unfold Run.judgeMode; split
    · exact h1
    · split <;> simp [h1]
  have h3 : (((r.narrow p.one).judgeMode p).judgePorts p).s = r.s ∧ (((r.narrow p.one).judgeMode p).judgePorts p).s0 = r.s0 := by
    generalize (r.narrow p.one).judgeMode p = r' at h2 ⊢
    unfold Run.judgePorts
    split
    · exact h2
    · simp [h2]
  unfold Run.early
  generalize ((r.narrow p.one).judgeMode p).judgePorts p = r' at h3 ⊢
  simp [Run.judgeFields, h3]

theorem startRun_s {o : Ops} {d : Pro} {s : State} {r : Run} (h : startRun o d s = some r) : r.s = s ∧ r.s0 = s := by
  unfold startRun at h
  split at h
  · simp at h
  · simp only at h
    split at h
    · simp at h
    · simp only [Option.some.injEq] at h; subst h; exact ⟨rfl, rfl⟩

/-- The run of an instruction begins in the state before it. -/
theorem prologue_s {o : Ops} {p : Pro} {s : State} {r : Run} (h : prologue o p s = .go r) : r.s = s ∧ r.s0 = s := by
  unfold prologue at h
  split at h
  · simp at h
  · next r1 h1 =>
    have e := startRun_s h1
    split at h
    · simp at h
    · split at h
      · simp at h
      · simp only [Pre.go.injEq] at h
        subst h
        have := Run.early_s r1 p
        simp [Run.judgeSound, Run.judgeEmpty, this, e]

theorem prologue_parked_mem {o : Ops} {p : Pro} {s s' : State} (h : prologue o p s = .parked s') : s'.mem = s.mem := by
  unfold prologue at h
  split at h
  · simp at h
  · next r1 h1 =>
    have e := startRun_s h1
    have := Run.early_s r1 p
    split at h
    · simp only [Pre.parked.injEq] at h; subst h; simp [Run.park, e]
    · split at h
      · simp only [Pre.parked.injEq] at h; subst h; simp [Run.park, e, this]
      · simp at h

@[simp] theorem Run.consumeSrcs_mem (r : Run) : r.consumeSrcs.mem = r.s.mem := by
  unfold Run.consumeSrcs
  split
  · rfl
  · refine (foldl_mem _ (fun s x => ?_) _ _).trans ?_
    · split <;> simp
    · refine foldl_mem _ (fun s x => ?_) _ _
      split
      · next h => have := State.portPop_mem s r.t x; rw [h] at this; exact this
      · next h => have := State.portPop_mem s r.t x; rw [h] at this; simpa using this

@[simp] theorem Run.finish_mem (r : Run) : r.finish.mem = r.s.mem := by
  unfold Run.finish
  extract_lets s1 s2 s3
  have h2 : s2.mem = r.s.mem := by
    refine (foldl_mem _ (fun s x => ?_) _ _).trans ?_
    · split <;> simp
    · simp [s1]
  split <;> simp [s3, h2]

/-- An instruction keeps the form of memory if its own effect does. -/
theorem withRun_keeps {o : Ops} {p : Pro} {s : State} (hm : Memory.wf s.mem = true) (f : Run → State)
    (hf : ∀ r, Memory.wf r.s.mem = true → Memory.wf r.s0.mem = true → Memory.wf (f r).mem = true) : Keeps (withRun o p s f) := by
  unfold withRun
  split
  · simp
  · next h => simp [prologue_parked_mem h, hm]
  · next r h =>
    have := prologue_s h
    rw [keeps_next]
    exact hf r (by rw [this.1, hm]) (by rw [this.2, hm])

@[simp] theorem Run.write_s_mem (r : Run) (res : Nat → LRes) : (r.write res).s.mem = r.s.mem := by
  unfold Run.write
  extract_lets raised r1 ten r2
  have h : r2.s.mem = r.s.mem := by simp [r2, r1, apply_ite State.mem]
  repeat' first
    | exact h
    | split
    | refine (foldl_mem _ (fun s x => ?_) _ _).trans ?_
    | (simp [h]; done)

@[simp] theorem Run.write_s0 (r : Run) (res : Nat → LRes) : (r.write res).s0 = r.s0 := by
  unfold Run.write
  extract_lets raised r1 ten r2
  have h : r2.s0 = r.s0 := by simp [r2, r1]
  repeat' first
    | exact h
    | split

theorem aluRun_keeps (o : Ops) (p : Pro) (s : State) (res : Run → Nat → LRes) (hm : Memory.wf s.mem = true) :
    Keeps (aluRun o p s res) := by
  refine withRun_keeps hm _ (fun r h h0 => ?_)
  simp [*]

theorem Run.once_wf (r : Run) (fault : Nat → Option FltRec) (f : Run → Nat → State) (hm : Memory.wf r.s.mem = true)
    (hf : ∀ l, Memory.wf (f r l).mem = true) : Memory.wf (r.once fault f).mem = true := by
  unfold Run.once
  repeat' first
    | exact hf _
    | (simp [hm]; done)
    | split

end Sys2Proof.Machine
end

