-- ==== Sys2Proof/Laws/MemTranslate.lean ====
section
/-! SUPPORT. Memory keeps its canonical form: the definitions of Machine/Translate.lean. -/

set_option linter.all false

namespace Sys2Proof.Machine

@[simp] theorem State.startWalk_mem (s : State) (t page : Nat) : (State.startWalk s t page).mem = s.mem := by
  simp [State.startWalk]

@[simp] theorem Run.parkWalk_mem (r : Run) (pages : List Nat) : (r.parkWalk pages).mem = r.s0.mem := by
  unfold Run.parkWalk
  repeat' first
    | rfl
    | (simp [apply_ite State.mem]; done)
    | split
    | refine (foldl_mem _ (fun s x => ?_) _ _).trans ?_
    | dsimp only

@[simp] theorem State.addTlb_mem (s : State) (core : Nat) (e : TlbEnt) : (State.addTlb s core e).mem = s.mem := by
  simp [State.addTlb]

@[simp] theorem State.dropAsid_mem (s : State) (core asid : Nat) : (State.dropAsid s core asid).mem = s.mem := by
  simp [State.dropAsid]

end Sys2Proof.Machine
end

