-- ==== Sys2Proof/Laws/MemFront.lean ====
section
/-! SUPPORT. Memory keeps its canonical form: the definitions of Machine/Front.lean. -/

set_option linter.all false

namespace Sys2Proof.Machine



end Sys2Proof.Machine
end

