-- ==== Sys2Proof/Laws/MemSched.lean ====
section
/-! SUPPORT. Memory keeps its canonical form: the definitions of Machine/Sched.lean. -/

set_option linter.all false

namespace Sys2Proof.Machine

@[simp] theorem State.takeTurn_mem (s : State) (core q : Nat) (tc : Nat × Nat) : (State.takeTurn s core q tc).mem = s.mem := by
  simp [State.takeTurn]

@[simp] theorem State.setRunning_mem (s : State) (core q : Nat) (tc : Nat × Nat) (newBatch : Bool) : (State.setRunning s core q tc newBatch).mem = s.mem := by
  simp [State.setRunning]

@[simp] theorem State.beginBatch_mem (s : State) (t c : Nat) : (State.beginBatch s t c).mem = s.mem := by
  unfold State.beginBatch
  repeat' first
    | rfl
    | (simp [apply_ite State.mem, apply_ite Run.s]; done)
    | split
    | refine (foldl_mem _ (fun s x => ?_) _ _).trans ?_
    | refine (foldl_run_mem _ (fun s x => ?_) _ _).trans ?_
    | dsimp only
    | simp

end Sys2Proof.Machine
end

