-- ==== Sys2Proof/Laws/MemControl.lean ====
section
/-! SUPPORT. Memory keeps its canonical form: the definitions of Machine/Control.lean. -/

set_option linter.all false

namespace Sys2Proof.Machine

@[simp] theorem State.boundary_mem (s : State) (t c : Nat) : (State.boundary s t c).mem = s.mem := by
  unfold State.boundary
  repeat' first
    | rfl
    | (simp [apply_ite State.mem, apply_ite Run.s]; done)
    | split
    | refine (foldl_mem _ (fun s x => ?_) _ _).trans ?_
    | refine (foldl_run_mem _ (fun s x => ?_) _ _).trans ?_
    | dsimp only
    | simp

@[simp] theorem State.takeQuiesce_mem (s : State) (t c : Nat) : (State.takeQuiesce s t c).mem = s.mem := by
  unfold State.takeQuiesce
  repeat' first
    | rfl
    | (simp [apply_ite State.mem, apply_ite Run.s]; done)
    | split
    | refine (foldl_mem _ (fun s x => ?_) _ _).trans ?_
    | refine (foldl_run_mem _ (fun s x => ?_) _ _).trans ?_
    | dsimp only
    | simp

@[simp] theorem State.lateQuiesce_mem (s : State) (t c : Nat) : (State.lateQuiesce s t c).mem = s.mem := by
  unfold State.lateQuiesce
  repeat' first
    | rfl
    | (simp [apply_ite State.mem, apply_ite Run.s]; done)
    | split
    | refine (foldl_mem _ (fun s x => ?_) _ _).trans ?_
    | refine (foldl_run_mem _ (fun s x => ?_) _ _).trans ?_
    | dsimp only
    | simp

@[simp] theorem State.releaseBars_mem (s : State) (t : Nat) : (State.releaseBars s t).mem = s.mem := by
  unfold State.releaseBars
  repeat' first
    | rfl
    | (simp [apply_ite State.mem, apply_ite Run.s]; done)
    | split
    | refine (foldl_mem _ (fun s x => ?_) _ _).trans ?_
    | refine (foldl_run_mem _ (fun s x => ?_) _ _).trans ?_
    | dsimp only
    | simp

@[simp] theorem State.yieldRun_mem (s : State) (t c : Nat) : (State.yieldRun s t c).mem = s.mem := by
  simp [State.yieldRun]

@[simp] theorem execBtl_keeps (o : Ops) (count : Nat) (yld : Bool) (s : State) (hm : Memory.wf s.mem = true) : Keeps (execBtl o count yld s) := by
  unfold execBtl
  repeat' first
    | assumption
    | (simp [*]; done)
    | split
    | refine foldl_wf _ (fun s x hs => ?_) _ ?_ _
    | dsimp only
    | simp [*]

@[simp] theorem execNop_keeps (o : Ops) (s : State) (hm : Memory.wf s.mem = true) : Keeps (execNop o s) := by
  refine withRun_keeps hm _ (fun r h1 h0 => ?_)
  simp [*]

@[simp] theorem Run.transfer_mem (r : Run) (call ret br : Bool) (dest : Nat → Word) : (Run.transfer r call ret br dest).s.mem = r.s.mem := by
  unfold Run.transfer
  repeat' first
    | rfl
    | (simp [apply_ite State.mem, apply_ite Run.s]; done)
    | split
    | refine (foldl_mem _ (fun s x => ?_) _ _).trans ?_
    | refine (foldl_run_mem _ (fun s x => ?_) _ _).trans ?_
    | dsimp only
    | simp

@[simp] theorem Run.transfer_s0 (r : Run) (call ret br : Bool) (dest : Nat → Word) : (Run.transfer r call ret br dest).s0 = r.s0 := by
  unfold Run.transfer
  repeat' first
    | rfl
    | (simp [apply_ite Run.s0]; done)
    | split
    | refine (foldl_run_s0 _ (fun s x => ?_) _ _).trans ?_
    | dsimp only
    | simp

@[simp] theorem execBra_keeps (o : Ops) (off : BitVec 32) (s : State) (hm : Memory.wf s.mem = true) : Keeps (execBra o off s) := by
  refine withRun_keeps hm _ (fun r h1 h0 => ?_)
  simp [*]

@[simp] theorem execBrx_keeps (o : Ops) (s : State) (hm : Memory.wf s.mem = true) : Keeps (execBrx o s) := by
  refine withRun_keeps hm _ (fun r h1 h0 => ?_)
  simp [*]

@[simp] theorem execCall_keeps (o : Ops) (off : BitVec 32) (s : State) (hm : Memory.wf s.mem = true) : Keeps (execCall o off s) := by
  refine withRun_keeps hm _ (fun r h1 h0 => ?_)
  simp [*]

@[simp] theorem execCallx_keeps (o : Ops) (s : State) (hm : Memory.wf s.mem = true) : Keeps (execCallx o s) := by
  refine withRun_keeps hm _ (fun r h1 h0 => ?_)
  simp [*]

@[simp] theorem execRet_keeps (o : Ops) (s : State) (hm : Memory.wf s.mem = true) : Keeps (execRet o s) := by
  refine withRun_keeps hm _ (fun r h1 h0 => ?_)
  simp [*]

@[simp] theorem Run.setXfer_mem (r : Run) (x : Xfer) : (Run.setXfer r x).s.mem = r.s.mem := by
  simp [Run.setXfer]

@[simp] theorem Run.setXfer_s0 (r : Run) (x : Xfer) : (Run.setXfer r x).s0 = r.s0 := by
  simp [Run.setXfer]

@[simp] theorem execExit_keeps (o : Ops) (s : State) (hm : Memory.wf s.mem = true) : Keeps (execExit o s) := by
  refine withRun_keeps hm _ (fun r h1 h0 => ?_)
  simp [*]

@[simp] theorem execTrap_keeps (o : Ops) (code : Nat) (s : State) (hm : Memory.wf s.mem = true) : Keeps (execTrap o code s) := by
  refine withRun_keeps hm _ (fun r h1 h0 => ?_)
  simp [*]

@[simp] theorem execYield_keeps (o : Ops) (s : State) (hm : Memory.wf s.mem = true) : Keeps (execYield o s) := by
  unfold execYield
  refine withRun_keeps hm _ (fun r h1 h0 => ?_)
  repeat' first
    | assumption
    | (simp [*]; done)
    | split
    | refine foldl_wf _ (fun s x hs => ?_) _ ?_ _
    | refine foldl_run_wf _ (fun r x hr hr0 => ⟨?_, ?_⟩) _ ?_ ?_ _
    | dsimp only
    | simp only [Bool.not_eq_true', ite_not]

@[simp] theorem execBar_keeps (o : Ops) (id : Nat) (s : State) (hm : Memory.wf s.mem = true) : Keeps (execBar o id s) := by
  refine withRun_keeps hm _ (fun r h1 h0 => ?_)
  simp [*]

@[simp] theorem Run.trapRet_mem (r : Run) (bad : Bool) : (Run.trapRet r bad).s.mem = r.s.mem := by
  simp [Run.trapRet]

@[simp] theorem Run.trapRet_s0 (r : Run) (bad : Bool) : (Run.trapRet r bad).s0 = r.s0 := by
  simp [Run.trapRet]

@[simp] theorem execTret_keeps (o : Ops) (s : State) (hm : Memory.wf s.mem = true) : Keeps (execTret o s) := by
  refine withRun_keeps hm _ (fun r h1 h0 => ?_)
  simp [*]

@[simp] theorem execSret_keeps (o : Ops) (s : State) (hm : Memory.wf s.mem = true) : Keeps (execSret o s) := by
  refine withRun_keeps hm _ (fun r h1 h0 => ?_)
  simp [*]

@[simp] theorem execPldr_keeps (o : Ops) (quad : Bool) (s : State) (hm : Memory.wf s.mem = true) : Keeps (execPldr o quad s) := aluRun_keeps _ _ _ _ hm

@[simp] theorem execPand_keeps (o : Ops) (s : State) (hm : Memory.wf s.mem = true) : Keeps (execPand o s) := aluRun_keeps _ _ _ _ hm

@[simp] theorem execPor_keeps (o : Ops) (s : State) (hm : Memory.wf s.mem = true) : Keeps (execPor o s) := aluRun_keeps _ _ _ _ hm

@[simp] theorem execPxor_keeps (o : Ops) (s : State) (hm : Memory.wf s.mem = true) : Keeps (execPxor o s) := aluRun_keeps _ _ _ _ hm

@[simp] theorem execPandn_keeps (o : Ops) (s : State) (hm : Memory.wf s.mem = true) : Keeps (execPandn o s) := aluRun_keeps _ _ _ _ hm

@[simp] theorem execPnot_keeps (o : Ops) (s : State) (hm : Memory.wf s.mem = true) : Keeps (execPnot o s) := aluRun_keeps _ _ _ _ hm

@[simp] theorem execPmov_keeps (o : Ops) (s : State) (hm : Memory.wf s.mem = true) : Keeps (execPmov o s) := aluRun_keeps _ _ _ _ hm

@[simp] theorem execVoteAny_keeps (o : Ops) (seg : Nat) (s : State) (hm : Memory.wf s.mem = true) : Keeps (execVoteAny o seg s) := aluRun_keeps _ _ _ _ hm

@[simp] theorem execVoteAll_keeps (o : Ops) (seg : Nat) (s : State) (hm : Memory.wf s.mem = true) : Keeps (execVoteAll o seg s) := aluRun_keeps _ _ _ _ hm

@[simp] theorem execVoteBallot_keeps (o : Ops) (seg : Nat) (s : State) (hm : Memory.wf s.mem = true) : Keeps (execVoteBallot o seg s) := aluRun_keeps _ _ _ _ hm

@[simp] theorem execVoteCount_keeps (o : Ops) (seg : Nat) (s : State) (hm : Memory.wf s.mem = true) : Keeps (execVoteCount o seg s) := aluRun_keeps _ _ _ _ hm

@[simp] theorem Run.setIdx_mem (r : Run) (n : Nat) (val lim : Nat → Nat) : (Run.setIdx r n val lim).s.mem = r.s.mem := by
  simp [Run.setIdx]

@[simp] theorem Run.setIdx_s0 (r : Run) (n : Nat) (val lim : Nat → Nat) : (Run.setIdx r n val lim).s0 = r.s0 := by
  simp [Run.setIdx]

@[simp] theorem execXset_keeps (o : Ops) (limit : Nat) (s : State) (hm : Memory.wf s.mem = true) : Keeps (execXset o limit s) := by
  refine withRun_keeps hm _ (fun r h1 h0 => ?_)
  simp [*]

@[simp] theorem execXadd_keeps (o : Ops) (s : State) (hm : Memory.wf s.mem = true) : Keeps (execXadd o s) := by
  refine withRun_keeps hm _ (fun r h1 h0 => ?_)
  simp [*]

@[simp] theorem execQbind_keeps (o : Ops) (s : State) (hm : Memory.wf s.mem = true) : Keeps (execQbind o s) := by
  refine withRun_keeps hm _ (fun r h1 h0 => Run.once_wf _ _ _ h1 (fun l => ?_))
  simp [*]

@[simp] theorem execQstat_keeps (o : Ops) (s : State) (hm : Memory.wf s.mem = true) : Keeps (execQstat o s) := aluRun_keeps _ _ _ _ hm

@[simp] theorem execSrd_keeps (o : Ops) (num : Nat) (s : State) (hm : Memory.wf s.mem = true) : Keeps (execSrd o num s) := aluRun_keeps _ _ _ _ hm

@[simp] theorem State.sysWrite_mem (s : State) (t c n : Nat) (x : Word) : (State.sysWrite s t c n x).mem = s.mem := by
  unfold State.sysWrite
  repeat' first
    | rfl
    | (simp [apply_ite State.mem, apply_ite Run.s]; done)
    | split
    | refine (foldl_mem _ (fun s x => ?_) _ _).trans ?_
    | refine (foldl_run_mem _ (fun s x => ?_) _ _).trans ?_
    | dsimp only
    | simp

@[simp] theorem execSwr_keeps (o : Ops) (num : Nat) (s : State) (hm : Memory.wf s.mem = true) : Keeps (execSwr o num s) := by
  unfold execSwr
  refine withRun_keeps hm _ (fun r h1 h0 => ?_)
  repeat' first
    | assumption
    | (simp [*]; done)
    | split
    | refine foldl_wf _ (fun s x hs => ?_) _ ?_ _
    | refine foldl_run_wf _ (fun r x hr hr0 => ⟨?_, ?_⟩) _ ?_ ?_ _
    | dsimp only
    | simp only [Bool.not_eq_true', ite_not]

end Sys2Proof.Machine
end

