-- ==== Sys2Proof/Laws/MemSlice.lean ====
section
/-! SUPPORT. Memory keeps its canonical form: the definitions of Machine/Slice.lean. -/

set_option linter.all false

namespace Sys2Proof.Machine

@[simp] theorem State.dropBacking_mem (s : State) (col base : Nat) : (State.dropBacking s col base).mem = s.mem := by
  simp [State.dropBacking]

@[simp] theorem State.revealBacking_wf (s : State) (col base : Nat) (hm : Memory.wf s.mem = true) :
    Memory.wf (s.revealBacking col base).mem = true := by
  unfold State.revealBacking
  simpa using wf_foldl_memPut _ hm

@[simp] theorem State.leaveGranule_wf (s : State) (col : Nat) (b : Block) (g : Nat) (wb : Bool) (hm : Memory.wf s.mem = true) : Memory.wf (State.leaveGranule s col b g wb).mem = true := by
  unfold State.leaveGranule
  repeat' first
    | assumption
    | (simp [*]; done)
    | split
    | refine foldl_wf _ (fun s x hs => ?_) _ ?_ _
    | dsimp only
    | simp [*]

@[simp] theorem State.evictBlock_wf (s : State) (col : Nat) (b : Block) (hm : Memory.wf s.mem = true) : Memory.wf (State.evictBlock s col b).mem = true := by
  unfold State.evictBlock
  repeat' first
    | assumption
    | (simp [*]; done)
    | split
    | refine foldl_wf _ (fun s x hs => ?_) _ ?_ _
    | dsimp only
    | simp [*]

@[simp] theorem State.makeRoom_wf (s : State) (col rg tags need : Nat) (keep : Block → Bool) (n : Nat) (hm : Memory.wf s.mem = true) :
    Memory.wf (s.makeRoom col rg tags need keep n).mem = true := by
  induction n generalizing s with
  | zero => exact hm
  | succ n ih =>
    unfold State.makeRoom
    dsimp only
    split
    · exact hm
    · split
      · exact hm
      · exact ih _ (State.evictBlock_wf s col _ hm)

@[simp] theorem State.fillBlock_wf (s : State) (col rg a e : Nat) (replica : Bool) (hm : Memory.wf s.mem = true) :
    Memory.wf (s.fillBlock col rg a e replica).mem = true := by
  unfold State.fillBlock
  simp [hm]

@[simp] theorem State.serveReplica_wf (s : State) (col rg a e : Nat) (hm : Memory.wf s.mem = true) :
    Memory.wf (s.serveReplica col rg a e).mem = true := by
  unfold State.serveReplica
  dsimp only
  split
  · exact State.fillBlock_wf _ _ _ _ _ _ hm
  · exact hm

@[simp] theorem State.needGranule_wf (s : State) (col rg g hint : Nat) (replica : Bool) (hm : Memory.wf s.mem = true) : Memory.wf (State.needGranule s col rg g hint replica).mem = true := by
  unfold State.needGranule
  split
  · exact hm
  · refine State.fillBlock_wf _ _ _ _ _ _ ?_
    split
    · exact State.serveReplica_wf _ _ _ _ _ hm
    · exact hm

@[simp] theorem State.removeGranules_wf (s : State) (col rg : Nat) (gs : List Nat) (wb : Bool) (hm : Memory.wf s.mem = true) : Memory.wf (State.removeGranules s col rg gs wb).mem = true := by
  unfold State.removeGranules
  extract_lets hit s1 rest s2 s3
  have h1 : Memory.wf s1.mem = true :=
    foldl_wf _ (fun s b hs => foldl_wf _ (fun s g hs => State.leaveGranule_wf _ _ _ _ _ hs) _ hs _) _ hm _
  have h3 : Memory.wf s3.mem = true := by simp only [s3]; split <;> simp [s2, h1]
  simpa using h3

@[simp] theorem State.sendInval_mem (s : State) (home rg : Nat) (gs : List Nat) (who : Option Nat) : (State.sendInval s home rg gs who).mem = s.mem := by
  unfold State.sendInval
  repeat' first
    | rfl
    | (simp [apply_ite State.mem, apply_ite Run.s]; done)
    | split
    | refine (foldl_mem _ (fun s x => ?_) _ _).trans ?_
    | refine (foldl_run_mem _ (fun s x => ?_) _ _).trans ?_
    | dsimp only
    | simp

@[simp] theorem State.unreplicate_mem (s : State) (home rg : Nat) : (State.unreplicate s home rg).mem = s.mem := by
  simp [State.unreplicate]

@[simp] theorem State.applyInval_wf (s : State) (col : Nat) (x : Nat × List Nat × Option Nat) (hm : Memory.wf s.mem = true) : Memory.wf (State.applyInval s col x).mem = true := by
  unfold State.applyInval
  repeat' first
    | assumption
    | (simp [*]; done)
    | split
    | refine foldl_wf _ (fun s x hs => ?_) _ ?_ _
    | dsimp only
    | simp [*]

@[simp] theorem State.drainChannel_wf (s : State) (col home : Nat) (hm : Memory.wf s.mem = true) : Memory.wf (State.drainChannel s col home).mem = true := by
  unfold State.drainChannel
  repeat' first
    | assumption
    | (simp [*]; done)
    | split
    | refine foldl_wf _ (fun s x hs => ?_) _ ?_ _
    | dsimp only
    | simp [*]

@[simp] theorem State.count_mem (s : State) (home rg : Nat) (f : RegCnt → RegCnt) : (State.count s home rg f).mem = s.mem := by
  unfold State.count
  repeat' first
    | rfl
    | (simp [apply_ite State.mem, apply_ite Run.s]; done)
    | split
    | refine (foldl_mem _ (fun s x => ?_) _ _).trans ?_
    | refine (foldl_run_mem _ (fun s x => ?_) _ _).trans ?_
    | dsimp only
    | simp

@[simp] theorem State.countRead_mem (s : State) (home tw rg : Nat) : (State.countRead s home tw rg).mem = s.mem := by
  unfold State.countRead
  repeat' first
    | rfl
    | (simp [apply_ite State.mem, apply_ite Run.s]; done)
    | split
    | refine (foldl_mem _ (fun s x => ?_) _ _).trans ?_
    | refine (foldl_run_mem _ (fun s x => ?_) _ _).trans ?_
    | dsimp only
    | simp

@[simp] theorem State.countWrite_mem (s : State) (home rg : Nat) : (State.countWrite s home rg).mem = s.mem := by
  simp [State.countWrite]

@[simp] theorem State.endWait_mem (s : State) (home : Nat) (e : WaitEnt) (v : Word) : (State.endWait s home e v).mem = s.mem := by
  unfold State.endWait
  repeat' first
    | rfl
    | (simp [apply_ite State.mem, apply_ite Run.s]; done)
    | split
    | refine (foldl_mem _ (fun s x => ?_) _ _).trans ?_
    | refine (foldl_run_mem _ (fun s x => ?_) _ _).trans ?_
    | dsimp only
    | simp

@[simp] theorem State.wakeWords_mem (s : State) (home : Nat) (ws : List Nat) : (State.wakeWords s home ws).mem = s.mem := by
  simp [State.wakeWords]

@[simp] theorem State.homePut_wf (s : State) (pa : Nat) (bs : List Byte) (hm : Memory.wf s.mem = true) : Memory.wf (State.homePut s pa bs).mem = true := by
  unfold State.homePut
  extract_lets home n rg g s1 s2 s3
  have h1 : Memory.wf s1.mem = true := by simp only [s1]; split <;> simp [hm]
  have h2 : Memory.wf s2.mem = true := by simp [s2, h1]
  have h3 : Memory.wf s3.mem = true := wf_memPutBytes _ _ h2
  split
  · exact hm
  · split
    · simpa using wf_memPutBytes _ _ hm
    · simpa using h3

@[simp] theorem State.homeWrite_wf (s : State) (pa : Nat) (bs : List Byte) (who : Option Nat) (hm : Memory.wf s.mem = true) :
    Memory.wf (s.homeWrite pa bs who).mem = true := by
  unfold State.homeWrite
  dsimp only
  repeat' first
    | assumption
    | (simp [wf_memPutBytes, *]; done)
    | split

@[simp] theorem State.ctrlWrite_wf (s : State) (pa : Nat) (bs : List Byte) (hm : Memory.wf s.mem = true) :
    Memory.wf (s.ctrlWrite pa bs).mem = true := by
  unfold State.ctrlWrite
  dsimp only
  repeat' first
    | assumption
    | (simp [wf_memPutBytes, *]; done)
    | split

@[simp] theorem State.writeAt_wf (s : State) (attr pa : Nat) (bs : List Byte) (who : Option Nat) (hm : Memory.wf s.mem = true) : Memory.wf (State.writeAt s attr pa bs who).mem = true := by
  unfold State.writeAt
  repeat' first
    | assumption
    | (simp [*]; done)
    | split
    | refine foldl_wf _ (fun s x hs => ?_) _ ?_ _
    | dsimp only
    | simp [*]

@[simp] theorem State.counted_mem (s : State) (col attr pa : Nat) : (State.counted s col attr pa).mem = s.mem := by
  unfold State.counted
  repeat' first
    | rfl
    | (simp [apply_ite State.mem, apply_ite Run.s]; done)
    | split
    | refine (foldl_mem _ (fun s x => ?_) _ _).trans ?_
    | refine (foldl_run_mem _ (fun s x => ?_) _ _).trans ?_
    | dsimp only
    | simp

@[simp] theorem State.meetInval_wf (s : State) (col attr pa : Nat) (hm : Memory.wf s.mem = true) : Memory.wf (State.meetInval s col attr pa).mem = true := by
  unfold State.meetInval
  repeat' first
    | assumption
    | (simp [*]; done)
    | split
    | refine foldl_wf _ (fun s x hs => ?_) _ ?_ _
    | dsimp only
    | simp [*]

@[simp] theorem State.sliceFill_wf (s : State) (col attr pa n hint : Nat) (hm : Memory.wf s.mem = true) : Memory.wf (State.sliceFill s col attr pa n hint).2.mem = true := by
  unfold State.sliceFill
  repeat' first
    | assumption
    | (simp [*]; done)
    | split
    | refine foldl_wf _ (fun s x hs => ?_) _ ?_ _
    | dsimp only
    | simp [*]

@[simp] theorem State.sliceServe_wf (s : State) (col attr pa n hint : Nat) (hm : Memory.wf s.mem = true) : Memory.wf (State.sliceServe s col attr pa n hint).2.mem = true := by
  simp [State.sliceServe, hm]

@[simp] theorem State.sliceRead_wf (s : State) (col attr pa n hint : Nat) (hm : Memory.wf s.mem = true) : Memory.wf (State.sliceRead s col attr pa n hint).2.mem = true := by
  simp [State.sliceRead, hm]

@[simp] theorem State.readsHome_wf (s : State) (col attr pa : Nat) (hm : Memory.wf s.mem = true) : Memory.wf (s.readsHome col attr pa).mem = true := by
  unfold State.readsHome
  dsimp only
  split
  · exact State.drainChannel_wf _ _ _ hm
  · exact hm

@[simp] theorem State.loadFrom_wf (s : State) (cnt : Bool) (col attr pa n hint : Nat) (hm : Memory.wf s.mem = true) : Memory.wf (State.loadFrom s cnt col attr pa n hint).2.mem = true := by
  unfold State.loadFrom
  repeat' first
    | assumption
    | (simp [*]; done)
    | split
    | refine foldl_wf _ (fun s x hs => ?_) _ ?_ _
    | dsimp only
    | simp [*]

@[simp] theorem State.loadBytes_wf (s : State) (col attr pa n hint : Nat) (hm : Memory.wf s.mem = true) : Memory.wf (State.loadBytes s col attr pa n hint).2.mem = true := by
  simp [State.loadBytes, hm]

@[simp] theorem State.homeBytes_wf (s : State) (col pa n : Nat) (hm : Memory.wf s.mem = true) : Memory.wf (State.homeBytes s col pa n).2.mem = true := by
  simp [State.homeBytes, hm]

@[simp] theorem State.land_mem (s : State) (f : Flight) (v : Word) (pv : Bool) : (State.land s f v pv).mem = s.mem := by
  unfold State.land
  repeat' first
    | rfl
    | (simp [apply_ite State.mem, apply_ite Run.s]; done)
    | split
    | refine (foldl_mem _ (fun s x => ?_) _ _).trans ?_
    | refine (foldl_run_mem _ (fun s x => ?_) _ _).trans ?_
    | dsimp only
    | simp

@[simp] theorem State.deferAt_mem (s : State) (t c l ord cls reason : Nat) (addr ipc : Word) : (State.deferAt s t c l ord cls reason addr ipc).mem = s.mem := by
  unfold State.deferAt
  repeat' first
    | rfl
    | (simp [apply_ite State.mem, apply_ite Run.s]; done)
    | split
    | refine (foldl_mem _ (fun s x => ?_) _ _).trans ?_
    | refine (foldl_run_mem _ (fun s x => ?_) _ _).trans ?_
    | dsimp only
    | simp

@[simp] theorem State.defer_mem (s : State) (f : Flight) (cls reason : Nat) (addr : Word) : (State.defer s f cls reason addr).mem = s.mem := by
  unfold State.defer
  repeat' first
    | rfl
    | (simp [apply_ite State.mem, apply_ite Run.s]; done)
    | split
    | refine (foldl_mem _ (fun s x => ?_) _ _).trans ?_
    | refine (foldl_run_mem _ (fun s x => ?_) _ _).trans ?_
    | dsimp only
    | simp

end Sys2Proof.Machine
end

