-- ==== Sys2Proof/Laws/MemAccess.lean ====
section
/-! SUPPORT. Memory keeps its canonical form: the definitions of Machine/Access.lean. -/

set_option linter.all false

namespace Sys2Proof.Machine

theorem Run.translated_parked {r : Run} {ls : List Nat} {k : AccessKind} {x : Nat → Word} {s : State}
    (h : r.translated ls k x = .parked s) : s.mem = r.s0.mem := by
  unfold Run.translated at h
  extract_lets ok tr pages r1 acc at h
  split at h
  · simp only [AccOut.parked.injEq] at h; subst h; simp
  · simp at h

theorem Run.translated_go {r r' : Run} {ls : List Nat} {k : AccessKind} {x : Nat → Word} {acc : List Acc}
    (h : r.translated ls k x = .go r' acc) : r'.s.mem = r.s.mem ∧ r'.s0 = r.s0 := by
  unfold Run.translated at h
  extract_lets ok tr pages r1 acc at h
  split at h
  · simp at h
  · simp only [AccOut.go.injEq] at h
    obtain ⟨h, _⟩ := h
    subst h
    constructor
    · refine (foldl_mem _ (fun s a => ?_) _ _).trans ?_
      · simp
      · simp [r1]
    · simp [r1]

theorem Run.translated_go_wf {r r' : Run} {ls : List Nat} {k : AccessKind} {x : Nat → Word} {acc : List Acc}
    (h : r.translated ls k x = .go r' acc) (hm : Memory.wf r.s.mem = true) (hm0 : Memory.wf r.s0.mem = true) :
    Memory.wf r'.s.mem = true ∧ Memory.wf r'.s0.mem = true := by
  obtain ⟨e1, e2⟩ := Run.translated_go h
  rw [e1, e2]; exact ⟨hm, hm0⟩

theorem Run.access_parked {r : Run} {ls : List Nat} {k : AccessKind} {n : Nat} {x : Nat → Word} {s : State}
    (h : r.access ls k n x = .parked s) : s.mem = r.s0.mem := by
  have := Run.translated_parked h
  simpa using this

theorem Run.access_go {r r' : Run} {ls : List Nat} {k : AccessKind} {n : Nat} {x : Nat → Word} {acc : List Acc}
    (h : r.access ls k n x = .go r' acc) : r'.s.mem = r.s.mem ∧ r'.s0 = r.s0 := by
  have := Run.translated_go h
  simpa using this

theorem Run.access_go_wf {r r' : Run} {ls : List Nat} {k : AccessKind} {n : Nat} {x : Nat → Word} {acc : List Acc}
    (h : r.access ls k n x = .go r' acc) (hm : Memory.wf r.s.mem = true) (hm0 : Memory.wf r.s0.mem = true) :
    Memory.wf r'.s.mem = true ∧ Memory.wf r'.s0.mem = true := by
  obtain ⟨e1, e2⟩ := Run.access_go h
  rw [e1, e2]; exact ⟨hm, hm0⟩

@[simp] theorem Run.checkAcc_s (r : Run) (acc : List Acc) (f : Acc → Option FltRec) : (r.checkAcc acc f).s = r.s := by
  unfold Run.checkAcc
  induction acc generalizing r with
  | nil => rfl
  | cons l ls ih => rw [List.foldl_cons, ih]; split <;> simp

@[simp] theorem Run.checkAcc_s0 (r : Run) (acc : List Acc) (f : Acc → Option FltRec) : (r.checkAcc acc f).s0 = r.s0 := by
  unfold Run.checkAcc
  induction acc generalizing r with
  | nil => rfl
  | cons l ls ih => rw [List.foldl_cons, ih]; split <;> simp

@[simp] theorem State.markEmpty_mem (s : State) (f : Flight) : (State.markEmpty s f).mem = s.mem := by
  unfold State.markEmpty
  repeat' first
    | rfl
    | (simp [apply_ite State.mem, apply_ite Run.s]; done)
    | split
    | refine (foldl_mem _ (fun s x => ?_) _ _).trans ?_
    | refine (foldl_run_mem _ (fun s x => ?_) _ _).trans ?_
    | dsimp only
    | simp

@[simp] theorem State.send_mem (s : State) (f : Flight) : (State.send s f).mem = s.mem := by
  simp [State.send]

@[simp] theorem Run.setDest_mem (r : Run) (l : Nat) (v : Word) : (Run.setDest r l v).s.mem = r.s.mem := by
  unfold Run.setDest
  repeat' first
    | rfl
    | (simp [apply_ite State.mem, apply_ite Run.s]; done)
    | split
    | refine (foldl_mem _ (fun s x => ?_) _ _).trans ?_
    | refine (foldl_run_mem _ (fun s x => ?_) _ _).trans ?_
    | dsimp only
    | simp

@[simp] theorem Run.setDest_s0 (r : Run) (l : Nat) (v : Word) : (Run.setDest r l v).s0 = r.s0 := by
  simp [Run.setDest]

@[simp] theorem State.farWrite_mem (s : State) (core fmode peer pa n : Nat) : (State.farWrite s core fmode peer pa n).mem = s.mem := by
  unfold State.farWrite
  repeat' first
    | rfl
    | (simp [apply_ite State.mem, apply_ite Run.s]; done)
    | split
    | refine (foldl_mem _ (fun s x => ?_) _ _).trans ?_
    | refine (foldl_run_mem _ (fun s x => ?_) _ _).trans ?_
    | dsimp only
    | simp

end Sys2Proof.Machine
end

