-- ==== Sys2Proof/Laws/MemLoadStore.lean ====
section
/-! SUPPORT. Memory keeps its canonical form: the definitions of Machine/LoadStore.lean. -/

set_option linter.all false

namespace Sys2Proof.Machine

@[simp] theorem Run.l1Hit_s0 (r : Run) (f : Flight) : (Run.l1Hit r f).2.s0 = r.s0 := by
  unfold Run.l1Hit
  repeat' first
    | rfl
    | (simp [apply_ite Run.s0]; done)
    | split
    | refine (foldl_run_s0 _ (fun s x => ?_) _ _).trans ?_
    | dsimp only
    | simp

@[simp] theorem Run.l1Hit_mem (r : Run) (f : Flight) : (Run.l1Hit r f).2.s.mem = r.s.mem := by
  unfold Run.l1Hit
  repeat' first
    | rfl
    | (simp [apply_ite State.mem, apply_ite Run.s]; done)
    | split
    | refine (foldl_mem _ (fun s x => ?_) _ _).trans ?_
    | refine (foldl_run_mem _ (fun s x => ?_) _ _).trans ?_
    | dsimp only
    | simp

@[simp] theorem Run.sendLoad_mem (r : Run) (m : LdM) (a : Acc) : (Run.sendLoad r m a).s.mem = r.s.mem := by
  unfold Run.sendLoad
  repeat' first
    | rfl
    | (simp [apply_ite State.mem, apply_ite Run.s]; done)
    | split
    | refine (foldl_mem _ (fun s x => ?_) _ _).trans ?_
    | refine (foldl_run_mem _ (fun s x => ?_) _ _).trans ?_
    | dsimp only
    | simp

@[simp] theorem Run.sendLoad_s0 (r : Run) (m : LdM) (a : Acc) : (Run.sendLoad r m a).s0 = r.s0 := by
  unfold Run.sendLoad
  repeat' first
    | rfl
    | (simp [apply_ite Run.s0]; done)
    | split
    | refine (foldl_run_s0 _ (fun s x => ?_) _ _).trans ?_
    | dsimp only
    | simp

@[simp] theorem Run.loads_wf (r : Run) (m : LdM) (hm : Memory.wf r.s.mem = true) (hm0 : Memory.wf r.s0.mem = true) : Memory.wf (Run.loads r m).mem = true := by
  unfold Run.loads
  repeat' first
    | assumption
    | (simp [*]; done)
    | refine Run.once_wf _ _ _ (by simp [*]) (fun l => ?_)
    | (split <;> (rename_i h; first | (simp [Run.access_parked h, *]; done) | (replace h := Run.access_go h) | fail))
    | (split <;> (rename_i h; first | (simp [Run.translated_parked h, *]; done) | (replace h := Run.translated_go h) | fail))
    | split
    | refine foldl_wf _ (fun s x hs => ?_) _ ?_ _
    | dsimp only
    | simp [*]

@[simp] theorem execLd_keeps (o : Ops) (m : LdM) (s : State) (hm : Memory.wf s.mem = true) : Keeps (execLd o m s) := by
  refine withRun_keeps hm _ (fun r h1 h0 => ?_)
  simp [*]

@[simp] theorem execLdk_keeps (o : Ops) (m : LdM) (s : State) (hm : Memory.wf s.mem = true) : Keeps (execLdk o m s) := by
  refine withRun_keeps hm _ (fun r h1 h0 => ?_)
  simp [*]

@[simp] theorem Run.sendStore_mem (r : Run) (m : StM) (a : Acc) : (Run.sendStore r m a).s.mem = r.s.mem := by
  unfold Run.sendStore
  repeat' first
    | rfl
    | (simp [apply_ite State.mem, apply_ite Run.s]; done)
    | split
    | refine (foldl_mem _ (fun s x => ?_) _ _).trans ?_
    | refine (foldl_run_mem _ (fun s x => ?_) _ _).trans ?_
    | dsimp only
    | simp

@[simp] theorem Run.sendStore_s0 (r : Run) (m : StM) (a : Acc) : (Run.sendStore r m a).s0 = r.s0 := by
  simp [Run.sendStore]

@[simp] theorem execSt_keeps (o : Ops) (m : StM) (s : State) (hm : Memory.wf s.mem = true) : Keeps (execSt o m s) := by
  unfold execSt
  refine withRun_keeps hm _ (fun r h1 h0 => ?_)
  repeat' first
    | assumption
    | (simp [*]; done)
    | refine Run.once_wf _ _ _ (by simp [*]) (fun l => ?_)
    | (split <;> (rename_i h; first | (simp [Run.access_parked h, *]; done) | (replace h := Run.access_go h) | fail))
    | (split <;> (rename_i h; first | (simp [Run.translated_parked h, *]; done) | (replace h := Run.translated_go h) | fail))
    | split
    | refine foldl_wf _ (fun s x hs => ?_) _ ?_ _
    | refine foldl_run_wf _ (fun r x hr hr0 => ⟨?_, ?_⟩) _ ?_ ?_ _
    | dsimp only
    | simp only [Bool.not_eq_true', ite_not]

@[simp] theorem Run.softly_s0 (r : Run) (p : Pro) : (Run.softly r p).s0 = r.s0 := by
  simp [Run.softly]

@[simp] theorem Run.softly_mem (r : Run) (p : Pro) : (Run.softly r p).s.mem = r.s.mem := by
  simp [Run.softly]

@[simp] theorem execPf_keeps (o : Ops) (msc : Bool) (span : Nat) (off : Int) (s : State) (hm : Memory.wf s.mem = true) : Keeps (execPf o msc span off s) := by
  unfold execPf
  split
  · simp
  · next r h =>
    have e := startRun_s h
    simp [e, hm]

@[simp] theorem Run.localChecks_mem (r : Run) (ls : List Nat) (size : Nat) (x : Nat → Word) : (Run.localChecks r ls size x).s.mem = r.s.mem := by
  simp [Run.localChecks]

@[simp] theorem Run.localChecks_s0 (r : Run) (ls : List Nat) (size : Nat) (x : Nat → Word) : (Run.localChecks r ls size x).s0 = r.s0 := by
  simp [Run.localChecks]

@[simp] theorem execLdl_keeps (o : Ops) (m : LocM) (s : State) (hm : Memory.wf s.mem = true) : Keeps (execLdl o m s) := by
  unfold execLdl
  refine withRun_keeps hm _ (fun r h1 h0 => ?_)
  repeat' first
    | assumption
    | (simp [*]; done)
    | split
    | refine foldl_wf _ (fun s x hs => ?_) _ ?_ _
    | refine foldl_run_wf _ (fun r x hr hr0 => ⟨?_, ?_⟩) _ ?_ ?_ _
    | dsimp only
    | simp only [Bool.not_eq_true', ite_not]

@[simp] theorem execStl_keeps (o : Ops) (m : LocM) (s : State) (hm : Memory.wf s.mem = true) : Keeps (execStl o m s) := by
  unfold execStl
  refine withRun_keeps hm _ (fun r h1 h0 => ?_)
  repeat' first
    | assumption
    | (simp [*]; done)
    | split
    | refine foldl_wf _ (fun s x hs => ?_) _ ?_ _
    | refine foldl_run_wf _ (fun r x hr hr0 => ⟨?_, ?_⟩) _ ?_ ?_ _
    | dsimp only
    | simp only [Bool.not_eq_true', ite_not]

@[simp] theorem execLdr_keeps (o : Ops) (m : LocM) (s : State) (hm : Memory.wf s.mem = true) : Keeps (execLdr o m s) := by
  refine withRun_keeps hm _ (fun r h1 h0 => ?_)
  simp [*]

@[simp] theorem execStr_keeps (o : Ops) (m : LocM) (s : State) (hm : Memory.wf s.mem = true) : Keeps (execStr o m s) := by
  refine withRun_keeps hm _ (fun r h1 h0 => ?_)
  simp [*]

@[simp] theorem State.latomAt_mem (s : State) (t a : Nat) (op : AOp) (ty : Ty) (b c : Nat) : (State.latomAt s t a op ty b c).2.mem = s.mem := by
  simp [State.latomAt]

@[simp] theorem execLatom_keeps (o : Ops) (m : LatomM) (s : State) (hm : Memory.wf s.mem = true) : Keeps (execLatom o m s) := by
  unfold execLatom
  refine withRun_keeps hm _ (fun r h1 h0 => ?_)
  extract_lets size x ls r1 r2 later r3 r4 pb pc
  rw [Run.finish_mem]
  refine foldl_wf _ (fun s l hs => ?_) _ (by simp [r4, r3, r2, r1, h1]) _
  extract_lets f p
  split
  · simpa using hs
  · simp only [State.send_mem]
    exact (congrArg Memory.wf (State.latomAt_mem s _ _ _ _ _ _)).trans hs

@[simp] theorem Run.presChecks_mem (r : Run) (ls : List Nat) (x : Nat → Word) : (Run.presChecks r ls x).s.mem = r.s.mem := by
  simp [Run.presChecks]

@[simp] theorem Run.presChecks_s0 (r : Run) (ls : List Nat) (x : Nat → Word) : (Run.presChecks r ls x).s0 = r.s0 := by
  simp [Run.presChecks]

@[simp] theorem execLpresQ_keeps (o : Ops) (off : Int) (s : State) (hm : Memory.wf s.mem = true) : Keeps (execLpresQ o off s) := by
  refine withRun_keeps hm _ (fun r h1 h0 => ?_)
  simp [*]

@[simp] theorem lpresRun_keeps (o : Ops) (off : Int) (s : State) (k : Nat) (hm : Memory.wf s.mem = true) : Keeps (lpresRun o off s k) := by
  refine withRun_keeps hm _ (fun r h1 h0 => ?_)
  rw [Run.finish_mem]
  refine foldl_wf _ (fun s l hs => ?_) _ (by simp [h1]) _
  split <;> simpa using hs

@[simp] theorem execLpresClr_keeps (o : Ops) (off : Int) (s : State) (hm : Memory.wf s.mem = true) : Keeps (execLpresClr o off s) := by
  unfold execLpresClr
  simp [*]

@[simp] theorem execLpresSet_keeps (o : Ops) (off : Int) (s : State) (hm : Memory.wf s.mem = true) : Keeps (execLpresSet o off s) := by
  unfold execLpresSet
  simp [*]

@[simp] theorem Run.owe_mem (r : Run) (l : Nat) (v : Word) (after : List (Nat × Nat)) : (Run.owe r l v after).s.mem = r.s.mem := by
  simp [Run.owe]

@[simp] theorem Run.owe_s0 (r : Run) (l : Nat) (v : Word) (after : List (Nat × Nat)) : (Run.owe r l v after).s0 = r.s0 := by
  simp [Run.owe]

@[simp] theorem State.dropTlb_mem (s : State) (cores cols : List Nat) (hit : TlbEnt → Bool) (gone : Nat → Bool) : (State.dropTlb s cores cols hit gone).mem = s.mem := by
  simp [State.dropTlb]

@[simp] theorem execTlbi_keeps (o : Ops) (kind : Nat) (scope : Scope) (s : State) (hm : Memory.wf s.mem = true) : Keeps (execTlbi o kind scope s) := by
  refine withRun_keeps hm _ (fun r h1 h0 => Run.once_wf _ _ _ h1 (fun l => ?_))
  simp [*]

@[simp] theorem State.setGen_mem (s : State) (asid g : Nat) : (s.setGen asid g).mem = s.mem := by
  unfold State.setGen
  exact foldl_mem _ (fun s x => by simp) _ _

@[simp] theorem execAsgen_keeps (o : Ops) (s : State) (hm : Memory.wf s.mem = true) : Keeps (execAsgen o s) := by
  unfold execAsgen
  refine withRun_keeps hm _ (fun r h1 h0 => ?_)
  repeat' first
    | assumption
    | (simp [*]; done)
    | refine Run.once_wf _ _ _ (by simp [*]) (fun l => ?_)
    | (split <;> (rename_i h; first | (simp [Run.access_parked h, *]; done) | (replace h := Run.access_go h) | fail))
    | (split <;> (rename_i h; first | (simp [Run.translated_parked h, *]; done) | (replace h := Run.translated_go h) | fail))
    | split
    | refine foldl_wf _ (fun s x hs => ?_) _ ?_ _
    | refine foldl_run_wf _ (fun r x hr hr0 => ⟨?_, ?_⟩) _ ?_ ?_ _
    | dsimp only
    | simp only [Bool.not_eq_true', ite_not]

end Sys2Proof.Machine
end

