-- ==== Sys2Proof/Laws/MemRegs.lean ====
section
/-! SUPPORT. Memory keeps its canonical form: the definitions of Machine/Regs.lean. -/

set_option linter.all false

namespace Sys2Proof.Machine

@[simp] theorem State.writeRepctl_mem (s : State) (col : Nat) (v : Word) : (State.writeRepctl s col v).mem = s.mem := by
  unfold State.writeRepctl
  repeat' first
    | rfl
    | (simp [apply_ite State.mem, apply_ite Run.s]; done)
    | split
    | refine (foldl_mem _ (fun s x => ?_) _ _).trans ?_
    | refine (foldl_run_mem _ (fun s x => ?_) _ _).trans ?_
    | dsimp only
    | simp

@[simp] theorem State.stopDrain_mem (s : State) (core : Nat) : (State.stopDrain s core).mem = s.mem := by
  simp [State.stopDrain]

@[simp] theorem State.writeDrainreq_mem (s : State) (col : Nat) (v : Word) : (State.writeDrainreq s col v).mem = s.mem := by
  unfold State.writeDrainreq
  repeat' first
    | rfl
    | (simp [apply_ite State.mem, apply_ite Run.s]; done)
    | split
    | refine (foldl_mem _ (fun s x => ?_) _ _).trans ?_
    | refine (foldl_run_mem _ (fun s x => ?_) _ _).trans ?_
    | dsimp only
    | simp

@[simp] theorem State.waitOver_mem (s : State) (col : Nat) (v : Word) : (State.waitOver s col v).mem = s.mem := by
  simp [State.waitOver]

@[simp] theorem State.writeWaitaddr_mem (s : State) (col : Nat) (v : Word) : (State.writeWaitaddr s col v).mem = s.mem := by
  unfold State.writeWaitaddr
  repeat' first
    | rfl
    | (simp [apply_ite State.mem, apply_ite Run.s]; done)
    | split
    | refine (foldl_mem _ (fun s x => ?_) _ _).trans ?_
    | refine (foldl_run_mem _ (fun s x => ?_) _ _).trans ?_
    | dsimp only
    | simp

@[simp] theorem State.writeWake_mem (s : State) (col : Nat) (v : Word) : (State.writeWake s col v).mem = s.mem := by
  unfold State.writeWake
  repeat' first
    | rfl
    | (simp [apply_ite State.mem, apply_ite Run.s]; done)
    | split
    | refine (foldl_mem _ (fun s x => ?_) _ _).trans ?_
    | refine (foldl_run_mem _ (fun s x => ?_) _ _).trans ?_
    | dsimp only
    | simp

@[simp] theorem State.writeTaskdone_mem (s : State) (col : Nat) (v : Word) : (State.writeTaskdone s col v).mem = s.mem := by
  unfold State.writeTaskdone
  repeat' first
    | rfl
    | (simp [apply_ite State.mem, apply_ite Run.s]; done)
    | split
    | refine (foldl_mem _ (fun s x => ?_) _ _).trans ?_
    | refine (foldl_run_mem _ (fun s x => ?_) _ _).trans ?_
    | dsimp only
    | simp

@[simp] theorem State.writeArena_mem (s : State) (col n : Nat) (hi : Bool) (v : Word) : (State.writeArena s col n hi v).mem = s.mem := by
  unfold State.writeArena
  repeat' first
    | rfl
    | (simp [apply_ite State.mem, apply_ite Run.s]; done)
    | split
    | refine (foldl_mem _ (fun s x => ?_) _ _).trans ?_
    | refine (foldl_run_mem _ (fun s x => ?_) _ _).trans ?_
    | dsimp only
    | simp

@[simp] theorem State.writePinmap_mem (s : State) (n : Nat) (hi : Bool) (v : Word) : (State.writePinmap s n hi v).mem = s.mem := by
  unfold State.writePinmap
  repeat' first
    | rfl
    | (simp [apply_ite State.mem, apply_ite Run.s]; done)
    | split
    | refine (foldl_mem _ (fun s x => ?_) _ _).trans ?_
    | refine (foldl_run_mem _ (fun s x => ?_) _ _).trans ?_
    | dsimp only
    | simp

@[simp] theorem State.writeGwin_mem (s : State) (g : Nat) (hi : Bool) (v : Word) : (State.writeGwin s g hi v).mem = s.mem := by
  unfold State.writeGwin
  repeat' first
    | rfl
    | (simp [apply_ite State.mem, apply_ite Run.s]; done)
    | split
    | refine (foldl_mem _ (fun s x => ?_) _ _).trans ?_
    | refine (foldl_run_mem _ (fun s x => ?_) _ _).trans ?_
    | dsimp only
    | simp

@[simp] theorem State.writeInten_mem (s : State) (col : Nat) (v : Word) : (State.writeInten s col v).mem = s.mem := by
  unfold State.writeInten
  repeat' first
    | rfl
    | (simp [apply_ite State.mem, apply_ite Run.s]; done)
    | split
    | refine (foldl_mem _ (fun s x => ?_) _ _).trans ?_
    | refine (foldl_run_mem _ (fun s x => ?_) _ _).trans ?_
    | dsimp only
    | simp

@[simp] theorem State.regWrite_mem (s : State) (col off : Nat) (v : Word) : (State.regWrite s col off v).mem = s.mem := by
  unfold State.regWrite
  repeat' first
    | rfl
    | (simp [apply_ite State.mem, apply_ite Run.s]; done)
    | split
    | refine (foldl_mem _ (fun s x => ?_) _ _).trans ?_
    | refine (foldl_run_mem _ (fun s x => ?_) _ _).trans ?_
    | dsimp only
    | simp

@[simp] theorem State.regPop_mem (s : State) (col off : Nat) : (State.regPop s col off).mem = s.mem := by
  unfold State.regPop
  repeat' first
    | rfl
    | (simp [apply_ite State.mem, apply_ite Run.s]; done)
    | split
    | refine (foldl_mem _ (fun s x => ?_) _ _).trans ?_
    | refine (foldl_run_mem _ (fun s x => ?_) _ _).trans ?_
    | dsimp only
    | simp

@[simp] theorem State.regRead_mem (s : State) (col off : Nat) : (State.regRead s col off).2.mem = s.mem := by
  simp [State.regRead]

@[simp] theorem State.ioRead_mem (s : State) (simt : Bool) (pa size : Nat) : (State.ioRead s simt pa size).2.mem = s.mem := by
  unfold State.ioRead
  repeat' first
    | rfl
    | (simp [apply_ite State.mem, apply_ite Run.s]; done)
    | split
    | refine (foldl_mem _ (fun s x => ?_) _ _).trans ?_
    | refine (foldl_run_mem _ (fun s x => ?_) _ _).trans ?_
    | dsimp only
    | simp

@[simp] theorem State.ctlStore_mem (s : State) (simt : Bool) (pa size : Nat) (v : Word) : (State.ctlStore s simt pa size v).mem = s.mem := by
  unfold State.ctlStore
  repeat' first
    | rfl
    | (simp [apply_ite State.mem, apply_ite Run.s]; done)
    | split
    | refine (foldl_mem _ (fun s x => ?_) _ _).trans ?_
    | refine (foldl_run_mem _ (fun s x => ?_) _ _).trans ?_
    | dsimp only
    | simp

@[simp] theorem State.discardLaunch_mem (s : State) (col : Nat) : (State.discardLaunch s col).mem = s.mem := by
  simp [State.discardLaunch]

end Sys2Proof.Machine
end

