-- ==== Sys2Proof/Laws/MemMemEvents.lean ====
section
/-! SUPPORT. Memory keeps its canonical form: the definitions of Machine/MemEvents.lean. -/

set_option linter.all false

namespace Sys2Proof.Machine

@[simp] theorem State.endWalk_mem (s : State) (col : Nat) (w : Walk) : (State.endWalk s col w).mem = s.mem := by
  unfold State.endWalk
  repeat' first
    | rfl
    | (simp [apply_ite State.mem, apply_ite Run.s]; done)
    | split
    | refine (foldl_mem _ (fun s x => ?_) _ _).trans ?_
    | refine (foldl_run_mem _ (fun s x => ?_) _ _).trans ?_
    | dsimp only
    | simp

@[simp] theorem execTranslationWalkDone_keeps (col asid page : Nat) (s : State) (hm : Memory.wf s.mem = true) : Keeps (execTranslationWalkDone col asid page s) := by
  unfold execTranslationWalkDone
  repeat' first
    | assumption
    | (simp [*]; done)
    | split
    | refine foldl_wf _ (fun s x hs => ?_) _ ?_ _
    | dsimp only
    | simp [*]

@[simp] theorem State.closeOpen_mem (s : State) (f : Flight) : (State.closeOpen s f).mem = s.mem := by
  unfold State.closeOpen
  repeat' first
    | rfl
    | (simp [apply_ite State.mem, apply_ite Run.s]; done)
    | split
    | refine (foldl_mem _ (fun s x => ?_) _ _).trans ?_
    | refine (foldl_run_mem _ (fun s x => ?_) _ _).trans ?_
    | dsimp only
    | simp

@[simp] theorem State.failFlight_mem (s : State) (f : Flight) (cls reason : Nat) : (State.failFlight s f cls reason).mem = s.mem := by
  unfold State.failFlight
  repeat' first
    | rfl
    | (simp [apply_ite State.mem, apply_ite Run.s]; done)
    | split
    | refine (foldl_mem _ (fun s x => ?_) _ _).trans ?_
    | refine (foldl_run_mem _ (fun s x => ?_) _ _).trans ?_
    | dsimp only
    | simp

@[simp] theorem State.movedTo_mem (s : State) (old f : Flight) : (State.movedTo s old f).mem = s.mem := by
  unfold State.movedTo
  repeat' first
    | rfl
    | (simp [apply_ite State.mem, apply_ite Run.s]; done)
    | split
    | refine (foldl_mem _ (fun s x => ?_) _ _).trans ?_
    | refine (foldl_run_mem _ (fun s x => ?_) _ _).trans ?_
    | dsimp only
    | simp

@[simp] theorem State.retranslate_mem (s : State) (f : Flight) : (State.retranslate s f).mem = s.mem := by
  unfold State.retranslate
  repeat' first
    | rfl
    | (simp [apply_ite State.mem, apply_ite Run.s]; done)
    | split
    | refine (foldl_mem _ (fun s x => ?_) _ _).trans ?_
    | refine (foldl_run_mem _ (fun s x => ?_) _ _).trans ?_
    | dsimp only
    | simp

@[simp] theorem execGenerationRefusal_keeps (id : Nat) (s : State) (hm : Memory.wf s.mem = true) : Keeps (execGenerationRefusal id s) := by
  unfold execGenerationRefusal
  repeat' first
    | assumption
    | (simp [*]; done)
    | split
    | refine foldl_wf _ (fun s x hs => ?_) _ ?_ _
    | dsimp only
    | simp [*]

@[simp] theorem State.fix_mem (s : State) (id : Nat) (v : Word) : (State.fix s id v).mem = s.mem := by
  simp [State.fix]

@[simp] theorem State.fixFault_mem (s : State) (f : Flight) (cls reason : Nat) : (State.fixFault s f cls reason).mem = s.mem := by
  simp [State.fixFault]

@[simp] theorem State.doom_mem (s : State) (f : Flight) : (State.doom s f).mem = s.mem := by
  simp [State.doom]

@[simp] theorem State.fillLine_wf (s : State) (f : Flight) (bs : List Byte) (hm : Memory.wf s.mem = true) : Memory.wf (State.fillLine s f bs).mem = true := by
  unfold State.fillLine
  repeat' first
    | assumption
    | (simp [*]; done)
    | split
    | refine foldl_wf _ (fun s x hs => ?_) _ ?_ _
    | dsimp only
    | simp [*]

@[simp] theorem State.prefetchAt_wf (s : State) (f : Flight) (hm : Memory.wf s.mem = true) : Memory.wf (State.prefetchAt s f).mem = true := by
  unfold State.prefetchAt
  repeat' first
    | assumption
    | (simp [*]; done)
    | split
    | refine foldl_wf _ (fun s x hs => ?_) _ ?_ _
    | dsimp only
    | simp [*]

@[simp] theorem State.loadValue_wf (s : State) (f : Flight) (cnt : Bool) (hm : Memory.wf s.mem = true) : Memory.wf (State.loadValue s f cnt).2.mem = true := by
  unfold State.loadValue
  repeat' first
    | assumption
    | (simp [*]; done)
    | split
    | refine foldl_wf _ (fun s x hs => ?_) _ ?_ _
    | dsimp only
    | simp [*]

@[simp] theorem State.readAt_wf (s : State) (f : Flight) (cnt : Bool) (hm : Memory.wf s.mem = true) : Memory.wf (State.readAt s f cnt).mem = true := by
  unfold State.readAt
  repeat' first
    | assumption
    | (simp [*]; done)
    | split
    | refine foldl_wf _ (fun s x hs => ?_) _ ?_ _
    | dsimp only
    | simp [*]

@[simp] theorem State.waitAt_mem (s : State) (f : Flight) : (State.waitAt s f).mem = s.mem := by
  unfold State.waitAt
  repeat' first
    | rfl
    | (simp [apply_ite State.mem, apply_ite Run.s]; done)
    | split
    | refine (foldl_mem _ (fun s x => ?_) _ _).trans ?_
    | refine (foldl_run_mem _ (fun s x => ?_) _ _).trans ?_
    | dsimp only
    | simp

@[simp] theorem State.serveMerged_wf (s : State) (f : Flight) (hm : Memory.wf s.mem = true) : Memory.wf (State.serveMerged s f).mem = true := by
  unfold State.serveMerged
  repeat' first
    | assumption
    | (simp [*]; done)
    | split
    | refine foldl_wf _ (fun s x hs => ?_) _ ?_ _
    | dsimp only
    | simp [*]

@[simp] theorem State.farFill_mem (s : State) (f : Flight) (bs : List Byte) : (State.farFill s f bs).mem = s.mem := by
  unfold State.farFill
  repeat' first
    | rfl
    | (simp [apply_ite State.mem, apply_ite Run.s]; done)
    | split
    | refine (foldl_mem _ (fun s x => ?_) _ _).trans ?_
    | refine (foldl_run_mem _ (fun s x => ?_) _ _).trans ?_
    | dsimp only
    | simp

@[simp] theorem State.nearAt_mem (s : State) (f : Flight) (c : NearCopy) : (State.nearAt s f c).mem = s.mem := by
  unfold State.nearAt
  repeat' first
    | rfl
    | (simp [apply_ite State.mem, apply_ite Run.s]; done)
    | split
    | refine (foldl_mem _ (fun s x => ?_) _ _).trans ?_
    | refine (foldl_run_mem _ (fun s x => ?_) _ _).trans ?_
    | dsimp only
    | simp

@[simp] theorem execSliceRead_keeps (id : Nat) (s : State) (hm : Memory.wf s.mem = true) : Keeps (execSliceRead id s) := by
  unfold execSliceRead
  repeat' first
    | assumption
    | (simp [*]; done)
    | split
    | refine foldl_wf _ (fun s x hs => ?_) _ ?_ _
    | dsimp only
    | simp [*]

@[simp] theorem State.unitTake_mem (s : State) (f : Flight) : (State.unitTake s f).mem = s.mem := by
  unfold State.unitTake
  repeat' first
    | rfl
    | (simp [apply_ite State.mem, apply_ite Run.s]; done)
    | split
    | refine (foldl_mem _ (fun s x => ?_) _ _).trans ?_
    | refine (foldl_run_mem _ (fun s x => ?_) _ _).trans ?_
    | dsimp only
    | simp

@[simp] theorem State.joinRset_mem (s : State) (f : Flight) : (State.joinRset s f).2.mem = s.mem := by
  unfold State.joinRset
  repeat' first
    | rfl
    | (simp [apply_ite State.mem, apply_ite Run.s]; done)
    | split
    | refine (foldl_mem _ (fun s x => ?_) _ _).trans ?_
    | refine (foldl_run_mem _ (fun s x => ?_) _ _).trans ?_
    | dsimp only
    | simp

@[simp] theorem State.unitRead_mem (s : State) (f : Flight) : (State.unitRead s f).2.mem = s.mem := by
  unfold State.unitRead
  repeat' first
    | rfl
    | (simp [apply_ite State.mem, apply_ite Run.s]; done)
    | split
    | refine (foldl_mem _ (fun s x => ?_) _ _).trans ?_
    | refine (foldl_run_mem _ (fun s x => ?_) _ _).trans ?_
    | dsimp only
    | simp

@[simp] theorem State.landAt_mem (s : State) (f : Flight) : (State.landAt s f).mem = s.mem := by
  unfold State.landAt
  repeat' first
    | rfl
    | (simp [apply_ite State.mem, apply_ite Run.s]; done)
    | split
    | refine (foldl_mem _ (fun s x => ?_) _ _).trans ?_
    | refine (foldl_run_mem _ (fun s x => ?_) _ _).trans ?_
    | dsimp only
    | simp

@[simp] theorem execLoadDataLands_keeps (id : Nat) (s : State) (hm : Memory.wf s.mem = true) : Keeps (execLoadDataLands id s) := by
  unfold execLoadDataLands
  repeat' first
    | assumption
    | (simp [*]; done)
    | split
    | refine foldl_wf _ (fun s x hs => ?_) _ ?_ _
    | dsimp only
    | simp [*]

@[simp] theorem State.storeAt_wf (s : State) (f : Flight) (hm : Memory.wf s.mem = true) : Memory.wf (State.storeAt s f).mem = true := by
  unfold State.storeAt
  repeat' first
    | assumption
    | (simp [*]; done)
    | split
    | refine foldl_wf _ (fun s x hs => ?_) _ ?_ _
    | dsimp only
    | simp [*]

@[simp] theorem execSliceWrite_keeps (id : Nat) (s : State) (hm : Memory.wf s.mem = true) : Keeps (execSliceWrite id s) := by
  unfold execSliceWrite
  repeat' first
    | assumption
    | (simp [*]; done)
    | split
    | refine foldl_wf _ (fun s x hs => ?_) _ ?_ _
    | dsimp only
    | simp [*]

@[simp] theorem State.ackAt_mem (s : State) (f : Flight) (a : Ack) : (State.ackAt s f a).mem = s.mem := by
  unfold State.ackAt
  repeat' first
    | rfl
    | (simp [apply_ite State.mem, apply_ite Run.s]; done)
    | split
    | refine (foldl_mem _ (fun s x => ?_) _ _).trans ?_
    | refine (foldl_run_mem _ (fun s x => ?_) _ _).trans ?_
    | dsimp only
    | simp

@[simp] theorem execStoreAcknowledgement_keeps (id : Nat) (ack : Ack) (s : State) (hm : Memory.wf s.mem = true) : Keeps (execStoreAcknowledgement id ack s) := by
  unfold execStoreAcknowledgement
  repeat' first
    | assumption
    | (simp [*]; done)
    | split
    | refine foldl_wf _ (fun s x hs => ?_) _ ?_ _
    | dsimp only
    | simp [*]

@[simp] theorem execReplicationSwitch_keeps (col region : Nat) (s : State) (hm : Memory.wf s.mem = true) : Keeps (execReplicationSwitch col region s) := by
  unfold execReplicationSwitch
  repeat' first
    | assumption
    | (simp [*]; done)
    | split
    | refine foldl_wf _ (fun s x hs => ?_) _ ?_ _
    | dsimp only
    | simp [*]

@[simp] theorem execReplicationCounterHalving_keeps (col : Nat) (s : State) (hm : Memory.wf s.mem = true) : Keeps (execReplicationCounterHalving col s) := by
  unfold execReplicationCounterHalving
  repeat' first
    | assumption
    | (simp [*]; done)
    | split
    | refine foldl_wf _ (fun s x hs => ?_) _ ?_ _
    | dsimp only
    | simp [*]

@[simp] theorem execReplicaInvalidation_keeps (col : Nat) (s : State) (hm : Memory.wf s.mem = true) : Keeps (execReplicaInvalidation col s) := by
  unfold execReplicaInvalidation
  repeat' first
    | assumption
    | (simp [*]; done)
    | split
    | refine foldl_wf _ (fun s x hs => ?_) _ ?_ _
    | dsimp only
    | simp [*]

end Sys2Proof.Machine
end

