-- ==== Sys2Proof/Laws/MemSliceOps.lean ====
section
/-! SUPPORT. Memory keeps its canonical form: the definitions of Machine/SliceOps.lean. -/

set_option linter.all false

namespace Sys2Proof.Machine

@[simp] theorem execFence_keeps (o : Ops) (acq rel _sc : Bool) (scope : Scope) (s : State) (hm : Memory.wf s.mem = true) : Keeps (execFence o acq rel _sc scope s) := by
  unfold execFence
  refine withRun_keeps hm _ (fun r h1 h0 => ?_)
  repeat' first
    | assumption
    | (simp [*]; done)
    | split
    | refine foldl_wf _ (fun s x hs => ?_) _ ?_ _
    | refine foldl_run_wf _ (fun r x hr hr0 => ⟨?_, ?_⟩) _ ?_ ?_ _
    | dsimp only
    | simp only [Bool.not_eq_true', ite_not]

@[simp] theorem Run.sendRange_mem (r : Run) (op span : Nat) (scope : Scope) (a : Acc) : (Run.sendRange r op span scope a).s.mem = r.s.mem := by
  unfold Run.sendRange
  repeat' first
    | rfl
    | (simp [apply_ite State.mem, apply_ite Run.s]; done)
    | split
    | refine (foldl_mem _ (fun s x => ?_) _ _).trans ?_
    | refine (foldl_run_mem _ (fun s x => ?_) _ _).trans ?_
    | dsimp only
    | simp

@[simp] theorem Run.sendRange_s0 (r : Run) (op span : Nat) (scope : Scope) (a : Acc) : (Run.sendRange r op span scope a).s0 = r.s0 := by
  unfold Run.sendRange
  repeat' first
    | rfl
    | (simp [apply_ite Run.s0]; done)
    | split
    | refine (foldl_run_s0 _ (fun s x => ?_) _ _).trans ?_
    | dsimp only
    | simp

theorem rangeRun_keeps (o : Ops) (op span : Nat) (scope : Scope) (off : Int) (s : State) (hm : Memory.wf s.mem = true) :
    Keeps (rangeRun o op span scope off s) := by
  unfold rangeRun
  refine withRun_keeps hm _ (fun r h1 h0 => ?_)
  extract_lets x r1 r2
  split
  · next h => simp [Run.translated_parked h, r2, r1, h0]
  · next r3 acc h =>
    have e := Run.translated_go h
    extract_lets r4 r5
    have e5 : r5.s.mem = r.s.mem := by simp [r5, r4, e, r2, r1]
    rw [Run.finish_mem, foldl_run_mem _ (fun r x => by simp), e5]
    exact h1

@[simp] theorem execCflush_keeps (o : Ops) (scope : Scope) (off : Int) (s : State) (hm : Memory.wf s.mem = true) :
    Keeps (execCflush o scope off s) := rangeRun_keeps _ _ _ _ _ _ hm

@[simp] theorem execCwb_keeps (o : Ops) (scope : Scope) (off : Int) (s : State) (hm : Memory.wf s.mem = true) :
    Keeps (execCwb o scope off s) := rangeRun_keeps _ _ _ _ _ _ hm

@[simp] theorem execCinv_keeps (o : Ops) (scope : Scope) (off : Int) (s : State) (hm : Memory.wf s.mem = true) :
    Keeps (execCinv o scope off s) := rangeRun_keeps _ _ _ _ _ _ hm

@[simp] theorem execCspan_keeps (o : Ops) (scope : Scope) (span : Nat) (off : Int) (s : State) (hm : Memory.wf s.mem = true) :
    Keeps (execCspan o scope span off s) := rangeRun_keeps _ _ _ _ _ _ hm

@[simp] theorem State.writeBack_mem (s : State) (col rg : Nat) (gs : List Nat) : (State.writeBack s col rg gs).mem = s.mem := by
  unfold State.writeBack
  repeat' first
    | rfl
    | (simp [apply_ite State.mem, apply_ite Run.s]; done)
    | split
    | refine (foldl_mem _ (fun s x => ?_) _ _).trans ?_
    | refine (foldl_run_mem _ (fun s x => ?_) _ _).trans ?_
    | dsimp only
    | simp

@[simp] theorem State.rangeRegion_wf (s : State) (col op span rg : Nat) (gs : List Nat) (id : Nat) (hm : Memory.wf s.mem = true) : Memory.wf (State.rangeRegion s col op span rg gs id).2.mem = true := by
  unfold State.rangeRegion
  repeat' first
    | assumption
    | (simp [*]; done)
    | refine Run.once_wf _ _ _ (by simp [*]) (fun l => ?_)
    | (split <;> (rename_i h; first | (simp [Run.access_parked h, *]; done) | (replace h := Run.access_go h) | fail))
    | (split <;> (rename_i h; first | (simp [Run.translated_parked h, *]; done) | (replace h := Run.translated_go h) | fail))
    | split
    | refine foldl_wf _ (fun s x hs => ?_) _ ?_ _
    | refine foldl_run_wf _ (fun r x hr hr0 => ⟨?_, ?_⟩) _ ?_ ?_ _
    | dsimp only
    | simp [*]

@[simp] theorem State.farRange_mem (s : State) (f : Flight) : (State.farRange s f).mem = s.mem := by
  unfold State.farRange
  repeat' first
    | rfl
    | (simp [apply_ite State.mem, apply_ite Run.s]; done)
    | split
    | refine (foldl_mem _ (fun s x => ?_) _ _).trans ?_
    | refine (foldl_run_mem _ (fun s x => ?_) _ _).trans ?_
    | dsimp only
    | simp

theorem rangeFold_wf (col op span id pa n : Nat) (ls : List Nat) (r : Nat × State) (hm : Memory.wf r.2.mem = true) :
    Memory.wf (ls.foldl (fun (r : Nat × State) rg =>
      let q := r.2.rangeRegion col op span rg (gransOf pa n rg) id; (r.1 + q.1, q.2)) r).2.mem = true := by
  induction ls generalizing r with
  | nil => exact hm
  | cons x l ih => exact ih _ (State.rangeRegion_wf _ _ _ _ _ _ _ hm)

@[simp] theorem State.rangeAt_wf (s : State) (f : Flight) (op col : Nat) (hm : Memory.wf s.mem = true) : Memory.wf (State.rangeAt s f op col).mem = true := by
  unfold State.rangeAt
  extract_lets n r s1
  have h1 : Memory.wf s1.mem = true := by
    have h := rangeFold_wf col op f.span f.id f.pa n ((regionsOf f.pa n).filter (fun rg => s.home (rg * 4096) == col)) (0, s) hm
    simp only [s1]
    split <;> simpa using h
  split
  · simp [hm]
  · split
    · simp [hm]
    · simp [h1]

@[simp] theorem execRangeOpAtSlice_keeps (id col : Nat) (s : State) (hm : Memory.wf s.mem = true) : Keeps (execRangeOpAtSlice id col s) := by
  unfold execRangeOpAtSlice
  repeat' first
    | assumption
    | (simp [*]; done)
    | split
    | refine foldl_wf _ (fun s x hs => ?_) _ ?_ _
    | dsimp only
    | simp [*]

@[simp] theorem execNred_keeps (o : Ops) (op : AOp) (ty : Ty) (scope : Scope) (off : Int) (s : State) (hm : Memory.wf s.mem = true) : Keeps (execNred o op ty scope off s) := by
  unfold execNred
  refine withRun_keeps hm _ (fun r h1 h0 => ?_)
  repeat' first
    | assumption
    | (simp [*]; done)
    | refine Run.once_wf _ _ _ (by simp [*]) (fun l => ?_)
    | (split <;> (rename_i h; first | (simp [Run.access_parked h, *]; done) | (replace h := Run.access_go h) | fail))
    | (split <;> (rename_i h; first | (simp [Run.translated_parked h, *]; done) | (replace h := Run.translated_go h) | fail))
    | split
    | refine foldl_wf _ (fun s x hs => ?_) _ ?_ _
    | refine foldl_run_wf _ (fun r x hr hr0 => ⟨?_, ?_⟩) _ ?_ ?_ _
    | dsimp only
    | simp only [Bool.not_eq_true', ite_not]

@[simp] theorem State.nredWrite_wf (s : State) (pa : Nat) (bs : List Byte) (who : Option Nat) (hm : Memory.wf s.mem = true) :
    Memory.wf (s.nredWrite pa bs who).mem = true := by
  unfold State.nredWrite
  dsimp only
  split
  · simp [hm]
  · simp [wf_memPutBytes, hm]

@[simp] theorem State.nredAt_wf (s : State) (f : Flight) (hm : Memory.wf s.mem = true) : Memory.wf (State.nredAt s f).mem = true := by
  unfold State.nredAt
  repeat' first
    | assumption
    | (simp [*]; done)
    | refine Run.once_wf _ _ _ (by simp [*]) (fun l => ?_)
    | (split <;> (rename_i h; first | (simp [Run.access_parked h, *]; done) | (replace h := Run.access_go h) | fail))
    | (split <;> (rename_i h; first | (simp [Run.translated_parked h, *]; done) | (replace h := Run.translated_go h) | fail))
    | split
    | refine foldl_wf _ (fun s x hs => ?_) _ ?_ _
    | refine foldl_run_wf _ (fun r x hr hr0 => ⟨?_, ?_⟩) _ ?_ ?_ _
    | dsimp only
    | simp [*]

@[simp] theorem execNredAtHome_keeps (id : Nat) (s : State) (hm : Memory.wf s.mem = true) : Keeps (execNredAtHome id s) := by
  unfold execNredAtHome
  repeat' first
    | assumption
    | (simp [*]; done)
    | split
    | refine foldl_wf _ (fun s x hs => ?_) _ ?_ _
    | dsimp only
    | simp [*]

@[simp] theorem execWwait_keeps (o : Ops) (tout : Nat) (off : Int) (s : State) (hm : Memory.wf s.mem = true) : Keeps (execWwait o tout off s) := by
  unfold execWwait
  refine withRun_keeps hm _ (fun r h1 h0 => ?_)
  repeat' first
    | assumption
    | (simp [*]; done)
    | refine Run.once_wf _ _ _ (by simp [*]) (fun l => ?_)
    | (split <;> (rename_i h; first | (simp [Run.access_parked h, *]; done) | (replace h := Run.access_go h) | fail))
    | (split <;> (rename_i h; first | (simp [Run.translated_parked h, *]; done) | (replace h := Run.translated_go h) | fail))
    | split
    | refine foldl_wf _ (fun s x hs => ?_) _ ?_ _
    | refine foldl_run_wf _ (fun r x hr hr0 => ⟨?_, ?_⟩) _ ?_ ?_ _
    | dsimp only
    | simp only [Bool.not_eq_true', ite_not]

@[simp] theorem execWwake_keeps (o : Ops) (s : State) (hm : Memory.wf s.mem = true) : Keeps (execWwake o s) := by
  unfold execWwake
  refine withRun_keeps hm _ (fun r h1 h0 => ?_)
  repeat' first
    | assumption
    | (simp [*]; done)
    | refine Run.once_wf _ _ _ (by simp [*]) (fun l => ?_)
    | (split <;> (rename_i h; first | (simp [Run.access_parked h, *]; done) | (replace h := Run.access_go h) | fail))
    | (split <;> (rename_i h; first | (simp [Run.translated_parked h, *]; done) | (replace h := Run.translated_go h) | fail))
    | split
    | refine foldl_wf _ (fun s x hs => ?_) _ ?_ _
    | refine foldl_run_wf _ (fun r x hr hr0 => ⟨?_, ?_⟩) _ ?_ ?_ _
    | dsimp only
    | simp only [Bool.not_eq_true', ite_not]

@[simp] theorem State.wakeAt_mem (s : State) (f : Flight) : (State.wakeAt s f).mem = s.mem := by
  unfold State.wakeAt
  repeat' first
    | rfl
    | (simp [apply_ite State.mem, apply_ite Run.s]; done)
    | split
    | refine (foldl_mem _ (fun s x => ?_) _ _).trans ?_
    | refine (foldl_run_mem _ (fun s x => ?_) _ _).trans ?_
    | dsimp only
    | simp

@[simp] theorem State.landWait_mem (s : State) (f : Flight) : (s.landWait f).mem = s.mem := by
  unfold State.landWait
  split <;> simp

@[simp] theorem execWaitEntryEnd_keeps (id : Nat) (s : State) (hm : Memory.wf s.mem = true) : Keeps (execWaitEntryEnd id s) := by
  unfold execWaitEntryEnd
  repeat' first
    | assumption
    | (simp [*]; done)
    | split
    | refine foldl_wf _ (fun s x hs => ?_) _ ?_ _
    | dsimp only
    | simp [*]

@[simp] theorem execWaitDeadlineExpiry_keeps (id : Nat) (s : State) (hm : Memory.wf s.mem = true) : Keeps (execWaitDeadlineExpiry id s) := by
  unfold execWaitDeadlineExpiry
  repeat' first
    | assumption
    | (simp [*]; done)
    | split
    | refine foldl_wf _ (fun s x hs => ?_) _ ?_ _
    | dsimp only
    | simp [*]

@[simp] theorem State.cancelWait_mem (s : State) (home : Nat) (e : WaitEnt) : (State.cancelWait s home e).mem = s.mem := by
  unfold State.cancelWait
  repeat' first
    | rfl
    | (simp [apply_ite State.mem, apply_ite Run.s]; done)
    | split
    | refine (foldl_mem _ (fun s x => ?_) _ _).trans ?_
    | refine (foldl_run_mem _ (fun s x => ?_) _ _).trans ?_
    | dsimp only
    | simp

@[simp] theorem State.carve_wf (s : State) (tw : Nat) (hm : Memory.wf s.mem = true) : Memory.wf (State.carve s tw).mem = true := by
  unfold State.carve
  exact foldl_wf _ (fun s i hs => foldl_wf _ (fun s b hs => State.makeRoom_wf _ _ _ _ _ _ _ hs) _ hs _) _ hm _

@[simp] theorem State.setWindow_wf (s : State) (tw n : Nat) (hm : Memory.wf s.mem = true) : Memory.wf (s.setWindow tw n).mem = true := by
  unfold State.setWindow
  extract_lets old s1 s2 s3
  have h1 : Memory.wf s1.mem = true := by simpa [s1] using hm
  have h2 : Memory.wf s2.mem = true := by simp only [s2]; split <;> simp [h1]
  have h3 : Memory.wf s3.mem = true := wf_filter _ h2
  exact foldl_wf _ (fun s i hs => foldl_wf _ (fun s b hs => by simpa using hs) _ hs _) _ h3 _

@[simp] theorem execMswin_keeps (o : Ops) (s : State) (hm : Memory.wf s.mem = true) : Keeps (execMswin o s) := by
  unfold execMswin
  refine withRun_keeps hm _ (fun r h1 h0 => ?_)
  repeat' first
    | assumption
    | (simp [*]; done)
    | refine Run.once_wf _ _ _ (by simp [*]) (fun l => ?_)
    | (split <;> (rename_i h; first | (simp [Run.access_parked h, *]; done) | (replace h := Run.access_go h) | fail))
    | (split <;> (rename_i h; first | (simp [Run.translated_parked h, *]; done) | (replace h := Run.translated_go h) | fail))
    | split
    | refine foldl_wf _ (fun s x hs => ?_) _ ?_ _
    | refine foldl_run_wf _ (fun r x hr hr0 => ⟨?_, ?_⟩) _ ?_ ?_ _
    | dsimp only
    | simp only [Bool.not_eq_true', ite_not]

end Sys2Proof.Machine
end

