-- ==== Sys2Proof/Laws/MemEngine.lean ====
section
/-! SUPPORT. Memory keeps its canonical form: the definitions of Machine/Engine.lean. -/

set_option linter.all false

namespace Sys2Proof.Machine

@[simp] theorem State.freeBytes_mem (s : State) (n : Nat) : (State.freeBytes s n).2.mem = s.mem := by
  simp [State.freeBytes]

@[simp] theorem State.countMig_mem (s : State) (fmode peer pa : Nat) : (State.countMig s fmode peer pa).mem = s.mem := by
  unfold State.countMig
  repeat' first
    | rfl
    | (simp [apply_ite State.mem, apply_ite Run.s]; done)
    | split
    | refine (foldl_mem _ (fun s x => ?_) _ _).trans ?_
    | refine (foldl_run_mem _ (fun s x => ?_) _ _).trans ?_
    | dsimp only
    | simp

@[simp] theorem State.engTake_mem (s : State) (g : Eng) (e : TlbEnt) (pa : Nat) (k : AccessKind) : (State.engTake s g e pa k).mem = s.mem := by
  unfold State.engTake
  repeat' first
    | rfl
    | (simp [apply_ite State.mem, apply_ite Run.s]; done)
    | split
    | refine (foldl_mem _ (fun s x => ?_) _ _).trans ?_
    | refine (foldl_run_mem _ (fun s x => ?_) _ _).trans ?_
    | dsimp only
    | simp

@[simp] theorem State.engBytes_wf (s : State) (col : Nat) (e : TlbEnt) (pa n : Nat) (hm : Memory.wf s.mem = true) :
    Memory.wf (s.engBytes col e pa n).2.mem = true := by
  unfold State.engBytes
  dsimp only
  repeat' first
    | (simp [hm]; done)
    | split
    | exact State.sliceRead_wf _ _ _ _ _ _ (by simp [hm])
    | exact State.loadBytes_wf _ _ _ _ _ _ (by simp [hm])

@[simp] theorem State.engSend_wf (s : State) (g : Eng) (i : Issuer) (wid : Nat) (e : TlbEnt) (pa : Nat) (c : Chunk) (hm : Memory.wf s.mem = true) : Memory.wf (State.engSend s g i wid e pa c).mem = true := by
  simp [State.engSend, hm]

theorem State.engRead_ok {g : Eng} {xs : List (Nat × Nat)} {ls : List Nat} {s s' : State} {d d' : EngData}
    (h : s.engRead g xs ls d = .ok d' s') (hm : Memory.wf s.mem = true) : Memory.wf s'.mem = true := by
  induction ls generalizing s d with
  | nil => simp only [State.engRead, EngOut.ok.injEq] at h; rw [← h.2]; exact hm
  | cons l r ih =>
    unfold State.engRead at h
    extract_lets parts first at h
    split at h
    · simp at h
    · dsimp only at h
      split at h
      · simp at h
      · exact ih h (State.engBytes_wf _ _ _ _ _ (by simpa using hm))

theorem State.engGather_ok {g : Eng} {xs : List (Nat × Nat)} {s s' : State} {d : EngData}
    (h : s.engGather g xs = .ok d s') (hm : Memory.wf s.mem = true) : Memory.wf s'.mem = true := State.engRead_ok h hm

@[simp] theorem State.engPut_wf (s : State) (g : Eng) (i : Issuer) (wid : Nat) (c : Chunk) (hm : Memory.wf s.mem = true) : Memory.wf (State.engPut s g i wid c).mem = true := by
  unfold State.engPut
  repeat' first
    | assumption
    | (simp [*]; done)
    | split
    | refine foldl_wf _ (fun s x hs => ?_) _ ?_ _
    | dsimp only
    | simp [*]

theorem State.engWrite_ok {g : Eng} {i : Issuer} {cs : List Chunk} {who : Nat} {s s' : State} {d : EngData}
    (h : s.engWrite g i cs who = .ok d s') (hm : Memory.wf s.mem = true) : Memory.wf s'.mem = true := by
  unfold State.engWrite at h
  split at h
  · simp at h
  · simp only [EngOut.ok.injEq] at h
    rw [← h.2]
    exact foldl_wf _ (fun s c hs => State.engPut_wf _ _ _ _ _ hs) _ hm _

@[simp] theorem State.trackWrite_mem (s : State) (i : Issuer) (core wid : Nat) : (State.trackWrite s i core wid).mem = s.mem := by
  unfold State.trackWrite
  repeat' first
    | rfl
    | (simp [apply_ite State.mem, apply_ite Run.s]; done)
    | split
    | refine (foldl_mem _ (fun s x => ?_) _ _).trans ?_
    | refine (foldl_run_mem _ (fun s x => ?_) _ _).trans ?_
    | dsimp only
    | simp

theorem State.engRefused_mem {s s' : State} {core asid tries : Nat} (h : s.engRefused core asid tries = some s') : s'.mem = s.mem := by
  unfold State.engRefused at h
  split at h
  · simp at h
  · simp only [Option.some.injEq] at h
    subst h
    simp

@[simp] theorem State.countAdd_mem (s : State) (t k n scope : Nat) : (State.countAdd s t k n scope).mem = s.mem := by
  simp [State.countAdd]

@[simp] theorem State.countSub_mem (s : State) (t k m : Nat) : (State.countSub s t k m).mem = s.mem := by
  simp [State.countSub]

@[simp] theorem State.landed_mem (s : State) (t : Nat) (r : Report) (m : Nat) : (State.landed s t r m).mem = s.mem := by
  unfold State.landed
  repeat' first
    | rfl
    | (simp [apply_ite State.mem, apply_ite Run.s]; done)
    | split
    | refine (foldl_mem _ (fun s x => ?_) _ _).trans ?_
    | refine (foldl_run_mem _ (fun s x => ?_) _ _).trans ?_
    | dsimp only
    | simp

@[simp] theorem State.charged_mem (s : State) (t : Nat) (r : Report) (n scope : Nat) : (State.charged s t r n scope).mem = s.mem := by
  unfold State.charged
  repeat' first
    | rfl
    | (simp [apply_ite State.mem, apply_ite Run.s]; done)
    | split
    | refine (foldl_mem _ (fun s x => ?_) _ _).trans ?_
    | refine (foldl_run_mem _ (fun s x => ?_) _ _).trans ?_
    | dsimp only
    | simp

@[simp] theorem State.abandonFor_mem (s : State) (i : Issuer) (cls reason : Nat) (addr ipc : Word) : (State.abandonFor s i cls reason addr ipc).mem = s.mem := by
  simp [State.abandonFor]

end Sys2Proof.Machine
end

