-- ==== Sys2Proof/Laws/MemSlip.lean ====
section
/-! SUPPORT. Memory keeps its canonical form: the definitions of Machine/Slip.lean. -/

set_option linter.all false

namespace Sys2Proof.Machine

@[simp] theorem Run.recRefuse_mem (r : Run) (pages : List Nat) : (Run.recRefuse r pages).mem = r.s0.mem := by
  simp [Run.recRefuse]

theorem State.ioRecord_wf (s : State) (pa : Nat) (hm : Memory.wf s.mem = true) : Memory.wf (s.ioRecord pa).2.mem = true := by
  unfold State.ioRecord
  exact foldl_inv (fun (p : List Byte × State) => Memory.wf p.2.mem = true) _ (fun p i hp => by simpa using hp) _ hm _

theorem State.readRec_wf (s : State) (g : Eng) (e : TlbEnt) (pa : Nat) (hm : Memory.wf s.mem = true) :
    Memory.wf (s.readRec g e pa).2.mem = true := by
  unfold State.readRec
  extract_lets s1
  have h1 : Memory.wf s1.mem = true := by simp only [s1]; split <;> simpa using hm
  split
  · exact State.ioRecord_wf _ _ h1
  · exact State.engBytes_wf _ _ _ _ _ (by simpa using h1)

theorem Run.readRecs_wf (r : Run) (acc : List Acc) (hm : Memory.wf r.s.mem = true) :
    Memory.wf (r.readRecs acc).1.s.mem = true ∧ (r.readRecs acc).1.s0 = r.s0 := by
  unfold Run.readRecs
  refine foldl_inv (fun (q : Run × List (Nat × List Byte)) => Memory.wf q.1.s.mem = true ∧ q.1.s0 = r.s0) _ ?_ (r, []) ⟨hm, rfl⟩ _
  intro q a hq
  dsimp only
  split
  · exact hq
  · exact ⟨State.readRec_wf _ _ _ _ hq.1, hq.2⟩

theorem Run.records_parked {r : Run} {ls : List Nat} {s : State} (h : r.records ls = .parked s) : s.mem = r.s0.mem := by
  unfold Run.records at h
  split at h
  · next h1 => simp only [RecOut.parked.injEq] at h; subst h; simpa using Run.translated_parked h1
  · next h1 =>
    have e := Run.translated_go h1
    extract_lets r1 ok q at h
    have e1 : r1.s0 = r.s0 := by simp [r1, e]
    split at h
    · simp only [RecOut.parked.injEq] at h; subst h; simp [e1]
    · split at h
      · simp only [RecOut.parked.injEq] at h; subst h; simp [e1]
      · split at h
        · simp only [RecOut.parked.injEq] at h; subst h; simp [e1]
        · simp at h

theorem Run.records_go {r r' : Run} {ls : List Nat} {recs : List (Nat × List Byte)} (h : r.records ls = .go r' recs)
    (hm : Memory.wf r.s.mem = true) (hm0 : Memory.wf r.s0.mem = true) :
    Memory.wf r'.s.mem = true ∧ Memory.wf r'.s0.mem = true := by
  unfold Run.records at h
  split at h
  · simp at h
  · next h1 =>
    have e := Run.translated_go h1
    extract_lets r1 ok q at h
    have e1 : r1.s.mem = r.s.mem := by simp [r1, e]
    have e2 : r1.s0 = r.s0 := by simp [r1, e]
    split at h
    · simp at h
    · split at h
      · simp at h
      · split at h
        · simp at h
        · simp only [RecOut.go.injEq] at h
          have := Run.readRecs_wf (r1.checkAcc ok r1.recFault) ok (by rw [Run.checkAcc_s, e1]; exact hm)
          rw [← h.1]
          refine ⟨this.1, ?_⟩
          rw [this.2]
          simpa [e2] using hm0

@[simp] theorem State.slipIssue_mem (s : State) (f : SlipForm) (c : SlipCmd) (es : List LockEnt) : (State.slipIssue s f c es).mem = s.mem := by
  unfold State.slipIssue
  repeat' first
    | rfl
    | (simp [apply_ite State.mem, apply_ite Run.s]; done)
    | split
    | refine (foldl_mem _ (fun s x => ?_) _ _).trans ?_
    | refine (foldl_run_mem _ (fun s x => ?_) _ _).trans ?_
    | dsimp only
    | simp

theorem SlipPrep.lane_keep (p : SlipPrep) (f : SlipForm) (l : Nat) (bs : List Byte) :
    (p.lane f l bs).r.s = p.r.s ∧ (p.lane f l bs).r.s0 = p.r.s0 := by
  unfold SlipPrep.lane
  extract_lets r t c cs rows bytes bring half B slot id off
  repeat' first
    | exact ⟨rfl, rfl⟩
    | (simp [r]; done)
    | split

theorem SlipPrep.together_keep (p : SlipPrep) (f : SlipForm) :
    (p.together f).r.s = p.r.s ∧ (p.together f).r.s0 = p.r.s0 := by
  have h : ∀ n, (p.refuse n).r.s = p.r.s ∧ (p.refuse n).r.s0 = p.r.s0 := fun n =>
    foldl_inv (fun (r : Run) => r.s = p.r.s ∧ r.s0 = p.r.s0) _ (fun r y hr => by simp [hr]) _ ⟨rfl, rfl⟩ _
  unfold SlipPrep.together
  split
  · exact h _
  · split
    · exact h _
    · exact ⟨rfl, rfl⟩

@[simp] theorem slipRun_keeps (o : Ops) (f : SlipForm) (s : State) (hm : Memory.wf s.mem = true) : Keeps (slipRun o f s) := by
  unfold slipRun
  refine withRun_keeps hm _ (fun r h1 h0 => ?_)
  extract_lets ls r1
  split
  · next h => rw [Run.records_parked h]; simpa [r1] using h0
  · next r2 recs h =>
    have e := Run.records_go h (by simpa [r1] using h1) (by simpa [r1] using h0)
    extract_lets k p s1 s2 s3 s4
    have hp : p.r.s = r2.s ∧ p.r.s0 = r2.s0 := by
      simp only [p, SlipPrep.together_keep]
      exact foldl_inv (fun (p : SlipPrep) => p.r.s = r2.s ∧ p.r.s0 = r2.s0) _
        (fun q x hq => by have := q.lane_keep f x.1 x.2; exact ⟨this.1.trans hq.1, this.2.trans hq.2⟩) _ ⟨rfl, rfl⟩ _
    split
    · simpa using e.2
    · split
      · simpa [hp.1] using e.1
      · have g1 : Memory.wf s1.mem = true := foldl_wf _ (fun s x hs => by simpa using hs) _ (by rw [hp.1]; exact e.1) _
        have g3 : Memory.wf s3.mem = true := by simpa [s3, s2] using g1
        have g4 : Memory.wf s4.mem = true := by simp only [s4]; split <;> simp [g3]
        simpa using g4

@[simp] theorem execSlipLd_keeps (o : Ops) (ring : Bool) (e : SlipE) (s : State) (hm : Memory.wf s.mem = true) :
    Keeps (execSlipLd o ring e s) := slipRun_keeps _ _ _ hm

@[simp] theorem execSlipSt_keeps (o : Ops) (e : SlipE) (s : State) (hm : Memory.wf s.mem = true) :
    Keeps (execSlipSt o e s) := slipRun_keeps _ _ _ hm

@[simp] theorem execSlipRl_keeps (o : Ops) (ring : Bool) (e : SlipE) (s : State) (hm : Memory.wf s.mem = true) :
    Keeps (execSlipRl o ring e s) := slipRun_keeps _ _ _ hm

@[simp] theorem execSlipBs_keeps (o : Ops) (e : SlipE) (s : State) (hm : Memory.wf s.mem = true) :
    Keeps (execSlipBs o e s) := slipRun_keeps _ _ _ hm

@[simp] theorem execSlipx_keeps (o : Ops) (bs ring : Bool) (tgt : XTgt) (e : SlipE) (s : State) (hm : Memory.wf s.mem = true) :
    Keeps (execSlipx o bs ring tgt e s) := slipRun_keeps _ _ _ hm

@[simp] theorem execSlipc_keeps (o : Ops) (lb : Nat) (e : SlipE) (s : State) (hm : Memory.wf s.mem = true) :
    Keeps (execSlipc o lb e s) := slipRun_keeps _ _ _ hm

@[simp] theorem State.modSlip_mem (s : State) (core id : Nat) (f : SlipCmd → SlipCmd) : (State.modSlip s core id f).mem = s.mem := by
  simp [State.modSlip]

@[simp] theorem State.giveLoop_mem (s : State) (core h : Nat) : (State.giveLoop s core h).mem = s.mem := by
  unfold State.giveLoop
  repeat' first
    | rfl
    | (simp [apply_ite State.mem, apply_ite Run.s]; done)
    | split
    | refine (foldl_mem _ (fun s x => ?_) _ _).trans ?_
    | refine (foldl_run_mem _ (fun s x => ?_) _ _).trans ?_
    | dsimp only
    | simp

@[simp] theorem State.serveHalves_mem (s : State) (core n : Nat) : (s.serveHalves core n).mem = s.mem := by
  induction n generalizing s with
  | zero => rfl
  | succ n ih =>
    unfold State.serveHalves
    dsimp only
    repeat' first
      | rfl
      | (rw [ih]; simp; done)
      | (rw [ih]; split <;> simp; done)
      | split

@[simp] theorem State.fullHalf_mem (s : State) (core h : Nat) : (s.fullHalf core h).mem = s.mem := by
  unfold State.fullHalf
  dsimp only
  split <;> simp

@[simp] theorem State.halfLanded_mem (s : State) (core : Nat) (c : SlipCmd) : (State.halfLanded s core c).mem = s.mem := by
  unfold State.halfLanded
  repeat' first
    | rfl
    | (simp [apply_ite State.mem, apply_ite Run.s]; done)
    | split
    | refine (foldl_mem _ (fun s x => ?_) _ _).trans ?_
    | refine (foldl_run_mem _ (fun s x => ?_) _ _).trans ?_
    | dsimp only
    | simp

@[simp] theorem State.unlockSlip_mem (s : State) (core : Nat) (c : SlipCmd) : (s.unlockSlip core c).mem = s.mem := by
  unfold State.unlockSlip
  split <;> simp

@[simp] theorem State.pieceLanded_mem (s : State) (core : Nat) (c : SlipCmd) (p : Nat) : (State.pieceLanded s core c p).mem = s.mem := by
  unfold State.pieceLanded
  repeat' first
    | rfl
    | (simp [apply_ite State.mem, apply_ite Run.s]; done)
    | split
    | refine (foldl_mem _ (fun s x => ?_) _ _).trans ?_
    | refine (foldl_run_mem _ (fun s x => ?_) _ _).trans ?_
    | dsimp only
    | simp

@[simp] theorem State.pieceSent_wf (s : State) (core : Nat) (c : SlipCmd) (p wid : Nat) (hm : Memory.wf s.mem = true) : Memory.wf (State.pieceSent s core c p wid).mem = true := by
  simp [State.pieceSent, hm]

@[simp] theorem State.slipFails_mem (s : State) (core : Nat) (c : SlipCmd) (p cls : Nat) (addr : Word) : (State.slipFails s core c p cls addr).mem = s.mem := by
  unfold State.slipFails
  dsimp only
  split
  · simp
  · split
    · split
      · next h => simp [State.engRefused_mem h]
      · simp
    · simp

theorem State.pieceData_ok {s s' : State} {core : Nat} {c : SlipCmd} {p : Nat} {d : EngData}
    (h : s.pieceData core c p = .ok d s') (hm : Memory.wf s.mem = true) : Memory.wf s'.mem = true := by
  unfold State.pieceData at h
  extract_lets xs T at h
  split at h
  · exact State.engGather_ok h hm
  · split at h
    · simp at h
    · split at h
      · simp at h
      · simp only [EngOut.ok.injEq] at h; rw [← h.2]; exact hm

@[simp] theorem State.putBox_mem (s : State) (core : Nat) (c : SlipCmd) (p : Nat) (bs : List (Nat × Byte)) : (State.putBox s core c p bs).mem = s.mem := by
  unfold State.putBox
  repeat' first
    | rfl
    | (simp [apply_ite State.mem, apply_ite Run.s]; done)
    | split
    | refine (foldl_mem _ (fun s x => ?_) _ _).trans ?_
    | refine (foldl_run_mem _ (fun s x => ?_) _ _).trans ?_
    | dsimp only
    | simp

@[simp] theorem State.noteXov_mem (s : State) (core : Nat) (c : SlipCmd) : (State.noteXov s core c).mem = s.mem := by
  unfold State.noteXov
  repeat' first
    | rfl
    | (simp [apply_ite State.mem, apply_ite Run.s]; done)
    | split
    | refine (foldl_mem _ (fun s x => ?_) _ _).trans ?_
    | refine (foldl_run_mem _ (fun s x => ?_) _ _).trans ?_
    | dsimp only
    | simp

@[simp] theorem State.pieceIn_wf (s : State) (core : Nat) (c : SlipCmd) (p : Nat) (hm : Memory.wf s.mem = true) : Memory.wf (State.pieceIn s core c p).mem = true := by
  unfold State.pieceIn
  extract_lets c1
  split
  · simp [hm]
  · next d s1 h =>
    have e := State.pieceData_ok h hm
    split
    · simpa using e
    · extract_lets g out s2 xov s3
      have e2 : Memory.wf s2.mem = true := by simpa [s2, g] using e
      have e3 : Memory.wf s3.mem = true := by simp only [s3]; split <;> simp [e2]
      simpa using e3

@[simp] theorem State.pieceOut_wf (s : State) (core : Nat) (c : SlipCmd) (p : Nat) (hm : Memory.wf s.mem = true) : Memory.wf (State.pieceOut s core c p).mem = true := by
  unfold State.pieceOut
  dsimp only
  split
  · simpa using hm
  · split
    · simpa using hm
    · next h =>
      have e := State.engWrite_ok h (by simpa using hm)
      split <;> simp [e]

@[simp] theorem execCopyPieceLands_keeps (id piece : Nat) (s : State) (hm : Memory.wf s.mem = true) : Keeps (execCopyPieceLands id piece s) := by
  unfold execCopyPieceLands
  repeat' first
    | assumption
    | (simp [*]; done)
    | split
    | refine foldl_wf _ (fun s x hs => ?_) _ ?_ _
    | dsimp only
    | simp [*]

@[simp] theorem State.dropSlip_mem (s : State) (core : Nat) (c : SlipCmd) : (State.dropSlip s core c).mem = s.mem := by
  unfold State.dropSlip
  repeat' first
    | rfl
    | (simp [apply_ite State.mem, apply_ite Run.s]; done)
    | split
    | refine (foldl_mem _ (fun s x => ?_) _ _).trans ?_
    | refine (foldl_run_mem _ (fun s x => ?_) _ _).trans ?_
    | dsimp only
    | simp

@[simp] theorem State.abandonSlip_mem (s : State) (core : Nat) (c : SlipCmd) (reason : Nat) (addr : Word) : (State.abandonSlip s core c reason addr).mem = s.mem := by
  unfold State.abandonSlip
  repeat' first
    | rfl
    | (simp [apply_ite State.mem, apply_ite Run.s]; done)
    | split
    | refine (foldl_mem _ (fun s x => ?_) _ _).trans ?_
    | refine (foldl_run_mem _ (fun s x => ?_) _ _).trans ?_
    | dsimp only
    | simp

@[simp] theorem State.serveRing_mem (s : State) (t hdr n : Nat) : (s.serveRing t hdr n).mem = s.mem := by
  induction n generalizing s with
  | zero => rfl
  | succ n ih =>
    unfold State.serveRing
    dsimp only
    split
    · rfl
    · split
      · rfl
      · rw [ih]; simp

@[simp] theorem State.fillSlot_mem (s : State) (c : SlipCmd) (t hdr slot : Nat) : (s.fillSlot c t hdr slot).mem = s.mem := by
  unfold State.fillSlot
  split
  · simp
  · split <;> simp

@[simp] theorem State.completeSlip_mem (s : State) (core : Nat) (c : SlipCmd) : (s.completeSlip core c).mem = s.mem := by
  unfold State.completeSlip
  dsimp only
  split <;> (try simp) <;> split <;> simp

@[simp] theorem execCopyComplete_keeps (id : Nat) (s : State) (hm : Memory.wf s.mem = true) : Keeps (execCopyComplete id s) := by
  unfold execCopyComplete
  repeat' first
    | assumption
    | (simp [*]; done)
    | split
    | refine foldl_wf _ (fun s x hs => ?_) _ ?_ _
    | dsimp only
    | simp [*]

@[simp] theorem execRinit_keeps (o : Ops) (n : Nat) (s : State) (hm : Memory.wf s.mem = true) : Keeps (execRinit o n s) := by
  unfold execRinit
  refine withRun_keeps hm _ (fun r h1 h0 => ?_)
  repeat' first
    | assumption
    | (simp [*]; done)
    | refine Run.once_wf _ _ _ (by simp [*]) (fun l => ?_)
    | (split <;> (rename_i h; first | (simp [Run.access_parked h, *]; done) | (replace h := Run.access_go h) | fail))
    | (split <;> (rename_i h; first | (simp [Run.translated_parked h, *]; done) | (replace h := Run.translated_go h) | fail))
    | split
    | refine foldl_wf _ (fun s x hs => ?_) _ ?_ _
    | refine foldl_run_wf _ (fun r x hr hr0 => ⟨?_, ?_⟩) _ ?_ ?_ _
    | dsimp only
    | simp only [Bool.not_eq_true', ite_not]

@[simp] theorem execRwait_keeps (o : Ops) (s : State) (hm : Memory.wf s.mem = true) : Keeps (execRwait o s) := by
  unfold execRwait
  refine withRun_keeps hm _ (fun r h1 h0 => ?_)
  repeat' first
    | assumption
    | (simp [*]; done)
    | refine Run.once_wf _ _ _ (by simp [*]) (fun l => ?_)
    | (split <;> (rename_i h; first | (simp [Run.access_parked h, *]; done) | (replace h := Run.access_go h) | fail))
    | (split <;> (rename_i h; first | (simp [Run.translated_parked h, *]; done) | (replace h := Run.translated_go h) | fail))
    | split
    | refine foldl_wf _ (fun s x hs => ?_) _ ?_ _
    | refine foldl_run_wf _ (fun r x hr hr0 => ⟨?_, ?_⟩) _ ?_ ?_ _
    | dsimp only
    | simp only [Bool.not_eq_true', ite_not]

@[simp] theorem execRwaitB_keeps (o : Ops) (s : State) (hm : Memory.wf s.mem = true) : Keeps (execRwaitB o s) := by
  unfold execRwaitB
  refine withRun_keeps hm _ (fun r h1 h0 => ?_)
  repeat' first
    | assumption
    | (simp [*]; done)
    | refine Run.once_wf _ _ _ (by simp [*]) (fun l => ?_)
    | (split <;> (rename_i h; first | (simp [Run.access_parked h, *]; done) | (replace h := Run.access_go h) | fail))
    | (split <;> (rename_i h; first | (simp [Run.translated_parked h, *]; done) | (replace h := Run.translated_go h) | fail))
    | split
    | refine foldl_wf _ (fun s x hs => ?_) _ ?_ _
    | refine foldl_run_wf _ (fun r x hr hr0 => ⟨?_, ?_⟩) _ ?_ ?_ _
    | dsimp only
    | simp only [Bool.not_eq_true', ite_not]

@[simp] theorem execRrel_keeps (o : Ops) (s : State) (hm : Memory.wf s.mem = true) : Keeps (execRrel o s) := by
  unfold execRrel
  refine withRun_keeps hm _ (fun r h1 h0 => ?_)
  repeat' first
    | assumption
    | (simp [*]; done)
    | refine Run.once_wf _ _ _ (by simp [*]) (fun l => ?_)
    | (split <;> (rename_i h; first | (simp [Run.access_parked h, *]; done) | (replace h := Run.access_go h) | fail))
    | (split <;> (rename_i h; first | (simp [Run.translated_parked h, *]; done) | (replace h := Run.translated_go h) | fail))
    | split
    | refine foldl_wf _ (fun s x hs => ?_) _ ?_ _
    | refine foldl_run_wf _ (fun r x hr hr0 => ⟨?_, ?_⟩) _ ?_ ?_ _
    | dsimp only
    | simp only [Bool.not_eq_true', ite_not]

@[simp] theorem State.dropOwner_mem (s : State) (core t : Nat) : (State.dropOwner s core t).mem = s.mem := by
  unfold State.dropOwner
  repeat' first
    | rfl
    | (simp [apply_ite State.mem, apply_ite Run.s]; done)
    | split
    | refine (foldl_mem _ (fun s x => ?_) _ _).trans ?_
    | refine (foldl_run_mem _ (fun s x => ?_) _ _).trans ?_
    | dsimp only
    | simp

@[simp] theorem execRrelB_keeps (o : Ops) (s : State) (hm : Memory.wf s.mem = true) : Keeps (execRrelB o s) := by
  unfold execRrelB
  refine withRun_keeps hm _ (fun r h1 h0 => ?_)
  repeat' first
    | assumption
    | (simp [*]; done)
    | refine Run.once_wf _ _ _ (by simp [*]) (fun l => ?_)
    | (split <;> (rename_i h; first | (simp [Run.access_parked h, *]; done) | (replace h := Run.access_go h) | fail))
    | (split <;> (rename_i h; first | (simp [Run.translated_parked h, *]; done) | (replace h := Run.translated_go h) | fail))
    | split
    | refine foldl_wf _ (fun s x hs => ?_) _ ?_ _
    | refine foldl_run_wf _ (fun r x hr hr0 => ⟨?_, ?_⟩) _ ?_ ?_ _
    | dsimp only
    | simp only [Bool.not_eq_true', ite_not]

theorem rstatRun_keeps (o : Ops) (s : State) (fault : Run → Nat → Option FltRec) (val : Run → Nat → Word) (after : Run → State → State)
    (ha : ∀ r s, (after r s).mem = s.mem) (hm : Memory.wf s.mem = true) : Keeps (rstatRun o s fault val after) := by
  unfold rstatRun
  refine withRun_keeps hm _ (fun r h1 h0 => Run.once_wf _ _ _ h1 (fun l => ?_))
  simp [ha, h1]

@[simp] theorem execRstatRing_keeps (o : Ops) (s : State) (hm : Memory.wf s.mem = true) : Keeps (execRstatRing o s) :=
  rstatRun_keeps _ _ _ _ _ (fun _ _ => rfl) hm

@[simp] theorem execRstatB_keeps (o : Ops) (s : State) (hm : Memory.wf s.mem = true) : Keeps (execRstatB o s) :=
  rstatRun_keeps _ _ _ _ _ (fun _ _ => rfl) hm

@[simp] theorem execRstatSt_keeps (o : Ops) (s : State) (hm : Memory.wf s.mem = true) : Keeps (execRstatSt o s) :=
  rstatRun_keeps _ _ _ _ _ (fun _ _ => rfl) hm

@[simp] theorem execRstatStc_keeps (o : Ops) (s : State) (hm : Memory.wf s.mem = true) : Keeps (execRstatStc o s) :=
  rstatRun_keeps _ _ _ _ _ (fun _ _ => by simp) hm

@[simp] theorem execTlr_keeps (o : Ops) (addr : Bool) (s : State) (hm : Memory.wf s.mem = true) : Keeps (execTlr o addr s) := by
  unfold execTlr
  refine withRun_keeps hm _ (fun r h1 h0 => ?_)
  split
  · next h => rw [Run.records_parked h]; exact h0
  · next r2 recs h =>
    have e := Run.records_go h h1 h0
    dsimp only
    rw [Run.finish_mem, foldl_run_mem _ (fun r x => by simp)]
    exact e.1

end Sys2Proof.Machine
end

