-- ==== Sys2Proof/Laws/MemWheel.lean ====
section
/-! SUPPORT. Memory keeps its canonical form: the definitions of Machine/Wheel.lean. -/

set_option linter.all false

namespace Sys2Proof.Machine

@[simp] theorem Run.writeOne_mem (r : Run) (l : Nat) (v : Word) : (Run.writeOne r l v).s.mem = r.s.mem := by
  unfold Run.writeOne
  repeat' first
    | rfl
    | (simp [apply_ite State.mem, apply_ite Run.s]; done)
    | split
    | refine (foldl_mem _ (fun s x => ?_) _ _).trans ?_
    | refine (foldl_run_mem _ (fun s x => ?_) _ _).trans ?_
    | dsimp only
    | simp

@[simp] theorem Run.writeOne_s0 (r : Run) (l : Nat) (v : Word) : (Run.writeOne r l v).s0 = r.s0 := by
  simp [Run.writeOne]

@[simp] theorem execWcfg_keeps (o : Ops) (s : State) (hm : Memory.wf s.mem = true) : Keeps (execWcfg o s) := by
  unfold execWcfg
  refine withRun_keeps hm _ (fun r h1 h0 => ?_)
  repeat' first
    | assumption
    | (simp [*]; done)
    | refine Run.once_wf _ _ _ (by simp [*]) (fun l => ?_)
    | (split <;> (rename_i h; first | (simp [Run.access_parked h, *]; done) | (replace h := Run.access_go h) | fail))
    | (split <;> (rename_i h; first | (simp [Run.translated_parked h, *]; done) | (replace h := Run.translated_go h) | fail))
    | split
    | refine foldl_wf _ (fun s x hs => ?_) _ ?_ _
    | refine foldl_run_wf _ (fun r x hr hr0 => ⟨?_, ?_⟩) _ ?_ ?_ _
    | dsimp only
    | simp only [Bool.not_eq_true', ite_not]

@[simp] theorem execWstat_keeps (o : Ops) (clr : Bool) (s : State) (hm : Memory.wf s.mem = true) : Keeps (execWstat o clr s) := by
  unfold execWstat
  refine withRun_keeps hm _ (fun r h1 h0 => ?_)
  repeat' first
    | assumption
    | (simp [*]; done)
    | split
    | refine foldl_wf _ (fun s x hs => ?_) _ ?_ _
    | refine foldl_run_wf _ (fun r x hr hr0 => ⟨?_, ?_⟩) _ ?_ ?_ _
    | dsimp only
    | simp only [Bool.not_eq_true', ite_not]

@[simp] theorem Run.wqueue_wf (r : Run) (w : WCmd) (es : List LockEnt) (mark : State → State) (hk : ∀ s, (mark s).mem = s.mem)
    (hm : Memory.wf r.s.mem = true) (hm0 : Memory.wf r.s0.mem = true) : Memory.wf (r.wqueue w es mark).mem = true := by
  unfold Run.wqueue
  extract_lets k ws
  split
  · rw [Run.park_mem]; exact hm0
  · rw [Run.finish_mem, State.modTeam_mem, hk]
    simpa +zetaDelta using hm

@[simp] theorem execWzero_keeps (o : Ops) (s : State) (hm : Memory.wf s.mem = true) : Keeps (execWzero o s) := by
  unfold execWzero
  refine withRun_keeps hm _ (fun r h1 h0 => ?_)
  repeat' first
    | assumption
    | (simp [*]; done)
    | refine Run.once_wf _ _ _ (by simp [*]) (fun l => ?_)
    | (split <;> (rename_i h; first | (simp [Run.access_parked h, *]; done) | (replace h := Run.access_go h) | fail))
    | (split <;> (rename_i h; first | (simp [Run.translated_parked h, *]; done) | (replace h := Run.translated_go h) | fail))
    | split
    | refine foldl_wf _ (fun s x hs => ?_) _ ?_ _
    | refine foldl_run_wf _ (fun r x hr hr0 => ⟨?_, ?_⟩) _ ?_ ?_ _
    | dsimp only
    | simp only [Bool.not_eq_true', ite_not]

@[simp] theorem execWaccRd_keeps (o : Ops) (s : State) (hm : Memory.wf s.mem = true) : Keeps (execWaccRd o s) := by
  unfold execWaccRd
  refine withRun_keeps hm _ (fun r h1 h0 => ?_)
  dsimp only
  split
  · simpa using h1
  · exact Run.wqueue_wf _ _ _ _ (fun s => foldl_mem _ (fun s x => by simp) _ _) (by simpa using h1) (by simpa using h0)

@[simp] theorem execWaccWr_keeps (o : Ops) (s : State) (hm : Memory.wf s.mem = true) : Keeps (execWaccWr o s) := by
  unfold execWaccWr
  refine withRun_keeps hm _ (fun r h1 h0 => ?_)
  repeat' first
    | assumption
    | (simp [*]; done)
    | split
    | refine foldl_wf _ (fun s x hs => ?_) _ ?_ _
    | refine foldl_run_wf _ (fun r x hr hr0 => ⟨?_, ?_⟩) _ ?_ ?_ _
    | dsimp only
    | simp only [Bool.not_eq_true', ite_not]

@[simp] theorem execWloop_keeps (o : Ops) (m : WloopM) (s : State) (hm : Memory.wf s.mem = true) : Keeps (execWloop o m s) := by
  unfold execWloop
  refine withRun_keeps hm _ (fun r h1 h0 => ?_)
  repeat' first
    | assumption
    | (simp [*]; done)
    | refine Run.once_wf _ _ _ (by simp [*]) (fun l => ?_)
    | (split <;> (rename_i h; first | (simp [Run.access_parked h, *]; done) | (replace h := Run.access_go h) | fail))
    | (split <;> (rename_i h; first | (simp [Run.translated_parked h, *]; done) | (replace h := Run.translated_go h) | fail))
    | split
    | refine foldl_wf _ (fun s x hs => ?_) _ ?_ _
    | refine foldl_run_wf _ (fun r x hr hr0 => ⟨?_, ?_⟩) _ ?_ ?_ _
    | dsimp only
    | simp only [Bool.not_eq_true', ite_not]

@[simp] theorem State.kStep_mem (s : State) (core : Nat) (w : WCmd) (m : WloopM) (a b c : Word) (h : Nat) : (State.kStep s core w m a b c h).mem = s.mem := by
  simp [State.kStep]

@[simp] theorem State.modWheel_mem (s : State) (core id : Nat) (f : WCmd → WCmd) : (State.modWheel s core id f).mem = s.mem := by
  simp [State.modWheel]

@[simp] theorem State.endWheel_mem (s : State) (core : Nat) (w : WCmd) : (State.endWheel s core w).mem = s.mem := by
  unfold State.endWheel
  repeat' first
    | rfl
    | (simp [apply_ite State.mem, apply_ite Run.s]; done)
    | split
    | refine (foldl_mem _ (fun s x => ?_) _ _).trans ?_
    | refine (foldl_run_mem _ (fun s x => ?_) _ _).trans ?_
    | dsimp only
    | simp

@[simp] theorem State.abandonWheel_mem (s : State) (core : Nat) (w : WCmd) (reason : Nat) (addr : Word) : (State.abandonWheel s core w reason addr).mem = s.mem := by
  simp [State.abandonWheel]

@[simp] theorem State.startLoop_mem (s : State) (core : Nat) (w : WCmd) (b : Word) : (State.startLoop s core w b).mem = s.mem := by
  unfold State.startLoop
  repeat' first
    | rfl
    | (simp [apply_ite State.mem, apply_ite Run.s]; done)
    | split
    | refine (foldl_mem _ (fun s x => ?_) _ _).trans ?_
    | refine (foldl_run_mem _ (fun s x => ?_) _ _).trans ?_
    | dsimp only
    | simp

@[simp] theorem State.startWheel_mem (s : State) (core : Nat) (w : WCmd) : (State.startWheel s core w).mem = s.mem := by
  unfold State.startWheel
  repeat' first
    | rfl
    | (simp [apply_ite State.mem, apply_ite Run.s]; done)
    | split
    | refine (foldl_mem _ (fun s x => ?_) _ _).trans ?_
    | refine (foldl_run_mem _ (fun s x => ?_) _ _).trans ?_
    | dsimp only
    | simp

@[simp] theorem execWheelCommandStart_keeps (core : Nat) (s : State) (hm : Memory.wf s.mem = true) : Keeps (execWheelCommandStart core s) := by
  unfold execWheelCommandStart
  repeat' first
    | assumption
    | (simp [*]; done)
    | split
    | refine foldl_wf _ (fun s x hs => ?_) _ ?_ _
    | dsimp only
    | simp [*]

@[simp] theorem State.loopSteps_mem (s : State) (core : Nat) (m : WloopM) (a b c : Word) (h n : Nat) :
    (s.loopSteps core m a b c h n).mem = s.mem := by
  induction n generalizing s with
  | zero => rfl
  | succ n ih =>
    unfold State.loopSteps
    split
    · rfl
    · split
      · rw [ih]; simp
      · rfl

@[simp] theorem State.loopRead_mem (s : State) (core : Nat) (w : WCmd) (b : Word) (h : Nat) : (State.loopRead s core w b h).mem = s.mem := by
  unfold State.loopRead
  repeat' first
    | rfl
    | (simp [apply_ite State.mem, apply_ite Run.s]; done)
    | split
    | refine (foldl_mem _ (fun s x => ?_) _ _).trans ?_
    | refine (foldl_run_mem _ (fun s x => ?_) _ _).trans ?_
    | dsimp only
    | simp

@[simp] theorem State.loopEnd_mem (s : State) (core : Nat) (b : Word) (h : Nat) : (State.loopEnd s core b h).mem = s.mem := by
  unfold State.loopEnd
  repeat' first
    | rfl
    | (simp [apply_ite State.mem, apply_ite Run.s]; done)
    | split
    | refine (foldl_mem _ (fun s x => ?_) _ _).trans ?_
    | refine (foldl_run_mem _ (fun s x => ?_) _ _).trans ?_
    | dsimp only
    | simp

@[simp] theorem State.wloopAt_mem (s : State) (core : Nat) (w : WCmd) (m : WloopM) (a b c : Word) :
    (s.wloopAt core w m a b c).mem = s.mem := by
  unfold State.wloopAt
  repeat' first
    | (simp; done)
    | split
    | dsimp only

@[simp] theorem execWloopComplete_keeps (core : Nat) (s : State) (hm : Memory.wf s.mem = true) : Keeps (execWloopComplete core s) := by
  unfold execWloopComplete
  repeat' first
    | assumption
    | (simp [*]; done)
    | split
    | refine foldl_wf _ (fun s x hs => ?_) _ ?_ _
    | dsimp only
    | simp [*]

@[simp] theorem execWdrain_keeps (o : Ops) (m : WdrainM) (s : State) (hm : Memory.wf s.mem = true) : Keeps (execWdrain o m s) := by
  unfold execWdrain
  refine withRun_keeps hm _ (fun r h1 h0 => ?_)
  repeat' first
    | assumption
    | (simp [*]; done)
    | refine Run.once_wf _ _ _ (by simp [*]) (fun l => ?_)
    | (split <;> (rename_i h; first | (simp [Run.access_parked h, *]; done) | (replace h := Run.access_go h) | fail))
    | (split <;> (rename_i h; first | (simp [Run.translated_parked h, *]; done) | (replace h := Run.translated_go h) | fail))
    | split
    | refine foldl_wf _ (fun s x hs => ?_) _ ?_ _
    | refine foldl_run_wf _ (fun r x hr hr0 => ⟨?_, ?_⟩) _ ?_ ?_ _
    | dsimp only
    | simp only [Bool.not_eq_true', ite_not]

@[simp] theorem State.drainEnd_mem (s : State) (core : Nat) (m : WdrainM) (w : WCmd) : (State.drainEnd s core m w).mem = s.mem := by
  unfold State.drainEnd
  repeat' first
    | rfl
    | (simp [apply_ite State.mem, apply_ite Run.s]; done)
    | split
    | refine (foldl_mem _ (fun s x => ?_) _ _).trans ?_
    | refine (foldl_run_mem _ (fun s x => ?_) _ _).trans ?_
    | dsimp only
    | simp

@[simp] theorem State.drainFails_mem (s : State) (core : Nat) (w : WCmd) (cls : Nat) (addr : Word) : (State.drainFails s core w cls addr).mem = s.mem := by
  unfold State.drainFails
  dsimp only
  split
  · simp
  · split
    · split
      · next h => simp [State.engRefused_mem h]
      · simp
    · simp

@[simp] theorem State.drainWrite_wf (s : State) (core : Nat) (w : WCmd) (m : WdrainM) (a b c : Word) (hm : Memory.wf s.mem = true) : Memory.wf (State.drainWrite s core w m a b c).mem = true := by
  unfold State.drainWrite
  extract_lets k p t fl wid
  split
  · simp [hm]
  · split
    · simp [hm]
    · next d s1 h =>
      have e := State.engWrite_ok h hm
      dsimp only
      set s2 := (if (wdPrim m && m.dsp) = true then s1.modTeam w.team (fun T => T.putAll m.dswz p.1) else s1) with h2
      set s3 := (if (wdTrans m && m.tsp) = true then s2.modTeam w.team (fun T => T.putAll m.tswz t.1) else s2) with h3
      have e2 : Memory.wf s2.mem = true := by rw [h2]; split <;> simp [e]
      have e3 : Memory.wf s3.mem = true := by rw [h3]; split <;> simp [e2]
      split <;> simp [e3]

@[simp] theorem execWdrainComplete_keeps (core : Nat) (s : State) (hm : Memory.wf s.mem = true) : Keeps (execWdrainComplete core s) := by
  unfold execWdrainComplete
  repeat' first
    | assumption
    | (simp [*]; done)
    | split
    | refine foldl_wf _ (fun s x hs => ?_) _ ?_ _
    | dsimp only
    | simp [*]

end Sys2Proof.Machine
end

