-- ==== Sys2Proof/Laws/MemCoil.lean ====
section
/-! SUPPORT. Memory keeps its canonical form: the definitions of Machine/Coil.lean. -/

set_option linter.all false

namespace Sys2Proof.Machine

@[simp] theorem State.modCoil_mem (s : State) (core : Nat) (f : Coil → Coil) : (State.modCoil s core f).mem = s.mem := by
  simp [State.modCoil]

@[simp] theorem State.modCil_mem (s : State) (core id : Nat) (f : CilCmd → CilCmd) : (State.modCil s core id f).mem = s.mem := by
  simp [State.modCil]

@[simp] theorem execCstat_keeps (o : Ops) (clr : Bool) (s : State) (hm : Memory.wf s.mem = true) : Keeps (execCstat o clr s) := by
  unfold execCstat
  refine withRun_keeps hm _ (fun r h1 h0 => ?_)
  repeat' first
    | assumption
    | (simp [*]; done)
    | split
    | refine foldl_wf _ (fun s x hs => ?_) _ ?_ _
    | refine foldl_run_wf _ (fun r x hr hr0 => ⟨?_, ?_⟩) _ ?_ ?_ _
    | dsimp only
    | simp only [Bool.not_eq_true', ite_not]

@[simp] theorem State.freeCoil_mem (s : State) (core t : Nat) : (State.freeCoil s core t).mem = s.mem := by
  simp [State.freeCoil]

@[simp] theorem execCdefFree_keeps (o : Ops) (s : State) (hm : Memory.wf s.mem = true) : Keeps (execCdefFree o s) := by
  unfold execCdefFree
  refine withRun_keeps hm _ (fun r h1 h0 => ?_)
  repeat' first
    | assumption
    | (simp [*]; done)
    | refine Run.once_wf _ _ _ (by simp [*]) (fun l => ?_)
    | (split <;> (rename_i h; first | (simp [Run.access_parked h, *]; done) | (replace h := Run.access_go h) | fail))
    | (split <;> (rename_i h; first | (simp [Run.translated_parked h, *]; done) | (replace h := Run.translated_go h) | fail))
    | split
    | refine foldl_wf _ (fun s x hs => ?_) _ ?_ _
    | refine foldl_run_wf _ (fun r x hr hr0 => ⟨?_, ?_⟩) _ ?_ ?_ _
    | dsimp only
    | simp only [Bool.not_eq_true', ite_not]

@[simp] theorem execCdef_keeps (o : Ops) (op : COperator) (tout : Nat) (s : State) (hm : Memory.wf s.mem = true) : Keeps (execCdef o op tout s) := by
  unfold execCdef
  refine withRun_keeps hm _ (fun r h1 h0 => ?_)
  repeat' first
    | assumption
    | (simp [*]; done)
    | refine Run.once_wf _ _ _ (by simp [*]) (fun l => ?_)
    | (split <;> (rename_i h; first | (simp [Run.access_parked h, *]; done) | (replace h := Run.access_go h) | fail))
    | (split <;> (rename_i h; first | (simp [Run.translated_parked h, *]; done) | (replace h := Run.translated_go h) | fail))
    | split
    | refine foldl_wf _ (fun s x hs => ?_) _ ?_ _
    | refine foldl_run_wf _ (fun r x hr hr0 => ⟨?_, ?_⟩) _ ?_ ?_ _
    | dsimp only
    | simp only [Bool.not_eq_true', ite_not]

@[simp] theorem Run.cilQueue_wf (r : Run) (w : CilCmd) (es : List LockEnt) (send : Bool)
    (hm : Memory.wf r.s.mem = true) (hm0 : Memory.wf r.s0.mem = true) : Memory.wf (r.cilQueue w es send).mem = true := by
  unfold Run.cilQueue
  extract_lets k ws
  split
  · rw [Run.park_mem]; exact hm0
  · rw [Run.finish_mem, State.modTeam_mem]
    simpa +zetaDelta using hm

@[simp] theorem execCjob_keeps (o : Ops) (m : CjobM) (s : State) (hm : Memory.wf s.mem = true) : Keeps (execCjob o m s) := by
  unfold execCjob
  refine withRun_keeps hm _ (fun r h1 h0 => ?_)
  repeat' first
    | assumption
    | (simp [*]; done)
    | refine Run.once_wf _ _ _ (by simp [*]) (fun l => ?_)
    | (split <;> (rename_i h; first | (simp [Run.access_parked h, *]; done) | (replace h := Run.access_go h) | fail))
    | (split <;> (rename_i h; first | (simp [Run.translated_parked h, *]; done) | (replace h := Run.translated_go h) | fail))
    | split
    | refine foldl_wf _ (fun s x hs => ?_) _ ?_ _
    | refine foldl_run_wf _ (fun r x hr hr0 => ⟨?_, ?_⟩) _ ?_ ?_ _
    | dsimp only
    | simp only [Bool.not_eq_true', ite_not]

@[simp] theorem execCseal_keeps (o : Ops) (s : State) (hm : Memory.wf s.mem = true) : Keeps (execCseal o s) := by
  unfold execCseal
  refine withRun_keeps hm _ (fun r h1 h0 => ?_)
  repeat' first
    | assumption
    | (simp [*]; done)
    | refine Run.once_wf _ _ _ (by simp [*]) (fun l => ?_)
    | (split <;> (rename_i h; first | (simp [Run.access_parked h, *]; done) | (replace h := Run.access_go h) | fail))
    | (split <;> (rename_i h; first | (simp [Run.translated_parked h, *]; done) | (replace h := Run.translated_go h) | fail))
    | split
    | refine foldl_wf _ (fun s x hs => ?_) _ ?_ _
    | refine foldl_run_wf _ (fun r x hr hr0 => ⟨?_, ?_⟩) _ ?_ ?_ _
    | dsimp only
    | simp only [Bool.not_eq_true', ite_not]

@[simp] theorem State.endCil_mem (s : State) (core : Nat) (w : CilCmd) (err : Bool) : (State.endCil s core w err).mem = s.mem := by
  unfold State.endCil
  repeat' first
    | rfl
    | (simp [apply_ite State.mem, apply_ite Run.s]; done)
    | split
    | refine (foldl_mem _ (fun s x => ?_) _ _).trans ?_
    | refine (foldl_run_mem _ (fun s x => ?_) _ _).trans ?_
    | dsimp only
    | simp

@[simp] theorem State.outCarry_mem (s : State) (core : Nat) (w : CilCmd) (vals : List (List Nat)) (poison : Bool) : (State.outCarry s core w vals poison).mem = s.mem := by
  unfold State.outCarry
  repeat' first
    | rfl
    | (simp [apply_ite State.mem, apply_ite Run.s]; done)
    | split
    | refine (foldl_mem _ (fun s x => ?_) _ _).trans ?_
    | refine (foldl_run_mem _ (fun s x => ?_) _ _).trans ?_
    | dsimp only
    | simp

@[simp] theorem State.abandonCil_mem (s : State) (core : Nat) (w : CilCmd) (cls reason : Nat) (addr : Word) : (State.abandonCil s core w cls reason addr).mem = s.mem := by
  simp [State.abandonCil]

@[simp] theorem State.cjobMemerr_mem (s : State) (core : Nat) (w : CilCmd) : (State.cjobMemerr s core w).mem = s.mem := by
  simp [State.cjobMemerr]

@[simp] theorem State.cjobEarly_mem (s : State) (core : Nat) (w : CilCmd) (m : CjobM) : (State.cjobEarly s core w m).mem = s.mem := by
  unfold State.cjobEarly
  repeat' first
    | rfl
    | (simp [apply_ite State.mem, apply_ite Run.s]; done)
    | split
    | refine (foldl_mem _ (fun s x => ?_) _ _).trans ?_
    | refine (foldl_run_mem _ (fun s x => ?_) _ _).trans ?_
    | dsimp only
    | simp

@[simp] theorem State.cjobStep_mem (s : State) (core : Nat) (w : CilCmd) (m : CjobM) (a : Word) : (State.cjobStep s core w m a).mem = s.mem := by
  simp [State.cjobStep]

@[simp] theorem State.cjobSteps_mem (s : State) (core id : Nat) (m : CjobM) (a : Word) (n : Nat) :
    (s.cjobSteps core id m a n).mem = s.mem := by
  induction n generalizing s with
  | zero => rfl
  | succ n ih =>
    unfold State.cjobSteps
    split
    · rfl
    · split
      · rfl
      · split
        · simp
        · rw [ih]; simp

@[simp] theorem State.cjobFinal_mem (s : State) (core : Nat) (w : CilCmd) (m : CjobM) (a : Word) (cin : Nat → List Nat) : (State.cjobFinal s core w m a cin).mem = s.mem := by
  unfold State.cjobFinal
  repeat' first
    | rfl
    | (simp [apply_ite State.mem, apply_ite Run.s]; done)
    | split
    | refine (foldl_mem _ (fun s x => ?_) _ _).trans ?_
    | refine (foldl_run_mem _ (fun s x => ?_) _ _).trans ?_
    | dsimp only
    | simp

@[simp] theorem State.takeCarry_mem (s : State) (core : Nat) (w : CilCmd) (m : CjobM) (a : Word) (e : LinkEnt) : (State.takeCarry s core w m a e).mem = s.mem := by
  unfold State.takeCarry
  repeat' first
    | rfl
    | (simp [apply_ite State.mem, apply_ite Run.s]; done)
    | split
    | refine (foldl_mem _ (fun s x => ?_) _ _).trans ?_
    | refine (foldl_run_mem _ (fun s x => ?_) _ _).trans ?_
    | dsimp only
    | simp

@[simp] theorem State.cjobPhase4_mem (s : State) (core : Nat) (w : CilCmd) (m : CjobM) (a : Word) : (State.cjobPhase4 s core w m a).mem = s.mem := by
  unfold State.cjobPhase4
  repeat' first
    | rfl
    | (simp [apply_ite State.mem, apply_ite Run.s]; done)
    | split
    | refine (foldl_mem _ (fun s x => ?_) _ _).trans ?_
    | refine (foldl_run_mem _ (fun s x => ?_) _ _).trans ?_
    | dsimp only
    | simp

@[simp] theorem State.cjobEnter4_mem (s : State) (core : Nat) (w : CilCmd) (m : CjobM) (a : Word) : (State.cjobEnter4 s core w m a).mem = s.mem := by
  unfold State.cjobEnter4
  repeat' first
    | rfl
    | (simp [apply_ite State.mem, apply_ite Run.s]; done)
    | split
    | refine (foldl_mem _ (fun s x => ?_) _ _).trans ?_
    | refine (foldl_run_mem _ (fun s x => ?_) _ _).trans ?_
    | dsimp only
    | simp

@[simp] theorem State.cjobScan_mem (s : State) (core : Nat) (w : CilCmd) (m : CjobM) (a : Word) : (State.cjobScan s core w m a).mem = s.mem := by
  unfold State.cjobScan
  repeat' first
    | rfl
    | (simp [apply_ite State.mem, apply_ite Run.s]; done)
    | split
    | refine (foldl_mem _ (fun s x => ?_) _ _).trans ?_
    | refine (foldl_run_mem _ (fun s x => ?_) _ _).trans ?_
    | dsimp only
    | simp

@[simp] theorem State.cjobGo_mem (s : State) (core : Nat) (w : CilCmd) (m : CjobM) (a : Word) : (State.cjobGo s core w m a).mem = s.mem := by
  unfold State.cjobGo
  repeat' first
    | rfl
    | (simp [apply_ite State.mem, apply_ite Run.s]; done)
    | split
    | refine (foldl_mem _ (fun s x => ?_) _ _).trans ?_
    | refine (foldl_run_mem _ (fun s x => ?_) _ _).trans ?_
    | dsimp only
    | simp

@[simp] theorem execCjobComplete_keeps (core : Nat) (s : State) (hm : Memory.wf s.mem = true) : Keeps (execCjobComplete core s) := by
  unfold execCjobComplete
  repeat' first
    | assumption
    | (simp [*]; done)
    | split
    | refine foldl_wf _ (fun s x hs => ?_) _ ?_ _
    | dsimp only
    | simp [*]

@[simp] theorem execCarrySend_keeps (core : Nat) (s : State) (hm : Memory.wf s.mem = true) : Keeps (execCarrySend core s) := by
  unfold execCarrySend
  repeat' first
    | assumption
    | (simp [*]; done)
    | split
    | refine foldl_wf _ (fun s x hs => ?_) _ ?_ _
    | dsimp only
    | simp [*]

@[simp] theorem execCarryArrive_keeps (core : Nat) (s : State) (hm : Memory.wf s.mem = true) : Keeps (execCarryArrive core s) := by
  unfold execCarryArrive
  repeat' first
    | assumption
    | (simp [*]; done)
    | split
    | refine foldl_wf _ (fun s x hs => ?_) _ ?_ _
    | dsimp only
    | simp [*]

@[simp] theorem execCarryLimitExpiry_keeps (core : Nat) (s : State) (hm : Memory.wf s.mem = true) : Keeps (execCarryLimitExpiry core s) := by
  unfold execCarryLimitExpiry
  repeat' first
    | assumption
    | (simp [*]; done)
    | split
    | refine foldl_wf _ (fun s x hs => ?_) _ ?_ _
    | dsimp only
    | simp [*]

@[simp] theorem Run.ccarIssue_wf (r : Run) (ins : Instr) (st loc : Bool) (scope : Scope) (l : Nat) (hm : Memory.wf r.s.mem = true) (hm0 : Memory.wf r.s0.mem = true) : Memory.wf (Run.ccarIssue r ins st loc scope l).mem = true := by
  unfold Run.ccarIssue
  repeat' first
    | assumption
    | (simp [*]; done)
    | split
    | refine foldl_wf _ (fun s x hs => ?_) _ ?_ _
    | dsimp only
    | simp [*]

theorem ccarRun_keeps (o : Ops) (ins : Instr) (st loc : Bool) (scope : Scope) (s : State) (hm : Memory.wf s.mem = true) :
    Keeps (ccarRun o ins st loc scope s) := by
  unfold ccarRun
  refine withRun_keeps hm _ (fun r h1 h0 => Run.once_wf _ _ _ h1 (fun l => ?_))
  split
  · simp [h1, h0]
  · split
    · next h => rw [Run.translated_parked h]; exact h0
    · next h =>
      have e := Run.translated_go h
      split
      · simpa [e.1] using h1
      · exact Run.ccarIssue_wf _ _ _ _ _ _ (by rw [e.1]; exact h1) (by rw [e.2]; exact h0)

@[simp] theorem execCcarLd_keeps (o : Ops) (scope : Scope) (loc : Bool) (s : State) (hm : Memory.wf s.mem = true) :
    Keeps (execCcarLd o scope loc s) := ccarRun_keeps _ _ _ _ _ _ hm

@[simp] theorem execCcarSt_keeps (o : Ops) (scope : Scope) (loc : Bool) (s : State) (hm : Memory.wf s.mem = true) :
    Keeps (execCcarSt o scope loc s) := ccarRun_keeps _ _ _ _ _ _ hm

@[simp] theorem State.ccarFails_mem (s : State) (core : Nat) (w : CilCmd) (cls : Nat) (addr : Word) : (State.ccarFails s core w cls addr).mem = s.mem := by
  unfold State.ccarFails
  dsimp only
  split
  · simp
  · split
    · split
      · next h => simp [State.engRefused_mem h]
      · simp
    · simp

@[simp] theorem State.ccarRead_wf (s : State) (core : Nat) (w : CilCmd) (loc : Bool) (a : Word) (n : Nat) (hm : Memory.wf s.mem = true) : Memory.wf (State.ccarRead s core w loc a n).mem = true := by
  unfold State.ccarRead
  dsimp only
  split
  · split <;> simp [hm]
  · split
    · simp [hm]
    · next h => simp [State.engGather_ok h hm]

@[simp] theorem State.ccarWrite_wf (s : State) (core : Nat) (w : CilCmd) (loc : Bool) (a : Word) (n : Nat) (hm : Memory.wf s.mem = true) : Memory.wf (State.ccarWrite s core w loc a n).mem = true := by
  unfold State.ccarWrite
  dsimp only
  split
  · split <;> simp [hm]
  · split
    · simp [hm]
    · next h =>
      have e := State.engWrite_ok h hm
      split <;> simp [e]

@[simp] theorem execCcarComplete_keeps (core : Nat) (s : State) (hm : Memory.wf s.mem = true) : Keeps (execCcarComplete core s) := by
  unfold execCcarComplete
  repeat' first
    | assumption
    | (simp [*]; done)
    | split
    | refine foldl_wf _ (fun s x hs => ?_) _ ?_ _
    | dsimp only
    | simp [*]

end Sys2Proof.Machine
end

