-- ==== Sys2Proof/Laws/MemAbandon.lean ====
section
/-! SUPPORT. Memory keeps its canonical form: the definitions of Machine/Abandon.lean. -/

set_option linter.all false

namespace Sys2Proof.Machine

@[simp] theorem State.setStall_mem (s : State) (core id : Nat) (x : Option (Nat × Nat × Word)) : (State.setStall s core id x).mem = s.mem := by
  unfold State.setStall
  repeat' first
    | rfl
    | (simp [apply_ite State.mem, apply_ite Run.s]; done)
    | split
    | refine (foldl_mem _ (fun s x => ?_) _ _).trans ?_
    | refine (foldl_run_mem _ (fun s x => ?_) _ _).trans ?_
    | dsimp only
    | simp

@[simp] theorem execSlipTranslationRewalk_keeps (id : Nat) (s : State) (hm : Memory.wf s.mem = true) : Keeps (execSlipTranslationRewalk id s) := by
  unfold execSlipTranslationRewalk
  repeat' first
    | assumption
    | (simp [*]; done)
    | split
    | refine foldl_wf _ (fun s x hs => ?_) _ ?_ _
    | dsimp only
    | simp [*]

@[simp] theorem State.endStall_mem (s : State) (x : Stalled) (id : Nat) : (State.endStall s x id).mem = s.mem := by
  unfold State.endStall
  repeat' first
    | rfl
    | (simp [apply_ite State.mem, apply_ite Run.s]; done)
    | split
    | refine (foldl_mem _ (fun s x => ?_) _ _).trans ?_
    | refine (foldl_run_mem _ (fun s x => ?_) _ _).trans ?_
    | dsimp only
    | simp

@[simp] theorem execSlipStallTimeout_keeps (id : Nat) (s : State) (hm : Memory.wf s.mem = true) : Keeps (execSlipStallTimeout id s) := by
  unfold execSlipStallTimeout
  repeat' first
    | assumption
    | (simp [*]; done)
    | split
    | refine foldl_wf _ (fun s x hs => ?_) _ ?_ _
    | dsimp only
    | simp [*]

@[simp] theorem execCommandAbandon_keeps (id : Nat) (s : State) (hm : Memory.wf s.mem = true) : Keeps (execCommandAbandon id s) := by
  unfold execCommandAbandon
  repeat' first
    | assumption
    | (simp [*]; done)
    | split
    | refine foldl_wf _ (fun s x hs => ?_) _ ?_ _
    | dsimp only
    | simp [*]

@[simp] theorem execCompletionPortPush_keeps (id : Nat) (s : State) (hm : Memory.wf s.mem = true) : Keeps (execCompletionPortPush id s) := by
  unfold execCompletionPortPush
  repeat' first
    | assumption
    | (simp [*]; done)
    | split
    | refine foldl_wf _ (fun s x hs => ?_) _ ?_ _
    | dsimp only
    | simp [*]

end Sys2Proof.Machine
end

