-- ==== Sys2Proof/Laws/MemNodes.lean ====
section
/-! SUPPORT. Memory keeps its canonical form: the definitions of Machine/Nodes.lean. -/

set_option linter.all false

namespace Sys2Proof.Machine

/-- A state that may not come about keeps the form of memory. -/
def SomeOk (x : Option State) : Prop := ∀ t, x = some t → Memory.wf t.mem = true

@[simp] theorem someOk_none : SomeOk none := by simp [SomeOk]
@[simp] theorem someOk_some (t : State) : SomeOk (some t) ↔ Memory.wf t.mem = true := by simp [SomeOk]

@[simp] theorem State.putDep_wf (s : State) (pa dep : Nat) (hm : Memory.wf s.mem = true) : Memory.wf (State.putDep s pa dep).mem = true := by
  simp [State.putDep, hm]

@[simp] theorem State.failRec_wf (s : State) (pa err : Nat) (hm : Memory.wf s.mem = true) : Memory.wf (State.failRec s pa err).mem = true := by
  simp [State.failRec, hm]

@[simp] theorem State.firstTouch_wf (s : State) (pa : Nat) (hm : Memory.wf s.mem = true) : Memory.wf (State.firstTouch s pa).mem = true := by
  unfold State.firstTouch
  repeat' first
    | assumption
    | (simp [*]; done)
    | split
    | refine foldl_wf _ (fun s x hs => ?_) _ ?_ _
    | dsimp only
    | simp [*]

@[simp] theorem State.modPool_mem (s : State) (f : List PoolNode → List PoolNode) : (State.modPool s f).mem = s.mem := by
  unfold State.modPool
  repeat' first
    | rfl
    | (simp [apply_ite State.mem, apply_ite Run.s]; done)
    | split
    | refine (foldl_mem _ (fun s x => ?_) _ _).trans ?_
    | refine (foldl_run_mem _ (fun s x => ?_) _ _).trans ?_
    | dsimp only
    | simp

@[simp] theorem State.modNode_mem (s : State) (node : Nat) (f : PoolNode → PoolNode) : (State.modNode s node f).mem = s.mem := by
  simp [State.modNode]

@[simp] theorem State.unpool_mem (s : State) (pa : Nat) : (State.unpool s pa).mem = s.mem := by
  simp [State.unpool]

@[simp] theorem State.failNode_wf (s : State) (pa err : Nat) (hm : Memory.wf s.mem = true) : Memory.wf (s.failNode pa err).mem = true := by
  simp [State.failNode, hm]

@[simp] theorem State.enterPool_mem (s : State) (pa : Nat) : (State.enterPool s pa).mem = s.mem := by
  simp [State.enterPool]

@[simp] theorem State.makeReady_ok (s : State) (pa : Nat) (hm : Memory.wf s.mem = true) : SomeOk (State.makeReady s pa) := by
  unfold State.makeReady
  repeat' first
    | assumption
    | (simp [*]; done)
    | split
    | dsimp only

@[simp] theorem State.addVisit_mem (s : State) (pa kind : Nat) (signalled : Bool) : (State.addVisit s pa kind signalled).mem = s.mem := by
  simp [State.addVisit]

@[simp] theorem State.rejectRec_wf (s : State) (pa : Nat) (e : Nat × Bool) (hm : Memory.wf s.mem = true) : Memory.wf (State.rejectRec s pa e).mem = true := by
  unfold State.rejectRec
  repeat' first
    | assumption
    | (simp [*]; done)
    | split
    | refine foldl_wf _ (fun s x hs => ?_) _ ?_ _
    | dsimp only
    | simp [*]

@[simp] theorem execHeldNodeEnterPool_keeps (col : Nat) (s : State) (hm : Memory.wf s.mem = true) : Keeps (execHeldNodeEnterPool col s) := by
  unfold execHeldNodeEnterPool
  repeat' first
    | assumption
    | (simp [*]; done)
    | split
    | refine foldl_wf _ (fun s x hs => ?_) _ ?_ _
    | dsimp only
    | simp [*]

@[simp] theorem State.appendLine_mem (s : State) (col prio : Nat) (val : Word) (auth : Auth) : (State.appendLine s col prio val auth).mem = s.mem := by
  simp [State.appendLine]

@[simp] theorem State.launchDone_mem (s : State) (f : Flight) : (State.launchDone s f).mem = s.mem := by
  unfold State.launchDone
  repeat' first
    | rfl
    | (simp [apply_ite State.mem, apply_ite Run.s]; done)
    | split
    | refine (foldl_mem _ (fun s x => ?_) _ _).trans ?_
    | refine (foldl_run_mem _ (fun s x => ?_) _ _).trans ?_
    | dsimp only
    | simp

@[simp] theorem execLaunchStore_keeps (col prio : Nat) (val : Word) (auth : Auth) (flight : Option Nat) (s : State) (hm : Memory.wf s.mem = true) : Keeps (execLaunchStore col prio val auth flight s) := by
  unfold execLaunchStore
  repeat' first
    | assumption
    | (simp [*]; done)
    | split
    | refine foldl_wf _ (fun s x hs => ?_) _ ?_ _
    | dsimp only
    | simp [*]

@[simp] theorem State.dispatchAt_wf (s : State) (col pa : Nat) (auth : Auth) (hm : Memory.wf s.mem = true) :
    Memory.wf (s.dispatchAt col pa auth).mem = true := by
  unfold State.dispatchAt
  split
  · simpa using hm
  · split
    · simp [hm]
    · have e := State.makeReady_ok (s.firstTouch pa) pa (by simp [hm])
      cases h : (s.firstTouch pa).makeReady pa with
      | none => simpa using hm
      | some t => simpa using e t h

@[simp] theorem execDispatchRecord_keeps (col : Nat) (s : State) (hm : Memory.wf s.mem = true) : Keeps (execDispatchRecord col s) := by
  unfold execDispatchRecord
  repeat' first
    | assumption
    | (simp [*]; done)
    | split
    | refine foldl_wf _ (fun s x hs => ?_) _ ?_ _
    | dsimp only
    | simp [*]

@[simp] theorem State.readyByPred_ok (s : State) (pa : Nat) (hm : Memory.wf s.mem = true) : SomeOk (State.readyByPred s pa) := by
  unfold State.readyByPred
  repeat' first
    | assumption
    | (simp [*]; done)
    | split
    | dsimp only

@[simp] theorem State.notePred_mem (s : State) (pa scope : Nat) (failed : Bool) : (State.notePred s pa scope failed).mem = s.mem := by
  simp [State.notePred]

@[simp] theorem State.touchSucc_ok (s : State) (v : Visit) (pa : Nat) (hm : Memory.wf s.mem = true) : SomeOk (State.touchSucc s v pa) := by
  unfold State.touchSucc
  repeat' first
    | assumption
    | exact State.readyByPred_ok _ _ (by simp [hm])
    | (simp [*]; done)
    | split
    | dsimp only

@[simp] theorem State.skipSucc_mem (s : State) (v : Visit) : (State.skipSucc s v).mem = s.mem := by
  simp [State.skipSucc]

@[simp] theorem State.endEviction_mem (s : State) (node : Nat) : (State.endEviction s node).mem = s.mem := by
  simp [State.endEviction]

@[simp] theorem State.visitAt_ok (s : State) (v : Visit) (va : Nat) (hm : Memory.wf s.mem = true) : SomeOk (State.visitAt s v va) := by
  unfold State.visitAt
  repeat' first
    | assumption
    | (simp [*]; done)
    | split
    | dsimp only

@[simp] theorem State.visitGo_ok (s : State) (v : Visit) (hm : Memory.wf s.mem = true) : SomeOk (State.visitGo s v) := by
  unfold State.visitGo
  repeat' first
    | assumption
    | (simp [*]; done)
    | split
    | dsimp only

@[simp] theorem State.completeNode_wf (s : State) (n : PoolNode) (hm : Memory.wf s.mem = true) : Memory.wf (State.completeNode s n).mem = true := by
  unfold State.completeNode
  repeat' first
    | assumption
    | (simp [*]; done)
    | split
    | refine foldl_wf _ (fun s x hs => ?_) _ ?_ _
    | dsimp only
    | simp [*]

@[simp] theorem execNodeComplete_keeps (node : Nat) (s : State) (hm : Memory.wf s.mem = true) : Keeps (execNodeComplete node s) := by
  unfold execNodeComplete
  repeat' first
    | assumption
    | (simp [*]; done)
    | (rw [keeps_next]; refine State.visitGo_ok _ _ ?_ _ ‹_›; assumption)
    | split
    | dsimp only

@[simp] theorem State.signalTeam_mem (s : State) (node idx : Nat) : (State.signalTeam s node idx).mem = s.mem := by
  unfold State.signalTeam
  repeat' first
    | rfl
    | (simp [apply_ite State.mem, apply_ite Run.s]; done)
    | split
    | refine (foldl_mem _ (fun s x => ?_) _ _).trans ?_
    | refine (foldl_run_mem _ (fun s x => ?_) _ _).trans ?_
    | dsimp only
    | simp

@[simp] theorem execNsig_keeps (o : Ops) (s : State) (hm : Memory.wf s.mem = true) : Keeps (execNsig o s) := by
  unfold execNsig
  refine withRun_keeps hm _ (fun r h1 h0 => ?_)
  repeat' first
    | assumption
    | (simp [*]; done)
    | refine Run.once_wf _ _ _ (by simp [*]) (fun l => ?_)
    | (split <;> (rename_i h; first | (simp [Run.access_parked h, *]; done) | (replace h := Run.access_go h) | fail))
    | (split <;> (rename_i h; first | (simp [Run.translated_parked h, *]; done) | (replace h := Run.translated_go h) | fail))
    | split
    | refine foldl_wf _ (fun s x hs => ?_) _ ?_ _
    | refine foldl_run_wf _ (fun r x hr hr0 => ⟨?_, ?_⟩) _ ?_ ?_ _
    | dsimp only
    | simp only [Bool.not_eq_true', ite_not]

@[simp] theorem execNwait_keeps (o : Ops) (s : State) (hm : Memory.wf s.mem = true) : Keeps (execNwait o s) := by
  unfold execNwait
  refine withRun_keeps hm _ (fun r h1 h0 => ?_)
  repeat' first
    | assumption
    | (simp [*]; done)
    | split
    | refine foldl_wf _ (fun s x hs => ?_) _ ?_ _
    | refine foldl_run_wf _ (fun r x hr hr0 => ⟨?_, ?_⟩) _ ?_ ?_ _
    | dsimp only
    | simp only [Bool.not_eq_true', ite_not]

@[simp] theorem execNlaunch_keeps (o : Ops) (prio : Nat) (col : Bool) (s : State) (hm : Memory.wf s.mem = true) : Keeps (execNlaunch o prio col s) := by
  unfold execNlaunch
  refine withRun_keeps hm _ (fun r h1 h0 => ?_)
  repeat' first
    | assumption
    | (simp [*]; done)
    | refine Run.once_wf _ _ _ (by simp [*]) (fun l => ?_)
    | (split <;> (rename_i h; first | (simp [Run.access_parked h, *]; done) | (replace h := Run.access_go h) | fail))
    | (split <;> (rename_i h; first | (simp [Run.translated_parked h, *]; done) | (replace h := Run.translated_go h) | fail))
    | split
    | refine foldl_wf _ (fun s x hs => ?_) _ ?_ _
    | refine foldl_run_wf _ (fun r x hr hr0 => ⟨?_, ?_⟩) _ ?_ ?_ _
    | dsimp only
    | simp only [Bool.not_eq_true', ite_not]

end Sys2Proof.Machine
end

