-- ==== Sys2Proof/Laws/MemPlace.lean ====
section
/-! SUPPORT. Memory keeps its canonical form: the definitions of Machine/Place.lean. -/

set_option linter.all false

namespace Sys2Proof.Machine

@[simp] theorem State.takeTeam_mem (s : State) (T : Team) : (State.takeTeam s T).mem = s.mem := by
  simp [State.takeTeam]

@[simp] theorem State.placeTeam_mem (s : State) (n : PoolNode) (idx core gangpos gang : Nat) : (State.placeTeam s n idx core gangpos gang).mem = s.mem := by
  unfold State.placeTeam
  dsimp only
  split <;> simp

@[simp] theorem State.runRec_wf (s : State) (pa : Nat) (hm : Memory.wf s.mem = true) : Memory.wf (State.runRec s pa).mem = true := by
  unfold State.runRec
  dsimp only
  split <;> simp [hm]

@[simp] theorem State.placeUnit_wf (s : State) (n : PoolNode) (cs : List Nat) (hm : Memory.wf s.mem = true) : Memory.wf (State.placeUnit s n cs).mem = true := by
  unfold State.placeUnit
  repeat' first
    | assumption
    | (simp [*]; done)
    | split
    | refine foldl_wf _ (fun s x hs => ?_) _ ?_ _
    | dsimp only
    | simp [*]

@[simp] theorem execTeamPlace_keeps (node : Nat) (s : State) (hm : Memory.wf s.mem = true) : Keeps (execTeamPlace node s) := by
  unfold execTeamPlace
  repeat' first
    | assumption
    | (simp [*]; done)
    | split
    | refine foldl_wf _ (fun s x hs => ?_) _ ?_ _
    | dsimp only
    | simp [*]

@[simp] theorem execSplitReservation_keeps (node : Nat) (s : State) (hm : Memory.wf s.mem = true) : Keeps (execSplitReservation node s) := by
  unfold execSplitReservation
  repeat' first
    | assumption
    | (simp [*]; done)
    | split
    | refine foldl_wf _ (fun s x hs => ?_) _ ?_ _
    | dsimp only
    | simp [*]

@[simp] theorem State.emptied_mem (s : State) (c : Nat) : (State.emptied s c).mem = s.mem := by
  unfold State.emptied
  repeat' first
    | rfl
    | (simp [apply_ite State.mem, apply_ite Run.s]; done)
    | split
    | refine (foldl_mem _ (fun s x => ?_) _ _).trans ?_
    | refine (foldl_run_mem _ (fun s x => ?_) _ _).trans ?_
    | dsimp only
    | simp

@[simp] theorem State.dropRecords_mem (s : State) (T : Team) : (State.dropRecords s T).mem = s.mem := by
  simp [State.dropRecords]

@[simp] theorem State.leaveCore_mem (s : State) (t : Nat) : (State.leaveCore s t).mem = s.mem := by
  simp [State.leaveCore]

end Sys2Proof.Machine
end

