-- ==== Sys2Proof/Laws/MemContext.lean ====
section
/-! SUPPORT. Memory keeps its canonical form: the definitions of Machine/Context.lean. -/

set_option linter.all false

namespace Sys2Proof.Machine

@[simp] theorem Run.blockTrouble_wf (r : Run) (cls : Nat) (addr : Word) (h1 : Memory.wf r.s.mem = true) (h0 : Memory.wf r.s0.mem = true) :
    Memory.wf (r.blockTrouble cls addr).mem = true := by
  unfold Run.blockTrouble
  split <;> simp [h1, h0]

theorem blockRun_keeps (o : Ops) (k : AccessKind) (s : State) (move : Run → Nat → Nat → Nat → State)
    (hv : ∀ r l t c, Memory.wf r.s.mem = true → Memory.wf r.s0.mem = true → Memory.wf (move r l t c).mem = true) (hm : Memory.wf s.mem = true) :
    Keeps (blockRun o k s move) := by
  unfold blockRun
  refine withRun_keeps hm _ (fun r h1 h0 => Run.once_wf _ _ _ h1 (fun l => ?_))
  split
  · simpa using h1
  · dsimp only
    split
    · simpa using h0
    · split
      · simpa using h1
      · exact hv _ _ _ _ h1 (by simpa using h0)

@[simp] theorem execCsave_keeps (o : Ops) (s : State) (hm : Memory.wf s.mem = true) : Keeps (execCsave o s) := by
  refine blockRun_keeps _ _ _ _ (fun r l t c h1 h0 => ?_) hm
  dsimp only
  split
  · simp [h1, h0]
  · next h => have e := State.engWrite_ok h h1; simpa using e

@[simp] theorem State.dropWaiting_mem (s : State) (t c : Nat) : (State.dropWaiting s t c).mem = s.mem := by
  simp [State.dropWaiting]

@[simp] theorem State.resume_mem (s : State) (t c : Nat) : (State.resume s t c).mem = s.mem := by
  simp [State.resume]

theorem cloadRun'_keeps (o : Ops) (go : Bool) (s : State) (hm : Memory.wf s.mem = true) : Keeps (cloadRun' o go s) := by
  refine blockRun_keeps _ _ _ _ (fun r l t c h1 h0 => ?_) hm
  dsimp only
  split
  · simp [h1, h0]
  · next h =>
    have e := State.engGather_ok h h1
    split
    · simpa using h1
    · split <;> simpa using e

@[simp] theorem execCloadLd_keeps (o : Ops) (s : State) (hm : Memory.wf s.mem = true) : Keeps (execCloadLd o s) := cloadRun'_keeps _ _ _ hm

@[simp] theorem execCloadRun_keeps (o : Ops) (s : State) (hm : Memory.wf s.mem = true) : Keeps (execCloadRun o s) := cloadRun'_keeps _ _ _ hm

theorem handleRun_keeps (o : Ops) (s : State) (f : State → Nat → Nat → State) (hf : ∀ s t c, (f s t c).mem = s.mem)
    (hm : Memory.wf s.mem = true) : Keeps (handleRun o s f) := by
  unfold handleRun
  refine withRun_keeps hm _ (fun r h1 h0 => Run.once_wf _ _ _ h1 (fun l => ?_))
  split <;> simpa [hf] using h1

@[simp] theorem execCloadGo_keeps (o : Ops) (s : State) (hm : Memory.wf s.mem = true) : Keeps (execCloadGo o s) :=
  handleRun_keeps _ _ _ (fun s t c => by simp) hm

@[simp] theorem State.cancelWaits_mem (s : State) (p : Flight → Bool) : (State.cancelWaits s p).mem = s.mem := by
  unfold State.cancelWaits
  repeat' first
    | rfl
    | (simp [apply_ite State.mem, apply_ite Run.s]; done)
    | split
    | refine (foldl_mem _ (fun s x => ?_) _ _).trans ?_
    | refine (foldl_run_mem _ (fun s x => ?_) _ _).trans ?_
    | dsimp only
    | simp

@[simp] theorem execCloadEnd_keeps (o : Ops) (s : State) (hm : Memory.wf s.mem = true) : Keeps (execCloadEnd o s) :=
  handleRun_keeps _ _ _ (fun s t c => by simp) hm

@[simp] theorem execSuspensionRecordPush_keeps (col : Nat) (s : State) (hm : Memory.wf s.mem = true) : Keeps (execSuspensionRecordPush col s) := by
  unfold execSuspensionRecordPush
  repeat' first
    | assumption
    | (simp [*]; done)
    | split
    | refine foldl_wf _ (fun s x hs => ?_) _ ?_ _
    | dsimp only
    | simp [*]

end Sys2Proof.Machine
end

