-- ==== Sys2Proof/Laws/MemPreempt.lean ====
section
/-! SUPPORT. Memory keeps its canonical form: the definitions of Machine/Preempt.lean. -/

set_option linter.all false

namespace Sys2Proof.Machine

@[simp] theorem State.sealAll_mem (s : State) (t : Nat) : (State.sealAll s t).mem = s.mem := by
  simp [State.sealAll]

@[simp] theorem State.countRetired_mem (s : State) (record t idx : Nat) (failed : Option Nat) : (State.countRetired s record t idx failed).mem = s.mem := by
  simp [State.countRetired]

@[simp] theorem State.retireTeam_mem (s : State) (t : Nat) (failed : Option Nat) : (State.retireTeam s t failed).mem = s.mem := by
  simp [State.retireTeam]

@[simp] theorem execTeamRetire_keeps (team : Nat) (s : State) (hm : Memory.wf s.mem = true) : Keeps (execTeamRetire team s) := by
  unfold execTeamRetire
  repeat' first
    | assumption
    | (simp [*]; done)
    | split
    | refine foldl_wf _ (fun s x hs => ?_) _ ?_ _
    | dsimp only
    | simp [*]

@[simp] theorem State.startDrain_mem (s : State) (cs : List Nat) : (State.startDrain s cs).mem = s.mem := by
  unfold State.startDrain
  repeat' first
    | rfl
    | (simp [apply_ite State.mem, apply_ite Run.s]; done)
    | split
    | refine (foldl_mem _ (fun s x => ?_) _ _).trans ?_
    | refine (foldl_run_mem _ (fun s x => ?_) _ _).trans ?_
    | dsimp only
    | simp

@[simp] theorem execDrain_keeps (core : Nat) (s : State) (hm : Memory.wf s.mem = true) : Keeps (execDrain core s) := by
  unfold execDrain
  repeat' first
    | assumption
    | (simp [*]; done)
    | split
    | refine foldl_wf _ (fun s x hs => ?_) _ ?_ _
    | dsimp only
    | simp [*]

@[simp] theorem execPriorityDrain_keeps (node : Nat) (s : State) (hm : Memory.wf s.mem = true) : Keeps (execPriorityDrain node s) := by
  unfold execPriorityDrain
  repeat' first
    | assumption
    | (simp [*]; done)
    | split
    | refine foldl_wf _ (fun s x hs => ?_) _ ?_ _
    | dsimp only
    | simp [*]

@[simp] theorem State.startSaves_mem (s : State) (ts : List Nat) : (State.startSaves s ts).mem = s.mem := by
  simp [State.startSaves]

@[simp] theorem execDrainLimitExpiry_keeps (core : Nat) (s : State) (hm : Memory.wf s.mem = true) : Keeps (execDrainLimitExpiry core s) := by
  unfold execDrainLimitExpiry
  repeat' first
    | assumption
    | (simp [*]; done)
    | split
    | refine foldl_wf _ (fun s x hs => ?_) _ ?_ _
    | dsimp only
    | simp [*]

theorem State.saveWrite_wf (s : State) (t : Nat) (n : PoolNode) (hm : Memory.wf s.mem = true) : Memory.wf (State.saveWrite s t n).mem = true := by
  delta State.saveWrite
  dsimp only
  split
  · split
    · rw [State.modTeam_mem, State.dropAsid_mem]; exact hm
    · rw [State.retireTeam_mem]; exact hm
  · rename_i h
    rw [State.modTeam_mem]; exact State.engWrite_ok h hm

@[simp] theorem State.saveLeave_mem (s : State) (t : Nat) (n : PoolNode) : (State.saveLeave s t n).mem = s.mem := by
  simp [State.saveLeave]

@[simp] theorem execForcedSave_keeps (team : Nat) (s : State) (hm : Memory.wf s.mem = true) : Keeps (execForcedSave team s) := by
  delta execForcedSave
  generalize s.poolNode? (s.team team).record = o
  cases o with
  | none => exact (keeps_next _).2 hm
  | some n =>
    generalize s.saveStage team = x
    have h1 : Keeps (.next (s.cancelWaits (fun f => f.team == team))) := by simpa using hm
    have h2 := (keeps_next _).2 (State.saveWrite_wf s team n hm)
    have h3 : Keeps (.next (s.saveLeave team n)) := by simpa using hm
    match x with
    | 0 => exact (keeps_next _).2 hm
    | 1 => exact h1
    | 2 => exact h2
    | 3 => exact h3
    | _ + 4 => exact (keeps_next _).2 hm

@[simp] theorem State.renameFlights_mem (s : State) (old t core : Nat) : (State.renameFlights s old t core).mem = s.mem := by
  simp [State.renameFlights]

@[simp] theorem State.discardSaved_mem (s : State) (n : PoolNode) (sv : SavedTeam) : (State.discardSaved s n sv).mem = s.mem := by
  simp [State.discardSaved]

@[simp] theorem State.restoreEngines_mem (s : State) (T : Team) (sv : SavedTeam) (b : Nat → Byte) (t : Nat) : (State.restoreEngines s T sv b t).mem = s.mem := by
  simp [State.restoreEngines]

@[simp] theorem State.lateCk_mem (s : State) (t : Nat) (p : Nat × Nat) : (s.lateCk t p).mem = s.mem := by
  unfold State.lateCk
  dsimp only
  split
  · rfl
  · rw [State.lateQuiesce_mem]

@[simp] theorem State.lateCks_mem (s : State) (old t : Nat) : (s.lateCks old t).mem = s.mem :=
  foldl_mem _ (fun s p => State.lateCk_mem s t p) _ _

@[simp] theorem State.renewRecords_mem (s : State) (T : Team) (sv : SavedTeam) : (State.renewRecords s T sv).mem = s.mem := by
  unfold State.renewRecords
  repeat' first
    | rfl
    | (simp [apply_ite State.mem, apply_ite Run.s]; done)
    | split
    | refine (foldl_mem _ (fun s x => ?_) _ _).trans ?_
    | refine (foldl_run_mem _ (fun s x => ?_) _ _).trans ?_
    | dsimp only
    | simp

@[simp] theorem State.restoreEnd_mem (s : State) (n : PoolNode) (sv : SavedTeam) (t : Nat) : (s.restoreEnd n sv t).mem = s.mem :=
  State.modNode_mem _ _ _

@[simp] theorem State.restoreFrom_mem (s : State) (n : PoolNode) (sv : SavedTeam) (core gang t : Nat) (d : EngData) :
    (s.restoreFrom n sv core gang t d).mem = s.mem := by
  delta State.restoreFrom
  rw [State.restoreEnd_mem, State.renewRecords_mem, State.lateCks_mem, State.acquire_mem, State.renameFlights_mem, State.restoreEngines_mem, State.takeTeam_mem]

theorem State.restoreWith_wf (s : State) (n : PoolNode) (sv : SavedTeam) (core gang : Nat) (o : EngOut) (hm : Memory.wf s.mem = true)
    (ho : ∀ d u, o = .ok d u → Memory.wf u.mem = true) : Memory.wf (s.restoreWith n sv core gang o).mem = true := by
  cases o with
  | bad _ _ => rw [State.restoreWith, State.discardSaved_mem]; exact hm
  | ok d u => rw [State.restoreWith, State.restoreFrom_mem]; exact ho d u rfl

theorem State.restoreTeam_wf (s : State) (n : PoolNode) (sv : SavedTeam) (core gang : Nat) (hm : Memory.wf s.mem = true) : Memory.wf (State.restoreTeam s n sv core gang).mem = true := by
  have e : Memory.wf (s.dropAsid core (nrAsid n.words)).mem = true := by rw [State.dropAsid_mem]; exact hm
  exact State.restoreWith_wf _ n sv core gang _ e (fun _ _ h => State.engGather_ok h e)

@[simp] theorem State.newGang_mem (s : State) (n : PoolNode) : (s.newGang n).mem = s.mem := by
  unfold State.newGang; split <;> rfl

theorem State.restoreUnit_wf (s : State) (n : PoolNode) (idx : Nat) (cs : List Nat) (hm : Memory.wf s.mem = true) :
    Memory.wf (s.restoreUnit n idx cs).mem = true := by
  have h : Memory.wf (s.newGang n).mem = true := by rw [State.newGang_mem]; exact hm
  have h2 (g : Nat) (l : List (SavedTeam × Nat)) : ∀ s : State, Memory.wf s.mem = true →
      Memory.wf (l.foldl (fun u p => u.restoreTeam n p.1 p.2 g) s).mem = true := by
    induction l with
    | nil => exact fun s h => h
    | cons x l ih =>
      intro s h
      rw [List.foldl_cons]
      exact ih _ (State.restoreTeam_wf _ _ _ _ _ h)
  rw [State.restoreUnit, State.endEviction_mem]
  exact h2 _ _ _ h

@[simp] theorem execRestore_keeps (node team : Nat) (s : State) (hm : Memory.wf s.mem = true) : Keeps (execRestore node team s) := by
  unfold execRestore
  split
  · split
    · exact (keeps_next _).2 hm
    · exact (keeps_next _).2 (State.restoreUnit_wf s _ _ _ hm)
  · exact (keeps_next _).2 hm

@[simp] theorem State.endBars_mem (s : State) (core : Nat) : (s.endBars core).mem = s.mem := by
  unfold State.endBars
  split <;> rfl

@[simp] theorem execParkEviction_keeps (core : Nat) (s : State) (hm : Memory.wf s.mem = true) : Keeps (execParkEviction core s) := by
  unfold execParkEviction
  repeat' first
    | assumption
    | (simp [*]; done)
    | split
    | refine foldl_wf _ (fun s x hs => ?_) _ ?_ _
    | dsimp only
    | simp [*]

end Sys2Proof.Machine
end

