-- ==== Sys2Proof/Laws/MemColumn.lean ====
section
/-! SUPPORT. Memory keeps its canonical form: the definitions of Machine/Column.lean. -/

set_option linter.all false

namespace Sys2Proof.Machine

@[simp] theorem State.portSend_mem (s : State) (p : PortAcc) : (State.portSend s p).mem = s.mem := by
  unfold State.portSend
  repeat' first
    | rfl
    | (simp [apply_ite State.mem, apply_ite Run.s]; done)
    | split
    | refine (foldl_mem _ (fun s x => ?_) _ _).trans ?_
    | refine (foldl_run_mem _ (fun s x => ?_) _ _).trans ?_
    | dsimp only
    | simp

@[simp] theorem State.acquireCopies_mem (s : State) (p : PortAcc) : (State.acquireCopies s p).mem = s.mem := by
  unfold State.acquireCopies
  repeat' first
    | rfl
    | (simp [apply_ite State.mem, apply_ite Run.s]; done)
    | split
    | refine (foldl_mem _ (fun s x => ?_) _ _).trans ?_
    | refine (foldl_run_mem _ (fun s x => ?_) _ _).trans ?_
    | dsimp only
    | simp

@[simp] theorem State.colRead_mem (s : State) (col pa : Nat) (v : Word) : (State.colRead s col pa v).mem = s.mem := by
  simp [State.colRead]

@[simp] theorem State.portBytes_wf (s : State) (p : PortAcc) (bs : List Byte) (hm : Memory.wf s.mem = true) : Memory.wf (State.portBytes s p bs).mem = true := by
  unfold State.portBytes
  repeat' first
    | assumption
    | (simp [*]; done)
    | split
    | refine foldl_wf _ (fun s x hs => ?_) _ ?_ _
    | dsimp only
    | simp [*]

@[simp] theorem State.portStore_wf (s : State) (p : PortAcc) (hm : Memory.wf s.mem = true) : Memory.wf (State.portStore s p).mem = true := by
  unfold State.portStore
  repeat' first
    | assumption
    | (simp [*]; done)
    | split
    | refine foldl_wf _ (fun s x hs => ?_) _ ?_ _
    | dsimp only
    | simp [*]

@[simp] theorem State.portAmo_wf (s : State) (p : PortAcc) (op : AOp) (ty : Ty) (hm : Memory.wf s.mem = true) : Memory.wf (State.portAmo s p op ty).mem = true := by
  unfold State.portAmo
  repeat' first
    | assumption
    | (simp [*]; done)
    | split
    | refine foldl_wf _ (fun s x hs => ?_) _ ?_ _
    | dsimp only
    | simp [*]

@[simp] theorem State.portSc_wf (s : State) (p : PortAcc) (hm : Memory.wf s.mem = true) : Memory.wf (State.portSc s p).mem = true := by
  unfold State.portSc
  repeat' first
    | assumption
    | (simp [*]; done)
    | split
    | refine foldl_wf _ (fun s x hs => ?_) _ ?_ _
    | dsimp only
    | simp [*]

@[simp] theorem State.portPerform_wf (s : State) (p : PortAcc) (hm : Memory.wf s.mem = true) : Memory.wf (State.portPerform s p).mem = true := by
  unfold State.portPerform
  repeat' first
    | assumption
    | (simp [*]; done)
    | split
    | refine foldl_wf _ (fun s x hs => ?_) _ ?_ _
    | dsimp only
    | simp [*]

@[simp] theorem execHomeStreamWrite_keeps (home stream : Nat) (s : State) (hm : Memory.wf s.mem = true) : Keeps (execHomeStreamWrite home stream s) := by
  unfold execHomeStreamWrite
  repeat' first
    | assumption
    | (simp [*]; done)
    | split
    | refine foldl_wf _ (fun s x hs => ?_) _ ?_ _
    | dsimp only
    | simp [*]

@[simp] theorem State.readTake_mem (s : State) (slice rank pa : Nat) : (State.readTake s slice rank pa).mem = s.mem := by
  unfold State.readTake
  repeat' first
    | rfl
    | (simp [apply_ite State.mem, apply_ite Run.s]; done)
    | split
    | refine (foldl_mem _ (fun s x => ?_) _ _).trans ?_
    | refine (foldl_run_mem _ (fun s x => ?_) _ _).trans ?_
    | dsimp only
    | simp

@[simp] theorem State.portRead_wf (s : State) (mem : List Byte × State) (bad : Bool) (pa size : Nat) (hm : Memory.wf s.mem = true)
    (h2 : Memory.wf mem.2.mem = true) : Memory.wf (s.portRead mem bad pa size).2.mem = true := by
  unfold State.portRead
  repeat' first
    | (simp [hm, h2]; done)
    | split
    | dsimp only

@[simp] theorem State.keepRead_mem (s : State) (col pa size : Nat) (v : Option Word) : (State.keepRead s col pa size v).mem = s.mem := by
  unfold State.keepRead
  repeat' first
    | rfl
    | (simp [apply_ite State.mem, apply_ite Run.s]; done)
    | split
    | refine (foldl_mem _ (fun s x => ?_) _ _).trans ?_
    | refine (foldl_run_mem _ (fun s x => ?_) _ _).trans ?_
    | dsimp only
    | simp

@[simp] theorem State.colLoad_wf (s : State) (col pa size : Nat) (hm : Memory.wf s.mem = true) : Memory.wf (State.colLoad s col pa size).2.mem = true := by
  unfold State.colLoad
  repeat' first
    | assumption
    | (simp [*]; done)
    | split
    | refine foldl_wf _ (fun s x hs => ?_) _ ?_ _
    | dsimp only
    | simp [*]

@[simp] theorem State.ccSend_mem (s : State) (p : PortAcc) : (State.ccSend s p).mem = s.mem := by
  simp [State.ccSend]

@[simp] theorem State.colLr_wf (s : State) (col pa : Nat) (hm : Memory.wf s.mem = true) : Memory.wf (State.colLr s col pa).2.mem = true := by
  unfold State.colLr
  repeat' first
    | assumption
    | (simp [*]; done)
    | split
    | refine foldl_wf _ (fun s x hs => ?_) _ ?_ _
    | dsimp only
    | simp [*]

@[simp] theorem State.hostLoad_wf (s : State) (pa size : Nat) (hm : Memory.wf s.mem = true) : Memory.wf (State.hostLoad s pa size).2.mem = true := by
  unfold State.hostLoad
  repeat' first
    | assumption
    | (simp [*]; done)
    | split
    | refine foldl_wf _ (fun s x hs => ?_) _ ?_ _
    | dsimp only
    | simp [*]

@[simp] theorem State.oddStore_mem (s : State) (pa : Nat) : (s.oddStore pa).mem = s.mem := by
  unfold State.oddStore
  repeat' split
  all_goals simp [State.discardLaunch]

@[simp] theorem State.ccAccess_wf (s : State) (col : Nat) (a : CcAcc) (hm : Memory.wf s.mem = true) : Memory.wf (State.ccAccess s col a).mem = true := by
  have h1 {pa n : Nat} {o : Option Word} {u : State} (h : s.colLoad col pa n = (o, u)) : Memory.wf u.mem = true := by
    have e := State.colLoad_wf s col pa n hm
    rwa [h] at e
  have h2 {pa : Nat} {o : Option Word} {u : State} (h : s.colLr col pa = (o, u)) : Memory.wf u.mem = true := by
    have e := State.colLr_wf s col pa hm
    rwa [h] at e
  unfold State.ccAccess
  dsimp only
  repeat' first
    | (simp [hm]; done)
    | (simp [h1 ‹_›]; done)
    | (simp [h2 ‹_›]; done)
    | split

@[simp] theorem execHostWrite_keeps (kind : HostKind) (pa size : Nat) (val : Word) (s : State) (hm : Memory.wf s.mem = true) : Keeps (execHostWrite kind pa size val s) := by
  unfold execHostWrite
  repeat' first
    | assumption
    | (simp [*]; done)
    | split
    | refine foldl_wf _ (fun s x hs => ?_) _ ?_ _
    | dsimp only
    | simp [*]

@[simp] theorem execHostRead_keeps (pa size : Nat) (s : State) (hm : Memory.wf s.mem = true) : Keeps (execHostRead pa size s) := by
  unfold execHostRead
  have e := State.hostLoad_wf s pa size hm
  split
  · exact (keeps_next _).2 hm
  · split
    · exact (keeps_next _).2 (by split <;> exact hm)
    · split <;> (rename_i h; rw [h] at e; exact (keeps_next _).2 e)

@[simp] theorem regEvent_keeps (ok : Bool) (s s' : State) (hm : Memory.wf s.mem = true) (h2 : Memory.wf s'.mem = true) : Keeps (regEvent ok s s') := by
  unfold regEvent
  split <;> simp [hm, h2]

@[simp] theorem execRegisterWrite_keeps (col off : Nat) (val : Word) (s : State) (hm : Memory.wf s.mem = true) : Keeps (execRegisterWrite col off val s) := by
  unfold execRegisterWrite
  simp [*]

@[simp] theorem execWaitaddrWrite_keeps (col : Nat) (val : Word) (s : State) (hm : Memory.wf s.mem = true) : Keeps (execWaitaddrWrite col val s) := by
  unfold execWaitaddrWrite
  simp [*]

@[simp] theorem execWakeWrite_keeps (col : Nat) (val : Word) (s : State) (hm : Memory.wf s.mem = true) : Keeps (execWakeWrite col val s) := by
  unfold execWakeWrite
  simp [*]

@[simp] theorem execTaskdoneWrite_keeps (col : Nat) (val : Word) (s : State) (hm : Memory.wf s.mem = true) : Keeps (execTaskdoneWrite col val s) := by
  unfold execTaskdoneWrite
  simp [*]

@[simp] theorem execDrainreqWrite_keeps (col : Nat) (val : Word) (s : State) (hm : Memory.wf s.mem = true) : Keeps (execDrainreqWrite col val s) := by
  unfold execDrainreqWrite
  simp [*]

@[simp] theorem execArenaWrite_keeps (col n : Nat) (hi : Bool) (val : Word) (s : State) (hm : Memory.wf s.mem = true) : Keeps (execArenaWrite col n hi val s) := by
  unfold execArenaWrite
  simp [*]

@[simp] theorem execPinmapWrite_keeps (n : Nat) (hi : Bool) (val : Word) (s : State) (hm : Memory.wf s.mem = true) : Keeps (execPinmapWrite n hi val s) := by
  unfold execPinmapWrite
  simp [*]

@[simp] theorem execGwinWrite_keeps (g : Nat) (hi : Bool) (val : Word) (s : State) (hm : Memory.wf s.mem = true) : Keeps (execGwinWrite g hi val s) := by
  unfold execGwinWrite
  simp [*]

@[simp] theorem regLoad_keeps (col off : Nat) (s : State) (hm : Memory.wf s.mem = true) : Keeps (regLoad col off s) := by
  unfold regLoad
  repeat' first
    | assumption
    | (simp [*]; done)
    | split
    | refine foldl_wf _ (fun s x hs => ?_) _ ?_ _
    | dsimp only
    | simp [*]

@[simp] theorem execTaskqPop_keeps (col : Nat) (s : State) (hm : Memory.wf s.mem = true) : Keeps (execTaskqPop col s) := by
  unfold execTaskqPop
  simp [*]

@[simp] theorem execSuspqPop_keeps (col : Nat) (s : State) (hm : Memory.wf s.mem = true) : Keeps (execSuspqPop col s) := by
  unfold execSuspqPop
  simp [*]

@[simp] theorem execMigqPop_keeps (s : State) (hm : Memory.wf s.mem = true) : Keeps (execMigqPop s) := by
  unfold execMigqPop
  simp [*]

@[simp] theorem execRaslogPop_keeps (col : Nat) (s : State) (hm : Memory.wf s.mem = true) : Keeps (execRaslogPop col s) := by
  unfold execRaslogPop
  simp [*]

@[simp] theorem execPwrnowRead_keeps (s : State) (hm : Memory.wf s.mem = true) : Keeps (execPwrnowRead s) := by
  unfold execPwrnowRead
  simp [*]

@[simp] theorem execColumnWaitEnd_keeps (col : Nat) (s : State) (hm : Memory.wf s.mem = true) : Keeps (execColumnWaitEnd col s) := by
  unfold execColumnWaitEnd
  repeat' first
    | assumption
    | (simp [*]; done)
    | split
    | refine foldl_wf _ (fun s x hs => ?_) _ ?_ _
    | dsimp only
    | simp [*]

@[simp] theorem execColumnTaskHandoff_keeps (node : Nat) (s : State) (hm : Memory.wf s.mem = true) : Keeps (execColumnTaskHandoff node s) := by
  unfold execColumnTaskHandoff
  repeat' first
    | assumption
    | (simp [*]; done)
    | split
    | refine foldl_wf _ (fun s x hs => ?_) _ ?_ _
    | dsimp only
    | simp [*]

@[simp] theorem execHostNotification_keeps (node : Nat) (s : State) (hm : Memory.wf s.mem = true) : Keeps (execHostNotification node s) := by
  unfold execHostNotification
  repeat' first
    | assumption
    | (simp [*]; done)
    | split
    | refine foldl_wf _ (fun s x hs => ?_) _ ?_ _
    | dsimp only
    | simp [*]

end Sys2Proof.Machine
end

