-- ==== Sys2Proof/Laws/MemIntOps.lean ====
section
/-! SUPPORT. Memory keeps its canonical form: the definitions of Machine/IntOps.lean. -/

set_option linter.all false

namespace Sys2Proof.Machine

@[simp] theorem int2_keeps (o : Ops) (ty : Ty) (sat : Bool) (s : State) (f : Nat → Nat → Int) (hm : Memory.wf s.mem = true) : Keeps (int2 o ty sat s f) := aluRun_keeps _ _ _ _ hm

@[simp] theorem int1_keeps (o : Ops) (ty : Ty) (sat : Bool) (s : State) (f : Nat → Int) (hm : Memory.wf s.mem = true) : Keeps (int1 o ty sat s f) := aluRun_keeps _ _ _ _ hm

@[simp] theorem execAdd_keeps (o : Ops) (ty : Ty) (sat : Bool) (s : State) (hm : Memory.wf s.mem = true) : Keeps (execAdd o ty sat s) := aluRun_keeps _ _ _ _ hm

@[simp] theorem execSub_keeps (o : Ops) (ty : Ty) (sat : Bool) (s : State) (hm : Memory.wf s.mem = true) : Keeps (execSub o ty sat s) := aluRun_keeps _ _ _ _ hm

@[simp] theorem execMul_keeps (o : Ops) (ty : Ty) (sat : Bool) (s : State) (hm : Memory.wf s.mem = true) : Keeps (execMul o ty sat s) := aluRun_keeps _ _ _ _ hm

@[simp] theorem execMulh_keeps (o : Ops) (ty : Ty) (s : State) (hm : Memory.wf s.mem = true) : Keeps (execMulh o ty s) := aluRun_keeps _ _ _ _ hm

@[simp] theorem execMad_keeps (o : Ops) (ty : Ty) (sat : Bool) (s : State) (hm : Memory.wf s.mem = true) : Keeps (execMad o ty sat s) := aluRun_keeps _ _ _ _ hm

@[simp] theorem execMadw_keeps (o : Ops) (ty : Ty) (sat : Bool) (s : State) (hm : Memory.wf s.mem = true) : Keeps (execMadw o ty sat s) := aluRun_keeps _ _ _ _ hm

@[simp] theorem execDiv_keeps (o : Ops) (ty : Ty) (sat : Bool) (s : State) (hm : Memory.wf s.mem = true) : Keeps (execDiv o ty sat s) := aluRun_keeps _ _ _ _ hm

@[simp] theorem execRem_keeps (o : Ops) (ty : Ty) (s : State) (hm : Memory.wf s.mem = true) : Keeps (execRem o ty s) := aluRun_keeps _ _ _ _ hm

@[simp] theorem execMin_keeps (o : Ops) (ty : Ty) (s : State) (hm : Memory.wf s.mem = true) : Keeps (execMin o ty s) := aluRun_keeps _ _ _ _ hm

@[simp] theorem execMax_keeps (o : Ops) (ty : Ty) (s : State) (hm : Memory.wf s.mem = true) : Keeps (execMax o ty s) := aluRun_keeps _ _ _ _ hm

@[simp] theorem signOp_keeps (o : Ops) (ty : Ty) (s : State) (neg : Bool) (hm : Memory.wf s.mem = true) : Keeps (signOp o ty s neg) := aluRun_keeps _ _ _ _ hm

@[simp] theorem execAbs_keeps (o : Ops) (ty : Ty) (sat : Bool) (s : State) (hm : Memory.wf s.mem = true) : Keeps (execAbs o ty sat s) := by
  unfold execAbs
  repeat' first
    | assumption
    | (simp [*]; done)
    | split
    | refine foldl_wf _ (fun s x hs => ?_) _ ?_ _
    | dsimp only
    | simp [*]

@[simp] theorem execNeg_keeps (o : Ops) (ty : Ty) (sat : Bool) (s : State) (hm : Memory.wf s.mem = true) : Keeps (execNeg o ty sat s) := by
  unfold execNeg
  repeat' first
    | assumption
    | (simp [*]; done)
    | split
    | refine foldl_wf _ (fun s x hs => ?_) _ ?_ _
    | dsimp only
    | simp [*]

@[simp] theorem execAnd_keeps (o : Ops) (ty : Ty) (s : State) (hm : Memory.wf s.mem = true) : Keeps (execAnd o ty s) := aluRun_keeps _ _ _ _ hm

@[simp] theorem execOr_keeps (o : Ops) (ty : Ty) (s : State) (hm : Memory.wf s.mem = true) : Keeps (execOr o ty s) := aluRun_keeps _ _ _ _ hm

@[simp] theorem execXor_keeps (o : Ops) (ty : Ty) (s : State) (hm : Memory.wf s.mem = true) : Keeps (execXor o ty s) := aluRun_keeps _ _ _ _ hm

@[simp] theorem execNot_keeps (o : Ops) (ty : Ty) (s : State) (hm : Memory.wf s.mem = true) : Keeps (execNot o ty s) := aluRun_keeps _ _ _ _ hm

@[simp] theorem execAndn_keeps (o : Ops) (ty : Ty) (s : State) (hm : Memory.wf s.mem = true) : Keeps (execAndn o ty s) := aluRun_keeps _ _ _ _ hm

@[simp] theorem execShl_keeps (o : Ops) (ty : Ty) (sat : Bool) (s : State) (hm : Memory.wf s.mem = true) : Keeps (execShl o ty sat s) := aluRun_keeps _ _ _ _ hm

@[simp] theorem execShr_keeps (o : Ops) (ty : Ty) (s : State) (hm : Memory.wf s.mem = true) : Keeps (execShr o ty s) := aluRun_keeps _ _ _ _ hm

@[simp] theorem execSra_keeps (o : Ops) (ty : Ty) (s : State) (hm : Memory.wf s.mem = true) : Keeps (execSra o ty s) := aluRun_keeps _ _ _ _ hm

@[simp] theorem execRot_keeps (o : Ops) (ty : Ty) (s : State) (hm : Memory.wf s.mem = true) : Keeps (execRot o ty s) := aluRun_keeps _ _ _ _ hm

@[simp] theorem execClz_keeps (o : Ops) (ty : Ty) (s : State) (hm : Memory.wf s.mem = true) : Keeps (execClz o ty s) := aluRun_keeps _ _ _ _ hm

@[simp] theorem execPopc_keeps (o : Ops) (ty : Ty) (s : State) (hm : Memory.wf s.mem = true) : Keeps (execPopc o ty s) := aluRun_keeps _ _ _ _ hm

@[simp] theorem execBrev_keeps (o : Ops) (ty : Ty) (s : State) (hm : Memory.wf s.mem = true) : Keeps (execBrev o ty s) := aluRun_keeps _ _ _ _ hm

@[simp] theorem execCtz_keeps (o : Ops) (ty : Ty) (s : State) (hm : Memory.wf s.mem = true) : Keeps (execCtz o ty s) := aluRun_keeps _ _ _ _ hm

@[simp] theorem execBfx_keeps (o : Ops) (ty : Ty) (s : State) (hm : Memory.wf s.mem = true) : Keeps (execBfx o ty s) := aluRun_keeps _ _ _ _ hm

@[simp] theorem execBfi_keeps (o : Ops) (ty : Ty) (pos len : Nat) (s : State) (hm : Memory.wf s.mem = true) : Keeps (execBfi o ty pos len s) := aluRun_keeps _ _ _ _ hm

@[simp] theorem execPrmt_keeps (o : Ops) (s : State) (hm : Memory.wf s.mem = true) : Keeps (execPrmt o s) := aluRun_keeps _ _ _ _ hm

@[simp] theorem execSel_keeps (o : Ops) (ty : Ty) (s : State) (hm : Memory.wf s.mem = true) : Keeps (execSel o ty s) := aluRun_keeps _ _ _ _ hm

@[simp] theorem execCmp_keeps (o : Ops) (ty : Ty) (cond : Cond) (s : State) (hm : Memory.wf s.mem = true) : Keeps (execCmp o ty cond s) := aluRun_keeps _ _ _ _ hm

@[simp] theorem execAddc_keeps (o : Ops) (ty : Ty) (sub : Bool) (co : Option Nat) (s : State) (hm : Memory.wf s.mem = true) : Keeps (execAddc o ty sub co s) := by
  unfold execAddc
  refine withRun_keeps hm _ (fun r h1 h0 => ?_)
  repeat' first
    | assumption
    | (simp [*]; done)
    | split
    | refine foldl_wf _ (fun s x hs => ?_) _ ?_ _
    | refine foldl_run_wf _ (fun r x hr hr0 => ⟨?_, ?_⟩) _ ?_ ?_ _
    | dsimp only
    | simp only [Bool.not_eq_true', ite_not]

@[simp] theorem execLea_keeps (o : Ops) (sh : Nat) (sx : Bool) (s : State) (hm : Memory.wf s.mem = true) : Keeps (execLea o sh sx s) := aluRun_keeps _ _ _ _ hm

@[simp] theorem execMov_keeps (o : Ops) (s : State) (hm : Memory.wf s.mem = true) : Keeps (execMov o s) := aluRun_keeps _ _ _ _ hm

@[simp] theorem execLdiF96_keeps (o : Ops) (ty : Ty) (imm : BitVec 32) (s : State) (hm : Memory.wf s.mem = true) : Keeps (execLdiF96 o ty imm s) := aluRun_keeps _ _ _ _ hm

@[simp] theorem execLdiF128_keeps (o : Ops) (ty : Ty) (imm : Word) (s : State) (hm : Memory.wf s.mem = true) : Keeps (execLdiF128 o ty imm s) := aluRun_keeps _ _ _ _ hm

end Sys2Proof.Machine
end

