-- ==== Sys2Proof/Laws/MemFloatOps.lean ====
section
/-! SUPPORT. Memory keeps its canonical form: the definitions of Machine/FloatOps.lean. -/

set_option linter.all false

namespace Sys2Proof.Machine

@[simp] theorem flt2_keeps (o : Ops) (ty : Ty) (s : State) (f : Nat → Nat → FRes) (hm : Memory.wf s.mem = true) : Keeps (flt2 o ty s f) := aluRun_keeps _ _ _ _ hm

@[simp] theorem flt1_keeps (o : Ops) (ty : Ty) (s : State) (f : Nat → FRes) (hm : Memory.wf s.mem = true) : Keeps (flt1 o ty s f) := aluRun_keeps _ _ _ _ hm

@[simp] theorem execFadd_keeps (o : Ops) (m : FMod) (s : State) (hm : Memory.wf s.mem = true) : Keeps (execFadd o m s) := aluRun_keeps _ _ _ _ hm

@[simp] theorem execFsub_keeps (o : Ops) (m : FMod) (s : State) (hm : Memory.wf s.mem = true) : Keeps (execFsub o m s) := aluRun_keeps _ _ _ _ hm

@[simp] theorem execFmul_keeps (o : Ops) (m : FMod) (s : State) (hm : Memory.wf s.mem = true) : Keeps (execFmul o m s) := aluRun_keeps _ _ _ _ hm

@[simp] theorem execFfma_keeps (o : Ops) (m : FMod) (s : State) (hm : Memory.wf s.mem = true) : Keeps (execFfma o m s) := aluRun_keeps _ _ _ _ hm

@[simp] theorem execFmin_keeps (o : Ops) (m : FMod) (nan : Bool) (s : State) (hm : Memory.wf s.mem = true) : Keeps (execFmin o m nan s) := aluRun_keeps _ _ _ _ hm

@[simp] theorem execFmax_keeps (o : Ops) (m : FMod) (nan : Bool) (s : State) (hm : Memory.wf s.mem = true) : Keeps (execFmax o m nan s) := aluRun_keeps _ _ _ _ hm

@[simp] theorem execFcmp_keeps (o : Ops) (m : FMod) (cond : FCond) (s : State) (hm : Memory.wf s.mem = true) : Keeps (execFcmp o m cond s) := aluRun_keeps _ _ _ _ hm

@[simp] theorem execFclass_keeps (o : Ops) (m : FMod) (s : State) (hm : Memory.wf s.mem = true) : Keeps (execFclass o m s) := aluRun_keeps _ _ _ _ hm

@[simp] theorem execFrnd_keeps (o : Ops) (m : FMod) (nx : Bool) (s : State) (hm : Memory.wf s.mem = true) : Keeps (execFrnd o m nx s) := aluRun_keeps _ _ _ _ hm

@[simp] theorem execFdiv_keeps (o : Ops) (m : FMod) (s : State) (hm : Memory.wf s.mem = true) : Keeps (execFdiv o m s) := aluRun_keeps _ _ _ _ hm

@[simp] theorem execFsqrt_keeps (o : Ops) (m : FMod) (s : State) (hm : Memory.wf s.mem = true) : Keeps (execFsqrt o m s) := aluRun_keeps _ _ _ _ hm

@[simp] theorem execFrcp_keeps (o : Ops) (m : FMod) (s : State) (hm : Memory.wf s.mem = true) : Keeps (execFrcp o m s) := aluRun_keeps _ _ _ _ hm

@[simp] theorem execFrsq_keeps (o : Ops) (m : FMod) (s : State) (hm : Memory.wf s.mem = true) : Keeps (execFrsq o m s) := aluRun_keeps _ _ _ _ hm

@[simp] theorem execFex2_keeps (o : Ops) (m : FMod) (s : State) (hm : Memory.wf s.mem = true) : Keeps (execFex2 o m s) := aluRun_keeps _ _ _ _ hm

@[simp] theorem execFlg2_keeps (o : Ops) (m : FMod) (s : State) (hm : Memory.wf s.mem = true) : Keeps (execFlg2 o m s) := aluRun_keeps _ _ _ _ hm

@[simp] theorem execFsin_keeps (o : Ops) (m : FMod) (s : State) (hm : Memory.wf s.mem = true) : Keeps (execFsin o m s) := aluRun_keeps _ _ _ _ hm

@[simp] theorem execFcos_keeps (o : Ops) (m : FMod) (s : State) (hm : Memory.wf s.mem = true) : Keeps (execFcos o m s) := aluRun_keeps _ _ _ _ hm

@[simp] theorem execFtanh_keeps (o : Ops) (m : FMod) (s : State) (hm : Memory.wf s.mem = true) : Keeps (execFtanh o m s) := aluRun_keeps _ _ _ _ hm

@[simp] theorem execFdot2_keeps (o : Ops) (m : FMod) (s : State) (hm : Memory.wf s.mem = true) : Keeps (execFdot2 o m s) := aluRun_keeps _ _ _ _ hm

@[simp] theorem execFscal_keeps (o : Ops) (m : FMod) (s : State) (hm : Memory.wf s.mem = true) : Keeps (execFscal o m s) := aluRun_keeps _ _ _ _ hm

@[simp] theorem execCvt_keeps (o : Ops) (dt st : Ty) (rm : RM) (s : State) (hm : Memory.wf s.mem = true) : Keeps (execCvt o dt st rm s) := aluRun_keeps _ _ _ _ hm

@[simp] theorem execCvtmxQ_keeps (o : Ops) (dt st : Ty) (rm : RM) (s : State) (hm : Memory.wf s.mem = true) : Keeps (execCvtmxQ o dt st rm s) := aluRun_keeps _ _ _ _ hm

@[simp] theorem execCvtmxD_keeps (o : Ops) (dt st : Ty) (rm : RM) (grp : Nat) (s : State) (hm : Memory.wf s.mem = true) : Keeps (execCvtmxD o dt st rm grp s) := aluRun_keeps _ _ _ _ hm

@[simp] theorem execCvtmxS_keeps (o : Ops) (dt : Ty) (s : State) (hm : Memory.wf s.mem = true) : Keeps (execCvtmxS o dt s) := aluRun_keeps _ _ _ _ hm

@[simp] theorem execPk_keeps (o : Ops) (dt st : Ty) (rm : RM) (s : State) (hm : Memory.wf s.mem = true) : Keeps (execPk o dt st rm s) := aluRun_keeps _ _ _ _ hm

@[simp] theorem execUpk_keeps (o : Ops) (dt st : Ty) (hi : Bool) (s : State) (hm : Memory.wf s.mem = true) : Keeps (execUpk o dt st hi s) := aluRun_keeps _ _ _ _ hm

end Sys2Proof.Machine
end

