-- ==== Sys2Proof/Laws/MemCrossLane.lean ====
section
/-! SUPPORT. Memory keeps its canonical form: the definitions of Machine/CrossLane.lean. -/

set_option linter.all false

namespace Sys2Proof.Machine

@[simp] theorem Run.instead_s (r : Run) (after : List Nat) (bad : Nat → Bool) (cls reason : Nat) : (r.instead after bad cls reason).s = r.s := by
  simp [Run.instead]

@[simp] theorem Run.instead_s0 (r : Run) (after : List Nat) (bad : Nat → Bool) (cls reason : Nat) : (r.instead after bad cls reason).s0 = r.s0 := by
  simp [Run.instead]

@[simp] theorem Run.judgeA_s (r : Run) (reads : Nat → List Nat) : (r.judgeA reads).s = r.s := by
  simp [Run.judgeA]

@[simp] theorem Run.judgeA_s0 (r : Run) (reads : Nat → List Nat) : (r.judgeA reads).s0 = r.s0 := by
  simp [Run.judgeA]

@[simp] theorem crossRun_keeps (o : Ops) (s : State) (reads : Run → Nat → List Nat) (res : Run → Nat → LRes) (hm : Memory.wf s.mem = true) : Keeps (crossRun o s reads res) := by
  unfold crossRun
  refine withRun_keeps hm _ (fun r h1 h0 => ?_)
  repeat' first
    | assumption
    | (simp [*]; done)
    | split
    | refine foldl_wf _ (fun s x hs => ?_) _ ?_ _
    | refine foldl_run_wf _ (fun r x hr hr0 => ⟨?_, ?_⟩) _ ?_ ?_ _
    | dsimp only
    | simp only [Bool.not_eq_true', ite_not]

@[simp] theorem moveRun_keeps (o : Ops) (s : State) (src : Run → Nat → Nat) (hm : Memory.wf s.mem = true) : Keeps (moveRun o s src) := by
  unfold moveRun
  simp [*]

@[simp] theorem execShfl_keeps (o : Ops) (mode seg : Nat) (s : State) (hm : Memory.wf s.mem = true) : Keeps (execShfl o mode seg s) := by
  unfold execShfl
  simp [*]

@[simp] theorem execQx_keeps (o : Ops) (mode : Nat) (s : State) (hm : Memory.wf s.mem = true) : Keeps (execQx o mode s) := by
  unfold execQx
  simp [*]

@[simp] theorem execQbc_keeps (o : Ops) (lane : Nat) (s : State) (hm : Memory.wf s.mem = true) : Keeps (execQbc o lane s) := by
  unfold execQbc
  simp [*]

@[simp] theorem combineRun_keeps (o : Ops) (ty : Ty) (op : COp) (seg : Nat) (upto : Option Bool) (s : State) (hm : Memory.wf s.mem = true) : Keeps (combineRun o ty op seg upto s) := by
  unfold combineRun
  simp [*]

@[simp] theorem execCredc_keeps (o : Ops) (ty : Ty) (op : COp) (seg : Nat) (s : State) (hm : Memory.wf s.mem = true) : Keeps (execCredc o ty op seg s) := by
  unfold execCredc
  simp [*]

@[simp] theorem execCscan_keeps (o : Ops) (ty : Ty) (op : COp) (seg : Nat) (excl : Bool) (s : State) (hm : Memory.wf s.mem = true) : Keeps (execCscan o ty op seg excl s) := by
  unfold execCscan
  simp [*]

@[simp] theorem execMatchx_keeps (o : Ops) (ty : Ty) (seg : Nat) (s : State) (hm : Memory.wf s.mem = true) : Keeps (execMatchx o ty seg s) := by
  unfold execMatchx
  simp [*]

end Sys2Proof.Machine
end

