-- ==== Sys2Proof/Laws/MemService.lean ====
section
/-! SUPPORT. Memory keeps its canonical form: the definitions of Machine/Service.lean. -/

set_option linter.all false

namespace Sys2Proof.Machine

@[simp] theorem State.enterQueue_mem (s : State) (f : Flight) : (State.enterQueue s f).mem = s.mem := by
  simp [State.enterQueue]

@[simp] theorem State.request_mem (s : State) (f : Flight) : (State.request s f).mem = s.mem := by
  unfold State.request
  repeat' first
    | rfl
    | (simp [apply_ite State.mem, apply_ite Run.s]; done)
    | split
    | refine (foldl_mem _ (fun s x => ?_) _ _).trans ?_
    | refine (foldl_run_mem _ (fun s x => ?_) _ _).trans ?_
    | dsimp only
    | simp

@[simp] theorem State.takeNew_mem (s : State) (col : Nat) (f : Flight) : (s.takeNew col f).mem = s.mem := by
  unfold State.takeNew
  split <;> simp

@[simp] theorem State.serve_wf (s : State) (f : Flight) (act : State) (hm : Memory.wf s.mem = true) (h2 : Memory.wf act.mem = true) :
    Memory.wf (s.serve f act).mem = true := by
  unfold State.serve
  split <;> simp [hm, h2]

@[simp] theorem execAtom_keeps (o : Ops) (op : AOp) (ty : Ty) (ord : Ord) (scope : Scope) (off : Int) (s : State) (hm : Memory.wf s.mem = true) : Keeps (execAtom o op ty ord scope off s) := by
  unfold execAtom
  refine withRun_keeps hm _ (fun r h1 h0 => ?_)
  repeat' first
    | assumption
    | (simp [*]; done)
    | refine Run.once_wf _ _ _ (by simp [*]) (fun l => ?_)
    | (split <;> (rename_i h; first | (simp [Run.access_parked h, *]; done) | (replace h := Run.access_go h) | fail))
    | (split <;> (rename_i h; first | (simp [Run.translated_parked h, *]; done) | (replace h := Run.translated_go h) | fail))
    | split
    | refine foldl_wf _ (fun s x hs => ?_) _ ?_ _
    | refine foldl_run_wf _ (fun r x hr hr0 => ⟨?_, ?_⟩) _ ?_ ?_ _
    | dsimp only
    | simp only [Bool.not_eq_true', ite_not]

@[simp] theorem State.answer_mem (s : State) (id : Nat) (v : Word) : (State.answer s id v).mem = s.mem := by
  simp [State.answer]

@[simp] theorem State.atomAt_wf (s : State) (f : Flight) (hm : Memory.wf s.mem = true) : Memory.wf (State.atomAt s f).mem = true := by
  unfold State.atomAt
  repeat' first
    | assumption
    | (simp [*]; done)
    | split
    | refine foldl_wf _ (fun s x hs => ?_) _ ?_ _
    | dsimp only
    | simp [*]

@[simp] theorem execAtomAtOwner_keeps (id : Nat) (s : State) (hm : Memory.wf s.mem = true) : Keeps (execAtomAtOwner id s) := by
  unfold execAtomAtOwner
  repeat' first
    | assumption
    | (simp [*]; done)
    | split
    | refine foldl_wf _ (fun s x hs => ?_) _ ?_ _
    | dsimp only
    | simp [*]

@[simp] theorem State.reply_mem (s : State) (f : Flight) : (State.reply s f).mem = s.mem := by
  unfold State.reply
  repeat' first
    | rfl
    | (simp [apply_ite State.mem, apply_ite Run.s]; done)
    | split
    | refine (foldl_mem _ (fun s x => ?_) _ _).trans ?_
    | refine (foldl_run_mem _ (fun s x => ?_) _ _).trans ?_
    | dsimp only
    | simp

@[simp] theorem execServiceReply_keeps (id : Nat) (s : State) (hm : Memory.wf s.mem = true) : Keeps (execServiceReply id s) := by
  unfold execServiceReply
  repeat' first
    | assumption
    | (simp [*]; done)
    | split
    | refine foldl_wf _ (fun s x hs => ?_) _ ?_ _
    | dsimp only
    | simp [*]

@[simp] theorem State.detach_mem (s : State) (t c l : Nat) : (State.detach s t c l).mem = s.mem := by
  simp [State.detach]

@[simp] theorem execTxb_keeps (o : Ops) (s : State) (hm : Memory.wf s.mem = true) : Keeps (execTxb o s) := by
  refine withRun_keeps hm _ (fun r h1 h0 => ?_)
  simp [*]

@[simp] theorem execTxa_keeps (o : Ops) (s : State) (hm : Memory.wf s.mem = true) : Keeps (execTxa o s) := by
  unfold execTxa
  refine withRun_keeps hm _ (fun r h1 h0 => ?_)
  rw [Run.finish_mem]
  refine foldl_wf _ (fun s x hs => ?_) _ h1 _
  split
  · simpa using hs
  · exact hs

@[simp] theorem Run.setLine_mem (r : Run) (a : Acc) : (Run.setLine r a).s.mem = r.s.mem := by
  simp [Run.setLine]

@[simp] theorem Run.setLine_s0 (r : Run) (a : Acc) : (Run.setLine r a).s0 = r.s0 := by
  simp [Run.setLine]

@[simp] theorem Run.closeTx_mem (r : Run) (ls : List Nat) : (Run.closeTx r ls).s.mem = r.s.mem := by
  simp [Run.closeTx]

@[simp] theorem Run.closeTx_s0 (r : Run) (ls : List Nat) : (Run.closeTx r ls).s0 = r.s0 := by
  simp [Run.closeTx]

theorem txAccess_keeps (o : Ops) (p : Pro) (store : Bool) (off : Int) (s : State) (act : Run → Acc → Run) (doomed : Run → Nat → Run)
    (ha : ∀ r a, (act r a).s.mem = r.s.mem) (hd : ∀ r l, (doomed r l).s.mem = r.s.mem) (hm : Memory.wf s.mem = true) :
    Keeps (txAccess o p store off s act doomed) := by
  unfold txAccess
  refine withRun_keeps hm _ (fun r h1 h0 => ?_)
  extract_lets ls r1 dm
  split
  · next h => simpa [Run.access_parked h, r1] using h0
  · next r2 acc h =>
    have e : r2.s.mem = r.s.mem := by simpa [r1] using (Run.access_go h).1
    dsimp only
    rw [Run.finish_mem, Run.closeTx_mem, foldl_run_mem _ hd, foldl_run_mem _ (fun r a => by rw [ha]; simp)]
    split <;> simp [e, h1]

@[simp] theorem Run.txRead_mem (r : Run) (a : Acc) : (Run.txRead r a).s.mem = r.s.mem := by
  unfold Run.txRead
  repeat' first
    | rfl
    | (simp [apply_ite State.mem, apply_ite Run.s]; done)
    | split
    | refine (foldl_mem _ (fun s x => ?_) _ _).trans ?_
    | refine (foldl_run_mem _ (fun s x => ?_) _ _).trans ?_
    | dsimp only
    | simp

@[simp] theorem Run.txRead_s0 (r : Run) (a : Acc) : (Run.txRead r a).s0 = r.s0 := by
  unfold Run.txRead
  repeat' first
    | rfl
    | (simp [apply_ite Run.s0]; done)
    | split
    | refine (foldl_run_s0 _ (fun s x => ?_) _ _).trans ?_
    | dsimp only
    | simp

@[simp] theorem execTxld_keeps (o : Ops) (off : Int) (s : State) (hm : Memory.wf s.mem = true) : Keeps (execTxld o off s) :=
  txAccess_keeps _ _ _ _ _ _ _ (fun _ _ => by simp) (fun _ _ => by simp) hm

@[simp] theorem execTxst_keeps (o : Ops) (off : Int) (s : State) (hm : Memory.wf s.mem = true) : Keeps (execTxst o off s) :=
  txAccess_keeps _ _ _ _ _ _ _ (fun _ _ => by simp) (fun _ _ => rfl) hm

@[simp] theorem Run.txEmpty_s0 (r : Run) (ord : Ord) (scope : Scope) (pn l : Nat) : (Run.txEmpty r ord scope pn l).s0 = r.s0 := by
  simp [Run.txEmpty]

@[simp] theorem Run.txEmpty_mem (r : Run) (ord : Ord) (scope : Scope) (pn l : Nat) : (Run.txEmpty r ord scope pn l).s.mem = r.s.mem := by
  simp [Run.txEmpty]

@[simp] theorem Run.txNow_mem (r : Run) (pn status l : Nat) : (Run.txNow r pn status l).s.mem = r.s.mem := by
  simp [Run.txNow]

@[simp] theorem Run.txNow_s0 (r : Run) (pn status l : Nat) : (Run.txNow r pn status l).s0 = r.s0 := by
  simp [Run.txNow]

@[simp] theorem Run.txSend_mem (r : Run) (ord : Ord) (scope : Scope) (pn l : Nat) : (Run.txSend r ord scope pn l).s.mem = r.s.mem := by
  simp [Run.txSend]

@[simp] theorem Run.txSend_s0 (r : Run) (ord : Ord) (scope : Scope) (pn l : Nat) : (Run.txSend r ord scope pn l).s0 = r.s0 := by
  simp [Run.txSend]

@[simp] theorem execTxe_keeps (o : Ops) (ord : Ord) (scope : Scope) (pn : Nat) (s : State) (hm : Memory.wf s.mem = true) : Keeps (execTxe o ord scope pn s) := by
  unfold execTxe
  refine withRun_keeps hm _ (fun r h1 h0 => ?_)
  repeat' first
    | assumption
    | (simp [*]; done)
    | split
    | refine foldl_wf _ (fun s x hs => ?_) _ ?_ _
    | refine foldl_run_wf _ (fun r x hr hr0 => ⟨?_, ?_⟩) _ ?_ ?_ _
    | dsimp only
    | simp only [Bool.not_eq_true', ite_not]

@[simp] theorem State.commitWrites_wf (s : State) (ws : List (Nat × Word)) (who line : Nat) (hm : Memory.wf s.mem = true) : Memory.wf (State.commitWrites s ws who line).mem = true := by
  unfold State.commitWrites
  repeat' first
    | assumption
    | (simp [*]; done)
    | split
    | refine foldl_wf _ (fun s x hs => ?_) _ ?_ _
    | dsimp only
    | simp [*]

@[simp] theorem State.commitAt_wf (s : State) (f : Flight) (hm : Memory.wf s.mem = true) : Memory.wf (State.commitAt s f).mem = true := by
  unfold State.commitAt
  repeat' first
    | assumption
    | (simp [*]; done)
    | split
    | refine foldl_wf _ (fun s x hs => ?_) _ ?_ _
    | dsimp only
    | simp [*]

@[simp] theorem execTxCommitAtOwner_keeps (id : Nat) (s : State) (hm : Memory.wf s.mem = true) : Keeps (execTxCommitAtOwner id s) := by
  unfold execTxCommitAtOwner
  repeat' first
    | assumption
    | (simp [*]; done)
    | split
    | refine foldl_wf _ (fun s x hs => ?_) _ ?_ _
    | dsimp only
    | simp [*]

@[simp] theorem execDalloc_keeps (o : Ops) (pn : Nat) (s : State) (hm : Memory.wf s.mem = true) : Keeps (execDalloc o pn s) := by
  refine withRun_keeps hm _ (fun r h1 h0 => ?_)
  simp [*]

@[simp] theorem State.allocAt_mem (s : State) (f : Flight) : (State.allocAt s f).mem = s.mem := by
  unfold State.allocAt
  repeat' first
    | rfl
    | (simp [apply_ite State.mem, apply_ite Run.s]; done)
    | split
    | refine (foldl_mem _ (fun s x => ?_) _ _).trans ?_
    | refine (foldl_run_mem _ (fun s x => ?_) _ _).trans ?_
    | dsimp only
    | simp

@[simp] theorem execDallocAtServiceCourse_keeps (id : Nat) (s : State) (hm : Memory.wf s.mem = true) : Keeps (execDallocAtServiceCourse id s) := by
  unfold execDallocAtServiceCourse
  repeat' first
    | assumption
    | (simp [*]; done)
    | split
    | refine foldl_wf _ (fun s x hs => ?_) _ ?_ _
    | dsimp only
    | simp [*]

@[simp] theorem execDfree_keeps (o : Ops) (s : State) (hm : Memory.wf s.mem = true) : Keeps (execDfree o s) := by
  refine withRun_keeps hm _ (fun r h1 h0 => ?_)
  simp [*]

@[simp] theorem State.freeAt_mem (s : State) (f : Flight) : (State.freeAt s f).mem = s.mem := by
  unfold State.freeAt
  repeat' first
    | rfl
    | (simp [apply_ite State.mem, apply_ite Run.s]; done)
    | split
    | refine (foldl_mem _ (fun s x => ?_) _ _).trans ?_
    | refine (foldl_run_mem _ (fun s x => ?_) _ _).trans ?_
    | dsimp only
    | simp

@[simp] theorem execDfreeAtOwner_keeps (id : Nat) (s : State) (hm : Memory.wf s.mem = true) : Keeps (execDfreeAtOwner id s) := by
  unfold execDfreeAtOwner
  repeat' first
    | assumption
    | (simp [*]; done)
    | split
    | refine foldl_wf _ (fun s x hs => ?_) _ ?_ _
    | dsimp only
    | simp [*]

end Sys2Proof.Machine
end

