-- ==== Sys2Proof/Laws/MemFabric.lean ====
section
/-! SUPPORT. Memory keeps its canonical form: the definitions of Machine/Fabric.lean. -/

set_option linter.all false

namespace Sys2Proof.Machine

@[simp] theorem State.peerTake_mem (s : State) (f : Flight) : (State.peerTake s f).mem = s.mem := by
  unfold State.peerTake
  repeat' first
    | rfl
    | (simp [apply_ite State.mem, apply_ite Run.s]; done)
    | split
    | refine (foldl_mem _ (fun s x => ?_) _ _).trans ?_
    | refine (foldl_run_mem _ (fun s x => ?_) _ _).trans ?_
    | dsimp only
    | simp

@[simp] theorem State.keepCopy_mem (s : State) (f : Flight) (bs : List Byte) : (State.keepCopy s f bs).mem = s.mem := by
  simp [State.keepCopy]

@[simp] theorem State.peerLine_wf (s : State) (f : Flight) (data : Word) (hm : Memory.wf s.mem = true) : Memory.wf (State.peerLine s f data).2.mem = true := by
  unfold State.peerLine
  repeat' first
    | assumption
    | (simp [*]; done)
    | split
    | refine foldl_wf _ (fun s x hs => ?_) _ ?_ _
    | dsimp only
    | simp [*]

@[simp] theorem State.fixFar_mem (s : State) (f : Flight) (bs : List Byte) : (State.fixFar s f bs).mem = s.mem := by simp [State.fixFar]

@[simp] theorem State.peerLoad_wf (s : State) (f : Flight) (data : Word) (hm : Memory.wf s.mem = true) : Memory.wf (State.peerLoad s f data).mem = true := by
  unfold State.peerLoad
  repeat' first
    | assumption
    | (simp [*]; done)
    | split
    | refine foldl_wf _ (fun s x hs => ?_) _ ?_ _
    | dsimp only
    | simp [*]

@[simp] theorem State.modGroup_mem (s : State) (g : Nat) (f : Group → Group) : (State.modGroup s g f).mem = s.mem := by
  simp [State.modGroup]

@[simp] theorem State.peerPrefetch_wf (s : State) (f : Flight) (data : Word) (hm : Memory.wf s.mem = true) :
    Memory.wf (State.peerPrefetch s f data).mem = true := by
  unfold State.peerPrefetch
  rw [State.dropFlight_mem]
  split
  · rw [State.keepCopy_mem]; exact State.peerLine_wf s f data hm
  · exact hm

@[simp] theorem State.switchTake_mem (s : State) (f : Flight) : (State.switchTake s f).mem = s.mem := by
  unfold State.switchTake; split <;> simp

@[simp] theorem State.peerPut_wf (s : State) (f : Flight) (pa : Nat) (bs : List Byte) (hm : Memory.wf s.mem = true) : Memory.wf (State.peerPut s f pa bs).mem = true := by
  unfold State.peerPut
  repeat' first
    | assumption
    | (simp [*]; done)
    | split
    | refine foldl_wf _ (fun s x hs => ?_) _ ?_ _
    | dsimp only
    | simp [*]

@[simp] theorem State.peerAtom_wf (s : State) (f : Flight) (data : Word) (hm : Memory.wf s.mem = true) : Memory.wf (State.peerAtom s f data).mem = true := by
  unfold State.peerAtom
  repeat' first
    | assumption
    | (simp [*]; done)
    | split
    | refine foldl_wf _ (fun s x hs => ?_) _ ?_ _
    | dsimp only
    | simp [*]

@[simp] theorem State.peerFail_mem (s : State) (f : Flight) (cls reason : Nat) : (State.peerFail s f cls reason).mem = s.mem := by
  unfold State.peerFail
  repeat' first
    | rfl
    | (simp [apply_ite State.mem, apply_ite Run.s]; done)
    | split
    | refine (foldl_mem _ (fun s x => ?_) _ _).trans ?_
    | refine (foldl_run_mem _ (fun s x => ?_) _ _).trans ?_
    | dsimp only
    | simp

@[simp] theorem State.peerPerform_wf (s : State) (f : Flight) (data : Word) (hm : Memory.wf s.mem = true) : Memory.wf (State.peerPerform s f data).mem = true := by
  unfold State.peerPerform
  repeat' first
    | assumption
    | (simp [*]; done)
    | split
    | refine foldl_wf _ (fun s x hs => ?_) _ ?_ _
    | dsimp only
    | simp [*]

@[simp] theorem execFabricRequestAtPeer_keeps (id : Nat) (data : Word) (refused : Bool) (s : State) (hm : Memory.wf s.mem = true) : Keeps (execFabricRequestAtPeer id data refused s) := by
  unfold execFabricRequestAtPeer
  repeat' first
    | assumption
    | (simp [*]; done)
    | split
    | refine foldl_wf _ (fun s x hs => ?_) _ ?_ _
    | dsimp only
    | simp [*]

@[simp] theorem State.foreignPut_wf (s : State) (pa : Nat) (bs : List Byte) (hm : Memory.wf s.mem = true) : Memory.wf (State.foreignPut s pa bs).mem = true := by
  unfold State.foreignPut
  repeat' first
    | assumption
    | (simp [*]; done)
    | split
    | refine foldl_wf _ (fun s x hs => ?_) _ ?_ _
    | dsimp only
    | simp [*]

@[simp] theorem State.fromPeer_wf (s : State) (a : CcAcc) (hm : Memory.wf s.mem = true) : Memory.wf (State.fromPeer s a).mem = true := by
  unfold State.fromPeer
  repeat' first
    | assumption
    | (simp [*]; done)
    | split
    | refine foldl_wf _ (fun s x hs => ?_) _ ?_ _
    | dsimp only
    | simp [*]

@[simp] theorem State.takePeer_wf (s : State) (a : CcAcc) (hm : Memory.wf s.mem = true) : Memory.wf (State.takePeer s a).mem = true := by
  unfold State.takePeer
  repeat' first
    | assumption
    | (simp [*]; done)
    | split
    | refine foldl_wf _ (fun s x hs => ?_) _ ?_ _
    | dsimp only
    | simp [*]

@[simp] theorem State.report_mem (s : State) (c : QCause) : (State.report s c).mem = s.mem := by
  unfold State.report
  repeat' first
    | rfl
    | (simp [apply_ite State.mem, apply_ite Run.s]; done)
    | split
    | refine (foldl_mem _ (fun s x => ?_) _ _).trans ?_
    | refine (foldl_run_mem _ (fun s x => ?_) _ _).trans ?_
    | dsimp only
    | simp

@[simp] theorem State.expiry_mem (s : State) (n peer : Nat) : (State.expiry s n peer).mem = s.mem := by
  unfold State.expiry; split <;> simp

@[simp] theorem Run.modCourse_mem (r : Run) (f : Course → Course) : (r.modCourse f).s.mem = r.s.mem := by simp [Run.modCourse]

@[simp] theorem Run.modCourse_s0 (r : Run) (f : Course → Course) : (r.modCourse f).s0 = r.s0 := rfl

@[simp] theorem Run.arrive_mem (r : Run) (g l ep : Nat) (s : State) : (r.arrive g l ep s).mem = s.mem := by simp [Run.arrive]

@[simp] theorem execFabricTimerExpiry_keeps (id : Nat) (s : State) (hm : Memory.wf s.mem = true) : Keeps (execFabricTimerExpiry id s) := by
  unfold execFabricTimerExpiry
  repeat' first
    | assumption
    | (simp [*]; done)
    | split
    | refine foldl_wf _ (fun s x hs => ?_) _ ?_ _
    | dsimp only
    | simp [*]

@[simp] theorem State.modGwin_mem (s : State) (g : Nat) (f : Gwin → Gwin) : (State.modGwin s g f).mem = s.mem := by
  simp [State.modGwin]

theorem glazeRun_keeps (o : Ops) (size : Nat) (off : Int) (s : State) (f : Run → Acc → Nat → Nat → Flight)
    (hm : Memory.wf s.mem = true) : Keeps (glazeRun o size off s f) := by
  unfold glazeRun
  refine withRun_keeps hm _ (fun r h1 h0 => ?_)
  split
  · rename_i h; simp [Run.access_parked h, h0]
  · rename_i h
    replace h := Run.access_go h
    extract_lets r1 r2 mark
    rw [Run.finish_mem]
    refine foldl_wf _ (fun s a hs => ?_) _ (by simp [r2, r1, h, h1]) _
    split
    · exact hs
    · simpa using hs

@[simp] theorem execGst_keeps (o : Ops) (size : LSize) (off : Int) (s : State) (hm : Memory.wf s.mem = true) :
    Keeps (execGst o size off s) := glazeRun_keeps _ _ _ _ _ hm

@[simp] theorem State.stampStore_mem (s : State) (g off size : Nat) (data : Word) : (State.stampStore s g off size data).2.mem = s.mem := by
  simp [State.stampStore]

@[simp] theorem State.stampFlight_mem (s : State) (f : Flight) : (State.stampFlight s f).mem = s.mem := by
  simp [State.stampFlight]

@[simp] theorem execGlazeStamp_keeps (group : Nat) (s : State) (hm : Memory.wf s.mem = true) : Keeps (execGlazeStamp group s) := by
  unfold execGlazeStamp
  repeat' first
    | assumption
    | (simp [*]; done)
    | split
    | refine foldl_wf _ (fun s x hs => ?_) _ ?_ _
    | dsimp only
    | simp [*]

@[simp] theorem State.dropApplied_mem (s : State) (g : Nat) : (State.dropApplied s g).mem = s.mem := by
  simp [State.dropApplied]

@[simp] theorem State.setApplied_mem (s : State) (g n : Nat) : (State.setApplied s g n).mem = s.mem := by
  simp [State.setApplied]

@[simp] theorem State.applyBytes_wf (s : State) (g : Nat) (x : GStore) (who : Option Nat) (hm : Memory.wf s.mem = true) : Memory.wf (State.applyBytes s g x who).mem = true := by
  simp [State.applyBytes, hm]

@[simp] theorem execGlazeApply_keeps (group : Nat) (s : State) (hm : Memory.wf s.mem = true) : Keeps (execGlazeApply group s) := by
  unfold execGlazeApply
  repeat' first
    | assumption
    | (simp [*]; done)
    | split
    | refine foldl_wf _ (fun s x hs => ?_) _ ?_ _
    | dsimp only
    | simp [*]

@[simp] theorem execGlazeReplayRequest_keeps (group : Nat) (s : State) (hm : Memory.wf s.mem = true) : Keeps (execGlazeReplayRequest group s) := by
  unfold execGlazeReplayRequest
  repeat' first
    | assumption
    | (simp [*]; done)
    | split
    | refine foldl_wf _ (fun s x hs => ?_) _ ?_ _
    | dsimp only
    | simp [*]

@[simp] theorem Run.parkWith_mem (r : Run) (f : State → State) (ws : List Wait) (hf : ∀ s, (f s).mem = s.mem) :
    (r.parkWith f ws).mem = r.s0.mem := by
  unfold Run.parkWith
  rw [State.park_mem, hf]

@[simp] theorem execGwait_keeps (o : Ops) (tout : Nat) (s : State) (hm : Memory.wf s.mem = true) : Keeps (execGwait o tout s) := by
  unfold execGwait
  refine withRun_keeps hm _ (fun r h1 h0 => Run.once_wf _ _ _ (by simpa using h1) (fun l => ?_))
  extract_lets g n now dl got r1
  split
  · rw [Run.finish_mem]
    dsimp only
    split <;> simp [r1, h1]
  · rw [Run.parkWith_mem _ _ _ (fun s => by simp)]
    exact h0

@[simp] theorem execGwaitTimeout_keeps (team crs : Nat) (s : State) (hm : Memory.wf s.mem = true) : Keeps (execGwaitTimeout team crs s) := by
  unfold execGwaitTimeout
  repeat' first
    | assumption
    | (simp [*]; done)
    | split
    | refine foldl_wf _ (fun s x hs => ?_) _ ?_ _
    | dsimp only
    | simp [*]

@[simp] theorem execGsn_keeps (o : Ops) (s : State) (hm : Memory.wf s.mem = true) : Keeps (execGsn o s) := by
  unfold execGsn
  refine withRun_keeps hm _ (fun r h1 h0 => ?_)
  simpa using h1

@[simp] theorem execFred_keeps (o : Ops) (op : AOp) (ty : Ty) (off : Int) (s : State) (hm : Memory.wf s.mem = true) :
    Keeps (execFred o op ty off s) := glazeRun_keeps _ _ _ _ _ hm

@[simp] theorem State.completeRed_mem (s : State) (group off : Nat) (f : Flight) (xs : List GRed) : (s.completeRed group off f xs).mem = s.mem := by
  unfold State.completeRed
  dsimp only
  split <;> simp

@[simp] theorem execFredComplete_keeps (group off : Nat) (s : State) (hm : Memory.wf s.mem = true) : Keeps (execFredComplete group off s) := by
  unfold execFredComplete
  repeat' first
    | assumption
    | (simp [*]; done)
    | split
    | refine foldl_wf _ (fun s x hs => ?_) _ ?_ _
    | dsimp only
    | simp [*]

@[simp] theorem execFbar_keeps (o : Ops) (s : State) (hm : Memory.wf s.mem = true) : Keeps (execFbar o s) := by
  unfold execFbar
  refine withRun_keeps hm _ (fun r h1 h0 => Run.once_wf _ _ _ (by simpa using h1) (fun l => ?_))
  extract_lets g G
  split
  · split
    · rw [Run.park_mem]; exact h0
    · rw [Run.parkWith_mem _ _ _ (fun s => by simp)]; exact h0
  · split
    · rw [Run.park_mem]; exact h0
    · simp [h1]

@[simp] theorem execFbarEpisodeComplete_keeps (group : Nat) (s : State) (hm : Memory.wf s.mem = true) : Keeps (execFbarEpisodeComplete group s) := by
  unfold execFbarEpisodeComplete
  repeat' first
    | assumption
    | (simp [*]; done)
    | split
    | refine foldl_wf _ (fun s x hs => ?_) _ ?_ _
    | dsimp only
    | simp [*]

end Sys2Proof.Machine
end

