-- ==== Sys2Proof/Laws/MemMgmt.lean ====
section
/-! SUPPORT. Memory keeps its canonical form: the definitions of Machine/Mgmt.lean. -/

set_option linter.all false

namespace Sys2Proof.Machine

theorem State.zeroMemory_wf (s : State) (hm : Memory.wf s.mem = true) : Memory.wf s.zeroMemory.mem = true := wf_filter _ hm

@[simp] theorem State.allCols_mem (s : State) (f : Nat → Column → Column) : (s.allCols f).mem = s.mem := by
  delta State.allCols
  exact foldl_mem _ (fun s c => State.modCol_mem s c (f c)) _ _

theorem State.loadImage_wf (s : State) (i : Image) (hm : Memory.wf s.mem = true) : Memory.wf (s.loadImage i).mem = true := by
  unfold State.loadImage
  split
  · exact wf_memPutBytes _ _ hm
  · exact hm

theorem State.stage5_wf (s : State) (hm : Memory.wf s.mem = true) : Memory.wf s.stage5.mem = true := by
  unfold State.stage5
  extract_lets s1
  have h1 : Memory.wf s1.mem = true := by simp only [s1, State.allCols_mem]; exact hm
  exact foldl_wf _ (fun s i hs => State.loadImage_wf s i hs) _ h1 _

theorem State.bootTo_wf (s : State) (n : Nat) (hm : Memory.wf s.mem = true) : Memory.wf (s.bootTo n).mem = true := by
  unfold State.bootTo
  extract_lets s0 s1 s2 s3 s4
  have h3 : Memory.wf s3.mem = true := by
    simp only [s3, s2, s1, s0]
    repeat' split
    all_goals exact hm
  have h4 : Memory.wf s4.mem = true := by
    simp only [s4]
    split
    · exact State.zeroMemory_wf _ h3
    · exact h3
  split
  · exact State.stage5_wf _ h4
  · exact h4

@[simp] theorem State.sampleTemp_mem (s : State) : s.sampleTemp.mem = s.mem := by
  unfold State.sampleTemp
  dsimp only
  rw [State.allCols_mem]

@[simp] theorem State.powerOn_mem (s : State) : (State.powerOn s).mem = s.mem := rfl

theorem State.bringUp_wf (s : State) (f : Option (Nat × Nat)) (hm : Memory.wf s.mem = true) : Memory.wf (s.bringUp f).mem = true := by
  cases f <;> exact State.bootTo_wf _ _ hm

@[simp] theorem execPowerOnReset_keeps (failAt : Option (Nat × Nat)) (s : State) (hm : Memory.wf s.mem = true) : Keeps (execPowerOnReset failAt s) := by
  have h0 : Memory.wf s.powerOn.sampleTemp.mem = true := by rw [State.sampleTemp_mem, State.powerOn_mem]; exact hm
  unfold execPowerOnReset
  split
  · exact (keeps_next _).2 hm
  · exact (keeps_next _).2 (State.bringUp_wf _ _ h0)

@[simp] theorem execMeasurementReport_keeps (nonce : Nat) (s : State) (hm : Memory.wf s.mem = true) : Keeps (execMeasurementReport nonce s) := by
  unfold execMeasurementReport
  repeat' first
    | assumption
    | (simp [*]; done)
    | split
    | refine foldl_wf _ (fun s x hs => ?_) _ ?_ _
    | dsimp only
    | simp [*]

@[simp] theorem execDeviceNumberSet_keeps (n : Nat) (s : State) (hm : Memory.wf s.mem = true) : Keeps (execDeviceNumberSet n s) := by
  unfold execDeviceNumberSet
  simp [*]

@[simp] theorem State.coneCourse_mem (s : State) (t c step seq : Nat) : (State.coneCourse s t c step seq).mem = s.mem := by
  simp [State.coneCourse]

@[simp] theorem State.conePend_mem (s : State) (col : Nat) : (State.conePend s col).mem = s.mem := by
  simp [State.conePend]

@[simp] theorem execConeEvaluation_keeps (col temp : Nat) (droop : Bool) (s : State) (hm : Memory.wf s.mem = true) : Keeps (execConeEvaluation col temp droop s) := by
  unfold execConeEvaluation
  repeat' first
    | assumption
    | (simp [*]; done)
    | split
    | refine foldl_wf _ (fun s x hs => ?_) _ ?_ _
    | dsimp only
    | simp [*]

@[simp] theorem State.movePfloor_mem (s : State) (c : Option Nat) (f : Nat → Nat) : (State.movePfloor s c f).mem = s.mem := by
  unfold State.movePfloor
  repeat' first
    | rfl
    | (simp [apply_ite State.mem, apply_ite Run.s]; done)
    | split
    | refine (foldl_mem _ (fun s x => ?_) _ _).trans ?_
    | refine (foldl_run_mem _ (fun s x => ?_) _ _).trans ?_
    | dsimp only
    | simp

@[simp] theorem execPowerManagerTick_keeps (avg : Nat) (s : State) (hm : Memory.wf s.mem = true) : Keeps (execPowerManagerTick avg s) := by
  unfold execPowerManagerTick
  repeat' first
    | assumption
    | (simp [*]; done)
    | split
    | refine foldl_wf _ (fun s x hs => ?_) _ ?_ _
    | dsimp only
    | simp [*]

@[simp] theorem execCorrectedError_keeps (col unit loc : Nat) (s : State) (hm : Memory.wf s.mem = true) : Keeps (execCorrectedError col unit loc s) := by
  unfold execCorrectedError
  repeat' first
    | assumption
    | (simp [*]; done)
    | split
    | refine foldl_wf _ (fun s x hs => ?_) _ ?_ _
    | dsimp only
    | simp [*]

@[simp] theorem State.hitCore_mem (s : State) (core off : Nat) : (State.hitCore s core off).mem = s.mem := by
  unfold State.hitCore
  repeat' first
    | rfl
    | (simp [apply_ite State.mem, apply_ite Run.s]; done)
    | split
    | refine (foldl_mem _ (fun s x => ?_) _ _).trans ?_
    | refine (foldl_run_mem _ (fun s x => ?_) _ _).trans ?_
    | dsimp only
    | simp

@[simp] theorem State.poisonAt_mem (s : State) (unit loc : Nat) : (State.poisonAt s unit loc).mem = s.mem := by
  unfold State.poisonAt
  repeat' first
    | rfl
    | (simp [apply_ite State.mem, apply_ite Run.s]; done)
    | split
    | refine (foldl_mem _ (fun s x => ?_) _ _).trans ?_
    | refine (foldl_run_mem _ (fun s x => ?_) _ _).trans ?_
    | dsimp only
    | simp

@[simp] theorem execUncorrectableError_keeps (col unit loc : Nat) (s : State) (hm : Memory.wf s.mem = true) : Keeps (execUncorrectableError col unit loc s) := by
  unfold execUncorrectableError
  repeat' first
    | assumption
    | (simp [*]; done)
    | split
    | refine foldl_wf _ (fun s x hs => ?_) _ ?_ _
    | dsimp only
    | simp [*]

@[simp] theorem execManagementRequest_keeps (r : Mgmt) (s : State) (hm : Memory.wf s.mem = true) : Keeps (execManagementRequest r s) := by
  unfold execManagementRequest
  repeat' first
    | assumption
    | (simp [*]; done)
    | split
    | refine foldl_wf _ (fun s x hs => ?_) _ ?_ _
    | dsimp only
    | simp [*]

@[simp] theorem State.takeInput_wf (s : State) (x : Input) (hm : Memory.wf s.mem = true) : Memory.wf (State.takeInput s x).mem = true := by
  unfold State.takeInput
  repeat' first
    | assumption
    | (simp [*]; done)
    | split
    | refine foldl_wf _ (fun s x hs => ?_) _ ?_ _
    | dsimp only
    | simp [*]

end Sys2Proof.Machine
end

