-- ==== Sys2Proof/Laws/Boot.lean ====
section
/-! SUPPORT. Bring-up (R395, R396): the failure that fuses and flash lead to is the one that they lead to before the reset. -/

namespace Sys2Proof.Machine

theorem State.bootFails_congr {s u : State} (h1 : u.flash = s.flash) (h2 : u.fuseKey = s.fuseKey) (h3 : u.fuseSvn = s.fuseSvn) :
    u.bootFails = s.bootFails := by
  rw [State.bootFails, State.bootFails, show u.signed = s.signed by simp only [State.signed, h1, h2], h1, h3]

theorem State.allCols_fuses (s : State) (f : Nat → Column → Column) :
    (s.allCols f).flash = s.flash ∧ (s.allCols f).fuseKey = s.fuseKey ∧ (s.allCols f).fuseSvn = s.fuseSvn :=
  foldl_inv (fun w => w.flash = s.flash ∧ w.fuseKey = s.fuseKey ∧ w.fuseSvn = s.fuseSvn) _ (fun _ _ h => by simpa using h) s ⟨rfl, rfl, rfl⟩ _

theorem State.bootFails_sampled (s : State) : s.powerOn.sampleTemp.bootFails = s.bootFails := by
  refine State.bootFails_congr ?_ ?_ ?_ <;> simp only [State.sampleTemp, State.allCols_fuses] <;> rfl

/-- A power-on reset that nothing from outside makes fail ends as fuses and flash have it. -/
theorem execPowerOnReset_none (s : State) : execPowerOnReset none s = .next (s.powerOn.sampleTemp.bringUp s.bootFails) := by
  rw [← s.bootFails_sampled]
  simp only [execPowerOnReset, firstFailure]
  rfl

end Sys2Proof.Machine
end

