-- ==== Sys2Proof/Laws/Encoding.lean ====
section
/-! SUPPORT. The fields of an encoded instruction are read back: packing and unpacking, codes and their values, and what
follows for the decoder from the codes of one instruction. -/

namespace Sys2Proof

open Sys2Proof.Machine

/-! ### Codes -/

theorem bit_lt (b : Bool) : bit b < 2 := by cases b <;> decide
theorem bit_false : bit false = 0 := rfl
theorem bit_true : bit true = 1 := rfl
theorem tyCode_n64 : tyCode .n64 = 4 := rfl
theorem tyCode_f32 : tyCode .f32 = 15 := rfl
theorem rmCode_rne : rmCode .rne = 0 := rfl
theorem tyCode_lt (t : Ty) : tyCode t < 31 := by cases t <;> decide
theorem rmCode_lt (r : RM) : rmCode r < 5 := by cases r <;> decide
theorem scopeCode_lt (x : Scope) : scopeCode x < 10 := by cases x <;> decide
theorem lsizeCode_lt (x : LSize) : lsizeCode x < 7 := by cases x <;> decide
theorem condCode_lt (x : Cond) : condCode x < 6 := by cases x <;> decide
theorem fcondCode_lt (x : FCond) : fcondCode x < 8 := by cases x <;> decide
theorem aopCode_lt (x : AOp) : aopCode x < 11 := by cases x <;> decide
theorem ropCode_lt (x : AOp) : ropCode x < 11 := by cases x <;> decide
theorem copCode_lt (x : COp) : copCode x < 6 := by cases x <;> decide
theorem semiCode_lt (x : Semi) : semiCode x < 5 := by cases x <;> decide
theorem shapeCode_lt (x : Shape) : shapeCode x < 4 := by cases x <;> decide
theorem tgtCode_lt (x : XTgt) : tgtCode x < 3 := by cases x <;> decide
theorem ordCode_lt (x : Ord) : ordCode x < 4 := by rcases x with ⟨⟨⟩, ⟨⟩⟩ <;> decide

theorem srListed_lt {n : Nat} (h : srListed n = true) : n < 4096 := by
  simp only [srListed, Bool.or_eq_true, Bool.and_eq_true, decide_eq_true_eq, beq_iff_eq] at h
  omega

theorem tyOf_code {n : Nat} {t : Ty} (h : n = tyCode t) : tyOf n = t := by subst h; cases t <;> rfl
theorem rmOf_code {n : Nat} {t : RM} (h : n = rmCode t) : rmOf n = t := by subst h; cases t <;> rfl
theorem scopeOf_code {n : Nat} {t : Scope} (h : n = scopeCode t) : scopeOf n = t := by subst h; cases t <;> rfl
theorem lsizeOf_code {n : Nat} {t : LSize} (h : n = lsizeCode t) : lsizeOf n = t := by subst h; cases t <;> rfl
theorem condOf_code {n : Nat} {t : Cond} (h : n = condCode t) : condOf n = t := by subst h; cases t <;> rfl
theorem fcondOf_code {n : Nat} {t : FCond} (h : n = fcondCode t) : fcondOf n = t := by subst h; cases t <;> rfl
theorem aopOf_code {n : Nat} {t : AOp} (h : n = aopCode t) : aopOf n = t := by subst h; cases t <;> rfl
theorem ropOf_code {n : Nat} {t : AOp} (h : n = ropCode t) (h1 : t ≠ .swap) (h2 : t ≠ .cas) : ropOf n = t := by
  subst h; cases t <;> first | rfl | contradiction
theorem copOf_code {n : Nat} {t : COp} (h : n = copCode t) : copOf n = t := by subst h; cases t <;> rfl
theorem semiOf_code {n : Nat} {t : Semi} (h : n = semiCode t) : semiOf n = t := by subst h; cases t <;> rfl
theorem shapeOf_code {n : Nat} {t : Shape} (h : n = shapeCode t) : shapeOf n = t := by subst h; cases t <;> rfl
theorem tgtOf_code {n : Nat} {t : XTgt} (h : n = tgtCode t) : tgtOf n = t := by subst h; cases t <;> rfl
theorem ordOf_code {n : Nat} {t : Ord} (h : n = ordCode t) : ordOf n = t := by subst h; rcases t with ⟨⟨⟩, ⟨⟩⟩ <;> rfl

theorem bitN_bit {x i : Nat} {b : Bool} (h : fld x i 1 = bit b) : bitN x i = b := by
  rw [bitN, h]; cases b <;> rfl

theorem fld_eq (x lo n : Nat) : fld x lo n = x / 2 ^ lo % 2 ^ n := by rw [fld, Nat.shiftRight_eq_div_pow]

/-- A signed offset comes back from its field (R183). -/
theorem sextN_offF {n : Nat} {z : Int} (hn : 0 < n) (h : offOk n z = true) {x : Nat} (hx : x % 2 ^ n = offF n z) : sextN n x = z := by
  obtain ⟨m, rfl⟩ : ∃ m, n = m + 1 := ⟨n - 1, by omega⟩
  have h2 : (2 : Nat) ^ (m + 1) = 2 * 2 ^ m := by rw [Nat.pow_succ]; omega
  simp only [offOk, Nat.add_sub_cancel, Bool.and_eq_true, decide_eq_true_eq] at h
  obtain ⟨ha, hb⟩ := h
  rw [h2] at hx
  simp only [sextN, h2, Nat.add_sub_cancel, hx, offF, truncN]
  have hp : 0 < 2 ^ m := Nat.two_pow_pos m
  generalize (2 : Nat) ^ m = P at *
  have e : z % ((2 * P : Nat) : Int) = if z < 0 then z + (2 * P : Nat) else z := by
    split
    · rw [← Int.add_emod_right]; exact Int.emod_eq_of_lt (by omega) (by omega)
    · exact Int.emod_eq_of_lt (by omega) (by omega)
  rw [e]
  split <;> split <;> omega

theorem offF_lt (n : Nat) (z : Int) : offF n z < 2 ^ n := by
  have h := Int.emod_lt_of_pos z (show (0 : Int) < ((2 ^ n : Nat) : Int) by exact_mod_cast Nat.two_pow_pos n)
  have h0 := Int.emod_nonneg z (show ((2 ^ n : Nat) : Int) ≠ 0 by exact_mod_cast (Nat.two_pow_pos n).ne')
  simp only [offF, truncN]
  omega

theorem eSlip_0 (e : SlipE) : eSlip 0 e = e.off + 2 ^ 20 * e.pos := rfl
theorem eSlip_1 (e : SlipE) : eSlip 1 e = e.off + 2 ^ 20 * e.pos := rfl
theorem eSlip_2 (e : SlipE) : eSlip 2 e = e.off + 2 ^ 20 * e.pos := rfl
theorem eSlip_3 (e : SlipE) : eSlip 3 e = e.off + 2 ^ 18 * bit e.isNew + 2 ^ 19 * bit e.isLast := rfl
theorem eSlipOk_0 (e : SlipE) : eSlipOk 0 e = (e.off < 2 ^ 20 && !e.isNew && !e.isLast && e.pos == 0) := rfl
theorem eSlipOk_1 (e : SlipE) : eSlipOk 1 e = (e.off < 2 ^ 20 && !e.isNew && !e.isLast && e.pos == 0) := rfl
theorem eSlipOk_2 (e : SlipE) : eSlipOk 2 e = (e.off < 2 ^ 20 && !e.isNew && !e.isLast && decide (e.pos < 128)) := rfl
theorem eSlipOk_3 (e : SlipE) : eSlipOk 3 e = (e.off < 2 ^ 18 && e.pos == 0) := rfl
theorem slipEOf_0 (e : Nat) : slipEOf 0 e = ⟨fld e 20 7, fld e 0 20, false, false⟩ := rfl
theorem slipEOf_1 (e : Nat) : slipEOf 1 e = ⟨fld e 20 7, fld e 0 20, false, false⟩ := rfl
theorem slipEOf_2 (e : Nat) : slipEOf 2 e = ⟨fld e 20 7, fld e 0 20, false, false⟩ := rfl
theorem slipEOf_3 (e : Nat) : slipEOf 3 e = ⟨0, fld e 0 18, bitN e 18, bitN e 19⟩ := rfl

/-- M of a load (R183): its parts come back. -/
theorem mLd_form (m : LdM) : ∃ q, mLd m = lsizeCode m.size + 8 * m.ch + 32 * m.span + 256 * q ∧ q < 20 ∧
    ∀ w, w / 256 % 32 = q → (if bitN w 8 then some (scopeOf (fld w 9 4)) else none) = m.acq := by
  obtain ⟨size, acq, ch, span, off⟩ := m
  cases acq with
  | none =>
    refine ⟨0, rfl, by omega, fun w h => ?_⟩
    rw [if_neg]
    rw [bitN_bit (b := false) (by simp only [fld_eq, bit_false]; omega)]; decide
  | some s =>
    have := scopeCode_lt s
    refine ⟨1 + 2 * scopeCode s, by simp only [mLd]; omega, by omega, fun w h => ?_⟩
    rw [if_pos (bitN_bit (b := true) (by simp only [fld_eq, bit_true]; omega))]
    exact congrArg some (scopeOf_code (by simp only [fld_eq]; omega))

/-! ### Packing -/

/-- The fields lie in their widths. -/
structure RawOk (form : Form) (r : Raw) : Prop where
  l : r.l < 2 ^ 2
  op : r.op < 2 ^ 8
  g : r.g < 2 ^ 6
  d : r.d < 2 ^ 10
  a : r.a < 2 ^ 10
  b : r.b < 2 ^ 10
  m : r.m < 2 ^ 13
  c : r.c < 2 ^ 10
  ib : r.ib < 2 ^ 8
  m2 : r.m2 < 2 ^ 12
  imm : r.imm < 2 ^ 64
  e : r.e < 2 ^ 32
  noC : formHasC form = false → r.c = 0 ∧ r.wc = false ∧ r.hc = false ∧ r.ib = 0 ∧ r.m2 = 0
  noImm : form ≠ .f96i → form ≠ .f128i → r.imm = 0
  imm32 : form = .f96i → r.imm < 2 ^ 32
  noE : form ≠ .f128e → r.e = 0

theorem Raw.ext {r s : Raw} (h0 : r.l = s.l) (h1 : r.op = s.op) (h2 : r.g = s.g) (h3 : r.gn = s.gn) (h4 : r.d = s.d)
    (h5 : r.a = s.a) (h6 : r.b = s.b) (h7 : r.wa = s.wa) (h8 : r.wb = s.wb) (h9 : r.ha = s.ha) (h10 : r.hb = s.hb)
    (h11 : r.m = s.m) (h12 : r.c = s.c) (h13 : r.wc = s.wc) (h14 : r.hc = s.hc) (h15 : r.ib = s.ib) (h16 : r.m2 = s.m2)
    (h17 : r.imm = s.imm) (h18 : r.e = s.e) : r = s := by
  cases r; cases s; simp_all

/-- The part of a word above bit 63. -/
def packHigh (form : Form) (r : Raw) : Nat :=
  match form with
  | .f64 => 0
  | .f96i => r.imm
  | .f128i => r.imm
  | .f96c => r.c + 2 ^ 10 * bit r.wc + 2 ^ 11 * bit r.hc + 2 ^ 12 * r.ib + 2 ^ 20 * r.m2
  | .f128e => r.c + 2 ^ 10 * bit r.wc + 2 ^ 11 * bit r.hc + 2 ^ 12 * r.ib + 2 ^ 20 * r.m2 + 2 ^ 32 * r.e

theorem packRaw_eq (form : Form) (r : Raw) : packRaw form r =
    r.l + 2 ^ 2 * r.op + 2 ^ 10 * r.g + 2 ^ 16 * bit r.gn + 2 ^ 17 * r.d + 2 ^ 27 * r.a + 2 ^ 37 * r.b + 2 ^ 47 * bit r.wa +
    2 ^ 48 * bit r.wb + 2 ^ 49 * bit r.ha + 2 ^ 50 * bit r.hb + 2 ^ 51 * r.m + 2 ^ 64 * packHigh form r := by
  cases form <;> rfl

theorem rawOf_packRaw {form : Form} {r : Raw} (h : RawOk form r) : rawOf form (packRaw form r) = r := by
  obtain ⟨hl, hop, hg, hd, ha, hb, hm, hc, hib, hm2, himm, he, hnoC, hnoI, hi32, hnoE⟩ := h
  have b1 := bit_lt r.gn; have b2 := bit_lt r.wa; have b3 := bit_lt r.wb; have b4 := bit_lt r.ha; have b5 := bit_lt r.hb
  have b6 := bit_lt r.wc; have b7 := bit_lt r.hc
  have e := packRaw_eq form r
  have el : ∀ lo n, fld (packRaw form r) lo n = packRaw form r / 2 ^ lo % 2 ^ n := fun lo n => fld_eq _ lo n
  have hC : formHasC form = true → packHigh form r % 2 ^ 32 = r.c + 2 ^ 10 * bit r.wc + 2 ^ 11 * bit r.hc + 2 ^ 12 * r.ib + 2 ^ 20 * r.m2 := by
    intro hf
    cases form <;> simp [formHasC] at hf <;> simp only [packHigh] <;> omega
  generalize packRaw form r = w at *
  have flag : ∀ {lo : Nat} {b : Bool}, w / 2 ^ lo % 2 ^ 1 = bit b → bitN w lo = b := fun h => bitN_bit ((el _ 1).trans h)
  apply Raw.ext <;> simp only [rawOf]
  case h3 | h7 | h8 | h9 | h10 => exact flag (by omega)
  iterate 7 (rw [el]; omega)
  · cases hf : formHasC form
    · simp [(hnoC hf).1]
    · rw [if_pos rfl, el]; have := hC hf; omega
  · cases hf : formHasC form
    · simp [(hnoC hf).2.1]
    · have := hC hf; exact flag (by omega)
  · cases hf : formHasC form
    · simp [(hnoC hf).2.2.1]
    · have := hC hf; exact flag (by omega)
  · cases hf : formHasC form
    · simp [(hnoC hf).2.2.2.1]
    · rw [if_pos rfl, el]; have := hC hf; omega
  · cases hf : formHasC form
    · simp [(hnoC hf).2.2.2.2]
    · rw [if_pos rfl, el]; have := hC hf; omega
  · cases form with
    | f64 => exact (hnoI (by simp) (by simp)).symm
    | f96c => exact (hnoI (by simp) (by simp)).symm
    | f128e => exact (hnoI (by simp) (by simp)).symm
    | f96i => have := hi32 rfl; simp only [packHigh] at e; simp only [el]; omega
    | f128i => simp only [packHigh] at e; simp only [el]; omega
  · cases form with
    | f128e => simp only [packHigh] at e; simp only [el]; omega
    | _ => exact (hnoE (by simp)).symm

/-! ### Operands -/

theorem specOf_lt {x : Opnd} (h : opndOk x = true) : specOf x < 2 ^ 10 := by
  cases x <;> simp [opndOk] at h <;> simp only [specOf] <;> try omega

theorem opndOf_specOf {x : Opnd} (h : opndOk x = true) (hn : x ≠ .none) : opndOf (specOf x) = some x := by
  cases x with
  | none => contradiction
  | imm b =>
    have hb := b.isLt
    simp (disch := omega) only [specOf, opndOf, if_neg, if_pos, Nat.add_sub_cancel_left]
    simp
  | v n =>
    have h : n < 256 := by simpa [opndOk] using h
    simp [specOf, opndOf, h]
  | _ n =>
    simp only [opndOk, decide_eq_true_eq] at h
    simp (disch := omega) only [specOf, opndOf, if_neg, if_pos, Nat.add_sub_cancel_left]

theorem clsOk_none {x : Opnd} (h : clsOk [] x = true) : x = .none := by
  cases x <;> first | rfl | (simp [clsOk, opndCls] at h; done) | (rename_i n; by_cases e : n = 0 <;> simp [clsOk, opndCls, e] at h)

theorem clsOk_ne {l : List OC} {x : Opnd} (h : clsOk l x = true) (hl : l ≠ []) : x ≠ .none := by
  rintro rfl; simp [clsOk, opndCls] at h; exact hl h

/-- An operand of an allowed class comes back from its specifier. -/
theorem fieldOpnd_specOf {l : List OC} {x : Opnd} (h : opndOk x = true) (hc : clsOk l x = true) : fieldOpnd l (specOf x) = x := by
  unfold fieldOpnd
  cases l with
  | nil => simpa using (clsOk_none hc).symm
  | cons c r => simp [opndOf_specOf h (clsOk_ne hc (by simp))]

theorem specCls_specOf {x : Opnd} (h : opndOk x = true) (hn : x ≠ .none) : specCls (specOf x) = opndCls x := by
  simp [specCls, opndOf_specOf h hn]

/-! ### From the tables of one instruction to the decoder -/

/-- What fits of an instruction's tables: the codes lie in their widths, and the format has room for what is used. -/
structure InfoOk (f : Info) : Prop where
  op : f.op < 2 ^ 8
  m : f.m < 2 ^ 13
  m2 : f.m2 < 2 ^ 12
  imm : f.imm < 2 ^ 64
  e : f.e < 2 ^ 32
  noC : formHasC f.form = false → f.c = [] ∧ f.m2 = 0
  noImm : f.form ≠ .f96i → f.form ≠ .f128i → f.imm = 0
  imm32 : f.form = .f96i → f.imm < 2 ^ 32
  noE : f.form ≠ .f128e → f.e = 0

/-- The conditions of fieldErrors, one by one. -/
structure FieldsOk (f : Info) : Prop where
  guard : guardOk f.o.g = true
  nd : opndOk f.o.d = true
  na : opndOk f.o.a.op = true
  nb : opndOk f.o.b.op = true
  nc : opndOk f.o.c.op = true
  cd : clsOk f.d f.o.d = true
  ca : clsOk f.a f.o.a.op = true
  cb : clsOk f.b f.o.b.op = true
  cc : clsOk f.c f.o.c.op = true
  indexed : formHasC f.form = true ∨ (isVx f.o.d || isVx f.o.a.op || isVx f.o.b.op || isVx f.o.c.op) = false
  wa : whOk f.o.a = true
  wb : whOk f.o.b = true
  wc : whOk f.o.c = true
  ok : f.ok = true
  ib : f.o.ib < 256
  ib0 : f.o.ib = 0 ∨ (isVx f.o.d || isVx f.o.a.op || isVx f.o.b.op || isVx f.o.c.op) = true
  sameQ : f.op = 1 ∨ (sameEq f.o.a.op f.o.b.op || sameEq f.o.a.op f.o.c.op || sameEq f.o.b.op f.o.c.op) = false
  ll : (f.ll && (opndCls f.o.d == some .t || opndCls f.o.d == some .x || opndCls f.o.d == some .k0)) = false
  pdst : (f.pdst && opndCls f.o.d == some .p) = false
  trailer : f.op = 1 → f.o.g.p = none ∧ f.o.a.w = false ∧ f.o.a.h = false ∧ f.o.b.w = false ∧ f.o.b.h = false

theorem ite_nil {b : Bool} {x : WfError} (h : (if b = true then ([] : List WfError) else [x]) = []) : b = true := by
  cases b <;> simp_all

theorem ite_nil' {b : Bool} {x : WfError} (h : (if b = true then [x] else ([] : List WfError)) = []) : b = false := by
  cases b <;> simp_all

theorem fieldsOk_of {f : Info} (h : fieldErrors f = []) : FieldsOk f := by
  simp only [fieldErrors, List.append_eq_nil_iff] at h
  obtain ⟨⟨⟨⟨⟨⟨⟨⟨⟨⟨h1, h2⟩, h3⟩, h4⟩, h5⟩, h6⟩, h7⟩, h8⟩, h9⟩, h10⟩, h11⟩ := h
  replace h1 := ite_nil h1
  replace h2 := ite_nil h2
  replace h3 := ite_nil h3
  replace h4 := ite_nil h4
  replace h5 := ite_nil h5
  replace h6 := ite_nil h6
  replace h8 := ite_nil' h8
  replace h9 := ite_nil' h9
  replace h10 := ite_nil' h10
  replace h11 := ite_nil' h11
  have h7' : (decide (f.o.ib < 256) && (f.o.ib == 0 || isVx f.o.d || isVx f.o.a.op || isVx f.o.b.op || isVx f.o.c.op)) = true := by
    by_contra hc
    rw [Bool.not_eq_true] at hc
    simp [hc] at h7
  simp only [Bool.and_eq_true] at h2 h3 h5
  constructor
  case guard => exact h1
  case nd => exact h2.1.1.1
  case na => exact h2.1.1.2
  case nb => exact h2.1.2
  case nc => exact h2.2
  case cd => exact h3.1.1.1
  case ca => exact h3.1.1.2
  case cb => exact h3.1.2
  case cc => exact h3.2
  case indexed => simpa using h4
  case wa => exact h5.1.1
  case wb => exact h5.1.2
  case wc => exact h5.2
  case ok => exact h6
  case ib => exact of_decide_eq_true (Bool.and_eq_true_iff.mp h7').1
  case ib0 =>
    have h := (Bool.and_eq_true_iff.mp h7').2
    by_cases e : f.o.ib = 0
    · exact .inl e
    · exact .inr (by simpa [e] using h)
  case sameQ => simpa only [Bool.and_eq_false_iff, bne_eq_false_iff_eq] using h8
  case ll => exact h9
  case pdst => exact h10
  case trailer => intro h; simp [h] at h11; exact ⟨h11.1.1.1.1, h11.1.1.1.2, h11.1.1.2, h11.1.2, h11.2⟩

theorem noVx_ib {f : Info} (h : FieldsOk f) (hf : formHasC f.form = false) : f.o.ib = 0 := by
  rcases h.ib0 with h0 | h0
  · exact h0
  · rcases h.indexed with h1 | h1
    · simp [hf] at h1
    · simp [h0] at h1

theorem noC_c {f : Info} (h : FieldsOk f) (hi : InfoOk f) (hf : formHasC f.form = false) :
    f.o.c.op = .none ∧ f.o.c.w = false ∧ f.o.c.h = false := by
  have h1 : f.o.c.op = .none := clsOk_none (by have := h.cc; rwa [(hi.noC hf).1] at this)
  have h2 := h.wc
  simp only [whOk, h1, opndCls, waitCls, hintCls] at h2
  refine ⟨h1, ?_, ?_⟩
  · cases hw : f.o.c.w <;> simp [hw] at h2 ⊢
  · cases hw : f.o.c.h <;> simp [hw] at h2 ⊢

/-- The fields of a well-formed instruction lie in their widths. -/
theorem rawOk_of {f : Info} (hi : InfoOk f) (h : FieldsOk f) : RawOk f.form (rawOfInfo f) := by
  have hg : f.o.g.p.getD 48 < 2 ^ 6 := by
    have := h.guard
    cases hp : f.o.g.p with
    | none => decide
    | some n => simp [guardOk, hp] at this; simp only [Option.getD_some]; omega
  have hl : formL f.form < 2 ^ 2 := by cases f.form <;> decide
  constructor <;> simp only [rawOfInfo]
  · exact hl
  · exact hi.op
  · exact hg
  · exact specOf_lt h.nd
  · exact specOf_lt h.na
  · exact specOf_lt h.nb
  · exact hi.m
  · split
    · exact specOf_lt h.nc
    · omega
  · have := h.ib; split <;> omega
  · have := hi.m2; split <;> omega
  · exact hi.imm
  · exact hi.e
  · intro hf; simp [hf]
  · exact hi.noImm
  · exact hi.imm32
  · exact hi.noE

/-- The operands come back from the fields. -/
theorem opsOfRaw_of {f f0 : Info} (hi : InfoOk f) (h : FieldsOk f) (hd : f0.d = f.d) (ha : f0.a = f.a) (hb : f0.b = f.b)
    (hc : f0.c = f.c) : opsOfRaw f0 (rawOfInfo f) = f.o := by
  have hg : (⟨if f.o.g.p.getD 48 < 48 then some (f.o.g.p.getD 48) else none, f.o.g.neg⟩ : Guard) = f.o.g := by
    have := h.guard
    cases hp : f.o.g.p with
    | none => simp only [Option.getD_none]; rw [if_neg (by decide)]; rw [← hp]
    | some n =>
      simp only [guardOk, hp, decide_eq_true_eq] at this
      simp only [Option.getD_some]; rw [if_pos this, ← hp]
  have e3 : fieldOpnd f.c (if formHasC f.form then specOf f.o.c.op else 0) = f.o.c.op := by
    cases hf : formHasC f.form
    · rw [(hi.noC hf).1, (noC_c h hi hf).1]; rfl
    · exact fieldOpnd_specOf h.nc h.cc
  have e4 : (formHasC f.form && f.o.c.w) = f.o.c.w ∧ (formHasC f.form && f.o.c.h) = f.o.c.h := by
    cases hf : formHasC f.form
    · simp [(noC_c h hi hf).2]
    · simp
  have e5 : (if formHasC f.form then f.o.ib else 0) = f.o.ib := by
    cases hf : formHasC f.form
    · simp [noVx_ib h hf]
    · simp
  simp only [opsOfRaw, rawOfInfo, hd, ha, hb, hc, hg, fieldOpnd_specOf h.nd h.cd, fieldOpnd_specOf h.na h.ca,
    fieldOpnd_specOf h.nb h.cb, e3, e4.1, e4.2, e5]

theorem specCls_zero : specCls 0 = some .v := rfl

/-- A field gives no reason to refuse. -/
theorem fieldReasons_nil {l : List OC} {x : Opnd} {hasC dst w h : Bool} (ho : opndOk x = true) (hc : clsOk l x = true)
    (hv : hasC = true ∨ isVx x = false) (hw : whOk ⟨x, w, h⟩ = true) (hd : dst = false ∨ opndCls x ≠ some .imm ) :
    fieldReasons l hasC dst (specOf x) w h = [] := by
  simp only [whOk, Bool.and_eq_true, Bool.or_eq_true, Bool.not_eq_true'] at hw
  obtain ⟨hw1, hw2⟩ := hw
  cases l with
  | nil =>
    have hx := clsOk_none hc
    subst hx
    have e1 : w = false := by simpa [opndCls, waitCls] using hw1
    have e2 : h = false := by simpa [opndCls, hintCls] using hw2
    subst e1; subst e2
    simp [fieldReasons, specOf, specCls_zero]
  | cons c r =>
    have hn := clsOk_ne hc (by simp)
    have hs := specCls_specOf ho hn
    obtain ⟨k, hk⟩ : ∃ k, opndCls x = some k := by
      cases x <;> simp [opndCls] at hn ⊢
      split <;> simp
    simp only [fieldReasons, hs, hk]
    rw [hk] at hw1 hw2 hd
    have hcl : (c :: r).contains k = true := by simpa [clsOk, hk] using hc
    have h1 : (some k == some OC.vx && !hasC) = false := by
      rcases hv with hv | hv
      · simp [hv]
      · cases x <;> simp [isVx, opndCls] at hv hk <;> first | (subst hk; rfl) | (split at hk <;> (cases hk; rfl))
    have h2 : ((w && !waitCls (some k)) || (h && !hintCls (some k))) = false := by
      rcases hw1 with e | e <;> rcases hw2 with e' | e' <;> simp [e, e']
    have h3 : (dst && some k == some OC.imm) = false := by
      rcases hd with e | e
      · simp [e]
      · have : (some k == some OC.imm) = false := by simpa using e
        simp [this]
    simp only [show (some k == (none : Option OC)) = false from rfl, h1, h2, h3, hcl, Bool.false_eq_true, if_false, Bool.true_or,
      if_true, List.isEmpty_cons, List.append_nil]

theorem opndCls_eq {x : Opnd} (h : opndCls x = some .eq) : ∃ n, x = .eq n := by
  cases x <;> simp [opndCls] at h ⊢
  split at h <;> simp at h

theorem opndCls_imm {x : Opnd} (h : opndCls x = some .imm) : ∃ n, x = .imm n := by
  cases x <;> simp [opndCls] at h ⊢
  split at h <;> simp at h

theorem specCls_spec {x : Opnd} (h : opndOk x = true) {c : OC} (hc : c ≠ .v) (hs : specCls (specOf x) = some c) : opndCls x = some c := by
  by_cases hn : x = .none
  · subst hn; simp [specOf, specCls_zero] at hs; exact absurd hs.symm hc
  · rwa [specCls_specOf h hn] at hs

theorem specCls_vx {x : Opnd} (h : opndOk x = true) : (specCls (specOf x) == some OC.vx) = isVx x := by
  by_cases hn : x = .none
  · subst hn; rfl
  · rw [specCls_specOf h hn]
    cases x <;> first | rfl | (simp only [opndCls]; split <;> rfl)

/-- Two queue registers named by one number are the same operand. -/
theorem sameQ_spec {x y : Opnd} (hx : opndOk x = true) (hy : opndOk y = true) (h : sameEq x y = false) :
    (specCls (specOf x) == some OC.eq && specOf x == specOf y) = false := by
  by_contra hc
  rw [Bool.not_eq_false, Bool.and_eq_true, beq_iff_eq, beq_iff_eq] at hc
  obtain ⟨n, rfl⟩ := opndCls_eq (specCls_spec hx (by decide) hc.1)
  have hy' : opndCls y = some .eq := specCls_spec hy (by decide) (by rw [← hc.2]; exact hc.1)
  obtain ⟨m, rfl⟩ := opndCls_eq hy'
  simp [specOf, sameEq] at h hc
  exact h (by omega)

/-- A well-formed instruction's fields give no reason to refuse (R53). -/
theorem bodyReasons_nil {f : Info} (hi : InfoOk f) (h : FieldsOk f) (hdst : OC.imm ∉ f.d) : bodyReasons f (rawOfInfo f) = [] := by
  have hv : formHasC f.form = true ∨ (isVx f.o.d = false ∧ isVx f.o.a.op = false ∧ isVx f.o.b.op = false ∧ isVx f.o.c.op = false) := by
    rcases h.indexed with e | e
    · exact .inl e
    · exact .inr (by simpa [Bool.or_eq_false_iff, and_assoc] using e)
  have hdi : opndCls f.o.d ≠ some .imm := by
    intro e
    have := h.cd
    simp only [clsOk, e] at this
    exact hdst (by simpa using this)
  have hg : (if 48 < f.o.g.p.getD 48 || (f.o.g.p.getD 48 == 48 && f.o.g.neg) then [0x06] else ([] : List Nat)) = [] := by
    have := h.guard
    cases hp : f.o.g.p with
    | none => simp [guardOk, hp] at this; simp [this]
    | some n => simp [guardOk, hp] at this; simp; omega
  have r1 := fieldReasons_nil (dst := true) (w := false) (h := false) h.nd h.cd (hv.imp_right (·.1)) (by simp [whOk]) (.inr hdi)
  have r2 := fieldReasons_nil (dst := false) h.na h.ca (hv.imp_right (·.2.1)) h.wa (.inl rfl)
  have r3 := fieldReasons_nil (dst := false) h.nb h.cb (hv.imp_right (·.2.2.1)) h.wb (.inl rfl)
  have r4 := fieldReasons_nil (dst := false) h.nc h.cc (hv.imp_right (·.2.2.2)) h.wc (.inl rfl)
  have sq : f.op = 1 ∨ ((specCls (specOf f.o.a.op) == some .eq && specOf f.o.a.op == specOf f.o.b.op) = false ∧
      (specCls (specOf f.o.a.op) == some .eq && specOf f.o.a.op == specOf f.o.c.op) = false ∧
      (specCls (specOf f.o.b.op) == some .eq && specOf f.o.b.op == specOf f.o.c.op) = false) := by
    refine h.sameQ.imp_right (fun q => ?_)
    simp only [Bool.or_eq_false_iff] at q
    exact ⟨sameQ_spec h.na h.nb q.1.1, sameQ_spec h.na h.nc q.1.2, sameQ_spec h.nb h.nc q.2⟩
  have q : ∀ hasC : Bool, (f.op != 1 && ((specCls (specOf f.o.a.op) == some .eq && specOf f.o.a.op == specOf f.o.b.op) ||
      (hasC && ((specCls (specOf f.o.a.op) == some .eq && specOf f.o.a.op == specOf f.o.c.op) ||
        (specCls (specOf f.o.b.op) == some .eq && specOf f.o.b.op == specOf f.o.c.op))))) = false := by
    intro hasC
    rcases sq with e | ⟨a, b, c⟩
    · simp [e]
    · rw [a, b, c]; simp
  have at0 : ∀ hasC : Bool, (f.op == 0xA0 && f.c.isEmpty && (if hasC = true then specOf f.o.c.op else 0) != 0) = false := by
    intro hasC
    cases hc : f.c with
    | nil =>
      have := clsOk_none (hc ▸ h.cc)
      cases hasC <;> simp [this, specOf]
    | cons a r => simp
  have p1 : (f.pdst && specCls (specOf f.o.d) == some .p) = false := by
    by_contra hc
    rw [Bool.not_eq_false, Bool.and_eq_true, beq_iff_eq] at hc
    have := h.pdst
    simp [hc.1, specCls_spec h.nd (by decide) hc.2] at this
  have p2 : (f.ll && (specCls (specOf f.o.d) == some .t || specCls (specOf f.o.d) == some .x || specCls (specOf f.o.d) == some .k0)) = false := by
    by_contra hc
    rw [Bool.not_eq_false, Bool.and_eq_true, Bool.or_eq_true, Bool.or_eq_true, beq_iff_eq, beq_iff_eq, beq_iff_eq] at hc
    have := h.ll
    rcases hc.2 with (e | e) | e <;> simp [hc.1, specCls_spec h.nd (by decide) e] at this
  have v0 := h.ib0
  cases hf : formHasC f.form
  · have hib := noVx_ib h hf
    have hm2 := (hi.noC hf).2
    have q := q false
    have at0 := at0 false
    simp only [Bool.false_and, Bool.or_false, Bool.false_eq_true, if_false] at q at0
    simp only [bodyReasons, rawOfInfo, hf, hg, q, at0, p1, p2, h.ok, hm2, Bool.false_and, Bool.or_false, List.append_nil,
      hf ▸ r1, hf ▸ r2, hf ▸ r3, Bool.false_eq_true, if_false]
    simp
  · have hib : (f.o.ib != 0 && !(specCls (specOf f.o.d) == some .vx || specCls (specOf f.o.a.op) == some .vx || specCls (specOf f.o.b.op) == some .vx ||
        (true && specCls (specOf f.o.c.op) == some .vx))) = false := by
      simp only [specCls_vx h.nd, specCls_vx h.na, specCls_vx h.nb, specCls_vx h.nc, Bool.true_and]
      rcases v0 with e | e
      · simp [e]
      · simp [e]
    simp only [Bool.true_and] at hib
    rw [hf] at r1 r2 r3 r4
    have q := q true
    have at0 := at0 true
    simp only [Bool.true_and, if_true] at q at0
    simp only [bodyReasons, rawOfInfo, hf, hg, r1, r2, r3, r4, q, at0, p1, p2, h.ok, hib, Bool.true_and, if_true,
      List.append_nil]
    simp

theorem leastReason_nil : leastReason [] = none := rfl

theorem fld_packRaw {form : Form} {r : Raw} (h : RawOk form r) : fld (packRaw form r) 0 2 = r.l ∧ fld (packRaw form r) 2 8 = r.op := by
  have := rawOf_packRaw h
  exact ⟨congrArg Raw.l this, congrArg Raw.op this⟩

/-- Decoding gives back an instruction whose modifiers come back from their fields: `g` holds the tables of the instruction `K`
for any operands. -/
theorem decode_of {K : Ops → Instr} {g : Info} (hinfo : ∀ o, info (K o) = some { g with o := o })
    (hcand : g.ok = true → ∀ o o', candidate g.form (rawOfInfo { g with o := o }) o' = some (K o'))
    (hform : (opForms g.op).find? (fun f => formL f == formL g.form) = some g.form) (hdst : OC.imm ∉ g.d)
    (htr : ∀ o, isTrailer (K o) = true → g.op = 1) (hi : g.ok = true → InfoOk g) {o : Ops} (hw : WellFormed (K o)) {w : Nat}
    (he : encode (K o) = some w) : decode w = .ok (K o) := by
  simp only [encode, hinfo, Option.map_some, Option.some.injEq] at he
  subst he
  have hf : FieldsOk { g with o := o } := fieldsOk_of (by simpa only [WellFormed, wfErrors, hinfo] using hw)
  obtain ⟨a1, a2, a3, a4, a5, a6, a7, a8, a9⟩ := hi hf.ok
  have hi' : InfoOk { g with o := o } := ⟨a1, a2, a3, a4, a5, a6, a7, a8, a9⟩
  have hr := rawOk_of hi' hf
  have hl : formL g.form ≠ 3 := by cases g.form <;> decide
  have hh : decodeHead (packRaw g.form (rawOfInfo { g with o := o })) = .ok (g.op, g.form) := by
    have h2 := fld_packRaw hr
    simp only [decodeHead]
    rw [h2.1, h2.2]
    simp only [rawOfInfo]
    rw [if_neg hl]
    generalize opForms g.op = fs at hform ⊢
    cases fs with
    | nil => simp at hform
    | cons a r => simp only [hform]
  have hb := bodyReasons_nil hi' hf hdst
  have ho : opsOfRaw { g with o := ⟨⟨none, false⟩, .none, ⟨.none, false, false⟩, ⟨.none, false, false⟩, ⟨.none, false, false⟩, 0⟩ }
      (rawOfInfo { g with o := o }) = o := opsOfRaw_of hi' hf rfl rfl rfl rfl
  have ht : (isTrailer (K o) && trailerExtra (rawOfInfo { g with o := o })) = false := by
    cases h1 : isTrailer (K o)
    · rfl
    · obtain ⟨b1, b2, b3, b4, b5⟩ := hf.trailer (htr o h1)
      have hg := hf.guard
      simp only at b1 b2 b3 b4 b5 hg
      simp [guardOk, b1] at hg
      simp [trailerExtra, rawOfInfo, b1, b2, b3, b4, b5, hg]
  simp only [decode, hh, decodeBody, rawOf_packRaw hr, decodeRaw, hcand hf.ok, hinfo, ho, hb, leastReason_nil, ht]

end Sys2Proof
end

