-- ==== Sys2Proof/Laws/MemQuiesce.lean ====
section
/-! SUPPORT. Memory keeps its canonical form: the definitions of Machine/Quiesce.lean. -/

set_option linter.all false

namespace Sys2Proof.Machine

@[simp] theorem execQuiesceStop_keeps (cause : QCause) (s : State) (hm : Memory.wf s.mem = true) : Keeps (execQuiesceStop cause s) := by
  unfold execQuiesceStop
  repeat' first
    | assumption
    | (simp [*]; done)
    | split
    | refine foldl_wf _ (fun s x hs => ?_) _ ?_ _
    | dsimp only
    | simp [*]

@[simp] theorem State.giveZero_mem (s : State) (f : Flight) : (State.giveZero s f).mem = s.mem := by
  simp [State.giveZero]

@[simp] theorem State.settleWrite_wf (s : State) (f : Flight) (hm : Memory.wf s.mem = true) : Memory.wf (State.settleWrite s f).mem = true := by
  unfold State.settleWrite
  repeat' first
    | assumption
    | (simp [*]; done)
    | split
    | refine foldl_wf _ (fun s x hs => ?_) _ ?_ _
    | dsimp only
    | simp [*]

@[simp] theorem State.settleFlight_wf (s : State) (f : Flight) (hm : Memory.wf s.mem = true) : Memory.wf (State.settleFlight s f).mem = true := by
  unfold State.settleFlight
  repeat' first
    | assumption
    | (simp [*]; done)
    | split
    | refine foldl_wf _ (fun s x hs => ?_) _ ?_ _
    | dsimp only
    | simp [*]

@[simp] theorem State.quiesceSlip_mem (s : State) (core : Nat) (c : SlipCmd) : (State.quiesceSlip s core c).mem = s.mem := by
  unfold State.quiesceSlip
  repeat' first
    | rfl
    | (simp [apply_ite State.mem, apply_ite Run.s]; done)
    | split
    | refine (foldl_mem _ (fun s x => ?_) _ _).trans ?_
    | refine (foldl_run_mem _ (fun s x => ?_) _ _).trans ?_
    | dsimp only
    | simp

@[simp] theorem State.quiesceWheel_mem (s : State) (core : Nat) (w : WCmd) : (State.quiesceWheel s core w).mem = s.mem := by
  unfold State.quiesceWheel
  repeat' first
    | rfl
    | (simp [apply_ite State.mem, apply_ite Run.s]; done)
    | split
    | refine (foldl_mem _ (fun s x => ?_) _ _).trans ?_
    | refine (foldl_run_mem _ (fun s x => ?_) _ _).trans ?_
    | dsimp only
    | simp

@[simp] theorem State.quiesceCil_mem (s : State) (core : Nat) (w : CilCmd) : (State.quiesceCil s core w).mem = s.mem := by
  simp [State.quiesceCil]

@[simp] theorem State.quiesceCore_mem (s : State) (core : Nat) : (s.quiesceCore core).mem = s.mem := by
  unfold State.quiesceCore
  extract_lets s1 s2 s3 s4
  rw [State.serveHalves_mem, State.modCore_mem]
  simp only [s4]; rw [foldl_mem _ (fun s w => State.quiesceCil_mem s core w)]
  simp only [s3]; rw [State.modCore_mem]
  simp only [s2]; rw [foldl_mem _ (fun s w => State.quiesceSlip_mem s core w)]
  simp only [s1]; rw [foldl_mem _ (fun s w => State.quiesceWheel_mem s core w)]

@[simp] theorem State.closeReds_mem (s : State) (g n : Nat) : (s.closeReds g n).mem = s.mem := by
  induction n generalizing s with
  | zero => rfl
  | succ n ih =>
    unfold State.closeReds
    split
    · rfl
    · rw [ih, State.completeRed_mem]

@[simp] theorem State.closeEpisodes_mem (s : State) (g n : Nat) : (s.closeEpisodes g n).mem = s.mem := by
  induction n generalizing s with
  | zero => rfl
  | succ n ih =>
    unfold State.closeEpisodes
    split
    · rw [ih, State.modGroup_mem]
    · rfl

@[simp] theorem State.closeGroup_mem (s : State) (g : Nat) : (s.closeGroup g).mem = s.mem := by
  simp [State.closeGroup]

@[simp] theorem State.settleAll_wf (s : State) (hm : Memory.wf s.mem = true) : Memory.wf s.settleAll.mem = true := by
  unfold State.settleAll
  extract_lets s0 onWay episode s1 s2 s3 s4 s5
  have h0 : Memory.wf s0.mem = true := by simp only [s0]; rw [foldl_mem _ (fun s g => State.closeGroup_mem s g)]; exact hm
  rw [foldl_mem _ (fun s p => State.releaseBars_mem s _)]
  simp only [s5]; rw [foldl_mem _ (fun s p => State.quiesceCore_mem s _)]
  exact foldl_wf _ (fun s f hs => State.settleFlight_wf s f hs) _ h0 _

@[simp] theorem execQuiesceDrain_keeps (s : State) (hm : Memory.wf s.mem = true) : Keeps (execQuiesceDrain s) := by
  unfold execQuiesceDrain
  repeat' first
    | assumption
    | (simp [*]; done)
    | split
    | refine foldl_wf _ (fun s x hs => ?_) _ ?_ _
    | dsimp only
    | simp [*]

@[simp] theorem State.finishWrite_wf (s : State) (wid : Nat) (hm : Memory.wf s.mem = true) : Memory.wf (s.finishWrite wid).mem = true := by
  unfold State.finishWrite
  refine foldl_wf _ (fun s p hs => ?_) _ hm _
  split
  · exact foldl_wf _ (fun s x h => State.applyInval_wf s p.1 x h) _ hs _
  · exact hs

theorem State.applyStamped_wf (g n : Nat) (s : State) (hm : Memory.wf s.mem = true) : Memory.wf (s.applyStamped g n).mem = true := by
  induction n generalizing s with
  | zero => exact hm
  | succ n ih =>
    unfold State.applyStamped
    split
    · exact hm
    · split
      · exact ih _ (by rw [State.setApplied_mem]; exact State.finishWrite_wf _ _ hm)
      · exact ih _ (by rw [State.setApplied_mem]; exact State.finishWrite_wf _ _ (by simp [hm]))
      · simpa using hm

@[simp] theorem State.allApplied_mem (s : State) (g : Nat) : (State.allApplied s g).mem = s.mem := by
  simp [State.allApplied]

theorem State.reconfigure_wf (s : State) (lost : List Nat) (g : Nat) (hm : Memory.wf s.mem = true) : Memory.wf (s.reconfigure lost g).mem = true := by
  unfold State.reconfigure
  extract_lets s1
  have h1 : Memory.wf s1.mem = true := by simpa [s1] using hm
  split
  · rw [State.allApplied_mem]; exact State.applyStamped_wf _ _ _ h1
  · exact h1

@[simp] theorem execQuiesceReconfigure_keeps (lost : List Nat) (s : State) (hm : Memory.wf s.mem = true) : Keeps (execQuiesceReconfigure lost s) := by
  unfold execQuiesceReconfigure
  split
  · exact (keeps_next _).2 hm
  · exact (keeps_next _).2 (foldl_wf _ (fun s g hs => State.reconfigure_wf s lost g hs) _ hm _)

@[simp] theorem State.pendQuiesce_mem (s : State) (t c : Nat) : (State.pendQuiesce s t c).mem = s.mem := by
  simp [State.pendQuiesce]

@[simp] theorem State.quiesceCourse_mem (s : State) (t c : Nat) : (State.quiesceCourse s t c).mem = s.mem := by
  unfold State.quiesceCourse
  repeat' first
    | rfl
    | (simp [apply_ite State.mem, apply_ite Run.s]; done)
    | split
    | refine (foldl_mem _ (fun s x => ?_) _ _).trans ?_
    | refine (foldl_run_mem _ (fun s x => ?_) _ _).trans ?_
    | dsimp only
    | simp

@[simp] theorem State.quiesceTeam_mem (s : State) (t : Nat) : (State.quiesceTeam s t).mem = s.mem := by
  simp [State.quiesceTeam]

@[simp] theorem State.quiesceSaved_mem (s : State) (n : PoolNode) : (State.quiesceSaved s n).mem = s.mem := by
  unfold State.quiesceSaved
  repeat' first
    | rfl
    | (simp [apply_ite State.mem, apply_ite Run.s]; done)
    | split
    | refine (foldl_mem _ (fun s x => ?_) _ _).trans ?_
    | refine (foldl_run_mem _ (fun s x => ?_) _ _).trans ?_
    | dsimp only
    | simp

@[simp] theorem execQuiesceResume_keeps (s : State) (hm : Memory.wf s.mem = true) : Keeps (execQuiesceResume s) := by
  unfold execQuiesceResume
  repeat' first
    | assumption
    | (simp [*]; done)
    | split
    | refine foldl_wf _ (fun s x hs => ?_) _ ?_ _
    | dsimp only
    | simp [*]

end Sys2Proof.Machine
end

