-- ==== Sys2Proof/Laws/MemIssue.lean ====
section
/-! SUPPORT. Memory keeps its canonical form: the issue cycle of a sequencer leaves memory as it is. -/

set_option linter.all false

namespace Sys2Proof.Machine

theorem State.parkFetch_mem (s : State) (t c page : Nat) (h : Cohort) : (s.parkFetch t c page h).mem = s.mem := by
  unfold State.parkFetch
  dsimp only
  rw [State.modCourse_mem, State.startWalk_mem]

theorem State.refuseFetch_mem (s : State) (t c : Nat) : (s.refuseFetch t c).mem = s.mem := by
  unfold State.refuseFetch
  dsimp only
  rw [State.modCourse_mem, State.dropAsid_mem]

@[simp] theorem State.endFetch_mem (s : State) (t c : Nat) : (State.endFetch s t c).mem = s.mem := by
  unfold State.endFetch
  repeat' first
    | rfl
    | (simp [apply_ite State.mem, apply_ite Run.s]; done)
    | split
    | refine (foldl_mem _ (fun s x => ?_) _ _).trans ?_
    | refine (foldl_run_mem _ (fun s x => ?_) _ _).trans ?_
    | dsimp only
    | simp

@[simp] theorem State.stillToEnter_mem (s : State) (t c : Nat) (h : Cohort) (f : FltRec) : (s.stillToEnter t c h f).mem = s.mem := by
  unfold State.stillToEnter
  split
  · rfl
  · exact foldl_mem _ (fun s l => State.modLane_mem _ _ _ _ _) _ _

theorem State.standAt_mem (s : State) (t c : Nat) (pc succ : Word) (succIn : Bool) (link : Word) :
    (s.standAt t c pc succ succIn link).mem = s.mem := by
  unfold State.standAt
  exact State.modCourse_mem _ _ _ _

/-- The state an issue cycle leads to. -/
def IssueOut.state : IssueOut → State
  | .run _ s => s
  | .done s => s

theorem State.issueFor_mem (s : State) (core q t c : Nat) : (s.issueFor core q t c).state.mem = s.mem := by
  unfold State.issueFor
  extract_lets s1 fresh s2 s3
  have h3 : s3.mem = s.mem := by
    have h1 : s1.mem = s.mem := State.takeTurn_mem _ _ _ _
    have h2 : s2.mem = s.mem := by simp only [s2]; rw [State.setRunning_mem, h1]
    simp only [s3]
    split
    · rw [State.beginBatch_mem, h2]
    · exact h2
  split
  · exact h3
  · split <;> simp only [IssueOut.state]
    · rw [State.parkFetch_mem, h3]
    · rw [State.refuseFetch_mem, h3]
    · rw [State.stillToEnter_mem, State.deliver_mem, State.endFetch_mem, h3]
    · rw [State.standAt_mem, h3]

theorem State.issueAt_mem (s : State) (core q : Nat) : (s.issueAt core q).state.mem = s.mem := by
  unfold State.issueAt
  split
  · rfl
  · exact State.issueFor_mem _ _ _ _ _

end Sys2Proof.Machine
end

