-- ==== Sys2Proof/Laws/PerInstr.lean ====
section
/-! SUPPORT. Per instruction: decoding gives back what encoding wrote. -/

set_option linter.all false

namespace Sys2Proof.Laws.RoundTrip

open Sys2Proof.Machine

/-- A well-formed instruction is decoded from its word. -/
def Statement (i : Instr) : Prop := ∀ w, WellFormed i → encode i = some w → decode w = .ok i

theorem nop (o : Ops) : Statement (.nop o) := by
  intro w hw he
  refine decode_of (K := fun o => .nop o) (g := { op := 0x00, form := .f64, o := o }) (fun _ => rfl) (fun hok o o' => ?_) rfl (by simp [cDst, cVK, cVKT, cVX, cVXK, cVKn]) (fun _ h => by simp [isTrailer] at h) (fun hok => ?_) hw he
  · skip
    show some (Instr.nop o' ) = _
    rfl
  · skip
    constructor <;> simp [formHasC] <;> omega

theorem btl (o : Ops) (count : Nat) (yld : Bool) : Statement (.btl o count yld) := by
  intro w hw he
  refine decode_of (K := fun o => .btl o count yld) (g := { op := 0x01, form := .f64, o := o, d := [.v, .k0, .kn, .p, .eq], a := [.v, .k0, .kn, .p, .eq], b := [.v, .k0, .kn, .p, .eq], m := count + 32 * bit yld, ok := 1 ≤ count && count ≤ 24 }) (fun _ => rfl) (fun hok o o' => ?_) rfl (by simp [cDst, cVK, cVKT, cVX, cVXK, cVKn]) (fun _ _ => rfl) (fun hok => ?_) hw he
  · have b_yld := bit_lt yld
    try simp only [bit_false, bit_true, Bool.and_eq_true, Bool.or_eq_true, decide_eq_true_eq, beq_iff_eq] at hok
    show some (Instr.btl o' (fld (({ op := 0x01, form := .f64, o := o, d := [.v, .k0, .kn, .p, .eq], a := [.v, .k0, .kn, .p, .eq], b := [.v, .k0, .kn, .p, .eq], m := count + 32 * bit yld, ok := 1 ≤ count && count ≤ 24 } : Info)).m 0 5) (bitN (({ op := 0x01, form := .f64, o := o, d := [.v, .k0, .kn, .p, .eq], a := [.v, .k0, .kn, .p, .eq], b := [.v, .k0, .kn, .p, .eq], m := count + 32 * bit yld, ok := 1 ≤ count && count ≤ 24 } : Info)).m 5)) = _
    simp only [Option.some.injEq, Instr.btl.injEq, true_and, and_true]
    repeat' apply And.intro
    all_goals first
      | rfl
      | exact bitN_bit (by simp only [bit_false, bit_true, fld_eq]; omega)
      | (simp only [bit_false, bit_true, fld_eq]; omega)
      | (simp_all; done)
  · have b_yld := bit_lt yld
    try simp only [bit_false, bit_true, Bool.and_eq_true, Bool.or_eq_true, decide_eq_true_eq, beq_iff_eq] at hok
    constructor <;> simp [bit_false, bit_true, formHasC] <;> omega

theorem suspensionRecordPush (col : Nat) : Statement (.suspensionRecordPush col) := by
  intro w _ he
  simp [encode, info] at he

theorem bra (o : Ops) (off : BitVec 32) : Statement (.bra o off) := by
  intro w hw he
  refine decode_of (K := fun o => .bra o off) (g := { op := 0x02, form := .f96i, o := o, imm := off.toNat }) (fun _ => rfl) (fun hok o o' => ?_) rfl (by simp [cDst, cVK, cVKT, cVX, cVXK, cVKn]) (fun _ h => by simp [isTrailer] at h) (fun hok => ?_) hw he
  · have b_off := off.isLt
    try simp only [Bool.and_eq_true, Bool.or_eq_true, decide_eq_true_eq, beq_iff_eq] at hok
    show some (Instr.bra o' (BitVec.ofNat 32 (({ op := 0x02, form := .f96i, o := o, imm := off.toNat } : Info)).imm)) = _
    simp only [Option.some.injEq, Instr.bra.injEq, true_and, and_true]
    repeat' apply And.intro
    all_goals first
      | rfl
      | (simp only [fld_eq]; omega)
      | (simp only [BitVec.ofNat_toNat, BitVec.setWidth_eq, wordOf]; done)
      | (simp_all; done)
  · have b_off := off.isLt
    try simp only [Bool.and_eq_true, Bool.or_eq_true, decide_eq_true_eq, beq_iff_eq] at hok
    constructor <;> simp [formHasC] <;> omega

theorem brx (o : Ops) : Statement (.brx o) := by
  intro w hw he
  refine decode_of (K := fun o => .brx o) (g := { op := 0x03, form := .f64, o := o, a := cSrcK }) (fun _ => rfl) (fun hok o o' => ?_) rfl (by simp [cDst, cVK, cVKT, cVX, cVXK, cVKn]) (fun _ h => by simp [isTrailer] at h) (fun hok => ?_) hw he
  · skip
    show some (Instr.brx o' ) = _
    rfl
  · skip
    constructor <;> simp [formHasC] <;> omega

theorem call (o : Ops) (off : BitVec 32) : Statement (.call o off) := by
  intro w hw he
  refine decode_of (K := fun o => .call o off) (g := { op := 0x04, form := .f96i, o := o, d := cVK, imm := off.toNat }) (fun _ => rfl) (fun hok o o' => ?_) rfl (by simp [cDst, cVK, cVKT, cVX, cVXK, cVKn]) (fun _ h => by simp [isTrailer] at h) (fun hok => ?_) hw he
  · have b_off := off.isLt
    try simp only [Bool.and_eq_true, Bool.or_eq_true, decide_eq_true_eq, beq_iff_eq] at hok
    show some (Instr.call o' (BitVec.ofNat 32 (({ op := 0x04, form := .f96i, o := o, d := cVK, imm := off.toNat } : Info)).imm)) = _
    simp only [Option.some.injEq, Instr.call.injEq, true_and, and_true]
    repeat' apply And.intro
    all_goals first
      | rfl
      | (simp only [fld_eq]; omega)
      | (simp only [BitVec.ofNat_toNat, BitVec.setWidth_eq, wordOf]; done)
      | (simp_all; done)
  · have b_off := off.isLt
    try simp only [Bool.and_eq_true, Bool.or_eq_true, decide_eq_true_eq, beq_iff_eq] at hok
    constructor <;> simp [formHasC] <;> omega

theorem callx (o : Ops) : Statement (.callx o) := by
  intro w hw he
  refine decode_of (K := fun o => .callx o) (g := { op := 0x05, form := .f64, o := o, d := cVK, a := cSrcK }) (fun _ => rfl) (fun hok o o' => ?_) rfl (by simp [cDst, cVK, cVKT, cVX, cVXK, cVKn]) (fun _ h => by simp [isTrailer] at h) (fun hok => ?_) hw he
  · skip
    show some (Instr.callx o' ) = _
    rfl
  · skip
    constructor <;> simp [formHasC] <;> omega

theorem ret (o : Ops) : Statement (.ret o) := by
  intro w hw he
  refine decode_of (K := fun o => .ret o) (g := { op := 0x06, form := .f64, o := o, a := cSrcK }) (fun _ => rfl) (fun hok o o' => ?_) rfl (by simp [cDst, cVK, cVKT, cVX, cVXK, cVKn]) (fun _ h => by simp [isTrailer] at h) (fun hok => ?_) hw he
  · skip
    show some (Instr.ret o' ) = _
    rfl
  · skip
    constructor <;> simp [formHasC] <;> omega

theorem exit (o : Ops) : Statement (.exit o) := by
  intro w hw he
  refine decode_of (K := fun o => .exit o) (g := { op := 0x07, form := .f64, o := o }) (fun _ => rfl) (fun hok o o' => ?_) rfl (by simp [cDst, cVK, cVKT, cVX, cVXK, cVKn]) (fun _ h => by simp [isTrailer] at h) (fun hok => ?_) hw he
  · skip
    show some (Instr.exit o' ) = _
    rfl
  · skip
    constructor <;> simp [formHasC] <;> omega

theorem trap (o : Ops) (code : Nat) : Statement (.trap o code) := by
  intro w hw he
  refine decode_of (K := fun o => .trap o code) (g := { op := 0x08, form := .f64, o := o, m := code, ok := code < 256 }) (fun _ => rfl) (fun hok o o' => ?_) rfl (by simp [cDst, cVK, cVKT, cVX, cVXK, cVKn]) (fun _ h => by simp [isTrailer] at h) (fun hok => ?_) hw he
  · try simp only [Bool.and_eq_true, Bool.or_eq_true, decide_eq_true_eq, beq_iff_eq] at hok
    show some (Instr.trap o' (fld (({ op := 0x08, form := .f64, o := o, m := code, ok := code < 256 } : Info)).m 0 8)) = _
    simp only [Option.some.injEq, Instr.trap.injEq, true_and, and_true]
    repeat' apply And.intro
    all_goals first
      | rfl
      | (simp only [fld_eq]; omega)
      | (simp_all; done)
  · try simp only [Bool.and_eq_true, Bool.or_eq_true, decide_eq_true_eq, beq_iff_eq] at hok
    constructor <;> simp [formHasC] <;> omega

theorem yield (o : Ops) : Statement (.yield o) := by
  intro w hw he
  refine decode_of (K := fun o => .yield o) (g := { op := 0x09, form := .f64, o := o }) (fun _ => rfl) (fun hok o o' => ?_) rfl (by simp [cDst, cVK, cVKT, cVX, cVXK, cVKn]) (fun _ h => by simp [isTrailer] at h) (fun hok => ?_) hw he
  · skip
    show some (Instr.yield o' ) = _
    rfl
  · skip
    constructor <;> simp [formHasC] <;> omega

theorem bar (o : Ops) (id : Nat) : Statement (.bar o id) := by
  intro w hw he
  refine decode_of (K := fun o => .bar o id) (g := { op := 0x0A, form := .f64, o := o, m := id, ok := id < 16 }) (fun _ => rfl) (fun hok o o' => ?_) rfl (by simp [cDst, cVK, cVKT, cVX, cVXK, cVKn]) (fun _ h => by simp [isTrailer] at h) (fun hok => ?_) hw he
  · try simp only [Bool.and_eq_true, Bool.or_eq_true, decide_eq_true_eq, beq_iff_eq] at hok
    show some (Instr.bar o' (fld (({ op := 0x0A, form := .f64, o := o, m := id, ok := id < 16 } : Info)).m 0 4)) = _
    simp only [Option.some.injEq, Instr.bar.injEq, true_and, and_true]
    repeat' apply And.intro
    all_goals first
      | rfl
      | (simp only [fld_eq]; omega)
      | (simp_all; done)
  · try simp only [Bool.and_eq_true, Bool.or_eq_true, decide_eq_true_eq, beq_iff_eq] at hok
    constructor <;> simp [formHasC] <;> omega

theorem pldr (o : Ops) (quad : Bool) : Statement (.pldr o quad) := by
  intro w hw he
  refine decode_of (K := fun o => .pldr o quad) (g := { op := 0x0B, form := .f64, o := o, d := [.p], m := bit quad }) (fun _ => rfl) (fun hok o o' => ?_) rfl (by simp [cDst, cVK, cVKT, cVX, cVXK, cVKn]) (fun _ h => by simp [isTrailer] at h) (fun hok => ?_) hw he
  · have b_quad := bit_lt quad
    try simp only [bit_false, bit_true, Bool.and_eq_true, Bool.or_eq_true, decide_eq_true_eq, beq_iff_eq] at hok
    show some (Instr.pldr o' (bitN (({ op := 0x0B, form := .f64, o := o, d := [.p], m := bit quad } : Info)).m 0)) = _
    simp only [Option.some.injEq, Instr.pldr.injEq, true_and, and_true]
    repeat' apply And.intro
    all_goals first
      | rfl
      | exact bitN_bit (by simp only [bit_false, bit_true, fld_eq]; omega)
      | (simp only [bit_false, bit_true, fld_eq]; omega)
      | (simp_all; done)
  · have b_quad := bit_lt quad
    try simp only [bit_false, bit_true, Bool.and_eq_true, Bool.or_eq_true, decide_eq_true_eq, beq_iff_eq] at hok
    constructor <;> simp [bit_false, bit_true, formHasC] <;> omega

theorem pand (o : Ops) : Statement (.pand o) := by
  intro w hw he
  refine decode_of (K := fun o => .pand o) (g := (iPred o 0 true)) (fun _ => rfl) (fun hok o o' => ?_) rfl (by simp [iPred, cDst, cVK, cVKT, cVX, cVXK, cVKn]) (fun _ h => by simp [isTrailer] at h) (fun hok => ?_) hw he
  · skip
    show some (Instr.pand o' ) = _
    rfl
  · skip
    constructor <;> simp [iPred, formHasC] <;> omega

theorem por (o : Ops) : Statement (.por o) := by
  intro w hw he
  refine decode_of (K := fun o => .por o) (g := (iPred o 1 true)) (fun _ => rfl) (fun hok o o' => ?_) rfl (by simp [iPred, cDst, cVK, cVKT, cVX, cVXK, cVKn]) (fun _ h => by simp [isTrailer] at h) (fun hok => ?_) hw he
  · skip
    show some (Instr.por o' ) = _
    rfl
  · skip
    constructor <;> simp [iPred, formHasC] <;> omega

theorem pxor (o : Ops) : Statement (.pxor o) := by
  intro w hw he
  refine decode_of (K := fun o => .pxor o) (g := (iPred o 2 true)) (fun _ => rfl) (fun hok o o' => ?_) rfl (by simp [iPred, cDst, cVK, cVKT, cVX, cVXK, cVKn]) (fun _ h => by simp [isTrailer] at h) (fun hok => ?_) hw he
  · skip
    show some (Instr.pxor o' ) = _
    rfl
  · skip
    constructor <;> simp [iPred, formHasC] <;> omega

theorem pandn (o : Ops) : Statement (.pandn o) := by
  intro w hw he
  refine decode_of (K := fun o => .pandn o) (g := (iPred o 3 true)) (fun _ => rfl) (fun hok o o' => ?_) rfl (by simp [iPred, cDst, cVK, cVKT, cVX, cVXK, cVKn]) (fun _ h => by simp [isTrailer] at h) (fun hok => ?_) hw he
  · skip
    show some (Instr.pandn o' ) = _
    rfl
  · skip
    constructor <;> simp [iPred, formHasC] <;> omega

theorem pnot (o : Ops) : Statement (.pnot o) := by
  intro w hw he
  refine decode_of (K := fun o => .pnot o) (g := (iPred o 4 false)) (fun _ => rfl) (fun hok o o' => ?_) rfl (by simp [iPred, cDst, cVK, cVKT, cVX, cVXK, cVKn]) (fun _ h => by simp [isTrailer] at h) (fun hok => ?_) hw he
  · skip
    show some (Instr.pnot o' ) = _
    rfl
  · skip
    constructor <;> simp [iPred, formHasC] <;> omega

theorem pmov (o : Ops) : Statement (.pmov o) := by
  intro w hw he
  refine decode_of (K := fun o => .pmov o) (g := (iPred o 5 false)) (fun _ => rfl) (fun hok o o' => ?_) rfl (by simp [iPred, cDst, cVK, cVKT, cVX, cVXK, cVKn]) (fun _ h => by simp [isTrailer] at h) (fun hok => ?_) hw he
  · skip
    show some (Instr.pmov o' ) = _
    rfl
  · skip
    constructor <;> simp [iPred, formHasC] <;> omega

theorem voteAny (o : Ops) (seg : Nat) : Statement (.voteAny o seg) := by
  intro w hw he
  refine decode_of (K := fun o => .voteAny o seg) (g := (iVote o 0 seg [.p])) (fun _ => rfl) (fun hok o o' => ?_) rfl (by simp [iVote, cDst, cVK, cVKT, cVX, cVXK, cVKn]) (fun _ h => by simp [isTrailer] at h) (fun hok => ?_) hw he
  · try simp only [iVote, Bool.and_eq_true, Bool.or_eq_true, decide_eq_true_eq, beq_iff_eq] at hok
    have e : fld (0 + 4 * seg) 0 2 = 0 := by simp only [fld_eq]; omega
    simp only [candidate, rawOfInfo, iVote, e, Bool.false_eq_true, if_false, if_true]
    simp only [Option.some.injEq, Instr.voteAny.injEq, true_and, and_true]
    repeat' apply And.intro
    all_goals first
      | rfl
      | (simp only [iVote, fld_eq]; omega)
      | (simp_all; done)
  · try simp only [iVote, Bool.and_eq_true, Bool.or_eq_true, decide_eq_true_eq, beq_iff_eq] at hok
    constructor <;> simp [iVote, formHasC] <;> omega

theorem voteAll (o : Ops) (seg : Nat) : Statement (.voteAll o seg) := by
  intro w hw he
  refine decode_of (K := fun o => .voteAll o seg) (g := (iVote o 1 seg [.p])) (fun _ => rfl) (fun hok o o' => ?_) rfl (by simp [iVote, cDst, cVK, cVKT, cVX, cVXK, cVKn]) (fun _ h => by simp [isTrailer] at h) (fun hok => ?_) hw he
  · try simp only [iVote, Bool.and_eq_true, Bool.or_eq_true, decide_eq_true_eq, beq_iff_eq] at hok
    have e : fld (1 + 4 * seg) 0 2 = 1 := by simp only [fld_eq]; omega
    simp only [candidate, rawOfInfo, iVote, e, Bool.false_eq_true, if_false, if_true]
    simp only [Option.some.injEq, Instr.voteAll.injEq, true_and, and_true]
    repeat' apply And.intro
    all_goals first
      | rfl
      | (simp only [iVote, fld_eq]; omega)
      | (simp_all; done)
  · try simp only [iVote, Bool.and_eq_true, Bool.or_eq_true, decide_eq_true_eq, beq_iff_eq] at hok
    constructor <;> simp [iVote, formHasC] <;> omega

theorem voteBallot (o : Ops) (seg : Nat) : Statement (.voteBallot o seg) := by
  intro w hw he
  refine decode_of (K := fun o => .voteBallot o seg) (g := (iVote o 2 seg cVKT)) (fun _ => rfl) (fun hok o o' => ?_) rfl (by simp [iVote, cDst, cVK, cVKT, cVX, cVXK, cVKn]) (fun _ h => by simp [isTrailer] at h) (fun hok => ?_) hw he
  · try simp only [iVote, Bool.and_eq_true, Bool.or_eq_true, decide_eq_true_eq, beq_iff_eq] at hok
    have e : fld (2 + 4 * seg) 0 2 = 2 := by simp only [fld_eq]; omega
    simp only [candidate, rawOfInfo, iVote, e, Bool.false_eq_true, if_false, if_true]
    simp only [Option.some.injEq, Instr.voteBallot.injEq, true_and, and_true]
    repeat' apply And.intro
    all_goals first
      | rfl
      | (simp only [iVote, fld_eq]; omega)
      | (simp_all; done)
  · try simp only [iVote, Bool.and_eq_true, Bool.or_eq_true, decide_eq_true_eq, beq_iff_eq] at hok
    constructor <;> simp [iVote, formHasC] <;> omega

theorem voteCount (o : Ops) (seg : Nat) : Statement (.voteCount o seg) := by
  intro w hw he
  refine decode_of (K := fun o => .voteCount o seg) (g := (iVote o 3 seg cVKT)) (fun _ => rfl) (fun hok o o' => ?_) rfl (by simp [iVote, cDst, cVK, cVKT, cVX, cVXK, cVKn]) (fun _ h => by simp [isTrailer] at h) (fun hok => ?_) hw he
  · try simp only [iVote, Bool.and_eq_true, Bool.or_eq_true, decide_eq_true_eq, beq_iff_eq] at hok
    have e : fld (3 + 4 * seg) 0 2 = 3 := by simp only [fld_eq]; omega
    simp only [candidate, rawOfInfo, iVote, e, Bool.false_eq_true, if_false, if_true]
    simp only [Option.some.injEq, Instr.voteCount.injEq, true_and, and_true]
    repeat' apply And.intro
    all_goals first
      | rfl
      | (simp only [iVote, fld_eq]; omega)
      | (simp_all; done)
  · try simp only [iVote, Bool.and_eq_true, Bool.or_eq_true, decide_eq_true_eq, beq_iff_eq] at hok
    constructor <;> simp [iVote, formHasC] <;> omega

theorem xset (o : Ops) (limit : Nat) : Statement (.xset o limit) := by
  intro w hw he
  refine decode_of (K := fun o => .xset o limit) (g := { op := 0x0E, form := .f96i, o := o, d := [.x], a := cSrcK, imm := limit, ok := limit ≤ 256 }) (fun _ => rfl) (fun hok o o' => ?_) rfl (by simp [cDst, cVK, cVKT, cVX, cVXK, cVKn]) (fun _ h => by simp [isTrailer] at h) (fun hok => ?_) hw he
  · try simp only [Bool.and_eq_true, Bool.or_eq_true, decide_eq_true_eq, beq_iff_eq] at hok
    show some (Instr.xset o' (fld (({ op := 0x0E, form := .f96i, o := o, d := [.x], a := cSrcK, imm := limit, ok := limit ≤ 256 } : Info)).imm 0 9)) = _
    simp only [Option.some.injEq, Instr.xset.injEq, true_and, and_true]
    repeat' apply And.intro
    all_goals first
      | rfl
      | (simp only [fld_eq]; omega)
      | (simp_all; done)
  · try simp only [Bool.and_eq_true, Bool.or_eq_true, decide_eq_true_eq, beq_iff_eq] at hok
    constructor <;> simp [formHasC] <;> omega

theorem xadd (o : Ops) : Statement (.xadd o) := by
  intro w hw he
  refine decode_of (K := fun o => .xadd o) (g := { op := 0x0F, form := .f64, o := o, d := [.x], a := [.x], b := cSrcK }) (fun _ => rfl) (fun hok o o' => ?_) rfl (by simp [cDst, cVK, cVKT, cVX, cVXK, cVKn]) (fun _ h => by simp [isTrailer] at h) (fun hok => ?_) hw he
  · skip
    show some (Instr.xadd o' ) = _
    rfl
  · skip
    constructor <;> simp [formHasC] <;> omega

theorem qbind (o : Ops) : Statement (.qbind o) := by
  intro w hw he
  refine decode_of (K := fun o => .qbind o) (g := { op := 0x10, form := .f64, o := o, d := [.eq], a := [.k0, .kn, .imm] }) (fun _ => rfl) (fun hok o o' => ?_) rfl (by simp [cDst, cVK, cVKT, cVX, cVXK, cVKn]) (fun _ h => by simp [isTrailer] at h) (fun hok => ?_) hw he
  · skip
    show some (Instr.qbind o' ) = _
    rfl
  · skip
    constructor <;> simp [formHasC] <;> omega

theorem qstat (o : Ops) : Statement (.qstat o) := by
  intro w hw he
  refine decode_of (K := fun o => .qstat o) (g := { op := 0x11, form := .f64, o := o, d := cVKT, a := [.eq] }) (fun _ => rfl) (fun hok o o' => ?_) rfl (by simp [cDst, cVK, cVKT, cVX, cVXK, cVKn]) (fun _ h => by simp [isTrailer] at h) (fun hok => ?_) hw he
  · skip
    show some (Instr.qstat o' ) = _
    rfl
  · skip
    constructor <;> simp [formHasC] <;> omega

theorem srd (o : Ops) (num : Nat) : Statement (.srd o num) := by
  intro w hw he
  refine decode_of (K := fun o => .srd o num) (g := { op := 0x12, form := .f64, o := o, d := cVKT, m := num, ok := srListed num }) (fun _ => rfl) (fun hok o o' => ?_) rfl (by simp [cDst, cVK, cVKT, cVX, cVXK, cVKn]) (fun _ h => by simp [isTrailer] at h) (fun hok => ?_) hw he
  · try simp only [Bool.and_eq_true, Bool.or_eq_true, decide_eq_true_eq, beq_iff_eq] at hok
    have b_num := srListed_lt hok
    show some (Instr.srd o' (fld (({ op := 0x12, form := .f64, o := o, d := cVKT, m := num, ok := srListed num } : Info)).m 0 12)) = _
    simp only [Option.some.injEq, Instr.srd.injEq, true_and, and_true]
    repeat' apply And.intro
    all_goals first
      | rfl
      | (simp only [fld_eq]; omega)
      | (simp_all; done)
  · try simp only [Bool.and_eq_true, Bool.or_eq_true, decide_eq_true_eq, beq_iff_eq] at hok
    have b_num := srListed_lt hok
    constructor <;> simp [formHasC] <;> omega

theorem swr (o : Ops) (num : Nat) : Statement (.swr o num) := by
  intro w hw he
  refine decode_of (K := fun o => .swr o num) (g := { op := 0x13, form := .f64, o := o, a := cSrcK, m := num, ok := srListed num }) (fun _ => rfl) (fun hok o o' => ?_) rfl (by simp [cDst, cVK, cVKT, cVX, cVXK, cVKn]) (fun _ h => by simp [isTrailer] at h) (fun hok => ?_) hw he
  · try simp only [Bool.and_eq_true, Bool.or_eq_true, decide_eq_true_eq, beq_iff_eq] at hok
    have b_num := srListed_lt hok
    show some (Instr.swr o' (fld (({ op := 0x13, form := .f64, o := o, a := cSrcK, m := num, ok := srListed num } : Info)).m 0 12)) = _
    simp only [Option.some.injEq, Instr.swr.injEq, true_and, and_true]
    repeat' apply And.intro
    all_goals first
      | rfl
      | (simp only [fld_eq]; omega)
      | (simp_all; done)
  · try simp only [Bool.and_eq_true, Bool.or_eq_true, decide_eq_true_eq, beq_iff_eq] at hok
    have b_num := srListed_lt hok
    constructor <;> simp [formHasC] <;> omega

theorem tret (o : Ops) : Statement (.tret o) := by
  intro w hw he
  refine decode_of (K := fun o => .tret o) (g := { op := 0x14, form := .f64, o := o }) (fun _ => rfl) (fun hok o o' => ?_) rfl (by simp [cDst, cVK, cVKT, cVX, cVXK, cVKn]) (fun _ h => by simp [isTrailer] at h) (fun hok => ?_) hw he
  · skip
    show some (Instr.tret o' ) = _
    rfl
  · skip
    constructor <;> simp [formHasC] <;> omega

theorem sret (o : Ops) : Statement (.sret o) := by
  intro w hw he
  refine decode_of (K := fun o => .sret o) (g := { op := 0x15, form := .f64, o := o }) (fun _ => rfl) (fun hok o o' => ?_) rfl (by simp [cDst, cVK, cVKT, cVX, cVXK, cVKn]) (fun _ h => by simp [isTrailer] at h) (fun hok => ?_) hw he
  · skip
    show some (Instr.sret o' ) = _
    rfl
  · skip
    constructor <;> simp [formHasC] <;> omega

theorem csave (o : Ops) : Statement (.csave o) := by
  intro w hw he
  refine decode_of (K := fun o => .csave o) (g := { op := 0x16, form := .f64, o := o, d := cVK, a := cSrcK, b := cSrcK, ll := true }) (fun _ => rfl) (fun hok o o' => ?_) rfl (by simp [cDst, cVK, cVKT, cVX, cVXK, cVKn]) (fun _ h => by simp [isTrailer] at h) (fun hok => ?_) hw he
  · skip
    show some (Instr.csave o' ) = _
    rfl
  · skip
    constructor <;> simp [formHasC] <;> omega

theorem cloadLd (o : Ops) : Statement (.cloadLd o) := by
  intro w hw he
  refine decode_of (K := fun o => .cloadLd o) (g := (iCload o 0 cSrcK)) (fun _ => rfl) (fun hok o o' => ?_) rfl (by simp [iCload, cDst, cVK, cVKT, cVX, cVXK, cVKn]) (fun _ h => by simp [isTrailer] at h) (fun hok => ?_) hw he
  · skip
    show some (Instr.cloadLd o' ) = _
    rfl
  · skip
    constructor <;> simp [iCload, formHasC] <;> omega

theorem cloadRun (o : Ops) : Statement (.cloadRun o) := by
  intro w hw he
  refine decode_of (K := fun o => .cloadRun o) (g := (iCload o 1 cSrcK)) (fun _ => rfl) (fun hok o o' => ?_) rfl (by simp [iCload, cDst, cVK, cVKT, cVX, cVXK, cVKn]) (fun _ h => by simp [isTrailer] at h) (fun hok => ?_) hw he
  · skip
    show some (Instr.cloadRun o' ) = _
    rfl
  · skip
    constructor <;> simp [iCload, formHasC] <;> omega

theorem cloadGo (o : Ops) : Statement (.cloadGo o) := by
  intro w hw he
  refine decode_of (K := fun o => .cloadGo o) (g := (iCload o 2 [.k0])) (fun _ => rfl) (fun hok o o' => ?_) rfl (by simp [iCload, cDst, cVK, cVKT, cVX, cVXK, cVKn]) (fun _ h => by simp [isTrailer] at h) (fun hok => ?_) hw he
  · skip
    show some (Instr.cloadGo o' ) = _
    rfl
  · skip
    constructor <;> simp [iCload, formHasC] <;> omega

theorem cloadEnd (o : Ops) : Statement (.cloadEnd o) := by
  intro w hw he
  refine decode_of (K := fun o => .cloadEnd o) (g := (iCload o 3 [.k0])) (fun _ => rfl) (fun hok o o' => ?_) rfl (by simp [iCload, cDst, cVK, cVKT, cVX, cVXK, cVKn]) (fun _ h => by simp [isTrailer] at h) (fun hok => ?_) hw he
  · skip
    show some (Instr.cloadEnd o' ) = _
    rfl
  · skip
    constructor <;> simp [iCload, formHasC] <;> omega

theorem add (o : Ops) (ty : Ty) (sat : Bool) : Statement (.add o ty sat) := by
  intro w hw he
  refine decode_of (K := fun o => .add o ty sat) (g := (iInt2 0x20 o ty sat)) (fun _ => rfl) (fun hok o o' => ?_) rfl (by simp [iInt2, cDst, cVK, cVKT, cVX, cVXK, cVKn]) (fun _ h => by simp [isTrailer] at h) (fun hok => ?_) hw he
  · have b_ty := tyCode_lt ty
    have b_sat := bit_lt sat
    try simp only [iInt2, mInt, bit_false, Bool.and_eq_true, Bool.or_eq_true, decide_eq_true_eq, beq_iff_eq] at hok
    show some (Instr.add o' (tyOf (fld (((iInt2 0x20 o ty sat) : Info)).m 0 5)) (bitN (((iInt2 0x20 o ty sat) : Info)).m 5)) = _
    simp only [Option.some.injEq, Instr.add.injEq, true_and, and_true]
    repeat' apply And.intro
    all_goals first
      | rfl
      | exact tyOf_code (by simp only [iInt2, mInt, bit_false, fld_eq]; omega)
      | exact bitN_bit (by simp only [iInt2, mInt, bit_false, fld_eq]; omega)
      | (simp only [iInt2, mInt, bit_false, fld_eq]; omega)
      | (simp_all; done)
  · have b_ty := tyCode_lt ty
    have b_sat := bit_lt sat
    try simp only [iInt2, mInt, bit_false, Bool.and_eq_true, Bool.or_eq_true, decide_eq_true_eq, beq_iff_eq] at hok
    constructor <;> simp [iInt2, mInt, bit_false, formHasC] <;> omega

theorem sub (o : Ops) (ty : Ty) (sat : Bool) : Statement (.sub o ty sat) := by
  intro w hw he
  refine decode_of (K := fun o => .sub o ty sat) (g := (iInt2 0x21 o ty sat)) (fun _ => rfl) (fun hok o o' => ?_) rfl (by simp [iInt2, cDst, cVK, cVKT, cVX, cVXK, cVKn]) (fun _ h => by simp [isTrailer] at h) (fun hok => ?_) hw he
  · have b_ty := tyCode_lt ty
    have b_sat := bit_lt sat
    try simp only [iInt2, mInt, bit_false, Bool.and_eq_true, Bool.or_eq_true, decide_eq_true_eq, beq_iff_eq] at hok
    show some (Instr.sub o' (tyOf (fld (((iInt2 0x21 o ty sat) : Info)).m 0 5)) (bitN (((iInt2 0x21 o ty sat) : Info)).m 5)) = _
    simp only [Option.some.injEq, Instr.sub.injEq, true_and, and_true]
    repeat' apply And.intro
    all_goals first
      | rfl
      | exact tyOf_code (by simp only [iInt2, mInt, bit_false, fld_eq]; omega)
      | exact bitN_bit (by simp only [iInt2, mInt, bit_false, fld_eq]; omega)
      | (simp only [iInt2, mInt, bit_false, fld_eq]; omega)
      | (simp_all; done)
  · have b_ty := tyCode_lt ty
    have b_sat := bit_lt sat
    try simp only [iInt2, mInt, bit_false, Bool.and_eq_true, Bool.or_eq_true, decide_eq_true_eq, beq_iff_eq] at hok
    constructor <;> simp [iInt2, mInt, bit_false, formHasC] <;> omega

theorem mul (o : Ops) (ty : Ty) (sat : Bool) : Statement (.mul o ty sat) := by
  intro w hw he
  refine decode_of (K := fun o => .mul o ty sat) (g := (iInt2 0x22 o ty sat)) (fun _ => rfl) (fun hok o o' => ?_) rfl (by simp [iInt2, cDst, cVK, cVKT, cVX, cVXK, cVKn]) (fun _ h => by simp [isTrailer] at h) (fun hok => ?_) hw he
  · have b_ty := tyCode_lt ty
    have b_sat := bit_lt sat
    try simp only [iInt2, mInt, bit_false, Bool.and_eq_true, Bool.or_eq_true, decide_eq_true_eq, beq_iff_eq] at hok
    show some (Instr.mul o' (tyOf (fld (((iInt2 0x22 o ty sat) : Info)).m 0 5)) (bitN (((iInt2 0x22 o ty sat) : Info)).m 5)) = _
    simp only [Option.some.injEq, Instr.mul.injEq, true_and, and_true]
    repeat' apply And.intro
    all_goals first
      | rfl
      | exact tyOf_code (by simp only [iInt2, mInt, bit_false, fld_eq]; omega)
      | exact bitN_bit (by simp only [iInt2, mInt, bit_false, fld_eq]; omega)
      | (simp only [iInt2, mInt, bit_false, fld_eq]; omega)
      | (simp_all; done)
  · have b_ty := tyCode_lt ty
    have b_sat := bit_lt sat
    try simp only [iInt2, mInt, bit_false, Bool.and_eq_true, Bool.or_eq_true, decide_eq_true_eq, beq_iff_eq] at hok
    constructor <;> simp [iInt2, mInt, bit_false, formHasC] <;> omega

theorem mulh (o : Ops) (ty : Ty) : Statement (.mulh o ty) := by
  intro w hw he
  refine decode_of (K := fun o => .mulh o ty) (g := (iInt2 0x23 o ty false)) (fun _ => rfl) (fun hok o o' => ?_) rfl (by simp [iInt2, cDst, cVK, cVKT, cVX, cVXK, cVKn]) (fun _ h => by simp [isTrailer] at h) (fun hok => ?_) hw he
  · have b_ty := tyCode_lt ty
    try simp only [iInt2, mInt, bit_false, Bool.and_eq_true, Bool.or_eq_true, decide_eq_true_eq, beq_iff_eq] at hok
    show some (Instr.mulh o' (tyOf (fld (((iInt2 0x23 o ty false) : Info)).m 0 5))) = _
    simp only [Option.some.injEq, Instr.mulh.injEq, true_and, and_true]
    repeat' apply And.intro
    all_goals first
      | rfl
      | exact tyOf_code (by simp only [iInt2, mInt, bit_false, fld_eq]; omega)
      | (simp only [iInt2, mInt, bit_false, fld_eq]; omega)
      | (simp_all; done)
  · have b_ty := tyCode_lt ty
    try simp only [iInt2, mInt, bit_false, Bool.and_eq_true, Bool.or_eq_true, decide_eq_true_eq, beq_iff_eq] at hok
    constructor <;> simp [iInt2, mInt, bit_false, formHasC] <;> omega

theorem mad (o : Ops) (ty : Ty) (sat : Bool) : Statement (.mad o ty sat) := by
  intro w hw he
  refine decode_of (K := fun o => .mad o ty sat) (g := (iInt3 0x24 o ty sat)) (fun _ => rfl) (fun hok o o' => ?_) rfl (by simp [iInt3, cDst, cVK, cVKT, cVX, cVXK, cVKn]) (fun _ h => by simp [isTrailer] at h) (fun hok => ?_) hw he
  · have b_ty := tyCode_lt ty
    have b_sat := bit_lt sat
    try simp only [iInt3, mInt, bit_false, Bool.and_eq_true, Bool.or_eq_true, decide_eq_true_eq, beq_iff_eq] at hok
    show some (Instr.mad o' (tyOf (fld (((iInt3 0x24 o ty sat) : Info)).m 0 5)) (bitN (((iInt3 0x24 o ty sat) : Info)).m 5)) = _
    simp only [Option.some.injEq, Instr.mad.injEq, true_and, and_true]
    repeat' apply And.intro
    all_goals first
      | rfl
      | exact tyOf_code (by simp only [iInt3, mInt, bit_false, fld_eq]; omega)
      | exact bitN_bit (by simp only [iInt3, mInt, bit_false, fld_eq]; omega)
      | (simp only [iInt3, mInt, bit_false, fld_eq]; omega)
      | (simp_all; done)
  · have b_ty := tyCode_lt ty
    have b_sat := bit_lt sat
    try simp only [iInt3, mInt, bit_false, Bool.and_eq_true, Bool.or_eq_true, decide_eq_true_eq, beq_iff_eq] at hok
    constructor <;> simp [iInt3, mInt, bit_false, formHasC] <;> omega

theorem madw (o : Ops) (ty : Ty) (sat : Bool) : Statement (.madw o ty sat) := by
  intro w hw he
  refine decode_of (K := fun o => .madw o ty sat) (g := { iInt3 0x25 o ty sat with ok := ty == .i32 || ty == .n32 }) (fun _ => rfl) (fun hok o o' => ?_) rfl (by simp [iInt3, cDst, cVK, cVKT, cVX, cVXK, cVKn]) (fun _ h => by simp [isTrailer] at h) (fun hok => ?_) hw he
  · have b_ty := tyCode_lt ty
    have b_sat := bit_lt sat
    try simp only [iInt3, mInt, bit_false, Bool.and_eq_true, Bool.or_eq_true, decide_eq_true_eq, beq_iff_eq] at hok
    show some (Instr.madw o' (tyOf (fld (({ iInt3 0x25 o ty sat with ok := ty == .i32 || ty == .n32 } : Info)).m 0 5)) (bitN (({ iInt3 0x25 o ty sat with ok := ty == .i32 || ty == .n32 } : Info)).m 5)) = _
    simp only [Option.some.injEq, Instr.madw.injEq, true_and, and_true]
    repeat' apply And.intro
    all_goals first
      | rfl
      | exact tyOf_code (by simp only [iInt3, mInt, bit_false, fld_eq]; omega)
      | exact bitN_bit (by simp only [iInt3, mInt, bit_false, fld_eq]; omega)
      | (simp only [iInt3, mInt, bit_false, fld_eq]; omega)
      | (simp_all; done)
  · have b_ty := tyCode_lt ty
    have b_sat := bit_lt sat
    try simp only [iInt3, mInt, bit_false, Bool.and_eq_true, Bool.or_eq_true, decide_eq_true_eq, beq_iff_eq] at hok
    constructor <;> simp [iInt3, mInt, bit_false, formHasC] <;> omega

theorem div (o : Ops) (ty : Ty) (sat : Bool) : Statement (.div o ty sat) := by
  intro w hw he
  refine decode_of (K := fun o => .div o ty sat) (g := (iInt2 0x26 o ty sat)) (fun _ => rfl) (fun hok o o' => ?_) rfl (by simp [iInt2, cDst, cVK, cVKT, cVX, cVXK, cVKn]) (fun _ h => by simp [isTrailer] at h) (fun hok => ?_) hw he
  · have b_ty := tyCode_lt ty
    have b_sat := bit_lt sat
    try simp only [iInt2, mInt, bit_false, Bool.and_eq_true, Bool.or_eq_true, decide_eq_true_eq, beq_iff_eq] at hok
    show some (Instr.div o' (tyOf (fld (((iInt2 0x26 o ty sat) : Info)).m 0 5)) (bitN (((iInt2 0x26 o ty sat) : Info)).m 5)) = _
    simp only [Option.some.injEq, Instr.div.injEq, true_and, and_true]
    repeat' apply And.intro
    all_goals first
      | rfl
      | exact tyOf_code (by simp only [iInt2, mInt, bit_false, fld_eq]; omega)
      | exact bitN_bit (by simp only [iInt2, mInt, bit_false, fld_eq]; omega)
      | (simp only [iInt2, mInt, bit_false, fld_eq]; omega)
      | (simp_all; done)
  · have b_ty := tyCode_lt ty
    have b_sat := bit_lt sat
    try simp only [iInt2, mInt, bit_false, Bool.and_eq_true, Bool.or_eq_true, decide_eq_true_eq, beq_iff_eq] at hok
    constructor <;> simp [iInt2, mInt, bit_false, formHasC] <;> omega

theorem rem (o : Ops) (ty : Ty) : Statement (.rem o ty) := by
  intro w hw he
  refine decode_of (K := fun o => .rem o ty) (g := (iInt2 0x27 o ty false)) (fun _ => rfl) (fun hok o o' => ?_) rfl (by simp [iInt2, cDst, cVK, cVKT, cVX, cVXK, cVKn]) (fun _ h => by simp [isTrailer] at h) (fun hok => ?_) hw he
  · have b_ty := tyCode_lt ty
    try simp only [iInt2, mInt, bit_false, Bool.and_eq_true, Bool.or_eq_true, decide_eq_true_eq, beq_iff_eq] at hok
    show some (Instr.rem o' (tyOf (fld (((iInt2 0x27 o ty false) : Info)).m 0 5))) = _
    simp only [Option.some.injEq, Instr.rem.injEq, true_and, and_true]
    repeat' apply And.intro
    all_goals first
      | rfl
      | exact tyOf_code (by simp only [iInt2, mInt, bit_false, fld_eq]; omega)
      | (simp only [iInt2, mInt, bit_false, fld_eq]; omega)
      | (simp_all; done)
  · have b_ty := tyCode_lt ty
    try simp only [iInt2, mInt, bit_false, Bool.and_eq_true, Bool.or_eq_true, decide_eq_true_eq, beq_iff_eq] at hok
    constructor <;> simp [iInt2, mInt, bit_false, formHasC] <;> omega

theorem min (o : Ops) (ty : Ty) : Statement (.min o ty) := by
  intro w hw he
  refine decode_of (K := fun o => .min o ty) (g := (iInt2 0x28 o ty false)) (fun _ => rfl) (fun hok o o' => ?_) rfl (by simp [iInt2, cDst, cVK, cVKT, cVX, cVXK, cVKn]) (fun _ h => by simp [isTrailer] at h) (fun hok => ?_) hw he
  · have b_ty := tyCode_lt ty
    try simp only [iInt2, mInt, bit_false, Bool.and_eq_true, Bool.or_eq_true, decide_eq_true_eq, beq_iff_eq] at hok
    show some (Instr.min o' (tyOf (fld (((iInt2 0x28 o ty false) : Info)).m 0 5))) = _
    simp only [Option.some.injEq, Instr.min.injEq, true_and, and_true]
    repeat' apply And.intro
    all_goals first
      | rfl
      | exact tyOf_code (by simp only [iInt2, mInt, bit_false, fld_eq]; omega)
      | (simp only [iInt2, mInt, bit_false, fld_eq]; omega)
      | (simp_all; done)
  · have b_ty := tyCode_lt ty
    try simp only [iInt2, mInt, bit_false, Bool.and_eq_true, Bool.or_eq_true, decide_eq_true_eq, beq_iff_eq] at hok
    constructor <;> simp [iInt2, mInt, bit_false, formHasC] <;> omega

theorem max (o : Ops) (ty : Ty) : Statement (.max o ty) := by
  intro w hw he
  refine decode_of (K := fun o => .max o ty) (g := (iInt2 0x29 o ty false)) (fun _ => rfl) (fun hok o o' => ?_) rfl (by simp [iInt2, cDst, cVK, cVKT, cVX, cVXK, cVKn]) (fun _ h => by simp [isTrailer] at h) (fun hok => ?_) hw he
  · have b_ty := tyCode_lt ty
    try simp only [iInt2, mInt, bit_false, Bool.and_eq_true, Bool.or_eq_true, decide_eq_true_eq, beq_iff_eq] at hok
    show some (Instr.max o' (tyOf (fld (((iInt2 0x29 o ty false) : Info)).m 0 5))) = _
    simp only [Option.some.injEq, Instr.max.injEq, true_and, and_true]
    repeat' apply And.intro
    all_goals first
      | rfl
      | exact tyOf_code (by simp only [iInt2, mInt, bit_false, fld_eq]; omega)
      | (simp only [iInt2, mInt, bit_false, fld_eq]; omega)
      | (simp_all; done)
  · have b_ty := tyCode_lt ty
    try simp only [iInt2, mInt, bit_false, Bool.and_eq_true, Bool.or_eq_true, decide_eq_true_eq, beq_iff_eq] at hok
    constructor <;> simp [iInt2, mInt, bit_false, formHasC] <;> omega

theorem abs (o : Ops) (ty : Ty) (sat : Bool) : Statement (.abs o ty sat) := by
  intro w hw he
  refine decode_of (K := fun o => .abs o ty sat) (g := (iAbs 0x2A o ty sat)) (fun _ => rfl) (fun hok o o' => ?_) rfl (by simp [iAbs, cDst, cVK, cVKT, cVX, cVXK, cVKn]) (fun _ h => by simp [isTrailer] at h) (fun hok => ?_) hw he
  · have b_ty := tyCode_lt ty
    have b_sat := bit_lt sat
    try simp only [iAbs, mInt, Bool.and_eq_true, Bool.or_eq_true, decide_eq_true_eq, beq_iff_eq] at hok
    show some (Instr.abs o' (tyOf (fld (((iAbs 0x2A o ty sat) : Info)).m 0 5)) (bitN (((iAbs 0x2A o ty sat) : Info)).m 5)) = _
    simp only [Option.some.injEq, Instr.abs.injEq, true_and, and_true]
    repeat' apply And.intro
    all_goals first
      | rfl
      | exact tyOf_code (by simp only [iAbs, mInt, fld_eq]; omega)
      | exact bitN_bit (by simp only [iAbs, mInt, fld_eq]; omega)
      | (simp only [iAbs, mInt, fld_eq]; omega)
      | (simp_all; done)
  · have b_ty := tyCode_lt ty
    have b_sat := bit_lt sat
    try simp only [iAbs, mInt, Bool.and_eq_true, Bool.or_eq_true, decide_eq_true_eq, beq_iff_eq] at hok
    constructor <;> simp [iAbs, mInt, formHasC] <;> omega

theorem neg (o : Ops) (ty : Ty) (sat : Bool) : Statement (.neg o ty sat) := by
  intro w hw he
  refine decode_of (K := fun o => .neg o ty sat) (g := (iAbs 0x2B o ty sat)) (fun _ => rfl) (fun hok o o' => ?_) rfl (by simp [iAbs, cDst, cVK, cVKT, cVX, cVXK, cVKn]) (fun _ h => by simp [isTrailer] at h) (fun hok => ?_) hw he
  · have b_ty := tyCode_lt ty
    have b_sat := bit_lt sat
    try simp only [iAbs, mInt, Bool.and_eq_true, Bool.or_eq_true, decide_eq_true_eq, beq_iff_eq] at hok
    show some (Instr.neg o' (tyOf (fld (((iAbs 0x2B o ty sat) : Info)).m 0 5)) (bitN (((iAbs 0x2B o ty sat) : Info)).m 5)) = _
    simp only [Option.some.injEq, Instr.neg.injEq, true_and, and_true]
    repeat' apply And.intro
    all_goals first
      | rfl
      | exact tyOf_code (by simp only [iAbs, mInt, fld_eq]; omega)
      | exact bitN_bit (by simp only [iAbs, mInt, fld_eq]; omega)
      | (simp only [iAbs, mInt, fld_eq]; omega)
      | (simp_all; done)
  · have b_ty := tyCode_lt ty
    have b_sat := bit_lt sat
    try simp only [iAbs, mInt, Bool.and_eq_true, Bool.or_eq_true, decide_eq_true_eq, beq_iff_eq] at hok
    constructor <;> simp [iAbs, mInt, formHasC] <;> omega

theorem and (o : Ops) (ty : Ty) : Statement (.and o ty) := by
  intro w hw he
  refine decode_of (K := fun o => .and o ty) (g := (iInt2 0x2C o ty false)) (fun _ => rfl) (fun hok o o' => ?_) rfl (by simp [iInt2, cDst, cVK, cVKT, cVX, cVXK, cVKn]) (fun _ h => by simp [isTrailer] at h) (fun hok => ?_) hw he
  · have b_ty := tyCode_lt ty
    try simp only [iInt2, mInt, bit_false, Bool.and_eq_true, Bool.or_eq_true, decide_eq_true_eq, beq_iff_eq] at hok
    show some (Instr.and o' (tyOf (fld (((iInt2 0x2C o ty false) : Info)).m 0 5))) = _
    simp only [Option.some.injEq, Instr.and.injEq, true_and, and_true]
    repeat' apply And.intro
    all_goals first
      | rfl
      | exact tyOf_code (by simp only [iInt2, mInt, bit_false, fld_eq]; omega)
      | (simp only [iInt2, mInt, bit_false, fld_eq]; omega)
      | (simp_all; done)
  · have b_ty := tyCode_lt ty
    try simp only [iInt2, mInt, bit_false, Bool.and_eq_true, Bool.or_eq_true, decide_eq_true_eq, beq_iff_eq] at hok
    constructor <;> simp [iInt2, mInt, bit_false, formHasC] <;> omega

theorem or (o : Ops) (ty : Ty) : Statement (.or o ty) := by
  intro w hw he
  refine decode_of (K := fun o => .or o ty) (g := (iInt2 0x2D o ty false)) (fun _ => rfl) (fun hok o o' => ?_) rfl (by simp [iInt2, cDst, cVK, cVKT, cVX, cVXK, cVKn]) (fun _ h => by simp [isTrailer] at h) (fun hok => ?_) hw he
  · have b_ty := tyCode_lt ty
    try simp only [iInt2, mInt, bit_false, Bool.and_eq_true, Bool.or_eq_true, decide_eq_true_eq, beq_iff_eq] at hok
    show some (Instr.or o' (tyOf (fld (((iInt2 0x2D o ty false) : Info)).m 0 5))) = _
    simp only [Option.some.injEq, Instr.or.injEq, true_and, and_true]
    repeat' apply And.intro
    all_goals first
      | rfl
      | exact tyOf_code (by simp only [iInt2, mInt, bit_false, fld_eq]; omega)
      | (simp only [iInt2, mInt, bit_false, fld_eq]; omega)
      | (simp_all; done)
  · have b_ty := tyCode_lt ty
    try simp only [iInt2, mInt, bit_false, Bool.and_eq_true, Bool.or_eq_true, decide_eq_true_eq, beq_iff_eq] at hok
    constructor <;> simp [iInt2, mInt, bit_false, formHasC] <;> omega

theorem xor (o : Ops) (ty : Ty) : Statement (.xor o ty) := by
  intro w hw he
  refine decode_of (K := fun o => .xor o ty) (g := (iInt2 0x2E o ty false)) (fun _ => rfl) (fun hok o o' => ?_) rfl (by simp [iInt2, cDst, cVK, cVKT, cVX, cVXK, cVKn]) (fun _ h => by simp [isTrailer] at h) (fun hok => ?_) hw he
  · have b_ty := tyCode_lt ty
    try simp only [iInt2, mInt, bit_false, Bool.and_eq_true, Bool.or_eq_true, decide_eq_true_eq, beq_iff_eq] at hok
    show some (Instr.xor o' (tyOf (fld (((iInt2 0x2E o ty false) : Info)).m 0 5))) = _
    simp only [Option.some.injEq, Instr.xor.injEq, true_and, and_true]
    repeat' apply And.intro
    all_goals first
      | rfl
      | exact tyOf_code (by simp only [iInt2, mInt, bit_false, fld_eq]; omega)
      | (simp only [iInt2, mInt, bit_false, fld_eq]; omega)
      | (simp_all; done)
  · have b_ty := tyCode_lt ty
    try simp only [iInt2, mInt, bit_false, Bool.and_eq_true, Bool.or_eq_true, decide_eq_true_eq, beq_iff_eq] at hok
    constructor <;> simp [iInt2, mInt, bit_false, formHasC] <;> omega

theorem not (o : Ops) (ty : Ty) : Statement (.not o ty) := by
  intro w hw he
  refine decode_of (K := fun o => .not o ty) (g := (iInt1 0x2F o ty)) (fun _ => rfl) (fun hok o o' => ?_) rfl (by simp [iInt1, cDst, cVK, cVKT, cVX, cVXK, cVKn]) (fun _ h => by simp [isTrailer] at h) (fun hok => ?_) hw he
  · have b_ty := tyCode_lt ty
    try simp only [iInt1, mInt, bit_false, Bool.and_eq_true, Bool.or_eq_true, decide_eq_true_eq, beq_iff_eq] at hok
    show some (Instr.not o' (tyOf (fld (((iInt1 0x2F o ty) : Info)).m 0 5))) = _
    simp only [Option.some.injEq, Instr.not.injEq, true_and, and_true]
    repeat' apply And.intro
    all_goals first
      | rfl
      | exact tyOf_code (by simp only [iInt1, mInt, bit_false, fld_eq]; omega)
      | (simp only [iInt1, mInt, bit_false, fld_eq]; omega)
      | (simp_all; done)
  · have b_ty := tyCode_lt ty
    try simp only [iInt1, mInt, bit_false, Bool.and_eq_true, Bool.or_eq_true, decide_eq_true_eq, beq_iff_eq] at hok
    constructor <;> simp [iInt1, mInt, bit_false, formHasC] <;> omega

theorem andn (o : Ops) (ty : Ty) : Statement (.andn o ty) := by
  intro w hw he
  refine decode_of (K := fun o => .andn o ty) (g := (iInt2 0x30 o ty false)) (fun _ => rfl) (fun hok o o' => ?_) rfl (by simp [iInt2, cDst, cVK, cVKT, cVX, cVXK, cVKn]) (fun _ h => by simp [isTrailer] at h) (fun hok => ?_) hw he
  · have b_ty := tyCode_lt ty
    try simp only [iInt2, mInt, bit_false, Bool.and_eq_true, Bool.or_eq_true, decide_eq_true_eq, beq_iff_eq] at hok
    show some (Instr.andn o' (tyOf (fld (((iInt2 0x30 o ty false) : Info)).m 0 5))) = _
    simp only [Option.some.injEq, Instr.andn.injEq, true_and, and_true]
    repeat' apply And.intro
    all_goals first
      | rfl
      | exact tyOf_code (by simp only [iInt2, mInt, bit_false, fld_eq]; omega)
      | (simp only [iInt2, mInt, bit_false, fld_eq]; omega)
      | (simp_all; done)
  · have b_ty := tyCode_lt ty
    try simp only [iInt2, mInt, bit_false, Bool.and_eq_true, Bool.or_eq_true, decide_eq_true_eq, beq_iff_eq] at hok
    constructor <;> simp [iInt2, mInt, bit_false, formHasC] <;> omega

theorem shl (o : Ops) (ty : Ty) (sat : Bool) : Statement (.shl o ty sat) := by
  intro w hw he
  refine decode_of (K := fun o => .shl o ty sat) (g := (iInt2 0x31 o ty sat)) (fun _ => rfl) (fun hok o o' => ?_) rfl (by simp [iInt2, cDst, cVK, cVKT, cVX, cVXK, cVKn]) (fun _ h => by simp [isTrailer] at h) (fun hok => ?_) hw he
  · have b_ty := tyCode_lt ty
    have b_sat := bit_lt sat
    try simp only [iInt2, mInt, bit_false, Bool.and_eq_true, Bool.or_eq_true, decide_eq_true_eq, beq_iff_eq] at hok
    show some (Instr.shl o' (tyOf (fld (((iInt2 0x31 o ty sat) : Info)).m 0 5)) (bitN (((iInt2 0x31 o ty sat) : Info)).m 5)) = _
    simp only [Option.some.injEq, Instr.shl.injEq, true_and, and_true]
    repeat' apply And.intro
    all_goals first
      | rfl
      | exact tyOf_code (by simp only [iInt2, mInt, bit_false, fld_eq]; omega)
      | exact bitN_bit (by simp only [iInt2, mInt, bit_false, fld_eq]; omega)
      | (simp only [iInt2, mInt, bit_false, fld_eq]; omega)
      | (simp_all; done)
  · have b_ty := tyCode_lt ty
    have b_sat := bit_lt sat
    try simp only [iInt2, mInt, bit_false, Bool.and_eq_true, Bool.or_eq_true, decide_eq_true_eq, beq_iff_eq] at hok
    constructor <;> simp [iInt2, mInt, bit_false, formHasC] <;> omega

theorem shr (o : Ops) (ty : Ty) : Statement (.shr o ty) := by
  intro w hw he
  refine decode_of (K := fun o => .shr o ty) (g := (iInt2 0x32 o ty false)) (fun _ => rfl) (fun hok o o' => ?_) rfl (by simp [iInt2, cDst, cVK, cVKT, cVX, cVXK, cVKn]) (fun _ h => by simp [isTrailer] at h) (fun hok => ?_) hw he
  · have b_ty := tyCode_lt ty
    try simp only [iInt2, mInt, bit_false, Bool.and_eq_true, Bool.or_eq_true, decide_eq_true_eq, beq_iff_eq] at hok
    show some (Instr.shr o' (tyOf (fld (((iInt2 0x32 o ty false) : Info)).m 0 5))) = _
    simp only [Option.some.injEq, Instr.shr.injEq, true_and, and_true]
    repeat' apply And.intro
    all_goals first
      | rfl
      | exact tyOf_code (by simp only [iInt2, mInt, bit_false, fld_eq]; omega)
      | (simp only [iInt2, mInt, bit_false, fld_eq]; omega)
      | (simp_all; done)
  · have b_ty := tyCode_lt ty
    try simp only [iInt2, mInt, bit_false, Bool.and_eq_true, Bool.or_eq_true, decide_eq_true_eq, beq_iff_eq] at hok
    constructor <;> simp [iInt2, mInt, bit_false, formHasC] <;> omega

theorem sra (o : Ops) (ty : Ty) : Statement (.sra o ty) := by
  intro w hw he
  refine decode_of (K := fun o => .sra o ty) (g := (iInt2 0x33 o ty false)) (fun _ => rfl) (fun hok o o' => ?_) rfl (by simp [iInt2, cDst, cVK, cVKT, cVX, cVXK, cVKn]) (fun _ h => by simp [isTrailer] at h) (fun hok => ?_) hw he
  · have b_ty := tyCode_lt ty
    try simp only [iInt2, mInt, bit_false, Bool.and_eq_true, Bool.or_eq_true, decide_eq_true_eq, beq_iff_eq] at hok
    show some (Instr.sra o' (tyOf (fld (((iInt2 0x33 o ty false) : Info)).m 0 5))) = _
    simp only [Option.some.injEq, Instr.sra.injEq, true_and, and_true]
    repeat' apply And.intro
    all_goals first
      | rfl
      | exact tyOf_code (by simp only [iInt2, mInt, bit_false, fld_eq]; omega)
      | (simp only [iInt2, mInt, bit_false, fld_eq]; omega)
      | (simp_all; done)
  · have b_ty := tyCode_lt ty
    try simp only [iInt2, mInt, bit_false, Bool.and_eq_true, Bool.or_eq_true, decide_eq_true_eq, beq_iff_eq] at hok
    constructor <;> simp [iInt2, mInt, bit_false, formHasC] <;> omega

theorem rot (o : Ops) (ty : Ty) : Statement (.rot o ty) := by
  intro w hw he
  refine decode_of (K := fun o => .rot o ty) (g := (iInt2 0x34 o ty false)) (fun _ => rfl) (fun hok o o' => ?_) rfl (by simp [iInt2, cDst, cVK, cVKT, cVX, cVXK, cVKn]) (fun _ h => by simp [isTrailer] at h) (fun hok => ?_) hw he
  · have b_ty := tyCode_lt ty
    try simp only [iInt2, mInt, bit_false, Bool.and_eq_true, Bool.or_eq_true, decide_eq_true_eq, beq_iff_eq] at hok
    show some (Instr.rot o' (tyOf (fld (((iInt2 0x34 o ty false) : Info)).m 0 5))) = _
    simp only [Option.some.injEq, Instr.rot.injEq, true_and, and_true]
    repeat' apply And.intro
    all_goals first
      | rfl
      | exact tyOf_code (by simp only [iInt2, mInt, bit_false, fld_eq]; omega)
      | (simp only [iInt2, mInt, bit_false, fld_eq]; omega)
      | (simp_all; done)
  · have b_ty := tyCode_lt ty
    try simp only [iInt2, mInt, bit_false, Bool.and_eq_true, Bool.or_eq_true, decide_eq_true_eq, beq_iff_eq] at hok
    constructor <;> simp [iInt2, mInt, bit_false, formHasC] <;> omega

theorem clz (o : Ops) (ty : Ty) : Statement (.clz o ty) := by
  intro w hw he
  refine decode_of (K := fun o => .clz o ty) (g := (iInt1 0x35 o ty)) (fun _ => rfl) (fun hok o o' => ?_) rfl (by simp [iInt1, cDst, cVK, cVKT, cVX, cVXK, cVKn]) (fun _ h => by simp [isTrailer] at h) (fun hok => ?_) hw he
  · have b_ty := tyCode_lt ty
    try simp only [iInt1, mInt, bit_false, Bool.and_eq_true, Bool.or_eq_true, decide_eq_true_eq, beq_iff_eq] at hok
    show some (Instr.clz o' (tyOf (fld (((iInt1 0x35 o ty) : Info)).m 0 5))) = _
    simp only [Option.some.injEq, Instr.clz.injEq, true_and, and_true]
    repeat' apply And.intro
    all_goals first
      | rfl
      | exact tyOf_code (by simp only [iInt1, mInt, bit_false, fld_eq]; omega)
      | (simp only [iInt1, mInt, bit_false, fld_eq]; omega)
      | (simp_all; done)
  · have b_ty := tyCode_lt ty
    try simp only [iInt1, mInt, bit_false, Bool.and_eq_true, Bool.or_eq_true, decide_eq_true_eq, beq_iff_eq] at hok
    constructor <;> simp [iInt1, mInt, bit_false, formHasC] <;> omega

theorem popc (o : Ops) (ty : Ty) : Statement (.popc o ty) := by
  intro w hw he
  refine decode_of (K := fun o => .popc o ty) (g := (iInt1 0x36 o ty)) (fun _ => rfl) (fun hok o o' => ?_) rfl (by simp [iInt1, cDst, cVK, cVKT, cVX, cVXK, cVKn]) (fun _ h => by simp [isTrailer] at h) (fun hok => ?_) hw he
  · have b_ty := tyCode_lt ty
    try simp only [iInt1, mInt, bit_false, Bool.and_eq_true, Bool.or_eq_true, decide_eq_true_eq, beq_iff_eq] at hok
    show some (Instr.popc o' (tyOf (fld (((iInt1 0x36 o ty) : Info)).m 0 5))) = _
    simp only [Option.some.injEq, Instr.popc.injEq, true_and, and_true]
    repeat' apply And.intro
    all_goals first
      | rfl
      | exact tyOf_code (by simp only [iInt1, mInt, bit_false, fld_eq]; omega)
      | (simp only [iInt1, mInt, bit_false, fld_eq]; omega)
      | (simp_all; done)
  · have b_ty := tyCode_lt ty
    try simp only [iInt1, mInt, bit_false, Bool.and_eq_true, Bool.or_eq_true, decide_eq_true_eq, beq_iff_eq] at hok
    constructor <;> simp [iInt1, mInt, bit_false, formHasC] <;> omega

theorem brev (o : Ops) (ty : Ty) : Statement (.brev o ty) := by
  intro w hw he
  refine decode_of (K := fun o => .brev o ty) (g := (iInt1 0x37 o ty)) (fun _ => rfl) (fun hok o o' => ?_) rfl (by simp [iInt1, cDst, cVK, cVKT, cVX, cVXK, cVKn]) (fun _ h => by simp [isTrailer] at h) (fun hok => ?_) hw he
  · have b_ty := tyCode_lt ty
    try simp only [iInt1, mInt, bit_false, Bool.and_eq_true, Bool.or_eq_true, decide_eq_true_eq, beq_iff_eq] at hok
    show some (Instr.brev o' (tyOf (fld (((iInt1 0x37 o ty) : Info)).m 0 5))) = _
    simp only [Option.some.injEq, Instr.brev.injEq, true_and, and_true]
    repeat' apply And.intro
    all_goals first
      | rfl
      | exact tyOf_code (by simp only [iInt1, mInt, bit_false, fld_eq]; omega)
      | (simp only [iInt1, mInt, bit_false, fld_eq]; omega)
      | (simp_all; done)
  · have b_ty := tyCode_lt ty
    try simp only [iInt1, mInt, bit_false, Bool.and_eq_true, Bool.or_eq_true, decide_eq_true_eq, beq_iff_eq] at hok
    constructor <;> simp [iInt1, mInt, bit_false, formHasC] <;> omega

theorem ctz (o : Ops) (ty : Ty) : Statement (.ctz o ty) := by
  intro w hw he
  refine decode_of (K := fun o => .ctz o ty) (g := (iInt1 0x66 o ty)) (fun _ => rfl) (fun hok o o' => ?_) rfl (by simp [iInt1, cDst, cVK, cVKT, cVX, cVXK, cVKn]) (fun _ h => by simp [isTrailer] at h) (fun hok => ?_) hw he
  · have b_ty := tyCode_lt ty
    try simp only [iInt1, mInt, bit_false, Bool.and_eq_true, Bool.or_eq_true, decide_eq_true_eq, beq_iff_eq] at hok
    show some (Instr.ctz o' (tyOf (fld (((iInt1 0x66 o ty) : Info)).m 0 5))) = _
    simp only [Option.some.injEq, Instr.ctz.injEq, true_and, and_true]
    repeat' apply And.intro
    all_goals first
      | rfl
      | exact tyOf_code (by simp only [iInt1, mInt, bit_false, fld_eq]; omega)
      | (simp only [iInt1, mInt, bit_false, fld_eq]; omega)
      | (simp_all; done)
  · have b_ty := tyCode_lt ty
    try simp only [iInt1, mInt, bit_false, Bool.and_eq_true, Bool.or_eq_true, decide_eq_true_eq, beq_iff_eq] at hok
    constructor <;> simp [iInt1, mInt, bit_false, formHasC] <;> omega

theorem bfx (o : Ops) (ty : Ty) : Statement (.bfx o ty) := by
  intro w hw he
  refine decode_of (K := fun o => .bfx o ty) (g := (iInt3 0x38 o ty false)) (fun _ => rfl) (fun hok o o' => ?_) rfl (by simp [iInt3, cDst, cVK, cVKT, cVX, cVXK, cVKn]) (fun _ h => by simp [isTrailer] at h) (fun hok => ?_) hw he
  · have b_ty := tyCode_lt ty
    try simp only [iInt3, mInt, bit_false, Bool.and_eq_true, Bool.or_eq_true, decide_eq_true_eq, beq_iff_eq] at hok
    show some (Instr.bfx o' (tyOf (fld (((iInt3 0x38 o ty false) : Info)).m 0 5))) = _
    simp only [Option.some.injEq, Instr.bfx.injEq, true_and, and_true]
    repeat' apply And.intro
    all_goals first
      | rfl
      | exact tyOf_code (by simp only [iInt3, mInt, bit_false, fld_eq]; omega)
      | (simp only [iInt3, mInt, bit_false, fld_eq]; omega)
      | (simp_all; done)
  · have b_ty := tyCode_lt ty
    try simp only [iInt3, mInt, bit_false, Bool.and_eq_true, Bool.or_eq_true, decide_eq_true_eq, beq_iff_eq] at hok
    constructor <;> simp [iInt3, mInt, bit_false, formHasC] <;> omega

theorem bfi (o : Ops) (ty : Ty) (pos : Nat) (len : Nat) : Statement (.bfi o ty pos len) := by
  intro w hw he
  refine decode_of (K := fun o => .bfi o ty pos len) (g := { op := 0x39, form := .f96c, o := o, d := cDst, a := cSrc, b := cSrc, m := mInt ty false, m2 := pos + 64 * len, ok := tyInt ty && pos < 64 && len < 64 && pos + len ≤ tyW ty }) (fun _ => rfl) (fun hok o o' => ?_) rfl (by simp [cDst, cVK, cVKT, cVX, cVXK, cVKn]) (fun _ h => by simp [isTrailer] at h) (fun hok => ?_) hw he
  · have b_ty := tyCode_lt ty
    try simp only [mInt, bit_false, Bool.and_eq_true, Bool.or_eq_true, decide_eq_true_eq, beq_iff_eq] at hok
    show some (Instr.bfi o' (tyOf (fld (({ op := 0x39, form := .f96c, o := o, d := cDst, a := cSrc, b := cSrc, m := mInt ty false, m2 := pos + 64 * len, ok := tyInt ty && pos < 64 && len < 64 && pos + len ≤ tyW ty } : Info)).m 0 5)) (fld (({ op := 0x39, form := .f96c, o := o, d := cDst, a := cSrc, b := cSrc, m := mInt ty false, m2 := pos + 64 * len, ok := tyInt ty && pos < 64 && len < 64 && pos + len ≤ tyW ty } : Info)).m2 0 6) (fld (({ op := 0x39, form := .f96c, o := o, d := cDst, a := cSrc, b := cSrc, m := mInt ty false, m2 := pos + 64 * len, ok := tyInt ty && pos < 64 && len < 64 && pos + len ≤ tyW ty } : Info)).m2 6 6)) = _
    simp only [Option.some.injEq, Instr.bfi.injEq, true_and, and_true]
    repeat' apply And.intro
    all_goals first
      | rfl
      | exact tyOf_code (by simp only [mInt, bit_false, fld_eq]; omega)
      | (simp only [mInt, bit_false, fld_eq]; omega)
      | (simp_all; done)
  · have b_ty := tyCode_lt ty
    try simp only [mInt, bit_false, Bool.and_eq_true, Bool.or_eq_true, decide_eq_true_eq, beq_iff_eq] at hok
    constructor <;> simp [mInt, bit_false, formHasC] <;> omega

theorem prmt (o : Ops) : Statement (.prmt o) := by
  intro w hw he
  refine decode_of (K := fun o => .prmt o) (g := (iInt3 0x3A o .n64 false)) (fun _ => rfl) (fun hok o o' => ?_) rfl (by simp [iInt3, cDst, cVK, cVKT, cVX, cVXK, cVKn]) (fun _ h => by simp [isTrailer] at h) (fun hok => ?_) hw he
  · skip
    show some (Instr.prmt o' ) = _
    rfl
  · skip
    constructor <;> simp [iInt3, mInt, bit_false, tyCode_n64, formHasC] <;> omega

theorem sel (o : Ops) (ty : Ty) : Statement (.sel o ty) := by
  intro w hw he
  refine decode_of (K := fun o => .sel o ty) (g := { iInt3 0x3B o ty false with c := .p :: cSrc }) (fun _ => rfl) (fun hok o o' => ?_) rfl (by simp [iInt3, cDst, cVK, cVKT, cVX, cVXK, cVKn]) (fun _ h => by simp [isTrailer] at h) (fun hok => ?_) hw he
  · have b_ty := tyCode_lt ty
    try simp only [iInt3, mInt, bit_false, Bool.and_eq_true, Bool.or_eq_true, decide_eq_true_eq, beq_iff_eq] at hok
    show some (Instr.sel o' (tyOf (fld (({ iInt3 0x3B o ty false with c := .p :: cSrc } : Info)).m 0 5))) = _
    simp only [Option.some.injEq, Instr.sel.injEq, true_and, and_true]
    repeat' apply And.intro
    all_goals first
      | rfl
      | exact tyOf_code (by simp only [iInt3, mInt, bit_false, fld_eq]; omega)
      | (simp only [iInt3, mInt, bit_false, fld_eq]; omega)
      | (simp_all; done)
  · have b_ty := tyCode_lt ty
    try simp only [iInt3, mInt, bit_false, Bool.and_eq_true, Bool.or_eq_true, decide_eq_true_eq, beq_iff_eq] at hok
    constructor <;> simp [iInt3, mInt, bit_false, formHasC] <;> omega

theorem cmp (o : Ops) (ty : Ty) (cond : Cond) : Statement (.cmp o ty cond) := by
  intro w hw he
  refine decode_of (K := fun o => .cmp o ty cond) (g := { op := 0x3C, form := .f64, o := o, d := .p :: cDst, a := cSrc, b := cSrc, m := mInt ty false (condCode cond), ok := tyInt ty, pdst := tyN ty != 1 }) (fun _ => rfl) (fun hok o o' => ?_) rfl (by simp [cDst, cVK, cVKT, cVX, cVXK, cVKn]) (fun _ h => by simp [isTrailer] at h) (fun hok => ?_) hw he
  · have b_ty := tyCode_lt ty
    have b_cond := condCode_lt cond
    try simp only [mInt, bit_false, Bool.and_eq_true, Bool.or_eq_true, decide_eq_true_eq, beq_iff_eq] at hok
    show some (Instr.cmp o' (tyOf (fld (({ op := 0x3C, form := .f64, o := o, d := .p :: cDst, a := cSrc, b := cSrc, m := mInt ty false (condCode cond), ok := tyInt ty, pdst := tyN ty != 1 } : Info)).m 0 5)) (condOf (fld (({ op := 0x3C, form := .f64, o := o, d := .p :: cDst, a := cSrc, b := cSrc, m := mInt ty false (condCode cond), ok := tyInt ty, pdst := tyN ty != 1 } : Info)).m 6 3))) = _
    simp only [Option.some.injEq, Instr.cmp.injEq, true_and, and_true]
    repeat' apply And.intro
    all_goals first
      | rfl
      | exact tyOf_code (by simp only [mInt, bit_false, fld_eq]; omega)
      | exact condOf_code (by simp only [mInt, bit_false, fld_eq]; omega)
      | (simp only [mInt, bit_false, fld_eq]; omega)
      | (simp_all; done)
  · have b_ty := tyCode_lt ty
    have b_cond := condCode_lt cond
    try simp only [mInt, bit_false, Bool.and_eq_true, Bool.or_eq_true, decide_eq_true_eq, beq_iff_eq] at hok
    constructor <;> simp [mInt, bit_false, formHasC] <;> omega

theorem addc (o : Ops) (ty : Ty) (sub : Bool) (co : Option Nat) : Statement (.addc o ty sub co) := by
  intro w hw he
  refine decode_of (K := fun o => .addc o ty sub co) (g := { op := 0x3D, form := .f96c, o := o, d := cDst, a := cSrc, b := cSrc, c := [.p, .k0], m := mInt ty false, m2 := 128 * bit sub + (match co with | none => 0 | some n => 64 + n), ok := (ty == .n64 || ty == .n32) && (match co with | none => true | some n => n < 48) }) (fun _ => by cases co <;> rfl) (fun hok o o' => ?_) rfl (by simp [cDst, cVK, cVKT, cVX, cVXK, cVKn]) (fun _ h => by simp [isTrailer] at h) (fun hok => ?_) hw he
  · have b_ty := tyCode_lt ty
    have b_sub := bit_lt sub
    try simp only [mInt, bit_false, tyCode_n64, bit_true, Bool.and_eq_true, Bool.or_eq_true, decide_eq_true_eq, beq_iff_eq] at hok
    cases co with
    | none =>
      have e1 : bitN (128 * bit sub + 0) 6 = false := bitN_bit (by simp only [fld_eq, bit_false]; omega)
      have e2 : bitN (128 * bit sub + 0) 7 = sub := bitN_bit (by simp only [fld_eq]; omega)
      have e3 : tyOf (fld (tyCode ty + 32 * bit false + 64 * 0) 0 5) = ty := tyOf_code (by simp only [fld_eq, bit_false]; omega)
      simp only [candidate, rawOfInfo, mInt, formHasC, if_true, e1, e2, e3, Bool.false_eq_true, if_false]
    | some n =>
      have hn : n < 48 := by simpa using hok.2
      have e1 : bitN (128 * bit sub + (64 + n)) 6 = true := bitN_bit (by simp only [fld_eq, bit_true]; omega)
      have e2 : bitN (128 * bit sub + (64 + n)) 7 = sub := bitN_bit (by simp only [fld_eq]; omega)
      have e3 : tyOf (fld (tyCode ty + 32 * bit false + 64 * 0) 0 5) = ty := tyOf_code (by simp only [fld_eq, bit_false]; omega)
      have e4 : fld (128 * bit sub + (64 + n)) 0 6 = n := by simp only [fld_eq]; omega
      simp only [candidate, rawOfInfo, mInt, formHasC, if_true, e1, e2, e3, e4]
  · have b_ty := tyCode_lt ty
    have b_sub := bit_lt sub
    try simp only [mInt, bit_false, tyCode_n64, bit_true, Bool.and_eq_true, Bool.or_eq_true, decide_eq_true_eq, beq_iff_eq] at hok
    cases co with
    | none => constructor <;> simp [mInt, formHasC, bit_false] <;> omega
    | some n =>
      have hn : n < 48 := by simpa using hok.2
      constructor <;> simp [mInt, formHasC, bit_false] <;> omega

theorem lea (o : Ops) (sh : Nat) (sx : Bool) : Statement (.lea o sh sx) := by
  intro w hw he
  refine decode_of (K := fun o => .lea o sh sx) (g := { iInt3 0x3E o .n64 false with m2 := sh + 8 * bit sx, ok := sh < 8 }) (fun _ => rfl) (fun hok o o' => ?_) rfl (by simp [iInt3, cDst, cVK, cVKT, cVX, cVXK, cVKn]) (fun _ h => by simp [isTrailer] at h) (fun hok => ?_) hw he
  · have b_sx := bit_lt sx
    try simp only [iInt3, mInt, bit_false, tyCode_n64, bit_true, Bool.and_eq_true, Bool.or_eq_true, decide_eq_true_eq, beq_iff_eq] at hok
    show some (Instr.lea o' (fld (({ iInt3 0x3E o .n64 false with m2 := sh + 8 * bit sx, ok := sh < 8 } : Info)).m2 0 3) (bitN (({ iInt3 0x3E o .n64 false with m2 := sh + 8 * bit sx, ok := sh < 8 } : Info)).m2 3)) = _
    simp only [Option.some.injEq, Instr.lea.injEq, true_and, and_true]
    repeat' apply And.intro
    all_goals first
      | rfl
      | exact bitN_bit (by simp only [iInt3, mInt, bit_false, tyCode_n64, bit_true, fld_eq]; omega)
      | (simp only [iInt3, mInt, bit_false, tyCode_n64, bit_true, fld_eq]; omega)
      | (simp_all; done)
  · have b_sx := bit_lt sx
    try simp only [iInt3, mInt, bit_false, tyCode_n64, bit_true, Bool.and_eq_true, Bool.or_eq_true, decide_eq_true_eq, beq_iff_eq] at hok
    constructor <;> simp [iInt3, mInt, bit_false, tyCode_n64, bit_true, formHasC] <;> omega

theorem mov (o : Ops) : Statement (.mov o) := by
  intro w hw he
  refine decode_of (K := fun o => .mov o) (g := { op := 0x3F, form := .f64, o := o, d := cDst, a := cSrc, m := 4 }) (fun _ => rfl) (fun hok o o' => ?_) rfl (by simp [cDst, cVK, cVKT, cVX, cVXK, cVKn]) (fun _ h => by simp [isTrailer] at h) (fun hok => ?_) hw he
  · skip
    show some (Instr.mov o' ) = _
    rfl
  · skip
    constructor <;> simp [formHasC] <;> omega

theorem ldiF96 (o : Ops) (ty : Ty) (imm : BitVec 32) : Statement (.ldiF96 o ty imm) := by
  intro w hw he
  refine decode_of (K := fun o => .ldiF96 o ty imm) (g := { op := 0x58, form := .f96i, o := o, d := cDst, m := tyCode ty, imm := imm.toNat, ok := tyN ty != 1 || 32 < tyW ty || imm.toNat < 2 ^ tyW ty }) (fun _ => rfl) (fun hok o o' => ?_) rfl (by simp [cDst, cVK, cVKT, cVX, cVXK, cVKn]) (fun _ h => by simp [isTrailer] at h) (fun hok => ?_) hw he
  · have b_ty := tyCode_lt ty
    have b_imm := imm.isLt
    try simp only [Bool.and_eq_true, Bool.or_eq_true, decide_eq_true_eq, beq_iff_eq] at hok
    show some (Instr.ldiF96 o' (tyOf (fld (({ op := 0x58, form := .f96i, o := o, d := cDst, m := tyCode ty, imm := imm.toNat, ok := tyN ty != 1 || 32 < tyW ty || imm.toNat < 2 ^ tyW ty } : Info)).m 0 5)) (BitVec.ofNat 32 (({ op := 0x58, form := .f96i, o := o, d := cDst, m := tyCode ty, imm := imm.toNat, ok := tyN ty != 1 || 32 < tyW ty || imm.toNat < 2 ^ tyW ty } : Info)).imm)) = _
    simp only [Option.some.injEq, Instr.ldiF96.injEq, true_and, and_true]
    repeat' apply And.intro
    all_goals first
      | rfl
      | exact tyOf_code (by simp only [fld_eq]; omega)
      | (simp only [fld_eq]; omega)
      | (simp only [BitVec.ofNat_toNat, BitVec.setWidth_eq, wordOf]; done)
      | (simp_all; done)
  · have b_ty := tyCode_lt ty
    have b_imm := imm.isLt
    try simp only [Bool.and_eq_true, Bool.or_eq_true, decide_eq_true_eq, beq_iff_eq] at hok
    constructor <;> simp [formHasC] <;> omega

theorem ldiF128 (o : Ops) (ty : Ty) (imm : Word) : Statement (.ldiF128 o ty imm) := by
  intro w hw he
  refine decode_of (K := fun o => .ldiF128 o ty imm) (g := { op := 0x58, form := .f128i, o := o, d := cDst, m := tyCode ty, imm := imm.toNat }) (fun _ => rfl) (fun hok o o' => ?_) rfl (by simp [cDst, cVK, cVKT, cVX, cVXK, cVKn]) (fun _ h => by simp [isTrailer] at h) (fun hok => ?_) hw he
  · have b_ty := tyCode_lt ty
    have b_imm := imm.isLt
    try simp only [Bool.and_eq_true, Bool.or_eq_true, decide_eq_true_eq, beq_iff_eq] at hok
    show some (Instr.ldiF128 o' (tyOf (fld (({ op := 0x58, form := .f128i, o := o, d := cDst, m := tyCode ty, imm := imm.toNat } : Info)).m 0 5)) (wordOf (({ op := 0x58, form := .f128i, o := o, d := cDst, m := tyCode ty, imm := imm.toNat } : Info)).imm)) = _
    simp only [Option.some.injEq, Instr.ldiF128.injEq, true_and, and_true]
    repeat' apply And.intro
    all_goals first
      | rfl
      | exact tyOf_code (by simp only [fld_eq]; omega)
      | (simp only [fld_eq]; omega)
      | (simp only [BitVec.ofNat_toNat, BitVec.setWidth_eq, wordOf]; done)
      | (simp_all; done)
  · have b_ty := tyCode_lt ty
    have b_imm := imm.isLt
    try simp only [Bool.and_eq_true, Bool.or_eq_true, decide_eq_true_eq, beq_iff_eq] at hok
    constructor <;> simp [formHasC] <;> omega

theorem fadd (o : Ops) (m : FMod) : Statement (.fadd o m) := by
  intro w hw he
  obtain ⟨ty, rm, ftz⟩ := m
  refine decode_of (K := fun o => .fadd o ⟨ty, rm, ftz⟩) (g := (iFlt2 0x40 o (⟨ty, rm, ftz⟩ : FMod))) (fun _ => rfl) (fun hok o o' => ?_) rfl (by simp [iFlt2, cDst, cVK, cVKT, cVX, cVXK, cVKn]) (fun _ h => by simp [isTrailer] at h) (fun hok => ?_) hw he
  · have b_ty := tyCode_lt ty
    have b_rm := rmCode_lt rm
    have b_ftz := bit_lt ftz
    try simp only [iFlt2, mFlt, Bool.and_eq_true, Bool.or_eq_true, decide_eq_true_eq, beq_iff_eq] at hok
    show some (Instr.fadd o' (fmodOf (((iFlt2 0x40 o (⟨ty, rm, ftz⟩ : FMod)) : Info)).m)) = _
    simp only [fmodOf, Option.some.injEq, Instr.fadd.injEq, FMod.mk.injEq, true_and, and_true]
    repeat' apply And.intro
    all_goals first
      | rfl
      | exact tyOf_code (by simp only [iFlt2, mFlt, fld_eq]; omega)
      | exact rmOf_code (by simp only [iFlt2, mFlt, fld_eq]; omega)
      | exact bitN_bit (by simp only [iFlt2, mFlt, fld_eq]; omega)
      | (simp only [iFlt2, mFlt, fld_eq]; omega)
      | (simp_all; done)
  · have b_ty := tyCode_lt ty
    have b_rm := rmCode_lt rm
    have b_ftz := bit_lt ftz
    try simp only [iFlt2, mFlt, Bool.and_eq_true, Bool.or_eq_true, decide_eq_true_eq, beq_iff_eq] at hok
    constructor <;> simp [iFlt2, mFlt, formHasC] <;> omega

theorem fsub (o : Ops) (m : FMod) : Statement (.fsub o m) := by
  intro w hw he
  obtain ⟨ty, rm, ftz⟩ := m
  refine decode_of (K := fun o => .fsub o ⟨ty, rm, ftz⟩) (g := (iFlt2 0x41 o (⟨ty, rm, ftz⟩ : FMod))) (fun _ => rfl) (fun hok o o' => ?_) rfl (by simp [iFlt2, cDst, cVK, cVKT, cVX, cVXK, cVKn]) (fun _ h => by simp [isTrailer] at h) (fun hok => ?_) hw he
  · have b_ty := tyCode_lt ty
    have b_rm := rmCode_lt rm
    have b_ftz := bit_lt ftz
    try simp only [iFlt2, mFlt, Bool.and_eq_true, Bool.or_eq_true, decide_eq_true_eq, beq_iff_eq] at hok
    show some (Instr.fsub o' (fmodOf (((iFlt2 0x41 o (⟨ty, rm, ftz⟩ : FMod)) : Info)).m)) = _
    simp only [fmodOf, Option.some.injEq, Instr.fsub.injEq, FMod.mk.injEq, true_and, and_true]
    repeat' apply And.intro
    all_goals first
      | rfl
      | exact tyOf_code (by simp only [iFlt2, mFlt, fld_eq]; omega)
      | exact rmOf_code (by simp only [iFlt2, mFlt, fld_eq]; omega)
      | exact bitN_bit (by simp only [iFlt2, mFlt, fld_eq]; omega)
      | (simp only [iFlt2, mFlt, fld_eq]; omega)
      | (simp_all; done)
  · have b_ty := tyCode_lt ty
    have b_rm := rmCode_lt rm
    have b_ftz := bit_lt ftz
    try simp only [iFlt2, mFlt, Bool.and_eq_true, Bool.or_eq_true, decide_eq_true_eq, beq_iff_eq] at hok
    constructor <;> simp [iFlt2, mFlt, formHasC] <;> omega

theorem fmul (o : Ops) (m : FMod) : Statement (.fmul o m) := by
  intro w hw he
  obtain ⟨ty, rm, ftz⟩ := m
  refine decode_of (K := fun o => .fmul o ⟨ty, rm, ftz⟩) (g := (iFlt2 0x42 o (⟨ty, rm, ftz⟩ : FMod))) (fun _ => rfl) (fun hok o o' => ?_) rfl (by simp [iFlt2, cDst, cVK, cVKT, cVX, cVXK, cVKn]) (fun _ h => by simp [isTrailer] at h) (fun hok => ?_) hw he
  · have b_ty := tyCode_lt ty
    have b_rm := rmCode_lt rm
    have b_ftz := bit_lt ftz
    try simp only [iFlt2, mFlt, Bool.and_eq_true, Bool.or_eq_true, decide_eq_true_eq, beq_iff_eq] at hok
    show some (Instr.fmul o' (fmodOf (((iFlt2 0x42 o (⟨ty, rm, ftz⟩ : FMod)) : Info)).m)) = _
    simp only [fmodOf, Option.some.injEq, Instr.fmul.injEq, FMod.mk.injEq, true_and, and_true]
    repeat' apply And.intro
    all_goals first
      | rfl
      | exact tyOf_code (by simp only [iFlt2, mFlt, fld_eq]; omega)
      | exact rmOf_code (by simp only [iFlt2, mFlt, fld_eq]; omega)
      | exact bitN_bit (by simp only [iFlt2, mFlt, fld_eq]; omega)
      | (simp only [iFlt2, mFlt, fld_eq]; omega)
      | (simp_all; done)
  · have b_ty := tyCode_lt ty
    have b_rm := rmCode_lt rm
    have b_ftz := bit_lt ftz
    try simp only [iFlt2, mFlt, Bool.and_eq_true, Bool.or_eq_true, decide_eq_true_eq, beq_iff_eq] at hok
    constructor <;> simp [iFlt2, mFlt, formHasC] <;> omega

theorem ffma (o : Ops) (m : FMod) : Statement (.ffma o m) := by
  intro w hw he
  obtain ⟨ty, rm, ftz⟩ := m
  refine decode_of (K := fun o => .ffma o ⟨ty, rm, ftz⟩) (g := { iFlt2 0x43 o (⟨ty, rm, ftz⟩ : FMod) with form := .f96c, c := cSrc }) (fun _ => rfl) (fun hok o o' => ?_) rfl (by simp [iFlt2, cDst, cVK, cVKT, cVX, cVXK, cVKn]) (fun _ h => by simp [isTrailer] at h) (fun hok => ?_) hw he
  · have b_ty := tyCode_lt ty
    have b_rm := rmCode_lt rm
    have b_ftz := bit_lt ftz
    try simp only [iFlt2, mFlt, Bool.and_eq_true, Bool.or_eq_true, decide_eq_true_eq, beq_iff_eq] at hok
    show some (Instr.ffma o' (fmodOf (({ iFlt2 0x43 o (⟨ty, rm, ftz⟩ : FMod) with form := .f96c, c := cSrc } : Info)).m)) = _
    simp only [fmodOf, Option.some.injEq, Instr.ffma.injEq, FMod.mk.injEq, true_and, and_true]
    repeat' apply And.intro
    all_goals first
      | rfl
      | exact tyOf_code (by simp only [iFlt2, mFlt, fld_eq]; omega)
      | exact rmOf_code (by simp only [iFlt2, mFlt, fld_eq]; omega)
      | exact bitN_bit (by simp only [iFlt2, mFlt, fld_eq]; omega)
      | (simp only [iFlt2, mFlt, fld_eq]; omega)
      | (simp_all; done)
  · have b_ty := tyCode_lt ty
    have b_rm := rmCode_lt rm
    have b_ftz := bit_lt ftz
    try simp only [iFlt2, mFlt, Bool.and_eq_true, Bool.or_eq_true, decide_eq_true_eq, beq_iff_eq] at hok
    constructor <;> simp [iFlt2, mFlt, formHasC] <;> omega

theorem fmin (o : Ops) (m : FMod) (nan : Bool) : Statement (.fmin o m nan) := by
  intro w hw he
  obtain ⟨ty, rm, ftz⟩ := m
  refine decode_of (K := fun o => .fmin o ⟨ty, rm, ftz⟩ nan) (g := { iFlt2 0x44 o (⟨ty, rm, ftz⟩ : FMod) with m := mFlt (⟨ty, rm, ftz⟩ : FMod) (bit nan), ok := tyFlt ty && rm == .rne }) (fun _ => rfl) (fun hok o o' => ?_) rfl (by simp [iFlt2, cDst, cVK, cVKT, cVX, cVXK, cVKn]) (fun _ h => by simp [isTrailer] at h) (fun hok => ?_) hw he
  · have b_ty := tyCode_lt ty
    have b_rm := rmCode_lt rm
    have b_ftz := bit_lt ftz
    have b_nan := bit_lt nan
    try simp only [iFlt2, mFlt, bit_false, bit_true, Bool.and_eq_true, Bool.or_eq_true, decide_eq_true_eq, beq_iff_eq] at hok
    show some (Instr.fmin o' (fmodOf (({ iFlt2 0x44 o (⟨ty, rm, ftz⟩ : FMod) with m := mFlt (⟨ty, rm, ftz⟩ : FMod) (bit nan), ok := tyFlt ty && rm == .rne } : Info)).m) (bitN (({ iFlt2 0x44 o (⟨ty, rm, ftz⟩ : FMod) with m := mFlt (⟨ty, rm, ftz⟩ : FMod) (bit nan), ok := tyFlt ty && rm == .rne } : Info)).m 9)) = _
    simp only [fmodOf, Option.some.injEq, Instr.fmin.injEq, FMod.mk.injEq, true_and, and_true]
    repeat' apply And.intro
    all_goals first
      | rfl
      | exact tyOf_code (by simp only [iFlt2, mFlt, bit_false, bit_true, fld_eq]; omega)
      | exact rmOf_code (by simp only [iFlt2, mFlt, bit_false, bit_true, fld_eq]; omega)
      | exact bitN_bit (by simp only [iFlt2, mFlt, bit_false, bit_true, fld_eq]; omega)
      | (simp only [iFlt2, mFlt, bit_false, bit_true, fld_eq]; omega)
      | (simp_all; done)
  · have b_ty := tyCode_lt ty
    have b_rm := rmCode_lt rm
    have b_ftz := bit_lt ftz
    have b_nan := bit_lt nan
    try simp only [iFlt2, mFlt, bit_false, bit_true, Bool.and_eq_true, Bool.or_eq_true, decide_eq_true_eq, beq_iff_eq] at hok
    constructor <;> simp [iFlt2, mFlt, bit_false, bit_true, formHasC] <;> omega

theorem fmax (o : Ops) (m : FMod) (nan : Bool) : Statement (.fmax o m nan) := by
  intro w hw he
  obtain ⟨ty, rm, ftz⟩ := m
  refine decode_of (K := fun o => .fmax o ⟨ty, rm, ftz⟩ nan) (g := { iFlt2 0x45 o (⟨ty, rm, ftz⟩ : FMod) with m := mFlt (⟨ty, rm, ftz⟩ : FMod) (bit nan), ok := tyFlt ty && rm == .rne }) (fun _ => rfl) (fun hok o o' => ?_) rfl (by simp [iFlt2, cDst, cVK, cVKT, cVX, cVXK, cVKn]) (fun _ h => by simp [isTrailer] at h) (fun hok => ?_) hw he
  · have b_ty := tyCode_lt ty
    have b_rm := rmCode_lt rm
    have b_ftz := bit_lt ftz
    have b_nan := bit_lt nan
    try simp only [iFlt2, mFlt, bit_false, bit_true, Bool.and_eq_true, Bool.or_eq_true, decide_eq_true_eq, beq_iff_eq] at hok
    show some (Instr.fmax o' (fmodOf (({ iFlt2 0x45 o (⟨ty, rm, ftz⟩ : FMod) with m := mFlt (⟨ty, rm, ftz⟩ : FMod) (bit nan), ok := tyFlt ty && rm == .rne } : Info)).m) (bitN (({ iFlt2 0x45 o (⟨ty, rm, ftz⟩ : FMod) with m := mFlt (⟨ty, rm, ftz⟩ : FMod) (bit nan), ok := tyFlt ty && rm == .rne } : Info)).m 9)) = _
    simp only [fmodOf, Option.some.injEq, Instr.fmax.injEq, FMod.mk.injEq, true_and, and_true]
    repeat' apply And.intro
    all_goals first
      | rfl
      | exact tyOf_code (by simp only [iFlt2, mFlt, bit_false, bit_true, fld_eq]; omega)
      | exact rmOf_code (by simp only [iFlt2, mFlt, bit_false, bit_true, fld_eq]; omega)
      | exact bitN_bit (by simp only [iFlt2, mFlt, bit_false, bit_true, fld_eq]; omega)
      | (simp only [iFlt2, mFlt, bit_false, bit_true, fld_eq]; omega)
      | (simp_all; done)
  · have b_ty := tyCode_lt ty
    have b_rm := rmCode_lt rm
    have b_ftz := bit_lt ftz
    have b_nan := bit_lt nan
    try simp only [iFlt2, mFlt, bit_false, bit_true, Bool.and_eq_true, Bool.or_eq_true, decide_eq_true_eq, beq_iff_eq] at hok
    constructor <;> simp [iFlt2, mFlt, bit_false, bit_true, formHasC] <;> omega

theorem fcmp (o : Ops) (m : FMod) (cond : FCond) : Statement (.fcmp o m cond) := by
  intro w hw he
  obtain ⟨ty, rm, ftz⟩ := m
  refine decode_of (K := fun o => .fcmp o ⟨ty, rm, ftz⟩ cond) (g := { iFlt2 0x46 o (⟨ty, rm, ftz⟩ : FMod) with d := .p :: cDst, m := mFlt (⟨ty, rm, ftz⟩ : FMod) (fcondCode cond), ok := tyFlt ty && rm == .rne, pdst := tyN ty != 1 }) (fun _ => rfl) (fun hok o o' => ?_) rfl (by simp [iFlt2, cDst, cVK, cVKT, cVX, cVXK, cVKn]) (fun _ h => by simp [isTrailer] at h) (fun hok => ?_) hw he
  · have b_ty := tyCode_lt ty
    have b_rm := rmCode_lt rm
    have b_ftz := bit_lt ftz
    have b_cond := fcondCode_lt cond
    try simp only [iFlt2, mFlt, Bool.and_eq_true, Bool.or_eq_true, decide_eq_true_eq, beq_iff_eq] at hok
    show some (Instr.fcmp o' (fmodOf (({ iFlt2 0x46 o (⟨ty, rm, ftz⟩ : FMod) with d := .p :: cDst, m := mFlt (⟨ty, rm, ftz⟩ : FMod) (fcondCode cond), ok := tyFlt ty && rm == .rne, pdst := tyN ty != 1 } : Info)).m) (fcondOf (fld (({ iFlt2 0x46 o (⟨ty, rm, ftz⟩ : FMod) with d := .p :: cDst, m := mFlt (⟨ty, rm, ftz⟩ : FMod) (fcondCode cond), ok := tyFlt ty && rm == .rne, pdst := tyN ty != 1 } : Info)).m 9 3))) = _
    simp only [fmodOf, Option.some.injEq, Instr.fcmp.injEq, FMod.mk.injEq, true_and, and_true]
    repeat' apply And.intro
    all_goals first
      | rfl
      | exact tyOf_code (by simp only [iFlt2, mFlt, fld_eq]; omega)
      | exact rmOf_code (by simp only [iFlt2, mFlt, fld_eq]; omega)
      | exact fcondOf_code (by simp only [iFlt2, mFlt, fld_eq]; omega)
      | exact bitN_bit (by simp only [iFlt2, mFlt, fld_eq]; omega)
      | (simp only [iFlt2, mFlt, fld_eq]; omega)
      | (simp_all; done)
  · have b_ty := tyCode_lt ty
    have b_rm := rmCode_lt rm
    have b_ftz := bit_lt ftz
    have b_cond := fcondCode_lt cond
    try simp only [iFlt2, mFlt, Bool.and_eq_true, Bool.or_eq_true, decide_eq_true_eq, beq_iff_eq] at hok
    constructor <;> simp [iFlt2, mFlt, formHasC] <;> omega

theorem fclass (o : Ops) (m : FMod) : Statement (.fclass o m) := by
  intro w hw he
  obtain ⟨ty, rm, ftz⟩ := m
  refine decode_of (K := fun o => .fclass o ⟨ty, rm, ftz⟩) (g := { iFlt2 0x47 o (⟨ty, rm, ftz⟩ : FMod) with b := [], ok := tyFlt ty && rm == .rne }) (fun _ => rfl) (fun hok o o' => ?_) rfl (by simp [iFlt2, cDst, cVK, cVKT, cVX, cVXK, cVKn]) (fun _ h => by simp [isTrailer] at h) (fun hok => ?_) hw he
  · have b_ty := tyCode_lt ty
    have b_rm := rmCode_lt rm
    have b_ftz := bit_lt ftz
    try simp only [iFlt2, mFlt, Bool.and_eq_true, Bool.or_eq_true, decide_eq_true_eq, beq_iff_eq] at hok
    show some (Instr.fclass o' (fmodOf (({ iFlt2 0x47 o (⟨ty, rm, ftz⟩ : FMod) with b := [], ok := tyFlt ty && rm == .rne } : Info)).m)) = _
    simp only [fmodOf, Option.some.injEq, Instr.fclass.injEq, FMod.mk.injEq, true_and, and_true]
    repeat' apply And.intro
    all_goals first
      | rfl
      | exact tyOf_code (by simp only [iFlt2, mFlt, fld_eq]; omega)
      | exact rmOf_code (by simp only [iFlt2, mFlt, fld_eq]; omega)
      | exact bitN_bit (by simp only [iFlt2, mFlt, fld_eq]; omega)
      | (simp only [iFlt2, mFlt, fld_eq]; omega)
      | (simp_all; done)
  · have b_ty := tyCode_lt ty
    have b_rm := rmCode_lt rm
    have b_ftz := bit_lt ftz
    try simp only [iFlt2, mFlt, Bool.and_eq_true, Bool.or_eq_true, decide_eq_true_eq, beq_iff_eq] at hok
    constructor <;> simp [iFlt2, mFlt, formHasC] <;> omega

theorem frnd (o : Ops) (m : FMod) (nx : Bool) : Statement (.frnd o m nx) := by
  intro w hw he
  obtain ⟨ty, rm, ftz⟩ := m
  refine decode_of (K := fun o => .frnd o ⟨ty, rm, ftz⟩ nx) (g := { iFlt2 0x48 o (⟨ty, rm, ftz⟩ : FMod) with b := [], m := mFlt (⟨ty, rm, ftz⟩ : FMod) (bit nx) }) (fun _ => rfl) (fun hok o o' => ?_) rfl (by simp [iFlt2, cDst, cVK, cVKT, cVX, cVXK, cVKn]) (fun _ h => by simp [isTrailer] at h) (fun hok => ?_) hw he
  · have b_ty := tyCode_lt ty
    have b_rm := rmCode_lt rm
    have b_ftz := bit_lt ftz
    have b_nx := bit_lt nx
    try simp only [iFlt2, mFlt, bit_false, bit_true, Bool.and_eq_true, Bool.or_eq_true, decide_eq_true_eq, beq_iff_eq] at hok
    show some (Instr.frnd o' (fmodOf (({ iFlt2 0x48 o (⟨ty, rm, ftz⟩ : FMod) with b := [], m := mFlt (⟨ty, rm, ftz⟩ : FMod) (bit nx) } : Info)).m) (bitN (({ iFlt2 0x48 o (⟨ty, rm, ftz⟩ : FMod) with b := [], m := mFlt (⟨ty, rm, ftz⟩ : FMod) (bit nx) } : Info)).m 9)) = _
    simp only [fmodOf, Option.some.injEq, Instr.frnd.injEq, FMod.mk.injEq, true_and, and_true]
    repeat' apply And.intro
    all_goals first
      | rfl
      | exact tyOf_code (by simp only [iFlt2, mFlt, bit_false, bit_true, fld_eq]; omega)
      | exact rmOf_code (by simp only [iFlt2, mFlt, bit_false, bit_true, fld_eq]; omega)
      | exact bitN_bit (by simp only [iFlt2, mFlt, bit_false, bit_true, fld_eq]; omega)
      | (simp only [iFlt2, mFlt, bit_false, bit_true, fld_eq]; omega)
      | (simp_all; done)
  · have b_ty := tyCode_lt ty
    have b_rm := rmCode_lt rm
    have b_ftz := bit_lt ftz
    have b_nx := bit_lt nx
    try simp only [iFlt2, mFlt, bit_false, bit_true, Bool.and_eq_true, Bool.or_eq_true, decide_eq_true_eq, beq_iff_eq] at hok
    constructor <;> simp [iFlt2, mFlt, bit_false, bit_true, formHasC] <;> omega

theorem fdiv (o : Ops) (m : FMod) : Statement (.fdiv o m) := by
  intro w hw he
  obtain ⟨ty, rm, ftz⟩ := m
  refine decode_of (K := fun o => .fdiv o ⟨ty, rm, ftz⟩) (g := (iFlt2 0x49 o (⟨ty, rm, ftz⟩ : FMod))) (fun _ => rfl) (fun hok o o' => ?_) rfl (by simp [iFlt2, cDst, cVK, cVKT, cVX, cVXK, cVKn]) (fun _ h => by simp [isTrailer] at h) (fun hok => ?_) hw he
  · have b_ty := tyCode_lt ty
    have b_rm := rmCode_lt rm
    have b_ftz := bit_lt ftz
    try simp only [iFlt2, mFlt, Bool.and_eq_true, Bool.or_eq_true, decide_eq_true_eq, beq_iff_eq] at hok
    show some (Instr.fdiv o' (fmodOf (((iFlt2 0x49 o (⟨ty, rm, ftz⟩ : FMod)) : Info)).m)) = _
    simp only [fmodOf, Option.some.injEq, Instr.fdiv.injEq, FMod.mk.injEq, true_and, and_true]
    repeat' apply And.intro
    all_goals first
      | rfl
      | exact tyOf_code (by simp only [iFlt2, mFlt, fld_eq]; omega)
      | exact rmOf_code (by simp only [iFlt2, mFlt, fld_eq]; omega)
      | exact bitN_bit (by simp only [iFlt2, mFlt, fld_eq]; omega)
      | (simp only [iFlt2, mFlt, fld_eq]; omega)
      | (simp_all; done)
  · have b_ty := tyCode_lt ty
    have b_rm := rmCode_lt rm
    have b_ftz := bit_lt ftz
    try simp only [iFlt2, mFlt, Bool.and_eq_true, Bool.or_eq_true, decide_eq_true_eq, beq_iff_eq] at hok
    constructor <;> simp [iFlt2, mFlt, formHasC] <;> omega

theorem fsqrt (o : Ops) (m : FMod) : Statement (.fsqrt o m) := by
  intro w hw he
  obtain ⟨ty, rm, ftz⟩ := m
  refine decode_of (K := fun o => .fsqrt o ⟨ty, rm, ftz⟩) (g := { iFlt2 0x4A o (⟨ty, rm, ftz⟩ : FMod) with b := [] }) (fun _ => rfl) (fun hok o o' => ?_) rfl (by simp [iFlt2, cDst, cVK, cVKT, cVX, cVXK, cVKn]) (fun _ h => by simp [isTrailer] at h) (fun hok => ?_) hw he
  · have b_ty := tyCode_lt ty
    have b_rm := rmCode_lt rm
    have b_ftz := bit_lt ftz
    try simp only [iFlt2, mFlt, Bool.and_eq_true, Bool.or_eq_true, decide_eq_true_eq, beq_iff_eq] at hok
    show some (Instr.fsqrt o' (fmodOf (({ iFlt2 0x4A o (⟨ty, rm, ftz⟩ : FMod) with b := [] } : Info)).m)) = _
    simp only [fmodOf, Option.some.injEq, Instr.fsqrt.injEq, FMod.mk.injEq, true_and, and_true]
    repeat' apply And.intro
    all_goals first
      | rfl
      | exact tyOf_code (by simp only [iFlt2, mFlt, fld_eq]; omega)
      | exact rmOf_code (by simp only [iFlt2, mFlt, fld_eq]; omega)
      | exact bitN_bit (by simp only [iFlt2, mFlt, fld_eq]; omega)
      | (simp only [iFlt2, mFlt, fld_eq]; omega)
      | (simp_all; done)
  · have b_ty := tyCode_lt ty
    have b_rm := rmCode_lt rm
    have b_ftz := bit_lt ftz
    try simp only [iFlt2, mFlt, Bool.and_eq_true, Bool.or_eq_true, decide_eq_true_eq, beq_iff_eq] at hok
    constructor <;> simp [iFlt2, mFlt, formHasC] <;> omega

theorem frcp (o : Ops) (m : FMod) : Statement (.frcp o m) := by
  intro w hw he
  obtain ⟨ty, rm, ftz⟩ := m
  refine decode_of (K := fun o => .frcp o ⟨ty, rm, ftz⟩) (g := (iSpec 0x4B o (⟨ty, rm, ftz⟩ : FMod))) (fun _ => rfl) (fun hok o o' => ?_) rfl (by simp [iSpec, cDst, cVK, cVKT, cVX, cVXK, cVKn]) (fun _ h => by simp [isTrailer] at h) (fun hok => ?_) hw he
  · have b_ty := tyCode_lt ty
    have b_rm := rmCode_lt rm
    have b_ftz := bit_lt ftz
    try simp only [iSpec, mFlt, Bool.and_eq_true, Bool.or_eq_true, decide_eq_true_eq, beq_iff_eq] at hok
    show some (Instr.frcp o' (fmodOf (((iSpec 0x4B o (⟨ty, rm, ftz⟩ : FMod)) : Info)).m)) = _
    simp only [fmodOf, Option.some.injEq, Instr.frcp.injEq, FMod.mk.injEq, true_and, and_true]
    repeat' apply And.intro
    all_goals first
      | rfl
      | exact tyOf_code (by simp only [iSpec, mFlt, fld_eq]; omega)
      | exact rmOf_code (by simp only [iSpec, mFlt, fld_eq]; omega)
      | exact bitN_bit (by simp only [iSpec, mFlt, fld_eq]; omega)
      | (simp only [iSpec, mFlt, fld_eq]; omega)
      | (simp_all; done)
  · have b_ty := tyCode_lt ty
    have b_rm := rmCode_lt rm
    have b_ftz := bit_lt ftz
    try simp only [iSpec, mFlt, Bool.and_eq_true, Bool.or_eq_true, decide_eq_true_eq, beq_iff_eq] at hok
    constructor <;> simp [iSpec, mFlt, formHasC] <;> omega

theorem frsq (o : Ops) (m : FMod) : Statement (.frsq o m) := by
  intro w hw he
  obtain ⟨ty, rm, ftz⟩ := m
  refine decode_of (K := fun o => .frsq o ⟨ty, rm, ftz⟩) (g := (iSpec 0x4C o (⟨ty, rm, ftz⟩ : FMod))) (fun _ => rfl) (fun hok o o' => ?_) rfl (by simp [iSpec, cDst, cVK, cVKT, cVX, cVXK, cVKn]) (fun _ h => by simp [isTrailer] at h) (fun hok => ?_) hw he
  · have b_ty := tyCode_lt ty
    have b_rm := rmCode_lt rm
    have b_ftz := bit_lt ftz
    try simp only [iSpec, mFlt, Bool.and_eq_true, Bool.or_eq_true, decide_eq_true_eq, beq_iff_eq] at hok
    show some (Instr.frsq o' (fmodOf (((iSpec 0x4C o (⟨ty, rm, ftz⟩ : FMod)) : Info)).m)) = _
    simp only [fmodOf, Option.some.injEq, Instr.frsq.injEq, FMod.mk.injEq, true_and, and_true]
    repeat' apply And.intro
    all_goals first
      | rfl
      | exact tyOf_code (by simp only [iSpec, mFlt, fld_eq]; omega)
      | exact rmOf_code (by simp only [iSpec, mFlt, fld_eq]; omega)
      | exact bitN_bit (by simp only [iSpec, mFlt, fld_eq]; omega)
      | (simp only [iSpec, mFlt, fld_eq]; omega)
      | (simp_all; done)
  · have b_ty := tyCode_lt ty
    have b_rm := rmCode_lt rm
    have b_ftz := bit_lt ftz
    try simp only [iSpec, mFlt, Bool.and_eq_true, Bool.or_eq_true, decide_eq_true_eq, beq_iff_eq] at hok
    constructor <;> simp [iSpec, mFlt, formHasC] <;> omega

theorem fex2 (o : Ops) (m : FMod) : Statement (.fex2 o m) := by
  intro w hw he
  obtain ⟨ty, rm, ftz⟩ := m
  refine decode_of (K := fun o => .fex2 o ⟨ty, rm, ftz⟩) (g := (iSpec 0x4D o (⟨ty, rm, ftz⟩ : FMod))) (fun _ => rfl) (fun hok o o' => ?_) rfl (by simp [iSpec, cDst, cVK, cVKT, cVX, cVXK, cVKn]) (fun _ h => by simp [isTrailer] at h) (fun hok => ?_) hw he
  · have b_ty := tyCode_lt ty
    have b_rm := rmCode_lt rm
    have b_ftz := bit_lt ftz
    try simp only [iSpec, mFlt, Bool.and_eq_true, Bool.or_eq_true, decide_eq_true_eq, beq_iff_eq] at hok
    show some (Instr.fex2 o' (fmodOf (((iSpec 0x4D o (⟨ty, rm, ftz⟩ : FMod)) : Info)).m)) = _
    simp only [fmodOf, Option.some.injEq, Instr.fex2.injEq, FMod.mk.injEq, true_and, and_true]
    repeat' apply And.intro
    all_goals first
      | rfl
      | exact tyOf_code (by simp only [iSpec, mFlt, fld_eq]; omega)
      | exact rmOf_code (by simp only [iSpec, mFlt, fld_eq]; omega)
      | exact bitN_bit (by simp only [iSpec, mFlt, fld_eq]; omega)
      | (simp only [iSpec, mFlt, fld_eq]; omega)
      | (simp_all; done)
  · have b_ty := tyCode_lt ty
    have b_rm := rmCode_lt rm
    have b_ftz := bit_lt ftz
    try simp only [iSpec, mFlt, Bool.and_eq_true, Bool.or_eq_true, decide_eq_true_eq, beq_iff_eq] at hok
    constructor <;> simp [iSpec, mFlt, formHasC] <;> omega

theorem flg2 (o : Ops) (m : FMod) : Statement (.flg2 o m) := by
  intro w hw he
  obtain ⟨ty, rm, ftz⟩ := m
  refine decode_of (K := fun o => .flg2 o ⟨ty, rm, ftz⟩) (g := (iSpec 0x4E o (⟨ty, rm, ftz⟩ : FMod))) (fun _ => rfl) (fun hok o o' => ?_) rfl (by simp [iSpec, cDst, cVK, cVKT, cVX, cVXK, cVKn]) (fun _ h => by simp [isTrailer] at h) (fun hok => ?_) hw he
  · have b_ty := tyCode_lt ty
    have b_rm := rmCode_lt rm
    have b_ftz := bit_lt ftz
    try simp only [iSpec, mFlt, Bool.and_eq_true, Bool.or_eq_true, decide_eq_true_eq, beq_iff_eq] at hok
    show some (Instr.flg2 o' (fmodOf (((iSpec 0x4E o (⟨ty, rm, ftz⟩ : FMod)) : Info)).m)) = _
    simp only [fmodOf, Option.some.injEq, Instr.flg2.injEq, FMod.mk.injEq, true_and, and_true]
    repeat' apply And.intro
    all_goals first
      | rfl
      | exact tyOf_code (by simp only [iSpec, mFlt, fld_eq]; omega)
      | exact rmOf_code (by simp only [iSpec, mFlt, fld_eq]; omega)
      | exact bitN_bit (by simp only [iSpec, mFlt, fld_eq]; omega)
      | (simp only [iSpec, mFlt, fld_eq]; omega)
      | (simp_all; done)
  · have b_ty := tyCode_lt ty
    have b_rm := rmCode_lt rm
    have b_ftz := bit_lt ftz
    try simp only [iSpec, mFlt, Bool.and_eq_true, Bool.or_eq_true, decide_eq_true_eq, beq_iff_eq] at hok
    constructor <;> simp [iSpec, mFlt, formHasC] <;> omega

theorem fsin (o : Ops) (m : FMod) : Statement (.fsin o m) := by
  intro w hw he
  obtain ⟨ty, rm, ftz⟩ := m
  refine decode_of (K := fun o => .fsin o ⟨ty, rm, ftz⟩) (g := (iSpec 0x4F o (⟨ty, rm, ftz⟩ : FMod))) (fun _ => rfl) (fun hok o o' => ?_) rfl (by simp [iSpec, cDst, cVK, cVKT, cVX, cVXK, cVKn]) (fun _ h => by simp [isTrailer] at h) (fun hok => ?_) hw he
  · have b_ty := tyCode_lt ty
    have b_rm := rmCode_lt rm
    have b_ftz := bit_lt ftz
    try simp only [iSpec, mFlt, Bool.and_eq_true, Bool.or_eq_true, decide_eq_true_eq, beq_iff_eq] at hok
    show some (Instr.fsin o' (fmodOf (((iSpec 0x4F o (⟨ty, rm, ftz⟩ : FMod)) : Info)).m)) = _
    simp only [fmodOf, Option.some.injEq, Instr.fsin.injEq, FMod.mk.injEq, true_and, and_true]
    repeat' apply And.intro
    all_goals first
      | rfl
      | exact tyOf_code (by simp only [iSpec, mFlt, fld_eq]; omega)
      | exact rmOf_code (by simp only [iSpec, mFlt, fld_eq]; omega)
      | exact bitN_bit (by simp only [iSpec, mFlt, fld_eq]; omega)
      | (simp only [iSpec, mFlt, fld_eq]; omega)
      | (simp_all; done)
  · have b_ty := tyCode_lt ty
    have b_rm := rmCode_lt rm
    have b_ftz := bit_lt ftz
    try simp only [iSpec, mFlt, Bool.and_eq_true, Bool.or_eq_true, decide_eq_true_eq, beq_iff_eq] at hok
    constructor <;> simp [iSpec, mFlt, formHasC] <;> omega

theorem fcos (o : Ops) (m : FMod) : Statement (.fcos o m) := by
  intro w hw he
  obtain ⟨ty, rm, ftz⟩ := m
  refine decode_of (K := fun o => .fcos o ⟨ty, rm, ftz⟩) (g := (iSpec 0x50 o (⟨ty, rm, ftz⟩ : FMod))) (fun _ => rfl) (fun hok o o' => ?_) rfl (by simp [iSpec, cDst, cVK, cVKT, cVX, cVXK, cVKn]) (fun _ h => by simp [isTrailer] at h) (fun hok => ?_) hw he
  · have b_ty := tyCode_lt ty
    have b_rm := rmCode_lt rm
    have b_ftz := bit_lt ftz
    try simp only [iSpec, mFlt, Bool.and_eq_true, Bool.or_eq_true, decide_eq_true_eq, beq_iff_eq] at hok
    show some (Instr.fcos o' (fmodOf (((iSpec 0x50 o (⟨ty, rm, ftz⟩ : FMod)) : Info)).m)) = _
    simp only [fmodOf, Option.some.injEq, Instr.fcos.injEq, FMod.mk.injEq, true_and, and_true]
    repeat' apply And.intro
    all_goals first
      | rfl
      | exact tyOf_code (by simp only [iSpec, mFlt, fld_eq]; omega)
      | exact rmOf_code (by simp only [iSpec, mFlt, fld_eq]; omega)
      | exact bitN_bit (by simp only [iSpec, mFlt, fld_eq]; omega)
      | (simp only [iSpec, mFlt, fld_eq]; omega)
      | (simp_all; done)
  · have b_ty := tyCode_lt ty
    have b_rm := rmCode_lt rm
    have b_ftz := bit_lt ftz
    try simp only [iSpec, mFlt, Bool.and_eq_true, Bool.or_eq_true, decide_eq_true_eq, beq_iff_eq] at hok
    constructor <;> simp [iSpec, mFlt, formHasC] <;> omega

theorem ftanh (o : Ops) (m : FMod) : Statement (.ftanh o m) := by
  intro w hw he
  obtain ⟨ty, rm, ftz⟩ := m
  refine decode_of (K := fun o => .ftanh o ⟨ty, rm, ftz⟩) (g := (iSpec 0x51 o (⟨ty, rm, ftz⟩ : FMod))) (fun _ => rfl) (fun hok o o' => ?_) rfl (by simp [iSpec, cDst, cVK, cVKT, cVX, cVXK, cVKn]) (fun _ h => by simp [isTrailer] at h) (fun hok => ?_) hw he
  · have b_ty := tyCode_lt ty
    have b_rm := rmCode_lt rm
    have b_ftz := bit_lt ftz
    try simp only [iSpec, mFlt, Bool.and_eq_true, Bool.or_eq_true, decide_eq_true_eq, beq_iff_eq] at hok
    show some (Instr.ftanh o' (fmodOf (((iSpec 0x51 o (⟨ty, rm, ftz⟩ : FMod)) : Info)).m)) = _
    simp only [fmodOf, Option.some.injEq, Instr.ftanh.injEq, FMod.mk.injEq, true_and, and_true]
    repeat' apply And.intro
    all_goals first
      | rfl
      | exact tyOf_code (by simp only [iSpec, mFlt, fld_eq]; omega)
      | exact rmOf_code (by simp only [iSpec, mFlt, fld_eq]; omega)
      | exact bitN_bit (by simp only [iSpec, mFlt, fld_eq]; omega)
      | (simp only [iSpec, mFlt, fld_eq]; omega)
      | (simp_all; done)
  · have b_ty := tyCode_lt ty
    have b_rm := rmCode_lt rm
    have b_ftz := bit_lt ftz
    try simp only [iSpec, mFlt, Bool.and_eq_true, Bool.or_eq_true, decide_eq_true_eq, beq_iff_eq] at hok
    constructor <;> simp [iSpec, mFlt, formHasC] <;> omega

theorem fdot2 (o : Ops) (m : FMod) : Statement (.fdot2 o m) := by
  intro w hw he
  obtain ⟨ty, rm, ftz⟩ := m
  refine decode_of (K := fun o => .fdot2 o ⟨ty, rm, ftz⟩) (g := { iFlt2 0x52 o (⟨ty, rm, ftz⟩ : FMod) with form := .f96c, c := cSrc, ok := ty == .f32x2 || ty == .f16x4 || ty == .bf16x4 }) (fun _ => rfl) (fun hok o o' => ?_) rfl (by simp [iFlt2, cDst, cVK, cVKT, cVX, cVXK, cVKn]) (fun _ h => by simp [isTrailer] at h) (fun hok => ?_) hw he
  · have b_ty := tyCode_lt ty
    have b_rm := rmCode_lt rm
    have b_ftz := bit_lt ftz
    try simp only [iFlt2, mFlt, Bool.and_eq_true, Bool.or_eq_true, decide_eq_true_eq, beq_iff_eq] at hok
    show some (Instr.fdot2 o' (fmodOf (({ iFlt2 0x52 o (⟨ty, rm, ftz⟩ : FMod) with form := .f96c, c := cSrc, ok := ty == .f32x2 || ty == .f16x4 || ty == .bf16x4 } : Info)).m)) = _
    simp only [fmodOf, Option.some.injEq, Instr.fdot2.injEq, FMod.mk.injEq, true_and, and_true]
    repeat' apply And.intro
    all_goals first
      | rfl
      | exact tyOf_code (by simp only [iFlt2, mFlt, fld_eq]; omega)
      | exact rmOf_code (by simp only [iFlt2, mFlt, fld_eq]; omega)
      | exact bitN_bit (by simp only [iFlt2, mFlt, fld_eq]; omega)
      | (simp only [iFlt2, mFlt, fld_eq]; omega)
      | (simp_all; done)
  · have b_ty := tyCode_lt ty
    have b_rm := rmCode_lt rm
    have b_ftz := bit_lt ftz
    try simp only [iFlt2, mFlt, Bool.and_eq_true, Bool.or_eq_true, decide_eq_true_eq, beq_iff_eq] at hok
    constructor <;> simp [iFlt2, mFlt, formHasC] <;> omega

theorem fscal (o : Ops) (m : FMod) : Statement (.fscal o m) := by
  intro w hw he
  obtain ⟨ty, rm, ftz⟩ := m
  refine decode_of (K := fun o => .fscal o ⟨ty, rm, ftz⟩) (g := (iFlt2 0x53 o (⟨ty, rm, ftz⟩ : FMod))) (fun _ => rfl) (fun hok o o' => ?_) rfl (by simp [iFlt2, cDst, cVK, cVKT, cVX, cVXK, cVKn]) (fun _ h => by simp [isTrailer] at h) (fun hok => ?_) hw he
  · have b_ty := tyCode_lt ty
    have b_rm := rmCode_lt rm
    have b_ftz := bit_lt ftz
    try simp only [iFlt2, mFlt, Bool.and_eq_true, Bool.or_eq_true, decide_eq_true_eq, beq_iff_eq] at hok
    show some (Instr.fscal o' (fmodOf (((iFlt2 0x53 o (⟨ty, rm, ftz⟩ : FMod)) : Info)).m)) = _
    simp only [fmodOf, Option.some.injEq, Instr.fscal.injEq, FMod.mk.injEq, true_and, and_true]
    repeat' apply And.intro
    all_goals first
      | rfl
      | exact tyOf_code (by simp only [iFlt2, mFlt, fld_eq]; omega)
      | exact rmOf_code (by simp only [iFlt2, mFlt, fld_eq]; omega)
      | exact bitN_bit (by simp only [iFlt2, mFlt, fld_eq]; omega)
      | (simp only [iFlt2, mFlt, fld_eq]; omega)
      | (simp_all; done)
  · have b_ty := tyCode_lt ty
    have b_rm := rmCode_lt rm
    have b_ftz := bit_lt ftz
    try simp only [iFlt2, mFlt, Bool.and_eq_true, Bool.or_eq_true, decide_eq_true_eq, beq_iff_eq] at hok
    constructor <;> simp [iFlt2, mFlt, formHasC] <;> omega

theorem cvt (o : Ops) (dt : Ty) (st : Ty) (rm : RM) : Statement (.cvt o dt st rm) := by
  intro w hw he
  refine decode_of (K := fun o => .cvt o dt st rm) (g := { op := 0x54, form := .f64, o := o, d := cDst, a := cSrc, m := mCvt dt st rm, ok := tyN dt == tyN st && dt != st && (!(tyInt dt && tyInt st) || rm == .rne) }) (fun _ => rfl) (fun hok o o' => ?_) rfl (by simp [cDst, cVK, cVKT, cVX, cVXK, cVKn]) (fun _ h => by simp [isTrailer] at h) (fun hok => ?_) hw he
  · have b_dt := tyCode_lt dt
    have b_st := tyCode_lt st
    have b_rm := rmCode_lt rm
    try simp only [mCvt, tyCode_f32, rmCode_rne, Bool.and_eq_true, Bool.or_eq_true, decide_eq_true_eq, beq_iff_eq] at hok
    show some (Instr.cvt o' (tyOf (fld (({ op := 0x54, form := .f64, o := o, d := cDst, a := cSrc, m := mCvt dt st rm, ok := tyN dt == tyN st && dt != st && (!(tyInt dt && tyInt st) || rm == .rne) } : Info)).m 0 5)) (tyOf (fld (({ op := 0x54, form := .f64, o := o, d := cDst, a := cSrc, m := mCvt dt st rm, ok := tyN dt == tyN st && dt != st && (!(tyInt dt && tyInt st) || rm == .rne) } : Info)).m 5 5)) (rmOf (fld (({ op := 0x54, form := .f64, o := o, d := cDst, a := cSrc, m := mCvt dt st rm, ok := tyN dt == tyN st && dt != st && (!(tyInt dt && tyInt st) || rm == .rne) } : Info)).m 10 3))) = _
    simp only [Option.some.injEq, Instr.cvt.injEq, true_and, and_true]
    repeat' apply And.intro
    all_goals first
      | rfl
      | exact tyOf_code (by simp only [mCvt, tyCode_f32, rmCode_rne, fld_eq]; omega)
      | exact rmOf_code (by simp only [mCvt, tyCode_f32, rmCode_rne, fld_eq]; omega)
      | (simp only [mCvt, tyCode_f32, rmCode_rne, fld_eq]; omega)
      | (simp_all; done)
  · have b_dt := tyCode_lt dt
    have b_st := tyCode_lt st
    have b_rm := rmCode_lt rm
    try simp only [mCvt, tyCode_f32, rmCode_rne, Bool.and_eq_true, Bool.or_eq_true, decide_eq_true_eq, beq_iff_eq] at hok
    constructor <;> simp [mCvt, tyCode_f32, rmCode_rne, formHasC] <;> omega

theorem cvtmxQ (o : Ops) (dt : Ty) (st : Ty) (rm : RM) : Statement (.cvtmxQ o dt st rm) := by
  intro w hw he
  refine decode_of (K := fun o => .cvtmxQ o dt st rm) (g := { op := 0x55, form := .f96c, o := o, d := cDst, a := cSrc, b := cSrc, c := cSrc, m := mCvt dt st rm, m2 := 0, ok := tyMx dt && (st == .bf16x4 || st == .f16x4) }) (fun _ => rfl) (fun hok o o' => ?_) rfl (by simp [cDst, cVK, cVKT, cVX, cVXK, cVKn]) (fun _ h => by simp [isTrailer] at h) (fun hok => ?_) hw he
  · have b_dt := tyCode_lt dt
    have b_st := tyCode_lt st
    have b_rm := rmCode_lt rm
    try simp only [mCvt, tyCode_f32, rmCode_rne, Bool.and_eq_true, Bool.or_eq_true, decide_eq_true_eq, beq_iff_eq] at hok
    show some (Instr.cvtmxQ o' (tyOf (fld (({ op := 0x55, form := .f96c, o := o, d := cDst, a := cSrc, b := cSrc, c := cSrc, m := mCvt dt st rm, m2 := 0, ok := tyMx dt && (st == .bf16x4 || st == .f16x4) } : Info)).m 0 5)) (tyOf (fld (({ op := 0x55, form := .f96c, o := o, d := cDst, a := cSrc, b := cSrc, c := cSrc, m := mCvt dt st rm, m2 := 0, ok := tyMx dt && (st == .bf16x4 || st == .f16x4) } : Info)).m 5 5)) (rmOf (fld (({ op := 0x55, form := .f96c, o := o, d := cDst, a := cSrc, b := cSrc, c := cSrc, m := mCvt dt st rm, m2 := 0, ok := tyMx dt && (st == .bf16x4 || st == .f16x4) } : Info)).m 10 3))) = _
    simp only [Option.some.injEq, Instr.cvtmxQ.injEq, true_and, and_true]
    repeat' apply And.intro
    all_goals first
      | rfl
      | exact tyOf_code (by simp only [mCvt, tyCode_f32, rmCode_rne, fld_eq]; omega)
      | exact rmOf_code (by simp only [mCvt, tyCode_f32, rmCode_rne, fld_eq]; omega)
      | (simp only [mCvt, tyCode_f32, rmCode_rne, fld_eq]; omega)
      | (simp_all; done)
  · have b_dt := tyCode_lt dt
    have b_st := tyCode_lt st
    have b_rm := rmCode_lt rm
    try simp only [mCvt, tyCode_f32, rmCode_rne, Bool.and_eq_true, Bool.or_eq_true, decide_eq_true_eq, beq_iff_eq] at hok
    constructor <;> simp [mCvt, tyCode_f32, rmCode_rne, formHasC] <;> omega

theorem cvtmxD (o : Ops) (dt : Ty) (st : Ty) (rm : RM) (grp : Nat) : Statement (.cvtmxD o dt st rm grp) := by
  intro w hw he
  refine decode_of (K := fun o => .cvtmxD o dt st rm grp) (g := { op := 0x55, form := .f96c, o := o, d := cDst, a := cSrc, c := cSrc, m := mCvt dt st rm, m2 := 1 + 4 * grp, ok := tyMx st && (dt == .f32x2 || dt == .bf16x4) && grp < 8 && tyN dt * grp + tyN dt ≤ tyN st }) (fun _ => rfl) (fun hok o o' => ?_) rfl (by simp [cDst, cVK, cVKT, cVX, cVXK, cVKn]) (fun _ h => by simp [isTrailer] at h) (fun hok => ?_) hw he
  · have b_dt := tyCode_lt dt
    have b_st := tyCode_lt st
    have b_rm := rmCode_lt rm
    try simp only [mCvt, tyCode_f32, rmCode_rne, Bool.and_eq_true, Bool.or_eq_true, decide_eq_true_eq, beq_iff_eq] at hok
    have e : fld (1 + 4 * grp) 0 2 = 1 := by simp only [fld_eq]; omega
    simp only [candidate, rawOfInfo, formHasC, e, Bool.false_eq_true, if_false, if_true]
    simp only [Option.some.injEq, Instr.cvtmxD.injEq, true_and, and_true]
    repeat' apply And.intro
    all_goals first
      | rfl
      | exact tyOf_code (by simp only [mCvt, tyCode_f32, rmCode_rne, fld_eq]; omega)
      | exact rmOf_code (by simp only [mCvt, tyCode_f32, rmCode_rne, fld_eq]; omega)
      | (simp only [mCvt, tyCode_f32, rmCode_rne, fld_eq]; omega)
      | (simp_all; done)
  · have b_dt := tyCode_lt dt
    have b_st := tyCode_lt st
    have b_rm := rmCode_lt rm
    try simp only [mCvt, tyCode_f32, rmCode_rne, Bool.and_eq_true, Bool.or_eq_true, decide_eq_true_eq, beq_iff_eq] at hok
    constructor <;> simp [mCvt, tyCode_f32, rmCode_rne, formHasC] <;> omega

theorem cvtmxS (o : Ops) (dt : Ty) : Statement (.cvtmxS o dt) := by
  intro w hw he
  refine decode_of (K := fun o => .cvtmxS o dt) (g := { op := 0x55, form := .f96c, o := o, d := cDst, a := cSrc, m := mCvt dt .f32 .rne, m2 := 2, ok := tyMx dt }) (fun _ => rfl) (fun hok o o' => ?_) rfl (by simp [cDst, cVK, cVKT, cVX, cVXK, cVKn]) (fun _ h => by simp [isTrailer] at h) (fun hok => ?_) hw he
  · have b_dt := tyCode_lt dt
    try simp only [mCvt, tyCode_f32, rmCode_rne, Bool.and_eq_true, Bool.or_eq_true, decide_eq_true_eq, beq_iff_eq] at hok
    show some (Instr.cvtmxS o' (tyOf (fld (({ op := 0x55, form := .f96c, o := o, d := cDst, a := cSrc, m := mCvt dt .f32 .rne, m2 := 2, ok := tyMx dt } : Info)).m 0 5))) = _
    simp only [Option.some.injEq, Instr.cvtmxS.injEq, true_and, and_true]
    repeat' apply And.intro
    all_goals first
      | rfl
      | exact tyOf_code (by simp only [mCvt, tyCode_f32, rmCode_rne, fld_eq]; omega)
      | (simp only [mCvt, tyCode_f32, rmCode_rne, fld_eq]; omega)
      | (simp_all; done)
  · have b_dt := tyCode_lt dt
    try simp only [mCvt, tyCode_f32, rmCode_rne, Bool.and_eq_true, Bool.or_eq_true, decide_eq_true_eq, beq_iff_eq] at hok
    constructor <;> simp [mCvt, tyCode_f32, rmCode_rne, formHasC] <;> omega

theorem pk (o : Ops) (dt : Ty) (st : Ty) (rm : RM) : Statement (.pk o dt st rm) := by
  intro w hw he
  refine decode_of (K := fun o => .pk o dt st rm) (g := { op := 0x56, form := .f64, o := o, d := cDst, a := cSrc, b := cSrc, m := mCvt dt st rm, ok := pkPair st dt && (!tyInt st || rm == .rne) }) (fun _ => rfl) (fun hok o o' => ?_) rfl (by simp [cDst, cVK, cVKT, cVX, cVXK, cVKn]) (fun _ h => by simp [isTrailer] at h) (fun hok => ?_) hw he
  · have b_dt := tyCode_lt dt
    have b_st := tyCode_lt st
    have b_rm := rmCode_lt rm
    try simp only [mCvt, tyCode_f32, rmCode_rne, Bool.and_eq_true, Bool.or_eq_true, decide_eq_true_eq, beq_iff_eq] at hok
    show some (Instr.pk o' (tyOf (fld (({ op := 0x56, form := .f64, o := o, d := cDst, a := cSrc, b := cSrc, m := mCvt dt st rm, ok := pkPair st dt && (!tyInt st || rm == .rne) } : Info)).m 0 5)) (tyOf (fld (({ op := 0x56, form := .f64, o := o, d := cDst, a := cSrc, b := cSrc, m := mCvt dt st rm, ok := pkPair st dt && (!tyInt st || rm == .rne) } : Info)).m 5 5)) (rmOf (fld (({ op := 0x56, form := .f64, o := o, d := cDst, a := cSrc, b := cSrc, m := mCvt dt st rm, ok := pkPair st dt && (!tyInt st || rm == .rne) } : Info)).m 10 3))) = _
    simp only [Option.some.injEq, Instr.pk.injEq, true_and, and_true]
    repeat' apply And.intro
    all_goals first
      | rfl
      | exact tyOf_code (by simp only [mCvt, tyCode_f32, rmCode_rne, fld_eq]; omega)
      | exact rmOf_code (by simp only [mCvt, tyCode_f32, rmCode_rne, fld_eq]; omega)
      | (simp only [mCvt, tyCode_f32, rmCode_rne, fld_eq]; omega)
      | (simp_all; done)
  · have b_dt := tyCode_lt dt
    have b_st := tyCode_lt st
    have b_rm := rmCode_lt rm
    try simp only [mCvt, tyCode_f32, rmCode_rne, Bool.and_eq_true, Bool.or_eq_true, decide_eq_true_eq, beq_iff_eq] at hok
    constructor <;> simp [mCvt, tyCode_f32, rmCode_rne, formHasC] <;> omega

theorem upk (o : Ops) (dt : Ty) (st : Ty) (hi : Bool) : Statement (.upk o dt st hi) := by
  intro w hw he
  refine decode_of (K := fun o => .upk o dt st hi) (g := { op := 0x57, form := .f64, o := o, d := cDst, a := cSrc, m := tyCode dt + 32 * tyCode st + 1024 * bit hi, ok := pkPair dt st }) (fun _ => rfl) (fun hok o o' => ?_) rfl (by simp [cDst, cVK, cVKT, cVX, cVXK, cVKn]) (fun _ h => by simp [isTrailer] at h) (fun hok => ?_) hw he
  · have b_dt := tyCode_lt dt
    have b_st := tyCode_lt st
    have b_hi := bit_lt hi
    try simp only [bit_false, bit_true, Bool.and_eq_true, Bool.or_eq_true, decide_eq_true_eq, beq_iff_eq] at hok
    show some (Instr.upk o' (tyOf (fld (({ op := 0x57, form := .f64, o := o, d := cDst, a := cSrc, m := tyCode dt + 32 * tyCode st + 1024 * bit hi, ok := pkPair dt st } : Info)).m 0 5)) (tyOf (fld (({ op := 0x57, form := .f64, o := o, d := cDst, a := cSrc, m := tyCode dt + 32 * tyCode st + 1024 * bit hi, ok := pkPair dt st } : Info)).m 5 5)) (bitN (({ op := 0x57, form := .f64, o := o, d := cDst, a := cSrc, m := tyCode dt + 32 * tyCode st + 1024 * bit hi, ok := pkPair dt st } : Info)).m 10)) = _
    simp only [Option.some.injEq, Instr.upk.injEq, true_and, and_true]
    repeat' apply And.intro
    all_goals first
      | rfl
      | exact tyOf_code (by simp only [bit_false, bit_true, fld_eq]; omega)
      | exact bitN_bit (by simp only [bit_false, bit_true, fld_eq]; omega)
      | (simp only [bit_false, bit_true, fld_eq]; omega)
      | (simp_all; done)
  · have b_dt := tyCode_lt dt
    have b_st := tyCode_lt st
    have b_hi := bit_lt hi
    try simp only [bit_false, bit_true, Bool.and_eq_true, Bool.or_eq_true, decide_eq_true_eq, beq_iff_eq] at hok
    constructor <;> simp [bit_false, bit_true, formHasC] <;> omega

theorem shfl (o : Ops) (mode : Nat) (seg : Nat) : Statement (.shfl o mode seg) := by
  intro w hw he
  refine decode_of (K := fun o => .shfl o mode seg) (g := { op := 0x60, form := .f64, o := o, d := cDst, a := cSrc, b := cSrc, m := 4 + 32 * mode + 128 * seg, ok := mode < 4 && seg < 5 }) (fun _ => rfl) (fun hok o o' => ?_) rfl (by simp [cDst, cVK, cVKT, cVX, cVXK, cVKn]) (fun _ h => by simp [isTrailer] at h) (fun hok => ?_) hw he
  · try simp only [Bool.and_eq_true, Bool.or_eq_true, decide_eq_true_eq, beq_iff_eq] at hok
    show some (Instr.shfl o' (fld (({ op := 0x60, form := .f64, o := o, d := cDst, a := cSrc, b := cSrc, m := 4 + 32 * mode + 128 * seg, ok := mode < 4 && seg < 5 } : Info)).m 5 2) (fld (({ op := 0x60, form := .f64, o := o, d := cDst, a := cSrc, b := cSrc, m := 4 + 32 * mode + 128 * seg, ok := mode < 4 && seg < 5 } : Info)).m 7 3)) = _
    simp only [Option.some.injEq, Instr.shfl.injEq, true_and, and_true]
    repeat' apply And.intro
    all_goals first
      | rfl
      | (simp only [fld_eq]; omega)
      | (simp_all; done)
  · try simp only [Bool.and_eq_true, Bool.or_eq_true, decide_eq_true_eq, beq_iff_eq] at hok
    constructor <;> simp [formHasC] <;> omega

theorem qx (o : Ops) (mode : Nat) : Statement (.qx o mode) := by
  intro w hw he
  refine decode_of (K := fun o => .qx o mode) (g := { op := 0x61, form := .f64, o := o, d := cDst, a := cSrc, m := 4 + 32 * mode, ok := mode < 3 }) (fun _ => rfl) (fun hok o o' => ?_) rfl (by simp [cDst, cVK, cVKT, cVX, cVXK, cVKn]) (fun _ h => by simp [isTrailer] at h) (fun hok => ?_) hw he
  · try simp only [Bool.and_eq_true, Bool.or_eq_true, decide_eq_true_eq, beq_iff_eq] at hok
    show some (Instr.qx o' (fld (({ op := 0x61, form := .f64, o := o, d := cDst, a := cSrc, m := 4 + 32 * mode, ok := mode < 3 } : Info)).m 5 2)) = _
    simp only [Option.some.injEq, Instr.qx.injEq, true_and, and_true]
    repeat' apply And.intro
    all_goals first
      | rfl
      | (simp only [fld_eq]; omega)
      | (simp_all; done)
  · try simp only [Bool.and_eq_true, Bool.or_eq_true, decide_eq_true_eq, beq_iff_eq] at hok
    constructor <;> simp [formHasC] <;> omega

theorem qbc (o : Ops) (lane : Nat) : Statement (.qbc o lane) := by
  intro w hw he
  refine decode_of (K := fun o => .qbc o lane) (g := { op := 0x62, form := .f64, o := o, d := cDst, a := cSrc, m := 4 + 32 * lane, ok := lane < 4 }) (fun _ => rfl) (fun hok o o' => ?_) rfl (by simp [cDst, cVK, cVKT, cVX, cVXK, cVKn]) (fun _ h => by simp [isTrailer] at h) (fun hok => ?_) hw he
  · try simp only [Bool.and_eq_true, Bool.or_eq_true, decide_eq_true_eq, beq_iff_eq] at hok
    show some (Instr.qbc o' (fld (({ op := 0x62, form := .f64, o := o, d := cDst, a := cSrc, m := 4 + 32 * lane, ok := lane < 4 } : Info)).m 5 2)) = _
    simp only [Option.some.injEq, Instr.qbc.injEq, true_and, and_true]
    repeat' apply And.intro
    all_goals first
      | rfl
      | (simp only [fld_eq]; omega)
      | (simp_all; done)
  · try simp only [Bool.and_eq_true, Bool.or_eq_true, decide_eq_true_eq, beq_iff_eq] at hok
    constructor <;> simp [formHasC] <;> omega

theorem credc (o : Ops) (ty : Ty) (op : COp) (seg : Nat) : Statement (.credc o ty op seg) := by
  intro w hw he
  refine decode_of (K := fun o => .credc o ty op seg) (g := { op := 0x63, form := .f64, o := o, d := cDst, a := cSrc, m := tyCode ty + 32 * copCode op + 256 * seg, ok := seg < 5 && (tyInt ty || (tyFlt ty && copCode op < 3)) }) (fun _ => rfl) (fun hok o o' => ?_) rfl (by simp [cDst, cVK, cVKT, cVX, cVXK, cVKn]) (fun _ h => by simp [isTrailer] at h) (fun hok => ?_) hw he
  · have b_ty := tyCode_lt ty
    have b_op := copCode_lt op
    try simp only [Bool.and_eq_true, Bool.or_eq_true, decide_eq_true_eq, beq_iff_eq] at hok
    show some (Instr.credc o' (tyOf (fld (({ op := 0x63, form := .f64, o := o, d := cDst, a := cSrc, m := tyCode ty + 32 * copCode op + 256 * seg, ok := seg < 5 && (tyInt ty || (tyFlt ty && copCode op < 3)) } : Info)).m 0 5)) (copOf (fld (({ op := 0x63, form := .f64, o := o, d := cDst, a := cSrc, m := tyCode ty + 32 * copCode op + 256 * seg, ok := seg < 5 && (tyInt ty || (tyFlt ty && copCode op < 3)) } : Info)).m 5 3)) (fld (({ op := 0x63, form := .f64, o := o, d := cDst, a := cSrc, m := tyCode ty + 32 * copCode op + 256 * seg, ok := seg < 5 && (tyInt ty || (tyFlt ty && copCode op < 3)) } : Info)).m 8 3)) = _
    simp only [Option.some.injEq, Instr.credc.injEq, true_and, and_true]
    repeat' apply And.intro
    all_goals first
      | rfl
      | exact tyOf_code (by simp only [fld_eq]; omega)
      | exact copOf_code (by simp only [fld_eq]; omega)
      | (simp only [fld_eq]; omega)
      | (simp_all; done)
  · have b_ty := tyCode_lt ty
    have b_op := copCode_lt op
    try simp only [Bool.and_eq_true, Bool.or_eq_true, decide_eq_true_eq, beq_iff_eq] at hok
    constructor <;> simp [formHasC] <;> omega

theorem cscan (o : Ops) (ty : Ty) (op : COp) (seg : Nat) (excl : Bool) : Statement (.cscan o ty op seg excl) := by
  intro w hw he
  refine decode_of (K := fun o => .cscan o ty op seg excl) (g := { op := 0x64, form := .f64, o := o, d := cDst, a := cSrc, m := tyCode ty + 32 * copCode op + 256 * seg + 2048 * bit excl, ok := seg < 5 && (tyInt ty || (tyFlt ty && copCode op < 3)) }) (fun _ => rfl) (fun hok o o' => ?_) rfl (by simp [cDst, cVK, cVKT, cVX, cVXK, cVKn]) (fun _ h => by simp [isTrailer] at h) (fun hok => ?_) hw he
  · have b_ty := tyCode_lt ty
    have b_op := copCode_lt op
    have b_excl := bit_lt excl
    try simp only [bit_false, bit_true, Bool.and_eq_true, Bool.or_eq_true, decide_eq_true_eq, beq_iff_eq] at hok
    show some (Instr.cscan o' (tyOf (fld (({ op := 0x64, form := .f64, o := o, d := cDst, a := cSrc, m := tyCode ty + 32 * copCode op + 256 * seg + 2048 * bit excl, ok := seg < 5 && (tyInt ty || (tyFlt ty && copCode op < 3)) } : Info)).m 0 5)) (copOf (fld (({ op := 0x64, form := .f64, o := o, d := cDst, a := cSrc, m := tyCode ty + 32 * copCode op + 256 * seg + 2048 * bit excl, ok := seg < 5 && (tyInt ty || (tyFlt ty && copCode op < 3)) } : Info)).m 5 3)) (fld (({ op := 0x64, form := .f64, o := o, d := cDst, a := cSrc, m := tyCode ty + 32 * copCode op + 256 * seg + 2048 * bit excl, ok := seg < 5 && (tyInt ty || (tyFlt ty && copCode op < 3)) } : Info)).m 8 3) (bitN (({ op := 0x64, form := .f64, o := o, d := cDst, a := cSrc, m := tyCode ty + 32 * copCode op + 256 * seg + 2048 * bit excl, ok := seg < 5 && (tyInt ty || (tyFlt ty && copCode op < 3)) } : Info)).m 11)) = _
    simp only [Option.some.injEq, Instr.cscan.injEq, true_and, and_true]
    repeat' apply And.intro
    all_goals first
      | rfl
      | exact tyOf_code (by simp only [bit_false, bit_true, fld_eq]; omega)
      | exact copOf_code (by simp only [bit_false, bit_true, fld_eq]; omega)
      | exact bitN_bit (by simp only [bit_false, bit_true, fld_eq]; omega)
      | (simp only [bit_false, bit_true, fld_eq]; omega)
      | (simp_all; done)
  · have b_ty := tyCode_lt ty
    have b_op := copCode_lt op
    have b_excl := bit_lt excl
    try simp only [bit_false, bit_true, Bool.and_eq_true, Bool.or_eq_true, decide_eq_true_eq, beq_iff_eq] at hok
    constructor <;> simp [bit_false, bit_true, formHasC] <;> omega

theorem matchx (o : Ops) (ty : Ty) (seg : Nat) : Statement (.matchx o ty seg) := by
  intro w hw he
  refine decode_of (K := fun o => .matchx o ty seg) (g := { op := 0x65, form := .f64, o := o, d := cDst, a := cSrc, m := tyCode ty + 256 * seg, ok := seg < 5 && (ty == .n64 || ty == .n32 || ty == .n16 || ty == .n8) }) (fun _ => rfl) (fun hok o o' => ?_) rfl (by simp [cDst, cVK, cVKT, cVX, cVXK, cVKn]) (fun _ h => by simp [isTrailer] at h) (fun hok => ?_) hw he
  · have b_ty := tyCode_lt ty
    try simp only [tyCode_n64, Bool.and_eq_true, Bool.or_eq_true, decide_eq_true_eq, beq_iff_eq] at hok
    show some (Instr.matchx o' (tyOf (fld (({ op := 0x65, form := .f64, o := o, d := cDst, a := cSrc, m := tyCode ty + 256 * seg, ok := seg < 5 && (ty == .n64 || ty == .n32 || ty == .n16 || ty == .n8) } : Info)).m 0 5)) (fld (({ op := 0x65, form := .f64, o := o, d := cDst, a := cSrc, m := tyCode ty + 256 * seg, ok := seg < 5 && (ty == .n64 || ty == .n32 || ty == .n16 || ty == .n8) } : Info)).m 8 3)) = _
    simp only [Option.some.injEq, Instr.matchx.injEq, true_and, and_true]
    repeat' apply And.intro
    all_goals first
      | rfl
      | exact tyOf_code (by simp only [tyCode_n64, fld_eq]; omega)
      | (simp only [tyCode_n64, fld_eq]; omega)
      | (simp_all; done)
  · have b_ty := tyCode_lt ty
    try simp only [tyCode_n64, Bool.and_eq_true, Bool.or_eq_true, decide_eq_true_eq, beq_iff_eq] at hok
    constructor <;> simp [tyCode_n64, formHasC] <;> omega

theorem ld (o : Ops) (m : LdM) : Statement (.ld o m) := by
  intro w hw he
  obtain ⟨size, acq, ch, span, off⟩ := m
  refine decode_of (K := fun o => .ld o ⟨size, acq, ch, span, off⟩) (g := { op := 0x70, form := .f96c, o := o, d := cVX, a := cSrc, b := cSrc, m := mLd (⟨size, acq, ch, span, off⟩ : LdM), m2 := offF 12 off, ok := ch < 3 && span < 8 && offOk 12 off }) (fun _ => rfl) (fun hok o o' => ?_) rfl (by simp [cDst, cVK, cVKT, cVX, cVXK, cVKn]) (fun _ h => by simp [isTrailer] at h) (fun hok => ?_) hw he
  · have b_size := lsizeCode_lt size
    obtain ⟨q, hq, hq2, hq3⟩ := mLd_form ⟨size, acq, ch, span, off⟩
    simp only at hq
    have b_off := offF_lt 12 off
    have c_off := offF_lt 10 off
    try simp only [Bool.and_eq_true, Bool.or_eq_true, decide_eq_true_eq, beq_iff_eq] at hok
    show some (Instr.ld o' (ldmOf (({ op := 0x70, form := .f96c, o := o, d := cVX, a := cSrc, b := cSrc, m := mLd (⟨size, acq, ch, span, off⟩ : LdM), m2 := offF 12 off, ok := ch < 3 && span < 8 && offOk 12 off } : Info)).m (({ op := 0x70, form := .f96c, o := o, d := cVX, a := cSrc, b := cSrc, m := mLd (⟨size, acq, ch, span, off⟩ : LdM), m2 := offF 12 off, ok := ch < 3 && span < 8 && offOk 12 off } : Info)).m2)) = _
    simp only [ldmOf, Option.some.injEq, Instr.ld.injEq, LdM.mk.injEq, true_and, and_true]
    repeat' apply And.intro
    all_goals first
      | rfl
      | exact lsizeOf_code (by simp only [hq, fld_eq]; omega)
      | exact sextN_offF (by decide) (by simp_all) (by (try simp only [hq]); omega)
      | exact hq3 _ (by simp only [hq]; omega)
      | (simp only [hq, fld_eq]; omega)
      | (simp_all; done)
  · have b_size := lsizeCode_lt size
    obtain ⟨q, hq, hq2, hq3⟩ := mLd_form ⟨size, acq, ch, span, off⟩
    simp only at hq
    have b_off := offF_lt 12 off
    have c_off := offF_lt 10 off
    try simp only [Bool.and_eq_true, Bool.or_eq_true, decide_eq_true_eq, beq_iff_eq] at hok
    constructor <;> simp [hq, formHasC] <;> omega

theorem st (o : Ops) (m : StM) : Statement (.st o m) := by
  intro w hw he
  obtain ⟨size, acq, strm, off⟩ := m
  refine decode_of (K := fun o => .st o ⟨size, acq, strm, off⟩) (g := { op := 0x71, form := .f96c, o := o, a := cSrc, b := cSrc, c := cSrc, m := mLd ⟨size, acq, bit strm, 0, off⟩, m2 := offF 12 off, ok := lsizeCode size < 4 && offOk 12 off }) (fun _ => rfl) (fun hok o o' => ?_) rfl (by simp [cDst, cVK, cVKT, cVX, cVXK, cVKn]) (fun _ h => by simp [isTrailer] at h) (fun hok => ?_) hw he
  · have b_size := lsizeCode_lt size
    obtain ⟨q, hq, hq2, hq3⟩ := mLd_form ⟨size, acq, bit strm, 0, off⟩
    simp only at hq
    have b_strm := bit_lt strm
    have b_off := offF_lt 12 off
    have c_off := offF_lt 10 off
    try simp only [bit_false, bit_true, Bool.and_eq_true, Bool.or_eq_true, decide_eq_true_eq, beq_iff_eq] at hok
    show some (Instr.st o' ⟨lsizeOf (fld (({ op := 0x71, form := .f96c, o := o, a := cSrc, b := cSrc, c := cSrc, m := mLd ⟨size, acq, bit strm, 0, off⟩, m2 := offF 12 off, ok := lsizeCode size < 4 && offOk 12 off } : Info)).m 0 3), if bitN (({ op := 0x71, form := .f96c, o := o, a := cSrc, b := cSrc, c := cSrc, m := mLd ⟨size, acq, bit strm, 0, off⟩, m2 := offF 12 off, ok := lsizeCode size < 4 && offOk 12 off } : Info)).m 8 then some (scopeOf (fld (({ op := 0x71, form := .f96c, o := o, a := cSrc, b := cSrc, c := cSrc, m := mLd ⟨size, acq, bit strm, 0, off⟩, m2 := offF 12 off, ok := lsizeCode size < 4 && offOk 12 off } : Info)).m 9 4)) else none, bitN (({ op := 0x71, form := .f96c, o := o, a := cSrc, b := cSrc, c := cSrc, m := mLd ⟨size, acq, bit strm, 0, off⟩, m2 := offF 12 off, ok := lsizeCode size < 4 && offOk 12 off } : Info)).m 3, (sextN 12 (({ op := 0x71, form := .f96c, o := o, a := cSrc, b := cSrc, c := cSrc, m := mLd ⟨size, acq, bit strm, 0, off⟩, m2 := offF 12 off, ok := lsizeCode size < 4 && offOk 12 off } : Info)).m2)⟩) = _
    simp only [Option.some.injEq, Instr.st.injEq, StM.mk.injEq, true_and, and_true]
    repeat' apply And.intro
    all_goals first
      | rfl
      | exact lsizeOf_code (by simp only [bit_false, bit_true, hq, fld_eq]; omega)
      | exact bitN_bit (by simp only [bit_false, bit_true, hq, fld_eq]; omega)
      | exact sextN_offF (by decide) (by simp_all) (by (try simp only [bit_false, bit_true, hq]); omega)
      | exact hq3 _ (by simp only [bit_false, bit_true, hq]; omega)
      | (simp only [bit_false, bit_true, hq, fld_eq]; omega)
      | (simp_all; done)
  · have b_size := lsizeCode_lt size
    obtain ⟨q, hq, hq2, hq3⟩ := mLd_form ⟨size, acq, bit strm, 0, off⟩
    simp only at hq
    have b_strm := bit_lt strm
    have b_off := offF_lt 12 off
    have c_off := offF_lt 10 off
    try simp only [bit_false, bit_true, Bool.and_eq_true, Bool.or_eq_true, decide_eq_true_eq, beq_iff_eq] at hok
    constructor <;> simp [bit_false, bit_true, hq, formHasC] <;> omega

theorem ldl (o : Ops) (m : LocM) : Statement (.ldl o m) := by
  intro w hw he
  obtain ⟨size, swz, nw, off⟩ := m
  refine decode_of (K := fun o => .ldl o ⟨size, swz, nw, off⟩) (g := (iLoc 0x72 o (⟨size, swz, nw, off⟩ : LocM) true true)) (fun _ => rfl) (fun hok o o' => ?_) rfl (by simp [iLoc, cDst, cVK, cVKT, cVX, cVXK, cVKn]) (fun _ h => by simp [isTrailer] at h) (fun hok => ?_) hw he
  · have b_size := lsizeCode_lt size
    have b_nw := bit_lt nw
    have b_off := offF_lt 12 off
    have c_off := offF_lt 10 off
    try simp only [iLoc, mLoc, Bool.and_eq_true, Bool.or_eq_true, decide_eq_true_eq, beq_iff_eq] at hok
    show some (Instr.ldl o' (locmOf (((iLoc 0x72 o (⟨size, swz, nw, off⟩ : LocM) true true) : Info)).m (((iLoc 0x72 o (⟨size, swz, nw, off⟩ : LocM) true true) : Info)).m2)) = _
    simp only [locmOf, Option.some.injEq, Instr.ldl.injEq, LocM.mk.injEq, true_and, and_true]
    repeat' apply And.intro
    all_goals first
      | rfl
      | exact lsizeOf_code (by simp only [iLoc, mLoc, fld_eq]; omega)
      | exact bitN_bit (by simp only [iLoc, mLoc, fld_eq]; omega)
      | exact sextN_offF (by decide) (by simp_all) (by (try simp only [iLoc, mLoc]); omega)
      | (simp only [iLoc, mLoc, fld_eq]; omega)
      | (simp_all; done)
  · have b_size := lsizeCode_lt size
    have b_nw := bit_lt nw
    have b_off := offF_lt 12 off
    have c_off := offF_lt 10 off
    try simp only [iLoc, mLoc, Bool.and_eq_true, Bool.or_eq_true, decide_eq_true_eq, beq_iff_eq] at hok
    constructor <;> simp [iLoc, mLoc, formHasC] <;> omega

theorem stl (o : Ops) (m : LocM) : Statement (.stl o m) := by
  intro w hw he
  obtain ⟨size, swz, nw, off⟩ := m
  refine decode_of (K := fun o => .stl o ⟨size, swz, nw, off⟩) (g := (iLoc 0x73 o (⟨size, swz, nw, off⟩ : LocM) false false)) (fun _ => rfl) (fun hok o o' => ?_) rfl (by simp [iLoc, cDst, cVK, cVKT, cVX, cVXK, cVKn]) (fun _ h => by simp [isTrailer] at h) (fun hok => ?_) hw he
  · have b_size := lsizeCode_lt size
    have b_nw := bit_lt nw
    have b_off := offF_lt 12 off
    have c_off := offF_lt 10 off
    try simp only [iLoc, mLoc, Bool.and_eq_true, Bool.or_eq_true, decide_eq_true_eq, beq_iff_eq] at hok
    show some (Instr.stl o' (locmOf (((iLoc 0x73 o (⟨size, swz, nw, off⟩ : LocM) false false) : Info)).m (((iLoc 0x73 o (⟨size, swz, nw, off⟩ : LocM) false false) : Info)).m2)) = _
    simp only [locmOf, Option.some.injEq, Instr.stl.injEq, LocM.mk.injEq, true_and, and_true]
    repeat' apply And.intro
    all_goals first
      | rfl
      | exact lsizeOf_code (by simp only [iLoc, mLoc, fld_eq]; omega)
      | exact bitN_bit (by simp only [iLoc, mLoc, fld_eq]; omega)
      | exact sextN_offF (by decide) (by simp_all) (by (try simp only [iLoc, mLoc]); omega)
      | (simp only [iLoc, mLoc, fld_eq]; omega)
      | (simp_all; done)
  · have b_size := lsizeCode_lt size
    have b_nw := bit_lt nw
    have b_off := offF_lt 12 off
    have c_off := offF_lt 10 off
    try simp only [iLoc, mLoc, Bool.and_eq_true, Bool.or_eq_true, decide_eq_true_eq, beq_iff_eq] at hok
    constructor <;> simp [iLoc, mLoc, formHasC] <;> omega

theorem ldr (o : Ops) (m : LocM) : Statement (.ldr o m) := by
  intro w hw he
  obtain ⟨size, swz, nw, off⟩ := m
  refine decode_of (K := fun o => .ldr o ⟨size, swz, nw, off⟩) (g := (iLoc 0x74 o (⟨size, swz, nw, off⟩ : LocM) true false)) (fun _ => rfl) (fun hok o o' => ?_) rfl (by simp [iLoc, cDst, cVK, cVKT, cVX, cVXK, cVKn]) (fun _ h => by simp [isTrailer] at h) (fun hok => ?_) hw he
  · have b_size := lsizeCode_lt size
    have b_nw := bit_lt nw
    have b_off := offF_lt 12 off
    have c_off := offF_lt 10 off
    try simp only [iLoc, mLoc, Bool.and_eq_true, Bool.or_eq_true, decide_eq_true_eq, beq_iff_eq] at hok
    show some (Instr.ldr o' (locmOf (((iLoc 0x74 o (⟨size, swz, nw, off⟩ : LocM) true false) : Info)).m (((iLoc 0x74 o (⟨size, swz, nw, off⟩ : LocM) true false) : Info)).m2)) = _
    simp only [locmOf, Option.some.injEq, Instr.ldr.injEq, LocM.mk.injEq, true_and, and_true]
    repeat' apply And.intro
    all_goals first
      | rfl
      | exact lsizeOf_code (by simp only [iLoc, mLoc, fld_eq]; omega)
      | exact bitN_bit (by simp only [iLoc, mLoc, fld_eq]; omega)
      | exact sextN_offF (by decide) (by simp_all) (by (try simp only [iLoc, mLoc]); omega)
      | (simp only [iLoc, mLoc, fld_eq]; omega)
      | (simp_all; done)
  · have b_size := lsizeCode_lt size
    have b_nw := bit_lt nw
    have b_off := offF_lt 12 off
    have c_off := offF_lt 10 off
    try simp only [iLoc, mLoc, Bool.and_eq_true, Bool.or_eq_true, decide_eq_true_eq, beq_iff_eq] at hok
    constructor <;> simp [iLoc, mLoc, formHasC] <;> omega

theorem str (o : Ops) (m : LocM) : Statement (.str o m) := by
  intro w hw he
  obtain ⟨size, swz, nw, off⟩ := m
  refine decode_of (K := fun o => .str o ⟨size, swz, nw, off⟩) (g := (iLoc 0x75 o (⟨size, swz, nw, off⟩ : LocM) false false)) (fun _ => rfl) (fun hok o o' => ?_) rfl (by simp [iLoc, cDst, cVK, cVKT, cVX, cVXK, cVKn]) (fun _ h => by simp [isTrailer] at h) (fun hok => ?_) hw he
  · have b_size := lsizeCode_lt size
    have b_nw := bit_lt nw
    have b_off := offF_lt 12 off
    have c_off := offF_lt 10 off
    try simp only [iLoc, mLoc, Bool.and_eq_true, Bool.or_eq_true, decide_eq_true_eq, beq_iff_eq] at hok
    show some (Instr.str o' (locmOf (((iLoc 0x75 o (⟨size, swz, nw, off⟩ : LocM) false false) : Info)).m (((iLoc 0x75 o (⟨size, swz, nw, off⟩ : LocM) false false) : Info)).m2)) = _
    simp only [locmOf, Option.some.injEq, Instr.str.injEq, LocM.mk.injEq, true_and, and_true]
    repeat' apply And.intro
    all_goals first
      | rfl
      | exact lsizeOf_code (by simp only [iLoc, mLoc, fld_eq]; omega)
      | exact bitN_bit (by simp only [iLoc, mLoc, fld_eq]; omega)
      | exact sextN_offF (by decide) (by simp_all) (by (try simp only [iLoc, mLoc]); omega)
      | (simp only [iLoc, mLoc, fld_eq]; omega)
      | (simp_all; done)
  · have b_size := lsizeCode_lt size
    have b_nw := bit_lt nw
    have b_off := offF_lt 12 off
    have c_off := offF_lt 10 off
    try simp only [iLoc, mLoc, Bool.and_eq_true, Bool.or_eq_true, decide_eq_true_eq, beq_iff_eq] at hok
    constructor <;> simp [iLoc, mLoc, formHasC] <;> omega

theorem ldk (o : Ops) (m : LdM) : Statement (.ldk o m) := by
  intro w hw he
  obtain ⟨size, acq, ch, span, off⟩ := m
  refine decode_of (K := fun o => .ldk o ⟨size, acq, ch, span, off⟩) (g := { op := 0x76, form := .f96c, o := o, d := [.kn], a := cSrc, b := cSrc, m := mLd (⟨size, acq, ch, span, off⟩ : LdM), m2 := offF 12 off, ok := ch < 3 && span < 8 && offOk 12 off && acq == none }) (fun _ => rfl) (fun hok o o' => ?_) rfl (by simp [cDst, cVK, cVKT, cVX, cVXK, cVKn]) (fun _ h => by simp [isTrailer] at h) (fun hok => ?_) hw he
  · have b_size := lsizeCode_lt size
    obtain ⟨q, hq, hq2, hq3⟩ := mLd_form ⟨size, acq, ch, span, off⟩
    simp only at hq
    have b_off := offF_lt 12 off
    have c_off := offF_lt 10 off
    try simp only [Bool.and_eq_true, Bool.or_eq_true, decide_eq_true_eq, beq_iff_eq] at hok
    show some (Instr.ldk o' (ldmOf (({ op := 0x76, form := .f96c, o := o, d := [.kn], a := cSrc, b := cSrc, m := mLd (⟨size, acq, ch, span, off⟩ : LdM), m2 := offF 12 off, ok := ch < 3 && span < 8 && offOk 12 off && acq == none } : Info)).m (({ op := 0x76, form := .f96c, o := o, d := [.kn], a := cSrc, b := cSrc, m := mLd (⟨size, acq, ch, span, off⟩ : LdM), m2 := offF 12 off, ok := ch < 3 && span < 8 && offOk 12 off && acq == none } : Info)).m2)) = _
    simp only [ldmOf, Option.some.injEq, Instr.ldk.injEq, LdM.mk.injEq, true_and, and_true]
    repeat' apply And.intro
    all_goals first
      | rfl
      | exact lsizeOf_code (by simp only [hq, fld_eq]; omega)
      | exact sextN_offF (by decide) (by simp_all) (by (try simp only [hq]); omega)
      | exact hq3 _ (by simp only [hq]; omega)
      | (simp only [hq, fld_eq]; omega)
      | (simp_all; done)
  · have b_size := lsizeCode_lt size
    obtain ⟨q, hq, hq2, hq3⟩ := mLd_form ⟨size, acq, ch, span, off⟩
    simp only at hq
    have b_off := offF_lt 12 off
    have c_off := offF_lt 10 off
    try simp only [Bool.and_eq_true, Bool.or_eq_true, decide_eq_true_eq, beq_iff_eq] at hok
    constructor <;> simp [hq, formHasC] <;> omega

theorem pf (o : Ops) (msc : Bool) (span : Nat) (off : Int) : Statement (.pf o msc span off) := by
  intro w hw he
  refine decode_of (K := fun o => .pf o msc span off) (g := { op := 0x77, form := .f96c, o := o, a := cSrc, b := cSrc, m := 8 * bit msc + 32 * span, m2 := offF 12 off, ok := span < 8 && offOk 12 off }) (fun _ => rfl) (fun hok o o' => ?_) rfl (by simp [cDst, cVK, cVKT, cVX, cVXK, cVKn]) (fun _ h => by simp [isTrailer] at h) (fun hok => ?_) hw he
  · have b_msc := bit_lt msc
    have b_off := offF_lt 12 off
    have c_off := offF_lt 10 off
    try simp only [bit_false, bit_true, Bool.and_eq_true, Bool.or_eq_true, decide_eq_true_eq, beq_iff_eq] at hok
    show some (Instr.pf o' (bitN (({ op := 0x77, form := .f96c, o := o, a := cSrc, b := cSrc, m := 8 * bit msc + 32 * span, m2 := offF 12 off, ok := span < 8 && offOk 12 off } : Info)).m 3) (fld (({ op := 0x77, form := .f96c, o := o, a := cSrc, b := cSrc, m := 8 * bit msc + 32 * span, m2 := offF 12 off, ok := span < 8 && offOk 12 off } : Info)).m 5 3) (sextN 12 (({ op := 0x77, form := .f96c, o := o, a := cSrc, b := cSrc, m := 8 * bit msc + 32 * span, m2 := offF 12 off, ok := span < 8 && offOk 12 off } : Info)).m2)) = _
    simp only [Option.some.injEq, Instr.pf.injEq, true_and, and_true]
    repeat' apply And.intro
    all_goals first
      | rfl
      | exact bitN_bit (by simp only [bit_false, bit_true, fld_eq]; omega)
      | exact sextN_offF (by decide) (by simp_all) (by (try simp only [bit_false, bit_true]); omega)
      | (simp only [bit_false, bit_true, fld_eq]; omega)
      | (simp_all; done)
  · have b_msc := bit_lt msc
    have b_off := offF_lt 12 off
    have c_off := offF_lt 10 off
    try simp only [bit_false, bit_true, Bool.and_eq_true, Bool.or_eq_true, decide_eq_true_eq, beq_iff_eq] at hok
    constructor <;> simp [bit_false, bit_true, formHasC] <;> omega

theorem latom (o : Ops) (m : LatomM) : Statement (.latom o m) := by
  intro w hw he
  obtain ⟨op, ty, rem, swz, off⟩ := m
  refine decode_of (K := fun o => .latom o ⟨op, ty, rem, swz, off⟩) (g := { op := 0x78, form := .f96c, o := o, d := cVX, a := cSrc, b := cSrc, c := if op == .cas then cSrc else [], m := tyCode ty + 32 * swz + 256 * bit rem + 512 * aopCode op, m2 := offF 12 off, ok := latomTy op ty && swz < 4 && offOk 12 off }) (fun _ => rfl) (fun hok o o' => ?_) rfl (by simp [if_true, if_false, cDst, cVK, cVKT, cVX, cVXK, cVKn]) (fun _ h => by simp [isTrailer] at h) (fun hok => ?_) hw he
  · have b_op := aopCode_lt op
    have c_op := ropCode_lt op
    have b_ty := tyCode_lt ty
    have b_rem := bit_lt rem
    have b_off := offF_lt 12 off
    have c_off := offF_lt 10 off
    try simp only [Bool.false_eq_true, if_true, if_false, bit_false, bit_true, Bool.and_eq_true, Bool.or_eq_true, decide_eq_true_eq, beq_iff_eq] at hok
    show some (Instr.latom o' ⟨aopOf (fld (({ op := 0x78, form := .f96c, o := o, d := cVX, a := cSrc, b := cSrc, c := if op == .cas then cSrc else [], m := tyCode ty + 32 * swz + 256 * bit rem + 512 * aopCode op, m2 := offF 12 off, ok := latomTy op ty && swz < 4 && offOk 12 off } : Info)).m 9 4), (tyOf (fld (({ op := 0x78, form := .f96c, o := o, d := cVX, a := cSrc, b := cSrc, c := if op == .cas then cSrc else [], m := tyCode ty + 32 * swz + 256 * bit rem + 512 * aopCode op, m2 := offF 12 off, ok := latomTy op ty && swz < 4 && offOk 12 off } : Info)).m 0 5)), bitN (({ op := 0x78, form := .f96c, o := o, d := cVX, a := cSrc, b := cSrc, c := if op == .cas then cSrc else [], m := tyCode ty + 32 * swz + 256 * bit rem + 512 * aopCode op, m2 := offF 12 off, ok := latomTy op ty && swz < 4 && offOk 12 off } : Info)).m 8, fld (({ op := 0x78, form := .f96c, o := o, d := cVX, a := cSrc, b := cSrc, c := if op == .cas then cSrc else [], m := tyCode ty + 32 * swz + 256 * bit rem + 512 * aopCode op, m2 := offF 12 off, ok := latomTy op ty && swz < 4 && offOk 12 off } : Info)).m 5 2, (sextN 12 (({ op := 0x78, form := .f96c, o := o, d := cVX, a := cSrc, b := cSrc, c := if op == .cas then cSrc else [], m := tyCode ty + 32 * swz + 256 * bit rem + 512 * aopCode op, m2 := offF 12 off, ok := latomTy op ty && swz < 4 && offOk 12 off } : Info)).m2)⟩) = _
    simp only [Option.some.injEq, Instr.latom.injEq, LatomM.mk.injEq, true_and, and_true]
    repeat' apply And.intro
    all_goals first
      | rfl
      | exact tyOf_code (by simp only [Bool.false_eq_true, if_true, if_false, bit_false, bit_true, fld_eq]; omega)
      | exact aopOf_code (by simp only [Bool.false_eq_true, if_true, if_false, bit_false, bit_true, fld_eq]; omega)
      | exact bitN_bit (by simp only [Bool.false_eq_true, if_true, if_false, bit_false, bit_true, fld_eq]; omega)
      | exact ropOf_code (by simp only [Bool.false_eq_true, if_true, if_false, bit_false, bit_true, fld_eq]; omega) (by rintro rfl; simp at hok) (by rintro rfl; simp at hok)
      | exact sextN_offF (by decide) (by simp_all) (by (try simp only [Bool.false_eq_true, if_true, if_false, bit_false, bit_true]); omega)
      | (simp only [Bool.false_eq_true, if_true, if_false, bit_false, bit_true, fld_eq]; omega)
      | (simp_all; done)
  · have b_op := aopCode_lt op
    have c_op := ropCode_lt op
    have b_ty := tyCode_lt ty
    have b_rem := bit_lt rem
    have b_off := offF_lt 12 off
    have c_off := offF_lt 10 off
    try simp only [Bool.false_eq_true, if_true, if_false, bit_false, bit_true, Bool.and_eq_true, Bool.or_eq_true, decide_eq_true_eq, beq_iff_eq] at hok
    constructor <;> simp [Bool.false_eq_true, if_true, if_false, bit_false, bit_true, formHasC] <;> omega

theorem lpresQ (o : Ops) (off : Int) : Statement (.lpresQ o off) := by
  intro w hw he
  refine decode_of (K := fun o => .lpresQ o off) (g := { op := 0x79, form := .f96c, o := o, d := cVKT, a := cSrc, m := 0, m2 := offF 12 off, ok := offOk 12 off }) (fun _ => rfl) (fun hok o o' => ?_) rfl (by simp [cDst, cVK, cVKT, cVX, cVXK, cVKn]) (fun _ h => by simp [isTrailer] at h) (fun hok => ?_) hw he
  · have b_off := offF_lt 12 off
    have c_off := offF_lt 10 off
    try simp only [Bool.and_eq_true, Bool.or_eq_true, decide_eq_true_eq, beq_iff_eq] at hok
    show some (Instr.lpresQ o' (sextN 12 (({ op := 0x79, form := .f96c, o := o, d := cVKT, a := cSrc, m := 0, m2 := offF 12 off, ok := offOk 12 off } : Info)).m2)) = _
    simp only [Option.some.injEq, Instr.lpresQ.injEq, true_and, and_true]
    repeat' apply And.intro
    all_goals first
      | rfl
      | exact sextN_offF (by decide) (by simp_all) (by (try simp only []); omega)
      | (simp only [fld_eq]; omega)
      | (simp_all; done)
  · have b_off := offF_lt 12 off
    have c_off := offF_lt 10 off
    try simp only [Bool.and_eq_true, Bool.or_eq_true, decide_eq_true_eq, beq_iff_eq] at hok
    constructor <;> simp [formHasC] <;> omega

theorem lpresClr (o : Ops) (off : Int) : Statement (.lpresClr o off) := by
  intro w hw he
  refine decode_of (K := fun o => .lpresClr o off) (g := { op := 0x79, form := .f96c, o := o, a := cSrc, b := cSrc, m := 1, m2 := offF 12 off, ok := offOk 12 off }) (fun _ => rfl) (fun hok o o' => ?_) rfl (by simp [cDst, cVK, cVKT, cVX, cVXK, cVKn]) (fun _ h => by simp [isTrailer] at h) (fun hok => ?_) hw he
  · have b_off := offF_lt 12 off
    have c_off := offF_lt 10 off
    try simp only [Bool.and_eq_true, Bool.or_eq_true, decide_eq_true_eq, beq_iff_eq] at hok
    show some (Instr.lpresClr o' (sextN 12 (({ op := 0x79, form := .f96c, o := o, a := cSrc, b := cSrc, m := 1, m2 := offF 12 off, ok := offOk 12 off } : Info)).m2)) = _
    simp only [Option.some.injEq, Instr.lpresClr.injEq, true_and, and_true]
    repeat' apply And.intro
    all_goals first
      | rfl
      | exact sextN_offF (by decide) (by simp_all) (by (try simp only []); omega)
      | (simp only [fld_eq]; omega)
      | (simp_all; done)
  · have b_off := offF_lt 12 off
    have c_off := offF_lt 10 off
    try simp only [Bool.and_eq_true, Bool.or_eq_true, decide_eq_true_eq, beq_iff_eq] at hok
    constructor <;> simp [formHasC] <;> omega

theorem lpresSet (o : Ops) (off : Int) : Statement (.lpresSet o off) := by
  intro w hw he
  refine decode_of (K := fun o => .lpresSet o off) (g := { op := 0x79, form := .f96c, o := o, a := cSrc, b := cSrc, m := 2, m2 := offF 12 off, ok := offOk 12 off }) (fun _ => rfl) (fun hok o o' => ?_) rfl (by simp [cDst, cVK, cVKT, cVX, cVXK, cVKn]) (fun _ h => by simp [isTrailer] at h) (fun hok => ?_) hw he
  · have b_off := offF_lt 12 off
    have c_off := offF_lt 10 off
    try simp only [Bool.and_eq_true, Bool.or_eq_true, decide_eq_true_eq, beq_iff_eq] at hok
    show some (Instr.lpresSet o' (sextN 12 (({ op := 0x79, form := .f96c, o := o, a := cSrc, b := cSrc, m := 2, m2 := offF 12 off, ok := offOk 12 off } : Info)).m2)) = _
    simp only [Option.some.injEq, Instr.lpresSet.injEq, true_and, and_true]
    repeat' apply And.intro
    all_goals first
      | rfl
      | exact sextN_offF (by decide) (by simp_all) (by (try simp only []); omega)
      | (simp only [fld_eq]; omega)
      | (simp_all; done)
  · have b_off := offF_lt 12 off
    have c_off := offF_lt 10 off
    try simp only [Bool.and_eq_true, Bool.or_eq_true, decide_eq_true_eq, beq_iff_eq] at hok
    constructor <;> simp [formHasC] <;> omega

theorem tlbi (o : Ops) (kind : Nat) (scope : Scope) : Statement (.tlbi o kind scope) := by
  intro w hw he
  refine decode_of (K := fun o => .tlbi o kind scope) (g := { op := 0x7A, form := .f64, o := o, d := cDst, a := cSrc, b := if kind = 1 then cSrc else [], m := kind + 4 * scopeCode scope, ll := true, ok := kind < 3 && (scope == .core || scope == .col || scope == .dev) }) (fun _ => rfl) (fun hok o o' => ?_) rfl (by simp [if_true, if_false, cDst, cVK, cVKT, cVX, cVXK, cVKn]) (fun _ h => by simp [isTrailer] at h) (fun hok => ?_) hw he
  · have b_scope := scopeCode_lt scope
    try simp only [Bool.false_eq_true, if_true, if_false, Bool.and_eq_true, Bool.or_eq_true, decide_eq_true_eq, beq_iff_eq] at hok
    show some (Instr.tlbi o' (fld (({ op := 0x7A, form := .f64, o := o, d := cDst, a := cSrc, b := if kind = 1 then cSrc else [], m := kind + 4 * scopeCode scope, ll := true, ok := kind < 3 && (scope == .core || scope == .col || scope == .dev) } : Info)).m 0 2) (scopeOf (fld (({ op := 0x7A, form := .f64, o := o, d := cDst, a := cSrc, b := if kind = 1 then cSrc else [], m := kind + 4 * scopeCode scope, ll := true, ok := kind < 3 && (scope == .core || scope == .col || scope == .dev) } : Info)).m 2 4))) = _
    simp only [Option.some.injEq, Instr.tlbi.injEq, true_and, and_true]
    repeat' apply And.intro
    all_goals first
      | rfl
      | exact scopeOf_code (by simp only [Bool.false_eq_true, if_true, if_false, fld_eq]; omega)
      | (simp only [Bool.false_eq_true, if_true, if_false, fld_eq]; omega)
      | (simp_all; done)
  · have b_scope := scopeCode_lt scope
    try simp only [Bool.false_eq_true, if_true, if_false, Bool.and_eq_true, Bool.or_eq_true, decide_eq_true_eq, beq_iff_eq] at hok
    constructor <;> simp [Bool.false_eq_true, if_true, if_false, formHasC] <;> omega

theorem asgen (o : Ops) : Statement (.asgen o) := by
  intro w hw he
  refine decode_of (K := fun o => .asgen o) (g := { op := 0x7B, form := .f64, o := o, d := cDst, a := cSrc, ll := true }) (fun _ => rfl) (fun hok o o' => ?_) rfl (by simp [cDst, cVK, cVKT, cVX, cVXK, cVKn]) (fun _ h => by simp [isTrailer] at h) (fun hok => ?_) hw he
  · skip
    show some (Instr.asgen o' ) = _
    rfl
  · skip
    constructor <;> simp [formHasC] <;> omega

theorem translationWalkDone (col : Nat) (asid : Nat) (page : Nat) : Statement (.translationWalkDone col asid page) := by
  intro w _ he
  simp [encode, info] at he

theorem generationRefusal (id : Nat) : Statement (.generationRefusal id) := by
  intro w _ he
  simp [encode, info] at he

theorem loadDataLands (id : Nat) : Statement (.loadDataLands id) := by
  intro w _ he
  simp [encode, info] at he

theorem fence (o : Ops) (acq : Bool) (rel : Bool) (sc : Bool) (scope : Scope) : Statement (.fence o acq rel sc scope) := by
  intro w hw he
  refine decode_of (K := fun o => .fence o acq rel sc scope) (g := { op := 0x90, form := .f64, o := o, m := scopeCode scope + 16 * (if sc then 3 else if acq && rel then 2 else bit rel), ok := if sc then acq && rel else acq || rel }) (fun _ => rfl) (fun hok o o' => ?_) rfl (by simp [if_true, if_false, cDst, cVK, cVKT, cVX, cVXK, cVKn]) (fun _ h => by simp [isTrailer] at h) (fun hok => ?_) hw he
  · have b_acq := bit_lt acq
    have b_rel := bit_lt rel
    have b_sc := bit_lt sc
    have b_scope := scopeCode_lt scope
    try simp only [Bool.false_eq_true, if_true, if_false, bit_false, bit_true, Bool.and_eq_true, Bool.or_eq_true, decide_eq_true_eq, beq_iff_eq] at hok
    cases acq <;> cases rel <;> cases sc <;> first
      | (exfalso; revert hok; decide)
      | (have e : fld (scopeCode scope + 0) 4 2 = 0 := by simp only [fld_eq]; omega
         have e2 : scopeOf (fld (scopeCode scope + 0) 0 4) = scope := scopeOf_code (by simp only [fld_eq]; omega)
         show (match fld (scopeCode scope + 0) 4 2 with
           | 0 => some (Instr.fence o' true false false (scopeOf (fld (scopeCode scope + 0) 0 4)))
           | 1 => some (Instr.fence o' false true false (scopeOf (fld (scopeCode scope + 0) 0 4)))
           | 2 => some (Instr.fence o' true true false (scopeOf (fld (scopeCode scope + 0) 0 4)))
           | _ => some (Instr.fence o' true true true (scopeOf (fld (scopeCode scope + 0) 0 4)))) = _
         simp only [e, e2]; done)
      | (have e : fld (scopeCode scope + 16) 4 2 = 1 := by simp only [fld_eq]; omega
         have e2 : scopeOf (fld (scopeCode scope + 16) 0 4) = scope := scopeOf_code (by simp only [fld_eq]; omega)
         show (match fld (scopeCode scope + 16) 4 2 with
           | 0 => some (Instr.fence o' true false false (scopeOf (fld (scopeCode scope + 16) 0 4)))
           | 1 => some (Instr.fence o' false true false (scopeOf (fld (scopeCode scope + 16) 0 4)))
           | 2 => some (Instr.fence o' true true false (scopeOf (fld (scopeCode scope + 16) 0 4)))
           | _ => some (Instr.fence o' true true true (scopeOf (fld (scopeCode scope + 16) 0 4)))) = _
         simp only [e, e2]; done)
      | (have e : fld (scopeCode scope + 32) 4 2 = 2 := by simp only [fld_eq]; omega
         have e2 : scopeOf (fld (scopeCode scope + 32) 0 4) = scope := scopeOf_code (by simp only [fld_eq]; omega)
         show (match fld (scopeCode scope + 32) 4 2 with
           | 0 => some (Instr.fence o' true false false (scopeOf (fld (scopeCode scope + 32) 0 4)))
           | 1 => some (Instr.fence o' false true false (scopeOf (fld (scopeCode scope + 32) 0 4)))
           | 2 => some (Instr.fence o' true true false (scopeOf (fld (scopeCode scope + 32) 0 4)))
           | _ => some (Instr.fence o' true true true (scopeOf (fld (scopeCode scope + 32) 0 4)))) = _
         simp only [e, e2]; done)
      | (have e : fld (scopeCode scope + 48) 4 2 = 3 := by simp only [fld_eq]; omega
         have e2 : scopeOf (fld (scopeCode scope + 48) 0 4) = scope := scopeOf_code (by simp only [fld_eq]; omega)
         show (match fld (scopeCode scope + 48) 4 2 with
           | 0 => some (Instr.fence o' true false false (scopeOf (fld (scopeCode scope + 48) 0 4)))
           | 1 => some (Instr.fence o' false true false (scopeOf (fld (scopeCode scope + 48) 0 4)))
           | 2 => some (Instr.fence o' true true false (scopeOf (fld (scopeCode scope + 48) 0 4)))
           | _ => some (Instr.fence o' true true true (scopeOf (fld (scopeCode scope + 48) 0 4)))) = _
         simp only [e, e2]; done)
  · have b_acq := bit_lt acq
    have b_rel := bit_lt rel
    have b_sc := bit_lt sc
    have b_scope := scopeCode_lt scope
    try simp only [Bool.false_eq_true, if_true, if_false, bit_false, bit_true, Bool.and_eq_true, Bool.or_eq_true, decide_eq_true_eq, beq_iff_eq] at hok
    cases acq <;> cases rel <;> cases sc <;> (constructor <;> simp [bit_false, bit_true, formHasC] <;> omega)

theorem cflush (o : Ops) (scope : Scope) (off : Int) : Statement (.cflush o scope off) := by
  intro w hw he
  refine decode_of (K := fun o => .cflush o scope off) (g := (iRange 0x91 o scope 0 off)) (fun _ => rfl) (fun hok o o' => ?_) rfl (by simp [iRange, cDst, cVK, cVKT, cVX, cVXK, cVKn]) (fun _ h => by simp [isTrailer] at h) (fun hok => ?_) hw he
  · have b_scope := scopeCode_lt scope
    have b_off := offF_lt 12 off
    have c_off := offF_lt 10 off
    try simp only [iRange, Bool.and_eq_true, Bool.or_eq_true, decide_eq_true_eq, beq_iff_eq] at hok
    show some (Instr.cflush o' (scopeOf (fld (((iRange 0x91 o scope 0 off) : Info)).m 9 4)) (sextN 12 (((iRange 0x91 o scope 0 off) : Info)).m2)) = _
    simp only [Option.some.injEq, Instr.cflush.injEq, true_and, and_true]
    repeat' apply And.intro
    all_goals first
      | rfl
      | exact scopeOf_code (by simp only [iRange, fld_eq]; omega)
      | exact sextN_offF (by decide) (by simp_all) (by (try simp only [iRange]); omega)
      | (simp only [iRange, fld_eq]; omega)
      | (simp_all; done)
  · have b_scope := scopeCode_lt scope
    have b_off := offF_lt 12 off
    have c_off := offF_lt 10 off
    try simp only [iRange, Bool.and_eq_true, Bool.or_eq_true, decide_eq_true_eq, beq_iff_eq] at hok
    constructor <;> simp [iRange, formHasC] <;> omega

theorem cwb (o : Ops) (scope : Scope) (off : Int) : Statement (.cwb o scope off) := by
  intro w hw he
  refine decode_of (K := fun o => .cwb o scope off) (g := (iRange 0x92 o scope 0 off)) (fun _ => rfl) (fun hok o o' => ?_) rfl (by simp [iRange, cDst, cVK, cVKT, cVX, cVXK, cVKn]) (fun _ h => by simp [isTrailer] at h) (fun hok => ?_) hw he
  · have b_scope := scopeCode_lt scope
    have b_off := offF_lt 12 off
    have c_off := offF_lt 10 off
    try simp only [iRange, Bool.and_eq_true, Bool.or_eq_true, decide_eq_true_eq, beq_iff_eq] at hok
    show some (Instr.cwb o' (scopeOf (fld (((iRange 0x92 o scope 0 off) : Info)).m 9 4)) (sextN 12 (((iRange 0x92 o scope 0 off) : Info)).m2)) = _
    simp only [Option.some.injEq, Instr.cwb.injEq, true_and, and_true]
    repeat' apply And.intro
    all_goals first
      | rfl
      | exact scopeOf_code (by simp only [iRange, fld_eq]; omega)
      | exact sextN_offF (by decide) (by simp_all) (by (try simp only [iRange]); omega)
      | (simp only [iRange, fld_eq]; omega)
      | (simp_all; done)
  · have b_scope := scopeCode_lt scope
    have b_off := offF_lt 12 off
    have c_off := offF_lt 10 off
    try simp only [iRange, Bool.and_eq_true, Bool.or_eq_true, decide_eq_true_eq, beq_iff_eq] at hok
    constructor <;> simp [iRange, formHasC] <;> omega

theorem cinv (o : Ops) (scope : Scope) (off : Int) : Statement (.cinv o scope off) := by
  intro w hw he
  refine decode_of (K := fun o => .cinv o scope off) (g := (iRange 0x93 o scope 0 off)) (fun _ => rfl) (fun hok o o' => ?_) rfl (by simp [iRange, cDst, cVK, cVKT, cVX, cVXK, cVKn]) (fun _ h => by simp [isTrailer] at h) (fun hok => ?_) hw he
  · have b_scope := scopeCode_lt scope
    have b_off := offF_lt 12 off
    have c_off := offF_lt 10 off
    try simp only [iRange, Bool.and_eq_true, Bool.or_eq_true, decide_eq_true_eq, beq_iff_eq] at hok
    show some (Instr.cinv o' (scopeOf (fld (((iRange 0x93 o scope 0 off) : Info)).m 9 4)) (sextN 12 (((iRange 0x93 o scope 0 off) : Info)).m2)) = _
    simp only [Option.some.injEq, Instr.cinv.injEq, true_and, and_true]
    repeat' apply And.intro
    all_goals first
      | rfl
      | exact scopeOf_code (by simp only [iRange, fld_eq]; omega)
      | exact sextN_offF (by decide) (by simp_all) (by (try simp only [iRange]); omega)
      | (simp only [iRange, fld_eq]; omega)
      | (simp_all; done)
  · have b_scope := scopeCode_lt scope
    have b_off := offF_lt 12 off
    have c_off := offF_lt 10 off
    try simp only [iRange, Bool.and_eq_true, Bool.or_eq_true, decide_eq_true_eq, beq_iff_eq] at hok
    constructor <;> simp [iRange, formHasC] <;> omega

theorem cspan (o : Ops) (scope : Scope) (span : Nat) (off : Int) : Statement (.cspan o scope span off) := by
  intro w hw he
  refine decode_of (K := fun o => .cspan o scope span off) (g := (iRange 0x94 o scope span off)) (fun _ => rfl) (fun hok o o' => ?_) rfl (by simp [iRange, cDst, cVK, cVKT, cVX, cVXK, cVKn]) (fun _ h => by simp [isTrailer] at h) (fun hok => ?_) hw he
  · have b_scope := scopeCode_lt scope
    have b_off := offF_lt 12 off
    have c_off := offF_lt 10 off
    try simp only [iRange, Bool.and_eq_true, Bool.or_eq_true, decide_eq_true_eq, beq_iff_eq] at hok
    show some (Instr.cspan o' (scopeOf (fld (((iRange 0x94 o scope span off) : Info)).m 9 4)) (fld (((iRange 0x94 o scope span off) : Info)).m 6 3) (sextN 12 (((iRange 0x94 o scope span off) : Info)).m2)) = _
    simp only [Option.some.injEq, Instr.cspan.injEq, true_and, and_true]
    repeat' apply And.intro
    all_goals first
      | rfl
      | exact scopeOf_code (by simp only [iRange, fld_eq]; omega)
      | exact sextN_offF (by decide) (by simp_all) (by (try simp only [iRange]); omega)
      | (simp only [iRange, fld_eq]; omega)
      | (simp_all; done)
  · have b_scope := scopeCode_lt scope
    have b_off := offF_lt 12 off
    have c_off := offF_lt 10 off
    try simp only [iRange, Bool.and_eq_true, Bool.or_eq_true, decide_eq_true_eq, beq_iff_eq] at hok
    constructor <;> simp [iRange, formHasC] <;> omega

theorem rangeOpAtSlice (id : Nat) (col : Nat) : Statement (.rangeOpAtSlice id col) := by
  intro w _ he
  simp [encode, info] at he

theorem sliceRead (id : Nat) : Statement (.sliceRead id) := by
  intro w _ he
  simp [encode, info] at he

theorem sliceWrite (id : Nat) : Statement (.sliceWrite id) := by
  intro w _ he
  simp [encode, info] at he

theorem homeStreamWrite (home : Nat) (stream : Nat) : Statement (.homeStreamWrite home stream) := by
  intro w _ he
  simp [encode, info] at he

theorem replicationSwitch (col : Nat) (region : Nat) : Statement (.replicationSwitch col region) := by
  intro w _ he
  simp [encode, info] at he

theorem replicationCounterHalving (col : Nat) : Statement (.replicationCounterHalving col) := by
  intro w _ he
  simp [encode, info] at he

theorem replicaInvalidation (col : Nat) : Statement (.replicaInvalidation col) := by
  intro w _ he
  simp [encode, info] at he

theorem nred (o : Ops) (op : AOp) (ty : Ty) (scope : Scope) (off : Int) : Statement (.nred o op ty scope off) := by
  intro w hw he
  refine decode_of (K := fun o => .nred o op ty scope off) (g := { op := 0x95, form := .f96c, o := o, a := cSrc, b := cSrc, m := tyCode ty + 32 * ropCode op + 512 * scopeCode scope, m2 := offF 12 off, ok := op != .swap && op != .cas && (aopTy op ty || (ty == .f32x2 && (op == .fadd || op == .fmin || op == .fmax))) && 3 ≤ scopeCode scope && offOk 12 off }) (fun _ => rfl) (fun hok o o' => ?_) rfl (by simp [cDst, cVK, cVKT, cVX, cVXK, cVKn]) (fun _ h => by simp [isTrailer] at h) (fun hok => ?_) hw he
  · have b_op := aopCode_lt op
    have c_op := ropCode_lt op
    have b_ty := tyCode_lt ty
    have b_scope := scopeCode_lt scope
    have b_off := offF_lt 12 off
    have c_off := offF_lt 10 off
    try simp only [Bool.and_eq_true, Bool.or_eq_true, decide_eq_true_eq, beq_iff_eq] at hok
    show some (Instr.nred o' (ropOf (fld (({ op := 0x95, form := .f96c, o := o, a := cSrc, b := cSrc, m := tyCode ty + 32 * ropCode op + 512 * scopeCode scope, m2 := offF 12 off, ok := op != .swap && op != .cas && (aopTy op ty || (ty == .f32x2 && (op == .fadd || op == .fmin || op == .fmax))) && 3 ≤ scopeCode scope && offOk 12 off } : Info)).m 5 4)) (tyOf (fld (({ op := 0x95, form := .f96c, o := o, a := cSrc, b := cSrc, m := tyCode ty + 32 * ropCode op + 512 * scopeCode scope, m2 := offF 12 off, ok := op != .swap && op != .cas && (aopTy op ty || (ty == .f32x2 && (op == .fadd || op == .fmin || op == .fmax))) && 3 ≤ scopeCode scope && offOk 12 off } : Info)).m 0 5)) (scopeOf (fld (({ op := 0x95, form := .f96c, o := o, a := cSrc, b := cSrc, m := tyCode ty + 32 * ropCode op + 512 * scopeCode scope, m2 := offF 12 off, ok := op != .swap && op != .cas && (aopTy op ty || (ty == .f32x2 && (op == .fadd || op == .fmin || op == .fmax))) && 3 ≤ scopeCode scope && offOk 12 off } : Info)).m 9 4)) (sextN 12 (({ op := 0x95, form := .f96c, o := o, a := cSrc, b := cSrc, m := tyCode ty + 32 * ropCode op + 512 * scopeCode scope, m2 := offF 12 off, ok := op != .swap && op != .cas && (aopTy op ty || (ty == .f32x2 && (op == .fadd || op == .fmin || op == .fmax))) && 3 ≤ scopeCode scope && offOk 12 off } : Info)).m2)) = _
    simp only [Option.some.injEq, Instr.nred.injEq, true_and, and_true]
    repeat' apply And.intro
    all_goals first
      | rfl
      | exact tyOf_code (by simp only [fld_eq]; omega)
      | exact scopeOf_code (by simp only [fld_eq]; omega)
      | exact aopOf_code (by simp only [fld_eq]; omega)
      | exact ropOf_code (by simp only [fld_eq]; omega) (by rintro rfl; simp at hok) (by rintro rfl; simp at hok)
      | exact sextN_offF (by decide) (by simp_all) (by (try simp only []); omega)
      | (simp only [fld_eq]; omega)
      | (simp_all; done)
  · have b_op := aopCode_lt op
    have c_op := ropCode_lt op
    have b_ty := tyCode_lt ty
    have b_scope := scopeCode_lt scope
    have b_off := offF_lt 12 off
    have c_off := offF_lt 10 off
    try simp only [Bool.and_eq_true, Bool.or_eq_true, decide_eq_true_eq, beq_iff_eq] at hok
    constructor <;> simp [formHasC] <;> omega

theorem nredAtHome (id : Nat) : Statement (.nredAtHome id) := by
  intro w _ he
  simp [encode, info] at he

theorem wwait (o : Ops) (tout : Nat) (off : Int) : Statement (.wwait o tout off) := by
  intro w hw he
  refine decode_of (K := fun o => .wwait o tout off) (g := { op := 0x96, form := .f96c, o := o, d := cVXK, a := cSrc, b := cSrc, m := tout, m2 := offF 12 off, ok := toOk tout 31 && offOk 12 off }) (fun _ => rfl) (fun hok o o' => ?_) rfl (by simp [cDst, cVK, cVKT, cVX, cVXK, cVKn]) (fun _ h => by simp [isTrailer] at h) (fun hok => ?_) hw he
  · have b_off := offF_lt 12 off
    have c_off := offF_lt 10 off
    try simp only [toOk, Bool.and_eq_true, Bool.or_eq_true, decide_eq_true_eq, beq_iff_eq] at hok
    show some (Instr.wwait o' (fld (({ op := 0x96, form := .f96c, o := o, d := cVXK, a := cSrc, b := cSrc, m := tout, m2 := offF 12 off, ok := toOk tout 31 && offOk 12 off } : Info)).m 0 5) (sextN 12 (({ op := 0x96, form := .f96c, o := o, d := cVXK, a := cSrc, b := cSrc, m := tout, m2 := offF 12 off, ok := toOk tout 31 && offOk 12 off } : Info)).m2)) = _
    simp only [Option.some.injEq, Instr.wwait.injEq, true_and, and_true]
    repeat' apply And.intro
    all_goals first
      | rfl
      | exact sextN_offF (by decide) (by simp_all) (by (try simp only []); omega)
      | (simp only [fld_eq]; omega)
      | (simp_all; done)
  · have b_off := offF_lt 12 off
    have c_off := offF_lt 10 off
    try simp only [toOk, Bool.and_eq_true, Bool.or_eq_true, decide_eq_true_eq, beq_iff_eq] at hok
    constructor <;> simp [formHasC] <;> omega

theorem waitEntryEnd (id : Nat) : Statement (.waitEntryEnd id) := by
  intro w _ he
  simp [encode, info] at he

theorem waitDeadlineExpiry (id : Nat) : Statement (.waitDeadlineExpiry id) := by
  intro w _ he
  simp [encode, info] at he

theorem wwake (o : Ops) : Statement (.wwake o) := by
  intro w hw he
  refine decode_of (K := fun o => .wwake o) (g := { op := 0x97, form := .f64, o := o, a := cSrc, b := cSrc }) (fun _ => rfl) (fun hok o o' => ?_) rfl (by simp [cDst, cVK, cVKT, cVX, cVXK, cVKn]) (fun _ h => by simp [isTrailer] at h) (fun hok => ?_) hw he
  · skip
    show some (Instr.wwake o' ) = _
    rfl
  · skip
    constructor <;> simp [formHasC] <;> omega

theorem mswin (o : Ops) : Statement (.mswin o) := by
  intro w hw he
  refine decode_of (K := fun o => .mswin o) (g := { op := 0x98, form := .f64, o := o, d := cDst, a := cSrc, b := cSrc, ll := true }) (fun _ => rfl) (fun hok o o' => ?_) rfl (by simp [cDst, cVK, cVKT, cVX, cVXK, cVKn]) (fun _ h => by simp [isTrailer] at h) (fun hok => ?_) hw he
  · skip
    show some (Instr.mswin o' ) = _
    rfl
  · skip
    constructor <;> simp [formHasC] <;> omega

theorem atom (o : Ops) (op : AOp) (ty : Ty) (ord : Ord) (scope : Scope) (off : Int) : Statement (.atom o op ty ord scope off) := by
  intro w hw he
  refine decode_of (K := fun o => .atom o op ty ord scope off) (g := { op := 0xA0, form := .f96c, o := o, d := cVXK, a := cSrc, b := cSrc, c := if op == .cas then cSrc else [], m := tyCode ty + 32 * aopCode op + 512 * scopeCode scope, m2 := offF 10 off + 1024 * ordCode ord, ok := aopTy op ty && 3 ≤ scopeCode scope && offOk 10 off }) (fun _ => rfl) (fun hok o o' => ?_) rfl (by simp [if_true, if_false, cDst, cVK, cVKT, cVX, cVXK, cVKn]) (fun _ h => by simp [isTrailer] at h) (fun hok => ?_) hw he
  · have b_op := aopCode_lt op
    have c_op := ropCode_lt op
    have b_ty := tyCode_lt ty
    have b_ord := ordCode_lt ord
    have b_scope := scopeCode_lt scope
    have b_off := offF_lt 12 off
    have c_off := offF_lt 10 off
    try simp only [Bool.false_eq_true, if_true, if_false, Bool.and_eq_true, Bool.or_eq_true, decide_eq_true_eq, beq_iff_eq] at hok
    show some (Instr.atom o' (aopOf (fld (({ op := 0xA0, form := .f96c, o := o, d := cVXK, a := cSrc, b := cSrc, c := if op == .cas then cSrc else [], m := tyCode ty + 32 * aopCode op + 512 * scopeCode scope, m2 := offF 10 off + 1024 * ordCode ord, ok := aopTy op ty && 3 ≤ scopeCode scope && offOk 10 off } : Info)).m 5 4)) (tyOf (fld (({ op := 0xA0, form := .f96c, o := o, d := cVXK, a := cSrc, b := cSrc, c := if op == .cas then cSrc else [], m := tyCode ty + 32 * aopCode op + 512 * scopeCode scope, m2 := offF 10 off + 1024 * ordCode ord, ok := aopTy op ty && 3 ≤ scopeCode scope && offOk 10 off } : Info)).m 0 5)) (ordOf (fld (({ op := 0xA0, form := .f96c, o := o, d := cVXK, a := cSrc, b := cSrc, c := if op == .cas then cSrc else [], m := tyCode ty + 32 * aopCode op + 512 * scopeCode scope, m2 := offF 10 off + 1024 * ordCode ord, ok := aopTy op ty && 3 ≤ scopeCode scope && offOk 10 off } : Info)).m2 10 2)) (scopeOf (fld (({ op := 0xA0, form := .f96c, o := o, d := cVXK, a := cSrc, b := cSrc, c := if op == .cas then cSrc else [], m := tyCode ty + 32 * aopCode op + 512 * scopeCode scope, m2 := offF 10 off + 1024 * ordCode ord, ok := aopTy op ty && 3 ≤ scopeCode scope && offOk 10 off } : Info)).m 9 4)) (sextN 10 (({ op := 0xA0, form := .f96c, o := o, d := cVXK, a := cSrc, b := cSrc, c := if op == .cas then cSrc else [], m := tyCode ty + 32 * aopCode op + 512 * scopeCode scope, m2 := offF 10 off + 1024 * ordCode ord, ok := aopTy op ty && 3 ≤ scopeCode scope && offOk 10 off } : Info)).m2)) = _
    simp only [Option.some.injEq, Instr.atom.injEq, true_and, and_true]
    repeat' apply And.intro
    all_goals first
      | rfl
      | exact tyOf_code (by simp only [Bool.false_eq_true, if_true, if_false, fld_eq]; omega)
      | exact scopeOf_code (by simp only [Bool.false_eq_true, if_true, if_false, fld_eq]; omega)
      | exact aopOf_code (by simp only [Bool.false_eq_true, if_true, if_false, fld_eq]; omega)
      | exact ordOf_code (by simp only [Bool.false_eq_true, if_true, if_false, fld_eq]; omega)
      | exact ropOf_code (by simp only [Bool.false_eq_true, if_true, if_false, fld_eq]; omega) (by rintro rfl; simp at hok) (by rintro rfl; simp at hok)
      | exact sextN_offF (by decide) (by simp_all) (by (try simp only [Bool.false_eq_true, if_true, if_false]); omega)
      | (simp only [Bool.false_eq_true, if_true, if_false, fld_eq]; omega)
      | (simp_all; done)
  · have b_op := aopCode_lt op
    have c_op := ropCode_lt op
    have b_ty := tyCode_lt ty
    have b_ord := ordCode_lt ord
    have b_scope := scopeCode_lt scope
    have b_off := offF_lt 12 off
    have c_off := offF_lt 10 off
    try simp only [Bool.false_eq_true, if_true, if_false, Bool.and_eq_true, Bool.or_eq_true, decide_eq_true_eq, beq_iff_eq] at hok
    constructor <;> simp [Bool.false_eq_true, if_true, if_false, formHasC] <;> omega

theorem atomAtOwner (id : Nat) : Statement (.atomAtOwner id) := by
  intro w _ he
  simp [encode, info] at he

theorem serviceReply (id : Nat) : Statement (.serviceReply id) := by
  intro w _ he
  simp [encode, info] at he

theorem txb (o : Ops) : Statement (.txb o) := by
  intro w hw he
  refine decode_of (K := fun o => .txb o) (g := { op := 0xA1, form := .f64, o := o }) (fun _ => rfl) (fun hok o o' => ?_) rfl (by simp [cDst, cVK, cVKT, cVX, cVXK, cVKn]) (fun _ h => by simp [isTrailer] at h) (fun hok => ?_) hw he
  · skip
    show some (Instr.txb o' ) = _
    rfl
  · skip
    constructor <;> simp [formHasC] <;> omega

theorem txld (o : Ops) (off : Int) : Statement (.txld o off) := by
  intro w hw he
  refine decode_of (K := fun o => .txld o off) (g := { op := 0xA2, form := .f96c, o := o, d := cVXK, a := cSrc, b := cSrc, m := 3, m2 := offF 12 off, ok := offOk 12 off }) (fun _ => rfl) (fun hok o o' => ?_) rfl (by simp [cDst, cVK, cVKT, cVX, cVXK, cVKn]) (fun _ h => by simp [isTrailer] at h) (fun hok => ?_) hw he
  · have b_off := offF_lt 12 off
    have c_off := offF_lt 10 off
    try simp only [Bool.and_eq_true, Bool.or_eq_true, decide_eq_true_eq, beq_iff_eq] at hok
    show some (Instr.txld o' (sextN 12 (({ op := 0xA2, form := .f96c, o := o, d := cVXK, a := cSrc, b := cSrc, m := 3, m2 := offF 12 off, ok := offOk 12 off } : Info)).m2)) = _
    simp only [Option.some.injEq, Instr.txld.injEq, true_and, and_true]
    repeat' apply And.intro
    all_goals first
      | rfl
      | exact sextN_offF (by decide) (by simp_all) (by (try simp only []); omega)
      | (simp only [fld_eq]; omega)
      | (simp_all; done)
  · have b_off := offF_lt 12 off
    have c_off := offF_lt 10 off
    try simp only [Bool.and_eq_true, Bool.or_eq_true, decide_eq_true_eq, beq_iff_eq] at hok
    constructor <;> simp [formHasC] <;> omega

theorem txst (o : Ops) (off : Int) : Statement (.txst o off) := by
  intro w hw he
  refine decode_of (K := fun o => .txst o off) (g := { op := 0xA3, form := .f96c, o := o, a := cSrc, b := cSrc, c := cSrc, m := 3, m2 := offF 12 off, ok := offOk 12 off }) (fun _ => rfl) (fun hok o o' => ?_) rfl (by simp [cDst, cVK, cVKT, cVX, cVXK, cVKn]) (fun _ h => by simp [isTrailer] at h) (fun hok => ?_) hw he
  · have b_off := offF_lt 12 off
    have c_off := offF_lt 10 off
    try simp only [Bool.and_eq_true, Bool.or_eq_true, decide_eq_true_eq, beq_iff_eq] at hok
    show some (Instr.txst o' (sextN 12 (({ op := 0xA3, form := .f96c, o := o, a := cSrc, b := cSrc, c := cSrc, m := 3, m2 := offF 12 off, ok := offOk 12 off } : Info)).m2)) = _
    simp only [Option.some.injEq, Instr.txst.injEq, true_and, and_true]
    repeat' apply And.intro
    all_goals first
      | rfl
      | exact sextN_offF (by decide) (by simp_all) (by (try simp only []); omega)
      | (simp only [fld_eq]; omega)
      | (simp_all; done)
  · have b_off := offF_lt 12 off
    have c_off := offF_lt 10 off
    try simp only [Bool.and_eq_true, Bool.or_eq_true, decide_eq_true_eq, beq_iff_eq] at hok
    constructor <;> simp [formHasC] <;> omega

theorem txe (o : Ops) (ord : Ord) (scope : Scope) (pn : Nat) : Statement (.txe o ord scope pn) := by
  intro w hw he
  refine decode_of (K := fun o => .txe o ord scope pn) (g := { op := 0xA4, form := .f64, o := o, d := cVKn, m := pn + 128 * ordCode ord + 512 * scopeCode scope, ok := 3 ≤ scopeCode scope && pn < 48 }) (fun _ => rfl) (fun hok o o' => ?_) rfl (by simp [cDst, cVK, cVKT, cVX, cVXK, cVKn]) (fun _ h => by simp [isTrailer] at h) (fun hok => ?_) hw he
  · have b_ord := ordCode_lt ord
    have b_scope := scopeCode_lt scope
    try simp only [Bool.and_eq_true, Bool.or_eq_true, decide_eq_true_eq, beq_iff_eq] at hok
    show some (Instr.txe o' (ordOf (fld (({ op := 0xA4, form := .f64, o := o, d := cVKn, m := pn + 128 * ordCode ord + 512 * scopeCode scope, ok := 3 ≤ scopeCode scope && pn < 48 } : Info)).m 7 2)) (scopeOf (fld (({ op := 0xA4, form := .f64, o := o, d := cVKn, m := pn + 128 * ordCode ord + 512 * scopeCode scope, ok := 3 ≤ scopeCode scope && pn < 48 } : Info)).m 9 4)) (fld (({ op := 0xA4, form := .f64, o := o, d := cVKn, m := pn + 128 * ordCode ord + 512 * scopeCode scope, ok := 3 ≤ scopeCode scope && pn < 48 } : Info)).m 0 6)) = _
    simp only [Option.some.injEq, Instr.txe.injEq, true_and, and_true]
    repeat' apply And.intro
    all_goals first
      | rfl
      | exact scopeOf_code (by simp only [fld_eq]; omega)
      | exact ordOf_code (by simp only [fld_eq]; omega)
      | (simp only [fld_eq]; omega)
      | (simp_all; done)
  · have b_ord := ordCode_lt ord
    have b_scope := scopeCode_lt scope
    try simp only [Bool.and_eq_true, Bool.or_eq_true, decide_eq_true_eq, beq_iff_eq] at hok
    constructor <;> simp [formHasC] <;> omega

theorem txCommitAtOwner (id : Nat) : Statement (.txCommitAtOwner id) := by
  intro w _ he
  simp [encode, info] at he

theorem txa (o : Ops) : Statement (.txa o) := by
  intro w hw he
  refine decode_of (K := fun o => .txa o) (g := { op := 0xA5, form := .f64, o := o }) (fun _ => rfl) (fun hok o o' => ?_) rfl (by simp [cDst, cVK, cVKT, cVX, cVXK, cVKn]) (fun _ h => by simp [isTrailer] at h) (fun hok => ?_) hw he
  · skip
    show some (Instr.txa o' ) = _
    rfl
  · skip
    constructor <;> simp [formHasC] <;> omega

theorem dalloc (o : Ops) (pn : Nat) : Statement (.dalloc o pn) := by
  intro w hw he
  refine decode_of (K := fun o => .dalloc o pn) (g := { op := 0xA6, form := .f64, o := o, d := cVKn, a := cSrc, b := cSrc, m := pn, ok := pn < 48 }) (fun _ => rfl) (fun hok o o' => ?_) rfl (by simp [cDst, cVK, cVKT, cVX, cVXK, cVKn]) (fun _ h => by simp [isTrailer] at h) (fun hok => ?_) hw he
  · try simp only [Bool.and_eq_true, Bool.or_eq_true, decide_eq_true_eq, beq_iff_eq] at hok
    show some (Instr.dalloc o' (fld (({ op := 0xA6, form := .f64, o := o, d := cVKn, a := cSrc, b := cSrc, m := pn, ok := pn < 48 } : Info)).m 0 6)) = _
    simp only [Option.some.injEq, Instr.dalloc.injEq, true_and, and_true]
    repeat' apply And.intro
    all_goals first
      | rfl
      | (simp only [fld_eq]; omega)
      | (simp_all; done)
  · try simp only [Bool.and_eq_true, Bool.or_eq_true, decide_eq_true_eq, beq_iff_eq] at hok
    constructor <;> simp [formHasC] <;> omega

theorem dfree (o : Ops) : Statement (.dfree o) := by
  intro w hw he
  refine decode_of (K := fun o => .dfree o) (g := { op := 0xA7, form := .f64, o := o, a := cSrc }) (fun _ => rfl) (fun hok o o' => ?_) rfl (by simp [cDst, cVK, cVKT, cVX, cVXK, cVKn]) (fun _ h => by simp [isTrailer] at h) (fun hok => ?_) hw he
  · skip
    show some (Instr.dfree o' ) = _
    rfl
  · skip
    constructor <;> simp [formHasC] <;> omega

theorem slipLd (o : Ops) (ring : Bool) (e : SlipE) : Statement (.slipLd o ring e) := by
  cases ring
  · intro w hw he
    obtain ⟨pos, eoff, isNew, isLast⟩ := e
    refine decode_of (K := fun o => .slipLd o false ⟨pos, eoff, isNew, isLast⟩) (g := (iSlip o 0 false (⟨pos, eoff, isNew, isLast⟩ : SlipE))) (fun _ => rfl) (fun hok o o' => ?_) rfl (by first | (simp [iSlip]; done) | (cases false <;> decide)) (fun _ h => by simp [isTrailer] at h) (fun hok => ?_) hw he
    · skip
      have b_isNew := bit_lt isNew
      have b_isLast := bit_lt isLast
      try simp only [iSlip, eSlip_0, eSlip_1, eSlip_2, eSlip_3, bit_false, bit_true, Bool.false_eq_true, if_true, if_false, eSlipOk_0, eSlipOk_1, eSlipOk_2, eSlipOk_3, Bool.and_eq_true, Bool.or_eq_true, decide_eq_true_eq, beq_iff_eq] at hok
      have e : fld (iSlip o 0 false ⟨pos, eoff, isNew, isLast⟩).m 10 3 = 0 := by simp only [iSlip, fld_eq, bit_false, bit_true]; omega
      show (match fld (iSlip o 0 false ⟨pos, eoff, isNew, isLast⟩).m 10 3 with
        | 0 => some (Instr.slipLd o' (bitN (iSlip o 0 false ⟨pos, eoff, isNew, isLast⟩).m 9) (slipEOf 0 (iSlip o 0 false ⟨pos, eoff, isNew, isLast⟩).e))
        | 1 => some (Instr.slipSt o' (slipEOf 1 (iSlip o 0 false ⟨pos, eoff, isNew, isLast⟩).e))
        | 2 => some (Instr.slipRl o' (bitN (iSlip o 0 false ⟨pos, eoff, isNew, isLast⟩).m 9) (slipEOf 2 (iSlip o 0 false ⟨pos, eoff, isNew, isLast⟩).e))
        | _ => some (Instr.slipBs o' (slipEOf 3 (iSlip o 0 false ⟨pos, eoff, isNew, isLast⟩).e))) = _
      rw [e]
      simp only [slipEOf_0, slipEOf_1, slipEOf_2, slipEOf_3, Option.some.injEq, Instr.slipLd.injEq, SlipE.mk.injEq, true_and, and_true]
      repeat' apply And.intro
      all_goals first
        | rfl
        | exact bitN_bit (by simp only [iSlip, eSlip_0, eSlip_1, eSlip_2, eSlip_3, bit_false, bit_true, Bool.false_eq_true, if_true, if_false, fld_eq]; omega)
        | (simp only [iSlip, eSlip_0, eSlip_1, eSlip_2, eSlip_3, bit_false, bit_true, Bool.false_eq_true, if_true, if_false, fld_eq]; omega)
        | (simp_all; done)
    · skip
      have b_isNew := bit_lt isNew
      have b_isLast := bit_lt isLast
      try simp only [iSlip, eSlip_0, eSlip_1, eSlip_2, eSlip_3, bit_false, bit_true, Bool.false_eq_true, if_true, if_false, eSlipOk_0, eSlipOk_1, eSlipOk_2, eSlipOk_3, Bool.and_eq_true, Bool.or_eq_true, decide_eq_true_eq, beq_iff_eq] at hok
      constructor <;> simp [iSlip, eSlip_0, eSlip_1, eSlip_2, eSlip_3, bit_false, bit_true, Bool.false_eq_true, if_true, if_false, formHasC] <;> omega
  · intro w hw he
    obtain ⟨pos, eoff, isNew, isLast⟩ := e
    refine decode_of (K := fun o => .slipLd o true ⟨pos, eoff, isNew, isLast⟩) (g := (iSlip o 0 true (⟨pos, eoff, isNew, isLast⟩ : SlipE))) (fun _ => rfl) (fun hok o o' => ?_) rfl (by first | (simp [iSlip]; done) | (cases true <;> decide)) (fun _ h => by simp [isTrailer] at h) (fun hok => ?_) hw he
    · skip
      have b_isNew := bit_lt isNew
      have b_isLast := bit_lt isLast
      try simp only [iSlip, eSlip_0, eSlip_1, eSlip_2, eSlip_3, bit_false, bit_true, Bool.false_eq_true, if_true, if_false, eSlipOk_0, eSlipOk_1, eSlipOk_2, eSlipOk_3, Bool.and_eq_true, Bool.or_eq_true, decide_eq_true_eq, beq_iff_eq] at hok
      have e : fld (iSlip o 0 true ⟨pos, eoff, isNew, isLast⟩).m 10 3 = 0 := by simp only [iSlip, fld_eq, bit_false, bit_true]; omega
      show (match fld (iSlip o 0 true ⟨pos, eoff, isNew, isLast⟩).m 10 3 with
        | 0 => some (Instr.slipLd o' (bitN (iSlip o 0 true ⟨pos, eoff, isNew, isLast⟩).m 9) (slipEOf 0 (iSlip o 0 true ⟨pos, eoff, isNew, isLast⟩).e))
        | 1 => some (Instr.slipSt o' (slipEOf 1 (iSlip o 0 true ⟨pos, eoff, isNew, isLast⟩).e))
        | 2 => some (Instr.slipRl o' (bitN (iSlip o 0 true ⟨pos, eoff, isNew, isLast⟩).m 9) (slipEOf 2 (iSlip o 0 true ⟨pos, eoff, isNew, isLast⟩).e))
        | _ => some (Instr.slipBs o' (slipEOf 3 (iSlip o 0 true ⟨pos, eoff, isNew, isLast⟩).e))) = _
      rw [e]
      simp only [slipEOf_0, slipEOf_1, slipEOf_2, slipEOf_3, Option.some.injEq, Instr.slipLd.injEq, SlipE.mk.injEq, true_and, and_true]
      repeat' apply And.intro
      all_goals first
        | rfl
        | exact bitN_bit (by simp only [iSlip, eSlip_0, eSlip_1, eSlip_2, eSlip_3, bit_false, bit_true, Bool.false_eq_true, if_true, if_false, fld_eq]; omega)
        | (simp only [iSlip, eSlip_0, eSlip_1, eSlip_2, eSlip_3, bit_false, bit_true, Bool.false_eq_true, if_true, if_false, fld_eq]; omega)
        | (simp_all; done)
    · skip
      have b_isNew := bit_lt isNew
      have b_isLast := bit_lt isLast
      try simp only [iSlip, eSlip_0, eSlip_1, eSlip_2, eSlip_3, bit_false, bit_true, Bool.false_eq_true, if_true, if_false, eSlipOk_0, eSlipOk_1, eSlipOk_2, eSlipOk_3, Bool.and_eq_true, Bool.or_eq_true, decide_eq_true_eq, beq_iff_eq] at hok
      constructor <;> simp [iSlip, eSlip_0, eSlip_1, eSlip_2, eSlip_3, bit_false, bit_true, Bool.false_eq_true, if_true, if_false, formHasC] <;> omega

theorem slipSt (o : Ops) (e : SlipE) : Statement (.slipSt o e) := by
  intro w hw he
  obtain ⟨pos, eoff, isNew, isLast⟩ := e
  refine decode_of (K := fun o => .slipSt o ⟨pos, eoff, isNew, isLast⟩) (g := (iSlip o 1 false (⟨pos, eoff, isNew, isLast⟩ : SlipE))) (fun _ => rfl) (fun hok o o' => ?_) rfl (by first | (simp [iSlip]; done) | (cases ring <;> decide)) (fun _ h => by simp [isTrailer] at h) (fun hok => ?_) hw he
  · have b_isNew := bit_lt isNew
    have b_isLast := bit_lt isLast
    try simp only [iSlip, eSlip_0, eSlip_1, eSlip_2, eSlip_3, bit_false, bit_true, Bool.false_eq_true, if_true, if_false, eSlipOk_0, eSlipOk_1, eSlipOk_2, eSlipOk_3, Bool.and_eq_true, Bool.or_eq_true, decide_eq_true_eq, beq_iff_eq] at hok
    have e : fld (iSlip o 1 false ⟨pos, eoff, isNew, isLast⟩).m 10 3 = 1 := by simp only [iSlip, fld_eq, bit_false, bit_true]; omega
    show (match fld (iSlip o 1 false ⟨pos, eoff, isNew, isLast⟩).m 10 3 with
      | 0 => some (Instr.slipLd o' (bitN (iSlip o 1 false ⟨pos, eoff, isNew, isLast⟩).m 9) (slipEOf 0 (iSlip o 1 false ⟨pos, eoff, isNew, isLast⟩).e))
      | 1 => some (Instr.slipSt o' (slipEOf 1 (iSlip o 1 false ⟨pos, eoff, isNew, isLast⟩).e))
      | 2 => some (Instr.slipRl o' (bitN (iSlip o 1 false ⟨pos, eoff, isNew, isLast⟩).m 9) (slipEOf 2 (iSlip o 1 false ⟨pos, eoff, isNew, isLast⟩).e))
      | _ => some (Instr.slipBs o' (slipEOf 3 (iSlip o 1 false ⟨pos, eoff, isNew, isLast⟩).e))) = _
    rw [e]
    simp only [slipEOf_0, slipEOf_1, slipEOf_2, slipEOf_3, Option.some.injEq, Instr.slipSt.injEq, SlipE.mk.injEq, true_and, and_true]
    repeat' apply And.intro
    all_goals first
      | rfl
      | exact bitN_bit (by simp only [iSlip, eSlip_0, eSlip_1, eSlip_2, eSlip_3, bit_false, bit_true, Bool.false_eq_true, if_true, if_false, fld_eq]; omega)
      | (simp only [iSlip, eSlip_0, eSlip_1, eSlip_2, eSlip_3, bit_false, bit_true, Bool.false_eq_true, if_true, if_false, fld_eq]; omega)
      | (simp_all; done)
  · have b_isNew := bit_lt isNew
    have b_isLast := bit_lt isLast
    try simp only [iSlip, eSlip_0, eSlip_1, eSlip_2, eSlip_3, bit_false, bit_true, Bool.false_eq_true, if_true, if_false, eSlipOk_0, eSlipOk_1, eSlipOk_2, eSlipOk_3, Bool.and_eq_true, Bool.or_eq_true, decide_eq_true_eq, beq_iff_eq] at hok
    constructor <;> simp [iSlip, eSlip_0, eSlip_1, eSlip_2, eSlip_3, bit_false, bit_true, Bool.false_eq_true, if_true, if_false, formHasC] <;> omega

theorem slipRl (o : Ops) (ring : Bool) (e : SlipE) : Statement (.slipRl o ring e) := by
  cases ring
  · intro w hw he
    obtain ⟨pos, eoff, isNew, isLast⟩ := e
    refine decode_of (K := fun o => .slipRl o false ⟨pos, eoff, isNew, isLast⟩) (g := (iSlip o 2 false (⟨pos, eoff, isNew, isLast⟩ : SlipE))) (fun _ => rfl) (fun hok o o' => ?_) rfl (by first | (simp [iSlip]; done) | (cases false <;> decide)) (fun _ h => by simp [isTrailer] at h) (fun hok => ?_) hw he
    · skip
      have b_isNew := bit_lt isNew
      have b_isLast := bit_lt isLast
      try simp only [iSlip, eSlip_0, eSlip_1, eSlip_2, eSlip_3, bit_false, bit_true, Bool.false_eq_true, if_true, if_false, eSlipOk_0, eSlipOk_1, eSlipOk_2, eSlipOk_3, Bool.and_eq_true, Bool.or_eq_true, decide_eq_true_eq, beq_iff_eq] at hok
      have e : fld (iSlip o 2 false ⟨pos, eoff, isNew, isLast⟩).m 10 3 = 2 := by simp only [iSlip, fld_eq, bit_false, bit_true]; omega
      show (match fld (iSlip o 2 false ⟨pos, eoff, isNew, isLast⟩).m 10 3 with
        | 0 => some (Instr.slipLd o' (bitN (iSlip o 2 false ⟨pos, eoff, isNew, isLast⟩).m 9) (slipEOf 0 (iSlip o 2 false ⟨pos, eoff, isNew, isLast⟩).e))
        | 1 => some (Instr.slipSt o' (slipEOf 1 (iSlip o 2 false ⟨pos, eoff, isNew, isLast⟩).e))
        | 2 => some (Instr.slipRl o' (bitN (iSlip o 2 false ⟨pos, eoff, isNew, isLast⟩).m 9) (slipEOf 2 (iSlip o 2 false ⟨pos, eoff, isNew, isLast⟩).e))
        | _ => some (Instr.slipBs o' (slipEOf 3 (iSlip o 2 false ⟨pos, eoff, isNew, isLast⟩).e))) = _
      rw [e]
      simp only [slipEOf_0, slipEOf_1, slipEOf_2, slipEOf_3, Option.some.injEq, Instr.slipRl.injEq, SlipE.mk.injEq, true_and, and_true]
      repeat' apply And.intro
      all_goals first
        | rfl
        | exact bitN_bit (by simp only [iSlip, eSlip_0, eSlip_1, eSlip_2, eSlip_3, bit_false, bit_true, Bool.false_eq_true, if_true, if_false, fld_eq]; omega)
        | (simp only [iSlip, eSlip_0, eSlip_1, eSlip_2, eSlip_3, bit_false, bit_true, Bool.false_eq_true, if_true, if_false, fld_eq]; omega)
        | (simp_all; done)
    · skip
      have b_isNew := bit_lt isNew
      have b_isLast := bit_lt isLast
      try simp only [iSlip, eSlip_0, eSlip_1, eSlip_2, eSlip_3, bit_false, bit_true, Bool.false_eq_true, if_true, if_false, eSlipOk_0, eSlipOk_1, eSlipOk_2, eSlipOk_3, Bool.and_eq_true, Bool.or_eq_true, decide_eq_true_eq, beq_iff_eq] at hok
      constructor <;> simp [iSlip, eSlip_0, eSlip_1, eSlip_2, eSlip_3, bit_false, bit_true, Bool.false_eq_true, if_true, if_false, formHasC] <;> omega
  · intro w hw he
    obtain ⟨pos, eoff, isNew, isLast⟩ := e
    refine decode_of (K := fun o => .slipRl o true ⟨pos, eoff, isNew, isLast⟩) (g := (iSlip o 2 true (⟨pos, eoff, isNew, isLast⟩ : SlipE))) (fun _ => rfl) (fun hok o o' => ?_) rfl (by first | (simp [iSlip]; done) | (cases true <;> decide)) (fun _ h => by simp [isTrailer] at h) (fun hok => ?_) hw he
    · skip
      have b_isNew := bit_lt isNew
      have b_isLast := bit_lt isLast
      try simp only [iSlip, eSlip_0, eSlip_1, eSlip_2, eSlip_3, bit_false, bit_true, Bool.false_eq_true, if_true, if_false, eSlipOk_0, eSlipOk_1, eSlipOk_2, eSlipOk_3, Bool.and_eq_true, Bool.or_eq_true, decide_eq_true_eq, beq_iff_eq] at hok
      have e : fld (iSlip o 2 true ⟨pos, eoff, isNew, isLast⟩).m 10 3 = 2 := by simp only [iSlip, fld_eq, bit_false, bit_true]; omega
      show (match fld (iSlip o 2 true ⟨pos, eoff, isNew, isLast⟩).m 10 3 with
        | 0 => some (Instr.slipLd o' (bitN (iSlip o 2 true ⟨pos, eoff, isNew, isLast⟩).m 9) (slipEOf 0 (iSlip o 2 true ⟨pos, eoff, isNew, isLast⟩).e))
        | 1 => some (Instr.slipSt o' (slipEOf 1 (iSlip o 2 true ⟨pos, eoff, isNew, isLast⟩).e))
        | 2 => some (Instr.slipRl o' (bitN (iSlip o 2 true ⟨pos, eoff, isNew, isLast⟩).m 9) (slipEOf 2 (iSlip o 2 true ⟨pos, eoff, isNew, isLast⟩).e))
        | _ => some (Instr.slipBs o' (slipEOf 3 (iSlip o 2 true ⟨pos, eoff, isNew, isLast⟩).e))) = _
      rw [e]
      simp only [slipEOf_0, slipEOf_1, slipEOf_2, slipEOf_3, Option.some.injEq, Instr.slipRl.injEq, SlipE.mk.injEq, true_and, and_true]
      repeat' apply And.intro
      all_goals first
        | rfl
        | exact bitN_bit (by simp only [iSlip, eSlip_0, eSlip_1, eSlip_2, eSlip_3, bit_false, bit_true, Bool.false_eq_true, if_true, if_false, fld_eq]; omega)
        | (simp only [iSlip, eSlip_0, eSlip_1, eSlip_2, eSlip_3, bit_false, bit_true, Bool.false_eq_true, if_true, if_false, fld_eq]; omega)
        | (simp_all; done)
    · skip
      have b_isNew := bit_lt isNew
      have b_isLast := bit_lt isLast
      try simp only [iSlip, eSlip_0, eSlip_1, eSlip_2, eSlip_3, bit_false, bit_true, Bool.false_eq_true, if_true, if_false, eSlipOk_0, eSlipOk_1, eSlipOk_2, eSlipOk_3, Bool.and_eq_true, Bool.or_eq_true, decide_eq_true_eq, beq_iff_eq] at hok
      constructor <;> simp [iSlip, eSlip_0, eSlip_1, eSlip_2, eSlip_3, bit_false, bit_true, Bool.false_eq_true, if_true, if_false, formHasC] <;> omega

theorem slipBs (o : Ops) (e : SlipE) : Statement (.slipBs o e) := by
  intro w hw he
  obtain ⟨pos, eoff, isNew, isLast⟩ := e
  refine decode_of (K := fun o => .slipBs o ⟨pos, eoff, isNew, isLast⟩) (g := (iSlip o 3 false (⟨pos, eoff, isNew, isLast⟩ : SlipE))) (fun _ => rfl) (fun hok o o' => ?_) rfl (by first | (simp [iSlip]; done) | (cases ring <;> decide)) (fun _ h => by simp [isTrailer] at h) (fun hok => ?_) hw he
  · have b_isNew := bit_lt isNew
    have b_isLast := bit_lt isLast
    try simp only [iSlip, eSlip_0, eSlip_1, eSlip_2, eSlip_3, bit_false, bit_true, Bool.false_eq_true, if_true, if_false, eSlipOk_0, eSlipOk_1, eSlipOk_2, eSlipOk_3, Bool.and_eq_true, Bool.or_eq_true, decide_eq_true_eq, beq_iff_eq] at hok
    have e : fld (iSlip o 3 false ⟨pos, eoff, isNew, isLast⟩).m 10 3 = 3 := by simp only [iSlip, fld_eq, bit_false, bit_true]; omega
    show (match fld (iSlip o 3 false ⟨pos, eoff, isNew, isLast⟩).m 10 3 with
      | 0 => some (Instr.slipLd o' (bitN (iSlip o 3 false ⟨pos, eoff, isNew, isLast⟩).m 9) (slipEOf 0 (iSlip o 3 false ⟨pos, eoff, isNew, isLast⟩).e))
      | 1 => some (Instr.slipSt o' (slipEOf 1 (iSlip o 3 false ⟨pos, eoff, isNew, isLast⟩).e))
      | 2 => some (Instr.slipRl o' (bitN (iSlip o 3 false ⟨pos, eoff, isNew, isLast⟩).m 9) (slipEOf 2 (iSlip o 3 false ⟨pos, eoff, isNew, isLast⟩).e))
      | _ => some (Instr.slipBs o' (slipEOf 3 (iSlip o 3 false ⟨pos, eoff, isNew, isLast⟩).e))) = _
    rw [e]
    simp only [slipEOf_0, slipEOf_1, slipEOf_2, slipEOf_3, Option.some.injEq, Instr.slipBs.injEq, SlipE.mk.injEq, true_and, and_true]
    repeat' apply And.intro
    all_goals first
      | rfl
      | exact bitN_bit (by simp only [iSlip, eSlip_0, eSlip_1, eSlip_2, eSlip_3, bit_false, bit_true, Bool.false_eq_true, if_true, if_false, fld_eq]; omega)
      | (simp only [iSlip, eSlip_0, eSlip_1, eSlip_2, eSlip_3, bit_false, bit_true, Bool.false_eq_true, if_true, if_false, fld_eq]; omega)
      | (simp_all; done)
  · have b_isNew := bit_lt isNew
    have b_isLast := bit_lt isLast
    try simp only [iSlip, eSlip_0, eSlip_1, eSlip_2, eSlip_3, bit_false, bit_true, Bool.false_eq_true, if_true, if_false, eSlipOk_0, eSlipOk_1, eSlipOk_2, eSlipOk_3, Bool.and_eq_true, Bool.or_eq_true, decide_eq_true_eq, beq_iff_eq] at hok
    constructor <;> simp [iSlip, eSlip_0, eSlip_1, eSlip_2, eSlip_3, bit_false, bit_true, Bool.false_eq_true, if_true, if_false, formHasC] <;> omega

theorem slipx (o : Ops) (bs : Bool) (ring : Bool) (tgt : XTgt) (e : SlipE) : Statement (.slipx o bs ring tgt e) := by
  cases bs
  · intro w hw he
    obtain ⟨pos, eoff, isNew, isLast⟩ := e
    refine decode_of (K := fun o => .slipx o false ring tgt ⟨pos, eoff, isNew, isLast⟩) (g := { iSlip o (if false then 3 else 0) ring (⟨pos, eoff, isNew, isLast⟩ : SlipE) with op := 0xB1, m := (if false then 3072 else 0) + 512 * bit ring + 128 * tgtCode tgt, ok := eSlipOk (if false then 3 else 0) (⟨pos, eoff, isNew, isLast⟩ : SlipE) && (!ring || !false) }) (fun _ => rfl) (fun hok o o' => ?_) rfl (by simp [iSlip]; split <;> simp) (fun _ h => by simp [isTrailer] at h) (fun hok => ?_) hw he
    · skip
      have b_ring := bit_lt ring
      have b_tgt := tgtCode_lt tgt
      have b_isNew := bit_lt isNew
      have b_isLast := bit_lt isLast
      try simp only [iSlip, eSlip_0, eSlip_1, eSlip_2, eSlip_3, bit_false, bit_true, Bool.false_eq_true, if_true, if_false, eSlipOk_0, eSlipOk_1, eSlipOk_2, eSlipOk_3, Bool.and_eq_true, Bool.or_eq_true, decide_eq_true_eq, beq_iff_eq] at hok
      have e : fld ((if false then 3072 else 0) + 512 * bit ring + 128 * tgtCode tgt) 10 3 = if false then 3 else 0 := by simp only [fld_eq, Bool.false_eq_true, if_true, if_false]; omega
      show some (Instr.slipx o' (fld ((if false then 3072 else 0) + 512 * bit ring + 128 * tgtCode tgt) 10 3 == 3) (bitN ((if false then 3072 else 0) + 512 * bit ring + 128 * tgtCode tgt) 9) (tgtOf (fld ((if false then 3072 else 0) + 512 * bit ring + 128 * tgtCode tgt) 7 2)) (slipEOf (fld ((if false then 3072 else 0) + 512 * bit ring + 128 * tgtCode tgt) 10 3) (eSlip (if false then 3 else 0) ⟨pos, eoff, isNew, isLast⟩))) = _
      rw [e]
      simp only [Bool.false_eq_true, if_true, if_false]
      simp only [slipEOf_0, slipEOf_1, slipEOf_2, slipEOf_3, Option.some.injEq, Instr.slipx.injEq, SlipE.mk.injEq, true_and, and_true]
      repeat' apply And.intro
      all_goals first
        | rfl
        | exact tgtOf_code (by simp only [iSlip, eSlip_0, eSlip_1, eSlip_2, eSlip_3, bit_false, bit_true, Bool.false_eq_true, if_true, if_false, fld_eq]; omega)
        | exact bitN_bit (by simp only [iSlip, eSlip_0, eSlip_1, eSlip_2, eSlip_3, bit_false, bit_true, Bool.false_eq_true, if_true, if_false, fld_eq]; omega)
        | (simp only [iSlip, eSlip_0, eSlip_1, eSlip_2, eSlip_3, bit_false, bit_true, Bool.false_eq_true, if_true, if_false, fld_eq]; omega)
        | (simp_all; done)
    · skip
      have b_ring := bit_lt ring
      have b_tgt := tgtCode_lt tgt
      have b_isNew := bit_lt isNew
      have b_isLast := bit_lt isLast
      try simp only [iSlip, eSlip_0, eSlip_1, eSlip_2, eSlip_3, bit_false, bit_true, Bool.false_eq_true, if_true, if_false, eSlipOk_0, eSlipOk_1, eSlipOk_2, eSlipOk_3, Bool.and_eq_true, Bool.or_eq_true, decide_eq_true_eq, beq_iff_eq] at hok
      constructor <;> simp [iSlip, eSlip_0, eSlip_1, eSlip_2, eSlip_3, bit_false, bit_true, Bool.false_eq_true, if_true, if_false, formHasC] <;> omega
  · intro w hw he
    obtain ⟨pos, eoff, isNew, isLast⟩ := e
    refine decode_of (K := fun o => .slipx o true ring tgt ⟨pos, eoff, isNew, isLast⟩) (g := { iSlip o (if true then 3 else 0) ring (⟨pos, eoff, isNew, isLast⟩ : SlipE) with op := 0xB1, m := (if true then 3072 else 0) + 512 * bit ring + 128 * tgtCode tgt, ok := eSlipOk (if true then 3 else 0) (⟨pos, eoff, isNew, isLast⟩ : SlipE) && (!ring || !true) }) (fun _ => rfl) (fun hok o o' => ?_) rfl (by simp [iSlip]; split <;> simp) (fun _ h => by simp [isTrailer] at h) (fun hok => ?_) hw he
    · skip
      have b_ring := bit_lt ring
      have b_tgt := tgtCode_lt tgt
      have b_isNew := bit_lt isNew
      have b_isLast := bit_lt isLast
      try simp only [iSlip, eSlip_0, eSlip_1, eSlip_2, eSlip_3, bit_false, bit_true, Bool.false_eq_true, if_true, if_false, eSlipOk_0, eSlipOk_1, eSlipOk_2, eSlipOk_3, Bool.and_eq_true, Bool.or_eq_true, decide_eq_true_eq, beq_iff_eq] at hok
      have e : fld ((if true then 3072 else 0) + 512 * bit ring + 128 * tgtCode tgt) 10 3 = if true then 3 else 0 := by simp only [fld_eq, Bool.false_eq_true, if_true, if_false]; omega
      show some (Instr.slipx o' (fld ((if true then 3072 else 0) + 512 * bit ring + 128 * tgtCode tgt) 10 3 == 3) (bitN ((if true then 3072 else 0) + 512 * bit ring + 128 * tgtCode tgt) 9) (tgtOf (fld ((if true then 3072 else 0) + 512 * bit ring + 128 * tgtCode tgt) 7 2)) (slipEOf (fld ((if true then 3072 else 0) + 512 * bit ring + 128 * tgtCode tgt) 10 3) (eSlip (if true then 3 else 0) ⟨pos, eoff, isNew, isLast⟩))) = _
      rw [e]
      simp only [Bool.false_eq_true, if_true, if_false]
      simp only [slipEOf_0, slipEOf_1, slipEOf_2, slipEOf_3, Option.some.injEq, Instr.slipx.injEq, SlipE.mk.injEq, true_and, and_true]
      repeat' apply And.intro
      all_goals first
        | rfl
        | exact tgtOf_code (by simp only [iSlip, eSlip_0, eSlip_1, eSlip_2, eSlip_3, bit_false, bit_true, Bool.false_eq_true, if_true, if_false, fld_eq]; omega)
        | exact bitN_bit (by simp only [iSlip, eSlip_0, eSlip_1, eSlip_2, eSlip_3, bit_false, bit_true, Bool.false_eq_true, if_true, if_false, fld_eq]; omega)
        | (simp only [iSlip, eSlip_0, eSlip_1, eSlip_2, eSlip_3, bit_false, bit_true, Bool.false_eq_true, if_true, if_false, fld_eq]; omega)
        | (simp_all; done)
    · skip
      have b_ring := bit_lt ring
      have b_tgt := tgtCode_lt tgt
      have b_isNew := bit_lt isNew
      have b_isLast := bit_lt isLast
      try simp only [iSlip, eSlip_0, eSlip_1, eSlip_2, eSlip_3, bit_false, bit_true, Bool.false_eq_true, if_true, if_false, eSlipOk_0, eSlipOk_1, eSlipOk_2, eSlipOk_3, Bool.and_eq_true, Bool.or_eq_true, decide_eq_true_eq, beq_iff_eq] at hok
      constructor <;> simp [iSlip, eSlip_0, eSlip_1, eSlip_2, eSlip_3, bit_false, bit_true, Bool.false_eq_true, if_true, if_false, formHasC] <;> omega

theorem slipc (o : Ops) (lb : Nat) (e : SlipE) : Statement (.slipc o lb e) := by
  intro w hw he
  obtain ⟨pos, eoff, isNew, isLast⟩ := e
  refine decode_of (K := fun o => .slipc o lb ⟨pos, eoff, isNew, isLast⟩) (g := { iSlip o 0 false (⟨pos, eoff, isNew, isLast⟩ : SlipE) with op := 0xB2, m2 := lb, ok := eSlipOk 0 (⟨pos, eoff, isNew, isLast⟩ : SlipE) && lb < 4 }) (fun _ => rfl) (fun hok o o' => ?_) rfl (by first | (simp [iSlip]; done) | (cases ring <;> decide)) (fun _ h => by simp [isTrailer] at h) (fun hok => ?_) hw he
  · have b_isNew := bit_lt isNew
    have b_isLast := bit_lt isLast
    try simp only [iSlip, eSlip_0, eSlip_1, eSlip_2, eSlip_3, bit_false, bit_true, Bool.false_eq_true, if_true, if_false, eSlipOk_0, eSlipOk_1, eSlipOk_2, eSlipOk_3, Bool.and_eq_true, Bool.or_eq_true, decide_eq_true_eq, beq_iff_eq] at hok
    show some (Instr.slipc o' (fld (({ iSlip o 0 false (⟨pos, eoff, isNew, isLast⟩ : SlipE) with op := 0xB2, m2 := lb, ok := eSlipOk 0 (⟨pos, eoff, isNew, isLast⟩ : SlipE) && lb < 4 } : Info)).m2 0 2) (slipEOf 0 (({ iSlip o 0 false (⟨pos, eoff, isNew, isLast⟩ : SlipE) with op := 0xB2, m2 := lb, ok := eSlipOk 0 (⟨pos, eoff, isNew, isLast⟩ : SlipE) && lb < 4 } : Info)).e)) = _
    simp only [slipEOf_0, slipEOf_1, slipEOf_2, slipEOf_3, Option.some.injEq, Instr.slipc.injEq, SlipE.mk.injEq, true_and, and_true]
    repeat' apply And.intro
    all_goals first
      | rfl
      | exact bitN_bit (by simp only [iSlip, eSlip_0, eSlip_1, eSlip_2, eSlip_3, bit_false, bit_true, Bool.false_eq_true, if_true, if_false, fld_eq]; omega)
      | (simp only [iSlip, eSlip_0, eSlip_1, eSlip_2, eSlip_3, bit_false, bit_true, Bool.false_eq_true, if_true, if_false, fld_eq]; omega)
      | (simp_all; done)
  · have b_isNew := bit_lt isNew
    have b_isLast := bit_lt isLast
    try simp only [iSlip, eSlip_0, eSlip_1, eSlip_2, eSlip_3, bit_false, bit_true, Bool.false_eq_true, if_true, if_false, eSlipOk_0, eSlipOk_1, eSlipOk_2, eSlipOk_3, Bool.and_eq_true, Bool.or_eq_true, decide_eq_true_eq, beq_iff_eq] at hok
    constructor <;> simp [iSlip, eSlip_0, eSlip_1, eSlip_2, eSlip_3, bit_false, bit_true, Bool.false_eq_true, if_true, if_false, formHasC] <;> omega

theorem copyPieceLands (id : Nat) (piece : Nat) : Statement (.copyPieceLands id piece) := by
  intro w _ he
  simp [encode, info] at he

theorem copyComplete (id : Nat) : Statement (.copyComplete id) := by
  intro w _ he
  simp [encode, info] at he

theorem completionPortPush (id : Nat) : Statement (.completionPortPush id) := by
  intro w _ he
  simp [encode, info] at he

theorem slipTranslationRewalk (id : Nat) : Statement (.slipTranslationRewalk id) := by
  intro w _ he
  simp [encode, info] at he

theorem slipStallTimeout (id : Nat) : Statement (.slipStallTimeout id) := by
  intro w _ he
  simp [encode, info] at he

theorem commandAbandon (id : Nat) : Statement (.commandAbandon id) := by
  intro w _ he
  simp [encode, info] at he

theorem tlr (o : Ops) (addr : Bool) : Statement (.tlr o addr) := by
  intro w hw he
  refine decode_of (K := fun o => .tlr o addr) (g := { op := 0xB3, form := .f96c, o := o, d := cVXK, a := cSrc, b := if addr then cSrc else [], c := if addr then cSrc else [], m := bit addr }) (fun _ => rfl) (fun hok o o' => ?_) rfl (by simp [if_true, if_false, cDst, cVK, cVKT, cVX, cVXK, cVKn]) (fun _ h => by simp [isTrailer] at h) (fun hok => ?_) hw he
  · have b_addr := bit_lt addr
    try simp only [Bool.false_eq_true, if_true, if_false, bit_false, bit_true, Bool.and_eq_true, Bool.or_eq_true, decide_eq_true_eq, beq_iff_eq] at hok
    show some (Instr.tlr o' (bitN (({ op := 0xB3, form := .f96c, o := o, d := cVXK, a := cSrc, b := if addr then cSrc else [], c := if addr then cSrc else [], m := bit addr } : Info)).m 0)) = _
    simp only [Option.some.injEq, Instr.tlr.injEq, true_and, and_true]
    repeat' apply And.intro
    all_goals first
      | rfl
      | exact bitN_bit (by simp only [Bool.false_eq_true, if_true, if_false, bit_false, bit_true, fld_eq]; omega)
      | (simp only [Bool.false_eq_true, if_true, if_false, bit_false, bit_true, fld_eq]; omega)
      | (simp_all; done)
  · have b_addr := bit_lt addr
    try simp only [Bool.false_eq_true, if_true, if_false, bit_false, bit_true, Bool.and_eq_true, Bool.or_eq_true, decide_eq_true_eq, beq_iff_eq] at hok
    constructor <;> simp [Bool.false_eq_true, if_true, if_false, bit_false, bit_true, formHasC] <;> omega

theorem rinit (o : Ops) (n : Nat) : Statement (.rinit o n) := by
  intro w hw he
  refine decode_of (K := fun o => .rinit o n) (g := { op := 0xB4, form := .f64, o := o, a := cSrc, b := cSrc, m := n, ok := n < 32 }) (fun _ => rfl) (fun hok o o' => ?_) rfl (by simp [cDst, cVK, cVKT, cVX, cVXK, cVKn]) (fun _ h => by simp [isTrailer] at h) (fun hok => ?_) hw he
  · try simp only [Bool.and_eq_true, Bool.or_eq_true, decide_eq_true_eq, beq_iff_eq] at hok
    show some (Instr.rinit o' (fld (({ op := 0xB4, form := .f64, o := o, a := cSrc, b := cSrc, m := n, ok := n < 32 } : Info)).m 0 5)) = _
    simp only [Option.some.injEq, Instr.rinit.injEq, true_and, and_true]
    repeat' apply And.intro
    all_goals first
      | rfl
      | (simp only [fld_eq]; omega)
      | (simp_all; done)
  · try simp only [Bool.and_eq_true, Bool.or_eq_true, decide_eq_true_eq, beq_iff_eq] at hok
    constructor <;> simp [formHasC] <;> omega

theorem rwait (o : Ops) : Statement (.rwait o) := by
  intro w hw he
  refine decode_of (K := fun o => .rwait o) (g := { op := 0xB5, form := .f64, o := o, d := cVKn, a := cSrc }) (fun _ => rfl) (fun hok o o' => ?_) rfl (by simp [cDst, cVK, cVKT, cVX, cVXK, cVKn]) (fun _ h => by simp [isTrailer] at h) (fun hok => ?_) hw he
  · skip
    show some (Instr.rwait o' ) = _
    rfl
  · skip
    constructor <;> simp [formHasC] <;> omega

theorem rwaitB (o : Ops) : Statement (.rwaitB o) := by
  intro w hw he
  refine decode_of (K := fun o => .rwaitB o) (g := { op := 0xB5, form := .f64, o := o, d := cVKn, a := [.k0], m := 1 }) (fun _ => rfl) (fun hok o o' => ?_) rfl (by simp [cDst, cVK, cVKT, cVX, cVXK, cVKn]) (fun _ h => by simp [isTrailer] at h) (fun hok => ?_) hw he
  · skip
    show some (Instr.rwaitB o' ) = _
    rfl
  · skip
    constructor <;> simp [formHasC] <;> omega

theorem rrel (o : Ops) : Statement (.rrel o) := by
  intro w hw he
  refine decode_of (K := fun o => .rrel o) (g := { op := 0xB6, form := .f64, o := o, a := cSrc, b := cSrc }) (fun _ => rfl) (fun hok o o' => ?_) rfl (by simp [cDst, cVK, cVKT, cVX, cVXK, cVKn]) (fun _ h => by simp [isTrailer] at h) (fun hok => ?_) hw he
  · skip
    show some (Instr.rrel o' ) = _
    rfl
  · skip
    constructor <;> simp [formHasC] <;> omega

theorem rrelB (o : Ops) : Statement (.rrelB o) := by
  intro w hw he
  refine decode_of (K := fun o => .rrelB o) (g := { op := 0xB6, form := .f64, o := o, a := [.k0], b := cSrc, m := 1 }) (fun _ => rfl) (fun hok o o' => ?_) rfl (by simp [cDst, cVK, cVKT, cVX, cVXK, cVKn]) (fun _ h => by simp [isTrailer] at h) (fun hok => ?_) hw he
  · skip
    show some (Instr.rrelB o' ) = _
    rfl
  · skip
    constructor <;> simp [formHasC] <;> omega

theorem rstatRing (o : Ops) : Statement (.rstatRing o) := by
  intro w hw he
  refine decode_of (K := fun o => .rstatRing o) (g := { op := 0xB7, form := .f64, o := o, d := cVKT, a := cSrc }) (fun _ => rfl) (fun hok o o' => ?_) rfl (by simp [cDst, cVK, cVKT, cVX, cVXK, cVKn]) (fun _ h => by simp [isTrailer] at h) (fun hok => ?_) hw he
  · skip
    show some (Instr.rstatRing o' ) = _
    rfl
  · skip
    constructor <;> simp [formHasC] <;> omega

theorem rstatB (o : Ops) : Statement (.rstatB o) := by
  intro w hw he
  refine decode_of (K := fun o => .rstatB o) (g := { op := 0xB7, form := .f64, o := o, d := cVKT, a := [.k0], m := 1 }) (fun _ => rfl) (fun hok o o' => ?_) rfl (by simp [cDst, cVK, cVKT, cVX, cVXK, cVKn]) (fun _ h => by simp [isTrailer] at h) (fun hok => ?_) hw he
  · skip
    show some (Instr.rstatB o' ) = _
    rfl
  · skip
    constructor <;> simp [formHasC] <;> omega

theorem rstatSt (o : Ops) : Statement (.rstatSt o) := by
  intro w hw he
  refine decode_of (K := fun o => .rstatSt o) (g := { op := 0xB7, form := .f64, o := o, d := cVKT, a := [.k0], m := 2 }) (fun _ => rfl) (fun hok o o' => ?_) rfl (by simp [cDst, cVK, cVKT, cVX, cVXK, cVKn]) (fun _ h => by simp [isTrailer] at h) (fun hok => ?_) hw he
  · skip
    show some (Instr.rstatSt o' ) = _
    rfl
  · skip
    constructor <;> simp [formHasC] <;> omega

theorem rstatStc (o : Ops) : Statement (.rstatStc o) := by
  intro w hw he
  refine decode_of (K := fun o => .rstatStc o) (g := { op := 0xB7, form := .f64, o := o, d := cVKT, a := [.k0], m := 3 }) (fun _ => rfl) (fun hok o o' => ?_) rfl (by simp [cDst, cVK, cVKT, cVX, cVXK, cVKn]) (fun _ h => by simp [isTrailer] at h) (fun hok => ?_) hw he
  · skip
    show some (Instr.rstatStc o' ) = _
    rfl
  · skip
    constructor <;> simp [formHasC] <;> omega

theorem wcfg (o : Ops) : Statement (.wcfg o) := by
  intro w hw he
  refine decode_of (K := fun o => .wcfg o) (g := { op := 0xC0, form := .f64, o := o, d := [.v, .kn, .t], a := cSrc }) (fun _ => rfl) (fun hok o o' => ?_) rfl (by simp [cDst, cVK, cVKT, cVX, cVXK, cVKn]) (fun _ h => by simp [isTrailer] at h) (fun hok => ?_) hw he
  · skip
    show some (Instr.wcfg o' ) = _
    rfl
  · skip
    constructor <;> simp [formHasC] <;> omega

theorem wzero (o : Ops) : Statement (.wzero o) := by
  intro w hw he
  refine decode_of (K := fun o => .wzero o) (g := { op := 0xC1, form := .f64, o := o, a := cSrc }) (fun _ => rfl) (fun hok o o' => ?_) rfl (by simp [cDst, cVK, cVKT, cVX, cVXK, cVKn]) (fun _ h => by simp [isTrailer] at h) (fun hok => ?_) hw he
  · skip
    show some (Instr.wzero o' ) = _
    rfl
  · skip
    constructor <;> simp [formHasC] <;> omega

theorem wloop (o : Ops) (m : WloopM) : Statement (.wloop o m) := by
  intro w hw he
  obtain ⟨tile, tag, zero, bmx, bfmt, amx, afmt⟩ := m
  refine decode_of (K := fun o => .wloop o ⟨tile, tag, zero, bmx, bfmt, amx, afmt⟩) (g := { op := 0xC2, form := .f128e, o := o, d := [.k0, .kn, .eq], a := cSrc, b := cSrc, c := cSrc, m := 32 * tile, m2 := tag, e := eWloop (⟨tile, tag, zero, bmx, bfmt, amx, afmt⟩ : WloopM), ok := tile < 16 && tag < 4096 && afmt < 16 && bfmt < 16 && wheelFmtOk afmt bfmt amx bmx }) (fun _ => rfl) (fun hok o o' => ?_) rfl (by simp [cDst, cVK, cVKT, cVX, cVXK, cVKn]) (fun _ h => by simp [isTrailer] at h) (fun hok => ?_) hw he
  · have b_zero := bit_lt zero
    have b_bmx := bit_lt bmx
    have b_amx := bit_lt amx
    try simp only [eWloop, Bool.and_eq_true, Bool.or_eq_true, decide_eq_true_eq, beq_iff_eq] at hok
    show some (Instr.wloop o' ⟨fld (({ op := 0xC2, form := .f128e, o := o, d := [.k0, .kn, .eq], a := cSrc, b := cSrc, c := cSrc, m := 32 * tile, m2 := tag, e := eWloop (⟨tile, tag, zero, bmx, bfmt, amx, afmt⟩ : WloopM), ok := tile < 16 && tag < 4096 && afmt < 16 && bfmt < 16 && wheelFmtOk afmt bfmt amx bmx } : Info)).m 5 4, (({ op := 0xC2, form := .f128e, o := o, d := [.k0, .kn, .eq], a := cSrc, b := cSrc, c := cSrc, m := 32 * tile, m2 := tag, e := eWloop (⟨tile, tag, zero, bmx, bfmt, amx, afmt⟩ : WloopM), ok := tile < 16 && tag < 4096 && afmt < 16 && bfmt < 16 && wheelFmtOk afmt bfmt amx bmx } : Info)).m2, bitN (({ op := 0xC2, form := .f128e, o := o, d := [.k0, .kn, .eq], a := cSrc, b := cSrc, c := cSrc, m := 32 * tile, m2 := tag, e := eWloop (⟨tile, tag, zero, bmx, bfmt, amx, afmt⟩ : WloopM), ok := tile < 16 && tag < 4096 && afmt < 16 && bfmt < 16 && wheelFmtOk afmt bfmt amx bmx } : Info)).e 10, bitN (({ op := 0xC2, form := .f128e, o := o, d := [.k0, .kn, .eq], a := cSrc, b := cSrc, c := cSrc, m := 32 * tile, m2 := tag, e := eWloop (⟨tile, tag, zero, bmx, bfmt, amx, afmt⟩ : WloopM), ok := tile < 16 && tag < 4096 && afmt < 16 && bfmt < 16 && wheelFmtOk afmt bfmt amx bmx } : Info)).e 9, fld (({ op := 0xC2, form := .f128e, o := o, d := [.k0, .kn, .eq], a := cSrc, b := cSrc, c := cSrc, m := 32 * tile, m2 := tag, e := eWloop (⟨tile, tag, zero, bmx, bfmt, amx, afmt⟩ : WloopM), ok := tile < 16 && tag < 4096 && afmt < 16 && bfmt < 16 && wheelFmtOk afmt bfmt amx bmx } : Info)).e 5 4, bitN (({ op := 0xC2, form := .f128e, o := o, d := [.k0, .kn, .eq], a := cSrc, b := cSrc, c := cSrc, m := 32 * tile, m2 := tag, e := eWloop (⟨tile, tag, zero, bmx, bfmt, amx, afmt⟩ : WloopM), ok := tile < 16 && tag < 4096 && afmt < 16 && bfmt < 16 && wheelFmtOk afmt bfmt amx bmx } : Info)).e 4, fld (({ op := 0xC2, form := .f128e, o := o, d := [.k0, .kn, .eq], a := cSrc, b := cSrc, c := cSrc, m := 32 * tile, m2 := tag, e := eWloop (⟨tile, tag, zero, bmx, bfmt, amx, afmt⟩ : WloopM), ok := tile < 16 && tag < 4096 && afmt < 16 && bfmt < 16 && wheelFmtOk afmt bfmt amx bmx } : Info)).e 0 4⟩) = _
    simp only [Option.some.injEq, Instr.wloop.injEq, WloopM.mk.injEq, true_and, and_true]
    repeat' apply And.intro
    all_goals first
      | rfl
      | exact bitN_bit (by simp only [eWloop, fld_eq]; omega)
      | (simp only [eWloop, fld_eq]; omega)
      | (simp_all; done)
  · have b_zero := bit_lt zero
    have b_bmx := bit_lt bmx
    have b_amx := bit_lt amx
    try simp only [eWloop, Bool.and_eq_true, Bool.or_eq_true, decide_eq_true_eq, beq_iff_eq] at hok
    constructor <;> simp [eWloop, formHasC] <;> omega

theorem wheelCommandStart (core : Nat) : Statement (.wheelCommandStart core) := by
  intro w _ he
  simp [encode, info] at he

theorem wloopComplete (core : Nat) : Statement (.wloopComplete core) := by
  intro w _ he
  simp [encode, info] at he

theorem wdrain (o : Ops) (m : WdrainM) : Statement (.wdrain o m) := by
  intro w hw he
  obtain ⟨tile, tag, scope, clr, nn, mm, tswz, tsp, tfmt, dswz, dsp, dfmt⟩ := m
  refine decode_of (K := fun o => .wdrain o ⟨tile, tag, scope, clr, nn, mm, tswz, tsp, tfmt, dswz, dsp, dfmt⟩) (g := { op := 0xC3, form := .f128e, o := o, d := [.k0, .kn, .eq], a := cSrc, b := cSrc, c := cSrc, m := 32 * tile + 512 * scopeCode scope, m2 := tag, e := eWdrain (⟨tile, tag, scope, clr, nn, mm, tswz, tsp, tfmt, dswz, dsp, dfmt⟩ : WdrainM), ok := tile < 16 && tag < 4096 && eWdrainOk (⟨tile, tag, scope, clr, nn, mm, tswz, tsp, tfmt, dswz, dsp, dfmt⟩ : WdrainM) }) (fun _ => rfl) (fun hok o o' => ?_) rfl (by simp [cDst, cVK, cVKT, cVX, cVXK, cVKn]) (fun _ h => by simp [isTrailer] at h) (fun hok => ?_) hw he
  · have b_scope := scopeCode_lt scope
    have b_clr := bit_lt clr
    have b_tsp := bit_lt tsp
    have b_dsp := bit_lt dsp
    try simp only [eWdrain, eWdrainOk, Bool.and_eq_true, Bool.or_eq_true, decide_eq_true_eq, beq_iff_eq] at hok
    show some (Instr.wdrain o' ⟨fld (({ op := 0xC3, form := .f128e, o := o, d := [.k0, .kn, .eq], a := cSrc, b := cSrc, c := cSrc, m := 32 * tile + 512 * scopeCode scope, m2 := tag, e := eWdrain (⟨tile, tag, scope, clr, nn, mm, tswz, tsp, tfmt, dswz, dsp, dfmt⟩ : WdrainM), ok := tile < 16 && tag < 4096 && eWdrainOk (⟨tile, tag, scope, clr, nn, mm, tswz, tsp, tfmt, dswz, dsp, dfmt⟩ : WdrainM) } : Info)).m 5 4, (({ op := 0xC3, form := .f128e, o := o, d := [.k0, .kn, .eq], a := cSrc, b := cSrc, c := cSrc, m := 32 * tile + 512 * scopeCode scope, m2 := tag, e := eWdrain (⟨tile, tag, scope, clr, nn, mm, tswz, tsp, tfmt, dswz, dsp, dfmt⟩ : WdrainM), ok := tile < 16 && tag < 4096 && eWdrainOk (⟨tile, tag, scope, clr, nn, mm, tswz, tsp, tfmt, dswz, dsp, dfmt⟩ : WdrainM) } : Info)).m2, scopeOf (fld (({ op := 0xC3, form := .f128e, o := o, d := [.k0, .kn, .eq], a := cSrc, b := cSrc, c := cSrc, m := 32 * tile + 512 * scopeCode scope, m2 := tag, e := eWdrain (⟨tile, tag, scope, clr, nn, mm, tswz, tsp, tfmt, dswz, dsp, dfmt⟩ : WdrainM), ok := tile < 16 && tag < 4096 && eWdrainOk (⟨tile, tag, scope, clr, nn, mm, tswz, tsp, tfmt, dswz, dsp, dfmt⟩ : WdrainM) } : Info)).m 9 4), bitN (({ op := 0xC3, form := .f128e, o := o, d := [.k0, .kn, .eq], a := cSrc, b := cSrc, c := cSrc, m := 32 * tile + 512 * scopeCode scope, m2 := tag, e := eWdrain (⟨tile, tag, scope, clr, nn, mm, tswz, tsp, tfmt, dswz, dsp, dfmt⟩ : WdrainM), ok := tile < 16 && tag < 4096 && eWdrainOk (⟨tile, tag, scope, clr, nn, mm, tswz, tsp, tfmt, dswz, dsp, dfmt⟩ : WdrainM) } : Info)).e 26, fld (({ op := 0xC3, form := .f128e, o := o, d := [.k0, .kn, .eq], a := cSrc, b := cSrc, c := cSrc, m := 32 * tile + 512 * scopeCode scope, m2 := tag, e := eWdrain (⟨tile, tag, scope, clr, nn, mm, tswz, tsp, tfmt, dswz, dsp, dfmt⟩ : WdrainM), ok := tile < 16 && tag < 4096 && eWdrainOk (⟨tile, tag, scope, clr, nn, mm, tswz, tsp, tfmt, dswz, dsp, dfmt⟩ : WdrainM) } : Info)).e 20 6, fld (({ op := 0xC3, form := .f128e, o := o, d := [.k0, .kn, .eq], a := cSrc, b := cSrc, c := cSrc, m := 32 * tile + 512 * scopeCode scope, m2 := tag, e := eWdrain (⟨tile, tag, scope, clr, nn, mm, tswz, tsp, tfmt, dswz, dsp, dfmt⟩ : WdrainM), ok := tile < 16 && tag < 4096 && eWdrainOk (⟨tile, tag, scope, clr, nn, mm, tswz, tsp, tfmt, dswz, dsp, dfmt⟩ : WdrainM) } : Info)).e 14 6, fld (({ op := 0xC3, form := .f128e, o := o, d := [.k0, .kn, .eq], a := cSrc, b := cSrc, c := cSrc, m := 32 * tile + 512 * scopeCode scope, m2 := tag, e := eWdrain (⟨tile, tag, scope, clr, nn, mm, tswz, tsp, tfmt, dswz, dsp, dfmt⟩ : WdrainM), ok := tile < 16 && tag < 4096 && eWdrainOk (⟨tile, tag, scope, clr, nn, mm, tswz, tsp, tfmt, dswz, dsp, dfmt⟩ : WdrainM) } : Info)).e 12 2,
                             bitN (({ op := 0xC3, form := .f128e, o := o, d := [.k0, .kn, .eq], a := cSrc, b := cSrc, c := cSrc, m := 32 * tile + 512 * scopeCode scope, m2 := tag, e := eWdrain (⟨tile, tag, scope, clr, nn, mm, tswz, tsp, tfmt, dswz, dsp, dfmt⟩ : WdrainM), ok := tile < 16 && tag < 4096 && eWdrainOk (⟨tile, tag, scope, clr, nn, mm, tswz, tsp, tfmt, dswz, dsp, dfmt⟩ : WdrainM) } : Info)).e 11, fld (({ op := 0xC3, form := .f128e, o := o, d := [.k0, .kn, .eq], a := cSrc, b := cSrc, c := cSrc, m := 32 * tile + 512 * scopeCode scope, m2 := tag, e := eWdrain (⟨tile, tag, scope, clr, nn, mm, tswz, tsp, tfmt, dswz, dsp, dfmt⟩ : WdrainM), ok := tile < 16 && tag < 4096 && eWdrainOk (⟨tile, tag, scope, clr, nn, mm, tswz, tsp, tfmt, dswz, dsp, dfmt⟩ : WdrainM) } : Info)).e 7 4, fld (({ op := 0xC3, form := .f128e, o := o, d := [.k0, .kn, .eq], a := cSrc, b := cSrc, c := cSrc, m := 32 * tile + 512 * scopeCode scope, m2 := tag, e := eWdrain (⟨tile, tag, scope, clr, nn, mm, tswz, tsp, tfmt, dswz, dsp, dfmt⟩ : WdrainM), ok := tile < 16 && tag < 4096 && eWdrainOk (⟨tile, tag, scope, clr, nn, mm, tswz, tsp, tfmt, dswz, dsp, dfmt⟩ : WdrainM) } : Info)).e 5 2, bitN (({ op := 0xC3, form := .f128e, o := o, d := [.k0, .kn, .eq], a := cSrc, b := cSrc, c := cSrc, m := 32 * tile + 512 * scopeCode scope, m2 := tag, e := eWdrain (⟨tile, tag, scope, clr, nn, mm, tswz, tsp, tfmt, dswz, dsp, dfmt⟩ : WdrainM), ok := tile < 16 && tag < 4096 && eWdrainOk (⟨tile, tag, scope, clr, nn, mm, tswz, tsp, tfmt, dswz, dsp, dfmt⟩ : WdrainM) } : Info)).e 4, fld (({ op := 0xC3, form := .f128e, o := o, d := [.k0, .kn, .eq], a := cSrc, b := cSrc, c := cSrc, m := 32 * tile + 512 * scopeCode scope, m2 := tag, e := eWdrain (⟨tile, tag, scope, clr, nn, mm, tswz, tsp, tfmt, dswz, dsp, dfmt⟩ : WdrainM), ok := tile < 16 && tag < 4096 && eWdrainOk (⟨tile, tag, scope, clr, nn, mm, tswz, tsp, tfmt, dswz, dsp, dfmt⟩ : WdrainM) } : Info)).e 0 4⟩) = _
    simp only [Option.some.injEq, Instr.wdrain.injEq, WdrainM.mk.injEq, true_and, and_true]
    repeat' apply And.intro
    all_goals first
      | rfl
      | exact scopeOf_code (by simp only [eWdrain, fld_eq]; omega)
      | exact bitN_bit (by simp only [eWdrain, fld_eq]; omega)
      | (simp only [eWdrain, fld_eq]; omega)
      | (simp_all; done)
  · have b_scope := scopeCode_lt scope
    have b_clr := bit_lt clr
    have b_tsp := bit_lt tsp
    have b_dsp := bit_lt dsp
    try simp only [eWdrain, eWdrainOk, Bool.and_eq_true, Bool.or_eq_true, decide_eq_true_eq, beq_iff_eq] at hok
    constructor <;> simp [eWdrain, formHasC] <;> omega

theorem wdrainComplete (core : Nat) : Statement (.wdrainComplete core) := by
  intro w _ he
  simp [encode, info] at he

theorem waccRd (o : Ops) : Statement (.waccRd o) := by
  intro w hw he
  refine decode_of (K := fun o => .waccRd o) (g := { op := 0xC4, form := .f64, o := o, d := [.v], a := cSrc }) (fun _ => rfl) (fun hok o o' => ?_) rfl (by simp [cDst, cVK, cVKT, cVX, cVXK, cVKn]) (fun _ h => by simp [isTrailer] at h) (fun hok => ?_) hw he
  · skip
    show some (Instr.waccRd o' ) = _
    rfl
  · skip
    constructor <;> simp [formHasC] <;> omega

theorem waccWr (o : Ops) : Statement (.waccWr o) := by
  intro w hw he
  refine decode_of (K := fun o => .waccWr o) (g := { op := 0xC4, form := .f64, o := o, a := cSrc, b := cSrc, m := 1 }) (fun _ => rfl) (fun hok o o' => ?_) rfl (by simp [cDst, cVK, cVKT, cVX, cVXK, cVKn]) (fun _ h => by simp [isTrailer] at h) (fun hok => ?_) hw he
  · skip
    show some (Instr.waccWr o' ) = _
    rfl
  · skip
    constructor <;> simp [formHasC] <;> omega

theorem wstat (o : Ops) (clr : Bool) : Statement (.wstat o clr) := by
  intro w hw he
  refine decode_of (K := fun o => .wstat o clr) (g := { op := 0xC5, form := .f64, o := o, d := cVKT, m := bit clr }) (fun _ => rfl) (fun hok o o' => ?_) rfl (by simp [cDst, cVK, cVKT, cVX, cVXK, cVKn]) (fun _ h => by simp [isTrailer] at h) (fun hok => ?_) hw he
  · have b_clr := bit_lt clr
    try simp only [bit_false, bit_true, Bool.and_eq_true, Bool.or_eq_true, decide_eq_true_eq, beq_iff_eq] at hok
    show some (Instr.wstat o' (bitN (({ op := 0xC5, form := .f64, o := o, d := cVKT, m := bit clr } : Info)).m 0)) = _
    simp only [Option.some.injEq, Instr.wstat.injEq, true_and, and_true]
    repeat' apply And.intro
    all_goals first
      | rfl
      | exact bitN_bit (by simp only [bit_false, bit_true, fld_eq]; omega)
      | (simp only [bit_false, bit_true, fld_eq]; omega)
      | (simp_all; done)
  · have b_clr := bit_lt clr
    try simp only [bit_false, bit_true, Bool.and_eq_true, Bool.or_eq_true, decide_eq_true_eq, beq_iff_eq] at hok
    constructor <;> simp [bit_false, bit_true, formHasC] <;> omega

theorem cdef (o : Ops) (op : COperator) (tout : Nat) : Statement (.cdef o op tout) := by
  intro w hw he
  obtain ⟨semi, shape⟩ := op
  refine decode_of (K := fun o => .cdef o ⟨semi, shape⟩ tout) (g := { op := 0xD0, form := .f64, o := o, m := semiCode semi + 8 * shapeCode shape + 32 * tout, ok := toOk tout 30 }) (fun _ => rfl) (fun hok o o' => ?_) rfl (by simp [cDst, cVK, cVKT, cVX, cVXK, cVKn]) (fun _ h => by simp [isTrailer] at h) (fun hok => ?_) hw he
  · have b_semi := semiCode_lt semi
    have b_shape := shapeCode_lt shape
    try simp only [toOk, Bool.and_eq_true, Bool.or_eq_true, decide_eq_true_eq, beq_iff_eq] at hok
    have e : bitN (semiCode semi + 8 * shapeCode shape + 32 * tout) 12 = false := bitN_bit (by simp only [fld_eq, bit_false]; omega)
    simp only [candidate, rawOfInfo, e, Bool.false_eq_true, if_false, if_true]
    simp only [Option.some.injEq, Instr.cdef.injEq, COperator.mk.injEq, true_and, and_true]
    repeat' apply And.intro
    all_goals first
      | rfl
      | exact semiOf_code (by simp only [fld_eq]; omega)
      | exact shapeOf_code (by simp only [fld_eq]; omega)
      | (simp only [fld_eq]; omega)
      | (simp_all; done)
  · have b_semi := semiCode_lt semi
    have b_shape := shapeCode_lt shape
    try simp only [toOk, Bool.and_eq_true, Bool.or_eq_true, decide_eq_true_eq, beq_iff_eq] at hok
    constructor <;> simp [formHasC] <;> omega

theorem cdefFree (o : Ops) : Statement (.cdefFree o) := by
  intro w hw he
  refine decode_of (K := fun o => .cdefFree o) (g := { op := 0xD0, form := .f64, o := o, m := 4096 }) (fun _ => rfl) (fun hok o o' => ?_) rfl (by simp [cDst, cVK, cVKT, cVX, cVXK, cVKn]) (fun _ h => by simp [isTrailer] at h) (fun hok => ?_) hw he
  · skip
    have e : bitN 4096 12 = true := by decide
    simp only [candidate, rawOfInfo, e, if_true]
  · skip
    constructor <;> simp [formHasC] <;> omega

theorem cjob (o : Ops) (m : CjobM) : Statement (.cjob o m) := by
  intro w hw he
  obtain ⟨scope, tag, send, cin, cm1, lm1⟩ := m
  refine decode_of (K := fun o => .cjob o ⟨scope, tag, send, cin, cm1, lm1⟩) (g := { op := 0xD1, form := .f128e, o := o, d := [.k0, .kn, .eq], a := cSrc, m := 512 * scopeCode scope, m2 := tag, e := eCjob (⟨scope, tag, send, cin, cm1, lm1⟩ : CjobM), ok := tag < 4096 && cin < 3 && cm1 < 128 && lm1 < 256 }) (fun _ => rfl) (fun hok o o' => ?_) rfl (by simp [cDst, cVK, cVKT, cVX, cVXK, cVKn]) (fun _ h => by simp [isTrailer] at h) (fun hok => ?_) hw he
  · have b_scope := scopeCode_lt scope
    have b_send := bit_lt send
    try simp only [eCjob, Bool.and_eq_true, Bool.or_eq_true, decide_eq_true_eq, beq_iff_eq] at hok
    show some (Instr.cjob o' ⟨scopeOf (fld (({ op := 0xD1, form := .f128e, o := o, d := [.k0, .kn, .eq], a := cSrc, m := 512 * scopeCode scope, m2 := tag, e := eCjob (⟨scope, tag, send, cin, cm1, lm1⟩ : CjobM), ok := tag < 4096 && cin < 3 && cm1 < 128 && lm1 < 256 } : Info)).m 9 4), (({ op := 0xD1, form := .f128e, o := o, d := [.k0, .kn, .eq], a := cSrc, m := 512 * scopeCode scope, m2 := tag, e := eCjob (⟨scope, tag, send, cin, cm1, lm1⟩ : CjobM), ok := tag < 4096 && cin < 3 && cm1 < 128 && lm1 < 256 } : Info)).m2, bitN (({ op := 0xD1, form := .f128e, o := o, d := [.k0, .kn, .eq], a := cSrc, m := 512 * scopeCode scope, m2 := tag, e := eCjob (⟨scope, tag, send, cin, cm1, lm1⟩ : CjobM), ok := tag < 4096 && cin < 3 && cm1 < 128 && lm1 < 256 } : Info)).e 17, fld (({ op := 0xD1, form := .f128e, o := o, d := [.k0, .kn, .eq], a := cSrc, m := 512 * scopeCode scope, m2 := tag, e := eCjob (⟨scope, tag, send, cin, cm1, lm1⟩ : CjobM), ok := tag < 4096 && cin < 3 && cm1 < 128 && lm1 < 256 } : Info)).e 15 2, fld (({ op := 0xD1, form := .f128e, o := o, d := [.k0, .kn, .eq], a := cSrc, m := 512 * scopeCode scope, m2 := tag, e := eCjob (⟨scope, tag, send, cin, cm1, lm1⟩ : CjobM), ok := tag < 4096 && cin < 3 && cm1 < 128 && lm1 < 256 } : Info)).e 8 7, fld (({ op := 0xD1, form := .f128e, o := o, d := [.k0, .kn, .eq], a := cSrc, m := 512 * scopeCode scope, m2 := tag, e := eCjob (⟨scope, tag, send, cin, cm1, lm1⟩ : CjobM), ok := tag < 4096 && cin < 3 && cm1 < 128 && lm1 < 256 } : Info)).e 0 8⟩) = _
    simp only [Option.some.injEq, Instr.cjob.injEq, CjobM.mk.injEq, true_and, and_true]
    repeat' apply And.intro
    all_goals first
      | rfl
      | exact scopeOf_code (by simp only [eCjob, fld_eq]; omega)
      | exact bitN_bit (by simp only [eCjob, fld_eq]; omega)
      | (simp only [eCjob, fld_eq]; omega)
      | (simp_all; done)
  · have b_scope := scopeCode_lt scope
    have b_send := bit_lt send
    try simp only [eCjob, Bool.and_eq_true, Bool.or_eq_true, decide_eq_true_eq, beq_iff_eq] at hok
    constructor <;> simp [eCjob, formHasC] <;> omega

theorem cjobComplete (core : Nat) : Statement (.cjobComplete core) := by
  intro w _ he
  simp [encode, info] at he

theorem carrySend (core : Nat) : Statement (.carrySend core) := by
  intro w _ he
  simp [encode, info] at he

theorem carryArrive (core : Nat) : Statement (.carryArrive core) := by
  intro w _ he
  simp [encode, info] at he

theorem carryLimitExpiry (core : Nat) : Statement (.carryLimitExpiry core) := by
  intro w _ he
  simp [encode, info] at he

theorem cseal (o : Ops) : Statement (.cseal o) := by
  intro w hw he
  refine decode_of (K := fun o => .cseal o) (g := { op := 0xD2, form := .f64, o := o }) (fun _ => rfl) (fun hok o o' => ?_) rfl (by simp [cDst, cVK, cVKT, cVX, cVXK, cVKn]) (fun _ h => by simp [isTrailer] at h) (fun hok => ?_) hw he
  · skip
    show some (Instr.cseal o' ) = _
    rfl
  · skip
    constructor <;> simp [formHasC] <;> omega

theorem ccarLd (o : Ops) (scope : Scope) (loc : Bool) : Statement (.ccarLd o scope loc) := by
  intro w hw he
  refine decode_of (K := fun o => .ccarLd o scope loc) (g := { op := 0xD3, form := .f64, o := o, d := [.k0, .kn], a := cSrc, b := cSrc, m := 2 * bit loc + 4 * scopeCode scope }) (fun _ => rfl) (fun hok o o' => ?_) rfl (by simp [cDst, cVK, cVKT, cVX, cVXK, cVKn]) (fun _ h => by simp [isTrailer] at h) (fun hok => ?_) hw he
  · have b_scope := scopeCode_lt scope
    have b_loc := bit_lt loc
    try simp only [bit_false, bit_true, Bool.and_eq_true, Bool.or_eq_true, decide_eq_true_eq, beq_iff_eq] at hok
    have e : bitN (2 * bit loc + 4 * scopeCode scope) 0 = false := bitN_bit (by simp only [fld_eq, bit_false, bit_true]; omega)
    simp only [candidate, rawOfInfo, e, Bool.false_eq_true, if_false, if_true]
    simp only [Option.some.injEq, Instr.ccarLd.injEq, true_and, and_true]
    repeat' apply And.intro
    all_goals first
      | rfl
      | exact scopeOf_code (by simp only [bit_false, bit_true, fld_eq]; omega)
      | exact bitN_bit (by simp only [bit_false, bit_true, fld_eq]; omega)
      | (simp only [bit_false, bit_true, fld_eq]; omega)
      | (simp_all; done)
  · have b_scope := scopeCode_lt scope
    have b_loc := bit_lt loc
    try simp only [bit_false, bit_true, Bool.and_eq_true, Bool.or_eq_true, decide_eq_true_eq, beq_iff_eq] at hok
    constructor <;> simp [bit_false, bit_true, formHasC] <;> omega

theorem ccarSt (o : Ops) (scope : Scope) (loc : Bool) : Statement (.ccarSt o scope loc) := by
  intro w hw he
  refine decode_of (K := fun o => .ccarSt o scope loc) (g := { op := 0xD3, form := .f64, o := o, d := [.k0, .kn], a := cSrc, b := cSrc, m := 1 + 2 * bit loc + 4 * scopeCode scope }) (fun _ => rfl) (fun hok o o' => ?_) rfl (by simp [cDst, cVK, cVKT, cVX, cVXK, cVKn]) (fun _ h => by simp [isTrailer] at h) (fun hok => ?_) hw he
  · have b_scope := scopeCode_lt scope
    have b_loc := bit_lt loc
    try simp only [bit_false, bit_true, Bool.and_eq_true, Bool.or_eq_true, decide_eq_true_eq, beq_iff_eq] at hok
    have e : bitN (1 + 2 * bit loc + 4 * scopeCode scope) 0 = true := bitN_bit (by simp only [fld_eq, bit_false, bit_true]; omega)
    simp only [candidate, rawOfInfo, e, Bool.false_eq_true, if_false, if_true]
    simp only [Option.some.injEq, Instr.ccarSt.injEq, true_and, and_true]
    repeat' apply And.intro
    all_goals first
      | rfl
      | exact scopeOf_code (by simp only [bit_false, bit_true, fld_eq]; omega)
      | exact bitN_bit (by simp only [bit_false, bit_true, fld_eq]; omega)
      | (simp only [bit_false, bit_true, fld_eq]; omega)
      | (simp_all; done)
  · have b_scope := scopeCode_lt scope
    have b_loc := bit_lt loc
    try simp only [bit_false, bit_true, Bool.and_eq_true, Bool.or_eq_true, decide_eq_true_eq, beq_iff_eq] at hok
    constructor <;> simp [bit_false, bit_true, formHasC] <;> omega

theorem cstat (o : Ops) (clr : Bool) : Statement (.cstat o clr) := by
  intro w hw he
  refine decode_of (K := fun o => .cstat o clr) (g := { op := 0xD4, form := .f64, o := o, d := cVKT, m := bit clr }) (fun _ => rfl) (fun hok o o' => ?_) rfl (by simp [cDst, cVK, cVKT, cVX, cVXK, cVKn]) (fun _ h => by simp [isTrailer] at h) (fun hok => ?_) hw he
  · have b_clr := bit_lt clr
    try simp only [bit_false, bit_true, Bool.and_eq_true, Bool.or_eq_true, decide_eq_true_eq, beq_iff_eq] at hok
    show some (Instr.cstat o' (bitN (({ op := 0xD4, form := .f64, o := o, d := cVKT, m := bit clr } : Info)).m 0)) = _
    simp only [Option.some.injEq, Instr.cstat.injEq, true_and, and_true]
    repeat' apply And.intro
    all_goals first
      | rfl
      | exact bitN_bit (by simp only [bit_false, bit_true, fld_eq]; omega)
      | (simp only [bit_false, bit_true, fld_eq]; omega)
      | (simp_all; done)
  · have b_clr := bit_lt clr
    try simp only [bit_false, bit_true, Bool.and_eq_true, Bool.or_eq_true, decide_eq_true_eq, beq_iff_eq] at hok
    constructor <;> simp [bit_false, bit_true, formHasC] <;> omega

theorem nsig (o : Ops) : Statement (.nsig o) := by
  intro w hw he
  refine decode_of (K := fun o => .nsig o) (g := { op := 0xD8, form := .f64, o := o }) (fun _ => rfl) (fun hok o o' => ?_) rfl (by simp [cDst, cVK, cVKT, cVX, cVXK, cVKn]) (fun _ h => by simp [isTrailer] at h) (fun hok => ?_) hw he
  · skip
    show some (Instr.nsig o' ) = _
    rfl
  · skip
    constructor <;> simp [formHasC] <;> omega

theorem nwait (o : Ops) : Statement (.nwait o) := by
  intro w hw he
  refine decode_of (K := fun o => .nwait o) (g := { op := 0xD9, form := .f64, o := o, d := cVKT }) (fun _ => rfl) (fun hok o o' => ?_) rfl (by simp [cDst, cVK, cVKT, cVX, cVXK, cVKn]) (fun _ h => by simp [isTrailer] at h) (fun hok => ?_) hw he
  · skip
    show some (Instr.nwait o' ) = _
    rfl
  · skip
    constructor <;> simp [formHasC] <;> omega

theorem nlaunch (o : Ops) (prio : Nat) (col : Bool) : Statement (.nlaunch o prio col) := by
  intro w hw he
  refine decode_of (K := fun o => .nlaunch o prio col) (g := { op := 0xDA, form := .f96c, o := o, d := cVK, a := cSrc, b := if col then cSrc else [], m := prio + 4 * bit col, ok := prio < 4 }) (fun _ => rfl) (fun hok o o' => ?_) rfl (by simp [if_true, if_false, cDst, cVK, cVKT, cVX, cVXK, cVKn]) (fun _ h => by simp [isTrailer] at h) (fun hok => ?_) hw he
  · have b_col := bit_lt col
    try simp only [Bool.false_eq_true, if_true, if_false, bit_false, bit_true, Bool.and_eq_true, Bool.or_eq_true, decide_eq_true_eq, beq_iff_eq] at hok
    show some (Instr.nlaunch o' (fld (({ op := 0xDA, form := .f96c, o := o, d := cVK, a := cSrc, b := if col then cSrc else [], m := prio + 4 * bit col, ok := prio < 4 } : Info)).m 0 2) (bitN (({ op := 0xDA, form := .f96c, o := o, d := cVK, a := cSrc, b := if col then cSrc else [], m := prio + 4 * bit col, ok := prio < 4 } : Info)).m 2)) = _
    simp only [Option.some.injEq, Instr.nlaunch.injEq, true_and, and_true]
    repeat' apply And.intro
    all_goals first
      | rfl
      | exact bitN_bit (by simp only [Bool.false_eq_true, if_true, if_false, bit_false, bit_true, fld_eq]; omega)
      | (simp only [Bool.false_eq_true, if_true, if_false, bit_false, bit_true, fld_eq]; omega)
      | (simp_all; done)
  · have b_col := bit_lt col
    try simp only [Bool.false_eq_true, if_true, if_false, bit_false, bit_true, Bool.and_eq_true, Bool.or_eq_true, decide_eq_true_eq, beq_iff_eq] at hok
    constructor <;> simp [Bool.false_eq_true, if_true, if_false, bit_false, bit_true, formHasC] <;> omega

theorem launchStore (col : Nat) (prio : Nat) (val : Word) (auth : Auth) (flight : Option Nat) : Statement (.launchStore col prio val auth flight) := by
  intro w _ he
  simp [encode, info] at he

theorem dispatchRecord (col : Nat) : Statement (.dispatchRecord col) := by
  intro w _ he
  simp [encode, info] at he

theorem heldNodeEnterPool (col : Nat) : Statement (.heldNodeEnterPool col) := by
  intro w _ he
  simp [encode, info] at he

theorem teamPlace (node : Nat) : Statement (.teamPlace node) := by
  intro w _ he
  simp [encode, info] at he

theorem splitReservation (node : Nat) : Statement (.splitReservation node) := by
  intro w _ he
  simp [encode, info] at he

theorem teamRetire (team : Nat) : Statement (.teamRetire team) := by
  intro w _ he
  simp [encode, info] at he

theorem nodeComplete (node : Nat) : Statement (.nodeComplete node) := by
  intro w _ he
  simp [encode, info] at he

theorem priorityDrain (node : Nat) : Statement (.priorityDrain node) := by
  intro w _ he
  simp [encode, info] at he

theorem drain (core : Nat) : Statement (.drain core) := by
  intro w _ he
  simp [encode, info] at he

theorem drainLimitExpiry (core : Nat) : Statement (.drainLimitExpiry core) := by
  intro w _ he
  simp [encode, info] at he

theorem forcedSave (team : Nat) : Statement (.forcedSave team) := by
  intro w _ he
  simp [encode, info] at he

theorem restore (node : Nat) (team : Nat) : Statement (.restore node team) := by
  intro w _ he
  simp [encode, info] at he

theorem parkEviction (core : Nat) : Statement (.parkEviction core) := by
  intro w _ he
  simp [encode, info] at he

theorem gst (o : Ops) (size : LSize) (off : Int) : Statement (.gst o size off) := by
  intro w hw he
  refine decode_of (K := fun o => .gst o size off) (g := { op := 0xE0, form := .f96c, o := o, d := [.k0, .v, .vx, .kn], a := cSrc, b := cSrc, c := cSrc, m := lsizeCode size, m2 := offF 12 off, ok := lsizeCode size < 4 && offOk 12 off }) (fun _ => rfl) (fun hok o o' => ?_) rfl (by simp [cDst, cVK, cVKT, cVX, cVXK, cVKn]) (fun _ h => by simp [isTrailer] at h) (fun hok => ?_) hw he
  · have b_size := lsizeCode_lt size
    have b_off := offF_lt 12 off
    have c_off := offF_lt 10 off
    try simp only [Bool.and_eq_true, Bool.or_eq_true, decide_eq_true_eq, beq_iff_eq] at hok
    show some (Instr.gst o' (lsizeOf (fld (({ op := 0xE0, form := .f96c, o := o, d := [.k0, .v, .vx, .kn], a := cSrc, b := cSrc, c := cSrc, m := lsizeCode size, m2 := offF 12 off, ok := lsizeCode size < 4 && offOk 12 off } : Info)).m 0 3)) (sextN 12 (({ op := 0xE0, form := .f96c, o := o, d := [.k0, .v, .vx, .kn], a := cSrc, b := cSrc, c := cSrc, m := lsizeCode size, m2 := offF 12 off, ok := lsizeCode size < 4 && offOk 12 off } : Info)).m2)) = _
    simp only [Option.some.injEq, Instr.gst.injEq, true_and, and_true]
    repeat' apply And.intro
    all_goals first
      | rfl
      | exact lsizeOf_code (by simp only [fld_eq]; omega)
      | exact sextN_offF (by decide) (by simp_all) (by (try simp only []); omega)
      | (simp only [fld_eq]; omega)
      | (simp_all; done)
  · have b_size := lsizeCode_lt size
    have b_off := offF_lt 12 off
    have c_off := offF_lt 10 off
    try simp only [Bool.and_eq_true, Bool.or_eq_true, decide_eq_true_eq, beq_iff_eq] at hok
    constructor <;> simp [formHasC] <;> omega

theorem glazeStamp (group : Nat) : Statement (.glazeStamp group) := by
  intro w _ he
  simp [encode, info] at he

theorem glazeApply (group : Nat) : Statement (.glazeApply group) := by
  intro w _ he
  simp [encode, info] at he

theorem glazeReplayRequest (group : Nat) : Statement (.glazeReplayRequest group) := by
  intro w _ he
  simp [encode, info] at he

theorem gwait (o : Ops) (tout : Nat) : Statement (.gwait o tout) := by
  intro w hw he
  refine decode_of (K := fun o => .gwait o tout) (g := { op := 0xE1, form := .f64, o := o, d := cVKT, a := cSrc, b := cSrc, m := tout, ok := toOk tout 30 }) (fun _ => rfl) (fun hok o o' => ?_) rfl (by simp [cDst, cVK, cVKT, cVX, cVXK, cVKn]) (fun _ h => by simp [isTrailer] at h) (fun hok => ?_) hw he
  · try simp only [toOk, Bool.and_eq_true, Bool.or_eq_true, decide_eq_true_eq, beq_iff_eq] at hok
    show some (Instr.gwait o' (fld (({ op := 0xE1, form := .f64, o := o, d := cVKT, a := cSrc, b := cSrc, m := tout, ok := toOk tout 30 } : Info)).m 0 5)) = _
    simp only [Option.some.injEq, Instr.gwait.injEq, true_and, and_true]
    repeat' apply And.intro
    all_goals first
      | rfl
      | (simp only [fld_eq]; omega)
      | (simp_all; done)
  · try simp only [toOk, Bool.and_eq_true, Bool.or_eq_true, decide_eq_true_eq, beq_iff_eq] at hok
    constructor <;> simp [formHasC] <;> omega

theorem gwaitTimeout (team : Nat) (crs : Nat) : Statement (.gwaitTimeout team crs) := by
  intro w _ he
  simp [encode, info] at he

theorem gsn (o : Ops) : Statement (.gsn o) := by
  intro w hw he
  refine decode_of (K := fun o => .gsn o) (g := { op := 0xE2, form := .f64, o := o, d := cVKT, a := cSrc }) (fun _ => rfl) (fun hok o o' => ?_) rfl (by simp [cDst, cVK, cVKT, cVX, cVXK, cVKn]) (fun _ h => by simp [isTrailer] at h) (fun hok => ?_) hw he
  · skip
    show some (Instr.gsn o' ) = _
    rfl
  · skip
    constructor <;> simp [formHasC] <;> omega

theorem fred (o : Ops) (op : AOp) (ty : Ty) (off : Int) : Statement (.fred o op ty off) := by
  intro w hw he
  refine decode_of (K := fun o => .fred o op ty off) (g := { op := 0xE3, form := .f96c, o := o, d := [.k0, .v, .vx, .kn], a := cSrc, b := cSrc, c := cSrc, m := tyCode ty + 32 * ropCode op, m2 := offF 12 off, ok := op != .swap && op != .cas && op != .fmin && op != .fmax && aopTy op ty && offOk 12 off }) (fun _ => rfl) (fun hok o o' => ?_) rfl (by simp [cDst, cVK, cVKT, cVX, cVXK, cVKn]) (fun _ h => by simp [isTrailer] at h) (fun hok => ?_) hw he
  · have b_op := aopCode_lt op
    have c_op := ropCode_lt op
    have b_ty := tyCode_lt ty
    have b_off := offF_lt 12 off
    have c_off := offF_lt 10 off
    try simp only [Bool.and_eq_true, Bool.or_eq_true, decide_eq_true_eq, beq_iff_eq] at hok
    show some (Instr.fred o' (ropOf (fld (({ op := 0xE3, form := .f96c, o := o, d := [.k0, .v, .vx, .kn], a := cSrc, b := cSrc, c := cSrc, m := tyCode ty + 32 * ropCode op, m2 := offF 12 off, ok := op != .swap && op != .cas && op != .fmin && op != .fmax && aopTy op ty && offOk 12 off } : Info)).m 5 4)) (tyOf (fld (({ op := 0xE3, form := .f96c, o := o, d := [.k0, .v, .vx, .kn], a := cSrc, b := cSrc, c := cSrc, m := tyCode ty + 32 * ropCode op, m2 := offF 12 off, ok := op != .swap && op != .cas && op != .fmin && op != .fmax && aopTy op ty && offOk 12 off } : Info)).m 0 5)) (sextN 12 (({ op := 0xE3, form := .f96c, o := o, d := [.k0, .v, .vx, .kn], a := cSrc, b := cSrc, c := cSrc, m := tyCode ty + 32 * ropCode op, m2 := offF 12 off, ok := op != .swap && op != .cas && op != .fmin && op != .fmax && aopTy op ty && offOk 12 off } : Info)).m2)) = _
    simp only [Option.some.injEq, Instr.fred.injEq, true_and, and_true]
    repeat' apply And.intro
    all_goals first
      | rfl
      | exact tyOf_code (by simp only [fld_eq]; omega)
      | exact aopOf_code (by simp only [fld_eq]; omega)
      | exact ropOf_code (by simp only [fld_eq]; omega) (by rintro rfl; simp at hok) (by rintro rfl; simp at hok)
      | exact sextN_offF (by decide) (by simp_all) (by (try simp only []); omega)
      | (simp only [fld_eq]; omega)
      | (simp_all; done)
  · have b_op := aopCode_lt op
    have c_op := ropCode_lt op
    have b_ty := tyCode_lt ty
    have b_off := offF_lt 12 off
    have c_off := offF_lt 10 off
    try simp only [Bool.and_eq_true, Bool.or_eq_true, decide_eq_true_eq, beq_iff_eq] at hok
    constructor <;> simp [formHasC] <;> omega

theorem fredComplete (group : Nat) (off : Nat) : Statement (.fredComplete group off) := by
  intro w _ he
  simp [encode, info] at he

theorem fbar (o : Ops) : Statement (.fbar o) := by
  intro w hw he
  refine decode_of (K := fun o => .fbar o) (g := { op := 0xE4, form := .f64, o := o, d := cVKT, a := cSrc }) (fun _ => rfl) (fun hok o o' => ?_) rfl (by simp [cDst, cVK, cVKT, cVX, cVXK, cVKn]) (fun _ h => by simp [isTrailer] at h) (fun hok => ?_) hw he
  · skip
    show some (Instr.fbar o' ) = _
    rfl
  · skip
    constructor <;> simp [formHasC] <;> omega

theorem fbarEpisodeComplete (group : Nat) : Statement (.fbarEpisodeComplete group) := by
  intro w _ he
  simp [encode, info] at he

theorem fabricRequestAtPeer (id : Nat) (data : Word) (refused : Bool) : Statement (.fabricRequestAtPeer id data refused) := by
  intro w _ he
  simp [encode, info] at he

theorem fabricTimerExpiry (id : Nat) : Statement (.fabricTimerExpiry id) := by
  intro w _ he
  simp [encode, info] at he

theorem quiesceStop (cause : QCause) : Statement (.quiesceStop cause) := by
  intro w _ he
  simp [encode, info] at he

theorem quiesceDrain : Statement (.quiesceDrain ) := by
  intro w _ he
  simp [encode, info] at he

theorem quiesceReconfigure (lost : List Nat) : Statement (.quiesceReconfigure lost) := by
  intro w _ he
  simp [encode, info] at he

theorem quiesceResume : Statement (.quiesceResume ) := by
  intro w _ he
  simp [encode, info] at he

theorem waitaddrWrite (col : Nat) (val : Word) : Statement (.waitaddrWrite col val) := by
  intro w _ he
  simp [encode, info] at he

theorem columnWaitEnd (col : Nat) : Statement (.columnWaitEnd col) := by
  intro w _ he
  simp [encode, info] at he

theorem wakeWrite (col : Nat) (val : Word) : Statement (.wakeWrite col val) := by
  intro w _ he
  simp [encode, info] at he

theorem columnTaskHandoff (node : Nat) : Statement (.columnTaskHandoff node) := by
  intro w _ he
  simp [encode, info] at he

theorem taskqPop (col : Nat) : Statement (.taskqPop col) := by
  intro w _ he
  simp [encode, info] at he

theorem taskdoneWrite (col : Nat) (val : Word) : Statement (.taskdoneWrite col val) := by
  intro w _ he
  simp [encode, info] at he

theorem suspqPop (col : Nat) : Statement (.suspqPop col) := by
  intro w _ he
  simp [encode, info] at he

theorem migqPop : Statement (.migqPop ) := by
  intro w _ he
  simp [encode, info] at he

theorem raslogPop (col : Nat) : Statement (.raslogPop col) := by
  intro w _ he
  simp [encode, info] at he

theorem hostNotification (node : Nat) : Statement (.hostNotification node) := by
  intro w _ he
  simp [encode, info] at he

theorem powerOnReset (failAt : Option (Nat × Nat)) : Statement (.powerOnReset failAt) := by
  intro w _ he
  simp [encode, info] at he

theorem storeAcknowledgement (id : Nat) (ack : Ack) : Statement (.storeAcknowledgement id ack) := by
  intro w _ he
  simp [encode, info] at he

theorem ccarComplete (core : Nat) : Statement (.ccarComplete core) := by
  intro w _ he
  simp [encode, info] at he

theorem dallocAtServiceCourse (id : Nat) : Statement (.dallocAtServiceCourse id) := by
  intro w _ he
  simp [encode, info] at he

theorem dfreeAtOwner (id : Nat) : Statement (.dfreeAtOwner id) := by
  intro w _ he
  simp [encode, info] at he

theorem pwrnowRead : Statement (.pwrnowRead ) := by
  intro w _ he
  simp [encode, info] at he

theorem coneEvaluation (col : Nat) (temp : Nat) (droop : Bool) : Statement (.coneEvaluation col temp droop) := by
  intro w _ he
  simp [encode, info] at he

theorem powerManagerTick (avg : Nat) : Statement (.powerManagerTick avg) := by
  intro w _ he
  simp [encode, info] at he

theorem drainreqWrite (col : Nat) (val : Word) : Statement (.drainreqWrite col val) := by
  intro w _ he
  simp [encode, info] at he

theorem arenaWrite (col : Nat) (n : Nat) (hi : Bool) (val : Word) : Statement (.arenaWrite col n hi val) := by
  intro w _ he
  simp [encode, info] at he

theorem pinmapWrite (n : Nat) (hi : Bool) (val : Word) : Statement (.pinmapWrite n hi val) := by
  intro w _ he
  simp [encode, info] at he

theorem gwinWrite (g : Nat) (hi : Bool) (val : Word) : Statement (.gwinWrite g hi val) := by
  intro w _ he
  simp [encode, info] at he

theorem registerWrite (col : Nat) (off : Nat) (val : Word) : Statement (.registerWrite col off val) := by
  intro w _ he
  simp [encode, info] at he

theorem hostWrite (kind : HostKind) (pa : Nat) (size : Nat) (val : Word) : Statement (.hostWrite kind pa size val) := by
  intro w _ he
  simp [encode, info] at he

theorem hostRead (pa : Nat) (size : Nat) : Statement (.hostRead pa size) := by
  intro w _ he
  simp [encode, info] at he

theorem correctedError (col : Nat) (unit : Nat) (loc : Nat) : Statement (.correctedError col unit loc) := by
  intro w _ he
  simp [encode, info] at he

theorem uncorrectableError (col : Nat) (unit : Nat) (loc : Nat) : Statement (.uncorrectableError col unit loc) := by
  intro w _ he
  simp [encode, info] at he

theorem measurementReport (nonce : Nat) : Statement (.measurementReport nonce) := by
  intro w _ he
  simp [encode, info] at he

theorem managementRequest (r : Mgmt) : Statement (.managementRequest r) := by
  intro w _ he
  simp [encode, info] at he

theorem deviceNumberSet (n : Nat) : Statement (.deviceNumberSet n) := by
  intro w _ he
  simp [encode, info] at he

end Sys2Proof.Laws.RoundTrip
end

