-- ==== Sys2Proof/Laws/Runs.lean ====
section
/-! SUPPORT. The run of an instruction: the common checks of an instruction that stands ready raise nothing; what a check, a
write and the end of an instruction do when no lane has a fault. -/

namespace Sys2Proof.Machine

theorem foldl_id {α β : Type} (f : β → α → β) (b : β) (l : List α) (h : ∀ x ∈ l, f b x = b) : l.foldl f b = b := by
  induction l with
  | nil => rfl
  | cons x r ih => rw [List.foldl_cons, h x (by simp)]; exact ih (fun y hy => h y (by simp [hy]))

/-- A check that finds nothing in any of its lanes changes nothing. -/
theorem Run.check_none (r : Run) (ls : List Nat) (f : Nat → Option FltRec) (h : ∀ l ∈ ls, f l = none) : r.check ls f = r :=
  foldl_id _ _ _ (fun l hl => by simp [h l hl])

theorem Run.checkAcc_none (r : Run) (acc : List Acc) (f : Acc → Option FltRec) (h : ∀ a ∈ acc, f a = none) :
    r.checkAcc acc f = r :=
  foldl_id _ _ _ (fun a ha => by simp [h a ha])

/-- A run in which no lane has a fault. -/
theorem Run.ok_of_nil {r : Run} (h : r.flt = []) (l : Nat) : r.ok l = true := by simp [Run.ok, h]

theorem Run.good_of_nil {r : Run} (h : r.flt = []) : r.good = r.on := by
  simp only [Run.good, List.filter_eq_self]
  exact fun l _ => Run.ok_of_nil h l

section Ready
variable {o : Ops} {p : Pro} {s : State} {t c : Nat} {h : Cohort}

/-- The run of an instruction before its checks, with the lanes that perform it. -/
def baseRun (o : Ops) (p : Pro) (s : State) (t c : Nat) (h : Cohort) (on : List Nat) : Run :=
  { s0 := s, s := s, t := t, c := c, o := o, d := p.d, helps := p.helps, act := s.activeOf t c h, on := on,
    ip := h.pc, succ := h.succ, succIn := h.succIn, issued := h.issued }

theorem startRun_eq (hf : s.focus = some (t, c)) (hc : (s.course t c).coh = some h) (p : Pro) :
    startRun o p s = some (baseRun o p s t c h (s.guarded t c h o.g)) := by
  simp only [startRun, hf, hc]; rfl

theorem guardWaits_ready (hr : Ready o p s t c h) (on : List Nat) : (baseRun o p s t c h on).guardWaits = [] := by
  simp only [Run.guardWaits]
  cases hp : o.g.p with
  | none => simp [baseRun, hp]
  | some n =>
    simp only [baseRun, hp, List.map_eq_nil_iff, List.filter_eq_nil_iff]
    intro l hl
    exact Bool.eq_false_iff.mp (hr.guardFull n hp l hl)

theorem narrow_eq : (baseRun o p s t c h (s.guarded t c h o.g)).narrow p.one =
    baseRun o p s t c h (s.performers t c h o.g p.one) := by
  unfold Run.narrow State.performers
  split <;> rfl

theorem judgeMode_ready (hr : Ready o p s t c h) (on : List Nat) :
    (baseRun o p s t c h on).judgeMode p = baseRun o p s t c h on := by
  unfold Run.judgeMode
  split
  · rfl
  · next hp => rw [if_pos]; exact hr.mode (by simp [hp])

theorem judgePorts_ready (hr : Ready o p s t c h) (on : List Nat) :
    (baseRun o p s t c h on).judgePorts p = baseRun o p s t c h on := by
  have h1 : ((baseRun o p s t c h on).popRegs p).filterMap (fun n => portFault s t c n false) = [] := by
    apply List.filterMap_eq_nil_iff.mpr
    intro n hn
    obtain ⟨x, hx, hxn⟩ := List.mem_filterMap.mp hn
    exact hr.popPorts x hx n hxn
  have h2 : ((baseRun o p s t c h on).pushRegs p).filterMap (fun n => portFault s t c n true) = [] := by
    apply List.filterMap_eq_nil_iff.mpr
    intro n hn
    unfold Run.pushRegs at hn
    split at hn
    · next hd => exact hr.pushPort hd n (by simpa [baseRun] using hn)
    · simp at hn
  unfold Run.judgePorts
  rw [show (baseRun o p s t c h on).s0 = s from rfl, show (baseRun o p s t c h on).t = t from rfl,
    show (baseRun o p s t c h on).c = c from rfl, h1, h2]
  rfl

theorem judgeFields_ready (hr : Ready o p s t c h) :
    (baseRun o p s t c h (s.performers t c h o.g p.one)).judgeFields p =
      baseRun o p s t c h (s.performers t c h o.g p.one) := by
  apply Run.check_none
  intro l hl
  rw [List.head?_eq_none_iff]
  exact List.filterMap_eq_nil_iff.mpr (fun x hx => hr.fields l hl x hx)

theorem early_ready (hr : Ready o p s t c h) : (baseRun o p s t c h (s.guarded t c h o.g)).early p =
    baseRun o p s t c h (s.performers t c h o.g p.one) := by
  rw [Run.early, narrow_eq, judgeMode_ready hr, judgePorts_ready hr, judgeFields_ready hr]

theorem allWaits_ready (hr : Ready o p s t c h) :
    (baseRun o p s t c h (s.performers t c h o.g p.one)).allWaits p = [] := by
  rw [Run.allWaits, List.flatMap_eq_nil_iff]
  intro l hl
  have hl' : l ∈ (if p.one then s.performers t c h o.g true else s.activeOf t c h) := by
    have := List.mem_of_mem_filter hl
    by_cases hone : p.one = true
    · simpa [hone, baseRun] using this
    · simpa [hone, baseRun] using this
  simp only [Run.waits, List.append_eq_nil_iff]
  refine ⟨⟨?_, ?_⟩, ?_⟩
  · rw [List.flatMap_eq_nil_iff]
    intro x hx
    obtain ⟨hx, hw⟩ := List.mem_filter.mp hx
    obtain ⟨hx, he⟩ := List.mem_filter.mp hx
    have := hr.waitFull l hl' x hx hw
    simp only [State.srcFull] at this
    exact Bool.noConfusion (this.symm.trans ((Bool.not_eq_true' _).mp he))
  · cases hd : p.d with
    | none => rfl
    | now => rfl
    | counter =>
      simp only [baseRun, hd]
      cases ho : o.d <;> simp only
      case k n => simp [hr.counterFree hd n ho]
    | full =>
      have := hr.destFull hd l hl'
      simp only [baseRun, hd]
      cases ho : o.d <;> simp only [ho, State.dstFull] at this ⊢
      case eq n => simp at this; simp [this]
      all_goals exact if_pos this
  · cases hp : p.pred with
    | none => rfl
    | some n => exact if_neg (Bool.eq_false_iff.mp (hr.predFull n hp l hl'))

theorem judgeEmpty_ready (hr : Ready o p s t c h) :
    (baseRun o p s t c h (s.performers t c h o.g p.one)).judgeEmpty p =
      baseRun o p s t c h (s.performers t c h o.g p.one) := by
  apply Run.check_none
  intro l hl
  rw [Option.map_eq_none_iff, List.find?_eq_none]
  intro x hx
  obtain ⟨hx, he⟩ := List.mem_filter.mp hx
  intro hne
  have := hr.sourceFull l hl x hx (by cases h1 : p.ownA <;> simp_all)
  simp only [State.srcFull] at this
  exact Bool.noConfusion (this.symm.trans ((Bool.not_eq_true' _).mp he))

theorem judgeSound_ready (hr : Ready o p s t c h) :
    (baseRun o p s t c h (s.performers t c h o.g p.one)).judgeSound p =
      baseRun o p s t c h (s.performers t c h o.g p.one) := by
  apply Run.check_none
  intro l hl
  rw [Option.map_eq_none_iff, List.find?_eq_none]
  intro x hx hne
  obtain ⟨ha, hb⟩ := (Bool.and_eq_true _ _).mp hne
  exact Bool.noConfusion ((hr.sound l hl x hx ((Bool.not_eq_true' _).mp ha)).symm.trans hb)

/-- An instruction that stands ready passes the common checks (R70). -/
theorem prologue_ready (hr : Ready o p s t c h) : prologue o p s = .go (readyRun o p s t c h) := by
  have he := early_ready hr
  simp only [prologue, startRun_eq hr.focus hr.cohort, guardWaits_ready hr, he, allWaits_ready hr, judgeEmpty_ready hr,
    judgeSound_ready hr]
  rfl

/-- An instruction that stands ready is performed by its run. -/
theorem withRun_ready (hr : Ready o p s t c h) (f : Run → State) :
    withRun o p s f = .next (f (readyRun o p s t c h)) := by
  simp [withRun, prologue_ready hr]

theorem aluRun_ready (hr : Ready o p s t c h)
    (res : Run → Nat → LRes) :
    aluRun o p s res = .next (((readyRun o p s t c h).write (res (readyRun o p s t c h))).finish) :=
  withRun_ready hr _

end Ready

end Sys2Proof.Machine
end

