-- ==== Sys2Proof/Laws/Wrote.lean ====
section
/-! SUPPORT. What an instruction in registers leaves: the consumption of its sources, its end, and the whole of an ALU
instruction whose results trap no flag. -/

namespace Sys2Proof.Machine

/-! ### Consumption -/

/-- A state after pops and consumptions of team `t` (R89, R217). -/
structure Eaten (s : State) (t : Nat) (s' : State) : Prop where
  rest : { s' with teams := s.teams, cores := s.cores, columns := s.columns } = s
  teams : ∀ u, u ≠ t → s'.team u = s.team u
  team : ∃ kScope ports, s'.team t = { s.team t with kScope := kScope, ports := ports }
  has : ∀ c, s.HasCourse t c → s'.HasCourse t c
  core : ∀ q, ∃ l1, s'.core q = { s.core q with l1 := l1 }
  column : ∀ q, ∃ scq, s'.column q = { s.column q with scq := scq }

theorem rest_trans {s s' s'' : State} (h1 : { s' with teams := s.teams, cores := s.cores, columns := s.columns } = s)
    (h2 : { s'' with teams := s'.teams, cores := s'.cores, columns := s'.columns } = s') :
    { s'' with teams := s.teams, cores := s.cores, columns := s.columns } = s := by
  rw [← h1] at *
  rw [← h2]

theorem Eaten.refl (s : State) (t : Nat) : Eaten s t s :=
  ⟨rfl, fun _ _ => rfl, ⟨_, _, rfl⟩, fun _ h => h, fun _ => ⟨_, rfl⟩, fun _ => ⟨_, rfl⟩⟩

theorem Eaten.trans {s s' s'' : State} {t : Nat} (h : Eaten s t s') (k : Eaten s' t s'') : Eaten s t s'' := by
  refine ⟨?_, fun u hu => (k.teams u hu).trans (h.teams u hu), ?_, fun c hc => k.has c (h.has c hc), fun q => ?_, fun q => ?_⟩
  · exact rest_trans h.rest k.rest
  · obtain ⟨a, b, h1⟩ := h.team; obtain ⟨c, d, h2⟩ := k.team
    exact ⟨c, d, by rw [h2, h1]⟩
  · obtain ⟨a, h1⟩ := h.core q; obtain ⟨c, h2⟩ := k.core q
    exact ⟨c, by rw [h2, h1]⟩
  · obtain ⟨a, h1⟩ := h.column q; obtain ⟨c, h2⟩ := k.column q
    exact ⟨c, by rw [h2, h1]⟩

theorem modTeam_rest (s : State) (t : Nat) (f : Team → Team) :
    { s.modTeam t f with teams := s.teams, cores := s.cores, columns := s.columns } = s := by
  unfold State.modTeam
  split <;> rfl

theorem eaten_modTeam (s : State) (t : Nat) (f : Team → Team) (hf : ∀ T, ∃ a b, f T = { T with kScope := a, ports := b }) :
    Eaten s t (s.modTeam t f) := by
  refine ⟨modTeam_rest s t f, fun u hu => State.team_modTeam_ne s hu f, ?_, fun c hc => hc.modTeam t f ?_, ?_, ?_⟩
  · cases ht : mapGet? t s.teams with
    | none => exact ⟨_, _, by rw [State.modTeam, ht]⟩
    | some T =>
      obtain ⟨a, b, h⟩ := hf (s.team t)
      exact ⟨a, b, by rw [State.team_modTeam_same ht, h]⟩
  · intro T
    obtain ⟨a, b, h⟩ := hf T
    rw [h]
  · exact fun q => ⟨_, State.core_modTeam ..⟩
  · exact fun q => ⟨_, State.column_modTeam ..⟩

theorem eaten_acquire (s : State) (t core scope : Nat) : Eaten s t (s.acquire core scope) := by
  unfold State.acquire
  split
  · refine ⟨rfl, fun _ _ => rfl, ⟨_, _, rfl⟩, fun _ h => h, fun q => ?_, fun _ => ⟨_, rfl⟩⟩
    by_cases hq : q = core
    · subst hq; exact ⟨[], State.core_modCore_same ..⟩
    · exact ⟨_, State.core_modCore_ne s hq _⟩
  · exact Eaten.refl s t

theorem eaten_portPop (s : State) (t port : Nat) : Eaten s t (s.portPop t port).2 := by
  unfold State.portPop
  split
  · split
    · exact Eaten.refl s t
    · next r q _ =>
      refine ⟨rfl, fun _ _ => rfl, ⟨_, _, rfl⟩, fun _ h => h, fun _ => ⟨_, rfl⟩, fun p => ?_⟩
      by_cases hp : p = s.colOf t
      · subst hp; exact ⟨q, State.column_modCol_same ..⟩
      · exact ⟨_, State.column_modCol_ne s hp _⟩
  · split
    · exact Eaten.refl s t
    · exact eaten_modTeam s t _ (fun T => ⟨_, _, rfl⟩)

theorem eaten_consume (s : State) (t k : Nat) : Eaten s t (s.consume t k) := by
  unfold State.consume
  split
  · exact Eaten.refl s t
  · exact (eaten_modTeam s t _ (fun T => ⟨_, _, rfl⟩)).trans (eaten_acquire _ t _ _)

theorem eaten_foldl {α : Type} (t : Nat) (f : State → α → State) (hf : ∀ s x, Eaten s t (f s x)) (s : State) (l : List α) :
    Eaten s t (l.foldl f s) := by
  induction l generalizing s with
  | nil => exact Eaten.refl s t
  | cons x r ih => exact (hf s x).trans (ih _)

theorem eaten_consumeSrcs (r : Run) : Eaten r.s r.t r.consumeSrcs := by
  unfold Run.consumeSrcs
  split
  · exact Eaten.refl _ _
  · refine (eaten_foldl r.t _ (fun s port => ?_) _ _).trans (eaten_foldl r.t _ (fun s k => ?_) _ _)
    · have := eaten_portPop s r.t port
      split <;> simp_all
      exact this.trans (eaten_acquire _ _ _ _)
    · split
      · exact Eaten.refl _ _
      · exact eaten_consume _ _ _

theorem foldl_fix {α β : Type} (f : β → α → β) (b : β) (l : List α) (h : ∀ x ∈ l, f b x = b) : l.foldl f b = b := foldl_id f b l h

/-- Sources that are neither queue registers nor counters with a pending acquire consume nothing. -/
theorem consumeSrcs_plain (r : Run) (hp : r.pops = []) (hk : ∀ n ∈ r.kReads, mapGet? n (r.s.team r.t).kScope = none) :
    r.consumeSrcs = r.s := by
  unfold Run.consumeSrcs
  rw [hp]
  split
  · rfl
  · refine foldl_id _ _ _ (fun k hkm => ?_)
    have := hk k hkm
    simp only [List.foldl_nil, State.consume, this]
    split <;> rfl

/-! ### Writing a result -/

/-- A state after the result of an instruction has been written, before its sources are consumed. -/
structure Put (o : Ops) (one : Bool) (s : State) (t c : Nat) (h : Cohort) (upd : Nat → Lane → Lane) (val : Nat → Word) (fl : Nat)
    (h0 : Cohort) (s' : State) : Prop where
  rest : { s' with teams := s.teams, cores := s.cores, columns := s.columns } = s
  teams : ∀ u, u ≠ t → s'.team u = s.team u
  courses : ∀ d, d ≠ c → s'.course t d = s.course t d
  team : ∃ k kE kbad named crs, s'.team t = { s.team t with k := k, kE := kE, kbad := kbad, named := named, courses := crs }
  course : ∃ ls, s'.course t c = { s.course t c with lanes := ls, fpsr := (s.course t c).fpsr ||| fl, coh := some h0 }
  length : (s'.course t c).lanes.length = (s.course t c).lanes.length
  core : ∀ q, s'.core q =
    if q = (s.team t).core ∧ (eqOf o.d).isSome ∧ s.performers t c h o.g one ≠ [] then
      { s.core q with coil := { (s.core q).coil with groups := (s.core q).coil.groups.modify c (· ++
        [pushedEntry ((s.performers t c h o.g one).filter (fun l => (s.lane t c l).cls == .live)) val]) } }
    else s.core q
  column : ∀ q, s'.column q = s.column q
  has : s'.HasCourse t c
  lanes : ∀ l, s'.lane t c l =
    if l ∈ s.performers t c h o.g one ∧ l < (s.course t c).lanes.length then upd l (s.lane t c l) else s.lane t c l
  uniform : let T := (s.team t).written o.d (s.chosenLane t c h o.g) val
    (s'.team t).k = T.k ∧ (s'.team t).kE = T.kE ∧ (s'.team t).kbad = T.kbad ∧ (s'.team t).named = T.named

theorem modCourse_rest (s : State) (t c : Nat) (f : Course → Course) :
    { s.modCourse t c f with teams := s.teams, cores := s.cores, columns := s.columns } = s := modTeam_rest s t _

theorem team_modCourse_crs (s : State) (t c : Nat) (f : Course → Course) :
    ∃ crs, (s.modCourse t c f).team t = { s.team t with courses := crs } := by
  unfold State.modCourse
  cases ht : mapGet? t s.teams with
  | none => exact ⟨_, by rw [State.modTeam, ht]⟩
  | some T => exact ⟨_, by rw [State.team_modTeam_same ht]; rfl⟩

variable {o : Ops} {one : Bool} {s b : State} {t c : Nat} {h h0 : Cohort} {upd : Nat → Lane → Lane} {val : Nat → Word} {fl : Nat}

/-- What is written is all that the end of an instruction without a fault leaves, with the cohort moved on. -/
theorem Put.done {s' : State} (hp : Put o one s t c h upd val fl h0 s') {e : State} (he : Eaten s' t e)
    (hu : s.plainSrcs t o → e = s') :
    Done o one s t c h upd val fl h0.next (e.modCourse t c (fun C => { C with
      parked := none, walked := [], recRefused := 0, coh := C.coh.map (fun h => { h with issued := h.issued + 1, pc := h.succ }) })) := by
  have hhas := he.has c hp.has
  have hcrs2 : ∀ d, e.course t d = s'.course t d := by
    intro d
    obtain ⟨a, b, h1⟩ := he.team
    simp [State.course, h1, Team.course]
  have hcrs := hcrs2 c
  have hsame := State.course_modCourse_same hhas (fun C => { C with
      parked := none, walked := [], recRefused := 0, coh := C.coh.map (fun h => { h with issued := h.issued + 1, pc := h.succ }) })
  obtain ⟨crs, hteam⟩ := team_modCourse_crs e t c (fun C => { C with
      parked := none, walked := [], recRefused := 0, coh := C.coh.map (fun h => { h with issued := h.issued + 1, pc := h.succ }) })
  obtain ⟨a1, b1, hte⟩ := he.team
  obtain ⟨k, kE, kbad, named, crs2, htp⟩ := hp.team
  obtain ⟨ls, hcp⟩ := hp.course
  refine ⟨⟨?_, ?_, ?_, ?_, ?_, ?_, ?_⟩, ?_, ?_, ?_, ?_, ?_, ?_, ?_⟩
  · exact rest_trans (rest_trans hp.rest he.rest) (modCourse_rest e t c _)
  · intro u hne
    rw [State.modCourse, State.team_modTeam_ne _ hne, he.teams u hne, hp.teams u hne]
  · intro d hd
    rw [State.course_modCourse_ne _ (fun x => hd x.2), hcrs2, hp.courses d hd]
  · exact ⟨k, kE, kbad, named, a1, b1, crs, by rw [hteam, hte, htp]⟩
  · exact ⟨_, _, _, _, _, _, by rw [hsame, hcrs, hcp]⟩
  · intro q
    obtain ⟨l1, hq⟩ := he.core q
    rw [State.modCourse, State.core_modTeam, hq, hp.core q]
    split
    · exact ⟨_, _, rfl⟩
    · exact ⟨_, _, rfl⟩
  · intro q
    obtain ⟨scq, hq⟩ := he.column q
    exact ⟨scq, by rw [State.modCourse, State.column_modTeam, hq, hp.column q]⟩
  · rw [hsame, hcrs, hcp]; rfl
  · rw [hsame]
  · intro l
    rw [← hp.lanes l]
    refine Eq.trans (State.lane_modCourse_keep e t c _ (fun _ => by rfl) t c l) ?_
    simp only [State.lane, hcrs]
  · rw [hteam, hte]
    exact hp.uniform
  · rw [hsame, hcrs, hcp]
  · intro q
    obtain ⟨l1, hq⟩ := he.core q
    rw [State.modCourse, State.core_modTeam, hq]
    show (s'.core q).coil = _
    rw [hp.core q]
    split <;> rfl
  · intro hpl
    have := hu hpl
    subst this
    refine ⟨?_, ?_, fun q => ?_, fun q => ?_⟩
    · rw [hteam, htp]
    · rw [hteam, htp]
    · rw [State.modCourse, State.core_modTeam, hp.core q]
      split <;> rfl
    · rw [State.modCourse, State.column_modTeam, hp.column q]

theorem performers_nodup (s : State) (t c : Nat) (h : Cohort) (g : Guard) (one : Bool) : (s.performers t c h g one).Nodup := by
  unfold State.performers
  split
  · cases s.chosenLane t c h g <;> simp
  · exact List.Nodup.filter _ (List.Nodup.filter _ List.nodup_range)

/-- The chosen lane of a run of an instruction that stands ready (R73). -/
theorem readyRun_chosen {o : Ops} {p : Pro} {s : State} {t c : Nat} {h : Cohort} :
    (readyRun o p s t c h).chosen = s.chosenLane t c h o.g := by
  unfold Run.chosen readyRun State.performers
  simp only
  split
  · unfold State.chosenLane
    cases hq : (List.filter (fun l => (s.lane t c l).cls == LaneCls.live) (s.guarded t c h o.g)).head? with
    | none => rfl
    | some l =>
      have := List.mem_of_mem_head? hq
      have := (List.mem_filter.mp this).2
      simp [Run.live, Run.L, Run.C, Course.lane, State.lane, State.course] at this ⊢
      simp [this]
  · rfl

/-- The flags that the results of a run raise together. -/
def flagsOf (r : Run) (res : Nat → LRes) : Nat := r.good.foldl (fun a l => a ||| r.raised l (res l)) 0

/-- A write whose results trap no flag. -/
theorem write_quiet (r : Run) (res : Nat → LRes) (hn : r.flt = [])
    (hq : ∀ l ∈ r.good, r.trapping (r.T.atStart (r.s0.cycle r.col)).1 l (res l) = 0) :
    ∃ b : State, b = (if flagsOf r res = 0 then r.s else r.s.modCourse r.t r.c (fun C => { C with fpsr := C.fpsr ||| flagsOf r res })) ∧
    r.write res = { r with s := match r.o.d with
      | .k n => match r.chosen with
        | none => b
        | some l => b.modTeam r.t (fun T => T.kPut n (res l).val)
      | .eq _ => if r.good.isEmpty then b else b.modCore r.core (fun k =>
          { k with coil := { k.coil with groups := k.coil.groups.modify r.c (· ++ [pushedEntry r.goodLive (fun l => (res l).val)]) } })
      | d => r.good.foldl (fun s l => s.modLane r.t r.c l (fun L => L.putReg r.o.ib d (res l).val)) b } := by
  refine ⟨_, rfl, ?_⟩
  unfold Run.write
  extract_lets raised r1 ten r2 ls e
  have h2 : r2 = r1 := by
    simp only [r2]
    refine Run.check_none _ _ _ (fun l hl => ?_)
    rw [if_pos]
    exact hq l hl
  have hl : ls = r.goodLive := by simp only [ls, h2]; rfl
  have he : e = pushedEntry r.goodLive (fun l => (res l).val) := by simp only [e, hl, pushedEntry]
  rw [h2]
  have hd : r1.o.d = r.o.d := rfl
  rw [hd]
  cases hx : r.o.d with
  | k n =>
    have : r1.chosen = r.chosen := rfl
    simp only [this]
    cases hch : r.chosen with
    | none => rfl
    | some l =>
      have : r1.ok l = true := Run.ok_of_nil hn l
      simp only [this, if_true]
      rfl
  | eq n =>
    have : r1.good = r.good := rfl
    simp only [this, he]
    split
    · rfl
    · rfl
  | _ => rfl

/-- A change of the course in focus that leaves its lanes as they are. -/
theorem put_course (o : Ops) (one : Bool) (hc : s.HasCourse t c) (val : Nat → Word) (f : Course → Course)
    (hf : ∀ C, f C = { C with fpsr := (f C).fpsr, coh := (f C).coh }) (hfl : (f (s.course t c)).fpsr = (s.course t c).fpsr ||| fl)
    (hh : (f (s.course t c)).coh = some h0) :
    Put { o with d := .none } one s t c h (fun _ L => L) val fl h0 (s.modCourse t c f) := by
  have hl : ∀ C, (f C).lanes = C.lanes := fun C => by rw [hf C]
  obtain ⟨crs, hteam⟩ := team_modCourse_crs s t c f
  have hsame := State.course_modCourse_same hc f
  refine ⟨modCourse_rest _ _ _ _, fun u hu => ?_, fun d hd => State.course_modCourse_ne _ (fun x => hd x.2) _,
    ⟨_, _, _, _, crs, hteam⟩, ⟨(s.course t c).lanes, ?_⟩, ?_, fun q => ?_, fun q => ?_, hc.modCourse _ _ _, fun l => ?_, ?_⟩
  · rw [State.modCourse, State.team_modTeam_ne _ hu]
  · rw [hsame, hf, hfl, hh]
  · rw [hsame, hl]
  · rw [State.modCourse, State.core_modTeam]; simp [eqOf]
  · rw [State.modCourse, State.column_modTeam]
  · refine Eq.trans (State.lane_modCourse_keep s t c _ hl t c l) ?_
    simp
  · rw [hteam]; simp [Team.written]

/-- Nothing is written yet. -/
theorem put_start (o : Ops) (one : Bool) (hc : (s.course t c).coh = some h) (val : Nat → Word) :
    Put { o with d := .none } one s t c h (fun _ L => L) val 0 h s :=
  ⟨rfl, fun _ _ => rfl, fun _ _ => rfl, ⟨_, _, _, _, _, rfl⟩, ⟨(s.course t c).lanes, by simp [← hc]⟩, rfl, fun q => by simp [eqOf], fun _ => rfl,
    State.hasCourse_of_coh hc, fun l => by simp, by simp [Team.written]⟩

/-- The state with the flags raised, and nothing written yet. -/
theorem put_flags (o : Ops) (one : Bool) (hc : (s.course t c).coh = some h) (val : Nat → Word)
    (fl : Nat) : Put { o with d := .none } one s t c h (fun _ L => L) val fl h
      (if fl = 0 then s else s.modCourse t c (fun C => { C with fpsr := C.fpsr ||| fl })) := by
  split
  · next h0 => subst h0; exact put_start o one hc val
  · exact put_course o one (State.hasCourse_of_coh hc) val _ (fun _ => rfl) rfl hc

/-- A uniform register is written by the chosen lane. -/
theorem put_k {n : Nat} (hd : o.d = .k n) (hb : Put { o with d := .none } one s t c h upd val fl h0 b) :
    Put o one s t c h upd val fl h0 (match s.chosenLane t c h o.g with
      | none => b
      | some l => b.modTeam t (fun T => T.kPut n (val l))) := by
  have hco : ∀ q, b.core q = if q = (s.team t).core ∧ (eqOf o.d).isSome ∧ s.performers t c h o.g one ≠ [] then
      { s.core q with coil := { (s.core q).coil with groups := (s.core q).coil.groups.modify c (· ++
        [pushedEntry ((s.performers t c h o.g one).filter (fun l => (s.lane t c l).cls == .live)) val]) } }
    else s.core q := by
    intro q; rw [hb.core q]; simp [eqOf, hd]
  cases hch : s.chosenLane t c h o.g with
  | none =>
    simp only
    refine ⟨hb.rest, hb.teams, hb.courses, hb.team, hb.course, hb.length, hco, hb.column, hb.has, hb.lanes, ?_⟩
    rw [hch, hd]
    have := hb.uniform
    simpa [Team.written] using this
  | some l =>
    simp only
    obtain ⟨T, hT, hlt⟩ := hb.has
    have hsame := State.team_modTeam_same hT (fun T => T.kPut n (val l))
    have hcrs : ∀ d, (b.modTeam t (fun T => T.kPut n (val l))).course t d = b.course t d := by
      intro d
      simp only [State.course, hsame, Team.course]
      congr 1
      unfold Team.kPut; split <;> rfl
    obtain ⟨k, kE, kbad, named, crs, hbt⟩ := hb.team
    refine ⟨rest_trans hb.rest (modTeam_rest _ _ _), fun u hu => ?_, fun d hd' => ?_, ?_, ?_, ?_, fun q => ?_, fun q => ?_, ?_, fun m => ?_, ?_⟩
    · rw [State.team_modTeam_ne _ hu, hb.teams u hu]
    · rw [hcrs, hb.courses d hd']
    · rw [hsame, hbt]
      unfold Team.kPut
      split
      · exact ⟨_, _, _, _, crs, rfl⟩
      · exact ⟨_, _, _, _, crs, rfl⟩
    · rw [hcrs]; exact hb.course
    · rw [hcrs]; exact hb.length
    · rw [State.core_modTeam, hco q]
    · rw [State.column_modTeam, hb.column q]
    · refine State.HasCourse.modTeam ⟨T, hT, hlt⟩ _ _ (fun T => ?_)
      unfold Team.kPut; split <;> rfl
    · rw [State.lane, hcrs]; exact hb.lanes m
    · have hu := hb.uniform
      simp only [Team.written] at hu
      simp only [hch, hd, Team.written, hsame]
      unfold Team.kPut
      split
      · exact hu
      · simp [hu, Team.notZero]

/-- An entry is pushed into the group buffer. -/
theorem put_eq {n : Nat} (hd : o.d = .eq n) (hb : Put { o with d := .none } one s t c h upd val fl h0 b) :
    Put o one s t c h upd val fl h0 (if (s.performers t c h o.g one).isEmpty then b else b.modCore (s.team t).core (fun k =>
      { k with coil := { k.coil with groups := k.coil.groups.modify c (· ++
        [pushedEntry ((s.performers t c h o.g one).filter (fun l => (s.lane t c l).cls == .live)) val]) } })) := by
  have hun : (let T := (s.team t).written o.d (s.chosenLane t c h o.g) val
    (b.team t).k = T.k ∧ (b.team t).kE = T.kE ∧ (b.team t).kbad = T.kbad ∧ (b.team t).named = T.named) := by
    have := hb.uniform
    simp only [Team.written] at this
    rw [hd]; simpa [Team.written] using this
  split
  · next he =>
    refine ⟨hb.rest, hb.teams, hb.courses, hb.team, hb.course, hb.length, fun q => ?_, hb.column, hb.has, hb.lanes, hun⟩
    rw [hb.core q]
    simp only [List.isEmpty_iff] at he
    simp [eqOf, he]
  · next he =>
    refine ⟨rest_trans hb.rest rfl, hb.teams, hb.courses, hb.team, hb.course, hb.length, fun q => ?_, hb.column, hb.has, hb.lanes, hun⟩
    have hne : s.performers t c h o.g one ≠ [] := by simpa [List.isEmpty_iff] using he
    by_cases hq : q = (s.team t).core
    · subst hq
      rw [State.core_modCore_same, hb.core]
      simp [eqOf, hd, hne]
    · rw [State.core_modCore_ne _ hq, hb.core]
      simp [eqOf, hd, hq]

/-- Another destination than a uniform register or a queue leaves both alone. -/
theorem put_other (hk : ∀ n, o.d ≠ .k n) (he : ∀ n, o.d ≠ .eq n) (hb : Put { o with d := .none } one s t c h upd val fl h0 b) :
    Put o one s t c h upd val fl h0 b := by
  have heq : eqOf o.d = none := by
    cases hd : o.d <;> simp [eqOf]
    exact he _ hd
  refine ⟨hb.rest, hb.teams, hb.courses, hb.team, hb.course, hb.length, fun q => ?_, hb.column, hb.has, hb.lanes, ?_⟩
  · rw [hb.core q, heq]; simp [eqOf]
  · have hu := hb.uniform
    simp only [Team.written] at hu
    cases hd : o.d <;> simp [Team.written]
    case k n => exact absurd hd (hk n)
    all_goals exact hu

theorem lanesFold_lengths (s : State) (t c : Nat) (g : Nat → Lane → Lane) (ls : List Nat) (u d : Nat) :
    ((ls.foldl (fun s l => s.modLane t c l (g l)) s).course u d).lanes.length = (s.course u d).lanes.length :=
  State.course_foldLanes_keep (fun C => C.lanes.length) s t c g (fun C l f => Course.length_modLane C l f) ls u d

theorem lanesFold_course (s : State) (t c : Nat) (g : Nat → Lane → Lane) (ls : List Nat) (hs : s.HasCourse t c) :
    ∃ L, (ls.foldl (fun s l => s.modLane t c l (g l)) s).course t c = { s.course t c with lanes := L } := by
  induction ls generalizing s with
  | nil => exact ⟨_, rfl⟩
  | cons l r ih =>
    obtain ⟨L, h⟩ := ih (s.modLane t c l (g l)) (hs.modLane t c l _)
    rw [List.foldl_cons, h, State.modLane, State.course_modCourse_same hs]
    exact ⟨L, rfl⟩

theorem lanesFold_team (s : State) (t c : Nat) (g : Nat → Lane → Lane) (ls : List Nat) :
    ∃ crs, (ls.foldl (fun s l => s.modLane t c l (g l)) s).team t = { s.team t with courses := crs } := by
  induction ls generalizing s with
  | nil => exact ⟨_, rfl⟩
  | cons l r ih =>
    obtain ⟨crs, h⟩ := ih (s.modLane t c l (g l))
    obtain ⟨crs2, h2⟩ := team_modCourse_crs s t c (·.modLane l (g l))
    rw [List.foldl_cons, h]
    exact ⟨crs, by rw [State.modLane, h2]⟩

theorem lanesFold_rest (s : State) (t c : Nat) (g : Nat → Lane → Lane) (ls : List Nat) :
    { (ls.foldl (fun s l => s.modLane t c l (g l)) s) with teams := s.teams, cores := s.cores, columns := s.columns } = s := by
  induction ls generalizing s with
  | nil => rfl
  | cons a r ih => exact rest_trans (modTeam_rest s t _) (ih _)

theorem lanesFold_teams (s : State) (t c : Nat) (g : Nat → Lane → Lane) (ls : List Nat) {u : Nat} (hu : u ≠ t) :
    (ls.foldl (fun s l => s.modLane t c l (g l)) s).team u = s.team u := by
  induction ls generalizing s with
  | nil => rfl
  | cons a r ih => exact (ih _).trans (State.team_modTeam_ne s hu _)

theorem lanesFold_courses (s : State) (t c : Nat) (g : Nat → Lane → Lane) (ls : List Nat) {d : Nat} (hd : d ≠ c) :
    (ls.foldl (fun s l => s.modLane t c l (g l)) s).course t d = s.course t d := by
  induction ls generalizing s with
  | nil => rfl
  | cons a r ih => exact (ih _).trans (State.course_modCourse_ne s (fun y => hd y.2) _)

theorem lane_absent {C : Course} {l : Nat} (hC : ¬ l < C.lanes.length) : C.lane l = {} := by
  simp [Course.lane, List.getD, List.getElem?_eq_none (Nat.le_of_not_lt hC)]

/-- Some of the lanes that perform the instruction are changed. -/
theorem Put.fold (hb : Put o one s t c h upd val fl h0 b) (g : Nat → Lane → Lane) {ls : List Nat} (hn : ls.Nodup)
    (hs : ∀ l ∈ ls, l ∈ s.performers t c h o.g one) :
    Put o one s t c h (fun l L => if l ∈ ls then g l (upd l L) else upd l L) val fl h0
      (ls.foldl (fun s l => s.modLane t c l (g l)) b) := by
  obtain ⟨L, hcrs⟩ := lanesFold_course b t c g ls hb.has
  obtain ⟨crs, hteam⟩ := lanesFold_team b t c g ls
  obtain ⟨k, kE, kbad, named, crs2, hbt⟩ := hb.team
  obtain ⟨ls0, hbc⟩ := hb.course
  have hlen := lanesFold_lengths b t c g ls t c
  refine ⟨rest_trans hb.rest (lanesFold_rest b t c g ls), fun u hu => ?_, fun d hd => ?_, ?_, ?_, ?_, fun q => ?_, fun q => ?_, ?_, fun l => ?_, ?_⟩
  · rw [lanesFold_teams b t c g ls hu, hb.teams u hu]
  · rw [lanesFold_courses b t c g ls hd, hb.courses d hd]
  · exact ⟨k, kE, kbad, named, crs, hteam.trans (by rw [hbt])⟩
  · exact ⟨L, hcrs.trans (by rw [hbc])⟩
  · rw [hlen, hb.length]
  · rw [show (ls.foldl (fun s l => s.modLane t c l (g l)) b).core q = b.core q from
      State.foldLanes_keep (fun x => x.core q) b t c g (fun s l f => State.core_modTeam s t _ q) _, hb.core q]
  · rw [← hb.column q]
    exact State.foldLanes_keep (fun x => x.column q) b t c g (fun s l f => State.column_modTeam s t _ q) _
  · exact hb.has.foldLanes t c g _
  · by_cases hl : l < (s.course t c).lanes.length
    · by_cases hm : l ∈ ls
      · rw [State.lane_foldLanes_in hb.has g hn hm (by rw [hb.length]; exact hl), hb.lanes l, if_pos ⟨hs l hm, hl⟩, if_pos ⟨hs l hm, hl⟩,
          if_pos hm]
      · rw [State.lane_foldLanes_out b t c g (fun x => hm x.2.2), hb.lanes l, if_neg hm]
    · rw [if_neg (fun x => hl x.2), State.lane, State.lane, lane_absent hl, lane_absent (by rw [hlen, hb.length]; exact hl)]
  · rw [hteam]; exact hb.uniform

theorem Put.congr {upd' : Nat → Lane → Lane} (hb : Put o one s t c h upd val fl h0 b)
    (hu : ∀ l, l ∈ s.performers t c h o.g one → upd l (s.lane t c l) = upd' l (s.lane t c l)) : Put o one s t c h upd' val fl h0 b := by
  refine ⟨hb.rest, hb.teams, hb.courses, hb.team, hb.course, hb.length, hb.core, hb.column, hb.has, fun l => ?_, hb.uniform⟩
  rw [hb.lanes l]
  split
  · next hm => exact hu l hm.1
  · rfl

theorem finish_nil (r : Run) (hn : r.flt = []) : r.finish = r.consumeSrcs.modCourse r.t r.c (fun C => { C with
    parked := none, walked := [], recRefused := 0, coh := C.coh.map (fun h => { h with issued := h.issued + 1, pc := h.succ }) }) := by
  unfold Run.finish
  rw [hn]
  rfl

/-- The end of the run of an instruction that stands ready and has written its result. -/
theorem put_finish {o' : Ops} {p : Pro} {W : State} (ha : o'.a = o.a) (hbb : o'.b = o.b) (hcc : o'.c = o.c)
    (hput : Put o' one s t c h upd val fl h0 W) :
    Done o' one s t c h upd val fl h0.next ({ readyRun o p s t c h with s := W } : Run).finish := by
  rw [finish_nil _ rfl]
  refine hput.done ?_ ?_
  · exact eaten_consumeSrcs { readyRun o p s t c h with s := W }
  · intro hpl
    simp only [State.plainSrcs, ha, hbb, hcc] at hpl
    refine consumeSrcs_plain _ ?_ ?_
    · show ((p.sources o).filterMap (fun x => eqOf x.2.op)).map (s.team t).portOf = []
      rw [List.map_eq_nil_iff, List.filterMap_eq_nil_iff]
      intro x hx
      unfold Pro.sources at hx
      refine (hpl x.2.op ?_).1
      split at hx <;> simp at hx
      · rcases hx with rfl | rfl <;> simp
      · rcases hx with rfl | rfl | rfl <;> simp
    · intro n hn
      obtain ⟨k, kE, kbad, named, crs, hpt⟩ := hput.team
      show mapGet? n (State.team _ t).kScope = none
      rw [hpt]
      unfold Run.kReads at hn
      obtain ⟨x, hx, hxn⟩ := List.mem_filterMap.mp hn
      have := (hpl x hx).2
      cases x <;> simp at hxn
      exact this n (by rw [hxn.2])



/-- A write of results that trap no flag, in a run that stands ready. -/
theorem write_put {p : Pro} (hr : Ready o p s t c h) (res : Nat → LRes)
    (hq : ∀ l ∈ s.performers t c h o.g p.one, (readyRun o p s t c h).trapping (s.enabled t) l (res l) = 0) :
    ∃ W, (readyRun o p s t c h).write res = { readyRun o p s t c h with s := W } ∧
      Put o p.one s t c h (fun l L => L.putReg o.ib o.d (res l).val) (fun l => (res l).val) (flagsOf (readyRun o p s t c h) res) h W := by
  set r := readyRun o p s t c h with hrd
  have hgood : r.good = s.performers t c h o.g p.one := Run.good_of_nil rfl
  obtain ⟨b, hb, hw⟩ := write_quiet r res rfl (by rw [hgood]; exact hq)
  refine ⟨_, hw, ?_⟩
  have hch : r.chosen = s.chosenLane t c h o.g := readyRun_chosen
  have hfl := put_flags o p.one hr.cohort (fun l => (res l).val) (flagsOf r res)
  change Put _ _ s t c h _ _ _ _ (if flagsOf r res = 0 then r.s else r.s.modCourse r.t r.c _) at hfl
  rw [← hb] at hfl
  have hod : r.o.d = o.d := rfl
  rw [hod]
  cases hd : o.d with
  | k n =>
    simp only [hch]
    exact (put_k hd hfl).congr (fun l _ => rfl)
  | eq n =>
    have hgl : r.goodLive = (s.performers t c h o.g p.one).filter (fun l => (s.lane t c l).cls == .live) := by
      unfold Run.goodLive; rw [hgood]; rfl
    simp only [hgood, hgl]
    exact (put_eq hd hfl).congr (fun l _ => rfl)
  | _ =>
    have := ((put_other (o := o) (by simp [hd]) (by simp [hd]) hfl).fold (fun l L => L.putReg o.ib o.d (res l).val)
      (performers_nodup s t c h o.g p.one) (fun l hl => hl)).congr (upd' := fun l L => L.putReg o.ib o.d (res l).val) (fun l hl => by rw [if_pos hl])
    rw [hd] at this
    simp only [hgood]
    exact this

/-- The whole of an ALU instruction that stands ready: it completes, and what it leaves where no flag traps. -/
theorem aluRun_wrote {p : Pro} (hr : Ready o p s t c h) (res : Run → Nat → LRes) :
    ∃ s', aluRun o p s res = .next s' ∧
      ((∀ l ∈ s.performers t c h o.g p.one, (readyRun o p s t c h).trapping (s.enabled t) l (res (readyRun o p s t c h) l) = 0) →
        Wrote o p.one s t c h (fun l => (res (readyRun o p s t c h) l).val)
          (flagsOf (readyRun o p s t c h) (res (readyRun o p s t c h))) s') := by
  refine ⟨_, aluRun_ready hr res, fun hq => ?_⟩
  obtain ⟨W, hw, hput⟩ := write_put hr (res (readyRun o p s t c h)) hq
  rw [hw]
  exact put_finish rfl rfl rfl hput

end Sys2Proof.Machine
end

