-- ==== Sys2Proof/Laws/Results.lean ====
section
/-! SUPPORT. Results element by element: what place and cut give, and an ALU instruction without flags. -/

namespace Sys2Proof.Machine

theorem raised_zero (r : Run) (l : Nat) (x : LRes) (h : x.flags = 0) : r.raised l x = 0 := by
  unfold Run.raised
  extract_lets kd
  rw [h]
  exact ite_self _

theorem trapping_zero (r : Run) (ten l : Nat) (x : LRes) (h : x.flags = 0) : r.trapping ten l x = 0 := by
  unfold Run.trapping
  extract_lets lane
  rw [raised_zero r l x h, h, ite_self]
  exact Nat.zero_and _

theorem flagsOf_zero (r : Run) (res : Nat → LRes) (h : ∀ l, (res l).flags = 0) : flagsOf r res = 0 := by
  refine foldl_id _ _ _ (fun l _ => ?_)
  rw [raised_zero r l _ (h l)]; rfl

/-- An ALU instruction without flags completes when it stands ready. -/
theorem aluRun_plain {o : Ops} {p : Pro} {s : State} {t c : Nat} {h : Cohort} (hr : Ready o p s t c h) (res : Run → Nat → LRes)
    (hf : ∀ l, (res (readyRun o p s t c h) l).flags = 0) :
    ∃ s', aluRun o p s res = .next s' ∧ Wrote o p.one s t c h (fun l => (res (readyRun o p s t c h) l).val) 0 s' := by
  obtain ⟨s', h1, h2⟩ := aluRun_wrote hr res
  rw [flagsOf_zero _ _ hf] at h2
  exact ⟨s', h1, h2 (fun l _ => trapping_zero _ _ l _ (hf l))⟩

theorem tyDim_pos (ty : Ty) : 0 < tyW ty ∧ tyW ty * tyN ty ≤ 64 := by cases ty <;> decide

theorem packBits_lt (w : Nat) (l : List Nat) : packBits w l < 2 ^ (w * l.length) := by
  induction l with
  | nil => simp [packBits]
  | cons x r ih =>
    simp only [packBits, List.length_cons, Nat.mul_succ, Nat.pow_add]
    have h1 : x % 2 ^ w < 2 ^ w := Nat.mod_lt _ (Nat.two_pow_pos w)
    have h2 : 2 ^ w * packBits w r + 2 ^ w ≤ 2 ^ w * 2 ^ (w * r.length) := by
      rw [← Nat.mul_succ]; exact Nat.mul_le_mul_left _ ih
    rw [Nat.mul_comm (2 ^ (w * r.length))]
    omega

theorem packBits_fld (w : Nat) (l : List Nat) (i : Nat) (h : i < l.length) :
    fld (packBits w l) (w * i) w = l.getD i 0 % 2 ^ w := by
  induction l generalizing i with
  | nil => simp at h
  | cons x r ih =>
    cases i with
    | zero => simp [packBits, fld]
    | succ i =>
      have := ih i (by simpa using h)
      simp only [List.getD_cons_succ]
      rw [← this]
      simp only [fld, packBits, Nat.shiftRight_eq_div_pow, Nat.mul_succ, Nat.pow_add]
      rw [Nat.mul_comm (2 ^ (w * i)), ← Nat.div_div_eq_div_mul, Nat.add_mul_div_left _ _ (Nat.two_pow_pos w),
        Nat.div_eq_of_lt (Nat.mod_lt _ (Nat.two_pow_pos w)), Nat.zero_add]

theorem sextN_mod (n v : Nat) : sextN n (v % 2 ^ n) = sextN n v := by simp [sextN]

theorem sextN_toNat (w v : Nat) (hw : w ≤ 64) : (wordOfInt (sextN w v)).toNat % 2 ^ w = v % 2 ^ w := by
  have hd : (2 : Int) ^ w ∣ 2 ^ 64 := pow_dvd_pow 2 hw
  have h1 : ((wordOfInt (sextN w v)).toNat : Int) = sextN w v % 2 ^ 64 := by
    rw [BitVec.toNat_ofInt]
    have : 0 ≤ sextN w v % (2 ^ 64 : Int) := Int.emod_nonneg _ (by decide)
    simp only [Nat.cast_pow, Nat.cast_ofNat]
    exact Int.toNat_of_nonneg this
  have h2 : ((wordOfInt (sextN w v)).toNat : Int) % 2 ^ w = (v : Int) % 2 ^ w := by
    rw [h1, Int.emod_emod_of_dvd _ hd]
    unfold sextN
    simp only
    split
    · simp
    · push_cast
      rw [Int.sub_emod, Int.emod_self]
      simp
  exact_mod_cast h2

/-- What place puts into a register are the elements (R108). -/
theorem holds_place (ty : Ty) (f : Nat → Nat) (hf : ∀ i, i < tyN ty → f i < 2 ^ tyW ty) :
    Holds ty (place ty ((idxs ty).map f)) f := by
  obtain ⟨h0, h64⟩ := tyDim_pos ty
  have hlen : ((idxs ty).map f).length = tyN ty := by simp [idxs]
  have hgd : ∀ i, i < tyN ty → ((idxs ty).map f).getD i 0 = f i := by
    intro i hi
    simp [idxs, List.getD, hi]
  have hpl : packBits (tyW ty) ((idxs ty).map f) < 2 ^ 64 := by
    refine Nat.lt_of_lt_of_le (packBits_lt _ _) ?_
    rw [hlen]
    exact Nat.pow_le_pow_right (by decide) h64
  by_cases hc : (tyN ty = 1 ∧ tyInt ty = true) ∧ tySigned ty = true
  · obtain ⟨⟨h1, h2⟩, h3⟩ := hc
    have hp : place ty ((idxs ty).map f) = wordOfInt (sextN (tyW ty) (f 0)) := by
      simp [place, h1, h2, h3, idxs, List.headD]
    refine ⟨fun i hi => ⟨?_, hf i hi⟩, fun _ => by simp [h2, h3, hp]⟩
    have hi0 : i = 0 := by omega
    subst hi0
    rw [hp]
    simp only [wfld, fld, Nat.mul_zero, Nat.shiftRight_zero]
    rw [sextN_toNat _ _ (by rw [h1] at h64; omega), Nat.mod_eq_of_lt (hf 0 hi)]
  · have hp : place ty ((idxs ty).map f) = wordOf (packBits (tyW ty) ((idxs ty).map f)) := by
      unfold place
      rw [if_neg]
      simpa using hc
    have hn : (place ty ((idxs ty).map f)).toNat = packBits (tyW ty) ((idxs ty).map f) := by
      rw [hp, BitVec.toNat_ofNat, Nat.mod_eq_of_lt hpl]
    refine ⟨fun i hi => ⟨?_, hf i hi⟩, fun h1 => ?_⟩
    · rw [wfld, hn, packBits_fld _ _ _ (by rw [hlen]; exact hi), hgd i hi, Nat.mod_eq_of_lt (hf i hi)]
    · rw [if_neg (by simpa [h1] using hc), hn]
      simp [idxs, h1, packBits]
      exact Nat.mod_eq_of_lt (hf 0 (by omega))

theorem truncN_lt (n : Nat) (z : Int) : truncN n z < 2 ^ n := by
  have h1 : 0 ≤ z % ((2 ^ n : Nat) : Int) := Int.emod_nonneg _ (by have := Nat.two_pow_pos n; omega)
  have h2 : z % ((2 ^ n : Nat) : Int) < ((2 ^ n : Nat) : Int) := Int.emod_lt_of_pos _ (by have := Nat.two_pow_pos n; omega)
  unfold truncN
  omega

theorem truncN_cast (n : Nat) (z : Int) : ((truncN n z : Nat) : Int) = z % ((2 ^ n : Nat) : Int) := by
  have h1 : 0 ≤ z % ((2 ^ n : Nat) : Int) := Int.emod_nonneg _ (by have := Nat.two_pow_pos n; omega)
  unfold truncN
  omega

theorem truncN_nat (n : Nat) {x : Nat} (h : x < 2 ^ n) : truncN n (x : Int) = x := by
  have := truncN_cast n x
  rw [Int.emod_eq_of_lt (by omega) (by omega)] at this
  omega

/-- The value of a pattern that was cut from an integer differs from it by a multiple of 2^w. -/
theorem valI_trunc (ty : Ty) (z : Int) : ((2 ^ tyW ty : Nat) : Int) ∣ valI ty (truncN (tyW ty) z) - z := by
  have h := truncN_cast (tyW ty) z
  have hd : ((2 ^ tyW ty : Nat) : Int) ∣ (truncN (tyW ty) z : Int) - z := by
    rw [h]; exact ⟨-(z / ((2 ^ tyW ty : Nat) : Int)), by rw [Int.mul_neg]; have := Int.mul_ediv_add_emod z ((2 ^ tyW ty : Nat) : Int); omega⟩
  unfold valI
  split
  · unfold sextN
    simp only
    rw [Nat.mod_eq_of_lt (truncN_lt _ _)]
    split
    · exact hd
    · obtain ⟨k, hk⟩ := hd
      exact ⟨k - 1, by rw [Int.mul_sub]; omega⟩
  · exact hd

theorem valI_range (ty : Ty) {x : Nat} (hx : x < 2 ^ tyW ty) :
    intLo (tySigned ty) (tyW ty) ≤ valI ty x ∧ valI ty x ≤ intHi (tySigned ty) (tyW ty) := by
  have h0 := (tyDim_pos ty).1
  have hp : 2 ^ tyW ty = 2 * 2 ^ (tyW ty - 1) := by rw [← Nat.pow_succ']; congr 1; omega
  unfold valI intLo intHi
  split
  · unfold sextN
    simp only
    rw [Nat.mod_eq_of_lt hx]
    split <;> omega
  · omega

theorem satI_range (z lo hi : Int) (h : lo ≤ hi) : lo ≤ satI z lo hi ∧ satI z lo hi ≤ hi := by
  unfold satI; split <;> [omega; (split <;> omega)]

theorem intLo_le_intHi (ty : Ty) : intLo (tySigned ty) (tyW ty) ≤ intHi (tySigned ty) (tyW ty) := by
  have := valI_range ty (x := 0) (Nat.two_pow_pos _)
  omega

/-- What cut gives is what R126 says. -/
theorem intIs_cut (ty : Ty) (sat : Bool) (z : Int) : IntIs ty sat z (cut ty sat z) := by
  unfold IntIs cut
  refine ⟨truncN_lt _ _, ?_⟩
  cases sat with
  | false => simpa using valI_trunc ty z
  | true =>
    simp only [if_true]
    generalize hy : satI z (intLo (tySigned ty) (tyW ty)) (intHi (tySigned ty) (tyW ty)) = y
    have hr := satI_range z _ _ (intLo_le_intHi ty)
    rw [hy] at hr
    have hv := valI_range ty (truncN_lt (tyW ty) y)
    obtain ⟨k, hk⟩ := valI_trunc ty y
    have h0 := (tyDim_pos ty).1
    have hp : 2 ^ tyW ty = 2 * 2 ^ (tyW ty - 1) := by rw [← Nat.pow_succ']; congr 1; omega
    have hpos : (0 : Int) < ((2 ^ tyW ty : Nat) : Int) := by have := Nat.two_pow_pos (tyW ty); omega
    have hw : intHi (tySigned ty) (tyW ty) - intLo (tySigned ty) (tyW ty) < ((2 ^ tyW ty : Nat) : Int) := by
      unfold intLo intHi
      split <;> omega
    have hk0 : k = 0 := by
      by_contra hne
      rcases Int.lt_or_gt_of_ne hne with h | h
      · have : ((2 ^ tyW ty : Nat) : Int) * k ≤ -((2 ^ tyW ty : Nat) : Int) := by nlinarith
        omega
      · have : ((2 ^ tyW ty : Nat) : Int) ≤ ((2 ^ tyW ty : Nat) : Int) * k := by nlinarith
        omega
    rw [hk0, Int.mul_zero] at hk
    omega

theorem cut_lt (ty : Ty) (sat : Bool) (z : Int) : cut ty sat z < 2 ^ tyW ty := (intIs_cut ty sat z).1

/-- A natural number within the width is not changed by the cut. -/
theorem cut_nat (ty : Ty) {x : Nat} (h : x < 2 ^ tyW ty) : cut ty false (x : Int) = x := by
  unfold cut; simp [truncN_nat _ h]

/-- An integer in the type's range is not changed by the cut. -/
theorem valI_cut (ty : Ty) (sat : Bool) {z : Int} (h1 : intLo (tySigned ty) (tyW ty) ≤ z) (h2 : z ≤ intHi (tySigned ty) (tyW ty)) :
    valI ty (cut ty sat z) = z := by
  have hc : cut ty sat z = cut ty true z := by
    cases sat
    · have : satI z (intLo (tySigned ty) (tyW ty)) (intHi (tySigned ty) (tyW ty)) = z := by unfold satI; split <;> [omega; (split <;> omega)]
      simp [cut, this]
    · rfl
  rw [hc]
  have h := (intIs_cut ty true z).2
  simp only [if_true] at h
  rw [h]
  unfold satI
  split <;> [omega; (split <;> omega)]

/-- An element of an integer source is a pattern of the element width (R108, R46). -/
theorem elem_lt (ty : Ty) (h : tyInt ty = true) (x : Opnd) (w : Word) (i : Nat) : elem ty x w i < 2 ^ tyW ty := by
  unfold elem
  split
  · unfold expandImm
    rw [if_pos h]
    exact truncN_lt _ _
  · exact Nat.mod_lt _ (Nat.two_pow_pos _)

end Sys2Proof.Machine
end

