-- ==== Sys2Proof/Tests/Slice0.lean ====
section
/-! SUPPORT. Tests: what WellFormed refuses, words written out from the encodings of the spec, single steps on small states
whose results the spec's worked examples and rules give, and for each statement small states in which its hypotheses hold. -/

set_option Elab.async false

namespace Sys2Proof.Tests

open Sys2Proof.Machine

/-! ### Helpers -/

/-- No guard. -/
def ng : Guard := ⟨none, false⟩

/-- A source without wait bit and hint. -/
def sv (x : Opnd) : Src := ⟨x, false, false⟩

/-- Unguarded operands. -/
def ops (d : Opnd := .none) (a : Opnd := .none) (b : Opnd := .none) (c : Opnd := .none) : Ops := ⟨ng, d, sv a, sv b, sv c, 0⟩

/-- The word is read as the instruction. -/
def reads (w : Nat) (i : Instr) : Bool := match decode w with
  | .ok j => j == i
  | .error _ => false

/-- A word refused with a reason of R53. -/
def refuses (w n : Nat) : Bool := match decode w with
  | .ok _ => false
  | .error m => m == n

/-! ### WellFormed -/

theorem test_wf_ok : wfErrors (.add (ops (.v 1) (.v 2) (.imm 3)) .i64 false) = [] := by decide +kernel
theorem test_wf_event : wfErrors .quiesceDrain = [.event] := by decide +kernel
theorem test_wf_guard : wfErrors (.nop ⟨⟨some 48, false⟩, .none, sv .none, sv .none, sv .none, 0⟩) = [.guard] := by decide +kernel
theorem test_wf_guard_neg : wfErrors (.nop ⟨⟨none, true⟩, .none, sv .none, sv .none, sv .none, 0⟩) = [.guard] := by decide +kernel
theorem test_wf_number : wfErrors (.mov (ops (.v 256) (.v 2))) = [.number] := by decide +kernel
theorem test_wf_class : wfErrors (.bra (ops (.v 1)) 0) = [.operandClass] := by decide +kernel
theorem test_wf_unused : wfErrors (.mov (ops (.v 1) (.v 2) (.v 3))) = [.operandClass] := by decide +kernel
theorem test_wf_indexed : wfErrors (.mov (ops (.vx 1) (.v 2))) = [.indexed] := by decide +kernel
theorem test_wf_wait : wfErrors (.mov { ops (.v 1) with a := ⟨.t 2, true, false⟩ }) = [.waitOrHint] := by decide +kernel
theorem test_wf_hint : wfErrors (.mov { ops (.v 1) with a := ⟨.imm 2, false, true⟩ }) = [.waitOrHint] := by decide +kernel
theorem test_wf_modifier : wfErrors (.bar (ops) 16) = [.modifier] := by decide +kernel
theorem test_wf_base : wfErrors (.mad { ops (.v 1) (.v 2) (.v 3) (.v 4) with ib := 5 } .i64 false) = [.indexBase] := by decide +kernel
theorem test_wf_queue : wfErrors (.add (ops (.v 1) (.eq 2) (.eq 2)) .i64 false) = [.sameQueue] := by decide +kernel
theorem test_wf_long : wfErrors (.asgen (ops (.t 1) (.v 2))) = [.longLatency] := by decide +kernel
theorem test_wf_packed : wfErrors (.cmp (ops (.p 1) (.v 2) (.v 3)) .i32x2 .lt) = [.packedPredicate] := by decide +kernel
theorem test_wf_trailer : wfErrors (.btl ⟨⟨some 1, false⟩, .k 0, sv (.k 0), sv (.k 0), sv .none, 0⟩ 1 false) = [.trailer] := by
  decide +kernel

/-! ### Words of the spec -/

/-- 02_instruction_encoding.md, the table of trailers: batch 1. -/
theorem test_btl_word : reads 0x0018_2008_0200_C004 (.btl (ops (.k 0) (.k 0) (.k 0)) 3 false) = true := by decide +kernel
/-- The same table: batch 2 awaits `k5` in D. -/
theorem test_btl_word2 : reads 0x0018_2008_020A_C004 (.btl (ops (.k 5) (.k 0) (.k 0)) 3 false) = true := by decide +kernel
/-- 03_course_engine.md: `srd v1, 0x009`. -/
theorem test_srd_word : reads 0x0048_0000_0002_C048 (.srd (ops (.v 1)) 9) = true := by decide +kernel
/-- R40, R127: `add.i64 v1, v2, v3`: OP 0x20, M 0, G 48, D 1, A 2, B 3, L 0. -/
theorem test_add_word : reads (3 * 2 ^ 37 + 2 * 2 ^ 27 + 1 * 2 ^ 17 + 48 * 2 ^ 10 + 0x20 * 2 ^ 2) (.add (ops (.v 1) (.v 2) (.v 3)) .i64 false) = true := by
  decide +kernel
/-- 04_lane_alu.md: `fadd.f32x2 v5, v4, v3`. -/
theorem test_fadd_word : reads 0x0090_0060_200A_C100 (.fadd (ops (.v 5) (.v 4) (.v 3)) ⟨.f32x2, .rne, false⟩) = true := by decide +kernel
/-- 04_lane_alu.md: `ffma.f32x2 v6, v5, v2, v1`. -/
theorem test_ffma_word : reads (0x0090_0040_280C_C10D + 2 ^ 64 * 1) (.ffma (ops (.v 6) (.v 5) (.v 2) (.v 1)) ⟨.f32x2, .rne, false⟩) = true := by
  decide +kernel
/-- R150, R40: `cvt.f32.i32 v1, v2`: M is DTYPE 15, STYPE 1 in [9:5], RM 0. -/
theorem test_cvt_word : reads ((15 + 32 * 1) * 2 ^ 51 + 2 * 2 ^ 27 + 1 * 2 ^ 17 + 48 * 2 ^ 10 + 0x54 * 2 ^ 2) (.cvt (ops (.v 1) (.v 2)) .f32 .i32 .rne) = true := by
  decide +kernel
/-- R155, R40: `shfl.idx v1, v2, 5` over the whole course. -/
theorem test_shfl_word : reads (4 * 2 ^ 51 + 0x305 * 2 ^ 37 + 2 * 2 ^ 27 + 1 * 2 ^ 17 + 48 * 2 ^ 10 + 0x60 * 2 ^ 2) (.shfl (ops (.v 1) (.v 2) (.imm 5)) 0 0) = true := by
  decide +kernel
/-- 05_load_store_engine.md: `ldl.n32 v10, v7, k10, 0`. -/
theorem test_ldl_word : reads 0x0010_2140_3814_C1C9 (.ldl (ops (.v 10) (.v 7) (.k 10)) ⟨.n32, 0, false, 0⟩) = true := by decide +kernel
/-- 05_load_store_engine.md: `stl.n32 v6, k10, k0, -1024`. -/
theorem test_stl_word : reads (0x0010_2140_3000_C1CD + 2 ^ 64 * 0xC000_0100) (.stl (ops .none (.v 6) (.k 10) (.k 0)) ⟨.n32, 0, false, -1024⟩) = true := by
  decide +kernel
/-- 06_slice_engine.md: `cflush.dev v3, v8, k0`. -/
theorem test_cflush_word : reads 0x6000_2000_4006_C245 (.cflush (ops (.v 3) (.v 8) (.k 0)) .dev 0) = true := by decide +kernel
/-- R214: `fence.sc.dev`. -/
theorem test_fence_word : reads 0x01B0_0000_0000_C240 (.fence (ops) true true true .dev) = true := by decide +kernel
/-- 07_service_course.md: `atom.cas.dev.n64 v4, v2, v3, v5` with `.acq`. -/
theorem test_atom_word : reads (0x6720_0060_1008_C281 + 2 ^ 64 * 0x4000_0005) (.atom (ops (.v 4) (.v 2) (.v 3) (.v 5)) .cas .n64 ⟨true, false⟩ .dev 0) = true := by
  decide +kernel
/-- R246: `dalloc v8, v4, k0, p7`. -/
theorem test_dalloc_word : reads 0x0038_2000_2010_C298 (.dalloc (ops (.v 8) (.v 4) (.k 0)) 7) = true := by decide +kernel
/-- 08_slip_engine.md: `rwait v9, k12`. -/
theorem test_rwait_word : reads 0x0000_0008_6012_C2D4 (.rwait (ops (.v 9) (.k 12))) = true := by decide +kernel
/-- 08_slip_engine.md: the `slip` of the example, with its guard `?p1`. -/
theorem test_slip_word : reads (0x0000_0048_420A_06C2 + 2 ^ 64 * 3 + 2 ^ 96 * 0x4000)
    (.slipLd ⟨⟨some 1, false⟩, .k 5, sv (.k 8), sv (.v 2), sv (.v 3), 0⟩ false ⟨0, 0x4000, false, false⟩) = true := by decide +kernel
/-- 09_wheel_engine.md: `wcfg v9, 7`. -/
theorem test_wcfg_word : reads 0x0000_0018_3812_C300 (.wcfg (ops (.v 9) (.imm 7))) = true := by decide +kernel
/-- 09_wheel_engine.md: `wloop.t0.zero.bf16.bf16 k0, k20, k21, k22`. -/
theorem test_wloop_word : reads (0x0000_22A8_A200_C30A + 2 ^ 64 * 0x116 + 2 ^ 96 * 0x400)
    (.wloop (ops (.k 0) (.k 20) (.k 21) (.k 22)) ⟨0, 0, true, false, 0, false, 0⟩) = true := by decide +kernel
/-- 10_coil_engine.md: `cdef.addmul.affine`. -/
theorem test_cdef_word : reads 0x0040_0000_0000_C340 (.cdef (ops) ⟨.addmul, .affine⟩ 0) = true := by decide +kernel
/-- 10_coil_engine.md: `cjob.chain.send.core k5, k20, 256, 64`. -/
theorem test_cjob_word : reads (0x2000_0008_A20A_C346 + 2 ^ 96 * 0x0003_3FFF) (.cjob (ops (.k 5) (.k 20)) ⟨.core, 0, true, 2, 63, 255⟩) = true := by
  decide +kernel
/-- 11_node_dispatcher.md: `nlaunch.p2 v5, v8`. -/
theorem test_nlaunch_word : reads 0x0010_0000_400A_C369 (.nlaunch (ops (.v 5) (.v 8)) 2 false) = true := by decide +kernel
/-- 13_fabric_port.md: `gst.n64 v42, v41, k15, v40`. -/
theorem test_gst_word : reads (0x0018_21E1_4854_C381 + 2 ^ 64 * 0x28) (.gst (ops (.v 42) (.v 41) (.k 15) (.v 40)) .n64 0) = true := by
  decide +kernel
/-- 13_fabric_port.md: `fbar v26, 7`. -/
theorem test_fbar_word : reads 0x0000_0018_3834_C390 (.fbar (ops (.v 26) (.imm 7))) = true := by decide +kernel
/-- R53: the word of all ones is ILLEGAL; a length that is not the opcode's has reason 0x03 (R54). -/
theorem test_ones_refused : refuses 0xFFFF_FFFF_FFFF_FFFF 1 = true := by decide +kernel
/-- R214: SCOPE 10 has reason 0x0B. -/
theorem test_fence_scope_refused : refuses (10 * 2 ^ 51 + 48 * 2 ^ 10 + 0x90 * 2 ^ 2) 0x0B = true := by decide +kernel
/-- The encoder writes the spec's word. -/
theorem test_encode_gst : encode (.gst (ops (.v 42) (.v 41) (.k 15) (.v 40)) .n64 0) = some (0x0018_21E1_4854_C381 + 2 ^ 64 * 0x28) := by
  decide +kernel

/-! ### States in which the hypotheses of the statements hold together -/

/-- What Ready asks for, as a Bool. -/
def readyB (o : Ops) (p : Pro) (s : State) (t c : Nat) (h : Cohort) : Bool :=
  let ls := if p.one then s.performers t c h o.g true else s.activeOf t c h
  let ps := s.performers t c h o.g p.one
  s.focus == some (t, c) && (s.course t c).coh == some h &&
  o.g.p.all (fun n => (s.activeOf t c h).all (fun l => !eGet (s.lane t c l).pE n)) &&
  (!p.priv.isSome || (s.team t).sup) &&
  (p.sources o).all (fun x => (eqOf x.2.op).all (fun n => portFault s t c n false == none)) &&
  (p.d != .full || (eqOf o.d).all (fun n => portFault s t c n true == none)) &&
  ps.all (fun l => (p.sources o ++ [(0, ({ op := o.d } : Src))]).all (fun x =>
    fieldFault (s.team t).split.regs (s.lane t c l) o.ib x.1 x.2.op == none)) &&
  ls.all (fun l => (p.sources o).all (fun x => !(x.2.w || isPred x.2.op) || s.srcFull t c l o x.2.op)) &&
  (p.d != .full || ls.all (fun l => s.dstFull t c l o o.d)) &&
  (p.d != .counter || (match o.d with
    | .k k => !s.produces t k
    | _ => true)) &&
  p.pred.all (fun n => ls.all (fun l => !eGet (s.lane t c l).pE n)) &&
  ps.all (fun l => (p.sources o).all (fun x => (p.ownA && x.1 == 1) || s.srcFull t c l o x.2.op)) &&
  ps.all (fun l => (p.sources o).all (fun x => (p.ownA && x.1 == 1) || !srcBad (s.team t) (s.lane t c l) o.ib x.2.op))

theorem ready_of {o : Ops} {p : Pro} {s : State} {t c : Nat} {h : Cohort} (H : readyB o p s t c h = true) : Ready o p s t c h := by
  simp only [readyB, Bool.and_eq_true, List.all_eq_true, Option.all_eq_true, beq_iff_eq, bne_iff_ne, Bool.or_eq_true, Bool.not_eq_true', ne_eq] at H
  obtain ⟨⟨⟨⟨⟨⟨⟨⟨⟨⟨⟨⟨h1, h2⟩, h3⟩, h4⟩, h5⟩, h6⟩, h7⟩, h8⟩, h9⟩, hc⟩, h10⟩, h11⟩, h12⟩ := H
  constructor
  · exact h1
  · exact h2
  · exact fun n hn => h3 n (by simp [hn])
  · intro hp; simpa [hp] using h4
  · exact fun x hx n hn => h5 x hx n (by simp [hn])
  · exact fun hd n hn => h6.resolve_left (by simp [hd]) n (by simp [hn])
  · exact h7
  · intro l hl x hx hw
    rcases h8 l hl x hx with h | h
    · simp_all
    · exact h
  · exact fun hd => h9.resolve_left (by simp [hd])
  · intro hd k hk
    have := hc.resolve_left (by simp [hd])
    simpa [hk] using this
  · exact fun n hn => h10 n (by simp [hn])
  · intro l hl x hx hw
    rcases h11 l hl x hx with h | h
    · simp_all
    · exact h
  · intro l hl x hx hw
    rcases h12 l hl x hx with h | h
    · simp_all
    · exact h

/-- The instruction has a next state. -/
def goesOn (x : Host.Outcome State Fault Refusal) : Bool := match x with
  | .next _ => true
  | _ => false

/-- What holds of lane 0 holds of every lane that a list with only lane 0 names. -/
theorem only0 {p : Nat → Prop} {ls : List Nat} (h : ls = [0]) (h0 : p 0) : ∀ l ∈ ls, p l := by
  subst h; intro l hl; simp at hl; subst hl; exact h0

/-- One supervisor team of one lane that stands at an instruction, in focus; its registers hold 0. -/
def demo : State := { State.reset.load 0 with focus := some (0, 0) }
def demoCoh : Cohort := { lanes := [0], pc := 8, issued := 0 }
/-- The same with values in the lane's registers. -/
def demoV (rs : List (Nat × Word)) : State := demo.modLane 0 0 0 (fun L => { L with v := rs })
/-- The same with a change of the team. -/
def demoT (f : Team → Team) : State := demo.modTeam 0 f

/-- IntegerArithmetic to MxConversions: the operand checks that they assume hold, and the instructions complete. -/
theorem test_plain_ready : Ready (ops (.v 1) (.v 2) (.v 3) (.v 4)) plainPro demo 0 0 demoCoh ∧ tyInt .i64 = true ∧ tyFlt .f32x2 = true ∧
    Ready (ops (.v 1) (.v 2) (.v 3) (.p 1)) plainPro demo 0 0 demoCoh ∧ Ready (ops (.p 1) (.v 2) (.v 3)) plainPro demo 0 0 demoCoh :=
  ⟨ready_of (by decide +kernel), rfl, rfl, ready_of (by decide +kernel), ready_of (by decide +kernel)⟩
/-- R129: `add.i64 v1, v2, v3` with 7 and -9. -/
theorem test_add_runs : (match exec (.add (ops (.v 1) (.v 2) (.v 3)) .i64 false) (demoV [(2, 7), (3, BitVec.ofInt 64 (-9))]) with
    | .next s => (s.lane 0 0 0).vGet 1 == BitVec.ofInt 64 (-2)
    | _ => false) = true := by decide +kernel
/-- MovesAddressesAndCarry, the clause of `addc`. -/
theorem test_addc_ready : Ready (ops (.v 1) (.v 2) (.v 3) (.p 1)) { pred := some 2 } demo 0 0 demoCoh ∧
    goesOn (exec (.addc (ops (.v 1) (.v 2) (.v 3) (.p 1)) .n64 true (some 2)) demo) = true := ⟨ready_of (by decide +kernel), by decide +kernel⟩
/-- CrossLane: every source lane is lane 0; the contributors are lane 0, and an exclusive scan has none. -/
theorem test_crosslane_ready : CrossReady (ops (.v 1) (.v 2) (.imm 0)) demo 0 0 demoCoh (fun l => [if l ∈ demo.activeOf 0 0 demoCoh then l else l]) ∧
    CrossReady (ops (.v 1) (.v 2)) demo 0 0 demoCoh (fun l => l :: demo.contributors 0 0 demoCoh ng 0 l) ∧
    goesOn (exec (.shfl (ops (.v 1) (.v 2) (.imm 0)) 0 0) demo) = true :=
  ⟨by refine ⟨ready_of ?_, ?_, ?_, ?_⟩ <;> decide +kernel, by refine ⟨ready_of ?_, ?_, ?_, ?_⟩ <;> decide +kernel,
    by decide +kernel⟩
/-- IndexAndQueueRegisters. -/
theorem test_xset_ready : Ready (ops (.x 1) (.v 2)) { d := .none } demo 0 0 demoCoh ∧ Ready (ops (.x 1) (.x 2) (.v 1)) { d := .none } demo 0 0 demoCoh ∧
    goesOn (exec (.xadd (ops (.x 1) (.x 2) (.v 1))) demo) = true := by refine ⟨ready_of ?_, ready_of ?_, ?_⟩ <;> decide +kernel
theorem test_qbind_ready : Ready (ops (.eq 1) (.imm 1)) { d := .none } demo 0 0 demoCoh ∧ demo.chosenLane 0 0 demoCoh ng = some 0 ∧
    (demo.team 0).portOf 1 = 0 ∧ Ready (ops (.v 1) (.eq 1)) { nA := true } demo 0 0 demoCoh :=
  by refine ⟨ready_of ?_, ?_, ?_, ready_of ?_⟩ <;> decide +kernel
/-- SystemRegisterRead and SystemRegisterWrite, for a supervisor register. -/
theorem test_srd_ready : Ready (ops (.v 1)) { priv := some (0x02, 0x103) } demo 0 0 demoCoh ∧ goesOn (exec (.srd (ops (.v 1)) 0x103) demo) = true ∧
    Ready (ops .none (.v 1)) { d := .none, priv := some (0x02, 0x105) } demo 0 0 demoCoh :=
  by refine ⟨ready_of ?_, ?_, ready_of ?_⟩ <;> decide +kernel
/-- Transfers: the loaded line marks granule 0 as a target. -/
theorem test_transfer_ready : Ready (ops) { d := .none } demo 0 0 demoCoh ∧ demo.markFault 0 false 8 = none ∧ demo.markFault 0 true 8 = none ∧
    Ready (ops (.v 1)) plainPro demo 0 0 demoCoh ∧ goesOn (exec (.call (ops (.v 1)) 0) demo) = true :=
  by refine ⟨ready_of ?_, ?_, ?_, ready_of ?_, ?_⟩ <;> decide +kernel
theorem test_ret_ready : let s := demo.modLane 0 0 0 (fun L => { L with depth := 1, v := [(1, 8)] })
    Ready (ops .none (.v 1)) { d := .none } s 0 0 demoCoh ∧ (s.lane 0 0 0).depth ≠ 0 ∧ goesOn (exec (.ret (ops .none (.v 1))) s) = true :=
  by refine ⟨ready_of ?_, ?_, ?_⟩ <;> decide +kernel
/-- TrapEntry, both clauses: UTVEC enabled with SWTRAP admitted, and UTVEC not enabled. -/
theorem test_trap_ready : let s := demoT (fun T => { T with sup := false, utvec := 1, utmask := 2 ^ 0x18 })
    let s' := demoT (fun T => { T with sup := false })
    Ready (ops) { d := .none } s 0 0 demoCoh ∧ (s.team 0).utmask.getLsbD 0x18 = true ∧ wfld (s.team 0).utmask 56 8 + 7 < (s.team 0).split.regs ∧
    Ready (ops) { d := .none } s' 0 0 demoCoh ∧ 0 ∈ s'.performers 0 0 demoCoh ng false ∧
    goesOn (exec (.trap (ops) 5) s) = true ∧ goesOn (exec (.trap (ops) 5) s') = true :=
  by refine ⟨ready_of ?_, ?_, ?_, ready_of ?_, ?_, ?_, ?_⟩ <;> decide +kernel
/-- TrapEntry: supervisor mode with STVEC enabled and not, and a class that a user program does not accept. -/
theorem test_trap_ways : let s := demo.modCourse 0 0 (fun C => { C with stvec := 1 })
    let u := demoT (fun T => { T with sup := false, utvec := 1, utmask := 2 ^ 0x16 })
    Ready (ops) { d := .none } s 0 0 demoCoh ∧ ((s.course 0 0).stvecAt (s.cycle (s.colOf 0))).getLsbD 0 = true ∧ (s.team 0).sup = true ∧
    (s.lane 0 0 0).intrap = false ∧ Ready (ops) { d := .none } u 0 0 demoCoh ∧ (u.team 0).utmask.getLsbD 0x18 = false ∧
    goesOn (exec (.trap (ops) 5) s) = true ∧ goesOn (exec (.trap (ops) 5) demo) = true ∧ goesOn (exec (.trap (ops) 5) u) = true :=
  by refine ⟨ready_of ?_, ?_, ?_, ?_, ready_of ?_, ?_, ?_, ?_, ?_⟩ <;> decide +kernel
/-- FPX of the float statements: FPCR enables NV, and `fadd` meets a signalling NaN: the lane takes the trap state of class 0x12 (R97). -/
theorem test_fpx : let s := (demoV [(1, 9), (2, 0x7FA0_0000)]).modTeam 0 (fun T => { T with sup := false, fpcr := 16 })
    Ready (ops (.v 1) (.v 2) (.v 3)) plainPro s 0 0 demoCoh ∧ s.enabled 0 = 16 ∧
    (match exec (.fadd (ops (.v 1) (.v 2) (.v 3)) ⟨.f32x2, .rne, false⟩) s with
      | .next s => (s.lane 0 0 0).ltcause == 0x12 && (s.lane 0 0 0).ltpc == 8 && (s.lane 0 0 0).vGet 1 == 9 && (s.course 0 0).fpsr == 16
      | _ => false) = true :=
  by refine ⟨ready_of ?_, ?_, ?_⟩ <;> decide +kernel
/-- TrapReturn in both modes. -/
theorem test_tret_ready : let s := demo.modLane 0 0 0 (fun L => { L with intrap := true })
    let u := s.modTeam 0 (fun T => { T with sup := false })
    Ready (ops) { d := .none } u 0 0 demoCoh ∧ Ready (ops) { d := .none } s 0 0 demoCoh ∧ goesOn (exec (.tret (ops)) u) = true ∧
    goesOn (exec (.sret (ops)) s) = true :=
  by refine ⟨ready_of ?_, ready_of ?_, ?_, ?_⟩ <;> decide +kernel
/-- Trailer: a batch of one instruction. -/
theorem test_btl_ready : let s := demo.modCourse 0 0 (fun C => { C with coh := some { demoCoh with issued := 1 } })
    s.focus = some (0, 0) ∧ (s.course 0 0).coh = some { demoCoh with issued := 1 } ∧ 0 < (s.team 0).courses.length ∧
    (∀ L ∈ (s.course 0 0).lanes, L.defs = [] ∧ L.cone = none) ∧ goesOn (exec (.btl (ops (.k 0) (.k 0) (.k 0)) 1 false) s) = true := by
  decide +kernel

/-- An aligned access of the demo team at address 0 that its one translation serves. -/
def accOk (s : State) (x : Word) (k : AccessKind) (n : Nat) (dst : Bool) : Bool :=
  (match s.translate 0 0 x k with
    | .hit e a => a == 0 && e.pte == 0x1F
    | _ => false) && lockFault (s.core (s.team 0).core) (.glob (s.team 0).asid) x (va56 x) n dst == none && x.toNat % n == 0

theorem accOk_of {s : State} {x : Word} {k : AccessKind} {n : Nat} {dst : Bool} (h : accOk s x k n dst = true) :
    x.toNat % n = 0 ∧ s.mapped 0 0 x k 0 0x1F ∧ s.unlockedAt 0 x n dst := by
  simp only [accOk, Bool.and_eq_true, beq_iff_eq] at h
  obtain ⟨⟨h1, h2⟩, h3⟩ := h
  refine ⟨h3, ?_, h2⟩
  split at h1
  · rename_i e a heq
    simp only [Bool.and_eq_true, beq_iff_eq] at h1
    exact ⟨e, by rw [heq, h1.1], h1.2⟩
  · cases h1

/-- GlobalLoads. -/
theorem test_ld_ready : let s := demo
    Ready (ops (.v 1) (.v 2) (.k 0)) { one := false } s 0 0 demoCoh ∧
    (∀ l ∈ s.performers 0 0 demoCoh ng false, accOk s (s.srcWord 0 0 l (ops) (.v 2) + s.srcWord 0 0 l (ops) (.k 0) + wordOfInt 0) .load 8 true = true) ∧
    goesOn (exec (.ld (ops (.v 1) (.v 2) (.k 0)) ⟨.n64, none, 0, 0, 0⟩) s) = true := by refine ⟨ready_of ?_, ?_, ?_⟩ <;> decide +kernel
theorem test_ldk_ready : let s := demo
    Ready (ops (.k 1) (.k 2) (.k 0)) { one := true } s 0 0 demoCoh ∧
    (∀ l ∈ s.performers 0 0 demoCoh ng true, accOk s (s.srcWord 0 0 l (ops) (.k 2) + s.srcWord 0 0 l (ops) (.k 0) + wordOfInt 0) .load 8 true = true) ∧
    goesOn (exec (.ldk (ops (.k 1) (.k 2) (.k 0)) ⟨.n64, none, 0, 0, 0⟩) s) = true := by refine ⟨ready_of ?_, ?_, ?_⟩ <;> decide +kernel
/-- GlobalLoads: a line that the core's L1 keeps. -/
theorem test_l1_hit : let s := demo.modCore 0 (fun k => { k with l1 := [⟨0, 0, 0, List.replicate 64 7⟩] })
    s.l1Serves { id := 0, kind := .load, team := 0, crs := 0, lane := 0, core := 0, size := 8 } = true ∧ ((s.core (s.team 0).core).l1At 0 0).isSome = true ∧
    (match exec (.ld (ops (.v 1) (.v 2) (.k 0)) ⟨.n8, none, 0, 0, 0⟩) s with
      | .next s => s.flights.all (fun f => f.stage == 1 && f.val == 7) && !s.flights.isEmpty
      | _ => false) = true := by decide +kernel
/-- GlobalStoresAndPrefetch. -/
theorem test_st_ready : let s := demo
    let o := ops .none (.v 1) (.k 0) (.v 2)
    Ready o { d := .none } s 0 0 demoCoh ∧
    (∀ l ∈ s.livePerf 0 0 demoCoh ng, accOk s (s.srcWord 0 0 l (ops) (.v 1) + s.srcWord 0 0 l (ops) (.k 0) + wordOfInt 0) .store 8 false = true) ∧
    s.windowAt 0 = none ∧ goesOn (exec (.st o ⟨.n64, none, false, 0⟩) s) = true ∧ goesOn (exec (.pf o false 0 0) s) = true :=
  by refine ⟨ready_of ?_, ?_, ?_, ?_, ?_⟩ <;> decide +kernel
/-- LocalAccesses, at the last word of the team's local memory. -/
theorem test_ldl_ready : let s := demoT (fun T => { T with k := [(1, 65528)] })
    Ready (ops (.v 1) (.k 1) (.k 0)) {} s 0 0 demoCoh ∧ (∀ l ∈ s.performers 0 0 demoCoh ng false, s.srcWord 0 0 l (ops) (.k 1) = 65528 ∧
      65528 < (s.team 0).split.loc * 1024 ∧ s.ofLane 0 0 l = [] ∧ s.acqAfter 0 0 l = []) ∧
    (s.team 0).absent = [] ∧ (s.team 0).locBad 65528 8 = false ∧
    goesOn (exec (.ldl (ops (.v 1) (.k 1) (.k 0)) ⟨.n64, 0, false, 0⟩) s) = true :=
  by refine ⟨ready_of ?_, ?_, ?_, ?_, ?_⟩ <;> decide +kernel
theorem test_stl_ready : let s := demo
    Ready (ops .none (.v 1) (.k 0) (.v 2)) { d := .none } s 0 0 demoCoh ∧ lockFault (s.core (s.team 0).core) (.loc 0) 0 0 8 false = none ∧
    goesOn (exec (.stl (ops .none (.v 1) (.k 0) (.v 2)) ⟨.n64, 0, false, 0⟩) s) = true :=
  by refine ⟨ready_of ?_, ?_, ?_⟩ <;> decide +kernel
/-- LocalAccesses and LocalAtomics while an earlier atomic of the lane waits at the unit: what comes after waits there too. -/
theorem test_local_waits : let s := { demo with flights := [{ id := 0, kind := .latom, team := 0, crs := 0, lane := 0, core := 0 }], nextId := 1 }
    Ready (ops (.v 1) (.v 2) (.k 0)) {} s 0 0 demoCoh ∧ Ready (ops .none (.v 2) (.k 0) (.v 3)) { d := .none } s 0 0 demoCoh ∧ ¬s.localFree 0 0 0 ∧
    (∀ i ∈ [Instr.ldl (ops (.v 1) (.v 2) (.k 0)) ⟨.n64, 0, false, 0⟩, .stl (ops .none (.v 2) (.k 0) (.v 3)) ⟨.n64, 0, false, 0⟩,
        .latom (ops (.v 1) (.v 2) (.v 3)) ⟨.add, .n64, false, 0, 0⟩, .lpresClr (ops .none (.v 2) (.v 3)) 0, .lpresSet (ops .none (.v 2) (.v 3)) 0],
      (match exec i s with
        | .next s => 2 ≤ s.flights.length && s.flights.all (·.stage == 0)
        | _ => false) = true) :=
  by unfold State.localFree; refine ⟨ready_of ?_, ready_of ?_, ?_, ?_⟩ <;> decide +kernel
/-- RemoteAccesses: a team that is in no gang is its one member. -/
theorem test_ldr_ready : let s := demo
    Ready (ops (.v 1) (.v 2) (.k 0)) {} s 0 0 demoCoh ∧ (s.team 0).gangsize = 1 ∧
    lockFault (s.core (s.team 0).core) (.rem (s.target 0 0) 0) 0 0 8 false = none ∧
    goesOn (exec (.ldr (ops (.v 1) (.v 2) (.k 0)) ⟨.n64, 0, false, 0⟩) s) = true ∧
    goesOn (exec (.str (ops .none (.v 2) (.k 0) (.v 3)) ⟨.n64, 0, false, 0⟩) s) = true :=
  by refine ⟨ready_of ?_, ?_, ?_, ?_, ?_⟩ <;> decide +kernel
/-- LocalAtomics, at the unit and at a member of the gang. -/
theorem test_latom_ready : let s := demo
    Ready (ops (.v 1) (.v 2) (.v 3)) {} s 0 0 demoCoh ∧ s.livePerf 0 0 demoCoh ng = [0] ∧ fitsTy .add .n64 = true ∧
    goesOn (exec (.latom (ops (.v 1) (.v 2) (.v 3)) ⟨.add, .n64, false, 0, 0⟩) s) = true ∧
    goesOn (exec (.latom (ops (.v 1) (.v 2) (.v 3)) ⟨.add, .n64, true, 0, 0⟩) s) = true :=
  by refine ⟨ready_of ?_, ?_, ?_, ?_, ?_⟩ <;> decide +kernel
/-- PresenceBits. -/
theorem test_lpres_ready : let s := demo
    Ready (ops (.v 1) (.v 2)) {} s 0 0 demoCoh ∧ Ready (ops .none (.v 2) (.v 3)) { d := .none } s 0 0 demoCoh ∧
    goesOn (exec (.lpresQ (ops (.v 1) (.v 2)) 0) s) = true ∧ goesOn (exec (.lpresClr (ops .none (.v 2) (.v 3)) 0) s) = true :=
  by refine ⟨ready_of ?_, ready_of ?_, ?_, ?_⟩ <;> decide +kernel
/-- TranslationControl. -/
theorem test_tlbi_ready : let s := demo
    Ready (ops (.v 1) (.v 2) (.v 3)) { priv := some (0x01, 0) } s 0 0 demoCoh ∧ s.chosenLane 0 0 demoCoh ng = some 0 ∧
    wfld (s.srcWord 0 0 0 (ops) (.v 2)) 16 48 = 0 ∧ goesOn (exec (.tlbi (ops (.v 1) (.v 2) (.v 3)) 1 .core) s) = true ∧
    goesOn (exec (.asgen (ops (.v 1) (.v 2))) s) = true :=
  by refine ⟨ready_of ?_, ?_, ?_, ?_, ?_⟩ <;> decide +kernel
/-- FencesAndRanges: nothing in flight, a range of one granule, and a range of none. -/
theorem test_range_ready : let s := demoV [(3, 1)]
    let o := ops (.v 1) (.v 2) (.v 3)
    Ready (ops) { d := .none } s 0 0 demoCoh ∧ s.flights = [] ∧ Ready o {} s 0 0 demoCoh ∧
    (∀ l ∈ s.livePerf 0 0 demoCoh ng, accOk s (s.srcWord 0 0 l (ops) (.v 2) + wordOfInt 0) .load 64 false = true ∧ (s.srcWord 0 0 l (ops) (.v 3)).toNat = 1) ∧
    s.windows = [] ∧ goesOn (exec (.fence (ops) true true true .dev) s) = true ∧ goesOn (exec (.cflush o .dev 0) s) = true ∧
    goesOn (exec (.cinv o .dev 0) s) = true ∧ goesOn (exec (.cflush o .dev 0) demo) = true :=
  by refine ⟨ready_of ?_, ?_, ready_of ?_, ?_, ?_, ?_, ?_, ?_, ?_⟩ <;> decide +kernel
/-- HomeRequests. -/
theorem test_atom_ready : let s := demo
    let o := ops (.v 1) (.v 2) (.v 3) (.v 4)
    Ready o {} s 0 0 demoCoh ∧ Ready (ops .none (.v 2) (.v 3)) { d := .none } s 0 0 demoCoh ∧
    (∀ k ∈ [AccessKind.atomic, .load, .store], ∀ l ∈ s.livePerf 0 0 demoCoh ng, accOk s (s.srcWord 0 0 l (ops) (.v 2) + wordOfInt 0) k 8 false = true) ∧
    s.windowAt 0 = none ∧ pteAttr 0x1F = 0 ∧ pteFmode 0x1F = 0 ∧ goesOn (exec (.atom o .cas .n64 ⟨true, true⟩ .dev 0) s) = true ∧
    goesOn (exec (.nred (ops .none (.v 2) (.v 3)) .add .n64 .dev 0) s) = true ∧ goesOn (exec (.wwait (ops (.v 1) (.v 2) (.v 3)) 0 0) s) = true ∧
    goesOn (exec (.wwake (ops .none (.v 2) (.v 3))) s) = true :=
  by refine ⟨ready_of ?_, ready_of ?_, ?_, ?_, ?_, ?_, ?_, ?_, ?_, ?_⟩ <;> decide +kernel
/-- WindowsAndAllocation. -/
theorem test_mswin_ready : let s := demoV [(2, 3), (3, 32)]
    Ready (ops (.v 1) (.v 2) (.v 3)) { priv := some (0x01, 0) } s 0 0 demoCoh ∧ s.chosenLane 0 0 demoCoh ng = some 0 ∧
    (s.srcWord 0 0 0 (ops) (.v 2)).toNat < 4 ∧ (s.srcWord 0 0 0 (ops) (.v 3)).toNat ≤ 32 ∧ (∀ q, (s.column q).waits = []) ∧
    goesOn (exec (.mswin (ops (.v 1) (.v 2) (.v 3))) s) = true :=
  ⟨ready_of (by decide +kernel), by decide +kernel, by decide +kernel, by decide +kernel, fun _ => rfl, by decide +kernel⟩
theorem test_dalloc_ready : let s := demoV [(2, 64), (3, 64)]
    Ready (ops (.v 1) (.v 2) (.v 3)) { pred := some 1 } s 0 0 demoCoh ∧ (∀ l ∈ s.livePerf 0 0 demoCoh ng, s.srcWord 0 0 l (ops) (.v 2) ≠ 0 ∧
      (s.srcWord 0 0 l (ops) (.v 3)).toNat = 2 ^ 6) ∧ goesOn (exec (.dalloc (ops (.v 1) (.v 2) (.v 3)) 1) s) = true ∧
    Ready (ops .none (.v 2)) { d := .none } s 0 0 demoCoh ∧ goesOn (exec (.dfree (ops .none (.v 2))) s) = true :=
  by refine ⟨ready_of ?_, ?_, ?_, ready_of ?_, ?_⟩ <;> decide +kernel

/-- A lane with an open transaction. -/
def demoTx (x : Txn) : State := demo.modLane 0 0 0 (fun L => { L with tx := x })
/-- Transactions: a word that has not been read, one that has, an empty footprint, and one that goes to its owner. -/
theorem test_tx_ready : let s := demoTx { opened := true }
    let r := demoTx { opened := true, line := some 0, rset := [(0, 5)] }
    let o := ops (.v 1) (.v 2) (.k 0)
    Ready o {} s 0 0 demoCoh ∧ (∀ l ∈ s.livePerf 0 0 demoCoh ng, s.txWord 0 0 l false (s.srcWord 0 0 l (ops) (.v 2)) (loadTlb 0) 0) ∧
    Ready o {} r 0 0 demoCoh ∧ (∀ l ∈ r.livePerf 0 0 demoCoh ng, r.txWord 0 0 l false (r.srcWord 0 0 l (ops) (.v 2)) (loadTlb 0) 0) ∧
    goesOn (exec (.txld o 0) s) = true ∧ goesOn (exec (.txld o 0) r) = true :=
  ⟨ready_of (by decide +kernel), only0 (by decide +kernel) (by unfold State.txWord State.unlockedAt; decide +kernel), ready_of (by decide +kernel),
    only0 (by decide +kernel) (by unfold State.txWord State.unlockedAt; decide +kernel), by decide +kernel, by decide +kernel⟩
theorem test_txe_ready : let s := demoTx { opened := true, line := some 0, rset := [(0, 5)] }
    let o := ops .none (.v 2) (.k 0) (.v 3)
    Ready (ops (.v 1)) { pred := some 1 } s 0 0 demoCoh ∧ Ready o { d := .none } s 0 0 demoCoh ∧
    (∀ l ∈ s.livePerf 0 0 demoCoh ng, s.txWord 0 0 l true (s.srcWord 0 0 l (ops) (.v 2)) (loadTlb 0) 0) ∧ goesOn (exec (.txst o 0) s) = true ∧
    goesOn (exec (.txe (ops (.v 1)) ⟨true, true⟩ .dev 1) s) = true ∧ goesOn (exec (.txe (ops (.v 1)) ⟨true, true⟩ .dev 1) (demoTx { opened := true })) = true ∧
    goesOn (exec (.txb (ops)) s) = true :=
  ⟨ready_of (by decide +kernel), ready_of (by decide +kernel), only0 (by decide +kernel) (by unfold State.txWord State.unlockedAt; decide +kernel),
    by decide +kernel, by decide +kernel, by decide +kernel, by decide +kernel⟩
/-- Transactions, an empty one with ORD: it is answered like a commit, and acquires when the answer lands. -/
theorem test_txe_empty : let s := demoTx { opened := true }
    Ready (ops (.v 1)) { pred := some 1 } s 0 0 demoCoh ∧
    (match exec (.txe (ops (.v 1)) ⟨true, true⟩ .dev 1) s with
      | .next s => s.flights.map (fun f => (f.stage, f.acq, f.wset.isEmpty)) == [(2, true, true)]
      | _ => false) = true := ⟨ready_of (by decide +kernel), by decide +kernel⟩

/-- R249, R250: a record at address 256, held by its slice, of one dimension of eight elements of 8 bytes; `ctl` holds SPACE, EFMT and SCOPE. -/
def demoRec (ctl : Nat) (s : State) : State :=
  let n := 4096 + (1 + ctl) * 2 ^ 64 + (8 + 2 ^ 32 + 2 ^ 64 + 2 ^ 96 + 2 ^ 128) * 2 ^ 128 + 7 * 2 ^ 288
  State.modCol { s with mem := memWrite s.mem 256 64 n } (s.home 256) (fun k => { k with blocks := [{ region := regionOf 256, s := 0, e := 63 }] })
/-- What recordAt asks for of a lane without an access in flight, at a page of this device, as a Bool. -/
def recOk (s : State) (t c l : Nat) (x : Word) (e : TlbEnt) (pa : Nat) : Bool :=
  let T := s.team t
  let sl := s.engSlice (s.engineOf t) e pa .load
  x.toNat % 64 == 0 && s.translate t c x .load == .hit e pa && lockFault (s.core T.core) (.glob T.asid) x (va56 x) 64 true == none &&
  (s.acqAfter t c l).isEmpty && (s.lane t c l).cls == .live && s.flights.isEmpty && pteFmode e.pte == 0 && e.gen == s.gen (s.home pa) T.asid &&
  s.sliceFree sl T.core && !s.queuedOn pa 64 && !s.beyondWindow pa && (List.range 8).all (fun j => !s.engPoison (T.core / 12) e (pa + 8 * j) 8)

theorem recordAt_of {s : State} {t c l : Nat} {x : Word} {e : TlbEnt} {pa : Nat} (h : recOk s t c l x e pa = true) : s.recordAt t c l x e pa := by
  simp only [recOk, Bool.and_eq_true, beq_iff_eq, List.isEmpty_iff, List.all_eq_true, List.mem_range, Bool.not_eq_true'] at h
  obtain ⟨⟨⟨⟨⟨⟨⟨⟨⟨⟨⟨h1, h2⟩, h3⟩, h4⟩, h5⟩, h6⟩, h7⟩, h8⟩, h9⟩, ha⟩, hb⟩, hc⟩ := h
  exact ⟨h1, h2, h3, by simp [h4], .inl h5, by simp [h6], by rw [if_pos h7]; exact ⟨h8, .inr (.inr ⟨h9, fun _ => ha⟩)⟩, fun _ => hb,
    hc, by simp [State.ofLane, h6]⟩

def slipOps : Ops := ops (.k 5) (.v 2) (.v 3) (.v 4)
/-- SlipCopies: a global tensor of 64 bytes. -/
theorem test_slip_ready : let s := demoRec 0x30 (demoV [(2, 256)])
    let r := tlrOf (s.recordRead 0 (loadTlb 0) 256).1
    Ready slipOps { d := .counter } s 0 0 demoCoh ∧ s.livePerf 0 0 demoCoh ng = [0] ∧ s.recordAt 0 0 0 256 (loadTlb 0) 256 ∧
    s.srcWord 0 0 0 (ops) (.v 2) = 256 ∧ tlrBads (s.recordRead 0 (loadTlb 0) 256).1 = [] ∧ r.boxBytes = 64 ∧ reportFault (s.team 0) 0x01 0x0F (.k 5) = none ∧
    (∀ f ∈ [SlipForm.mk 0 false none none ⟨0, 0, false, false⟩, ⟨1, false, none, none, ⟨0, 64, false, false⟩⟩, ⟨3, false, none, none, ⟨0, 0, true, true⟩⟩],
      f.agrees r = true ∧ f.coordsOk r (slipCoords 0 0) 0 = true ∧
      locksFree (s.core 0) ((readyRun slipOps { d := .counter } s 0 0 demoCoh).slipLocks f r (slipCoords 0 0) none s.nextId f.e.off 64) = true) :=
  ⟨ready_of (by decide +kernel), by decide +kernel, recordAt_of (by decide +kernel), by decide +kernel, by decide +kernel,
    by decide +kernel, by decide +kernel, by decide +kernel⟩
theorem test_slip_runs : let s := demoRec 0x30 (demoV [(2, 256)])
    goesOn (exec (.slipLd slipOps false ⟨0, 0, false, false⟩) s) = true ∧ goesOn (exec (.slipSt slipOps ⟨0, 64, false, false⟩) s) = true ∧
    goesOn (exec (.slipBs slipOps ⟨0, 0, true, true⟩) s) = true ∧ goesOn (exec (.slipc slipOps 3 ⟨0, 0, false, false⟩) s) = true ∧
    goesOn (exec (.slipRl slipOps false ⟨0, 0, false, false⟩) (demoRec 0x4038 (demoV [(2, 256)]))) = true := by decide +kernel
/-- R264, R257: the command waits in the Slip's queue, and the counter holds its bytes. -/
theorem test_slip_counts : (match exec (.slipLd slipOps false ⟨0, 0, false, false⟩) (demoRec 0x30 (demoV [(2, 256)])) with
    | .next s => (s.core 0).slips.map (·.bytes) == [64] && (s.team 0).kGet 5 == 64
    | _ => false) = true := by decide +kernel

/-- A ring of two slots of 64 bytes at offset 0 of the team's local memory, of which slot 0 is taken. -/
def demoRing : State := demoT (fun T => (((T.locWrite 0 8 2).locWrite 8 8 64).locWrite 16 48 0).locWrite 6 2 1)
/-- RingInstructions: a record is asked for its size, a ring is set up, waited for and released. -/
theorem test_tlr_ready : let s := (demoRec 0x30 (demoV [(2, 256)])).modCourse 0 0 (fun C => { C with lanes := C.lanes.modify 1 (fun L => { L with cls := .absent }) })
    let s := s.modCourse 0 0 (fun C => { C with lanes := (C.lanes.modify 2 (fun L => { L with cls := .absent })).modify 3 (fun L => { L with cls := .absent }) })
    Ready (ops (.v 1) (.v 2) (.v 3) (.v 4)) {} s 0 0 demoCoh ∧ s.performers 0 0 demoCoh ng false = [0] ∧ s.recordAt 0 0 0 256 (loadTlb 0) 256 ∧
    goesOn (exec (.tlr (ops (.v 1) (.v 2) (.v 3) (.v 4)) false) s) = true :=
  ⟨ready_of (by decide +kernel), by decide +kernel, recordAt_of (by decide +kernel), by decide +kernel⟩
theorem test_ring_ready : let s := demoRing
    Ready (ops .none (.v 2) (.v 3)) { d := .none } s 0 0 demoCoh ∧ s.chosenLane 0 0 demoCoh ng = some 0 ∧ (s.team 0).ringOk 0 = true ∧
    (s.team 0).ringN 0 = 2 ∧ bitN ((s.team 0).ringTaken 0) 0 = true ∧ s.ofLane 0 0 0 = [] ∧ s.ringWaiters 0 0 = [] ∧
    goesOn (exec (.rrel (ops .none (.v 2) (.v 3))) s) = true ∧ goesOn (exec (.rwait (ops (.v 1) (.v 2))) s) = true ∧
    goesOn (exec (.rinit (ops .none (.v 2) (.imm 64)) 2) demo) = true :=
  by refine ⟨ready_of ?_, ?_, ?_, ?_, ?_, ?_, ?_, ?_, ?_, ?_⟩ <;> decide +kernel
theorem test_half_ready : let s := demo.modCore 0 (fun k => { k with bring := { k.bring with owner := some 0, st0 := 2 } })
    (s.core (s.team 0).core).bring.st 0 = 2 ∧ goesOn (exec (.rrelB (ops .none .none (.imm 0))) s) = true ∧ goesOn (exec (.rwaitB (ops (.v 1))) s) = true ∧
    goesOn (exec (.rstatB (ops (.v 1))) s) = true ∧ goesOn (exec (.rstatStc (ops (.v 1))) s) = true := by decide +kernel

/-- A team that owns tile 0 and the B store. -/
def demoWheel (rs : List (Nat × Word)) : State :=
  ((demoV rs).modTeam 0 (fun T => { T with tiles := 1 })).modCore 0 (fun k => { k with bring := { k.bring with owner := some 0 } })
/-- WheelInstructions: tiles, accumulators, a loop of one K-step and a drain to local memory. -/
theorem test_wcfg_ready : let s := demoWheel [(2, 1)]
    Ready (ops (.v 1) (.v 2)) {} s 0 0 demoCoh ∧ (s.srcWord 0 0 0 (ops) (.v 2)).toNat < 2 ^ 16 ∧ s.teams.length = 1 ∧ (s.core 0).wheel = [] ∧
    goesOn (exec (.wcfg (ops (.v 1) (.v 2))) s) = true ∧ goesOn (exec (.wstat (ops (.v 1)) true) s) = true ∧
    goesOn (exec (.wzero (ops .none (.v 2))) s) = true ∧ goesOn (exec (.waccRd (ops (.v 1) (.v 3))) s) = true ∧
    goesOn (exec (.waccWr (ops .none (.v 3) (.v 4))) s) = true :=
  by refine ⟨ready_of ?_, ?_, ?_, ?_, ?_, ?_, ?_, ?_, ?_⟩ <;> decide +kernel
theorem test_wloop_ready : let s := demoWheel [(4, 1)]
    let o := ops (.k 5) (.v 2) (.v 3) (.v 4)
    let m : WloopM := ⟨0, 0, true, false, 0, false, 0⟩
    let d : WdrainM := ⟨0, 0, .core, false, 0, 0, 0, false, 0, 0, true, 0⟩
    Ready o { d := .counter } s 0 0 demoCoh ∧ wloopDescOk m 0 0 1 = true ∧ bHold 0 = false ∧ aEnd m 0 1 ≤ (s.team 0).locSize ∧ wBytes m.bfmt ≤ 4096 ∧
    reportFault (s.team 0) 0x10 0x1F (.k 5) = none ∧ goesOn (exec (.wloop o m) s) = true ∧
    (readyRun (ops (.k 5) (.v 2) (.v 3) (.v 2)) { d := .counter } s 0 0 demoCoh).wdrainFault d 0 0 0 = none ∧
    goesOn (exec (.wdrain (ops (.k 5) (.v 2) (.v 3) (.v 2)) d) s) = true :=
  by refine ⟨ready_of ?_, ?_, ?_, ?_, ?_, ?_, ?_, ?_, ?_⟩ <;> decide +kernel

/-- A team that owns Coil with the operator addmul.affine. -/
def demoCoil (rs : List (Nat × Word)) : State :=
  (demoV rs).modCore 0 (fun k => { k with coil := { k.coil with owner := some 0, coper := ⟨.addmul, .affine⟩, unsealed := [7] } })
/-- CoilInstructions: the operator, the status, a job of one step and channel, a seal, and a carry of one channel. -/
theorem test_coil_ready : let s := demoCoil [(3, 1)]
    Ready (ops (.v 1)) {} s 0 0 demoCoh ∧ Ready (ops) { d := .none } demo 0 0 demoCoh ∧ (demo.core 0).coil.owner = none ∧
    Ready (ops (.k 5) (.v 2) (.v 3)) { d := .counter } s 0 0 demoCoh ∧ (s.core (s.team 0).core).coil.owner = some 0 ∧
    reportFault (s.team 0) 0x21 0x21 (.k 5) = none ∧ goesOn (exec (.cstat (ops (.v 1)) true) s) = true ∧
    goesOn (exec (.cdef (ops) ⟨.addmul, .affine⟩ 0) demo) = true ∧ goesOn (exec (.cseal (ops)) s) = true ∧
    goesOn (exec (.cjob (ops (.k 5) (.v 2)) ⟨.core, 0, false, 0, 0, 0⟩) s) = true ∧
    goesOn (exec (.ccarSt (ops (.k 5) (.v 2) (.v 3)) .core true) s) = true ∧ goesOn (exec (.ccarLd (ops (.k 5) (.v 2) (.v 3)) .core false) s) = true :=
  by refine ⟨ready_of ?_, ready_of ?_, ?_, ready_of ?_, ?_, ?_, ?_, ?_, ?_, ?_, ?_, ?_⟩ <;> decide +kernel

/-- A node in the pool whose two teams have not signalled. -/
def demoNode : PoolNode := { node := 0, words := [], ord := 0, entered := 0, since := 0, headSince := 0 }
/-- A second course of the team, suspended. -/
def demoTwo (rs : List (Nat × Word)) : State :=
  let C : Course := { loadCourse 0 with num := 1, suspended := true, coh := none }
  (demoV rs).modTeam 0 (fun T => { T with courses := T.courses ++ [C] })
/-- NodesAndContext. -/
theorem test_nsig_ready : let s := { demo with pool := [demoNode] }
    Ready (ops) { d := .none } s 0 0 demoCoh ∧ s.poolNode? (s.team 0).record = some demoNode ∧ (s.team 0).signalled = false ∧
    s.nodeRem (s.team 0).record = 0 ∧ goesOn (exec (.nsig (ops)) s) = true ∧ goesOn (exec (.nwait (ops (.v 1))) s) = true :=
  by refine ⟨ready_of ?_, ?_, ?_, ?_, ?_, ?_⟩ <;> decide +kernel
theorem test_nlaunch_ready : let s := demoV [(2, 128)]
    Ready (ops (.v 1) (.v 2)) {} s 0 0 demoCoh ∧ (∀ l ∈ s.livePerf 0 0 demoCoh ng, s.translate 0 0 (s.srcWord 0 0 l (ops) (.v 2)) .launch = .hit (loadTlb 0) 128) ∧
    pteAttr (loadTlb 0).pte = 0 ∧ goesOn (exec (.nlaunch (ops (.v 1) (.v 2)) 3 false) s) = true :=
  by refine ⟨ready_of ?_, ?_, ?_, ?_⟩ <;> decide +kernel
theorem test_cload_ready : let s := demoTwo [(2, 2 ^ 14)]
    Ready (ops (.v 1) (.v 2) (.v 3)) { priv := some (0x01, 0) } s 0 0 demoCoh ∧ s.handleOf (s.srcWord 0 0 0 (ops) (.v 2)) = some (0, 1) ∧
    (s.course 0 1).suspended = true ∧ (s.course 0 1).coh = none ∧ (∀ L ∈ (s.course 0 1).lanes, L.defs = [] ∧ L.cone = none) ∧
    goesOn (exec (.cloadGo (ops (.v 1) (.v 2))) s) = true ∧ goesOn (exec (.cloadEnd (ops (.v 1) (.v 2))) s) = true :=
  by refine ⟨ready_of ?_, ?_, ?_, ?_, ?_, ?_, ?_⟩ <;> decide +kernel

/-- Glaze window 0 is enabled at address 0 and has applied store 5. -/
def demoGlaze (rs : List (Nat × Word)) : State := { demoV rs with gwins := [(0, { en := true, applied := 5 })] }
/-- FabricInstructions: a store to the window, its status, a number that has been applied and one that has not, and a barrier. -/
theorem test_glaze_ready : let s := demoGlaze [(3, 5), (4, 6)]
    let o := ops (.v 1) (.v 2) (.k 0) (.v 3)
    Ready o {} s 0 0 demoCoh ∧ (∀ l ∈ s.livePerf 0 0 demoCoh ng, accOk s (s.srcWord 0 0 l (ops) (.v 2) + s.srcWord 0 0 l (ops) (.k 0) + wordOfInt 0) .store 8 false = true) ∧
    s.windowAt 0 = some (0, 0) ∧ goesOn (exec (.gst o .n64 0) s) = true ∧ goesOn (exec (.fred o .add .n64 0) s) = true ∧
    Ready (ops (.v 1) (.v 2) (.v 3)) {} s 0 0 demoCoh ∧ Ready (ops (.v 1) (.v 2)) { d := .now } s 0 0 demoCoh ∧
    (readyRun (ops (.v 1) (.v 2)) {} s 0 0 demoCoh).fbarWaits = [] ∧ goesOn (exec (.gsn (ops (.v 1) (.v 2))) s) = true ∧
    goesOn (exec (.gwait (ops (.v 1) (.v 2) (.v 3)) 0) s) = true ∧ goesOn (exec (.gwait (ops (.v 1) (.v 2) (.v 4)) 0) s) = true ∧
    goesOn (exec (.fbar (ops (.v 1) (.v 2))) s) = true :=
  by refine ⟨ready_of ?_, ?_, ?_, ?_, ?_, ready_of ?_, ready_of ?_, ?_, ?_, ?_, ?_, ?_⟩ <;> decide +kernel
/-- FabricInstructions: a `gwait` whose time is over, and an `fbar` whose episode is complete and one whose episode is open. -/
theorem test_group_returns : let s := demoGlaze [(4, 6)]
    let w := s.modCourse 0 0 (fun C => { C with gwaitEnd := some 0 })
    let b := State.modCourse { s with groups := [(0, { episode := 1 })] } 0 0 (fun C => { C with fbarEp := some (0, 0) })
    let p := s.modCourse 0 0 (fun C => { C with fbarEp := some (0, 1) })
    Ready (ops (.v 1) (.v 2) (.v 4)) {} w 0 0 demoCoh ∧ Ready (ops (.v 1) (.v 2)) {} b 0 0 demoCoh ∧ Ready (ops (.v 1) (.v 2)) {} p 0 0 demoCoh ∧
    (match exec (.gwait (ops (.v 1) (.v 2) (.v 4)) 0) w with
      | .next s => (s.course 0 0).parked == none && (s.lane 0 0 0).vGet 1 == 5
      | _ => false) = true ∧
    (match exec (.fbar (ops (.v 1) (.v 2))) b with
      | .next s => (s.course 0 0).parked == none && (s.course 0 0).fbarEp == none
      | _ => false) = true ∧
    (match exec (.fbar (ops (.v 1) (.v 2))) p with
      | .next s => (s.course 0 0).parked == some [.fbar 0 1] && s.flights.isEmpty
      | _ => false) = true :=
  by refine ⟨ready_of ?_, ready_of ?_, ready_of ?_, ?_, ?_, ?_⟩ <;> decide +kernel

/-! ### Events -/

/-- One access of lane 0 in flight; the slice that is the home of address 0 holds its region. -/
def demoF (f : Flight) : State :=
  State.modCol { demo with flights := [f] } (demo.home 0) (fun k => { k with blocks := [{ region := 0, s := 0, e := 63 }] })
def fl (k : FKind) : Flight := { id := 9, kind := k, team := 0, crs := 0, lane := 0, core := 0, dest := .v 0 1 }
/-- WalksReadsAndLanding: a walk under way, a read of a granule that its slice holds, a wait, a stale generation, and values that land. -/
theorem test_walk_due : let s := demo.modCol 0 (fun k => { k with walks := [⟨0, 16, 0, 0⟩] })
    (s.column 0).walks.find? (fun w => w.asid == 0 && w.page == 16) = some ⟨0, 16, 0, 0⟩ ∧ goesOn (exec (.translationWalkDone 0 0 16) s) = true := by
  decide +kernel
theorem test_read_due : let s := demoF (fl .load)
    let w := demoF (fl .wwait)
    s.flight? 9 = some (fl .load) ∧ s.readDue (fl .load) = true ∧ s.inSlice 0 = true ∧ ((s.column (s.home 0)).counter 0).repl = false ∧
    s.poisoned 0 8 = false ∧ goesOn (exec (.sliceRead 9) s) = true ∧ w.readDue (fl .wwait) = true ∧ w.beyondWindow 0 = false ∧
    goesOn (exec (.sliceRead 9) w) = true ∧ goesOn (exec (.sliceRead 9) (demoF (fl .pf))) = true := by decide +kernel
theorem test_refusal_due : let f := { fl .load with gen := 1, va := 64 }
    let s := demoF f
    let r := demoF { f with tries := 3 }
    s.refusalDue f = true ∧ r.refusalDue { f with tries := 3 } = true ∧ goesOn (exec (.generationRefusal 9) s) = true ∧
    goesOn (exec (.generationRefusal 9) r) = true := by decide +kernel
theorem test_land_due : (∀ f ∈ [{ fl .load with stage := 1 }, { fl .mmioLoad with stage := 1 }, { fl .txld with stage := 1 }, fl .ldr, fl .latom,
      fl (.range 0x91), { fl .rwait with stage := 1 }],
    (demoF f).landDue f = true ∧ f.team ∈ (demoF f).teams.map (·.1) ∧ goesOn (exec (.loadDataLands 9) (demoF f)) = true) := by decide +kernel
/-- R23: the value is in the register, which is full, and the access is gone. -/
theorem test_value_lands : (match exec (.loadDataLands 9) (demoF { fl .load with stage := 1, val := 77 }) with
    | .next s => (s.lane 0 0 0).vGet 1 == 77 && !eGet (s.lane 0 0 0).vE 1 && s.flights.isEmpty
    | _ => false) = true := by decide +kernel

/-- WritesWaitsAndRanges: a store on its way, a near reduction, waits that end and a range operation. -/
theorem test_write_due : let f := { fl .store with stage := 1, data := 5 }
    let s := demoF f
    s.writeDue f = true ∧ isHost 0 = false ∧ isIO 0 = false ∧ s.beyondWindow 0 = false ∧ s.inSlice 0 = true ∧
    (∀ p ∈ s.columns, p.2.waits = []) ∧ goesOn (exec (.sliceWrite 9) s) = true := by decide +kernel
theorem test_ack_due : let a := fl .store
    let b := { fl .store with stage := 2 }
    let c := { fl .store with stage := 3 }
    (demoF a).genOk a = true ∧ (demoF a).ready a = true ∧ goesOn (exec (.storeAcknowledgement 9 .near) (demoF a)) = true ∧
    (∀ p ∈ (demoF b).columns, p.2.inval = []) ∧ goesOn (exec (.storeAcknowledgement 9 .home) (demoF b)) = true ∧
    goesOn (exec (.storeAcknowledgement 9 .last) (demoF c)) = true ∧ (demoF (fl .str)).unitReady (fl .str) = true ∧
    goesOn (exec (.storeAcknowledgement 9 .home) (demoF (fl .str))) = true := by decide +kernel
/-- WritesWaitsAndRanges: a change of presence bits is performed at its unit. -/
theorem test_lpres_lands : let f := { fl (.lpres 1) with peer := 1, data := 5 }
    (demoF f).unitReady f = true ∧ (demoF f).targetGone f = false ∧ (match exec (.storeAcknowledgement 9 .home) (demoF f) with
      | .next s => (s.team 0).absent == [0, 2] && s.flights.isEmpty
      | _ => false) = true := by decide +kernel
theorem test_nred_due : let f := fl .nred
    (demoF f).nredDue f = true ∧ (demoF f).poisoned 0 8 = false ∧ fitsTy f.aop f.ty = true ∧ goesOn (exec (.nredAtHome 9) (demoF f)) = true := by
  decide +kernel
theorem test_wait_ends : let f := { fl .wwait with stage := 4 }
    let w := fl .wwake
    let s := (demoF { fl .wwait with stage := 1 }).modCol (demo.home 0) (fun k => { k with waits := [{ pa := 0, asid := 0, who := some 9, col := 0, deadline := some 0 }] })
    goesOn (exec (.waitEntryEnd 9) (demoF f)) = true ∧ goesOn (exec (.waitEntryEnd 9) (demoF { f with stage := 5 })) = true ∧ (demoF w).genOk w = true ∧ (demoF w).ready w = true ∧
    goesOn (exec (.waitEntryEnd 9) (demoF w)) = true ∧ (s.entryOf 9).isSome = true ∧ s.cycle (demo.home 0) = 0 ∧
    goesOn (exec (.waitDeadlineExpiry 9) s) = true := by decide +kernel
theorem test_range_due : let f := { fl (.range 0x91) with size := 64, cols := [demo.home 0] }
    (demoF f).rangeDue f (demo.home (0 * 4096)) = true ∧ regionsOf f.pa (f.size / 64) = [0] ∧ isWindow (0 * 4096) = false ∧
    goesOn (exec (.rangeOpAtSlice 9 (demo.home 0)) (demoF f)) = true := by decide +kernel

/-- ReplicationAndService: a region at the limit of its reads, one at the limit of its writes, an invalidation, and requests at their owner. -/
theorem test_switch_due : let a := demo.modCol 0 (fun k => { k with counters := [⟨7, 256, 15, false, 0⟩] })
    let b := demo.modCol 0 (fun k => { k with counters := [⟨7, 0, 16, true, 0⟩] })
    (a.column 0).switchDue ((a.column 0).counter 7) = true ∧ ((a.column 0).counter 7).repl = false ∧
    (b.column 0).switchDue ((b.column 0).counter 7) = true ∧ ((b.column 0).counter 7).repl = true ∧
    goesOn (exec (.replicationSwitch 0 7) a) = true ∧ goesOn (exec (.replicationSwitch 0 7) b) = true := by decide +kernel
theorem test_inval_due : let s := demo.modCol 0 (fun k => { k with inval := [(7, [3], none)], blocks := [{ region := 7, s := 0, e := 63, replica := true }] })
    (s.column 0).inval = [(7, [3], none)] ∧ (∀ b ∈ (s.column 0).blocks, b.replica = true) ∧ goesOn (exec (.replicaInvalidation 0) s) = true := by
  decide +kernel
theorem test_request_due : (∀ f ∈ [fl .atom, fl .txe, fl .dalloc], (demoF f).requestDue f f.kind = true) ∧
    goesOn (exec (.atomAtOwner 9) (demoF (fl .atom))) = true ∧ goesOn (exec (.txCommitAtOwner 9) (demoF (fl .txe))) = true ∧
    goesOn (exec (.txCommitAtOwner 9) (demoF { fl .txe with rset := [(0, 12345)] })) = true ∧
    goesOn (exec (.dallocAtServiceCourse 9) (demoF { fl .dalloc with data := 64 })) = true ∧
    (∀ f ∈ [{ fl .atom with stage := 2 }, { fl .dalloc with stage := 2 }], (demoF f).replyDue f = true ∧ (demoF f).invalOpen 9 (fun _ => true) = false ∧
      goesOn (exec (.serviceReply 9) (demoF f)) = true) ∧
    goesOn (exec (.dfreeAtOwner 9) (demoF (fl .dfree))) = true ∧ goesOn (exec (.dfreeAtOwner 9) (demoF { fl .dfree with va := 64 })) = true := by
  decide +kernel
theorem test_arena_places : let s := (demoF (fl .dalloc)).modCol 0 (fun k => { k with arenas := [(0, { en := true, size := 1, base := 65536 })] })
    (s.column 0).places 0 64 64 ≠ [] := by decide +kernel

/-- A copy of 64 bytes from address 4096 to local offset 0, counted by k5. -/
def demoCmd : SlipCmd :=
  { id := 3, team := 0, crs := 0, lane := 0, asid := 0, root := 0, sup := true, ipc := 8, dir := 0, dst := .loc, off := 0, bytes := 64,
    report := .counter 5, tgt := none, tlr := ⟨4096, 0, 0, false, 0, 3, false, 1, [8, 1, 1, 1, 1], [7, 0, 0, 0, 0], [0, 0, 0, 0], 0⟩, coords := [0, 0, 0, 0, 0],
    rows := none, e20 := 0, todo := [0] }
def demoSlip (c : SlipCmd) : State :=
  (demo.modCol (demo.home 4096) (fun k => { k with blocks := [{ region := regionOf 4096, s := 0, e := 63 }] })).modCore 0 (fun k => { k with slips := [c] })
/-- SlipEvents: a piece lands, the command completes, pushes its port, stalls, and is abandoned. -/
theorem test_piece_due : let s := demoSlip demoCmd
    s.slip? 3 = some (0, demoCmd) ∧ s.pieceDue 0 demoCmd 0 = true ∧ (match s.pieceData 0 demoCmd 0 with
      | .ok _ _ => true
      | _ => false) = true ∧ (s.team 0).lbad = [] ∧ goesOn (exec (.copyPieceLands 3 0) s) = true := by decide +kernel
/-- SlipEvents: a piece into a half, one into the local memory of a member of the gang, one out of a box, one whose writes have landed, and a ring slot that is filled or is not reserved. -/
theorem test_piece_ways : let h := { demoCmd with dir := 3, dst := .bst 0 }
    let r' := { demoCmd with dir := 2, dst := .rem 0 0 }
    let o := { demoCmd with dir := 1 }
    let w := { demoCmd with todo := [], landing := [(0, 7)] }
    let r := { demoCmd with todo := [], report := .ring 0 0 0 }
    let s := demoSlip o
    (demoSlip h).pieceDue 0 h 0 = true ∧ (demoSlip h).halfWaiters 0 = [] ∧ ((demoSlip h).core 0).loopWaiter = none ∧ ((demoSlip h).core 0).bpoison = [] ∧
    (demoSlip r').pieceDue 0 r' 0 = true ∧ 0 ∈ (demoSlip r').teams.map (·.1) ∧ goesOn (exec (.copyPieceLands 3 0) (demoSlip r')) = true ∧
    s.pieceDue 0 o 0 = true ∧ (∀ b ∈ o.readsOut 0, (s.team 0).locBad (phys o.tlr.swz (o.off + b)) 1 = false) ∧
    (match State.engWrite { s with nextId := s.nextId + 1 } (o.eng s 0) o.issuer
        ((o.readSrc (s.team 0) ((o.readsOut 0).map (fun b => phys o.tlr.swz (o.off + b)))).chunks 0) s.nextId with
      | .ok d _ => d.isEmpty
      | _ => false) = true ∧ goesOn (exec (.copyPieceLands 3 0) s) = true ∧ (demoSlip w).pieceDue 0 w 0 = true ∧ r.completeDue = true ∧
    (((demoSlip r).modTeam 0 (fun T => T.locWrite 0 64 0)).team 0).ringOk 0 = false ∧
    (((demoSlip r).modTeam 0 (fun T => { T with lbad := [0] })).team 0).locBad 0 64 = true := by decide +kernel
theorem test_copy_due : let d := { demoCmd with todo := [] }
    let p := { demoCmd with todo := [], report := .port 2 }
    let x := { demoCmd with stall := some (0, 0, 64) }
    let y := { demoCmd with fail := some (0x0A, 64) }
    d.completeDue = true ∧ goesOn (exec (.copyComplete 3) (demoSlip d)) = true ∧ p.isOver = true ∧ ((demoSlip p).team 0).poolUsed 0x01 0x0F < 64 ∧
    goesOn (exec (.completionPortPush 3) (demoSlip p)) = true ∧ ((demoSlip x).stalled? 3).isSome = true ∧
    goesOn (exec (.slipTranslationRewalk 3) (demoSlip x)) = true ∧ goesOn (exec (.commandAbandon 3) (demoSlip y)) = true := by decide +kernel

def demoW (op : WOp) : WCmd :=
  { id := 4, team := 0, crs := 0, lane := 0, asid := 0, root := 0, sup := true, ipc := 8, ins := .nop (ops), op := op,
    report := .none, count := 0, scope := 0 }
def demoQ (w : WCmd) : State := demo.modCore 0 (fun k => { k with wheel := [w] })
/-- WheelEvents: each command starts, and those that are over end. -/
theorem test_wheel_due :
    (∀ op ∈ [WOp.zero 1, .rd [(0, 0)] 1, .wr [(0, 0, 5)], .loop ⟨0, 0, true, false, 0, false, 0⟩ 0 0 1,
      .loop ⟨0, 0, true, false, 0, false, 0⟩ 0 (2 ^ 36) 1, .drain ⟨0, 0, .core, false, 0, 0, 0, false, 0, 0, true, 0⟩ 0 0 0],
      ((demoQ (demoW op)).core 0).wheel.head? = some (demoW op) ∧ goesOn (exec (.wheelCommandStart 0) (demoQ (demoW op))) = true) ∧
    (let w := { demoW (.loop ⟨0, 0, true, false, 0, false, 0⟩ 0 0 1) with started := true, isOver := true }
     (demoQ w).wheelRoom w = true ∧ goesOn (exec (.wloopComplete 0) (demoQ w)) = true) ∧
    (let w := { demoW (.drain ⟨0, 0, .core, false, 0, 0, 0, false, 0, 0, true, 0⟩ 0 0 0) with started := true, wid := some 5 }
     (demoQ w).landedAt 5 0 = true ∧ goesOn (exec (.wdrainComplete 0) (demoQ w)) = true) := by decide +kernel
/-- WheelEvents: a loop that starts where a half is full takes it. -/
theorem test_wheel_half : let s := (demoQ (demoW (.loop ⟨0, 0, true, false, 0, false, 0⟩ 0 0 1))).modCore 0 (fun k => { k with bring := k.bring.setSt 0 2 })
    (s.core 0).bring.st (s.core 0).bring.ridx = 2 ∧ s.halfWaiters 0 = [] ∧ (match exec (.wheelCommandStart 0) s with
      | .next s => (s.team 0).wheelHalf == some 0 && (s.core 0).bring.st 0 == 3 && (s.core 0).wheel.map (·.half) == [some 0]
      | _ => false) = true := by decide +kernel
/-- WheelEvents: a K-step of a loop whose lines are present, and a drain that can write. -/
theorem test_wheel_goes : let m : WloopM := ⟨0, 0, true, false, 0, false, 0⟩
    let w := { demoW (.loop m 0 0 1) with started := true, half := some 0 }
    let d : WdrainM := ⟨0, 0, .core, false, 0, 0, 0, false, 0, 0, true, 0⟩
    let x := { demoW (.drain d 0 0 0) with started := true }
    w.step < cKsteps 1 ∧ ((demoQ w).team 0).aPresent m 0 1 0 = true ∧ (demoQ w).unitBehind w.issuer = false ∧ (demoQ w).wloopDue w = true ∧
    (demoQ x).engFree (x.eng (demoQ x) 0) x.issuer (wdGlobLines d 0 0 0) .store = true ∧ (demoQ x).wdrainDue 0 x = true ∧
    wdBad ((demoQ x).team 0) d (if wdPrim d then ((demoQ x).core 0).primCopy d 0 0 else ([], 0)) ([], 0) = false := by decide +kernel

def demoJob (op : CilOp) : CilCmd :=
  { id := 6, team := 0, crs := 0, lane := 0, asid := 0, root := 0, sup := true, ipc := 8, ins := .nop (ops), op := op,
    coper := ⟨.addmul, .scalar⟩, report := .none, count := 0, scope := 0 }
def demoU (f : Coil → Coil) : State := demo.modCore 0 (fun k => { k with coil := f { k.coil with owner := some 0, creg := List.replicate 128 [0] } })
/-- CoilEvents: a job takes a step and ends, a carry arrives and is sent along a chain of two, a carry is read and written. -/
theorem test_coil_due : let e : QEntry := { slots := List.replicate 32 (1 : Word), mask := 1 }
    let j := demoJob (.job ⟨.core, 0, false, 0, 0, 1⟩ 0)
    let a := demoU (fun u => { u with queue := [{ j with phase := 1 }], groups := [[e], [], [], []] })
    let b := demoU (fun u => { u with queue := [{ j with phase := 3, steps := 2 }] })
    let c := demoU (fun u => { u with wire := [(0, ⟨⟨.addmul, .scalar⟩, 1, [[0]], false⟩)] })
    (a.core 0).coil.stepReady { j with phase := 1 } ⟨.core, 0, false, 0, 0, 1⟩ = true ∧ (a.team 0).saving = false ∧
    a.cjobBad { j with phase := 1 } ⟨.core, 0, false, 0, 0, 1⟩ 0 = false ∧ b.cjobBad { j with phase := 3, steps := 2 } ⟨.core, 0, false, 0, 0, 1⟩ 0 = false ∧ goesOn (exec (.cjobComplete 0) a) = true ∧
    goesOn (exec (.cjobComplete 0) b) = true ∧ goesOn (exec (.carryArrive 0) c) = true ∧
    goesOn (exec (.ccarComplete 0) (demoU (fun u => { u with queue := [demoJob (.car false true 0 1)] }))) = true ∧
    goesOn (exec (.ccarComplete 0) (demoU (fun u => { u with queue := [{ demoJob (.car true false 0 1) with wid := some 5 }] }))) = true := by decide +kernel
/-- A chain of two teams, the first of which has a sealed carry in its outgoing slot. -/
def demoChain : State :=
  let T := { loadTeam 0 with gang := 1, gangsize := 2, coil := true }
  let out : Carry := ⟨⟨.addmul, .scalar⟩, 1, [[0]], false⟩
  { demo with
    teams := [(0, T), (1, { T with core := 1, gangpos := 1 })],
    cores := [(0, { coil := { owner := some 0, out := some (6, out), seals := [(6, [])] } }), (1, { coil := { owner := some 1 } })] }
theorem test_carry_due : demoChain.chainNext 0 = some (1, 1) ∧ demoChain.sendDue 0 = true ∧ goesOn (exec (.carrySend 0) demoChain) = true := by decide +kernel
/-- CoilEvents: a job in phase 4 takes the carry that is there for its team, not one for another team. -/
theorem test_carry_in : let c : Carry := ⟨⟨.addmul, .scalar⟩, 1, [[0]], false⟩
    let m : CjobM := ⟨.core, 0, false, 2, 0, 1⟩
    let w := { demoJob (.job m 0) with phase := 4, steps := 2 }
    let e : LinkEnt := ⟨0, 0, false, c⟩
    let s := demoU (fun u => { u with queue := [w], link := [⟨1, 0, false, c⟩, e] })
    (s.core 0).coil.link.find? (fun e => !e.late && e.for_ == w.team) = some e ∧ e.came < w.since + 2 ^ (s.core 0).coil.tlim ∧ s.cjobBad w m 0 = false ∧
    (match exec (.cjobComplete 0) s with
      | .next s => (s.core 0).coil.queue.isEmpty && (s.core 0).coil.link.length == 1
      | _ => false) = true := by decide +kernel
/-- CoilEvents: the limit of a job without a carry passes, once the clock has gone that far (Config.elapsed says how far it goes). -/
theorem test_carry_expires (n : Nat) : let w := { demoJob (.job ⟨.core, 0, false, 2, 0, 1⟩ 0) with phase := 4, steps := 2 }
    let s := { demoU (fun u => { u with queue := [w] }) with tick := n }
    w.since + 2 ^ (s.core 0).coil.tlim < s.cycle 0 →
    (s.team 0).saving = false ∧ (s.core 0).coil.queue.head? = some w ∧ (s.core 0).coil.carryFor w = none ∧ s.limitOver 0 w = true := by
  intro w s h
  refine ⟨rfl, rfl, rfl, ?_⟩
  have h' : (s.core 0).coil.limit w < s.cycle (coreCol 0) := h
  show (true && decide _) = true
  simpa using h'

/-- The words of a record at 0x2000: KIND 0, SUP, SCOPE 3, one team of one course and one lane, 32 registers, 64 KiB of L1 (R330 to R332). -/
def nodeWords (kind : Nat) : List Nat :=
  [kind + 2 ^ 56 + 3 * 2 ^ 60, 1 + 2 ^ 16 + 2 ^ 32, 32 + 2 ^ 32, 0x10, 0, 0, 0, 0, 0, 0x2000, 0, 0, 0, 0, 0, 0]
/-- A machine without teams whose memory holds that record with DEP `dep`, and tables from 0x10000 on that map the first gigabyte to itself. -/
def demoMem (kind dep : Nat) : State :=
  let put := fun m (i : Nat) => memWrite m (0x2000 + 8 * i) 8 (if i = 7 then dep else (nodeWords kind).getD i 0)
  let m := (List.range 16).foldl put []
  { State.reset with mem := memWrite (memWrite (memWrite m 0x10000 8 0x11001) 0x11000 8 0x12001) 0x12000 8 0x1F }
/-- A node in the pool for that record. -/
def poolN (kind : Nat) : PoolNode := { node := 0x2000, words := nodeWords kind, ord := 0, entered := 0, since := 0, headSince := 0 }
/-- NodeEvents: a launch, a record that is taken and one that is rejected, a held node, a completion, a visit, a task, a notification. -/
theorem test_launch_due : let s := demoMem 0 0
    let q := s.modCol 0 (fun k => { k with launch := [(2, [(0x2000, .supervisor)])] })
    (s.column 0).launchLen 2 < 256 ∧ goesOn (exec (.launchStore 0 2 0x2000 .supervisor none) s) = true ∧
    (q.column 0).nextRecord = some (2, 0x2000, .supervisor) ∧ nrState (q.nodeAt 0x2000) = 0 ∧ q.isReady 0x2000 = false ∧ q.recErr 0x2000 (some .supervisor) = none ∧
    (q.recErr 0x4000 (some .supervisor)).isSome = true ∧ goesOn (exec (.dispatchRecord 0) q) = true ∧
    goesOn (exec (.heldNodeEnterPool 0) ((demoMem 0 (2 * 2 ^ 48)).modCol 0 (fun k => { k with held := [0x2000] }))) = true := by decide +kernel
/-- R335, R340: the record is READY and in the pool. -/
theorem test_record_ready : (match exec (.dispatchRecord 0) ((demoMem 0 0).modCol 0 (fun k => { k with launch := [(2, [(0x2000, .supervisor)])] })) with
    | .next s => nrState (s.nodeAt 0x2000) == 2 && s.pool.map (·.node) == [0x2000]
    | _ => false) = true := by decide +kernel
theorem test_node_due : let c := { demoMem 0 (3 * 2 ^ 48) with pool := [{ poolN 0 with retired := 1, next := 1 }] }
    let k := { demoMem 3 (2 * 2 ^ 48) with pool := [poolN 3] }
    let h := { demoMem 4 (3 * 2 ^ 48) with pool := [poolN 4], hnqbase := 0x10_0000, hnqctl := 4 }
    (poolN 0).refused = false ∧ c.visitOf 0x2000 = none ∧ c.completeDue { poolN 0 with retired := 1, next := 1 } = true ∧ goesOn (exec (.nodeComplete 0x2000) c) = true ∧
    k.taskDue (poolN 3) = true ∧ goesOn (exec (.columnTaskHandoff 0x2000) k) = true ∧ h.notifyDue (poolN 4) = true ∧
    goesOn (exec (.hostNotification 0x2000) h) = true ∧ goesOn (exec (.hostNotification 0x2000) { h with hnqbase := 0 }) = true := by decide +kernel
theorem test_visit_due : let v : Visit := { node := 0x3000, kind := 1, signalled := true, words := (nodeWords 0).set 7 (2 ^ 52), base := 0x2000, slot := 0, cont := false }
    let s := { demoMem 0 (2 + 2 * 2 ^ 16 + 2 * 2 ^ 32 + 2 ^ 48) with visits := [v] }
    s.visitOf 0x3000 = some v ∧ s.visitStep v = (some 0x2000, some { v with slot := 1 }) ∧ s.spaceAt v.words (wordOf 0x2000) .load = some (0x1F, 0x2000) ∧
    succRefused v.words (s.nodeAt 0x2000) = false ∧ nrState (s.nodeAt 0x2000) = 1 ∧ nrRem (s.nodeAt 0x2000) = 2 ∧
    goesOn (exec (.nodeComplete 0x3000) s) = true := by decide +kernel

/-- PlacementEvents: a node whose team has a core, a team that retires, drains, saves and an eviction. -/
theorem test_place_due : let s := { demoMem 0 (2 * 2 ^ 48) with pool := [poolN 0] }
    (s.nextPlacement.map (fun x => (x.1, x.2.2.1, x.2.2.2.length))) = some (poolN 0, false, 1) ∧ nrIsGang (poolN 0).words = false ∧
    goesOn (exec (.teamPlace 0x2000) s) = true := by decide +kernel
theorem test_retire_due : let s := demo.modCourse 0 0 (fun C => { C with coh := none, lanes := C.lanes.map (fun L => { L with cls := .absent }) })
    s.retireDue 0 = true ∧ s.unsealedOf 0 = false ∧ goesOn (exec (.teamRetire 0) s) = true := by decide +kernel
theorem test_drain_due : let s := demo.modCol 0 (fun k => { k with drainreq := 1 })
    let n := { poolN 0 with words := (nodeWords 0).set 6 0x100001, node := 0, resident := [0] }
    let p := ({ demo with pool := [n] }).modCore 0 (fun k => { k with draining := some 0, drainlim := 0 })
    let v := { demo with pool := [n] }.modCourse 0 0 (fun C => { C with coh := none })
    let v := v.modTeam 0 (fun T => { T with saving := true })
    s.drainDue 0 = true ∧ goesOn (exec (.drain 0) s) = true ∧ p.limitPassed 0 = true ∧ goesOn (exec (.drainLimitExpiry 0) p) = true ∧
    v.saveStage 0 = 2 ∧ (v.modTeam 0 (fun T => { T with saveWid := some 5 })).saveStage 0 = 3 ∧
    goesOn (exec (.forcedSave 0) (v.modTeam 0 (fun T => { T with saveWid := some 5 }))) = true := by decide +kernel
/-- The demo team's node. -/
def homeN : PoolNode := { poolN 0 with words := (nodeWords 0).set 6 0x100001, node := 0, resident := [0], next := 1 }

/-- Only core 0 works; the demo team on it has another split than a node of the pool `p`. -/
def demoCore0 (p : List PoolNode) : State :=
  { demo with columns := (List.range 64).map (fun c => (c, { cmap := if c = 0 then 1 else 0 })), pool := p }
/-- The same at step `n`. -/
def demoOne (n : Nat) (p : List PoolNode) : State := { demoCore0 p with tick := n }
/-- A node of priority 3. -/
def hiN : PoolNode := { poolN 0 with words := (nodeWords 0).set 0 (2 ^ 56 + 3 * 2 ^ 58 + 3 * 2 ^ 60) }
theorem reserve_any (s : State) (n : Nat) (p : PoolNode) (o : Nat × Bool) : State.reserveFor { s with tick := n } p o = s.reserveFor p o := rfl
theorem enough_any (s : State) (n : Nat) (p : PoolNode) (o : Nat × Bool) : State.hasEnough { s with tick := n } p o = s.hasEnough p o := rfl
theorem place_any (s : State) (n : Nat) (p : PoolNode) : State.placeFor { s with tick := n } p = s.placeFor p := rfl
theorem drain_any (s : State) (n : Nat) (w : NodeRec) (a : Nat) : State.unitCores { s with tick := n } w (State.drainable { s with tick := n } a) = s.unitCores w (s.drainable a) := rfl
/-- Later items of a list leave the first of `dedupNat` where it is and bring in nothing else. -/
theorem dedup_from (l : List Nat) : ∀ acc : List Nat, ∃ r, l.foldl (fun acc x => if acc.contains x then acc else acc ++ [x]) acc = acc ++ r ∧
    ∀ x ∈ r, x ∈ l := by
  induction l with
  | nil => exact fun acc => ⟨[], by simp⟩
  | cons x l ih =>
    intro acc
    simp only [List.foldl_cons]
    split
    · obtain ⟨r, h, m⟩ := ih acc
      exact ⟨r, h, fun y hy => List.mem_cons_of_mem _ (m y hy)⟩
    · obtain ⟨r, h, m⟩ := ih (acc ++ [x])
      refine ⟨x :: r, by simpa using h, fun y hy => ?_⟩
      rcases List.mem_cons.1 hy with rfl | hy
      · exact List.mem_cons_self
      · exact List.mem_cons_of_mem _ (m y hy)
/-- The lines of an interval from 0 on: the first is 0, and each is below its end. -/
theorem linesOf_zero (n : Nat) (h : 0 < n) : ∃ r, linesOf [(0, n)] = 0 :: r ∧ ∀ x ∈ r, x * 64 < n := by
  obtain ⟨r, hr, m⟩ := dedup_from ((List.range ((n - 1) / 64)).map (· + 1)) [0]
  have e : (List.range ((n - 1) / 64 + 1)).map (fun i => 0 / 64 + i) = 0 :: (List.range ((n - 1) / 64)).map (· + 1) := by
    rw [List.range_succ_eq_map]; simp
  refine ⟨r, ?_, fun x hx => ?_⟩
  · have z : n ≠ 0 := by omega
    have z2 : (0 + n - 1) / 64 + 1 - 0 / 64 = (n - 1) / 64 + 1 := by simp
    simp only [linesOf, dedupNat, List.flatMap_cons, List.flatMap_nil, List.append_nil, z, if_false, z2, e, List.foldl_cons]
    exact hr
  · obtain ⟨y, hy, rfl⟩ := List.mem_map.1 (m x hx)
    have := List.mem_range.1 hy
    omega

/-- A node of one team of one saved team in the pool. -/
def savN : PoolNode := { poolN 0 with next := 1, saved := [demo.savedOf 0] }
/-- A page of device 5 for the first gigabyte. -/
def farE : TlbEnt := tlbEntOf 0 0 0 2 (0x1F + 2 ^ 9 + 5 * 2 ^ 52)
/-- The node's context lies at a peer, and core 1's TLB holds its page. -/
def savS (tlb : List TlbEnt) : State :=
  { (demoMem 0 (3 * 2 ^ 48)).modCore 1 (fun k => { k with tlb := tlb }) with pool := [savN], mem := memWrite (demoMem 0 (3 * 2 ^ 48)).mem 0x12000 8 (0x1F + 2 ^ 9 + 5 * 2 ^ 52) }
/-- The engine that reads it. -/
def farG : Eng := nodeEng savN.words 1

theorem farE_covers (w : Nat) (h : w < 2 ^ 30) : (farE.covers farG.asid (va56 (wordOf w)) && (protReason farG.sup .load farE.pte).isNone) = true ∧
    canonical (wordOf w) = true ∧ isHbm (farE.pa (va56 (wordOf w))) = true := by
  have a : va56 (wordOf w) = w := by
    simp only [va56, wfld, fld, wordOf, BitVec.toNat_ofNat]; omega
  have b : wfld (wordOf w) 55 9 = 0 := by
    simp only [wfld, fld, wordOf, BitVec.toNat_ofNat]; omega
  have c : protReason farG.sup .load farE.pte = none := by decide +kernel
  have d : farE.vbase = 0 ∧ farE.lvl = 2 ∧ (farE.asid == farG.asid) = true ∧ ptePa farE.pte = 0 := by decide +kernel
  rw [a, c]
  refine ⟨?_, by simp [canonical, b], ?_⟩
  · simp [TlbEnt.covers, d, pageShift]; omega
  · simp [TlbEnt.pa, d, isHbm]; omega

theorem farTr (n i w : Nat) (h : w < 2 ^ 30) :
    State.engTr { savS [farE] with fresh := n, nextId := i } farG (wordOf w) .load = .ok farE (farE.pa (va56 (wordOf w))) := by
  obtain ⟨a, b, c⟩ := farE_covers w h
  have t : (State.core { savS [farE] with fresh := n, nextId := i } farG.core).tlb = [farE] :=
    (show (State.core { savS [farE] with fresh := n, nextId := i } farG.core).tlb = ((savS [farE]).core farG.core).tlb from rfl).trans (by decide +kernel)
  have f : (pteFmode farE.pte != 0) = true := by decide +kernel
  have p : pteAttr farE.pte ≠ 2 := by decide +kernel
  simp only [State.engTr, State.engCheck, t, b, List.find?_cons, a, f, c, p]
  simp
theorem farStep (n i pa : Nat) : ∃ n', ∃ bs, (State.engBytes ((State.addTlb { savS [farE] with fresh := n, nextId := i } farG.core farE).engTake farG farE pa .load)
    (coreCol farG.core) farE pa 64) = (bs, { savS [farE] with fresh := n', nextId := i }) := by
  have f : (pteFmode farE.pte != 0) = true := by decide +kernel
  have k : (savS [farE]).addTlb farG.core farE = savS [farE] := by decide +kernel
  have k' : State.addTlb { savS [farE] with fresh := n, nextId := i } farG.core farE = { savS [farE] with fresh := n, nextId := i } :=
    (show State.addTlb { savS [farE] with fresh := n, nextId := i } farG.core farE = { (savS [farE]).addTlb farG.core farE with fresh := n, nextId := i } from rfl).trans (by rw [k])
  have d : ptePeer farE.pte ≠ (savS [farE]).device := by decide +kernel
  have m : (pteFmode farE.pte != 3) = true := by decide +kernel
  simp only [k', State.engTake, f, State.engBytes, State.countMig, m, State.freeBytes, Bool.true_or, if_true]
  rw [if_neg d]
  exact ⟨_, _, rfl⟩
theorem farParts (ln N : Nat) (h : ln * 64 < N) (hN : N ≤ 2 ^ 30) :
    ∃ w < 2 ^ 30, wordOf (((([(0, N)] : List (Nat × Nat)).filterMap (clipLine ln)).head?.map (·.1)).getD (ln * 64)) = wordOf w := by
  refine ⟨ln * 64, by omega, ?_⟩
  have c : clipLine ln (0, N) = some (ln * 64, min (0 + N) (ln * 64 + 64) - ln * 64) := by
    simp only [clipLine]; rw [if_pos] <;> simp; omega
  simp [c]
theorem farRead (N : Nat) (hN : N ≤ 2 ^ 30) (i : Nat) : ∀ (l : List Nat), (∀ x ∈ l, x * 64 < N) → ∀ (n : Nat) (d : EngData),
    ∃ d' n', State.engRead { savS [farE] with fresh := n, nextId := i } farG [(0, N)] l d = .ok d' { savS [farE] with fresh := n', nextId := i } := by
  intro l
  induction l with
  | nil => exact fun _ n d => ⟨d, n, rfl⟩
  | cons ln r ih =>
    intro hl n d
    obtain ⟨w, hw, e⟩ := farParts ln N (hl ln List.mem_cons_self) hN
    have po : ∀ b k, State.engPoison { savS [farE] with fresh := n, nextId := i } (coreCol farG.core) farE b k = false := by
      intro b k
      have f : pteFmode farE.pte ≠ 0 := by decide +kernel
      have d : (ptePeer farE.pte == (savS [farE]).device) = false := by decide +kernel
      simp only [State.engPoison, if_neg f, d, Bool.false_and]
    have nf : ∀ l : List (Nat × Nat), l.find? (fun _ => false) = none := fun l => by induction l <;> simp_all
    simp only [State.engRead, e, farTr n i w hw, po, nf]
    obtain ⟨n', bs, q⟩ := farStep n i (farE.pa (va56 (wordOf w)) / 64 * 64)
    rw [q]
    exact ih (fun x hx => hl x (List.mem_cons_of_mem _ hx)) n' _

theorem farFirst : State.engTr { savS [] with nextId := (savS []).nextId + 1 } farG (wordOf 0) .load = .ok farE 0 := by decide +kernel
/-- The context of the saved team can be read. -/
theorem farContext : ∃ d S, (savS []).readContext savN (demo.savedOf 0) 1 = .ok d S := by
  have N : ctxSize (nrCourses savN.words) (nrSplit savN.words) = 909824 := by decide +kernel
  have A : ctxAddr savN.words (demo.savedOf 0).idx = 0 := by decide +kernel
  obtain ⟨r, l, m⟩ := linesOf_zero 909824 (by decide)
  have w0 : wordOf (((([(0, 909824)] : List (Nat × Nat)).filterMap (clipLine 0)).head?.map (·.1)).getD (0 * 64)) = wordOf 0 := by decide +kernel
  have po : ∀ b k, State.engPoison { savS [] with nextId := (savS []).nextId + 1 } (coreCol farG.core) farE b k = false := by
    intro b k
    have f : pteFmode farE.pte ≠ 0 := by decide +kernel
    have d : (ptePeer farE.pte == (savS []).device) = false := by decide +kernel
    simp only [State.engPoison, if_neg f, d, Bool.false_and]
  have nf : ∀ l : List (Nat × Nat), l.find? (fun _ => false) = none := fun l => by induction l <;> simp_all
  have k : State.addTlb { savS [] with nextId := (savS []).nextId + 1 } farG.core farE =
      { savS [farE] with fresh := (savS [farE]).fresh, nextId := (savS []).nextId + 1 } := by decide +kernel
  obtain ⟨n', bs, q⟩ := farStep (savS [farE]).fresh ((savS []).nextId + 1) 0
  have k2 : State.addTlb { savS [farE] with fresh := (savS [farE]).fresh, nextId := (savS []).nextId + 1 } farG.core farE =
      { savS [farE] with fresh := (savS [farE]).fresh, nextId := (savS []).nextId + 1 } := by decide +kernel
  rw [k2] at q
  obtain ⟨d', n2, h⟩ := farRead 909824 (by decide) ((savS []).nextId + 1) r m n' [(0 * 64, bs)]
  refine ⟨d', { savS [farE] with fresh := n2, nextId := (savS []).nextId + 1 }, ?_⟩
  simp only [State.readContext, N, A, State.engGather, l, State.engRead, w0]
  rw [show nodeEng savN.words 1 = farG from rfl, farFirst]
  simp only [po, nf, k]
  rw [show (0 : Nat) / 64 * 64 = 0 from rfl, q]
  exact h
/-- PlacementEvents: a restore whose context can be read (farContext). -/
theorem test_restore_due : (savS []).nextPlacement = some (savN, 0, true, [1]) ∧ savN.savedUnit 0 = [demo.savedOf 0] ∧
    nrIsGang savN.words = false ∧ savN.node = 0x2000 ∧ (savS []).quiesce.pendCk = [] ∧ (savS []).dropAsid 1 (nrAsid savN.words) = savS [] := by
  decide +kernel
theorem test_restore_runs : goesOn (exec (.restore 0x2000 0) (savS [])) = true := by
  have h : (savS []).nextPlacement = some (savN, 0, true, [1]) := test_restore_due.1
  simp [exec, execRestore, h, goesOn]
  decide
/-- PlacementEvents: an eviction, and a save whose team's wait entry ends. -/
theorem test_evict_due : let s := { demo with pool := [homeN, poolN 0], stalls := [(0, 0x40_0000)] }
    s.evictionOf 0 = some (0x2000, 0) ∧ goesOn (exec (.parkEviction 0) s) = true := by decide +kernel
theorem test_cancel_due : let w := { id := 9, kind := .wwait, team := 0, crs := 0, lane := 0, core := 0, stage := 1 : Flight }
    let v := State.modCol { demo with pool := [homeN], flights := [w] } 0 (fun k => { k with waits := [{ pa := 0, asid := 0, who := some 9, col := 0, deadline := none }] })
    let v := (v.modTeam 0 (fun T => { T with saving := true, courses := T.courses.map (fun C => { C with coh := none }) }))
    v.poolNode? (v.team 0).record = some homeN ∧
    v.saveStage 0 = 1 ∧ goesOn (exec (.forcedSave 0) v) = true := by decide +kernel
/-- PlacementEvents: a reservation by split, once the node has waited for 2^20 cycles (Config.elapsed says how far the clock goes). -/
theorem test_reserve_due (n : Nat) (h : 0 + 2 ^ 20 ≤ (demoOne n [poolN 0]).cycle 0) :
    (demoOne n [poolN 0]).poolNode? 0x2000 = some (poolN 0) ∧ (demoOne n [poolN 0]).toReserve (poolN 0) = some [0] := by
  refine ⟨by simp [State.poolNode?, demoOne, demoCore0, poolN], ?_⟩
  have a : (poolN 0).offers = [(0, false)] := by decide +kernel
  have b : (demoOne n [poolN 0]).placeFor (poolN 0) = none :=
    (place_any (demoCore0 [poolN 0]) n (poolN 0)).trans (by decide +kernel)
  have c : (demoOne n [poolN 0]).reserveFor (poolN 0) (0, false) = some [0] :=
    (reserve_any (demoCore0 [poolN 0]) n _ _).trans (by decide +kernel)
  have d : (demoOne n [poolN 0]).waitedLong (poolN 0) = true := decide_eq_true h
  have g : (demoOne n [poolN 0]).hasEnough (poolN 0) (0, false) = false :=
    (enough_any (demoCore0 [poolN 0]) n _ _).trans (by decide +kernel)
  have e : (demoOne n [poolN 0]).poolHead = some 0x2000 := rfl
  simp [State.toReserve, State.offerCores, a, b, c, d, e, g]; decide
/-- PlacementEvents: a drain for a node of priority 3, once it has been the head for 2^20 cycles. -/
theorem test_priority_due (n : Nat) (h : 0 + 2 ^ 20 ≤ (demoOne n [hiN, homeN]).cycle 0) :
    (demoOne n [hiN, homeN]).poolNode? 0x2000 = some hiN ∧ (demoOne n [hiN, homeN]).priorityDrain hiN = some [0] := by
  refine ⟨by simp [State.poolNode?, demoOne, demoCore0, poolN, hiN], ?_⟩
  have o : (demoOne n [hiN, homeN]).poolOrder = [hiN, homeN] := by
    have k : (demoOne n [hiN, homeN]).ep hiN = 3 := by show min 3 (3 + _) = 3; omega
    simp [State.poolOrder, demoOne, demoCore0, sortBy, insertBy] at k ⊢
    simp [k]
  have b : (demoOne n [hiN, homeN]).placeFor hiN = none :=
    (place_any (demoCore0 [hiN, homeN]) n hiN).trans (by decide +kernel)
  have p : (demoOne n [hiN, homeN]).nextPlacement = none := by
    have x : hiN.offers = [(0, false)] := by decide +kernel
    have y : homeN.offers = [] := by decide +kernel
    simp [State.nextPlacement, State.offerCores, o, x, y, b]
  have c : (demoOne n [hiN, homeN]).unitCores hiN.words ((demoOne n [hiN, homeN]).drainable hiN.node) = some [0] :=
    (drain_any (demoCore0 [hiN, homeN]) n _ _).trans (by decide +kernel)
  have d : (demoOne n [hiN, homeN]).waitedLong hiN = true := decide_eq_true h
  have e : (demoOne n [hiN, homeN]).poolHead = some 0x2000 := by rw [State.poolHead, o]; rfl
  rw [State.priorityDrain, if_pos, c]
  simp only [Bool.and_eq_true]
  exact ⟨⟨⟨⟨⟨⟨rfl, rfl⟩, by rw [e]; rfl⟩, decide_eq_true h⟩, d⟩, rfl⟩, by rw [p]; rfl⟩
theorem test_record_waits : let s := demo.modCol 0 (fun k => { k with scqWait := [⟨0, 1, 0, 8⟩] })
    (s.column 0).scqWait = [⟨0, 1, 0, 8⟩] ∧ (s.column 0).scq.length < 64 ∧ goesOn (exec (.suspensionRecordPush 0) s) = true := by decide +kernel

/-- FabricEvents: an access of a peer, one of an address that it does not take, three expiries, and a group's stores and barrier. -/
theorem test_peer_due : let f := { fl .load with fmode := 1, peer := 5 }
    (demoF f).peerDue f = true ∧ isHbm f.pa = true ∧ f.peer ≠ (demoF f).device ∧ goesOn (exec (.fabricRequestAtPeer 9 7 false) (demoF f)) = true ∧
    isHbm 0xE_0000_0000_0000 = false ∧ goesOn (exec (.fabricRequestAtPeer 9 7 true) (demoF { f with pa := 0xE_0000_0000_0000 })) = true ∧
    (demoF f).keepsCopy { f with fmode := 2 } = true ∧ (demoF f).watches f = true ∧ goesOn (exec (.fabricTimerExpiry 9) (demoF f)) = true ∧ goesOn (exec (.fabricTimerExpiry 9) (demoF { f with swz := 2 })) = true := by
  decide +kernel
/-- FabricEvents: an access that comes back to this device, one beyond a window, what a switch takes, and the timer of an engine's read. -/
theorem test_home_peer_due : let f := { fl .store with stage := 1, fmode := 1, data := 5 }
    let b := { fl .load with fmode := 1, pa := windowBase }
    let c := { fl .fred with peer := 3 }
    let a := { fl .fbar with peer := 3 }
    f.peer = (demoF f).device ∧ (demoF f).peerDue f = true ∧ (demoF f).beyondWindow 0 = false ∧ (demoF f).farBad f = false ∧ (demoF f).windowAt 0 = none ∧
    (demoF f).inSlice 0 = true ∧ isHbm 0 = true ∧ (demoF b).peerDue b = true ∧ isWindow b.pa = true ∧ (demoF b).beyondWindow b.pa = true ∧
    (match exec (.fabricRequestAtPeer 9 7 false) (demoF f) with
      | .next s => memRead s.mem 0 8 == 5 && s.flights.map (·.stage) == [3]
      | _ => false) = true ∧ goesOn (exec (.fabricRequestAtPeer 9 7 false) (demoF b)) = true ∧
    (∀ x ∈ [c, a], (demoF x).switchTakes x = true ∧ goesOn (exec (.fabricRequestAtPeer 9 0 false) (demoF x)) = true) := by decide +kernel
theorem test_read_timer : let s := State.modCore (demoSlip { demoCmd with id := 5 }) 0 (fun k => { k with tlb := [{ loadTlb 0 with pte := 0x21F + 3 * 2 ^ 52 }] })
    s.readPeer 5 = some 3 ∧ s.flight? 5 = none ∧ goesOn (exec (.fabricTimerExpiry 5) s) = true := by decide +kernel
theorem test_glaze_due : let f := { fl .gst with acc := 4 }
    let r := { fl .fred with stage := 1 }
    let w : Gwin := { en := true, applied := 0 }
    let st : GStore := { stamp := 1, off := 0, size := 8, data := 5 }
    let s := { demoF f with gwins := [(0, w)] }
    let a := { demoF f with gwins := [(0, w)], groups := [(0, { next := 2, pending := [st], buffer := [st] })] }
    let b := { a with groups := [(0, { next := 2, buffer := [st] })] }
    let c := { a with groups := [(0, { arrived := 1 })] }
    let d := { demoF r with gwins := [(0, w)] }
    s.toStamp 0 = [4] ∧ a.inSlice 0 = true ∧ goesOn (exec (.glazeApply 0) a) = true ∧
    goesOn (exec (.glazeReplayRequest 0) b) = true ∧ goesOn (exec (.fbarEpisodeComplete 0) c) = true ∧ (d.fredSet 0 0).isSome = true ∧
    goesOn (exec (.fredComplete 0 0) d) = true := by decide +kernel
theorem test_gwait_over : let s := demo.modCourse 0 0 (fun C => { C with parked := some [.gwait 0 5 (some 0)] })
    (s.course 0 0).parked = some [.gwait 0 5 (some 0)] ∧ 0 ≤ s.cycle (s.colOf 0) ∧ goesOn (exec (.gwaitTimeout 0 0) s) = true := by decide +kernel

/-- QuiesceEvents: the four phases. -/
theorem test_quiesce_due : let s := fun p => { demo with quiesce := { phase := p } }
    goesOn (exec (.quiesceStop .checkpoint) (s .none)) = true ∧ (∀ p ∈ (s .stopped).teams, p.2.sup = false → p.2.stopped = true) ∧
    goesOn (exec .quiesceDrain (s .stopped)) = true ∧ goesOn (exec (.quiesceReconfigure [3]) (s .drained)) = true ∧
    goesOn (exec .quiesceResume (s .reconfigured)) = true := by decide +kernel

/-- ColumnAndHostAccesses. -/
theorem test_stream_due : let p : PortAcc := { id := 1, stream := 3, seq := 0, home := demo.home 0, pa := 0, size := 8, data := 5 }
    let s := { demoF (fl .load) with port := [p] }
    let l := 0xF_8000_0010_0000
    s.streamReady (demo.home 0) 3 = [p] ∧ isHbm 0 = true ∧ s.windowAt 0 = none ∧ s.inSlice 0 = true ∧ hostReach .posted 0 = true ∧ s.boot.stage = 6 ∧
    s.readFree (s.server 0 0).1 rankHost 0 8 = true ∧
    goesOn (exec (.hostWrite .posted 0 8 5) s) = true ∧ goesOn (exec (.hostRead 0 8) s) = true ∧ ctlPage (l + 0x600) = some (0, 0x600) ∧
    goesOn (exec (.hostRead (l + 0x600) 8) s) = true := by decide +kernel
theorem test_queue_due : let s := demo.modCol 0 (fun k => { k with suspq := [5], raslog := [⟨1, 2, 3, 0⟩], taskq := [128], tasks := [128] })
    let e : WaitEnt := { pa := 0, asid := 0, who := none, col := 0, deadline := none, ended := true }
    let w := demo.modCol 0 (fun k => { k with waits := [e] })
    (s.column 0).suspq = [5] ∧ goesOn (exec (.suspqPop 0) s) = true ∧ goesOn (exec (.raslogPop 0) s) = true ∧ goesOn (exec (.taskqPop 0) s) = true ∧
    goesOn (exec .migqPop s) = true ∧ goesOn (exec .pwrnowRead s) = true ∧ s.columnEntry 0 = none ∧ goesOn (exec (.waitaddrWrite 0 64) s) = true ∧
    goesOn (exec (.wakeWrite 0 64) s) = true ∧ goesOn (exec (.taskdoneWrite 0 128) s) = true ∧ w.columnEntry 0 = some (0, e) ∧
    goesOn (exec (.columnWaitEnd 0) w) = true := by decide +kernel
/-- RegisterWrites: an arena, a pinned range and a glaze window that are enabled. -/
theorem test_register_due : let s := demo.modCol 63 (fun k => { k with arenas := [(15, { base := 65536, size := 1 })] })
    let p := { demo with pinmap := [(63, (2 ^ 16, 0))] }
    ((s.column 63).arena 15).en = false ∧ canonical ((s.column 63).arena 15).base = true ∧ s.arenasOn = [] ∧
    goesOn (exec (.arenaWrite 63 15 true (2 ^ 40 + 2 ^ 16)) s) = true ∧ p.pinRanges = [] ∧
    goesOn (exec (.pinmapWrite 63 true (2 ^ 40 + 2 ^ 16)) p) = true ∧ (demo.gwin 63).en = false ∧
    goesOn (exec (.gwinWrite 63 false 1) demo) = true ∧ goesOn (exec (.registerWrite 0 0x600 500) demo) = true ∧
    goesOn (exec (.drainreqWrite 63 1) demo) = true := by decide +kernel
/-- RegisterWrites: a value of an INTEN bit that is set, REPCTL, CONECTL, RASCTL and the ring of the host, each with a field outside its encodings. -/
theorem test_register_fields : let s := demo.modCol 5 (fun k => { k with intstat := 2 })
    let col := fun off v => match exec (.registerWrite 5 off v) s with
      | .next s => (s.column 5, s.vectors)
      | _ => ({}, [])
    (col 0x038 2).2 = [5] ∧ (col 0x038 1).2 = [] ∧ fld (col 0x000 (9 * 2 ^ 48 + 7 * 2 ^ 32)).1.repctl.toNat 32 16 = 7 ∧
    fld (col 0x000 (9 * 2 ^ 48 + 7 * 2 ^ 32)).1.repctl.toNat 48 8 = 20 ∧ fld (col 0x010 (2 ^ 24 + 3)).1.conectl 0 2 = 3 ∧
    fld (col 0x010 (2 ^ 24 + 3)).1.conectl 24 8 = 105 ∧ wfld (col 0x500 (41 * 2 ^ 8)).1.rasctl 8 8 = 30 ∧
    goesOn (exec (.registerWrite 0 0x200 4096) demo) = true ∧ goesOn (exec (.registerWrite 0 0x208 16) demo) = true := by decide +kernel
/-- PackageEvents. -/
theorem test_package_due : State.reset.boot.stage = 0 ∧ State.reset.boot.error = 0 ∧ goesOn (exec (.powerOnReset none) State.reset) = true ∧
    goesOn (exec (.powerOnReset (some (4, 5))) State.reset) = true ∧ fld (demo.column 63).conectl 0 2 = 0 ∧ (demo.column 63).pfloor = 0 ∧
    goesOn (exec (.coneEvaluation 63 105 false) demo) = true ∧ goesOn (exec (.powerManagerTick 2601) demo) = true ∧
    goesOn (exec (.correctedError 63 5 0) demo) = true ∧ goesOn (exec (.uncorrectableError 63 3 0) demo) = true ∧
    goesOn (exec (.measurementReport 1) demo) = true ∧ demo.port = [] ∧ goesOn (exec (.managementRequest (.read 63 0x508)) demo) = true ∧
    goesOn (exec (.managementRequest (.write 63 0x500 1)) demo) = true ∧ goesOn (exec (.deviceNumberSet 4096) demo) = true := by decide +kernel

/-- The machine with a flash, the fused digest of the key 1, and a fused SVN. -/
def fused (f : Flash) (svn : Nat) : State := { State.reset with flash := f, fuseKey := Config.digest [1], fuseSvn := svn }
theorem fused_is (f : Flash) (svn : Nat) : (fused f svn).flash = f ∧ (fused f svn).fuseKey = Config.digest [1] ∧ (fused f svn).fuseSvn = svn :=
  ⟨rfl, rfl, rfl⟩
/-- STAGE and ERROR after an instruction. -/
def bootOut : Host.Outcome State Fault Refusal → Nat × Nat
  | .next s => (s.boot.stage, s.boot.error)
  | _ => (9, 9)
theorem bootOut_next (s : State) : bootOut (.next s) = (s.boot.stage, s.boot.error) := rfl
/-- What the bring-up with a flash and a fused SVN ends in. -/
def bootEnd (f : Flash) (svn : Nat) : Nat × Nat := bootOut (exec (.powerOnReset none) (fused f svn))
theorem bootEnd_of {f : Flash} {n : Nat} {x : Option (Nat × Nat)} (h : (fused f n).bootFails = x) :
    bootEnd f n = (((fused f n).powerOn.sampleTemp.bringUp x).boot.stage, ((fused f n).powerOn.sampleTemp.bringUp x).boot.error) := by
  subst h
  rw [bootEnd, exec, execPowerOnReset_none (fused f n), bootOut_next]
def goodImage : Image := ⟨0, 4096, [1, 2], Config.digest [1, 2]⟩
def badImage : Image := ⟨0, 4096, [1, 2], Config.digest [1, 2] + 1⟩
/-- PackageEvents: a manifest that the fused key has signed, with images and an SVN that are good and ones that are not, and a manifest whose
signature does not verify (R395, R396). -/
theorem test_boot_ways (v : Bool) (h : ∀ m, Config.verify [1] m [] = v) : if v then
      bootEnd { key := [1] } 0 = (6, 0) ∧ bootEnd { key := [1] } 1 = (1, 3) ∧ bootEnd { key := [1], firmware := [badImage] } 0 = (2, 4) ∧
      bootEnd { key := [1], images := [badImage] } 0 = (4, 6) ∧ bootEnd { key := [1], images := [goodImage] } 0 = (6, 0)
    else bootEnd { key := [1] } 0 = (1, 2) := by
  have b : ∀ f n, (fused f n).bootFails = _ := fun f n => by simp only [State.bootFails, State.signed, fused_is]; rfl
  cases v <;> simp only [Bool.false_eq_true, if_false, if_true]
  · rw [bootEnd_of ((b _ _).trans (by simp [byteNums, h] : _ = some (2, 2)))]; decide +kernel
  · refine ⟨?_, ?_, ?_, ?_, ?_⟩
    · rw [bootEnd_of ((b _ _).trans (by simp [byteNums, h] : _ = none))]; decide +kernel
    · rw [bootEnd_of ((b _ _).trans (by simp [byteNums, h] : _ = some (2, 3)))]; decide +kernel
    · rw [bootEnd_of ((b _ _).trans (by simp [byteNums, h, badImage, Image.spoilt] : _ = some (3, 4)))]; decide +kernel
    · rw [bootEnd_of ((b _ _).trans (by simp [byteNums, h, badImage, Image.spoilt] : _ = some (5, 6)))]; decide +kernel
    · rw [bootEnd_of ((b _ _).trans (by simp [byteNums, h, goodImage, Image.spoilt] : _ = none))]; decide +kernel

/-- StepRunsDecoded: one sequencer has a course, inside its batch, whose line decodes to `nop`; it is the only choice. -/
theorem test_step_ready : let s := (State.reset.load 0xC000).later
    s.chosen = some (.issue 0 0) ∧ s.pick 0 0 = some (0, 0) ∧ (s.course 0 0).coh = some demoCoh ∧
    s.fetch 0 0 0 = .line (loadLine 0xC000) ∧ lineReason (loadLine 0xC000) = none ∧ granuleOf 8 = some 0 ∧ bitN (lineStart (loadLine 0xC000)) 0 = true ∧
    fld (loadLine 0xC000) 64 (32 * instLen (loadLine 0xC000) 0) = 0xC000 ∧ reads 0xC000 (.nop (ops)) = true := by decide +kernel
/-- A step has a next state in which memory has its form (StepsKeepMemoryForm), and WellFormed instructions have words (EncodeThenDecode). -/
theorem test_step_runs : MemOk (State.reset.load 0xC000) ∧ goesOn (step (State.reset.load 0xC000)) = true ∧
    WellFormed (.nop (ops)) ∧ WellFormed (.add (ops (.v 255) (.k 0) (.imm 255)) .i64 true) := by
  unfold MemOk; decide +kernel

end Sys2Proof.Tests
end

/-! ## Fields of registers (R5, R11) -/

namespace Sys2Proof.Machine

/-- A field depends on no bit above its last one. -/
theorem fld_mod {x lo n m : Nat} (h : lo + n ≤ m) : fld (x % 2 ^ m) lo n = fld x lo n := by
  obtain ⟨k, rfl⟩ := Nat.exists_eq_add_of_le h
  simp only [fld_eq]
  rw [Nat.add_assoc, pow_add, Nat.mod_mul_right_div_self, pow_add, Nat.mod_mod_of_dvd _ (Nat.dvd_mul_right _ _)]

theorem fld_lt (x lo n : Nat) : fld x lo n < 2 ^ n := Nat.mod_lt _ (Nat.two_pow_pos n)

/-- What `setFld` makes of a number, in its three parts: above the field, the field, below it. -/
theorem setFld_eq (x lo n v : Nat) : setFld x lo n v = 2 ^ lo * (2 ^ n * (x / 2 ^ lo / 2 ^ n) + v % 2 ^ n) + x % 2 ^ lo := by
  have hlow := Nat.div_add_mod x (2 ^ lo)
  have hfld := Nat.div_add_mod (x / 2 ^ lo) (2 ^ n)
  have hmul : 2 ^ lo * (x / 2 ^ lo) = 2 ^ lo * (2 ^ n * (x / 2 ^ lo / 2 ^ n)) + 2 ^ lo * (x / 2 ^ lo % 2 ^ n) := by
    rw [← Nat.mul_add, hfld]
  simp only [setFld, fld_eq, Nat.shiftLeft_eq, Nat.mul_add, Nat.mul_comm _ (2 ^ lo)]
  omega

theorem setFld_mod_low (x lo n v : Nat) : setFld x lo n v % 2 ^ lo = x % 2 ^ lo := by
  rw [setFld_eq, Nat.mul_add_mod, Nat.mod_mod]

theorem setFld_div_low (x lo n v : Nat) : setFld x lo n v / 2 ^ lo = 2 ^ n * (x / 2 ^ lo / 2 ^ n) + v % 2 ^ n := by
  rw [setFld_eq, Nat.mul_add_div (Nat.two_pow_pos lo), Nat.div_eq_of_lt (Nat.mod_lt x (Nat.two_pow_pos lo)), Nat.add_zero]

@[simp] theorem fld_setFld_same (x lo n v : Nat) : fld (setFld x lo n v) lo n = v % 2 ^ n := by
  rw [fld_eq, setFld_div_low, Nat.mul_add_mod, Nat.mod_mod]

theorem fld_setFld_below {lo n lo' n' : Nat} (x v : Nat) (h : lo' + n' ≤ lo) : fld (setFld x lo n v) lo' n' = fld x lo' n' := by
  rw [← fld_mod h, setFld_mod_low, fld_mod h]

theorem fld_setFld_above {lo n lo' n' : Nat} (x v : Nat) (h : lo + n ≤ lo') : fld (setFld x lo n v) lo' n' = fld x lo' n' := by
  have hdiv : setFld x lo n v / 2 ^ lo / 2 ^ n = x / 2 ^ lo / 2 ^ n := by
    rw [setFld_div_low, Nat.mul_add_div (Nat.two_pow_pos n), Nat.div_eq_of_lt (Nat.mod_lt v (Nat.two_pow_pos n)), Nat.add_zero]
  obtain ⟨k, rfl⟩ := Nat.exists_eq_add_of_le h
  simp only [fld_eq, pow_add, ← Nat.div_div_eq_div_mul, hdiv]

/-- A field that takes a value from `a` to `b` holds it, and else what it held (R11). -/
theorem fld_takeFld_between (x lo n v a b : Nat) :
    fld (takeFld x lo n v (a ≤ v && v ≤ b)) lo n = if a ≤ v ∧ v ≤ b then v % 2 ^ n else fld x lo n := by
  simp only [takeFld, Bool.and_eq_true, decide_eq_true_eq, apply_ite (fun y => fld y lo n), fld_setFld_same]

theorem fld_takeFld_below {lo n lo' n' : Nat} (x v : Nat) (ok : Bool) (h : lo' + n' ≤ lo) :
    fld (takeFld x lo n v ok) lo' n' = fld x lo' n' := by
  cases ok <;> simp [takeFld, fld_setFld_below _ _ h]

theorem fld_takeFld_above {lo n lo' n' : Nat} (x v : Nat) (ok : Bool) (h : lo + n ≤ lo') :
    fld (takeFld x lo n v ok) lo' n' = fld x lo' n' := by
  cases ok <;> simp [takeFld, fld_setFld_above _ _ h]

/-- A field of a word that is made of a number. -/
theorem wfld_wordOf {lo n : Nat} (x : Nat) (h : lo + n ≤ 64) : wfld (wordOf x) lo n = fld x lo n := by
  rw [wfld, BitVec.toNat_ofNat, fld_mod h]

theorem wfld_mod (v : Word) (lo n : Nat) : wfld v lo n % 2 ^ n = wfld v lo n := Nat.mod_mod _ _

/-! ## What a write of a register of one column leaves in its fields (R11, R366, R369, R373, R402) -/

/-- CONECTL takes CAP, and the three thresholds only where they rise (R366). -/
theorem writeConectl_fields (x : Nat) (v : Word) : fld (writeConectl x v) 0 2 = wfld v 0 2 ∧
    fld (writeConectl x v) 8 24 =
      if wfld v 8 8 < wfld v 16 8 ∧ wfld v 16 8 < wfld v 24 8 then wfld v 8 24 else fld x 8 24 := by
  refine ⟨(fld_setFld_same ..).trans (wfld_mod v 0 2), (fld_setFld_above _ _ (by decide)).trans ?_⟩
  simp only [Bool.and_eq_true, decide_eq_true_eq, apply_ite (fun y => fld y 8 24), fld_setFld_same, wfld_mod]

/-- RASCTL takes EN, and WEXP only within its encodings (R402). -/
theorem writeRasctl_fields (x : Word) (v : Word) : wfld (wordOf (writeRasctl x.toNat v)) 0 1 = wfld v 0 1 ∧
    wfld (wordOf (writeRasctl x.toNat v)) 8 8 = if 20 ≤ wfld v 8 8 ∧ wfld v 8 8 ≤ 40 then wfld v 8 8 else wfld x 8 8 := by
  simp (disch := decide) only [wfld_wordOf, writeRasctl, fld_takeFld_below, fld_takeFld_between, fld_setFld_same, fld_setFld_above,
    wfld_mod, true_and]
  rfl

/-- HNQCTL takes HEAD, keeps TAIL, and takes the number of entries only within its encodings (R373). -/
theorem writeHnqctl_fields (x : Word) (v : Word) : wfld (wordOf (writeHnqctl x.toNat v)) 32 16 = wfld v 32 16 ∧
    wfld (wordOf (writeHnqctl x.toNat v)) 16 16 = wfld x 16 16 ∧
    wfld (wordOf (writeHnqctl x.toNat v)) 0 16 =
      if 16 ≤ wfld v 0 16 ∧ wfld v 0 16 ≤ 4096 then wfld v 0 16 else wfld x 0 16 := by
  simp (disch := decide) only [wfld_wordOf, writeHnqctl, fld_takeFld_above, fld_takeFld_between, fld_setFld_same, fld_setFld_below,
    wfld_mod, true_and]
  exact ⟨rfl, rfl⟩

/-- DUTY takes its fields while LOCK is clear (R369). -/
theorem Column.writeDuty_eq (k : Column) (v : Word) :
    k.writeDuty v = if bitN k.duty 8 then k else { k with duty := wfld v 0 5 + 2 ^ 8 * wfld v 8 1 } := by
  have hduty : setFld (wfld v 0 5) 8 1 (wfld v 8 1) = wfld v 0 5 + 2 ^ 8 * wfld v 8 1 := by
    have hlow : wfld v 0 5 < 2 ^ 5 := fld_lt ..
    have hlock : wfld v 8 1 < 2 ^ 1 := fld_lt ..
    rw [setFld_eq]
    omega
  rw [Column.writeDuty, hduty]

/-- INTEN takes its bits; a bit that is set in INTSTAT and newly enabled sends the column's vector (R362, R371). -/
theorem State.writeInten_eq (s : State) (col : Nat) (v : Word) :
    s.writeInten col v =
      let S := s.modCol col (fun k => { k with inten := wfld v 0 4 })
      if ∃ b ∈ List.range 4, bitN (s.column col).intstat b = true ∧ bitN (s.column col).inten b = false ∧ bitN v.toNat b = true
      then { S with vectors := s.vectors ++ [col] } else S := by
  simp only [State.writeInten, List.any_eq_true, Bool.and_eq_true, Bool.not_eq_true', and_assoc, State.modCol_vectors]

/-! ## REPCTL (R206, R207) -/

/-- REPCTL as a store leaves it (R207). -/
def writeRepctlVal (old : Nat) (v : Word) : Nat :=
  setFld (setFld (setFld (takeFld old 48 8 (wfld v 48 8) (10 ≤ wfld v 48 8 && wfld v 48 8 ≤ 40)) 32 16 (wfld v 32 16)) 16 16
    (wfld v 16 16)) 0 1 (wfld v 0 1)

/-- The column after REPCTL has taken its fields, before regions return (R206, R207). -/
def State.setRepctl (s : State) (col : Nat) (v : Word) : State :=
  let x := writeRepctlVal (s.column col).repctl.toNat v
  s.modCol col (fun k => { k with repctl := wordOf x, halved := s.cycle col / 2 ^ fld x 48 8 })

/-- Every one of some regions returns to memory-side mode (R206). -/
def State.unreplicateAll (s : State) (col : Nat) (l : List RegCnt) : State :=
  l.foldl (fun s c => s.unreplicate col c.region) s

theorem State.writeRepctl_eq (s : State) (col : Nat) (v : Word) :
    s.writeRepctl col v = if wfld v 0 1 = 1 then s.setRepctl col v
      else (s.setRepctl col v).unreplicateAll col (((s.setRepctl col v).column col).counters.filter (·.repl)) := rfl

/-- REPCTL takes EN, WTH and RTH, and EPOCH only within its encodings (R207). -/
theorem writeRepctlVal_fields (x : Word) (v : Word) :
    let r := wordOf (writeRepctlVal x.toNat v)
    wfld r 0 1 = wfld v 0 1 ∧ wfld r 16 16 = wfld v 16 16 ∧ wfld r 32 16 = wfld v 32 16 ∧
    wfld r 48 8 = if 10 ≤ wfld v 48 8 ∧ wfld v 48 8 ≤ 40 then wfld v 48 8 else wfld x 48 8 := by
  intro r
  simp (disch := decide) only [r, wfld_wordOf, writeRepctlVal, fld_setFld_same, fld_setFld_above, fld_takeFld_between, wfld_mod,
    true_and]
  rfl

/-- Invalidations are sent through the channels of columns alone (R208). -/
theorem State.sendInval_frame (s : State) (home rg : Nat) (gs : List Nat) (who : Option Nat) (C : List (Nat × Column)) :
    { s.sendInval home rg gs who with columns := C } = { s with columns := C } := by
  unfold State.sendInval
  induction replicaCols home generalizing s with
  | nil => rfl
  | cons c l ih =>
    rw [List.foldl_cons, ih]
    dsimp only
    split <;> rfl

/-- What invalidations leave of a column: everything but its channel (R208). -/
theorem State.sendInval_column (s : State) (home rg : Nat) (gs : List Nat) (who : Option Nat) (q : Nat) :
    { (s.sendInval home rg gs who).column q with inval := [] } = { s.column q with inval := [] } := by
  unfold State.sendInval
  induction replicaCols home generalizing s with
  | nil => rfl
  | cons c l ih =>
    rw [List.foldl_cons, ih]
    dsimp only
    split
    · rfl
    · by_cases hq : q = c
      · rw [hq, State.column_modCol_same]
      · rw [State.column_modCol_ne _ hq]

@[simp] theorem State.sendInval_repctl (s : State) (home rg : Nat) (gs : List Nat) (who : Option Nat) (q : Nat) :
    ((s.sendInval home rg gs who).column q).repctl = (s.column q).repctl :=
  (congrArg Column.repctl (s.sendInval_column home rg gs who q) :)

@[simp] theorem State.sendInval_counters (s : State) (home rg : Nat) (gs : List Nat) (who : Option Nat) (q : Nat) :
    ((s.sendInval home rg gs who).column q).counters = (s.column q).counters :=
  (congrArg Column.counters (s.sendInval_column home rg gs who q) :)

/-- A region's return takes a number and changes columns (R206). -/
theorem State.unreplicate_frame (s : State) (col rg : Nat) (C : List (Nat × Column)) (i : Nat) :
    { s.unreplicate col rg with columns := C, nextId := i } = { s with columns := C, nextId := i } :=
  congrArg (fun S : State => { S with nextId := i }) (State.sendInval_frame _ col rg _ _ C)

@[simp] theorem State.unreplicate_repctl (s : State) (col rg : Nat) :
    ((s.unreplicate col rg).column col).repctl = (s.column col).repctl := by
  rw [State.unreplicate, State.sendInval_repctl, State.column_modCol_same]
  rfl

/-- The region's counter, and no other, leaves the replicated mode (R206). -/
@[simp] theorem State.unreplicate_counters (s : State) (col rg : Nat) : ((s.unreplicate col rg).column col).counters =
    (s.column col).counters.map (fun c => if c.region == rg then { c with repl := false } else c) := by
  rw [State.unreplicate, State.sendInval_counters, State.column_modCol_same]
  rfl

theorem State.unreplicateAll_frame (s : State) (col : Nat) (l : List RegCnt) (C : List (Nat × Column)) (i : Nat) :
    { s.unreplicateAll col l with columns := C, nextId := i } = { s with columns := C, nextId := i } := by
  induction l generalizing s with
  | nil => rfl
  | cons c l ih => exact (ih _).trans (s.unreplicate_frame col c.region C i)

theorem State.unreplicateAll_repctl (s : State) (col : Nat) (l : List RegCnt) :
    ((s.unreplicateAll col l).column col).repctl = (s.column col).repctl := by
  induction l generalizing s with
  | nil => rfl
  | cons c l ih => exact (ih _).trans (s.unreplicate_repctl col c.region)

/-- A counter that is still replicated after some regions have returned was so before, and is none of theirs (R206). -/
theorem State.unreplicateAll_repl {s : State} {col : Nat} {l : List RegCnt} {c : RegCnt}
    (hc : c ∈ ((s.unreplicateAll col l).column col).counters) (hr : c.repl = true) :
    c ∈ (s.column col).counters ∧ ∀ x ∈ l, c.region ≠ x.region := by
  induction l generalizing s with
  | nil => exact ⟨hc, by simp⟩
  | cons x l ih =>
    obtain ⟨hmem, hrest⟩ := ih (s := s.unreplicate col x.region) hc
    rw [State.unreplicate_counters] at hmem
    obtain ⟨c', hc', rfl⟩ := List.mem_map.1 hmem
    split at hr
    · cases hr
    · rename_i hx
      rw [if_neg hx] at hrest ⊢
      exact ⟨hc', List.forall_mem_cons.2 ⟨by simpa using hx, hrest⟩⟩

/-- Clearing EN returns every region to memory-side mode (R206). -/
theorem State.unreplicateAll_none (s : State) (col : Nat) :
    ∀ c ∈ ((s.unreplicateAll col ((s.column col).counters.filter (·.repl))).column col).counters, c.repl = false := by
  intro c hc
  by_contra hr
  rw [Bool.not_eq_false] at hr
  obtain ⟨hmem, hne⟩ := State.unreplicateAll_repl hc hr
  exact hne c (List.mem_filter.2 ⟨hmem, hr⟩) rfl

theorem State.writeRepctl_frame (s : State) (col : Nat) (v : Word) :
    { s.writeRepctl col v with columns := s.columns, nextId := s.nextId } = s := by
  rw [State.writeRepctl_eq]
  split
  · rfl
  · exact State.unreplicateAll_frame ..

theorem State.setRepctl_repctl (s : State) (col : Nat) (v : Word) :
    ((s.setRepctl col v).column col).repctl = wordOf (writeRepctlVal (s.column col).repctl.toNat v) := by
  rw [State.setRepctl, State.column_modCol_same]

theorem State.writeRepctl_repctl (s : State) (col : Nat) (v : Word) :
    ((s.writeRepctl col v).column col).repctl = wordOf (writeRepctlVal (s.column col).repctl.toNat v) := by
  rw [State.writeRepctl_eq]
  split
  · exact s.setRepctl_repctl col v
  · rw [State.unreplicateAll_repctl, State.setRepctl_repctl]

theorem State.writeRepctl_clear (s : State) (col : Nat) (v : Word) (hen : wfld v 0 1 = 0) :
    ∀ c ∈ ((s.writeRepctl col v).column col).counters, c.repl = false := by
  rw [State.writeRepctl_eq, hen]
  exact State.unreplicateAll_none _ col

/-! ## DRAINREQ (R362) -/

theorem State.core_stopDrain (s : State) (c q : Nat) :
    (s.stopDrain c).core q = if q = c then { s.core q with draining := none } else s.core q := by
  split
  · subst q; exact State.core_modCore_same ..
  · exact State.core_modCore_ne _ ‹_› _

/-- The drains of some slots of a column stop where DRAINREQ is written 0 (R362). -/
def State.stopDrains (s : State) (col new : Nat) (l : List Nat) : State :=
  l.foldl (fun s i => if bitN new i then s else s.stopDrain (col * 12 + i)) s

theorem State.writeDrainreq_eq (s : State) (col : Nat) (v : Word) :
    s.writeDrainreq col v =
      (s.modCol col (fun k => { k with drainreq := wfld v 0 12 })).stopDrains col (wfld v 0 12) (List.range 12) := rfl

theorem State.stopDrains_cons (s : State) (col new i : Nat) (l : List Nat) : s.stopDrains col new (i :: l) =
    (if bitN new i then s else s.stopDrain (col * 12 + i)).stopDrains col new l := rfl

theorem State.stopDrains_frame (s : State) (col new : Nat) (l : List Nat) (T : List (Nat × Team)) (K : List (Nat × Core)) :
    { s.stopDrains col new l with teams := T, cores := K } = { s with teams := T, cores := K } := by
  induction l generalizing s with
  | nil => rfl
  | cons i l ih =>
    rw [State.stopDrains_cons, ih]
    split <;> rfl

theorem State.core_stopDrains (s : State) (col new : Nat) (l : List Nat) (q : Nat) :
    (s.stopDrains col new l).core q =
      if ∃ i ∈ l, bitN new i = false ∧ q = col * 12 + i then { s.core q with draining := none } else s.core q := by
  induction l generalizing s with
  | nil => simp [State.stopDrains]
  | cons i l ih =>
    rw [State.stopDrains_cons, ih]
    cases hb : bitN new i
    · by_cases hq : q = col * 12 + i <;> simp [hb, hq, State.core_stopDrain]
    · simp [hb]

/-- Core `q` stands in a slot of the column whose bit is 0 (R17). -/
theorem slot_open_iff (col new q : Nat) :
    (∃ i ∈ List.range 12, bitN new i = false ∧ q = col * 12 + i) ↔ q / 12 = col ∧ bitN new (q % 12) = false := by
  constructor
  · rintro ⟨i, hi, hb, rfl⟩
    have hi := List.mem_range.1 hi
    have hslot : (col * 12 + i) % 12 = i := by omega
    exact ⟨by omega, by rw [hslot, hb]⟩
  · rintro ⟨rfl, hb⟩
    exact ⟨q % 12, List.mem_range.2 (by omega), hb, by omega⟩

theorem State.writeDrainreq_core (s : State) (col : Nat) (v : Word) (q : Nat) :
    if q / 12 = col ∧ bitN (wfld v 0 12) (q % 12) = false
      then (s.writeDrainreq col v).core q = { s.core q with draining := none } else (s.writeDrainreq col v).core q = s.core q := by
  rw [State.writeDrainreq_eq, State.core_stopDrains]
  simp only [slot_open_iff, State.core_modCol]
  split <;> rfl

theorem State.writeDrainreq_frame (s : State) (col : Nat) (v : Word) :
    { s.writeDrainreq col v with teams := s.teams, cores := s.cores, columns := s.columns } = s :=
  congrArg (fun S : State => { S with columns := s.columns })
    (State.stopDrains_frame (s.modCol col (fun k => { k with drainreq := wfld v 0 12 })) col _ _ s.teams s.cores)

theorem State.writeDrainreq_drainreq (s : State) (col : Nat) (v : Word) :
    ((s.writeDrainreq col v).column col).drainreq = wfld v 0 12 := by
  have hcols : (s.writeDrainreq col v).columns = (s.modCol col (fun k => { k with drainreq := wfld v 0 12 })).columns :=
    (congrArg State.columns (State.stopDrains_frame _ col _ _ s.teams s.cores) :)
  rw [State.column, hcols]
  exact congrArg Column.drainreq (s.column_modCol_same col _)

/-! ## Arenas, the pin map and glaze windows (R365, R382, R408) -/

/-- Two ranges do not meet: one ends before the other begins. -/
theorem not_meet_iff (a m b n : Nat) : ¬ (b < a + m ∧ a < b + n) ↔ a + m ≤ b ∨ b + n ≤ a := by omega

/-- An arena may be enabled: not empty, aligned, and apart from the enabled arenas of its address space (R365). -/
theorem State.arenaOk_iff (s : State) (base : Word) (asid size : Nat) : s.arenaOk base asid size = true ↔
    size ≠ 0 ∧ canonical base = true ∧ base.toNat % 65536 = 0 ∧ ∀ b ∈ s.arenasOn, b.asid = asid →
      base.toNat + size * 65536 ≤ b.base.toNat ∨ b.base.toNat + b.size * 65536 ≤ base.toNat := by
  simp only [← not_meet_iff, State.arenaOk]
  simp [and_assoc]

/-- The check of a range in `State.writePinmap` (R408). -/
def State.pinFree (s : State) (base size : Nat) : Bool :=
  !(size = 0 || 0xE_0000_0000_0000 < base + size || s.pinRanges.any (fun r => r.1 < base + size && base < r.1 + r.2.1))

/-- A range may be pinned: not empty, in memory, and apart from the enabled ranges (R408). -/
theorem State.pinFree_iff (s : State) (base size : Nat) : s.pinFree base size = true ↔
    size ≠ 0 ∧ base + size ≤ 0xE_0000_0000_0000 ∧ ∀ r ∈ s.pinRanges, base + size ≤ r.1 ∨ r.1 + r.2.1 ≤ base := by
  simp only [State.pinFree, ← not_meet_iff]
  simp [and_assoc]

/-- The state with another arena (R365). -/
def State.putArena (s : State) (col n : Nat) (x : Arena) : State := s.modCol col (fun k => { k with arenas := mapPut n x k.arenas })

/-- The state with another entry of the pin map (R408). -/
def State.putPin (s : State) (n : Nat) (x : Word × Word) : State := { s with pinmap := mapPut n x s.pinmap }

/-- The base of an arena can be written while the arena is disabled (R365). -/
theorem State.writeArena_base (s : State) (col n : Nat) (v : Word) : s.writeArena col n false v =
    if ((s.column col).arena n).en then s
    else s.putArena col n { (s.column col).arena n with base := v } := rfl

/-- An enabled arena can be disabled, which gives up its blocks, and nothing else (R365). -/
theorem State.writeArena_enabled {s : State} {col n : Nat} (v : Word) (hen : ((s.column col).arena n).en = true) :
    s.writeArena col n true v = if wfld v 40 1 = 1 then s
      else s.putArena col n ⟨((s.column col).arena n).base, wfld v 48 16, false, wfld v 16 24, []⟩ := by
  simp [State.writeArena, State.putArena, hen]

theorem State.writeArena_disabled {s : State} {col n : Nat} {v : Word} (hen : ((s.column col).arena n).en = false)
    (hon : wfld v 40 1 ≠ 1) : s.writeArena col n true v =
      s.putArena col n { (s.column col).arena n with asid := wfld v 48 16, size := wfld v 16 24 } := by
  simp [State.writeArena, State.putArena, hen, hon]

/-- An arena is enabled where it may be, without blocks (R365). -/
theorem State.writeArena_enable {s : State} {col n : Nat} {v : Word} (hen : ((s.column col).arena n).en = false)
    (hon : wfld v 40 1 = 1) : s.writeArena col n true v =
      if s.arenaOk ((s.column col).arena n).base (wfld v 48 16) (wfld v 16 24)
      then s.putArena col n ⟨((s.column col).arena n).base, wfld v 48 16, true, wfld v 16 24, []⟩
      else s := by
  simp [State.writeArena, State.putArena, hen, hon]

/-- Word 1 of a pin map entry (R408), with EN as `b`. -/
def pinHi (v : Word) (b : Nat) : Word := wordOf (wfld v 48 6 * 2 ^ 48 + b * 2 ^ 40 + wfld v 16 24 * 2 ^ 16)

/-- The base of a pinned range can be written while the entry is disabled (R408). -/
theorem State.writePinmap_base (s : State) (n : Nat) (v : Word) : s.writePinmap n false v =
    if wfld (mapGet (0, 0) n s.pinmap).2 40 1 = 1 then s
    else s.putPin n (wordOf (wfld v 16 36 * 2 ^ 16), (mapGet (0, 0) n s.pinmap).2) := rfl

theorem State.writePinmap_disable {s : State} {n : Nat} {v : Word} (hon : wfld v 40 1 = 0) : s.writePinmap n true v =
    s.putPin n ((mapGet (0, 0) n s.pinmap).1, pinHi v 0) := by
  simp [State.writePinmap, State.putPin, hon, pinHi]

/-- An entry is enabled where it is not yet, and its range may be pinned (R408). -/
theorem State.writePinmap_enable {s : State} {n : Nat} {v : Word} (hon : wfld v 40 1 = 1) : s.writePinmap n true v =
    if wfld (mapGet (0, 0) n s.pinmap).2 40 1 = 1 then s
    else if s.pinFree (wfld (mapGet (0, 0) n s.pinmap).1 16 36 * 65536) (wfld v 16 24 * 65536) then
      s.putPin n ((mapGet (0, 0) n s.pinmap).1, pinHi v 1)
    else s := by
  rw [State.writePinmap, if_neg (by decide), if_neg (by rw [hon]; decide)]
  split
  · rfl
  · cases hfree : s.pinFree (wfld (mapGet (0, 0) n s.pinmap).1 16 36 * 65536) (wfld v 16 24 * 65536)
    · rw [State.pinFree, Bool.not_eq_false'] at hfree
      rw [if_pos hfree, if_neg (by decide)]
    · rw [State.pinFree, Bool.not_eq_true'] at hfree
      rw [if_neg (by rw [hfree]; decide), if_pos rfl]
      rfl

/-- Word 1 of a glaze window is read-only (R382). -/
theorem State.writeGwin_hi (s : State) (g : Nat) (v : Word) : s.writeGwin g true v = s := rfl

theorem State.gwin_modGwin (s : State) (g : Nat) (f : Gwin → Gwin) : (s.modGwin g f).gwin g = f (s.gwin g) :=
  mapGet_mapMod_same ..

theorem State.group_modGroup (s : State) (g : Nat) (f : Group → Group) : (s.modGroup g f).group g = f (s.group g) :=
  mapGet_mapMod_same ..

theorem State.writeGwin_enabled {s : State} {g : Nat} {v : Word} (hen : (s.gwin g).en = true) (hon : wfld v 0 1 = 1) :
    s.writeGwin g false v = s := by
  rw [State.gwin] at hen
  simp [State.writeGwin, hen, hon]

/-- Enabling a window configures its group from scratch, with the members that it has (R382). -/
theorem State.writeGwin_enable {s : State} {g : Nat} {v : Word} (hen : (s.gwin g).en = false) (hon : wfld v 0 1 = 1) :
    s.writeGwin g false v =
      (s.modGwin g (fun _ => { en := true, lost := false, base := wfld v 16 36, sizem1 := wfld v 52 10, applied := 0 })).modGroup g
        (fun x => { members := x.members }) := by
  rw [State.gwin] at hen
  simp [State.writeGwin, hen, hon, State.modGwin, State.modGroup, mapMod]

theorem State.writeGwin_disable {s : State} {g : Nat} {v : Word} (hon : ¬ wfld v 0 1 = 1) : s.writeGwin g false v =
    s.modGwin g (fun w => { w with en := false, base := wfld v 16 36, sizem1 := wfld v 52 10 }) := by
  simp [State.writeGwin, hon, State.modGwin, mapMod]

/-! ## The registers of a control page (R11, R362) -/

/-- A write of a register that this device has is taken (R362). -/
theorem regEvent_of {ok : Bool} (h : ok = true) (s s' : State) : regEvent ok s s' = .next s' := by rw [regEvent, if_pos h]

theorem exec_registerWrite {col off : Nat} (hcol : col < 64) (h8 : off % 8 = 0) (hoff : off < 4096) (v : Word) (s : State) :
    exec (.registerWrite col off v) s = .next (s.regWrite col off v) := regEvent_of (by simp [hcol, h8, hoff]) ..

theorem exec_drainreqWrite {col : Nat} (hcol : col < 64) (v : Word) (s : State) :
    exec (.drainreqWrite col v) s = .next (s.writeDrainreq col v) := regEvent_of (by simp [hcol]) ..

theorem exec_arenaWrite {col n : Nat} (hcol : col < 64) (hn : n < 16) (hi : Bool) (v : Word) (s : State) :
    exec (.arenaWrite col n hi v) s = .next (s.writeArena col n hi v) := regEvent_of (by simp [hcol, hn]) ..

theorem exec_pinmapWrite {n : Nat} (hn : n < 64) (hi : Bool) (v : Word) (s : State) :
    exec (.pinmapWrite n hi v) s = .next (s.writePinmap n hi v) := regEvent_of (by simp [hn]) ..

theorem exec_gwinWrite {g : Nat} (hg : g < 256) (hi : Bool) (v : Word) (s : State) :
    exec (.gwinWrite g hi v) s = .next (s.writeGwin g hi v) := regEvent_of (by simp [hg]) ..

/-- The read-only and absent offsets of every column's page (R11, R362). -/
theorem State.regWrite_readOnly (s : State) (col : Nat) (v : Word) :
    ∀ off ∈ [0x008, 0x018, 0x050, 0x060, 0x070, 0x308, 0x318, 0x320, 0x508, 0x510, 0x518, 0x608, 0x610, 0xF00],
      off % 8 = 0 ∧ off < 4096 ∧ s.regWrite col off v = s := by
  simp [State.regWrite]

/-- The package's registers stand in column 0's page alone (R362, R373, R381, R404). -/
theorem State.regWrite_absent {col : Nat} (hcol : col ≠ 0) (s : State) (v : Word) :
    ∀ off ∈ [0x200, 0x208, 0x300, 0x310, 0x600], off % 8 = 0 ∧ off < 4096 ∧ s.regWrite col off v = s := by
  simp [State.regWrite, hcol]

theorem State.regWrite_pwrlim (s : State) (v : Word) : s.regWrite 0 0x600 v =
    if 500 ≤ wfld v 0 16 ∧ wfld v 0 16 ≤ 2600 then { s with pwrlim := wfld v 0 16 } else s := by
  simp [State.regWrite]

/-- Settles O54: each clause is the equation of the register's write, with the fields that it leaves. -/
theorem registerWrites : Obligations.RegisterWrites := by
  intro s col n v hcol hn k wr
  have hwr (off : Nat) (h8 : off % 8 = 0) (hoff : off < 4096) : wr off = .next (s.regWrite col off v) :=
    exec_registerWrite hcol h8 hoff v s
  refine ⟨?duty, hwr 0x030 rfl (by decide), ?inten, ?repctl, ?conectl, ?rasctl, hwr 0x048 rfl (by decide), ?readOnly, ?absent, ?ring,
    ?package, ?drainreq, ?arena, ?pinmap, ?gwin⟩
  case duty =>
    exact ⟨_, hwr 0x028 rfl (by decide), rfl, fun q hq => s.column_modCol_ne hq _,
      (s.column_modCol_same col _).trans (k.writeDuty_eq v)⟩
  case inten => exact (hwr 0x038 rfl (by decide)).trans (congrArg _ (s.writeInten_eq col v))
  case repctl =>
    refine ⟨s.writeRepctl col v, hwr 0x000 rfl (by decide), s.writeRepctl_frame col v, ?_⟩
    obtain ⟨hen, hwth, hrth, hepoch⟩ := writeRepctlVal_fields k.repctl v
    rw [s.writeRepctl_repctl col v]
    exact ⟨hen, hwth, hrth, hepoch, s.writeRepctl_clear col v⟩
  case conectl => exact ⟨_, hwr 0x010 rfl (by decide), writeConectl_fields k.conectl v⟩
  case rasctl => exact ⟨_, hwr 0x500 rfl (by decide), writeRasctl_fields k.rasctl v⟩
  case readOnly =>
    intro off hoff
    obtain ⟨h8, hlt, hkeep⟩ := s.regWrite_readOnly col v off hoff
    exact (hwr off h8 hlt).trans (congrArg _ hkeep)
  case absent =>
    intro off hoff hcol0
    obtain ⟨h8, hlt, hkeep⟩ := s.regWrite_absent hcol0 v off hoff
    exact (hwr off h8 hlt).trans (congrArg _ hkeep)
  case ring =>
    rintro rfl
    exact ⟨hwr 0x200 rfl (by decide), _, hwr 0x208 rfl (by decide), writeHnqctl_fields s.hnqctl v⟩
  case package =>
    rintro rfl
    exact ⟨hwr 0x300 rfl (by decide), hwr 0x310 rfl (by decide),
      (hwr 0x600 rfl (by decide)).trans (congrArg _ (s.regWrite_pwrlim v))⟩
  case drainreq =>
    exact ⟨_, exec_drainreqWrite hcol v s, s.writeDrainreq_frame col v, s.writeDrainreq_drainreq col v, s.writeDrainreq_core col v⟩
  case arena =>
    intro hn16 a put asid size
    simp only [exec_arenaWrite hcol hn16]
    refine ⟨congrArg _ (s.writeArena_base col n v), fun hen => congrArg _ (State.writeArena_enabled v hen),
      fun hen hon => congrArg _ (State.writeArena_disabled hen hon), fun hen hon => ?_⟩
    rw [State.writeArena_enable hen hon]
    exact ⟨fun hok => by rw [if_pos ((s.arenaOk_iff ..).2 hok)]; rfl, fun hok => by rw [if_neg (mt (s.arenaOk_iff ..).1 hok)]⟩
  case pinmap =>
    intro e en put lo hi base size ok
    simp only [exec_pinmapWrite hn]
    refine ⟨congrArg _ (s.writePinmap_base n v), fun hoff => congrArg _ (State.writePinmap_disable hoff), fun hon hno => ?_,
      fun hon hen hok => ?_⟩
    · rw [State.writePinmap_enable hon]
      rcases hno with hen | hok
      · rw [if_pos hen]
      · rw [if_neg (mt (s.pinFree_iff base size).1 hok), ite_self]
    · rw [State.writePinmap_enable hon, if_neg hen, if_pos ((s.pinFree_iff base size).2 hok)]
      rfl
  case gwin =>
    intro w on
    simp only [exec_gwinWrite (show n < 256 by omega)]
    refine ⟨congrArg _ (s.writeGwin_hi n v), fun hen hon => congrArg _ (State.writeGwin_enabled hen hon), fun hen hon => ?_,
      fun hoff => congrArg _ (State.writeGwin_disable hoff)⟩
    have hwin := s.gwin_modGwin n (fun _ => ⟨true, false, wfld v 16 36, wfld v 52 10, 0⟩)
    have hgroup := State.group_modGroup (s.modGwin n (fun _ => ⟨true, false, wfld v 16 36, wfld v 52 10, 0⟩)) n
      (fun x => { members := x.members })
    exact ⟨_, congrArg _ (State.writeGwin_enable hen hon), rfl, hwin, (congrArg Group.next hgroup :),
      (congrArg Group.pending hgroup :), (congrArg Group.buffer hgroup :), (congrArg Group.members hgroup :)⟩

/-! ## The state after reset (R12) -/

/-- No column has been written at reset, so each holds the initial values of its fields (R12). -/
theorem State.column_reset (col : Nat) : State.reset.column col = {} := rfl

/-- No core has been written at reset, so each holds the initial values of its fields (R12). -/
theorem State.core_reset (q : Nat) : State.reset.core q = {} := rfl

/-- Settles O56: the registers read as the initial values of the fields, those of a column through `State.column_reset`. -/
theorem resetValues : Obligations.ResetValues := by
  refine ⟨wf_nil, rfl, rfl, rfl, rfl, ?package, ?column, ?core⟩
  case package => exact ⟨rfl, rfl, rfl, rfl, rfl, rfl, rfl, rfl⟩
  case column =>
    intro col _
    have hk := State.column_reset col
    have hcone : State.reset.regPeek col 0x008 = 0 := congrArg Column.cone hk
    have hlog : State.reset.regPeek col 0x510 = 0 := rfl
    exact ⟨congrArg (·.repctl.toNat) hk, congrArg Column.conectl hk, congrArg (·.rasctl.toNat) hk, congrArg (·.rasstat.toNat) hk,
      hlog, congrArg (fld · 32 32) hcone, congrArg (fld · 0 6) hcone, congrArg Column.pfloor hk⟩
  case core =>
    intro q _
    have hq := State.core_reset q
    exact ⟨congrArg Core.drainlim hq, congrArg Core.parklim hq⟩

end Sys2Proof.Machine

namespace Sys2Proof.Machine

/-! ## Bring-up (R395 to R398) -/

/-- A change of columns changes nothing else. -/
theorem State.foldCols_keep {α : Type} (g : State → α) (hg : ∀ w C, g { w with columns := C } = g w) (s : State)
    (f : Nat → Column → Column) (l : List Nat) : g (l.foldl (fun (s : State) c => s.modCol c (f c)) s) = g s := by
  induction l generalizing s with
  | nil => rfl
  | cons c l ih => exact (ih _).trans (hg ..)

theorem State.allCols_keep {α : Type} (g : State → α) (hg : ∀ w C, g { w with columns := C } = g w) (s : State)
    (f : Nat → Column → Column) : g (s.allCols f) = g s := State.foldCols_keep g hg s f (List.range 64)

/-- Each column of a list without repeats is changed once. -/
theorem State.column_foldCols (s : State) (f : Nat → Column → Column) {l : List Nat} (hl : l.Nodup) (c : Nat) :
    (l.foldl (fun (s : State) c => s.modCol c (f c)) s).column c = if c ∈ l then f c (s.column c) else s.column c := by
  induction l generalizing s with
  | nil => rfl
  | cons x l ih =>
    obtain ⟨hx, hl⟩ := List.nodup_cons.1 hl
    rw [List.foldl_cons, ih _ hl]
    by_cases hc : c = x
    · subst hc
      rw [if_neg hx, if_pos List.mem_cons_self, State.column_modCol_same]
    · simp only [State.column_modCol_ne _ hc, List.mem_cons, hc, false_or]

theorem State.column_allCols (s : State) (f : Nat → Column → Column) {c : Nat} (hc : c < 64) :
    (s.allCols f).column c = f c (s.column c) := by
  rw [State.allCols, State.column_foldCols s f List.nodup_range, if_pos (List.mem_range.2 hc)]

/-- A column that a power-on reset has reached (R12). -/
theorem State.column_powerOn (s : State) (c : Nat) : s.powerOn.column c = (s.column c).resetAll := by
  have hget : ∀ l : List (Nat × Column), mapGet {} c (l.map (fun p => (p.1, p.2.resetAll))) = (mapGet {} c l).resetAll := by
    intro l
    induction l with
    | nil => rfl
    | cons p l ih =>
      simp only [mapGet, List.map_cons, mapGet?] at ih ⊢
      split
      · rfl
      · exact ih
  exact hget s.columns

theorem State.loadImage_keep {α : Type} (g : State → α) (hg : ∀ w m, g { w with mem := m } = g w) (s : State) (i : Image) :
    g (s.loadImage i) = g s := by
  unfold State.loadImage
  split
  · exact hg ..
  · rfl

/-- Images go to memory alone (R395). -/
theorem State.loadImages_keep {α : Type} (g : State → α) (hg : ∀ w m, g { w with mem := m } = g w) (s : State) (l : List Image) :
    g (l.foldl (fun (s : State) i => s.loadImage i) s) = g s := by
  induction l generalizing s with
  | nil => rfl
  | cons i l ih => exact (ih _).trans (State.loadImage_keep g hg s i)

/-- A byte that lies in no image that is loaded stays (R395). -/
theorem State.loadImages_outside (s : State) (l : List Image) (a : Nat)
    (ha : ∀ i ∈ l, isHbm (i.base + i.bytes.length) = true → a < i.base ∨ i.base + i.bytes.length ≤ a) :
    memByte (l.foldl (fun (s : State) i => s.loadImage i) s).mem a = memByte s.mem a := by
  induction l generalizing s with
  | nil => rfl
  | cons i l ih =>
    rw [List.foldl_cons, ih _ (fun j hj => ha j (List.mem_cons_of_mem _ hj))]
    unfold State.loadImage
    split
    · next hi => exact memByte_memPutBytes_out _ _ _ (ha i List.mem_cons_self hi)
    · rfl

/-- No image reaches a window (R395, R360). -/
theorem hbm_below_window {i : Image} {a : Nat} (hi : isHbm (i.base + i.bytes.length) = true) (ha : isWindow a = true) :
    i.base + i.bytes.length ≤ a := by
  have hlow : windowBase ≤ a := of_decide_eq_true (Bool.and_eq_true_iff.1 ha).1
  have hend : i.base + i.bytes.length < 0xE_0000_0000_0000 := of_decide_eq_true hi
  rw [windowBase] at hlow
  omega

/-- Zeroing leaves the windows their bytes (R203, R395). -/
theorem State.memByte_zeroMemory (s : State) (a : Nat) :
    memByte s.zeroMemory.mem a = if isWindow a then memByte s.mem a else 0 := by
  have hget : ∀ m : List Host.Cell, mapGet? a (m.filter (fun c => isWindow c.1)) = if isWindow a then mapGet? a m else none := by
    intro m
    induction m with
    | nil => simp [mapGet?]
    | cons p m ih =>
      by_cases hp : p.1 = a
      · subst hp
        by_cases hw : isWindow p.1 = true <;> simp_all [mapGet?]
      · by_cases hw : isWindow p.1 = true <;> simp_all [mapGet?]
  simp only [memByte, State.zeroMemory, hget]
  by_cases hw : isWindow a = true <;> simp [hw, unlisted]


/-- The columns as stage 5 leaves them (R229, R369, R395). -/
def Column.afterStage5 (c : Nat) (k : Column) : Column :=
  let ctx := k.serviceSlot.map (fun i => serviceTeam (12 * c + i))
  { k with duty := 0x100, service := ctx, handler := ctx }

theorem State.stage5_eq (s : State) :
    s.stage5 = s.flash.images.foldl (fun (s : State) i => s.loadImage i) (s.allCols Column.afterStage5) :=
  congrArg (fun F : Flash => F.images.foldl (fun (s : State) i => s.loadImage i) (s.allCols Column.afterStage5))
    (State.allCols_fuses s Column.afterStage5).1

/-- Stage 5 changes columns and memory alone. -/
theorem State.stage5_keep {α : Type} (g : State → α) (hc : ∀ w C, g { w with columns := C } = g w)
    (hm : ∀ w m, g { w with mem := m } = g w) (s : State) : g s.stage5 = g s := by
  rw [State.stage5_eq, State.loadImages_keep g hm, State.allCols_keep g hc]

theorem State.column_stage5 (s : State) {c : Nat} (hc : c < 64) : s.stage5.column c = (s.column c).afterStage5 c := by
  rw [State.stage5_eq, State.loadImages_keep (fun w => w.column c) (fun _ _ => rfl), s.column_allCols Column.afterStage5 hc]

theorem State.stage5_mem (s : State) :
    s.stage5.mem = (s.flash.images.foldl (fun (s : State) i => s.loadImage i) (s.allCols Column.afterStage5)).mem := by
  rw [State.stage5_eq]

/-- The bring-up's state once stages up to `n` are recorded with their measurements (R398). -/
def State.bootMark (s : State) (n : Nat) : State :=
  { s with boot := { s.boot with stage := n, measures := (List.range n).map (fun i => Config.digest (s.loaded (i + 1))) } }

theorem State.bootTo_eq (s : State) (n : Nat) : s.bootTo n =
    if n = 0 then s.bootMark n
    else if n ≤ 2 then (s.bootMark n).readFuses
    else if n = 3 then (s.bootMark n).readFuses.raiseSvn
    else if n = 4 then (s.bootMark n).readFuses.raiseSvn.zeroMemory
    else (s.bootMark n).readFuses.raiseSvn.zeroMemory.stage5 := by
  rcases n with _ | _ | _ | _ | _ | n
  all_goals rfl

/-- Bring-up up to a stage changes what it stands at, memory, columns and the fused SVN, and takes a free value. -/
theorem State.bootTo_keep {α : Type} (g : State → α) (hc : ∀ w C, g { w with columns := C } = g w)
    (hm : ∀ w m p, g { w with mem := m, poison := p } = g w) (hb : ∀ w b, g { w with boot := b } = g w)
    (hf : ∀ w v r, g { w with fuseSvn := v, fresh := r } = g w) (s : State) (n : Nat) : g (s.bootTo n) = g s := by
  have hmark : g (s.bootMark n) = g s := hb ..
  have hread : g (s.bootMark n).readFuses = g s := (hb ..).trans hmark
  have hraise : g (s.bootMark n).readFuses.raiseSvn = g s := (hf ..).trans hread
  have hzero : g (s.bootMark n).readFuses.raiseSvn.zeroMemory = g s := (hm ..).trans hraise
  rw [State.bootTo_eq]
  split_ifs
  · exact hmark
  · exact hread
  · exact hraise
  · exact hzero
  · exact (State.stage5_keep g hc (fun w m => hm w m w.poison) _).trans hzero

theorem State.bootTo_boot (s : State) (n : Nat) :
    (s.bootTo n).boot = if n = 0 then (s.bootMark n).boot else (s.bootMark n).readFuses.boot := by
  rw [State.bootTo_eq]
  split_ifs
  · rfl
  · rfl
  · rfl
  · rfl
  · exact State.stage5_keep State.boot (fun _ _ => rfl) (fun _ _ => rfl) _

/-- Nothing lowers the fused SVN (R396). -/
theorem State.bootTo_fuseSvn (s : State) (n : Nat) : s.fuseSvn ≤ (s.bootTo n).fuseSvn := by
  have hraise : s.fuseSvn ≤ (s.bootMark n).readFuses.raiseSvn.fuseSvn := Nat.le_max_left ..
  rw [State.bootTo_eq]
  split_ifs
  · exact le_rfl
  · exact le_rfl
  · exact hraise
  · exact hraise
  · rwa [State.stage5_keep State.fuseSvn (fun _ _ => rfl) (fun _ _ => rfl)]

/-- Memory stays until stage 4 zeroes it (R395). -/
theorem State.bootTo_mem (s : State) {n : Nat} (hn : n ≤ 3) : (s.bootTo n).mem = s.mem := by
  rw [State.bootTo_eq]
  split_ifs
  · rfl
  · rfl
  · rfl
  · omega
  · omega

/-- Bring-up begins with what a power-on reset keeps; the sampling of the monitors changes columns and takes free values (R12, R366). -/
theorem State.sampled_keep {α : Type} (g : State → α) (hc : ∀ w C, g { w with columns := C } = g w)
    (hf : ∀ w r, g { w with fresh := r } = g w) (s : State) : g s.powerOn.sampleTemp = g s.powerOn := by
  rw [State.sampleTemp, hf, State.allCols_keep g hc]

/-- Sampling the monitors keeps a column's fuses (R18, R366). -/
theorem State.column_sampleTemp (s : State) {c : Nat} (hc : c < 64) : (s.sampleTemp.column c).cmap = (s.column c).cmap := by
  have hfresh : ∀ (w : State) r, ({ w with fresh := r } : State).column c = w.column c := fun _ _ => rfl
  rw [State.sampleTemp, hfresh, State.column_allCols _ _ hc]

/-- Bring-up finds the columns with their fuses alone, but for TEMP (R12, R18, R366). -/
theorem State.column_sampled (s : State) {c : Nat} (hc : c < 64) : (s.powerOn.sampleTemp.column c).cmap = (s.column c).cmap := by
  rw [State.column_sampleTemp _ hc, s.column_powerOn c]
  rfl

/-- The device after a power-on reset holds no team, no access and no work (R12). -/
theorem State.bootTo_fresh (s : State) (n : Nat) :
    let s' := s.powerOn.sampleTemp.bootTo n
    s'.teams = [] ∧ s'.flights = [] ∧ s'.cores = State.reset.cores ∧ s'.quiesce = State.reset.quiesce := by
  have hkeep : ∀ {α : Type} (g : State → α), (∀ w C, g { w with columns := C } = g w) →
      (∀ w m p, g { w with mem := m, poison := p } = g w) → (∀ w b, g { w with boot := b } = g w) →
      (∀ w v r, g { w with fuseSvn := v, fresh := r } = g w) → g (s.powerOn.sampleTemp.bootTo n) = g s.powerOn :=
    fun g hc hm hb hf => (State.bootTo_keep g hc hm hb hf _ n).trans (State.sampled_keep g hc (fun w r => hf w w.fuseSvn r) s)
  exact ⟨hkeep State.teams (fun _ _ => rfl) (fun _ _ _ => rfl) (fun _ _ => rfl) (fun _ _ _ => rfl),
    hkeep State.flights (fun _ _ => rfl) (fun _ _ _ => rfl) (fun _ _ => rfl) (fun _ _ _ => rfl),
    hkeep State.cores (fun _ _ => rfl) (fun _ _ _ => rfl) (fun _ _ => rfl) (fun _ _ _ => rfl),
    hkeep State.quiesce (fun _ _ => rfl) (fun _ _ _ => rfl) (fun _ _ => rfl) (fun _ _ _ => rfl)⟩

/-- Bring-up that stops in a stage leaves what the stages before it have done, and the stage's ERROR (R395, R396). -/
theorem State.bringUp_stops (s : State) (st e : Nat) :
    let s' := s.powerOn.sampleTemp.bringUp (some (st, e))
    s'.boot.stage = st - 1 ∧ s'.boot.error = e ∧ s'.boot.measures.length = st - 1 ∧ s.fuseSvn ≤ s'.fuseSvn ∧
    (s'.teams = [] ∧ s'.flights = [] ∧ s'.cores = State.reset.cores ∧ s'.quiesce = State.reset.quiesce) ∧ (st ≤ 4 → s'.mem = s.mem) := by
  have hboot := s.powerOn.sampleTemp.bootTo_boot (st - 1)
  have hsvn : s.powerOn.sampleTemp.fuseSvn = s.fuseSvn := State.sampled_keep State.fuseSvn (fun _ _ => rfl) (fun _ _ => rfl) s
  have hmem : s.powerOn.sampleTemp.mem = s.mem := State.sampled_keep State.mem (fun _ _ => rfl) (fun _ _ => rfl) s
  refine ⟨?stage, rfl, ?measures, ?svn, s.bootTo_fresh (st - 1), fun hst => ?mem⟩
  case stage =>
    refine (congrArg Boot.stage hboot).trans ?_
    split <;> rfl
  case measures =>
    refine (congrArg (fun b => b.measures.length) hboot).trans ?_
    split
    · exact List.length_map _ |>.trans List.length_range
    · exact List.length_map _ |>.trans List.length_range
  case svn => exact hsvn.symm.le.trans (s.powerOn.sampleTemp.bootTo_fuseSvn (st - 1))
  case mem => exact (s.powerOn.sampleTemp.bootTo_mem (by omega)).trans hmem

/-- The state from which stage 5 goes on (R395). -/
def State.zeroed (s : State) : State := (s.bootMark 6).readFuses.raiseSvn.zeroMemory

theorem State.bootTo_six (s : State) : s.bootTo 6 = s.zeroed.stage5 := s.bootTo_eq 6

/-- Memory after bring-up: zero, with the images in place; the windows keep their bytes (R203, R395). -/
theorem State.bootTo_six_mem (s : State) (a : Nat)
    (ha : ∀ i ∈ s.flash.images, isHbm (i.base + i.bytes.length) = true → a < i.base ∨ i.base + i.bytes.length ≤ a) :
    memByte (s.bootTo 6).mem a = if isWindow a then memByte s.mem a else 0 := by
  rw [State.bootTo_six, State.stage5_mem, State.loadImages_outside _ _ a (show ∀ i ∈ s.zeroed.flash.images, _ from ha),
    State.allCols_keep State.mem (fun _ _ => rfl)]
  exact (s.bootMark 6).readFuses.raiseSvn.memByte_zeroMemory a

theorem State.bootTo_six_poison (s : State) : (s.bootTo 6).poison = s.poison.filter isWindow := by
  rw [State.bootTo_six, State.stage5_keep State.poison (fun _ _ => rfl) (fun _ _ => rfl)]
  rfl

/-- The one image of a flash stands in memory after bring-up (R395). -/
theorem State.bootTo_six_image {s : State} {i : Image} (hi : s.flash.images = [i]) (hb : isHbm (i.base + i.bytes.length) = true) :
    memBytes (s.bootTo 6).mem i.base i.bytes.length = i.bytes := by
  rw [State.bootTo_six, State.stage5_mem, show s.zeroed.flash.images = [i] from hi, List.foldl_cons, List.foldl_nil, State.loadImage,
    if_pos hb]
  exact memBytes_memPutBytes ..

/-- DUTY and the contexts of a column after bring-up (R229, R369, R395). -/
theorem State.column_bootTo_six (s : State) {c : Nat} (hc : c < 64) :
    ((s.bootTo 6).column c).duty = 0x100 ∧ ((s.bootTo 6).column c).service.isSome = (s.column c).serviceSlot.isSome ∧
    ((s.bootTo 6).column c).handler.isSome = (s.column c).serviceSlot.isSome := by
  rw [State.bootTo_six, State.column_stage5 _ hc]
  exact ⟨rfl, Option.isSome_map, Option.isSome_map⟩

theorem Column.serviceSlot_congr {k k' : Column} (h : k.cmap = k'.cmap) : k.serviceSlot = k'.serviceSlot := by
  rw [Column.serviceSlot, Column.slots, h]
  rfl

end Sys2Proof.Machine

namespace Sys2Proof.Machine

/-! ## The Cone governor (R366 to R368) -/

/-- What suspensions do to a column (R101, R364): records join its queues, and bits of INTSTAT are set. -/
def Column.Told (k k' : Column) : Prop :=
  ∃ i scq wait suspq, k' = { k with intstat := k.intstat ||| i, scq := scq, scqWait := wait, suspq := suspq }

theorem Column.Told.rfl {k : Column} : k.Told k := ⟨0, k.scq, k.scqWait, k.suspq, by rw [Nat.or_zero]⟩

theorem Column.Told.trans {k l m : Column} (h : k.Told l) (h' : l.Told m) : k.Told m := by
  obtain ⟨i, _, _, _, rfl⟩ := h
  obtain ⟨j, a, b, c, rfl⟩ := h'
  exact ⟨i ||| j, a, b, c, by rw [Nat.or_assoc]⟩

theorem Column.Told.cone_eq {k k' : Column} (h : k.Told k') : k'.cone = k.cone ∧ k'.coneCnt = k.coneCnt := by
  obtain ⟨_, _, _, _, rfl⟩ := h
  exact ⟨by rfl, by rfl⟩

theorem bitN_or (x y i : Nat) : bitN (x ||| y) i = (bitN x i || bitN y i) := by
  have hbit : ∀ z, bitN z i = z.testBit i := fun z => by
    rw [bitN, fld, Nat.testBit_eq_decide_div_mod_eq, Nat.shiftRight_eq_div_pow]; rfl
  rw [hbit, hbit, hbit, Nat.testBit_or]

/-- A bit of INTSTAT that is set stays set. -/
theorem Column.Told.bit {k k' : Column} (h : k.Told k') {b : Nat} (hb : bitN k.intstat b = true) : bitN k'.intstat b = true := by
  obtain ⟨i, _, _, _, rfl⟩ := h
  exact (bitN_or ..).trans (by rw [hb]; rfl)

/-- A change of one column that only tells it something. -/
theorem State.modCol_told (s : State) (c : Nat) {f : Column → Column} (hf : ∀ k : Column, k.Told (f k)) (q : Nat) :
    (s.column q).Told ((s.modCol c f).column q) := by
  by_cases hq : q = c
  · rw [hq, State.column_modCol_same]
    exact hf _
  · rw [State.column_modCol_ne s hq]
    exact .rfl

theorem State.setInt_told (s : State) (col b q : Nat) : (s.column q).Told ((s.setInt col b).column q) := by
  have hset := s.modCol_told col (f := fun k => { k with intstat := k.intstat ||| 2 ^ b }) (fun k => ⟨2 ^ b, k.scq, k.scqWait, k.suspq, rfl⟩) q
  unfold State.setInt
  dsimp only
  split
  · exact hset
  · exact hset

theorem State.bit_setInt (s : State) (col b : Nat) : bitN ((s.setInt col b).column col).intstat b = true := by
  have hset : bitN ((s.modCol col (fun k => { k with intstat := k.intstat ||| 2 ^ b })).column col).intstat b = true := by
    rw [State.column_modCol_same]
    refine (bitN_or ..).trans ?_
    rw [show bitN (2 ^ b) b = true by simp [bitN, fld, Nat.shiftRight_eq_div_pow], Bool.or_true]
  unfold State.setInt
  dsimp only
  split
  · exact hset
  · exact hset

theorem State.scqRecord_told (s : State) (col : Nat) (r : SuspRec) (q : Nat) : (s.column q).Told ((s.scqRecord col r).column q) := by
  have hpush := s.modCol_told col (f := (·.scqPush r)) (fun k => by
    unfold Column.scqPush
    split
    · exact ⟨0, _, k.scqWait, k.suspq, by rw [Nat.or_zero]⟩
    · exact ⟨0, k.scq, _, k.suspq, by rw [Nat.or_zero]⟩) q
  unfold State.scqRecord
  dsimp only
  split
  · exact hpush.trans (State.setInt_told ..)
  · exact hpush

theorem State.column_modCourse (s : State) (t c : Nat) (f : Course → Course) (q : Nat) : (s.modCourse t c f).column q = s.column q :=
  s.column_modTeam t _ q

theorem State.column_foldLanes {α : Type} (s : State) (t c : Nat) (g : α → Nat) (f : α → Lane → Lane) (l : List α) (q : Nat) :
    (l.foldl (fun s x => s.modLane t c (g x) (f x)) s).column q = s.column q := by
  induction l generalizing s with
  | nil => rfl
  | cons x l ih => exact (ih _).trans (s.column_modCourse t c _ q)

/-- A suspension tells the column of its team's core (R101, R364). -/
theorem State.suspend_told (s : State) (t c : Nat) (lanes : List Nat) (q : Nat) : (s.column q).Told ((s.suspend t c lanes).column q) := by
  unfold State.suspend
  extract_lets s1 s2 T col
  have hlanes : s2.column q = s.column q := (s1.column_foldLanes t c (fun l => l) _ lanes q).trans (s.column_modCourse t c _ q)
  rw [← hlanes]
  split
  · split
    · exact (s2.modCol_told col (fun k => ⟨0, k.scq, k.scqWait, _, by rw [Nat.or_zero]⟩) q).trans (State.setInt_told ..)
    · exact .rfl
  · exact s2.scqRecord_told col _ q

theorem State.boundary_told (s : State) (t c q : Nat) : (s.column q).Told ((s.boundary t c).column q) := by
  unfold State.boundary
  extract_lets T C quiet ds marked s1
  split
  · exact .rfl
  · have hlanes : s1.column q = s.column q := s.column_foldLanes t c (fun d => d.1) (fun d _ => d.2.1) ds q
    rw [← hlanes]
    split
    · exact .rfl
    · exact s1.suspend_told t c marked q

theorem State.foldl_told {α : Type} (f : State → α → State) (hf : ∀ (s : State) x q, (s.column q).Told ((f s x).column q)) (s : State) (l : List α)
    (q : Nat) : (s.column q).Told ((l.foldl f s).column q) := by
  induction l generalizing s with
  | nil => exact .rfl
  | cons x l ih => exact (hf s x q).trans (ih _)

/-- A step event that reaches the courses of a column tells columns of suspensions alone (R368). -/
theorem State.conePend_told (s : State) (col q : Nat) : (s.column q).Told ((s.conePend col).column q) := by
  refine State.foldl_told _ (fun s t q => State.foldl_told _ (fun s c q => ?_) s _ q) s _ q
  refine Column.Told.trans ?_ (State.boundary_told ..)
  rw [State.column_modCourse]
  exact .rfl

/-- CONE after a step event, field by field (R366). -/
theorem coneAfter_fields (old n cause : Nat) :
    fld (coneAfter old n cause) 24 8 = fld old 24 8 ∧ fld (coneAfter old n cause) 0 2 = n % 2 ^ 2 ∧
    fld (coneAfter old n cause) 32 32 = (fld old 32 32 + 1) % 2 ^ 32 ∧
    bitN (coneAfter old n cause) 3 = decide (n < fld old 0 2) := by
  have hdir : fld (coneAfter old n cause) 3 1 = bit (n < fld old 0 2) := by
    simp (disch := decide) only [coneAfter, fld_setFld_same, fld_setFld_below]
    by_cases h : n < fld old 0 2 <;> simp [h, bit]
  refine ⟨?_, ?_, fld_setFld_same .., ?_⟩
  · simp (disch := decide) only [coneAfter, fld_setFld_above, fld_setFld_below]
  · simp (disch := decide) only [coneAfter, fld_setFld_same, fld_setFld_below]
  · exact bitN_bit hdir

/-- The step that the governor aims at where no cap holds (R367). -/
theorem Column.coneAim_uncapped {k : Column} (hcap : fld k.conectl 0 2 = 0) (hfloor : k.pfloor = 0) (t : Nat) (droop : Bool) :
    (k.coneAim t droop).1 = if fld k.conectl 24 8 ≤ t then 3
      else if fld k.conectl 16 8 ≤ t ∨ droop = true then min 3 (k.coneStep + 1)
      else if t < fld k.conectl 8 8 ∧ k.coneCnt = 0 then k.coneStep - 1 else k.coneStep := by
  unfold Column.coneAim
  rw [hcap, hfloor]
  simp only [Nat.not_lt_zero, max_self, if_false, Bool.and_eq_true, decide_eq_true_eq, apply_ite Prod.fst, ite_or]

/-- The column as the governor evaluates it: with TEMP as it was measured (R366, R367). -/
def Column.measured (k : Column) (t : Nat) : Column := { k with cone := setFld k.cone 24 8 t }

theorem Column.measured_conectl (k : Column) (t : Nat) : (k.measured t).conectl = k.conectl := by rw [Column.measured]
theorem Column.measured_pfloor (k : Column) (t : Nat) : (k.measured t).pfloor = k.pfloor := by rw [Column.measured]
theorem Column.measured_coneCnt (k : Column) (t : Nat) : (k.measured t).coneCnt = k.coneCnt := by rw [Column.measured]

theorem Column.coneStep_measured (k : Column) (t : Nat) : (k.measured t).coneStep = fld k.cone 0 2 :=
  fld_setFld_below _ _ (by decide)

/-- The step that the governor aims at, as it evaluates a column (R366, R367). -/
theorem Column.coneAim_measured {k : Column} (hcap : fld k.conectl 0 2 = 0) (hfloor : k.pfloor = 0) (t : Nat) (droop : Bool) :
    ((k.measured t).coneAim t droop).1 = if fld k.conectl 24 8 ≤ t then 3
      else if fld k.conectl 16 8 ≤ t ∨ droop = true then min 3 (fld k.cone 0 2 + 1)
      else if t < fld k.conectl 8 8 ∧ k.coneCnt = 0 then fld k.cone 0 2 - 1 else fld k.cone 0 2 := by
  rw [← k.measured_conectl t] at hcap
  rw [← k.measured_pfloor t] at hfloor
  rw [Column.coneAim_uncapped hcap hfloor, k.coneStep_measured, k.measured_conectl, k.measured_coneCnt]

theorem Column.measured_fields (k : Column) {t : Nat} (ht : t ≤ 255) : fld (k.measured t).cone 24 8 = t ∧
    fld (k.measured t).cone 32 32 = fld k.cone 32 32 :=
  ⟨(fld_setFld_same ..).trans (Nat.mod_eq_of_lt (by omega)), fld_setFld_above _ _ (by decide)⟩

end Sys2Proof.Machine

namespace Sys2Proof.Machine

/-- A change of one column, followed by another of the same. -/
theorem State.column_modCol_twice (s : State) (c : Nat) (f g : Column → Column) :
    ((s.modCol c f).modCol c g).column c = g (f (s.column c)) := by
  rw [State.column_modCol_same, State.column_modCol_same]

/-- A column whose governor takes a step (R366, R367). -/
def Column.coneMoved (k : Column) (x : Nat × Nat) : Column :=
  { k with cone := coneAfter k.cone x.1 x.2, coneCnt := if k.coneStep < x.1 then 16 else k.coneCnt - 1 }

/-- A column whose governor holds its step (R367). -/
def Column.coneHeld (k : Column) : Column := { k with coneCnt := k.coneCnt - 1 }

theorem Column.coneHeld_cone (k : Column) : k.coneHeld.cone = k.cone := by rw [Column.coneHeld]
theorem Column.coneHeld_coneCnt (k : Column) : k.coneHeld.coneCnt = k.coneCnt - 1 := by rw [Column.coneHeld]
theorem Column.coneMoved_cone (k : Column) (x : Nat × Nat) : (k.coneMoved x).cone = coneAfter k.cone x.1 x.2 := by rw [Column.coneMoved]
theorem Column.coneMoved_coneCnt (k : Column) (x : Nat × Nat) :
    (k.coneMoved x).coneCnt = if k.coneStep < x.1 then 16 else k.coneCnt - 1 := by rw [Column.coneMoved]

theorem execConeEvaluation_eq {col : Nat} (hcol : col < 64) (temp : Nat) (droop : Bool) (s : State) :
    execConeEvaluation col temp droop s =
      (let t := min temp 255
       let S := s.modCol col (·.measured t)
       let k := (s.column col).measured t
       let x := k.coneAim t droop
       if x.1 = k.coneStep then .next (S.modCol col (·.coneHeld))
       else .next (((S.modCol col (·.coneMoved x)).setInt col 3).conePend col)) := by
  have hk : (s.modCol col (·.measured (min temp 255))).column col = _ := s.column_modCol_same col _
  simp only [← hk]
  rw [execConeEvaluation, if_neg (Nat.not_le.2 hcol)]
  rfl

/-- The governor holds its step (R367). -/
theorem execConeEvaluation_holds {col : Nat} (hcol : col < 64) {temp : Nat} {droop : Bool} {s : State}
    (h : (((s.column col).measured (min temp 255)).coneAim (min temp 255) droop).1 = fld (s.column col).cone 0 2) :
    ∃ s', execConeEvaluation col temp droop s = .next s' ∧ s'.mem = s.mem ∧ s'.teams = s.teams ∧
      s'.column col = ((s.column col).measured (min temp 255)).coneHeld := by
  rw [execConeEvaluation_eq hcol]
  dsimp only
  rw [if_pos (h.trans (Column.coneStep_measured ..).symm)]
  exact ⟨_, rfl, rfl, rfl, s.column_modCol_twice col _ _⟩

/-- The governor moves its step, and the courses of the column are told (R366 to R368). -/
theorem execConeEvaluation_moves {col : Nat} (hcol : col < 64) {temp : Nat} {droop : Bool} {s : State} {x : Nat × Nat}
    (hx : ((s.column col).measured (min temp 255)).coneAim (min temp 255) droop = x) (h : x.1 ≠ fld (s.column col).cone 0 2) :
    ∃ s', execConeEvaluation col temp droop s = .next s' ∧ s'.mem = s.mem ∧ bitN (s'.column col).intstat 3 = true ∧
      (((s.column col).measured (min temp 255)).coneMoved x).Told (s'.column col) := by
  rw [execConeEvaluation_eq hcol]
  dsimp only
  rw [hx, if_neg (fun e => h (e.trans (Column.coneStep_measured ..)))]
  have hmoved := s.column_modCol_twice col (·.measured (min temp 255)) (·.coneMoved x)
  have hint := State.setInt_told ((s.modCol col (·.measured (min temp 255))).modCol col (·.coneMoved x)) col 3 col
  rw [hmoved] at hint
  have hpend := State.conePend_told (((s.modCol col (·.measured (min temp 255))).modCol col (·.coneMoved x)).setInt col 3) col col
  refine ⟨_, rfl, by simp, hpend.bit (State.bit_setInt ..), hint.trans hpend⟩

/-! ## The power manager (R404, R405) -/

theorem execPowerManagerTick_eq {avg : Nat} (h : avg < 2 ^ 16) (s : State) :
    execPowerManagerTick avg s =
      (let S : State := { s with pwravg := avg, pwrpeak := max s.pwrpeak avg }
       .next (if s.pwrlim < avg then S.movePfloor s.hottest (· + 1)
        else if 10 * avg < 9 * s.pwrlim then S.movePfloor s.coolest (· - 1) else S)) := by
  rw [execPowerManagerTick, Nat.mod_eq_of_lt h]
  rfl

theorem State.movePfloor_keep {α : Type} (g : State → α) (hg : ∀ w C, g { w with columns := C } = g w) (s : State) (c : Option Nat)
    (f : Nat → Nat) : g (s.movePfloor c f) = g s := by
  cases c with
  | none => rfl
  | some c => exact hg ..

theorem State.pfloor_movePfloor (s : State) (c : Nat) (f : Nat → Nat) :
    ((s.movePfloor (some c) f).column c).pfloor = f (s.column c).pfloor :=
  congrArg Column.pfloor (s.column_modCol_same c _)

/-- What a tick of the power manager does (R404, R405). -/
theorem powerManagerTick_effect (s : State) {avg : Nat} (h : avg < 2 ^ 16) :
    ∃ s', exec (.powerManagerTick avg) s = .next s' ∧ s'.pwravg = avg ∧ s'.pwrpeak = max s.pwrpeak avg ∧
      { s' with pwravg := s.pwravg, pwrpeak := s.pwrpeak, columns := s.columns } = s ∧
      (s.pwrlim < avg → ∀ c, s.hottest = some c → (s'.column c).pfloor = (s.column c).pfloor + 1) ∧
      (10 * avg < 9 * s.pwrlim → ∀ c, s.coolest = some c → (s'.column c).pfloor = (s.column c).pfloor - 1) ∧
      (9 * s.pwrlim ≤ 10 * avg → avg ≤ s.pwrlim → s'.columns = s.columns) := by
  have hexec : exec (.powerManagerTick avg) s = _ := execPowerManagerTick_eq h s
  rw [hexec]
  dsimp only
  split
  case isTrue hup =>
    refine ⟨_, rfl, State.movePfloor_keep State.pwravg (fun _ _ => rfl) .., State.movePfloor_keep State.pwrpeak (fun _ _ => rfl) ..,
      State.movePfloor_keep (fun w => { w with pwravg := s.pwravg, pwrpeak := s.pwrpeak, columns := s.columns }) (fun _ _ => rfl) ..,
      fun _ c hc => ?_, fun hlow => ?_, fun _ hle => ?_⟩
    · rw [hc]
      exact State.pfloor_movePfloor ..
    · omega
    · omega
  case isFalse hup =>
    split
    case isTrue hdown =>
      refine ⟨_, rfl, State.movePfloor_keep State.pwravg (fun _ _ => rfl) .., State.movePfloor_keep State.pwrpeak (fun _ _ => rfl) ..,
        State.movePfloor_keep (fun w => { w with pwravg := s.pwravg, pwrpeak := s.pwrpeak, columns := s.columns }) (fun _ _ => rfl) ..,
        fun h => absurd h hup, fun _ c hc => ?_, fun hlow => ?_⟩
      · rw [hc]
        exact State.pfloor_movePfloor ..
      · omega
    case isFalse hdown =>
      exact ⟨_, rfl, rfl, rfl, rfl, fun h => absurd h hup, fun h => absurd h hdown, fun _ _ => rfl⟩

/-! ## Errors (R399 to R402) -/

/-- A counter that saturates (R402). -/
theorem satInc_eq {x w : Nat} (h : x < 2 ^ w) : satInc x w = min (2 ^ w - 1) (x + 1) := by
  unfold satInc
  split
  · omega
  · omega

/-- RASSTAT after a corrected error (R401, R402). -/
def rasCounted (x : Nat) (lasting : Bool) : Nat :=
  let y := setFld x 0 32 (fld x 0 32 + 1)
  if lasting then setFld y 32 16 (satInc (fld y 32 16) 16) else y

theorem rasCounted_fields (x : Nat) (lasting : Bool) :
    fld (rasCounted x lasting) 0 32 = (fld x 0 32 + 1) % 2 ^ 32 ∧ fld (rasCounted x lasting) 48 16 = fld x 48 16 ∧
    fld (rasCounted x lasting) 32 16 = if lasting then min (2 ^ 16 - 1) (fld x 32 16 + 1) else fld x 32 16 := by
  have hsat : satInc (fld x 32 16) 16 = min (2 ^ 16 - 1) (fld x 32 16 + 1) := satInc_eq (fld_lt ..)
  cases lasting
  · simp (disch := decide) [rasCounted, fld_setFld_above]
  · simp (disch := decide) only [rasCounted, if_true, fld_setFld_same, fld_setFld_above, fld_setFld_below, hsat, true_and]
    omega

/-- The error repeats one of the same place within the window (R401). -/
def State.lasting (s : State) (col unit at_ : Nat) : Bool :=
  let k := s.column col
  wfld k.rasctl 0 1 = 1 && (k.lastAt unit at_).any (fun t => s.cycle col - t < 2 ^ wfld k.rasctl 8 8)

theorem execCorrectedError_eq {col unit : Nat} (hcol : col < 64) (hunit : unit ≤ 5) (loc : Nat) (s : State) :
    execCorrectedError col unit loc s =
      (let at_ := rasLoc unit loc
       let lasting := s.lasting col unit at_
       .next (s.modCol col (fun k => { k.noteLoc unit at_ (s.cycle col) with rasstat := wordOf (rasCounted k.rasstat.toNat lasting) }.rasPush
        { kind := bit lasting, unit := unit, loc := at_, cycle := s.cycle col }))) := by
  rw [execCorrectedError, if_neg (by simp; omega)]
  rfl

theorem State.lasting_iff (s : State) (col unit at_ : Nat) : s.lasting col unit at_ = true ↔
    wfld (s.column col).rasctl 0 1 = 1 ∧
      ∃ t, (s.column col).lastAt unit at_ = some t ∧ s.cycle col - t < 2 ^ wfld (s.column col).rasctl 8 8 := by
  simp only [State.lasting, Bool.and_eq_true, decide_eq_true_eq, Option.any_eq_true]

/-- RASSTAT after an uncorrectable error (R400, R402). -/
theorem wfld_satInc (x : Word) : let y := wordOf (setFld x.toNat 48 16 (satInc (wfld x 48 16) 16))
    wfld y 48 16 = min (2 ^ 16 - 1) (wfld x 48 16 + 1) ∧ wfld y 0 32 = wfld x 0 32 := by
  have hsat : satInc (wfld x 48 16) 16 = min (2 ^ 16 - 1) (wfld x 48 16 + 1) := satInc_eq (fld_lt ..)
  intro y
  simp (disch := decide) only [y, wfld_wordOf, fld_setFld_same, fld_setFld_below, hsat]
  exact ⟨by omega, rfl⟩

theorem execUncorrectableError_eq {col unit : Nat} (hcol : col < 64) (hunit : unit ≤ 5) (loc : Nat) (s : State) :
    execUncorrectableError col unit loc s = .next ((s.poisonAt unit loc).modCol col (fun k =>
      { k with rasstat := wordOf (setFld k.rasstat.toNat 48 16 (satInc (wfld k.rasstat 48 16) 16)) }.rasPush
        { kind := 2, unit := unit, loc := rasLoc unit loc, cycle := s.cycle col })) := by
  rw [execUncorrectableError, if_neg (by simp; omega)]

/-- A word of a core store is marked in the team that holds it (R400). -/
theorem State.hitCore_keep {α : Type} (g : State → α) (hg : ∀ w t f, g (w.modTeam t f) = g w) (s : State) (core off : Nat) :
    g (s.hitCore core off) = g s := by
  unfold State.hitCore
  dsimp only
  split
  · rfl
  · split
    · exact hg ..
    · exact hg ..
    · exact hg ..
    · split
      · rfl
      · exact hg ..

/-- An uncorrectable word changes memory's marks, a core or a team (R400). -/
theorem State.poisonAt_keep {α : Type} (g : State → α) (ht : ∀ w t f, g (w.modTeam t f) = g w) (hc : ∀ w c f, g (w.modCore c f) = g w)
    (hp : ∀ w p, g { w with poison := p } = g w) (s : State) (unit loc : Nat) : g (s.poisonAt unit loc) = g s := by
  unfold State.poisonAt
  dsimp only
  split
  · split
    · exact hp ..
    · rfl
  · split
    · exact hp ..
    · rfl
  · exact hc ..
  · exact hc ..
  · exact State.hitCore_keep g ht ..
  · exact hc ..

/-! ## The management endpoint (R407) -/

theorem Boot.answers_iff (b : Boot) : b.answers = true ↔ b.stage ≠ 0 ∨ b.error ≠ 0 := by
  simp [Boot.answers]

/-- The control pages lie outside memory (R360). -/
theorem ctlAddr_bounds {col off : Nat} (hcol : col < 64) (hoff : off < 4096) :
    0xF_8000_0010_0000 ≤ ctlAddr col off ∧ ctlAddr col off < 0xF_8000_0010_0000 + 64 * 4096 := by
  unfold ctlAddr
  omega

theorem ctlAddr_noMem {col off : Nat} (hcol : col < 64) (hoff : off < 4096) : (isHbm (ctlAddr col off) || isWindow (ctlAddr col off)) = false := by
  have hb := ctlAddr_bounds hcol hoff
  generalize ctlAddr col off = a at hb
  have hh : isHbm a = false := decide_eq_false (by omega)
  have hw : isWindow a = false := by
    rw [isWindow, decide_eq_false (p := a < windowBase + 4 * 0x1000_0000) (by rw [windowBase]; omega), Bool.and_false]
  rw [hh, hw]
  rfl

/-- Nothing that column core 0 has sent keeps the endpoint from reading a register (R361, R407). -/
theorem State.ccReady_ctl {s : State} {col off : Nat} (hcol : col < 64) (hoff : off < 4096) (hport : s.port = []) :
    s.ccReady 0 (.load (ctlAddr col off) 8) = true := by
  simp only [State.ccReady, State.ccAcquiring, hport, List.any_nil, State.readFree, ctlAddr_noMem hcol hoff, Bool.not_false, Bool.true_or,
    Bool.true_and]

theorem execManagementRequest_read {s : State} {col off : Nat} (hup : s.boot.answers = true) (hok : mgmtReads col off = true)
    (hready : s.ccReady 0 (.load (ctlAddr col off) 8) = true) : execManagementRequest (.read col off) s =
      .next { s.regPop col off with mreads := mapPut (ctlAddr col off) (wordOf (s.regPeek col off)) (s.regPop col off).mreads } := by
  simp only [execManagementRequest, hup, hok, hready]
  rfl

theorem execManagementRequest_write {s : State} {col off : Nat} (v : Word) (hup : s.boot.answers = true) (hok : mgmtWrites col off = true) :
    execManagementRequest (.write col off v) s =
      .next (s.portSend { id := 0, stream := 0, seq := 0, home := 0, pa := ctlAddr col off, size := 8, data := v }) := by
  simp only [execManagementRequest, hup, hok]
  rfl

theorem execManagementRequest_report {s : State} (nonce : Nat) (hup : s.boot.answers = true) :
    execManagementRequest (.report nonce) s = .next { s with boot := { s.boot with report := s.measured nonce } } := by
  simp only [execManagementRequest, hup]
  rfl

theorem execMeasurementReport_eq {s : State} (nonce : Nat) (hup : s.boot.answers = true) :
    execMeasurementReport nonce s = .next { s with boot := { s.boot with report := s.measured nonce } } := by
  simp only [execMeasurementReport, hup]
  rfl

theorem State.regPop_mreads (s : State) (col off : Nat) : (s.regPop col off).mreads = s.mreads := by
  unfold State.regPop
  split_ifs <;> rfl

theorem mgmtReads_iff {col off : Nat} : mgmtReads col off = true ↔
    col < 64 ∧ (off ∈ [0x008, 0x508, 0x510, 0x518] ∨ col = 0 ∧ off ∈ [0x308, 0x608, 0x610]) := by
  simp only [mgmtReads, Bool.and_eq_true, Bool.or_eq_true, decide_eq_true_eq, List.contains_iff_mem, beq_iff_eq]

theorem mgmtWrites_iff {col off : Nat} : mgmtWrites col off = true ↔ col < 64 ∧ (off ∈ [0x020, 0x500] ∨ col = 0 ∧ off = 0x600) := by
  simp only [mgmtWrites, Bool.and_eq_true, Bool.or_eq_true, decide_eq_true_eq, List.contains_iff_mem, beq_iff_eq]

/-- A write that leaves for its home (R209). -/
theorem State.portSend_sent (s : State) (p : PortAcc) : (s.portSend p).mem = s.mem ∧
    ∃ home seq, (s.portSend p).port = s.port ++ [{ p with id := s.nextId, home := home, seq := seq }] := by
  unfold State.portSend
  dsimp only
  split
  · exact ⟨rfl, _, _, rfl⟩
  · exact ⟨rfl, _, _, rfl⟩

end Sys2Proof.Machine

namespace Sys2Proof.Machine

/-- The manifest's key is the fused one and its signature is sound (R396). -/
theorem State.signed_iff (s : State) : s.signed = true ↔ Config.digest (byteNums s.flash.key) = s.fuseKey ∧
    Config.verify (byteNums s.flash.key) s.flash.manifest (byteNums s.flash.signature) = true := by
  rw [State.signed, Bool.and_eq_true, beq_iff_eq]

theorem spoilt_none_iff (l : List Image) : l.any (·.spoilt) = false ↔ ∀ i ∈ l, Config.digest (byteNums i.bytes) = i.digest := by
  simp only [List.any_eq_false, Image.spoilt, bne_iff_ne, ne_eq, not_not]

/-- Which check of bring-up fails first (R395, R396). -/
theorem State.bootFails_cases (s : State) :
    (s.signed = false → s.bootFails = some (2, 2)) ∧
    (s.signed = true → s.flash.svn < s.fuseSvn → s.bootFails = some (2, 3)) ∧
    (s.signed = true → s.fuseSvn ≤ s.flash.svn →
      (s.flash.firmware.any (·.spoilt) = true → s.bootFails = some (3, 4)) ∧
      (s.flash.firmware.any (·.spoilt) = false →
        (s.flash.images.any (·.spoilt) = true → s.bootFails = some (5, 6)) ∧
        (s.flash.images.any (·.spoilt) = false → s.bootFails = none))) := by
  unfold State.bootFails
  refine ⟨fun h => by simp [h], fun h hsvn => by simp [h, hsvn], fun h hsvn => ⟨fun hf => by simp [h, hf, hsvn], fun hf => ⟨fun hi => ?_, fun hi => ?_⟩⟩⟩
  · simp [h, hf, hi, hsvn]
  · simp [h, hf, hi, hsvn]

/-- A failure from outside ends bring-up where fuses and flash lead to none (R395). -/
theorem execPowerOnReset_fails {s : State} {f : Nat × Nat} (hf : bootFailure f = true) (h : s.bootFails = none) :
    execPowerOnReset (some f) s = .next (s.powerOn.sampleTemp.bringUp (some f)) := by
  rw [execPowerOnReset, Option.any_some, hf, if_neg (by decide)]
  dsimp only
  rw [s.bootFails_sampled, h]
  simp only [firstFailure]

/-- BOOTSTAT and the measurements after the last stage (R395, R397, R398). -/
theorem State.bootTo_six_boot (s : State) : (s.bootTo 6).boot.stage = 6 ∧ (s.bootTo 6).boot.error = s.boot.error ∧
    (s.bootTo 6).boot.svn = s.fuseSvn % 2 ^ 16 ∧ (s.bootTo 6).boot.measures.length = 6 := by
  rw [State.bootTo_boot, if_neg (by decide)]
  exact ⟨rfl, rfl, rfl, (List.length_map _).trans List.length_range⟩

/-- Bring-up that nothing stops (R395 to R398). -/
theorem powerOnReset_complete {s : State} (h : s.bootFails = none) :
    ∃ s', exec (.powerOnReset none) s = .next s' ∧ s'.boot.stage = 6 ∧ s'.boot.error = 0 ∧ s'.boot.svn = s.fuseSvn % 2 ^ 16 ∧
      s.fuseSvn ≤ s'.fuseSvn ∧ s'.boot.measures.length = 6 ∧
      (s'.teams = [] ∧ s'.flights = [] ∧ s'.cores = State.reset.cores ∧ s'.quiesce = State.reset.quiesce) ∧
      (∀ a, isWindow a = false → (∀ i ∈ s.flash.images, a < i.base ∨ i.base + i.bytes.length ≤ a) → memByte s'.mem a = 0 ∧ a ∉ s'.poison) ∧
      (∀ i, s.flash.images = [i] → isHbm (i.base + i.bytes.length) = true → memBytes s'.mem i.base i.bytes.length = i.bytes) ∧
      (∀ a, isWindow a = true → memByte s'.mem a = memByte s.mem a) ∧
      ∀ c, c < 64 → (s'.column c).duty = 0x100 ∧ (s'.column c).service.isSome = (s.column c).serviceSlot.isSome ∧
        (s'.column c).handler.isSome = (s.column c).serviceSlot.isSome := by
  have hexec : exec (.powerOnReset none) s = .next (s.powerOn.sampleTemp.bootTo 6) :=
    (execPowerOnReset_none s).trans (by rw [h]; rfl)
  obtain ⟨hstage, herror, hbsvn, hmeasures⟩ := s.powerOn.sampleTemp.bootTo_six_boot
  have hsvn : s.powerOn.sampleTemp.fuseSvn = s.fuseSvn := State.sampled_keep State.fuseSvn (fun _ _ => rfl) (fun _ _ => rfl) s
  have hmem : s.powerOn.sampleTemp.mem = s.mem := State.sampled_keep State.mem (fun _ _ => rfl) (fun _ _ => rfl) s
  have hflash : s.powerOn.sampleTemp.flash = s.flash := State.sampled_keep State.flash (fun _ _ => rfl) (fun _ _ => rfl) s
  have herr : s.powerOn.sampleTemp.boot = {} := State.sampled_keep State.boot (fun _ _ => rfl) (fun _ _ => rfl) s
  have hbyte := s.powerOn.sampleTemp.bootTo_six_mem
  rw [hflash, hmem] at hbyte
  refine ⟨_, hexec, ?_, ?_, ?_, ?_, ?_, s.bootTo_fresh 6, fun a ha hout => ⟨?_, ?_⟩, fun i hi hb => ?_, fun a ha => ?_, fun c hc => ?_⟩
  · exact hstage
  · rw [herror, herr]
  · rw [hbsvn, hsvn]
  · exact hsvn.symm.le.trans (State.bootTo_fuseSvn ..)
  · exact hmeasures
  · rw [hbyte a (fun i hi _ => hout i hi), ha]
    rfl
  · rw [State.bootTo_six_poison, List.mem_filter, ha]
    exact fun hc => Bool.false_ne_true hc.2
  · exact State.bootTo_six_image ((congrArg Flash.images hflash).trans hi) hb
  · rw [hbyte a (fun i _ hb => .inr (hbm_below_window hb ha)), if_pos ha]
  · have hcol := s.powerOn.sampleTemp.column_bootTo_six hc
    rwa [Column.serviceSlot_congr (s.column_sampled hc)] at hcol

/-- The governor's evaluation (R367, R368). -/
theorem coneEvaluation_effect {s : State} {col : Nat} (temp : Nat) (droop : Bool) (hcol : col < 64)
    (hcap : fld (s.column col).conectl 0 2 = 0) (hfloor : (s.column col).pfloor = 0) :
    let k := s.column col
    let t := min temp 255
    let st := fld k.cone 0 2
    let next := if fld k.conectl 24 8 ≤ t then 3 else if fld k.conectl 16 8 ≤ t ∨ droop = true then min 3 (st + 1)
      else if t < fld k.conectl 8 8 ∧ k.coneCnt = 0 then st - 1 else st
    ∃ s', exec (.coneEvaluation col temp droop) s = .next s' ∧ s'.mem = s.mem ∧ fld (s'.column col).cone 24 8 = t ∧
      fld (s'.column col).cone 0 2 = next ∧
      (next = st → s'.teams = s.teams ∧ fld (s'.column col).cone 32 32 = fld k.cone 32 32 ∧ (s'.column col).coneCnt = k.coneCnt - 1) ∧
      (next ≠ st → fld (s'.column col).cone 32 32 = (fld k.cone 32 32 + 1) % 2 ^ 32 ∧ bitN (s'.column col).intstat 3 = true ∧
        bitN (s'.column col).cone 3 = (next < st) ∧ (st < next → (s'.column col).coneCnt = 16)) := by
  intro k t st next
  obtain ⟨htemp, hseq⟩ := k.measured_fields (Nat.min_le_right temp 255)
  have hstep : (k.measured t).coneStep = st := k.coneStep_measured t
  obtain ⟨x, hx⟩ : ∃ x, (k.measured t).coneAim t droop = x := ⟨_, rfl⟩
  have haim : x.1 = next := hx ▸ Column.coneAim_measured hcap hfloor t droop
  have hnext : next < 4 := by
    have hst : st < 4 := fld_lt ..
    simp only [next]
    split_ifs <;> omega
  by_cases hmove : next = st
  · obtain ⟨s', hexec, hmem, hteams, hk⟩ := execConeEvaluation_holds hcol ((congrArg Prod.fst hx).trans (haim.trans hmove))
    refine ⟨s', hexec, hmem, ?_, ?_, fun _ => ⟨hteams, ?_, ?_⟩, fun h => absurd hmove h⟩
    · rw [hk, Column.coneHeld_cone, htemp]
    · rw [hk, hmove, Column.coneHeld_cone]
      exact hstep
    · rw [hk, Column.coneHeld_cone, hseq]
    · rw [hk, Column.coneHeld_coneCnt, k.measured_coneCnt]
  · obtain ⟨s', hexec, hmem, hint, htold⟩ := execConeEvaluation_moves hcol hx (fun h => hmove (haim.symm.trans h))
    obtain ⟨hcone, hcnt⟩ := htold.cone_eq
    obtain ⟨f1, f2, f3, f4⟩ := coneAfter_fields (k.measured t).cone x.1 x.2
    refine ⟨s', hexec, hmem, ?_, ?_, fun h => absurd h hmove, fun _ => ⟨?_, hint, ?_, fun hlt => ?_⟩⟩
    · rw [hcone, Column.coneMoved_cone, f1, htemp]
    · rw [hcone, Column.coneMoved_cone, f2, haim]
      exact Nat.mod_eq_of_lt hnext
    · rw [hcone, Column.coneMoved_cone, f3, hseq]
    · rw [hcone, Column.coneMoved_cone, f4, ← Column.coneStep, hstep, haim, decide_eq_true_eq]
    · rw [hcnt, Column.coneMoved_coneCnt, hstep, haim, if_pos hlt]

theorem Column.raslog_rasPush (k : Column) (x : Word) (r : RasRec) :
    ({ k with rasstat := x }.rasPush r).raslog = (k.rasPush r).raslog := rfl

/-- A corrected error is counted and logged (R399, R401, R402). -/
theorem correctedError_effect {s : State} {col unit : Nat} (loc : Nat) (hcol : col < 64) (hunit : unit ≤ 5) :
    let k := s.column col
    let at_ := rasLoc unit loc
    ∃ s' kind, exec (.correctedError col unit loc) s = .next s' ∧ { s' with columns := s.columns } = s ∧ (∀ q, q ≠ col → s'.column q = s.column q) ∧
      wfld (s'.column col).rasstat 0 32 = (wfld k.rasstat 0 32 + 1) % 2 ^ 32 ∧
      wfld (s'.column col).rasstat 48 16 = wfld k.rasstat 48 16 ∧ kind ≤ 1 ∧
      (s'.column col).raslog = (k.rasPush ⟨kind, unit, at_, s.cycle col⟩).raslog ∧
      (kind = 1 ↔ wfld k.rasctl 0 1 = 1 ∧ ∃ t, k.lastAt unit at_ = some t ∧ s.cycle col - t < 2 ^ wfld k.rasctl 8 8) ∧
      (kind = 0 → wfld (s'.column col).rasstat 32 16 = wfld k.rasstat 32 16) ∧
      (kind = 1 → wfld (s'.column col).rasstat 32 16 = min (2 ^ 16 - 1) (wfld k.rasstat 32 16 + 1)) := by
  intro k at_
  have hexec := execCorrectedError_eq hcol hunit loc s
  have hiff := s.lasting_iff col unit at_
  obtain ⟨hcount, hue, hlast⟩ := rasCounted_fields k.rasstat.toNat (s.lasting col unit at_)
  refine ⟨_, bit (s.lasting col unit at_), hexec, rfl, fun q hq => State.column_modCol_ne s hq _, ?_⟩
  rw [State.column_modCol_same]
  refine ⟨?_, ?_, ?_, rfl, ?_, fun h0 => ?_, fun h1 => ?_⟩
  · exact (wfld_wordOf _ (by decide)).trans hcount
  · exact (wfld_wordOf _ (by decide)).trans hue
  · cases s.lasting col unit at_ <;> decide
  · rw [← hiff]
    cases s.lasting col unit at_ <;> decide
  · refine (wfld_wordOf _ (by decide)).trans (hlast.trans (if_neg fun h => ?_))
    rw [h] at h0
    cases h0
  · refine (wfld_wordOf _ (by decide)).trans (hlast.trans (if_pos ?_))
    by_contra h
    rw [Bool.not_eq_true] at h
    rw [h] at h1
    cases h1

/-- An uncorrectable error is counted and logged, and its word poisoned (R400, R402). -/
theorem uncorrectableError_effect {s : State} {col unit : Nat} (loc : Nat) (hcol : col < 64) (hunit : unit ≤ 5) :
    let k := s.column col
    ∃ s', exec (.uncorrectableError col unit loc) s = .next s' ∧ s'.mem = s.mem ∧ s'.flights = s.flights ∧
      (s'.column col).raslog = (k.rasPush ⟨2, unit, rasLoc unit loc, s.cycle col⟩).raslog ∧
      wfld (s'.column col).rasstat 48 16 = min (2 ^ 16 - 1) (wfld k.rasstat 48 16 + 1) ∧
      wfld (s'.column col).rasstat 0 32 = wfld k.rasstat 0 32 ∧
      (unit ≤ 1 → s.portMem (loc / 8 * 8) = true → loc / 8 * 8 ∈ s'.poison) ∧
      (unit = 2 → fld loc 0 20 / 8 * 8 ∈ (s'.core (fld loc 42 10)).bpoison) ∧
      (unit = 3 → fld loc 0 20 / 8 * 8 ∈ (s'.core (fld loc 42 10)).apoison) := by
  intro k
  have hexec := execUncorrectableError_eq hcol hunit loc s
  have hcolumn : (s.poisonAt unit loc).column col = k :=
    State.poisonAt_keep (fun w => w.column col) (fun w t f => w.column_modTeam t f col) (fun _ _ _ => rfl) (fun _ _ => rfl) s unit loc
  obtain ⟨hue, hce⟩ := wfld_satInc k.rasstat
  refine ⟨_, hexec, ?_, ?_, ?_⟩
  · exact State.poisonAt_keep State.mem (fun w t f => w.modTeam_mem t f) (fun _ _ _ => rfl) (fun _ _ => rfl) s unit loc
  · exact State.poisonAt_keep State.flights (fun w t f => w.modTeam_flights t f) (fun _ _ _ => rfl) (fun _ _ => rfl) s unit loc
  rw [State.column_modCol_same, hcolumn]
  refine ⟨Column.raslog_rasPush .., hue, hce, fun hu hmem => ?_, ?_, ?_⟩
  · have hpoison : (s.poisonAt unit loc).poison = (loc / 8 * 8) :: s.poison.filter (· != loc / 8 * 8) := by
      interval_cases unit
      · exact congrArg State.poison (if_pos hmem)
      · exact congrArg State.poison (if_pos hmem)
    exact hpoison ▸ List.mem_cons_self
  · rintro rfl
    rw [State.core_modCol, State.poisonAt, State.core_modCore_same]
    exact List.mem_cons_self
  · rintro rfl
    rw [State.core_modCol, State.poisonAt, State.core_modCore_same]
    exact List.mem_cons_self

/-- Settles O55: bring-up by the check that fails first, then an equation or an effect for each event. -/
theorem packageEvents : Obligations.PackageEvents := by
  intro s col k
  refine ⟨?boot, fun temp droop hcol hcap hfloor => coneEvaluation_effect temp droop hcol hcap hfloor, fun avg havg => powerManagerTick_effect s havg,
    fun unit loc hcol hunit => ⟨correctedError_effect loc hcol hunit, uncorrectableError_effect loc hcol hunit⟩,
    fun nonce hup => ?report, fun off hup hcol hoff hport => ?read, fun off v hup hcol hoff => ?write, fun n => rfl⟩
  case boot =>
    intro fresh key signed keyOk sound stops
    obtain ⟨hsign, hsvn, hrest⟩ := s.bootFails_cases
    have hstops : ∀ st e, s.bootFails = some (st, e) → stops none st e := fun st e h =>
      ⟨_, (execPowerOnReset_none s).trans (by rw [h]), s.bringUp_stops st e⟩
    have hsigned : signed ↔ s.signed = true := s.signed_iff.symm
    have hsound : ∀ l, sound l ↔ l.any (·.spoilt) = false := fun l => (spoilt_none_iff l).symm
    simp only [keyOk, hsigned, hsound, Bool.not_eq_true, Bool.not_eq_false]
    refine ⟨fun hk hf hi => ?_, fun h => hstops _ _ (hsign h), fun h hlt => hstops _ _ (hsvn h hlt),
      fun hk hf => hstops _ _ ((hrest hk.1 hk.2).1 hf), fun hk hf hi => hstops _ _ (((hrest hk.1 hk.2).2 hf).1 hi)⟩
    have hnone := ((hrest hk.1 hk.2).2 hf).2 hi
    refine ⟨powerOnReset_complete hnone, fun st e hst => ?_⟩
    have hfail : bootFailure (st, e) = true := List.contains_iff_mem.2 hst
    exact ⟨_, execPowerOnReset_fails hfail hnone, s.bringUp_stops st e⟩
  case report =>
    have hup' := s.boot.answers_iff.2 hup
    exact ⟨execMeasurementReport_eq nonce hup', execManagementRequest_report nonce hup'⟩
  case read =>
    have hok := mgmtReads_iff.2 ⟨hcol, hoff⟩
    have hsmall : off < 4096 := by
      simp only [List.mem_cons, List.not_mem_nil, or_false] at hoff
      omega
    have hexec := execManagementRequest_read (s.boot.answers_iff.2 hup) hok (State.ccReady_ctl hcol hsmall hport)
    rw [State.regPop_mreads] at hexec
    exact hexec
  case write =>
    have hexec := execManagementRequest_write v (s.boot.answers_iff.2 hup) (mgmtWrites_iff.2 ⟨hcol, hoff⟩)
    obtain ⟨hmem, home, seq, hport⟩ := s.portSend_sent { id := 0, stream := 0, seq := 0, home := 0, pa := ctlAddr col off, size := 8, data := v }
    exact ⟨_, _, hexec, hmem, hport, rfl, rfl, rfl, rfl, rfl, rfl⟩

end Sys2Proof.Machine

namespace Sys2Proof.Machine

/-! ## The pool (R340, R349) -/

theorem State.modPool_keep {α : Type} (g : State → α) (hg : ∀ w p, g { w with pool := p } = g w) (s : State)
    (f : List PoolNode → List PoolNode) : g (s.modPool f) = g s := by
  unfold State.modPool
  dsimp only
  split
  · exact hg ..
  · split
    · exact hg ..
    · exact (hg { s with pool := f s.pool } _).trans (hg ..)

theorem State.modNode_keep {α : Type} (g : State → α) (hg : ∀ w p, g { w with pool := p } = g w) (s : State) (node : Nat)
    (f : PoolNode → PoolNode) : g (s.modNode node f) = g s := State.modPool_keep g hg ..

/-- A change of the pool's nodes that keeps which they are keeps which of them is found. -/
theorem find_map_node {l : List PoolNode} {f : PoolNode → PoolNode} (hf : ∀ n, (f n).node = n.node) (node : Nat) :
    (l.map f).find? (fun n => n.node == node) = (l.find? (fun n => n.node == node)).map f := by
  rw [List.find?_map]
  congr 2
  funext n
  exact congrArg (· == node) (hf n)

/-- A change of the pool renews the time of the node that has become its head, and no more (R346). -/
theorem State.poolNode_modPool (s : State) (f : List PoolNode → List PoolNode) (node : Nat) :
    ∃ h : PoolNode → Nat, (s.modPool f).poolNode? node =
      ((f s.pool).find? (fun n => n.node == node)).map (fun n => { n with headSince := h n }) := by
  have hsame : ∀ o : Option PoolNode, o = o.map (fun n => { n with headSince := n.headSince }) := fun o => by cases o <;> rfl
  unfold State.modPool
  dsimp only
  split
  · exact ⟨PoolNode.headSince, hsame _⟩
  · rename_i x _
    split
    · exact ⟨PoolNode.headSince, hsame _⟩
    · refine ⟨fun n => if n.node == x then s.cycle 0 else n.headSince, ?_⟩
      refine (find_map_node (fun n => by split <;> rfl) node).trans (congrArg (fun g => Option.map g _) (funext fun n => ?_))
      dsimp only
      split <;> rfl

theorem State.node_of_poolNode {s : State} {node : Nat} {n : PoolNode} (hn : s.poolNode? node = some n) : n.node = node :=
  eq_of_beq (List.find?_some (p := fun n : PoolNode => n.node == node) hn)

theorem State.poolNode_modNode {s : State} {node : Nat} {n : PoolNode} (hn : s.poolNode? node = some n) {f : PoolNode → PoolNode}
    (hf : ∀ n, (f n).node = n.node) : ∃ h, (s.modNode node f).poolNode? node = some { f n with headSince := h } := by
  obtain ⟨h, heq⟩ := s.poolNode_modPool (fun p => p.map (fun n => if n.node == node then f n else n)) node
  have hnode : (n.node == node) = true := beq_iff_eq.2 (State.node_of_poolNode hn)
  refine ⟨h (f n), heq.trans ?_⟩
  rw [find_map_node (fun n => by split <;> simp only [hf]), show s.pool.find? (fun n => n.node == node) = some n from hn]
  simp only [Option.map_some, hnode, if_true]

/-- A node that has noted a team's signal is otherwise what it was (R349). -/
def PoolNode.Signalled (n m : PoolNode) : Prop := ∃ sig done since, m = { n with sig := sig, sigDone := done, headSince := since }

theorem State.signalTeam_keep {α : Type} (g : State → α) (hp : ∀ w p, g { w with pool := p } = g w)
    (hv : ∀ w v, g { w with visits := v } = g w) (s : State) (node idx : Nat) : g (s.signalTeam node idx) = g s := by
  unfold State.signalTeam
  split
  · rfl
  · dsimp only
    split
    · rfl
    · split
      · exact (hv ..).trans (State.modNode_keep g hp ..)
      · exact State.modNode_keep g hp ..

theorem State.poolNode_signalTeam {s : State} {node : Nat} {n : PoolNode} (hn : s.poolNode? node = some n) (idx : Nat) :
    ∃ m, (s.signalTeam node idx).poolNode? node = some m ∧ n.Signalled m := by
  unfold State.signalTeam
  rw [hn]
  dsimp only
  split
  · exact ⟨n, hn, n.sig, n.sigDone, n.headSince, rfl⟩
  · obtain ⟨h, hm⟩ := State.poolNode_modNode hn (f := fun m => { m with sig := idx :: m.sig, sigDone := n.sig.length + 1 == nrTeams n.words })
      (fun _ => rfl)
    split
    · exact ⟨_, hm, _, _, _, rfl⟩
    · exact ⟨_, hm, _, _, _, rfl⟩

theorem State.countRetired_keep {α : Type} (g : State → α) (hp : ∀ w p, g { w with pool := p } = g w)
    (hv : ∀ w v, g { w with visits := v } = g w) (s : State) (record t idx : Nat) (failed : Option Nat) :
    g (s.countRetired record t idx failed) = g s :=
  (State.signalTeam_keep g hp hv ..).trans (State.modNode_keep g hp ..)

/-- A node counts a team as retired, with the failure that ended it (R339, R349). -/
theorem State.poolNode_countRetired {s : State} {record : Nat} {n : PoolNode} (hn : s.poolNode? record = some n) (t idx : Nat)
    (failed : Option Nat) : ∃ m, (s.countRetired record t idx failed).poolNode? record = some m ∧
      m.retired = n.retired + 1 ∧ m.resident = n.resident.filter (· != t) ∧ m.saved = n.saved ∧
      (failed.isSome = true → m.failed = failed) := by
  obtain ⟨h, hm⟩ := State.poolNode_modNode hn (f := fun n => { n with
    resident := n.resident.filter (· != t)
    retired := n.retired + 1
    failed := if failed.isSome then failed else n.failed }) (fun _ => rfl)
  obtain ⟨m, hfound, sig, done, since, rfl⟩ := State.poolNode_signalTeam hm idx
  exact ⟨_, hfound, rfl, rfl, rfl, fun hf => if_pos hf⟩

theorem insertBy_perm {α : Type} (f : α → Nat) (x : α) (l : List α) : (insertBy f x l).Perm (x :: l) := by
  induction l with
  | nil => exact .refl _
  | cons y l ih =>
    unfold insertBy
    split
    · exact .refl _
    · exact (ih.cons y).trans (.swap x y l)

theorem sortBy_perm {α : Type} (f : α → Nat) (l : List α) : (sortBy f l).Perm l := by
  have hfold : ∀ acc : List α, (l.foldl (fun acc x => insertBy f x acc) acc).Perm (l ++ acc) := by
    induction l with
    | nil => exact fun acc => .refl _
    | cons x l ih =>
      intro acc
      refine (ih _).trans ?_
      exact ((insertBy_perm f x acc).append_left l).trans List.perm_middle
  exact (hfold []).trans (by rw [List.append_nil])

/-- The node whose placement comes next stands in the pool (R344). -/
theorem State.nextPlacement_found {s : State} {n : PoolNode} {i : Nat} {b : Bool} {cs : List Nat} (h : s.nextPlacement = some (n, i, b, cs)) :
    ∃ m, s.poolNode? n.node = some m := by
  obtain ⟨m, hm, hsome⟩ := List.exists_of_findSome?_eq_some h
  split at hsome
  · obtain ⟨o, -, ho⟩ := List.exists_of_findSome?_eq_some hsome
    obtain ⟨cs', -, heq⟩ := Option.map_eq_some_iff.1 ho
    cases heq
    have hmem : n ∈ s.pool := (sortBy_perm ..).mem_iff.1 hm
    exact Option.isSome_iff_exists.1 (List.find?_isSome.2 ⟨n, hmem, beq_self_eq_true _⟩)
  · cases hsome

/-! ## An eviction's end (R357, R358) -/

theorem State.core_endEviction (s : State) (node c : Nat) : (s.endEviction node).core c = (s.core c).endEviction node := by
  have hget : ∀ l : List (Nat × Core), mapGet {} c (l.map (fun p => (p.1, p.2.endEviction node))) = (mapGet {} c l).endEviction node := by
    intro l
    induction l with
    | nil => rfl
    | cons p l ih =>
      simp only [mapGet, List.map_cons, mapGet?] at ih ⊢
      split
      · rfl
      · exact ih
  exact hget s.cores

theorem Core.split_endEviction (k : Core) (node : Nat) : (k.endEviction node).split = k.split := by
  unfold Core.endEviction
  split <;> rfl

end Sys2Proof.Machine

namespace Sys2Proof.Machine

/-! ## What slices do to the state beside memory -/

/-- What slices do where they serve reads: memory and its marks, columns, numbers and free values; the rest stays. -/
def State.Served (s s' : State) : Prop :=
  { s' with mem := s.mem, poison := s.poison, columns := s.columns, nextId := s.nextId, fresh := s.fresh } = s ∧ s.nextId ≤ s'.nextId

theorem State.Served.rfl {s : State} : s.Served s := ⟨Eq.refl s, Nat.le_refl _⟩

theorem State.Served.trans {s u w : State} (h : s.Served u) (h' : u.Served w) : s.Served w :=
  have hw : { w with mem := s.mem, poison := s.poison, columns := s.columns, nextId := s.nextId, fresh := s.fresh } =
      { u with mem := s.mem, poison := s.poison, columns := s.columns, nextId := s.nextId, fresh := s.fresh } :=
    (congrArg (fun x : State => { x with mem := s.mem, poison := s.poison, columns := s.columns, nextId := s.nextId, fresh := s.fresh }) h'.1 :)
  ⟨Eq.trans hw h.1, Nat.le_trans h.2 h'.2⟩

/-- What a reader of the state finds as before, since slices serve no more than memory and columns. -/
theorem State.Served.keep {s s' : State} (h : s.Served s') {α : Type} (g : State → α)
    (hg : ∀ w m p c i f, g { w with mem := m, poison := p, columns := c, nextId := i, fresh := f } = g w) : g s' = g s :=
  (hg s' s.mem s.poison s.columns s.nextId s.fresh).symm.trans (congrArg g h.1)

theorem State.served_modCol (s : State) (c : Nat) (f : Column → Column) : s.Served (s.modCol c f) := ⟨Eq.refl s, Nat.le_refl _⟩

theorem State.served_foldl {α : Type} (f : State → α → State) (hf : ∀ (s : State) x, s.Served (f s x)) (s : State) (l : List α) :
    s.Served (l.foldl f s) := by
  induction l generalizing s with
  | nil => exact .rfl
  | cons x l ih => exact (hf s x).trans (ih _)

theorem State.leaveGranule_served (s : State) (col : Nat) (b : Block) (g : Nat) (wb : Bool) : s.Served (s.leaveGranule col b g wb) := by
  unfold State.leaveGranule
  split
  · exact .rfl
  · split
    · exact s.served_modCol col _
    · exact ⟨Eq.refl s, Nat.le_refl _⟩

theorem State.evictBlock_served (s : State) (col : Nat) (b : Block) : s.Served (s.evictBlock col b) :=
  (State.served_foldl _ (fun s g => s.leaveGranule_served col b g true) s b.grans).trans (State.served_modCol ..)

theorem State.makeRoom_served (s : State) (col rg tags need : Nat) (keep : Block → Bool) (fuel : Nat) :
    s.Served (s.makeRoom col rg tags need keep fuel) := by
  induction fuel generalizing s with
  | zero => exact .rfl
  | succ fuel ih =>
    unfold State.makeRoom
    dsimp only
    split
    · exact .rfl
    · split
      · exact .rfl
      · exact (s.evictBlock_served col _).trans (ih _)

theorem State.fillBlock_served (s : State) (col rg a e : Nat) (replica : Bool) : s.Served (s.fillBlock col rg a e replica) := by
  unfold State.fillBlock
  exact (State.makeRoom_served ..).trans (State.served_modCol ..)

theorem State.serveReplica_served (s : State) (col rg a e : Nat) : s.Served (s.serveReplica col rg a e) := by
  unfold State.serveReplica
  dsimp only
  split
  · exact s.fillBlock_served ..
  · exact .rfl

theorem State.needGranule_served (s : State) (col rg g hint : Nat) (replica : Bool) : s.Served (s.needGranule col rg g hint replica) := by
  unfold State.needGranule
  split
  · exact .rfl
  · dsimp only
    split
    · exact (s.serveReplica_served ..).trans (State.fillBlock_served ..)
    · exact s.fillBlock_served ..

theorem State.removeGranules_served (s : State) (col rg : Nat) (gs : List Nat) (wb : Bool) : s.Served (s.removeGranules col rg gs wb) := by
  unfold State.removeGranules
  extract_lets hit s1 rest s2 s3
  have h1 : s.Served s1 := State.served_foldl _ (fun s b => State.served_foldl _ (fun s g => s.leaveGranule_served col b g wb) s _) s hit
  have h2 : s.Served s2 := h1.trans (State.served_modCol ..)
  have h3 : s.Served s3 := by
    simp only [s3]
    split
    · exact h2
    · exact h2.trans (State.makeRoom_served ..)
  exact h3.trans (State.served_modCol ..)

theorem State.sendInval_served (s : State) (home rg : Nat) (gs : List Nat) (who : Option Nat) : s.Served (s.sendInval home rg gs who) :=
  ⟨(congrArg (fun x : State => { x with mem := s.mem, poison := s.poison, nextId := s.nextId, fresh := s.fresh })
    (s.sendInval_frame home rg gs who s.columns) :), (congrArg State.nextId (s.sendInval_frame home rg gs who s.columns)).ge⟩

theorem State.unreplicate_served (s : State) (home rg : Nat) : s.Served (s.unreplicate home rg) :=
  State.Served.trans (u := { s with nextId := s.nextId + 1 }) ⟨Eq.refl s, Nat.le_succ _⟩
    ((State.served_modCol ..).trans (State.sendInval_served ..))

theorem State.applyInval_served (s : State) (col : Nat) (x : Nat × List Nat × Option Nat) : s.Served (s.applyInval col x) := by
  unfold State.applyInval
  dsimp only
  split
  · exact s.served_modCol col _
  · exact (s.served_modCol col _).trans (State.removeGranules_served ..)

theorem State.drainChannel_served (s : State) (col home : Nat) : s.Served (s.drainChannel col home) :=
  State.served_foldl _ (fun s x => s.applyInval_served col x) s _

theorem State.count_served (s : State) (home rg : Nat) (f : RegCnt → RegCnt) : s.Served (s.count home rg f) := by
  unfold State.count
  dsimp only
  split
  · exact s.served_modCol home _
  · split
    · exact .rfl
    · split
      · exact (s.unreplicate_served home _).trans (State.served_modCol ..)
      · exact s.served_modCol home _

theorem State.counted_served (s : State) (col attr pa : Nat) : s.Served (s.counted col attr pa) := by
  unfold State.counted State.countRead
  split
  · split
    · exact .rfl
    · exact s.count_served ..
  · exact .rfl

theorem State.meetInval_served (s : State) (col attr pa : Nat) : s.Served (s.meetInval col attr pa) := by
  unfold State.meetInval
  dsimp only
  split
  · exact s.drainChannel_served ..
  · exact .rfl

theorem State.sliceFill_served (s : State) (col attr pa n hint : Nat) : s.Served (s.sliceFill col attr pa n hint).2 := by
  unfold State.sliceFill
  split
  · exact .rfl
  · split
    · exact .rfl
    · extract_lets rg g sv s1 s2
      have h1 : s.Served s1 := by
        simp only [s1]
        split
        · exact s.drainChannel_served ..
        · exact .rfl
      have h2 : s.Served s2 := h1.trans (State.needGranule_served ..)
      split
      · exact h2
      · exact h2

theorem State.sliceServe_served (s : State) (col attr pa n hint : Nat) : s.Served (s.sliceServe col attr pa n hint).2 :=
  (s.meetInval_served col attr pa).trans (State.sliceFill_served ..)

theorem State.sliceRead_served (s : State) (col attr pa n hint : Nat) : s.Served (s.sliceRead col attr pa n hint).2 :=
  (s.counted_served col attr pa).trans (State.sliceServe_served ..)

theorem State.loadBytes_served (s : State) (col attr pa n hint : Nat) : s.Served (s.loadBytes col attr pa n hint).2 :=
  (s.meetInval_served col attr pa).trans ((State.counted_served ..).trans (State.sliceServe_served ..))

/-! ### Writes -/

/-- What slices do where they perform writes: what they do for reads, and accesses that wait for a word are woken (R224). -/
def State.Stored (s s' : State) : Prop := s.Served { s' with flights := s.flights }

theorem State.Served.stored {s s' : State} (h : s.Served s') : s.Stored s' :=
  ⟨(congrArg (fun x : State => { x with flights := s.flights }) h.1 :), h.2⟩

theorem State.Stored.trans {s u w : State} (h : s.Stored u) (h' : u.Stored w) : s.Stored w :=
  State.Served.trans h ⟨(congrArg (fun x : State => { x with flights := s.flights }) h'.1 :), h'.2⟩

theorem State.Stored.keep {s s' : State} (h : s.Stored s') {α : Type} (g : State → α)
    (hg : ∀ w m p c i f, g { w with mem := m, poison := p, columns := c, nextId := i, fresh := f } = g w)
    (hf : ∀ w f, g { w with flights := f } = g w) : g s' = g s :=
  (hf s' s.flights).symm.trans (State.Served.keep h g hg)

theorem State.stored_foldl {α : Type} (f : State → α → State) (hf : ∀ (s : State) x, s.Stored (f s x)) (s : State) (l : List α) :
    s.Stored (l.foldl f s) := by
  induction l generalizing s with
  | nil => exact State.Served.rfl.stored
  | cons x l ih => exact (hf s x).trans (ih _)

theorem State.endWait_stored (s : State) (home : Nat) (e : WaitEnt) (v : Word) : s.Stored (s.endWait home e v) := by
  unfold State.endWait
  dsimp only
  split
  · exact ⟨Eq.refl s, Nat.le_refl _⟩
  · exact ⟨Eq.refl s, Nat.le_refl _⟩

theorem State.wakeWords_stored (s : State) (home : Nat) (ws : List Nat) : s.Stored (s.wakeWords home ws) :=
  State.stored_foldl _ (fun s _ => State.stored_foldl _ (fun s e => s.endWait_stored home e _) s _) s ws

theorem State.homePut_stored (s : State) (pa : Nat) (bs : List Byte) : s.Stored (s.homePut pa bs) := by
  unfold State.homePut
  extract_lets home n rg g s1 s2 s3
  split
  · exact State.Served.rfl.stored
  · split
    · exact State.Stored.trans (u := { s with mem := memPutBytes s.mem pa bs, poison := clearPoison s.poison pa n }) ⟨Eq.refl s, Nat.le_refl _⟩
        (State.wakeWords_stored ..)
    · have h1 : s.Served s1 := by
        simp only [s1]
        split
        · exact .rfl
        · exact s.fillBlock_served ..
      have h2 : s.Served s2 := h1.trans (s1.served_modCol home _)
      have h3 : s.Served s3 := h2.trans ⟨Eq.refl s2, Nat.le_refl _⟩
      exact (h3.trans (s3.count_served ..)).stored.trans (State.wakeWords_stored ..)

theorem State.homeWrite_stored (s : State) (pa : Nat) (bs : List Byte) (who : Option Nat) : s.Stored (s.homeWrite pa bs who) := by
  unfold State.homeWrite
  dsimp only
  split
  · exact (s.homePut_stored pa bs).trans (State.sendInval_served ..).stored
  · exact s.homePut_stored pa bs

theorem State.ctrlWrite_stored (s : State) (pa : Nat) (bs : List Byte) : s.Stored (s.ctrlWrite pa bs) := by
  unfold State.ctrlWrite
  extract_lets home s1
  split
  · exact State.Served.rfl.stored
  · split
    · exact State.Stored.trans (u := { s1 with mem := memPutBytes s1.mem pa bs }) ⟨Eq.refl s, Nat.le_refl _⟩ (State.wakeWords_stored ..)
    · exact State.Stored.trans (u := s1.modCol home _) ⟨Eq.refl s, Nat.le_refl _⟩ (State.wakeWords_stored ..)

theorem State.writeAt_stored (s : State) (attr pa : Nat) (bs : List Byte) (who : Option Nat) : s.Stored (s.writeAt attr pa bs who) := by
  unfold State.writeAt
  split
  · exact s.homeWrite_stored ..
  · exact s.ctrlWrite_stored ..

/-! ### Engines -/

/-- What holds of a state, whatever slices serve, engines' entries of the TLB of a core and counts of accesses to peers (R378). -/
structure State.Indifferent (core : Nat) (P : State → Prop) : Prop where
  served : ∀ s s' : State, s.Served s' → P s → P s'
  tlb : ∀ (s : State) e, P s → P (s.addTlb core e)
  mig : ∀ (s : State) m q, P s → P { s with migcnt := m, migq := q }

theorem State.countMig_inv {core : Nat} {P : State → Prop} (hP : State.Indifferent core P) {s : State} (h : P s) (fmode peer pa : Nat) :
    P (s.countMig fmode peer pa) := by
  unfold State.countMig
  dsimp only
  split
  · exact h
  · split
    · exact hP.mig s _ s.migq h
    · split
      · exact hP.mig s _ _ h
      · exact hP.mig s _ s.migq h

theorem State.engBytes_inv {core : Nat} {P : State → Prop} (hP : State.Indifferent core P) {s : State} (h : P s) (col : Nat) (e : TlbEnt)
    (pa n : Nat) : P (s.engBytes col e pa n).2 := by
  unfold State.engBytes
  dsimp only
  split
  · have hmig := State.countMig_inv hP h (pteFmode e.pte) (ptePeer e.pte) pa
    split
    · exact hP.served _ _ (State.sliceRead_served ..) hmig
    · exact hP.served _ _ ⟨Eq.refl (s.countMig (pteFmode e.pte) (ptePeer e.pte) pa), Nat.le_refl _⟩ hmig
  · exact hP.served _ _ (s.loadBytes_served ..) h

theorem State.engTake_inv {core : Nat} {P : State → Prop} (hP : State.Indifferent core P) {s : State} (h : P s) (g : Eng) (e : TlbEnt)
    (pa : Nat) (k : AccessKind) : P (s.engTake g e pa k) := by
  unfold State.engTake
  split
  · exact h
  · exact hP.served _ _ (State.served_modCol ..) h

/-- What an engine's reads leave standing (R170, R277). -/
theorem State.engRead_inv {g : Eng} {P : State → Prop} (hP : State.Indifferent g.core P) {xs : List (Nat × Nat)} {ls : List Nat}
    {d d' : EngData} {s s' : State} (h : P s) (hout : s.engRead g xs ls d = .ok d' s') : P s' := by
  induction ls generalizing s d with
  | nil =>
    cases hout
    exact h
  | cons ln ls ih =>
    unfold State.engRead at hout
    dsimp only at hout
    split at hout
    · cases hout
    · split at hout
      · cases hout
      · exact ih (State.engBytes_inv hP (State.engTake_inv hP (hP.tlb _ _ h) ..) ..) hout

theorem State.engGather_inv {g : Eng} {P : State → Prop} (hP : State.Indifferent g.core P) {xs : List (Nat × Nat)} {d : EngData}
    {s s' : State} (h : P s) (hout : s.engGather g xs = .ok d s') : P s' := State.engRead_inv hP h hout

theorem State.engSend_stored (s : State) (g : Eng) (i : Issuer) (wid : Nat) (e : TlbEnt) (pa : Nat) (c : Chunk) :
    s.Stored (s.engSend g i wid e pa c) := ⟨Eq.refl s, Nat.le_succ _⟩

/-- What an engine's writes leave standing (R198, R376). -/
theorem State.engWrite_inv {g : Eng} {P : State → Prop} (hP : State.Indifferent g.core P)
    (hstored : ∀ s s' : State, s.Stored s' → P s → P s') {i : Issuer} {cs : List Chunk} {wid : Nat} {d : EngData} {s s' : State} (h : P s)
    (hout : s.engWrite g i cs wid = .ok d s') : P s' := by
  unfold State.engWrite at hout
  split at hout
  · cases hout
  · cases hout
    refine foldl_inv P _ (fun s c h => ?_) s h cs
    unfold State.engPut
    split
    · exact h
    · have htaken := State.engTake_inv hP (hP.tlb _ ‹TlbEnt› h) g ‹TlbEnt› ‹Nat› .store
      dsimp only
      split
      · exact hstored _ _ (State.engSend_stored ..) htaken
      · exact hstored _ _ (State.writeAt_stored ..) htaken

end Sys2Proof.Machine

namespace Sys2Proof.Machine

/-! ## A write of HBM reads back (R29, R170) -/

theorem isHost_of_isHbm {pa : Nat} (h : isHbm pa = true) : (isHost pa || isIO pa) = false := by
  simp only [isHbm, decide_eq_true_eq] at h
  simp only [isHost, isIO, Bool.or_eq_false_iff, Bool.and_eq_false_iff, decide_eq_false_iff_not]
  omega

theorem State.memBytes_homePut {pa : Nat} (h : (isHost pa || isIO pa) = false) (s : State) (bs : List Byte) :
    memBytes (s.homePut pa bs).mem pa bs.length = bs := by
  unfold State.homePut
  extract_lets home n rg g s1 s2 s3
  rw [if_neg (by simp [h])]
  split
  · rw [State.wakeWords_mem]
    exact memBytes_memPutBytes ..
  · rw [State.wakeWords_mem, State.countWrite_mem]
    exact memBytes_memPutBytes ..

theorem State.memBytes_homeWrite {pa : Nat} (h : (isHost pa || isIO pa) = false) (s : State) (bs : List Byte) (who : Option Nat) :
    memBytes (s.homeWrite pa bs who).mem pa bs.length = bs := by
  unfold State.homeWrite
  dsimp only
  split
  · rw [State.sendInval_mem]
    exact State.memBytes_homePut h ..
  · exact State.memBytes_homePut h ..

/-! ## The DEP word of a node record (R331, R337) -/

theorem State.nodeAt_dep (s : State) (pa : Nat) : nw (s.nodeAt pa) 7 = memRead s.mem (pa + 0x38) 8 := rfl

theorem State.putDep_dep {pa : Nat} (h : isHbm (pa + 0x38) = true) (s : State) (dep : Nat) :
    nw ((s.putDep pa dep).nodeAt pa) 7 = dep % 2 ^ 64 := by
  have hb := State.memBytes_homeWrite (isHost_of_isHbm h) s (leBytes 8 dep) none
  rw [length_leBytes] at hb
  rw [State.nodeAt_dep, memRead, State.putDep, hb]
  exact leVal_leBytes ..

theorem nrState_depWith (w : NodeRec) (err st rsig rem : Nat) : fld (depWith w err st rsig rem) 48 3 = st % 2 ^ 3 := by
  unfold depWith
  rw [fld_setFld_above _ _ (by decide), fld_setFld_above _ _ (by decide), fld_setFld_same]

theorem isHbm_dep {node : Nat} (h : isHbm node = true) (hal : node % 128 = 0) : isHbm (node + 0x38) = true := by
  simp only [isHbm, decide_eq_true_eq] at h ⊢
  omega

/-- The first team of a node that is ready makes it run (R337). -/
theorem State.nrState_runRec {s : State} {node : Nat} (h : isHbm (node + 0x38) = true) (hready : nrState (s.nodeAt node) = 2) :
    nrState ((s.runRec node).nodeAt node) = 3 := by
  unfold State.runRec
  dsimp only
  rw [if_pos hready, nrState, State.putDep_dep h, fld_mod (by decide)]
  exact nrState_depWith ..

theorem State.runRec_stored (s : State) (node : Nat) : s.Stored (s.runRec node) := by
  unfold State.runRec
  dsimp only
  split
  · exact s.homeWrite_stored ..
  · exact State.Served.rfl.stored

/-! ## A team is placed (R341, R342) -/

theorem State.acquire_keep {α : Type} (g : State → α) (hg : ∀ w k, g { w with cores := k } = g w) (s : State) (core scope : Nat) :
    g (s.acquire core scope) = g s := by
  unfold State.acquire
  split
  · exact hg ..
  · rfl

/-- A core's lines go at an acquire; its split stays (R199). -/
theorem State.split_acquire (s : State) (core scope c : Nat) : ((s.acquire core scope).core c).split = (s.core c).split := by
  unfold State.acquire
  split
  · by_cases hc : c = core
    · subst hc
      rw [State.core_modCore_same]
    · rw [State.core_modCore_ne _ hc]
  · rfl

theorem State.takeTeam_keep {α : Type} (g : State → α) (hk : ∀ w k, g { w with cores := k } = g w) (ht : ∀ w t, g { w with teams := t } = g w)
    (s : State) (T : Team) : g (s.takeTeam T) = g s := (ht ..).trans (hk ..)

/-- A core that takes a team (R343, R346, R357). -/
def Core.taking (T : Team) (alone : Bool) (k : Core) : Core := { k with
  l1 := if alone && k.split.map (·.l1) != some T.split.l1 then [] else k.l1
  split := some T.split
  reserved := if k.reserved = some T.record then none else k.reserved
  admitted := if k.evictFor = some T.record then some T.serial else k.admitted
  evictFor := if k.evictFor = some T.record then none else k.evictFor }

theorem State.core_takeTeam (s : State) (T : Team) : (s.takeTeam T).core T.core = (s.core T.core).taking T (s.teamsOn T.core).isEmpty :=
  State.core_modCore_same s T.core (Core.taking T (s.teamsOn T.core).isEmpty)

theorem State.split_takeTeam (s : State) (T : Team) : ((s.takeTeam T).core T.core).split = some T.split := by
  rw [State.core_takeTeam, Core.taking]

/-- The team that a node's next placement makes on a core (R342). -/
def State.nextTeam (s : State) (n : PoolNode) (idx core gangpos gang : Nat) : Team :=
  newTeam n idx core ((s.freeSlot core).getD 0) gangpos gang (s.nodeRem n.node != 0) s.nextId

theorem State.placeTeam_keep {α : Type} (g : State → α) (hk : ∀ w k, g { w with cores := k } = g w) (ht : ∀ w t, g { w with teams := t } = g w)
    (hp : ∀ w p, g { w with pool := p } = g w) (s : State) (n : PoolNode) (idx core gangpos gang : Nat) :
    g (s.placeTeam n idx core gangpos gang) = g { s with nextId := s.nextId + 1 } := by
  unfold State.placeTeam
  dsimp only
  refine (State.modNode_keep g hp ..).trans ?_
  split
  · exact (State.acquire_keep g hk ..).trans (State.takeTeam_keep g hk ht ..)
  · exact State.takeTeam_keep g hk ht ..

theorem State.placeTeam_teams (s : State) (n : PoolNode) (idx core gangpos gang : Nat) :
    (s.placeTeam n idx core gangpos gang).teams = mapPut s.nextId (s.nextTeam n idx core gangpos gang) s.teams := by
  unfold State.placeTeam
  dsimp only
  refine (State.modNode_keep State.teams (fun _ _ => rfl) ..).trans ?_
  split
  · exact State.acquire_keep State.teams (fun _ _ => rfl) ..
  · rfl

theorem State.split_placeTeam (s : State) (n : PoolNode) (idx core gangpos gang : Nat) :
    ((s.placeTeam n idx core gangpos gang).core core).split = some (nrSplit n.words) := by
  unfold State.placeTeam
  dsimp only
  have hcore := State.modNode_keep (fun w => w.core core) (fun _ _ => rfl)
  refine (congrArg Core.split (hcore ..)).trans ?_
  have htaken := State.split_takeTeam { s with nextId := s.nextId + 1 } (s.nextTeam n idx core gangpos gang)
  split
  · exact (State.split_acquire ..).trans htaken
  · exact htaken

theorem State.poolNode_placeTeam {s : State} {n m : PoolNode} (hm : s.poolNode? n.node = some m) (idx core gangpos gang : Nat) :
    ∃ m', (s.placeTeam n idx core gangpos gang).poolNode? n.node = some m' ∧ m'.resident = m.resident ++ [s.nextId] := by
  unfold State.placeTeam
  extract_lets early ord T s1 s2
  have hkeep : s2.poolNode? n.node = some m := by
    simp only [s2]
    split
    · exact (State.acquire_keep (fun w => w.poolNode? n.node) (fun _ _ => rfl) ..).trans hm
    · exact hm
  obtain ⟨since, hfound⟩ := State.poolNode_modNode hkeep (f := fun n => { n with
    next := n.next + 1, resident := n.resident ++ [ord], since := s2.cycle 0 }) (fun _ => rfl)
  exact ⟨_, hfound, rfl⟩

/-- One team of a node that is no gang goes to one core. -/
theorem State.placeUnit_single {n : PoolNode} (hg : nrIsGang n.words = false) (s : State) (c : Nat) :
    s.placeUnit n [c] = ((s.runRec n.node).placeTeam n n.next c 0 0).endEviction n.node := by
  unfold State.placeUnit
  rw [if_neg (by simp [hg]), if_neg (by simp [hg])]
  rfl

/-- R341 to R345. -/
theorem teamPlace_single {s : State} {node : Nat} {n : PoolNode} {c i : Nat} (hnext : s.nextPlacement = some (n, i, false, [c]))
    (hg : nrIsGang n.words = false) (hnode : n.node = node) (hhbm : isHbm node = true) (hal : node % 128 = 0) :
    ∃ s' early m u, exec (.teamPlace node) s = .next s' ∧ s.nextId ≤ u ∧ s'.nextId = u + 1 ∧
      s'.team u = newTeam n n.next c ((s.freeSlot c).getD 0) 0 0 early u ∧
      (∀ v, v ≠ u → s'.team v = s.team v) ∧ (s'.core c).split = some (nrSplit n.words) ∧
      s'.poolNode? node = some m ∧ m.resident.getLast? = some u ∧
      (nrState (s.nodeAt node) = 2 → nrState (s'.nodeAt node) = 3) := by
  subst hnode
  have hexec : exec (.teamPlace n.node) s = .next (s.placeUnit n [c]) := by
    change execTeamPlace n.node s = _
    unfold execTeamPlace
    rw [hnext]
    exact if_pos (beq_self_eq_true _)
  rw [State.placeUnit_single hg] at hexec
  have hstored := s.runRec_stored n.node
  have hready := State.nrState_runRec (s := s) (isHbm_dep hhbm hal)
  have hkeep : (s.runRec n.node).poolNode? n.node = s.poolNode? n.node :=
    hstored.keep (fun w => w.poolNode? n.node) (fun _ _ _ _ _ _ => rfl) (fun _ _ => rfl)
  have hslot : (s.runRec n.node).freeSlot c = s.freeSlot c := hstored.keep (fun w => w.freeSlot c) (fun _ _ _ _ _ _ => rfl) (fun _ _ => rfl)
  have hteams : (s.runRec n.node).teams = s.teams := hstored.keep State.teams (fun _ _ _ _ _ _ => rfl) (fun _ _ => rfl)
  obtain ⟨m, hm⟩ := State.nextPlacement_found hnext
  generalize s.runRec n.node = r at hexec hstored hready hkeep hslot hteams
  obtain ⟨m', hfound, hres⟩ := State.poolNode_placeTeam (hkeep.trans hm) n.next c 0 0
  have hteam : ∀ v, ((r.placeTeam n n.next c 0 0).endEviction n.node).team v = mapGet Team.blank v (mapPut r.nextId (r.nextTeam n n.next c 0 0) r.teams) :=
    fun v => congrArg (mapGet Team.blank v) (r.placeTeam_teams n n.next c 0 0)
  refine ⟨_, r.nodeRem n.node != 0, m', r.nextId, hexec, hstored.2, ?_, ?_, fun v hv => ?_, ?_, hfound, ?_, fun h => ?_⟩
  · exact State.placeTeam_keep State.nextId (fun _ _ => rfl) (fun _ _ => rfl) (fun _ _ => rfl) ..
  · rw [hteam, mapGet_mapPut_same, State.nextTeam, hslot]
  · rw [hteam, mapGet_mapPut_ne _ hv, hteams]
    rfl
  · rw [State.core_endEviction, Core.split_endEviction, State.split_placeTeam]
  · rw [hres, List.getLast?_append]
    rfl
  · refine Eq.trans ?_ (hready h)
    exact congrArg nrState (State.placeTeam_keep (fun w => w.nodeAt n.node) (fun _ _ => rfl) (fun _ _ => rfl) (fun _ _ => rfl) ..)

end Sys2Proof.Machine

namespace Sys2Proof.Machine

/-! ## A team leaves its core (R354, R356) -/

theorem State.cancelWaits_stored (s : State) (p : Flight → Bool) : s.Stored (s.cancelWaits p) := by
  refine State.stored_foldl _ (fun s f => ?_) s _
  split
  · exact s.endWait_stored ..
  · exact State.Served.rfl.stored

theorem State.emptied_keep {α : Type} (g : State → α) (hk : ∀ w k, g { w with cores := k } = g w) (s : State) (c : Nat) :
    g (s.emptied c) = g s := by
  unfold State.emptied
  split
  · exact hk ..
  · rfl

/-- What a team's leaving keeps, beside teams, columns and cores. -/
theorem State.leaveCore_keep {α : Type} (g : State → α) (hk : ∀ w k, g { w with cores := k } = g w) (ht : ∀ w t, g { w with teams := t } = g w)
    (hc : ∀ w c, g { w with columns := c } = g w) (s : State) (t : Nat) : g (s.leaveCore t) = g s := by
  unfold State.leaveCore
  dsimp only
  exact (State.emptied_keep g hk ..).trans ((hk ..).trans ((ht ..).trans (hc ..)))

theorem State.leaveCore_teams (s : State) (t : Nat) : (s.leaveCore t).teams = mapDel t s.teams := by
  unfold State.leaveCore
  dsimp only
  exact State.emptied_keep State.teams (fun _ _ => rfl) ..

/-- A team is gone, and the others are as they were. -/
theorem State.team_of_mapDel {s s' : State} {t : Nat} (h : s'.teams = mapDel t s.teams) :
    mapGet? t s'.teams = none ∧ ∀ u, u ≠ t → s'.team u = s.team u := by
  refine ⟨h ▸ mapGet?_mapDel_same t s.teams, fun u hu => ?_⟩
  rw [State.team, State.team, h, mapGet, mapGet?_mapDel_ne hu]
  rfl

theorem State.retireTeam_teams (s : State) (t : Nat) (failed : Option Nat) : (s.retireTeam t failed).teams = mapDel t s.teams := by
  unfold State.retireTeam
  dsimp only
  refine (State.countRetired_keep State.teams (fun _ _ => rfl) (fun _ _ => rfl) ..).trans ?_
  rw [State.leaveCore_teams]
  exact congrArg (mapDel t) ((s.cancelWaits_stored _).keep State.teams (fun _ _ _ _ _ _ => rfl) (fun _ _ => rfl))

theorem State.retireTeam_flights (s : State) (t : Nat) (failed : Option Nat) : ∀ f ∈ (s.retireTeam t failed).flights, f.team ≠ t := by
  have hflights : (s.retireTeam t failed).flights = (s.cancelWaits (fun f => f.team == t)).flights.filter (fun f => f.team != t) := by
    unfold State.retireTeam
    dsimp only
    refine (State.countRetired_keep State.flights (fun _ _ => rfl) (fun _ _ => rfl) ..).trans ?_
    exact State.leaveCore_keep State.flights (fun _ _ => rfl) (fun _ _ => rfl) (fun _ _ => rfl) ..
  intro f hf
  rw [hflights] at hf
  exact bne_iff_ne.1 (List.mem_filter.1 hf).2

theorem State.poolNode_retireTeam {s : State} {t : Nat} {m : PoolNode} (hm : s.poolNode? (s.team t).record = some m) (failed : Option Nat) :
    ∃ m', (s.retireTeam t failed).poolNode? (s.team t).record = some m' ∧ m'.retired = m.retired + 1 ∧
      m'.resident = m.resident.filter (· != t) := by
  unfold State.retireTeam
  extract_lets T s1 s2
  have hkeep : (s2.leaveCore t).poolNode? T.record = some m := by
    refine (State.leaveCore_keep (fun w => w.poolNode? T.record) (fun _ _ => rfl) (fun _ _ => rfl) (fun _ _ => rfl) ..).trans ?_
    exact ((s.cancelWaits_stored _).keep (fun w => w.poolNode? T.record) (fun _ _ _ _ _ _ => rfl) (fun _ _ => rfl)).trans hm
  obtain ⟨m', hfound, hret, hres, -, -⟩ := State.poolNode_countRetired hkeep t T.idx failed
  exact ⟨m', hfound, hret, hres⟩

/-- A team retires (R106, R339): Coil's groups are sealed first (R311). -/
theorem teamRetire_due {s : State} {t : Nat} (hdue : s.retireDue t = true) :
    (s.unsealedOf t = true → exec (.teamRetire t) s = .next (s.modCoil (s.team t).core (fun u => { u with
      unsealed := [], seals := u.seals ++ u.unsealed.map (fun j => (j, [])) }))) ∧
    (s.unsealedOf t = false → ∃ s', exec (.teamRetire t) s = .next s' ∧
      (mapGet? t s'.teams = none ∧ ∀ u, u ≠ t → s'.team u = s.team u) ∧ s'.mem = s.mem ∧ (∀ f ∈ s'.flights, f.team ≠ t) ∧
      ∀ m, s.poolNode? (s.team t).record = some m → ∃ m', s'.poolNode? (s.team t).record = some m' ∧ m'.retired = m.retired + 1 ∧
        m'.resident = m.resident.filter (· != t)) := by
  have hexec : exec (.teamRetire t) s = .next (if s.unsealedOf t then s.sealAll t else s.retireTeam t none) := by
    change execTeamRetire t s = _
    unfold execTeamRetire
    rw [if_neg (by simp [hdue])]
  refine ⟨fun hu => ?_, fun hu => ⟨_, ?_, State.team_of_mapDel (s.retireTeam_teams t none), s.retireTeam_mem t none,
    s.retireTeam_flights t none, fun m hm => State.poolNode_retireTeam hm none⟩⟩
  · rw [hexec, if_pos hu]
    rfl
  · rw [hexec, if_neg (by simp [hu])]

/-! ## Drains (R346, R354) -/

theorem mem_dedupNat {x : Nat} {l : List Nat} (h : x ∈ l) : x ∈ dedupNat l := by
  have hfold : ∀ (acc : List Nat), (x ∈ acc ∨ x ∈ l) → x ∈ l.foldl (fun acc x => if acc.contains x then acc else acc ++ [x]) acc := by
    clear h
    induction l with
    | nil => exact fun acc h => h.resolve_right List.not_mem_nil
    | cons y l ih =>
      intro acc h
      refine ih _ ?_
      by_cases hy : acc.contains y = true
      · dsimp only
        rw [if_pos hy]
        rcases h with h | h
        · exact .inl h
        · rcases List.mem_cons.1 h with rfl | h
          · exact .inl (List.contains_iff_mem.1 hy)
          · exact .inr h
      · dsimp only
        rw [if_neg hy, List.mem_append, List.mem_singleton]
        rcases h with h | h
        · exact .inl (.inl h)
        · rcases List.mem_cons.1 h with rfl | h
          · exact .inl (.inr rfl)
          · exact .inr h
  exact hfold [] (.inr h)

theorem State.mem_withGangs (s : State) {fuel c : Nat} {cs : List Nat} (h : c ∈ cs) : c ∈ s.withGangs fuel cs := by
  induction fuel generalizing cs with
  | zero => exact h
  | succ fuel ih =>
    unfold State.withGangs
    dsimp only
    split
    · exact h
    · exact ih (mem_dedupNat (List.mem_append_left _ h))

/-- A core whose drain starts at a cycle, unless one is under way. -/
def Core.toDrain (k : Core) (at_ : Nat) : Core := if k.draining.isSome then k else { k with draining := some at_ }

theorem Core.toDrain_of_isSome {k : Core} (h : k.draining.isSome = true) (at_ : Nat) : k.toDrain at_ = k := if_pos h

theorem Core.toDrain_of_isNone {k : Core} (h : k.draining = none) (at_ : Nat) : k.toDrain at_ = { k with draining := some at_ } :=
  if_neg (by simp [h])

theorem Core.draining_toDrain (k : Core) (at_ : Nat) : (k.toDrain at_).draining.isSome = true := by
  unfold Core.toDrain
  split
  · assumption
  · rfl

/-- A core's drain starts, unless one is under way (R354). -/
def State.drainCore (s : State) (c : Nat) : State :=
  if (s.core c).draining.isSome then s else s.modCore c (fun k => { k with draining := some (s.cycle (coreCol c)) })

theorem State.drainCore_frame (s : State) (c : Nat) : { s.drainCore c with cores := s.cores } = s := by
  unfold State.drainCore
  split <;> rfl

theorem State.core_drainCore (s : State) (c q : Nat) :
    (s.drainCore c).core q = if q = c then (s.core q).toDrain (s.cycle (coreCol q)) else s.core q := by
  unfold State.drainCore
  by_cases hq : q = c
  · subst hq
    rw [if_pos rfl]
    split
    · exact (Core.toDrain_of_isSome ‹_› _).symm
    · rw [State.core_modCore_same]
      exact (if_neg ‹_›).symm
  · rw [if_neg hq]
    split
    · rfl
    · exact State.core_modCore_ne _ hq _

theorem State.foldl_drainCore_frame (s : State) (l : List Nat) : { l.foldl State.drainCore s with cores := s.cores } = s :=
  foldl_inv (fun w : State => { w with cores := s.cores } = s) _
    (fun w c h => (congrArg (fun x : State => { x with cores := s.cores }) (w.drainCore_frame c)).trans h) s rfl l

theorem State.core_foldl_drainCore (s : State) (l : List Nat) (q : Nat) :
    (l.foldl State.drainCore s).core q = if q ∈ l then (s.core q).toDrain (s.cycle (coreCol q)) else s.core q := by
  induction l generalizing s with
  | nil => rfl
  | cons c l ih =>
    have hcycle : (s.drainCore c).cycle (coreCol q) = s.cycle (coreCol q) :=
      (congrArg (fun w : State => w.cycle (coreCol q)) (s.drainCore_frame c) :)
    rw [List.foldl_cons, ih, State.core_drainCore, hcycle]
    by_cases hq : q = c
    · have hstays := Core.toDrain_of_isSome ((s.core q).draining_toDrain (s.cycle (coreCol q))) (s.cycle (coreCol q))
      simp only [hq, List.mem_cons, true_or, if_true] at hstays ⊢
      split
      · exact hstays
      · rfl
    · simp only [hq, List.mem_cons, false_or, if_false]

/-- What the start of drains does to a core: it drains from now on, where it does not yet (R354). -/
theorem State.core_startDrain (s : State) (cs : List Nat) (q : Nat) :
    (s.startDrain cs).core q = if q ∈ s.withGangs 768 cs then (s.core q).toDrain (s.cycle (coreCol q)) else s.core q :=
  s.core_foldl_drainCore (s.withGangs 768 cs) q

theorem State.startDrain_frame (s : State) (cs : List Nat) : { s.startDrain cs with cores := s.cores } = s :=
  s.foldl_drainCore_frame (s.withGangs 768 cs)

/-- A drain that is requested starts (R354). -/
theorem drain_due {s : State} {c : Nat} (hdue : s.drainDue c = true) : ∃ s', exec (.drain c) s = .next s' ∧ { s' with cores := s.cores } = s ∧
    (s'.core c).draining = some (s.cycle (c / 12)) ∧ (∀ q, ∃ d, s'.core q = { s.core q with draining := d }) ∧
    ∀ q, (s.core q).draining.isSome = true → s'.core q = s.core q := by
  have hidle : (s.core c).draining = none := by
    simp only [State.drainDue, Bool.and_eq_true] at hdue
    exact Option.isNone_iff_eq_none.1 hdue.1.2
  refine ⟨s.startDrain [c], if_pos hdue, s.startDrain_frame [c], ?_, fun q => ?_, fun q hq => ?_⟩
  · rw [State.core_startDrain, if_pos (s.mem_withGangs (List.mem_singleton.2 rfl)), Core.toDrain_of_isNone hidle]
    rfl
  · rw [State.core_startDrain]
    split
    · unfold Core.toDrain
      split
      · exact ⟨(s.core q).draining, rfl⟩
      · exact ⟨_, rfl⟩
    · exact ⟨(s.core q).draining, rfl⟩
  · rw [State.core_startDrain, Core.toDrain_of_isSome hq, ite_self]

theorem State.core_reserve (s : State) (node : Nat) (cs : List Nat) (q : Nat) :
    (cs.foldl (fun s c => s.modCore c (fun k => { k with reserved := some node })) s).core q =
      if q ∈ cs then { s.core q with reserved := some node } else s.core q := by
  induction cs generalizing s with
  | nil => rfl
  | cons c cs ih =>
    rw [List.foldl_cons, ih]
    by_cases hq : q = c
    · subst hq
      rw [State.core_modCore_same, if_pos List.mem_cons_self]
      split <;> rfl
    · rw [State.core_modCore_ne _ hq]
      simp only [hq, List.mem_cons, false_or]

/-- A node of the highest priority drains cores for itself (R346). -/
theorem priorityDrain_starts {s : State} {node : Nat} {n : PoolNode} {cs : List Nat} (hn : s.poolNode? node = some n)
    (hcs : s.priorityDrain n = some cs) : ∃ s', exec (.priorityDrain node) s = .next s' ∧ { s' with cores := s.cores } = s ∧
      ∀ c ∈ cs, (s'.core c).reserved = some node ∧ (s.teamsOn c ≠ [] → (s'.core c).draining.isSome = true) := by
  refine ⟨cs.foldl (fun s c => s.modCore c (fun k => { k with reserved := some node })) (s.startDrain (cs.filter (fun c => !(s.teamsOn c).isEmpty))),
    ?_, ?_, fun c hc => ?_⟩
  · change execPriorityDrain node s = _
    unfold execPriorityDrain
    rw [hn]
    dsimp only
    rw [hcs]
  · refine foldl_inv (fun w : State => { w with cores := s.cores } = s) _ (fun w c h => ?_) _ (s.startDrain_frame _) cs
    exact h
  · rw [State.core_reserve, if_pos hc]
    refine ⟨rfl, fun hne => ?_⟩
    have hmem : c ∈ cs.filter (fun c => !(s.teamsOn c).isEmpty) := List.mem_filter.2 ⟨hc, by simp [hne]⟩
    rw [State.core_startDrain, if_pos (s.mem_withGangs hmem)]
    exact Core.draining_toDrain ..

/-! ## Forced saves begin (R354) -/

theorem State.startSaves_frame (s : State) (ts : List Nat) : { s.startSaves ts with teams := s.teams } = s := by
  refine foldl_inv (fun w : State => { w with teams := s.teams } = s) _ (fun w u h => ?_) s rfl _
  unfold State.modTeam
  split
  · exact h
  · exact h

/-- A team is as it was, but for a save that may have begun. -/
def Team.MaySave (T T' : Team) : Prop := ∃ b, T' = { T with saving := b } ∧ (T.saving = true → b = true)

theorem State.team_startSave (s : State) (v u : Nat) : (s.team u).MaySave ((s.modTeam v (fun T => { T with saving := true })).team u) := by
  by_cases hu : u = v
  · subst hu
    cases hfound : mapGet? u s.teams with
    | none => exact ⟨(s.team u).saving, by simp [State.modTeam, hfound], id⟩
    | some T =>
      rw [State.team_modTeam_same hfound]
      exact ⟨true, rfl, fun _ => rfl⟩
  · rw [State.team_modTeam_ne s hu]
    exact ⟨(s.team u).saving, rfl, id⟩

theorem Team.MaySave.trans {T U V : Team} (h : T.MaySave U) (h' : U.MaySave V) : T.MaySave V := by
  obtain ⟨b, rfl, hb⟩ := h
  obtain ⟨d, rfl, hd⟩ := h'
  exact ⟨d, rfl, hd ∘ hb⟩

theorem State.team_startSaves (s : State) (ts : List Nat) (u : Nat) : (s.team u).MaySave ((s.startSaves ts).team u) :=
  foldl_inv (fun w : State => (s.team u).MaySave (w.team u)) _ (fun w v h => h.trans (w.team_startSave v u)) s ⟨_, rfl, id⟩ _

theorem State.saving_startSave {s : State} {u : Nat} (hu : (mapGet? u s.teams).isSome = true) :
    ((s.modTeam u (fun T => { T with saving := true })).team u).saving = true := by
  obtain ⟨T, hT⟩ := Option.isSome_iff_exists.1 hu
  rw [State.team_modTeam_same hT]

theorem State.resident_modTeam {s : State} {u : Nat} (hu : (mapGet? u s.teams).isSome = true) (v : Nat) (f : Team → Team) :
    (mapGet? u (s.modTeam v f).teams).isSome = true := by
  by_cases huv : u = v
  · subst huv
    obtain ⟨T, hT⟩ := Option.isSome_iff_exists.1 hu
    rw [State.get_modTeam_same hT]
    rfl
  · rw [State.get_modTeam_ne s huv]
    exact hu

theorem State.foldl_saving {s : State} {u : Nat} (hu : (mapGet? u s.teams).isSome = true) {l : List Nat}
    (h : (s.team u).saving = true ∨ u ∈ l) : ((l.foldl (fun s t => s.modTeam t (fun T => { T with saving := true })) s).team u).saving = true := by
  induction l generalizing s with
  | nil => exact h.resolve_right List.not_mem_nil
  | cons v l ih =>
    refine ih (State.resident_modTeam hu v _) ?_
    rcases h with h | h
    · obtain ⟨b, heq, hb⟩ := s.team_startSave v u
      rw [heq]
      exact .inl (hb h)
    · rcases List.mem_cons.1 h with rfl | h
      · exact .inl (State.saving_startSave hu)
      · exact .inr h

theorem mapGet?_isSome_of_mem {α : Type} {k : Nat} {v : α} {m : List (Nat × α)} (h : (k, v) ∈ m) : (mapGet? k m).isSome = true := by
  induction m with
  | nil => cases h
  | cons p m ih =>
    unfold mapGet?
    split
    · rfl
    · rcases List.mem_cons.1 h with rfl | h
      · exact absurd rfl ‹¬_›
      · exact ih h

/-- A team that is resident is one of its gang (R229). -/
theorem State.self_mem_gangOf {s : State} {u : Nat} (hu : (mapGet? u s.teams).isSome = true) : u ∈ s.gangOf u := by
  unfold State.gangOf
  dsimp only
  split
  · exact List.mem_singleton.2 rfl
  · obtain ⟨T, hT⟩ := Option.isSome_iff_exists.1 hu
    refine List.mem_map.2 ⟨(u, T), List.mem_filter.2 ⟨mapGet?_mem hT, ?_⟩, rfl⟩
    rw [State.team_eq hT]
    exact beq_self_eq_true _

theorem State.saving_startSaves {s : State} {u : Nat} (hu : (mapGet? u s.teams).isSome = true) {ts : List Nat} (h : u ∈ ts) :
    ((s.startSaves ts).team u).saving = true :=
  State.foldl_saving hu (.inr (List.mem_flatMap.2 ⟨u, h, State.self_mem_gangOf hu⟩))

/-- A drain passes its limit: the teams left begin their saves (R354). -/
theorem drainLimitExpiry_saves {s : State} {c : Nat} (hpast : s.limitPassed c = true) :
    ∃ s', exec (.drainLimitExpiry c) s = .next s' ∧ { s' with teams := s.teams } = s ∧
      (∀ u ∈ s.toSave c, (s'.team u).saving = true) ∧
      ∀ u, ∃ b, s'.team u = { s.team u with saving := b } ∧ ((s.team u).saving = true → b = true) := by
  refine ⟨s.startSaves (s.toSave c), if_pos hpast, s.startSaves_frame _, fun u hu => ?_, s.team_startSaves _⟩
  obtain ⟨p, hp, rfl⟩ := List.mem_map.1 hu
  exact State.saving_startSaves (mapGet?_isSome_of_mem (List.mem_filter.1 (List.mem_filter.1 hp).1).1) hu

end Sys2Proof.Machine

namespace Sys2Proof.Machine

/-! ## Forced saves (R354) -/

theorem State.saveWrite_ok {s S : State} {t : Nat} {n : PoolNode}
    (h : State.engWrite { s with nextId := s.nextId + 1 } (nodeEng n.words (s.team t).core) ⟨t, 0, 0, s.nextId⟩
      (chunksOf (bytesAt (ctxAddr n.words (s.team t).idx) (s.context t))) s.nextId = .ok [] S) :
    s.saveWrite t n = S.modTeam t (fun T => { T with saveWid := some s.nextId }) := by
  unfold State.saveWrite
  dsimp only
  rw [h]

theorem State.saveWrite_bad {s : State} {t : Nat} {n : PoolNode} {cls : Nat} {a : Word}
    (h : State.engWrite { s with nextId := s.nextId + 1 } (nodeEng n.words (s.team t).core) ⟨t, 0, 0, s.nextId⟩
      (chunksOf (bytesAt (ctxAddr n.words (s.team t).idx) (s.context t))) s.nextId = .bad cls a) :
    s.saveWrite t n = if s.staleSpace cls n.words (s.team t).core ∧ (s.team t).saveTries < 3 then
        (s.dropAsid (s.team t).core (nrAsid n.words)).modTeam t (fun T => { T with saveTries := T.saveTries + 1 })
      else s.retireTeam t (some 0x10) := by
  unfold State.saveWrite
  dsimp only
  rw [h]
  dsimp only
  refine if_congr ?_ rfl rfl
  rw [Bool.and_eq_true, decide_eq_true_eq]

theorem State.saveLeave_teams (s : State) (t : Nat) (n : PoolNode) : (s.saveLeave t n).teams = mapDel t s.teams :=
  (State.modNode_keep State.teams (fun _ _ => rfl) ..).trans (s.leaveCore_teams t)

theorem State.poolNode_saveLeave {s : State} {t : Nat} {n : PoolNode} (hn : s.poolNode? n.node = some n) :
    ∃ m, (s.saveLeave t n).poolNode? n.node = some m ∧ t ∉ m.resident ∧ m.saved.map (·.serial) = n.saved.map (·.serial) ++ [t] := by
  have hkeep : (s.leaveCore t).poolNode? n.node = some n :=
    (State.leaveCore_keep (fun w => w.poolNode? n.node) (fun _ _ => rfl) (fun _ _ => rfl) (fun _ _ => rfl) ..).trans hn
  obtain ⟨since, hfound⟩ := State.poolNode_modNode hkeep (f := fun n => { n with
    resident := n.resident.filter (· != t), saved := n.saved ++ [s.savedOf t] }) (fun _ => rfl)
  refine ⟨_, hfound, fun h => ?_, ?_⟩
  · exact bne_iff_ne.1 (List.mem_filter.1 h).2 rfl
  · exact List.map_append

/-- The stages of a forced save (R354, R356). -/
theorem forcedSave_stages {s : State} {t : Nat} {n : PoolNode} (hn : s.poolNode? (s.team t).record = some n) :
    (s.saveStage t = 1 → exec (.forcedSave t) s = .next (s.cancelWaits (fun f => f.team == t))) ∧
    (s.saveStage t = 2 →
      let out := State.engWrite { s with nextId := s.nextId + 1 } (nodeEng n.words (s.team t).core)
        ⟨t, 0, 0, s.nextId⟩ (chunksOf (bytesAt (ctxAddr n.words (s.team t).idx) (s.context t))) s.nextId
      (∀ S, out = .ok [] S → exec (.forcedSave t) s = .next (S.modTeam t (fun T => { T with saveWid := some s.nextId }))) ∧
      (∀ cls a, out = .bad cls a → exec (.forcedSave t) s = .next (
        if s.staleSpace cls n.words (s.team t).core ∧ (s.team t).saveTries < 3 then
          (s.dropAsid (s.team t).core (nrAsid n.words)).modTeam t (fun T => { T with saveTries := T.saveTries + 1 })
        else s.retireTeam t (some 0x10)))) ∧
    (s.saveStage t = 3 → ∃ s' m, exec (.forcedSave t) s = .next s' ∧
      (mapGet? t s'.teams = none ∧ ∀ u, u ≠ t → s'.team u = s.team u) ∧ s'.mem = s.mem ∧ s'.poolNode? (s.team t).record = some m ∧
      t ∉ m.resident ∧ m.saved.map (·.serial) = n.saved.map (·.serial) ++ [t]) := by
  have hexec : exec (.forcedSave t) s = execForcedSave t s := rfl
  have hrec := State.node_of_poolNode hn
  refine ⟨fun h1 => ?_, fun h2 => ⟨fun S hS => ?_, fun cls a hbad => ?_⟩, fun h3 => ?_⟩
  · simp only [hexec, execForcedSave, hn, h1]
  · simp only [hexec, execForcedSave, hn, h2, State.saveWrite_ok hS]
  · simp only [hexec, execForcedSave, hn, h2, State.saveWrite_bad hbad]
  · have hstep : exec (.forcedSave t) s = .next (s.saveLeave t n) := by simp only [hexec, execForcedSave, hn, h3]
    rw [← hrec] at hn ⊢
    obtain ⟨m, hfound, hgone, hsaved⟩ := State.poolNode_saveLeave (t := t) hn
    exact ⟨_, m, hstep, State.team_of_mapDel (s.saveLeave_teams t n), s.saveLeave_mem t n, hfound, hgone, hsaved⟩

/-! ## Eviction at a park (R357, R358) -/

theorem minBy_mem {α : Type} {f : α → Nat} {l : List α} {x : α} (h : minBy f l = some x) : x ∈ l := by
  induction l generalizing x with
  | nil => cases h
  | cons y l ih =>
    unfold minBy at h
    cases hm : minBy f l with
    | none =>
      rw [hm] at h
      cases h
      exact List.mem_cons_self
    | some z =>
      rw [hm] at h
      cases h
      split
      · exact List.mem_cons_self
      · exact List.mem_cons_of_mem _ (ih hm)

/-- The team that an eviction takes stands on the core (R357). -/
theorem State.resident_of_evictionOf {s : State} {c node t : Nat} (h : s.evictionOf c = some (node, t)) : (mapGet? t s.teams).isSome = true := by
  unfold State.evictionOf at h
  dsimp only at h
  split at h
  · cases h
  · split at h
    · cases h
    · rename_i v hv
      obtain ⟨n, -, heq⟩ := Option.map_eq_some_iff.1 h
      cases heq
      obtain ⟨p, hp, rfl⟩ := List.mem_map.1 (List.mem_filter.1 (minBy_mem hv)).1
      exact mapGet?_isSome_of_mem (List.mem_filter.1 hp).1

theorem State.endBars_keep {α : Type} (g : State → α) (hp : ∀ w p, g { w with pool := p } = g w) (s : State) (c : Nat) :
    g (s.endBars c) = g s := by
  unfold State.endBars
  split
  · rfl
  · exact hp ..

theorem State.endBars_pool (s : State) (c : Nat) : (s.endBars c).pool = if (s.core c).evictFor.isSome then s.pool else s.pool.map (fun n => { n with
    saved := n.saved.map (fun x => { x with away := if x.away = some c then none else x.away }) }) := by
  unfold State.endBars
  split <;> rfl

theorem State.modTeam_keep {α : Type} (g : State → α) (ht : ∀ w t, g { w with teams := t } = g w) (s : State) (t : Nat) (f : Team → Team) :
    g (s.modTeam t f) = g s := by
  unfold State.modTeam
  split
  · rfl
  · exact ht ..

theorem State.startSaves_keep {α : Type} (g : State → α) (ht : ∀ w t, g { w with teams := t } = g w) (s : State) (ts : List Nat) :
    g (s.startSaves ts) = g s :=
  foldl_inv (fun w => g w = g s) _ (fun w u h => (State.modTeam_keep g ht w u _).trans h) s rfl _

/-- The state in which a core gives a team up (R357). -/
def State.evicting (s : State) (c t : Nat) : State :=
  ((s.endBars c).startSaves [t]).modTeam t (fun T => { T with evicted := true })

theorem State.evicting_keep {α : Type} (g : State → α) (hp : ∀ w p, g { w with pool := p } = g w) (ht : ∀ w t, g { w with teams := t } = g w)
    (s : State) (c t : Nat) : g (s.evicting c t) = g s :=
  (State.modTeam_keep g ht ..).trans ((State.startSaves_keep g ht ..).trans (State.endBars_keep g hp ..))

theorem State.evicting_pool (s : State) (c t : Nat) : (s.evicting c t).pool = (s.endBars c).pool :=
  (State.modTeam_keep State.pool (fun _ _ => rfl) ..).trans (State.startSaves_keep State.pool (fun _ _ => rfl) ..)

/-- The team that is given up will be saved, as an evicted one. -/
theorem State.team_evicting {s : State} {t : Nat} (ht : (mapGet? t s.teams).isSome = true) (c : Nat) :
    ((s.evicting c t).team t).saving = true ∧ ((s.evicting c t).team t).evicted = true := by
  have hres : (mapGet? t (s.endBars c).teams).isSome = true := by
    rw [State.endBars_keep State.teams (fun _ _ => rfl)]
    exact ht
  have hres' : (mapGet? t ((s.endBars c).startSaves [t]).teams).isSome = true :=
    foldl_inv (fun w : State => (mapGet? t w.teams).isSome = true) _ (fun w v hw => State.resident_modTeam hw v _) _ hres _
  obtain ⟨T, hT⟩ := Option.isSome_iff_exists.1 hres'
  unfold State.evicting
  have hteam := State.team_modTeam_same hT (fun T => { T with evicted := true })
  have hsaving := State.saving_startSaves hres (List.mem_singleton.2 rfl)
  generalize (s.endBars c).startSaves [t] = w at hteam hsaving
  rw [hteam]
  exact ⟨hsaving, rfl⟩

/-- What an eviction makes of a core (R357). -/
def Core.evicting (k : Core) (node : Nat) : Core := { k with reserved := some node, evictFor := some node, admitted := none }

/-- A core whose team has been at its park point for too long gives a team up (R357). -/
theorem parkEviction_of {s : State} {c node t : Nat} (h : s.evictionOf c = some (node, t)) : ∃ s', exec (.parkEviction c) s = .next s' ∧
    { s' with teams := s.teams, cores := s.cores, pool := s.pool } = s ∧
    s'.pool = (if (s.core c).evictFor.isSome then s.pool else s.pool.map (fun n => { n with
      saved := n.saved.map (fun x => { x with away := if x.away = some c then none else x.away }) })) ∧
    (s'.team t).saving = true ∧ (s'.team t).evicted = true ∧
    s'.core c = { s.core c with reserved := some node, evictFor := some node, admitted := none } := by
  have hexec : exec (.parkEviction c) s = .next ((s.evicting c t).modCore c (fun k => k.evicting node)) := by
    change execParkEviction c s = _
    unfold execParkEviction
    rw [h]
    rfl
  obtain ⟨hsaving, hevicted⟩ := State.team_evicting (State.resident_of_evictionOf h) c
  have hrest : { s.evicting c t with teams := s.teams, cores := s.cores, pool := s.pool } = s := State.evicting_keep (fun x : State => { x with teams := s.teams, cores := s.cores, pool := s.pool }) (fun _ _ => rfl)
    (fun _ _ => rfl) s c t
  have hpool := (s.evicting_pool c t).trans (s.endBars_pool c)
  have hcore : (s.evicting c t).core c = s.core c := State.evicting_keep (fun w => w.core c) (fun _ _ => rfl) (fun _ _ => rfl) s c t
  generalize s.evicting c t = w at hexec hsaving hevicted hrest hpool hcore
  refine ⟨_, hexec, hrest, hpool, hsaving, hevicted, ?_⟩
  rw [State.core_modCore_same, hcore]
  rfl

/-! ## Records and reservations (R102, R346) -/

/-- A suspension record that waits joins the queue once there is room (R102). -/
theorem suspensionRecordPush_room {s : State} {q : Nat} {x : SuspRec} {r : List SuspRec} (hwait : (s.column q).scqWait = x :: r)
    (hroom : (s.column q).scq.length < 64) : exec (.suspensionRecordPush q) s =
      .next (s.modCol q (fun k => { k with scqWait := r, scq := k.scq ++ [x] })) := by
  change execSuspensionRecordPush q s = _
  unfold execSuspensionRecordPush
  rw [hwait]
  exact if_neg (Nat.not_le.2 hroom)

/-- A node reserves the cores that it lacks only by their split (R346). -/
theorem splitReservation_takes {s : State} {node : Nat} {n : PoolNode} {cs : List Nat} (hn : s.poolNode? node = some n)
    (hcs : s.toReserve n = some cs) : exec (.splitReservation node) s =
      .next (cs.foldl (fun s c => s.modCore c (fun k => { k with reserved := some node })) s) := by
  change execSplitReservation node s = _
  unfold execSplitReservation
  rw [hn]
  dsimp only
  rw [hcs]

end Sys2Proof.Machine

namespace Sys2Proof.Machine

/-! ## Restore (R105, R355) -/

theorem State.setInt_keep {α : Type} (g : State → α) (hc : ∀ w c, g { w with columns := c } = g w)
    (hv : ∀ w v, g { w with vectors := v } = g w) (s : State) (col b : Nat) : g (s.setInt col b) = g s := by
  unfold State.setInt
  dsimp only
  split
  · exact (hv ..).trans (hc ..)
  · exact hc ..

theorem State.scqRecord_keep {α : Type} (g : State → α) (hc : ∀ w c, g { w with columns := c } = g w)
    (hv : ∀ w v, g { w with vectors := v } = g w) (s : State) (col : Nat) (r : SuspRec) : g (s.scqRecord col r) = g s := by
  unfold State.scqRecord
  dsimp only
  split
  · exact (State.setInt_keep g hc hv ..).trans (hc ..)
  · exact hc ..

theorem State.renewRecords_keep {α : Type} (g : State → α) (hc : ∀ w c, g { w with columns := c } = g w)
    (hv : ∀ w v, g { w with vectors := v } = g w) (s : State) (T : Team) (sv : SavedTeam) : g (s.renewRecords T sv) = g s :=
  foldl_inv (fun w => g w = g s) _ (fun _ _ h => (State.scqRecord_keep g hc hv ..).trans h) s rfl _

/-- No checkpoint of a quiesce is late for a team that none waits for (R391). -/
theorem State.lateCks_none {s : State} {old : Nat} (h : ∀ p ∈ s.quiesce.pendCk, p.1 ≠ old) (t : Nat) : s.lateCks old t = s := by
  unfold State.lateCks
  rw [List.filter_eq_nil_iff.2 (fun p hp => by simp [h p hp])]
  rfl

theorem State.restoreEngines_keep {α : Type} (g : State → α) (hk : ∀ w k, g { w with cores := k } = g w)
    (hi : ∀ w i, g { w with nextId := i } = g w) (s : State) (T : Team) (sv : SavedTeam) (b : Nat → Byte) (t : Nat) :
    g (s.restoreEngines T sv b t) = g s := (hk ..).trans (hi ..)

/-- The state in which a restored team has its core, units, accesses and records, before its node notes it. -/
def State.restoring (s : State) (n : PoolNode) (sv : SavedTeam) (core gang t : Nat) (d : EngData) : State :=
  let b (i : Nat) : Byte := d.at (ctxAddr n.words sv.idx + i)
  let T := newTeam n sv.idx core ((s.freeSlot core).getD 0) (sv.idx % nrUnit n.words) gang sv.early t
  (((((s.takeTeam (restoredTeam T sv b)).restoreEngines T sv b t).renameFlights sv.serial t core).acquire core 9).lateCks
    sv.serial t).renewRecords T sv

theorem State.restoring_keep {α : Type} (g : State → α) (hk : ∀ w k, g { w with cores := k } = g w)
    (hi : ∀ w i, g { w with nextId := i } = g w) (hf : ∀ w f, g { w with flights := f } = g w) (hc : ∀ w c, g { w with columns := c } = g w)
    (hv : ∀ w v, g { w with vectors := v } = g w)
    {s : State} {sv : SavedTeam} (hck : ∀ p ∈ s.quiesce.pendCk, p.1 ≠ sv.serial) (n : PoolNode) (core gang t : Nat) (d : EngData) :
    g (s.restoring n sv core gang t d) = g (s.takeTeam (restoredTeam
      (newTeam n sv.idx core ((s.freeSlot core).getD 0) (sv.idx % nrUnit n.words) gang sv.early t) sv
      (fun i => d.at (ctxAddr n.words sv.idx + i)))) := by
  unfold State.restoring
  dsimp only
  refine (State.renewRecords_keep g hc hv ..).trans ?_
  rw [State.lateCks_none]
  · refine (State.acquire_keep g hk ..).trans ((hf ..).trans ?_)
    exact State.restoreEngines_keep g hk hi ..
  · intro p hp
    refine hck p ?_
    rw [State.acquire_keep (fun w => w.quiesce) (fun _ _ => rfl)] at hp
    exact hp

theorem State.restoring_teams {s : State} {sv : SavedTeam} (hck : ∀ p ∈ s.quiesce.pendCk, p.1 ≠ sv.serial) (n : PoolNode) (core gang t : Nat)
    (d : EngData) : (s.restoring n sv core gang t d).teams = mapPut t (restoredTeam
      (newTeam n sv.idx core ((s.freeSlot core).getD 0) (sv.idx % nrUnit n.words) gang sv.early t) sv
      (fun i => d.at (ctxAddr n.words sv.idx + i))) s.teams :=
  State.restoring_keep State.teams (fun _ _ => rfl) (fun _ _ => rfl) (fun _ _ => rfl) (fun _ _ => rfl) (fun _ _ => rfl) hck n core gang t d

theorem State.restoring_pool {s : State} {sv : SavedTeam} (hck : ∀ p ∈ s.quiesce.pendCk, p.1 ≠ sv.serial) (n : PoolNode) (core gang t : Nat)
    (d : EngData) : (s.restoring n sv core gang t d).pool = s.pool :=
  State.restoring_keep State.pool (fun _ _ => rfl) (fun _ _ => rfl) (fun _ _ => rfl) (fun _ _ => rfl) (fun _ _ => rfl) hck n core gang t d

theorem State.poolNode_restoreEnd {s : State} {n m : PoolNode} (hm : s.poolNode? n.node = some m) (sv : SavedTeam) (t : Nat) :
    ∃ m', (s.restoreEnd n sv t).poolNode? n.node = some m' ∧ t ∈ m'.resident ∧ ∀ x ∈ m'.saved, x.idx ≠ sv.idx := by
  obtain ⟨since, hfound⟩ := State.poolNode_modNode hm (f := fun n => { n with
    saved := n.saved.filter (fun x => x.idx != sv.idx), resident := n.resident ++ [t], since := s.cycle 0 }) (fun _ => rfl)
  refine ⟨_, hfound, List.mem_append_right _ (List.mem_singleton.2 rfl), fun x hx => ?_⟩
  exact bne_iff_ne.1 (List.mem_filter.1 hx).2

/-- What reads of a context leave standing: teams, the pool and a quiesce. -/
def State.SameTeams (s s' : State) : Prop := s'.teams = s.teams ∧ s'.pool = s.pool ∧ s'.quiesce = s.quiesce

theorem State.sameTeams_indifferent (s : State) (core : Nat) : State.Indifferent core s.SameTeams where
  served w w' hw h := by
    obtain ⟨ht, hp, hq⟩ := h
    exact ⟨(hw.keep State.teams (fun _ _ _ _ _ _ => rfl)).trans ht, (hw.keep State.pool (fun _ _ _ _ _ _ => rfl)).trans hp,
      (hw.keep State.quiesce (fun _ _ _ _ _ _ => rfl)).trans hq⟩
  tlb w e h := h
  mig w m q h := h

theorem State.readContext_sameTeams {s S : State} {n : PoolNode} {sv : SavedTeam} {core : Nat} {d : EngData}
    (h : s.readContext n sv core = .ok d S) : s.SameTeams S :=
  State.engGather_inv (s.sameTeams_indifferent core) (s := { s with nextId := s.nextId + 1 }) ⟨rfl, rfl, rfl⟩ h

theorem State.restoreFrom_eq (s : State) (n : PoolNode) (sv : SavedTeam) (core gang t : Nat) (d : EngData) :
    s.restoreFrom n sv core gang t d = (s.restoring n sv core gang t d).restoreEnd n sv t := rfl

theorem State.restoreTeam_ok {s S : State} {n : PoolNode} {sv : SavedTeam} {core : Nat} {d : EngData}
    (h : (s.dropAsid core (nrAsid n.words)).readContext n sv core = .ok d S) (gang : Nat) :
    s.restoreTeam n sv core gang = (S.restoring n sv core gang s.nextId d).restoreEnd n sv s.nextId := by
  rw [← State.restoreFrom_eq]
  unfold State.restoreTeam
  dsimp only
  rw [h, State.restoreWith]
  rfl

theorem State.restoreTeam_bad {s : State} {n : PoolNode} {sv : SavedTeam} {core cls : Nat} {a : Word}
    (h : (s.dropAsid core (nrAsid n.words)).readContext n sv core = .bad cls a) (gang : Nat) :
    s.restoreTeam n sv core gang = (s.dropAsid core (nrAsid n.words)).discardSaved n sv := by
  unfold State.restoreTeam
  dsimp only
  rw [h, State.restoreWith]

theorem State.restoreUnit_single {s : State} {n : PoolNode} {idx c : Nat} {sv : SavedTeam} (hg : nrIsGang n.words = false)
    (hsv : n.savedUnit idx = [sv]) : s.restoreUnit n idx [c] = (s.restoreTeam n sv c 0).endEviction n.node := by
  have hgang : s.newGang n = s := if_neg (by simp [hg])
  unfold State.restoreUnit
  rw [hsv, hgang, if_neg (by simp [hg]), List.zip_cons_cons, List.zip_nil_left, List.foldl_cons, List.foldl_nil]

theorem nrUnit_single {w : NodeRec} (hg : nrIsGang w = false) : nrUnit w = 1 := if_neg (by simp [hg])

/-- A context that cannot be read: its team is gone, as a failure of its node (R356). -/
theorem State.poolNode_discardSaved {s : State} {n m : PoolNode} (hm : s.poolNode? n.node = some m) (sv : SavedTeam) :
    ∃ m', (s.discardSaved n sv).poolNode? n.node = some m' ∧ m'.failed = some 0x10 ∧ ∀ x ∈ m'.saved, x.idx ≠ sv.idx := by
  unfold State.discardSaved
  extract_lets s1
  obtain ⟨since, hfound⟩ := State.poolNode_modNode (s := s1) hm (f := fun n => { n with saved := n.saved.filter (fun x => x.idx != sv.idx) })
    (fun _ => rfl)
  obtain ⟨m', hfound', -, -, hsaved, hfailed⟩ := State.poolNode_countRetired hfound sv.serial sv.idx (some 0x10)
  refine ⟨m', hfound', hfailed rfl, fun x hx => ?_⟩
  rw [hsaved] at hx
  exact bne_iff_ne.1 (List.mem_filter.1 hx).2

theorem State.discardSaved_keep {α : Type} (g : State → α) (hf : ∀ w f, g { w with flights := f } = g w)
    (hp : ∀ w p, g { w with pool := p } = g w) (hv : ∀ w v, g { w with visits := v } = g w) (s : State) (n : PoolNode) (sv : SavedTeam) :
    g (s.discardSaved n sv) = g s :=
  (State.countRetired_keep g hp hv ..).trans ((State.modNode_keep g hp ..).trans (hf ..))

/-- A saved team returns to a core, or is given up where its context cannot be read (R355, R356). -/
theorem restore_single {s : State} {node c i : Nat} {n : PoolNode} {sv : SavedTeam} (hnext : s.nextPlacement = some (n, i, true, [c]))
    (hg : nrIsGang n.words = false) (hnode : n.node = node) (hsv : n.savedUnit i = [sv]) :
    let out := (s.dropAsid c (nrAsid n.words)).readContext n sv c
    (∀ d S, out = .ok d S → (∀ p ∈ s.quiesce.pendCk, p.1 ≠ sv.serial) → ∃ s' m, exec (.restore node i) s = .next s' ∧
      s'.team s.nextId = restoredTeam (newTeam n sv.idx c ((s.freeSlot c).getD 0) 0 0 sv.early s.nextId) sv
        (fun k => d.at (ctxAddr n.words sv.idx + k)) ∧ (∀ u, u ≠ s.nextId → s'.team u = s.team u) ∧
      s'.poolNode? node = some m ∧ s.nextId ∈ m.resident ∧ ∀ x ∈ m.saved, x.idx ≠ sv.idx) ∧
    (∀ cls a, out = .bad cls a → ∃ s' m, exec (.restore node i) s = .next s' ∧ s'.teams = s.teams ∧ s'.mem = s.mem ∧
      s'.poolNode? node = some m ∧ m.failed = some 0x10 ∧ ∀ x ∈ m.saved, x.idx ≠ sv.idx) := by
  subst hnode
  have hexec : exec (.restore n.node i) s = .next ((s.restoreTeam n sv c 0).endEviction n.node) := by
    change execRestore n.node i s = _
    unfold execRestore
    rw [hnext]
    dsimp only
    rw [if_neg (by simp), State.restoreUnit_single hg hsv]
  obtain ⟨m, hm⟩ := State.nextPlacement_found hnext
  refine ⟨fun d S hok hck => ?_, fun cls a hbad => ?_⟩
  · rw [State.restoreTeam_ok hok] at hexec
    obtain ⟨hteams, hpool, hquiesce⟩ := State.readContext_sameTeams hok
    have hteams' : S.teams = s.teams := hteams
    have hck' : ∀ p ∈ S.quiesce.pendCk, p.1 ≠ sv.serial := by
      rw [hquiesce]
      exact hck
    have hslot : S.freeSlot c = s.freeSlot c := by
      rw [State.freeSlot, State.freeSlot, State.teamsOn, State.teamsOn, hteams']
    have hput := State.restoring_teams hck' n c 0 s.nextId d
    rw [nrUnit_single hg, Nat.mod_one, hslot, hteams'] at hput
    have hfound : (S.restoring n sv c 0 s.nextId d).poolNode? n.node = some m := by
      rw [State.poolNode?, State.restoring_pool hck' n c 0 s.nextId d, hpool]
      exact hm
    generalize S.restoring n sv c 0 s.nextId d = R at hexec hput hfound
    obtain ⟨m', hfound', hres, hsaved⟩ := State.poolNode_restoreEnd hfound sv s.nextId
    have hend : ∀ u, ((R.restoreEnd n sv s.nextId).endEviction n.node).team u = mapGet Team.blank u R.teams :=
      fun u => congrArg (mapGet Team.blank u) (State.modNode_keep State.teams (fun _ _ => rfl) ..)
    refine ⟨_, m', hexec, ?_, fun u hu => ?_, hfound', hres, hsaved⟩
    · rw [hend, hput, mapGet_mapPut_same]
    · rw [hend, hput, mapGet_mapPut_ne _ hu]
      rfl
  · rw [State.restoreTeam_bad hbad] at hexec
    have hm' : (s.dropAsid c (nrAsid n.words)).poolNode? n.node = some m := hm
    have hteams : (s.dropAsid c (nrAsid n.words)).teams = s.teams := rfl
    have hmem : (s.dropAsid c (nrAsid n.words)).mem = s.mem := rfl
    generalize s.dropAsid c (nrAsid n.words) = R at hexec hm' hteams hmem
    have hteams' := (State.discardSaved_keep State.teams (fun _ _ => rfl) (fun _ _ => rfl) (fun _ _ => rfl) R n sv).trans hteams
    have hmem' := (State.discardSaved_keep State.mem (fun _ _ => rfl) (fun _ _ => rfl) (fun _ _ => rfl) R n sv).trans hmem
    obtain ⟨m', hfound, hfailed, hsaved⟩ := State.poolNode_discardSaved hm' sv
    generalize R.discardSaved n sv = D at hexec hteams' hmem' hfound
    exact ⟨_, m', hexec, hteams', hmem', hfound, hfailed, hsaved⟩

end Sys2Proof.Machine

namespace Sys2Proof.Machine

/-- Settles O50: each event of placement by the lemma about it. -/
theorem placementEvents : Obligations.PlacementEvents := by
  unfold Obligations.PlacementEvents
  intro s node n c t
  refine ⟨fun i hnext hg hnode hhbm hal => teamPlace_single hnext hg hnode hhbm hal, fun cs hn hcs => splitReservation_takes hn hcs,
    teamRetire_due, fun cs hn hcs => priorityDrain_starts hn hcs, drain_due, drainLimitExpiry_saves, forcedSave_stages,
    fun i sv hnext hg hnode hsv => restore_single hnext hg hnode hsv, parkEviction_of, fun q x r hwait hroom => suspensionRecordPush_room hwait hroom⟩

end Sys2Proof.Machine

namespace Sys2Proof.Machine

/-! ## One lane's record is read (R256) -/

theorem Run.translated_single {r : Run} {l : Nat} {kind : AccessKind} {x : Nat → Word} {e : TlbEnt} {pa : Nat} (hflt : r.flt = [])
    (h : r.s0.translate r.t r.c (x l) kind = .hit e pa) :
    r.translated [l] kind x = .go { r with s := r.s.addTlb r.core e } [⟨l, x l, e, pa⟩] := by
  have hok : [l].filter r.ok = [l] := by simp [Run.ok_of_nil hflt]
  unfold Run.translated
  simp only [hok, List.filterMap_cons, List.filterMap_nil, h, List.isEmpty_nil, Bool.not_true, Bool.false_eq_true, if_false]
  rw [Run.check_none _ _ _ (by simp [h]), hok]
  simp [h]

/-- A record that may be read: what `recordAt` asks for, of a run's own access. -/
structure Run.RecClear (r : Run) (a : Acc) : Prop where
  unlocked : r.globLock 64 true a = none
  waits : r.recWaits [a] = []
  sent : r.recUnsent a = false
  fresh : r.staleRec a = false
  free : r.recFree [a] = true
  sound : r.recFault a = none

theorem Run.recWait_none {r : Run} {a : Acc} {g : Flight}
    (hmmio : pteAttr a.e.pte = 2 → g.team = r.t → g.crs = r.c → g.lane = a.l → g.isGlob = true → g.attr ≠ 2)
    (hline : g.core = r.core → g.pa / 64 = a.pa / 64 → if pteFmode a.e.pte = 0 then
        g.fmode = 0 → ¬(g.kind = .atom ∧ g.team = r.t ∧ g.crs = r.c ∧ g.lane = a.l) ∧ ¬(g.kind = .store ∧ g.stage = 0)
      else g.fmode ≠ 0 → g.peer = ptePeer a.e.pte → g.kind ≠ .store ∧ g.kind ≠ .atom ∧ g.kind ≠ .nred ∧ (g.isLoad = true → g.stage ≠ 0)) :
    r.recWait a g = none := by
  unfold Run.recWait
  split
  · rename_i h
    simp only [Bool.and_eq_true, beq_iff_eq] at h
    obtain ⟨⟨⟨⟨⟨ha, hg⟩, hglob⟩, ht⟩, hc⟩, hl⟩ := h
    exact absurd hg (hmmio ha ht hc hl hglob)
  · split
    · rfl
    · rename_i hsame
      split
      · rfl
      · rename_i hpeer
        simp only [Bool.or_eq_true, bne_iff_ne, Bool.and_eq_true, beq_iff_eq, not_or, not_and, not_not] at hsame hpeer
        obtain ⟨⟨⟨hcore, hpa⟩, hfar⟩, hnear⟩ := hsame
        have hcase := hline hcore hpa
        by_cases hf : pteFmode a.e.pte = 0
        · rw [if_pos hf] at hcase
          have hg : g.fmode = 0 := by_contra fun hn => hnear hn hf
          obtain ⟨hatom, hstore⟩ := hcase hg
          simp only [hg, bne_self_eq_false, Bool.false_or, Bool.false_and, BEq.rfl, if_true, Bool.false_eq_true, if_false]
          split
          · rename_i hk
            rw [if_neg]
            simpa [hk] using hstore
          · rename_i hk
            rw [if_neg]
            simpa [hk, and_assoc] using hatom
          all_goals rfl
        · rw [if_neg hf] at hcase
          have hg : g.fmode ≠ 0 := fun h0 => hf (hfar h0)
          obtain ⟨hs, ha, hn, hload⟩ := hcase hg (hpeer hg)
          split
          · exact absurd ‹_› hs
          · exact absurd ‹_› ha
          · exact absurd ‹_› hn
          · exact if_neg (by simpa [Flight.isLoad, ‹g.kind = .load›, hg] using hload)
          · exact if_neg (by simpa [Flight.isLoad, ‹g.kind = .mmioLoad›, hg] using hload)
          · exact if_neg (by simpa [Flight.isLoad, ‹g.kind = .txld›, hg] using hload)
          · rfl

theorem Run.recClear_of {r : Run} {l : Nat} {x : Word} {e : TlbEnt} {pa : Nat} (h : r.s0.recordAt r.t r.c l x e pa)
    (hlive : r.live l = true) : r.RecClear ⟨l, x, e, pa⟩ := by
  obtain ⟨-, -, hlock, hacq, -, hline, hserve, hbeyond, hpoison, hmmio⟩ := h
  have hsent : r.recUnsent ⟨l, x, e, pa⟩ = false := by simp [Run.recUnsent, hlive]
  have hstale : r.staleRec ⟨l, x, e, pa⟩ = false := by
    unfold Run.staleRec
    by_cases hf : pteFmode e.pte = 0
    · rw [if_pos hf] at hserve
      simp only [hserve.1, bne_eq_false_iff_eq, Bool.and_eq_false_iff]
      exact .inr rfl
    · simp [hf]
  refine ⟨hlock, ?_, hsent, hstale, ?_, ?_⟩
  · unfold Run.recWaits Run.acqWaits
    rw [List.append_eq_nil_iff]
    constructor
    · simp only [List.map_cons, List.map_nil, List.flatMap_cons, List.flatMap_nil, List.append_nil, List.filterMap_eq_nil_iff]
      exact fun p hp => if_pos (hacq p hp)
    · simp only [List.flatMap_cons, List.flatMap_nil, List.append_nil, List.filterMap_eq_nil_iff]
      refine fun g hg => Run.recWait_none (fun ha ht hc hl => ?_) (hline g hg)
      exact hmmio ha g (List.mem_filter.2 ⟨hg, by simp [ht, hc, hl]⟩)
  · unfold Run.recFree
    simp only [List.all_cons, List.all_nil, Bool.and_true, hsent, Bool.false_or]
    by_cases hf : pteFmode e.pte = 0
    · rw [if_pos hf] at hserve
      rcases hserve.2 with hhost | hio | ⟨hfree, hqueue⟩
      · simp [hhost]
      · simp [hio]
      · have hown : r.recEng = r.s0.engineOf r.t := rfl
        have hcore : r.core = (r.s0.team r.t).core := rfl
        rw [hown, hcore]
        simp only [hf, hfree, Bool.true_and, Bool.or_eq_true, Bool.not_eq_true', Bool.and_eq_false_iff, beq_eq_false_iff_ne]
        exact .inr ((Decidable.em _).elim (fun hs => .inr (hqueue hs)) .inl)
    · simp [hf]
  · unfold Run.recFault
    dsimp only
    rw [hsent, hstale, if_neg Bool.false_ne_true, if_neg Bool.false_ne_true, if_neg, if_neg, List.find?_eq_none.2]
    · rfl
    · intro j hj
      exact Bool.eq_false_iff.1 (hpoison j (List.mem_range.1 hj))
    · by_cases hf : pteFmode e.pte = 0
      · simp [hbeyond (.inl hf)]
      · by_cases hp : ptePeer e.pte = r.s0.device
        · simp [hbeyond (.inr hp)]
        · simp [hf, hp]
    · by_cases hf : pteFmode e.pte = 0
      · simp [hf]
      · rw [if_neg hf] at hserve
        simp only [Bool.and_eq_true, Bool.not_eq_true', Bool.or_eq_false_iff, not_and]
        rcases hserve with hs | hs <;> simp [hs]

/-- A record that may be read is read (R256 checks 2 and 3). -/
theorem Run.records_single {r : Run} {l : Nat} {e : TlbEnt} {pa : Nat} (hflt : r.flt = []) (hs : r.s = r.s0) (hlive : r.live l = true)
    (h : r.s0.recordAt r.t r.c l (r.a l) e pa) :
    r.records [l] = .go { r with s := (r.s0.recordRead r.t e pa).2 } [(l, (r.s0.recordRead r.t e pa).1)] := by
  obtain ⟨halign, htr, -⟩ := id h
  unfold Run.records
  rw [Run.check_none _ _ _ (by simp [alignFault, halign]), Run.translated_single hflt htr]
  obtain ⟨hlock, hwaits, hsent, hstale, hfree, hsound⟩ := Run.recClear_of (r := { r with s := r.s.addTlb r.core e }) h hlive
  have hpassed : Run.passed { r with s := r.s.addTlb r.core e } [⟨l, r.a l, e, pa⟩] = [⟨l, r.a l, e, pa⟩] := by
    simp [Run.passed, Run.ok_of_nil (r := { r with s := r.s.addTlb r.core e }) hflt]
  have hnone : Run.recStale { r with s := r.s.addTlb r.core e } [⟨l, r.a l, e, pa⟩] = [] := by
    simp [Run.recStale, hstale]
  have hread : Run.readRecs { r with s := r.s.addTlb r.core e } [⟨l, r.a l, e, pa⟩] =
      ({ r with s := (r.s0.recordRead r.t e pa).2 }, [(l, (r.s0.recordRead r.t e pa).1)]) := by
    unfold Run.readRecs
    rw [hpassed, List.foldl_cons, List.foldl_nil, hsent, if_neg Bool.false_ne_true, hs]
    rfl
  dsimp only
  rw [Run.checkAcc_none _ _ _ (fun a ha => List.mem_singleton.1 ha ▸ hlock), hpassed, hwaits, hnone, hfree,
    Run.checkAcc_none _ _ _ (fun a ha => List.mem_singleton.1 ha ▸ hsound), hread]
  rfl

/-! ### What the read leaves standing -/

/-- What the read of a record keeps: teams, accesses in flight, and of each core all but its TLB and its L1. -/
structure State.RecRead (s s' : State) : Prop where
  teams : s'.teams = s.teams
  flights : s'.flights = s.flights
  core : ∀ q, ∃ tlb l1, s'.core q = { s.core q with tlb := tlb, l1 := l1 }

theorem State.RecRead.of_cores {s w : State} (h : s.RecRead w) {c : Nat} {f : Core → Core} (hf : ∀ k, ∃ tlb l1, f k = { k with tlb := tlb, l1 := l1 }) :
    s.RecRead (w.modCore c f) := by
  obtain ⟨ht, hfl, hk⟩ := h
  refine ⟨ht, hfl, fun q => ?_⟩
  by_cases hq : q = c
  · subst hq
    obtain ⟨_, _, hcore⟩ := hk q
    obtain ⟨tlb, l1, hfq⟩ := hf (w.core q)
    exact ⟨tlb, l1, by rw [State.core_modCore_same, hfq, hcore]⟩
  · rw [State.core_modCore_ne _ hq]
    exact hk q

theorem State.RecRead.of_eq {s w w' : State} (h : s.RecRead w) (ht : w'.teams = w.teams) (hf : w'.flights = w.flights) (hk : w'.cores = w.cores) :
    s.RecRead w' := by
  obtain ⟨ht', hf', hk'⟩ := h
  refine ⟨ht.trans ht', hf.trans hf', fun q => ?_⟩
  rw [State.core, hk]
  exact hk' q

theorem State.recRead_indifferent (s : State) (core : Nat) : State.Indifferent core s.RecRead where
  served _ _ hw h := h.of_eq (hw.keep State.teams (fun _ _ _ _ _ _ => rfl)) (hw.keep State.flights (fun _ _ _ _ _ _ => rfl))
    (hw.keep State.cores (fun _ _ _ _ _ _ => rfl))
  tlb _ _ h := h.of_cores (fun _ => ⟨_, _, rfl⟩)
  mig _ _ _ h := h.of_eq rfl rfl rfl

theorem State.regPop_recRead {s w : State} (h : s.RecRead w) (col off : Nat) : s.RecRead (w.regPop col off) := by
  unfold State.regPop
  split_ifs
  all_goals exact h.of_eq rfl rfl rfl

theorem State.ioRead_recRead {s w : State} (h : s.RecRead w) (simt : Bool) (pa size : Nat) : s.RecRead (w.ioRead simt pa size).2 := by
  unfold State.ioRead
  split
  · split
    · exact h
    · exact State.regPop_recRead h ..
  · split
    · split
      · exact h
      · exact h
    · exact h

theorem State.ioRecord_recRead {s w : State} (h : s.RecRead w) (pa : Nat) : s.RecRead (w.ioRecord pa).2 :=
  foldl_inv (fun p : List Byte × State => s.RecRead p.2) _ (fun _ _ h => State.ioRead_recRead h ..) _ h _

theorem State.farWrite_recRead {s w : State} (h : s.RecRead w) (core fmode peer pa n : Nat) : s.RecRead (w.farWrite core fmode peer pa n) := by
  unfold State.farWrite
  split
  · exact h
  · exact (h.of_cores (fun k => ⟨k.tlb, _, rfl⟩)).of_eq rfl rfl rfl

theorem State.readRec_recRead {s w : State} (h : s.RecRead w) (g : Eng) (e : TlbEnt) (pa : Nat) : s.RecRead (w.readRec g e pa).2 := by
  have hind := s.recRead_indifferent g.core
  unfold State.readRec
  extract_lets w'
  have hw' : s.RecRead w' := by
    simp only [w']
    split
    · exact h.of_cores (fun k => ⟨k.tlb, _, rfl⟩)
    · exact State.farWrite_recRead h ..
  split
  · exact State.ioRecord_recRead hw' pa
  · exact State.engBytes_inv hind (State.engTake_inv hind hw' ..) ..

theorem State.recordRead_recRead (s : State) (t : Nat) (e : TlbEnt) (pa : Nat) : s.RecRead (s.recordRead t e pa).2 := by
  have hstart : s.RecRead s := ⟨rfl, rfl, fun q => ⟨(s.core q).tlb, (s.core q).l1, rfl⟩⟩
  exact State.readRec_recRead ((s.recRead_indifferent (s.team t).core).tlb s e hstart) ..

end Sys2Proof.Machine

namespace Sys2Proof.Machine

/-! ## The issue of a copy (R257) -/

theorem eGet_eSet {w : Nat} (m : BitVec w) {n : Nat} (h : n < w) : eGet (eSet m n) n = true := by
  simp [eGet, eSet, h]

theorem eGet_eClr {w : Nat} (m : BitVec w) {n : Nat} (h : n < w) : eGet (eClr m n) n = false := by
  simp [eGet, eClr, h]

/-- A counter is full exactly while its value is 0 (R26). -/
theorem Team.kCount_law {T : Team} {n : Nat} (h0 : n ≠ 0) (h : n < 256) (x : Word) :
    (T.kCount n x).kGet n = x ∧ (eGet (T.kCount n x).kE n = false ↔ x = 0) := by
  constructor
  · rw [Team.kGet, if_neg h0]
    exact mapGet_mapPut_same 0 n x T.k
  · change eGet (if x = 0 then eClr T.kE n else eSet T.kE n) n = false ↔ x = 0
    split
    · simp [‹x = 0›, eGet_eClr _ h]
    · simp only [eGet_eSet _ h, Bool.true_eq_false, false_iff]
      assumption

/-- Bytes charged to a counter change that team's count and what goes with it (R26). -/
theorem State.charged_keep {α : Type} (g : State → α) (ht : ∀ w t, g { w with teams := t } = g w) (s : State) (t : Nat) (r : Report)
    (n scope : Nat) : g (s.charged t r n scope) = g s := by
  unfold State.charged
  split
  · exact State.modTeam_keep g ht ..
  · rfl

theorem State.resident_charged {s : State} {u : Nat} (hu : (mapGet? u s.teams).isSome = true) (t : Nat) (r : Report) (n scope : Nat) :
    (mapGet? u (s.charged t r n scope).teams).isSome = true := by
  unfold State.charged
  split
  · exact State.resident_modTeam hu ..
  · exact hu

theorem State.team_charged_keep {α : Type} (g : Team → α)
    (hk : ∀ T k kE named kScope, g { T with k := k, kE := kE, named := named, kScope := kScope } = g T) (s : State) (t : Nat) (r : Report)
    (n scope u : Nat) : g ((s.charged t r n scope).team u) = g (s.team u) := by
  unfold State.charged
  split
  · exact State.team_modTeam_keep g s t _ (fun T => hk ..) u
  · rfl

/-- The lines that a command writes become absent in the team that it writes (R28). -/
def State.slipAbsent (s : State) (c : SlipCmd) : State :=
  match c.dstTeam with
  | none => s
  | some t => s.modTeam t (·.clearLines (c.linesAt 0 c.bytes))

/-- The slot that a command fills is reserved (R264). -/
def State.slipReserved (s : State) (c : SlipCmd) : State :=
  match c.report with
  | .ring t hdr _ => s.modTeam t (·.ringReserve hdr)
  | _ => s

/-- A half of the B store notes the copy that is issued into it (R270). -/
def BRing.slipInto (b : BRing) (f : SlipForm) (c : SlipCmd) : BRing :=
  match c.dst with
  | .bst h => (if f.e.isNew then b.reserve h else b).issued h c.tlr.scope f.e.isLast
  | _ => b

/-- A core that a command has joined with its locks. -/
def Core.slipJoined (k : Core) (c : SlipCmd) (es : List LockEnt) : Core := { k.addLocks es with slips := k.slips ++ [c] }

/-- The half that a command fills notes it (R270). -/
def State.slipNoted (s : State) (core : Nat) (f : SlipForm) (c : SlipCmd) : State :=
  match c.dst with
  | .bst h => s.modCore core (fun k => { k with bring := (if f.e.isNew then k.bring.reserve h else k.bring).issued h c.tlr.scope f.e.isLast })
  | _ => s

theorem State.slipIssue_eq (s : State) (f : SlipForm) (c : SlipCmd) (es : List LockEnt) :
    s.slipIssue f c es = ((((s.charged c.team c.report c.bytes c.tlr.scope).modCore (s.team c.team).core
      (fun k => k.slipJoined c es)).slipAbsent c).slipReserved c).slipNoted (s.team c.team).core f c := rfl

section Parts
variable {α : Type} (g : State → α)

theorem State.slipAbsent_keep (ht : ∀ w t, g { w with teams := t } = g w) (s : State) (c : SlipCmd) : g (s.slipAbsent c) = g s := by
  unfold State.slipAbsent
  split
  · rfl
  · exact State.modTeam_keep g ht ..

theorem State.slipReserved_keep (ht : ∀ w t, g { w with teams := t } = g w) (s : State) (c : SlipCmd) : g (s.slipReserved c) = g s := by
  unfold State.slipReserved
  split
  · exact State.modTeam_keep g ht ..
  · rfl

theorem State.slipNoted_keep (hk : ∀ w k, g { w with cores := k } = g w) (s : State) (core : Nat) (f : SlipForm) (c : SlipCmd) :
    g (s.slipNoted core f c) = g s := by
  unfold State.slipNoted
  split
  · exact hk ..
  · rfl

/-- The issue of a copy changes teams and its core alone. -/
theorem State.slipIssue_keep (hk : ∀ w k, g { w with cores := k } = g w) (ht : ∀ w t, g { w with teams := t } = g w) (s : State)
    (f : SlipForm) (c : SlipCmd) (es : List LockEnt) : g (s.slipIssue f c es) = g s := by
  rw [State.slipIssue_eq, State.slipNoted_keep g hk, State.slipReserved_keep g ht, State.slipAbsent_keep g ht]
  exact (hk ..).trans (State.charged_keep g ht ..)

end Parts

theorem Core.addLocks_bring (k : Core) (es : List LockEnt) : (k.addLocks es).bring = k.bring := by
  refine foldl_inv (fun x : Core => x.bring = k.bring) _ (fun x e h => ?_) k rfl es
  exact h

theorem Core.locks_addLocks_mono {k : Core} {y : LockEnt} (h : y ∈ k.locks) (es : List LockEnt) : y ∈ (k.addLocks es).locks := by
  refine foldl_inv (fun x : Core => y ∈ x.locks) _ (fun x e h => ?_) k h es
  exact List.mem_append_left _ h

/-- Each lock of a command is taken, under a free number (R29). -/
theorem Core.mem_addLocks (k : Core) {es : List LockEnt} {x : LockEnt} (h : x ∈ es) : ∃ y ∈ (k.addLocks es).locks, { y with idx := x.idx } = x := by
  induction es generalizing k with
  | nil => cases h
  | cons e es ih =>
    rcases List.mem_cons.1 h with rfl | h
    · exact ⟨{ x with idx := freeIdx k }, Core.locks_addLocks_mono (k := { k with locks := k.locks ++ [{ x with idx := freeIdx k }] })
        (List.mem_append_right _ (List.mem_singleton.2 rfl)) es, rfl⟩
    · exact ih _ h

theorem State.core_slipIssue (s : State) (f : SlipForm) (c : SlipCmd) (es : List LockEnt) :
    (s.slipIssue f c es).core (s.team c.team).core =
      { (s.core (s.team c.team).core).slipJoined c es with bring := (s.core (s.team c.team).core).bring.slipInto f c } := by
  have hjoined : (((((s.charged c.team c.report c.bytes c.tlr.scope).modCore (s.team c.team).core (fun k => k.slipJoined c es)).slipAbsent
      c).slipReserved c).core (s.team c.team).core) = (s.core (s.team c.team).core).slipJoined c es := by
    rw [State.slipReserved_keep (fun w => w.core (s.team c.team).core) (fun _ _ => rfl),
      State.slipAbsent_keep (fun w => w.core (s.team c.team).core) (fun _ _ => rfl), State.core_modCore_same,
      State.charged_keep (fun w => w.core (s.team c.team).core) (fun _ _ => rfl)]
  have hbring : ((s.core (s.team c.team).core).slipJoined c es).bring = (s.core (s.team c.team).core).bring := Core.addLocks_bring ..
  rw [State.slipIssue_eq, ← hbring]
  unfold State.slipNoted BRing.slipInto
  split
  · rw [State.core_modCore_same, hjoined]
  · rw [hjoined]

/-! ### What the issue does to teams -/

theorem State.resident_slipAbsent {s : State} {u : Nat} (hu : (mapGet? u s.teams).isSome = true) (c : SlipCmd) :
    (mapGet? u (s.slipAbsent c).teams).isSome = true := by
  unfold State.slipAbsent
  split
  · exact hu
  · exact State.resident_modTeam hu ..

theorem State.team_slipAbsent (s : State) (c : SlipCmd) (u : Nat) : ∃ ls, (s.slipAbsent c).team u = { s.team u with absent := ls } := by
  unfold State.slipAbsent
  split
  · exact ⟨(s.team u).absent, rfl⟩
  · rename_i v _
    by_cases huv : u = v
    · subst huv
      cases hfound : mapGet? u s.teams with
      | none => exact ⟨(s.team u).absent, by rw [State.modTeam, hfound]⟩
      | some T => exact ⟨_, State.team_modTeam_same hfound _⟩
    · exact ⟨(s.team u).absent, State.team_modTeam_ne s huv _⟩

theorem State.resident_slipIssue {s : State} {u : Nat} (hu : (mapGet? u s.teams).isSome = true) (f : SlipForm) (c : SlipCmd)
    (es : List LockEnt) : (mapGet? u (s.slipIssue f c es).teams).isSome = true := by
  rw [State.slipIssue_eq, State.slipNoted_keep State.teams (fun _ _ => rfl)]
  have hcharged : (mapGet? u ((s.charged c.team c.report c.bytes c.tlr.scope).modCore (s.team c.team).core
      (fun k => k.slipJoined c es)).teams).isSome = true := State.resident_charged hu ..
  generalize (s.charged c.team c.report c.bytes c.tlr.scope).modCore (s.team c.team).core (fun k => k.slipJoined c es) = w at hcharged
  have habsent := State.resident_slipAbsent hcharged c
  unfold State.slipReserved
  split
  · exact State.resident_modTeam habsent ..
  · exact habsent

section Teams
variable {α : Type} (g : Team → α)

theorem State.team_slipAbsent_keep (ha : ∀ T l, g { T with absent := l } = g T) (s : State) (c : SlipCmd) (u : Nat) :
    g ((s.slipAbsent c).team u) = g (s.team u) := by
  unfold State.slipAbsent
  split
  · rfl
  · exact State.team_modTeam_keep g s _ _ (fun T => ha ..) u

theorem State.team_slipReserved_keep (hl : ∀ T m b, g { T with lmem := m, lbad := b } = g T) (s : State) (c : SlipCmd) (u : Nat) :
    g ((s.slipReserved c).team u) = g (s.team u) := by
  unfold State.slipReserved
  split
  · exact State.team_modTeam_keep g s _ _ (fun T => (hl _ _ _).trans (hl ..)) u
  · rfl

/-- What of a team the issue of a copy keeps. -/
theorem State.team_slipIssue_keep (hk : ∀ T k kE named kScope, g { T with k := k, kE := kE, named := named, kScope := kScope } = g T)
    (ha : ∀ T l, g { T with absent := l } = g T) (hl : ∀ T m b, g { T with lmem := m, lbad := b } = g T) (s : State) (f : SlipForm)
    (c : SlipCmd) (es : List LockEnt) (u : Nat) : g ((s.slipIssue f c es).team u) = g (s.team u) := by
  rw [State.slipIssue_eq, State.slipNoted_keep (fun w => w.team u) (fun _ _ => rfl), State.team_slipReserved_keep g hl,
    State.team_slipAbsent_keep g ha]
  exact State.team_charged_keep g hk ..

end Teams

/-- The lines that a copy writes are absent from its issue on (R28). -/
theorem State.absent_slipIssue {s : State} {c : SlipCmd} {u : Nat} (hd : c.dstTeam = some u) (hu : (mapGet? u s.teams).isSome = true)
    (f : SlipForm) (es : List LockEnt) {ln : Nat} (hln : ln ∈ c.linesAt 0 c.bytes) : ln ∈ ((s.slipIssue f c es).team u).absent := by
  rw [State.slipIssue_eq, State.slipNoted_keep (fun w => w.team u) (fun _ _ => rfl),
    State.team_slipReserved_keep Team.absent (fun _ _ _ => rfl)]
  have hres : (mapGet? u ((s.charged c.team c.report c.bytes c.tlr.scope).modCore (s.team c.team).core
      (fun k => k.slipJoined c es)).teams).isSome = true := State.resident_charged hu ..
  generalize (s.charged c.team c.report c.bytes c.tlr.scope).modCore (s.team c.team).core (fun k => k.slipJoined c es) = w at hres
  obtain ⟨T, hT⟩ := Option.isSome_iff_exists.1 hres
  unfold State.slipAbsent
  rw [hd]
  dsimp only
  rw [State.team_modTeam_same hT]
  exact mem_dedupNat (List.mem_append_right _ hln)

/-- A copy's bytes are charged to its counter (R26). -/
theorem State.counter_slipIssue {s : State} {c : SlipCmd} {n : Nat} (hr : c.report = .counter n) (h0 : n ≠ 0) (hn : n < 256)
    (ht : (mapGet? c.team s.teams).isSome = true) (f : SlipForm) (es : List LockEnt) :
    ((s.slipIssue f c es).team c.team).kGet n = (s.team c.team).kGet n + wordOf c.bytes ∧
      (eGet ((s.slipIssue f c es).team c.team).kE n = false ↔ (s.team c.team).kGet n + wordOf c.bytes = 0) := by
  obtain ⟨T, hT⟩ := Option.isSome_iff_exists.1 ht
  have hteam : ∀ {α : Type} (g : Team → α), (∀ T l, g { T with absent := l } = g T) → (∀ T m b, g { T with lmem := m, lbad := b } = g T) →
      g ((s.slipIssue f c es).team c.team) = g ((s.countAdd c.team n c.bytes c.tlr.scope).team c.team) := fun g ha hl => by
    rw [State.slipIssue_eq, State.slipNoted_keep (fun w => w.team c.team) (fun _ _ => rfl), State.team_slipReserved_keep g hl,
      State.team_slipAbsent_keep g ha, hr]
    rfl
  rw [hteam (fun T => T.kGet n) (fun _ _ => rfl) (fun _ _ _ => rfl), hteam Team.kE (fun _ _ => rfl) (fun _ _ _ => rfl), State.countAdd,
    State.team_modTeam_same hT]
  exact Team.kCount_law h0 hn _

/-! ### The slot that a copy reserves (R264) -/

theorem Team.locRead_absent (T : Team) (ls : List Nat) (a n : Nat) : Team.locRead { T with absent := ls } a n = T.locRead a n := rfl

theorem Team.ringReserve_absent (T : Team) (ls : List Nat) (hdr : Nat) :
    Team.ringReserve { T with absent := ls } hdr = { T.ringReserve hdr with absent := ls } := by
  unfold Team.ringReserve Team.ringN Team.ringW Team.locWrite Team.locPut
  simp only [Team.locRead_absent]

theorem State.ring_slipIssue {s : State} {c : SlipCmd} {u hdr i : Nat} (hr : c.report = .ring u hdr i)
    (hu : (mapGet? u s.teams).isSome = true) (f : SlipForm) (es : List LockEnt) (a n : Nat) :
    ((s.slipIssue f c es).team u).locRead a n = ((s.team u).ringReserve hdr).locRead a n := by
  have hcharged : s.charged c.team c.report c.bytes c.tlr.scope = s := by
    rw [hr]
    rfl
  rw [State.slipIssue_eq, State.slipNoted_keep (fun w => w.team u) (fun _ _ => rfl), hcharged]
  have hteam : (s.modCore (s.team c.team).core (fun k => k.slipJoined c es)).team u = s.team u := rfl
  have hres : (mapGet? u (s.modCore (s.team c.team).core (fun k => k.slipJoined c es)).teams).isSome = true := hu
  generalize s.modCore (s.team c.team).core (fun k => k.slipJoined c es) = w at hteam hres
  obtain ⟨T, hT⟩ := Option.isSome_iff_exists.1 (State.resident_slipAbsent hres c)
  obtain ⟨ls, habsent⟩ := w.team_slipAbsent c u
  unfold State.slipReserved
  rw [hr]
  dsimp only
  rw [State.team_modTeam_same hT, habsent, hteam, Team.ringReserve_absent, Team.locRead_absent]

end Sys2Proof.Machine

namespace Sys2Proof.Machine

/-! ## One lane's copy is prepared (R256, R257) -/

section Prepare
variable (r : Run) (f : SlipForm) (l : Nat) (bs : List Byte)

/-- The coordinates that a lane names (R254). -/
def Run.slipCs : List Int := slipCoords (r.b l) (r.cc l)

/-- The new rows of a lane's `slipc` (R275). -/
def Run.slipNew : Option (List Int) := f.lb.map (fun lb => slipcRows r.T lb bs (tlrOf bs) (r.slipCs l) f.e20)

/-- The bytes that a lane's copy writes (R257). -/
def Run.slipLen : Nat := f.dstBytes (tlrOf bs) (r.slipNew f l bs)

/-- The bytes that a lane's copy takes up on the box side: the whole box of a `slipc` (R275). -/
def Run.slipArea : Nat := if f.lb.isSome then (tlrOf bs).boxBytes else r.slipLen f l bs

/-- The team that holds the box side. -/
def Run.slipBox : Team := r.s0.team (r.boxTeam f)

/-- The slot that a lane's copy fills, the first one to be given out (R264). -/
def Run.slipSlot : Nat := (r.slipBox f).ringW f.e.off % (r.slipBox f).ringN f.e.off

/-- Where the box of a lane's copy starts. -/
def Run.slipOff : Nat := if f.ring then (r.slipBox f).slotOff f.e.off (r.slipSlot f) else f.e.off

/-- The B store of the core of a run. -/
def Run.slipRing : BRing := (r.s0.core r.core).bring

/-- The half that a lane's B-store copy fills (R270). -/
def Run.slipHalf : Nat := if f.e.isNew then r.slipRing.widx else r.slipRing.cur

/-- The command of a lane (R257). -/
def Run.slipCommand : SlipCmd where
  id := r.s.nextId
  team := r.t
  crs := r.c
  lane := l
  asid := r.T.asid
  root := r.T.ptroot
  sup := r.T.sup
  ipc := r.ip
  dir := f.dir
  dst := if f.dir = 3 then .bst (r.slipHalf f) else if f.dir = 2 then .rem (r.boxTeam f) f.e.pos else .loc
  off := r.slipOff f
  bytes := r.slipLen f l bs
  report := if f.ring then .ring (r.boxTeam f) f.e.off (r.slipSlot f) else reportOf r.T r.o.d
  tgt := f.tgt
  tlr := tlrOf bs
  coords := r.slipCs l
  rows := r.slipNew f l bs
  e20 := f.e20
  todo := List.range ((r.slipLen f l bs + 63) / 64)

/-- The locks of a lane's command (R29, R258). -/
def Run.slipEnts : List LockEnt :=
  r.slipLocks f (tlrOf bs) (r.slipCs l) (r.slipNew f l bs) r.s.nextId (r.slipOff f) (r.slipArea f l bs)

/-- A lane's copy passes the checks of R256 and waits for nothing. -/
structure Run.SlipClear : Prop where
  record : tlrBads bs = []
  agrees : f.agrees (tlrOf bs) = true
  target : ∀ g, f.tgt = some g → slipxOk g (tlrOf bs).efmt = true
  coords : f.coordsOk (tlrOf bs) (r.slipCs l) (r.cc l) = true
  aligned : f.e.off % 64 = 0
  short : r.slipLen f l bs ≤ 2 ^ 20
  inside : f.dir ≠ 3 → f.e.off + (if f.ring then 64 else r.slipArea f l bs) ≤ r.T.locSize
  inHalf : f.dir = 3 → f.e.off + r.slipLen f l bs ≤ 2 ^ 18
  member : f.dir = 2 → f.e.pos < r.T.gangsize
  ring : f.ring = true → (r.slipBox f).locBad f.e.off 64 = false ∧ (r.slipBox f).ringOk f.e.off = true ∧
    (tlrOf bs).boxBytes ≤ (r.slipBox f).slotBytes f.e.off ∧ (r.slipBox f).ringRoom f.e.off 1 = true ∧
    r.slipOff f + r.slipLen f l bs ≤ r.T.locSize
  counter : f.ring = false → ∀ n, r.o.d = .k n → r.T.outstanding n + r.slipLen f l bs < 2 ^ 48
  half : f.dir = 3 → (r.slipRing.owner = none ∨ r.slipRing.owner = some r.t) ∧ (f.e.isNew = true ∨ r.slipRing.curv = true) ∧
    (f.e.isNew = true → r.slipRing.st r.slipRing.widx = 0)
  locks : locksFree (r.s0.core r.core) (r.slipEnts f l bs) = true

variable {r f l bs}

theorem Run.slipFault_none (h : r.SlipClear f l bs) : r.slipFault f (r.a l) bs (r.slipCs l) (r.cc l) (r.slipLen f l bs) = none := by
  obtain ⟨hrec, hagrees, htgt, hcoords, haligned, hshort, hinside, hhalf, hmember, hring, -, -, -⟩ := h
  unfold Run.slipFault
  extract_lets t off B
  rw [hrec]
  simp only [minNat?]
  have htgt' : f.tgt.all (fun g => slipxOk g t.efmt) = true := by
    cases hf : f.tgt with
    | none => rfl
    | some g => exact htgt g hf
  rw [if_neg (by simp [t, hagrees]), if_neg (by simp [htgt']), if_neg (by simp [t, hcoords]), if_neg (by simpa [off] using haligned), if_neg, if_neg,
    if_neg, if_neg, if_neg, if_neg]
  · simp only [Bool.or_eq_true, Bool.and_eq_true, decide_eq_true_eq, not_or, not_and, not_lt]
    exact ⟨hshort, hhalf⟩
  · simp only [Bool.and_eq_true, decide_eq_true_eq, not_and, not_lt]
    exact fun hr => (hring hr).2.2.1
  · simp only [Bool.and_eq_true, Bool.not_eq_true', not_and, Bool.not_eq_false]
    exact fun hr => (hring hr).2.1
  · simp only [Bool.and_eq_true, not_and, Bool.not_eq_true]
    exact fun hr => (hring hr).1
  · simp only [Bool.and_eq_true, decide_eq_true_eq, not_and, not_le]
    exact hmember
  · simp only [Bool.and_eq_true, bne_iff_ne, decide_eq_true_eq, not_and, not_lt]
    exact hinside

theorem Team.ringN_pos {T : Team} {hdr : Nat} (h : T.ringOk hdr = true) : 2 ≤ T.ringN hdr := by
  simp only [Team.ringOk, Bool.and_eq_true, decide_eq_true_eq, and_assoc] at h
  exact h.1

/-- The preparation that starts from a run. -/
def Run.slipStart (r : Run) : SlipPrep := ⟨r, r.slipRing, r.T, 0, [], []⟩

/-- The preparation after one lane's copy. -/
def Run.slipPrepared (r : Run) (f : SlipForm) (l : Nat) (bs : List Byte) : SlipPrep where
  r := r
  bring := if f.dir = 3 then r.slipRing.bsTake r.t f.e else r.slipRing
  T := match f.lb with
    | none => r.T
    | some lb => { r.T with lbs := mapPut lb ⟨bs, r.slipCs l, f.e20⟩ r.T.lbs }
  slots := if f.ring then 1 else 0
  halves := if f.dir = 3 && f.e.isNew then [r.slipHalf f] else []
  cmds := [(r.slipCommand f l bs, r.slipEnts f l bs)]

theorem BRing.bsBad_clear {b : BRing} {t : Nat} {isNew : Bool} (h : b.owner = none ∨ b.owner = some t) (hnew : isNew = true ∨ b.curv = true) :
    b.bsBad t isNew = false := by
  unfold BRing.bsBad
  rcases h with h | h <;> rcases hnew with hn | hn <;> simp [h, hn]

theorem Run.slipSlot_eq (h : r.SlipClear f l bs) (hr : f.ring = true) :
    ((r.slipBox f).ringW f.e.off + 0) % max 1 ((r.slipBox f).ringN f.e.off) = r.slipSlot f := by
  obtain ⟨-, hok, -⟩ := h.ring hr
  have := Team.ringN_pos hok
  rw [Nat.max_eq_right (by omega), Nat.add_zero]
  rfl

theorem SlipPrep.lane_single (hflt : r.flt = []) (h : r.SlipClear f l bs) : r.slipStart.lane f l bs = r.slipPrepared f l bs := by
  unfold SlipPrep.lane
  extract_lets r1 t c cs rows bytes bring half B slot id off cmd
  have hok : r1.ok l = true := Run.ok_of_nil hflt l
  have hnofault : r1.slipFault f (r1.a l) bs cs c bytes = none := Run.slipFault_none h
  have hslot : f.ring = true → slot = r.slipSlot f := Run.slipSlot_eq h
  have hoff : off = r.slipOff f := by
    simp only [off, Run.slipOff]
    split
    · rw [hslot ‹_›]
      rfl
    · rfl
  have hreport : (if f.ring then Report.ring (r1.boxTeam f) f.e.off slot else reportOf r1.T r1.o.d) =
      if f.ring then .ring (r.boxTeam f) f.e.off (r.slipSlot f) else reportOf r.T r.o.d := by
    split
    · rw [hslot ‹_›]
      rfl
    · rfl
  have hcs : cs = r.slipCs l := rfl
  have hrows : rows = r.slipNew f l bs := rfl
  have hbytes : bytes = r.slipLen f l bs := rfl
  have hid : id = r.s.nextId := rfl
  have hhalf : half = r.slipHalf f := rfl
  clear_value cs rows bytes half slot off id
  subst hcs hrows hbytes hhalf hoff hid
  have hcmd : cmd = r.slipCommand f l bs := by
    simp only [cmd, hreport]
    rfl
  have hbad : ¬(f.dir = 3 && r.slipStart.bring.bsBad r1.t f.e.isNew) = true := by
    simp only [Bool.and_eq_true, decide_eq_true_eq, not_and, Bool.not_eq_true]
    intro h3
    obtain ⟨howner, hnew, -⟩ := h.half h3
    exact BRing.bsBad_clear howner hnew
  have hroom : ¬(f.ring && decide (r1.T.locSize < r.slipOff f + r.slipLen f l bs)) = true := by
    simp only [Bool.and_eq_true, decide_eq_true_eq, not_and, not_lt]
    exact fun hr => (h.ring hr).2.2.2.2
  rw [hok, hnofault, if_neg (by simp)]
  dsimp only
  rw [if_neg hbad, if_neg hroom, hcmd]
  rfl

theorem Run.slipLocks_length (r : Run) (f : SlipForm) (t : Tlr) (cs : List Int) (rows : Option (List Int)) (id off bytes : Nat) :
    (r.slipLocks f t cs rows id off bytes).length ≤ 2 := by
  unfold Run.slipLocks
  extract_lets tens rg box
  have htens : tens.length ≤ 1 := by
    simp only [tens]
    split
    · exact Nat.zero_le _
    · split
      · exact Nat.le_refl 1
      · exact Nat.le_refl 1
  have hbox : box.length ≤ 1 := by
    simp only [box]
    split
    · exact Nat.zero_le _
    · exact Nat.le_refl 1
  rw [List.length_append]
  omega

/-- One lane's copy alone is never too many (R256 checks 13 and 14). -/
theorem Run.slipPrepared_together (h : r.SlipClear f l bs) : (r.slipPrepared f l bs).together f = r.slipPrepared f l bs := by
  unfold SlipPrep.together
  rw [if_neg, if_neg]
  · simp only [Bool.and_eq_true, Bool.not_eq_true', not_and, Bool.not_eq_true]
    intro hr
    have hn := h.counter hr
    unfold Team.counterFull reportOf
    simp only [Run.slipPrepared, List.foldl_cons, List.foldl_nil]
    cases ho : r.o.d
    case k n =>
      have hlt := hn n ho
      have hle : ¬0xFFFF_FFFF_FFFF < r.T.outstanding n + (0 + (r.slipCommand f l bs).bytes) := by
        simp only [Run.slipCommand]
        omega
      exact decide_eq_false hle
    all_goals rfl
  · have hents : (r.slipEnts f l bs).length ≤ 2 := Run.slipLocks_length ..
    have hhalves : (r.slipPrepared f l bs).halves.length ≤ 2 := by
      simp only [Run.slipPrepared]
      split <;> simp
    have hcmds : (r.slipPrepared f l bs).cmds.flatMap (·.2) = r.slipEnts f l bs := by simp [Run.slipPrepared]
    unfold SlipPrep.tooMany
    rw [hcmds]
    simp only [Bool.or_eq_true, Bool.and_eq_true, decide_eq_true_eq, not_or, not_and, Nat.not_lt]
    refine ⟨⟨by omega, hhalves⟩, fun hr => ?_⟩
    obtain ⟨-, hok, -⟩ := h.ring hr
    have hpos : 2 ≤ ((r.slipPrepared f l bs).r.s0.team ((r.slipPrepared f l bs).r.boxTeam f)).ringN f.e.off := Team.ringN_pos hok
    simp only [Run.slipPrepared, hr, if_true] at hpos ⊢
    omega

/-- A copy whose locks, slot and half are free waits for nothing (R257). -/
theorem Run.slipPrepared_waits (h : r.SlipClear f l bs) : (r.slipPrepared f l bs).waits f = [] := by
  unfold SlipPrep.waits
  extract_lets k es
  have hes : es = r.slipEnts f l bs := by simp [es, Run.slipPrepared]
  have hlocks : locksFree k (r.slipEnts f l bs) = true := h.locks
  rw [hes, if_pos hlocks, List.nil_append, List.append_eq_nil_iff]
  constructor
  · rw [if_neg]
    simp only [Bool.and_eq_true, Bool.not_eq_true', not_and, Bool.not_eq_false]
    intro hr
    obtain ⟨-, -, -, hroom, -⟩ := h.ring hr
    simp only [Run.slipPrepared, hr, if_true]
    exact hroom
  · simp only [List.map_eq_nil_iff, List.filter_eq_nil_iff, Run.slipPrepared]
    intro x hx
    by_cases h3 : (f.dir = 3 && f.e.isNew) = true
    · rw [if_pos h3] at hx
      simp only [Bool.and_eq_true, decide_eq_true_eq] at h3
      obtain ⟨-, -, hfree⟩ := h.half h3.1
      rw [List.mem_singleton.1 hx, Run.slipHalf, if_pos h3.2]
      have hst := hfree h3.2
      exact fun hne => (bne_iff_ne.1 hne) hst
    · rw [if_neg h3] at hx
      cases hx

theorem Run.slipFold_single (hflt : r.flt = []) (h : r.SlipClear f l bs) :
    ([(l, bs)].foldl (fun (p : SlipPrep) x => p.lane f x.1 x.2) ⟨r, (r.s0.core r.core).bring, r.T, 0, [], []⟩).together f =
      r.slipPrepared f l bs := by
  rw [List.foldl_cons, List.foldl_nil, ← Run.slipPrepared_together h, ← SlipPrep.lane_single hflt h]
  rfl

/-- What the issue of one lane's copy makes of the state (R257). -/
def Run.slipIssued (r : Run) (f : SlipForm) (l : Nat) (bs : List Byte) : State :=
  let s := r.s.slipIssue f (r.slipCommand f l bs) (r.slipEnts f l bs)
  let s := { s with nextId := s.nextId + 1 }
  let s := s.modTeam r.t (fun T => { T with lbs := (r.slipPrepared f l bs).T.lbs })
  if f.dir = 3 then s.modCore r.core (fun k => { k with bring := k.bring.withOpen (r.slipPrepared f l bs).bring }) else s

end Prepare

/-- One lane's copy whose checks pass is issued (R256, R257). -/
theorem slipRun_single {o : Ops} {f : SlipForm} {s : State} {t c : Nat} {h : Cohort} {l : Nat} {e : TlbEnt} {pa : Nat}
    (hready : Ready o { d := .counter, helps := false } s t c h) (hlive : s.livePerf t c h o.g = [l])
    (hrec : s.recordAt t c l (s.srcWord t c l o o.a.op) e pa)
    (hreport : f.ring = false → reportFault (s.team t) 0x01 0x0F o.d = none)
    (hclear : Run.SlipClear { readyRun o { d := .counter, helps := false } s t c h with s := (s.recordRead t e pa).2 } f l (s.recordRead t e pa).1) :
    let r : Run := { readyRun o { d := .counter, helps := false } s t c h with s := (s.recordRead t e pa).2 }
    slipRun o f s = .next (Run.finish { r with s := r.slipIssued f l (s.recordRead t e pa).1 }) := by
  have hgood : (readyRun o { d := .counter, helps := false } s t c h).goodLive = [l] := by
    rw [Run.goodLive, Run.good_of_nil rfl]
    exact hlive
  have hon : (readyRun o { d := .counter, helps := false } s t c h).live l = true := by
    have hmem : l ∈ (readyRun o { d := .counter, helps := false } s t c h).goodLive := by simp [hgood]
    exact (List.mem_filter.1 hmem).2
  have hcheck : ∀ x ∈ [l], (if f.ring then none else reportFault (readyRun o { d := .counter, helps := false } s t c h).T 0x01 0x0F o.d) = none := by
    intro x _
    split
    · rfl
    · exact hreport (Bool.eq_false_iff.2 ‹_›)
  have hok : [l].filter (readyRun o { d := .counter, helps := false } s t c h).ok = [l] := by simp [Run.ok, readyRun]
  have hread : (readyRun o { d := .counter, helps := false } s t c h).records [l] =
      .go { readyRun o { d := .counter, helps := false } s t c h with s := (s.recordRead t e pa).2 } [(l, (s.recordRead t e pa).1)] :=
    Run.records_single rfl rfl hon hrec
  have hflt : Run.flt { readyRun o { d := .counter, helps := false } s t c h with s := (s.recordRead t e pa).2 } = [] := rfl
  generalize ({ readyRun o { d := .counter, helps := false } s t c h with s := (s.recordRead t e pa).2 } : Run) = r at hclear hread hflt
  unfold slipRun
  rw [withRun_ready hready]
  dsimp only
  rw [hgood, Run.check_none _ _ _ hcheck, hok, hread]
  dsimp only
  rw [Run.slipFold_single hflt hclear, Run.slipPrepared_waits hclear]
  rfl

end Sys2Proof.Machine

namespace Sys2Proof.Machine

/-! ## The end of an instruction without a fault -/

/-- What the end of an instruction without a fault leaves: sources are consumed, and the cohort goes on (R38, R89). -/
structure Finished (s : State) (t c : Nat) (s' : State) : Prop where
  rest : { s' with teams := s.teams, cores := s.cores, columns := s.columns } = s
  teams : ∀ u, u ≠ t → s'.team u = s.team u
  team : ∃ kScope ports crs, s'.team t = { s.team t with kScope := kScope, ports := ports, courses := crs }
  core : ∀ q, ∃ l1, s'.core q = { s.core q with l1 := l1 }
  cohort : (s'.course t c).coh = (s.course t c).coh.map Cohort.next

theorem Run.finish_finished {r : Run} (hflt : r.flt = []) (hhas : r.s.HasCourse r.t r.c) : Finished r.s r.t r.c r.finish := by
  obtain ⟨hrest, hteams, ⟨ks, ps, hteam⟩, hhas', hcore, -⟩ := eaten_consumeSrcs r
  have hfinish : r.finish = r.consumeSrcs.modCourse r.t r.c (fun C => { C with
      parked := none, walked := [], recRefused := 0, coh := C.coh.map (fun h => { h with issued := h.issued + 1, pc := h.succ }) }) := by
    unfold Run.finish
    rw [hflt]
    rfl
  have hcourse : r.consumeSrcs.course r.t r.c = r.s.course r.t r.c := by rw [State.course, hteam]; rfl
  rw [hfinish]
  refine ⟨rest_trans hrest (modCourse_rest ..), fun u hu => ?_, ?_, fun q => ?_, ?_⟩
  · exact (State.team_modTeam_ne _ hu _).trans (hteams u hu)
  · obtain ⟨crs, hcrs⟩ := team_modCourse_crs r.consumeSrcs r.t r.c (fun C => { C with
      parked := none, walked := [], recRefused := 0, coh := C.coh.map (fun h => { h with issued := h.issued + 1, pc := h.succ }) })
    exact ⟨ks, ps, crs, by rw [hcrs, hteam]⟩
  · obtain ⟨l1, hq⟩ := hcore q
    exact ⟨l1, by rw [State.modCourse, State.core_modTeam, hq]⟩
  · rw [State.course_modCourse_same (hhas' r.c hhas), hcourse]
    rfl

theorem Finished.keep {s s' : State} {t c : Nat} (h : Finished s t c s') {α : Type} (g : State → α) (hk : ∀ w k, g { w with cores := k } = g w)
    (ht : ∀ w t, g { w with teams := t } = g w) (hc : ∀ w c, g { w with columns := c } = g w) : g s' = g s := by
  have heq : g { s' with teams := s.teams, cores := s.cores, columns := s.columns } = g s' :=
    (hc { s' with teams := s.teams, cores := s.cores } s.columns).trans ((hk { s' with teams := s.teams } s.cores).trans (ht s' s.teams))
  exact heq.symm.trans (congrArg g h.rest)

/-- What the end of an instruction keeps of every team. -/
theorem Finished.team_keep {s s' : State} {t c : Nat} (h : Finished s t c s') {α : Type} (g : Team → α)
    (hg : ∀ T ks ps crs, g { T with kScope := ks, ports := ps, courses := crs } = g T) (u : Nat) : g (s'.team u) = g (s.team u) := by
  by_cases hu : u = t
  · subst hu
    obtain ⟨ks, ps, crs, heq⟩ := h.team
    rw [heq, hg]
  · rw [h.teams u hu]

/-! ## What the issue of one lane's copy leaves (R257) -/

section Issued
variable {r : Run} {f : SlipForm} {l : Nat} {bs : List Byte}

theorem Run.slipIssued_keep {α : Type} (g : State → α) (hk : ∀ w k, g { w with cores := k } = g w) (ht : ∀ w t, g { w with teams := t } = g w) :
    g (r.slipIssued f l bs) = g { r.s with nextId := r.s.nextId + 1 } := by
  have hbase := State.slipIssue_keep (fun w => g { w with nextId := w.nextId + 1 }) (fun w k => hk { w with nextId := w.nextId + 1 } k)
    (fun w t => ht { w with nextId := w.nextId + 1 } t) r.s f (r.slipCommand f l bs) (r.slipEnts f l bs)
  unfold Run.slipIssued
  dsimp only
  split
  · exact (hk ..).trans ((State.modTeam_keep g ht ..).trans hbase)
  · exact (State.modTeam_keep g ht ..).trans hbase

/-- A team after the issue, but for its line buffers. -/
theorem Run.slipIssued_team {α : Type} (g : Team → α) (hb : ∀ T b, g { T with lbs := b } = g T) (u : Nat) :
    g ((r.slipIssued f l bs).team u) = g ((r.s.slipIssue f (r.slipCommand f l bs) (r.slipEnts f l bs)).team u) := by
  have hlbs := State.team_modTeam_keep g
    { r.s.slipIssue f (r.slipCommand f l bs) (r.slipEnts f l bs) with
      nextId := (r.s.slipIssue f (r.slipCommand f l bs) (r.slipEnts f l bs)).nextId + 1 } r.t
    (fun T => { T with lbs := (r.slipPrepared f l bs).T.lbs }) (fun T => hb ..) u
  unfold Run.slipIssued
  dsimp only
  split
  · exact hlbs
  · exact hlbs

theorem Run.slipIssued_resident {u : Nat} (hu : (mapGet? u r.s.teams).isSome = true) : (mapGet? u (r.slipIssued f l bs).teams).isSome = true := by
  have hlbs := State.resident_modTeam (s := { r.s.slipIssue f (r.slipCommand f l bs) (r.slipEnts f l bs) with
      nextId := (r.s.slipIssue f (r.slipCommand f l bs) (r.slipEnts f l bs)).nextId + 1 }) (u := u)
    (State.resident_slipIssue hu ..) r.t (fun T => { T with lbs := (r.slipPrepared f l bs).T.lbs })
  unfold Run.slipIssued
  dsimp only
  split
  · exact hlbs
  · exact hlbs

theorem Run.slipIssued_lbs (ht : (mapGet? r.t r.s.teams).isSome = true) : ((r.slipIssued f l bs).team r.t).lbs = (r.slipPrepared f l bs).T.lbs := by
  obtain ⟨T, hT⟩ := Option.isSome_iff_exists.1 (State.resident_slipIssue ht f (r.slipCommand f l bs) (r.slipEnts f l bs))
  have hlbs := congrArg Team.lbs (State.team_modTeam_same (s := { r.s.slipIssue f (r.slipCommand f l bs) (r.slipEnts f l bs) with
      nextId := (r.s.slipIssue f (r.slipCommand f l bs) (r.slipEnts f l bs)).nextId + 1 }) (t := r.t) (T := T) hT
    (fun T => { T with lbs := (r.slipPrepared f l bs).T.lbs }))
  unfold Run.slipIssued
  dsimp only
  split
  · exact hlbs
  · exact hlbs

theorem Run.slipIssued_core (hcore : (r.s.team r.t).core = r.core) : (r.slipIssued f l bs).core r.core =
    { (r.s.core r.core).slipJoined (r.slipCommand f l bs) (r.slipEnts f l bs) with
      bring := if f.dir = 3 then ((r.s.core r.core).bring.slipInto f (r.slipCommand f l bs)).withOpen (r.slipPrepared f l bs).bring
        else (r.s.core r.core).bring.slipInto f (r.slipCommand f l bs) } := by
  have hissue := r.s.core_slipIssue f (r.slipCommand f l bs) (r.slipEnts f l bs)
  have hteam : (r.s.team (r.slipCommand f l bs).team).core = r.core := hcore
  rw [hteam] at hissue
  have hlbs : (State.modTeam { r.s.slipIssue f (r.slipCommand f l bs) (r.slipEnts f l bs) with
      nextId := (r.s.slipIssue f (r.slipCommand f l bs) (r.slipEnts f l bs)).nextId + 1 } r.t
      (fun T => { T with lbs := (r.slipPrepared f l bs).T.lbs })).core r.core =
        (r.s.slipIssue f (r.slipCommand f l bs) (r.slipEnts f l bs)).core r.core := State.core_modTeam ..
  unfold Run.slipIssued
  dsimp only
  split
  · rw [State.core_modCore_same, hlbs, hissue]
  · rw [hlbs, hissue]

/-- A course, its team and its cohort are there still. -/
theorem Run.slipIssued_course (hhas : r.s.HasCourse r.t r.c) : (r.slipIssued f l bs).HasCourse r.t r.c ∧
    (r.slipIssued f l bs).course r.t r.c = r.s.course r.t r.c := by
  have hcourses : ((r.slipIssued f l bs).team r.t).courses = (r.s.team r.t).courses :=
    (Run.slipIssued_team Team.courses (fun _ _ => rfl) r.t).trans
      (State.team_slipIssue_keep Team.courses (fun _ _ _ _ _ => rfl) (fun _ _ => rfl) (fun _ _ _ => rfl) ..)
  refine ⟨?_, ?_⟩
  · obtain ⟨T, hT, hlt⟩ := hhas
    obtain ⟨U, hU⟩ := Option.isSome_iff_exists.1 (Run.slipIssued_resident (f := f) (l := l) (bs := bs) (Option.isSome_iff_exists.2 ⟨T, hT⟩))
    rw [State.team_eq hT, State.team_eq hU] at hcourses
    exact ⟨U, hU, hcourses ▸ hlt⟩
  · rw [State.course, State.course, Team.course, Team.course, hcourses]

end Issued

end Sys2Proof.Machine

namespace Sys2Proof.Machine

/-! ## A copy of one lane, issued (R254 to R258) -/

/-- What a lane's copy leaves once it is issued. -/
structure Run.SlipDone (r : Run) (f : SlipForm) (l : Nat) (bs : List Byte) (h : Cohort) (s' : State) : Prop where
  cohort : (s'.course r.t r.c).coh = some h.next
  flights : s'.flights = r.s0.flights
  nextId : s'.nextId = r.s.nextId + 1
  slips : (s'.core r.core).slips = (r.s0.core r.core).slips ++ [r.slipCommand f l bs]
  locks : ∀ x ∈ r.slipEnts f l bs, ∃ y ∈ (s'.core r.core).locks, { y with idx := x.idx } = x
  absent : ∀ u, (r.slipCommand f l bs).dstTeam = some u → (mapGet? u r.s0.teams).isSome → ∀ ln ∈ (r.slipCommand f l bs).linesAt 0 (r.slipLen f l bs),
    ln ∈ (s'.team u).absent
  counter : ∀ n, (r.slipCommand f l bs).report = .counter n → (s'.team r.t).kGet n = r.T.kGet n + wordOf (r.slipLen f l bs) ∧
    (eGet (s'.team r.t).kE n = false ↔ r.T.kGet n + wordOf (r.slipLen f l bs) = 0)
  ring : f.ring = true → (mapGet? (r.boxTeam f) r.s0.teams).isSome →
    (s'.team (r.boxTeam f)).locRead f.e.off 16 = ((r.slipBox f).ringReserve f.e.off).locRead f.e.off 16
  half : f.dir = 3 → (f.e.isNew = true → (s'.core r.core).bring.owner = some r.t ∧ (s'.core r.core).bring.st (r.slipHalf f) = 1 ∧
    (s'.core r.core).bring.widx = 1 - r.slipRing.widx) ∧ (s'.core r.core).bring.curv = !f.e.isLast
  lbs : ∀ n, f.lb = some n → mapGet? n (s'.team r.t).lbs = some ⟨bs, r.slipCs l, f.e20⟩

/-- The half that an opening copy fills is being filled, whichever of the two it is (R270). -/
theorem BRing.st_reserve_issued (b : BRing) (h scope : Nat) (last : Bool) : ((b.reserve h).issued h scope last).st h = 1 := by
  unfold BRing.st BRing.issued BRing.reserve
  split <;> rfl

section
variable {r : Run} {f : SlipForm} {l : Nat} {bs : List Byte} {h : Cohort} {s' : State}

/-- The B store after the issue of a copy into it (R269, R270). -/
theorem Run.slipHalf_done (hclear : r.SlipClear f l bs) (h3 : f.dir = 3) (b : BRing) :
    let b' := (b.slipInto f (r.slipCommand f l bs)).withOpen (r.slipPrepared f l bs).bring
    (f.e.isNew = true → b'.owner = some r.t ∧ b'.st (r.slipHalf f) = 1 ∧ b'.widx = 1 - r.slipRing.widx) ∧ b'.curv = !f.e.isLast := by
  obtain ⟨-, hopen, -⟩ := hclear.half h3
  have hdst : (r.slipCommand f l bs).dst = .bst (r.slipHalf f) := if_pos h3
  have hprep : (r.slipPrepared f l bs).bring = r.slipRing.bsTake r.t f.e := if_pos h3
  intro b'
  have hb' : b' = (b.slipInto f (r.slipCommand f l bs)).withOpen (r.slipRing.bsTake r.t f.e) := by rw [← hprep]
  refine ⟨fun hnew => ⟨?_, ?_, ?_⟩, ?_⟩
  · rw [hb']
    simp only [BRing.withOpen, BRing.bsTake, hnew, if_true]
    split <;> rfl
  · have hinto : b.slipInto f (r.slipCommand f l bs) = (b.reserve (r.slipHalf f)).issued (r.slipHalf f) (r.slipCommand f l bs).tlr.scope f.e.isLast := by
      unfold BRing.slipInto
      rw [hdst]
      simp only [hnew, if_true]
    rw [hb', hinto]
    exact BRing.st_reserve_issued ..
  · rw [hb']
    simp only [BRing.withOpen, BRing.bsTake, hnew, if_true]
    split <;> rfl
  · rw [hb']
    simp only [BRing.withOpen, BRing.bsTake]
    cases hnew : f.e.isNew
    · have hcurv := hopen.resolve_left (by simp [hnew])
      cases f.e.isLast <;> simp [hcurv]
    · cases f.e.isLast <;> simp

theorem Run.slip_done (hclear : r.SlipClear f l bs) (hread : r.s0.RecRead r.s) (hcoh : (r.s0.course r.t r.c).coh = some h)
    (hreport : f.ring = false → ∀ n, r.o.d = .k n → n ≠ 0 ∧ n < 256) (hfin : Finished (r.slipIssued f l bs) r.t r.c s') :
    r.SlipDone f l bs h s' := by
  obtain ⟨hteams, hflights, hcores⟩ := hread
  have hteam : ∀ u, r.s.team u = r.s0.team u := fun u => by rw [State.team, State.team, hteams]
  have hhas : r.s.HasCourse r.t r.c := by
    have h0 := State.hasCourse_of_coh hcoh
    rwa [State.HasCourse, ← hteams] at h0
  have hres : ∀ u, (mapGet? u r.s0.teams).isSome = true → (mapGet? u r.s.teams).isSome = true := fun u hu => by rwa [hteams]
  have hself : (mapGet? r.t r.s.teams).isSome = true := by
    obtain ⟨T, hT, -⟩ := hhas
    exact Option.isSome_iff_exists.2 ⟨T, hT⟩
  obtain ⟨-, hcourse⟩ := Run.slipIssued_course (f := f) (l := l) (bs := bs) hhas
  have hcore : (r.slipIssued f l bs).core r.core = _ := Run.slipIssued_core (congrArg Team.core (hteam r.t))
  obtain ⟨tlb, l1, hk⟩ := hcores r.core
  obtain ⟨l1', hk'⟩ := hfin.core r.core
  rw [hcore] at hk'
  have hrest : ∀ {α : Type} (g : State → α), (∀ w k, g { w with cores := k } = g w) → (∀ w t, g { w with teams := t } = g w) →
      (∀ w c, g { w with columns := c } = g w) → g s' = g { r.s with nextId := r.s.nextId + 1 } := fun g hgk hgt hgc =>
    (hfin.keep g hgk hgt hgc).trans (Run.slipIssued_keep g hgk hgt)
  have hkeep : ∀ {α : Type} (g : Team → α), (∀ T ks ps crs, g { T with kScope := ks, ports := ps, courses := crs } = g T) →
      (∀ T b, g { T with lbs := b } = g T) → ∀ u, g (s'.team u) = g ((r.s.slipIssue f (r.slipCommand f l bs) (r.slipEnts f l bs)).team u) :=
    fun g hg hb u => (hfin.team_keep g hg u).trans (Run.slipIssued_team g hb u)
  refine ⟨?_, ?_, ?_, ?_, fun x hx => ?_, fun u hd hu ln hln => ?_, fun n hn => ?_, fun hr hu => ?_, fun h3 => ?_, fun n hn => ?_⟩
  · rw [hfin.cohort, hcourse, State.course, hteam]
    exact congrArg (Option.map Cohort.next) hcoh
  · exact (hrest State.flights (fun _ _ => rfl) (fun _ _ => rfl) (fun _ _ => rfl)).trans hflights
  · exact hrest State.nextId (fun _ _ => rfl) (fun _ _ => rfl) (fun _ _ => rfl)
  · rw [hk']
    exact congrArg (· ++ [r.slipCommand f l bs]) (congrArg Core.slips hk :)
  · rw [hk']
    exact Core.mem_addLocks _ hx
  · rw [hkeep Team.absent (fun _ _ _ _ => rfl) (fun _ _ => rfl)]
    exact State.absent_slipIssue hd (hres u hu) f _ hln
  · have hnr : f.ring = false := by
      by_contra hr
      rw [Bool.not_eq_false] at hr
      have heq : (r.slipCommand f l bs).report = .ring (r.boxTeam f) f.e.off (r.slipSlot f) := if_pos hr
      rw [heq] at hn
      cases hn
    have hd : r.o.d = .k n := by
      have heq : (r.slipCommand f l bs).report = reportOf r.T r.o.d := if_neg (by simp [hnr])
      rw [heq] at hn
      unfold reportOf at hn
      split at hn
      · cases hn
        assumption
      · cases hn
      · cases hn
    obtain ⟨h0, hlt⟩ := hreport hnr n hd
    have hlaw := State.counter_slipIssue hn h0 hlt hself f (r.slipEnts f l bs)
    rw [hkeep (fun T => T.kGet n) (fun _ _ _ _ => rfl) (fun _ _ => rfl), hkeep Team.kE (fun _ _ _ _ => rfl) (fun _ _ => rfl)]
    have hT : r.s.team r.t = r.T := hteam r.t
    rw [← hT]
    exact hlaw
  · have hrep : (r.slipCommand f l bs).report = .ring (r.boxTeam f) f.e.off (r.slipSlot f) := if_pos hr
    rw [hkeep (fun T => T.locRead f.e.off 16) (fun _ _ _ _ => rfl) (fun _ _ => rfl), State.ring_slipIssue hrep (hres _ hu), hteam]
    rfl
  · have hdone := Run.slipHalf_done hclear h3 (r.s.core r.core).bring
    have hb : (s'.core r.core).bring = _ := (congrArg Core.bring hk').trans (if_pos h3)
    rw [hb]
    exact hdone
  · rw [hfin.team_keep Team.lbs (fun _ _ _ _ => rfl), Run.slipIssued_lbs hself]
    have hprep : (r.slipPrepared f l bs).T = { r.T with lbs := mapPut n ⟨bs, r.slipCs l, f.e20⟩ r.T.lbs } := by
      unfold Run.slipPrepared
      simp only [hn]
    rw [hprep]
    exact mapGet?_mapPut_same ..

end

end Sys2Proof.Machine

namespace Sys2Proof.Machine

/-- The checks of R70 do not look at whether helper lanes perform an instruction (R64). -/
theorem Ready.noHelps {o : Ops} {s : State} {t c : Nat} {h : Cohort} (hr : Ready o { d := .counter } s t c h) :
    Ready o { d := .counter, helps := false } s t c h := by
  obtain ⟨h1, h2, h3, h4, h5, h6, h7, h8, h9, h10, h11, h12, h13⟩ := hr
  exact ⟨h1, h2, h3, h4, h5, h6, h7, h8, h9, h10, h11, h12, h13⟩

theorem Run.slipLocks_congr {r r' : Run} (h0 : r.s0 = r'.s0) (ht : r.t = r'.t) (f : SlipForm) (x : Tlr) (cs : List Int) (rows : Option (List Int))
    (id off bytes : Nat) : r.slipLocks f x cs rows id off bytes = r'.slipLocks f x cs rows id off bytes := by
  unfold Run.slipLocks Run.boxSpace Run.T
  rw [h0, ht]

/-- The run of a copy once its lane's record has been read. -/
def slipRead (o : Ops) (s : State) (t c : Nat) (h : Cohort) (x : TlbEnt) (pa : Nat) : Run :=
  { readyRun o { d := .counter, helps := false } s t c h with s := (s.recordRead t x pa).2 }

theorem counter_of_reportFault {T : Team} {lo hi n : Nat} (h : reportFault T lo hi (.k n) = none) : n ≠ 0 := by
  rintro rfl
  simp [reportFault, Team.counterBad] at h

/-- A copy of one lane whose checks pass is issued, whatever its form (R254 to R258). -/
theorem slipRun_done {o : Ops} {f : SlipForm} {s : State} {t c : Nat} {h : Cohort} {l : Nat} {x : TlbEnt} {pa : Nat}
    (hready : Ready o { d := .counter } s t c h) (hlive : s.livePerf t c h o.g = [l])
    (hrec : s.recordAt t c l (s.srcWord t c l o o.a.op) x pa)
    (hreport : f.ring = false → reportFault (s.team t) 0x01 0x0F o.d = none ∧ ∀ n, o.d = .k n → n < 256)
    (hclear : (slipRead o s t c h x pa).SlipClear f l (s.recordRead t x pa).1) :
    ∃ s', slipRun o f s = .next s' ∧ (slipRead o s t c h x pa).SlipDone f l (s.recordRead t x pa).1 h s' := by
  have hrun := slipRun_single hready.noHelps hlive hrec (fun hr => (hreport hr).1) hclear
  have hcoh : ((slipRead o s t c h x pa).s0.course (slipRead o s t c h x pa).t (slipRead o s t c h x pa).c).coh = some h := hready.cohort
  have hread : (slipRead o s t c h x pa).s0.RecRead (slipRead o s t c h x pa).s := s.recordRead_recRead t x pa
  have hcounter : f.ring = false → ∀ n, (slipRead o s t c h x pa).o.d = .k n → n ≠ 0 ∧ n < 256 := fun hr n hn => by
    obtain ⟨hfault, hlt⟩ := hreport hr
    have hd : o.d = .k n := hn
    rw [hd] at hfault
    exact ⟨counter_of_reportFault hfault, hlt n hd⟩
  have hflt : (slipRead o s t c h x pa).flt = [] := rfl
  change slipRun o f s = .next (Run.finish { slipRead o s t c h x pa with s := (slipRead o s t c h x pa).slipIssued f l (s.recordRead t x pa).1 }) at hrun
  generalize slipRead o s t c h x pa = r at hclear hrun hcoh hread hcounter hflt
  generalize (s.recordRead t x pa).1 = bs at hclear hrun
  have hhas : r.s.HasCourse r.t r.c := by
    have h0 := State.hasCourse_of_coh hcoh
    rwa [State.HasCourse, ← hread.teams] at h0
  have hfin := Run.finish_finished (r := { r with s := r.slipIssued f l bs }) hflt (Run.slipIssued_course hhas).1
  exact ⟨_, hrun, Run.slip_done hclear hread hcoh hcounter hfin⟩

/-- What each copy instruction performs (R254). -/
theorem exec_slip {o : Ops} {ring bs : Bool} {tgt : XTgt} {lb : Nat} {e : SlipE} {i : Instr} {f : SlipForm} (s : State)
    (h : (i, f) ∈ [(Instr.slipLd o ring e, SlipForm.mk 0 ring none none e), (.slipSt o e, ⟨1, false, none, none, e⟩),
      (.slipRl o ring e, ⟨2, ring, none, none, e⟩), (.slipBs o e, ⟨3, false, none, none, e⟩),
      (.slipx o bs ring tgt e, ⟨if bs then 3 else 0, ring, some tgt, none, e⟩), (.slipc o lb e, ⟨0, false, none, some lb, e⟩)]) :
    f.e = e ∧ exec i s = slipRun o f s := by
  simp only [List.mem_cons, Prod.mk.injEq, List.not_mem_nil, or_false] at h
  rcases h with ⟨rfl, rfl⟩ | ⟨rfl, rfl⟩ | ⟨rfl, rfl⟩ | ⟨rfl, rfl⟩ | ⟨rfl, rfl⟩ | ⟨rfl, rfl⟩
  all_goals exact ⟨rfl, rfl⟩

theorem mem_pieces {n p : Nat} : p ∈ List.range ((n + 63) / 64) ↔ 64 * p < n := by
  rw [List.mem_range]
  omega

/-- Settles O37: the lane's command is prepared from its record and operands, queued, charged and locked. -/
theorem slipCopies : Obligations.SlipCopies := by
  unfold Obligations.SlipCopies
  intro o ring bs tgt lb e i f s t c h l x pa hform hready hlive T k A C rec_ id r cs rows bytes box B slot off half area es hrec hbads hagrees
    htgt hcoords haligned hshort hinside hinHalf hmember hring hreport hhalf hlocks
  obtain ⟨rfl, hexec⟩ := exec_slip s hform
  have hclear : (slipRead o s t c h x pa).SlipClear f l rec_ := {
    record := hbads
    agrees := hagrees
    target := htgt
    coords := hcoords
    aligned := haligned
    short := hshort
    inside := hinside
    inHalf := hinHalf
    member := hmember
    ring := hring
    counter := fun hr n hn => ((hreport hr).2 n hn).2
    half := hhalf
    locks := by
      rw [← hlocks]
      exact congrArg (locksFree k) (Run.slipLocks_congr rfl rfl ..) }
  obtain ⟨s', hrun, hdone⟩ := slipRun_done hready hlive hrec (fun hr => ⟨(hreport hr).1, fun n hn => ((hreport hr).2 n hn).1⟩) hclear
  obtain ⟨hcoh, hflights, hid, hslips, hlocked, habsent, hcounter, hslot, hstore, hlbs⟩ := hdone
  refine ⟨s', (slipRead o s t c h x pa).slipCommand f l rec_, hexec.trans hrun, hcoh, hflights, hid, hslips, rfl, rfl, rfl, rfl, rfl, rfl, rfl, rfl, rfl,
    rfl, rfl, rfl, fun p => mem_pieces, rfl, rfl, rfl, rfl, rfl, fun y hy => hlocked y ?_, habsent, hcounter, hslot, hstore, hlbs⟩
  have hes : es = (slipRead o s t c h x pa).slipEnts f l rec_ := Run.slipLocks_congr rfl rfl ..
  rwa [← hes]

end Sys2Proof.Machine

namespace Sys2Proof.Machine

/-! ## A command on its core (R256) -/

/-- The command with a number stands on a core, and is the one that the number finds. -/
structure State.SlipAt (s : State) (id core : Nat) (c : SlipCmd) : Prop where
  found : s.slip? id = some (core, c)
  here : (s.core core).slips.find? (fun x => x.id == id) = some c

theorem findSome_mapPut {id core : Nat} {c c' : SlipCmd} {k' : Core} (hk : k'.slips.find? (fun x => x.id == id) = some c') {l : List (Nat × Core)}
    (h : l.findSome? (fun p => (p.2.slips.find? (fun x => x.id == id)).map (fun c => (p.1, c))) = some (core, c)) :
    (mapPut core k' l).findSome? (fun p => (p.2.slips.find? (fun x => x.id == id)).map (fun c => (p.1, c))) = some (core, c') := by
  induction l with
  | nil => cases h
  | cons p l ih =>
    obtain ⟨j, w⟩ := p
    unfold mapPut
    split
    · simp [hk]
    · split
      · simp [hk]
      · rename_i hj _
        rw [List.findSome?_cons] at h ⊢
        cases hw : w.slips.find? (fun x => x.id == id) with
        | none =>
          simp only [hw, Option.map_none] at h ⊢
          exact ih h
        | some x =>
          simp only [hw, Option.map_some, Option.some.injEq, Prod.mk.injEq] at h
          exact absurd h.1 hj

theorem State.SlipAt.modCore {s : State} {id core : Nat} {c c' : SlipCmd} (h : s.SlipAt id core c) {f : Core → Core}
    (hf : (f (s.core core)).slips.find? (fun x => x.id == id) = some c') : (s.modCore core f).SlipAt id core c' :=
  ⟨findSome_mapPut hf h.found, by rw [State.core_modCore_same]; exact hf⟩

/-- A change of the core that leaves its commands as they are. -/
theorem State.SlipAt.modCore_keep {s : State} {id core : Nat} {c : SlipCmd} (h : s.SlipAt id core c) {f : Core → Core}
    (hf : ∀ k, (f k).slips = k.slips) : (s.modCore core f).SlipAt id core c :=
  h.modCore (by rw [hf]; exact h.here)

theorem State.SlipAt.of_cores {s w : State} {id core : Nat} {c : SlipCmd} (h : s.SlipAt id core c) (hw : w.cores = s.cores) : w.SlipAt id core c := by
  obtain ⟨hfound, hhere⟩ := h
  rw [State.slip?, ← hw] at hfound
  rw [State.core, ← hw] at hhere
  exact ⟨hfound, hhere⟩

theorem State.SlipAt.modTeam {s : State} {id core : Nat} {c : SlipCmd} (h : s.SlipAt id core c) (t : Nat) (f : Team → Team) :
    (s.modTeam t f).SlipAt id core c :=
  h.of_cores (State.modTeam_keep State.cores (fun _ _ => rfl) s t f)

theorem State.SlipAt.id_eq {s : State} {id core : Nat} {c : SlipCmd} (h : s.SlipAt id core c) : c.id = id :=
  eq_of_beq (List.find?_some (p := fun x : SlipCmd => x.id == id) h.here)

theorem find_map_slip {id : Nat} {c : SlipCmd} {f : SlipCmd → SlipCmd} (hf : (f c).id = id) {l : List SlipCmd}
    (h : l.find? (fun x => x.id == id) = some c) : (l.map (fun x => if x.id == id then f x else x)).find? (fun x => x.id == id) = some (f c) := by
  induction l with
  | nil => cases h
  | cons x l ih =>
    rw [List.find?_cons] at h
    rw [List.map_cons, List.find?_cons]
    cases hx : x.id == id with
    | true =>
      rw [hx] at h
      cases h
      simp [hf]
    | false =>
      rw [hx] at h
      simp only [Bool.false_eq_true, if_false, hx]
      exact ih h

theorem State.SlipAt.modSlip {s : State} {id core : Nat} {c : SlipCmd} (h : s.SlipAt id core c) {f : SlipCmd → SlipCmd} (hf : (f c).id = id) :
    (s.modSlip core id f).SlipAt id core (f c) :=
  h.modCore (find_map_slip hf h.here)

/-! ## Bytes land (R26) -/

/-- A counter of a team has gone down by some bytes; it is full exactly once it is 0 (R26). -/
def Team.Lowered (T T' : Team) (r : Report) (n : Nat) : Prop :=
  ∀ k, r = .counter k → k ≠ 0 → T'.kGet k = T.kGet k - wordOf n ∧ (n ≠ 0 → eGet T'.kE k = (decide (k < 256) && T.kGet k - wordOf n != 0))

theorem Team.kCount_kE (T : Team) (k : Nat) (x : Word) : eGet (T.kCount k x).kE k = (decide (k < 256) && x != 0) := by
  change eGet (if x = 0 then eClr T.kE k else eSet T.kE k) k = _
  split
  · simp [eGet, eClr, ‹x = 0›]
  · by_cases hk : k < 256
    · rw [eGet_eSet _ hk]
      simpa [hk] using ‹¬x = 0›
    · rw [eGet, BitVec.getLsbD_of_ge _ _ (Nat.not_lt.1 hk)]
      simp [hk]

theorem State.landed_lowered {s : State} {t : Nat} (ht : (mapGet? t s.teams).isSome = true) (r : Report) (n : Nat) :
    (s.team t).Lowered ((s.landed t r n).team t) r n := by
  rintro k rfl hk
  unfold State.landed
  dsimp only
  split
  · rename_i hn
    subst hn
    exact ⟨(BitVec.sub_zero _).symm, fun h => absurd rfl h⟩
  · obtain ⟨T, hT⟩ := Option.isSome_iff_exists.1 ht
    rw [State.countSub, State.team_modTeam_same hT]
    refine ⟨?_, fun _ => Team.kCount_kE ..⟩
    rw [Team.kGet, if_neg hk]
    exact mapGet_mapPut_same 0 k _ (s.team t).k

theorem State.landed_keep {α : Type} (g : State → α) (ht : ∀ w t, g { w with teams := t } = g w) (s : State) (t : Nat) (r : Report) (n : Nat) :
    g (s.landed t r n) = g s := by
  unfold State.landed
  split
  · split
    · rfl
    · exact State.modTeam_keep g ht ..
  · rfl

theorem State.team_landed_keep {α : Type} (g : Team → α) (hk : ∀ T k kE named, g { T with k := k, kE := kE, named := named } = g T)
    (s : State) (t : Nat) (r : Report) (n u : Nat) : g ((s.landed t r n).team u) = g (s.team u) := by
  unfold State.landed
  split
  · split
    · rfl
    · exact State.team_modTeam_keep g s t _ (fun T => hk ..) u
  · rfl

theorem State.team_landed_ne (s : State) {t u : Nat} (h : u ≠ t) (r : Report) (n : Nat) : (s.landed t r n).team u = s.team u := by
  unfold State.landed
  split
  · split
    · rfl
    · exact State.team_modTeam_ne s h _
  · rfl

end Sys2Proof.Machine

namespace Sys2Proof.Machine

/-! ## Halves of the B store are handed out (R271, R297) -/

/-- What handing out halves does: accesses that wait for one are served, a loop's team holds one, and of the core the B store and the Wheel's
queue change. -/
structure State.HalvesServed (s : State) (core : Nat) (s' : State) : Prop where
  rest : { s' with teams := s.teams, cores := s.cores, flights := s.flights } = s
  team : ∀ u, ∃ h, s'.team u = { s.team u with wheelHalf := h }
  unit : ∃ b w, s'.core core = { s.core core with bring := b, wheel := w }
  slip : ∀ id c, s.SlipAt id core c → s'.SlipAt id core c
  resident : ∀ u, (mapGet? u s.teams).isSome = true → (mapGet? u s'.teams).isSome = true

theorem State.HalvesServed.rfl {s : State} {core : Nat} : s.HalvesServed core s :=
  ⟨Eq.refl _, fun u => ⟨(s.team u).wheelHalf, Eq.refl _⟩, ⟨(s.core core).bring, (s.core core).wheel, Eq.refl _⟩, fun _ _ h => h, fun _ h => h⟩

theorem State.HalvesServed.trans {s u w : State} {core : Nat} (h : s.HalvesServed core u) (h' : u.HalvesServed core w) : s.HalvesServed core w := by
  obtain ⟨hrest, hteam, ⟨b, v, hcore⟩, hslip, hres⟩ := h
  obtain ⟨hrest', hteam', ⟨b', v', hcore'⟩, hslip', hres'⟩ := h'
  refine ⟨?_, fun x => ?_, ⟨b', v', by rw [hcore', hcore]⟩, fun id c hc => hslip' id c (hslip id c hc), fun u hu => hres' u (hres u hu)⟩
  · have hw : { w with teams := s.teams, cores := s.cores, flights := s.flights } = { u with teams := s.teams, cores := s.cores, flights := s.flights } :=
      (congrArg (fun x : State => { x with teams := s.teams, cores := s.cores, flights := s.flights }) hrest' :)
    exact hw.trans hrest
  · obtain ⟨d, hd⟩ := hteam x
    obtain ⟨e, he⟩ := hteam' x
    exact ⟨e, by rw [he, hd]⟩

theorem State.halvesServed_modCore (s : State) (core : Nat) {f : Core → Core} (hf : ∀ k, ∃ b w, f k = { k with bring := b, wheel := w }) :
    s.HalvesServed core (s.modCore core f) := by
  refine ⟨Eq.refl s, fun u => ⟨(s.team u).wheelHalf, rfl⟩, ?_, fun id c h => h.modCore_keep (fun k => ?_), fun _ h => h⟩
  · obtain ⟨b, w, hbw⟩ := hf (s.core core)
    exact ⟨b, w, by rw [State.core_modCore_same, hbw]⟩
  · obtain ⟨b, w, hbw⟩ := hf k
    rw [hbw]

theorem State.halvesServed_modFlight (s : State) (core id : Nat) (f : Flight → Flight) : s.HalvesServed core (s.modFlight id f) :=
  ⟨rfl, fun u => ⟨(s.team u).wheelHalf, rfl⟩, ⟨(s.core core).bring, (s.core core).wheel, rfl⟩, fun _ _ h => h.of_cores rfl, fun _ h => h⟩

theorem State.halvesServed_holds (s : State) (core t : Nat) (h : Option Nat) :
    s.HalvesServed core (s.modTeam t (fun T => { T with wheelHalf := h })) := by
  refine ⟨?_, fun u => ?_, ⟨(s.core core).bring, (s.core core).wheel, by rw [State.core_modTeam]⟩, fun _ _ hs => hs.modTeam ..,
    fun u hu => State.resident_modTeam hu ..⟩
  · exact State.modTeam_keep (fun w : State => { w with teams := s.teams, cores := s.cores, flights := s.flights }) (fun _ _ => rfl) s t _
  · by_cases hu : u = t
    · subst hu
      cases hfound : mapGet? u s.teams with
      | none => exact ⟨(s.team u).wheelHalf, by rw [State.modTeam, hfound]⟩
      | some T => exact ⟨h, State.team_modTeam_same hfound _⟩
    · exact ⟨(s.team u).wheelHalf, State.team_modTeam_ne s hu _⟩

theorem State.giveLoop_halvesServed (s : State) (core h : Nat) : s.HalvesServed core (s.giveLoop core h) := by
  unfold State.giveLoop
  split
  · exact .rfl
  · exact (s.halvesServed_modCore core (fun k => ⟨k.bring, _, rfl⟩)).trans (State.halvesServed_holds ..)

theorem State.serveHalves_halvesServed (s : State) (core fuel : Nat) : s.HalvesServed core (s.serveHalves core fuel) := by
  induction fuel generalizing s with
  | zero => exact .rfl
  | succ fuel ih =>
    unfold State.serveHalves
    extract_lets k b h take v give
    have htake : s.HalvesServed core (take s) := s.halvesServed_modCore core (fun k => ⟨_, k.wheel, rfl⟩)
    have hgive : ∀ f, s.HalvesServed core (give f) := fun f => htake.trans (State.halvesServed_modFlight ..)
    have hloop : s.HalvesServed core ((take s).giveLoop core h) := htake.trans (State.giveLoop_halvesServed ..)
    split
    · exact .rfl
    · split
      · exact .rfl
      · exact (hgive _).trans (ih _)
      · exact hloop.trans (ih _)
      · refine State.HalvesServed.trans ?_ (ih _)
        split
        · exact hgive _
        · exact hloop

theorem State.fullHalf_halvesServed (s : State) (core h : Nat) : s.HalvesServed core (s.fullHalf core h) := by
  unfold State.fullHalf
  dsimp only
  split
  · exact (s.halvesServed_modCore core (fun k => ⟨_, k.wheel, rfl⟩)).trans (State.serveHalves_halvesServed ..)
  · exact .rfl

theorem State.halfLanded_halvesServed (s : State) (core : Nat) (c : SlipCmd) : s.HalvesServed core (s.halfLanded core c) := by
  unfold State.halfLanded
  split
  · split
    · exact s.fullHalf_halvesServed ..
    · exact .rfl
  · exact .rfl

theorem State.halfLanded_of_ne {c : SlipCmd} (h : ∀ b, c.dst ≠ .bst b) (s : State) (core : Nat) : s.halfLanded core c = s := by
  unfold State.halfLanded
  split
  · exact absurd ‹_› (h _)
  · rfl

end Sys2Proof.Machine

namespace Sys2Proof.Machine

/-! ## A piece has landed (R26, R28, R261) -/

/-- A command without a piece that has landed. -/
def SlipCmd.less (c : SlipCmd) (p : Nat) : SlipCmd :=
  { c with todo := c.rest p, landing := c.landing.filter (fun x => x.1 != p), refusals := c.refusals.filter (· != p) }

/-- The lines that only a landed piece was still to write (R28). -/
def SlipCmd.newLines (c : SlipCmd) (p : Nat) : List Nat :=
  (c.linesAt (64 * p) (c.span p).length).filter (fun x => !((c.less p).todo.flatMap (fun q => c.linesAt (64 * q) (c.span q).length)).contains x)

/-- Lines that a command has written are present in the team that it writes (R28). -/
def State.slipPresent (s : State) (c : SlipCmd) (ls : List Nat) : State :=
  match c.dstTeam with
  | none => s
  | some t => s.modTeam t (·.setLines ls)

theorem State.pieceLanded_eq (s : State) (core : Nat) (c : SlipCmd) (p : Nat) : s.pieceLanded core c p =
    ((((s.modSlip core c.id (fun _ => c.less p)).landed c.team c.report (c.unlanded - (c.less p).unlanded)).halfLanded core (c.less p)).unlockSlip core
      (c.less p)).slipPresent c (c.newLines p) := rfl

section Present
variable {α : Type}

theorem State.slipPresent_keep (g : State → α) (ht : ∀ w t, g { w with teams := t } = g w) (s : State) (c : SlipCmd) (ls : List Nat) :
    g (s.slipPresent c ls) = g s := by
  unfold State.slipPresent
  split
  · rfl
  · exact State.modTeam_keep g ht ..

theorem State.team_slipPresent_keep (g : Team → α) (ha : ∀ T l, g { T with absent := l } = g T) (s : State) (c : SlipCmd) (ls : List Nat) (u : Nat) :
    g ((s.slipPresent c ls).team u) = g (s.team u) := by
  unfold State.slipPresent
  split
  · rfl
  · exact State.team_modTeam_keep g s _ _ (fun T => ha ..) u

theorem State.unlockSlip_keep (g : State → α) (hk : ∀ w k, g { w with cores := k } = g w) (s : State) (core : Nat) (c : SlipCmd) :
    g (s.unlockSlip core c) = g s := by
  unfold State.unlockSlip
  split
  · exact hk ..
  · rfl

end Present

theorem State.team_slipPresent_ne {c : SlipCmd} {t : Nat} (h : c.dstTeam ≠ some t) (s : State) (ls : List Nat) :
    (s.slipPresent c ls).team t = s.team t := by
  unfold State.slipPresent
  split
  · rfl
  · rename_i u hu
    exact State.team_modTeam_ne s (fun htu => h (hu.trans (congrArg some htu.symm))) _

theorem State.absent_slipPresent {c : SlipCmd} {t : Nat} (h : c.dstTeam = some t) (s : State) (ls : List Nat) :
    ((s.slipPresent c ls).team t).absent = (s.team t).absent.filter (fun x => !ls.contains x) := by
  unfold State.slipPresent
  rw [h]
  dsimp only
  cases hfound : mapGet? t s.teams with
  | none =>
    have hblank : s.team t = Team.blank := by rw [State.team, mapGet, hfound]; rfl
    have hsame : s.modTeam t (·.setLines ls) = s := by rw [State.modTeam, hfound]
    rw [hsame, hblank]
    rfl
  | some T =>
    rw [State.team_modTeam_same hfound]
    rfl

theorem State.SlipAt.unlockSlip {s : State} {id core : Nat} {c : SlipCmd} (h : s.SlipAt id core c) (d : SlipCmd) : (s.unlockSlip core d).SlipAt id core c := by
  unfold State.unlockSlip
  split
  · exact h.modCore_keep (fun _ => rfl)
  · exact h

theorem State.SlipAt.slipPresent {s : State} {id core : Nat} {c : SlipCmd} (h : s.SlipAt id core c) (d : SlipCmd) (ls : List Nat) :
    (s.slipPresent d ls).SlipAt id core c := h.of_cores (State.slipPresent_keep State.cores (fun _ _ => rfl) s d ls)

/-- What the landing of a piece leaves, beside the bytes themselves. -/
structure State.PieceDone (s : State) (core : Nat) (c : SlipCmd) (p : Nat) (s' : State) : Prop where
  rest : { s' with teams := s.teams, cores := s.cores, flights := s.flights } = s
  flights : (∀ h, c.dst ≠ .bst h) → s'.flights = s.flights
  slip : ∀ c0, s.SlipAt c.id core c0 → s'.SlipAt c.id core (c.less p)
  lowered : (mapGet? c.team s.teams).isSome = true → (s.team c.team).Lowered (s'.team c.team) c.report (c.unlanded - (c.less p).unlanded)
  absent : ∀ t, c.dstTeam = some t → (s'.team t).absent = (s.team t).absent.filter (fun x => !(c.newLines p).contains x)
  others : (∀ h, c.dst ≠ .bst h) → ∀ t, t ≠ c.team → c.dstTeam ≠ some t → s'.team t = s.team t

/-- What of a team the landing of a piece keeps. -/
theorem State.team_pieceLanded_keep {α : Type} (g : Team → α) (hk : ∀ T k kE named, g { T with k := k, kE := kE, named := named } = g T)
    (ha : ∀ T l, g { T with absent := l } = g T) (hw : ∀ T h, g { T with wheelHalf := h } = g T) (s : State) (core : Nat) (c : SlipCmd) (p u : Nat) :
    g ((s.pieceLanded core c p).team u) = g (s.team u) := by
  rw [State.pieceLanded_eq, State.team_slipPresent_keep g ha, State.unlockSlip_keep (fun w => w.team u) (fun _ _ => rfl)]
  obtain ⟨h, hh⟩ := (((s.modSlip core c.id (fun _ => c.less p)).landed c.team c.report (c.unlanded - (c.less p).unlanded)).halfLanded_halvesServed core
    (c.less p)).team u
  rw [hh, hw]
  exact State.team_landed_keep g hk ..

/-- A piece has landed, and its core has handed out a half that it fills; its lines are not yet present. -/
def State.pieceCounted (s : State) (core : Nat) (c : SlipCmd) (p : Nat) : State :=
  (((s.modSlip core c.id (fun _ => c.less p)).landed c.team c.report (c.unlanded - (c.less p).unlanded)).halfLanded core (c.less p)).unlockSlip core
    (c.less p)

theorem State.modTeam_teams_congr {s w : State} (h : s.teams = w.teams) (t : Nat) (f : Team → Team) :
    (s.modTeam t f).teams = (w.modTeam t f).teams := by
  unfold State.modTeam
  rw [h]
  split
  · exact h
  · rfl

theorem State.team_pieceCounted (s : State) (core : Nat) (c : SlipCmd) (p u : Nat) : ∃ h, (s.pieceCounted core c p).team u =
    { (s.landed c.team c.report (c.unlanded - (c.less p).unlanded)).team u with wheelHalf := h } := by
  obtain ⟨h, hh⟩ := (((s.modSlip core c.id (fun _ => c.less p)).landed c.team c.report (c.unlanded - (c.less p).unlanded)).halfLanded_halvesServed core
    (c.less p)).team u
  have hslip : ((s.modSlip core c.id (fun _ => c.less p)).landed c.team c.report (c.unlanded - (c.less p).unlanded)).teams =
      (s.landed c.team c.report (c.unlanded - (c.less p).unlanded)).teams := by
    unfold State.landed
    split
    · split
      · rfl
      · exact State.modTeam_teams_congr (s := s.modSlip core c.id (fun _ => c.less p)) (w := s) rfl ..
    · rfl
  have hteam : ((s.modSlip core c.id (fun _ => c.less p)).landed c.team c.report (c.unlanded - (c.less p).unlanded)).team u =
      (s.landed c.team c.report (c.unlanded - (c.less p).unlanded)).team u := by rw [State.team, State.team, hslip]
  refine ⟨h, ?_⟩
  unfold State.pieceCounted
  rw [State.unlockSlip_keep (fun w => w.team u) (fun _ _ => rfl), hh, hteam]

theorem State.pieceLanded_done (s : State) (core : Nat) (c : SlipCmd) (p : Nat) : s.PieceDone core c p (s.pieceLanded core c p) := by
  have heq : s.pieceLanded core c p = (s.pieceCounted core c p).slipPresent c (c.newLines p) := State.pieceLanded_eq ..
  have hhalves := ((s.modSlip core c.id (fun _ => c.less p)).landed c.team c.report (c.unlanded - (c.less p).unlanded)).halfLanded_halvesServed core
    (c.less p)
  have hteam := s.team_pieceCounted core c p
  have hunlock : ∀ {α : Type} (g : State → α), (∀ w k, g { w with cores := k } = g w) → g (s.pieceCounted core c p) =
      g (((s.modSlip core c.id (fun _ => c.less p)).landed c.team c.report (c.unlanded - (c.less p).unlanded)).halfLanded core (c.less p)) :=
    fun g hg => State.unlockSlip_keep g hg ..
  rw [heq]
  refine ⟨?_, fun hd => ?_, fun c0 h => ?_, fun ht => ?_, fun t hd => ?_, fun hd t hne hdt => ?_⟩
  · refine (State.slipPresent_keep (fun x : State => { x with teams := s.teams, cores := s.cores, flights := s.flights }) (fun _ _ => rfl) ..).trans ?_
    refine (hunlock (fun x : State => { x with teams := s.teams, cores := s.cores, flights := s.flights }) (fun _ _ => rfl)).trans ?_
    refine ((congrArg (fun x : State => { x with teams := s.teams, cores := s.cores, flights := s.flights }) hhalves.rest :)).trans ?_
    exact State.landed_keep (fun x : State => { x with teams := s.teams, cores := s.cores, flights := s.flights }) (fun _ _ => rfl) ..
  · rw [State.slipPresent_keep State.flights (fun _ _ => rfl), hunlock State.flights (fun _ _ => rfl), State.halfLanded_of_ne (c := c.less p) hd]
    exact State.landed_keep State.flights (fun _ _ => rfl) ..
  · have hless : (s.modSlip core c.id (fun _ => c.less p)).SlipAt c.id core (c.less p) := h.modSlip rfl
    have hlanded := hless.of_cores (State.landed_keep State.cores (fun _ _ => rfl) _ c.team c.report (c.unlanded - (c.less p).unlanded))
    exact ((hhalves.slip _ _ hlanded).unlockSlip _).slipPresent _ _
  · intro k hr hk
    obtain ⟨h, hh⟩ := hteam c.team
    rw [State.team_slipPresent_keep (fun T => T.kGet k) (fun _ _ => rfl), State.team_slipPresent_keep Team.kE (fun _ _ => rfl), hh]
    exact State.landed_lowered ht _ _ k hr hk
  · obtain ⟨h, hh⟩ := hteam t
    rw [State.absent_slipPresent hd, hh]
    refine congrArg (List.filter _) ?_
    exact State.team_landed_keep Team.absent (fun _ _ _ _ => rfl) ..
  · rw [State.team_slipPresent_ne hdt, hunlock (fun w => w.team t) (fun _ _ => rfl), State.halfLanded_of_ne (c := c.less p) hd,
      State.team_landed_ne _ hne]
    rfl

end Sys2Proof.Machine

namespace Sys2Proof.Machine

/-! ## Bytes of a command that have not landed (R26) -/

theorem foldl_add_eq_sum (l : List Nat) : l.foldl (· + ·) 0 = l.sum := List.sum_eq_foldl.symm

theorem SlipCmd.unlanded_eq (c : SlipCmd) : c.unlanded = (c.todo.map (fun p => (c.writes p).length +
    (if c.dir = 1 then ((c.span p).filter (fun b => (c.outAddr b).isNone)).length else 0))).sum + (c.landing.map (fun x => (c.writes x.1).length)).sum := by
  unfold SlipCmd.unlanded SlipCmd.share SlipCmd.unwritten
  rw [foldl_add_eq_sum, foldl_add_eq_sum]

/-! ## A copy completes (R29, R262, R264) -/

/-- The state without a command and its locks. -/
def State.slipGone (s : State) (core id : Nat) : State :=
  s.modCore core (fun k => { k.dropLocks id with slips := k.slips.filter (fun x => x.id != id) })

theorem copyComplete_exec {s : State} {id core : Nat} {c : SlipCmd} (h : s.SlipAt id core c) (hdue : c.completeDue = true) :
    exec (.copyComplete id) s = .next (s.completeSlip core c) := by
  change execCopyComplete id s = _
  simp only [execCopyComplete, h.found, hdue, if_true]

theorem State.completeSlip_ring {c : SlipCmd} {t hdr slot : Nat} (hr : c.report = .ring t hdr slot) (s : State) (core : Nat) :
    s.completeSlip core c = (s.slipGone core c.id).fillSlot c t hdr slot := by
  simp only [State.completeSlip, hr]
  rfl

theorem State.completeSlip_plain {c : SlipCmd} (hr : ∀ t hdr slot, c.report ≠ .ring t hdr slot) (s : State) (core : Nat) :
    s.completeSlip core c = s.slipGone core c.id := by
  unfold State.completeSlip
  dsimp only
  split
  · exact absurd ‹_› (hr _ _ _)
  · rfl

theorem State.serveRing_none {s : State} {t hdr : Nat} (h : s.ringWaiters t hdr = []) (fuel : Nat) : s.serveRing t hdr fuel = s := by
  cases fuel with
  | zero => rfl
  | succ fuel =>
    unfold State.serveRing
    rw [h]

theorem copyComplete_cases {s : State} {id core : Nat} {c : SlipCmd} (h : s.SlipAt id core c) (hdue : c.completeDue = true) :
    let gone := s.modCore core (fun k => { k.dropLocks id with slips := k.slips.filter (fun x => x.id != id) })
    ((∀ t hdr slot, c.report ≠ .ring t hdr slot) → exec (.copyComplete id) s = .next gone) ∧
    (∀ t hdr slot, c.report = .ring t hdr slot → (s.team t).locBad hdr 64 = false → (s.team t).ringOk hdr = true →
      bitN ((s.team t).ringRes hdr) slot = true → s.ringWaiters t hdr = [] →
      exec (.copyComplete id) s = .next (gone.modTeam t (fun T => { T.ringFilled hdr slot c.err c.xov with
        ringScope := mapPut (slotKey hdr slot) c.tlr.scope T.ringScope }))) ∧
    (∀ t hdr slot, c.report = .ring t hdr slot → (s.team t).locBad hdr 64 = false →
      (s.team t).ringOk hdr = false ∨ bitN ((s.team t).ringRes hdr) slot = false →
      exec (.copyComplete id) s = .next (gone.deferAt c.team c.crs c.lane id 0x10 0x13 (wordOf hdr) c.ipc)) ∧
    (∀ t hdr slot, c.report = .ring t hdr slot → (s.team t).locBad hdr 64 = true →
      exec (.copyComplete id) s = .next (gone.deferAt c.team c.crs c.lane id 0x17 0x85 (wordOf hdr) c.ipc)) := by
  have hexec := copyComplete_exec h hdue
  have hid := h.id_eq
  have hteam : ∀ t, (s.slipGone core id).team t = s.team t := fun _ => rfl
  intro gone
  have hgone : gone = s.slipGone core id := rfl
  clear_value gone
  subst hgone
  refine ⟨fun hr => ?_, fun t hdr slot hr hbad hok hres hwait => ?_, fun t hdr slot hr hbad hbroken => ?_, fun t hdr slot hr hbad => ?_⟩
  · rw [hexec, State.completeSlip_plain hr, hid]
  · have hfill : (s.slipGone core id).fillSlot c t hdr slot = (s.slipGone core id).modTeam t (fun T => { T.ringFilled hdr slot c.err c.xov with
        ringScope := mapPut (slotKey hdr slot) c.tlr.scope T.ringScope }) := by
      unfold State.fillSlot
      rw [hteam, if_neg (by simp [hbad]), if_neg (by simp [hok, hres])]
      refine State.serveRing_none ?_ 16
      exact (State.modTeam_keep (fun w => w.ringWaiters t hdr) (fun _ _ => rfl) ..).trans hwait
    rw [hexec, State.completeSlip_ring hr, hid, hfill]
  · have hfill : (s.slipGone core id).fillSlot c t hdr slot = (s.slipGone core id).deferAt c.team c.crs c.lane id 0x10 0x13 (wordOf hdr) c.ipc := by
      unfold State.fillSlot
      rw [hteam, if_neg (by simp [hbad]), if_pos (by rcases hbroken with hb | hb <;> simp [hb]), hid]
    rw [hexec, State.completeSlip_ring hr, hid, hfill]
  · have hfill : (s.slipGone core id).fillSlot c t hdr slot = (s.slipGone core id).deferAt c.team c.crs c.lane id 0x17 0x85 (wordOf hdr) c.ipc := by
      unfold State.fillSlot
      rw [hteam, if_pos hbad, hid]
    rw [hexec, State.completeSlip_ring hr, hid, hfill]

/-- The entry of a copy is pushed once the team's pool has room (R262). -/
theorem completionPortPush_room {s : State} {id core : Nat} {c : SlipCmd} (h : s.SlipAt id core c) {n : Nat} (hr : c.report = .port n)
    (hover : c.isOver = true) (hpushed : c.pushed = false) (hroom : (s.team c.team).poolUsed 0x01 0x0F < 64) : exec (.completionPortPush id) s =
      .next ((s.portPush c.team n (portEntry c.status c.tlr.scope)).modSlip core id (fun c => { c with pushed := true })) := by
  have hdue : s.slipPushDue c = true := by simp [State.slipPushDue, hover, hpushed, hr, hroom]
  change execCompletionPortPush id s = _
  simp only [execCompletionPortPush, h.found, hr, hdue, if_true]

/-! ## A stalled copy walks again (R277) -/

theorem State.SlipAt.modWheel {s : State} {id core : Nat} {c : SlipCmd} (h : s.SlipAt id core c) (w : Nat) (f : WCmd → WCmd) :
    (s.modWheel core w f).SlipAt id core c := h.modCore_keep (fun _ => rfl)

theorem State.SlipAt.modCil {s : State} {id core : Nat} {c : SlipCmd} (h : s.SlipAt id core c) (w : Nat) (f : CilCmd → CilCmd) :
    (s.modCil core w f).SlipAt id core c := h.modCore_keep (fun _ => rfl)

theorem State.SlipAt.setStall {s : State} {id core : Nat} {c : SlipCmd} (h : s.SlipAt id core c) (x : Option (Nat × Nat × Word)) :
    (s.setStall core id x).SlipAt id core { c with stall := x } := by
  have hslip : (s.modSlip core id (fun c => { c with stall := x })).SlipAt id core { c with stall := x } := h.modSlip (f := fun c => { c with stall := x }) h.id_eq
  exact (hslip.modWheel id _).modCil id _

theorem stalled_cases {s : State} {id core : Nat} {c : SlipCmd} (h : s.SlipAt id core c) {first last : Nat} {addr : Word}
    (hstall : s.stalled? id = some ⟨core, c.eng s core, if c.dir = 1 then .store else .load, first, last, addr⟩)
    (hwheel : ∀ w ∈ (s.core core).wheel, w.id ≠ id) (hcoil : ∀ w ∈ (s.core core).coil.queue, w.id ≠ id) :
    let bad := s.engTr (c.eng s core) addr (if c.dir = 1 then .store else .load) = .bad 0x09
    let now := s.cycle (core / 12)
    (bad → exec (.slipTranslationRewalk id) s = .next (s.setStall core id (some (first, now, addr)))) ∧
    (¬bad → exec (.slipTranslationRewalk id) s = .next (s.setStall core id none)) ∧
    (bad → first + 2 ^ 20 ≤ now → exec (.slipStallTimeout id) s =
      .next ((s.setStall core id none).modSlip core id (fun c => { c with fail := some (0x09, addr) }))) ∧
    ∀ x, (s.setStall core id x).slip? id = some (core, { c with stall := x }) := by
  intro bad now
  have hrewalk : exec (.slipTranslationRewalk id) s = .next (s.setStall core id
      (if s.stillBad ⟨core, c.eng s core, if c.dir = 1 then .store else .load, first, last, addr⟩ then some (first, now, addr) else none)) := by
    change execSlipTranslationRewalk id s = _
    unfold execSlipTranslationRewalk
    rw [hstall]
    rfl
  have hstill : s.stillBad ⟨core, c.eng s core, if c.dir = 1 then .store else .load, first, last, addr⟩ = true ↔ bad := beq_iff_eq
  refine ⟨fun hbad => ?_, fun hbad => ?_, fun hbad hlate => ?_, fun x => (h.setStall x).found⟩
  · rw [hrewalk, if_pos (hstill.2 hbad)]
  · rw [hrewalk, if_neg (fun h' => hbad (hstill.1 h'))]
  · have hover : s.stallOver ⟨core, c.eng s core, if c.dir = 1 then .store else .load, first, last, addr⟩ = true := by
      rw [State.stallOver, hstill.2 hbad, Bool.true_and]
      exact decide_eq_true hlate
    have hnowheel : (s.core core).wheel.find? (fun w => w.id == id) = none := List.find?_eq_none.2 (fun w hw => by simpa using hwheel w hw)
    have hnocoil : (s.core core).coil.queue.find? (fun w => w.id == id) = none := List.find?_eq_none.2 (fun w hw => by simpa using hcoil w hw)
    change execSlipStallTimeout id s = _
    unfold execSlipStallTimeout
    rw [hstall]
    dsimp only
    rw [if_pos hover]
    unfold State.endStall
    simp only [hnowheel, hnocoil]

end Sys2Proof.Machine

namespace Sys2Proof.Machine

/-! ## A copy is abandoned (R27, R278) -/

/-- A command that has been given up. -/
def SlipCmd.dropped (c : SlipCmd) : SlipCmd := { c with err := true, todo := [], landing := [], stall := none, fail := none }

/-- A command is given up: what is left counts as landed, its locks go, and its lines are present. -/
def State.slipDropped (s : State) (core : Nat) (c : SlipCmd) : State :=
  (((s.landed c.team c.report c.unlanded).modSlip core c.id (fun _ => c.dropped)).modCore core (fun k => k.dropLocks c.id)).slipPresent c (c.linesAt 0 c.bytes)

theorem State.dropSlip_halvesServed (s : State) (core : Nat) (c : SlipCmd) : (s.slipDropped core c).HalvesServed core (s.dropSlip core c) := by
  unfold State.dropSlip
  dsimp only
  split
  · exact ((s.slipDropped core c).halvesServed_modCore core (fun k => ⟨_, k.wheel, rfl⟩)).trans (State.halfLanded_halvesServed ..)
  · exact .rfl

theorem State.dropSlip_of_ne {c : SlipCmd} (h : ∀ b, c.dst ≠ .bst b) (s : State) (core : Nat) : s.dropSlip core c = s.slipDropped core c := by
  unfold State.dropSlip
  dsimp only
  split
  · exact absurd ‹_› (h _)
  · rfl

theorem State.slipDropped_keep {α : Type} (g : State → α) (ht : ∀ w t, g { w with teams := t } = g w) (hk : ∀ w k, g { w with cores := k } = g w)
    (s : State) (core : Nat) (c : SlipCmd) : g (s.slipDropped core c) = g s :=
  (State.slipPresent_keep g ht ..).trans ((hk ..).trans ((hk ..).trans (State.landed_keep g ht ..)))

theorem State.team_slipDropped_keep {α : Type} (g : Team → α) (ha : ∀ T l, g { T with absent := l } = g T) (s : State) (core : Nat) (c : SlipCmd)
    (u : Nat) : g ((s.slipDropped core c).team u) = g ((s.landed c.team c.report c.unlanded).team u) :=
  State.team_slipPresent_keep g ha ..

theorem State.SlipAt.slipDropped {s : State} {core : Nat} {c : SlipCmd} (h : s.SlipAt c.id core c) :
    (s.slipDropped core c).SlipAt c.id core c.dropped := by
  have hlanded := h.of_cores (State.landed_keep State.cores (fun _ _ => rfl) s c.team c.report c.unlanded)
  have hslip : ((s.landed c.team c.report c.unlanded).modSlip core c.id (fun _ => c.dropped)).SlipAt c.id core c.dropped :=
    hlanded.modSlip (f := fun _ => c.dropped) rfl
  exact (hslip.modCore_keep (f := fun k => k.dropLocks c.id) (fun _ => rfl)).slipPresent c _

theorem State.locks_slipDropped (s : State) (core : Nat) (c : SlipCmd) : ∀ y ∈ ((s.slipDropped core c).core core).locks, y.cmd ≠ c.id := by
  intro y hy
  unfold State.slipDropped at hy
  rw [State.slipPresent_keep (fun w => w.core core) (fun _ _ => rfl), State.core_modCore_same] at hy
  exact bne_iff_ne.1 (List.mem_filter.1 hy).2

/-- The team of a command that is abandoned notes it (R268, R278). -/
def Team.slipFailed (T : Team) (reason : Nat) : Team := { T with slipErr := setFld T.slipErr 8 8 reason ||| 2, terr := true }

/-- The state in which a copy has been abandoned, before its lane is told. -/
def State.slipAbandoned (s : State) (core : Nat) (c : SlipCmd) (reason : Nat) : State :=
  ((s.dropSlip core c).modTeam c.team (fun T => { T with slipErr := setFld T.slipErr 8 8 reason ||| 2 })).modTeam c.team (fun T => { T with terr := true })

theorem State.abandonSlip_eq (s : State) (core : Nat) (c : SlipCmd) (reason : Nat) (addr : Word) : s.abandonSlip core c reason addr =
    (s.slipAbandoned core c reason).deferAt c.team c.crs c.lane c.id 0x10 reason addr c.ipc := rfl

theorem State.resident_slipPresent {s : State} {u : Nat} (hu : (mapGet? u s.teams).isSome = true) (c : SlipCmd) (ls : List Nat) :
    (mapGet? u (s.slipPresent c ls).teams).isSome = true := by
  unfold State.slipPresent
  split
  · exact hu
  · exact State.resident_modTeam hu ..

theorem State.resident_landed {s : State} {u : Nat} (hu : (mapGet? u s.teams).isSome = true) (t : Nat) (r : Report) (n : Nat) :
    (mapGet? u (s.landed t r n).teams).isSome = true := by
  unfold State.landed
  split
  · split
    · exact hu
    · exact State.resident_modTeam hu ..
  · exact hu

theorem State.resident_dropSlip {s : State} {u : Nat} (hu : (mapGet? u s.teams).isSome = true) (core : Nat) (c : SlipCmd) :
    (mapGet? u (s.dropSlip core c).teams).isSome = true :=
  (s.dropSlip_halvesServed core c).resident u (State.resident_slipPresent (s := ((s.landed c.team c.report c.unlanded).modSlip core c.id
    (fun _ => c.dropped)).modCore core (fun k => k.dropLocks c.id)) (State.resident_landed hu ..) c _)

theorem State.team_slipAbandoned {s : State} {c : SlipCmd} (ht : (mapGet? c.team s.teams).isSome = true) (core reason : Nat) :
    (s.slipAbandoned core c reason).team c.team = ((s.dropSlip core c).team c.team).slipFailed reason := by
  obtain ⟨T, hT⟩ := Option.isSome_iff_exists.1 (State.resident_dropSlip ht core c)
  have hfirst := State.team_modTeam_same hT (fun T => { T with slipErr := setFld T.slipErr 8 8 reason ||| 2 })
  have hget := State.get_modTeam_same hT (fun T => { T with slipErr := setFld T.slipErr 8 8 reason ||| 2 })
  have hsecond := State.team_modTeam_same hget (fun T => { T with terr := true })
  rw [hfirst] at hsecond
  exact hsecond

/-- Error bits below the reason do not reach it (R268). -/
theorem reason_of_slipErr (x reason : Nat) : wfld (wordOf (setFld x 8 8 reason ||| 2)) 8 8 = reason % 256 := by
  rw [wfld_wordOf _ (by decide)]
  have hor : fld (setFld x 8 8 reason ||| 2) 8 8 = fld (setFld x 8 8 reason) 8 8 := by
    rw [fld, fld, Nat.shiftRight_or_distrib, show 2 >>> 8 = 0 from rfl, Nat.or_zero]
  rw [hor, fld_setFld_same]
  norm_num

/-- What an abandoned copy leaves (R27, R268, R278). -/
theorem commandAbandon_fails {s : State} {id core : Nat} {c : SlipCmd} (h : s.SlipAt id core c) (ht : (mapGet? c.team s.teams).isSome = true)
    {cls : Nat} {addr : Word} (hfail : c.fail = some (cls, addr)) :
    ∃ S : State, exec (.commandAbandon id) s = .next (S.deferAt c.team c.crs c.lane id 0x10 (0x80 + cls) addr c.ipc) ∧
      { S with teams := s.teams, cores := s.cores, flights := s.flights } = s ∧ ((∀ h, c.dst ≠ .bst h) → S.flights = s.flights) ∧
      (s.team c.team).Lowered (S.team c.team) c.report c.unlanded ∧ (S.team c.team).terr = true ∧
      wfld (wordOf (S.team c.team).slipErr) 8 8 = (0x80 + cls) % 256 ∧ bitN (S.team c.team).slipErr 1 = true ∧
      (∀ t, c.dstTeam = some t → (S.team t).absent = (s.team t).absent.filter (fun x => !(c.linesAt 0 c.bytes).contains x)) ∧
      S.slip? id = some (core, { c with err := true, todo := [], landing := [], stall := none, fail := none }) ∧
      ∀ y ∈ (S.core core).locks, y.cmd ≠ id := by
  have hid := h.id_eq
  subst hid
  have hexec : exec (.commandAbandon c.id) s =
      .next ((s.slipAbandoned core c (0x80 + cls)).deferAt c.team c.crs c.lane c.id 0x10 (0x80 + cls) addr c.ipc) := by
    rw [← State.abandonSlip_eq]
    change execCommandAbandon c.id s = _
    simp only [execCommandAbandon, h.found, hfail]
  have hself := State.team_slipAbandoned ht core (0x80 + cls)
  have hhalves := s.dropSlip_halvesServed core c
  have hkeep : ∀ {α : Type} (g : State → α), (∀ w t, g { w with teams := t } = g w) → g (s.slipAbandoned core c (0x80 + cls)) = g (s.dropSlip core c) :=
    fun g hg => (State.modTeam_keep g hg ..).trans (State.modTeam_keep g hg ..)
  have hteam : ∀ {α : Type} (g : Team → α), (∀ T e b, g { T with slipErr := e, terr := b } = g T) → (∀ T h, g { T with wheelHalf := h } = g T) → ∀ u,
      g ((s.slipAbandoned core c (0x80 + cls)).team u) = g ((s.slipDropped core c).team u) := fun g hg hw u => by
    obtain ⟨x, hx⟩ := hhalves.team u
    have h1 := State.team_modTeam_keep g ((s.dropSlip core c).modTeam c.team (fun T => { T with slipErr := setFld T.slipErr 8 8 (0x80 + cls) ||| 2 })) c.team
      (fun T => { T with terr := true }) (fun T => hg T T.slipErr true) u
    have h2 := State.team_modTeam_keep g (s.dropSlip core c) c.team (fun T => { T with slipErr := setFld T.slipErr 8 8 (0x80 + cls) ||| 2 })
      (fun T => hg T _ T.terr) u
    exact h1.trans (h2.trans ((congrArg g hx).trans (hw ..)))
  refine ⟨_, hexec, ?_, fun hd => ?_, fun k hr hk => ?_, ?_, ?_, ?_, fun t hd => ?_, ?_, ?_⟩
  · refine (hkeep (fun w : State => { w with teams := s.teams, cores := s.cores, flights := s.flights }) (fun _ _ => rfl)).trans ?_
    have hrest : { s.dropSlip core c with teams := s.teams, cores := s.cores, flights := s.flights } =
        { s.slipDropped core c with teams := s.teams, cores := s.cores, flights := s.flights } :=
      (congrArg (fun w : State => { w with teams := s.teams, cores := s.cores, flights := s.flights }) hhalves.rest :)
    refine hrest.trans ?_
    exact State.slipDropped_keep (fun w : State => { w with teams := s.teams, cores := s.cores, flights := s.flights }) (fun _ _ => rfl)
      (fun _ _ => rfl) s core c
  · rw [hkeep State.flights (fun _ _ => rfl), State.dropSlip_of_ne hd]
    exact State.slipDropped_keep State.flights (fun _ _ => rfl) (fun _ _ => rfl) ..
  · rw [hteam (fun T => T.kGet k) (fun _ _ _ => rfl) (fun _ _ => rfl), hteam Team.kE (fun _ _ _ => rfl) (fun _ _ => rfl),
      State.team_slipDropped_keep (fun T => T.kGet k) (fun _ _ => rfl), State.team_slipDropped_keep Team.kE (fun _ _ => rfl)]
    exact State.landed_lowered ht _ _ k hr hk
  · rw [hself]
    rfl
  · rw [hself]
    exact reason_of_slipErr ..
  · rw [hself]
    exact (bitN_or _ 2 1).trans (Bool.or_true _)
  · rw [hteam Team.absent (fun _ _ _ => rfl) (fun _ _ => rfl)]
    refine (State.absent_slipPresent hd ..).trans (congrArg (List.filter _) ?_)
    exact State.team_landed_keep Team.absent (fun _ _ _ _ => rfl) s c.team c.report c.unlanded t
  · exact (((hhalves.slip _ _ h.slipDropped).modTeam ..).modTeam ..).found
  · rw [hkeep (fun w => w.core core) (fun _ _ => rfl)]
    obtain ⟨b, w, hbw⟩ := hhalves.unit
    rw [hbw]
    exact s.locks_slipDropped core c

end Sys2Proof.Machine

namespace Sys2Proof.Machine

/-! ## Swizzles (R178) -/

theorem setFld_setFld (x lo n v w : Nat) : setFld (setFld x lo n v) lo n w = setFld x lo n w := by
  have hlow := setFld_mod_low x lo n v
  have hdiv : setFld x lo n v / 2 ^ lo / 2 ^ n = x / 2 ^ lo / 2 ^ n := by
    rw [setFld_div_low, Nat.mul_add_div (Nat.two_pow_pos n), Nat.div_eq_of_lt (Nat.mod_lt v (Nat.two_pow_pos n)), Nat.add_zero]
  rw [setFld_eq (setFld x lo n v), hlow, hdiv, ← setFld_eq]

theorem setFld_fld (x lo n : Nat) : setFld x lo n (fld x lo n) = x := by
  rw [setFld_eq, fld_eq, Nat.mod_mod, Nat.div_add_mod, Nat.div_add_mod]

/-- A swizzle that adds a field to one below it undoes itself. -/
theorem setFld_xor_involutive {lo n hi : Nat} (h : lo + n ≤ hi) :
    Function.Involutive (fun a => setFld a lo n (fld a lo n ^^^ fld a hi n)) := by
  intro a
  have hhi : fld (setFld a lo n (fld a lo n ^^^ fld a hi n)) hi n = fld a hi n := fld_setFld_above a _ h
  have hlt : ∀ k, fld a k n < 2 ^ n := fun k => Nat.mod_lt _ (Nat.two_pow_pos n)
  have hlo : fld (setFld a lo n (fld a lo n ^^^ fld a hi n)) lo n = fld a lo n ^^^ fld a hi n := by
    rw [fld_setFld_same, Nat.mod_eq_of_lt (Nat.xor_lt_two_pow (hlt lo) (hlt hi))]
  dsimp only
  rw [hhi, hlo, setFld_setFld, Nat.xor_xor_cancel_right, setFld_fld]

theorem phys_injective (swz : Nat) : Function.Injective (phys swz) := by
  unfold phys
  split
  · exact (setFld_xor_involutive (by decide)).injective
  · exact (setFld_xor_involutive (by decide)).injective
  · exact (setFld_xor_involutive (by decide)).injective
  · exact Function.injective_id

/-! ## Bytes into a table -/

theorem mapGet?_foldl_mapPut_ne {α : Type} {key : α → Nat} {val : α → Byte} {a : Nat} {l : List α} (h : ∀ x ∈ l, a ≠ key x) (m : List (Nat × Byte)) :
    mapGet? a (l.foldl (fun m x => mapPut (key x) (val x) m) m) = mapGet? a m := by
  induction l generalizing m with
  | nil => rfl
  | cons x l ih =>
    rw [List.foldl_cons, ih (fun y hy => h y (List.mem_cons_of_mem x hy)), mapGet?_mapPut_ne (h x List.mem_cons_self)]

theorem mapGet?_foldl_mapPut {α : Type} {key : α → Nat} (hkey : Function.Injective key) {val : α → Byte} {x : α} {l : List α} (h : x ∈ l)
    (m : List (Nat × Byte)) : mapGet? (key x) (l.foldl (fun m x => mapPut (key x) (val x) m) m) = some (val x) := by
  induction l generalizing m with
  | nil => cases h
  | cons y l ih =>
    rw [List.foldl_cons]
    by_cases hx : x ∈ l
    · exact ih hx _
    · obtain rfl : x = y := (List.mem_cons.1 h).resolve_right hx
      rw [mapGet?_foldl_mapPut_ne (fun z hz hzx => hx (by rwa [hkey hzx])), mapGet?_mapPut_same]

/-- A byte of a table into which a run of bytes is written. -/
theorem mapGet?_putBytes_range (x at_ : Nat) (v : Nat → Byte) (k n : Nat) (m : List (Nat × Byte)) :
    mapGet? x (putBytes m (at_ + k) ((List.range' k n).map v)) = match (List.range' k n).find? (fun b => x == at_ + b) with
      | some b => some (v b)
      | none => mapGet? x m := by
  induction n generalizing k m with
  | zero => rfl
  | succ n ih =>
    rw [List.range'_succ, List.map_cons, putBytes, Nat.add_assoc, ih, List.find?_cons]
    by_cases hx : x = at_ + k
    · subst hx
      have hnone : (List.range' (k + 1) n).find? (fun b => at_ + k == at_ + b) = none :=
        List.find?_eq_none.2 (fun b hb => by have hk := (List.mem_range'_1.1 hb).1; simp only [beq_iff_eq]; omega)
      rw [hnone, mapGet?_mapPut_same, beq_self_eq_true]
    · have hbeq : (x == at_ + k) = false := beq_false_of_ne hx
      rw [mapGet?_mapPut_ne hx, hbeq]

theorem SlipCmd.span_eq (c : SlipCmd) (p : Nat) : c.span p = List.range' (64 * p) (min 64 (c.bytes - 64 * p)) := by
  have hmem : ∀ i, (if 64 * p + i < c.bytes then some (64 * p + i) else none) = if i < c.bytes - 64 * p then some (64 * p + i) else none :=
    fun i => if_congr (by omega) rfl rfl
  have hkeep : ∀ n k, (List.range n).filterMap (fun i => if i < k then some (64 * p + i) else none) = List.range' (64 * p) (min n k) := by
    intro n k
    induction n with
    | zero => simp
    | succ n ih =>
      rw [List.range_succ, List.filterMap_append, ih]
      by_cases hn : n < k
      · rw [Nat.min_eq_left (by omega), Nat.min_eq_left (by omega), List.range'_concat]
        simp [hn]
      · rw [Nat.min_eq_right (by omega), Nat.min_eq_right (by omega)]
        simp [hn]
  unfold SlipCmd.span
  simp only [hmem]
  exact hkeep 64 _

end Sys2Proof.Machine

namespace Sys2Proof.Machine

/-! ## What a piece reads (R253, R259) -/

theorem State.slipAt_indifferent (id core : Nat) (c : SlipCmd) : State.Indifferent core (fun w => w.SlipAt id core c) where
  served _ _ hw h := h.of_cores (hw.keep State.cores (fun _ _ _ _ _ _ => rfl))
  tlb _ _ h := h.modCore_keep (fun _ => rfl)
  mig _ _ _ h := h.of_cores rfl

theorem State.Indifferent.and {core : Nat} {P Q : State → Prop} (hP : State.Indifferent core P) (hQ : State.Indifferent core Q) :
    State.Indifferent core (fun w => P w ∧ Q w) where
  served w w' hw h := ⟨hP.served w w' hw h.1, hQ.served w w' hw h.2⟩
  tlb w e h := ⟨hP.tlb w e h.1, hQ.tlb w e h.2⟩
  mig w m q h := ⟨hP.mig w m q h.1, hQ.mig w m q h.2⟩

theorem State.pieceData_reads {s S : State} {core : Nat} {f : SlipCmd} {p : Nat} {d : EngData} (hdata : s.pieceData core f p = .ok d S) {id : Nat}
    {c : SlipCmd} (h : s.SlipAt id core c) : s.RecRead S ∧ S.SlipAt id core c := by
  have hstart : s.RecRead s ∧ s.SlipAt id core c := ⟨⟨rfl, rfl, fun q => ⟨(s.core q).tlb, (s.core q).l1, rfl⟩⟩, h⟩
  unfold State.pieceData at hdata
  dsimp only at hdata
  split at hdata
  · exact State.engGather_inv (g := f.eng s core) ((s.recRead_indifferent core).and (State.slipAt_indifferent id core c)) hstart hdata
  · split at hdata
    · cases hdata
    · split at hdata
      · cases hdata
      · cases hdata
        exact hstart

/-- A command that has read some words of its team's memory (R259). -/
def SlipCmd.withBuf (c : SlipCmd) (b : List (Nat × List Byte)) : SlipCmd := { c with buf := b }

/-- A command with a saturation noted. -/
def SlipCmd.orXov (c : SlipCmd) (x : Bool) : SlipCmd := { c with xov := c.xov || x }

/-- Reading its team's memory changes what a command has read and nothing else of it. -/
theorem SlipCmd.fetched_eq (c : SlipCmd) (T : Team) (p : Nat) : c.fetched T p = c.withBuf (c.fetched T p).buf := by
  unfold SlipCmd.fetched
  split
  · rfl
  · rfl

theorem SlipCmd.writes_eq_span {c : SlipCmd} (hdir : c.dir ≠ 1) (hrows : c.rows = none) (p : Nat) : c.writes p = c.span p := by
  unfold SlipCmd.writes
  rw [if_pos (by simp [hdir, hrows])]

theorem SlipCmd.boxOff_eq {c : SlipCmd} (hrows : c.rows = none) (b : Nat) : c.boxOff b = c.off + b := by
  unfold SlipCmd.boxOff
  rw [hrows]

/-- The pieces left after one is taken, said of what the others write (R261). -/
theorem SlipCmd.rest_eq (c : SlipCmd) (p : Nat) :
    c.rest p = if c.dir = 1 ∧ ∀ q ∈ c.todo, q ≠ p → c.writes q = [] then [] else c.todo.filter (· != p) := by
  unfold SlipCmd.rest
  dsimp only
  refine if_congr ?_ rfl rfl
  simp [List.all_filter, imp_iff_not_or]

/-! ## A piece stands in its box (R253, R273) -/

/-- Bytes of a piece stand at their destination, and a saturation among them is noted. -/
def State.pieceWritten (s : State) (core : Nat) (c : SlipCmd) (p : Nat) (out : List (Nat × Byte × Bool)) : State :=
  let w := s.putBox core c p (out.map (fun x => (x.1, x.2.1)))
  if out.any (·.2.2) then w.noteXov core c else w

/-- The bytes that a piece writes, by their place in the box. -/
def SlipCmd.outBytes (c : SlipCmd) (d : EngData) (gap : Byte) (p : Nat) : List (Nat × Byte × Bool) := (c.writes p).map (fun b => (b, c.byteAt d gap b))

theorem SlipCmd.any_outBytes {c : SlipCmd} (hdir : c.dir ≠ 1) (hrows : c.rows = none) (d : EngData) (gap : Byte) (p : Nat) :
    (c.outBytes d gap p).any (·.2.2) = (c.span p).any (fun b => (c.byteAt d gap b).2) := by
  rw [SlipCmd.outBytes, SlipCmd.writes_eq_span hdir hrows, List.any_map]
  rfl

theorem State.pieceIn_ok {s S : State} {core : Nat} {c f : SlipCmd} {p : Nat} {d : EngData} (hf : c.fetched (s.team c.team) p = f)
    (hdata : s.pieceData core f p = .ok d S) (hbad : S.boxBad core f (f.writes p) = false) :
    let out := f.outBytes d ((S.freeBytes 1).1.getD 0 0) p
    s.pieceIn core c p = ((S.freeBytes 1).2.pieceWritten core f p out).pieceLanded core (f.orXov (out.any (·.2.2))) p := by
  intro out
  subst hf
  unfold State.pieceIn
  simp only [hdata]
  rw [if_neg (by rw [hbad]; exact Bool.false_ne_true)]
  rfl

/-- The team into whose memory a command copies. -/
def SlipCmd.Fills (c : SlipCmd) (u : Nat) : Prop := c.dst = .loc ∧ u = c.team ∨ ∃ pos, c.dst = .rem u pos

section Fills
variable {s : State} {core : Nat} {c : SlipCmd} {u p : Nat}

theorem SlipCmd.Fills.not_bst (h : c.Fills u) (b : Nat) : c.dst ≠ .bst b := by
  rcases h with ⟨hd, -⟩ | ⟨pos, hd⟩ <;> simp [hd]

theorem SlipCmd.Fills.dstTeam (h : c.Fills u) (hdir : c.dir ≠ 1) : c.dstTeam = some u := by
  unfold SlipCmd.dstTeam
  rcases h with ⟨hd, hu⟩ | ⟨pos, hd⟩
  · simp only [hd, hdir, if_false, hu]
  · simp only [hd]

theorem SlipCmd.Fills.boxBad (h : c.Fills u) (bs : List Nat) :
    s.boxBad core c bs = partlyBad (s.team u).lbad (bs.map (fun b => phys c.tlr.swz (c.boxOff b))) := by
  unfold State.boxBad
  rcases h with ⟨hd, hu⟩ | ⟨pos, hd⟩
  · simp only [hd, hu]
  · simp only [hd]

theorem SlipCmd.Fills.putBox (h : c.Fills u) (bs : List (Nat × Byte)) : s.putBox core c p bs = s.modTeam u (c.putLoc bs) := by
  unfold State.putBox
  rcases h with ⟨hd, hu⟩ | ⟨pos, hd⟩
  · simp only [hd, hu]
  · simp only [hd]

/-- A saturation noted in the command and in its team, but in no half. -/
def State.xovNoted (s : State) (core : Nat) (c : SlipCmd) : State :=
  (s.modSlip core c.id (fun c => { c with xov := true })).modTeam c.team (fun T => { T with slipErr := T.slipErr ||| 1 })

theorem SlipCmd.Fills.noteXov (h : c.Fills u) : s.noteXov core c = s.xovNoted core c := by
  unfold State.noteXov
  rcases h with ⟨hd, -⟩ | ⟨pos, hd⟩
  · simp only [hd]
    rfl
  · simp only [hd]
    rfl

theorem SlipCmd.Fills.pieceWritten (h : c.Fills u) (out : List (Nat × Byte × Bool)) : s.pieceWritten core c p out =
    if out.any (·.2.2) then (s.modTeam u (c.putLoc (out.map (fun x => (x.1, x.2.1))))).xovNoted core c
    else s.modTeam u (c.putLoc (out.map (fun x => (x.1, x.2.1)))) := by
  unfold State.pieceWritten
  dsimp only
  rw [h.putBox, h.noteXov]

end Fills

/-! ### What noting a saturation leaves -/

section Noted
variable {α : Type}

theorem State.xovNoted_keep (g : State → α) (ht : ∀ w t, g { w with teams := t } = g w) (hk : ∀ w k, g { w with cores := k } = g w) (s : State)
    (core : Nat) (c : SlipCmd) : g (s.xovNoted core c) = g s := (State.modTeam_keep g ht ..).trans (hk ..)

theorem State.team_xovNoted_keep (g : Team → α) (he : ∀ T e, g { T with slipErr := e } = g T) (s : State) (core : Nat) (c : SlipCmd) (t : Nat) :
    g ((s.xovNoted core c).team t) = g (s.team t) := State.team_modTeam_keep g _ _ _ (fun _ => he ..) t

end Noted

theorem State.team_xovNoted_ne {c : SlipCmd} {t : Nat} (h : t ≠ c.team) (s : State) (core : Nat) : (s.xovNoted core c).team t = s.team t :=
  State.team_modTeam_ne _ h _

theorem State.slipErr_xovNoted {s : State} {c : SlipCmd} (ht : (mapGet? c.team s.teams).isSome = true) (core : Nat) :
    ((s.xovNoted core c).team c.team).slipErr = (s.team c.team).slipErr ||| 1 := by
  obtain ⟨T, hT⟩ := Option.isSome_iff_exists.1 ht
  have hself := State.team_modTeam_same (s := s.modSlip core c.id (fun c => { c with xov := true })) hT (fun T => { T with slipErr := T.slipErr ||| 1 })
  exact (congrArg Team.slipErr hself :)

theorem State.resident_xovNoted {s : State} {u : Nat} (hu : (mapGet? u s.teams).isSome = true) (core : Nat) (c : SlipCmd) :
    (mapGet? u (s.xovNoted core c).teams).isSome = true := State.resident_modTeam (s := s.modSlip core c.id (fun c => { c with xov := true })) hu ..

theorem State.SlipAt.xovNoted {s : State} {core : Nat} {c c0 : SlipCmd} (h : s.SlipAt c.id core c0) :
    (s.xovNoted core c).SlipAt c.id core { c0 with xov := true } :=
  (h.modSlip (f := fun c => { c with xov := true }) h.id_eq).modTeam ..

/-! ### Bytes into the memory of a team -/

section Put
variable {c : SlipCmd} {u p : Nat}

theorem Team.locByte_putLoc_same (hrows : c.rows = none) (T : Team) (f : Nat → Byte) {l : List Nat} {b : Nat} (hb : b ∈ l) :
    (c.putLoc (l.map (fun b => (b, f b))) T).locByte (phys c.tlr.swz (c.off + b)) = f b := by
  have hinj : Function.Injective (fun b => phys c.tlr.swz (c.boxOff b)) := fun x y hxy => by
    have hoff := phys_injective _ hxy
    simpa [SlipCmd.boxOff_eq hrows] using hoff
  have hget : mapGet? (phys c.tlr.swz (c.off + b)) (c.putLoc (l.map (fun b => (b, f b))) T).lmem = some (f b) := by
    rw [SlipCmd.putLoc, List.foldl_map, ← SlipCmd.boxOff_eq hrows]
    exact mapGet?_foldl_mapPut hinj hb T.lmem
  rw [Team.locByte, hget]
  rfl

theorem Team.locByte_putLoc_ne (hrows : c.rows = none) (T : Team) (f : Nat → Byte) {l : List Nat} {a : Nat}
    (ha : ∀ b ∈ l, a ≠ phys c.tlr.swz (c.off + b)) : (c.putLoc (l.map (fun b => (b, f b))) T).locByte a = T.locByte a := by
  have hget : mapGet? a (c.putLoc (l.map (fun b => (b, f b))) T).lmem = mapGet? a T.lmem := by
    rw [SlipCmd.putLoc, List.foldl_map]
    exact mapGet?_foldl_mapPut_ne (fun b hb => by simpa only [SlipCmd.boxOff_eq hrows] using ha b hb) T.lmem
  rw [Team.locByte, hget]
  rfl

end Put

end Sys2Proof.Machine

namespace Sys2Proof.Machine

/-! ## A piece into a team's memory (R253, R273) -/

/-- What a piece leaves as its bytes stand in the memory of a team, and a saturation is noted. -/
structure State.BoxFilled (w : State) (core : Nat) (c : SlipCmd) (u : Nat) (l : List Nat) (f : Nat → Byte) (sat : Bool) (W : State) : Prop where
  rest : { W with teams := w.teams, cores := w.cores } = w
  team : ∀ t, ∃ m b e, W.team t = { w.team t with lmem := m, lbad := b, slipErr := e }
  resident : ∀ t, (mapGet? t w.teams).isSome = true → (mapGet? t W.teams).isSome = true
  slip : ∀ c0, w.SlipAt c.id core c0 → ∃ c1, W.SlipAt c.id core c1
  slipErr : (mapGet? c.team w.teams).isSome = true → bitN (W.team c.team).slipErr 0 = (bitN (w.team c.team).slipErr 0 || sat)
  inside : (mapGet? u w.teams).isSome = true → ∀ b ∈ l, (W.team u).locByte (phys c.tlr.swz (c.off + b)) = f b
  outside : ∀ a, (∀ b ∈ l, a ≠ phys c.tlr.swz (c.off + b)) → (W.team u).locByte a = (w.team u).locByte a
  elsewhere : ∀ t, t ≠ u → ∀ a, (W.team t).locByte a = (w.team t).locByte a
  others : ∀ t, t ≠ c.team → t ≠ u → W.team t = w.team t

section Filled
variable {w : State} {core : Nat} {c : SlipCmd} {u : Nat} {l : List Nat} {f : Nat → Byte}

theorem State.boxFilled_putLoc (hrows : c.rows = none) : w.BoxFilled core c u l f false (w.modTeam u (c.putLoc (l.map (fun b => (b, f b))))) := by
  have hkeep : ∀ {α : Type} (g : Team → α), (∀ T m b, g { T with lmem := m, lbad := b } = g T) → ∀ t,
      g ((w.modTeam u (c.putLoc (l.map (fun b => (b, f b))))).team t) = g (w.team t) :=
    fun g hg t => State.team_modTeam_keep g w u _ (fun T => hg T _ _) t
  refine ⟨?_, fun t => ?_, fun t ht => State.resident_modTeam ht .., fun c0 h => ⟨c0, h.modTeam ..⟩, fun _ => ?_, fun hu b hb => ?_, fun a ha => ?_,
    fun t ht a => ?_, fun t _ ht => State.team_modTeam_ne w ht _⟩
  · exact State.modTeam_keep (fun x : State => { x with teams := w.teams, cores := w.cores }) (fun _ _ => rfl) w u _
  · by_cases ht : t = u
    · subst ht
      cases hfound : mapGet? t w.teams with
      | none => exact ⟨(w.team t).lmem, (w.team t).lbad, (w.team t).slipErr, by rw [State.modTeam, hfound]⟩
      | some T => exact ⟨_, _, (w.team t).slipErr, State.team_modTeam_same hfound _⟩
    · exact ⟨(w.team t).lmem, (w.team t).lbad, (w.team t).slipErr, State.team_modTeam_ne w ht _⟩
  · rw [hkeep Team.slipErr (fun _ _ _ => rfl), Bool.or_false]
  · obtain ⟨T, hT⟩ := Option.isSome_iff_exists.1 hu
    rw [State.team_modTeam_same hT]
    exact Team.locByte_putLoc_same hrows _ f hb
  · cases hfound : mapGet? u w.teams with
    | none => rw [State.modTeam, hfound]
    | some T =>
      rw [State.team_modTeam_same hfound]
      exact Team.locByte_putLoc_ne hrows _ f ha
  · rw [State.team_modTeam_ne w ht]

theorem State.BoxFilled.xovNoted {W : State} (h : w.BoxFilled core c u l f false W) : w.BoxFilled core c u l f true (W.xovNoted core c) := by
  obtain ⟨hrest, hteam, hres, hslip, -, hinside, houtside, helsewhere, hothers⟩ := h
  have hbyte : ∀ t a, ((W.xovNoted core c).team t).locByte a = (W.team t).locByte a :=
    fun t a => State.team_xovNoted_keep (fun T => T.locByte a) (fun _ _ => rfl) W core c t
  refine ⟨?_, fun t => ?_, fun t ht => State.resident_xovNoted (hres t ht) core c, fun c0 h => ?_, fun ht => ?_, fun hu b hb => ?_, fun a ha => ?_,
    fun t ht a => ?_, fun t ht hu => ?_⟩
  · exact (State.xovNoted_keep (fun x : State => { x with teams := w.teams, cores := w.cores }) (fun _ _ => rfl) (fun _ _ => rfl) W core c).trans hrest
  · obtain ⟨m, b, e, hT⟩ := hteam t
    refine ⟨m, b, ((W.xovNoted core c).team t).slipErr, ?_⟩
    have hsame := State.team_xovNoted_keep (fun T => { T with slipErr := ((W.xovNoted core c).team t).slipErr }) (fun _ _ => rfl) W core c t
    exact hsame.trans (congrArg (fun T : Team => { T with slipErr := ((W.xovNoted core c).team t).slipErr }) hT :)
  · obtain ⟨c1, hc1⟩ := hslip c0 h
    exact ⟨_, hc1.xovNoted⟩
  · rw [State.slipErr_xovNoted (hres _ ht), bitN_or, Bool.or_true]
    exact Bool.or_true _
  · rw [hbyte, hinside hu b hb]
  · rw [hbyte, houtside a ha]
  · rw [hbyte, helsewhere t ht]
  · rw [State.team_xovNoted_ne ht, hothers t ht hu]

theorem SlipCmd.Fills.boxFilled (hfills : c.Fills u) (hdir : c.dir ≠ 1) (hrows : c.rows = none) (d : EngData) (gap : Byte) (p : Nat) :
    w.BoxFilled core c u (c.span p) (fun b => (c.byteAt d gap b).1) ((c.span p).any (fun b => (c.byteAt d gap b).2))
      (w.pieceWritten core c p (c.outBytes d gap p)) := by
  have hput : (c.outBytes d gap p).map (fun x => (x.1, x.2.1)) = (c.span p).map (fun b => (b, (c.byteAt d gap b).1)) := by
    rw [SlipCmd.outBytes, SlipCmd.writes_eq_span hdir hrows, List.map_map]
    rfl
  rw [hfills.pieceWritten, hput, SlipCmd.any_outBytes hdir hrows]
  have hfilled := State.boxFilled_putLoc (w := w) (core := core) (u := u) (l := c.span p) (f := fun b => (c.byteAt d gap b).1) hrows
  cases hsat : (c.span p).any (fun b => (c.byteAt d gap b).2) with
  | false => exact hfilled
  | true => exact hfilled.xovNoted

end Filled

/-! ## Pieces land (R26, R261) -/

theorem Team.Lowered.congr {T U T' : Team} {r : Report} {n : Nat} (h : U.Lowered T' r n) (hk : ∀ k, U.kGet k = T.kGet k) : T.Lowered T' r n := by
  intro k hr h0
  rw [← hk]
  exact h k hr h0

/-- The state once an event of a number has come. -/
def State.untimed (s : State) (id : Nat) : State := { s with timers := mapDel id s.timers }

section Land
variable {s : State} {core : Nat} {c : SlipCmd} {p : Nat}

theorem copyPieceLands_exec (h : s.SlipAt c.id core c) (hdue : s.pieceDue core c p = true) : exec (.copyPieceLands c.id p) s =
    .next (if c.landing.any (fun x => x.1 == p) then (s.untimed c.id).pieceLanded core c p
      else if c.dir = 1 then (s.untimed c.id).pieceOut core c p else (s.untimed c.id).pieceIn core c p) := by
  change execCopyPieceLands c.id p s = _
  simp only [execCopyPieceLands, h.found, hdue, Bool.not_true, Bool.false_eq_true, if_false]
  rfl

theorem SlipCmd.landing_new (h : ∀ x ∈ c.landing, x.1 ≠ p) : c.landing.any (fun x => x.1 == p) = false :=
  List.any_eq_false.2 (fun x hx => by simpa using h x hx)

/-- What a piece whose writes are performed leaves. -/
theorem copyPieceLands_performed (h : s.SlipAt c.id core c) (ht : (mapGet? c.team s.teams).isSome = true) (hdue : s.pieceDue core c p = true) {w : Nat}
    (hland : c.landing.find? (fun x => x.1 == p) = some (p, w)) :
    ∃ s' : State, exec (.copyPieceLands c.id p) s = .next s' ∧ s'.mem = s.mem ∧ ((∀ h, c.dst ≠ .bst h) → s'.flights = s.flights) ∧
      s'.slip? c.id = some (core, c.less p) ∧ (s.team c.team).Lowered (s'.team c.team) c.report (c.unlanded - (c.less p).unlanded) ∧
      ∀ t, c.dstTeam = some t → (s'.team t).absent = (s.team t).absent.filter (fun x => !(c.newLines p).contains x) := by
  have hany : c.landing.any (fun x => x.1 == p) = true :=
    List.any_eq_true.2 ⟨_, List.mem_of_find?_eq_some hland, List.find?_some (p := fun x : Nat × Nat => x.1 == p) hland⟩
  have hdone := (s.untimed c.id).pieceLanded_done core c p
  refine ⟨_, (copyPieceLands_exec h hdue).trans (congrArg _ (if_pos hany)), (congrArg State.mem hdone.rest :), hdone.flights,
    (hdone.slip c (h.of_cores rfl)).found, hdone.lowered ht, hdone.absent⟩

/-- What a piece into the memory of a team leaves (R253, R259, R273). -/
theorem copyPieceLands_fills (h : s.SlipAt c.id core c) (ht : (mapGet? c.team s.teams).isSome = true) (hdue : s.pieceDue core c p = true)
    (hnew : ∀ x ∈ c.landing, x.1 ≠ p) (hdir : c.dir ≠ 1) (hrows : c.rows = none) {u : Nat} (hfills : c.Fills u)
    (hu : (mapGet? u s.teams).isSome = true) {d : EngData} {S : State}
    (hdata : (s.untimed c.id).pieceData core (c.fetched (s.team c.team) p) p = .ok d S)
    (hbad : partlyBad (s.team u).lbad ((c.span p).map (fun b => phys c.tlr.swz (c.off + b))) = false) :
    ∃ s' : State, ∃ gap : Byte, exec (.copyPieceLands c.id p) s = .next s' ∧ s'.mem = S.mem ∧
      s'.slip? c.id = some (core, { c.less p with
        buf := (c.fetched (s.team c.team) p).buf, xov := c.xov || (c.span p).any (fun b => (c.byteAt d gap b).2) }) ∧
      (s.team c.team).Lowered (s'.team c.team) c.report (c.unlanded - (c.less p).unlanded) ∧
      (∀ t, c.dstTeam = some t → (s'.team t).absent = (s.team t).absent.filter (fun x => !(c.newLines p).contains x)) ∧
      bitN (s'.team c.team).slipErr 0 = (bitN (s.team c.team).slipErr 0 || (c.span p).any (fun b => (c.byteAt d gap b).2)) ∧
      (∀ b ∈ c.span p, (s'.team u).locByte (phys c.tlr.swz (c.off + b)) = (c.byteAt d gap b).1) ∧
      (∀ a, (∀ b ∈ c.span p, a ≠ phys c.tlr.swz (c.off + b)) → (s'.team u).locByte a = (s.team u).locByte a) ∧
      (∀ t, t ≠ u → ∀ a, (s'.team t).locByte a = (s.team t).locByte a) ∧ ∀ t, t ≠ c.team → t ≠ u → s'.team t = s.team t := by
  obtain ⟨hread, hslip⟩ := State.pieceData_reads hdata (h.of_cores (w := s.untimed c.id) rfl)
  obtain ⟨hteams, -, -⟩ := hread
  have hteam : ∀ t, S.team t = s.team t := fun t => by rw [State.team, hteams]; rfl
  obtain ⟨b, hb⟩ : ∃ b, c.fetched (s.team c.team) p = c.withBuf b := ⟨_, c.fetched_eq (s.team c.team) p⟩
  rw [hb] at hdata ⊢
  have hbox : S.boxBad core (c.withBuf b) ((c.withBuf b).writes p) = false := by
    rw [SlipCmd.Fills.boxBad (c := c.withBuf b) hfills, SlipCmd.writes_eq_span (c := c.withBuf b) hdir hrows, hteam]
    simp only [SlipCmd.boxOff_eq (c := c.withBuf b) hrows]
    exact hbad
  have hin := State.pieceIn_ok (s := s.untimed c.id) hb hdata hbox
  have hexec := copyPieceLands_exec h hdue
  rw [if_neg (by rw [SlipCmd.landing_new hnew]; exact Bool.false_ne_true), if_neg hdir, hin, SlipCmd.any_outBytes (c := c.withBuf b) hdir hrows] at hexec
  have hfree : ∃ n, (S.freeBytes 1).2 = { S with fresh := n } := ⟨_, rfl⟩
  generalize (S.freeBytes 1).1.getD 0 0 = gap at hexec
  generalize (S.freeBytes 1).2 = G at hexec hfree
  have hfilled := SlipCmd.Fills.boxFilled (w := G) (core := core) (c := c.withBuf b) hfills hdir hrows d gap p
  generalize G.pieceWritten core (c.withBuf b) p _ = W at hexec hfilled
  have hsat : ((c.withBuf b).span p).any (fun x => ((c.withBuf b).byteAt d gap x).2) = (c.span p).any (fun x => (c.byteAt d gap x).2) := rfl
  rw [hsat] at hexec hfilled
  refine ⟨_, gap, hexec, ?_⟩
  clear hexec
  generalize (c.span p).any (fun x => (c.byteAt d gap x).2) = sat at hfilled ⊢
  obtain ⟨hrest, hteamW, hres, hslipW, herr, hinside, houtside, helsewhere, hothers⟩ := hfilled
  obtain ⟨n, rfl⟩ := hfree
  have hgone : ∀ t, State.team { S with fresh := n } t = s.team t := hteam
  have hsame : ∀ t, (mapGet? t s.teams).isSome = true → (mapGet? t W.teams).isSome = true := fun t h => hres t (by rw [hteams]; exact h)
  obtain ⟨c1, hc1⟩ := hslipW c (hslip.of_cores rfl)
  have hkeep : ∀ {α : Type} (g : Team → α), (∀ T k kE named, g { T with k := k, kE := kE, named := named } = g T) →
      (∀ T l, g { T with absent := l } = g T) → (∀ T h, g { T with wheelHalf := h } = g T) → ∀ t,
      g ((W.pieceLanded core ((c.withBuf b).orXov sat) p).team t) = g (W.team t) :=
    fun g hk ha hw t => State.team_pieceLanded_keep g hk ha hw W core ((c.withBuf b).orXov sat) p t
  obtain ⟨hlandRest, -, hlandSlip, hlowered, habsent, hlandOthers⟩ := W.pieceLanded_done core ((c.withBuf b).orXov sat) p
  generalize W.pieceLanded core ((c.withBuf b).orXov sat) p = s' at *
  refine ⟨?_, (hlandSlip c1 hc1).found, ?_, fun t hd => ?_, ?_, fun x hx => ?_, fun a ha => ?_, fun t htu a => ?_, fun t htc htu => ?_⟩
  · exact (congrArg State.mem hlandRest :).trans (congrArg State.mem hrest :)
  · obtain ⟨m, bad, e, hT⟩ := hteamW c.team
    exact (hlowered (hsame _ ht)).congr (fun k => by rw [← hgone c.team]; exact (congrArg (fun T : Team => T.kGet k) hT :))
  · obtain ⟨m, bad, e, hT⟩ := hteamW t
    rw [habsent t hd, hT, ← hgone]
    rfl
  · rw [hkeep Team.slipErr (fun _ _ _ _ => rfl) (fun _ _ => rfl) (fun _ _ => rfl), ← hgone]
    exact herr (by rw [hteams]; exact ht)
  · rw [hkeep (fun T => T.locByte _) (fun _ _ _ _ => rfl) (fun _ _ => rfl) (fun _ _ => rfl)]
    exact hinside (by rw [hteams]; exact hu) x hx
  · rw [hkeep (fun T => T.locByte a) (fun _ _ _ _ => rfl) (fun _ _ => rfl) (fun _ _ => rfl), ← hgone]
    exact houtside a ha
  · rw [hkeep (fun T => T.locByte a) (fun _ _ _ _ => rfl) (fun _ _ => rfl) (fun _ _ => rfl), ← hgone]
    exact helsewhere t htu a
  · rw [hlandOthers (hfills.not_bst) t htc (fun hd => htu ?_), ← hgone]
    · exact hothers t htc htu
    · exact Option.some.inj (hd.symm.trans (hfills.dstTeam hdir))

end Land

end Sys2Proof.Machine

namespace Sys2Proof.Machine

/-! ## A piece out of a box (R258, R261) -/

/-- A command one of whose pieces is under way. -/
def SlipCmd.sent (c : SlipCmd) (p wid : Nat) : SlipCmd :=
  { c with todo := c.rest p, landing := c.landing ++ [(p, wid)], refusals := c.refusals.filter (· != p) }

theorem State.mem_pieceSent (s : State) (core : Nat) (c : SlipCmd) (p wid : Nat) : (s.pieceSent core c p wid).mem = s.mem :=
  State.landed_keep State.mem (fun _ _ => rfl) ..

theorem State.team_pieceSent_ne (s : State) (core : Nat) {c : SlipCmd} {t : Nat} (h : t ≠ c.team) (p wid : Nat) :
    (s.pieceSent core c p wid).team t = s.team t := State.team_landed_ne _ h ..

theorem State.pieceSent_lowered {s : State} {c : SlipCmd} (ht : (mapGet? c.team s.teams).isSome = true) (core p wid : Nat) :
    (s.team c.team).Lowered ((s.pieceSent core c p wid).team c.team) c.report (c.unlanded - (c.sent p wid).unlanded) :=
  State.landed_lowered (s := s.modSlip core c.id (fun _ => c.sent p wid)) ht _ _

theorem State.SlipAt.pieceSent {s : State} {core : Nat} {c c0 : SlipCmd} (h : s.SlipAt c.id core c0) (p wid : Nat) :
    (s.pieceSent core c p wid).SlipAt c.id core (c.sent p wid) :=
  (h.modSlip (f := fun _ => c.sent p wid) rfl).of_cores (State.landed_keep State.cores (fun _ _ => rfl) ..)

theorem State.teams_indifferent (core : Nat) (ts : List (Nat × Team)) : State.Indifferent core (fun w => w.teams = ts) where
  served _ _ hw h := (hw.keep State.teams (fun _ _ _ _ _ _ => rfl)).trans h
  tlb _ _ h := h
  mig _ _ _ h := h

theorem State.engWrite_slip {s S : State} {core : Nat} {c : SlipCmd} {g : Eng} (hg : g.core = core) {i : Issuer} {cs : List Chunk} {wid : Nat}
    {d : EngData} (hout : s.engWrite g i cs wid = .ok d S) (h : s.SlipAt c.id core c) : S.teams = s.teams ∧ S.SlipAt c.id core c := by
  subst hg
  refine State.engWrite_inv (g := g) ((State.teams_indifferent g.core s.teams).and (State.slipAt_indifferent c.id g.core c)) (fun w w' hw hP => ?_)
    ⟨rfl, h⟩ hout
  obtain ⟨hteams, hslip⟩ := hP
  exact ⟨(hw.keep State.teams (fun _ _ _ _ _ _ => rfl) (fun _ _ => rfl)).trans hteams,
    hslip.of_cores (hw.keep State.cores (fun _ _ _ _ _ _ => rfl) (fun _ _ => rfl))⟩

theorem State.trackWrite_keep {α : Type} (g : State → α) (hf : ∀ w f, g { w with flights := f } = g w) (s : State) (i : Issuer) (core wid : Nat) :
    g (s.trackWrite i core wid) = g s := by
  unfold State.trackWrite
  split
  · exact hf ..
  · rfl

theorem SlipCmd.readSrc_eq (c : SlipCmd) (T : Team) (as : List Nat) : c.readSrc T as = c.withBuf (c.readSrc T as).buf := rfl

section Out
variable {s : State} {core : Nat} {c : SlipCmd} {p : Nat}

theorem State.pieceOut_ok {S : State} {f : SlipCmd} (hf : c.readSrc (s.team c.team) ((c.readsOut p).map c.boxByte) = f)
    (hsound : ∀ b ∈ c.readsOut p, (s.team c.team).locBad (c.boxByte b) 1 = false)
    (hwrite : State.engWrite { s with nextId := s.nextId + 1 } (f.eng s core) f.issuer (f.chunks p) s.nextId = .ok [] S) :
    s.pieceOut core c p = if (S.trackWrite f.issuer core s.nextId).landedAt s.nextId f.tlr.scope
      then (S.trackWrite f.issuer core s.nextId).pieceLanded core f p else (S.trackWrite f.issuer core s.nextId).pieceSent core f p s.nextId := by
  subst hf
  have hnone : (c.readsOut p).find? (fun b => (s.team c.team).locBad (c.boxByte b) 1) = none :=
    List.find?_eq_none.2 (fun b hb => by rw [hsound b hb]; exact Bool.false_ne_true)
  unfold State.pieceOut
  simp only [hnone, hwrite]

/-- What a piece out of a box leaves, whether its writes are performed at once or are under way. -/
theorem copyPieceLands_out (h : s.SlipAt c.id core c) (ht : (mapGet? c.team s.teams).isSome = true) (hdue : s.pieceDue core c p = true)
    (hnew : ∀ x ∈ c.landing, x.1 ≠ p) (hdir : c.dir = 1) (hsound : ∀ b ∈ c.readsOut p, (s.team c.team).locBad (c.boxByte b) 1 = false) {S : State}
    (hwrite : State.engWrite { s.untimed c.id with nextId := s.nextId + 1 } (c.eng s core) c.issuer
      ((c.readSrc (s.team c.team) ((c.readsOut p).map c.boxByte)).chunks p) s.nextId = .ok [] S) :
    ∃ s' : State, exec (.copyPieceLands c.id p) s = .next s' ∧ s'.mem = S.mem ∧
      ((S.trackWrite c.issuer core s.nextId).landedAt s.nextId c.tlr.scope = true →
        s'.slip? c.id = some (core, (c.less p).withBuf (c.readSrc (s.team c.team) ((c.readsOut p).map c.boxByte)).buf) ∧
        (s.team c.team).Lowered (s'.team c.team) c.report (c.unlanded - (c.less p).unlanded)) ∧
      ((S.trackWrite c.issuer core s.nextId).landedAt s.nextId c.tlr.scope = false →
        (s.team c.team).Lowered (s'.team c.team) c.report (c.unlanded - (c.sent p s.nextId).unlanded) ∧
        (∀ t, t ≠ c.team → s'.team t = s.team t) ∧
        s'.slip? c.id = some (core, (c.sent p s.nextId).withBuf (c.readSrc (s.team c.team) ((c.readsOut p).map c.boxByte)).buf)) := by
  obtain ⟨b, hb⟩ : ∃ b, c.readSrc (s.team c.team) ((c.readsOut p).map c.boxByte) = c.withBuf b := ⟨_, c.readSrc_eq ..⟩
  rw [hb] at hwrite ⊢
  obtain ⟨hteams, hslip⟩ := State.engWrite_slip (g := c.eng s core) rfl hwrite (h.of_cores rfl)
  have hexec := copyPieceLands_exec h hdue
  have hpiece := State.pieceOut_ok (s := s.untimed c.id) (core := core) hb hsound hwrite
  rw [if_neg (by rw [SlipCmd.landing_new hnew]; exact Bool.false_ne_true), if_pos hdir, hpiece] at hexec
  have hmem : (S.trackWrite c.issuer core s.nextId).mem = S.mem := State.trackWrite_keep State.mem (fun _ _ => rfl) ..
  have hres : (S.trackWrite c.issuer core s.nextId).teams = s.teams := (State.trackWrite_keep State.teams (fun _ _ => rfl) ..).trans hteams
  have hat : (S.trackWrite c.issuer core s.nextId).SlipAt c.id core c := hslip.of_cores (State.trackWrite_keep State.cores (fun _ _ => rfl) ..)
  change exec _ s = .next (if (S.trackWrite c.issuer core s.nextId).landedAt s.nextId c.tlr.scope
    then (S.trackWrite c.issuer core s.nextId).pieceLanded core (c.withBuf b) p
    else (S.trackWrite c.issuer core s.nextId).pieceSent core (c.withBuf b) p s.nextId) at hexec
  refine ⟨_, hexec, ?_⟩
  clear hexec hpiece
  generalize S.trackWrite c.issuer core s.nextId = w at *
  have hteam : ∀ t, w.team t = s.team t := fun t => by rw [State.team, hres]; rfl
  cases hland : w.landedAt s.nextId c.tlr.scope with
  | true =>
    rw [if_pos rfl]
    have hdone := w.pieceLanded_done core (c.withBuf b) p
    refine ⟨(congrArg State.mem hdone.rest :).trans hmem, fun _ => ⟨(hdone.slip c hat).found, ?_⟩, fun h => absurd h (by decide)⟩
    exact (hdone.lowered (by rw [hres]; exact ht)).congr (fun k => congrArg (fun T : Team => T.kGet k) (hteam c.team))
  | false =>
    rw [if_neg Bool.false_ne_true]
    refine ⟨(w.mem_pieceSent ..).trans hmem, fun h => absurd h (by decide), fun _ => ⟨?_, fun t htc => ?_, (hat.pieceSent (c := c.withBuf b) ..).found⟩⟩
    · exact (State.pieceSent_lowered (c := c.withBuf b) (by rw [hres]; exact ht) core p s.nextId).congr
        (fun k => congrArg (fun T : Team => T.kGet k) (hteam c.team))
    · exact (State.team_pieceSent_ne w core (c := c.withBuf b) htc ..).trans (hteam t)

end Out

end Sys2Proof.Machine

namespace Sys2Proof.Machine

/-! ## A piece into the B store (R253, R270) -/

theorem State.serveHalves_idle {s : State} {core : Nat} (hwait : s.halfWaiters core = []) (hloop : (s.core core).loopWaiter = none) (fuel : Nat) :
    s.serveHalves core fuel = s := by
  cases fuel with
  | zero => rfl
  | succ fuel =>
    unfold State.serveHalves
    dsimp only
    rw [hwait, hloop]
    exact ite_eq_left_iff.2 (fun _ => rfl)

/-- The half of the B store that a command fills is full once it, and every other command that fills it, is over (R270). -/
def Core.fullNow (k : Core) (c : SlipCmd) (h : Nat) : Bool :=
  c.isOver && (k.bring.last h && k.bring.st h == 1 && !k.slips.any (fun x => x.dst == .bst h && !x.isOver))

theorem State.bring_halfLanded {s : State} {core : Nat} {c : SlipCmd} {h : Nat} (hdst : c.dst = .bst h) (hwait : s.halfWaiters core = [])
    (hloop : (s.core core).loopWaiter = none) :
    ((s.halfLanded core c).core core).bring = if (s.core core).fullNow c h then (s.core core).bring.setSt h 2 else (s.core core).bring := by
  unfold State.halfLanded Core.fullNow
  rw [hdst]
  dsimp only
  cases c.isOver with
  | false => rfl
  | true =>
    rw [if_pos rfl, Bool.true_and]
    unfold State.fullHalf
    dsimp only
    split
    · have hserve : (s.modCore core (fun k => { k with bring := k.bring.setSt h 2 })).serveHalves core 2 =
          s.modCore core (fun k => { k with bring := k.bring.setSt h 2 }) :=
        State.serveHalves_idle (s := s.modCore core (fun k => { k with bring := k.bring.setSt h 2 })) hwait (by rw [State.core_modCore_same]; exact hloop) 2
      rw [hserve, State.core_modCore_same]
    · rfl

theorem State.isSome_modTeam (s : State) (t : Nat) (f : Team → Team) (u : Nat) :
    (mapGet? u (s.modTeam t f).teams).isSome = (mapGet? u s.teams).isSome := by
  unfold State.modTeam
  cases hfound : mapGet? t s.teams with
  | none => rfl
  | some T =>
    by_cases hu : u = t
    · subst hu
      simp only [mapGet?_mapPut_same, hfound, Option.isSome_some]
    · simp only [mapGet?_mapPut_ne hu]

theorem State.isSome_landed (s : State) (t : Nat) (r : Report) (n u : Nat) :
    (mapGet? u (s.landed t r n).teams).isSome = (mapGet? u s.teams).isSome := by
  unfold State.landed
  split
  · split
    · rfl
    · exact State.isSome_modTeam ..
  · rfl

/-- Which requests wait for a half depends on them and on which teams are resident. -/
theorem State.halfWaiters_congr {s w : State} (hf : w.flights = s.flights) (ht : ∀ u, (mapGet? u w.teams).isSome = (mapGet? u s.teams).isSome) (core : Nat) :
    w.halfWaiters core = s.halfWaiters core := by
  unfold State.halfWaiters
  simp only [hf, ht]

/-- The core once a piece of a command has landed. -/
theorem State.bring_pieceLanded {s : State} {core : Nat} {c : SlipCmd} {h : Nat} (hdst : c.dst = .bst h) (hwait : s.halfWaiters core = [])
    (hloop : (s.core core).loopWaiter = none) (p : Nat) : ((s.pieceLanded core c p).core core).bring =
      if ((s.modSlip core c.id (fun _ => c.less p)).core core).fullNow (c.less p) h then (s.core core).bring.setSt h 2 else (s.core core).bring := by
  have hcore : ((s.modSlip core c.id (fun _ => c.less p)).landed c.team c.report (c.unlanded - (c.less p).unlanded)).core core =
      (s.modSlip core c.id (fun _ => c.less p)).core core := State.landed_keep (fun w => w.core core) (fun _ _ => rfl) ..
  have hflights : ((s.modSlip core c.id (fun _ => c.less p)).landed c.team c.report (c.unlanded - (c.less p).unlanded)).flights = s.flights :=
    State.landed_keep State.flights (fun _ _ => rfl) ..
  have hbring : ((s.modSlip core c.id (fun _ => c.less p)).core core).bring = (s.core core).bring := by rw [State.modSlip, State.core_modCore_same]
  have hhalf := State.bring_halfLanded (c := c.less p) hdst ((State.halfWaiters_congr hflights (State.isSome_landed _ _ _ _) core).trans hwait)
    (by rw [hcore, State.modSlip, State.core_modCore_same]; exact hloop)
  rw [hcore, hbring] at hhalf
  rw [State.pieceLanded_eq, State.slipPresent_keep (fun w => w.core core) (fun _ _ => rfl), ← hhalf]
  unfold State.unlockSlip
  split
  · rw [State.core_modCore_same]
    rfl
  · rfl

end Sys2Proof.Machine

namespace Sys2Proof.Machine

/-! ### The half that a piece fills -/

section Half
variable {s : State} {core : Nat} {c : SlipCmd} {h p : Nat}

theorem State.active_of_pieceDue (hdue : s.pieceDue core c p = true) : c.active = true := by
  unfold State.pieceDue at hdue
  exact (Bool.and_eq_true_iff.1 hdue).1

theorem SlipCmd.isOver_less (hactive : c.active = true) (p : Nat) : (c.less p).isOver = ((c.less p).todo.isEmpty && (c.less p).landing.isEmpty) := by
  have herr : c.err = false := by
    simp only [SlipCmd.active, Bool.and_eq_true, Bool.not_eq_true'] at hactive
    exact hactive.1.1
  have hless : (c.less p).active = true := hactive
  have herr' : (c.less p).err = false := herr
  rw [SlipCmd.isOver, hless, herr', Bool.false_or, Bool.true_and]

theorem State.fullNow_less : ((s.modSlip core c.id (fun _ => c.less p)).core core).fullNow (c.less p) h =
    ((c.less p).isOver && ((s.core core).bring.last h && (s.core core).bring.st h == 1 &&
      (s.core core).slips.all (fun x => x.id == c.id || x.dst != .bst h || x.isOver))) := by
  unfold Core.fullNow
  rw [State.modSlip, State.core_modCore_same]
  dsimp only
  cases hover : (c.less p).isOver with
  | false => rfl
  | true =>
    rw [List.any_map, List.not_any_eq_all_not]
    refine congrArg (fun b => true && ((s.core core).bring.last h && (s.core core).bring.st h == 1 && b)) (List.all_congr ?_ ?_)
    · rfl
    · intro x
      cases hx : x.id == c.id with
      | true => simp [eq_of_beq hx, hover]
      | false => simp [ne_of_beq_false hx, bne]

/-- The bytes of a copy that does not expand. -/
theorem SlipCmd.byteAt_plain (htgt : c.tgt = none) (d : EngData) (gap : Byte) (b : Nat) : c.byteAt d gap b = ((c.byteAt d 0 b).1, false) := by
  unfold SlipCmd.byteAt
  rw [htgt]
  dsimp only
  split
  · rfl
  · rfl

/-- A core whose B store holds some bytes. -/
def Core.boxed (k : Core) (a : Nat) (bs : List Byte) : Core :=
  { k with bring := { k.bring with bytes := putBytes k.bring.bytes a bs }, bpoison := clearPoison k.bpoison a bs.length }

theorem State.pieceWritten_bst (hdst : c.dst = .bst h) (htgt : c.tgt = none) (hdir : c.dir ≠ 1) (hrows : c.rows = none) (d : EngData) (gap : Byte) :
    (c.outBytes d gap p).any (·.2.2) = false ∧ s.pieceWritten core c p (c.outBytes d gap p) =
      s.modCore core (fun k => k.boxed (h * 2 ^ 18 + c.off + 64 * p) ((c.span p).map (fun b => (c.byteAt d 0 b).1))) := by
  have hany : (c.outBytes d gap p).any (·.2.2) = false := by
    rw [SlipCmd.any_outBytes hdir hrows]
    exact List.any_eq_false.2 (fun b _ => by rw [SlipCmd.byteAt_plain htgt]; exact Bool.false_ne_true)
  have hput : (c.outBytes d gap p).map (fun x => (x.1, x.2.1)) = (c.span p).map (fun b => (b, (c.byteAt d 0 b).1)) := by
    rw [SlipCmd.outBytes, SlipCmd.writes_eq_span hdir hrows, List.map_map]
    exact List.map_congr_left (fun b _ => by rw [Function.comp_apply, SlipCmd.byteAt_plain htgt])
  refine ⟨hany, ?_⟩
  have hbox : ∀ bs, s.putBox core c p bs = s.modCore core (fun k => { k with
      bring := { k.bring with bytes := putBytes k.bring.bytes (h * 2 ^ 18 + c.off + 64 * p) (bs.map (·.2)) }
      bpoison := clearPoison k.bpoison (h * 2 ^ 18 + c.off + 64 * p) bs.length }) := fun bs => by
    unfold State.putBox
    rw [hdst]
  unfold State.pieceWritten
  dsimp only
  rw [hany, hput, hbox, if_neg Bool.false_ne_true]
  simp only [List.map_map, List.length_map, Core.boxed]
  rfl

theorem BRing.bytes_setSt (b : BRing) (h v : Nat) : (b.setSt h v).bytes = b.bytes := by
  unfold BRing.setSt
  split
  · rfl
  · rfl

theorem BRing.st_setSt (b : BRing) (h v : Nat) : (b.setSt h v).st h = v := by
  unfold BRing.setSt BRing.st
  split
  · rfl
  · rfl

end Half

/-- What a piece into the B store leaves. -/
theorem copyPieceLands_bst {s : State} {core : Nat} {c : SlipCmd} {p half : Nat} (h : s.SlipAt c.id core c)
    (ht : (mapGet? c.team s.teams).isSome = true) (hdue : s.pieceDue core c p = true)
    (hnew : ∀ x ∈ c.landing, x.1 ≠ p) (hdir : c.dir ≠ 1) (htgt : c.tgt = none) (hrows : c.rows = none) (hdst : c.dst = .bst half) {d : EngData} {S : State}
    (hdata : (s.untimed c.id).pieceData core (c.fetched (s.team c.team) p) p = .ok d S)
    (hbad : partlyBad (s.core core).bpoison ((c.span p).map (fun b => half * 2 ^ 18 + c.off + b)) = false)
    (hwait : s.halfWaiters core = []) (hloop : (s.core core).loopWaiter = none) :
    ∃ s' : State, exec (.copyPieceLands c.id p) s = .next s' ∧ s'.mem = S.mem ∧
      s'.slip? c.id = some (core, (c.less p).withBuf (c.fetched (s.team c.team) p).buf) ∧
      (s.team c.team).Lowered (s'.team c.team) c.report (c.unlanded - (c.less p).unlanded) ∧
      (s'.core core).bring.bytes = putBytes (s.core core).bring.bytes (half * 2 ^ 18 + c.off + 64 * p) ((c.span p).map (fun b => (c.byteAt d 0 b).1)) ∧
      (s'.core core).bring.st half = if (c.less p).todo.isEmpty && (c.less p).landing.isEmpty && (s.core core).bring.last half &&
        (s.core core).bring.st half == 1 && (s.core core).slips.all (fun x => x.id == c.id || x.dst != .bst half || x.isOver) then 2
        else (s.core core).bring.st half := by
  obtain ⟨⟨hteams, hflights, hcore⟩, hslip⟩ := State.pieceData_reads hdata (h.of_cores (w := s.untimed c.id) rfl)
  obtain ⟨tlb, l1, hcore⟩ := hcore core
  obtain ⟨b, hb⟩ : ∃ b, c.fetched (s.team c.team) p = c.withBuf b := ⟨_, c.fetched_eq (s.team c.team) p⟩
  rw [hb] at hdata ⊢
  have hbox : S.boxBad core (c.withBuf b) ((c.withBuf b).writes p) = false := by
    unfold State.boxBad
    have hdst' : (c.withBuf b).dst = .bst half := hdst
    rw [hdst', SlipCmd.writes_eq_span (c := c.withBuf b) hdir hrows, hcore]
    exact hbad
  have hin := State.pieceIn_ok (s := s.untimed c.id) hb hdata hbox
  have hexec := copyPieceLands_exec h hdue
  rw [if_neg (by rw [SlipCmd.landing_new hnew]; exact Bool.false_ne_true), if_neg hdir, hin] at hexec
  have hfree : ∃ n, (S.freeBytes 1).2 = { S with fresh := n } := ⟨_, rfl⟩
  generalize (S.freeBytes 1).1.getD 0 0 = gap at hexec
  generalize (S.freeBytes 1).2 = G at hexec hfree
  obtain ⟨hany, hwritten⟩ := State.pieceWritten_bst (s := G) (core := core) (c := c.withBuf b) (p := p) hdst htgt hdir hrows d gap
  have hplain : (c.withBuf b).orXov false = c.withBuf b := by rw [SlipCmd.orXov, Bool.or_false]
  rw [hany, hwritten, hplain] at hexec
  refine ⟨_, hexec, ?_⟩
  clear hexec hwritten hin
  obtain ⟨n, rfl⟩ := hfree
  have hk : (State.modCore { S with fresh := n } core (fun k => k.boxed (half * 2 ^ 18 + (c.withBuf b).off + 64 * p)
      (((c.withBuf b).span p).map (fun x => ((c.withBuf b).byteAt d 0 x).1)))).core core =
      (S.core core).boxed (half * 2 ^ 18 + c.off + 64 * p) ((c.span p).map (fun x => (c.byteAt d 0 x).1)) := State.core_modCore_same ..
  rw [hcore] at hk
  have hat : (State.modCore { S with fresh := n } core (fun k => k.boxed (half * 2 ^ 18 + (c.withBuf b).off + 64 * p)
      (((c.withBuf b).span p).map (fun x => ((c.withBuf b).byteAt d 0 x).1)))).SlipAt c.id core c :=
    (hslip.of_cores (w := { S with fresh := n }) rfl).modCore_keep (fun _ => rfl)
  have hkeep : ∀ {α : Type} (g : State → α), (∀ w k, g { w with cores := k } = g w) → (∀ w m, g { w with fresh := m } = g w) →
      g (State.modCore { S with fresh := n } core (fun k => k.boxed (half * 2 ^ 18 + (c.withBuf b).off + 64 * p)
      (((c.withBuf b).span p).map (fun x => ((c.withBuf b).byteAt d 0 x).1)))) = g S := fun g hg hf => (hg ..).trans (hf ..)
  generalize State.modCore { S with fresh := n } core (fun k => k.boxed (half * 2 ^ 18 + (c.withBuf b).off + 64 * p)
    (((c.withBuf b).span p).map (fun x => ((c.withBuf b).byteAt d 0 x).1))) = W at hk hat hkeep ⊢
  have hteam : W.teams = s.teams := (hkeep State.teams (fun _ _ => rfl) (fun _ _ => rfl)).trans hteams
  have hfl : W.flights = s.flights := (hkeep State.flights (fun _ _ => rfl) (fun _ _ => rfl)).trans hflights
  have hself : W.team c.team = s.team c.team := by rw [State.team, hteam]; rfl
  have hidle : W.halfWaiters core = [] := (State.halfWaiters_congr hfl (fun u => by rw [hteam]) core).trans hwait
  have hloop' : (W.core core).loopWaiter = none := by rw [hk]; exact hloop
  have hbring := State.bring_pieceLanded (c := c.withBuf b) hdst hidle hloop' p
  obtain ⟨hrest, -, hlandSlip, hlowered, -, -⟩ := W.pieceLanded_done core (c.withBuf b) p
  generalize W.pieceLanded core (c.withBuf b) p = s' at *
  rw [State.fullNow_less (c := c.withBuf b), SlipCmd.isOver_less (c := c.withBuf b) (State.active_of_pieceDue hdue)] at hbring
  refine ⟨(congrArg State.mem hrest :).trans (hkeep State.mem (fun _ _ => rfl) (fun _ _ => rfl)), (hlandSlip c hat).found,
    (hlowered (by rw [hteam]; exact ht)).congr (fun k => congrArg (fun T : Team => T.kGet k) hself), ?_, ?_⟩
  · rw [hbring, hk]
    split
    · exact BRing.bytes_setSt ..
    · rfl
  · rw [hbring, hk, apply_ite (fun b : BRing => b.st half), BRing.st_setSt, ← Bool.and_assoc, ← Bool.and_assoc]
    rfl

end Sys2Proof.Machine

namespace Sys2Proof.Machine

theorem mapGet?_isSome_of_key {α : Type} {k : Nat} {m : List (Nat × α)} (h : k ∈ m.map (·.1)) : (mapGet? k m).isSome = true := by
  obtain ⟨⟨j, v⟩, hv, rfl⟩ := List.mem_map.1 h
  exact mapGet?_isSome_of_mem hv

/-- Settles O46: a piece of 64 bytes is read and written in one event (notes/assumptions/12). -/
theorem slipEvents : Obligations.SlipEvents := by
  intro s id core c hfound hhere hmem
  have h : s.SlipAt id core c := ⟨hfound, hhere⟩
  obtain rfl := h.id_eq
  have ht : (mapGet? c.team s.teams).isSome = true := mapGet?_isSome_of_key hmem
  intro T s0 rest less left counted stands
  have hrest : rest = c.rest := funext fun p => (c.rest_eq p).symm
  have hleft : left = SlipCmd.unlanded := funext fun c => c.unlanded_eq.symm
  clear_value rest left
  subst hrest hleft
  refine ⟨fun p d S u hdue hnew hdir hrows hfill hdata hbad => ?_, fun p half d S hdue hnew hdir htgt hrows hdst hdata hbad hwait hloop => ?_,
    fun p S hdue hnew hdir hsound hwrite => ?_, fun p w hdue hland => copyPieceLands_performed h ht hdue hland,
    fun hdue => copyComplete_cases h hdue, fun n hr hover hpushed hroom => completionPortPush_room h hr hover hpushed hroom,
    fun first last addr hstall hwheel hcoil => stalled_cases h hstall hwheel hcoil, fun cls addr hfail => commandAbandon_fails h ht hfail⟩
  · have hfills : c.Fills u := hfill.imp id And.left
    have hu : (mapGet? u s.teams).isSome = true := by
      rcases hfill with ⟨-, rfl⟩ | ⟨-, hu⟩
      · exact ht
      · exact mapGet?_isSome_of_key hu
    exact copyPieceLands_fills h ht hdue hnew hdir hrows hfills hu hdata hbad
  · obtain ⟨s', hexec, hm, hslip, hlow, hbytes, hst⟩ := copyPieceLands_bst h ht hdue hnew hdir htgt hrows hdst hdata hbad hwait hloop
    refine ⟨s', hexec, hm, hslip, hlow, fun x => ?_, hst⟩
    rw [hbytes, SlipCmd.span_eq]
    exact mapGet?_putBytes_range ..
  · exact copyPieceLands_out h ht hdue hnew hdir hsound hwrite

end Sys2Proof.Machine

namespace Sys2Proof.Laws.RoundTrip

/-! ## Every instruction is decoded from its word (R40 to R52) -/

open Sys2Proof.Machine

/-- What has no entry in the encoding tables has no word. -/
theorem statement_of_info_none {i : Instr} (h : info i = none) : Statement i := by
  intro w _ he
  rw [encode, h] at he
  cases he

/-- Every instruction that is well formed is decoded from its word (R40 to R52); an event has none. -/
theorem statement_holds (i : Instr) : Statement i := by
  cases i with
  -- course engine
  | nop => apply nop | btl => apply btl | bra => apply bra | brx => apply brx | call => apply call
  | callx => apply callx | ret => apply ret | exit => apply exit | trap => apply trap | yield => apply yield
  | bar => apply bar | pldr => apply pldr | pand => apply pand | por => apply por | pxor => apply pxor
  | pandn => apply pandn | pnot => apply pnot | pmov => apply pmov | voteAny => apply voteAny | voteAll => apply voteAll
  | voteBallot => apply voteBallot | voteCount => apply voteCount | xset => apply xset | xadd => apply xadd
  | qbind => apply qbind | qstat => apply qstat | srd => apply srd | swr => apply swr | tret => apply tret
  | sret => apply sret | csave => apply csave | cloadLd => apply cloadLd | cloadRun => apply cloadRun
  | cloadGo => apply cloadGo | cloadEnd => apply cloadEnd
  -- lane ALU, integer
  | add => apply add | sub => apply sub | mul => apply mul | mulh => apply mulh | mad => apply mad | madw => apply madw
  | div => apply div | rem => apply rem | min => apply min | max => apply max | abs => apply abs | neg => apply neg
  | and => apply and | or => apply or | xor => apply xor | not => apply not | andn => apply andn | shl => apply shl
  | shr => apply shr | sra => apply sra | rot => apply rot | clz => apply clz | popc => apply popc | brev => apply brev
  | ctz => apply ctz | bfx => apply bfx | bfi => apply bfi | prmt => apply prmt | sel => apply sel | cmp => apply cmp
  | addc => apply addc | lea => apply lea | mov => apply mov | ldiF96 => apply ldiF96 | ldiF128 => apply ldiF128
  -- lane ALU, float
  | fadd => apply fadd | fsub => apply fsub | fmul => apply fmul | ffma => apply ffma | fmin => apply fmin
  | fmax => apply fmax | fcmp => apply fcmp | fclass => apply fclass | frnd => apply frnd | fdiv => apply fdiv
  | fsqrt => apply fsqrt | frcp => apply frcp | frsq => apply frsq | fex2 => apply fex2 | flg2 => apply flg2
  | fsin => apply fsin | fcos => apply fcos | ftanh => apply ftanh | fdot2 => apply fdot2 | fscal => apply fscal
  -- conversions
  | cvt => apply cvt | cvtmxQ => apply cvtmxQ | cvtmxD => apply cvtmxD | cvtmxS => apply cvtmxS | pk => apply pk
  | upk => apply upk
  -- cross-lane
  | shfl => apply shfl | qx => apply qx | qbc => apply qbc | credc => apply credc | cscan => apply cscan
  | matchx => apply matchx
  -- load-store engine
  | ld => apply ld | st => apply st | ldl => apply ldl | stl => apply stl | ldr => apply ldr | str => apply str
  | ldk => apply ldk | pf => apply pf | latom => apply latom | lpresQ => apply lpresQ | lpresClr => apply lpresClr
  | lpresSet => apply lpresSet | tlbi => apply tlbi | asgen => apply asgen
  -- slice engine and ordering
  | fence => apply fence | cflush => apply cflush | cwb => apply cwb | cinv => apply cinv | cspan => apply cspan
  | nred => apply nred | wwait => apply wwait | wwake => apply wwake | mswin => apply mswin
  -- service course
  | atom => apply atom | txb => apply txb | txld => apply txld | txst => apply txst | txe => apply txe
  | txa => apply txa | dalloc => apply dalloc | dfree => apply dfree
  -- Slip
  | slipLd => apply slipLd | slipSt => apply slipSt | slipRl => apply slipRl | slipBs => apply slipBs
  | slipx => apply slipx | slipc => apply slipc | tlr => apply tlr | rinit => apply rinit | rwait => apply rwait
  | rwaitB => apply rwaitB | rrel => apply rrel | rrelB => apply rrelB | rstatRing => apply rstatRing
  | rstatB => apply rstatB | rstatSt => apply rstatSt | rstatStc => apply rstatStc
  -- Wheel
  | wcfg => apply wcfg | wzero => apply wzero | wloop => apply wloop | wdrain => apply wdrain | waccRd => apply waccRd
  | waccWr => apply waccWr | wstat => apply wstat
  -- Coil
  | cdef => apply cdef | cdefFree => apply cdefFree | cjob => apply cjob | cseal => apply cseal | ccarLd => apply ccarLd
  | ccarSt => apply ccarSt | cstat => apply cstat
  -- node dispatcher
  | nsig => apply nsig | nwait => apply nwait | nlaunch => apply nlaunch
  -- fabric port
  | gst => apply gst | gwait => apply gwait | gsn => apply gsn | fred => apply fred | fbar => apply fbar
  -- events
  | _ => exact statement_of_info_none rfl

end Sys2Proof.Laws.RoundTrip

namespace Sys2Proof.Machine

open Sys2Proof.Laws

/-- A well-formed instruction has a word. -/
theorem encode_of_wellFormed {i : Instr} (h : WellFormed i) : ∃ w, encode i = some w := by
  cases hinfo : info i with
  | none => simp [WellFormed, wfErrors, hinfo] at h
  | some f => exact ⟨_, by rw [encode, hinfo]; rfl⟩

/-- Settles O59, by what each instruction's word decodes to. -/
theorem encodeThenDecode : Obligations.EncodeThenDecode := by
  intro i hwf
  obtain ⟨w, hw⟩ := encode_of_wellFormed hwf
  exact ⟨w, hw, RoundTrip.statement_holds i w hwf hw⟩

end Sys2Proof.Machine

namespace Sys2Proof.Machine

/-! ## The words of the spec -/

/-- Settles O57: each word is a closed number, which the decoder reads. -/
theorem specWordsDecode : Obligations.SpecWordsDecode := by
  unfold Obligations.SpecWordsDecode
  decide +kernel

end Sys2Proof.Machine

namespace Sys2Proof.Machine

/-! ## Decoding in two steps (R53, R54) -/

theorem decodeHead_op {w op : Nat} {form : Form} (h : decodeHead w = .ok (op, form)) : op = fld w 2 8 := by
  unfold decodeHead at h
  dsimp only at h
  split at h
  · cases h
  · split at h
    · cases h
    · split at h
      · cases h
      · cases h; rfl

/-- A word that decodes has a head that decodes, and then its body. -/
theorem decode_ok {w : Nat} {i : Instr} (h : decode w = .ok i) :
    ∃ form, decodeHead w = .ok (fld w 2 8, form) ∧ decodeBody form w = .ok i := by
  unfold decode at h
  split at h
  · cases h
  · next op form hhead => exact ⟨form, decodeHead_op hhead ▸ hhead, h⟩

/-! ## The instruction at a granule (R35, R39, R54) -/

/-- The PC that names a granule of its line is the address of that granule (R35, R39). -/
theorem granuleAddr_granuleOf {pc : Word} {g : Nat} (h : granuleOf pc = some g) : granuleAddr (lineOf pc) g = pc := by
  simp only [granuleOf, Option.ite_none_right_eq_some, Bool.and_eq_true, decide_eq_true_eq, beq_iff_eq, Option.some.injEq] at h
  obtain ⟨⟨hlow, halign⟩, rfl⟩ := h
  rw [granuleAddr, lineOf, show 8 + 4 * ((pc.toNat % 128 - 8) / 4) = pc.toNat % 128 by omega, BitVec.sub_add_cancel]

/-- The instructions that only a trailer may follow (R50), as `decodeAt` tests for them. -/
theorem endsBatch_iff (op : Nat) : ((0x02 ≤ op && op ≤ 0x07) || op == 0x14 || op == 0x15 || op == 0x0A) = true ↔
    op ∈ [0x02, 0x03, 0x04, 0x05, 0x06, 0x07, 0x0A, 0x14, 0x15] := by
  simp only [Bool.or_eq_true, Bool.and_eq_true, decide_eq_true_eq, beq_iff_eq, List.mem_cons, List.not_mem_nil, or_false]
  omega

theorem State.noTrailer_eq_false_iff {s : State} {t : Nat} {succ : Word} {succIn : Bool} :
    s.noTrailer t succ succIn = false ↔ s.opAt t succ succIn = none ∨ s.opAt t succ succIn = some (some 0x04) := by
  unfold State.noTrailer
  cases s.opAt t succ succIn <;> simp [btlHead]

/-- An instruction of supervisor mode passes where the team is in it (R54). -/
theorem supOnly_passes {op : Nat} {sup : Bool} (h : supOnly op = true → sup = true) : (supOnly op && !sup) = false := by
  cases hop : supOnly op
  · rfl
  · rw [h hop]; rfl

section DecodeAt
variable {s : State} {t issued : Nat} {line : Word} {w g : Nat}

/-- The word that stands at granule `g` of a fetch line. -/
def wordAt (w g : Nat) : Nat := fld w (64 + 32 * g) (32 * instLen w g)

/-- A cohort may not issue the instruction `op` where it stands: the batch is full, or a trailer is missing (R50). -/
def State.Misplaced (s : State) (t issued op : Nat) (succ : Word × Bool) : Prop :=
  (op ≠ 0x01 ∧ 24 ≤ issued) ∨
    (op ∈ [0x02, 0x03, 0x04, 0x05, 0x06, 0x07, 0x0A, 0x14, 0x15] ∧ s.noTrailer t succ.1 succ.2 = true)

theorem State.misplaced_iff {op : Nat} {succ : Word × Bool} : s.Misplaced t issued op succ ↔
    ((op != 0x01 && 24 ≤ issued) || ((0x02 ≤ op && op ≤ 0x07) || op == 0x14 || op == 0x15 || op == 0x0A) &&
      s.noTrailer t succ.1 succ.2) = true := by
  rw [Bool.or_eq_true, Bool.and_eq_true, Bool.and_eq_true, endsBatch_iff, bne_iff_ne, decide_eq_true_eq, State.Misplaced]

theorem State.decodeAt_badHead {n : Nat} (hhead : decodeHead (wordAt w g) = .error n) :
    s.decodeAt t issued line w g = .fault (illegal n) (granuleAddr line g) := by
  unfold wordAt at hhead
  simp only [State.decodeAt, hhead]

theorem State.decodeAt_misplaced {op : Nat} {form : Form} (hhead : decodeHead (wordAt w g) = .ok (op, form))
    (hsup : supOnly op = true → (s.team t).sup = true) (hbad : s.Misplaced t issued op (s.successor t line w g)) :
    s.decodeAt t issued line w g = .fault (illegal 0x04) (granuleAddr line g) := by
  unfold wordAt at hhead
  simp only [State.decodeAt, hhead, supOnly_passes hsup, State.misplaced_iff.1 hbad, Bool.false_eq_true, if_false, if_true]

theorem State.decodeAt_issues {i : Instr} (hi : decode (wordAt w g) = .ok i)
    (hsup : supOnly (fld (wordAt w g) 2 8) = true → (s.team t).sup = true)
    (hgood : ¬s.Misplaced t issued (fld (wordAt w g) 2 8) (s.successor t line w g)) :
    let succ := s.successor t line w g
    ∃ link, s.decodeAt t issued line w g = .issue i (granuleAddr line g) succ.1 succ.2 link ∧
      ∀ w' j, s.peekLine t (lineOf succ.1) = some w' → granuleOf succ.1 = some j → link = (s.successor t (lineOf succ.1) w' j).1 := by
  obtain ⟨form, hhead, hbody⟩ := decode_ok hi
  have hpriv := supOnly_passes hsup
  rw [State.misplaced_iff, Bool.not_eq_true] at hgood
  unfold wordAt at hhead hbody hpriv hgood
  simp only [State.decodeAt, hhead, hbody, hpriv, hgood, Bool.false_eq_true, if_false]
  exact ⟨_, rfl, fun w' j hw hj => by simp only [hw, hj]⟩

/-- The front end of a cohort at an instruction of a line that it can fetch and that is well formed (R37, R39, R54). -/
theorem State.frontEnd_line {c : Nat} {pc : Word} (hline : s.fetch t c (lineOf pc) = .line w) (hform : lineReason w = none)
    (hg : granuleOf pc = some g) (hstart : bitN (lineStart w) g = true) :
    s.frontEnd t c pc false issued = s.decodeAt t issued (lineOf pc) w g := by
  simp only [State.frontEnd, hline, hform, hg, hstart, Bool.false_eq_true, if_false, if_true]

end DecodeAt

/-! ## The issue cycle (R65, R72) -/

/-- The state in which a sequencer that has chosen a course fetches for it: it has taken its turn, and the course has begun a batch
where it was in none. -/
def State.turned (s : State) (core q t c : Nat) : State :=
  let fresh := (s.later.course t c).coh.isNone
  let A := (s.later.takeTurn core q (t, c)).setRunning core q (t, c) fresh
  if fresh then A.beginBatch t c else A

theorem State.takeTurn_coh (s : State) (core q : Nat) (tc : Nat × Nat) (t c : Nat) :
    ((s.takeTurn core q tc).course t c).coh = (s.course t c).coh :=
  State.team_modTeam_keep (fun T => (T.course c).coh) s tc.1 (fun T => { T with turn := some (s.cycle (coreCol core), tc.2) }) (fun _ => rfl) t

section Issue
variable {s : State} {core q t c : Nat} {h : Cohort}

theorem step_issue (hch : s.later.chosen = some (.issue core q)) (hpick : s.later.pick core q = some (t, c)) :
    step s = afterIssue (s.later.issueFor core q t c) := by
  simp only [step, hch, State.perform, State.issueAt, hpick]

/-- An instruction that the front end finds is executed at its place. -/
theorem step_runs (hch : s.later.chosen = some (.issue core q)) (hpick : s.later.pick core q = some (t, c))
    (hcoh : ((s.turned core q t c).course t c).coh = some h) {i : Instr} {pc succ : Word} {succIn : Bool} {link : Word}
    (hfront : (s.turned core q t c).frontEnd t c h.pc h.succIn h.issued = .issue i pc succ succIn link) :
    step s = exec i ((s.turned core q t c).standAt t c pc succ succIn link) := by
  rw [step_issue hch hpick, State.issueFor, State.takeTurn_coh]
  unfold State.turned at hcoh hfront ⊢
  simp only [hcoh, hfront, afterIssue]

/-- A fault that the front end finds in a line entered at an instruction reaches every lane of the cohort. -/
theorem step_faults (hch : s.later.chosen = some (.issue core q)) (hpick : s.later.pick core q = some (t, c))
    (hcoh : ((s.turned core q t c).course t c).coh = some h) (hin : h.succIn = false) {f : FltRec} {pc : Word}
    (hfront : (s.turned core q t c).frontEnd t c h.pc h.succIn h.issued = .fault f pc) :
    step s = .next (((s.turned core q t c).endFetch t c).deliver t c (h.lanes.map (fun l => (l, f))) pc pc false h.issued) := by
  rw [step_issue hch hpick, State.issueFor, State.takeTurn_coh]
  rw [hin] at hfront
  unfold State.turned at hcoh hfront ⊢
  simp only [hcoh, hfront, afterIssue, State.stillToEnter, hin, Bool.false_and, Bool.not_false, if_true]

end Issue

theorem State.chosen_mem {s : State} {x : Choice} (h : s.chosen = some x) : x ∈ s.choices := by
  unfold State.chosen at h
  split at h
  · cases h
  · next hc => cases h; simp [hc]
  · next hc => rw [hc]; exact List.mem_of_getElem? h

/-- Only an event that is due is chosen as one. -/
theorem State.due_of_chosen {s : State} {i : Instr} (h : s.chosen = some (.event i)) : i ∈ s.due := by
  have := State.chosen_mem h
  simpa [State.choices] using this

theorem State.focus_standAt (s : State) (t c : Nat) (pc succ : Word) (succIn : Bool) (link : Word) :
    (s.standAt t c pc succ succIn link).focus = some (t, c) := rfl

/-- Settles O58: the front end's outcome for the granule at the PC, and what the step makes of it. -/
theorem stepRunsDecoded : Obligations.StepRunsDecoded := by
  intro s
  refine ⟨fun hch => by simp only [step, hch], fun i hch => ⟨State.due_of_chosen hch, by simp only [step, hch, State.perform]⟩,
    fun i hch => by simp only [step, hch, State.perform, State.performInput], ?_⟩
  intro core q t c h w g hch hpick fresh A S line word op succ succIn hcoh hin hline hform hg hstart
  have hfront : S.frontEnd t c h.pc h.succIn h.issued = S.decodeAt t h.issued line w g := by
    rw [hin]; exact State.frontEnd_line hline hform hg hstart
  have hpc : granuleAddr line g = h.pc := granuleAddr_granuleOf hg
  refine ⟨fun i hi hsup hroom hnext => ?_, fun i x hi hsup hop hbad => ?_, fun n hhead => ?_⟩
  · have hgood : ¬S.Misplaced t h.issued op (S.successor t line w g) := by
      rintro (⟨hop, hfull⟩ | ⟨hlast, hno⟩)
      · exact hroom.elim hop (by omega)
      · rw [State.noTrailer_eq_false_iff.2 (hnext.resolve_left (not_not_intro hlast))] at hno
        cases hno
    obtain ⟨link, hat, hlink⟩ := State.decodeAt_issues hi hsup hgood
    rw [hat, hpc] at hfront
    exact ⟨link, step_runs hch hpick hcoh hfront, State.focus_standAt .., hlink⟩
  · have hmis : S.Misplaced t h.issued op (S.successor t line w g) := by
      refine hbad.imp (fun hfull => ⟨hop, hfull⟩) (fun ⟨hlast, hat, hx⟩ => ⟨hlast, ?_⟩)
      refine Bool.of_not_eq_false (fun hno => ?_)
      rw [State.noTrailer_eq_false_iff] at hno
      rcases hno with hno | hno
      · cases hat.symm.trans hno
      · exact hx (Option.some.inj (hat.symm.trans hno))
    obtain ⟨form, hhead, -⟩ := decode_ok hi
    rw [State.decodeAt_misplaced hhead hsup hmis, hpc] at hfront
    exact step_faults hch hpick hcoh hin hfront
  · rw [State.decodeAt_badHead hhead, hpc] at hfront
    exact step_faults hch hpick hcoh hin hfront

end Sys2Proof.Machine

namespace Sys2Proof.Machine

/-! ## The checks of a trailer (R51, R53) -/

theorem trailerFault_none {T : Team} {o : Ops} {count issued : Nat} (hcount : issued = count) (hlow : 1 ≤ count) (hhigh : count ≤ 24)
    (hports : ∀ x ∈ [o.d, o.a.op, o.b.op], ∀ n, x = .eq n → T.portOf n ≠ 0) : trailerFault T o count issued = none := by
  have hcounts : ¬(count ≠ issued || count = 0 || 24 < count) = true := by
    simp only [Bool.or_eq_true, decide_eq_true_eq]
    omega
  have hbound : (trailerQueues o).find? (fun n => T.portOf n == 0) = none := by
    refine List.find?_eq_none.2 (fun n hn => ?_)
    obtain ⟨x, hx, hxn⟩ := List.mem_filterMap.1 hn
    have hxeq : x = .eq n := by
      cases x <;> simp only [eqOf, Option.some.injEq, reduceCtorEq] at hxn
      rw [hxn]
    simpa using hports x hx n hxeq
  rw [trailerFault, if_neg hcounts, hbound]
  rfl

/-! ## Lanes of a course at its trailer (R51, R63, R66) -/

/-- What classification may make of a class: a helper lane may become absent (R63). -/
def LaneCls.Classified (k k' : LaneCls) : Prop := k' = k ∨ (k = .helper ∧ k' = .absent)

theorem LaneCls.Classified.eq {k k' : LaneCls} (h : k.Classified k') (hk : k ≠ .helper) : k' = k :=
  h.resolve_right (fun e => hk e.1)

theorem classify_getD {ls : List Lane} {l : Nat} (h : l < ls.length) :
    ∃ k, (ls.getD l {}).cls.Classified k ∧ (classify ls).getD l {} = { ls.getD l {} with cls := k } := by
  simp only [classify, List.getD_eq_getElem?_getD, List.getElem?_map, List.getElem?_range h, Option.map_some, Option.getD_some]
  split
  · next hc =>
    rw [Bool.and_eq_true, beq_iff_eq] at hc
    exact ⟨.absent, .inr ⟨hc.1, rfl⟩, rfl⟩
  · exact ⟨_, .inl rfl, rfl⟩

/-- A lane as the trailer of a cohort leaves it, before lanes are classified. -/
def Course.trailerLane (C : Course) (h : Cohort) (l : Nat) : Lane :=
  if h.lanes.contains l then (C.lane l).atTrailer h.succ h.succIn
  else if (C.active h.lanes).contains l then { C.lane l with twr := 0 } else C.lane l

theorem Course.lane_trailer {C : Course} {l : Nat} (hl : l < C.lanes.length) (h : Cohort) (awaits : List Nat) :
    ∃ k, (C.trailerLane h l).cls.Classified k ∧ (C.trailer h awaits).lane l = { C.trailerLane h l with cls := k } := by
  have := classify_getD (ls := (List.range C.lanes.length).map (C.trailerLane h)) (l := l) (by simpa using hl)
  have hat : ((List.range C.lanes.length).map (C.trailerLane h)).getD l {} = C.trailerLane h l := by
    simp [List.getD_eq_getElem?_getD, hl]
  rw [hat] at this
  exact this

theorem Course.lane_trailer_live {C : Course} {h : Cohort} {l : Nat} (hout : l ∉ h.lanes) (hact : l ∉ C.active h.lanes)
    (hlive : (C.lane l).cls = .live) (awaits : List Nat) : (C.trailer h awaits).lane l = C.lane l := by
  have hsame : C.trailerLane h l = C.lane l := by simp [Course.trailerLane, hout, hact]
  have hl : l < C.lanes.length := Course.lane_lt (by rw [hlive]; decide)
  obtain ⟨k, hk, htr⟩ := Course.lane_trailer hl h awaits
  rw [htr, hk.eq (by rw [hsame, hlive]; decide), hsame]

/-! ## What a batch boundary leaves (R99, R174, R368) -/

theorem Lane.boundaryFault_calm {L : Lane} (hdefs : L.defs = []) (hcone : L.cone = none) (quiet : Bool) : L.boundaryFault quiet = none := by
  cases hp : L.pend <;> simp [Lane.boundaryFault, hdefs, hcone, hp, minBy]

/-- What the end of a batch of course `c` of team `t` leaves, where the lanes in `keep` meet no fault: no memory, access or other team
changes, a course outside a batch stays so, and its lanes in `keep` are as they were. -/
structure State.Bounded (t c : Nat) (keep : Nat → Prop) (s s' : State) : Prop where
  mem : s'.mem = s.mem
  flights : s'.flights = s.flights
  team : ∀ u, u ≠ t → s'.team u = s.team u
  awaits : (s'.course t c).awaits = (s.course t c).awaits
  backcnt : (s'.course t c).backcnt = (s.course t c).backcnt
  hasCourse : s.HasCourse t c → s'.HasCourse t c
  coh : s.HasCourse t c → (s.course t c).coh = none → (s'.course t c).coh = none
  parked : s.HasCourse t c → (s.course t c).parked = none → (s'.course t c).parked = none
  lane : ∀ l, keep l → s'.lane t c l = s.lane t c l

namespace State.Bounded
variable {t c : Nat} {keep : Nat → Prop} {s s' s'' : State}

theorem refl (s : State) : State.Bounded t c keep s s :=
  ⟨rfl, rfl, fun _ _ => rfl, rfl, rfl, id, fun _ => id, fun _ => id, fun _ _ => rfl⟩

theorem trans (h : State.Bounded t c keep s s') (h' : State.Bounded t c keep s' s'') : State.Bounded t c keep s s'' where
  mem := h'.mem.trans h.mem
  flights := h'.flights.trans h.flights
  team u hu := (h'.team u hu).trans (h.team u hu)
  awaits := h'.awaits.trans h.awaits
  backcnt := h'.backcnt.trans h.backcnt
  hasCourse hs := h'.hasCourse (h.hasCourse hs)
  coh hs e := h'.coh (h.hasCourse hs) (h.coh hs e)
  parked hs e := h'.parked (h.hasCourse hs) (h.parked hs e)
  lane l hl := (h'.lane l hl).trans (h.lane l hl)

theorem foldl {α : Type} {f : State → α → State} {xs : List α} (hf : ∀ w, ∀ x ∈ xs, State.Bounded t c keep w (f w x)) (s : State) :
    State.Bounded t c keep s (xs.foldl f s) := by
  induction xs generalizing s with
  | nil => exact .refl _
  | cons x xs ih => exact (hf s x (by simp)).trans (ih (fun w y hy => hf w y (by simp [hy])) _)

theorem of_teams (hmem : s'.mem = s.mem) (hflights : s'.flights = s.flights) (hteams : s'.teams = s.teams) :
    State.Bounded t c keep s s' := by
  have hteam : ∀ u, s'.team u = s.team u := fun u => by rw [State.team, hteams, State.team]
  have hcourse : s'.course t c = s.course t c := by rw [State.course, hteam, State.course]
  exact ⟨hmem, hflights, fun u _ => hteam u, by rw [hcourse], by rw [hcourse], fun ⟨T, hT, hc⟩ => ⟨T, hteams ▸ hT, hc⟩,
    fun _ e => hcourse ▸ e, fun _ e => hcourse ▸ e, fun l _ => by rw [State.lane, hcourse, State.lane]⟩

theorem modLane {l : Nat} (hl : ¬keep l) (s : State) (f : Lane → Lane) : State.Bounded t c keep s (s.modLane t c l f) where
  mem := State.modCourse_mem ..
  flights := State.modCourse_flights ..
  team _ hu := State.team_modTeam_ne s hu _
  awaits := State.course_modCourse_keep Course.awaits s t c (·.modLane l f) (fun _ => rfl) t c
  backcnt := State.course_modCourse_keep Course.backcnt s t c (·.modLane l f) (fun _ => rfl) t c
  hasCourse hs := hs.modLane t c l f
  coh _ := (State.course_modCourse_keep Course.coh s t c (·.modLane l f) (fun _ => rfl) t c).trans
  parked _ := (State.course_modCourse_keep Course.parked s t c (·.modLane l f) (fun _ => rfl) t c).trans
  lane _ hm := State.lane_modLane_ne s (fun ⟨_, _, e⟩ => hl (e ▸ hm)) f

/-- A change of the course that keeps its lanes, and begins no batch. -/
theorem modCourse {f : Course → Course} (hf : ∀ C, (f C).lanes = C.lanes ∧ (f C).awaits = C.awaits ∧ (f C).backcnt = C.backcnt)
    (hout : ∀ C, (f C).coh = none ∧ (f C).parked = none) (s : State) : State.Bounded t c keep s (s.modCourse t c f) where
  mem := State.modCourse_mem ..
  flights := State.modCourse_flights ..
  team _ hu := State.team_modTeam_ne s hu _
  awaits := State.course_modCourse_keep Course.awaits s t c f (fun C => (hf C).2.1) t c
  backcnt := State.course_modCourse_keep Course.backcnt s t c f (fun C => (hf C).2.2) t c
  hasCourse hs := hs.modCourse t c f
  coh hs _ := State.course_modCourse_same hs f ▸ (hout _).1
  parked hs _ := State.course_modCourse_same hs f ▸ (hout _).2
  lane l _ := State.lane_modCourse_keep s t c f (fun C => (hf C).1) t c l

theorem suspend {ls : List Nat} (hls : ∀ l ∈ ls, ¬keep l) (s : State) : State.Bounded t c keep s (s.suspend t c ls) := by
  unfold State.suspend
  extract_lets s1 s2 T col
  have hmark : State.Bounded t c keep s s1 := by
    refine modCourse (fun _ => ⟨?_, ?_, ?_⟩) (fun _ => ⟨?_, ?_⟩) s <;> rfl
  have hlanes : State.Bounded t c keep s1 s2 := foldl (fun w l hl => modLane (hls l hl) w _) s1
  refine (hmark.trans hlanes).trans ?_
  have hkeep : ∀ {α : Type} (g : State → α), (∀ w c, g { w with columns := c } = g w) → (∀ w v, g { w with vectors := v } = g w) →
      g (if T.sup = true then (if (s2.column col).suspq.length < 16 then
        (s2.modCol col (fun k => { k with suspq := k.suspq ++ [T.handle c] })).setInt col 2 else s2)
        else s2.scqRecord col (suspRecord T (T.course c) ls)) = g s2 := fun g hc hv => by
    split
    · split
      · exact (State.setInt_keep g hc hv ..).trans (hc ..)
      · rfl
    · exact State.scqRecord_keep g hc hv ..
  exact of_teams (hkeep State.mem (fun _ _ => rfl) (fun _ _ => rfl)) (hkeep State.flights (fun _ _ => rfl) (fun _ _ => rfl))
    (hkeep State.teams (fun _ _ => rfl) (fun _ _ => rfl))

/-- A batch boundary touches the lanes that meet a fault there (R174, R368). -/
theorem boundary (s : State) (hkeep : ∀ l, keep l → ∀ quiet, ((s.course t c).lane l).boundaryFault quiet = none) :
    State.Bounded t c keep s (s.boundary t c) := by
  unfold State.boundary
  extract_lets T C quiet ds marked s1
  split
  · exact .refl _
  have hds : ∀ d ∈ ds, ¬keep d.1 := fun d hd hk => by
    obtain ⟨l, -, hl⟩ := List.mem_filterMap.1 hd
    obtain ⟨x, hx, rfl⟩ := Option.map_eq_some_iff.1 hl
    cases (hkeep l hk quiet).symm.trans hx
  have hlanes : State.Bounded t c keep s s1 := foldl (fun w d hd => modLane (hds d hd) w _) s
  split
  · exact hlanes
  · refine hlanes.trans (suspend (fun l hl => ?_) s1)
    obtain ⟨d, hd, hdl⟩ := List.mem_filterMap.1 hl
    obtain rfl : d.1 = l := by
      split at hdl
      · exact Option.some.inj hdl
      · cases hdl
    exact hds d hd

end State.Bounded

/-! ## Barriers are released (R82, R83) -/

/-- A lane after the barriers `ids` are released. -/
def Lane.released (ids : List Nat) (L : Lane) : Lane :=
  match L.held with
  | none => L
  | some id => if ids.contains id then { L with held := none } else L

/-- Only what holds the lane changes. -/
theorem Lane.released_eq (ids : List Nat) (L : Lane) :
    L.released ids = { L with held := L.held.filter (fun id => !ids.contains id) } := by
  obtain ⟨⟩ := L
  unfold Lane.released
  split
  · next hh => cases hh; rfl
  · next id hh => cases hh; cases hi : ids.contains id <;> simp only [Option.filter, hi] <;> rfl

/-- A course after the barriers `ids` are released; what its lanes issue next is numbered from `n`. -/
def Course.released (ids : List Nat) (n : Nat) (C : Course) : Course :=
  { C with barId := n, lanes := C.lanes.map (Lane.released ids) }

/-- The barriers at which every course of a team has arrived (R82). -/
def State.fullBars (s : State) (t : Nat) : List Nat := (List.range 16).filter (fun id =>
  (s.team t).courses.all (fun C => C.arrived id) && (s.team t).courses.any (fun C => C.lanes.any (fun L => L.held == some id)))

theorem Course.lane_released (ids : List Nat) (n : Nat) (C : Course) (l : Nat) : (C.released ids n).lane l = (C.lane l).released ids := by
  simp only [Course.lane, Course.released, List.getD_eq_getElem?_getD, List.getElem?_map]
  cases C.lanes[l]? <;> rfl

/-- A team after the barriers `ids` are released. -/
def Team.released (ids : List Nat) (n : Nat) (T : Team) : Team := { T with courses := T.courses.map (Course.released ids n) }

theorem State.releaseBars_eq (s : State) (t : Nat) : s.releaseBars t =
    if (s.fullBars t).isEmpty || s.flights.any (fun f => f.team == t && f.barHold) then s
    else s.modTeam t (Team.released (s.fullBars t) s.nextId) := rfl

/-- Barriers are released, or none is full, or an access is still to be performed (R82, R83). -/
theorem State.releaseBars_cases (s : State) (t : Nat) : s.releaseBars t = s.modTeam t (Team.released (s.fullBars t) s.nextId) ∨
    s.releaseBars t = s ∧ (s.fullBars t = [] ∨ ∃ f ∈ s.flights, f.team = t ∧ f.barHold = true) := by
  rw [State.releaseBars_eq]
  split
  · next h =>
    rw [Bool.or_eq_true, List.isEmpty_iff] at h
    exact .inr ⟨rfl, h.imp_right (fun h => by simpa using h)⟩
  · exact .inl rfl

theorem State.course_released {s : State} {t c : Nat} (hs : s.HasCourse t c) (ids : List Nat) (n : Nat) :
    (s.modTeam t (Team.released ids n)).course t c = (s.course t c).released ids n := by
  obtain ⟨T, hT, hc⟩ := hs
  rw [State.course, State.team_modTeam_same hT, State.course, State.team_eq hT]
  simp only [Team.released, Team.course, List.getD_eq_getElem?_getD, List.getElem?_map, List.getElem?_eq_getElem hc, Option.map_some,
    Option.getD_some]

theorem State.lane_released {s : State} {t c : Nat} (hs : s.HasCourse t c) (ids : List Nat) (n l : Nat) :
    (s.modTeam t (Team.released ids n)).lane t c l = (s.lane t c l).released ids := by
  rw [State.lane, State.course_released hs, Course.lane_released, State.lane]

/-- A course that has not arrived at a barrier has not when others are released. -/
theorem Course.not_arrived_released {C : Course} {id : Nat} (h : C.arrived id = false) (ids : List Nat) (n : Nat) :
    (C.released ids n).arrived id = false := by
  have hfin : (C.released ids n).finished = C.finished := by
    simp [Course.finished, Course.released, List.all_map, Function.comp_def, Lane.released_eq]
  have hlive : (C.released ids n).liveLanes = C.liveLanes := by
    simp only [Course.liveLanes, Course.lane_released, Lane.released_eq]
  have hsusp : (C.released ids n).suspended = C.suspended := rfl
  rw [← Bool.not_eq_true] at h ⊢
  refine mt (fun harr => ?_) h
  simp only [Course.arrived, hfin, hsusp, hlive, Bool.or_eq_true, Bool.and_eq_true, List.all_eq_true, beq_iff_eq, Course.lane_released,
    Lane.released_eq, Option.filter_eq_some_iff] at harr ⊢
  exact harr.imp_right (fun ha => ⟨ha.1, fun l hl => (ha.2 l hl).1⟩)

theorem getD_mem_of_ne {α : Type} {xs : List α} {i : Nat} {d : α} (h : xs.getD i d ≠ d) : xs.getD i d ∈ xs := by
  rw [List.getD_eq_getElem?_getD] at h ⊢
  cases hx : xs[i]? with
  | none => simp [hx] at h
  | some x => exact List.mem_of_getElem? hx

/-- A barrier at which a lane is held, and which is not full, waits for some course of the team. -/
theorem State.exists_not_arrived {s : State} {t c l id : Nat} (hid : id < 16) (hheld : (s.lane t c l).held = some id)
    (hopen : id ∉ s.fullBars t) : ∃ C ∈ (s.team t).courses, C.arrived id = false := by
  have hl : s.lane t c l ∈ (s.course t c).lanes := by
    refine getD_mem_of_ne (fun e => ?_)
    rw [State.lane, Course.lane, e] at hheld
    cases hheld
  have hc : s.course t c ∈ (s.team t).courses := by
    refine getD_mem_of_ne (fun e => ?_)
    rw [State.course, Team.course, e] at hl
    cases hl
  have hany : (s.team t).courses.any (fun C => C.lanes.any (fun L => L.held == some id)) = true :=
    List.any_eq_true.2 ⟨_, hc, List.any_eq_true.2 ⟨_, hl, beq_iff_eq.2 hheld⟩⟩
  simpa [State.fullBars, hid, hany] using hopen

theorem filter_eq_self_or_none {α : Type} (p : α → Bool) (x : Option α) : x.filter p = x ∨ x.filter p = none := by
  cases x with
  | none => exact .inl rfl
  | some a => cases h : p a <;> simp [Option.filter, h]

/-- The release of barriers leaves a lane as it is, but held at its barrier or at none. -/
theorem State.lane_releaseBars {s : State} {t c : Nat} (hs : s.HasCourse t c) (l : Nat) :
    ∃ x, (x = (s.lane t c l).held ∨ x = none) ∧ (s.releaseBars t).lane t c l = { s.lane t c l with held := x } := by
  obtain h | ⟨h, -⟩ := s.releaseBars_cases t
  · rw [h, State.lane_released hs, Lane.released_eq]
    exact ⟨_, filter_eq_self_or_none .., rfl⟩
  · exact ⟨_, .inl rfl, by rw [h]⟩

theorem State.Bounded.releaseBars {s : State} {t c : Nat} (hs : s.HasCourse t c) :
    State.Bounded t c (fun _ => False) s (s.releaseBars t) := by
  obtain h | ⟨h, -⟩ := s.releaseBars_cases t
  · have hcourse := State.course_released hs (s.fullBars t) s.nextId
    rw [h]
    exact {
      mem := State.modTeam_mem ..
      flights := State.modTeam_flights ..
      team := fun _ hu => State.team_modTeam_ne s hu _
      awaits := by rw [hcourse]; rfl
      backcnt := by rw [hcourse]; rfl
      hasCourse := fun hs => hs.modTeam t _ (fun T => List.length_map _)
      coh := fun _ => (congrArg Course.coh hcourse).trans
      parked := fun _ => (congrArg Course.parked hcourse).trans
      lane := fun _ h => h.elim }
  · rw [h]
    exact .refl s

/-- A lane that is still held waits for a course of its team, or for an access to be performed (R82, R83). -/
theorem State.held_releaseBars {s : State} {t c l id : Nat} (hs : s.HasCourse t c) (hid : id < 16)
    (hheld : ((s.releaseBars t).lane t c l).held = some id) :
    (∃ C ∈ ((s.releaseBars t).team t).courses, C.arrived id = false) ∨ ∃ f ∈ s.flights, f.team = t ∧ f.barHold = true := by
  obtain h | ⟨h, hwhy⟩ := s.releaseBars_cases t
  · left
    rw [h, State.lane_released hs, Lane.released_eq, Option.filter_eq_some_iff] at hheld
    obtain ⟨C, hC, harr⟩ := State.exists_not_arrived hid hheld.1 (by simpa using hheld.2)
    obtain ⟨T, hT, -⟩ := hs
    rw [h, State.team_modTeam_same hT]
    exact ⟨_, List.mem_map_of_mem hC, Course.not_arrived_released harr ..⟩
  · rw [h] at hheld ⊢
    exact hwhy.imp (fun hnone => State.exists_not_arrived hid hheld (by simp [hnone])) (fun h => h)

/-! ## The trailer (R51, R66, R79, R82, R95) -/

/-- The specifiers that a trailer awaits (R51). -/
def trailerAwaits (o : Ops) : List Nat := [specOf o.d, specOf o.a.op, specOf o.b.op]

/-- The state in which a trailer has ended its batch, and the course stands at the boundary. -/
def State.trailed (s : State) (t c : Nat) (h : Cohort) (o : Ops) (yld : Bool) : State :=
  (if yld || h.yld then s.yieldRun t c else s).modCourse t c (fun C => C.trailer h (trailerAwaits o))

theorem exec_btl_passes {s : State} {t c : Nat} {h : Cohort} {o : Ops} {count : Nat} (hfocus : s.focus = some (t, c))
    (hcoh : (s.course t c).coh = some h) (hpass : trailerFault (s.team t) o count h.issued = none) (yld : Bool) :
    exec (.btl o count yld) s = .next (((s.trailed t c h o yld).boundary t c).releaseBars t) := by
  show execBtl o count yld s = _
  simp only [execBtl, hfocus, hcoh, hpass]
  rfl

/-- The trailer ends the batch, in the state of its course alone (R51, R66, R67). -/
structure State.Trailed (t c : Nat) (h : Cohort) (awaits : List Nat) (s s' : State) : Prop where
  mem : s'.mem = s.mem
  flights : s'.flights = s.flights
  team : ∀ u, u ≠ t → s'.team u = s.team u
  hasCourse : s'.HasCourse t c
  course : s'.course t c = (s.course t c).trailer h awaits

theorem State.trailed_trailed {s : State} {t c : Nat} (hs : s.HasCourse t c) (h : Cohort) (o : Ops) (yld : Bool) :
    State.Trailed t c h (trailerAwaits o) s (s.trailed t c h o yld) := by
  have hany : ∀ w : State, w.mem = s.mem → w.flights = s.flights → w.teams = s.teams →
      State.Trailed t c h (trailerAwaits o) s
        (w.modCourse t c (fun C => C.trailer h (trailerAwaits o))) := fun w hmem hflights hteams => by
    have hw : w.HasCourse t c := by rwa [State.HasCourse, hteams]
    have hteam : ∀ u, w.team u = s.team u := fun u => by rw [State.team, hteams, State.team]
    exact {
      mem := (State.modCourse_mem ..).trans hmem
      flights := (State.modCourse_flights ..).trans hflights
      team := fun u hu => (State.team_modTeam_ne w hu _).trans (hteam u)
      hasCourse := hw.modCourse ..
      course := by rw [State.course_modCourse_same hw, State.course, hteam, State.course] }
  rw [State.trailed]
  split
  · exact hany _ rfl rfl rfl
  · exact hany _ rfl rfl rfl

/-- What `btl` makes of a state (R51, R66, R67, R82). -/
structure State.BatchEnds (o : Ops) (t c : Nat) (h : Cohort) (s s' : State) : Prop where
  mem : s'.mem = s.mem
  flights : s'.flights = s.flights
  team : ∀ u, u ≠ t → s'.team u = s.team u
  coh : (s'.course t c).coh = none
  parked : (s'.course t c).parked = none
  awaits : (s'.course t c).awaits = [specOf o.d, specOf o.a.op, specOf o.b.op]
  backcnt : (s'.course t c).backcnt = if h.lanes.all (fun l => (s.lane t c l).back) then min 1024 ((s.course t c).backcnt + 1) else 0
  cohort : ∀ l ∈ h.lanes, l < (s.course t c).lanes.length → (s.lane t c l).defs = [] → (s.lane t c l).cone = none →
    ∃ k x, ((s.lane t c l).atTrailer h.succ h.succIn).cls.Classified k ∧
      (x = ((s.lane t c l).atTrailer h.succ h.succIn).held ∨ x = none) ∧
      s'.lane t c l = { (s.lane t c l).atTrailer h.succ h.succIn with cls := k, held := x }
  others : ∀ l, l ∉ h.lanes → l ∉ (s.course t c).active h.lanes → (s.lane t c l).cls = .live → (s.lane t c l).defs = [] →
    (s.lane t c l).cone = none → { s'.lane t c l with held := (s.lane t c l).held } = s.lane t c l
  held : ∀ l id, id < 16 → (s'.lane t c l).held = some id →
    (∃ C ∈ (s'.team t).courses, C.arrived id = false) ∨ ∃ f ∈ s.flights, f.team = t ∧ f.barHold = true

theorem Lane.atTrailer_calm {L : Lane} (hdefs : L.defs = []) (hcone : L.cone = none) (succ : Word) (succIn : Bool) :
    (L.atTrailer succ succIn).defs = [] ∧ (L.atTrailer succ succIn).cone = none := by
  unfold Lane.atTrailer
  split <;> simp [hdefs, hcone]

/-- A trailer whose COUNT is that of its batch, and whose queue registers are bound, ends the batch. -/
theorem exec_btl_ends {s : State} {t c : Nat} {h : Cohort} {o : Ops} {count : Nat} (hfocus : s.focus = some (t, c))
    (hcoh : (s.course t c).coh = some h) (hcount : h.issued = count) (hlow : 1 ≤ count) (hhigh : count ≤ 24)
    (hports : ∀ x ∈ [o.d, o.a.op, o.b.op], ∀ n, x = .eq n → (s.team t).portOf n ≠ 0) (yld : Bool) :
    ∃ s', exec (.btl o count yld) s = .next s' ∧ State.BatchEnds o t c h s s' := by
  refine ⟨_, exec_btl_passes hfocus hcoh (trailerFault_none hcount hlow hhigh hports) yld, ?_⟩
  have htr := State.trailed_trailed (State.hasCourse_of_coh hcoh) h o yld
  generalize s.trailed t c h o yld = W at htr
  have hb : State.Bounded t c (fun l => ∀ quiet, ((W.course t c).lane l).boundaryFault quiet = none) W (W.boundary t c) :=
    State.Bounded.boundary W (fun _ hl => hl)
  have hB := hb.hasCourse htr.hasCourse
  have hr := State.Bounded.releaseBars hB
  have hlane : ∀ l L, ((s.course t c).trailer h (trailerAwaits o)).lane l = L → L.defs = [] → L.cone = none →
      ∃ x, (x = L.held ∨ x = none) ∧ ((W.boundary t c).releaseBars t).lane t c l = { L with held := x } := by
    rintro l _ rfl hdefs hcone
    have hsame := hb.lane l (fun quiet => by rw [htr.course]; exact Lane.boundaryFault_calm hdefs hcone quiet)
    have := State.lane_releaseBars hB l
    rwa [hsame, State.lane, htr.course] at this
  exact {
    mem := hr.mem.trans (hb.mem.trans htr.mem)
    flights := hr.flights.trans (hb.flights.trans htr.flights)
    team := fun u hu => (hr.team u hu).trans ((hb.team u hu).trans (htr.team u hu))
    coh := hr.coh hB (hb.coh htr.hasCourse (by rw [htr.course]; rfl))
    parked := hr.parked hB (hb.parked htr.hasCourse (by rw [htr.course]; rfl))
    awaits := by rw [hr.awaits, hb.awaits, htr.course]; rfl
    backcnt := by rw [hr.backcnt, hb.backcnt, htr.course]; rfl
    cohort := fun l hl hlen hdefs hcone => by
      obtain ⟨k, hk, htl⟩ := Course.lane_trailer hlen h (trailerAwaits o)
      have hat : (s.course t c).trailerLane h l = (s.lane t c l).atTrailer h.succ h.succIn := if_pos (List.contains_iff_mem.2 hl)
      rw [hat] at hk htl
      have hcalm := Lane.atTrailer_calm hdefs hcone h.succ h.succIn
      obtain ⟨x, hx, hends⟩ := hlane l _ htl hcalm.1 hcalm.2
      exact ⟨k, x, hk, hx, hends⟩
    others := fun l hout hact hlive hdefs hcone => by
      obtain ⟨x, -, hx⟩ := hlane l _ (Course.lane_trailer_live hout hact hlive (trailerAwaits o)) hdefs hcone
      rw [hx]
      rfl
    held := fun l id hid hheld => by
      have := State.held_releaseBars hB hid hheld
      rwa [hb.flights, htr.flights] at this }

/-! ## A cohort with a lane beyond the 32 of a course -/

/-- A cohort of lane 32 alone, at a trailer whose successor is 0x100. -/
def strayCohort : Cohort := { lanes := [32], pc := 0, issued := 1, succ := 0x100 }

/-- One team of one course of 33 lanes, of which the last is live and stands at 0 inside its batch. -/
def strayState : State :=
  { focus := some (0, 0)
    teams := [(0, { Team.blank with courses := [{ Course.blank with
      lanes := List.replicate 32 {} ++ [{ cls := .live }], coh := some strayCohort }] })] }

/-- The operands of a trailer that awaits nothing. -/
def strayOps : Ops := ⟨⟨none, false⟩, .k 0, ⟨.k 0, false, false⟩, ⟨.k 0, false, false⟩, ⟨.none, false, false⟩, 0⟩

/-- Refutes O25: a course has 32 lanes, of which `Course.active` speaks, but the statement does not say so of its cohort. A cohort may then
name lane 32, which its trailer moves to the successor (`exec_btl_ends`), while the statement also takes it for a live lane that is not
active and asks that it stay as it is. Of lanes below 32, `State.BatchEnds` says all that the statement asks. -/
theorem not_trailer : ¬Obligations.Trailer := by
  intro h
  have hcoh : (strayState.course 0 0).coh = some strayCohort := by decide
  have hports : ∀ x ∈ [strayOps.d, strayOps.a.op, strayOps.b.op], ∀ n, x = .eq n → (strayState.team 0).portOf n ≠ 0 := by
    simp [strayOps]
  obtain ⟨s', hexec, hends⟩ := exec_btl_ends (count := 1) rfl hcoh rfl (by decide) (by decide) hports false
  obtain ⟨k, x, -, -, hmoved⟩ := hends.cohort 32 (by decide) (by decide) (by decide) (by decide)
  obtain ⟨s'', hexec', -, -, -, -, -, -, -, -, hstays, -⟩ :=
    h strayOps 1 false strayState 0 0 strayCohort rfl hcoh (by decide) (by decide) (by decide) rfl hports
  obtain rfl : s'' = s' := by
    rw [hexec] at hexec'
    exact (Host.Outcome.next.inj hexec').symm
  have hpc := congrArg Lane.pc (hstays 32 (by decide) (by decide) ⟨by decide, by decide⟩)
  simp only [hmoved] at hpc
  revert hpc
  decide

end Sys2Proof.Machine

namespace Sys2Proof.Machine

/-! ## What a run that stands ready leaves (R64, R70, R73) -/

section Ready
variable {i : Instr} {o o' : Ops} {p : Pro} {s b W : State} {t c : Nat} {h h0 : Cohort} {one : Bool} {fl : Nat}
  {upd : Nat → Lane → Lane} {val : Nat → Word}

/-- Whether helper lanes perform an instruction is not among its common checks. -/
theorem Ready.withHelps (hr : Ready o p s t c h) (helps : Bool) : Ready o { p with helps := helps } s t c h :=
  ⟨hr.focus, hr.cohort, hr.guardFull, hr.mode, hr.popPorts, hr.pushPort, hr.fields, hr.waitFull, hr.destFull, hr.counterFree,
    hr.predFull, hr.sourceFull, hr.sound⟩

/-- An instruction of the Lane ALU shape that raises no flag gives each lane that performs it its result. -/
theorem gives_of_aluRun {R : Nat → Word → Prop} {res : Run → Nat → LRes} (hexec : exec i s = aluRun o p s res)
    (hr : Ready o p s t c h) (hone : p.one = false) (hflags : ∀ l, (res (readyRun o p s t c h) l).flags = 0)
    (hR : ∀ l ∈ s.performers t c h o.g false, R l (res (readyRun o p s t c h) l).val) : Gives i o false s t c h R := by
  obtain ⟨s', hs, hw⟩ := aluRun_plain hr res hflags
  rw [hone] at hw
  exact ⟨s', _, hexec.trans hs, hw, hR⟩

/-- Sources among which there is no queue register pop nothing (R89). -/
theorem readyRun_pops_nil (p : Pro) (hplain : ∀ x ∈ [o.a.op, o.b.op, o.c.op], eqOf x = none) : (readyRun o p s t c h).pops = [] := by
  have hnone : ∀ x ∈ p.sources o, eqOf x.2.op = none := fun x hx => by
    refine hplain _ ?_
    cases hA : p.nA <;> simp only [Pro.sources, hA] at hx <;> revert x <;> simp
  have hpops : (p.sources o).filterMap (fun x => eqOf x.2.op) = [] := List.filterMap_eq_nil_iff.2 hnone
  rw [readyRun, hpops]
  rfl

/-- The end of a run that has written, to whatever state `b` stands for the time before (R38, R89). -/
theorem Put.finish {v : Bool} (ha : o'.a = o.a) (hb : o'.b = o.b) (hc : o'.c = o.c) (hput : Put o' one b t c h upd val fl h0 W) :
    Done o' one b t c h upd val fl h0.next ({ readyRun o p s t c h with s := W, void := v } : Run).finish := by
  rw [finish_nil _ rfl]
  refine hput.done (eaten_consumeSrcs { readyRun o p s t c h with s := W, void := v }) (fun hplain => ?_)
  simp only [State.plainSrcs, ha, hb, hc] at hplain
  have hpops : (readyRun o p s t c h).pops = [] := readyRun_pops_nil p (fun x hx => (hplain x hx).1)
  refine consumeSrcs_plain { readyRun o p s t c h with s := W, void := v } hpops (fun n hn => ?_)
  obtain ⟨k, kE, kbad, named, crs, hteam⟩ := hput.team
  obtain ⟨x, hx, hxn⟩ := List.mem_filterMap.1 hn
  have hscope := (hplain x hx).2
  cases x <;> simp only [reduceCtorEq, Option.ite_none_left_eq_some, Option.some.injEq] at hxn
  show mapGet? n (W.team t).kScope = none
  rw [hteam]
  exact hscope n (by rw [hxn.2])

/-- An instruction whose run only makes `W` of the state ends. -/
theorem ends_of_run {f : Run → State} {v : Bool} (hexec : exec i s = withRun o p s f) (hr : Ready o p s t c h)
    (hf : f (readyRun o p s t c h) = ({ readyRun o p s t c h with s := W, void := v } : Run).finish)
    (hW : (W.course t c).coh = some h) : Ends i o s t c h W :=
  ⟨_, (hexec.trans (withRun_ready hr f)).trans (congrArg _ hf), hW.trans hr.cohort.symm, (put_start o false hW _).finish rfl rfl rfl⟩

/-- The live lanes that perform an instruction. -/
theorem readyRun_goodLive (hone : p.one = false) : (readyRun o p s t c h).goodLive = s.livePerf t c h o.g := by
  have hgood : (readyRun o p s t c h).good = s.performers t c h o.g false := by
    rw [Run.good_of_nil rfl, readyRun, hone]
  rw [Run.goodLive, hgood]
  rfl

theorem State.mem_livePerf {l : Nat} {g : Guard} : l ∈ s.livePerf t c h g ↔ l ∈ s.performers t c h g false ∧ (s.lane t c l).cls = .live := by
  simp only [State.livePerf, List.mem_filter, beq_iff_eq]

/-- A change of the live lanes that perform an instruction, after what it has written. -/
theorem Put.live (hb : Put o false s t c h upd val fl h0 b) (g : Nat → Lane → Lane) :
    Put o false s t c h (fun l L => if (s.lane t c l).cls = .live then g l (upd l L) else upd l L) val fl h0
      ((s.livePerf t c h o.g).foldl (fun s l => s.modLane t c l (g l)) b) := by
  refine (hb.fold g ((performers_nodup s t c h o.g false).filter _) (fun l hl => (State.mem_livePerf.1 hl).1)).congr (fun l hl => ?_)
  have hlive : l ∈ s.livePerf t c h o.g ↔ (s.lane t c l).cls = .live := State.mem_livePerf.trans (and_iff_right hl)
  exact if_congr hlive rfl rfl

/-- An instruction whose run changes only the live lanes that perform it. -/
theorem moved_of_run {f : Run → State} {g : Nat → Lane → Lane} (hexec : exec i s = withRun o p s f) (hr : Ready o p s t c h)
    (hf : f (readyRun o p s t c h) =
      ({ readyRun o p s t c h with s := (s.livePerf t c h o.g).foldl (fun s l => s.modLane t c l (g l)) s } : Run).finish) :
    ∃ s', exec i s = .next s' ∧ Moved o s t c h g s' := by
  have hput := ((put_start o false hr.cohort (fun _ => 0)).live g).congr (upd' := fun l L => if L.cls = .live then g l L else L) (fun _ _ => rfl)
  exact ⟨_, (hexec.trans (withRun_ready hr f)).trans (congrArg _ hf), hput.finish rfl rfl rfl⟩

end Ready

end Sys2Proof.Machine

namespace Sys2Proof.Machine

/-! ## Leaders, predicates and votes (R84 to R86) -/

theorem bitRes_getLsbD (b : Bool) : (bitRes b).val.getLsbD 0 = b := by cases b <;> rfl

theorem active_pairwise (C : Course) (ls : List Nat) : (C.active ls).Pairwise (· < ·) := List.pairwise_lt_range.filter _

theorem performers_pairwise (s : State) (t c : Nat) (h : Cohort) (g : Guard) : (s.performers t c h g false).Pairwise (· < ·) :=
  (active_pairwise _ _).filter _

/-- The first of rising numbers is the least. -/
theorem head?_eq_some_iff_le {ls : List Nat} (hs : ls.Pairwise (· < ·)) (x : Nat) : ls.head? = some x ↔ x ∈ ls ∧ ∀ m ∈ ls, x ≤ m := by
  cases ls with
  | nil => simp
  | cons y ls =>
    have hy : ∀ m ∈ ls, y < m := (List.pairwise_cons.1 hs).1
    rw [List.head?_cons, Option.some.injEq]
    constructor
    · rintro rfl
      exact ⟨by simp, fun m hm => (List.mem_cons.1 hm).elim (fun e => e.ge) (fun hm => (hy m hm).le)⟩
    · rintro ⟨hx, hle⟩
      exact (List.mem_cons.1 hx).elim Eq.symm (fun hx => absurd (hle y (by simp)) (hy x hx).not_ge)

theorem testBit_maskOf (ls : List Nat) (j : Nat) : (maskOf ls).testBit j = ls.contains j := by
  have hfold : ∀ m, (ls.foldl (fun m i => m ||| 2 ^ i) m).testBit j = (m.testBit j || ls.contains j) := by
    induction ls with
    | nil => simp
    | cons i ls ih =>
      intro m
      rw [List.foldl_cons, ih, Nat.testBit_or, Nat.testBit_two_pow, List.contains_cons, Bool.or_assoc, Bool.beq_comm (a := j)]
      rfl
  simpa [maskOf] using hfold 0

section Votes
variable {o : Ops} {s : State} {t c seg l m : Nat} {h : Cohort}

theorem mem_voters : m ∈ (readyRun o {} s t c h).voters seg l ↔
    m ∈ s.performers t c h o.g false ∧ (s.lane t c m).cls = .live ∧ m / (32 / 2 ^ seg) = l / (32 / 2 ^ seg) := by
  have hvote : m ∈ (readyRun o {} s t c h).voters seg l ↔ m ∈ s.performers t c h o.g false ∧
      ((s.lane t c m).cls == .live && sameSeg seg l m) = true := List.mem_filter
  rw [hvote, Bool.and_eq_true, beq_iff_eq, sameSeg, beq_iff_eq, segSize]
  exact and_congr_right (fun _ => and_congr_right (fun _ => eq_comm))

/-- The voters of a lane whose A is true. -/
theorem mem_voters_true : m ∈ ((readyRun o {} s t c h).voters seg l).filter (readyRun o {} s t c h).pa ↔
    (m ∈ s.performers t c h o.g false ∧ (s.lane t c m).cls = .live ∧ m / (32 / 2 ^ seg) = l / (32 / 2 ^ seg)) ∧
      (s.srcWord t c m o o.a.op).getLsbD 0 = true := by
  rw [List.mem_filter, mem_voters]
  rfl

/-- The leader of some lanes (R84): the lowest-numbered live one that performs the instruction. -/
theorem leader_iff (q : Nat → Bool) (hq : q l = true) :
    (bitRes (((readyRun o {} s t c h).on.filter (fun m => (readyRun o {} s t c h).live m && q m)).head? == some l)).val.getLsbD 0 = true ↔
      (l ∈ s.performers t c h o.g false ∧ (s.lane t c l).cls = .live) ∧
        ∀ m, (m ∈ s.performers t c h o.g false ∧ (s.lane t c m).cls = .live) → q m = true → l ≤ m := by
  have hmem : ∀ m, m ∈ (readyRun o {} s t c h).on.filter (fun m => (readyRun o {} s t c h).live m && q m) ↔
      (m ∈ s.performers t c h o.g false ∧ (s.lane t c m).cls = .live) ∧ q m = true := fun m => by
    have hfilter : m ∈ (readyRun o {} s t c h).on.filter (fun m => (readyRun o {} s t c h).live m && q m) ↔
        m ∈ s.performers t c h o.g false ∧ ((s.lane t c m).cls == .live && q m) = true := List.mem_filter
    rw [hfilter, Bool.and_eq_true, beq_iff_eq, and_assoc]
  have hsorted : ((readyRun o {} s t c h).on.filter (fun m => (readyRun o {} s t c h).live m && q m)).Pairwise (· < ·) :=
    (performers_pairwise s t c h o.g).filter _
  rw [bitRes_getLsbD, beq_iff_eq, head?_eq_some_iff_le hsorted, hmem, and_iff_left hq]
  exact and_congr_right (fun _ => forall_congr' (fun m => by rw [hmem, and_imp]))

end Votes

/-- Settles O17: the leaders are the least of rising lists, and the votes are taken over the live lanes of the segment that perform the
instruction (`mem_voters`). -/
theorem predicatesAndVotes : Obligations.PredicatesAndVotes := by
  unfold Obligations.PredicatesAndVotes
  refine ⟨fun o s t c h hr => ?_, fun o seg s t c h hr _ => ?_⟩
  · have hbit : ∀ {i : Instr} {b : Run → Nat → Bool} {v : Nat → Bool}, exec i s = aluRun o {} s (fun r l => bitRes (b r l)) →
        (∀ l, b (readyRun o {} s t c h) l = v l) → Gives i o false s t c h (fun l w => w.getLsbD 0 = v l) := fun hexec hb =>
      gives_of_aluRun hexec hr rfl (fun _ => rfl) (fun l _ => (bitRes_getLsbD _).trans (hb l))
    refine ⟨?_, ?_, hbit rfl (fun _ => rfl), hbit rfl (fun _ => rfl), hbit rfl (fun _ => rfl), hbit rfl (fun _ => rfl),
      hbit rfl (fun _ => rfl), hbit rfl (fun _ => rfl)⟩
    · refine gives_of_aluRun (p := {}) rfl hr rfl (fun _ => rfl) (fun l _ => (leader_iff (fun _ => true) rfl).trans ?_)
      simp only [forall_const]
    · refine gives_of_aluRun (p := {}) rfl hr rfl (fun _ => rfl) (fun l _ => (leader_iff (fun m => m / 4 == l / 4) (beq_self_eq_true _)).trans ?_)
      simp only [beq_iff_eq]
  · refine ⟨?_, ?_, ?_, ?_⟩
    · refine gives_of_aluRun (p := {}) rfl hr rfl (fun _ => rfl) (fun l _ => ?_)
      rw [bitRes_getLsbD, List.any_eq_true]
      exact exists_congr (fun m => and_congr_left' mem_voters)
    · refine gives_of_aluRun (p := {}) rfl hr rfl (fun _ => rfl) (fun l _ => ?_)
      rw [bitRes_getLsbD, List.all_eq_true]
      exact forall_congr' (fun m => imp_congr_left mem_voters)
    · refine gives_of_aluRun (p := {}) rfl hr rfl (fun _ => rfl) (fun l _ j hj => ?_)
      rw [BitVec.getLsbD_ofNat, decide_eq_true hj, Bool.true_and, testBit_maskOf, List.contains_iff_mem]
      exact mem_voters_true
    · refine gives_of_aluRun (p := {}) rfl hr rfl (fun _ => rfl) (fun l _ =>
        ⟨((readyRun o {} s t c h).voters seg l).filter (readyRun o {} s t c h).pa, ?_, fun m => mem_voters_true, ?_⟩)
      · exact ((performers_nodup s t c h o.g false).filter _).filter _
      · have hlen : (((readyRun o {} s t c h).voters seg l).filter (readyRun o {} s t c h).pa).length ≤ 32 := by
          refine (List.length_filter_le _ _).trans ((List.length_filter_le _ _).trans ((List.length_filter_le _ _).trans ?_))
          exact (List.length_filter_le _ _).trans_eq List.length_range
        exact (BitVec.toNat_ofNat _ _).trans (Nat.mod_eq_of_lt (by omega))

end Sys2Proof.Machine

namespace Sys2Proof.Machine

/-! ## System registers (R91, R73) -/

theorem splitReg_eq (x : Option Split) : splitReg x = (x.map (fun x => x.regs + x.loc / 16 * 2 ^ 16 + x.l1 / 64 * 2 ^ 32)).getD 0 := by
  cases x with
  | none => rfl
  | some x =>
    rw [Option.map_some, Option.getD_some]
    rfl

/-- Settles O20: `srd` gives each lane `sysRead` of its register, whose arms are the values that the statement lists. -/
theorem systemRegisterRead : Obligations.SystemRegisterRead := by
  unfold Obligations.SystemRegisterRead
  intro o num s t c h hr T C k v hv
  refine gives_of_aluRun (res := fun r l => { val := sysRead r.s0 r.t r.c l num }) rfl hr rfl (fun _ => rfl) (fun l _ => ?_)
  have hsplit : sysRead s t c l 0x010 = wordOf (splitReg (s.core T.core).split) := rfl
  rw [splitReg_eq] at hsplit
  refine (?_ : ∀ x ∈ _, sysRead s t c l x.1 = x.2 l) (num, v) hv
  simp only [List.forall_mem_cons, List.not_mem_nil, false_implies, implies_true, and_true]
  exact ⟨rfl, rfl, rfl, rfl, rfl, rfl, rfl, rfl, rfl, rfl, rfl, rfl, rfl, rfl, rfl, rfl, hsplit, rfl, rfl, rfl, rfl, rfl, rfl, rfl, rfl, rfl,
    rfl, rfl, rfl, rfl, rfl, rfl, rfl, rfl, rfl, rfl, rfl⟩

end Sys2Proof.Machine

namespace Sys2Proof.Machine

section Swr
variable {o : Ops} {num : Nat} {s : State} {t c l : Nat} {h : Cohort}

theorem chosenLane_mem {g : Guard} (hl : s.chosenLane t c h g = some l) : l ∈ s.livePerf t c h g := List.mem_of_mem_head? hl

theorem State.sysWrite_coh (s : State) (t c n : Nat) (x : Word) : ((s.sysWrite t c n x).course t c).coh = (s.course t c).coh := by
  have hteam : ∀ f : Team → Team, (∀ T, (f T).courses = T.courses) → ((s.modTeam t f).course t c).coh = (s.course t c).coh := fun f hf =>
    State.team_modTeam_keep (fun T => (T.course c).coh) s t f (fun T => by simp only [Team.course, hf]) t
  have hcourse : ∀ f : Course → Course, (∀ C, (f C).coh = C.coh) → ((s.modCourse t c f).course t c).coh = (s.course t c).coh := fun f hf =>
    State.course_modCourse_keep Course.coh s t c f hf t c
  unfold State.sysWrite
  split
  case h_2 | h_11 => exact hcourse _ (fun _ => rfl)
  case h_9 | h_10 | h_12 => rfl
  all_goals exact hteam _ (fun _ => rfl)

/-- What the operand A of `swr` must keep to in the lanes whose value is written (R11, R96). -/
def SwrSound (o : Ops) (num : Nat) (s : State) (t c : Nat) (h : Cohort) : Prop :=
  ∀ l ∈ s.livePerf t c h o.g, swrBad num (s.srcWord t c l o o.a.op) = false

/-- `swr` passes its check of the values that it writes. -/
theorem sysWriters_sound {p : Pro} (hone : p.one = false) (hA : SwrSound o num s t c h) :
    ((readyRun o p s t c h).sysWriters num).any (fun l => swrBad num ((readyRun o p s t c h).a l)) = false := by
  rw [List.any_eq_false]
  refine fun l hl => Bool.eq_false_iff.1 (hA l ?_)
  unfold Run.sysWriters at hl
  split at hl
  · rwa [readyRun_goodLive hone] at hl
  · rw [readyRun_chosen] at hl
    exact chosenLane_mem (Option.mem_toList.1 (List.mem_of_mem_filter hl))

/-- A register that each lane has for itself takes the value of each live lane (R91). -/
theorem swr_moved (hr : Ready o { d := .none, priv := sysPriv num } s t c h) (hA : SwrSound o num s t c h) (hlane : sysPerLane num = true) :
    ∃ s', exec (.swr o num) s = .next s' ∧ Moved o s t c h (fun l L => L.sysWrite num (s.srcWord t c l o o.a.op)) s' := by
  refine moved_of_run rfl (hr.withHelps false) ?_
  dsimp only
  rw [sysWriters_sound rfl hA, if_neg Bool.false_ne_true, if_pos hlane, readyRun_goodLive rfl]
  rfl

/-- A register that lanes share takes the value of the lane that R73 chooses (R91). -/
theorem swr_ends (hr : Ready o { d := .none, priv := sysPriv num } s t c h) (hA : SwrSound o num s t c h) (hlane : sysPerLane num = false)
    (hl : s.chosenLane t c h o.g = some l) : Ends (.swr o num) o s t c h (s.sysWrite t c num (s.srcWord t c l o o.a.op)) := by
  refine ends_of_run (v := false) rfl (hr.withHelps false) ?_ ((State.sysWrite_coh ..).trans hr.cohort)
  dsimp only
  rw [sysWriters_sound rfl hA, if_neg Bool.false_ne_true, hlane, if_neg Bool.false_ne_true, readyRun_chosen, hl]
  rfl

/-- Without a live lane that performs it, `swr` writes no register that lanes share. -/
theorem swr_ends_none (hr : Ready o { d := .none, priv := sysPriv num } s t c h) (hA : SwrSound o num s t c h) (hlane : sysPerLane num = false)
    (hl : s.chosenLane t c h o.g = none) : Ends (.swr o num) o s t c h s := by
  refine ends_of_run (v := false) rfl (hr.withHelps false) ?_ hr.cohort
  dsimp only
  rw [sysWriters_sound rfl hA, if_neg Bool.false_ne_true, hlane, if_neg Bool.false_ne_true, readyRun_chosen, hl]
  rfl

end Swr

/-- Settles O21: which lanes' values are written is `sysWriters`, and what a value changes is `Lane.sysWrite` or `State.sysWrite`, whose
arms are the cases of the statement. -/
theorem systemRegisterWrite : Obligations.SystemRegisterWrite := by
  unfold Obligations.SystemRegisterWrite
  intro o num s t c h hr A now hA
  have hsound : SwrSound o num s t c h := fun l hl => by
    obtain ⟨hon, hlive⟩ := State.mem_livePerf.1 hl
    obtain ⟨hrsv, hissued⟩ := hA l hon hlive
    have hand : ¬((A l).toNat &&& sysRsv num != 0) = true := by simp [hrsv]
    have hfield : ¬(num == 0x044 && decide (23 < wfld (A l) 16 5)) = true := by
      rw [Bool.and_eq_true, beq_iff_eq, decide_eq_true_eq]
      exact fun ⟨h1, h2⟩ => absurd (hissued h1) h2.not_ge
    exact Bool.or_eq_false_iff.2 ⟨Bool.eq_false_iff.2 hand, Bool.eq_false_iff.2 hfield⟩
  refine ⟨fun upd hupd => ?_, fun l hl W hW => ?_, fun hl hnum => ?_, fun hnum => ?_⟩
  · have harms : sysPerLane num = true ∧ (fun l L => L.sysWrite num (A l)) = upd := by
      refine (?_ : ∀ x ∈ _, sysPerLane x.1 = true ∧ (fun l L => L.sysWrite x.1 (A l)) = x.2) (num, upd) hupd
      simp only [List.forall_mem_cons, List.not_mem_nil, false_implies, implies_true, and_true]
      exact ⟨⟨rfl, rfl⟩, ⟨rfl, rfl⟩, ⟨rfl, rfl⟩, rfl, rfl⟩
    obtain ⟨hlane, rfl⟩ := harms
    exact swr_moved hr hsound hlane
  · have harms : sysPerLane num = false ∧ s.sysWrite t c num (A l) = W := by
      refine (?_ : ∀ x ∈ _, sysPerLane x.1 = false ∧ s.sysWrite t c x.1 (A l) = x.2) (num, W) hW
      simp only [List.forall_mem_cons, List.not_mem_nil, false_implies, implies_true, and_true]
      exact ⟨⟨rfl, rfl⟩, ⟨rfl, rfl⟩, ⟨rfl, rfl⟩, ⟨rfl, rfl⟩, ⟨rfl, rfl⟩, ⟨rfl, rfl⟩, ⟨rfl, rfl⟩, ⟨rfl, rfl⟩, ⟨rfl, rfl⟩, ⟨rfl, rfl⟩, rfl, rfl⟩
    obtain ⟨hlane, rfl⟩ := harms
    exact swr_ends hr hsound hlane hl
  · have hlane : sysPerLane num = false := by
      rw [sysPerLane, Bool.and_eq_false_iff, decide_eq_false_iff_not, decide_eq_false_iff_not]
      omega
    exact swr_ends_none hr hsound hlane hl
  · have hread : ∀ x ∈ [0x000, 0x001, 0x002, 0x003, 0x004, 0x005, 0x006, 0x007, 0x008, 0x009, 0x00A, 0x00B, 0x00C, 0x00D, 0x00E, 0x00F, 0x010,
        0x030, 0x031, 0x047, 0x101, 0x106], sysPerLane x = false ∧ ∀ v, s.sysWrite t c x v = s := by
      simp only [List.forall_mem_cons, List.not_mem_nil, false_implies, implies_true, and_true]
      and_intros <;> intros <;> rfl
    obtain ⟨hlane, hsame⟩ := hread num hnum
    cases hl : s.chosenLane t c h o.g with
    | none => exact swr_ends_none hr hsound hlane hl
    | some l =>
      have hends := swr_ends hr hsound hlane hl
      rwa [hsame] at hends

end Sys2Proof.Machine

namespace Sys2Proof.Machine

/-! ## Transfers (R77 to R79, R81, R82) -/

/-- A lane that has taken a transfer, which its trailer performs (R78). -/
def Lane.jumps (L : Lane) (dest : Word) (depth : Nat) (back : Bool) : Lane := { L with xfer := some (.jump dest depth), back := back }

/-- The state in which a call has written its link to D (R73, R78). -/
def State.linked (s : State) (t c : Nat) (h : Cohort) (o : Ops) : State :=
  match o.d with
  | .k n => match s.chosenLane t c h o.g with
    | none => s
    | some _ => s.modTeam t (fun T => T.kPut n h.link)
  | d => (s.livePerf t c h o.g).foldl (fun s l => s.modLane t c l (fun L => L.putReg o.ib d h.link)) s

section Transfer
variable {i : Instr} {o : Ops} {p : Pro} {s : State} {t c : Nat} {h : Cohort} {dest : Nat → Word}

/-- No live lane that performs the transfer meets a fault: its destination is marked, and its depth allows it (R78). -/
def TransferPasses (o : Ops) (s : State) (t c : Nat) (h : Cohort) (call ret : Bool) (dest : Nat → Word) : Prop :=
  ∀ l ∈ s.livePerf t c h o.g, s.markFault t call (dest l) = none ∧ depthFault call ret (s.lane t c l).depth = none

/-- A transfer whose checks pass: the link is written, and the live lanes that perform it jump at the trailer. -/
theorem transfer_eq {call ret br : Bool} (hone : p.one = false) (hcoh : (s.course t c).coh = some h)
    (hpass : TransferPasses o s t c h call ret dest) : (readyRun o p s t c h).transfer call ret br dest = { readyRun o p s t c h with
      s := (s.livePerf t c h o.g).foldl (fun s l => s.modLane t c l (fun L =>
        L.jumps (dest l) (if call then L.depth + 1 else if ret then L.depth - 1 else L.depth) (br && decide ((dest l).toNat ≤ h.pc.toNat))))
        (if call then s.linked t c h o else s) } := by
  have hperf : (readyRun o p s t c h).goodLive = s.livePerf t c h o.g := readyRun_goodLive hone
  have hlive : (readyRun o p s t c h).on.filter (readyRun o p s t c h).live = s.livePerf t c h o.g := by
    rw [← hperf, Run.goodLive, Run.good_of_nil rfl]
  have hcourse : (readyRun o p s t c h).C.coh = some h := hcoh
  unfold Run.transfer
  extract_lets ls r1 link r2
  have h1 : r1 = readyRun o p s t c h := by
    refine Run.check_none _ _ _ (fun l hl => ?_)
    obtain ⟨hmark, hdepth⟩ := hpass l (hlive ▸ hl)
    split
    · next f hf => cases hf.symm.trans hmark
    · exact hdepth
  have hlink : link = h.link := by
    simp only [link, h1, hcourse]
  have h2 : r2 = { readyRun o p s t c h with s := if call then s.linked t c h o else s } := by
    cases call with
    | false => exact h1
    | true =>
      have hod : (readyRun o p s t c h).o.d = o.d := rfl
      simp only [r2, h1, hlink, hod, State.linked]
      cases o.d with
      | k n =>
        simp only [readyRun_chosen]
        cases s.chosenLane t c h o.g with
        | none => rfl
        | some l => rfl
      | _ =>
        simp only [hperf]
        rfl
  rw [h2, show ({ readyRun o p s t c h with s := if call then s.linked t c h o else s } : Run).goodLive = s.livePerf t c h o.g from hperf]
  rfl

/-- A transfer without a link only makes its lanes jump. -/
theorem transfer_moved {ret br : Bool} {dest : Run → Nat → Word}
    (hexec : exec i s = withRun o { d := .none, helps := false } s (fun r => (r.transfer false ret br (dest r)).finish))
    (hr : Ready o { d := .none } s t c h)
    (hpass : TransferPasses o s t c h false ret (dest (readyRun o { d := .none, helps := false } s t c h))) :
    ∃ s', exec i s = .next s' ∧ Moved o s t c h (fun l L => L.jumps (dest (readyRun o { d := .none, helps := false } s t c h) l)
      (if ret then L.depth - 1 else L.depth)
      (br && decide ((dest (readyRun o { d := .none, helps := false } s t c h) l).toNat ≤ h.pc.toNat))) s' :=
  moved_of_run hexec (hr.withHelps false) (congrArg Run.finish (transfer_eq rfl hr.cohort hpass))

/-- The link of a call in its destination, which is a lane register or a uniform one (R73, R78). -/
theorem put_linked (hcoh : (s.course t c).coh = some h) (hd : ∃ n, o.d = .v n ∨ o.d = .k n) :
    Put o false s t c h (fun l L => if (s.lane t c l).cls = .live then L.putReg o.ib o.d h.link else L) (fun _ => h.link) 0 h
      (s.linked t c h o) := by
  have hstart := put_start o false hcoh (fun _ => h.link)
  obtain ⟨n, hv | hk⟩ := hd
  · have hput := (put_other (by simp [hv]) (by simp [hv]) hstart).live (fun _ L => L.putReg o.ib o.d h.link)
    rw [State.linked, hv]
    rwa [hv] at hput
  · have hput := put_k hk hstart
    rw [State.linked, hk]
    refine Put.congr (upd := fun _ L => L) ?_ (fun l _ => (ite_self _).symm)
    cases hch : s.chosenLane t c h o.g with
    | none => rwa [hch] at hput
    | some l => rwa [hch] at hput

/-- A call whose checks pass writes its link and jumps. -/
theorem call_done {dest : Run → Nat → Word} (hexec : exec i s = withRun o { helps := false } s (fun r => (r.transfer true false false (dest r)).finish))
    (hr : Ready o {} s t c h) (hd : ∃ n, o.d = .v n ∨ o.d = .k n)
    (hpass : TransferPasses o s t c h true false (dest (readyRun o { helps := false } s t c h))) :
    ∃ s', exec i s = .next s' ∧ Done o false s t c h (fun l L => if L.cls = .live then
      (L.putReg o.ib o.d h.link).jumps (dest (readyRun o { helps := false } s t c h) l) (L.depth + 1) false else L) (fun _ => h.link) 0 h.next s' := by
  have hdepth : ∀ L : Lane, (L.putReg o.ib o.d h.link).depth = L.depth := fun L => by
    obtain ⟨n, hv | hk⟩ := hd
    · rw [hv]; rfl
    · rw [hk]; rfl
  have hput := ((put_linked hr.cohort hd).live (fun l L => L.jumps (dest (readyRun o { helps := false } s t c h) l) (L.depth + 1) false)).congr
    (upd' := fun l L => if L.cls = .live then
      (L.putReg o.ib o.d h.link).jumps (dest (readyRun o { helps := false } s t c h) l) (L.depth + 1) false else L) (fun l _ => by
        by_cases hl : (s.lane t c l).cls = .live
        · rw [if_pos hl, if_pos hl, if_pos hl, hdepth]
        · rw [if_neg hl, if_neg hl, if_neg hl])
  refine ⟨_, (hexec.trans (withRun_ready (hr.withHelps false) _)).trans (congrArg _ (congrArg Run.finish (transfer_eq rfl hr.cohort hpass))), ?_⟩
  exact hput.finish rfl rfl rfl

end Transfer

section Yield
variable {o : Ops} {s : State} {t c : Nat} {h : Cohort}

/-- What the live lanes that perform the instruction will do at the trailer (R79, R82). -/
theorem setXfer_moved {i : Instr} {x : Xfer} (hexec : exec i s = withRun o { d := .none } s (fun r => (r.setXfer x).finish))
    (hr : Ready o { d := .none } s t c h) : ∃ s', exec i s = .next s' ∧ Moved o s t c h (fun _ L => { L with xfer := some x }) s' := by
  refine moved_of_run hexec hr ?_
  rw [Run.setXfer, readyRun_goodLive rfl]
  rfl

/-- The batch yields at its trailer once a live lane has performed `yield` (R81). -/
theorem yield_done (hr : Ready o { d := .none } s t c h) : ∃ s', exec (.yield o) s = .next s' ∧
    Done { o with d := .none } false s t c h (fun _ L => L) (fun _ => 0) 0
      (Cohort.next { h with yld := h.yld || !(s.livePerf t c h o.g).isEmpty }) s' := by
  refine ⟨_, withRun_ready hr _, ?_⟩
  rw [readyRun_goodLive rfl]
  cases hl : (s.livePerf t c h o.g).isEmpty with
  | true =>
    rw [if_pos rfl, Bool.not_true, Bool.or_false]
    exact (put_start o false hr.cohort _).finish (s := s) (p := { d := .none }) (v := false) rfl rfl rfl
  | false =>
    rw [if_neg Bool.false_ne_true, Bool.not_false, Bool.or_true]
    have hcoh : (s.course t c).coh.map (fun h => { h with yld := true }) = some { h with yld := true } := by rw [hr.cohort]; rfl
    exact (put_course o false (State.hasCourse_of_coh hr.cohort) _ (fun C => { C with coh := C.coh.map (fun h => { h with yld := true }) })
      (fun _ => rfl) (Nat.or_zero _).symm hcoh).finish (s := s) (p := { d := .none }) (v := false) rfl rfl rfl

end Yield

/-- Settles O22: every transfer is `Run.transfer` of its destination (`transfer_eq`). -/
theorem transfers : Obligations.Transfers := by
  unfold Obligations.Transfers
  intro o off id s t c h A rel live back
  have hlive : ∀ {l}, l ∈ s.livePerf t c h o.g → live l := fun hl => State.mem_livePerf.1 hl
  refine ⟨fun hr => ⟨?_, setXfer_moved rfl hr, setXfer_moved rfl hr, ?_, fun hmark => ?_, fun hmark => ?_, fun hmark => ?_⟩, fun hr hd => ?_⟩
  · exact ends_of_run (v := false) (p := { d := .none }) rfl hr rfl hr.cohort
  · obtain ⟨s', hexec, hdone⟩ := yield_done hr
    refine ⟨s', hexec, fun y hy => ?_⟩
    have hyld : y = (h.yld || !(s.livePerf t c h o.g).isEmpty) := by
      rw [Bool.eq_iff_iff, hy, Bool.or_eq_true, Bool.not_eq_true', List.isEmpty_eq_false_iff_exists_mem]
      exact or_congr_right (exists_congr (fun l => State.mem_livePerf.symm))
    rw [hyld]
    exact hdone
  · exact transfer_moved (ret := false) (br := true) (dest := fun r _ => r.rel off) rfl hr (fun l hl => ⟨hmark l (hlive hl), rfl⟩)
  · exact transfer_moved (ret := false) (br := true) (dest := fun r => r.a) rfl hr (fun l hl => ⟨hmark l (hlive hl), rfl⟩)
  · refine transfer_moved (ret := true) (br := false) (dest := fun r => r.a) rfl hr (fun l hl => ?_)
    obtain ⟨hmark, hdepth⟩ := hmark l (hlive hl)
    exact ⟨hmark, by simp [depthFault, hdepth]⟩
  · have hcall : ∀ {dest : Nat → Word}, (∀ l, live l → s.markFault t true (dest l) = none ∧ (s.lane t c l).depth ≠ 255) →
        TransferPasses o s t c h true false dest := fun hmark l hl => by
      obtain ⟨hmark, hdepth⟩ := hmark l (hlive hl)
      exact ⟨hmark, by simp [depthFault, hdepth]⟩
    exact ⟨fun hmark => call_done (dest := fun r _ => r.rel off) rfl hr hd (hcall hmark), fun hmark =>
      call_done (dest := fun r => r.a) rfl hr hd (hcall hmark)⟩

end Sys2Proof.Machine

namespace Sys2Proof.Machine

/-! ## Return from a handler (R95) -/

theorem mapGet_foldl_mapPut_ne {α : Type} (d : α) (f : Nat → α) {ls : List Nat} {n : Nat} (hn : n ∉ ls) (m : List (Nat × α)) :
    mapGet d n (ls.foldl (fun m j => mapPut j (f j) m) m) = mapGet d n m := by
  induction ls generalizing m with
  | nil => rfl
  | cons j ls ih =>
    rw [List.mem_cons, not_or] at hn
    rw [List.foldl_cons, ih hn.2, mapGet_mapPut_ne d hn.1]

theorem mapGet_foldl_mapPut {α : Type} (d : α) (f : Nat → α) {ls : List Nat} {n : Nat} (hn : n ∈ ls) (m : List (Nat × α)) :
    mapGet d n (ls.foldl (fun m j => mapPut j (f j) m) m) = f n := by
  induction ls generalizing m with
  | nil => cases hn
  | cons j ls ih =>
    rw [List.foldl_cons]
    by_cases hls : n ∈ ls
    · exact ih hls _
    · obtain rfl : n = j := (List.mem_cons.1 hn).resolve_right hls
      rw [mapGet_foldl_mapPut_ne d f hls, mapGet_mapPut_same]

theorem bitN_toNat (w : Word) (i : Nat) : bitN w.toNat i = w.getLsbD i := by
  rw [bitN, fld, Nat.shiftRight_eq_div_pow, BitVec.getLsbD, Nat.testBit_eq_decide_div_mod_eq]
  rfl

/-- A lane that has performed a return from a handler whose temporaries stand from `ts` on: what its trailer takes is noted (R95). -/
def Lane.returned (L : Lane) (regs ts : Nat) : Lane := { (L.trapReturn regs ts).1 with xfer := some (L.trapReturn regs ts).2 }

/-- The temporaries that a return restores. -/
def Lane.restored (L : Lane) (regs ts : Nat) : List (Nat × Word) :=
  (List.range 8).foldl (fun m n => mapPut n (if ts + n < regs then L.vGet (ts + n) else 0) m) L.t

theorem Lane.returned_eq (L : Lane) (regs ts : Nat) : L.returned regs ts = { L with
    t := L.restored regs ts
    intrap := false
    xfer := some (if L.ltinfo.getLsbD 21 then .ret L.ltpc true (wfld L.ltinfo 16 5) (wfld L.ltinfo 8 8) else .ret L.ltpc false 0 0) } := by
  have hxfer : (L.trapReturn regs ts).2 =
      if L.ltinfo.getLsbD 21 then .ret L.ltpc true (wfld L.ltinfo 16 5) (wfld L.ltinfo 8 8) else .ret L.ltpc false 0 0 := by
    simp only [Lane.trapReturn, bitN_toNat]
    cases L.ltinfo.getLsbD 21 <;> rfl
  rw [← hxfer]
  rfl

theorem Lane.restored_get (L : Lane) {regs ts n : Nat} (hn : n < 8) (hregs : ts + n < regs) : mapGet 0 n (L.restored regs ts) = L.vGet (ts + n) :=
  (mapGet_foldl_mapPut 0 _ (List.mem_range.2 hn) _).trans (if_pos hregs)

/-- A return in lanes that are in a handler, in the mode that fits it, meets no fault (R95). -/
theorem trapRet_eq {o : Ops} {p : Pro} {s : State} {t c : Nat} {h : Cohort} (hone : p.one = false)
    (hintrap : ∀ l ∈ s.livePerf t c h o.g, (s.lane t c l).intrap = true) : (readyRun o p s t c h).trapRet false = { readyRun o p s t c h with
      s := (s.livePerf t c h o.g).foldl (fun s' l => s'.modLane t c l (fun L => L.returned (s.team t).split.regs
        (if (s.team t).sup then wfld (s.course t c).stvec 56 8 else wfld (s.team t).utmask 56 8))) s } := by
  have hperf : (readyRun o p s t c h).goodLive = s.livePerf t c h o.g := readyRun_goodLive hone
  have hlive : (readyRun o p s t c h).on.filter (readyRun o p s t c h).live = s.livePerf t c h o.g := by
    rw [← hperf, Run.goodLive, Run.good_of_nil rfl]
  unfold Run.trapRet
  extract_lets ls r1 ts
  have h1 : r1 = readyRun o p s t c h := by
    refine Run.check_none _ _ _ (fun l hl => if_neg ?_)
    rw [Bool.false_or, Bool.not_eq_true', Bool.not_eq_false]
    exact hintrap l (hlive ▸ hl)
  simp only [ts, h1, hperf]
  rfl

/-- A return that meets no fault restores its lanes. -/
theorem trapRet_returns {i : Instr} {o : Ops} {p : Pro} {s : State} {t c ts : Nat} {h : Cohort} (hone : p.one = false) {bad : Run → Bool}
    (hexec : exec i s = withRun o p s (fun r => (r.trapRet (bad r)).finish)) (hbad : bad (readyRun o p s t c h) = false)
    (hr : Ready o p s t c h) (hts : (if (s.team t).sup then wfld (s.course t c).stvec 56 8 else wfld (s.team t).utmask 56 8) = ts)
    (hintrap : ∀ l ∈ s.performers t c h o.g false, (s.lane t c l).cls = .live → (s.lane t c l).intrap = true) :
    ∃ s', exec i s = .next s' ∧ Moved o s t c h (fun _ L => L.returned (s.team t).split.regs ts) s' := by
  have hlive : ∀ l ∈ s.livePerf t c h o.g, (s.lane t c l).intrap = true := fun l hl =>
    hintrap l (State.mem_livePerf.1 hl).1 (State.mem_livePerf.1 hl).2
  refine moved_of_run hexec hr ?_
  rw [hbad, trapRet_eq hone hlive, hts]

/-- What a return leaves in a lane (R95). -/
theorem Lane.returned_spec (L : Lane) (regs ts : Nat) : (L.returned regs ts).intrap = false ∧
    (∀ n, n < 8 → ts + n < regs → mapGet 0 n (L.returned regs ts).t = L.vGet (ts + n)) ∧
    (L.returned regs ts).xfer = some (if L.ltinfo.getLsbD 21 then .ret L.ltpc true (wfld L.ltinfo 16 5) (wfld L.ltinfo 8 8)
      else .ret L.ltpc false 0 0) ∧ { L.returned regs ts with t := L.t, intrap := L.intrap, xfer := L.xfer } = L := by
  rw [Lane.returned_eq]
  exact ⟨rfl, fun _ hn hregs => L.restored_get hn hregs, rfl, rfl⟩

/-- Settles O24: a return that meets no fault restores its lanes (`trapRet_eq`), each as `Lane.returned_eq` says. -/
theorem trapReturn : Obligations.TrapReturn := by
  unfold Obligations.TrapReturn
  intro o s t c h hr T returns
  refine ⟨fun hsup hintrap => ?_, fun hsup hintrap => ?_⟩
  · obtain ⟨s', hexec, hmoved⟩ := trapRet_returns rfl (i := .tret o) rfl hsup hr (if_neg (by rw [hsup]; decide)) hintrap
    exact ⟨s', _, hexec, hmoved, fun _ L => L.returned_spec ..⟩
  · have hpriv : Ready o { d := .none, priv := some (0x01, 0) } s t c h :=
      ⟨hr.focus, hr.cohort, hr.guardFull, fun _ => hsup, hr.popPorts, hr.pushPort, hr.fields, hr.waitFull, hr.destFull, hr.counterFree,
        hr.predFull, hr.sourceFull, hr.sound⟩
    obtain ⟨s', hexec, hmoved⟩ := trapRet_returns rfl (i := .sret o) (bad := fun _ => false) rfl rfl hpriv (if_pos hsup) hintrap
    exact ⟨s', _, hexec, hmoved, fun _ L => L.returned_spec ..⟩

end Sys2Proof.Machine

namespace Sys2Proof.Machine

/-! ## A queue register bound to a number that is no port (R88, R90) -/

/-- One team of one course of one lane, in focus at an instruction; `eq1` is bound to 2^31, which no `qbind` binds it to. -/
def farPortState : State :=
  { focus := some (0, 0)
    teams := [(0, { Team.blank with
      eqs := [(1, 2 ^ 31)]
      courses := [{ Course.blank with lanes := [{ cls := .live }], coh := some { lanes := [0], pc := 0, issued := 0 } }] })] }

/-- The operands of `qstat v1, eq1`. -/
def farPortOps : Ops := ⟨⟨none, false⟩, .v 1, ⟨.eq 1, false, false⟩, ⟨.none, false, false⟩, ⟨.none, false, false⟩, 0⟩

theorem farPort_ready : Ready farPortOps { nA := true, d := .now } farPortState 0 0 { lanes := [0], pc := 0, issued := 0 } where
  focus := rfl
  cohort := by decide
  guardFull := by decide
  mode := by decide
  popPorts := by decide
  pushPort := by decide
  fields := by decide
  waitFull := by decide
  destFull := by decide
  counterFree := fun h => by cases h
  predFull := by decide
  sourceFull := by decide
  sound := by decide

/-- Refutes O19: the statement asks bit 63 of `qstat`'s word to say that the register is bound whatever it is bound to, and not only where
the number fits the field of the port, as it does for all else. Bound to 2^31, of which no `qbind` makes a binding, the register's number
reaches bit 63 and carries out of the word, which is 0. -/
theorem not_indexAndQueueRegisters : ¬Obligations.IndexAndQueueRegisters := by
  unfold Obligations.IndexAndQueueRegisters
  rintro ⟨-, hqueue⟩
  obtain ⟨-, -, hstat⟩ := hqueue farPortOps 1 farPortState 0 0 { lanes := [0], pc := 0, issued := 0 }
  obtain ⟨s', val, hexec, hwrote, hword⟩ := hstat farPort_ready rfl
  have hbound : (val 0).getLsbD 63 = true := (hword 0 (by decide)).1
  have hlane : s'.lane 0 0 0 = (farPortState.lane 0 0 0).vPut 1 (val 0) := (hwrote.lanes 0).trans (if_pos (by decide))
  have hval : val 0 = (s'.lane 0 0 0).vGet 1 := by
    rw [hlane]
    exact (mapGet_mapPut_same ..).symm
  have hzero : (match exec (.qstat farPortOps) farPortState with
    | .next s => (s.lane 0 0 0).vGet 1
    | _ => 1) = 0 := by decide
  rw [hexec] at hzero
  rw [hval.trans hzero] at hbound
  cases hbound

/-! ## A trap with a source, beside a helper lane (R64, R80, R89) -/

/-- One supervisor team of one course, in focus at an instruction, with a live lane and a helper lane of its quad; `eq0` is bound to the
supervisor course queue of its column, which holds one record. -/
def poppedTrapState : State :=
  { focus := some (0, 0)
    teams := [(0, { Team.blank with
      sup := true
      eqs := [(0, 0x7F)]
      courses := [{ Course.blank with lanes := [{ cls := .live }, { cls := .helper }], coh := some { lanes := [0], pc := 0, issued := 0 } }] })]
    columns := [(0, { scq := [{ handle := 0, info := 0, node := 0, ltpc := 0 }] })] }

/-- The operands of a `trap` with `eq0` in a source field. -/
def poppedTrapOps : Ops := ⟨⟨none, false⟩, .none, ⟨.eq 0, false, false⟩, ⟨.none, false, false⟩, ⟨.none, false, false⟩, 0⟩

theorem poppedTrap_ready : Ready poppedTrapOps { d := .none } poppedTrapState 0 0 { lanes := [0], pc := 0, issued := 0 } where
  focus := rfl
  cohort := by decide
  guardFull := by decide
  mode := by decide
  popPorts := by decide
  pushPort := by decide
  fields := by decide
  waitFull := by decide
  destFull := by decide
  counterFree := fun h => by cases h
  predFull := by decide
  sourceFull := by decide
  sound := by decide

/-- Refutes O23: the statement does not say that `trap` has no sources. One with a queue register in a source field is performed in a helper
lane, whose fault is none, and pops there; bound to the supervisor course queue, it takes the record that the statement says stays when the
live lane's course is suspended. -/
theorem not_trapEntry : ¬Obligations.TrapEntry := by
  unfold Obligations.TrapEntry
  intro h
  have htwr : ∀ l, l < 2 → (poppedTrapState.lane 0 0 l).twr < 256 := by decide
  obtain ⟨s', hexec, -, -, -, -, -, hstay⟩ := h poppedTrapOps 5 poppedTrapState 0 0 { lanes := [0], pc := 0, issued := 0 }
    poppedTrap_ready (by decide) (by decide) (by decide) (fun l hl => htwr l hl.2.2)
  obtain ⟨-, -, -, -, hsup, -⟩ := hstay ⟨0, ⟨by decide, by decide, by decide⟩, fun hl => absurd hl.2.1 (by decide)⟩
  have hscq : (s'.column 0).scq = (poppedTrapState.column 0).scq := (hsup rfl).1
  have hpopped : (match exec (.trap poppedTrapOps 5) poppedTrapState with
    | .next s => (s.column 0).scq.length
    | _ => 1) = 0 := by decide
  rw [hexec] at hpopped
  cases (congrArg List.length hscq).symm.trans hpopped

end Sys2Proof.Machine

namespace Sys2Proof.Machine

/-! ## Instructions that one lane performs, and the records of the nodes (R349, R350, R409) -/

section Once
variable {o : Ops} {p : Pro} {s : State} {t c l : Nat} {h : Cohort}

/-- The lane that R73 chooses performs an instruction of one lane whose own checks it passes (R409). -/
theorem once_ready (hl : s.chosenLane t c h o.g = some l) {fault : Nat → Option FltRec} (hf : fault l = none) (f : Run → Nat → State) :
    (readyRun o p s t c h).once fault f = f (readyRun o p s t c h) l := by
  have hok : (readyRun o p s t c h).ok l = true := Run.ok_of_nil rfl l
  simp only [Run.once, readyRun_chosen, hl, hok, hf, Bool.not_true, Bool.false_eq_true, if_false]

end Once

/-! ### A pool whose order does not change -/

theorem insertBy_map {α : Type} (key : α → Nat) {f : α → α} (hkey : ∀ x, key (f x) = key x) (x : α) (l : List α) :
    insertBy key (f x) (l.map f) = (insertBy key x l).map f := by
  induction l with
  | nil => rfl
  | cons y r ih =>
    simp only [List.map_cons, insertBy, hkey]
    split
    · rfl
    · rw [ih]; rfl

theorem sortBy_map {α : Type} (key : α → Nat) {f : α → α} (hkey : ∀ x, key (f x) = key x) (l : List α) :
    sortBy key (l.map f) = (sortBy key l).map f := by
  rw [sortBy, List.foldl_map]
  exact List.foldl_hom (List.map f) (g₁ := fun acc x => insertBy key x acc) (g₂ := fun acc x => insertBy key (f x) acc)
    (init := []) (fun acc x => insertBy_map key hkey x acc)

/-- What the order of the pool and its head depend on stays (R340, R344). -/
structure SameTurn (n m : PoolNode) : Prop where
  node : m.node = n.node
  words : m.words = n.words
  entered : m.entered = n.entered
  next : m.next = n.next
  saved : m.saved = n.saved

theorem SameTurn.waiting {n m : PoolNode} (hs : SameTurn n m) : m.waiting = n.waiting := by
  simp only [PoolNode.waiting, hs.words, hs.next, hs.saved]

/-- A change of the nodes of the pool that leaves each its turn leaves the pool its head. -/
theorem State.poolHead_map (s : State) {f : PoolNode → PoolNode} (hf : ∀ n, SameTurn n (f n)) :
    State.poolHead { s with pool := s.pool.map f } = s.poolHead := by
  have hep : ∀ n, State.ep { s with pool := s.pool.map f } n = s.ep n := fun n => rfl
  have hkey : ∀ n, 3 - s.ep (f n) = 3 - s.ep n := fun n => by simp only [State.ep, (hf n).words, (hf n).entered]
  have horder : State.poolOrder { s with pool := s.pool.map f } = s.poolOrder.map f := by
    simp only [State.poolOrder, hep]
    exact sortBy_map (fun n => 3 - s.ep n) hkey s.pool
  have hwaiting : PoolNode.waiting ∘ f = PoolNode.waiting := funext (fun n => (hf n).waiting)
  have hnode : (fun n : PoolNode => n.node) ∘ f = (·.node) := funext (fun n => (hf n).node)
  rw [State.poolHead, horder, List.find?_map, hwaiting, Option.map_map, hnode]
  rfl

/-- The nodes of the pool after one record's node has changed by `f`. -/
def PoolNode.modAt (node : Nat) (f : PoolNode → PoolNode) (n : PoolNode) : PoolNode := if n.node == node then f n else n

theorem PoolNode.modAt_sameTurn (node : Nat) {f : PoolNode → PoolNode} (hf : ∀ n, SameTurn n (f n)) (n : PoolNode) :
    SameTurn n (PoolNode.modAt node f n) := by
  unfold PoolNode.modAt
  split
  · exact hf n
  · exact ⟨rfl, rfl, rfl, rfl, rfl⟩

/-- A change of a node that leaves it its turn changes nothing else: no node becomes the head by it (R352). -/
theorem State.modNode_eq_map (s : State) (node : Nat) {f : PoolNode → PoolNode} (hf : ∀ n, SameTurn n (f n)) :
    s.modNode node f = { s with pool := s.pool.map (PoolNode.modAt node f) } := by
  have hhead := s.poolHead_map (PoolNode.modAt_sameTurn node hf)
  have hmod : s.modNode node f = s.modPool (fun p => p.map (PoolNode.modAt node f)) := rfl
  rw [hmod, State.modPool, hhead]
  split
  · rfl
  · next head heq => rw [heq, if_pos rfl]

/-- A node of the pool after a change that leaves each its record. -/
theorem State.poolNode_map (s : State) {f : PoolNode → PoolNode} (hf : ∀ n, (f n).node = n.node) (k : Nat) :
    State.poolNode? { s with pool := s.pool.map f } k = (s.poolNode? k).map f := find_map_node hf k

/-- The node after a team of it has signalled (R349). -/
def PoolNode.signal (idx : Nat) (all : Bool) (n : PoolNode) : PoolNode := { n with sig := idx :: n.sig, sigDone := all }

/-- The state after a team of a node has signalled, the last one's visit aside (R349). -/
def State.signalledBy (s : State) (node idx : Nat) (all : Bool) : State :=
  { s with pool := s.pool.map (PoolNode.modAt node (PoolNode.signal idx all)) }

theorem State.signalTeam_eq {s : State} {node idx : Nat} {n : PoolNode} (hn : s.poolNode? node = some n) (hidx : idx ∉ n.sig)
    (hdone : n.sigDone = false) :
    s.signalTeam node idx =
      if n.sig.length + 1 = nrTeams n.words then (s.signalledBy node idx true).addVisit node 0 true else s.signalledBy node idx false := by
  have hnot : (n.sig.contains idx || n.sigDone) = false := by simp [hidx, hdone]
  have hmod : ∀ all, s.modNode node (PoolNode.signal idx all) = s.signalledBy node idx all := fun all =>
    s.modNode_eq_map node (f := PoolNode.signal idx all) (fun _ => ⟨rfl, rfl, rfl, rfl, rfl⟩)
  simp only [State.signalTeam, hn, hnot, Bool.false_eq_true, if_false]
  by_cases hall : n.sig.length + 1 = nrTeams n.words
  · rw [if_pos hall, beq_iff_eq.2 hall, if_pos rfl]
    exact congrArg (fun S => S.addVisit node 0 true) (hmod true)
  · rw [if_neg hall, beq_eq_false_iff_ne.2 hall, if_neg Bool.false_ne_true]
    exact hmod false

theorem State.poolNode_signalledBy_same {s : State} {node : Nat} {n : PoolNode} (hn : s.poolNode? node = some n) (idx : Nat) (all : Bool) :
    (s.signalledBy node idx all).poolNode? node = some (n.signal idx all) := by
  rw [State.signalledBy, State.poolNode_map s (fun n => (PoolNode.modAt_sameTurn node (f := PoolNode.signal idx all)
    (fun _ => ⟨rfl, rfl, rfl, rfl, rfl⟩) n).node), hn]
  simp only [Option.map_some, PoolNode.modAt, State.node_of_poolNode hn, beq_self_eq_true, if_true]

theorem State.poolNode_signalledBy_ne (s : State) {node k : Nat} (hk : k ≠ node) (idx : Nat) (all : Bool) :
    (s.signalledBy node idx all).poolNode? k = s.poolNode? k := by
  rw [State.signalledBy, State.poolNode_map s (fun n => (PoolNode.modAt_sameTurn node (f := PoolNode.signal idx all)
    (fun _ => ⟨rfl, rfl, rfl, rfl, rfl⟩) n).node)]
  cases hn : s.poolNode? k with
  | none => rfl
  | some n => simp only [Option.map_some, PoolNode.modAt, State.node_of_poolNode hn, beq_eq_false_iff_ne.2 hk, Bool.false_eq_true, if_false]

/-! ### nsig -/

section Nsig
variable {o : Ops} {s : State} {t c l : Nat} {h : Cohort}

/-- The state that `nsig` makes (R349). -/
def State.nodeSignal (s : State) (t : Nat) : State :=
  if (s.team t).signalled then s
  else (s.modTeam t (fun T => { T with signalled := true })).signalTeam (s.team t).record (s.team t).idx

theorem State.nodeSignal_coh (s : State) (t c : Nat) : ((s.nodeSignal t).course t c).coh = (s.course t c).coh := by
  unfold State.nodeSignal
  split
  · rfl
  · refine (State.signalTeam_keep (fun w => (w.course t c).coh) (fun _ _ => rfl) (fun _ _ => rfl) _ _ _).trans ?_
    exact State.team_modTeam_keep (fun T => (T.course c).coh) s t (fun T => { T with signalled := true }) (fun _ => rfl) t

theorem nsig_ends (hr : Ready o { d := .none } s t c h) (hl : s.chosenLane t c h o.g = some l) :
    Ends (.nsig o) o s t c h (s.nodeSignal t) :=
  ends_of_run (p := { d := .none, helps := false }) (v := false) rfl (hr.withHelps false) (once_ready hl rfl _)
    ((s.nodeSignal_coh t c).trans hr.cohort)

/-- A team's signal at its node: the team and the pool's entry of its record change, and nothing else but the visits. -/
theorem signalledBy_spec {n : PoolNode} (hres : s.HasCourse t c) (hn : s.poolNode? (s.team t).record = some n) (all : Bool)
    (visits : List Visit) :
    let W := { (s.modTeam t (fun T => { T with signalled := true })).signalledBy (s.team t).record (s.team t).idx all with visits := visits }
    { W with teams := s.teams, pool := s.pool, visits := s.visits } = s ∧ W.team t = { s.team t with signalled := true } ∧
      (∀ u, u ≠ t → W.team u = s.team u) ∧ W.poolNode? (s.team t).record = some (n.signal (s.team t).idx all) ∧
      ∀ k, k ≠ (s.team t).record → W.poolNode? k = s.poolNode? k := by
  obtain ⟨T, hteam, -⟩ := hres
  have hnode : ∀ f k, (s.modTeam t f).poolNode? k = s.poolNode? k := fun f k => by
    rw [State.poolNode?, State.modTeam_pool, State.poolNode?]
  refine ⟨?_, State.team_modTeam_same hteam _, fun u hu => State.team_modTeam_ne s hu _,
    State.poolNode_signalledBy_same ((hnode _ _).trans hn) _ _, fun k hk => (State.poolNode_signalledBy_ne _ hk _ _).trans (hnode _ k)⟩
  show { s.modTeam t _ with teams := s.teams, pool := s.pool, visits := s.visits } = s
  rw [State.modTeam, hteam]

/-- The first clause of R349: a team that has not signalled does so at its node, and the signal of the last one is a visit. -/
theorem nodeSignal_spec {n : PoolNode} (hres : s.HasCourse t c) (hsig : (s.team t).signalled = false)
    (hn : s.poolNode? (s.team t).record = some n) (hdone : n.sigDone = false) (hidx : (s.team t).idx ∉ n.sig) :
    ∃ m, { s.nodeSignal t with teams := s.teams, pool := s.pool, visits := s.visits } = s ∧
      (s.nodeSignal t).team t = { s.team t with signalled := true } ∧ (∀ u, u ≠ t → (s.nodeSignal t).team u = s.team u) ∧
      (s.nodeSignal t).poolNode? (s.team t).record = some m ∧ m.sig = (s.team t).idx :: n.sig ∧
      (∀ k, k ≠ (s.team t).record → (s.nodeSignal t).poolNode? k = s.poolNode? k) ∧
      if n.sig.length + 1 = nrTeams n.words then m.sigDone = true ∧ ∃ v, (s.nodeSignal t).visits = s.visits ++ [v] ∧
        v.node = (s.team t).record ∧ v.kind = 0 ∧ v.signalled = true else m.sigDone = false ∧ (s.nodeSignal t).visits = s.visits := by
  let S := s.modTeam t (fun T => { T with signalled := true })
  have hvisits : S.visits = s.visits := State.modTeam_visits s t _
  have hSn : S.poolNode? (s.team t).record = some n := by rw [State.poolNode?, State.modTeam_pool, ← hn, State.poolNode?]
  have hS : s.nodeSignal t = S.signalTeam (s.team t).record (s.team t).idx := if_neg (by simp [hsig])
  rw [hS, State.signalTeam_eq hSn hidx hdone]
  by_cases hall : n.sig.length + 1 = nrTeams n.words
  · simp only [if_pos hall]
    obtain ⟨hrest, hteam, hteams, hsame, hne⟩ := signalledBy_spec hres hn true
      ((S.signalledBy (s.team t).record (s.team t).idx true).addVisit (s.team t).record 0 true).visits
    exact ⟨_, hrest, hteam, hteams, hsame, rfl, hne, rfl, _, congrArg (· ++ [_]) hvisits, rfl, rfl, rfl⟩
  · simp only [if_neg hall]
    obtain ⟨hrest, hteam, hteams, hsame, hne⟩ := signalledBy_spec hres hn false S.visits
    exact ⟨_, hrest, hteam, hteams, hsame, rfl, hne, rfl, hvisits⟩

end Nsig

/-! ### nwait -/

section Nwait
variable {o : Ops} {one : Bool} {s W : State} {t c : Nat} {h h0 : Cohort} {fl : Nat} {upd : Nat → Lane → Lane} {val : Nat → Word}

/-- What has been written stands beside the acquire of a core, which only empties the core's L1 (R217). -/
theorem Put.acquire (hput : Put o one s t c h upd val fl h0 W) (k scope : Nat) :
    Put o one (s.acquire k scope) t c h upd val fl h0 (W.acquire k scope) := by
  unfold State.acquire
  split
  · refine ⟨congrArg (fun S => { S with cores := (s.modCore k (fun K => { K with l1 := [] })).cores }) hput.rest, hput.teams,
      hput.courses, hput.team, hput.course, hput.length, fun q => ?_, hput.column, hput.has, hput.lanes, hput.uniform⟩
    by_cases hq : q = k
    · subst hq
      rw [State.core_modCore_same, State.core_modCore_same, hput.core q]
      split
      · next hpush => exact (if_pos hpush).symm
      · next hpush => exact (if_neg hpush).symm
    · rw [State.core_modCore_ne W hq, State.core_modCore_ne s hq]
      exact hput.core q
  · exact hput

/-- A node whose predecessors are all accounted for is not waited for: the failed ones are counted, and the acquire is made (R350). -/
theorem nwait_wrote (hr : Ready o {} s t c h) (hperf : s.performers t c h o.g false ≠ []) (hrem : s.nodeRem (s.team t).record = 0) :
    ∃ s', exec (.nwait o) s = .next s' ∧ Wrote o false (s.acquire (s.team t).core (s.predsOf (s.team t).record).2) t c h
      (fun _ => wordOf ((s.predsOf (s.team t).record).1 % 2 ^ 16)) 0 s' := by
  obtain ⟨W, hwrite, hput⟩ := write_put hr (fun _ =>
    { val := wordOf (((readyRun o {} s t c h).s0.predsOf (readyRun o {} s t c h).T.record).1 % 2 ^ 16) })
    (fun l _ => trapping_zero _ _ l _ rfl)
  rw [flagsOf_zero _ _ (fun _ => rfl)] at hput
  refine ⟨_, withRun_ready hr _, ?_⟩
  have hgood : (readyRun o {} s t c h).good = s.performers t c h o.g false := Run.good_of_nil rfl
  have hnonempty : (readyRun o {} s t c h).good.isEmpty = false := by rw [hgood]; simpa using hperf
  have hdeps : ((readyRun o {} s t c h).s0.nodeRem (readyRun o {} s t c h).T.record != 0) = false := by
    rw [bne_eq_false_iff_eq]; exact hrem
  simp only [hnonempty, hdeps, Bool.false_eq_true, if_false]
  rw [hwrite]
  exact (hput.acquire (s.team t).core (s.predsOf (s.team t).record).2).finish (s := s) (p := {}) (v := false) rfl rfl rfl

end Nwait

end Sys2Proof.Machine

namespace Sys2Proof.Machine

/-! ## Accesses that leave the core, and the launch of a node (R23, R211, R351) -/

theorem eGet_eSet_or {w : Nat} (m : BitVec w) (n : Nat) {j : Nat} (hj : j < w) : eGet (eSet m n) j = (eGet m j || j == n) := by
  rw [eGet, eSet, BitVec.getLsbD_or, BitVec.getLsbD_twoPow]
  by_cases hjn : j = n
  · subst hjn; simp [hj]
  · simp [hjn, Ne.symm hjn, eGet]

/-- Uniform registers `K`, lane registers `V` and predicates `P` of a course have become empty, and nothing else of the teams has
changed (R23). -/
structure Emptied (s : State) (t c : Nat) (K : Nat → Bool) (V P : Nat → Nat → Bool) (S : State) : Prop where
  teams : ∀ u, u ≠ t → S.team u = s.team u
  courses : ∀ d, d ≠ c → S.course t d = s.course t d
  team : ∃ kE crs, S.team t = { s.team t with kE := kE, courses := crs }
  course : ∃ ls, S.course t c = { s.course t c with lanes := ls }
  length : (S.course t c).lanes.length = (s.course t c).lanes.length
  has : s.HasCourse t c → S.HasCourse t c
  uniform : ∀ n, n < 256 → eGet (S.team t).kE n = (eGet (s.team t).kE n || K n)
  lane : ∀ l, ∃ vE pE, S.lane t c l = { s.lane t c l with vE := vE, pE := pE }
  regs : ∀ l n, n < 256 → l < (s.course t c).lanes.length → eGet (S.lane t c l).vE n = (eGet (s.lane t c l).vE n || V l n)
  preds : ∀ l n, n < 48 → l < (s.course t c).lanes.length → eGet (S.lane t c l).pE n = (eGet (s.lane t c l).pE n || P l n)

section Emptied
variable {s S W : State} {t c : Nat} {K K' : Nat → Bool} {V V' P P' : Nat → Nat → Bool}

theorem Emptied.refl (s : State) (t c : Nat) : Emptied s t c (fun _ => false) (fun _ _ => false) (fun _ _ => false) s :=
  ⟨fun _ _ => rfl, fun _ _ => rfl, ⟨_, _, rfl⟩, ⟨_, rfl⟩, rfl, id, by simp, fun _ => ⟨_, _, rfl⟩, by simp, by simp⟩

theorem Emptied.trans (h : Emptied s t c K V P S) (k : Emptied S t c K' V' P' W) :
    Emptied s t c (fun n => K n || K' n) (fun l n => V l n || V' l n) (fun l n => P l n || P' l n) W where
  teams u hu := (k.teams u hu).trans (h.teams u hu)
  courses d hd := (k.courses d hd).trans (h.courses d hd)
  team := by
    obtain ⟨_, _, hS⟩ := h.team
    obtain ⟨_, _, hW⟩ := k.team
    exact ⟨_, _, by rw [hW, hS]⟩
  course := by
    obtain ⟨_, hS⟩ := h.course
    obtain ⟨_, hW⟩ := k.course
    exact ⟨_, by rw [hW, hS]⟩
  length := k.length.trans h.length
  has hs := k.has (h.has hs)
  uniform n hn := by rw [k.uniform n hn, h.uniform n hn, Bool.or_assoc]
  lane l := by
    obtain ⟨_, _, hS⟩ := h.lane l
    obtain ⟨_, _, hW⟩ := k.lane l
    exact ⟨_, _, by rw [hW, hS]⟩
  regs l n hn hl := by rw [k.regs l n hn (by rw [h.length]; exact hl), h.regs l n hn hl, Bool.or_assoc]
  preds l n hn hl := by rw [k.preds l n hn (by rw [h.length]; exact hl), h.preds l n hn hl, Bool.or_assoc]

/-- What has become empty, said in another way. -/
theorem Emptied.congr (h : Emptied s t c K V P S) (hK : ∀ n, K n = K' n) (hV : ∀ l n, V l n = V' l n) (hP : ∀ l n, P l n = P' l n) :
    Emptied s t c K' V' P' S := by
  obtain rfl : K = K' := funext hK
  obtain rfl : V = V' := funext fun l => funext (hV l)
  obtain rfl : P = P' := funext fun l => funext (hP l)
  exact h

/-- Only the teams are spoken of. -/
theorem Emptied.of_teams (h : Emptied s t c K V P S) (hW : W.teams = S.teams) : Emptied s t c K V P W := by
  have hteam : ∀ u, W.team u = S.team u := fun u => by rw [State.team, hW, State.team]
  have hcourse : ∀ u d, W.course u d = S.course u d := fun u d => congrArg (fun T => T.course d) (hteam u)
  have hlane : ∀ u d l, W.lane u d l = S.lane u d l := fun u d l => congrArg (fun C => C.lane l) (hcourse u d)
  obtain ⟨hteams, hcourses, hself, hcrs, hlen, hhas, huniform, hlanes, hregs, hpreds⟩ := h
  refine ⟨?_, ?_, ?_, ?_, ?_, ?_, ?_, ?_, ?_, ?_⟩
  · simpa only [hteam] using hteams
  · simpa only [hcourse] using hcourses
  · simpa only [hteam] using hself
  · simpa only [hcourse] using hcrs
  · simpa only [hcourse] using hlen
  · simpa only [State.HasCourse, hW] using hhas
  · simpa only [hteam] using huniform
  · simpa only [hlane] using hlanes
  · simpa only [hlane] using hregs
  · simpa only [hlane] using hpreds

/-- A lane whose registers `v` and predicates `p` become empty. -/
theorem emptied_modLane (hs : s.HasCourse t c) (l : Nat) {g : Lane → Lane} {v p : Nat → Bool}
    (hg : ∀ L, ∃ vE pE, g L = { L with vE := vE, pE := pE }) (hv : ∀ L n, n < 256 → eGet (g L).vE n = (eGet L.vE n || v n))
    (hp : ∀ L n, n < 48 → eGet (g L).pE n = (eGet L.pE n || p n)) :
    Emptied s t c (fun _ => false) (fun a n => a == l && v n) (fun a n => a == l && p n) (s.modLane t c l g) := by
  have hother : ∀ {a}, a ≠ l → (s.modLane t c l g).lane t c a = s.lane t c a := fun ha => State.lane_modLane_ne s (fun e => ha e.2.2) g
  have hcrs : (s.modLane t c l g).course t c = (s.course t c).modLane l g := State.course_modCourse_same hs _
  refine ⟨fun u hu => State.team_modTeam_ne s hu _, fun d hd => State.course_modCourse_ne s (fun e => hd e.2) _, ?_, ⟨_, hcrs⟩, ?_,
    fun hs => hs.modLane t c l g, fun n _ => ?_, fun a => ?_, fun a n hn ha => ?_, fun a n hn ha => ?_⟩
  · obtain ⟨crs, hteam⟩ := team_modCourse_crs s t c (·.modLane l g)
    exact ⟨(s.team t).kE, crs, hteam⟩
  · exact State.length_lanes_modLane s t c l g t c
  · rw [Bool.or_false]
    exact congrArg (eGet · n) (State.team_modCourse_keep (fun T => T.kE) s t c _ (fun _ => rfl) t)
  · by_cases ha : a = l
    · subst ha
      by_cases hlen : a < (s.course t c).lanes.length
      · obtain ⟨vE, pE, hL⟩ := hg (s.lane t c a)
        exact ⟨vE, pE, (State.lane_modLane_same hs hlen g).trans hL⟩
      · refine ⟨(s.lane t c a).vE, (s.lane t c a).pE, ?_⟩
        rw [State.lane, State.lane, lane_absent (by rw [State.length_lanes_modLane]; exact hlen), lane_absent hlen]
    · exact ⟨_, _, hother ha⟩
  · by_cases hal : a = l
    · subst hal; rw [State.lane_modLane_same hs ha, hv _ _ hn, beq_self_eq_true, Bool.true_and]
    · rw [hother hal, beq_eq_false_iff_ne.2 hal, Bool.false_and, Bool.or_false]
  · by_cases hal : a = l
    · subst hal; rw [State.lane_modLane_same hs ha, hp _ _ hn, beq_self_eq_true, Bool.true_and]
    · rw [hother hal, beq_eq_false_iff_ne.2 hal, Bool.false_and, Bool.or_false]

theorem emptied_vEmpty (hs : s.HasCourse t c) (l n : Nat) :
    Emptied s t c (fun _ => false) (fun a b => a == l && b == n) (fun _ _ => false) (s.modLane t c l (fun L => L.vEmpty n)) :=
  (emptied_modLane hs l (g := fun L => L.vEmpty n) (v := (· == n)) (p := fun _ => false) (fun _ => ⟨_, _, rfl⟩)
    (fun L _ hb => eGet_eSet_or L.vE n hb) (fun _ _ _ => (Bool.or_false _).symm)).congr (fun _ => rfl) (fun _ _ => rfl) (fun _ _ => Bool.and_false _)

theorem emptied_pE (hs : s.HasCourse t c) (l n : Nat) :
    Emptied s t c (fun _ => false) (fun _ _ => false) (fun a b => a == l && b == n)
      (s.modLane t c l (fun L => { L with pE := eSet L.pE n })) :=
  (emptied_modLane hs l (g := fun L => { L with pE := eSet L.pE n }) (v := fun _ => false) (p := (· == n)) (fun _ => ⟨_, _, rfl⟩)
    (fun _ _ _ => (Bool.or_false _).symm) (fun L _ hb => eGet_eSet_or L.pE n hb)).congr (fun _ => rfl) (fun _ _ => Bool.and_false _) (fun _ _ => rfl)

theorem emptied_kEmpty (hs : s.HasCourse t c) (n : Nat) :
    Emptied s t c (fun m => m != 0 && m == n) (fun _ _ => false) (fun _ _ => false) (s.modTeam t (fun T => T.kEmpty n)) := by
  have hkeep : ∀ {α : Type} (g : Team → α), (∀ T kE, g { T with kE := kE } = g T) →
      ∀ u, g ((s.modTeam t (fun T => T.kEmpty n)).team u) = g (s.team u) :=
    fun g hg => State.team_modTeam_keep g s t _ (fun T => by unfold Team.kEmpty; split; exacts [rfl, hg ..])
  obtain ⟨T, hteam, hlen⟩ := hs
  have hT : (s.modTeam t (fun T => T.kEmpty n)).team t = (s.team t).kEmpty n := State.team_modTeam_same hteam _
  have hcourse : ∀ d, (s.modTeam t (fun T => T.kEmpty n)).course t d = s.course t d := fun d => hkeep (fun T => T.course d) (fun _ _ => rfl) t
  refine ⟨fun u hu => State.team_modTeam_ne s hu _, fun d _ => hcourse d, ?_, ⟨_, hcourse c⟩, by rw [hcourse],
    fun hs => hs.modTeam t _ (fun T => by unfold Team.kEmpty; split <;> rfl), fun m hm => ?_, fun l => ⟨_, _, by rw [State.lane, hcourse]; rfl⟩,
    fun l m _ _ => by rw [State.lane, hcourse, Bool.or_false]; rfl, fun l m _ _ => by rw [State.lane, hcourse, Bool.or_false]; rfl⟩
  · rw [hT, Team.kEmpty]
    split
    · exact ⟨_, _, rfl⟩
    · exact ⟨_, _, rfl⟩
  · rw [hT, Team.kEmpty]
    split
    · next hzero => subst hzero; cases m <;> simp
    · next hne =>
      refine (eGet_eSet_or (s.team t).kE n hm).trans (congrArg _ ?_)
      by_cases hmn : m = n
      · subst hmn; simp [hne]
      · simp [hmn]

theorem emptied_regs (hs : s.HasCourse t c) (rs : List (Nat × Nat)) :
    Emptied s t c (fun _ => false) (fun a b => rs.contains (a, b)) (fun _ _ => false)
      (rs.foldl (fun s p => s.modLane t c p.1 (fun L => L.vEmpty p.2)) s) := by
  induction rs generalizing s with
  | nil => exact (Emptied.refl s t c).congr (fun _ => rfl) (fun _ _ => rfl) (fun _ _ => rfl)
  | cons p rs ih =>
    refine ((emptied_vEmpty hs p.1 p.2).trans (ih (hs.modLane t c p.1 _))).congr (fun _ => rfl) (fun a b => ?_) (fun _ _ => rfl)
    rw [List.contains_cons]
    rfl

/-- The destination of an access becomes empty as it leaves the core (R23). -/
theorem emptied_dest (f : Flight) (hs : s.HasCourse f.team f.crs) :
    Emptied s f.team f.crs (fun n => n != 0 && f.dest == .k n) (fun a n => f.dest.names a n) (fun _ _ => false)
      (State.markEmpty s { f with pn := none }) := by
  rw [State.markEmpty]
  dsimp only
  cases hd : f.dest with
  | v l n =>
    exact (emptied_vEmpty hs l n).congr (fun m => (Bool.and_false (m != 0)).symm) (fun a b => congr_arg₂ and BEq.comm BEq.comm) (fun _ _ => rfl)
  | k n =>
    refine (emptied_kEmpty hs n).congr (fun m => congrArg (m != 0 && ·) ?_) (fun _ _ => rfl) (fun _ _ => rfl)
    exact Bool.eq_iff_iff.2 ⟨fun h => by rw [eq_of_beq h]; exact beq_self_eq_true _, fun h => by cases eq_of_beq h; exact beq_self_eq_true _⟩
  | vs rs => exact (emptied_regs hs rs).congr (fun m => (Bool.and_false (m != 0)).symm) (fun _ _ => rfl) (fun _ _ => rfl)
  | _ => exact (Emptied.refl s _ _).congr (fun m => (Bool.and_false (m != 0)).symm) (fun _ _ => rfl) (fun _ _ => rfl)

/-- The destination and the outcome predicate of an access become empty as it leaves the core (R23). -/
theorem emptied_markEmpty (f : Flight) (hs : s.HasCourse f.team f.crs) :
    Emptied s f.team f.crs (fun n => n != 0 && f.dest == .k n) (fun a n => f.dest.names a n) (fun a n => f.lane == a && f.pn == some n)
      (s.markEmpty f) := by
  have hdest := emptied_dest f hs
  cases hpn : f.pn with
  | none =>
    have hf : { f with pn := none } = f := by rw [← hpn]
    rw [hf] at hdest
    exact hdest.congr (fun _ => rfl) (fun _ _ => rfl) (fun _ _ => (Bool.and_false _).symm)
  | some n =>
    have hmark : s.markEmpty f =
        (State.markEmpty s { f with pn := none }).modLane f.team f.crs f.lane (fun L => { L with pE := eSet L.pE n }) := by
      rw [State.markEmpty, hpn]
      rfl
    rw [hmark]
    refine (hdest.trans (emptied_pE (hdest.has hs) f.lane n)).congr (fun _ => Bool.or_false _) (fun _ _ => Bool.or_false _) (fun a b => ?_)
    rw [Bool.false_or, Option.some_beq_some, BEq.comm (a := a), BEq.comm (a := b)]

/-- Only the teams have changed. -/
def OnlyTeams (s S : State) : Prop := ∃ ts, S = { s with teams := ts }

theorem OnlyTeams.trans (h : OnlyTeams s S) (k : OnlyTeams S W) : OnlyTeams s W := by
  obtain ⟨_, rfl⟩ := h
  obtain ⟨_, rfl⟩ := k
  exact ⟨_, rfl⟩

theorem onlyTeams_modTeam (s : State) (t : Nat) (f : Team → Team) : OnlyTeams s (s.modTeam t f) := by
  unfold State.modTeam
  split
  · exact ⟨_, rfl⟩
  · exact ⟨_, rfl⟩

theorem onlyTeams_foldl {α : Type} {f : State → α → State} (hf : ∀ s x, OnlyTeams s (f s x)) (s : State) (l : List α) :
    OnlyTeams s (l.foldl f s) := by
  induction l generalizing s with
  | nil => exact ⟨_, rfl⟩
  | cons x l ih => exact (hf s x).trans (ih _)

/-- Only the teams change as a destination becomes empty. -/
theorem onlyTeams_markEmpty (s : State) (f : Flight) : OnlyTeams s (s.markEmpty f) := by
  unfold State.markEmpty
  extract_lets S
  have hS : OnlyTeams s S := by
    simp only [S]
    split
    · exact ⟨_, rfl⟩
    · exact onlyTeams_modTeam s _ _
    · exact onlyTeams_modTeam s _ _
    · exact onlyTeams_foldl (fun s p => onlyTeams_modTeam s _ _) s _
    · exact ⟨_, rfl⟩
  split
  · exact hS
  · exact hS.trans (onlyTeams_modTeam S _ _)

end Emptied

/-! ### Accesses sent -/

/-- Some accesses `fs` of a course have left the core, for whose checks the core's TLB may have changed (R23, R170, R219). -/
structure Sent (s : State) (t c : Nat) (fs : List Flight) (S : State) : Prop where
  rest : { S with teams := s.teams, cores := s.cores, flights := s.flights, nextId := s.nextId } = s
  flights : S.flights = s.flights ++ fs
  ids : fs.map (·.id) = (List.range fs.length).map (s.nextId + ·)
  nextId : S.nextId = s.nextId + fs.length
  cores : ∀ q, ∃ tlb, S.core q = { s.core q with tlb := tlb }
  emptied : Emptied s t c (fun n => n != 0 && fs.any (fun f => f.dest == .k n)) (fun l n => fs.any (fun f => f.dest.names l n))
    (fun l n => fs.any (fun f => f.lane == l && f.pn == some n)) S

section Sent
variable {s S : State} {t c : Nat} {fs : List Flight}

/-- The access as it stands in flight (R219). -/
def State.stamped (s : State) (f : Flight) : Flight :=
  { f with id := s.nextId, tag := (s.core f.core).mergeTag, since := s.cycle (coreCol f.core) }

theorem Sent.refl (s : State) (t c : Nat) : Sent s t c [] s :=
  ⟨rfl, (List.append_nil _).symm, rfl, rfl, fun _ => ⟨_, rfl⟩, (Emptied.refl s t c).congr (fun n => (Bool.and_false (n != 0)).symm)
    (fun _ _ => rfl) (fun _ _ => rfl)⟩

theorem Sent.addTlb (h : Sent s t c fs S) (k : Nat) (e : TlbEnt) : Sent s t c fs (S.addTlb k e) := by
  refine ⟨h.rest, h.flights, h.ids, h.nextId, fun q => ?_, h.emptied.of_teams rfl⟩
  obtain ⟨tlb, hq⟩ := h.cores q
  by_cases hk : q = k
  · subst hk
    exact ⟨_, by rw [State.addTlb, State.core_modCore_same, hq]⟩
  · exact ⟨tlb, (State.core_modCore_ne S hk _).trans hq⟩

/-- A further access of the course leaves the core. -/
theorem Sent.send (h : Sent s t c fs S) (hres : s.HasCourse t c) {f : Flight} (ht : f.team = t) (hc : f.crs = c) :
    Sent s t c (fs ++ [S.stamped f]) (S.send f) := by
  subst ht hc
  have hempty := h.emptied.trans (emptied_markEmpty f (h.emptied.has hres))
  obtain ⟨ts, hmark⟩ := onlyTeams_markEmpty S f
  have hsend : S.send f = { S with teams := ts, flights := S.flights ++ [S.stamped f], nextId := S.nextId + 1 } := by rw [State.send, hmark]; rfl
  have hteams : (S.send f).teams = (S.markEmpty f).teams := rfl
  refine ⟨?_, ?_, ?_, ?_, ?_, (hempty.of_teams hteams).congr (fun n => ?_) (fun l n => ?_) (fun l n => ?_)⟩
  · rw [hsend]; exact h.rest
  · rw [← List.append_assoc, ← h.flights, hsend]
  · rw [List.map_append, h.ids, List.length_append, List.length_singleton, List.range_succ, List.map_append]
    exact congrArg (_ ++ [·]) h.nextId
  · rw [List.length_append, List.length_singleton, ← Nat.add_assoc, ← h.nextId, hsend]
  · rw [hsend]; exact h.cores
  · rw [List.any_append, Bool.and_or_distrib_left, List.any_cons, List.any_nil, Bool.or_false]; rfl
  · rw [List.any_append, List.any_cons, List.any_nil, Bool.or_false]; rfl
  · rw [List.any_append, List.any_cons, List.any_nil, Bool.or_false]; rfl

/-- Accesses of some lanes, one for each element of `as`, leave the core one after another: each is as `F` makes it of a state in which
only accesses of the lanes before it have been added. -/
theorem Sent.fold {α : Type} {as : List α} {lane : α → Nat} {F : State → α → Flight} {R : α → Flight → Prop}
    (hF : ∀ S a, (F S a).team = t ∧ (F S a).crs = c ∧ (F S a).lane = lane a) (hres : s.HasCourse t c)
    (hR : ∀ S gs, Sent s t c gs S → ∀ a ∈ as, (∀ g ∈ gs, g.lane ≠ lane a) → R a (S.stamped (F S a)))
    (hnodup : (as.map lane).Nodup) {gs : List Flight} (hS : Sent s t c gs S) (hgs : ∀ g ∈ gs, ∀ a ∈ as, g.lane ≠ lane a) :
    ∃ fs, Sent s t c (gs ++ fs) (as.foldl (fun S a => S.send (F S a)) S) ∧
      fs.map (·.lane) = as.map lane ∧ ∀ f ∈ fs, ∃ a ∈ as, R a f ∧ f.team = t ∧ f.crs = c ∧ f.lane = lane a := by
  induction as generalizing S gs with
  | nil => exact ⟨[], by rwa [List.append_nil], rfl, by simp⟩
  | cons a as ih =>
    obtain ⟨hteam, hcrs, hlane⟩ := hF S a
    obtain ⟨hnot, hnodup⟩ := List.nodup_cons.1 hnodup
    have hRa := hR S gs hS a List.mem_cons_self (fun g hg => hgs g hg a List.mem_cons_self)
    obtain ⟨fs, hfs, hmap, hall⟩ := ih (fun S gs hS b hb => hR S gs hS b (List.mem_cons_of_mem a hb)) hnodup (hS.send hres hteam hcrs) (by
      intro g hg b hb
      rcases List.mem_append.1 hg with hg | hg
      · exact hgs g hg b (List.mem_cons_of_mem a hb)
      · rw [List.mem_singleton.1 hg]
        exact fun heq => hnot (List.mem_map.2 ⟨b, hb, heq.symm.trans hlane⟩))
    refine ⟨S.stamped (F S a) :: fs, by rwa [List.append_assoc] at hfs, congr_arg₂ _ hlane hmap, fun f hf => ?_⟩
    rcases List.mem_cons.1 hf with rfl | hf
    · exact ⟨a, List.mem_cons_self, hRa, hteam, hcrs, hlane⟩
    · obtain ⟨b, hb, hRb⟩ := hall f hf
      exact ⟨b, List.mem_cons_of_mem a hb, hRb⟩

end Sent

/-! ### The end of an instruction that has sent accesses -/

/-- A course at the end of an instruction that counts towards its batch (R38, R50). -/
def Course.movedOn (C : Course) : Course := { C with
  parked := none, walked := [], recRefused := 0, coh := C.coh.map (fun h => { h with issued := h.issued + 1, pc := h.succ }) }

/-- A state with what the sending of accesses may change as it is in `s`. -/
def State.unsent (s S : State) : State := { S with
  teams := s.teams, cores := s.cores, columns := s.columns, flights := s.flights, nextId := s.nextId, fresh := s.fresh }

section Ended
variable {o : Ops} {p : Pro} {b s W E : State} {t c : Nat} {h : Cohort} {fs : List Flight}

/-- The consumption of sources leaves the courses as they are (R89, R217). -/
theorem Eaten.course (hate : Eaten W t E) (d : Nat) : E.course t d = W.course t d := by
  obtain ⟨kScope, ports, hteam⟩ := hate.team
  simp only [State.course, hteam, Team.course]

/-- What the end of an instruction that has sent accesses leaves of all but the teams. -/
theorem Sent.unsent (hsent : Sent s t c fs W) (hate : Eaten W t E) (f : Course → Course) : s.unsent (E.modCourse t c f) = s := by
  obtain ⟨ts, hts⟩ := onlyTeams_modTeam E t (·.modCourse c f)
  rw [State.modCourse, hts]
  exact (congrArg s.unsent hate.rest).trans (congrArg s.unsent hsent.rest :)

/-- What the end of an instruction that has sent accesses leaves, with the course moved on (R23, R38, R89). -/
theorem Sent.movedOn (hcoh : (s.course t c).coh = some h) (hsent : Sent s t c fs W) (hate : Eaten W t E) :
    Issued o s t c h fs (E.modCourse t c Course.movedOn) := by
  obtain ⟨kScope, ports, hEteam⟩ := hate.team
  obtain ⟨kE, crs0, hWteam⟩ := hsent.emptied.team
  obtain ⟨ls, hWcourse⟩ := hsent.emptied.course
  obtain ⟨crs, hteam⟩ := team_modCourse_crs E t c Course.movedOn
  have hcourse := State.course_modCourse_same (hate.has c (hsent.emptied.has (State.hasCourse_of_coh hcoh))) Course.movedOn
  have hlane : ∀ l, (E.modCourse t c Course.movedOn).lane t c l = W.lane t c l := fun l =>
    (State.lane_modCourse_keep E t c Course.movedOn (fun _ => rfl) t c l).trans (congrArg (fun C => C.lane l) (hate.course c))
  exact {
    rest := hsent.unsent hate Course.movedOn
    flights := by
      rw [State.modCourse_flights, ← hsent.flights]
      exact (congrArg State.flights hate.rest :)
    ids := hsent.ids
    nextId := by
      rw [State.modCourse_nextId, ← hsent.nextId]
      exact (congrArg State.nextId hate.rest :)
    teams := fun u hu => (State.team_modTeam_ne _ hu _).trans ((hate.teams u hu).trans (hsent.emptied.teams u hu))
    courses := fun d hd => (State.course_modCourse_ne _ (fun e => hd e.2) _).trans ((hate.course d).trans (hsent.emptied.courses d hd))
    team := ⟨kE, kScope, ports, crs, by rw [hteam, hEteam, hWteam]⟩
    course := ⟨ls, by rw [hcourse, hate.course, hWcourse, Course.movedOn, hcoh]; rfl⟩
    uniform := fun n hn => by rw [hteam, hEteam]; exact hsent.emptied.uniform n hn
    lanes := fun l => by
      obtain ⟨vE, pE, hl⟩ := hsent.emptied.lane l
      refine ⟨vE, pE, (hlane l).trans hl, fun n hn hlen => ?_⟩
      have hregs := hsent.emptied.regs l n hn hlen
      rwa [hl] at hregs
    preds := fun l n hn hl => by rw [hlane]; exact hsent.emptied.preds l n hn hl
    cores := fun q => by
      obtain ⟨l1, hE⟩ := hate.core q
      obtain ⟨tlb, hW⟩ := hsent.cores q
      exact ⟨tlb, l1, by rw [State.modCourse, State.core_modTeam, hE, hW]⟩
    columns := fun q => by
      obtain ⟨scq, hE⟩ := hate.column q
      have hcolumns : W.columns = s.columns := (congrArg State.columns hsent.rest :)
      refine ⟨scq, (s.column q).near, (s.column q).took, ?_⟩
      rw [State.modCourse, State.column_modTeam, hE, State.column, hcolumns, State.column] }

/-- The accesses sent and the sources consumed are all that such an instruction leaves, with its cohort moved on (R23, R38, R89). -/
theorem Sent.issued (hcoh : (s.course t c).coh = some h) (hsent : Sent s t c fs W) :
    Issued o s t c h fs ({ readyRun o p b t c h with s := W } : Run).finish := by
  rw [finish_nil _ rfl]
  exact hsent.movedOn hcoh (eaten_consumeSrcs { readyRun o p b t c h with s := W })

end Ended

/-! ### nlaunch -/

/-- Accesses whose addresses all translate pass, and their leaves stand in the core's TLB (R170, R171). -/
theorem Run.translated_hits {r : Run} {ls : List Nat} {kind : AccessKind} {x : Nat → Word} {e : Nat → TlbEnt} {pa : Nat → Nat}
    (hflt : r.flt = []) (hhit : ∀ l ∈ ls, r.s0.translate r.t r.c (x l) kind = .hit (e l) (pa l)) :
    r.translated ls kind x = .go
      { r with s := (ls.map (fun l => (⟨l, x l, e l, pa l⟩ : Acc))).foldl (fun s a => s.addTlb r.core a.e) r.s }
      (ls.map (fun l => ⟨l, x l, e l, pa l⟩)) := by
  have hok : ls.filter r.ok = ls := List.filter_eq_self.2 (fun l _ => Run.ok_of_nil hflt l)
  have hcheck : ∀ f, (∀ l ∈ ls, f l = none) → r.check ls f = r := fun f hf => Run.check_none r ls f hf
  unfold Run.translated
  extract_lets ok tr pages r1 acc
  have htr : ∀ l ∈ ls, tr l = .hit (e l) (pa l) := hhit
  have hokls : ok = ls := hok
  have hpages : pages = [] := List.filterMap_eq_nil_iff.2 (fun l hl => by rw [htr l (hokls ▸ hl)])
  have hr1 : r1 = r := by
    simp only [r1, hokls]
    exact hcheck _ (fun l hl => by rw [htr l hl])
  have hacc : acc = ls.map (fun l => ⟨l, x l, e l, pa l⟩) := by
    simp only [acc, hr1, hokls, hok]
    rw [← List.filterMap_eq_map]
    exact List.filterMap_congr (fun l hl => by rw [htr l hl]; rfl)
  rw [if_neg (by simp [hpages]), hr1, hacc]

/-- A number below 64 has no bit above the sixth. -/
theorem wfld_of_lt {x : Word} (hx : x.toNat < 64) : wfld x 6 58 = 0 := by
  rw [wfld, fld, Nat.shiftRight_eq_div_pow, Nat.div_eq_of_lt hx, Nat.zero_mod]

section Nlaunch
variable {o : Ops} {s : State} {t c : Nat} {h : Cohort}

/-- Where the result of a lane goes, in a run that stands ready. -/
theorem readyRun_destOf (p : Pro) (l : Nat) : (readyRun o p s t c h).destOf l = s.destIn t c h o l := by
  unfold Run.destOf
  rw [readyRun_chosen]
  rfl

/-- The accesses of other lanes do not change what a lane's accesses wait for. -/
theorem Sent.ofLane {S : State} {gs : List Flight} (hS : Sent s t c gs S) {l : Nat} (hgs : ∀ g ∈ gs, g.lane ≠ l) :
    S.ofLane t c l = s.ofLane t c l := by
  have hnone : gs.filter (fun f => f.team == t && f.crs == c && f.lane == l) = [] :=
    List.filter_eq_nil_iff.2 (fun g hg => by simp [hgs g hg])
  rw [State.ofLane, hS.flights, List.filter_append, hnone, List.append_nil, State.ofLane]

/-- The launch store of a lane: `nlaunch` sends one for each live lane that performs it (R351). -/
def Run.launchStore (r : Run) (prio : Nat) (col : Bool) (S : State) (a : Acc) : Flight :=
  { r.flight .launch a with
    dest := r.destOf a.l
    span := prio
    count := if col then (r.b a.l).toNat else r.col
    after := S.acqAfter r.t r.c a.l ++ S.relAfter r.t r.c a.l 6 }

/-- A run of `nlaunch` in which every lane passes its checks sends the launch stores (R351). -/
theorem nlaunch_run {prio : Nat} {col : Bool} {e : Nat → TlbEnt} {pa : Nat → Nat} (hr : Ready o {} s t c h)
    (hls : ∀ l ∈ s.livePerf t c h o.g, (s.srcWord t c l o o.a.op).toNat % 128 = 0 ∧
      s.translate t c (s.srcWord t c l o o.a.op) .launch = .hit (e l) (pa l) ∧ pteAttr (e l).pte = 0 ∧
      (col = true → (s.srcWord t c l o o.b.op).toNat < 64)) :
    let r := readyRun o { helps := false } s t c h
    let accs := (s.livePerf t c h o.g).map (fun l => (⟨l, s.srcWord t c l o o.a.op, e l, pa l⟩ : Acc))
    let W := accs.foldl (fun S a => S.send (r.launchStore prio col S a)) (accs.foldl (fun S a => S.addTlb (s.team t).core a.e) s)
    exec (.nlaunch o prio col) s = .next ({ r with s := W } : Run).finish := by
  intro r accs W
  refine (withRun_ready (p := { helps := false }) (hr.withHelps false) _).trans (congrArg _ ?_)
  have hgood : r.goodLive = s.livePerf t c h o.g := readyRun_goodLive rfl
  have halign : r.check r.goodLive (fun l => alignFault 128 (r.a l)) = r :=
    Run.check_none _ _ _ (fun l hl => if_pos (hls l (hgood ▸ hl)).1)
  have htr : r.translated r.goodLive .launch r.a =
      .go { r with s := accs.foldl (fun S a => S.addTlb (s.team t).core a.e) s } accs := by
    rw [hgood]
    exact Run.translated_hits rfl (fun l hl => (hls l hl).2.1)
  dsimp only [r] at halign htr ⊢
  rw [halign, htr]
  dsimp only
  have hacc : ∀ a ∈ accs, ∃ l ∈ s.livePerf t c h o.g, a = ⟨l, s.srcWord t c l o o.a.op, e l, pa l⟩ := fun a ha => by
    obtain ⟨l, hl, rfl⟩ := List.mem_map.1 ha
    exact ⟨l, hl, rfl⟩
  rw [Run.checkAcc_none _ accs uncachedFault (fun a ha => by
    obtain ⟨l, hl, rfl⟩ := hacc a ha
    exact if_pos (hls l hl).2.2.1)]
  rw [Run.checkAcc_none _ accs _ (fun a ha => by
    obtain ⟨l, hl, rfl⟩ := hacc a ha
    refine if_neg ?_
    rintro hboth
    obtain ⟨hcol, hbig⟩ := Bool.and_eq_true_iff.1 hboth
    exact (bne_iff_ne.1 hbig) (wfld_of_lt ((hls l hl).2.2.2 hcol)))]
  have hpassed : ∀ {R : Run}, R.flt = [] → R.passed accs = accs := fun hflt =>
    List.filter_eq_self.2 (fun a _ => Run.ok_of_nil hflt a.l)
  rw [hpassed rfl]
  rfl

/-- The launch of nodes (R351): each live lane that performs it sends one launch store. -/
theorem nlaunch_sends {prio : Nat} {col : Bool} {e : Nat → TlbEnt} {pa : Nat → Nat} (hr : Ready o {} s t c h)
    (hls : ∀ l ∈ s.livePerf t c h o.g, (s.srcWord t c l o o.a.op).toNat % 128 = 0 ∧
      s.translate t c (s.srcWord t c l o o.a.op) .launch = .hit (e l) (pa l) ∧ pteAttr (e l).pte = 0 ∧
      (col = true → (s.srcWord t c l o o.b.op).toNat < 64)) :
    Sends (.nlaunch o prio col) o s t c h (fun fs => OnePer (s.livePerf t c h o.g) fs (fun l f =>
      f.kind = .launch ∧ f.va = s.srcWord t c l o o.a.op ∧ f.pa = pa l ∧ f.span = prio ∧
      f.count = (if col then (s.srcWord t c l o o.b.op).toNat else (s.team t).core / 12) ∧ f.dest = s.destIn t c h o l ∧ f.stage = 0 ∧
      f.after = s.acqAfter t c l ++ s.relAfter t c l 6)) := by
  let r := readyRun o { helps := false } s t c h
  let accs := (s.livePerf t c h o.g).map (fun l => (⟨l, s.srcWord t c l o o.a.op, e l, pa l⟩ : Acc))
  have hres : s.HasCourse t c := State.hasCourse_of_coh hr.cohort
  have htlb : Sent s t c [] (accs.foldl (fun S a => S.addTlb (s.team t).core a.e) s) :=
    List.foldlRecOn accs _ (Sent.refl s t c) (fun S hS a _ => hS.addTlb _ a.e)
  have hlanes : accs.map (·.l) = s.livePerf t c h o.g := by rw [List.map_map]; exact List.map_id _
  have hnodup : (accs.map (·.l)).Nodup := by rw [hlanes]; exact (performers_nodup s t c h o.g false).filter _
  obtain ⟨fs, hsent, hmap, hall⟩ := Sent.fold (lane := fun a : Acc => a.l) (F := r.launchStore prio col) (as := accs)
    (R := fun a f => f.core = (s.team t).core ∧ f.kind = .launch ∧ f.va = a.x ∧ f.pa = a.pa ∧ f.span = prio ∧
      f.count = (if col then (s.srcWord t c a.l o o.b.op).toNat else (s.team t).core / 12) ∧ f.dest = s.destIn t c h o a.l ∧ f.stage = 0 ∧
      f.after = s.acqAfter t c a.l ++ s.relAfter t c a.l 6)
    (fun S a => ⟨rfl, rfl, rfl⟩) hres (fun S gs hS a _ hgs => ⟨rfl, rfl, rfl, rfl, rfl, rfl, readyRun_destOf _ a.l, rfl, by
      show S.acqAfter t c a.l ++ S.relAfter t c a.l 6 = _
      rw [State.acqAfter, State.relAfter, hS.ofLane hgs, State.acqAfter, State.relAfter]⟩) hnodup htlb (by simp)
  rw [List.nil_append] at hsent
  refine ⟨_, fs, nlaunch_run hr hls, hsent.issued hr.cohort, fun f hf => ?_, hmap.trans hlanes, fun f hf => ?_⟩
  · obtain ⟨a, -, ⟨hcore, -⟩, hteam, hcrs, -⟩ := hall f hf
    exact ⟨hteam, hcrs, hcore⟩
  · obtain ⟨a, ha, ⟨-, hlaunch⟩, -, -, hlane⟩ := hall f hf
    obtain ⟨l, -, rfl⟩ := List.mem_map.1 ha
    rw [hlane]
    exact hlaunch

end Nlaunch

end Sys2Proof.Machine

namespace Sys2Proof.Machine

/-! ## Contexts of suspended courses (R103) -/

/-! ### A value that lands later -/

section Owe
variable {o : Ops} {p : Pro} {s S : State} {t c u d l : Nat} {h : Cohort} {v : Word} {after : List (Nat × Nat)}

/-- A value on its way to where a lane's result goes (R23). -/
def State.Lands (S : State) (t c l : Nat) (dest : Dest) (v : Word) : Prop := ∃ f ∈ S.flights, f.kind = .load ∧ f.stage = 1 ∧ f.team = t ∧
  f.crs = c ∧ f.lane = l ∧ f.dest = dest ∧ f.val = v

/-- The access that carries a value to the destination of a lane. -/
def Run.owed (r : Run) (l : Nat) (v : Word) (after : List (Nat × Nat)) : Flight :=
  { id := 0, kind := .load, team := r.t, crs := r.c, lane := l, core := r.core, dest := r.destOf l, stage := 1, val := v, ipc := r.ip,
    after := after }

/-- What an instruction that has made `S` of the state and owes a value leaves: memory and the other courses as in `S`. -/
structure OweLeaves (s S : State) (t c l : Nat) (dest : Dest) (v : Word) (s' : State) : Prop where
  mem : s'.mem = S.mem
  courses : ∀ u d, (u, d) ≠ (t, c) → s'.course u d = S.course u d
  lands : s'.Lands t c l dest v

theorem owe_leaves (o : Ops) (p : Pro) (s : State) (l : Nat) (v : Word) (after : List (Nat × Nat)) (hcoh : (S.course t c).coh = some h) :
    OweLeaves s S t c l (s.destIn t c h o l) v (Run.owe { readyRun o p s t c h with s := S } l v after).finish := by
  have hsent := (Sent.refl S t c).send (State.hasCourse_of_coh hcoh) (f := (readyRun o p s t c h).owed l v after) rfl rfl
  obtain ⟨hrest, hflights, -, -, hteams, hcourses⟩ := hsent.issued (o := o) (p := p) (b := s) hcoh
  refine ⟨(congrArg State.mem hrest :), fun u d hne => ?_, _, hflights ▸ List.mem_append_right _ List.mem_cons_self, rfl, rfl, rfl, rfl, rfl,
    readyRun_destOf p l, rfl⟩
  by_cases hu : u = t
  · subst hu
    exact hcourses d (fun hd => hne (by rw [hd]))
  · exact congrArg (fun T => T.course d) (hteams u hu)

end Owe

/-! ### The course that a handle names -/

section Handle
variable {o : Ops} {s : State} {t c u d l : Nat} {h : Cohort}

theorem hasCourse_of_suspended (hsusp : (s.course u d).suspended = true) : s.HasCourse u d := by
  cases hteam : mapGet? u s.teams with
  | none => simp [State.course, Team.course, State.team, mapGet, hteam, Team.blank, Course.blank] at hsusp
  | some T =>
    refine ⟨T, hteam, ?_⟩
    by_contra hlt
    simp [State.course, Team.course, State.team_eq hteam, List.getD, Course.blank, List.getElem?_eq_none (Nat.le_of_not_lt hlt)] at hsusp

/-- The handle that a lane gives names the suspended course `d` of team `u`, in the column of the lane's course (R100, R103). -/
structure State.Names (s : State) (t : Nat) (handle : Word) (u d : Nat) : Prop where
  high : wfld handle 19 45 = 0
  column : wfld handle 0 10 / 12 = (s.team t).core / 12
  found : s.handleOf handle = some (u, d)
  suspended : (s.course u d).suspended = true

/-- What the supervisor's context instructions ask for at their start. -/
abbrev contextPro : Pro := { helps := false, priv := some (0x01, 0) }

theorem handleFault_none (hn : s.Names t ((readyRun o contextPro s t c h).a l) u d) :
    (readyRun o contextPro s t c h).handleFault ((readyRun o contextPro s t c h).a l) = none := by
  have hplace : (wfld ((readyRun o contextPro s t c h).a l) 19 45 != 0 ||
      coreCol (wfld ((readyRun o contextPro s t c h).a l) 0 10) != (readyRun o contextPro s t c h).col) = false := by
    rw [hn.high, Bool.or_eq_false_iff]
    exact ⟨rfl, bne_eq_false_iff_eq.2 hn.column⟩
  have hfound : (readyRun o contextPro s t c h).s0.handleOf ((readyRun o contextPro s t c h).a l) = some (u, d) := hn.found
  have hsusp : ((readyRun o contextPro s t c h).s0.course u d).suspended = true := hn.suspended
  rw [Run.handleFault, hplace, hfound]
  simp only [hsusp, Bool.false_eq_true, if_false, if_true]

/-- `cload` without a block does its work on the course that the handle names, and owes a 0 (R103). -/
theorem handleRun_ready (hr : Ready o contextPro s t c h) (hl : s.chosenLane t c h o.g = some l)
    (hn : s.Names t (s.srcWord t c l o o.a.op) u d) (f : State → Nat → Nat → State) :
    handleRun o s f = .next (Run.owe { readyRun o contextPro s t c h with s := f s u d } l 0 []).finish := by
  have hfound : (readyRun o contextPro s t c h).s0.handleOf ((readyRun o contextPro s t c h).a l) = some (u, d) := hn.found
  refine (withRun_ready hr _).trans (congrArg _ ((once_ready hl (handleFault_none hn) _).trans ?_))
  rw [hfound]
  rfl

/-- An instruction that moves a block passes its checks and moves it (R103). -/
theorem blockRun_ready (hr : Ready o contextPro s t c h) (hl : s.chosenLane t c h o.g = some l)
    (hn : s.Names t (s.srcWord t c l o o.a.op) u d) {k : AccessKind} (halign : (s.srcWord t c l o o.b.op).toNat % 256 = 0)
    (hpages : (readyRun o contextPro s t c h).blockPages (s.srcWord t c l o o.b.op) (blockLen (s.team u).split.regs) k = [])
    (hfault : (readyRun o contextPro s t c h).blockFault (s.srcWord t c l o o.b.op) (blockLen (s.team u).split.regs) k = none)
    (move : Run → Nat → Nat → Nat → State) :
    blockRun o k s move = .next (move (readyRun o contextPro s t c h) l u d) := by
  have hfound : (readyRun o contextPro s t c h).s0.handleOf ((readyRun o contextPro s t c h).a l) = some (u, d) := hn.found
  refine (withRun_ready hr _).trans (congrArg _ ((once_ready hl ?_ _).trans ?_))
  · rw [handleFault_none hn]
    exact if_pos halign
  · have hnone : (readyRun o contextPro s t c h).blockPages ((readyRun o contextPro s t c h).b l)
        (blockLen ((readyRun o contextPro s t c h).s0.team u).split.regs) k = [] := hpages
    have hclear : (readyRun o contextPro s t c h).blockFault ((readyRun o contextPro s t c h).b l)
        (blockLen ((readyRun o contextPro s t c h).s0.team u).split.regs) k = none := hfault
    rw [hfound]
    dsimp only
    rw [hnone, hclear]
    rfl

end Handle

/-! ### A course is resumed -/

/-- Course `C` stands as `C'` once it is eligible again: barriers that were full have been released (R82, R103). -/
structure Course.Resumed (C C' : Course) : Prop where
  rest : { C' with lanes := [], barId := C.barId } = { C with lanes := [], suspended := false, parked := none }
  length : C'.lanes.length = C.lanes.length
  lanes : ∀ x, { C'.lane x with held := (C.lane x).held } = C.lane x ∧ ((C'.lane x).held = (C.lane x).held ∨ (C'.lane x).held = none)

/-- A course that is eligible again. -/
def Course.reopened (C : Course) : Course := { C with suspended := false, parked := none }

theorem Course.resumed_reopened (C : Course) : C.Resumed C.reopened := ⟨rfl, rfl, fun _ => ⟨rfl, .inl rfl⟩⟩

theorem Course.resumed_released (C : Course) (ids : List Nat) (n : Nat) : C.Resumed (C.reopened.released ids n) := by
  refine ⟨rfl, List.length_map _, fun x => ?_⟩
  rw [Course.lane_released, Lane.released_eq]
  exact ⟨rfl, filter_eq_self_or_none _ _⟩

/-- A lane of a course all of whose lanes have nothing deferred has nothing deferred: a lane that there is not has nothing either. -/
theorem Course.lane_calm {C : Course} (hcalm : ∀ L ∈ C.lanes, L.defs = [] ∧ L.cone = none) (l : Nat) :
    (C.lane l).defs = [] ∧ (C.lane l).cone = none := by
  by_cases hl : C.lane l = {}
  · rw [hl]
    exact ⟨rfl, rfl⟩
  · exact hcalm _ (getD_mem_of_ne hl)

section Resume
variable {s S : State} {t c u d : Nat}

/-- Nothing pends for a course at its batch boundary (R99, R103). -/
structure State.Calm (S : State) (u d : Nat) : Prop where
  lanes : ∀ L ∈ (S.course u d).lanes, L.defs = [] ∧ L.cone = none
  quiesce : (u, d) ∉ S.quiesce.pendCk
  coh : (S.course u d).coh = none

theorem State.lateQuiesce_calm (hck : (u, d) ∉ S.quiesce.pendCk) : S.lateQuiesce u d = S := if_neg (by simpa using hck)

theorem State.boundary_calm (hcalm : ∀ L ∈ (S.course u d).lanes, L.defs = [] ∧ L.cone = none) : S.boundary u d = S := by
  unfold State.boundary
  extract_lets T C quiet ds marked S1
  split
  · rfl
  · have hds : ds = [] := List.filterMap_eq_nil_iff.2 (fun l _ => by
      obtain ⟨hdefs, hcone⟩ := Course.lane_calm hcalm l
      rw [Option.map_eq_none_iff]
      exact Lane.boundaryFault_calm hdefs hcone quiet)
    have hmarked : marked = [] := by simp only [marked, hds, List.filterMap_nil]
    have hS1 : S1 = S := by simp only [S1, hds, List.foldl_nil]
    rw [hmarked, hS1]
    rfl

/-- The state in which a course is eligible again, before barriers are released. -/
def State.reopened (S : State) (u d : Nat) : State := (S.dropWaiting u d).modCourse u d Course.reopened

theorem State.resume_calm (hs : S.HasCourse u d) (hcalm : S.Calm u d) : S.resume u d = (S.reopened u d).releaseBars u := by
  have hres : (S.dropWaiting u d).HasCourse u d := hs
  have hcourse : (S.reopened u d).course u d = (S.course u d).reopened := State.course_modCourse_same hres _
  have hquiesce : (S.reopened u d).quiesce = S.quiesce := State.modCourse_quiesce ..
  have hlate : (S.reopened u d).lateQuiesce u d = S.reopened u d := State.lateQuiesce_calm (by rw [hquiesce]; exact hcalm.quiesce)
  have hbound : (S.reopened u d).boundary u d = S.reopened u d := State.boundary_calm (by rw [hcourse]; exact hcalm.lanes)
  show (((S.reopened u d).lateQuiesce u d).boundary u d).releaseBars u = _
  rw [hlate, hbound]

/-- A course once barriers of its team have been released (R82). -/
theorem State.course_releaseBars (hs : S.HasCourse u d) :
    (S.releaseBars u).course u d = S.course u d ∨ ∃ ids n, (S.releaseBars u).course u d = (S.course u d).released ids n := by
  obtain hrel | ⟨hrel, -⟩ := S.releaseBars_cases u
  · exact .inr ⟨_, _, by rw [hrel, State.course_released hs]⟩
  · exact .inl (by rw [hrel])

/-- The release of barriers leaves every course in its batch. -/
theorem State.coh_releaseBars (S : State) (u t c : Nat) : ((S.releaseBars u).course t c).coh = (S.course t c).coh := by
  obtain hrel | ⟨hrel, -⟩ := S.releaseBars_cases u
  · rw [hrel]
    refine State.team_modTeam_keep (fun T => (T.course c).coh) S u _ (fun T => ?_) t
    simp only [Team.course, Team.released, List.getD_eq_getElem?_getD, List.getElem?_map]
    cases T.courses[c]? <;> rfl
  · rw [hrel]

theorem State.resume_resumed (hs : S.HasCourse u d) (hcalm : S.Calm u d) : (S.course u d).Resumed ((S.resume u d).course u d) := by
  have hres : (S.dropWaiting u d).HasCourse u d := hs
  have hcourse : (S.reopened u d).course u d = (S.course u d).reopened := State.course_modCourse_same hres _
  rw [State.resume_calm hs hcalm]
  obtain hsame | ⟨ids, n, hrel⟩ := State.course_releaseBars (S := S.reopened u d) (hres.modCourse u d _)
  · rw [hsame, hcourse]; exact Course.resumed_reopened _
  · rw [hrel, hcourse]; exact Course.resumed_released _ ids n

theorem State.resume_coh (hs : S.HasCourse u d) (hcalm : S.Calm u d) (t c : Nat) :
    ((S.resume u d).course t c).coh = (S.course t c).coh := by
  rw [State.resume_calm hs hcalm, State.coh_releaseBars]
  exact State.course_modCourse_keep Course.coh _ u d Course.reopened (fun _ => rfl) t c

end Resume

/-! ### The end of a course -/

section CloadEnd
variable {s : State} {t c u d : Nat}

/-- A course that is ended: every lane of it is absent (R63, R103). -/
def Course.ended (C : Course) : Course := { C with
  suspended := false
  coh := none
  parked := none
  lanes := C.lanes.map (fun L => { L with cls := .absent, held := none, pend := false, defs := [], cone := none, tx := {} }) }

theorem Course.finished_ended (C : Course) : C.ended.finished = true := by simp [Course.finished, Course.ended]

/-- The state in which a course has ended (R103, R107, R226). -/
def State.endCourse (s : State) (u d : Nat) : State :=
  (((s.dropWaiting u d).modCourse u d Course.ended).cancelWaits (fun f => f.team == u && f.crs == d)).releaseBars u

theorem State.endCourse_mem (s : State) (u d : Nat) : (s.endCourse u d).mem = s.mem := by
  rw [State.endCourse, State.releaseBars_mem, State.cancelWaits_mem, State.modCourse_mem, State.dropWaiting_mem]

theorem State.endCourse_coh (hne : (t, c) ≠ (u, d)) : ((s.endCourse u d).course t c).coh = (s.course t c).coh := by
  rw [State.endCourse, State.coh_releaseBars]
  refine ((State.cancelWaits_stored _ _).keep (fun w => (w.course t c).coh) (fun _ _ _ _ _ _ => rfl) (fun _ _ => rfl)).trans ?_
  exact congrArg Course.coh (State.course_modCourse_ne _ (fun heq => hne (by rw [heq.1, heq.2])) _)

theorem State.endCourse_ended (hs : s.HasCourse u d) : ((s.endCourse u d).course u d).suspended = false ∧
    ((s.endCourse u d).course u d).coh = none ∧ ((s.endCourse u d).course u d).finished = true := by
  have hres : (s.dropWaiting u d).HasCourse u d := hs
  have hstored := State.cancelWaits_stored ((s.dropWaiting u d).modCourse u d Course.ended) (fun f => f.team == u && f.crs == d)
  have hteams := hstored.keep State.teams (fun _ _ _ _ _ _ => rfl) (fun _ _ => rfl)
  have hcourse := (hstored.keep (fun w => w.course u d) (fun _ _ _ _ _ _ => rfl) (fun _ _ => rfl)).trans
    (State.course_modCourse_same hres Course.ended)
  have hhas : (((s.dropWaiting u d).modCourse u d Course.ended).cancelWaits (fun f => f.team == u && f.crs == d)).HasCourse u d := by
    rw [State.HasCourse, hteams]
    exact hres.modCourse u d _
  rw [State.endCourse]
  obtain hsame | ⟨ids, n, hrel⟩ := State.course_releaseBars hhas
  · rw [hsame, hcourse]
    exact ⟨rfl, rfl, Course.finished_ended _⟩
  · rw [hrel, hcourse]
    refine ⟨rfl, rfl, ?_⟩
    simp [Course.finished, Course.ended, Course.released, Lane.released_eq]

end CloadEnd

end Sys2Proof.Machine

namespace Sys2Proof.Machine

/-! ## The supervisor's context instructions, and nodes (R103, R349 to R351) -/

section Context
variable {o : Ops} {s : State} {t c u d l : Nat} {h : Cohort}

/-- `cload` without a block: what it does to the course, with nothing landing but a 0 (R103). -/
theorem handleRun_leaves (hr : Ready o contextPro s t c h) (hl : s.chosenLane t c h o.g = some l)
    (hn : s.Names t (s.srcWord t c l o o.a.op) u d) {f : State → Nat → Nat → State} (hcoh : ((f s u d).course t c).coh = some h) :
    ∃ s', handleRun o s f = .next s' ∧ OweLeaves s (f s u d) t c l (s.destIn t c h o l) 0 s' :=
  ⟨_, handleRun_ready hr hl hn f, owe_leaves o contextPro s l 0 [] hcoh⟩

/-- A course is resumed as it stands (R103). -/
theorem cloadGo_leaves (hr : Ready o contextPro s t c h) (hl : s.chosenLane t c h o.g = some l)
    (hn : s.Names t (s.srcWord t c l o o.a.op) u d) (hne : (u, d) ≠ (t, c)) (hcalm : s.Calm u d) :
    ∃ s', exec (.cloadGo o) s = .next s' ∧ s'.mem = s.mem ∧ s'.Lands t c l (s.destIn t c h o l) 0 ∧
      (s.course u d).Resumed (s'.course u d) := by
  have hs := hasCourse_of_suspended hn.suspended
  obtain ⟨s', hrun, hmem, hcourses, hlands⟩ := handleRun_leaves hr hl hn (f := State.resume) ((State.resume_coh hs hcalm t c).trans hr.cohort)
  refine ⟨s', hrun, hmem.trans (State.resume_mem s u d), hlands, ?_⟩
  rw [hcourses u d hne]
  exact State.resume_resumed hs hcalm

/-- A course is ended (R103). -/
theorem cloadEnd_leaves (hr : Ready o contextPro s t c h) (hl : s.chosenLane t c h o.g = some l)
    (hn : s.Names t (s.srcWord t c l o o.a.op) u d) (hne : (u, d) ≠ (t, c)) :
    ∃ s', exec (.cloadEnd o) s = .next s' ∧ s'.mem = s.mem ∧ s'.Lands t c l (s.destIn t c h o l) 0 ∧
      (s'.course u d).suspended = false ∧ (s'.course u d).coh = none ∧ (s'.course u d).finished = true := by
  obtain ⟨s', hrun, hmem, hcourses, hlands⟩ :=
    handleRun_leaves hr hl hn (f := State.endCourse) ((State.endCourse_coh hne.symm).trans hr.cohort)
  refine ⟨s', hrun, hmem.trans (State.endCourse_mem s u d), hlands, ?_⟩
  rw [hcourses u d hne]
  exact State.endCourse_ended (hasCourse_of_suspended hn.suspended)

/-- The pages of a block that is moved are there, and nothing locks it (R103, R160, R30). -/
structure Reach (o : Ops) (s : State) (t c l u : Nat) (h : Cohort) (k : AccessKind) : Prop where
  align : (s.srcWord t c l o o.b.op).toNat % 256 = 0
  pages : (readyRun o contextPro s t c h).blockPages (s.srcWord t c l o o.b.op) (blockLen (s.team u).split.regs) k = []
  fault : (readyRun o contextPro s t c h).blockFault (s.srcWord t c l o o.b.op) (blockLen (s.team u).split.regs) k = none

/-- The bytes of a course's block, as `csave` writes them (R105). -/
def State.blockBytes (s : State) (u d : Nat) : List Byte := wordBytes ((s.resolved u d).block (s.team u).split.regs)

/-- An engine's writes leave the teams as they are. -/
theorem State.engWrite_teams {s S : State} {g : Eng} {i : Issuer} {cs : List Chunk} {wid : Nat} {D : EngData}
    (hout : s.engWrite g i cs wid = .ok D S) : S.teams = s.teams :=
  State.engWrite_inv (State.teams_indifferent g.core s.teams)
    (fun _ _ hw hP => (hw.keep State.teams (fun _ _ _ _ _ _ => rfl) (fun _ _ => rfl)).trans hP) rfl hout

/-- Runs all of which may be written are written (R198, R376). -/
theorem State.engWrite_of_good {s : State} {g : Eng} {cs : List Chunk} (hgood : s.engBadChunk g cs = none) (i : Issuer) (wid : Nat) :
    s.engWrite g i cs wid = .ok [] (cs.foldl (fun S k => S.engPut g i wid k) s) := by
  rw [State.engWrite, hgood]

/-- The block of a course is written, and the course stays as it is (R103, R105). -/
theorem csave_leaves (hr : Ready o contextPro s t c h) (hl : s.chosenLane t c h o.g = some l)
    (hn : s.Names t (s.srcWord t c l o o.a.op) u d) (hne : (u, d) ≠ (t, c)) (hreach : Reach o s t c l u h .store)
    (hgood : State.engBadChunk { s with nextId := s.nextId + 1 } (readyRun o contextPro s t c h).engine
      (chunksOf (bytesAt (s.srcWord t c l o o.b.op).toNat (s.blockBytes u d))) = none) :
    ∃ s', exec (.csave o) s = .next s' ∧
      s'.mem = ((chunksOf (bytesAt (s.srcWord t c l o o.b.op).toNat (s.blockBytes u d))).foldl
        (fun (S : State) k => S.engPut (readyRun o contextPro s t c h).engine ⟨t, c, l, s.nextId⟩ s.nextId k)
        { s with nextId := s.nextId + 1 }).mem ∧
      s'.course u d = s.course u d ∧ s'.Lands t c l (s.destIn t c h o l) (wordOf (s.blockBytes u d).length) := by
  have hwrite := State.engWrite_of_good hgood ⟨t, c, l, s.nextId⟩ s.nextId
  have hteams := State.engWrite_teams hwrite
  generalize List.foldl _ _ _ = S at hwrite hteams ⊢
  have htrack : (S.trackWrite ⟨t, c, l, s.nextId⟩ (s.team t).core s.nextId).teams = s.teams :=
    (State.trackWrite_keep State.teams (fun _ _ => rfl) ..).trans hteams
  have hcourse : ∀ a b, (S.trackWrite ⟨t, c, l, s.nextId⟩ (s.team t).core s.nextId).course a b = s.course a b := fun a b => by
    rw [State.course, State.team, htrack, State.course, State.team]
  obtain ⟨hmem, hcourses, hlands⟩ := owe_leaves o contextPro s l (wordOf (s.blockBytes u d).length) [(s.nextId, 3)]
    ((congrArg Course.coh (hcourse t c)).trans hr.cohort)
  refine ⟨_, (blockRun_ready hr hl hn hreach.align hreach.pages hreach.fault _).trans (congrArg _ ?_),
    hmem.trans (State.trackWrite_mem ..), (hcourses u d hne).trans (hcourse u d), hlands⟩
  dsimp only
  split
  · next hbad => cases hwrite.symm.trans hbad
  · next hok => cases hwrite.symm.trans hok; rfl

/-- The state after a course's block has been loaded, and the course resumed where the instruction says so (R103). -/
def State.blockLoaded (S : State) (u d regs : Nat) (words : List Nat) (go : Bool) : State :=
  if go then (S.modCourse u d (·.load regs words)).resume u d else S.modCourse u d (·.load regs words)

theorem State.blockLoaded_go (S : State) (u d regs : Nat) (words : List Nat) :
    S.blockLoaded u d regs words true = (S.modCourse u d (·.load regs words)).resume u d := if_pos rfl

/-- The words of a course's block at the address that `cload` gives can be read, and keep R105. -/
structure BlockRead (o : Ops) (s : State) (t c l u : Nat) (h : Cohort) (words : List Nat) (S : State) : Prop where
  read : ∃ D, s.engGather (readyRun o contextPro s t c h).engine
      [((s.srcWord t c l o o.b.op).toNat, blockLen (s.team u).split.regs)] = .ok D S ∧
    bytesWords (blockLen (s.team u).split.regs / 8) (fun i => D.at ((s.srcWord t c l o o.b.op).toNat + i)) = words
  block : courseBlockOk (s.team u).split.regs (s.team u).sup words = true

/-- `cload` of a block loads it (R103). -/
theorem cload_run (hr : Ready o contextPro s t c h) (hl : s.chosenLane t c h o.g = some l)
    (hn : s.Names t (s.srcWord t c l o o.a.op) u d) (hreach : Reach o s t c l u h .load) {words : List Nat} {S : State}
    (hread : BlockRead o s t c l u h words S) (go : Bool) :
    cloadRun' o go s = .next (Run.owe { readyRun o contextPro s t c h with s := S.blockLoaded u d (s.team u).split.regs words go } l
      (wordOf (blockLen (s.team u).split.regs)) []).finish := by
  obtain ⟨⟨D, hgather, rfl⟩, hblock⟩ := hread
  refine (blockRun_ready hr hl hn hreach.align hreach.pages hreach.fault _).trans (congrArg _ ?_)
  have hgather' : (readyRun o contextPro s t c h).s.engGather (readyRun o contextPro s t c h).engine
      [(((readyRun o contextPro s t c h).b l).toNat, blockLen ((readyRun o contextPro s t c h).s0.team u).split.regs)] = .ok D S := hgather
  dsimp only
  rw [hgather']
  exact if_neg (by rw [Bool.not_eq_true, Bool.not_eq_false']; exact hblock)

theorem BlockRead.sameTeams {words : List Nat} {S : State} (hread : BlockRead o s t c l u h words S) : s.SameTeams S := by
  obtain ⟨⟨D, hgather, -⟩, -⟩ := hread
  exact State.engGather_inv (s.sameTeams_indifferent (readyRun o contextPro s t c h).engine.core) ⟨rfl, rfl, rfl⟩ hgather

/-- What pends for a lane is kept as its block is loaded (R105). -/
theorem Course.load_calm {C : Course} (hcalm : ∀ L ∈ C.lanes, L.defs = [] ∧ L.cone = none) (regs : Nat) (words : List Nat) :
    ∀ L ∈ (C.load regs words).lanes, L.defs = [] ∧ L.cone = none := by
  intro L hL
  obtain ⟨x, -, rfl⟩ := List.mem_map.1 hL
  exact Course.lane_calm hcalm x

section Loaded
variable {S : State} (hsame : s.SameTeams S) (hs : s.HasCourse u d) (regs : Nat) (words : List Nat)
include hsame

theorem load_coh (hne : (u, d) ≠ (t, c)) :
    ((S.modCourse u d (·.load regs words)).course t c).coh = (s.course t c).coh := by
  rw [State.course_modCourse_ne _ (fun heq => hne (by rw [heq.1, heq.2])), State.course, State.team, hsame.1, State.course, State.team]

include hs

theorem load_hasCourse : (S.modCourse u d (·.load regs words)).HasCourse u d :=
  State.HasCourse.modCourse (s := S) (by rwa [State.HasCourse, hsame.1]) u d _

theorem load_course : (S.modCourse u d (·.load regs words)).course u d = (s.course u d).load regs words := by
  have hS : S.HasCourse u d := by rwa [State.HasCourse, hsame.1]
  rw [State.course_modCourse_same hS, State.course, State.team, hsame.1, State.course, State.team]

theorem load_state_calm (hcalm : s.Calm u d) : State.Calm (S.modCourse u d (·.load regs words)) u d := by
  have hcourse := load_course hsame hs regs words
  obtain ⟨-, -, hquiesce⟩ := hsame
  refine ⟨hcourse ▸ Course.load_calm hcalm.lanes regs words, ?_, by rw [hcourse]; rfl⟩
  rw [State.modCourse_quiesce, hquiesce]
  exact hcalm.quiesce

end Loaded

/-- The block of a course is loaded (R103, R105). -/
theorem cloadLd_leaves (hr : Ready o contextPro s t c h) (hl : s.chosenLane t c h o.g = some l)
    (hn : s.Names t (s.srcWord t c l o o.a.op) u d) (hne : (u, d) ≠ (t, c)) (hreach : Reach o s t c l u h .load) {words : List Nat} {S : State}
    (hread : BlockRead o s t c l u h words S) :
    ∃ s', exec (.cloadLd o) s = .next s' ∧ s'.course u d = (s.course u d).load (s.team u).split.regs words ∧
      s'.Lands t c l (s.destIn t c h o l) (wordOf (blockLen (s.team u).split.regs)) := by
  obtain ⟨-, hcourses, hlands⟩ := owe_leaves (S := S.blockLoaded u d (s.team u).split.regs words false) o contextPro s l
    (wordOf (blockLen (s.team u).split.regs)) [] ((load_coh hread.sameTeams _ words hne).trans hr.cohort)
  exact ⟨_, cload_run hr hl hn hreach hread false,
    (hcourses u d hne).trans (load_course hread.sameTeams (hasCourse_of_suspended hn.suspended) _ words), hlands⟩

/-- The block of a course is loaded, and the course is resumed (R103, R105). -/
theorem cloadRun_leaves (hr : Ready o contextPro s t c h) (hl : s.chosenLane t c h o.g = some l)
    (hn : s.Names t (s.srcWord t c l o o.a.op) u d) (hne : (u, d) ≠ (t, c)) (hreach : Reach o s t c l u h .load) {words : List Nat} {S : State}
    (hread : BlockRead o s t c l u h words S) (hcalm : s.Calm u d) :
    ∃ s', exec (.cloadRun o) s = .next s' ∧ s'.Lands t c l (s.destIn t c h o l) (wordOf (blockLen (s.team u).split.regs)) ∧
      ((s.course u d).load (s.team u).split.regs words).Resumed (s'.course u d) := by
  have hsame := hread.sameTeams
  have hs := hasCourse_of_suspended hn.suspended
  have hW := load_hasCourse hsame hs (s.team u).split.regs words
  have hWcalm := load_state_calm hsame hs (s.team u).split.regs words hcalm
  have hrun := cload_run hr hl hn hreach hread true
  rw [State.blockLoaded_go] at hrun
  obtain ⟨-, hcourses, hlands⟩ := owe_leaves o contextPro s l (wordOf (blockLen (s.team u).split.regs)) []
    ((State.resume_coh hW hWcalm t c).trans ((load_coh hsame _ words hne).trans hr.cohort))
  refine ⟨_, hrun, hlands, ?_⟩
  rw [hcourses u d hne, ← load_course hsame hs]
  exact State.resume_resumed hW hWcalm

end Context

/-- Settles O41: the node instructions and the supervisor's context instructions, each by the lemma about it. -/
theorem nodesAndContext : Obligations.NodesAndContext := by
  unfold Obligations.NodesAndContext
  intro o prio col s t c h l
  dsimp only
  refine ⟨fun hr hl => ⟨fun hsig => ?_, fun n hsig hn hdone hidx => ?_⟩, nwait_wrote, fun e pa hr hls => nlaunch_sends hr hls,
    fun u d hr hl hhigh hcol hfound hsusp hne => ?_⟩
  · have hW := nsig_ends hr hl
    rwa [State.nodeSignal, if_pos hsig] at hW
  · obtain ⟨m, hspec⟩ := nodeSignal_spec (State.hasCourse_of_coh hr.cohort) hsig hn hdone hidx
    exact ⟨_, m, nsig_ends hr hl, hspec⟩
  · have hr' : Ready o contextPro s t c h := hr.withHelps false
    have hnames : s.Names t (s.srcWord t c l o o.a.op) u d := ⟨hhigh, hcol, hfound, hsusp⟩
    refine ⟨fun ⟨halign, hpages, hfault⟩ hgood => csave_leaves hr' hl hnames hne ⟨halign, hpages, hfault⟩ hgood,
      fun D S ⟨halign, hpages, hfault⟩ hgather hblock =>
        ⟨cloadLd_leaves hr' hl hnames hne ⟨halign, hpages, hfault⟩ ⟨⟨D, hgather, rfl⟩, hblock⟩,
          fun ⟨hlanes, hck, hcoh⟩ => ?_⟩,
      fun ⟨hlanes, hck, hcoh⟩ => ?_, cloadEnd_leaves hr' hl hnames hne⟩
    · obtain ⟨s', hrun, hlands, hrest, hlen, hheld⟩ :=
        cloadRun_leaves hr' hl hnames hne ⟨halign, hpages, hfault⟩ ⟨⟨D, hgather, rfl⟩, hblock⟩ ⟨hlanes, hck, hcoh⟩
      exact ⟨s', hrun, hlands, hrest, hlen, hheld⟩
    · obtain ⟨s', hrun, hmem, hlands, hrest, hlen, hheld⟩ := cloadGo_leaves hr' hl hnames hne ⟨hlanes, hck, hcoh⟩
      exact ⟨s', hrun, hmem, hlands, hrest, hlen, hheld⟩

end Sys2Proof.Machine

namespace Sys2Proof.Machine

/-! ## Results of the Lane ALU element by element (R108) -/

section Elems
variable {i : Instr} {o : Ops} {ty : Ty} {s : State} {t c : Nat} {h : Cohort} {R : Nat → Nat → Nat → Prop}

/-- An instruction whose results are elements of the type's width gives them. -/
theorem givesElems_of_intRes {g : Run → Nat → Nat → Nat} (hexec : exec i s = aluRun o {} s (fun r l => intRes ty (g r l)))
    (hr : Ready o plainPro s t c h)
    (hR : ∀ l ∈ s.performers t c h o.g false, ∀ n, n < tyN ty → g (readyRun o {} s t c h) l n < 2 ^ tyW ty ∧ R l n (g (readyRun o {} s t c h) l n)) :
    GivesElems i o s t c h ty R :=
  gives_of_aluRun hexec hr rfl (fun _ => rfl) (fun l hl =>
    ⟨g (readyRun o {} s t c h) l, holds_place ty _ (fun n hn => (hR l hl n hn).1), fun n hn => (hR l hl n hn).2⟩)

/-- An instruction whose results are integers cut to the type gives them (R126). -/
theorem givesElems_cut {sat : Bool} {g : Run → Nat → Nat → Int}
    (hexec : exec i s = aluRun o {} s (fun r l => intRes ty (fun n => cut ty sat (g r l n)))) (hr : Ready o plainPro s t c h)
    (hR : ∀ l ∈ s.performers t c h o.g false, ∀ n, n < tyN ty → R l n (cut ty sat (g (readyRun o {} s t c h) l n))) :
    GivesElems i o s t c h ty R :=
  givesElems_of_intRes hexec hr (fun l hl n hn => ⟨cut_lt .., hR l hl n hn⟩)

end Elems

/-- R129, R126: the quotient by which the upper half of a product is meant. -/
theorem fdiv_bounds (z : Int) {m : Int} (hm : 0 < m) : z.fdiv m * m ≤ z ∧ z < (z.fdiv m + 1) * m := by
  rw [Int.fdiv_eq_ediv_of_nonneg _ hm.le]
  exact ⟨Int.ediv_mul_le z hm.ne', Int.lt_ediv_add_one_mul_self z hm⟩

/-- Settles O1: each result is an exact integer, and `cut` narrows it as R126 says (`intIs_cut`). -/
theorem integerArithmetic : Obligations.IntegerArithmetic := by
  unfold Obligations.IntegerArithmetic
  refine ⟨fun o ty sat s t c h hr => ?_, fun o ty sat s t c h hr => ?_⟩
  · have hpos : (0 : Int) < ((2 ^ tyW ty : Nat) : Int) := by exact_mod_cast Nat.two_pow_pos _
    refine ⟨givesElems_cut rfl hr ?_, givesElems_cut rfl hr ?_, givesElems_cut rfl hr ?_, givesElems_cut rfl hr ?_,
      givesElems_cut rfl hr ?_⟩
    case refine_5 =>
      intro l _ n _
      obtain ⟨hle, hlt⟩ := fdiv_bounds (valI ty (s.srcElem t c l o ty o.a.op n) * valI ty (s.srcElem t c l o ty o.b.op n)) hpos
      exact ⟨_, hle, hlt, intIs_cut ty false _⟩
    all_goals exact fun l _ n _ => intIs_cut ty sat _
  · refine gives_of_aluRun (p := {}) rfl hr rfl (fun _ => rfl) (fun l _ => ?_)
    have hplace : ∀ (w : Ty) (x : Nat), tyN w = 1 → x < 2 ^ tyW w → Holds w (place w [x]) (fun _ => x) := fun w x hw hx => by
      have := holds_place w (fun _ => x) (fun _ _ => hx)
      simpa [idxs, hw] using this
    refine ⟨_, hplace _ _ ?_ (cut_lt ..), fun n _ => intIs_cut ..⟩
    split <;> rfl

end Sys2Proof.Machine

namespace Sys2Proof.Machine

/-! ## Patterns of a float format (R112, R113) -/

/-- A format whose magnitude codes, that of infinity among them, fit below the sign bit. -/
structure Fmt.Fits (f : Fmt) : Prop where
  max : f.maxCode < 2 ^ (f.e + f.t)
  inf : f.hasInf = true → fmtInf f < 2 ^ (f.e + f.t)
  nan : ∀ c, f.nan = some c → c < 2 ^ (f.e + f.t)

theorem tyFmt_fits (ty : Ty) : (tyFmt ty).Fits := by
  cases ty <;> exact ⟨by decide, by decide, by decide⟩

/-- The pattern of a format fits in the elements of its type, and fills those of a wide type (R109). -/
theorem fmtW_le_tyW (ty : Ty) (hi : tyInt ty = false) : fmtW (tyFmt ty) ≤ tyW ty := by
  revert hi
  cases ty <;> decide

theorem fmtW_eq_tyW {ty : Ty} (hf : tyFlt ty = true) : fmtW (tyFmt ty) = tyW ty := by
  revert hf
  cases ty <;> decide

theorem withSign_lt {f : Fmt} {c : Nat} (hc : c < 2 ^ (f.e + f.t)) (s : Bool) : withSign f s c < 2 ^ fmtW f := by
  have hw : 2 ^ fmtW f = 2 * 2 ^ (f.e + f.t) := by rw [fmtW, Nat.add_assoc, Nat.pow_add, Nat.pow_one]
  rw [withSign, hw]
  have hbit : bit s * 2 ^ (f.e + f.t) ≤ 1 * 2 ^ (f.e + f.t) := Nat.mul_le_mul_right _ (by cases s <;> decide)
  omega

section Fits
variable {f : Fmt} (hf : f.Fits)
include hf

theorem infRes_lt (s : Bool) (fl : Nat) : (infRes f s fl).1 < 2 ^ fmtW f := by
  unfold infRes
  split
  · next hi => exact withSign_lt (hf.inf hi) s
  · exact withSign_lt hf.max s

theorem nanRes_lt (fl : Nat) : (nanRes f fl).1 < 2 ^ fmtW f := by
  unfold nanRes
  split
  · next c hc => exact (hf.nan c hc).trans_le (Nat.pow_le_pow_right (by decide) (by rw [fmtW]; omega))
  · exact Nat.two_pow_pos _

theorem ovfRes_lt (rm : RM) (s : Bool) : (ovfRes f rm s).1 < 2 ^ fmtW f := by
  unfold ovfRes
  extract_lets toInf
  refine withSign_lt ?_ s
  split
  · next h => exact hf.inf (Bool.and_eq_true_iff.1 h).1
  · exact hf.max

/-- A rounded result is a pattern of its format. -/
theorem roundF_lt (rm : RM) (ftz s : Bool) (m : Nat) (x : Int) (sticky : Bool) : (roundF f rm ftz s m x sticky).1 < 2 ^ fmtW f := by
  unfold roundF
  split
  · exact withSign_lt (Nat.two_pow_pos _) s
  split
  next c inexact _ =>
  split
  · exact ovfRes_lt hf rm s
  next hmax =>
  have hc : c < 2 ^ (f.e + f.t) := (Nat.le_of_not_lt hmax).trans_lt hf.max
  split
  · split
    · exact withSign_lt (Nat.two_pow_pos _) s
    · exact withSign_lt hc s
  · exact withSign_lt hc s

end Fits

/-- An element of a source is a pattern of the element's width (R46, R108). -/
theorem elem_lt_width (ty : Ty) (x : Opnd) (w : Word) (n : Nat) : elem ty x w n < 2 ^ tyW ty := by
  cases hi : tyInt ty with
  | true => exact elem_lt ty hi x w n
  | false =>
    unfold elem
    split
    · rw [expandImm, hi, if_neg Bool.false_ne_true]
      exact (roundF_lt (tyFmt_fits ty) _ _ _ _ _ _).trans_le (Nat.pow_le_pow_right (by decide) (fmtW_le_tyW ty hi))
    · exact Nat.mod_lt _ (Nat.two_pow_pos _)

theorem srcElem_lt (s : State) (t c l : Nat) (o : Ops) (ty : Ty) (x : Opnd) (n : Nat) : s.srcElem t c l o ty x n < 2 ^ tyW ty :=
  elem_lt_width ..

/-! ## Division and extremes (R126, R129) -/

theorem divZ_eq_tdiv (a b : Int) : divZ a b = a.tdiv b := by
  rw [← Int.sign_mul_natAbs (a.tdiv b), Int.sign_tdiv, Int.natAbs_tdiv, divZ]
  split
  · next hlt => rw [Nat.div_eq_of_lt hlt, Int.natCast_zero, Int.mul_zero, Int.zero_mul]
  · rfl

/-- What the type of an element says of its value (R115). -/
theorem valI_bounds (ty : Ty) {x : Nat} (hx : x < 2 ^ tyW ty) : tyLo ty ≤ valI ty x ∧ valI ty x ≤ tyHi ty := valI_range ty hx

theorem valI_cut_of_bounds {ty : Ty} {z : Int} (hz : tyLo ty ≤ z ∧ z ≤ tyHi ty) (sat : Bool) : valI ty (cut ty sat z) = z :=
  valI_cut ty sat hz.1 hz.2

theorem tyLo_le_zero (ty : Ty) : tyLo ty ≤ 0 ∧ 0 ≤ tyHi ty := by cases ty <;> decide

/-- The least and the greatest value of a signed type are opposite but for one (R115). -/
theorem tyHi_signed {ty : Ty} (hs : tySigned ty = true) : tyHi ty = -tyLo ty - 1 ∧ tyLo ty = -((2 ^ (tyW ty - 1) : Nat) : Int) := by
  rw [tyHi, tyLo, hs]
  exact ⟨by simp only [intHi, intLo, if_true]; omega, rfl⟩

theorem tyLo_unsigned {ty : Ty} (hs : tySigned ty = false) : tyLo ty = 0 ∧ tyHi ty = ((2 ^ tyW ty : Nat) : Int) - 1 := by
  rw [tyHi, tyLo, hs]
  exact ⟨rfl, rfl⟩

/-- A quotient lies in the type's range, but for that of the least value by -1 (R126). -/
theorem tdiv_bounds {ty : Ty} {a b : Int} (ha : tyLo ty ≤ a ∧ a ≤ tyHi ty) (hb : tyLo ty ≤ b ∧ b ≤ tyHi ty)
    (hover : ¬(tySigned ty = true ∧ a = tyLo ty ∧ b = -1)) : tyLo ty ≤ a.tdiv b ∧ a.tdiv b ≤ tyHi ty := by
  have habs := Int.natAbs_tdiv_le_natAbs a b
  cases hs : tySigned ty with
  | false =>
    obtain ⟨hlo, -⟩ := tyLo_unsigned hs
    have := Int.tdiv_nonneg (a := a) (b := b) (by omega) (by omega)
    omega
  | true =>
    obtain ⟨hhi, -⟩ := tyHi_signed hs
    by_cases hlo : a = tyLo ty
    · have hne : b ≠ -1 := fun hb1 => hover ⟨hs, hlo, hb1⟩
      by_cases hb0 : b.natAbs ≤ 1
      · obtain rfl | rfl : b = 0 ∨ b = 1 := by omega
        · rw [Int.tdiv_zero]; omega
        · rw [Int.tdiv_one]; omega
      · have hdiv := Int.natAbs_tdiv a b
        have : a.natAbs.div b.natAbs ≤ a.natAbs / 2 := Nat.div_le_div_left (by omega) (by decide)
        omega
    · omega

/-- The pattern of the greatest unsigned value, which division by zero gives too (R126). -/
theorem cut_ones (ty : Ty) (sat : Bool) : cut ty sat (if tySigned ty then -1 else tyHi ty) = 2 ^ tyW ty - 1 := by
  cases ty <;> cases sat <;> decide

theorem minI_eq_min (a b : Int) : minI a b = min a b := by
  unfold minI
  split <;> omega

theorem maxI_eq_max (a b : Int) : maxI a b = max a b := by
  unfold maxI
  split <;> omega

theorem valI_cut_minI {ty : Ty} {x y : Nat} (hx : x < 2 ^ tyW ty) (hy : y < 2 ^ tyW ty) :
    valI ty (cut ty false (minI (valI ty x) (valI ty y))) = min (valI ty x) (valI ty y) := by
  have hA := valI_bounds ty hx
  have hB := valI_bounds ty hy
  rw [minI_eq_min]
  exact valI_cut_of_bounds (by omega) false

theorem valI_cut_maxI {ty : Ty} {x y : Nat} (hx : x < 2 ^ tyW ty) (hy : y < 2 ^ tyW ty) :
    valI ty (cut ty false (maxI (valI ty x) (valI ty y))) = max (valI ty x) (valI ty y) := by
  have hA := valI_bounds ty hx
  have hB := valI_bounds ty hy
  rw [maxI_eq_max]
  exact valI_cut_of_bounds (by omega) false

theorem divI_spec {ty : Ty} {sat : Bool} {x y : Nat} (hx : x < 2 ^ tyW ty) (hy : y < 2 ^ tyW ty) :
    if valI ty y = 0 then cut ty sat (divI ty sat (valI ty x) (valI ty y)) = 2 ^ tyW ty - 1
    else if tySigned ty ∧ valI ty x = intLo true (tyW ty) ∧ valI ty y = -1 then
      valI ty (cut ty sat (divI ty sat (valI ty x) (valI ty y))) = (if sat then intHi true (tyW ty) else intLo true (tyW ty))
    else valI ty (cut ty sat (divI ty sat (valI ty x) (valI ty y))) = (valI ty x).tdiv (valI ty y) := by
  have hA := valI_bounds ty hx
  have hB := valI_bounds ty hy
  unfold divI
  split
  · exact cut_ones ty sat
  have hlo : tySigned ty = true → intLo true (tyW ty) = tyLo ty ∧ intHi true (tyW ty) = tyHi ty := fun hs => by
    rw [tyLo, tyHi, hs]
    exact ⟨rfl, rfl⟩
  split
  · next hover =>
    obtain ⟨hs, hmin, hneg⟩ := hover
    rw [(hlo hs).1] at hmin
    rw [hmin, hneg, hs, (hlo hs).1, (hlo hs).2, if_pos (by simp)]
    have hlohi := tyLo_le_zero ty
    exact valI_cut_of_bounds (by split <;> omega) sat
  · next hover =>
    have hover' : ¬(tySigned ty = true ∧ valI ty x = tyLo ty ∧ valI ty y = -1) := fun ⟨hs, hmin, hneg⟩ =>
      hover ⟨hs, hmin.trans (hlo hs).1.symm, hneg⟩
    rw [if_neg (by simpa [and_assoc] using hover'), divZ_eq_tdiv]
    exact valI_cut_of_bounds (tdiv_bounds hA hB hover') sat

theorem remI_spec {ty : Ty} {x : Nat} (hx : x < 2 ^ tyW ty) (y : Nat) :
    valI ty (cut ty false (remI ty (valI ty x) (valI ty y))) = if valI ty y = 0 then valI ty x else (valI ty x).tmod (valI ty y) := by
  have hA := valI_bounds ty hx
  have hlohi := tyLo_le_zero ty
  have hrem : remI ty (valI ty x) (valI ty y) = if valI ty y = 0 then valI ty x else (valI ty x).tmod (valI ty y) := by
    unfold remI
    split
    · rfl
    split
    · next hover =>
      have hneg : valI ty y = -1 := by simp only [Bool.and_eq_true, decide_eq_true_eq] at hover; exact hover.2
      rw [hneg, Int.tmod_neg, Int.tmod_one]
    · rw [divZ_eq_tdiv, Int.tmod_def]
  rw [hrem]
  have hsign := Int.natAbs_tmod (valI ty x) (valI ty y)
  have hmod := Nat.mod_le (valI ty x).natAbs (valI ty y).natAbs
  have hpos : 0 ≤ valI ty x → 0 ≤ (valI ty x).tmod (valI ty y) := fun h0 => Int.tmod_nonneg _ h0
  have hneg : valI ty x ≤ 0 → (valI ty x).tmod (valI ty y) ≤ 0 := fun h0 => by
    have := Int.tmod_nonneg (valI ty y) (a := -valI ty x) (by omega)
    rw [Int.neg_tmod] at this
    omega
  exact valI_cut_of_bounds (by split <;> omega) false

/-- Settles O2: quotient and remainder by their corners (`divI_spec`, `remI_spec`), and extremes, which lie in the type's range. -/
theorem integerDivisionAndExtremes : Obligations.IntegerDivisionAndExtremes := by
  unfold Obligations.IntegerDivisionAndExtremes
  refine ⟨fun o ty sat s t c h hr => ⟨givesElems_cut rfl hr ?_, givesElems_cut rfl hr ?_⟩,
    fun o ty s t c h hr => ⟨givesElems_cut rfl hr ?_, givesElems_cut rfl hr ?_⟩⟩ <;> intro l _ n _
  · exact divI_spec (srcElem_lt ..) (srcElem_lt ..)
  · have hrem := remI_spec (srcElem_lt s t c l o ty o.a.op n) (s.srcElem t c l o ty o.b.op n)
    split
    · next h0 => rwa [if_pos h0] at hrem
    · next h0 => rwa [if_neg h0] at hrem
  · exact valI_cut_minI (srcElem_lt ..) (srcElem_lt ..)
  · exact valI_cut_maxI (srcElem_lt ..) (srcElem_lt ..)

end Sys2Proof.Machine

namespace Sys2Proof.Machine

/-! ## Results bit by bit (R126, R129, R130, R132) -/

theorem bitN_eq_testBit (x i : Nat) : bitN x i = x.testBit i := by
  rw [bitN, fld, Nat.shiftRight_eq_div_pow, Nat.testBit_eq_decide_div_mod_eq]
  rfl

theorem cut_natCast (ty : Ty) (x : Nat) : cut ty false (x : Int) = x % 2 ^ tyW ty := by
  simp only [cut, Bool.false_eq_true, if_false, truncN]
  exact_mod_cast Int.toNat_natCast _

/-- The cut to the width leaves the bits within it (R126). -/
theorem testBit_cut {ty : Ty} {j : Nat} (hj : j < tyW ty) (x : Nat) : (cut ty false (x : Int)).testBit j = x.testBit j := by
  rw [cut_natCast, Nat.testBit_mod_two_pow, decide_eq_true hj, Bool.true_and]

theorem testBit_notN {w j : Nat} (hj : j < w) (x : Nat) : (notN w x).testBit j = !x.testBit j := by
  rw [notN, Nat.sub_right_comm, Nat.sub_sub, Nat.testBit_two_pow_sub_succ (Nat.mod_lt _ (Nat.two_pow_pos w)), decide_eq_true hj,
    Nat.testBit_mod_two_pow, decide_eq_true hj, Bool.true_and, Bool.true_and]

/-- Settles O3: the cut to the width leaves the bits within it (`testBit_cut`). -/
theorem bitwise : Obligations.Bitwise := by
  unfold Obligations.Bitwise
  intro o ty s t c h hr
  refine ⟨givesElems_cut rfl hr ?_, givesElems_cut rfl hr ?_, givesElems_cut rfl hr ?_, givesElems_cut rfl hr ?_,
    givesElems_cut rfl hr ?_⟩ <;> refine fun l _ n _ j hj => (testBit_cut hj _).trans ?_
  · exact Nat.testBit_and ..
  · exact Nat.testBit_or ..
  · exact Nat.testBit_xor ..
  · exact (Nat.testBit_and ..).trans (congrArg _ (testBit_notN hj _))
  · exact testBit_notN hj _

/-- The signed value of a pattern is that of the bit vector that holds it (R14). -/
theorem sextN_eq_toInt {w : Nat} (hw : 0 < w) (x : Nat) : sextN w x = (BitVec.ofNat w x).toInt := by
  obtain ⟨n, rfl⟩ := Nat.exists_eq_succ_of_ne_zero hw.ne'
  rw [BitVec.toInt_eq_toNat_cond, BitVec.toNat_ofNat, sextN, Nat.succ_sub_one]
  have hpow : 2 ^ (n + 1) = 2 * 2 ^ n := Nat.pow_succ'
  exact if_congr (by omega) rfl rfl

theorem truncN_eq_toNat (w : Nat) (z : Int) : truncN w z = (BitVec.ofInt w z).toNat := (BitVec.toNat_ofInt z).symm

/-- An arithmetic shift to the right repeats the sign bit (R129). -/
theorem testBit_sra {w j : Nat} (hj : j < w) (x m : Nat) :
    (truncN w ((sextN w x).fdiv ((2 ^ m : Nat) : Int))).testBit j = x.testBit (if j + m < w then j + m else w - 1) := by
  have hshift : (sextN w x).fdiv ((2 ^ m : Nat) : Int) = (BitVec.ofNat w x).toInt >>> m := by
    rw [sextN_eq_toInt (Nat.zero_lt_of_lt hj), Int.fdiv_eq_ediv_of_nonneg _ (Int.natCast_nonneg _), Int.shiftRight_eq_div_pow]
  have hbits : (truncN w ((sextN w x).fdiv ((2 ^ m : Nat) : Int))).testBit j = ((BitVec.ofNat w x).sshiftRight m).getLsbD j := by
    rw [hshift, truncN_eq_toNat]
    rfl
  rw [hbits, BitVec.getLsbD_sshiftRight, Nat.add_comm m j, decide_eq_false (Nat.not_le.2 hj), BitVec.msb_eq_getLsbD_last,
    BitVec.getLsbD_ofNat, BitVec.getLsbD_ofNat, Bool.not_false, Bool.true_and]
  split
  · next h => rw [decide_eq_true h, Bool.true_and]
  · rw [decide_eq_true (Nat.sub_one_lt_of_lt hj), Bool.true_and]

/-- A rotation takes bit `j` to bit `j + m` modulo the width (R129). -/
theorem testBit_rot {w j m x : Nat} (hx : x < 2 ^ w) (hj : j < w) (hm : m < w) :
    (x * 2 ^ m % 2 ^ w + x / 2 ^ (w - m)).testBit ((j + m) % w) = x.testBit j := by
  have hpow : 2 ^ w = 2 ^ m * 2 ^ (w - m) := by rw [← Nat.pow_add, Nat.add_sub_cancel' hm.le]
  have hhigh : x / 2 ^ (w - m) < 2 ^ m := Nat.div_lt_of_lt_mul (by rwa [Nat.mul_comm, ← hpow])
  have hlow : x * 2 ^ m % 2 ^ w = 2 ^ m * (x % 2 ^ (w - m)) := by rw [Nat.mul_comm x, hpow, Nat.mul_mod_mul_left]
  rw [hlow, Nat.testBit_two_pow_mul_add _ hhigh]
  by_cases h : j + m < w
  · rw [Nat.mod_eq_of_lt h, if_neg (by omega), Nat.testBit_mod_two_pow, decide_eq_true (by omega), Nat.add_sub_cancel, Bool.true_and]
  · have hmod : (j + m) % w = j + m - w := by rw [Nat.mod_eq_sub_mod (by omega), Nat.mod_eq_of_lt (by omega)]
    rw [hmod, if_pos (by omega), Nat.testBit_div_two_pow]
    congr 1
    omega

/-- Settles O4: the amount is below the width, and each shift or rotate moves the bits by it. -/
theorem shifts : Obligations.Shifts := by
  unfold Obligations.Shifts
  intro o ty sat s t c h hr _ A m
  have hm : ∀ l n, m l n < tyW ty := fun l n => Nat.mod_lt _ (tyDim_pos ty).1
  refine ⟨givesElems_cut rfl hr ?_, givesElems_cut rfl hr ?_, givesElems_cut rfl hr ?_, givesElems_cut rfl hr ?_⟩
  · exact fun l _ n _ => intIs_cut ty sat _
  · exact fun l _ n _ j hj => (testBit_cut hj _).trans (Nat.testBit_div_two_pow _ j)
  · exact fun l _ n _ j hj => testBit_sra hj _ _
  · intro l _ n _ j hj
    exact (testBit_cut (Nat.mod_lt _ (tyDim_pos ty).1) _).trans (testBit_rot (srcElem_lt ..) hj (hm l n))

/-- Leading zero bits (R130). -/
theorem clzN_spec {w x : Nat} (hx : x < 2 ^ w) : clzN w x ≤ w ∧ (∀ j, w - clzN w x ≤ j → j < w → x.testBit j = false) ∧
    (clzN w x < w → x.testBit (w - 1 - clzN w x) = true) := by
  unfold clzN
  split
  · next h0 => exact ⟨le_rfl, fun j _ _ => by rw [h0, Nat.zero_testBit], fun h => absurd h (lt_irrefl w)⟩
  · next h0 =>
    have hlog : x.log2 < w := (Nat.log2_lt h0).2 hx
    refine ⟨by omega, fun j hj _ => Nat.testBit_lt_two_pow (Nat.lt_log2_self.trans_le (Nat.pow_le_pow_right (by decide) (by omega))),
      fun _ => ?_⟩
    rw [show w - 1 - (w - 1 - x.log2) = x.log2 by omega]
    exact Nat.testBit_log2 h0

/-- Trailing zero bits (R130). -/
theorem ctzN_spec (w x : Nat) : ctzN w x ≤ w ∧ (∀ j, j < ctzN w x → x.testBit j = false) ∧ (ctzN w x < w → x.testBit (ctzN w x) = true) := by
  unfold ctzN
  cases hfind : (List.range w).find? (fun i => bitN x i) with
  | none =>
    rw [List.find?_range_eq_none] at hfind
    refine ⟨le_rfl, fun j hj => ?_, fun h => absurd h (lt_irrefl w)⟩
    simpa [bitN_eq_testBit] using hfind j hj
  | some i =>
    obtain ⟨hi, hmem, hlow⟩ := List.find?_range_eq_some.1 hfind
    refine ⟨(List.mem_range.1 hmem).le, fun j hj => ?_, fun _ => by rwa [bitN_eq_testBit] at hi⟩
    simpa [bitN_eq_testBit] using hlow j hj

theorem popN_le (w x : Nat) : popN w x ≤ w := (List.length_filter_le _ _).trans_eq List.length_range

/-- The `k` lowest bits of a pattern in reverse order. -/
def lowReversed (x : Nat) : Nat → Nat
  | 0 => 0
  | k + 1 => Nat.bit (x.testBit k) (lowReversed x k)

theorem testBit_lowReversed {x k j : Nat} (hj : j < k) : (lowReversed x k).testBit j = x.testBit (k - 1 - j) := by
  induction k generalizing j with
  | zero => cases hj
  | succ k ih =>
    cases j with
    | zero => exact Nat.testBit_bit_zero ..
    | succ j =>
      rw [lowReversed, Nat.testBit_bit_succ, ih (by omega)]
      congr 1
      omega

/-- `brevN` sets the bits from the highest on. -/
theorem brevN_eq_lowReversed (w x : Nat) : brevN w x = lowReversed x w := by
  have hfold : ∀ k, k ≤ w → ((List.range k).filter (fun i => bitN x i)).foldl (fun a i => a + 2 ^ (w - 1 - i)) 0 =
      2 ^ (w - k) * lowReversed x k := by
    intro k hk
    induction k with
    | zero => rfl
    | succ k ih =>
      have hpow : 2 ^ (w - k) = 2 ^ (w - (k + 1)) * 2 := by rw [← Nat.pow_succ]; congr 1; omega
      have hexp : w - 1 - k = w - (k + 1) := by omega
      rw [List.range_succ, List.filter_append, List.foldl_append, ih (by omega), lowReversed, Nat.bit_val, hpow, List.filter_singleton,
        bitN_eq_testBit]
      cases x.testBit k
      · exact (Nat.mul_assoc ..).trans rfl
      · simp only [cond_true, List.foldl_cons, List.foldl_nil, Bool.toNat_true, hexp]
        ring
  rw [brevN, hfold w le_rfl, Nat.sub_self, Nat.pow_zero, Nat.one_mul]

/-- A field replaced in a pattern, with what lies above and below it. -/
theorem testBit_setFld (x pos len v j : Nat) :
    (setFld x pos len v).testBit j = if pos ≤ j ∧ j < pos + len then v.testBit (j - pos) else x.testBit j := by
  have hlow : x % 2 ^ pos < 2 ^ pos := Nat.mod_lt _ (Nat.two_pow_pos _)
  have hmid : v % 2 ^ len < 2 ^ len := Nat.mod_lt _ (Nat.two_pow_pos _)
  rw [setFld_eq, Nat.testBit_two_pow_mul_add _ hlow, Nat.testBit_two_pow_mul_add _ hmid, Nat.testBit_mod_two_pow, Nat.testBit_mod_two_pow,
    Nat.testBit_div_two_pow, Nat.testBit_div_two_pow]
  by_cases h1 : j < pos
  · rw [if_pos h1, if_neg (by omega), decide_eq_true h1, Bool.true_and]
  by_cases h2 : j - pos < len
  · rw [if_neg h1, if_pos h2, if_pos (by omega), decide_eq_true h2, Bool.true_and]
  · rw [if_neg h1, if_neg h2, if_neg (by omega)]
    congr 1
    omega

/-- A field of `len` bits sign-extended to `w` bits (R14). -/
theorem testBit_sext {w len j : Nat} (hj : j < w) (hlen : 0 < len) (x : Nat) :
    (truncN w (sextN len x)).testBit j = if j < len then x.testBit j else x.testBit (len - 1) := by
  have hbits : (truncN w (sextN len x)).testBit j = ((BitVec.ofNat len x).signExtend w).getLsbD j := by
    rw [sextN_eq_toInt hlen, truncN_eq_toNat]
    rfl
  rw [hbits, BitVec.getLsbD_signExtend, decide_eq_true hj, Bool.true_and, BitVec.msb_eq_getLsbD_last, BitVec.getLsbD_ofNat,
    BitVec.getLsbD_ofNat, decide_eq_true (Nat.sub_one_lt hlen.ne'), Bool.true_and]
  split
  · next h => rw [decide_eq_true h, Bool.true_and]
  · rfl

/-- The field that `bfx` extracts (R132). -/
theorem testBit_bfxN {ty : Ty} {j : Nat} (hj : j < tyW ty) (a b c : Nat) :
    (cut ty false (bfxN ty a b c)).testBit j =
      if j < min c (tyW ty - min b (tyW ty)) then a.testBit (min b (tyW ty) + j)
      else (tySigned ty && decide (0 < min c (tyW ty - min b (tyW ty))) &&
        a.testBit (min b (tyW ty) + min c (tyW ty - min b (tyW ty)) - 1)) := by
  unfold bfxN
  extract_lets p len v
  have hv : ∀ i, v.testBit i = (decide (i < len) && a.testBit (p + i)) := fun i => by
    rw [Nat.testBit_mod_two_pow, Nat.testBit_div_two_pow, Nat.add_comm]
  change _ = if j < len then a.testBit (p + j) else (tySigned ty && decide (0 < len) && a.testBit (p + len - 1))
  by_cases h0 : len = 0
  · rw [if_pos h0, if_neg (by omega), decide_eq_false (by omega), Bool.and_false, Bool.false_and]
    exact (testBit_cut hj 0).trans (Nat.zero_testBit j)
  have hpos : 0 < len := Nat.pos_of_ne_zero h0
  rw [if_neg h0, decide_eq_true hpos, Bool.and_true]
  cases hs : tySigned ty with
  | false =>
    refine (testBit_cut hj v).trans ((hv j).trans ?_)
    by_cases h : j < len <;> simp [h]
  | true =>
    refine (testBit_sext hj hpos v).trans ?_
    rw [hv, hv, decide_eq_true (Nat.sub_one_lt h0), Bool.true_and, Bool.true_and, Nat.add_sub_assoc hpos]
    by_cases h : j < len <;> simp [h]

/-- Settles O5: counts by the position of a one bit, and fields bit by bit. -/
theorem bitCountsAndFields : Obligations.BitCountsAndFields := by
  unfold Obligations.BitCountsAndFields
  have hcount : ∀ {ty : Ty} {x : Nat}, x ≤ tyW ty → cut ty false (x : Int) = x := fun hx => cut_nat _ (hx.trans_lt Nat.lt_two_pow_self)
  refine ⟨fun o ty s t c h hr _ => ⟨givesElems_cut rfl hr ?_, givesElems_cut rfl hr ?_, givesElems_cut rfl hr ?_,
    givesElems_cut rfl hr ?_⟩, fun o ty s t c h hr _ => ⟨givesElems_cut rfl hr ?_, fun pos len _ => givesElems_cut rfl hr ?_⟩⟩
  · intro l _ n _
    have hspec := clzN_spec (srcElem_lt s t c l o ty o.a.op n)
    rwa [← hcount hspec.1] at hspec
  · intro l _ n _
    have hspec := ctzN_spec (tyW ty) (s.srcElem t c l o ty o.a.op n)
    rwa [← hcount hspec.1] at hspec
  · intro l _ n _
    refine (hcount (popN_le ..)).trans ?_
    simp only [popN, bitN_eq_testBit]
    rfl
  · intro l _ n _ j hj
    refine (testBit_cut hj _).trans ?_
    rw [brevN_eq_lowReversed]
    exact testBit_lowReversed hj
  · exact fun l _ n _ j hj => testBit_bfxN hj _ _ _
  · exact fun l _ n _ j hj => (testBit_cut hj _).trans (testBit_setFld ..)

end Sys2Proof.Machine

namespace Sys2Proof.Machine

/-! ## Signs, permutations, selection and comparison (R130, R133 to R135) -/

theorem testBit_withSign_mag (f : Fmt) (sg : Bool) (x : Nat) {j : Nat} (hj : j < fmtW f) :
    (withSign f sg (fmtMag f x)).testBit j = if j = fmtW f - 1 then sg else x.testBit j := by
  have hW : fmtW f - 1 = f.e + f.t := by rw [fmtW]; omega
  rw [withSign, fmtMag, Nat.mul_comm, Nat.testBit_two_pow_mul_add _ (Nat.mod_lt _ (Nat.two_pow_pos _)), Nat.testBit_mod_two_pow, hW]
  by_cases h : j < f.e + f.t
  · rw [if_pos h, if_neg h.ne, decide_eq_true h, Bool.true_and]
  · have hj' : j = f.e + f.t := by rw [fmtW] at hj; omega
    rw [if_neg h, if_pos hj', hj', Nat.sub_self]
    cases sg <;> rfl

theorem fmtMag_lt (f : Fmt) (x : Nat) : fmtMag f x < 2 ^ (f.e + f.t) := Nat.mod_lt _ (Nat.two_pow_pos _)

theorem fmtSign_eq_testBit (f : Fmt) (x : Nat) : fmtSign f x = x.testBit (f.e + f.t) := bitN_eq_testBit ..

/-- The wide float formats have a canonical NaN, infinities and signalling NaNs (R112). -/
theorem tyFlt_fmt {ty : Ty} (hf : tyFlt ty = true) : (tyFmt ty).nan.isSome = true ∧ (tyFmt ty).hasInf = true ∧ (tyFmt ty).sig = true := by
  revert hf
  cases ty <;> decide

theorem nanRes_of_some {f : Fmt} {c : Nat} (hc : f.nan = some c) (fl : Nat) : nanRes f fl = (c, fl) := by rw [nanRes, hc]

/-- What a change of the sign bit of a float element gives (R130). -/
def signE (f : Fmt) (neg : Bool) (x : Nat) : Nat :=
  if (unpackF f x).isNan then (nanRes f 0).1 else withSign f (neg && !fmtSign f x) (fmtMag f x)

section Sign
variable {i : Instr} {o : Ops} {ty : Ty} {s : State} {t c : Nat} {h : Cohort}

theorem signE_lt (hi : tyInt ty = false) (neg : Bool) (x : Nat) : signE (tyFmt ty) neg x < 2 ^ tyW ty := by
  refine lt_of_lt_of_le ?_ (Nat.pow_le_pow_right (by decide) (fmtW_le_tyW ty hi))
  unfold signE
  split
  · exact nanRes_lt (tyFmt_fits ty) 0
  · exact withSign_lt (fmtMag_lt ..) _

theorem signE_spec (hf : tyFlt ty = true) (neg : Bool) (x : Nat) :
    if (unpackF (tyFmt ty) x).isNan = true then some (signE (tyFmt ty) neg x) = (tyFmt ty).nan else
      ∀ j, j < tyW ty → (signE (tyFmt ty) neg x).testBit j = if j = tyW ty - 1 then neg && !x.testBit j else x.testBit j := by
  obtain ⟨c, hc⟩ := Option.isSome_iff_exists.1 (tyFlt_fmt hf).1
  unfold signE
  split
  · rw [nanRes_of_some hc, hc]
  · intro j hj
    rw [← fmtW_eq_tyW hf] at hj ⊢
    rw [testBit_withSign_mag _ _ _ hj]
    refine ite_congr rfl (fun he => ?_) (fun _ => rfl)
    rw [fmtSign_eq_testBit, he, fmtW]
    congr 3
    omega

end Sign

/-- Settles O6: integers by the cut of their exact value, floats by the bits that `signE` leaves. -/
theorem signOperations : Obligations.SignOperations := by
  unfold Obligations.SignOperations
  refine ⟨fun o ty sat s t c h hr hi => ?_, fun o ty sat s t c h hr hi hf => ?_⟩
  · have habs : exec (.abs o ty sat) s = int1 o ty sat s (fun a => ((valI ty a).natAbs : Int)) := if_pos hi
    have hneg : exec (.neg o ty sat) s = int1 o ty sat s (fun a => -valI ty a) := if_pos hi
    exact ⟨givesElems_cut habs hr (fun l _ n _ => intIs_cut ..), givesElems_cut hneg hr (fun l _ n _ => intIs_cut ..)⟩
  · have hno : ¬tyInt ty = true := Bool.eq_false_iff.1 hi
    have habs : exec (.abs o ty sat) s = signOp o ty s false := if_neg hno
    have hneg : exec (.neg o ty sat) s = signOp o ty s true := if_neg hno
    have hclear : ∀ (j k : Nat) (b : Bool), (if j = k then false && !b else b) = (j != k && b) := fun j k b => by
      by_cases hj : j = k <;> simp [hj]
    refine ⟨givesElems_of_intRes (g := fun r l n => signE (tyFmt ty) false (r.ea ty l n)) habs hr (fun l _ n _ => ⟨signE_lt hi .., ?_⟩),
      givesElems_of_intRes (g := fun r l n => signE (tyFmt ty) true (r.ea ty l n)) hneg hr (fun l _ n _ => ⟨signE_lt hi .., signE_spec hf ..⟩)⟩
    have hspec := signE_spec hf false (s.srcElem t c l o ty o.a.op n)
    simp only [hclear] at hspec
    exact hspec

theorem isPred_iff {x : Opnd} : isPred x = true ↔ ∃ n, x = .p n := by cases x <;> simp [isPred]

theorem not_isPred {x : Opnd} (hx : ∀ n, x ≠ .p n) : ¬isPred x = true := fun hp => (isPred_iff.1 hp).elim hx

/-- Byte `j` of the word that packs eight bytes (R108). -/
theorem wfld_packBytes {f : Nat → Nat} (hf : ∀ j, j < 8 → f j < 256) {j : Nat} (hj : j < 8) :
    wfld (wordOf (packBits 8 ((List.range 8).map f))) (8 * j) 8 = f j :=
  ((holds_place .n8x8 f hf).1 j hj).1

theorem testBit_fld (x lo n i : Nat) : (fld x lo n).testBit i = (decide (i < n) && x.testBit (lo + i)) := by
  rw [fld, Nat.testBit_mod_two_pow, Nat.testBit_shiftRight]

/-- A byte of the 16-byte value of `prmt` lies in A or in B (R133). -/
theorem fld_two_words {a b k : Nat} (ha : a < 2 ^ 64) :
    fld (b * 2 ^ 64 + a) (8 * k) 8 = if k < 8 then fld a (8 * k) 8 else fld b (8 * (k - 8)) 8 := by
  refine Nat.eq_of_testBit_eq (fun i => ?_)
  rw [testBit_fld, Nat.mul_comm, Nat.testBit_two_pow_mul_add _ ha]
  by_cases hi : i < 8
  · split
    · next hk => rw [if_pos (by omega), testBit_fld, Nat.mul_comm]
    · next hk => rw [if_neg (by omega), testBit_fld]; congr 2; omega
  · simp only [decide_eq_false hi, Bool.false_and]
    split <;> rw [testBit_fld, decide_eq_false hi, Bool.false_and]

theorem prmtByte_lt (v k : Nat) : prmtByte v k < 256 := by
  have hsel := fld_lt v (8 * fld k 0 4) 8
  unfold prmtByte
  extract_lets sel x
  have hx : x < 256 := by
    unfold x
    split
    · decide
    · split
      · split <;> decide
      · exact hsel
  split <;> omega

/-- Settles O7: the bytes of `prmt` one by one, and what each form of `sel` selects. -/
theorem permuteAndSelect : Obligations.PermuteAndSelect := by
  unfold Obligations.PermuteAndSelect
  refine ⟨fun o s t c h hr => ?_, fun o ty s t c h hr => ⟨fun n hn => ?_, fun hn => ?_⟩⟩
  · refine gives_of_aluRun (p := {}) rfl hr rfl (fun _ => rfl) (fun l _ j hj => ?_)
    refine (wfld_packBytes (fun j _ => prmtByte_lt _ _) hj).trans ?_
    simp only [prmtByte, bitN_eq_testBit, fld_two_words (BitVec.isLt _)]
    rfl
  · have hexec : exec (.sel o ty) s = aluRun o {} s (fun r l =>
        { val := if (r.cc l).getLsbD 0 then whole ty o.a.op (r.a l) else whole ty o.b.op (r.b l) }) :=
      congrArg (aluRun o {} s) (funext fun r => funext fun l => if_pos (by rw [hn]; rfl))
    refine gives_of_aluRun (p := {}) hexec hr rfl (fun _ => rfl) (fun l _ => ?_)
    have hbit : ((readyRun o {} s t c h).cc l).getLsbD 0 = (s.lane t c l).pGet n := by
      have hcc : (readyRun o {} s t c h).cc l = if (s.lane t c l).pGet n then 1 else 0 := by
        show srcVal _ _ _ _ _ o.c.op = _
        rw [hn]
        rfl
      rw [hcc]
      cases (s.lane t c l).pGet n <;> rfl
    rw [hbit]
    rfl
  · have hexec : exec (.sel o ty) s = aluRun o {} s (fun r l =>
        intRes ty (fun i => if r.ec ty l i != 0 then r.ea ty l i else r.eb ty l i)) :=
      congrArg (aluRun o {} s) (funext fun r => funext fun l => if_neg (not_isPred hn))
    refine givesElems_of_intRes hexec hr (fun l _ n _ => ⟨?_, ?_⟩)
    · split <;> exact srcElem_lt ..
    · simp only [bne_iff_ne]
      rfl

/-- Integer comparison (R110). -/
theorem cmpI_iff (cond : Cond) (a b : Int) : cmpI cond a b = true ↔ match cond with
    | .eq => a = b
    | .ne => a ≠ b
    | .lt => a < b
    | .le => a ≤ b
    | .gt => a > b
    | .ge => a ≥ b := by
  cases cond <;> simp [cmpI]

/-- Settles O8: a predicate takes the outcome for the first elements, another destination ones or zeros. -/
theorem integerCompare : Obligations.IntegerCompare := by
  unfold Obligations.IntegerCompare
  intro o ty cond s t c h hr A B holds
  have hcmp : ∀ l n, cmpI cond (A l n) (B l n) = true ↔ holds l n := fun l n => cmpI_iff ..
  refine ⟨fun n hn => ?_, fun hn => ?_⟩
  · have hexec : exec (.cmp o ty cond) s = aluRun o {} s (fun r l =>
        { val := wordOf (bit (cmpI cond (valI ty (r.ea ty l 0)) (valI ty (r.eb ty l 0)))) }) :=
      congrArg (aluRun o {} s) (funext fun r => funext fun l => if_pos (isPred_iff.2 ⟨n, hn⟩))
    refine gives_of_aluRun (p := {}) hexec hr rfl (fun _ => rfl) (fun l _ => Iff.trans ?_ (hcmp l 0))
    exact iff_of_eq (congrArg (· = true) (bitRes_getLsbD _))
  · have hexec : exec (.cmp o ty cond) s = aluRun o {} s (fun r l =>
        intRes ty (fun i => if cmpI cond (valI ty (r.ea ty l i)) (valI ty (r.eb ty l i)) then 2 ^ tyW ty - 1 else 0)) :=
      congrArg (aluRun o {} s) (funext fun r => funext fun l => if_neg (not_isPred hn))
    refine givesElems_of_intRes hexec hr (fun l _ n _ => ⟨?_, fun hh => if_pos ((hcmp l n).2 hh), fun hh => if_neg (mt (hcmp l n).1 hh)⟩)
    have := Nat.two_pow_pos (tyW ty)
    split <;> omega

end Sys2Proof.Machine

namespace Sys2Proof.Machine

/-! ## Moves, addresses and immediates (R130, R137, R138) -/

theorem signExtend_truncate32 (b : Word) : (b.truncate 32).signExtend 64 = wordOfInt (sextN 32 b.toNat) := by
  rw [sextN_eq_toInt (by decide)]
  rfl

theorem mul_two_pow_word (b : Word) (sh : Nat) : b * wordOf (2 ^ sh) = b <<< sh := by
  rw [BitVec.shiftLeft_eq_mul_twoPow]
  congr 1
  exact BitVec.eq_of_toNat_eq (by rw [BitVec.toNat_ofNat, BitVec.toNat_twoPow])

theorem append_zeros_word (imm : BitVec 32) : wordOf (imm.toNat * 2 ^ 32) = imm ++ 0#32 := by
  refine BitVec.eq_of_toNat_eq ?_
  have := imm.isLt
  rw [BitVec.toNat_append, BitVec.toNat_ofNat, Nat.mod_eq_of_lt (by omega), Nat.shiftLeft_eq, BitVec.toNat_zero]
  exact (Nat.or_zero _).symm

theorem append_self_word (imm : BitVec 32) : wordOf (imm.toNat + imm.toNat * 2 ^ 32) = imm ++ imm := by
  refine BitVec.eq_of_toNat_eq ?_
  have := imm.isLt
  rw [BitVec.toNat_append, BitVec.toNat_ofNat, Nat.mod_eq_of_lt (by omega), ← Nat.shiftLeft_add_eq_or_of_lt this, Nat.shiftLeft_eq,
    Nat.add_comm]

/-- What `ldi` gives for a type that none of its first three cases names (R138). -/
theorem ldi32_narrow {ty : Ty} (h : tyN ty = 1 → tyW ty ≤ 32) (imm : Nat) :
    ldi32 ty imm = if tyN ty = 1 then place ty [imm % 2 ^ tyW ty] else wordOf (imm + imm * 2 ^ 32) := by
  cases ty with
  | i64 | n64 | f64 => exact absurd (h rfl) (by decide)
  | _ => rfl

theorem holds_place_single {ty : Ty} (hn : tyN ty = 1) {x : Nat} (hx : x < 2 ^ tyW ty) : Holds ty (place ty [x]) (fun _ => x) := by
  have := holds_place ty (fun _ => x) (fun _ _ => hx)
  rwa [idxs, hn] at this

/-! ## Sum and difference with carry (R136) -/

section Addc
variable {o : Ops} {one : Bool} {s s' : State} {t c : Nat} {h h' : Cohort} {upd upd' : Nat → Lane → Lane} {val : Nat → Word} {fl : Nat}

/-- The same instruction with other lanes. -/
theorem Done.setLanes (hd : Done o one s t c h upd' val fl h' s') (hs : s'.HasCourse t c) {ls : List Lane}
    (hl : ∀ l, ls.getD l {} = if l ∈ s.performers t c h o.g one ∧ l < (s.course t c).lanes.length then upd l (s.lane t c l) else s.lane t c l) :
    Done o one s t c h upd val fl h' (s'.modCourse t c (fun C => { C with lanes := ls })) := by
  obtain ⟨hkept, hcoh, hparked, -, huniform, hfpsr, hcoil, huncons⟩ := hd
  obtain ⟨hrest, hteams, hcourses, ⟨k, kE, kbad, named, kScope, ports, crs, hteam⟩, ⟨ls', pk, wk, rr, coh, fl', hcourse⟩, hcore, hcolumn⟩ := hkept
  have hsame := State.course_modCourse_same hs (fun C => { C with lanes := ls })
  obtain ⟨crs', hteam'⟩ := team_modCourse_crs s' t c (fun C => { C with lanes := ls })
  have hcores : ∀ q, (s'.modCourse t c (fun C => { C with lanes := ls })).core q = s'.core q := fun q => State.core_modTeam ..
  have hcols : ∀ q, (s'.modCourse t c (fun C => { C with lanes := ls })).column q = s'.column q := fun q => State.column_modTeam ..
  refine ⟨⟨rest_trans hrest (modCourse_rest ..), fun u hu => (State.team_modTeam_ne _ hu _).trans (hteams u hu),
    fun d hdc => (State.course_modCourse_ne _ (fun x => hdc x.2) _).trans (hcourses d hdc), ⟨k, kE, kbad, named, kScope, ports, crs', ?_⟩,
    ⟨ls, pk, wk, rr, coh, fl', ?_⟩, fun q => ?_, fun q => ?_⟩, ?_, ?_, fun l => ?_, ?_, ?_, fun q => ?_, fun hp => ?_⟩
  · rw [hteam', hteam]
  · rw [hsame, hcourse]
  · rw [hcores]; exact hcore q
  · rw [hcols]; exact hcolumn q
  · rw [hsame]; exact hcoh
  · rw [hsame]; exact hparked
  · rw [State.lane, hsame]; exact hl l
  · rw [hteam']; exact huniform
  · rw [hsame]; exact hfpsr
  · rw [hcores]; exact hcoil q
  · simp only [hteam', hcores, hcols]; exact huncons hp

/-- Sum or difference with carry as an integer, and the carry out (R136). -/
theorem addcN_spec (w : Nat) (sub : Bool) (a b ci : Nat) :
    (addcN w sub a b ci).1 = (if sub then (a : Int) - b - ci else a + b + ci) ∧
    (addcN w sub a b ci).2 = if sub then decide ((if sub then (a : Int) - b - ci else a + b + ci) < 0)
      else decide (((2 ^ w : Nat) : Int) ≤ if sub then (a : Int) - b - ci else a + b + ci) := by
  cases sub
  · refine ⟨by simp only [addcN]; push_cast; rfl, ?_⟩
    simp only [addcN, Bool.false_eq_true, if_false]
    exact decide_eq_decide.2 (by omega)
  · refine ⟨rfl, ?_⟩
    simp only [addcN, if_true]
    exact decide_eq_decide.2 (by omega)

/-- The carry that an instruction takes in: a predicate, or none from `k0` (R136). -/
theorem carryIn_eq {p : Pro} {l : Nat} (hc : o.c.op = .k 0 ∨ ∃ n, o.c.op = .p n) :
    ((wfld ((readyRun o p s t c h).cc l) 0 1 : Nat) : Int) = match o.c.op with
      | .p n => (bit ((s.lane t c l).pGet n) : Int)
      | _ => 0 := by
  have hcc : (readyRun o p s t c h).cc l = s.srcWord t c l o o.c.op := rfl
  rw [hcc, State.srcWord]
  obtain hk | ⟨n, hp⟩ := hc
  · rw [hk]
    rfl
  · rw [hp, srcVal]
    dsimp only
    cases (s.lane t c l).pGet n <;> rfl

theorem toNat_place_unsigned {ty : Ty} (hty : ty = .n64 ∨ ty = .n32) (z : Int) :
    ((place ty [truncN (tyW ty) z]).toNat : Int) = z % ((2 ^ tyW ty : Nat) : Int) := by
  obtain ⟨hn, hs⟩ : tyN ty = 1 ∧ tySigned ty = false := by obtain rfl | rfl := hty <;> decide
  have hval := (holds_place_single hn (truncN_lt (tyW ty) z)).2 hn
  rw [hs, Bool.and_false, if_neg Bool.false_ne_true] at hval
  rw [hval, truncN_cast]

/-- A predicate written in the lanes that perform an instruction, and with 0 in the helper lanes whose fault is discarded (R64, R136). -/
def Run.putPred (r : Run) (n : Nat) (out : Nat → Bool) : Run :=
  let s := r.good.foldl (fun s l => s.modLane r.t r.c l (fun L => L.pPut n (out l))) r.s
  { r with s := r.failedHelpers.foldl (fun s l => s.modLane r.t r.c l (fun L => L.pPut n false)) s }

theorem Run.putPred_of_nil {r : Run} (hn : r.flt = []) (n : Nat) (out : Nat → Bool) :
    r.putPred n out = { r with s := r.on.foldl (fun s l => s.modLane r.t r.c l (fun L => L.pPut n (out l))) r.s } := by
  have hfailed : r.failedHelpers = [] := List.filter_eq_nil_iff.2 (fun l _ => by simp [Run.ok_of_nil hn])
  rw [Run.putPred, hfailed, Run.good_of_nil hn]
  rfl

/-- An instruction that writes its result, and then a predicate in each lane that performs it. -/
theorem putPred_done {i : Instr} {p : Pro} {res : Run → Nat → LRes} {n : Nat} {out : Run → Nat → Bool} (hr : Ready o p s t c h)
    (hone : p.one = false) (hflags : ∀ l, (res (readyRun o p s t c h) l).flags = 0)
    (hexec : exec i s = withRun o p s (fun r => ((r.write (res r)).putPred n (out r)).finish)) :
    ∃ s0 s', exec i s = .next s' ∧ Wrote o false s t c h (fun l => (res (readyRun o p s t c h) l).val) 0 s0 ∧
      (∀ l, s'.lane t c l = if l ∈ s.performers t c h o.g false ∧ l < (s.course t c).lanes.length
        then (s0.lane t c l).pPut n (out (readyRun o p s t c h) l) else s0.lane t c l) ∧
      ∃ ls, s0 = s'.modCourse t c (fun C => { C with lanes := ls }) ∧ s'.HasCourse t c := by
  obtain ⟨W, hW, hput⟩ := write_put hr (res (readyRun o p s t c h)) (fun l _ => trapping_zero _ _ l _ (hflags l))
  rw [flagsOf_zero _ _ hflags, hone] at hput
  have hput' := (hput.fold (fun l L => L.pPut n (out (readyRun o p s t c h) l)) (performers_nodup s t c h o.g false) (fun _ => id)).congr
    (upd' := fun l L => (L.putReg o.ib o.d (res (readyRun o p s t c h) l).val).pPut n (out (readyRun o p s t c h) l)) (fun l hl => if_pos hl)
  have hdone := put_finish (p := p) rfl rfl rfl hput'
  have hon : (readyRun o p s t c h).on = s.performers t c h o.g false := by rw [readyRun, hone]
  have hrun : ((readyRun o p s t c h).write (res (readyRun o p s t c h))).putPred n (out (readyRun o p s t c h)) =
      { readyRun o p s t c h with s := (s.performers t c h o.g false).foldl (fun w l => w.modLane t c l
        (fun L => L.pPut n (out (readyRun o p s t c h) l))) W } := by
    rw [hW, Run.putPred_of_nil rfl]
    rw [← hon]
    rfl
  have hs := State.hasCourse_of_coh hdone.cohort
  have hlanes : ∀ l, (W.course t c).lanes.getD l {} = if l ∈ s.performers t c h o.g false ∧ l < (s.course t c).lanes.length
      then (s.lane t c l).putReg o.ib o.d (res (readyRun o p s t c h) l).val else s.lane t c l := hput.lanes
  have hwrote := hdone.setLanes (upd := fun l L => L.putReg o.ib o.d (res (readyRun o p s t c h) l).val) hs hlanes
  refine ⟨_, _, (hexec.trans (withRun_ready hr _)).trans (congrArg _ (congrArg Run.finish hrun)), hwrote, fun l => ?_, _, rfl, hs⟩
  rw [hdone.lanes, hwrote.lanes]
  split <;> rfl

end Addc

/-- Settles O9: each value by what it is as a word; the carry-out is written after D (`putPred_done`). -/
theorem movesAddressesAndCarry : Obligations.MovesAddressesAndCarry := by
  unfold Obligations.MovesAddressesAndCarry
  refine ⟨fun o s t c h hr => ?_, fun o ty sub co s t c h hr hty hc => ?_⟩
  · have hgives : ∀ {i : Instr} {g : Run → Nat → Word} {v : Nat → Word}, exec i s = aluRun o {} s (fun r l => { val := g r l }) →
        (∀ l, g (readyRun o {} s t c h) l = v l) → Gives i o false s t c h (fun l w => w = v l) := fun hexec hv =>
      gives_of_aluRun hexec hr rfl (fun _ => rfl) (fun l _ => hv l)
    refine ⟨hgives rfl (fun _ => rfl), fun sh => hgives rfl (fun l => ?_), fun sh => hgives rfl (fun l => ?_), fun ty imm => hgives rfl (fun _ => rfl),
      fun imm => hgives rfl (fun _ => ?_), fun imm => hgives rfl (fun _ => ?_), fun imm => hgives rfl (fun _ => append_zeros_word imm),
      fun ty imm hn => hgives rfl (fun _ => ?_), fun ty imm hn hw himm => ?_⟩
    · rw [if_neg Bool.false_ne_true, mul_two_pow_word]
      rfl
    · rw [if_pos rfl, mul_two_pow_word, ← signExtend_truncate32]
      rfl
    · exact (congrArg wordOfInt (sextN_eq_toInt (by decide) imm.toNat)).trans (by rw [BitVec.ofNat_toNat, BitVec.setWidth_eq]; rfl)
    · exact BitVec.ofNat_toNat ..
    · rw [ldi32_narrow (fun h1 => absurd h1 hn), if_neg hn, append_self_word]
    · refine gives_of_aluRun (p := {}) rfl hr rfl (fun _ => rfl) (fun l _ => ⟨fun _ => imm.toNat, ?_, fun _ _ => rfl⟩)
      have hval : ldi32 ty imm.toNat = place ty [imm.toNat] := by rw [ldi32_narrow (fun _ => hw), if_pos hn, Nat.mod_eq_of_lt himm]
      exact hval ▸ holds_place_single hn himm
  · intro ci z out
    have hcarry : ∀ l, (addcN (tyW ty) sub (s.srcElem t c l o ty o.a.op 0) (s.srcElem t c l o ty o.b.op 0)
        (wfld ((readyRun o { pred := co } s t c h).cc l) 0 1)) = (z l, out l) := fun l => by
      obtain ⟨hz, hout⟩ := addcN_spec (tyW ty) sub (s.srcElem t c l o ty o.a.op 0) (s.srcElem t c l o ty o.b.op 0)
        (wfld ((readyRun o { pred := co } s t c h).cc l) 0 1)
      rw [carryIn_eq hc] at hz hout
      exact Prod.ext hz hout
    have hval : ∀ l, ((place ty [truncN (tyW ty) (addcN (tyW ty) sub (s.srcElem t c l o ty o.a.op 0) (s.srcElem t c l o ty o.b.op 0)
        (wfld ((readyRun o { pred := co } s t c h).cc l) 0 1)).1]).toNat : Int) = z l % ((2 ^ tyW ty : Nat) : Int) := fun l => by
      rw [hcarry]
      exact toNat_place_unsigned hty _
    let carry : Run → Nat → Int × Bool := fun r l => addcN (tyW ty) sub (r.ea ty l 0) (r.eb ty l 0) (wfld (r.cc l) 0 1)
    cases co with
    | none =>
      obtain ⟨s', hexec, hwrote⟩ := aluRun_plain hr (fun r l => { val := place ty [truncN (tyW ty) (carry r l).1] }) (fun _ => rfl)
      exact ⟨s', s', _, hexec, hwrote, fun l _ => hval l, fun _ => rfl, ⟨_, rfl, rfl⟩, fun _ _ => rfl, fun _ _ => rfl, _, rfl⟩
    | some n =>
      obtain ⟨s0, s', hexec, hwrote, hlanes, ls, hs0, hs⟩ := putPred_done (i := .addc o ty sub (some n))
        (res := fun r l => { val := place ty [truncN (tyW ty) (carry r l).1] }) (n := n) (out := fun r l => (carry r l).2) hr rfl (fun _ => rfl) rfl
      have hout : ∀ l, (carry (readyRun o { pred := some n } s t c h) l).2 = out l := fun l => congrArg Prod.snd (hcarry l)
      simp only [hout] at hlanes
      have hsame := State.course_modCourse_same hs (fun C => { C with lanes := ls })
      obtain ⟨crs, hteam⟩ := team_modCourse_crs s' t c (fun C => { C with lanes := ls })
      refine ⟨s0, s', _, hexec, hwrote, fun l _ => hval l, hlanes, ⟨(s'.team t).courses, ?_, ?_⟩, fun u hu => ?_, fun d hd => ?_,
        ⟨(s'.course t c).lanes, ?_⟩⟩ <;> subst hs0
      · rw [State.modCourse, State.modTeam]
        split <;> rfl
      · rw [hteam]
      · exact (State.team_modTeam_ne _ hu _).symm
      · exact (State.course_modCourse_ne _ (fun x => hd x.2) _).symm
      · rw [hsame]

end Sys2Proof.Machine

namespace Sys2Proof.Machine

/-! ## Lanes that take a fault, and lanes that do not (R93, R94, R99) -/

/-- A change of state that leaves, of a course, its flags, of its team, the uniform registers, and of a lane, what `g` reads. -/
structure State.Steady {α : Type} (g : Lane → α) (t c l : Nat) (s s' : State) : Prop where
  fpsr : (s'.course t c).fpsr = (s.course t c).fpsr
  uniform : (s'.team t).k = (s.team t).k
  lane : g (s'.lane t c l) = g (s.lane t c l)
  length : (s'.course t c).lanes.length = (s.course t c).lanes.length
  hasCourse : s.HasCourse t c → s'.HasCourse t c

namespace State.Steady
variable {α : Type} {g : Lane → α} {t c l : Nat} {s s' s'' : State}

theorem refl (s : State) : State.Steady g t c l s s := ⟨rfl, rfl, rfl, rfl, id⟩

theorem trans (h : State.Steady g t c l s s') (h' : State.Steady g t c l s' s'') : State.Steady g t c l s s'' :=
  ⟨h'.fpsr.trans h.fpsr, h'.uniform.trans h.uniform, h'.lane.trans h.lane, h'.length.trans h.length, h'.hasCourse ∘ h.hasCourse⟩

theorem foldl {β : Type} {f : State → β → State} {xs : List β} (hf : ∀ w, ∀ x ∈ xs, State.Steady g t c l w (f w x)) (s : State) :
    State.Steady g t c l s (xs.foldl f s) := by
  induction xs generalizing s with
  | nil => exact refl s
  | cons x xs ih => exact (hf s x (by simp)).trans (ih (fun w y hy => hf w y (by simp [hy])) _)

/-- The lane itself is not changed, or not in what `g` reads. -/
theorem modLane {m : Nat} {f : Lane → Lane} (hf : m = l → ∀ L, g (f L) = g L) (s : State) : State.Steady g t c l s (s.modLane t c m f) where
  fpsr := State.course_modCourse_keep Course.fpsr s t c (·.modLane m f) (fun _ => rfl) t c
  uniform := State.team_modCourse_keep Team.k s t c _ (fun _ => rfl) t
  lane := by
    by_cases hm : m = l
    · exact State.lane_modLane_keep g s t c m f (hf hm) t c l
    · rw [State.lane_modLane_ne s (fun x => hm x.2.2.symm)]
  length := State.length_lanes_modLane ..
  hasCourse h := h.modLane t c m f

theorem modCourse {f : Course → Course} (hf : ∀ C, (f C).lanes = C.lanes ∧ (f C).fpsr = C.fpsr) (s : State) :
    State.Steady g t c l s (s.modCourse t c f) where
  fpsr := State.course_modCourse_keep Course.fpsr s t c f (fun C => (hf C).2) t c
  uniform := State.team_modCourse_keep Team.k s t c f (fun _ => rfl) t
  lane := by rw [State.lane_modCourse_keep s t c f (fun C => (hf C).1)]
  length := State.course_modCourse_keep (fun C => C.lanes.length) s t c f (fun C => by rw [(hf C).1]) t c
  hasCourse h := h.modCourse t c f

theorem modTeam {f : Team → Team} (hf : ∀ T, (f T).courses = T.courses ∧ (f T).k = T.k) (s : State) :
    State.Steady g t c l s (s.modTeam t f) := by
  have hcourse : (s.modTeam t f).course t c = s.course t c :=
    State.team_modTeam_keep (fun T => T.course c) s t f (fun T => by simp only [Team.course, (hf T).1]) t
  exact ⟨by rw [hcourse], State.team_modTeam_keep Team.k s t f (fun T => (hf T).2) t, by rw [State.lane, hcourse, State.lane], by rw [hcourse],
    fun h => h.modTeam t f (fun T => by rw [(hf T).1])⟩

theorem of_teams (h : s'.teams = s.teams) : State.Steady g t c l s s' := by
  have hteam : s'.team t = s.team t := by rw [State.team, h, State.team]
  have hcourse : s'.course t c = s.course t c := by rw [State.course, hteam, State.course]
  exact ⟨by rw [hcourse], by rw [hteam], by rw [State.lane, hcourse, State.lane], by rw [hcourse], fun ⟨T, hT, hc⟩ => ⟨T, h ▸ hT, hc⟩⟩

theorem of_eaten (h : Eaten s t s') : State.Steady g t c l s s' := by
  obtain ⟨kScope, ports, hteam⟩ := h.team
  have hcourse : s'.course t c = s.course t c := by simp only [State.course, hteam, Team.course]
  exact ⟨by rw [hcourse], by rw [hteam], by rw [State.lane, hcourse, State.lane], by rw [hcourse], h.has c⟩

theorem suspend (hg : ∀ L tx, g { L with tx := tx } = g L) (ls : List Nat) (s : State) : State.Steady g t c l s (s.suspend t c ls) := by
  unfold State.suspend
  extract_lets s1 s2 T col
  have hmark : State.Steady g t c l s s1 := by
    refine modCourse (fun _ => ⟨?_, ?_⟩) s <;> rfl
  have hlanes : State.Steady g t c l s1 s2 := foldl (fun w m _ => modLane (fun _ L => hg L _) w) s1
  refine (hmark.trans hlanes).trans (of_teams ?_)
  split
  · split
    · exact (State.setInt_keep State.teams (fun _ _ => rfl) (fun _ _ => rfl) ..).trans rfl
    · rfl
  · exact State.scqRecord_keep State.teams (fun _ _ => rfl) (fun _ _ => rfl) ..

end State.Steady

/-- What a lane holds of its fault, and its predicates. -/
def Lane.trapView (L : Lane) : (Word × Word × Word × Nat) × BitVec 48 × BitVec 48 :=
  ((L.ltcause, L.ltpc, L.ltaddr, wfld L.ltinfo 0 8), L.p, L.pE)

/-- The fault that a lane's trap state shows (R97). -/
def FltRec.view (f : FltRec) (ip : Word) : Word × Word × Word × Nat := (wordOf f.cls, f.pc.getD ip, f.addr, f.reason % 256)

theorem wfld_ltInfo_reason (reason twr issued : Nat) (resume : Bool) (detail : Nat) :
    wfld (ltInfo reason twr issued resume detail) 0 8 = reason % 256 := by
  rw [ltInfo, wfld_wordOf _ (by decide), fld_eq, Nat.pow_zero, Nat.div_one]
  omega

theorem Lane.trapView_trapState (L : Lane) (f : FltRec) (ip : Word) (resume : Bool) (issued twr : Nat) :
    (L.trapState f ip resume issued twr).trapView = (f.view ip, L.p, L.pE) := by
  simp only [Lane.trapView, Lane.trapState, wfld_ltInfo_reason, FltRec.view]

theorem Lane.trapView_spill (L : Lane) (ts : Nat) : (L.spill ts).trapView = L.trapView := by
  have hfold : ∀ (ns : List Nat) (M : Lane), (ns.foldl (fun M n => M.vPut (ts + n) (L.tGet n)) M).trapView = M.trapView := by
    intro ns
    induction ns with
    | nil => exact fun _ => rfl
    | cons n ns ih => exact fun M => ih _
  exact hfold _ L

theorem Lane.trapView_trapEnter (L : Lane) (f : FltRec) (vec : Word) (ts : Nat) (ip : Word) (resume : Bool) (issued twr : Nat) :
    (L.trapEnter f vec ts ip resume issued twr).trapView = (f.view ip, L.p, L.pE) := by
  have hrest : (L.trapEnter f vec ts ip resume issued twr).trapView = ((L.trapState f ip resume issued twr).spill ts).trapView := rfl
  rw [hrest, Lane.trapView_spill, Lane.trapView_trapState]

section Deliver
variable {t c l : Nat} {s : State} {flts : List (Nat × FltRec)} {ip : Word}

/-- What a delivered fault makes of its lane shows in it, and its predicates stay. -/
def Delivers (t c : Nat) (ip : Word) (step : State → Nat × FltRec → State) (x : Nat × FltRec) : Prop :=
  ∃ f : Lane → Lane, (∀ L, (f L).trapView = (x.2.view ip, L.p, L.pE)) ∧ ∀ w, step w x = w.modLane t c x.1 f

/-- Faults of other lanes change nothing of a lane. -/
theorem steady_of_delivers {α : Type} {g : Lane → α} {step : State → Nat × FltRec → State} {xs : List (Nat × FltRec)}
    (hstep : ∀ x ∈ xs, Delivers t c ip step x) (hother : ∀ x ∈ xs, x.1 ≠ l) (s : State) : State.Steady g t c l s (xs.foldl step s) :=
  .foldl (fun w x hx => by
    obtain ⟨f, -, hf⟩ := hstep x hx
    rw [hf]
    exact .modLane (fun h => absurd h (hother x hx)) w) s

/-- A lane whose fault is among those delivered shows it. -/
theorem trapView_of_delivers {step : State → Nat × FltRec → State} {xs : List (Nat × FltRec)} {f : FltRec}
    (hstep : ∀ x ∈ xs, Delivers t c ip step x) (huniq : ∀ x ∈ xs, x.1 = l → x.2 = f) (hmem : ∃ x ∈ xs, x.1 = l)
    (hs : s.HasCourse t c) (hl : l < (s.course t c).lanes.length) :
    ((xs.foldl step s).lane t c l).trapView = (f.view ip, (s.lane t c l).p, (s.lane t c l).pE) := by
  induction xs generalizing s with
  | nil => simp at hmem
  | cons x xs ih =>
    obtain ⟨g, hg, hstep1⟩ := hstep x (by simp)
    rw [List.foldl_cons, hstep1]
    have hstep' := fun y hy => hstep y (List.mem_cons_of_mem x hy)
    by_cases hrest : ∃ y ∈ xs, y.1 = l
    · have hpred : ∀ h : Lane → BitVec 48, (∀ L, h (g L) = h L) → h ((s.modLane t c x.1 g).lane t c l) = h (s.lane t c l) := fun h hh =>
        State.lane_modLane_keep h s t c x.1 g hh t c l
      rw [ih hstep' (fun y hy => huniq y (List.mem_cons_of_mem x hy)) hrest (hs.modLane t c x.1 g) (by rwa [State.length_lanes_modLane]),
        hpred Lane.p (fun L => congrArg (fun v => v.2.1) (hg L)), hpred Lane.pE (fun L => congrArg (fun v => v.2.2) (hg L))]
    · have hx : x.1 = l := by
        obtain ⟨y, hy, hyl⟩ := hmem
        obtain rfl | hy := List.mem_cons.1 hy
        · exact hyl
        · exact absurd ⟨y, hy, hyl⟩ hrest
      have hsteady := steady_of_delivers (g := Lane.trapView) (l := l) hstep' (fun y hy e => hrest ⟨y, hy, e⟩) (s.modLane t c x.1 g)
      rw [hsteady.lane, hx, State.lane_modLane_same hs hl, hg, huniq x (by simp) hx]

/-- The faults of live lanes, which alone are delivered (R64, R93). -/
def realFaults (C : Course) (flts : List (Nat × FltRec)) : List (Nat × FltRec) :=
  (List.range 32).flatMap (fun l => if (C.lane l).cls == .live then flts.filter (fun p => p.1 == l) else [])

theorem mem_realFaults {C : Course} {x : Nat × FltRec} :
    x ∈ realFaults C flts ↔ x ∈ flts ∧ x.1 < 32 ∧ (C.lane x.1).cls = .live := by
  simp only [realFaults, List.mem_flatMap, List.mem_range]
  constructor
  · rintro ⟨m, hm, hx⟩
    split at hx
    · next hlive =>
      rw [List.mem_filter, beq_iff_eq] at hx
      obtain ⟨hx, rfl⟩ := hx
      exact ⟨hx, hm, beq_iff_eq.1 hlive⟩
    · cases hx
  · rintro ⟨hx, hm, hlive⟩
    exact ⟨x.1, hm, by rw [if_pos (beq_iff_eq.2 hlive)]; exact List.mem_filter.2 ⟨hx, beq_iff_eq.2 rfl⟩⟩

/-- A fault of a live lane is delivered: its lane enters a handler, or is marked (R93, R94, R99). -/
def State.deliverOne (t c : Nat) (target : Nat × FltRec → Option (Word × Nat)) (ip : Word) (issued : Nat) (w : State) (x : Nat × FltRec) : State :=
  match target x with
  | some (v, ts) => w.modLane t c x.1 (fun L => L.trapEnter x.2 v ts ip true issued L.twr)
  | none => w.modLane t c x.1 (fun L => { L.trapState x.2 ip true issued L.twr with pc := ip, seqIn := false, pend := true, issued := issued })

theorem deliverOne_delivers (target : Nat × FltRec → Option (Word × Nat)) (issued : Nat) (x : Nat × FltRec) :
    Delivers t c ip (State.deliverOne t c target ip issued) x := by
  cases hx : target x with
  | some y =>
    refine ⟨fun L => L.trapEnter x.2 y.1 y.2 ip true issued L.twr, fun L => Lane.trapView_trapEnter .., fun w => ?_⟩
    rw [State.deliverOne, hx]
  | none =>
    refine ⟨fun L => { L.trapState x.2 ip true issued L.twr with pc := ip, seqIn := false, pend := true, issued := issued }, fun L => ?_,
      fun w => ?_⟩
    · have hrest : Lane.trapView { L.trapState x.2 ip true issued L.twr with pc := ip, seqIn := false, pend := true, issued := issued } =
          (L.trapState x.2 ip true issued L.twr).trapView := rfl
      rw [hrest, Lane.trapView_trapState]
    · rw [State.deliverOne, hx]

theorem foldl_congr_mem {α β : Type} {f g : β → α → β} {xs : List α} (h : ∀ b, ∀ x ∈ xs, f b x = g b x) (b : β) : xs.foldl f b = xs.foldl g b := by
  induction xs generalizing b with
  | nil => rfl
  | cons x xs ih => rw [List.foldl_cons, List.foldl_cons, h b x (by simp), ih (fun b y hy => h b y (by simp [hy]))]

/-- Delivery one fault after another; what comes before and after touches neither the registers of a lane nor its trap state. -/
theorem deliver_eq_foldl (s : State) (t c : Nat) (flts : List (Nat × FltRec)) (ip succ : Word) (succIn : Bool) (issued : Nat) :
    ∃ (s1 : State) (target : Nat × FltRec → Option (Word × Nat)) (xs : List (Nat × FltRec)),
      (∀ {α : Type} (g : Lane → α) (l : Nat), State.Steady g t c l s s1) ∧ (∀ x, x ∈ xs ↔ x ∈ realFaults (s.course t c) flts) ∧
      ∀ {α : Type} (g : Lane → α) (l : Nat), (∀ L tx, g { L with tx := tx } = g L) →
        ((∀ x ∈ realFaults (s.course t c) flts, x.1 ≠ l) → ∀ L pc si pe n, g { L with pc := pc, seqIn := si, pend := pe, issued := n } = g L) →
        State.Steady g t c l (xs.foldl (State.deliverOne t c target ip issued) s1) (s.deliver t c flts ip succ succIn issued) := by
  unfold State.deliver
  extract_lets T C now real entered marked s1 s2 s3 rest s4
  let target : Nat × FltRec → Option (Word × Nat) := fun p => trapTarget now T C (C.lane p.1) p.2.cls p.2.reason
  have hfold : (entered ++ marked).foldl (State.deliverOne t c target ip issued) s1 = s3 := by
    have henter : entered.foldl (State.deliverOne t c target ip issued) s1 = s2 := foldl_congr_mem (fun w x hx => by
      obtain ⟨y, hy⟩ := Option.isSome_iff_exists.1 (List.mem_filter.1 hx).2
      have hy' : target x = some y := hy
      rw [State.deliverOne, hy', hy]) s1
    rw [List.foldl_append, henter]
    exact foldl_congr_mem (fun w x hx => by
      have hy : target x = none := Option.isNone_iff_eq_none.1 (List.mem_filter.1 hx).2
      rw [State.deliverOne, hy]) s2
  refine ⟨s1, target, entered ++ marked, fun g l => ?_, fun x => ?_, fun g l htx hgo => ?_⟩
  · unfold s1
    split
    · refine .modTeam (f := fun T => { T with terr := true }) (fun _ => ⟨?_, ?_⟩) s <;> rfl
    · exact .refl s
  · rw [List.mem_append, List.mem_filter, List.mem_filter, ← and_or_left]
    exact and_iff_left (by cases trapTarget now T C (C.lane x.1) x.2.cls x.2.reason <;> simp)
  · rw [hfold]
    split
    · refine .modCourse (fun _ => ⟨?_, ?_⟩) s3 <;> rfl
    · have hout : ∀ m ∈ rest, ∀ x ∈ real, x.1 ≠ m := fun m hm x hx => by
        have hany := (List.mem_filter.1 hm).2
        rw [Bool.not_eq_true', List.any_eq_false] at hany
        exact fun e => hany x hx (beq_iff_eq.2 e)
      have hrest : State.Steady g t c l s3 s4 := .foldl (fun w m hm => .modLane (fun e L => by
        subst e
        exact hgo (hout m hm) L ..) w) s3
      exact hrest.trans (.suspend htx _ s4)

/-- A lane without a fault keeps its registers and predicates while those of others are delivered. -/
theorem deliver_steady (hother : ∀ x ∈ flts, x.1 ≠ l) (succ : Word) (succIn : Bool) (issued : Nat) :
    State.Steady (fun L => (L.v, L.p)) t c l s (s.deliver t c flts ip succ succIn issued) := by
  obtain ⟨s1, target, xs, hstart, hxs, hend⟩ := deliver_eq_foldl s t c flts ip succ succIn issued
  have hone := steady_of_delivers (g := fun L => (L.v, L.p)) (l := l) (xs := xs)
    (fun x _ => deliverOne_delivers (t := t) (c := c) (ip := ip) target issued x)
    (fun x hx => hother x (mem_realFaults.1 ((hxs x).1 hx)).1) s1
  exact ((hstart _ l).trans hone).trans (hend _ l (fun _ _ => rfl) (fun _ _ _ _ _ _ => rfl))

/-- A live lane whose fault is delivered shows it in its trap state; its predicates, the flags and the uniform registers stay. -/
theorem deliver_trapView {f : FltRec} (hmem : (l, f) ∈ flts) (huniq : ∀ x ∈ flts, x.1 = l → x.2 = f) (hl32 : l < 32)
    (hlive : (s.lane t c l).cls = .live) (hs : s.HasCourse t c) (hl : l < (s.course t c).lanes.length) (succ : Word) (succIn : Bool) (issued : Nat) :
    ((s.deliver t c flts ip succ succIn issued).lane t c l).trapView = (f.view ip, (s.lane t c l).p, (s.lane t c l).pE) := by
  obtain ⟨s1, target, xs, hstart, hxs, hend⟩ := deliver_eq_foldl s t c flts ip succ succIn issued
  have hreal : (l, f) ∈ realFaults (s.course t c) flts := mem_realFaults.2 ⟨hmem, hl32, hlive⟩
  have hsame := (hstart id l).lane
  rw [(hend Lane.trapView l (fun _ _ => rfl) (fun h => absurd rfl (h _ hreal))).lane,
    trapView_of_delivers (fun x _ => deliverOne_delivers target issued x)
      (fun x hx => huniq x (mem_realFaults.1 ((hxs x).1 hx)).1) ⟨_, (hxs _).2 hreal, rfl⟩ ((hstart id l).hasCourse hs)
      (by rwa [(hstart id l).length])]
  rw [id, id] at hsame
  rw [hsame]

/-- Delivery leaves the flags of a course and the uniform registers of its team. -/
theorem deliver_course (s : State) (t c : Nat) (flts : List (Nat × FltRec)) (ip succ : Word) (succIn : Bool) (issued : Nat) :
    State.Steady (fun _ => ()) t c l s (s.deliver t c flts ip succ succIn issued) := by
  obtain ⟨s1, target, xs, hstart, hxs, hend⟩ := deliver_eq_foldl s t c flts ip succ succIn issued
  have hone : State.Steady (fun _ => ()) t c l s1 (xs.foldl (State.deliverOne t c target ip issued) s1) := .foldl (fun w x _ => by
    obtain ⟨f, -, hf⟩ := deliverOne_delivers (t := t) (c := c) (ip := ip) target issued x
    rw [hf]
    exact .modLane (f := f) (fun _ _ => rfl) w) s1
  exact ((hstart _ l).trans hone).trans (hend _ l (fun _ _ => rfl) (fun _ _ _ _ _ _ => rfl))

end Deliver

end Sys2Proof.Machine

namespace Sys2Proof.Machine

/-! ## What an instruction leaves whose results raise flags (R121, R123, R159) -/

/-- A check of lanes that have no fault records what it finds in each. -/
theorem Run.check_eq (r : Run) (f : Nat → Option FltRec) {ls : List Nat} (hn : ls.Nodup) (hok : ∀ l ∈ ls, r.ok l = true) :
    r.check ls f = { r with flt := r.flt ++ ls.filterMap (fun l => (f l).map (Prod.mk l)) } := by
  induction ls generalizing r with
  | nil => simp [Run.check]
  | cons l ls ih =>
    obtain ⟨hl, hn⟩ := List.nodup_cons.1 hn
    have hstep : r.check (l :: ls) f = Run.check (match f l with | none => r | some x => r.fault l x) ls f := rfl
    rw [hstep]
    cases hf : f l with
    | none => rw [ih r hn (fun m hm => hok m (by simp [hm]))]; simp [hf]
    | some x =>
      dsimp only
      rw [Run.fault, if_pos (hok l (by simp)), ih _ hn (fun m hm => ?_)]
      · simp [hf]
      · have := hok m (by simp [hm])
        have hne : l ≠ m := fun e => hl (e ▸ hm)
        simpa [Run.ok, hne] using this

section Flags
variable {o : Ops} {p : Pro} {s : State} {t c l : Nat} {h : Cohort} {res : Nat → LRes}

/-- The FPX of a lane whose result raises an enabled flag (R123). -/
def fpxFault (r : Run) (ten : Nat) (res : Nat → LRes) (l : Nat) : Option FltRec :=
  if r.trapping ten l (res l) = 0 then none else some { cls := 0x12, reason := r.raised l (res l), detail := (res l).mask ten }

/-- The faults of the lanes that raise enabled flags. -/
def fpxFaults (r : Run) (ten : Nat) (res : Nat → LRes) : List (Nat × FltRec) :=
  r.on.filterMap (fun l => (fpxFault r ten res l).map (Prod.mk l))

theorem mem_fpxFaults {r : Run} {ten : Nat} {x : Nat × FltRec} : x ∈ fpxFaults r ten res ↔ x.1 ∈ r.on ∧ fpxFault r ten res x.1 = some x.2 := by
  obtain ⟨l, f⟩ := x
  simp only [fpxFaults, List.mem_filterMap, Option.map_eq_some_iff, Prod.mk.injEq]
  exact ⟨fun ⟨m, hm, g, hg, e, e'⟩ => ⟨e ▸ hm, e ▸ e' ▸ hg⟩, fun ⟨hl, hf⟩ => ⟨l, hl, f, hf, rfl, rfl⟩⟩

theorem fpxFault_eq_none {r : Run} {ten : Nat} : fpxFault r ten res l = none ↔ r.trapping ten l (res l) = 0 := by
  unfold fpxFault
  split <;> simp [*]

/-- The flags that lane `l` raises are its own where they count (R123). -/
theorem readyRun_raised (x : LRes) : (readyRun o p s t c h).raised l x = if s.counts t c h o l then x.flags else 0 := by
  have hlive : (readyRun o p s t c h).live l = ((s.lane t c l).cls == .live) := rfl
  unfold Run.raised State.counts
  rw [readyRun_chosen, hlive]
  have hod : (readyRun o p s t c h).o.d = o.d := rfl
  rw [hod]
  cases (s.lane t c l).cls == .live <;> cases o.d <;> simp

/-- The enabled flags for which a lane traps (R64, R159). -/
theorem readyRun_trapping (ten : Nat) (x : LRes) :
    (readyRun o p s t c h).trapping ten l x = if s.judged t c h o l then x.flags &&& ten else 0 := by
  have hlive : (readyRun o p s t c h).live l = ((s.lane t c l).cls == .live) := rfl
  have hod : (readyRun o p s t c h).o.d = o.d := rfl
  unfold Run.trapping State.judged
  rw [readyRun_raised, hlive, hod, State.counts]
  cases hl : (s.lane t c l).cls == .live <;> cases o.d <;> simp [bne, hl, apply_ite (· &&& ten)]

theorem State.counts_live (hc : s.counts t c h o l = true) : (s.lane t c l).cls = .live :=
  beq_iff_eq.1 (Bool.and_eq_true_iff.1 hc).1

theorem State.judged_of_live (hl : (s.lane t c l).cls = .live) : s.judged t c h o l = s.counts t c h o l := by
  rw [State.judged, hl]
  exact Bool.or_false _

theorem flagsOf_readyRun (hone : p.one = false) : flagsOf (readyRun o p s t c h) res = s.flagsOr t c h o (fun l => (res l).flags) := by
  have hfold : ∀ (ls : List Nat) (a : Nat), ls.foldl (fun a l => a ||| (readyRun o p s t c h).raised l (res l)) a =
      (ls.filter (s.counts t c h o)).foldl (fun a l => a ||| (res l).flags) a := by
    intro ls
    induction ls with
    | nil => exact fun _ => rfl
    | cons l ls ih =>
      intro a
      rw [List.foldl_cons, ih, readyRun_raised, List.filter_cons]
      split
      · rfl
      · rw [Nat.or_zero]
  have hon : (readyRun o p s t c h).on = s.performers t c h o.g false := by rw [readyRun, hone]
  rw [flagsOf, Run.good_of_nil rfl, hon]
  exact hfold ..

/-- What is written of the lanes' results, before their faults are delivered. -/
structure FlagsWritten (o : Ops) (s : State) (t c : Nat) (h : Cohort) (res : Nat → LRes) (traps : Nat → Bool) (W : State) : Prop where
  fpsr : (W.course t c).fpsr = (s.course t c).fpsr ||| s.flagsOr t c h o (fun l => (res l).flags)
  hasCourse : W.HasCourse t c
  length : (W.course t c).lanes.length = (s.course t c).lanes.length
  lane : ∀ l ∈ s.performers t c h o.g false, l < (s.course t c).lanes.length →
    W.lane t c l = if traps l then s.lane t c l else (s.lane t c l).putReg o.ib o.d (res l).val
  uniform : ∀ k l, o.d = .k k → s.chosenLane t c h o.g = some l → traps l = true → (W.team t).k = (s.team t).k

/-- A write that leaves the lanes of the course alone. -/
theorem FlagsWritten.of_course {b W : State} {traps : Nat → Bool}
    (hb : Put { o with d := .none } false s t c h (fun _ L => L) (fun l => (res l).val) (s.flagsOr t c h o (fun l => (res l).flags)) h b)
    (hd : ∀ L v, Lane.putReg L o.ib o.d v = L) (hs : W.HasCourse t c) (hcourse : W.course t c = b.course t c)
    (huniform : ∀ k l, o.d = .k k → s.chosenLane t c h o.g = some l → traps l = true → W = b) : FlagsWritten o s t c h res traps W where
  fpsr := by
    obtain ⟨ls, hbc⟩ := hb.course
    rw [hcourse, hbc]
  hasCourse := hs
  length := by rw [hcourse, hb.length]
  lane l _ _ := by rw [State.lane, hcourse, hd, ite_self]; exact (hb.lanes l).trans (ite_self _)
  uniform k l hk hch htr := by rw [huniform k l hk hch htr]; exact hb.uniform.1

/-- A write in the lanes that do not trap. -/
theorem FlagsWritten.of_lanes {b : State} {traps : Nat → Bool}
    (hb : Put { o with d := .none } false s t c h (fun _ L => L) (fun l => (res l).val) (s.flagsOr t c h o (fun l => (res l).flags)) h b)
    (hd : ∀ k, o.d ≠ .k k) : FlagsWritten o s t c h res traps (((s.performers t c h o.g false).filter (fun l => !traps l)).foldl
      (fun w l => w.modLane t c l (fun L => L.putReg o.ib o.d (res l).val)) b) where
  fpsr := by
    obtain ⟨ls, hbc⟩ := hb.course
    rw [State.course_foldLanes_keep Course.fpsr b t c _ (fun _ _ _ => rfl), hbc]
  hasCourse := hb.has.foldLanes t c _ _
  length := (lanesFold_lengths b t c _ _ t c).trans hb.length
  lane l hl hlen := by
    have hbl : b.lane t c l = s.lane t c l := (hb.lanes l).trans (ite_self _)
    cases htr : traps l with
    | true => exact (State.lane_foldLanes_out b t c _ (fun x => by simp [htr] at x)).trans hbl
    | false =>
      have hmem : l ∈ (s.performers t c h o.g false).filter (fun l => !traps l) := List.mem_filter.2 ⟨hl, by rw [htr]; rfl⟩
      rw [State.lane_foldLanes_in hb.has _ ((performers_nodup s t c h o.g false).filter _) hmem (by rwa [hb.length]), hbl]
      rfl
  uniform k l hk _ _ := absurd hk (hd k)

/-- Flags first, then FPX in the lanes that raise an enabled one, then the destinations of the others (R123). -/
theorem write_flags (hr : Ready o p s t c h) (hone : p.one = false) : ∃ W, (readyRun o p s t c h).write res =
      { readyRun o p s t c h with s := W, flt := fpxFaults (readyRun o p s t c h) (s.enabled t) res } ∧
    FlagsWritten o s t c h res (fun l => (readyRun o p s t c h).trapping (s.enabled t) l (res l) != 0) W := by
  have hon : (readyRun o p s t c h).on = s.performers t c h o.g false := by rw [readyRun, hone]
  have hb := put_flags o false hr.cohort (fun l => (res l).val) (flagsOf (readyRun o p s t c h) res)
  unfold Run.write
  extract_lets raised r1 ten r2 ls e
  change Put _ _ s t c h _ _ _ _ r1.s at hb
  rw [flagsOf_readyRun hone] at hb
  have hr2 : r2 = { r1 with flt := fpxFaults (readyRun o p s t c h) (s.enabled t) res } := by
    refine (Run.check_eq r1 _ ?_ (fun l _ => Run.ok_of_nil rfl l)).trans ?_
    · exact (Run.good_of_nil (r := r1) rfl).trans hon ▸ performers_nodup s t c h o.g false
    · rw [Run.good_of_nil rfl]
      rfl
  have hok : ∀ l ∈ s.performers t c h o.g false, r2.ok l = !((readyRun o p s t c h).trapping (s.enabled t) l (res l) != 0) := fun l hl => by
    have hany : (fpxFaults (readyRun o p s t c h) (s.enabled t) res).any (fun x => x.1 == l) =
        ((readyRun o p s t c h).trapping (s.enabled t) l (res l) != 0) := by
      rw [Bool.eq_iff_iff, List.any_eq_true, bne_iff_ne, ne_eq, ← fpxFault_eq_none, ← ne_eq, Option.ne_none_iff_exists']
      constructor
      · rintro ⟨x, hx, hxl⟩
        rw [← beq_iff_eq.1 hxl]
        exact ⟨x.2, (mem_fpxFaults.1 hx).2⟩
      · rintro ⟨f, hf⟩
        exact ⟨(l, f), mem_fpxFaults.2 ⟨hon ▸ hl, hf⟩, beq_iff_eq.2 rfl⟩
    rw [Run.ok, hr2, hany]
  have hgood : r2.good = (s.performers t c h o.g false).filter
      (fun l => !((readyRun o p s t c h).trapping (s.enabled t) l (res l) != 0)) := by
    have hon2 : r2.on = s.performers t c h o.g false := by rw [hr2]; exact hon
    rw [Run.good, hon2]
    exact List.filter_congr hok
  have hod : r2.o.d = o.d := by rw [hr2]; rfl
  have hchosen : r2.chosen = s.chosenLane t c h o.g := by rw [hr2]; exact readyRun_chosen
  have hchosen_mem : ∀ l, s.chosenLane t c h o.g = some l → l ∈ s.performers t c h o.g false := fun l hl =>
    (State.mem_livePerf.1 (chosenLane_mem hl)).1
  rw [hod]
  cases hd : o.d with
  | k n =>
    rw [hchosen]
    have hputReg : ∀ L v, Lane.putReg L o.ib o.d v = L := fun L v => by rw [hd]; rfl
    have hnone : FlagsWritten o s t c h res (fun l => (readyRun o p s t c h).trapping (s.enabled t) l (res l) != 0) r1.s :=
      .of_course hb hputReg hb.has rfl (fun _ _ _ _ _ => rfl)
    cases hch : s.chosenLane t c h o.g with
    | none => exact ⟨r1.s, hr2, hnone⟩
    | some l =>
      dsimp only
      rw [hok l (hchosen_mem l hch)]
      cases htr : (readyRun o p s t c h).trapping (s.enabled t) l (res l) != 0 with
      | true => exact ⟨r1.s, hr2, hnone⟩
      | false =>
        have hcourses : ∀ T : Team, (T.kPut n (res l).val).courses = T.courses := fun T => by unfold Team.kPut; split <;> rfl
        refine ⟨r1.s.modTeam t (fun T => T.kPut n (res l).val), by rw [hr2]; rfl, .of_course hb hputReg
          (hb.has.modTeam t _ (fun T => by rw [hcourses])) ?_ (fun k m _ hm htr' => ?_)⟩
        · exact State.team_modTeam_keep (fun T => T.course c) r1.s t _ (fun T => by simp only [Team.course, hcourses]) t
        · obtain rfl : l = m := Option.some.inj (hch.symm.trans hm)
          exact absurd (htr.symm.trans htr') Bool.false_ne_true
  | eq n =>
    have hputReg : ∀ L v, Lane.putReg L o.ib o.d v = L := fun L v => by rw [hd]; rfl
    have hk : ∀ {W : State}, ∀ k l, o.d = .k k → s.chosenLane t c h o.g = some l →
        ((readyRun o p s t c h).trapping (s.enabled t) l (res l) != 0) = true → W = r1.s := fun k _ hk => by rw [hd] at hk; cases hk
    dsimp only
    split
    · exact ⟨r1.s, hr2, .of_course hb hputReg hb.has rfl hk⟩
    · exact ⟨r2.s.pushGroup r2.core r2.c e, by rw [hr2], .of_course hb hputReg (by rw [hr2]; exact hb.has) (by rw [hr2]; rfl) hk⟩
  | _ =>
    have hlanes := FlagsWritten.of_lanes (traps := fun l => (readyRun o p s t c h).trapping (s.enabled t) l (res l) != 0) hb (by simp [hd])
    refine ⟨_, ?_, hlanes⟩
    dsimp only
    rw [hgood, hr2, hd]
    rfl

theorem active_lt (hl : l ∈ s.performers t c h o.g false) : l < 32 := by
  have hguarded : l ∈ s.guarded t c h o.g := hl
  rw [State.guarded, State.activeOf, Course.active, List.mem_filter, List.mem_filter] at hguarded
  exact List.mem_range.1 hguarded.1.1

/-- The end of an instruction before its faults are delivered touches no live lane (R50, R64, R89). -/
theorem finish_steps (q : Run) : ∃ S, (∀ l, State.Steady (fun _ => ()) q.t q.c l q.s S) ∧
    (∀ {α : Type} (g : Lane → α) (l : Nat), (q.L l).cls = .live → State.Steady g q.t q.c l q.s S) ∧
    q.finish = if q.flt.isEmpty then S else S.deliver q.t q.c q.flt q.ip q.succ q.succIn q.issued := by
  unfold Run.finish
  extract_lets s1 s2 s3
  have hend : ∀ {α : Type} (g : Lane → α) (l : Nat), State.Steady g q.t q.c l s2 s3 := fun g l => by
    refine .modCourse (fun _ => ⟨?_, ?_⟩) s2 <;> rfl
  have heaten : ∀ {α : Type} (g : Lane → α) (l : Nat), State.Steady g q.t q.c l q.s s1 := fun g l => .of_eaten (eaten_consumeSrcs q)
  have hzero : ∀ {α : Type} (g : Lane → α) (l : Nat),
      (∀ x ∈ q.flt, (q.L x.1).cls = .helper → x.1 = l → ∀ L v, g (Lane.putReg L q.o.ib q.o.d v) = g L) →
      State.Steady g q.t q.c l s1 s2 := fun g l hg => .foldl (fun w x hx => by
    split
    · next hhelper =>
      simp only [Bool.and_eq_true, beq_iff_eq] at hhelper
      exact .modLane (fun e L => hg x hx hhelper.1.1.1 e L 0) w
    · exact .refl w) s1
  refine ⟨s3, fun l => ((heaten _ l).trans (hzero _ l (fun _ _ _ _ _ _ => rfl))).trans (hend _ l),
    fun g l hlive => ((heaten g l).trans (hzero g l (fun x _ hx e => ?_))).trans (hend g l), rfl⟩
  rw [e, hlive] at hx
  cases hx

/-- What the flags of an instruction's results leave: FPSR takes them, live lanes that raise an enabled one take FPX, and the others write
their destination (R123, R159). -/
theorem fpxIs_finish {W : State} (hone : p.one = false)
    (hW : FlagsWritten o s t c h res (fun l => (readyRun o p s t c h).trapping (s.enabled t) l (res l) != 0) W) :
    FpxIs o s t c h (fun l => (res l).val) (fun l => (res l).flags)
      ({ readyRun o p s t c h with s := W, flt := fpxFaults (readyRun o p s t c h) (s.enabled t) res } : Run).finish := by
  have hon : (readyRun o p s t c h).on = s.performers t c h o.g false := by rw [readyRun, hone]
  obtain ⟨S, hcourse, hlanes, hfin⟩ := finish_steps { readyRun o p s t c h with s := W, flt := fpxFaults (readyRun o p s t c h) (s.enabled t) res }
  replace hfin : ({ readyRun o p s t c h with s := W, flt := fpxFaults (readyRun o p s t c h) (s.enabled t) res } : Run).finish =
      if (fpxFaults (readyRun o p s t c h) (s.enabled t) res).isEmpty then S
      else S.deliver t c (fpxFaults (readyRun o p s t c h) (s.enabled t) res) h.pc h.succ h.succIn h.issued := hfin
  replace hcourse : ∀ l, State.Steady (fun _ => ()) t c l W S := hcourse
  rw [hfin]
  have hdeliver : State.Steady (fun _ => ()) t c 0 W (if (fpxFaults (readyRun o p s t c h) (s.enabled t) res).isEmpty then S
      else S.deliver t c (fpxFaults (readyRun o p s t c h) (s.enabled t) res) h.pc h.succ h.succIn h.issued) := by
    split
    · exact hcourse 0
    · exact (hcourse 0).trans (deliver_course ..)
  refine ⟨hdeliver.fpsr.trans hW.fpsr, fun l hl hlive hlen => ?_⟩
  have hW' := hW.lane l hl hlen
  have hS : ∀ {α : Type} (g : Lane → α), State.Steady g t c l W S := fun g => hlanes g l hlive
  have htrap : ∀ ten, (readyRun o p s t c h).trapping ten l (res l) = if s.counts t c h o l then (res l).flags &&& ten else 0 := fun ten => by
    rw [readyRun_trapping, State.judged_of_live hlive]
  extract_lets L L'
  split
  · next htraps =>
    obtain ⟨hcounts, hne⟩ := htraps
    have htr : (readyRun o p s t c h).trapping (s.enabled t) l (res l) ≠ 0 := by rw [htrap, if_pos hcounts]; exact hne
    rw [if_pos (bne_iff_ne.2 htr)] at hW'
    have hfault : fpxFault (readyRun o p s t c h) (s.enabled t) res l =
        some { cls := 0x12, reason := (res l).flags, detail := (res l).mask (s.enabled t) } := by
      rw [fpxFault, if_neg htr, readyRun_raised, if_pos hcounts]
    have hmem : (l, _) ∈ fpxFaults (readyRun o p s t c h) (s.enabled t) res := mem_fpxFaults.2 ⟨hon ▸ hl, hfault⟩
    have hsame := (hS (fun L => (L.cls, L.p, L.pE))).lane
    rw [hW', Prod.mk.injEq, Prod.mk.injEq] at hsame
    obtain ⟨hcls, hp, hpE⟩ := hsame
    have hview := deliver_trapView (ip := h.pc) hmem (fun x hx e => by
        have hx' := (mem_fpxFaults.1 hx).2
        rw [e, hfault] at hx'
        exact (Option.some.inj hx').symm) (active_lt hl) (hcls.trans hlive) ((hS id).hasCourse hW.hasCourse)
      (by rw [(hS id).length, hW.length]; exact hlen) h.succ h.succIn h.issued
    rw [hp, hpE] at hview
    have hne : (fpxFaults (readyRun o p s t c h) (s.enabled t) res).isEmpty = false := List.isEmpty_eq_false_iff.2 (List.ne_nil_of_mem hmem)
    have hL' : L'.trapView = (FltRec.view { cls := 0x12, reason := (res l).flags, detail := (res l).mask (s.enabled t) } h.pc, L.p, L.pE) := by
      rw [← hview]
      simp only [L', hne]
      rfl
    simp only [Lane.trapView, FltRec.view, Prod.mk.injEq] at hL'
    obtain ⟨⟨hcause, hpc, haddr, hinfo⟩, hp', hpE'⟩ := hL'
    refine ⟨hcause, hpc, haddr, hinfo, hp', hpE', fun k hk => ?_⟩
    have hch : s.chosenLane t c h o.g = some l := by
      have hcounts' := (Bool.and_eq_true_iff.1 hcounts).2
      rw [hk] at hcounts'
      exact beq_iff_eq.1 hcounts'
    rw [Team.kGet, Team.kGet, hdeliver.uniform, hW.uniform k l hk hch (bne_iff_ne.2 htr)]
  · next hquiet =>
    have htr : (readyRun o p s t c h).trapping (s.enabled t) l (res l) = 0 := by
      rw [htrap]
      split
      · next hcounts => exact not_not.1 (fun hne => hquiet ⟨hcounts, hne⟩)
      · rfl
    have hother : ∀ x ∈ fpxFaults (readyRun o p s t c h) (s.enabled t) res, x.1 ≠ l := fun x hx e => by
      have hx' := (mem_fpxFaults.1 hx).2
      rw [e, fpxFault_eq_none.2 htr] at hx'
      cases hx'
    have hsteady : State.Steady (fun L => (L.v, L.p)) t c l W (if (fpxFaults (readyRun o p s t c h) (s.enabled t) res).isEmpty then S
        else S.deliver t c (fpxFaults (readyRun o p s t c h) (s.enabled t) res) h.pc h.succ h.succIn h.issued) := by
      split
      · exact hS _
      · exact (hS _).trans (deliver_steady hother ..)
    have hsame := hsteady.lane
    rw [hW', htr, if_neg (show ¬((0 != 0) = true) by decide), Prod.mk.injEq] at hsame
    exact hsame

/-- An instruction in registers whose run writes results and finishes gives them with their flags. -/
theorem givesFlags_of_run {i : Instr} {R : Nat → Word → Nat → Prop} (hr : Ready o p s t c h) (hone : p.one = false)
    (hexec : exec i s = .next ((readyRun o p s t c h).write res).finish) (hR : ∀ l ∈ s.performers t c h o.g false, R l (res l).val (res l).flags) :
    GivesFlags i o s t c h R := by
  obtain ⟨W, hW, hwritten⟩ := write_flags (res := res) hr hone
  refine ⟨_, fun l => (res l).val, fun l => (res l).flags, hexec, hR, fun hquiet => ?_, hW ▸ fpxIs_finish hone hwritten⟩
  obtain ⟨W', hW', hput⟩ := write_put hr res (fun l hl => by
    rw [readyRun_trapping]
    rw [hone] at hl
    split
    · next hjudged =>
      obtain h0 | hq := hquiet
      · rw [h0, Nat.and_zero]
      · exact hq l hl hjudged
    · rfl)
  rw [hone, flagsOf_readyRun hone] at hput
  rw [hW']
  exact put_finish rfl rfl rfl hput

theorem givesFlags_of_aluRun {i : Instr} {R : Nat → Word → Nat → Prop} {res : Run → Nat → LRes} (hexec : exec i s = aluRun o p s res)
    (hr : Ready o p s t c h) (hone : p.one = false)
    (hR : ∀ l ∈ s.performers t c h o.g false, R l (res (readyRun o p s t c h) l).val (res (readyRun o p s t c h) l).flags) :
    GivesFlags i o s t c h R :=
  givesFlags_of_run hr hone (hexec.trans (aluRun_ready hr res)) hR

end Flags

end Sys2Proof.Machine

namespace Sys2Proof.Machine

/-! ## Rounding to the steps of a format (R112, R116) -/

section Rounding
variable {f : Fmt} {rm : RM} {s : Bool}

/-- The exponent of the least step of a format. -/
def Fmt.lo (f : Fmt) : Int := 1 - (f.bias : Int) - (f.t : Int)

theorem magOf_of_lt {c : Nat} (hc : c < 2 ^ f.t) : magOf f c = c * (2 : ℚ) ^ f.lo := by
  simp only [magOf, finMag, Nat.div_eq_of_lt hc, Nat.mod_eq_of_lt hc, if_true, Fmt.lo]

theorem magOf_normal {j : Nat} (hj : j < 2 ^ f.t) (E : Nat) : magOf f ((E + 1) * 2 ^ f.t + j) = (2 ^ f.t + j : Nat) * (2 : ℚ) ^ (f.lo + E) := by
  have hdiv : ((E + 1) * 2 ^ f.t + j) / 2 ^ f.t = E + 1 := by
    rw [Nat.add_comm, Nat.add_mul_div_right _ _ (Nat.two_pow_pos _), Nat.div_eq_of_lt hj, Nat.zero_add]
  have hmod : ((E + 1) * 2 ^ f.t + j) % 2 ^ f.t = j := by
    rw [Nat.add_comm, Nat.add_mul_mod_self_right, Nat.mod_eq_of_lt hj]
  simp only [magOf, finMag, hdiv, hmod, Nat.add_eq_zero_iff, one_ne_zero, and_false, if_false]
  congr 2
  rw [Fmt.lo]
  push_cast
  ring

/-- `j` steps of the binade whose last place has exponent `lo + E`; `j` may reach into the next binade's first step. -/
theorem magOf_steps {j E : Nat} (hj : j ≤ 2 ^ (f.t + 1)) (hE : E = 0 ∨ 2 ^ f.t ≤ j) : magOf f (E * 2 ^ f.t + j) = j * (2 : ℚ) ^ (f.lo + E) := by
  have hpow : 2 ^ (f.t + 1) = 2 ^ f.t + 2 ^ f.t := by rw [pow_succ]; omega
  by_cases hsub : j < 2 ^ f.t
  · obtain rfl : E = 0 := hE.resolve_right (by omega)
    simpa using magOf_of_lt hsub
  · by_cases htop : j = 2 ^ (f.t + 1)
    · have hnext := magOf_normal (f := f) (Nat.two_pow_pos f.t) (E + 1)
      have hcode : (E + 1 + 1) * 2 ^ f.t + 0 = E * 2 ^ f.t + j := by rw [htop, hpow]; ring
      rw [hcode] at hnext
      rw [hnext, htop]
      push_cast
      rw [← add_assoc, zpow_add_one₀ two_ne_zero]
      ring
    · have hnext := magOf_normal (f := f) (j := j - 2 ^ f.t) (by omega) E
      have hcode : (E + 1) * 2 ^ f.t + (j - 2 ^ f.t) = E * 2 ^ f.t + j := by rw [Nat.add_mul]; omega
      rwa [hcode, show 2 ^ f.t + (j - 2 ^ f.t) = j by omega] at hnext

/-- `n * 2^x` as a fraction. -/
theorem scaleQ_spec (n : Nat) (x : Int) : 0 < (scaleQ n x).2 ∧ ((scaleQ n x).1 : ℚ) = n * (2 : ℚ) ^ x * (scaleQ n x).2 := by
  unfold scaleQ
  split
  · next hx =>
    obtain ⟨k, rfl⟩ := Int.eq_ofNat_of_zero_le hx
    simp [Nat.shiftLeft_eq]
  · next hx =>
    obtain ⟨k, rfl⟩ : ∃ k : Nat, x = -(k : Int) := ⟨(-x).toNat, by omega⟩
    simp [Nat.shiftLeft_eq]

/-- Rounding of `n + r / d` units of size `u`, of which the steps `k` and `k + 1` are `n` and `n + 1`, for a magnitude that compares with
half units as `n + r / d` does. -/
theorem roundsTo_of_parts {M : Nat → ℚ} {lt eq : ℚ → Prop} {k n r d : Nat} {u : ℚ} (hr : r < d) (hk : M k = n * u)
    (hk' : M (k + 1) = (n + 1) * u) (hpar : k % 2 = n % 2) (hlt : ∀ j : Nat, lt (j * (u / 2)) ↔ j * d < 2 * (n * d + r))
    (heq : ∀ j : Nat, eq (j * (u / 2)) ↔ j * d = 2 * (n * d + r)) :
    RoundsTo M rm s lt eq (if roundUpQ rm s n r d then k + 1 else k) (r != 0) := by
  have hlow : M k = (2 * n : Nat) * (u / 2) := by rw [hk]; push_cast; ring
  have hhigh : M (k + 1) = (2 * (n + 1) : Nat) * (u / 2) := by rw [hk']; push_cast; ring
  have hmid : (M k + M (k + 1)) / 2 = (2 * n + 1 : Nat) * (u / 2) := by rw [hk, hk']; push_cast; ring
  have hexact : 2 * n * d = 2 * (n * d) := Nat.mul_assoc ..
  have hodd : (2 * n + 1) * d = 2 * (n * d) + d := by ring
  have heven : 2 * (n + 1) * d = 2 * (n * d) + 2 * d := by ring
  obtain rfl | hr0 := Nat.eq_zero_or_pos r
  · have hup : roundUpQ rm s n 0 d = false := by cases rm <;> simp [roundUpQ]; omega
    rw [if_neg (by rw [hup]; exact Bool.false_ne_true)]
    exact Or.inl ⟨rfl, by rw [hlow, heq]; omega⟩
  · have hne : (r != 0) = true := bne_iff_ne.2 hr0.ne'
    refine Or.inr ⟨hne, k, by rw [hlow, hlt]; omega, by rw [hhigh, hlt]; omega, by rw [hhigh, heq]; omega, ?_⟩
    have hltmid : lt ((M k + M (k + 1)) / 2) ↔ d < 2 * r := by rw [hmid, hlt]; omega
    have heqmid : eq ((M k + M (k + 1)) / 2) ↔ 2 * r = d := by rw [hmid, heq]; omega
    cases rm with
    | rne =>
      simp only [roundUpQ, hltmid, heqmid, hpar, Bool.or_eq_true, Bool.and_eq_true, decide_eq_true_eq, beq_iff_eq]
      split <;> simp [*]
    | rz => simp [roundUpQ]
    | ru => simp [roundUpQ, hne]
    | rd => simp [roundUpQ, hne]
    | rna =>
      have hor : d < 2 * r ∨ 2 * r = d ↔ d ≤ 2 * r := by omega
      simp [roundUpQ, hltmid, heqmid, hne, hor]

/-- Where the value `m * 2^x` compares, its fraction in units of `2^q` compares. -/
theorem half_units_lt (m : Nat) (x q : Int) (j : Nat) {num den : Nat} (h : scaleQ m (x - q) = (num, den)) :
    ((j : ℚ) * ((2 : ℚ) ^ q / 2) < m * (2 : ℚ) ^ x ↔ j * den < 2 * num) ∧ ((j : ℚ) * ((2 : ℚ) ^ q / 2) = m * (2 : ℚ) ^ x ↔ j * den = 2 * num) := by
  obtain ⟨hpos, hnum⟩ := scaleQ_spec m (x - q)
  rw [h] at hpos hnum
  have hq : (0 : ℚ) < (2 : ℚ) ^ q := by positivity
  have hden : (0 : ℚ) < den := by exact_mod_cast hpos
  have hval : (m : ℚ) * (2 : ℚ) ^ x * (2 * den) = 2 * num * (2 : ℚ) ^ q := by
    have hx : (2 : ℚ) ^ x = (2 : ℚ) ^ (x - q) * (2 : ℚ) ^ q := by rw [← zpow_add₀ two_ne_zero, sub_add_cancel]
    simp only at hnum
    rw [hnum, hx]
    ring
  have hj : (j : ℚ) * ((2 : ℚ) ^ q / 2) * (2 * den) = (j * den) * (2 : ℚ) ^ q := by ring
  have h2 : (0 : ℚ) < 2 * den := by positivity
  constructor
  · rw [← mul_lt_mul_iff_left₀ h2, hj, hval, mul_lt_mul_iff_left₀ hq]
    exact_mod_cast Iff.rfl
  · rw [← mul_left_inj' h2.ne', hj, hval, mul_left_inj' hq.ne']
    exact_mod_cast Iff.rfl

/-- R125: the integral value to which a magnitude rounds. -/
theorem roundInt_spec (m : Nat) (x : Int) :
    ∃ k inexact, RoundsTo (fun k => (k : ℚ)) rm s (· < m * (2 : ℚ) ^ x) (· = m * (2 : ℚ) ^ x) k inexact ∧
      roundInt rm s m x = (if s then -(k : Int) else k, inexact) := by
  obtain ⟨hpos, -⟩ := scaleQ_spec m x
  refine ⟨_, _, roundsTo_of_parts (n := (scaleQ m x).1 / (scaleQ m x).2) (u := 1) (k := (scaleQ m x).1 / (scaleQ m x).2)
    (Nat.mod_lt (scaleQ m x).1 hpos) (by simp) (by simp) rfl (fun j => ?_) (fun j => ?_), rfl⟩
  · rw [Nat.div_add_mod']
    simpa using (half_units_lt m x 0 j (by rw [sub_zero])).1
  · rw [Nat.div_add_mod']
    simpa using (half_units_lt m x 0 j (by rw [sub_zero])).2

theorem quantum_eq_max (f : Fmt) (ev : Int) : quantum f ev = max (ev - f.t) f.lo := by
  unfold quantum
  simp only [Fmt.lo]
  split <;> omega

/-- R116: the code to which a magnitude rounds that compares as `m * 2^x` with the multiples of half a unit in the last place. -/
theorem roundCode_spec (ht : 0 < f.t) {m : Nat} (hm : m ≠ 0) {x : Int} {lt eq : ℚ → Prop}
    (hlt : ∀ j : Nat, lt (j * ((2 : ℚ) ^ quantum f (log2N m + x) / 2)) ↔ (j : ℚ) * ((2 : ℚ) ^ quantum f (log2N m + x) / 2) < m * (2 : ℚ) ^ x)
    (heq : ∀ j : Nat, eq (j * ((2 : ℚ) ^ quantum f (log2N m + x) / 2)) ↔ (j : ℚ) * ((2 : ℚ) ^ quantum f (log2N m + x) / 2) = m * (2 : ℚ) ^ x) :
    RoundsTo (magOf f) rm s lt eq (roundCode f rm s m x).1 (roundCode f rm s m x).2 := by
  have hq := quantum_eq_max f (log2N m + x)
  unfold roundCode
  generalize quantum f (log2N m + x) = q at hq hlt heq ⊢
  obtain ⟨E, hE⟩ : ∃ E : Nat, q = f.lo + E := ⟨(q - f.lo).toNat, by omega⟩
  obtain ⟨hpos, hnum⟩ := scaleQ_spec m (x - q)
  rcases hsc : scaleQ m (x - q) with ⟨num, den⟩
  rw [hsc] at hpos hnum
  simp only at hpos hnum
  have hden : (0 : ℚ) < den := by exact_mod_cast hpos
  have hhalf := fun j => half_units_lt m x q j hsc
  have htop : num < 2 ^ (f.t + 1) * den := by
    have hm' : (m : ℚ) < (2 : ℚ) ^ ((log2N m : Int) + 1) := by exact_mod_cast Nat.lt_log2_self (n := m)
    have hlt' : (m : ℚ) * (2 : ℚ) ^ (x - q) < (2 : ℚ) ^ (f.t + 1) := by
      calc (m : ℚ) * (2 : ℚ) ^ (x - q) < (2 : ℚ) ^ ((log2N m : Int) + 1) * (2 : ℚ) ^ (x - q) := by gcongr
        _ = (2 : ℚ) ^ ((log2N m : Int) + 1 + (x - q)) := (zpow_add₀ two_ne_zero ..).symm
        _ ≤ (2 : ℚ) ^ ((f.t + 1 : Nat) : Int) := zpow_le_zpow_right₀ one_le_two (by omega)
        _ = _ := zpow_natCast ..
    have := mul_lt_mul_of_pos_right hlt' hden
    rw [← hnum] at this
    exact_mod_cast this
  have hbot : E = 0 ∨ 2 ^ f.t * den ≤ num := by
    refine or_iff_not_imp_left.2 (fun hE0 => ?_)
    have hm' : (2 : ℚ) ^ (log2N m : Int) ≤ m := by exact_mod_cast Nat.log2_self_le hm
    have hle : (2 : ℚ) ^ f.t ≤ (m : ℚ) * (2 : ℚ) ^ (x - q) := by
      calc (2 : ℚ) ^ f.t = (2 : ℚ) ^ ((log2N m : Int) + (x - q)) := by rw [← zpow_natCast]; congr 1; omega
        _ = (2 : ℚ) ^ (log2N m : Int) * (2 : ℚ) ^ (x - q) := zpow_add₀ two_ne_zero ..
        _ ≤ _ := by gcongr
    have := mul_le_mul_of_nonneg_right hle hden.le
    rw [← hnum] at this
    exact_mod_cast this
  have hn : num / den < 2 ^ (f.t + 1) := Nat.div_lt_of_lt_mul (by rwa [Nat.mul_comm])
  have hn' : E = 0 ∨ 2 ^ f.t ≤ num / den := hbot.imp_right (Nat.le_div_iff_mul_le hpos).2
  have hcode : ∀ b : Bool, (q - (1 - (f.bias : Int) - (f.t : Int))).toNat * 2 ^ f.t + (if b = true then num / den + 1 else num / den) =
      if b = true then E * 2 ^ f.t + num / den + 1 else E * 2 ^ f.t + num / den := fun b => by
    have hE' : (q - (1 - (f.bias : Int) - (f.t : Int))).toNat = E := by rw [Fmt.lo] at hE; omega
    rw [hE']
    cases b <;> simp [Nat.add_assoc]
  have hstep := roundsTo_of_parts (M := magOf f) (lt := lt) (eq := eq) (rm := rm) (s := s) (k := E * 2 ^ f.t + num / den) (n := num / den)
    (u := (2 : ℚ) ^ q) (Nat.mod_lt num hpos) (by rw [magOf_steps hn.le hn', hE])
    (by rw [Nat.add_assoc, magOf_steps hn (hn'.imp_right Nat.le_succ_of_le), hE]; push_cast; rfl) ?_
    (fun j => by rw [Nat.div_add_mod', ← (hhalf j).1, hlt]) (fun j => by rw [Nat.div_add_mod', ← (hhalf j).2, heq])
  · rw [← hcode] at hstep
    simpa only [hsc] using hstep
  · obtain ⟨t, ht'⟩ := Nat.exists_eq_add_of_lt ht
    rw [ht', Nat.zero_add, pow_succ, ← Nat.mul_assoc]
    omega

/-- What R117 and R118 make of the code to which a magnitude rounds. -/
theorem rounded_of_roundCode {ftz : Bool} {m : Nat} {x : Int} {sticky : Bool} (h0 : (m = 0 && !sticky) = false) {lt eq : ℚ → Prop}
    (h : RoundsTo (magOf f) rm s lt eq (roundCode f rm s (2 * m + bit sticky) (x - 1)).1 (roundCode f rm s (2 * m + bit sticky) (x - 1)).2) :
    Rounded f rm ftz s lt eq (roundF f rm ftz s m x sticky) := by
  refine ⟨_, _, h, ?_⟩
  have hsub : ∀ c : Nat, (c != 0 && decide (c < 2 ^ f.t)) = true ↔ 0 < c ∧ c < 2 ^ f.t := fun c => by simp [Nat.pos_iff_ne_zero]
  unfold roundF
  rw [h0, if_neg Bool.false_ne_true]
  simp only [hsub]

/-- R116 to R118: rounding of an exact nonzero value, with which `lt` and `eq` compare. -/
theorem roundF_rounded_of_compare (ht : 0 < f.t) {ftz : Bool} {m : Nat} (hm : m ≠ 0) {x : Int} {v : ℚ} (hv : v = m * (2 : ℚ) ^ x)
    {lt eq : ℚ → Prop} (hlt : ∀ q, 0 ≤ q → (lt q ↔ q < v)) (heq : ∀ q, 0 ≤ q → (eq q ↔ q = v)) :
    Rounded f rm ftz s lt eq (roundF f rm ftz s m x) := by
  have hval : ((2 * m + bit false : Nat) : ℚ) * (2 : ℚ) ^ (x - 1) = v := by
    rw [hv, zpow_sub_one₀ two_ne_zero]
    simp only [bit, Bool.false_eq_true, if_false]
    push_cast
    ring
  refine rounded_of_roundCode (by simp [hm]) (roundCode_spec ht (by simp [bit, hm]) (fun j => ?_) (fun j => ?_)) <;> rw [hval]
  · exact hlt _ (by positivity)
  · exact heq _ (by positivity)

/-- R116 to R118: rounding of an exact nonzero value. -/
theorem roundF_rounded (ht : 0 < f.t) {ftz : Bool} {m : Nat} (hm : m ≠ 0) {x : Int} {v : ℚ} (hv : v = m * (2 : ℚ) ^ x) :
    Rounded f rm ftz s (· < v) (· = v) (roundF f rm ftz s m x) :=
  roundF_rounded_of_compare ht hm hv (fun _ _ => Iff.rfl) (fun _ _ => Iff.rfl)

/-- R116 to R118: rounding of a value of which a positive amount below one unit was dropped, where enough bits are left. -/
theorem roundF_sticky_rounded (ht : 0 < f.t) {ftz : Bool} {m : Nat} (hm : f.t < log2N m) {x : Int} {lt eq : ℚ → Prop}
    (hlt : ∀ j : Nat, lt (j * (2 : ℚ) ^ x) ↔ j ≤ m) (heq : ∀ j : Nat, ¬eq (j * (2 : ℚ) ^ x)) :
    Rounded f rm ftz s lt eq (roundF f rm ftz s m x true) := by
  have hq := quantum_eq_max f (log2N (2 * m + bit true) + (x - 1))
  have hlog : log2N (2 * m + bit true) = log2N m + 1 := by
    have h0 : m ≠ 0 := fun h => by rw [h] at hm; exact absurd hm (by simp [log2N])
    rw [log2N, Nat.log2_eq_iff (by simp [bit])]
    have hle := Nat.log2_self_le h0
    have hlt' := Nat.lt_log2_self (n := m)
    rw [pow_succ, pow_succ] at *
    simp only [bit, if_true, log2N]
    omega
  have hhalf : ∀ j : Nat, ∃ i : Nat, (j : ℚ) * ((2 : ℚ) ^ quantum f (log2N (2 * m + bit true) + (x - 1)) / 2) = i * (2 : ℚ) ^ x := fun j => by
    obtain ⟨i, hi⟩ : ∃ i : Nat, quantum f (log2N (2 * m + bit true) + (x - 1)) = x + i + 1 :=
      ⟨(quantum f (log2N (2 * m + bit true) + (x - 1)) - x - 1).toNat, by omega⟩
    refine ⟨j * 2 ^ i, ?_⟩
    rw [hi, zpow_add_one₀ two_ne_zero, zpow_add₀ two_ne_zero, zpow_natCast]
    push_cast
    ring
  have hx : (0 : ℚ) < (2 : ℚ) ^ x := by positivity
  have hval : ((2 * m + bit true : Nat) : ℚ) * (2 : ℚ) ^ (x - 1) = (m + 1 / 2 : ℚ) * (2 : ℚ) ^ x := by
    rw [zpow_sub_one₀ two_ne_zero]
    simp only [bit, if_true]
    push_cast
    ring
  refine rounded_of_roundCode (by simp) (roundCode_spec ht (by simp [bit]) (fun j => ?_) (fun j => ?_)) <;> obtain ⟨i, hi⟩ := hhalf j <;>
    rw [hval, hi]
  · rw [hlt, mul_lt_mul_iff_left₀ hx]
    have hcast : (i : ℚ) < m + 1 / 2 ↔ ((2 * i : Nat) : ℚ) < (2 * m + 1 : Nat) := by
      push_cast
      constructor <;> intro h <;> linarith
    rw [hcast, Nat.cast_lt]
    omega
  · refine iff_of_false (heq i) ?_
    rw [mul_left_inj' hx.ne']
    intro h
    have hcast : ((2 * i : Nat) : ℚ) = (2 * m + 1 : Nat) := by
      push_cast
      linarith
    rw [Nat.cast_inj] at hcast
    omega

end Rounding
end Sys2Proof.Machine

namespace Sys2Proof.Machine

/-! ## Exact values: sums, products and order (R112, R116, R120) -/

section Exact
variable {f : Fmt} {rm : RM} {ftz : Bool}

theorem num_fin (s : Bool) (n : Nat) (x : Int) : (FV.fin s n x).num = (if s then -1 else 1) * (n : ℚ) * (2 : ℚ) ^ x := rfl

theorem abs_num_fin (s : Bool) (n : Nat) (x : Int) : |(FV.fin s n x).num| = n * (2 : ℚ) ^ x := by
  rw [num_fin]
  cases s
  · simp
  · simp [abs_mul]

theorem num_neg_iff (s : Bool) {n : Nat} (hn : n ≠ 0) (x : Int) : (FV.fin s n x).num < 0 ↔ s = true := by
  have hpos : (0 : ℚ) < n * (2 : ℚ) ^ x := by positivity
  rw [num_fin, mul_assoc]
  cases s
  · simpa using hpos.le
  · simpa using hpos

theorem num_eq_zero_iff (s : Bool) (n : Nat) (x : Int) : (FV.fin s n x).num = 0 ↔ n = 0 := by
  rw [← abs_eq_zero, abs_num_fin]
  simp [zpow_ne_zero]

/-- Rounding of a finite nonzero value, from its sign, its magnitude and its exponent. -/
theorem roundF_roundedQ (ht : 0 < f.t) (s : Bool) {n : Nat} (hn : n ≠ 0) (x : Int) : RoundedQ f rm ftz (FV.fin s n x).num (roundF f rm ftz s n x) := by
  have hs : decide ((FV.fin s n x).num < 0) = s := by
    rw [Bool.eq_iff_iff, decide_eq_true_iff]
    exact num_neg_iff s hn x
  rw [RoundedQ, hs]
  exact roundF_rounded ht hn (abs_num_fin s n x)

theorem num_dyInt (s : Bool) (n : Nat) {x x0 : Int} (h : x0 ≤ x) : (dyInt s n x x0 : ℚ) * (2 : ℚ) ^ x0 = (FV.fin s n x).num := by
  obtain ⟨k, rfl⟩ : ∃ k : Nat, x = x0 + k := ⟨(x - x0).toNat, by omega⟩
  rw [num_fin, zpow_add₀ two_ne_zero, zpow_natCast, dyInt, show x0 + (k : Int) - x0 = k by omega, Int.toNat_natCast, Nat.shiftLeft_eq]
  cases s <;> simp only [if_true, if_false, Bool.false_eq_true] <;> push_cast <;> ring

/-- The sum that `sumF` rounds is exact. -/
theorem sum_dyInt (terms : List (Bool × Nat × Int)) (x0 : Int) (h : ∀ t ∈ terms, x0 ≤ t.2.2) (a : Int) :
    ((terms.foldl (fun a t => a + dyInt t.1 t.2.1 t.2.2 x0) a : Int) : ℚ) * (2 : ℚ) ^ x0 =
      a * (2 : ℚ) ^ x0 + (terms.map (fun t => (FV.fin t.1 t.2.1 t.2.2).num)).sum := by
  induction terms generalizing a with
  | nil => simp
  | cons t ts ih =>
    rw [List.foldl_cons, ih (fun u hu => h u (by simp [hu])), List.map_cons, List.sum_cons, ← num_dyInt t.1 t.2.1 (h t (by simp))]
    push_cast
    ring

theorem foldl_min_le (terms : List (Bool × Nat × Int)) (a : Int) :
    terms.foldl (fun a t => if t.2.2 < a then t.2.2 else a) a ≤ a ∧ ∀ t ∈ terms, terms.foldl (fun a t => if t.2.2 < a then t.2.2 else a) a ≤ t.2.2 := by
  induction terms generalizing a with
  | nil => simp
  | cons t ts ih =>
    obtain ⟨hle, hmem⟩ := ih (if t.2.2 < a then t.2.2 else a)
    rw [List.foldl_cons]
    have hmin : (if t.2.2 < a then t.2.2 else a) ≤ a ∧ (if t.2.2 < a then t.2.2 else a) ≤ t.2.2 := by split <;> omega
    refine ⟨hle.trans hmin.1, fun u hu => ?_⟩
    obtain rfl | hu := List.mem_cons.1 hu
    · exact hle.trans hmin.2
    · exact hmem u hu

theorem ite_bool_nested (a b c : Bool) : (a || (!b && c)) = if a = true then true else if b = true then false else c := by
  cases a <;> cases b <;> rfl

/-- R120: finite terms are summed exactly and rounded once; the sign of a zero sum is that of its terms where they agree. -/
theorem sumF_spec (ht : 0 < f.t) (terms : List (Bool × Nat × Int)) :
    let ts := terms.map (fun t => FV.fin t.1 t.2.1 t.2.2)
    if (ts.map FV.num).sum = 0 then
      sumF f rm ftz terms = (withSign f (if ts.all FV.isZero && ts.all FV.sign then true
        else if ts.all FV.isZero && ts.all (fun v => !v.sign) then false else rm == .rd) 0, 0)
    else RoundedQ f rm ftz (ts.map FV.num).sum (sumF f rm ftz terms) := by
  intro ts
  unfold sumF
  extract_lets x0 z allZero neg pos
  have hmin : ∀ t ∈ terms, x0 ≤ t.2.2 := (foldl_min_le terms _).2
  have hsum : (z : ℚ) * (2 : ℚ) ^ x0 = (0 : Int) * (2 : ℚ) ^ x0 + (terms.map (fun t => (FV.fin t.1 t.2.1 t.2.2).num)).sum := sum_dyInt terms x0 hmin 0
  clear_value z x0
  have hx0 : (2 : ℚ) ^ x0 ≠ 0 := zpow_ne_zero _ two_ne_zero
  have hnum : (ts.map FV.num).sum = z * (2 : ℚ) ^ x0 := by
    rw [hsum]
    simp [ts, Function.comp_def]
  have hz : (ts.map FV.num).sum = 0 ↔ z = 0 := by
    rw [hnum, mul_eq_zero, or_iff_left hx0, Int.cast_eq_zero]
  rw [if_congr hz rfl rfl]
  split
  · next h0 =>
    rw [← ite_bool_nested]
    simp only [neg, pos, allZero, ts, List.all_map, Function.comp_def, FV.isZero, FV.sign]
  · next h0 =>
    have hval : (ts.map FV.num).sum = (FV.fin (decide (z < 0)) z.natAbs x0).num := by
      rw [hnum, num_fin]
      congr 1
      obtain hneg | hpos := lt_or_ge z 0
      · simp [hneg, Nat.cast_natAbs, abs_of_neg hneg]
      · simp [not_lt.2 hpos, Nat.cast_natAbs, abs_of_nonneg hpos]
    rw [hval]
    exact roundF_roundedQ ht _ (Int.natAbs_ne_zero.2 h0) _

/-- R117, R119, R120: a sum of values that are no NaN, one of which may be infinite. -/
theorem sumFV_spec (ht : 0 < f.t) (hi : f.hasInf = true) {l : List FV} (hn : l.any FV.isNan = false) : SumIs f rm ftz l (sumFV f rm ftz l) := by
  have hany : l.any FV.isInf = (l.any (fun v => v.isInf && v.sign) || l.any (fun v => v.isInf && !v.sign)) := by
    induction l with
    | nil => rfl
    | cons v l ih =>
      rw [List.any_cons, Bool.or_eq_false_iff] at hn
      simp only [List.any_cons, ih hn.2]
      cases v.isInf <;> cases v.sign <;> simp
  unfold SumIs sumFV
  rw [hany]
  cases hneg : l.any (fun v => v.isInf && v.sign) <;> cases hpos : l.any (fun v => v.isInf && !v.sign) <;>
    simp only [Bool.and_true, Bool.and_false, Bool.or_true, Bool.or_false, Bool.false_eq_true, if_true, if_false, infRes, hi]
  have hfin : (l.map (fun v => match v with | .fin s n x => (s, n, x) | _ => (false, 0, 0))).map (fun t : Bool × Nat × Int => FV.fin t.1 t.2.1 t.2.2) = l := by
    rw [hneg, hpos] at hany
    rw [List.map_map]
    conv_rhs => rw [← List.map_id l]
    refine List.map_congr_left (fun v hv => ?_)
    have hnan := List.any_eq_false.1 hn v hv
    have hinf := List.any_eq_false.1 hany v hv
    cases v with
    | nan => exact absurd rfl hnan
    | inf => exact absurd rfl hinf
    | fin => rfl
  have hspec := sumF_spec (f := f) (rm := rm) (ftz := ftz) ht (l.map (fun v => match v with | .fin s n x => (s, n, x) | _ => (false, 0, 0)))
  rw [hfin] at hspec
  exact hspec

/-! ### The float operations on elements (R139) -/

theorem sigNV_eq (vs : List FV) (f : Fmt) : nanRes f (sigNV vs) = nanOf f vs := rfl

theorem any_isNan_pair (a b : FV) : [a, b].any FV.isNan = (a.isNan || b.isNan) := by simp

theorem isNan_negate (a : FV) : a.negate.isNan = a.isNan := by cases a <;> rfl
theorem isSig_negate (a : FV) : a.negate.isSig = a.isSig := by cases a <;> rfl

/-- Two values are added as a list of two. -/
theorem addFV_eq_sumFV {a b : FV} (hn : [a, b].any FV.isNan = false) : addFV f rm ftz a b = sumFV f rm ftz [a, b] := by
  cases a with
  | nan => simp [FV.isNan] at hn
  | inf s =>
    cases b with
    | nan => simp [FV.isNan] at hn
    | inf t => cases s <;> cases t <;> rfl
    | fin => cases s <;> rfl
  | fin =>
    cases b with
    | nan => simp [FV.isNan] at hn
    | inf t => cases t <;> rfl
    | fin => rfl

/-- R139: the sum of two values, one of which may be a NaN. -/
theorem add_spec (ht : 0 < f.t) (hi : f.hasInf = true) (a b : FV) :
    if a.isNan || b.isNan then (if a.isNan || b.isNan then nanRes f (sigNV [a, b]) else addFV f rm ftz a b) = nanOf f [a, b]
    else SumIs f rm ftz [a, b] (if a.isNan || b.isNan then nanRes f (sigNV [a, b]) else addFV f rm ftz a b) := by
  split
  · rfl
  · next hn =>
    rw [Bool.not_eq_true, ← any_isNan_pair] at hn
    rw [addFV_eq_sumFV hn]
    exact sumFV_spec ht hi hn

theorem num_mul (s t : Bool) (n m : Nat) (x y : Int) : (FV.fin (s != t) (n * m) (x + y)).num = (FV.fin s n x).num * (FV.fin t m y).num := by
  simp only [num_fin, zpow_add₀ (two_ne_zero (α := ℚ)), Nat.cast_mul]
  cases s <;> cases t <;> simp <;> ring

theorem roundF_zero (s : Bool) (x : Int) : roundF f rm ftz s 0 x = (withSign f s 0, 0) := rfl

/-- R139: the product, rounded once. -/
theorem fmulE_spec (ht : 0 < f.t) (hi : f.hasInf = true) (x y : Nat) :
    let a := srcF f ftz x
    let b := srcF f ftz y
    if a.isNan || b.isNan then fmulE f rm ftz x y = nanOf f [a, b]
    else if (a.isZero && b.isInf) || (a.isInf && b.isZero) then fmulE f rm ftz x y = nanRes f fNV
    else if a.isInf || b.isInf then fmulE f rm ftz x y = (withSign f (a.sign != b.sign) (fmtInf f), 0)
    else if a.isZero || b.isZero then fmulE f rm ftz x y = (withSign f (a.sign != b.sign) 0, 0)
    else RoundedQ f rm ftz (a.num * b.num) (fmulE f rm ftz x y) := by
  intro a b
  have hE : fmulE f rm ftz x y = match a, b with
    | .nan _, _ => nanRes f (sigNV [a, b])
    | _, .nan _ => nanRes f (sigNV [a, b])
    | .fin s n x, .fin t m y => roundF f rm ftz (s != t) (n * m) (x + y)
    | _, _ => if a.isZero || b.isZero then nanRes f fNV else infRes f (a.sign != b.sign) 0 := rfl
  rw [hE]
  generalize a = a, b = b
  cases a with
  | nan => simp [FV.isNan, sigNV_eq]
  | inf s =>
    cases b with
    | nan => simp [FV.isNan, sigNV_eq]
    | inf t => simp [FV.isNan, FV.isZero, FV.isInf, infRes, hi]
    | fin t m y => cases hm : m == 0 <;> simp [FV.isNan, FV.isZero, FV.isInf, infRes, hi, hm]
  | fin s n x =>
    cases b with
    | nan => simp [FV.isNan, sigNV_eq]
    | inf t => cases hn : n == 0 <;> simp [FV.isNan, FV.isZero, FV.isInf, infRes, hi, hn]
    | fin t m y =>
      by_cases h0 : n * m = 0
      · have hz : n = 0 ∨ m = 0 := Nat.mul_eq_zero.1 h0
        simp [FV.isNan, FV.isZero, FV.isInf, FV.sign, hz, h0, roundF_zero]
      · have hz : ¬(n = 0 ∨ m = 0) := fun h => h0 (Nat.mul_eq_zero.2 h)
        simp only [FV.isNan, FV.isZero, FV.isInf, Bool.or_self, Bool.and_false, Bool.false_and, Bool.false_eq_true, if_false, Bool.or_eq_true,
          beq_iff_eq, hz, ← num_mul]
        exact roundF_roundedQ ht _ h0 _

theorem prodFV_eq {a b : FV} (hbad : ((a.isZero && b.isInf) || (a.isInf && b.isZero)) = false) (ha : a.isNan = false) (hb : b.isNan = false) :
    prodFV a b = some (prodV a b) := by
  cases a <;> cases b <;> simp_all [prodFV, prodV, FV.isNan, FV.isZero, FV.isInf]

theorem isNan_prodV (a b : FV) : (prodV a b).isNan = false := by
  unfold prodV
  split <;> rfl

theorem sigNV_or_fNV (vs : List FV) : sigNV vs ||| fNV = fNV := by
  unfold sigNV
  split <;> rfl

/-- R139, R145: a sum of products and an addend, rounded once. -/
theorem fmaFV_spec (ht : 0 < f.t) (hi : f.hasInf = true) (ps : List (FV × FV)) (c : FV) : FmaIs f rm ftz ps c (fmaFV f rm ftz ps c) := by
  unfold FmaIs fmaFV
  intro all
  extract_lets nv bad
  split
  · rw [sigNV_or_fNV]
  · next hbad =>
    split
    · rfl
    · next hn =>
      rw [Bool.not_eq_true, List.any_eq_false] at hn hbad
      have hnan : ∀ v ∈ all, v.isNan = false := fun v hv => Bool.eq_false_iff.2 (hn v hv)
      have hprod : ps.map (fun p => (prodFV p.1 p.2).getD (.fin false 0 0)) = ps.map (fun p => prodV p.1 p.2) :=
        List.map_congr_left (fun p hp => by
          have hfac : ∀ v ∈ [p.1, p.2], v.isNan = false := fun v hv => hnan v (by
            simp only [all, List.mem_cons, List.mem_flatMap]
            exact Or.inr ⟨p, hp, by simpa using hv⟩)
          rw [prodFV_eq (Bool.eq_false_iff.2 (hbad p hp)) (hfac _ (by simp)) (hfac _ (by simp))]
          rfl)
      rw [hprod]
      refine sumFV_spec ht hi (List.any_eq_false.2 (fun v hv => ?_))
      rw [Bool.not_eq_true]
      obtain hv | hv := List.mem_append.1 hv
      · obtain ⟨p, -, rfl⟩ := List.mem_map.1 hv
        exact isNan_prodV ..
      · exact hnan v (by simp_all [all])

end Exact
end Sys2Proof.Machine

namespace Sys2Proof.Machine

/-! ## Float instructions over elements (R123, R139) -/

theorem packBits_append_zeros (w : Nat) (els : List Nat) (k : Nat) : packBits w (els ++ List.replicate k 0) = packBits w els := by
  induction els with
  | nil =>
    induction k with
    | zero => rfl
    | succ k ih =>
      rw [List.nil_append] at ih ⊢
      have hstep : packBits w (List.replicate (k + 1) 0) = 0 % 2 ^ w + 2 ^ w * packBits w (List.replicate k 0) := rfl
      rw [hstep, ih, packBits, Nat.zero_mod, Nat.mul_zero]
  | cons x xs ih => rw [List.cons_append, packBits, ih, packBits]

theorem place_append_zeros (ty : Ty) (els : List Nat) (k : Nat) : place ty (els ++ List.replicate k 0) = place ty els := by
  have hhead : (els ++ List.replicate k 0).headD 0 = els.headD 0 := by
    cases els with
    | nil => cases k <;> rfl
    | cons => rfl
  rw [place, place, packBits_append_zeros, hhead]

theorem foldl_or_zeros (k a : Nat) : (List.replicate k (0, 0)).foldl (fun a (x : FRes) => a ||| x.2) a = a := by
  induction k with
  | zero => rfl
  | succ k ih => rw [List.replicate_succ, List.foldl_cons, Nat.or_zero, ih]

/-- The first `n` elements of a result, which `g` gives; the others are zeros and raise nothing. -/
theorem fltRes_holds {ty : Ty} {n : Nat} (hn : n ≤ tyN ty) {g : Nat → FRes} (hg : ∀ k, k < n → (g k).1 < 2 ^ tyW ty) :
    Holds ty (fltRes ty ((List.range n).map g)).val (fun k => (if k < n then g k else (0, 0)).1) ∧
    (fltRes ty ((List.range n).map g)).flags = flagsOfElems (tyN ty) (fun k => if k < n then g k else (0, 0)) := by
  have hels : (List.range (tyN ty)).map (fun k => if k < n then g k else (0, 0)) = (List.range n).map g ++ List.replicate (tyN ty - n) (0, 0) := by
    obtain ⟨m, hm⟩ := Nat.exists_eq_add_of_le hn
    rw [hm, List.range_add, List.map_append, Nat.add_sub_cancel_left, List.map_map]
    congr 1
    · exact List.map_congr_left (fun k hk => if_pos (List.mem_range.1 hk))
    · exact List.eq_replicate_iff.2 ⟨by simp, fun x hx => by
        obtain ⟨j, -, rfl⟩ := List.mem_map.1 hx
        simp⟩
  constructor
  · have hplace := holds_place ty (fun k => (if k < n then g k else (0, 0)).1) (fun k _ => by
      split
      · exact hg k ‹_›
      · exact Nat.two_pow_pos _)
    have hval : (idxs ty).map (fun k => (if k < n then g k else (0, 0)).1) = ((List.range n).map g).map (·.1) ++ List.replicate (tyN ty - n) 0 := by
      have := congrArg (List.map Prod.fst) hels
      rwa [List.map_map, List.map_append, List.map_replicate] at this
    rwa [hval, place_append_zeros] at hplace
  · rw [flagsOfElems, hels, List.foldl_append, foldl_or_zeros]
    rfl

section
variable {i : Instr} {o : Ops} {s : State} {t c : Nat} {h : Cohort} {ty : Ty} {R : Nat → Nat → FRes → Prop}

/-- An instruction whose results are the elements `g`, as many as the type has or fewer, gives them with their flags. -/
theorem givesFloat_of_range {n : Nat} (hn : n ≤ tyN ty) {g : Run → Nat → Nat → FRes}
    (hexec : exec i s = aluRun o {} s (fun r l => fltRes ty ((List.range n).map (g r l)))) (hr : Ready o plainPro s t c h)
    (hlt : ∀ l k, k < n → (g (readyRun o {} s t c h) l k).1 < 2 ^ tyW ty)
    (hR : ∀ l k, k < tyN ty → R l k (if k < n then g (readyRun o {} s t c h) l k else (0, 0))) : GivesFloat i o s t c h ty R :=
  givesFlags_of_aluRun hexec hr rfl (fun l _ => by
    obtain ⟨hholds, hflags⟩ := fltRes_holds hn (hlt l)
    exact ⟨_, hholds, hflags, hR l⟩)

/-- An instruction whose results are the elements `g` gives them with their flags. -/
theorem givesFloat_of_fltMap {g : Run → Nat → Nat → FRes} (hexec : exec i s = aluRun o {} s (fun r l => fltMap ty (g r l)))
    (hr : Ready o plainPro s t c h)
    (hR : ∀ l k, (g (readyRun o {} s t c h) l k).1 < 2 ^ tyW ty ∧ R l k (g (readyRun o {} s t c h) l k)) : GivesFloat i o s t c h ty R :=
  givesFloat_of_range le_rfl hexec hr (fun l k _ => (hR l k).1) (fun l k hk => by rw [if_pos hk]; exact (hR l k).2)

end

/-! ### What the rules of rounding give is a pattern of the format -/

theorem withSign_zero_lt (f : Fmt) (sg : Bool) : withSign f sg 0 < 2 ^ fmtW f := withSign_lt (Nat.two_pow_pos _) sg

section Widths
variable {f : Fmt} {rm : RM} {ftz sg : Bool} {r : FRes} (hf : f.Fits)
include hf

theorem Rounded.lt {lt eq : ℚ → Prop} (h : Rounded f rm ftz sg lt eq r) : r.1 < 2 ^ fmtW f := by
  obtain ⟨c, inexact, -, rfl⟩ := h
  split
  · exact ovfRes_lt hf rm sg
  next hmax =>
  have hc : c < 2 ^ (f.e + f.t) := (Nat.le_of_not_lt hmax).trans_lt hf.max
  split
  · split
    · exact withSign_lt (Nat.two_pow_pos _) sg
    · exact withSign_lt hc sg
  · exact withSign_lt hc sg

theorem RoundedQ.lt {v : ℚ} (h : RoundedQ f rm ftz v r) : r.1 < 2 ^ fmtW f := Rounded.lt hf h

theorem nanOf_lt (vs : List FV) : (nanOf f vs).1 < 2 ^ fmtW f := nanRes_lt hf _

theorem withSign_inf_lt (hi : f.hasInf = true) (sg : Bool) : withSign f sg (fmtInf f) < 2 ^ fmtW f := withSign_lt (hf.inf hi) sg

theorem SumIs.lt (hi : f.hasInf = true) {ts : List FV} (h : SumIs f rm ftz ts r) : r.1 < 2 ^ fmtW f := by
  unfold SumIs at h
  split at h
  · exact h ▸ nanRes_lt hf _
  split at h
  · exact h ▸ withSign_inf_lt hf hi _
  split at h
  · exact h ▸ withSign_zero_lt f _
  · exact h.lt hf

theorem FmaIs.lt (hi : f.hasInf = true) {ps : List (FV × FV)} {v : FV} (h : FmaIs f rm ftz ps v r) : r.1 < 2 ^ fmtW f := by
  unfold FmaIs at h
  extract_lets all at h
  split at h
  · exact h ▸ nanRes_lt hf _
  split at h
  · exact h ▸ nanOf_lt hf _
  · exact h.lt hf hi

end Widths

/-! ## The arithmetic of R139 -/

theorem tyFmt_t_pos (ty : Ty) : 0 < (tyFmt ty).t := by cases ty <;> decide

theorem unpackF_eq_srcF (f : Fmt) (ftz : Bool) (a : Nat) : unpackF f (ftzSrc f ftz a) = srcF f ftz a := rfl

theorem any_isSig_negate (a b : FV) : [a, b.negate].any FV.isSig = [a, b].any FV.isSig := by simp [isSig_negate]

/-- Settles O10: finite sums and products are dyadic, so one rounding of the exact integer in units of the least exponent is the rounding of
R116; what the flags of the lanes leave is `givesFlags_of_run`. -/
theorem floatArithmetic : Obligations.FloatArithmetic := by
  intro o m s t c h hr hflt f A B C sum
  obtain ⟨-, hinf, -⟩ := tyFlt_fmt hflt
  have ht := tyFmt_t_pos m.ty
  have hfits := tyFmt_fits m.ty
  have hsum : ∀ a b : FV, sum a b (if a.isNan || b.isNan then nanRes f (sigNV [a, b]) else addFV f m.rm m.ftz a b) := add_spec ht hinf
  have hsum_lt : ∀ a b r, sum a b r → r.1 < 2 ^ tyW m.ty := fun a b r hs => by
    rw [← fmtW_eq_tyW hflt]
    simp only [sum] at hs
    split at hs
    · exact hs ▸ nanOf_lt hfits _
    · exact hs.lt hfits hinf
  refine ⟨?_, ?_, ?_, ?_⟩
  · exact givesFloat_of_fltMap (g := fun r l k => faddE f m.rm m.ftz false (r.ea m.ty l k) (r.eb m.ty l k)) rfl hr
      (fun l k => ⟨hsum_lt _ _ _ (hsum (A l k) (B l k)), hsum (A l k) (B l k)⟩)
  · have hsub : ∀ l k, sum (A l k) (B l k).negate
        (faddE f m.rm m.ftz true (s.srcElem t c l o m.ty o.a.op k) (s.srcElem t c l o m.ty o.b.op k)) := fun l k => by
      have := hsum (A l k) (B l k).negate
      rw [isNan_negate, sigNV, any_isSig_negate] at this
      exact this
    exact givesFloat_of_fltMap (g := fun r l k => faddE f m.rm m.ftz true (r.ea m.ty l k) (r.eb m.ty l k)) rfl hr
      (fun l k => ⟨hsum_lt _ _ _ (hsub l k), hsub l k⟩)
  · refine givesFloat_of_fltMap (g := fun r l k => fmulE f m.rm m.ftz (r.ea m.ty l k) (r.eb m.ty l k)) rfl hr (fun l k => ?_)
    have hmul := fmulE_spec (rm := m.rm) (ftz := m.ftz) ht hinf (s.srcElem t c l o m.ty o.a.op k) (s.srcElem t c l o m.ty o.b.op k)
    refine ⟨?_, hmul⟩
    change (fmulE f m.rm m.ftz (s.srcElem t c l o m.ty o.a.op k) (s.srcElem t c l o m.ty o.b.op k)).1 < _
    rw [← fmtW_eq_tyW hflt]
    extract_lets a b at hmul
    split at hmul
    · exact hmul ▸ nanOf_lt hfits _
    split at hmul
    · exact hmul ▸ nanRes_lt hfits _
    split at hmul
    · exact hmul ▸ withSign_inf_lt hfits hinf _
    split at hmul
    · exact hmul ▸ withSign_zero_lt _ _
    · exact hmul.lt hfits
  · have hfma : ∀ l k, FmaIs f m.rm m.ftz [(A l k, B l k)] (C l k)
        (ffmaE f m.rm m.ftz (s.srcElem t c l o m.ty o.a.op k) (s.srcElem t c l o m.ty o.b.op k) (s.srcElem t c l o m.ty o.c.op k)) :=
      fun l k => fmaFV_spec ht hinf _ _
    exact givesFloat_of_fltMap (g := fun r l k => ffmaE f m.rm m.ftz (r.ea m.ty l k) (r.eb m.ty l k) (r.ec m.ty l k)) rfl hr
      (fun l k => ⟨fmtW_eq_tyW hflt ▸ (hfma l k).lt hfits hinf, hfma l k⟩)

end Sys2Proof.Machine

namespace Sys2Proof.Machine

/-! ## Patterns and representable values (R112, R116) -/

section Patterns
variable {f : Fmt} {rm : RM} {s : Bool}

/-- The steps of a format rise (R116). -/
theorem magOf_strictMono (f : Fmt) : StrictMono (magOf f) := by
  refine strictMono_nat_of_lt_succ (fun c => ?_)
  have hpow : 2 ^ (f.t + 1) = 2 ^ f.t + 2 ^ f.t := by rw [pow_succ]; omega
  obtain ⟨E, j, hj, hE, rfl⟩ : ∃ E j, j < 2 ^ (f.t + 1) ∧ (E = 0 ∨ 2 ^ f.t ≤ j) ∧ c = E * 2 ^ f.t + j := by
    have hmod := Nat.mod_lt c (Nat.two_pow_pos f.t)
    have hdiv := Nat.div_add_mod' c (2 ^ f.t)
    cases hE : c / 2 ^ f.t with
    | zero => exact ⟨0, c % 2 ^ f.t, by omega, Or.inl rfl, by rw [← hE, hdiv]⟩
    | succ E => exact ⟨E, 2 ^ f.t + c % 2 ^ f.t, by omega, Or.inr (by omega), by rw [← add_assoc, ← Nat.succ_mul, Nat.succ_eq_add_one, ← hE, hdiv]⟩
  rw [Nat.add_assoc, magOf_steps hj.le hE, magOf_steps hj (hE.imp_right Nat.le_succ_of_le)]
  have hu : (0 : ℚ) < (2 : ℚ) ^ (f.lo + E) := by positivity
  gcongr
  omega

/-- A magnitude that is a step rounds to it. -/
theorem RoundsTo.exact {M : Nat → ℚ} (hM : StrictMono M) {c c' : Nat} {inexact : Bool} (h : RoundsTo M rm s (· < M c) (· = M c) c' inexact) :
    c' = c ∧ inexact = false := by
  obtain ⟨hex, heq⟩ | ⟨-, k, hlt, hle, hne, -⟩ := h
  · exact ⟨hM.injective heq, hex⟩
  · have h1 := hM.lt_iff_lt.1 hlt
    have h2 := hM.lt_iff_lt.not.1 hle
    have h3 : k + 1 ≠ c := fun e => hne (congrArg M e)
    omega

/-- What rounds from below a step stays at or below it. -/
theorem RoundsTo.le {M : Nat → ℚ} (hM : StrictMono M) {v : ℚ} {c c' : Nat} {inexact : Bool} (h : RoundsTo M rm s (· < v) (· = v) c' inexact)
    (hv : v ≤ M c) : c' ≤ c := by
  obtain ⟨-, heq⟩ | ⟨-, k, hlt, -, -, hup⟩ := h
  · exact hM.le_iff_le.1 (heq.trans_le hv)
  · have hk : k < c := hM.lt_iff_lt.1 (lt_of_lt_of_le hlt hv)
    obtain ⟨hyes, hno⟩ := hup
    by_cases hc : c' = k + 1
    · omega
    · rw [hno (mt hyes hc)]
      exact hk.le

/-- A representable value rounds to itself and raises nothing. -/
theorem roundF_exact (ht : 0 < f.t) {m c : Nat} {x : Int} (hm : m ≠ 0) (hv : (m : ℚ) * (2 : ℚ) ^ x = magOf f c) (hc : c ≤ f.maxCode) {ftz : Bool}
    (hftz : ftz = true → 2 ^ f.t ≤ c) : roundF f rm ftz s m x = (withSign f s c, 0) := by
  obtain ⟨c', inexact, hround, hr⟩ := roundF_rounded (f := f) (rm := rm) (s := s) (ftz := ftz) ht hm hv.symm
  obtain ⟨rfl, rfl⟩ := hround.exact (magOf_strictMono f)
  rw [hr, if_neg (not_lt.2 hc)]
  simp only [Bool.false_eq_true, if_false]
  split
  · next hsub =>
    rw [if_neg (fun h => absurd (hftz h) (not_le.2 hsub.2))]
  · rfl

theorem fmtMag_withSign {c : Nat} (hc : c < 2 ^ (f.e + f.t)) (s : Bool) : fmtMag f (withSign f s c) = c := by
  rw [fmtMag, withSign, Nat.mul_add_mod_self_right, Nat.mod_eq_of_lt hc]

theorem fmtSign_withSign {c : Nat} (hc : c < 2 ^ (f.e + f.t)) (s : Bool) : fmtSign f (withSign f s c) = s := by
  rw [fmtSign_eq_testBit, withSign, Nat.testBit_eq_decide_div_mod_eq, Nat.add_comm, Nat.add_mul_div_right _ _ (Nat.two_pow_pos _),
    Nat.div_eq_of_lt hc]
  cases s <;> rfl

/-- A pattern is its sign and its magnitude code. -/
theorem withSign_parts {b : Nat} (hb : b < 2 ^ fmtW f) : withSign f (fmtSign f b) (fmtMag f b) = b := by
  have hdiv : b / 2 ^ (f.e + f.t) < 2 := Nat.div_lt_of_lt_mul (by rwa [← pow_succ, Nat.add_comm, ← Nat.add_assoc, ← fmtW])
  have hbit : bit (fmtSign f b) = b / 2 ^ (f.e + f.t) := by
    rw [fmtSign_eq_testBit, Nat.testBit_eq_decide_div_mod_eq]
    obtain h | h := Nat.le_one_iff_eq_zero_or_eq_one.1 (Nat.le_of_lt_succ hdiv)
    all_goals rw [h]; rfl
  rw [withSign, hbit, fmtMag, Nat.div_add_mod']

theorem unpackF_withSign {c : Nat} (hc : c ≤ f.maxCode) (hf : f.Fits) (s : Bool) :
    unpackF f (withSign f s c) = .fin s (finMag f c).1 (finMag f c).2 := by
  have hlt := hc.trans_lt hf.max
  unfold unpackF
  rw [fmtMag_withSign hlt, fmtSign_withSign hlt]
  simp only [hc, if_true]

theorem unpackF_eq_fin {b : Nat} {n : Nat} {x : Int} (h : unpackF f b = .fin s n x) :
    fmtMag f b ≤ f.maxCode ∧ fmtSign f b = s ∧ finMag f (fmtMag f b) = (n, x) := by
  unfold unpackF at h
  extract_lets c sg at h
  split at h
  · next hc =>
    rw [FV.fin.injEq] at h
    exact ⟨hc, h.1, Prod.ext h.2.1 h.2.2⟩
  · split at h <;> cases h

theorem unpackF_eq_inf {b : Nat} (h : unpackF f b = .inf s) : f.hasInf = true ∧ fmtMag f b = fmtInf f ∧ fmtSign f b = s := by
  unfold unpackF at h
  extract_lets c sg at h
  split at h
  · cases h
  · split at h
    · next hc =>
      rw [Bool.and_eq_true, beq_iff_eq] at hc
      rw [FV.inf.injEq] at h
      exact ⟨hc.1, hc.2, h⟩
    · cases h

/-- The magnitude of a finite pattern is a step of the format. -/
theorem abs_num_of_unpackF {b : Nat} {n : Nat} {x : Int} (h : unpackF f b = .fin s n x) : |(FV.fin s n x).num| = magOf f (fmtMag f b) := by
  rw [abs_num_fin, magOf, (unpackF_eq_fin h).2.2]

theorem finMag_lt (c : Nat) : (finMag f c).1 < 2 ^ (f.t + 1) := by
  have hmod := Nat.mod_lt c (Nat.two_pow_pos f.t)
  have hpow : 2 ^ (f.t + 1) = 2 ^ f.t + 2 ^ f.t := by rw [pow_succ]; omega
  simp only [finMag]
  split <;> simp only <;> omega

theorem finMag_eq_zero {c : Nat} : (finMag f c).1 = 0 ↔ c = 0 := by
  have hz : magOf f c = 0 ↔ (finMag f c).1 = 0 := by
    rw [magOf, mul_eq_zero, or_iff_left (zpow_ne_zero _ two_ne_zero), Nat.cast_eq_zero]
  have h0 : magOf f 0 = 0 := by simpa using magOf_of_lt (f := f) (Nat.two_pow_pos f.t)
  rw [← hz, ← h0, (magOf_strictMono f).injective.eq_iff]

/-- A zero is its sign. -/
theorem eq_withSign_of_zero {b : Nat} (hb : b < 2 ^ fmtW f) {x : Int} (h : unpackF f b = .fin s 0 x) : b = withSign f s 0 := by
  obtain ⟨-, rfl, hfin⟩ := unpackF_eq_fin h
  rw [← finMag_eq_zero.1 (congrArg Prod.fst hfin), withSign_parts hb]

theorem eq_withSign_of_inf {b : Nat} (hb : b < 2 ^ fmtW f) (h : unpackF f b = .inf s) : b = withSign f s (fmtInf f) := by
  obtain ⟨-, hmag, rfl⟩ := unpackF_eq_inf h
  rw [← hmag, withSign_parts hb]

theorem ftzSrc_lt {b : Nat} (hb : b < 2 ^ fmtW f) (ftz : Bool) : ftzSrc f ftz b < 2 ^ fmtW f := by
  unfold ftzSrc
  split
  · exact (Nat.sub_le ..).trans_lt hb
  · exact hb

/-- A whole number up to `2^t` is a step of a format whose exponents reach there. -/
theorem exists_code_of_nat {k : Nat} (hk : k ≠ 0) (hle : k ≤ 2 ^ f.t) (hbias : 0 < f.bias) :
    ∃ c, magOf f c = k ∧ c ≤ (f.t + f.bias) * 2 ^ f.t := by
  have hlow := Nat.log2_self_le hk
  have hhigh := Nat.lt_log2_self (n := k)
  have hi : Nat.log2 k ≤ f.t := (Nat.pow_le_pow_iff_right (by decide)).1 (hlow.trans hle)
  obtain ⟨d, hd⟩ := Nat.exists_eq_add_of_le hi
  obtain ⟨b, hb⟩ := Nat.exists_eq_add_of_lt hbias
  generalize Nat.log2 k = i at *
  have hpow : 2 ^ f.t = 2 ^ i * 2 ^ d := by rw [hd, pow_add]
  have hpos := Nat.two_pow_pos d
  have hj : 2 ^ f.t ≤ k * 2 ^ d := by rw [hpow]; gcongr
  have hj' : k * 2 ^ d ≤ 2 ^ (f.t + 1) := by
    have : 2 ^ (f.t + 1) = 2 ^ (i + 1) * 2 ^ d := by rw [← pow_add, hd]; congr 1; omega
    rw [this]
    gcongr
  refine ⟨(i + b) * 2 ^ f.t + k * 2 ^ d, ?_, ?_⟩
  · rw [magOf_steps hj' (Or.inr hj), show f.lo + ((i + b : Nat) : Int) = -(d : Int) by rw [Fmt.lo]; omega]
    push_cast
    rw [mul_assoc, zpow_neg, zpow_natCast, mul_inv_cancel₀ (by positivity), mul_one]
  · obtain rfl | hd0 := Nat.eq_zero_or_pos d
    · have hi' : i = f.t := by omega
      have hk' : k = 2 ^ f.t := le_antisymm hle (hi' ▸ hlow)
      have hcode : (i + b) * 2 ^ f.t + k * 2 ^ 0 = (f.t + f.bias) * 2 ^ f.t := by rw [hi', hk', hb]; ring
      exact hcode.le
    · calc (i + b) * 2 ^ f.t + k * 2 ^ d ≤ (i + b) * 2 ^ f.t + 2 ^ (f.t + 1) := by gcongr
        _ = (i + b + 2) * 2 ^ f.t := by ring
        _ ≤ (f.t + f.bias) * 2 ^ f.t := Nat.mul_le_mul_right _ (by omega)

end Patterns
end Sys2Proof.Machine

namespace Sys2Proof.Machine

/-! ## Quotients, square roots and integral values (R143, R144) -/

section Division
variable {f : Fmt} {rm : RM} {ftz s : Bool}

theorem log2N_gt_of_le {n t : Nat} (h : 2 ^ (t + 1) ≤ n) : t < log2N n := by
  have h0 : n ≠ 0 := by have := Nat.two_pow_pos (t + 1); omega
  exact (Nat.le_log2 h0).2 h

/-- A quotient with enough bits, cut, and whether something was cut, round as the exact quotient. -/
theorem roundF_quotient (ht : 0 < f.t) {n m : Nat} (hm : 0 < m) (hbits : 2 ^ (f.t + 1) ≤ n / m) (x : Int) :
    Rounded f rm ftz s (· < (n / m : ℚ) * (2 : ℚ) ^ x) (· = (n / m : ℚ) * (2 : ℚ) ^ x) (roundF f rm ftz s (n / m) x (n % m != 0)) := by
  have hx : (0 : ℚ) < (2 : ℚ) ^ x := by positivity
  have hmq : (0 : ℚ) < m := by exact_mod_cast hm
  by_cases hr : n % m = 0
  · have h0 : n / m ≠ 0 := by have := Nat.two_pow_pos (f.t + 1); omega
    rw [hr]
    refine roundF_rounded ht h0 ?_
    rw [Nat.cast_div (Nat.dvd_of_mod_eq_zero hr) hmq.ne']
  · have hne : (n % m != 0) = true := bne_iff_ne.2 hr
    have hmul : ∀ j : Nat, j * m ≠ n := fun j e => hr (e ▸ Nat.mul_mod_left j m)
    rw [hne]
    refine roundF_sticky_rounded ht (log2N_gt_of_le hbits) (fun j => ?_) (fun j => ?_)
    · rw [mul_lt_mul_iff_left₀ hx, lt_div_iff₀ hmq, Nat.le_div_iff_mul_le hm]
      have hcast : (j : ℚ) * m < n ↔ j * m < n := by exact_mod_cast Iff.rfl
      have := hmul j
      rw [hcast]
      omega
    · rw [mul_left_inj' hx.ne', eq_div_iff hmq.ne']
      exact_mod_cast hmul j

theorem num_div_neg_iff (s t : Bool) {n m : Nat} (hn : n ≠ 0) (hm : m ≠ 0) (x y : Int) :
    (FV.fin s n x).num / (FV.fin t m y).num < 0 ↔ (s != t) = true := by
  have ha := num_neg_iff s hn x
  have hb := num_neg_iff t hm y
  have ha0 := mt (num_eq_zero_iff s n x).1 hn
  have hb0 := mt (num_eq_zero_iff t m y).1 hm
  rw [div_neg_iff]
  cases s <;> cases t <;> simp_all [lt_iff_le_and_ne, eq_comm, not_le]

/-- The quotient with enough fraction bits rounds as the exact one (R144). -/
theorem roundF_div (ht : 0 < f.t) (s t : Bool) {n m : Nat} (hn : n ≠ 0) (hm : m ≠ 0) (x y : Int) :
    RoundedQ f rm ftz ((FV.fin s n x).num / (FV.fin t m y).num)
      (roundF f rm ftz (s != t) ((n <<< (Nat.log2 m + f.t + 4)) / m) (x - y - ((Nat.log2 m + f.t + 4 : Nat) : Int))
        ((n <<< (Nat.log2 m + f.t + 4)) % m != 0)) := by
  have hs : decide ((FV.fin s n x).num / (FV.fin t m y).num < 0) = (s != t) := by
    rw [Bool.eq_iff_iff, decide_eq_true_iff]
    exact num_div_neg_iff s t hn hm x y
  have hbits : 2 ^ (f.t + 1) ≤ (n <<< (Nat.log2 m + f.t + 4)) / m := by
    rw [Nat.le_div_iff_mul_le (Nat.pos_of_ne_zero hm), Nat.shiftLeft_eq]
    calc 2 ^ (f.t + 1) * m ≤ 2 ^ (f.t + 1) * 2 ^ (Nat.log2 m + 1) := Nat.mul_le_mul_left _ Nat.lt_log2_self.le
      _ ≤ 2 ^ (Nat.log2 m + f.t + 4) := by rw [← pow_add]; exact Nat.pow_le_pow_right (by decide) (by omega)
      _ ≤ n * 2 ^ (Nat.log2 m + f.t + 4) := Nat.le_mul_of_pos_left _ (Nat.pos_of_ne_zero hn)
  have hval : |(FV.fin s n x).num / (FV.fin t m y).num| =
      ((n <<< (Nat.log2 m + f.t + 4) : Nat) / m : ℚ) * (2 : ℚ) ^ (x - y - ((Nat.log2 m + f.t + 4 : Nat) : Int)) := by
    rw [abs_div, abs_num_fin, abs_num_fin, Nat.shiftLeft_eq, zpow_sub₀ two_ne_zero, zpow_sub₀ two_ne_zero, zpow_natCast]
    push_cast
    field_simp
  rw [RoundedQ, hs, hval]
  exact roundF_quotient ht (Nat.pos_of_ne_zero hm) hbits _

/-- R144: the quotient, rounded once. -/
theorem fdivE_spec (ht : 0 < f.t) (hi : f.hasInf = true) (x y : Nat) :
    let a := srcF f ftz x
    let b := srcF f ftz y
    let sg := a.sign != b.sign
    if a.isNan || b.isNan then fdivE f rm ftz x y = nanOf f [a, b]
    else if (a.isInf && b.isInf) || (a.isZero && b.isZero) then fdivE f rm ftz x y = nanRes f fNV
    else if a.isInf then fdivE f rm ftz x y = (withSign f sg (fmtInf f), 0)
    else if b.isInf || a.isZero then fdivE f rm ftz x y = (withSign f sg 0, 0)
    else if b.isZero then fdivE f rm ftz x y = (withSign f sg (fmtInf f), fDZ)
    else RoundedQ f rm ftz (a.num / b.num) (fdivE f rm ftz x y) := by
  intro a b sg
  have hE : fdivE f rm ftz x y = match a, b with
    | .nan _, _ => nanRes f (sigNV [a, b])
    | _, .nan _ => nanRes f (sigNV [a, b])
    | .inf _, .inf _ => nanRes f fNV
    | .inf _, _ => infRes f sg 0
    | _, .inf _ => (withSign f sg 0, 0)
    | .fin _ n x, .fin _ m y =>
      if m = 0 then (if n = 0 then nanRes f fNV else (withSign f sg (fmtInf f), fDZ))
      else if n = 0 then (withSign f sg 0, 0)
      else roundF f rm ftz sg ((n <<< (Nat.log2 m + f.t + 4)) / m) (x - y - ((Nat.log2 m + f.t + 4 : Nat) : Int))
        ((n <<< (Nat.log2 m + f.t + 4)) % m != 0) := rfl
  rw [hE]
  simp only [sg]
  generalize a = a, b = b
  cases a with
  | nan => simp [FV.isNan, sigNV_eq]
  | inf s =>
    cases b with
    | nan => simp [FV.isNan, sigNV_eq]
    | inf t => simp [FV.isNan, FV.isZero, FV.isInf]
    | fin t m y => simp [FV.isNan, FV.isZero, FV.isInf, infRes, hi]
  | fin s n x =>
    cases b with
    | nan => simp [FV.isNan, sigNV_eq]
    | inf t => simp [FV.isNan, FV.isZero, FV.isInf]
    | fin t m y =>
      by_cases hm : m = 0
      · by_cases hn : n = 0 <;> simp [FV.isNan, FV.isZero, FV.isInf, FV.sign, hm, hn]
      by_cases hn : n = 0
      · simp [FV.isNan, FV.isZero, FV.isInf, FV.sign, hm, hn]
      simp only [FV.isNan, FV.isZero, FV.isInf, FV.sign, beq_eq_false_iff_ne.2 hm, beq_eq_false_iff_ne.2 hn, hm, hn, Bool.or_self, Bool.and_self,
        Bool.false_eq_true, if_false]
      exact roundF_div ht s t hn hm x y

/-- The bits that `isqrtBits` finds are those of the root. -/
theorem isqrtBits_spec (k : Nat) : ∀ n, n < 4 ^ k → isqrtBits k n * isqrtBits k n ≤ n ∧ n < (isqrtBits k n + 1) * (isqrtBits k n + 1) := by
  induction k with
  | zero =>
    intro n hn
    obtain rfl : n = 0 := by simpa using hn
    decide
  | succ k ih =>
    intro n hn
    obtain ⟨hle, hlt⟩ := ih (n / 4) (by rw [pow_succ] at hn; omega)
    simp only [isqrtBits]
    generalize isqrtBits k (n / 4) = r at hle hlt ⊢
    have hle' : 2 * r * (2 * r) ≤ n := by
      calc 2 * r * (2 * r) = 4 * (r * r) := by ring
        _ ≤ 4 * (n / 4) := Nat.mul_le_mul_left 4 hle
        _ ≤ n := Nat.mul_div_le n 4
    have hlt' : n < (2 * r + 1 + 1) * (2 * r + 1 + 1) := by
      calc n < 4 * (n / 4 + 1) := by omega
        _ ≤ 4 * ((r + 1) * (r + 1)) := Nat.mul_le_mul_left 4 hlt
        _ = _ := by ring
    split
    · exact ⟨‹_›, hlt'⟩
    · exact ⟨hle', Nat.lt_of_not_le ‹_›⟩

theorem isqrt_eq_sqrt (n : Nat) : isqrt n = Nat.sqrt n := by
  refine Nat.eq_sqrt.2 (isqrtBits_spec _ n ?_)
  have hlog := Nat.lt_log2_self (n := n)
  calc n < 2 ^ (Nat.log2 n + 1) := hlog
    _ ≤ 2 ^ (2 * (Nat.log2 n / 2 + 1)) := Nat.pow_le_pow_right (by decide) (by omega)
    _ = 4 ^ (Nat.log2 n / 2 + 1) := by rw [pow_mul]; norm_num

/-- A root with enough bits, cut, and whether something was cut, round as the exact root. -/
theorem roundF_root (ht : 0 < f.t) {m : Nat} (hbits : 2 ^ (2 * (f.t + 1)) ≤ m) (x : Int) {v : ℚ} (hv : v = m * (2 : ℚ) ^ (2 * x)) :
    Rounded f rm ftz s (fun q => q * q < v) (fun q => q * q = v) (roundF f rm ftz s (isqrt m) x (isqrt m * isqrt m != m)) := by
  have hx : (0 : ℚ) < (2 : ℚ) ^ (2 * x) := by positivity
  have hroot : 2 ^ (f.t + 1) ≤ isqrt m := by
    rw [isqrt_eq_sqrt, Nat.le_sqrt, ← pow_add, ← two_mul]
    exact hbits
  have hsq : ∀ j : Nat, (j : ℚ) * (2 : ℚ) ^ x * (j * (2 : ℚ) ^ x) = (j * j : Nat) * (2 : ℚ) ^ (2 * x) := fun j => by
    rw [two_mul, zpow_add₀ two_ne_zero]
    push_cast
    ring
  by_cases hm : isqrt m * isqrt m = m
  · rw [hm, bne_self_eq_false]
    have hpos : (0 : ℚ) ≤ isqrt m * (2 : ℚ) ^ x := by positivity
    have hval : v = isqrt m * (2 : ℚ) ^ x * (isqrt m * (2 : ℚ) ^ x) := by rw [hsq, hm, hv]
    refine roundF_rounded_of_compare ht ?_ rfl (fun q hq => ?_) (fun q hq => ?_)
    · have := Nat.two_pow_pos (f.t + 1); omega
    · rw [hval]; exact (mul_self_lt_mul_self_iff hq hpos).symm
    · rw [hval]; exact mul_self_inj hq hpos
  · rw [bne_iff_ne.2 hm]
    refine roundF_sticky_rounded ht (log2N_gt_of_le hroot) (fun j => ?_) (fun j => ?_)
    · rw [hsq, hv, mul_lt_mul_iff_left₀ hx, Nat.cast_lt, isqrt_eq_sqrt, Nat.le_sqrt]
      have hne : j * j ≠ m := fun e => hm (by rw [isqrt_eq_sqrt, ← e, Nat.sqrt_eq])
      omega
    · rw [hsq, hv, mul_left_inj' hx.ne', Nat.cast_inj]
      exact fun e => hm (by rw [isqrt_eq_sqrt, ← e, Nat.sqrt_eq])

/-- R144: the square root, rounded once. -/
theorem fsqrtE_spec (ht : 0 < f.t) {x : Nat} (hx : x < 2 ^ fmtW f) :
    let a := srcF f ftz x
    if a.isNan then fsqrtE f rm ftz x = nanOf f [a]
    else if a.isZero then fsqrtE f rm ftz x = (withSign f a.sign 0, 0)
    else if a.sign then fsqrtE f rm ftz x = nanRes f fNV
    else if a.isInf then fsqrtE f rm ftz x = (withSign f false (fmtInf f), 0)
    else Rounded f rm ftz false (fun q => q * q < a.num) (fun q => q * q = a.num) (fsqrtE f rm ftz x) := by
  have hlt := ftzSrc_lt hx ftz
  unfold srcF fsqrtE
  generalize ftzSrc f ftz x = b at hlt
  intro a
  simp only [a]
  cases hb : unpackF f b with
  | nan s => simp [FV.isNan, nanOf, FV.isSig]
  | inf s =>
    have := eq_withSign_of_inf hlt hb
    cases s <;> simp [FV.isNan, FV.isZero, FV.isInf, FV.sign, this]
  | fin s n x =>
    by_cases hn : n = 0
    · subst hn
      simpa [FV.isNan, FV.isZero, FV.sign] using eq_withSign_of_zero hlt hb
    · have hn' := beq_eq_false_iff_ne.2 hn
      cases s with
      | true => simp [FV.isNan, FV.isZero, FV.sign, hn]
      | false =>
        simp only [FV.isNan, FV.isZero, FV.isInf, FV.sign, hn', hn, Bool.false_eq_true, if_false]
        generalize hk : 2 * (f.t + 4) + (if x % 2 = 0 then 0 else 1) = k
        have hk' : 2 * ((x - (k : Int)) / 2) = x - k ∧ 2 * (f.t + 1) ≤ k := by
          split at hk <;> omega
        refine roundF_root ht ?_ _ ?_
        · rw [Nat.shiftLeft_eq]
          exact (Nat.pow_le_pow_right (by decide) hk'.2).trans (Nat.le_mul_of_pos_left _ (Nat.pos_of_ne_zero hn))
        · rw [hk'.1, num_fin, Nat.shiftLeft_eq, zpow_sub₀ two_ne_zero, zpow_natCast]
          push_cast
          field_simp

/-- An integral value to which a step of the format rounds is a step of the format (R143). -/
theorem exists_code_of_roundsTo (hbias : 0 < f.bias) (hmax : (f.t + f.bias) * 2 ^ f.t ≤ f.maxCode) {b n k : Nat} {x : Int} {inexact : Bool}
    (hb : unpackF f b = .fin s n x) (h : RoundsTo (fun k => (k : ℚ)) rm s (· < n * (2 : ℚ) ^ x) (· = n * (2 : ℚ) ^ x) k inexact) :
    ∃ c, magOf f c = k ∧ c ≤ f.maxCode := by
  obtain ⟨hle, -, hfin⟩ := unpackF_eq_fin hb
  have hcast : StrictMono (fun k : Nat => (k : ℚ)) := Nat.strictMono_cast
  obtain hx | hx := le_or_gt 0 x
  · obtain ⟨d, rfl⟩ := Int.eq_ofNat_of_zero_le hx
    have hv : (n : ℚ) * (2 : ℚ) ^ (d : Int) = (n * 2 ^ d : Nat) := by push_cast; rw [zpow_natCast]
    rw [hv] at h
    obtain ⟨rfl, -⟩ := h.exact hcast
    exact ⟨fmtMag f b, by rw [magOf, hfin, ← hv], hle⟩
  · have hn : n < 2 ^ (f.t + 1) := by
      have := finMag_lt (f := f) (fmtMag f b)
      rwa [hfin] at this
    have hk : k ≤ 2 ^ f.t := h.le hcast (by
      calc (n : ℚ) * (2 : ℚ) ^ x ≤ (2 ^ (f.t + 1) : Nat) * (2 : ℚ) ^ (-1 : Int) := by
            gcongr
            · exact one_le_two
            · omega
        _ = (2 ^ f.t : Nat) := by push_cast; rw [pow_succ, zpow_neg_one]; ring)
    by_cases hk0 : k = 0
    · exact ⟨0, by simpa [hk0] using magOf_of_lt (f := f) (Nat.two_pow_pos f.t), Nat.zero_le _⟩
    · obtain ⟨c, hc, hle⟩ := exists_code_of_nat hk0 hk hbias
      exact ⟨c, hc, hle.trans hmax⟩

/-- A whole number that is a step of the format gives its pattern. -/
theorem roundF_nat (ht : 0 < f.t) {k c : Nat} (hk : magOf f c = k) (hc : c ≤ f.maxCode) (s : Bool) :
    roundF f rm false s k 0 = (withSign f s c, 0) := by
  by_cases hk0 : k = 0
  · have hc0 : c = 0 := finMag_eq_zero.1 (by
      rw [hk0, magOf, Nat.cast_zero, mul_eq_zero, or_iff_left (zpow_ne_zero _ two_ne_zero), Nat.cast_eq_zero] at hk
      exact hk)
    rw [hk0, hc0, roundF_zero]
  · exact roundF_exact ht hk0 (by rw [hk, zpow_zero, mul_one]) hc (fun h => absurd h Bool.false_ne_true)

/-- R143: rounding to an integral value. -/
theorem frndE_spec (ht : 0 < f.t) (hf : f.Fits) (hbias : 0 < f.bias) (hmax : (f.t + f.bias) * 2 ^ f.t ≤ f.maxCode) (nx : Bool) (x : Nat) :
    let a := srcF f ftz x
    let r := frndE f rm ftz nx x
    if a.isNan then r = nanOf f [a]
    else if a.isInf || a.isZero then r = (ftzSrc f ftz x, 0)
    else ∃ k inexact, RoundsTo (fun k => (k : ℚ)) rm a.sign (· < |a.num|) (· = |a.num|) k inexact ∧
      (∃ j e, unpackF f r.1 = .fin a.sign j e) ∧ |(unpackF f r.1).num| = k ∧ r.2 = if nx && inexact then fNX else 0 := by
  unfold srcF frndE
  generalize ftzSrc f ftz x = b
  intro a r
  simp only [a, r]
  cases hb : unpackF f b with
  | nan s => simp [FV.isNan, nanOf, FV.isSig]
  | inf s => simp [FV.isNan, FV.isInf]
  | fin s n x =>
    by_cases hn : n = 0
    · simp [FV.isNan, FV.isZero, hn]
    · obtain ⟨k, inexact, hround, hint⟩ := roundInt_spec (rm := rm) (s := s) n x
      obtain ⟨c, hc, hle⟩ := exists_code_of_roundsTo hbias hmax hb hround
      have habs : (if s = true then -(k : Int) else k).natAbs = k := by split <;> simp
      have hfin := unpackF_withSign hle hf s
      simp only [FV.isNan, FV.isZero, FV.isInf, beq_eq_false_iff_ne.2 hn, hn, Bool.or_self, Bool.false_eq_true, if_false, hint, habs,
        roundF_nat ht hc hle, hfin, FV.sign]
      exact ⟨k, inexact, by rwa [abs_num_fin], ⟨_, _, rfl⟩, by rw [abs_num_fin, ← hc, magOf], rfl⟩

end Division

/-- The largest code of a wide format lies above that of `2^t`. -/
theorem tyFlt_whole {ty : Ty} (hf : tyFlt ty = true) : 0 < (tyFmt ty).bias ∧ ((tyFmt ty).t + (tyFmt ty).bias) * 2 ^ (tyFmt ty).t ≤ (tyFmt ty).maxCode := by
  revert hf
  cases ty <;> decide

/-- Settles O11: the integer quotient and root carry enough bits that what was cut off never moves them across a half unit; a value that rounds
to an integral one is again a step of its format. -/
theorem floatDivisionAndRounding : Obligations.FloatDivisionAndRounding := by
  intro o m nx s t c h hr hflt f p A B
  obtain ⟨-, hinf, -⟩ := tyFlt_fmt hflt
  obtain ⟨hbias, hmax⟩ := tyFlt_whole hflt
  have ht := tyFmt_t_pos m.ty
  have hfits := tyFmt_fits m.ty
  have hwidth := fmtW_eq_tyW hflt
  have hsrc : ∀ x l k, s.srcElem t c l o m.ty x k < 2 ^ fmtW f := fun x l k => by rw [hwidth]; exact srcElem_lt ..
  refine ⟨?_, ?_, ?_⟩
  · refine givesFloat_of_fltMap (g := fun r l k => fdivE f m.rm m.ftz (r.ea m.ty l k) (r.eb m.ty l k)) rfl hr (fun l k => ?_)
    have hdiv := fdivE_spec (rm := m.rm) (ftz := m.ftz) ht hinf (s.srcElem t c l o m.ty o.a.op k) (s.srcElem t c l o m.ty o.b.op k)
    refine ⟨?_, hdiv⟩
    change (fdivE f m.rm m.ftz (s.srcElem t c l o m.ty o.a.op k) (s.srcElem t c l o m.ty o.b.op k)).1 < _
    rw [← hwidth]
    extract_lets a b sg at hdiv
    split at hdiv
    · exact hdiv ▸ nanOf_lt hfits _
    split at hdiv
    · exact hdiv ▸ nanRes_lt hfits _
    split at hdiv
    · exact hdiv ▸ withSign_inf_lt hfits hinf _
    split at hdiv
    · exact hdiv ▸ withSign_zero_lt _ _
    split at hdiv
    · exact hdiv ▸ withSign_inf_lt hfits hinf _
    · exact hdiv.lt hfits
  · refine givesFloat_of_fltMap (g := fun r l k => fsqrtE f m.rm m.ftz (r.ea m.ty l k)) rfl hr (fun l k => ?_)
    have hsqrt := fsqrtE_spec (rm := m.rm) (ftz := m.ftz) ht (hsrc o.a.op l k)
    refine ⟨?_, hsqrt⟩
    change (fsqrtE f m.rm m.ftz (s.srcElem t c l o m.ty o.a.op k)).1 < _
    rw [← hwidth]
    extract_lets a at hsqrt
    split at hsqrt
    · exact hsqrt ▸ nanOf_lt hfits _
    split at hsqrt
    · exact hsqrt ▸ withSign_zero_lt _ _
    split at hsqrt
    · exact hsqrt ▸ nanRes_lt hfits _
    split at hsqrt
    · exact hsqrt ▸ withSign_inf_lt hfits hinf _
    · exact hsqrt.lt hfits
  · refine givesFloat_of_fltMap (g := fun r l k => frndE f m.rm m.ftz nx (r.ea m.ty l k)) rfl hr (fun l k => ⟨?_, ?_⟩)
    · change (frndE f m.rm m.ftz nx (s.srcElem t c l o m.ty o.a.op k)).1 < _
      rw [← hwidth]
      have hlt := ftzSrc_lt (hsrc o.a.op l k) m.ftz
      unfold frndE
      extract_lets b
      split
      · exact nanRes_lt hfits _
      · exact hlt
      · split
        · exact hlt
        · exact roundF_lt hfits ..
    · exact frndE_spec ht hfits hbias hmax nx _

end Sys2Proof.Machine

namespace Sys2Proof.Machine

/-! ## Order and comparison of floats (R140 to R142) -/

section Order
variable {f : Fmt} {ftz : Bool}

/-- The order of the model is that of the values. -/
theorem ltF_iff (a b : FV) : ltF a b = true ↔ a.lt b := by
  cases a with
  | nan => simp [ltF, FV.lt]
  | inf s => cases b <;> simp [ltF, FV.lt]
  | fin s n x =>
    cases b with
    | nan => simp [ltF, FV.lt]
    | inf t => simp [ltF, FV.lt]
    | fin t m y =>
      have hpos : (0 : ℚ) < (2 : ℚ) ^ (if x < y then x else y) := by positivity
      simp only [ltF, FV.lt, decide_eq_true_iff]
      rw [← num_dyInt s n (show (if x < y then x else y) ≤ x by split <;> omega), ← num_dyInt t m (show (if x < y then x else y) ≤ y by split <;> omega),
        mul_lt_mul_iff_left₀ hpos, Int.cast_lt]

theorem below_iff (a b : FV) : (ltF a b || (a.isZero && b.isZero && a.sign && !b.sign)) = true ↔ a.below b := by
  simp only [FV.below, Bool.or_eq_true, ltF_iff, Bool.and_eq_true, Bool.not_eq_true', and_assoc]

theorem eqF_iff {a b : FV} (hun : (a.isNan || b.isNan) = false) : eqF a b = true ↔ ¬a.lt b ∧ ¬b.lt a := by
  obtain ⟨ha, hb⟩ := Bool.or_eq_false_iff.1 hun
  simp only [eqF, ha, hb, Bool.not_false, Bool.true_and, Bool.and_eq_true, Bool.not_eq_true', Bool.eq_false_iff, ne_eq, ltF_iff]

theorem sigNV_pair (a b : FV) : sigNV [a, b] = if a.isSig || b.isSig then fNV else 0 := by simp [sigNV]

theorem sigNV_of_not_nan {a b : FV} (hn : (a.isNan || b.isNan) = false) : sigNV [a, b] = 0 := by
  cases a <;> cases b <;> simp_all [FV.isNan, sigNV, FV.isSig]

/-- R140: the lesser operand, or the greater. -/
theorem fminE_spec (isMax prop : Bool) (x y : Nat) :
    let p := ftzSrc f ftz x
    let q := ftzSrc f ftz y
    let a := unpackF f p
    let b := unpackF f q
    let r := fminE f ftz isMax prop x y
    if a.isNan && b.isNan then r = nanOf f [a, b]
    else if a.isNan || b.isNan then
      (if prop then r = nanOf f [a, b] else r = (if a.isNan then q else p, if a.isSig || b.isSig then fNV else 0))
    else ((if isMax then a.below b else b.below a) → r = (q, 0)) ∧ (¬(if isMax then a.below b else b.below a) → r = (p, 0)) := by
  intro p q a b r
  have hr : r = if a.isNan && b.isNan then nanRes f (sigNV [a, b])
      else if a.isNan then (if prop then nanRes f (sigNV [a, b]) else (q, sigNV [a, b]))
      else if b.isNan then (if prop then nanRes f (sigNV [a, b]) else (p, sigNV [a, b]))
      else (if isMax then (if ltF a b || (a.isZero && b.isZero && a.sign && !b.sign) then q else p)
        else if ltF b a || (a.isZero && b.isZero && b.sign && !a.sign) then q else p, sigNV [a, b]) := rfl
  rw [hr]
  clear_value r a b
  cases ha : a.isNan <;> cases hb : b.isNan
  · have hless : (ltF b a || (a.isZero && b.isZero && b.sign && !a.sign)) = true ↔ b.below a := by
      rw [Bool.and_comm a.isZero, below_iff]
    rw [sigNV_of_not_nan (by rw [ha, hb]; rfl)]
    cases isMax <;> simp only [Bool.false_eq_true, if_true, if_false, Bool.and_self, Bool.or_self]
    · exact ⟨fun h => by rw [if_pos (hless.2 h)], fun h => by rw [if_neg (mt hless.1 h)]⟩
    · exact ⟨fun h => by rw [if_pos ((below_iff a b).2 h)], fun h => by rw [if_neg (mt (below_iff a b).1 h)]⟩
  all_goals cases prop <;> simp [nanOf, sigNV]

/-- R141: when the comparison holds. -/
theorem fcmpE_outcome (cond : FCond) (x y : Nat) :
    let a := unpackF f (ftzSrc f ftz x)
    let b := unpackF f (ftzSrc f ftz y)
    let un := (a.isNan || b.isNan) = true
    (fcmpE f ftz cond x y).1 = true ↔ match cond with
      | .eq => ¬un ∧ ¬a.lt b ∧ ¬b.lt a
      | .ne => un ∨ a.lt b ∨ b.lt a
      | .lt => ¬un ∧ a.lt b
      | .le => ¬un ∧ ¬b.lt a
      | .gt => ¬un ∧ b.lt a
      | .ge => ¬un ∧ ¬a.lt b
      | .ord => ¬un
      | .un => un := by
  intro a b un
  have houtcome : (fcmpE f ftz cond x y).1 = match cond with
      | .eq => !(a.isNan || b.isNan) && eqF a b
      | .ne => (a.isNan || b.isNan) || !eqF a b
      | .lt => !(a.isNan || b.isNan) && ltF a b
      | .le => !(a.isNan || b.isNan) && !ltF b a
      | .gt => !(a.isNan || b.isNan) && ltF b a
      | .ge => !(a.isNan || b.isNan) && !ltF a b
      | .ord => !(a.isNan || b.isNan)
      | .un => a.isNan || b.isNan := by cases cond <;> rfl
  rw [houtcome]
  simp only [un]
  clear_value a b
  cases hun : (a.isNan || b.isNan) with
  | true => cases cond <;> simp
  | false => cases cond <;> simp [eqF_iff hun, ← Bool.not_eq_true, ltF_iff, imp_iff_not_or]

/-- R141: the flag that a comparison raises. -/
theorem fcmpE_flags (cond : FCond) (x y : Nat) :
    let a := unpackF f (ftzSrc f ftz x)
    let b := unpackF f (ftzSrc f ftz y)
    (fcmpE f ftz cond x y).2 = if (match cond with
      | .lt | .le | .gt | .ge => a.isNan || b.isNan
      | _ => a.isSig || b.isSig) then fNV else 0 := by
  intro a b
  have hquiet : (a.isNan || b.isNan) = false → sigNV [a, b] = 0 := sigNV_of_not_nan
  have hordered : (if a.isNan || b.isNan then fNV else sigNV [a, b]) = if a.isNan || b.isNan then fNV else 0 := by
    split
    · rfl
    · next hun => exact hquiet (Bool.not_eq_true _ ▸ hun)
  cases cond with
  | lt | le | gt | ge => exact hordered
  | eq | ne | ord | un => exact sigNV_pair a b

/-- R142: the class of a pattern. -/
theorem fclassE_spec (x : Nat) : fclassE f ftz x = 2 ^ (match unpackF f (ftzSrc f ftz x) with
    | .inf true => 0
    | .inf false => 7
    | .nan true => 8
    | .nan false => 9
    | .fin sg k _ => if k = 0 then (if sg then 3 else 4)
      else if fmtMag f (ftzSrc f ftz x) < 2 ^ f.t then (if sg then 2 else 5) else (if sg then 1 else 6)) := by
  unfold fclassE
  extract_lets b sub
  cases unpackF f b with
  | inf s => cases s <;> rfl
  | nan s => cases s <;> rfl
  | fin s n x =>
    simp only [b, sub]
    split
    · cases s <;> rfl
    · split <;> cases s <;> rfl

end Order

/-- A mask with the flags of its elements (R141). -/
theorem maskRes_flags {o : Ops} {ty : Ty} (hp : ¬isPred o.d = true) (g : Nat → Bool × Nat) :
    { maskRes o ty (fun i => (g i).1) with
      flags := ((idxs ty).map (fun i => (g i).2)).foldl (fun a x => a ||| x) 0, elems := (idxs ty).map (fun i => (g i).2) } =
    fltMap ty (fun i => (if (g i).1 then 2 ^ tyW ty - 1 else 0, (g i).2)) := by
  simp only [maskRes, if_neg hp, intRes, fltMap, fltRes, List.map_map, List.foldl_map, Function.comp_def]

/-- The same into a predicate: the outcome and flags of the first elements (R110, R141). -/
theorem maskRes_flags_pred {o : Ops} {ty : Ty} (hp : isPred o.d = true) (hn : tyN ty = 1) (g : Nat → Bool × Nat) :
    { maskRes o ty (fun i => (g i).1) with
      flags := ((idxs ty).map (fun i => (g i).2)).foldl (fun a x => a ||| x) 0, elems := (idxs ty).map (fun i => (g i).2) } =
    { val := wordOf (bit (g 0).1), flags := (g 0).2, elems := [(g 0).2] } := by
  simp [maskRes, if_pos hp, idxs, hn]

/-- A class mask fits in the elements of the wide types. -/
theorem fclassE_lt {ty : Ty} (hf : tyFlt ty = true) (ftz : Bool) (x : Nat) : fclassE (tyFmt ty) ftz x < 2 ^ tyW ty := by
  have hw : 16 ≤ tyW ty := by
    revert hf
    cases ty <;> decide
  rw [fclassE_spec]
  refine Nat.pow_lt_pow_right (by decide) (lt_of_lt_of_le ?_ hw)
  split
  case h_5 => split_ifs <;> decide
  all_goals decide

/-- Settles O12: the order of the model is that of the values, and a NaN operand decides each of the cases of R140 and R141. -/
theorem floatCompare : Obligations.FloatCompare := by
  intro o m nan cond s t c h hr hflt f P Q A B sig pick un holds nv
  have hfits := tyFmt_fits m.ty
  have hwidth := fmtW_eq_tyW hflt
  have hsrc : ∀ x l k, ftzSrc f m.ftz (s.srcElem t c l o m.ty x k) < 2 ^ tyW m.ty := fun x l k => by
    rw [← hwidth]
    exact ftzSrc_lt (by rw [hwidth]; exact srcElem_lt ..) _
  have hpick : ∀ isMax l k, (fminE f m.ftz isMax nan (s.srcElem t c l o m.ty o.a.op k) (s.srcElem t c l o m.ty o.b.op k)).1 < 2 ^ tyW m.ty ∧
      pick isMax l k (fminE f m.ftz isMax nan (s.srcElem t c l o m.ty o.a.op k) (s.srcElem t c l o m.ty o.b.op k)) := fun isMax l k => by
    have hmin := fminE_spec (f := f) (ftz := m.ftz) isMax nan (s.srcElem t c l o m.ty o.a.op k) (s.srcElem t c l o m.ty o.b.op k)
    refine ⟨?_, hmin⟩
    extract_lets p q a b r at hmin
    change r.1 < _
    clear_value r
    have hnan := hwidth ▸ nanOf_lt hfits [a, b]
    have hp : p < 2 ^ tyW m.ty := hsrc o.a.op l k
    have hq : q < 2 ^ tyW m.ty := hsrc o.b.op l k
    split at hmin
    · rwa [hmin]
    split at hmin
    · split at hmin
      · rwa [hmin]
      · rw [hmin]
        dsimp only
        split
        · exact hq
        · exact hp
    · obtain ⟨hyes, hno⟩ := hmin
      by_cases hless : if isMax then a.below b else b.below a
      · rwa [hyes hless]
      · rwa [hno hless]
  have hcmp : ∀ l k, ((fcmpE f m.ftz cond (s.srcElem t c l o m.ty o.a.op k) (s.srcElem t c l o m.ty o.b.op k)).1 = true ↔ holds l k) ∧
      (fcmpE f m.ftz cond (s.srcElem t c l o m.ty o.a.op k) (s.srcElem t c l o m.ty o.b.op k)).2 = nv l k := fun l k =>
    ⟨fcmpE_outcome cond _ _, fcmpE_flags cond _ _⟩
  refine ⟨?_, ?_, fun hd => ?_, fun hn n hd => ?_, ?_⟩
  · exact givesFloat_of_fltMap (g := fun r l k => fminE f m.ftz false nan (r.ea m.ty l k) (r.eb m.ty l k)) rfl hr (hpick false)
  · exact givesFloat_of_fltMap (g := fun r l k => fminE f m.ftz true nan (r.ea m.ty l k) (r.eb m.ty l k)) rfl hr (hpick true)
  · have hexec : exec (.fcmp o m cond) s = aluRun o {} s (fun r l => fltMap m.ty (fun k =>
        (if (fcmpE f m.ftz cond (r.ea m.ty l k) (r.eb m.ty l k)).1 then 2 ^ tyW m.ty - 1 else 0,
          (fcmpE f m.ftz cond (r.ea m.ty l k) (r.eb m.ty l k)).2))) :=
      congrArg (aluRun o {} s) (funext fun r => funext fun l => maskRes_flags (not_isPred hd) _)
    refine givesFloat_of_fltMap hexec hr (fun l k => ?_)
    obtain ⟨hholds, hflags⟩ := hcmp l k
    have hpos := Nat.two_pow_pos (tyW m.ty)
    refine ⟨?_, fun hh => Prod.ext (if_pos (hholds.2 hh)) hflags, fun hh => Prod.ext (if_neg (mt hholds.1 hh)) hflags⟩
    dsimp only
    split <;> omega
  · have hexec : exec (.fcmp o m cond) s = aluRun o {} s (fun r l => {
        val := wordOf (bit (fcmpE f m.ftz cond (r.ea m.ty l 0) (r.eb m.ty l 0)).1)
        flags := (fcmpE f m.ftz cond (r.ea m.ty l 0) (r.eb m.ty l 0)).2
        elems := [(fcmpE f m.ftz cond (r.ea m.ty l 0) (r.eb m.ty l 0)).2] }) :=
      congrArg (aluRun o {} s) (funext fun r => funext fun l => maskRes_flags_pred (isPred_iff.2 ⟨n, hd⟩) hn
        (fun k => fcmpE f m.ftz cond (r.ea m.ty l k) (r.eb m.ty l k)))
    refine givesFlags_of_aluRun hexec hr rfl (fun l _ => ?_)
    obtain ⟨hholds, hflags⟩ := hcmp l 0
    exact ⟨(iff_of_eq (congrArg (· = true) (bitRes_getLsbD _))).trans hholds, hflags⟩
  · refine givesFloat_of_fltMap (g := fun r l k => (fclassE f m.ftz (r.ea m.ty l k), 0)) rfl hr (fun l k => ⟨?_, rfl, fclassE_spec _⟩)
    exact fclassE_lt hflt _ _

end Sys2Proof.Machine

namespace Sys2Proof.Machine

/-! ## Magnitudes beyond a format (R116, R117) -/

section Extremes
variable {f : Fmt} {rm : RM} {ftz s : Bool}

/-- A magnitude at or above the first code past the finite ones overflows (R117). -/
theorem Rounded.overflow {v : ℚ} {r : FRes} (h : Rounded f rm ftz s (· < v) (· = v) r) (hv : magOf f (f.maxCode + 1) ≤ v) : r = ovfRes f rm s := by
  obtain ⟨c, inexact, hround, rfl⟩ := h
  have hmono := magOf_strictMono f
  refine if_pos ?_
  obtain ⟨-, heq⟩ | ⟨-, k, -, hle, hne, hup, hdown⟩ := hround
  · exact hmono.le_iff_le.1 (hv.trans_eq heq.symm)
  · have hlt : v < magOf f (k + 1) := lt_of_le_of_ne (not_lt.1 hle) (Ne.symm hne)
    have hk : f.maxCode + 1 < k + 1 := hmono.lt_iff_lt.1 (hv.trans_lt hlt)
    by_cases hc : c = k + 1
    · omega
    · rw [hdown (mt hup hc)]
      omega

/-- Magnitudes below half the least step round alike. -/
theorem RoundsTo.tiny {M : Nat → ℚ} (hM : StrictMono M) (h0 : M 0 = 0) {v v' : ℚ} {c : Nat} {inexact : Bool}
    (h : RoundsTo M rm s (· < v) (· = v) c inexact) (hv : 0 < v ∧ v < M 1 / 2) (hv' : 0 < v' ∧ v' < M 1 / 2) :
    RoundsTo M rm s (· < v') (· = v') c inexact := by
  have h1 : 0 < M 1 := h0 ▸ hM Nat.zero_lt_one
  have hstep : ∀ k, M k < M 1 → k = 0 := fun k hk => Nat.lt_one_iff.1 (hM.lt_iff_lt.1 hk)
  obtain ⟨-, heq⟩ | ⟨hin, k, hlt, -, -, hup⟩ := h
  · have hc := hstep c (by linarith)
    rw [hc, h0] at heq
    linarith
  · obtain rfl := hstep k (by linarith)
    refine Or.inr ⟨hin, 0, by linarith, by linarith, by linarith, ?_⟩
    have hmid : ∀ w, w < M 1 / 2 → ¬(M 0 + M (0 + 1)) / 2 < w ∧ ¬(M 0 + M (0 + 1)) / 2 = w := fun w hw => by
      rw [h0, zero_add, zero_add]
      exact ⟨by linarith, by linarith⟩
    obtain ⟨hlt1, heq1⟩ := hmid v hv.2
    obtain ⟨hlt2, heq2⟩ := hmid v' hv'.2
    cases rm <;> simpa [hlt1, heq1, hlt2, heq2] using hup

theorem magOf_zero (f : Fmt) : magOf f 0 = 0 := by simpa using magOf_of_lt (f := f) (Nat.two_pow_pos f.t)

theorem magOf_one (ht : 0 < f.t) : magOf f 1 = (2 : ℚ) ^ f.lo := by
  simpa using magOf_of_lt (f := f) (Nat.one_lt_two_pow ht.ne')

theorem lo_le_finMag (c : Nat) : f.lo ≤ (finMag f c).2 := by
  simp only [finMag, Fmt.lo]
  split
  · exact le_rfl
  · next h =>
    have := Nat.pos_of_ne_zero h
    simp only
    omega

theorem finMag_mono {c d : Nat} (h : c ≤ d) : (finMag f c).2 ≤ (finMag f d).2 := by
  have hdiv : c / 2 ^ f.t ≤ d / 2 ^ f.t := Nat.div_le_div_right h
  simp only [finMag]
  split <;> split <;> simp only <;> omega

/-- The exponents from which scaling reaches past both ends of a format: `d` below and above. -/
def Fmt.Within (f : Fmt) (d : Nat) : Prop :=
  (finMag f (f.maxCode + 1)).2 + f.t + 1 ≤ f.lo + d ∧ (finMag f f.maxCode).2 + f.t + 2 ≤ f.lo + d

theorem tyFlt_within {ty : Ty} (hf : tyFlt ty = true) : (tyFmt ty).Within 5000 := by
  revert hf
  unfold Fmt.Within
  cases ty <;> decide

/-- Scaling of a finite value by more than the range of its format gives the same as scaling by its bound (R146). -/
theorem roundF_scale (ht : 0 < f.t) {d : Nat} (hd : f.Within d) {b n : Nat} {x : Int} (hb : unpackF f b = .fin s n x) (hn : n ≠ 0) (e : Int) :
    Rounded f rm ftz s (· < n * (2 : ℚ) ^ (x + e)) (· = n * (2 : ℚ) ^ (x + e)) (roundF f rm ftz s n (x + satI e (-d) d)) := by
  obtain ⟨hmax, -, hfin⟩ := unpackF_eq_fin hb
  obtain ⟨hover, hunder⟩ := hd
  have hx : f.lo ≤ x ∧ x ≤ (finMag f f.maxCode).2 := by
    have h1 := lo_le_finMag (f := f) (fmtMag f b)
    have h2 := finMag_mono (f := f) hmax
    rw [hfin] at h1 h2
    exact ⟨h1, h2⟩
  have hn1 : (1 : ℚ) ≤ n := by exact_mod_cast Nat.one_le_iff_ne_zero.2 hn
  have hn2 : (n : ℚ) < (2 : ℚ) ^ ((f.t : Int) + 1) := by
    have := finMag_lt (f := f) (fmtMag f b)
    rw [hfin] at this
    exact_mod_cast this
  have htrue : ∀ y : Int, Rounded f rm ftz s (· < n * (2 : ℚ) ^ y) (· = n * (2 : ℚ) ^ y) (roundF f rm ftz s n y) := fun y => roundF_rounded ht hn rfl
  have hlarge : ∀ y : Int, x + d ≤ y → magOf f (f.maxCode + 1) ≤ n * (2 : ℚ) ^ y := fun y hy => by
    have hlt := finMag_lt (f := f) (f.maxCode + 1)
    have hlt' : ((finMag f (f.maxCode + 1)).1 : ℚ) ≤ (2 : ℚ) ^ ((f.t : Int) + 1) := by exact_mod_cast hlt.le
    calc magOf f (f.maxCode + 1) ≤ (2 : ℚ) ^ ((f.t : Int) + 1) * (2 : ℚ) ^ (finMag f (f.maxCode + 1)).2 := by unfold magOf; gcongr
      _ = (2 : ℚ) ^ ((f.t : Int) + 1 + (finMag f (f.maxCode + 1)).2) := (zpow_add₀ two_ne_zero ..).symm
      _ ≤ (2 : ℚ) ^ y := zpow_le_zpow_right₀ one_le_two (by omega)
      _ ≤ n * (2 : ℚ) ^ y := le_mul_of_one_le_left (by positivity) hn1
  have hsmall : ∀ y : Int, y ≤ x - d → 0 < n * (2 : ℚ) ^ y ∧ n * (2 : ℚ) ^ y < magOf f 1 / 2 := fun y hy => by
    refine ⟨by positivity, ?_⟩
    calc n * (2 : ℚ) ^ y < (2 : ℚ) ^ ((f.t : Int) + 1) * (2 : ℚ) ^ y := by gcongr
      _ = (2 : ℚ) ^ ((f.t : Int) + 1 + y) := (zpow_add₀ two_ne_zero ..).symm
      _ ≤ (2 : ℚ) ^ (f.lo - 1) := zpow_le_zpow_right₀ one_le_two (by omega)
      _ = magOf f 1 / 2 := by rw [magOf_one ht, zpow_sub_one₀ two_ne_zero, div_eq_mul_inv]
  obtain hlow | hhigh | hmid : satI e (-d) d = -d ∧ e ≤ -d ∨ satI e (-d) d = d ∧ (d : Int) ≤ e ∨ satI e (-d) d = e := by
    unfold satI
    split_ifs <;> omega
  · obtain ⟨c, inexact, hround, hr⟩ := htrue (x + satI e (-d) d)
    exact ⟨c, inexact, hround.tiny (magOf_strictMono f) (magOf_zero f) (hsmall _ (by omega)) (hsmall _ (by omega)), hr⟩
  · have hsat := (htrue (x + satI e (-d) d)).overflow (hlarge _ (by omega))
    rw [hsat, ← (htrue (x + e)).overflow (hlarge _ (by omega))]
    exact htrue _
  · rw [hmid]
    exact htrue _

/-- R146: scaling by a power of two. -/
theorem fscalE_spec (ht : 0 < f.t) (hd : f.Within 5000) {x : Nat} (hx : x < 2 ^ fmtW f) (e : Int) :
    let a := srcF f ftz x
    if a.isNan then fscalE f rm ftz x e = nanOf f [a]
    else if a.isInf then fscalE f rm ftz x e = (withSign f a.sign (fmtInf f), 0)
    else if a.isZero then fscalE f rm ftz x e = (withSign f a.sign 0, 0)
    else RoundedQ f rm ftz (a.num * (2 : ℚ) ^ e) (fscalE f rm ftz x e) := by
  have hlt := ftzSrc_lt hx ftz
  unfold srcF fscalE
  generalize ftzSrc f ftz x = b at hlt
  intro a
  simp only [a]
  cases hb : unpackF f b with
  | nan s => simp [FV.isNan, nanOf, FV.isSig]
  | inf s => simpa [FV.isNan, FV.isInf, FV.sign] using eq_withSign_of_inf hlt hb
  | fin s n x =>
    by_cases hn : n = 0
    · subst hn
      simpa [FV.isNan, FV.isInf, FV.isZero, FV.sign] using eq_withSign_of_zero hlt hb
    · have hval : (FV.fin s n x).num * (2 : ℚ) ^ e = (FV.fin s n (x + e)).num := by
        rw [num_fin, num_fin, mul_assoc, ← zpow_add₀ two_ne_zero]
      have hs : decide ((FV.fin s n (x + e)).num < 0) = s := by
        rw [Bool.eq_iff_iff, decide_eq_true_iff]
        exact num_neg_iff s hn _
      simp only [FV.isNan, FV.isInf, FV.isZero, beq_eq_false_iff_ne.2 hn, hn, Bool.false_eq_true, if_false]
      rw [hval, RoundedQ, hs, abs_num_fin]
      exact roundF_scale ht hd hb hn e

end Extremes

theorem elem_of_not_imm {x : Opnd} (hx : ∀ b, x ≠ .imm b) (ty : Ty) (w : Word) (k : Nat) : wfld w (tyW ty * k) (tyW ty) = elem ty x w k := by
  cases x with
  | imm b => exact absurd rfl (hx b)
  | _ => rfl

/-- Settles O13: a dot product is a sum of exact products, and past the bound at which the model cuts a scale factor every result is the same. -/
theorem dotAndScale : Obligations.DotAndScale := by
  intro o m s t c h hr f A B ct
  have hscale : tyFlt m.ty = true → ∀ l k e, (fscalE f m.rm m.ftz (s.srcElem t c l o m.ty o.a.op k) e).1 < 2 ^ tyW m.ty ∧
      (if (A l k).isNan then fscalE f m.rm m.ftz (s.srcElem t c l o m.ty o.a.op k) e = nanOf f [A l k]
      else if (A l k).isInf then fscalE f m.rm m.ftz (s.srcElem t c l o m.ty o.a.op k) e = (withSign f (A l k).sign (fmtInf f), 0)
      else if (A l k).isZero then fscalE f m.rm m.ftz (s.srcElem t c l o m.ty o.a.op k) e = (withSign f (A l k).sign 0, 0)
      else RoundedQ f m.rm m.ftz ((A l k).num * (2 : ℚ) ^ e) (fscalE f m.rm m.ftz (s.srcElem t c l o m.ty o.a.op k) e)) := fun hflt l k e => by
    have hspec := fscalE_spec (f := f) (rm := m.rm) (ftz := m.ftz) (tyFmt_t_pos m.ty) (tyFlt_within hflt)
      (fmtW_eq_tyW hflt ▸ srcElem_lt s t c l o m.ty o.a.op k) e
    refine ⟨?_, hspec⟩
    rw [← fmtW_eq_tyW hflt]
    have hfits := tyFmt_fits m.ty
    extract_lets a at hspec
    split at hspec
    · exact hspec ▸ nanOf_lt hfits _
    split at hspec
    · exact hspec ▸ withSign_inf_lt hfits (tyFlt_fmt hflt).2.1 _
    split at hspec
    · exact hspec ▸ withSign_zero_lt _ _
    · exact hspec.lt hfits
  refine ⟨fun hty => ?_, fun hflt hb => ?_, fun hflt b hb => ?_⟩
  · have hdot : ∀ l j, FmaIs fmtF32 m.rm m.ftz [(A l (2 * j), B l (2 * j)), (A l (2 * j + 1), B l (2 * j + 1))]
        (srcF fmtF32 m.ftz (s.srcElem t c l o ct o.c.op j))
        (fmaFV fmtF32 m.rm m.ftz [(A l (2 * j), B l (2 * j)), (A l (2 * j + 1), B l (2 * j + 1))]
          (srcF fmtF32 m.ftz (s.srcElem t c l o ct o.c.op j))) := fun l j => fmaFV_spec (by decide) rfl _ _
    obtain ⟨hn, hw, hct⟩ : tyN m.ty / 2 = tyN ct ∧ fmtW fmtF32 = tyW ct ∧ ct = if m.ty == .f32x2 then .f32 else .f32x2 := by
      simp only [ct]
      rcases hty with h | h | h <;> rw [h] <;> decide
    have hexec : exec (.fdot2 o m) s = aluRun o {} s (fun r l => fltRes ct ((List.range (tyN m.ty / 2)).map (fun j => fmaFV fmtF32 m.rm m.ftz
        [(srcF f m.ftz (r.ea m.ty l (2 * j)), srcF f m.ftz (r.eb m.ty l (2 * j))),
          (srcF f m.ftz (r.ea m.ty l (2 * j + 1)), srcF f m.ftz (r.eb m.ty l (2 * j + 1)))] (srcF fmtF32 m.ftz (r.ec ct l j))))) := by
      rw [hct]
      rfl
    refine givesFloat_of_range hn.le hexec hr (fun l k _ => hw ▸ (hdot l k).lt (tyFmt_fits .f32) rfl) (fun l k hk => ?_)
    rw [if_pos (hn ▸ hk)]
    exact hdot l k
  · have hexec : exec (.fscal o m) s = aluRun o {} s (fun r l => fltMap m.ty (fun k =>
        fscalE f m.rm m.ftz (r.ea m.ty l k) (sextN (tyW m.ty) (wfld (r.b l) (tyW m.ty * k) (tyW m.ty))))) := by
      cases hop : o.b.op with
      | imm b => exact absurd hop (hb b)
      | _ =>
        refine congrArg (aluRun o {} s) (funext fun r => funext fun l => congrArg (fltMap m.ty) (funext fun k => ?_))
        rw [hop]
    refine givesFloat_of_fltMap hexec hr (fun l k => ?_)
    rw [elem_of_not_imm hb]
    exact hscale hflt l k _
  · have hint : sextN 8 b.toNat = b.toInt := by rw [sextN_eq_toInt (by decide), BitVec.ofNat_toNat, BitVec.setWidth_eq]
    have hexec : exec (.fscal o m) s = aluRun o {} s (fun r l => fltMap m.ty (fun k => fscalE f m.rm m.ftz (r.ea m.ty l k) b.toInt)) :=
      congrArg (aluRun o {} s) (funext fun r => funext fun l => congrArg (fltMap m.ty) (funext fun k => by rw [hb, ← hint]))
    exact givesFloat_of_fltMap hexec hr (fun l k => hscale hflt l k _)

end Sys2Proof.Machine

namespace Sys2Proof.Machine

/-! ## Conversions (R125, R150 to R152) -/

section Conv
variable {rm : RM}

/-- An integer as a signed magnitude. -/
theorem num_int (z : Int) : (FV.fin (decide (z < 0)) z.natAbs 0).num = z := by
  rw [num_fin, zpow_zero, mul_one]
  obtain hneg | hpos := lt_or_ge z 0
  · simp [hneg, Nat.cast_natAbs, abs_of_neg hneg]
  · simp [not_lt.2 hpos, Nat.cast_natAbs, abs_of_nonneg hpos]

theorem isInt_truncN {ty : Ty} {z : Int} (hz : tyLo ty ≤ z ∧ z ≤ tyHi ty) : IsInt ty z (truncN (tyW ty) z) :=
  ⟨cut_lt ty false z, valI_cut_of_bounds hz false⟩

theorem cvtIF_spec {d : Fmt} (ht : 0 < d.t) (z : Int) : if z = 0 then cvtIF d rm z = (0, 0) else RoundedQ d rm false z (cvtIF d rm z) := by
  unfold cvtIF
  split
  · next h0 =>
    subst h0
    exact Prod.ext (by simp [roundF_zero, withSign, bit]) rfl
  · next h0 =>
    have := roundF_roundedQ (rm := rm) (ftz := false) ht (decide (z < 0)) (Int.natAbs_ne_zero.2 h0) 0
    rwa [num_int] at this

/-- R125: a float converted to an integer type. -/
theorem cvtFI_spec (dt : Ty) (sF : Fmt) (a : Nat) :
    let lo := intLo (tySigned dt) (tyW dt)
    let hi := intHi (tySigned dt) (tyW dt)
    let r : FRes := (truncN (tyW dt) (cvtFI sF (tySigned dt) (tyW dt) rm a).1, (cvtFI sF (tySigned dt) (tyW dt) rm a).2)
    match unpackF sF a with
    | .nan _ => r = (0, fNV)
    | .inf s => IsInt dt (if s then lo else hi) r.1 ∧ r.2 = fNV
    | .fin s n x => ∃ k inexact, RoundsTo (fun k => (k : ℚ)) rm s (· < |(FV.fin s n x).num|) (· = |(FV.fin s n x).num|) k inexact ∧
      let z : Int := if s then -(k : Int) else k
      IsInt dt (satI z lo hi) r.1 ∧ r.2 = if z < lo ∨ hi < z then fNV else if inexact then fNX else 0 := by
  intro lo hi r
  have hle := intLo_le_intHi dt
  have hfit : ∀ z, intLo (tySigned dt) (tyW dt) ≤ z → z ≤ intHi (tySigned dt) (tyW dt) → IsInt dt z (truncN (tyW dt) z) :=
    fun z h1 h2 => isInt_truncN ⟨h1, h2⟩
  simp only [r, lo, hi]
  unfold cvtFI
  cases unpackF sF a with
  | nan s => exact Prod.ext (by simp [truncN]) rfl
  | inf s => exact ⟨by cases s <;> [exact hfit _ hle le_rfl; exact hfit _ le_rfl hle], rfl⟩
  | fin s n x =>
    obtain ⟨k, inexact, hround, hint⟩ := roundInt_spec (rm := rm) (s := s) n x
    refine ⟨k, inexact, by rwa [abs_num_fin], ?_⟩
    dsimp only
    rw [hint]
    generalize (if s = true then -(k : Int) else (k : Int)) = z
    dsimp only
    unfold satI
    by_cases hlow : z < intLo (tySigned dt) (tyW dt)
    · simp only [hlow, if_true, true_or, and_true]
      exact hfit _ le_rfl hle
    by_cases hhigh : intHi (tySigned dt) (tyW dt) < z
    · simp only [hlow, hhigh, if_true, if_false, or_true, and_true]
      exact hfit _ hle le_rfl
    · simp only [hlow, hhigh, if_false, or_self, and_true]
      exact hfit _ (not_lt.1 hlow) (not_lt.1 hhigh)

/-- R125: one element converted. -/
theorem convE_spec (dt st : Ty) (a : Nat) : ConvIs dt st rm a (convE dt st rm a) := by
  unfold ConvIs convE
  split
  · extract_lets lo hi
    split
    · exact ⟨intIs_cut dt true (valI st a), rfl⟩
    · exact cvtFI_spec (rm := rm) dt (tyFmt st) a
  · extract_lets d
    have ht := tyFmt_t_pos dt
    split
    · have := cvtIF_spec (rm := rm) ht (valI st a)
      split at this
      · next h0 => rw [if_pos h0]; exact this
      · next h0 => rw [if_neg h0]; exact this
    · unfold cvtFF
      cases unpackF (tyFmt st) a with
      | nan s => rfl
      | inf s => rfl
      | fin s n x =>
        dsimp only
        split
        · next h0 => rw [h0, roundF_zero]
        · next h0 => exact roundF_roundedQ ht s h0 x

/-- A converted element is a pattern of its type. -/
theorem convE_lt (dt st : Ty) (a : Nat) : (convE dt st rm a).1 < 2 ^ tyW dt := by
  unfold convE
  split
  · split
    · exact cut_lt ..
    · exact cut_lt dt false _
  · next hd =>
    have hfits := tyFmt_fits dt
    refine lt_of_lt_of_le ?_ (Nat.pow_le_pow_right (by decide) (fmtW_le_tyW dt (Bool.not_eq_true _ ▸ hd)))
    split
    · exact roundF_lt hfits ..
    · unfold cvtFF
      split
      · exact nanRes_lt hfits _
      · exact infRes_lt hfits ..
      · exact roundF_lt hfits ..

end Conv

theorem range_append_map {α : Type} (n : Nat) (f g : Nat → α) :
    (List.range n).map f ++ (List.range n).map g = (List.range (2 * n)).map (fun k => if k < n then f k else g (k - n)) := by
  rw [two_mul, List.range_add, List.map_append, List.map_map]
  congr 1
  · exact List.map_congr_left (fun k hk => (if_pos (List.mem_range.1 hk)).symm)
  · exact List.map_congr_left (fun k _ => by simp)

/-- Settles O15: each element is converted by `convE`, whichever elements of the sources the instruction takes. -/
theorem conversions : Obligations.Conversions := by
  intro o dt st rm hi s t c h hr A B
  refine ⟨fun hn => ?_, fun hn => ?_, fun hn => ?_⟩
  · refine givesFloat_of_range (n := tyN st) hn.ge (g := fun r l k => convE dt st rm (r.ea st l k)) rfl hr (fun l k _ => convE_lt ..)
      (fun l k hk => ?_)
    rw [if_pos (hn ▸ hk)]
    exact convE_spec dt st _
  · have hexec : exec (.pk o dt st rm) s = aluRun o {} s (fun r l => fltRes dt ((List.range (2 * tyN st)).map (fun k =>
        if k < tyN st then convE dt st rm (r.ea st l k) else convE dt st rm (r.eb st l (k - tyN st))))) :=
      congrArg (aluRun o {} s) (funext fun r => funext fun l => congrArg (fltRes dt) (range_append_map ..))
    refine givesFloat_of_range hn.ge hexec hr (fun l k _ => ?_) (fun l k hk => ?_)
    · split <;> exact convE_lt ..
    · rw [if_pos (show k < 2 * tyN st from hn ▸ hk)]
      split
      · exact convE_spec dt st _
      · exact convE_spec dt st _
  · refine givesFloat_of_fltMap (g := fun r l k => ((convE dt st .rne (r.ea st l ((if hi then tyN dt else 0) + k))).1,
      (convE dt st .rne (r.ea st l ((if hi then tyN dt else 0) + k))).2 &&& fNV)) rfl hr (fun l k => ⟨convE_lt .., _, ?_, rfl⟩)
    have hidx : (if hi then tyN dt + k else k) = (if hi then tyN dt else 0) + k := by cases hi <;> simp
    rw [hidx]
    exact convE_spec dt st _

end Sys2Proof.Machine

namespace Sys2Proof.Machine

/-! ## Elements of an MX block (R114, R153) -/

section Mx
variable {rm : RM} {mx : Ty}

theorem num_scale (s : Bool) (n : Nat) (x y : Int) : (FV.fin s n x).num * (2 : ℚ) ^ y = (FV.fin s n (x + y)).num := by
  rw [num_fin, num_fin, mul_assoc, ← zpow_add₀ two_ne_zero]

theorem num_unscale (s : Bool) (n : Nat) (x y : Int) : (FV.fin s n x).num / (2 : ℚ) ^ y = (FV.fin s n (x - y)).num := by
  rw [div_eq_mul_inv, ← zpow_neg, num_scale, sub_eq_add_neg]

theorem not_isInf_fin (s : Bool) (n : Nat) (x : Int) : ¬(FV.fin s n x).isInf = true := Bool.false_ne_true

theorem isZero_fin {s : Bool} {n : Nat} {x : Int} : (FV.fin s n x).isZero = true ↔ n = 0 := beq_iff_eq

/-- R153, MODE 0: a value quantised to an element of a block. -/
theorem mxQuant_spec (hmx : mx ∈ [Ty.i8x8, .e4m3x8, .e5m2x8, .e3m2x8, .e2m3x8, .e2m1x16]) (sc : Nat) (v : FV) :
    let w := (2 : ℚ) ^ ((sc : Int) - 127)
    let r := mxQuant mx rm sc v
    if sc = 0xFF ∨ v.isNan = true then r = (if mx = .e4m3x8 then 0x7F else if mx = .e5m2x8 then 0x7E else 0, fNV)
    else if mx = .i8x8 then
      (if v.isInf then r = (if v.sign then 0x81 else 0x7F, fOF ||| fNX)
      else ∃ k inexact, RoundsTo (fun k => (k : ℚ)) rm v.sign (· < |v.num / w * 64|) (· = |v.num / w * 64|) k inexact ∧
        IsInt .i8x8 (satI (if v.sign then -(k : Int) else k) (-128) 127) r.1 ∧ r.2 = if inexact then fNX else 0)
    else if v.isInf then r = (withSign (tyFmt mx) v.sign (tyFmt mx).maxCode, fOF ||| fNX)
    else if v.isZero then r = (withSign (tyFmt mx) v.sign 0, 0)
    else RoundedQ { tyFmt mx with hasInf := false } rm false (v.num / w) r := by
  intro w r
  simp only [r]
  unfold mxQuant
  by_cases hnan : sc = 0xFF ∨ v.isNan = true
  · have hnan' : (decide (sc = 0xFF) || v.isNan) = true := by simpa using hnan
    rw [if_pos hnan, if_pos hnan']
    revert hmx
    cases mx <;> simp
  have hnan' : ¬(decide (sc = 0xFF) || v.isNan) = true := by simpa using hnan
  rw [if_neg hnan, if_neg hnan']
  by_cases hi8 : mx = .i8x8
  · have hi8' : (mx == .i8x8) = true := beq_iff_eq.2 hi8
    rw [if_pos hi8, if_pos hi8']
    cases v with
    | nan s => exact absurd (Or.inr rfl) hnan
    | inf s => rfl
    | fin s n x =>
      obtain ⟨k, inexact, hround, hint⟩ := roundInt_spec (rm := rm) (s := s) n (x + 127 - (sc : Int) + 6)
      have hval : |(FV.fin s n x).num / w * 64| = n * (2 : ℚ) ^ (x + 127 - (sc : Int) + 6) := by
        have h64 : (64 : ℚ) = (2 : ℚ) ^ (6 : Int) := by norm_num
        rw [num_unscale, h64, num_scale, abs_num_fin]
        congr 2
        ring
      refine ⟨k, inexact, by rwa [hval], ?_⟩
      dsimp only [FV.sign]
      rw [hint]
      exact ⟨isInt_truncN (ty := .i8x8) (satI_range _ _ _ (by decide)), rfl⟩
  · have hi8' : ¬(mx == .i8x8) = true := mt beq_iff_eq.1 hi8
    rw [if_neg hi8, if_neg hi8']
    cases v with
    | nan s => exact absurd (Or.inr rfl) hnan
    | inf s => rfl
    | fin s n x =>
      rw [if_neg (not_isInf_fin s n x)]
      by_cases h0 : n = 0
      · rw [if_pos (isZero_fin.2 h0), h0]
        rfl
      · rw [if_neg (mt isZero_fin.1 h0), num_unscale, show x - ((sc : Int) - 127) = x + 127 - (sc : Int) by ring]
        exact roundF_roundedQ (f := { tyFmt mx with hasInf := false }) (tyFmt_t_pos mx) s h0 _

theorem mxDequant_eq {d : Fmt} {sc x : Nat} {v : FV} : mxVal mx x = v → mxDequant d mx rm sc x =
    if sc = 0xFF || v.isNan then nanRes d 0
    else match v with
      | .fin sg n x => roundF d rm false sg n (x + (sc : Int) - 127)
      | .inf sg => infRes d sg 0
      | .nan _ => nanRes d 0 := by
  rintro rfl
  rfl

/-- R153, MODE 1: an element of a block dequantised. -/
theorem mxDequant_spec {d : Fmt} (ht : 0 < d.t) (hi : d.hasInf = true) (sc x : Nat) :
    let v := if mx = .i8x8 then FV.fin (decide (sextN 8 x < 0)) (sextN 8 x).natAbs (-6) else unpackF (tyFmt mx) (x % 2 ^ fmtW (tyFmt mx))
    let r := mxDequant d mx rm sc x
    if sc = 0xFF ∨ v.isNan = true then r = nanRes d 0
    else if v.isInf then r = (withSign d v.sign (fmtInf d), 0)
    else if v.isZero then r = (withSign d v.sign 0, 0)
    else RoundedQ d rm false (v.num * (2 : ℚ) ^ ((sc : Int) - 127)) r := by
  intro v r
  have hv : mxVal mx x = v := by
    simp only [mxVal, v, beq_iff_eq]
  simp only [r]
  rw [mxDequant_eq hv]
  clear_value v
  by_cases hnan : sc = 0xFF ∨ v.isNan = true
  · have hnan' : (decide (sc = 0xFF) || v.isNan) = true := by simpa using hnan
    rw [if_pos hnan]
    exact if_pos hnan'
  have hnan' : ¬(decide (sc = 0xFF) || v.isNan) = true := by simpa using hnan
  rw [if_neg hnan]
  rw [if_neg hnan']
  cases v with
  | nan s => exact absurd (Or.inr rfl) hnan
  | inf s => simp [FV.isInf, FV.sign, infRes, hi]
  | fin s n x =>
    rw [if_neg (not_isInf_fin s n x)]
    by_cases h0 : n = 0
    · rw [if_pos (isZero_fin.2 h0), h0]
      rfl
    · rw [if_neg (mt isZero_fin.1 h0), num_scale, show x + ((sc : Int) - 127) = x + (sc : Int) - 127 by ring]
      exact roundF_roundedQ ht s h0 _

/-- A quantised value is a pattern of the element. -/
theorem mxQuant_lt (hmx : mx ∈ [Ty.i8x8, .e4m3x8, .e5m2x8, .e3m2x8, .e2m3x8, .e2m1x16]) (sc : Nat) (v : FV) :
    (mxQuant mx rm sc v).1 < 2 ^ tyW mx := by
  have hspec := mxQuant_spec (rm := rm) hmx sc v
  extract_lets w r at hspec
  change r.1 < _
  clear_value r
  split at hspec
  · rw [hspec]
    revert hmx
    cases mx <;> decide
  split at hspec
  · next hi8 =>
    subst hi8
    split at hspec
    · rw [hspec]
      cases v.sign <;> decide
    · obtain ⟨k, inexact, -, hint, -⟩ := hspec
      exact hint.1
  next hi8 =>
  have hfits : Fmt.Fits { tyFmt mx with hasInf := false } := by
    obtain ⟨hmax, -, hnan⟩ := tyFmt_fits mx
    exact ⟨hmax, fun h => absurd h Bool.false_ne_true, hnan⟩
  have hw : fmtW (tyFmt mx) ≤ tyW mx := by
    revert hmx hi8
    cases mx <;> decide
  refine lt_of_lt_of_le (b := 2 ^ fmtW (tyFmt mx)) ?_ (Nat.pow_le_pow_right (by decide) hw)
  split at hspec
  · exact hspec ▸ withSign_lt (tyFmt_fits mx).max _
  split at hspec
  · exact hspec ▸ withSign_zero_lt _ _
  · exact RoundedQ.lt (f := { tyFmt mx with hasInf := false }) hfits hspec

/-- A dequantised value is a pattern of its type. -/
theorem mxDequant_lt {d : Fmt} (hf : d.Fits) (sc x : Nat) : (mxDequant d mx rm sc x).1 < 2 ^ fmtW d := by
  rw [mxDequant_eq rfl]
  split
  · exact nanRes_lt hf _
  · split
    · exact roundF_lt hf ..
    · exact infRes_lt hf ..
    · exact nanRes_lt hf _

theorem unpackF_mag (f : Fmt) (b : Nat) : unpackF f (b % 2 ^ (f.e + f.t)) = match unpackF f b with
    | .fin _ n x => .fin false n x
    | .inf _ => .inf false
    | .nan s => .nan s := by
  have hmag : fmtMag f (b % 2 ^ (f.e + f.t)) = fmtMag f b := Nat.mod_mod ..
  have hsign : fmtSign f (b % 2 ^ (f.e + f.t)) = false := by
    rw [fmtSign_eq_testBit, Nat.testBit_mod_two_pow]
    simp
  unfold unpackF
  rw [hmag, hsign]
  extract_lets c s
  by_cases hmax : c ≤ f.maxCode
  · rw [if_pos hmax, if_pos hmax]
  · rw [if_neg hmax, if_neg hmax]
    by_cases hinf : (f.hasInf && c == fmtInf f) = true
    · rw [if_pos hinf, if_pos hinf]
    · rw [if_neg hinf, if_neg hinf]

/-- The binary exponent of a number. -/
theorem log2N_bounds {n : Nat} (hn : n ≠ 0) (x : Int) :
    (2 : ℚ) ^ ((log2N n : Int) + x) ≤ n * (2 : ℚ) ^ x ∧ n * (2 : ℚ) ^ x < (2 : ℚ) ^ ((log2N n : Int) + x + 1) := by
  have hlow : (2 : ℚ) ^ (log2N n : Int) ≤ n := by exact_mod_cast Nat.log2_self_le hn
  have hhigh : (n : ℚ) < (2 : ℚ) ^ ((log2N n : Int) + 1) := by exact_mod_cast Nat.lt_log2_self (n := n)
  rw [add_right_comm, zpow_add₀ two_ne_zero, zpow_add₀ two_ne_zero _ x]
  constructor <;> gcongr

/-- R153, MODE 2: the scale of a block. -/
theorem mxScale_spec (a : Nat) : match unpackF fmtF32 a with
    | .fin sg n x => if n = 0 then wordOf (mxScale mx a) = 0 else
        ∃ e : Int, (2 : ℚ) ^ e ≤ |(FV.fin sg n x).num| ∧ |(FV.fin sg n x).num| < 2 ^ (e + 1) ∧
          (wordOf (mxScale mx a)).toInt = satI (e - mxEmax mx) (-127) 127 + 127
    | _ => wordOf (mxScale mx a) = 0xFF := by
  have hmag := unpackF_mag fmtF32 a
  have hpat : a % 2 ^ (fmtF32.e + fmtF32.t) = a % 2 ^ 31 := rfl
  rw [hpat] at hmag
  unfold mxScale
  rw [hmag]
  cases unpackF fmtF32 a with
  | nan s => rfl
  | inf s => rfl
  | fin s n x =>
    dsimp only
    split
    · rfl
    · next h0 =>
      obtain ⟨hlow, hhigh⟩ := log2N_bounds h0 x
      refine ⟨(log2N n : Int) + x, by rwa [abs_num_fin], by rwa [abs_num_fin], ?_⟩
      obtain ⟨h1, h2⟩ := satI_range ((log2N n : Int) + x - mxEmax mx) (-127) 127 (by decide)
      generalize satI ((log2N n : Int) + x - mxEmax mx) (-127) 127 = z at *
      obtain ⟨k, hk⟩ : ∃ k : Nat, z + 127 = k := ⟨(z + 127).toNat, by omega⟩
      have hnat : (wordOf k).toNat = k := by
        rw [wordOf, BitVec.toNat_ofNat]
        exact Nat.mod_eq_of_lt (by omega)
      rw [hk, Int.toNat_natCast, BitVec.toInt_eq_toNat_of_lt (by rw [hnat]; omega), hnat]

end Mx

/-- Settles O16: a block scale is a power of two, so an element times or over it is again dyadic and is rounded once. -/
theorem mxConversions : Obligations.MxConversions := by
  intro o mx wt rm grp s t c h hr hmx sc w
  refine ⟨fun hwt => ?_, fun hwt _ => ?_, ?_⟩
  · have hn : tyN wt = 4 ∧ 8 ≤ tyN mx := by
      constructor
      · rcases hwt with rfl | rfl <;> rfl
      · revert hmx
        cases mx <;> decide
    have hexec : exec (.cvtmxQ o mx wt rm) s = aluRun o {} s (fun r l => fltRes mx ((List.range (2 * tyN wt)).map (fun k =>
        mxQuant mx rm (wfld (r.cc l) 0 8) (unpackF (tyFmt wt) (if k < tyN wt then r.ea wt l k else r.eb wt l (k - tyN wt)))))) :=
      congrArg (aluRun o {} s) (funext fun r => funext fun l => congrArg (fltRes mx) (by
        rw [idxs, range_append_map, List.map_map]
        rfl))
    rw [hn.1] at hexec
    refine givesFloat_of_range hn.2 hexec hr (fun l k _ => mxQuant_lt hmx ..) (fun l k _ => ?_)
    by_cases hk : k < 8
    · rw [if_pos hk, if_neg (not_le.2 hk)]
      exact mxQuant_spec hmx _ _
    · rw [if_neg hk, if_pos (not_lt.1 hk)]
  · have hfit : tyFlt wt = true := by rcases hwt with rfl | rfl <;> rfl
    refine givesFloat_of_fltMap (g := fun r l j => mxDequant (tyFmt wt) mx rm (wfld (r.cc l) 0 8) (r.ea mx l (tyN wt * grp + j))) rfl hr
      (fun l k => ⟨?_, mxDequant_spec (tyFmt_t_pos wt) (tyFlt_fmt hfit).2.1 _ _⟩)
    rw [← fmtW_eq_tyW hfit]
    exact mxDequant_lt (tyFmt_fits wt) _ _
  · exact gives_of_aluRun (res := fun r l => { val := wordOf (mxScale mx (r.ea .f32 l 0)) }) rfl hr rfl (fun _ => rfl)
      (fun l _ => mxScale_spec _)

end Sys2Proof.Machine

namespace Sys2Proof.Machine

/-! ## Cross-lane instructions (R154) -/

section Cross
variable {o : Ops} {s : State} {t c l m seg : Nat} {h : Cohort} {needs : Nat → List Nat}

theorem Run.instead_none (r : Run) (after : List Nat) {bad : Nat → Bool} (cls reason : Nat) (hflt : r.flt = []) (hbad : ∀ l ∈ r.on, bad l = false) :
    r.instead after bad cls reason = r := by
  unfold Run.instead
  have hsame : ({ r with flt := r.flt.filter (fun p => !(after.contains p.2.cls && bad p.1)) } : Run) = r := by
    rw [hflt, List.filter_nil, ← hflt]
  rw [hsame]
  exact Run.check_none _ _ _ (fun l hl => by rw [hbad l hl]; rfl)

/-- The A that the writers read are full and sound: no writer meets a fault on them. -/
theorem judgeA_ready (hr : CrossReady o s t c h needs) {reads : Nat → List Nat}
    (hreads : ∀ l ∈ s.performers t c h o.g false, ∀ m ∈ reads l, m ∈ needs l) :
    (readyRun o { ownA := true } s t c h).judgeA reads = readyRun o { ownA := true } s t c h := by
  have hfull : ∀ l ∈ (readyRun o { ownA := true } s t c h).on, (reads l).any (fun m => !srcFull (readyRun o { ownA := true } s t c h).T
      ((readyRun o { ownA := true } s t c h).L m) (fun n => ((readyRun o { ownA := true } s t c h).head n).isSome)
      (readyRun o { ownA := true } s t c h).o.ib (readyRun o { ownA := true } s t c h).o.a.op) = false := fun l hl =>
    List.any_eq_false.2 (fun m hm => by
      rw [Bool.not_eq_true', Bool.not_eq_false]
      exact hr.full l hl m (hreads l hl m hm))
  have hsound : ∀ l ∈ (readyRun o { ownA := true } s t c h).on, (reads l).any (fun m => srcBad (readyRun o { ownA := true } s t c h).T
      ((readyRun o { ownA := true } s t c h).L m) (readyRun o { ownA := true } s t c h).o.ib (readyRun o { ownA := true } s t c h).o.a.op) = false :=
    fun l hl => List.any_eq_false.2 (fun m hm => by
      rw [Bool.not_eq_true]
      exact hr.soundA l hl m (hreads l hl m hm))
  rw [Run.judgeA, Run.instead_none _ _ _ _ rfl hfull, Run.instead_none _ _ _ _ rfl hsound]

/-- No participant's A fails an operand check. -/
theorem noA_ready (hr : CrossReady o s t c h needs) (hm : m ∈ s.activeOf t c h) : (readyRun o { ownA := true } s t c h).noA m = false := by
  have hnamed : fieldFault (s.team t).split.regs (s.lane t c m) o.ib 1 o.a.op = none := hr.named m hm
  exact Option.isSome_eq_false_iff.2 (Option.isNone_iff_eq_none.2 hnamed)

theorem crossRun_ready (hr : CrossReady o s t c h needs) {reads : Run → Nat → List Nat} (res : Run → Nat → LRes)
    (hreads : ∀ l ∈ s.performers t c h o.g false, ∀ m ∈ reads (readyRun o { ownA := true } s t c h) l, m ∈ needs l) :
    crossRun o s reads res = .next (((readyRun o { ownA := true } s t c h).write (res (readyRun o { ownA := true } s t c h))).finish) := by
  unfold crossRun
  rw [withRun_ready hr.ready, judgeA_ready hr hreads]
  obtain ⟨W, hW, -⟩ := write_flags (res := res (readyRun o { ownA := true } s t c h)) hr.ready rfl
  rw [hW]
  have hany : (readyRun o { ownA := true } s t c h).act.any (readyRun o { ownA := true } s t c h).noA = false :=
    List.any_eq_false.2 (fun m hm => by rw [noA_ready hr hm]; exact Bool.false_ne_true)
  exact congrArg (fun q : Run => Host.Outcome.next q.finish) (if_neg (by rw [Bool.not_eq_true]; exact hany))

/-- A cross-lane instruction whose results raise no flag gives them. -/
theorem gives_of_crossRun {i : Instr} {R : Nat → Word → Prop} {reads : Run → Nat → List Nat} {res : Run → Nat → LRes}
    (hexec : exec i s = crossRun o s reads res) (hr : CrossReady o s t c h needs)
    (hreads : ∀ l ∈ s.performers t c h o.g false, ∀ m ∈ reads (readyRun o { ownA := true } s t c h) l, m ∈ needs l)
    (hflags : ∀ l, (res (readyRun o { ownA := true } s t c h) l).flags = 0)
    (hR : ∀ l ∈ s.performers t c h o.g false, R l (res (readyRun o { ownA := true } s t c h) l).val) : Gives i o false s t c h R := by
  obtain ⟨s', hs, hw⟩ := aluRun_plain hr.ready res hflags
  rw [aluRun_ready hr.ready] at hs
  exact ⟨s', _, (hexec.trans (crossRun_ready hr res hreads)).trans hs, hw, hR⟩

/-- The A of a lane that performs the instruction, or of another participant. -/
theorem xa_ready (hr : CrossReady o s t c h needs) (hm : m ∈ s.activeOf t c h) :
    (readyRun o { ownA := true } s t c h).xa m = s.srcWord t c m o o.a.op := by
  rw [Run.xa, noA_ready hr hm]
  rfl

theorem active_of_performers (hl : l ∈ s.performers t c h o.g false) : l ∈ s.activeOf t c h := by
  have hguarded : l ∈ s.guarded t c h o.g := hl
  exact List.mem_of_mem_filter hguarded

/-- The lanes whose A a moving instruction reads (R155, R156). -/
theorem orOwn_ready (src : Nat) : (readyRun o { ownA := true } s t c h).orOwn l src = if src ∈ s.activeOf t c h then src else l := by
  have hown : (readyRun o { ownA := true } s t c h).orOwn l src = if (s.activeOf t c h).contains src = true then src else l := rfl
  rw [hown]
  simp only [List.contains_iff_mem]

/-- A whole register from the lane `src`, or the writer's own (R155, R156). -/
theorem gives_of_moveRun {i : Instr} {src : Nat → Nat} {f : Run → Nat → Nat} (hexec : exec i s = moveRun o s f)
    (hr : CrossReady o s t c h (fun l => [if src l ∈ s.activeOf t c h then src l else l]))
    (hsrc : ∀ l ∈ s.performers t c h o.g false, f (readyRun o { ownA := true } s t c h) l = src l) :
    Gives i o false s t c h (fun l w => w = s.srcWord t c (if src l ∈ s.activeOf t c h then src l else l) o o.a.op) := by
  have hown : ∀ l ∈ s.performers t c h o.g false, (readyRun o { ownA := true } s t c h).orOwn l (f (readyRun o { ownA := true } s t c h) l) =
      if src l ∈ s.activeOf t c h then src l else l := fun l hl => by rw [orOwn_ready, hsrc l hl]
  refine gives_of_crossRun hexec hr (fun l hl m hm => ?_) (fun _ => rfl) (fun l hl => ?_)
  · rwa [hown l hl] at hm
  · dsimp only
    rw [hown l hl, xa_ready hr]
    split
    · assumption
    · exact active_of_performers hl

/-- Which contributors of its segment a writer combines: all of them, or those up to it (R157). -/
def upTo (upto : Option Bool) (l m : Nat) : Bool :=
  match upto with
  | none => true
  | some excl => if excl then decide (m < l) else decide (m ≤ l)

/-- The contributors that a writer combines (R154, R157). -/
theorem combined_ready (upto : Option Bool) :
    (readyRun o { ownA := true } s t c h).combined seg l upto = (s.contributors t c h o.g seg l).filter (upTo upto l) := by
  have hcomb : (readyRun o { ownA := true } s t c h).combined seg l upto =
      ((s.performers t c h o.g false).filter (fun m => (s.lane t c m).cls == .live)).filter (fun m => sameSeg seg l m && upTo upto l m) := by
    cases upto <;> rfl
  rw [hcomb, State.contributors, List.filter_filter, List.filter_filter]
  refine List.filter_congr (fun m _ => ?_)
  rw [sameSeg, segSize, Bool.beq_comm (a := l / _)]
  cases m / (32 / 2 ^ seg) == l / (32 / 2 ^ seg) <;> cases (s.lane t c m).cls == .live <;> simp

theorem mem_contributors : m ∈ s.contributors t c h o.g seg l → m ∈ s.performers t c h o.g false ∧ m ∈ s.activeOf t c h := fun hm =>
  have hperf := List.mem_of_mem_filter hm
  ⟨hperf, active_of_performers hperf⟩

end Cross

/-! ## Combinations of elements (R157) -/

section Combine
variable {ty : Ty} {op : COp}

theorem faddE_eq (f : Fmt) (rm : RM) (x y : Nat) : faddE f rm false false x y =
    if (unpackF f x).isNan || (unpackF f y).isNan then nanRes f (sigNV [unpackF f x, unpackF f y]) else addFV f rm false (unpackF f x) (unpackF f y) := rfl

/-- The operations that combine elements of a type (R157). -/
def Combines (ty : Ty) (op : COp) : Prop := tyInt ty = true ∨ tyFlt ty = true ∧ (op = .add ∨ op = .min ∨ op = .max)

theorem tyInt_eq_false {ty : Ty} (hf : tyFlt ty = true) : tyInt ty = false := by
  revert hf
  cases ty <;> decide

theorem minMax_pick (f : Fmt) (isMax : Bool) (x y : Nat) : PickF f isMax x y (fminE f false isMax false x y) :=
  fminE_spec (f := f) (ftz := false) isMax false x y

theorem pickF_lt {f : Fmt} (hf : f.Fits) {isMax : Bool} {x y W : Nat} (hx : x < 2 ^ W) (hy : y < 2 ^ W) (hW : fmtW f = W) {r : FRes} (h : PickF f isMax x y r) :
    r.1 < 2 ^ W := by
  unfold PickF at h
  extract_lets a b at h
  split at h
  · rw [h, ← hW]
    exact nanOf_lt hf _
  split at h
  · rw [h]
    dsimp only
    split
    · exact hy
    · exact hx
  · obtain ⟨hyes, hno⟩ := h
    by_cases hless : if isMax then a.below b else b.below a
    · rwa [hyes hless]
    · rwa [hno hless]

theorem add_step {f : Fmt} (ht : 0 < f.t) (hi : f.hasInf = true) (x y : Nat) :
    if (unpackF f x).isNan || (unpackF f y).isNan then faddE f .rne false false x y = nanOf f [unpackF f x, unpackF f y]
    else SumIs f .rne false [unpackF f x, unpackF f y] (faddE f .rne false false x y) :=
  add_spec ht hi (unpackF f x) (unpackF f y)

/-- One step of a combination of integers. -/
theorem combine_int (hi : tyInt ty = true) {x y : Nat} (hx : x < 2 ^ tyW ty) (hy : y < 2 ^ tyW ty) :
    StepIs ty op x y (combine ty op x y) ∧ (combine ty op x y).1 < 2 ^ tyW ty := by
  unfold StepIs combine
  rw [if_pos hi, if_pos hi]
  have hlt : ∀ r, r < 2 ^ tyW ty → ∀ P : Prop, P → ((0 = 0 ∧ r < 2 ^ tyW ty ∧ P) ∧ r < 2 ^ tyW ty) := fun r hr P hP => ⟨⟨rfl, hr, hP⟩, hr⟩
  cases op with
  | add => exact hlt _ (cut_lt ..) _ (intIs_cut ..)
  | min => exact hlt _ (cut_lt ..) _ (valI_cut_minI hx hy)
  | max => exact hlt _ (cut_lt ..) _ (valI_cut_maxI hx hy)
  | and => exact hlt _ (Nat.and_lt_two_pow _ hy) _ rfl
  | or => exact hlt _ (Nat.or_lt_two_pow hx hy) _ rfl
  | xor => exact hlt _ (Nat.xor_lt_two_pow hx hy) _ rfl

/-- One step of a combination of floats. -/
theorem combine_flt (hf : tyFlt ty = true) (hop : op = .add ∨ op = .min ∨ op = .max) {x y : Nat} (hx : x < 2 ^ tyW ty) (hy : y < 2 ^ tyW ty) :
    StepIs ty op x y (combine ty op x y) ∧ (combine ty op x y).1 < 2 ^ tyW ty := by
  have hfits := tyFmt_fits ty
  have hwidth := fmtW_eq_tyW hf
  have hinf := (tyFlt_fmt hf).2.1
  have hi : ¬tyInt ty = true := by rw [tyInt_eq_false hf]; exact Bool.false_ne_true
  unfold StepIs combine
  rw [if_neg hi, if_neg hi]
  obtain rfl | rfl | rfl := hop
  · have hadd := add_step (tyFmt_t_pos ty) hinf x y
    refine ⟨hadd, ?_⟩
    dsimp only
    rw [← hwidth]
    split at hadd
    · exact hadd ▸ nanOf_lt hfits _
    · exact hadd.lt hfits hinf
  · exact ⟨minMax_pick .., pickF_lt hfits hx hy hwidth (minMax_pick ..)⟩
  · exact ⟨minMax_pick .., pickF_lt hfits hx hy hwidth (minMax_pick ..)⟩

/-- One step of a combination. -/
theorem combine_spec (hop : Combines ty op) {x y : Nat} (hx : x < 2 ^ tyW ty) (hy : y < 2 ^ tyW ty) :
    StepIs ty op x y (combine ty op x y) ∧ (combine ty op x y).1 < 2 ^ tyW ty :=
  hop.elim (fun hi => combine_int hi hx hy) (fun hf => combine_flt hf.1 hf.2 hx hy)

/-- A combination from what stands so far. -/
theorem chain_spec (hop : Combines ty op) (ys : List Nat) {a : FRes} (ha : a.1 < 2 ^ tyW ty) (hys : ∀ y ∈ ys, y < 2 ^ tyW ty) :
    ChainIs ty op a ys (ys.foldl (fun a y => ((combine ty op a.1 y).1, a.2 ||| (combine ty op a.1 y).2)) a) ∧
    (ys.foldl (fun a y => ((combine ty op a.1 y).1, a.2 ||| (combine ty op a.1 y).2)) a).1 < 2 ^ tyW ty := by
  induction ys generalizing a with
  | nil => exact ⟨rfl, ha⟩
  | cons y ys ih =>
    obtain ⟨hstep, hlt⟩ := combine_spec hop ha (hys y (by simp))
    obtain ⟨hchain, hlt'⟩ := ih (a := ((combine ty op a.1 y).1, a.2 ||| (combine ty op a.1 y).2)) hlt (fun z hz => hys z (by simp [hz]))
    exact ⟨⟨_, hstep, hchain⟩, hlt'⟩

/-- The first contributor of a combination (R119). -/
theorem contributed_eq (ty : Ty) (x : Nat) :
    contributed ty x = if !tyInt ty && (unpackF (tyFmt ty) x).isNan then nanOf (tyFmt ty) [unpackF (tyFmt ty) x] else (x, 0) := by
  unfold contributed
  cases tyInt ty with
  | true => rfl
  | false => cases unpackF (tyFmt ty) x <;> simp [FV.isNan, nanOf, FV.isSig]

theorem contributed_lt (hop : Combines ty op) {x : Nat} (hx : x < 2 ^ tyW ty) : (contributed ty x).1 < 2 ^ tyW ty := by
  rw [contributed_eq]
  split
  · next h =>
    obtain hi | ⟨hf, -⟩ := hop
    · rw [hi] at h
      exact absurd h Bool.false_ne_true
    · rw [← fmtW_eq_tyW hf]
      exact nanOf_lt (tyFmt_fits ty) _
  · exact hx

theorem unpackF_inf {f : Fmt} (hf : f.Fits) (hi : f.hasInf = true) (sg : Bool) : unpackF f (withSign f sg (fmtInf f)) = .inf sg := by
  unfold unpackF
  rw [fmtMag_withSign (hf.inf hi), fmtSign_withSign (hf.inf hi)]
  simp [fmtInf, hi]

/-- What an empty combination gives (R157). -/
theorem ident_spec (hop : Combines ty op) : CombinedIs ty op [] (identE ty op, 0) ∧ identE ty op < 2 ^ tyW ty := by
  have hlt : ∀ r, r < 2 ^ tyW ty → ∀ P : Prop, P → ((0 = 0 ∧ r < 2 ^ tyW ty ∧ P) ∧ r < 2 ^ tyW ty) := fun r hr P hP => ⟨⟨rfl, hr, hP⟩, hr⟩
  have hpos := Nat.two_pow_pos (tyW ty)
  have hbounds : tyLo ty ≤ tyHi ty := intLo_le_intHi ty
  unfold CombinedIs identE
  obtain hi | ⟨hf, hop⟩ := hop
  · rw [if_pos hi, if_pos hi]
    cases op with
    | min => exact hlt _ (cut_lt ty false _) _ (valI_cut_of_bounds ⟨hbounds, le_rfl⟩ false)
    | max => exact hlt _ (cut_lt ty false _) _ (valI_cut_of_bounds ⟨le_rfl, hbounds⟩ false)
    | and => exact hlt _ (Nat.sub_lt hpos Nat.one_pos) _ rfl
    | add | or | xor => exact hlt _ hpos _ rfl
  · have hi : ¬tyInt ty = true := by rw [tyInt_eq_false hf]; exact Bool.false_ne_true
    have hfits := tyFmt_fits ty
    have hinf := (tyFlt_fmt hf).2.1
    rw [if_neg hi, if_neg hi]
    obtain rfl | rfl | rfl := hop
    · exact hlt _ hpos _ rfl
    · exact hlt _ (fmtW_eq_tyW hf ▸ withSign_inf_lt hfits hinf _) _ (unpackF_inf hfits hinf _)
    · exact hlt _ (fmtW_eq_tyW hf ▸ withSign_inf_lt hfits hinf _) _ (unpackF_inf hfits hinf _)

/-- A left-to-right combination of elements. -/
theorem combineAll_spec (hop : Combines ty op) {xs : List Nat} (hxs : ∀ x ∈ xs, x < 2 ^ tyW ty) :
    CombinedIs ty op xs (combineAll ty op xs) ∧ (combineAll ty op xs).1 < 2 ^ tyW ty := by
  cases xs with
  | nil => exact ident_spec hop
  | cons x xs =>
    have hchain := chain_spec hop xs (contributed_lt hop (hxs x (by simp))) (fun y hy => hxs y (by simp [hy]))
    rw [contributed_eq] at hchain
    have hall : combineAll ty op (x :: xs) =
        xs.foldl (fun a y => ((combine ty op a.1 y).1, a.2 ||| (combine ty op a.1 y).2)) (contributed ty x) := rfl
    rw [hall, contributed_eq]
    exact hchain

end Combine

section Combined
variable {i : Instr} {o : Ops} {s : State} {t c seg : Nat} {h : Cohort} {ty : Ty} {op : COp}

/-- A reduction or scan gives the combinations of its contributors' elements (R157). -/
theorem givesFloat_of_combineRun {upto : Option Bool} (hop : Combines ty op) (hexec : exec i s = combineRun o ty op seg upto s)
    (hr : CrossReady o s t c h (fun l => (s.contributors t c h o.g seg l).filter (upTo upto l))) :
    GivesFloat i o s t c h ty (fun l n => CombinedIs ty op
      (((s.contributors t c h o.g seg l).filter (upTo upto l)).map (fun m => s.srcElem t c m o ty o.a.op n))) := by
  have helem : ∀ l n, ((readyRun o { ownA := true } s t c h).combined seg l upto).map (fun m => (readyRun o { ownA := true } s t c h).xe ty m n) =
      ((s.contributors t c h o.g seg l).filter (upTo upto l)).map (fun m => s.srcElem t c m o ty o.a.op n) := fun l n => by
    rw [combined_ready]
    refine List.map_congr_left (fun m hm => ?_)
    rw [Run.xe, xa_ready hr (mem_contributors (List.mem_of_mem_filter hm)).2]
    rfl
  have hall := fun l n => combineAll_spec hop (xs := ((s.contributors t c h o.g seg l).filter (upTo upto l)).map (fun m => s.srcElem t c m o ty o.a.op n))
    (fun x hx => by
      obtain ⟨m, -, rfl⟩ := List.mem_map.1 hx
      exact srcElem_lt ..)
  have hrun := crossRun_ready hr (reads := fun r l => r.combined seg l upto) (fun r l =>
    fltMap ty (fun n => combineAll ty op ((r.combined seg l upto).map (fun m => r.xe ty m n)))) (fun l _ m hm => by rwa [combined_ready] at hm)
  simp only [helem] at hrun
  refine givesFlags_of_run hr.ready rfl (hexec.trans hrun) (fun l _ => ?_)
  obtain ⟨hholds, hflags⟩ := fltRes_holds (ty := ty) le_rfl (fun n _ => (hall l n).2)
  exact ⟨_, hholds, hflags, fun n hn => by rw [if_pos hn]; exact (hall l n).1⟩

end Combined

/-- Settles O18: under `CrossReady` no lane meets a fault on another's A, so a cross-lane instruction is its results written and ended. -/
theorem crossLane : Obligations.CrossLane := by
  refine ⟨?_, ?_⟩
  · intro o s t c h src from' hr B gives
    refine ⟨?_, fun hsrc => ?_, fun hsrc => ?_, fun hsrc => ?_, fun n _ hsrc => ?_⟩
    · intro mode seg hmode _ S hsrc
      refine gives_of_moveRun rfl hr (fun l _ => (?_ : _ = _).trans (hsrc l).symm)
      obtain rfl | rfl | rfl | rfl : mode = 0 ∨ mode = 1 ∨ mode = 2 ∨ mode = 3 := by omega
      all_goals rfl
    · exact gives_of_moveRun rfl hr (fun l _ => (hsrc l).symm)
    · exact gives_of_moveRun rfl hr (fun l _ => (hsrc l).symm)
    · exact gives_of_moveRun rfl hr (fun l _ => (hsrc l).symm)
    · exact gives_of_moveRun rfl hr (fun l _ => (hsrc l).symm)
  · intro o ty op seg excl s t c h _ cs A upto
    have hall : (fun l => (cs l).filter (upTo none l)) = cs := funext fun l => List.filter_eq_self.2 (fun _ _ => rfl)
    refine ⟨fun hop => ⟨fun hr => ?_, fun hr => givesFloat_of_combineRun (upto := some excl) hop rfl hr⟩, fun hr => ?_⟩
    · have hred := givesFloat_of_combineRun (i := .credc o ty op seg) (upto := none) hop rfl (by rwa [← hall] at hr)
      rw [← hall]
      exact hred
    · have hcomb : ∀ l, (readyRun o { ownA := true } s t c h).combined seg l none = cs l := fun l => (combined_ready none).trans (congrFun hall l)
      have helem : ∀ {m}, m ∈ s.activeOf t c h → (readyRun o { ownA := true } s t c h).xe ty m 0 = A 0 m := fun hm => by
        rw [Run.xe, xa_ready hr hm]
        rfl
      refine gives_of_crossRun rfl hr (fun l _ m hm => by rwa [hcomb] at hm) (fun _ => rfl) (fun l hl j hj => ?_)
      dsimp only
      rw [BitVec.getLsbD_ofNat, decide_eq_true hj, Bool.true_and, testBit_maskOf, List.contains_iff_mem, List.mem_filter, hcomb, beq_iff_eq]
      refine and_congr_right (fun hjs => ?_)
      rw [helem (mem_contributors hjs).2, helem (active_of_performers hl)]

end Sys2Proof.Machine

namespace Sys2Proof.Machine

/-! ## The special functions at special values (R147 to R149) -/

/-- The patterns that the table of R149 names. -/
inductive SpecialPat where
  | nan
  | inf (s : Bool)
  | zero (s : Bool)
  | one (s : Bool)
  | two

/-- A pattern of the table in a format. -/
def patOf (f : Fmt) : SpecialPat → Nat
  | .nan => f.nan.getD 0
  | .inf s => withSign f s (fmtInf f)
  | .zero s => withSign f s 0
  | .one s => withSign f s (f.bias * 2 ^ f.t)
  | .two => withSign f false ((f.bias + 1) * 2 ^ f.t)

/-- The table of R149, for every format: what a special function gives at a value, where the table fixes it. -/
def sfnSpecial (fn : SFn) (v : FV) : Option (SpecialPat × Nat) :=
  match v with
  | .nan s => some (.nan, if s then fNV else 0)
  | .inf s => match fn with
    | .rcp => some (.zero s, 0)
    | .rsq => some (if s then (.nan, fNV) else (.zero false, 0))
    | .ex2 => some (if s then .zero false else .inf false, 0)
    | .lg2 => some (if s then (.nan, fNV) else (.inf false, 0))
    | .sin | .cos => some (.nan, fNV)
    | .tanh => some (.one s, 0)
  | .fin s n x =>
    if n = 0 then match fn with
      | .rcp | .rsq => some (.inf s, fDZ)
      | .ex2 | .cos => some (.one false, 0)
      | .lg2 => some (.inf true, fDZ)
      | .sin | .tanh => some (.zero s, 0)
    else if s && (fn == .rsq || fn == .lg2) then some (.nan, fNV)
    else if (FV.fin s n x).num = 1 then match fn with
      | .rcp | .rsq => some (.one false, 0)
      | .ex2 => some (.two, 0)
      | .lg2 => some (.zero false, 0)
      | .sin | .cos | .tanh => none
    else none

section Table
variable {fn : SFn} {ftz : Bool} {s : Bool} {n : Nat} {x : Int}

/-- The integer test of the model for the value 1. -/
theorem one_iff (hx : -200 ≤ x) (s : Bool) (n : Nat) : (!s && n * 2 ^ (x + 200).toNat == 2 ^ 200) = true ↔ (FV.fin s n x).num = 1 := by
  obtain ⟨k, hk⟩ : ∃ k : Nat, x + 200 = k := ⟨(x + 200).toNat, by omega⟩
  have hx' : x = k - 200 := by omega
  rw [hk, Int.toNat_natCast, hx', num_fin, zpow_sub₀ two_ne_zero, zpow_natCast]
  cases s with
  | true =>
    have hpos : (0 : ℚ) ≤ n * (2 ^ k / 2 ^ (200 : Int)) := by positivity
    simp only [Bool.not_true, Bool.false_and, Bool.false_eq_true, if_true, false_iff]
    intro h
    linarith
  | false =>
    have hpow : (2 : ℚ) ^ (200 : Int) = ((2 ^ 200 : Nat) : ℚ) := by norm_num
    have hne : ((2 ^ 200 : Nat) : ℚ) ≠ 0 := by positivity
    simp only [Bool.not_false, Bool.true_and, beq_iff_eq, Bool.false_eq_true, if_false, one_mul, hpow]
    rw [← mul_div_assoc, div_eq_one_iff_eq hne]
    exact_mod_cast Iff.rfl

/-- The model's table is that of R149 in binary32. -/
theorem sfnTable_eq {v : FV} (hv : ∀ s n x, v = .fin s n x → -200 ≤ x) :
    sfnTable fn v = (sfnSpecial fn v).map (fun p => (patOf fmtF32 p.1, p.2)) := by
  cases v with
  | nan s => rfl
  | inf s => cases fn <;> cases s <;> rfl
  | fin s n x =>
    have hone := one_iff (hv s n x rfl) s n
    unfold sfnTable sfnSpecial
    extract_lets inf one neg nan
    dsimp only
    by_cases h0 : n = 0
    · rw [if_pos h0, if_pos h0]
      cases fn <;> cases s <;> rfl
    rw [if_neg h0, if_neg h0]
    by_cases hneg : (s && (fn == .rsq || fn == .lg2)) = true
    · rw [if_pos hneg, if_pos hneg]
      rfl
    rw [if_neg hneg, if_neg hneg]
    by_cases h1 : (FV.fin s n x).num = 1
    · rw [if_pos h1, if_pos (hone.2 h1)]
      cases fn <;> rfl
    · rw [if_neg h1, if_neg (mt hone.1 h1)]
      rfl

theorem lo_le_of_unpackF {f : Fmt} {b : Nat} (h : unpackF f b = .fin s n x) : f.lo ≤ x := by
  have := lo_le_finMag (f := f) (fmtMag f b)
  rwa [(unpackF_eq_fin h).2.2] at this

theorem sfnTable_src (fn : SFn) (ftz : Bool) (a : Nat) :
    sfnTable fn (srcF fmtF32 ftz a) = (sfnSpecial fn (srcF fmtF32 ftz a)).map (fun p => (patOf fmtF32 p.1, p.2)) :=
  sfnTable_eq (fun _ _ _ h => (show (-200 : Int) ≤ fmtF32.lo by decide).trans (lo_le_of_unpackF h))

/-- The table goes before everything else (R149). -/
theorem sfn32_table {a : Nat} {r : FRes} (h : sfnTable fn (srcF fmtF32 ftz a) = some r) : sfn32 fn ftz a = r := by
  unfold sfn32 sfnAt
  extract_lets a' v
  have hv : sfnTable fn v = some r := h
  rw [hv]

theorem sfn32_special {a : Nat} {p : SpecialPat} {fl : Nat} (h : sfnSpecial fn (srcF fmtF32 ftz a) = some (p, fl)) :
    sfn32 fn ftz a = (patOf fmtF32 p, fl) :=
  sfn32_table (by rw [sfnTable_src, h]; rfl)

end Table
end Sys2Proof.Machine

namespace Sys2Proof.Machine

/-! ## Formats whose values are binary32 values (R112, R147) -/

section Codes
variable {f : Fmt} {s : Bool}

/-- Every multiple of a format's least step with few enough bits is a step, if exponents had no upper bound. -/
theorem exists_code {j : Nat} (hj : j < 2 ^ (f.t + 1)) {y : Int} (hy : f.lo ≤ y) : ∃ c, magOf f c = j * (2 : ℚ) ^ y := by
  obtain rfl | hj0 := Nat.eq_zero_or_pos j
  · exact ⟨0, by simp [magOf_zero]⟩
  have hlow := Nat.log2_self_le hj0.ne'
  have hhigh := Nat.lt_log2_self (n := j)
  have hi : Nat.log2 j ≤ f.t := Nat.lt_succ_iff.1 ((Nat.pow_lt_pow_iff_right (by decide)).1 (hlow.trans_lt hj))
  generalize Nat.log2 j = i at *
  obtain ⟨d, E, hE, hcase, hd⟩ : ∃ d E : Nat, y = f.lo + E + d ∧ (E = 0 ∨ i + d = f.t) ∧ i + d ≤ f.t := by
    obtain ⟨e, rfl⟩ : ∃ e : Nat, y = f.lo + e := ⟨(y - f.lo).toNat, by omega⟩
    by_cases h : e ≤ f.t - i
    · exact ⟨e, 0, by push_cast; ring, Or.inl rfl, by omega⟩
    · exact ⟨f.t - i, e - (f.t - i), by omega, Or.inr (by omega), by omega⟩
  have hpos := Nat.two_pow_pos d
  refine ⟨E * 2 ^ f.t + j * 2 ^ d, ?_⟩
  rw [magOf_steps, hE, zpow_add₀ two_ne_zero _ (d : Int), zpow_natCast]
  · push_cast
    ring
  · calc j * 2 ^ d ≤ 2 ^ (i + 1) * 2 ^ d := by gcongr
      _ = 2 ^ (i + d + 1) := by rw [← pow_add]; congr 1; omega
      _ ≤ 2 ^ (f.t + 1) := Nat.pow_le_pow_right (by decide) (by omega)
  · refine hcase.imp_right (fun h => ?_)
    rw [← h, pow_add]
    gcongr

theorem magOf_pow (hbias : 0 < f.bias) (d : Nat) : magOf f ((f.bias + d) * 2 ^ f.t) = 2 ^ d := by
  obtain ⟨b, hb⟩ := Nat.exists_eq_add_of_lt hbias
  have := magOf_normal (f := f) (Nat.two_pow_pos f.t) (b + d)
  rw [show (b + d + 1) * 2 ^ f.t + 0 = (f.bias + d) * 2 ^ f.t by rw [hb]; ring] at this
  rw [this, show f.lo + ((b + d : Nat) : Int) = d - f.t by rw [Fmt.lo]; omega, zpow_sub₀ two_ne_zero, zpow_natCast, zpow_natCast]
  push_cast
  field_simp
  simp

/-- A 16-bit format that R147 widens to binary32 and narrows again. -/
structure Fmt.Narrow (f : Fmt) : Prop where
  ne : (f == fmtF32) = false
  hasInf : f.hasInf = true
  nan : f.nan.isSome = true
  fits : f.Fits
  t_pos : 0 < f.t
  t_le : f.t ≤ fmtF32.t
  bias : 0 < f.bias
  lo : fmtF32.lo ≤ f.lo
  max : magOf f f.maxCode ≤ magOf fmtF32 fmtF32.maxCode
  two : (f.bias + 1) * 2 ^ f.t ≤ f.maxCode
  top : 1 < magOf f (f.maxCode + 1)
  mid : (magOf f f.maxCode + magOf f (f.maxCode + 1)) / 2 < magOf f (f.maxCode + 1) * (1 - (2 : ℚ) ^ (-23 : Int))

theorem narrow_f16 : fmtF16.Narrow where
  ne := by decide
  hasInf := rfl
  nan := rfl
  fits := tyFmt_fits .f16
  t_pos := by decide
  t_le := by decide
  bias := by decide
  lo := by decide
  max := by norm_num [magOf, finMag, fmtF16, fmtF32]
  two := by decide
  top := by norm_num [magOf, finMag, fmtF16]
  mid := by norm_num [magOf, finMag, fmtF16]

theorem narrow_bf16 : fmtBF16.Narrow where
  ne := by decide
  hasInf := rfl
  nan := rfl
  fits := tyFmt_fits .bf16
  t_pos := by decide
  t_le := by decide
  bias := by decide
  lo := by decide
  max := by norm_num [magOf, finMag, fmtBF16, fmtF32]
  two := by decide
  top := by norm_num [magOf, finMag, fmtBF16]
  mid := by norm_num [magOf, finMag, fmtBF16]

/-- Every step of a narrow format is one of binary32. -/
theorem Fmt.Narrow.exists_code (hN : f.Narrow) (c : Nat) : ∃ d, magOf fmtF32 d = magOf f c := by
  have hlt : (finMag f c).1 < 2 ^ (fmtF32.t + 1) := (finMag_lt c).trans_le (Nat.pow_le_pow_right (by decide) (Nat.succ_le_succ hN.t_le))
  exact Machine.exists_code hlt (hN.lo.trans (lo_le_finMag c))

/-- Every finite value of a narrow format is one of binary32. -/
theorem Fmt.Narrow.exists_fin (hN : f.Narrow) {c : Nat} (hc : c ≤ f.maxCode) : ∃ d, magOf fmtF32 d = magOf f c ∧ d ≤ fmtF32.maxCode := by
  obtain ⟨d, hd⟩ := hN.exists_code c
  have hle : magOf fmtF32 d ≤ magOf fmtF32 fmtF32.maxCode := (hd.trans_le ((magOf_strictMono f).monotone hc)).trans hN.max
  exact ⟨d, hd, (magOf_strictMono fmtF32).le_iff_le.1 hle⟩

theorem fits_f32 : fmtF32.Fits := tyFmt_fits .f32

theorem unpackF_withSign_f32 {d : Nat} (hd : d ≤ fmtF32.maxCode) (s : Bool) :
    unpackF fmtF32 (withSign fmtF32 s d) = .fin s (finMag fmtF32 d).1 (finMag fmtF32 d).2 := unpackF_withSign hd fits_f32 s

/-- A finite value of a narrow format is widened exactly. -/
theorem Fmt.Narrow.widen_fin (hN : f.Narrow) {b n : Nat} {x : Int} (hb : unpackF f b = .fin s n x) :
    ∃ d ≤ fmtF32.maxCode, magOf fmtF32 d = n * (2 : ℚ) ^ x ∧ cvtFF fmtF32 f .rne b = (withSign fmtF32 s d, 0) := by
  obtain ⟨hle, -, hfin⟩ := unpackF_eq_fin hb
  obtain ⟨d, hd, hmax⟩ := hN.exists_fin hle
  have hval : magOf fmtF32 d = n * (2 : ℚ) ^ x := by rw [hd, magOf, hfin]
  refine ⟨d, hmax, hval, ?_⟩
  unfold cvtFF
  rw [hb]
  by_cases hn : n = 0
  · have hd0 : d = 0 := (magOf_strictMono fmtF32).injective (by rw [hval, hn, magOf_zero]; simp)
    rw [hn, hd0]
    rfl
  · exact roundF_exact (by decide) hn hval.symm hmax (fun h => absurd h Bool.false_ne_true)

/-- A value of binary32 rounded to a narrow format (R147). -/
def narrowF (f : Fmt) (ftz : Bool) (v : FV) : FRes :=
  match v with
  | .nan _ => nanRes f 0
  | .inf s => infRes f s 0
  | .fin s n x => roundF f .rne ftz s n x

/-- The flags of a special function on a narrow element (R148). -/
def narrowFlags (f : Fmt) (w r b : FRes) (hit : Bool) : Nat :=
  let inex := if hit then 0 else (r.2 ||| b.2) &&& fNX
  let mag := fmtMag f b.1
  let uf := if inex != 0 && mag != 0 && mag < 2 ^ f.t then fUF else 0
  (w.2 &&& fNV) ||| (r.2 &&& (fNV ||| fDZ ||| fOF)) ||| (b.2 &&& (fOF ||| fUF)) ||| uf ||| inex

theorem sfnE_narrow {fn : SFn} {ftz : Bool} {a : Nat} {w r b : FRes} (hN : f.Narrow) (hw : cvtFF fmtF32 f .rne (ftzSrc f ftz a) = w)
    (hr : sfn32 fn false w.1 = r) (hb : narrowF f ftz (unpackF fmtF32 r.1) = b) :
    sfnE f fn ftz a = (b.1, narrowFlags f w r b (sfnHit f fn (unpackF fmtF32 w.1) b.1)) := by
  subst hw hr hb
  unfold sfnE
  rw [hN.ne]
  rfl

/-- Nothing inexact happened. -/
theorem narrowFlags_exact {w r b : FRes} (h : (r.2 ||| b.2) &&& fNX = 0) (hit : Bool) :
    narrowFlags f w r b hit = (w.2 &&& fNV) ||| (r.2 &&& (fNV ||| fDZ ||| fOF)) ||| (b.2 &&& (fOF ||| fUF)) := by
  unfold narrowFlags
  rw [h, ite_self]
  simp

end Codes
end Sys2Proof.Machine

namespace Sys2Proof.Machine

/-! ## The table of R149 and the exact powers of two, in every format -/

section Special
variable {f : Fmt} {fn : SFn} {ftz s : Bool} {n : Nat} {x : Int}

/-- A step of binary32 that is a step of a narrow format is narrowed exactly. -/
theorem narrowF_exact (hN : f.Narrow) {c d : Nat} (hd : d ≤ fmtF32.maxCode) (hval : magOf fmtF32 d = magOf f c) (hc : c ≤ f.maxCode)
    (hftz : ftz = true → c = 0 ∨ 2 ^ f.t ≤ c) (s : Bool) : narrowF f ftz (unpackF fmtF32 (withSign fmtF32 s d)) = (withSign f s c, 0) := by
  rw [unpackF_withSign_f32 hd]
  have hzero : (finMag fmtF32 d).1 = 0 ↔ c = 0 := by
    rw [finMag_eq_zero, ← (magOf_strictMono fmtF32).injective.eq_iff, hval, magOf_zero, ← magOf_zero f, (magOf_strictMono f).injective.eq_iff]
  by_cases h0 : c = 0
  · rw [h0, hzero.2 h0]
    rfl
  · exact roundF_exact hN.t_pos (mt hzero.1 h0) hval hc (fun h => (hftz h).resolve_left h0)

/-- The patterns of the table are narrowed to those of the format. -/
theorem narrowF_patOf (hN : f.Narrow) (p : SpecialPat) : narrowF f ftz (unpackF fmtF32 (patOf fmtF32 p)) = (patOf f p, 0) := by
  have hone : f.bias * 2 ^ f.t ≤ f.maxCode := (Nat.mul_le_mul_right _ (Nat.le_succ _)).trans hN.two
  have hpow : ∀ d, 2 ^ f.t ≤ (f.bias + d) * 2 ^ f.t := fun d => Nat.le_mul_of_pos_left _ (Nat.add_pos_left hN.bias d)
  cases p with
  | nan =>
    obtain ⟨c, hc⟩ := Option.isSome_iff_exists.1 hN.nan
    have hval : unpackF fmtF32 (patOf fmtF32 .nan) = .nan false := by decide
    rw [hval, narrowF, nanRes_of_some hc, patOf, hc]
    rfl
  | inf s =>
    have hval : unpackF fmtF32 (patOf fmtF32 (.inf s)) = .inf s := unpackF_inf fits_f32 rfl s
    rw [hval, narrowF, infRes, if_pos hN.hasInf]
    rfl
  | zero s => exact narrowF_exact hN (Nat.zero_le _) (by rw [magOf_zero, magOf_zero]) (Nat.zero_le _) (fun _ => Or.inl rfl) s
  | one s =>
    exact narrowF_exact hN (by decide) ((magOf_pow (by decide) 0).trans (magOf_pow hN.bias 0).symm) hone (fun _ => Or.inr (hpow 0)) s
  | two =>
    exact narrowF_exact hN (by decide) ((magOf_pow (by decide) 1).trans (magOf_pow hN.bias 1).symm) hN.two (fun _ => Or.inr (hpow 1)) false

/-- The flags of the table: none, NV or DZ. -/
theorem sfnSpecial_flags (fn : SFn) (v : FV) : (sfnSpecial fn v).all (fun q => [0, fNV, fDZ].contains q.2) = true := by
  cases v with
  | nan s => cases s <;> rfl
  | inf s => cases fn <;> cases s <;> rfl
  | fin s n x =>
    simp only [sfnSpecial]
    split
    · cases fn <;> rfl
    split
    · rfl
    split
    · cases fn <;> rfl
    · rfl

/-- The table depends on the sign and the number of a finite value only. -/
theorem sfnSpecial_congr {n' : Nat} {x' : Int} (h : (n : ℚ) * (2 : ℚ) ^ x = n' * (2 : ℚ) ^ x') :
    sfnSpecial fn (.fin s n x) = sfnSpecial fn (.fin s n' x') := by
  have hnum : (FV.fin s n x).num = (FV.fin s n' x').num := by rw [num_fin, num_fin, mul_assoc, mul_assoc, h]
  have hzero : n = 0 ↔ n' = 0 := by rw [← num_eq_zero_iff s n x, hnum, num_eq_zero_iff]
  simp only [sfnSpecial, hnum, hzero]

/-- The table in a narrow format, through binary32. -/
theorem sfnE_special_narrow (hN : f.Narrow) {a : Nat} {p : SpecialPat} {fl : Nat} (h : sfnSpecial fn (srcF f ftz a) = some (p, fl)) :
    sfnE f fn ftz a = (patOf f p, fl) := by
  have hbits : (fl ||| 0) &&& fNX = 0 ∧ (0 &&& fNV) ||| (fl &&& (fNV ||| fDZ ||| fOF)) ||| (0 &&& (fOF ||| fUF)) = fl := by
    have hfl := sfnSpecial_flags fn (srcF f ftz a)
    rw [h] at hfl
    have hmem : fl ∈ [0, fNV, fDZ] := List.contains_iff_mem.1 hfl
    fin_cases hmem <;> decide
  have hsame : ∀ {w : FRes} {v : FV}, cvtFF fmtF32 f .rne (ftzSrc f ftz a) = w → srcF fmtF32 false w.1 = v → w.2 = 0 →
      sfnSpecial fn v = some (p, fl) → sfnE f fn ftz a = (patOf f p, fl) := fun {w v} hw hv hw2 hspec => by
    rw [sfnE_narrow hN hw (sfn32_special (hv ▸ hspec)) (narrowF_patOf hN p), narrowFlags_exact, hw2]
    · exact congrArg (Prod.mk _) hbits.2
    · exact hbits.1
  have hv : srcF f ftz a = unpackF f (ftzSrc f ftz a) := rfl
  rw [hv] at h
  cases hsrc : unpackF f (ftzSrc f ftz a) with
  | nan sg =>
    rw [hsrc] at h
    obtain ⟨rfl, rfl⟩ := Prod.mk.inj (Option.some.inj h)
    have hw : cvtFF fmtF32 f .rne (ftzSrc f ftz a) = (patOf fmtF32 .nan, if sg then fNV else 0) := by rw [cvtFF, hsrc]; rfl
    have hquiet : sfnSpecial fn (srcF fmtF32 false (patOf fmtF32 .nan)) = some (.nan, 0) := by
      have hval : srcF fmtF32 false (patOf fmtF32 .nan) = .nan false := by decide
      rw [hval]
      rfl
    rw [sfnE_narrow hN hw (sfn32_special hquiet) (narrowF_patOf hN .nan), narrowFlags_exact (show (0 ||| 0) &&& fNX = 0 by decide)]
    exact congrArg (Prod.mk _) (show ((if sg then fNV else 0) &&& fNV) ||| (0 &&& (fNV ||| fDZ ||| fOF)) ||| (0 &&& (fOF ||| fUF)) =
      if sg then fNV else 0 by cases sg <;> decide)
  | inf sg =>
    have hw : cvtFF fmtF32 f .rne (ftzSrc f ftz a) = (withSign fmtF32 sg (fmtInf fmtF32), 0) := by rw [cvtFF, hsrc]; rfl
    exact hsame hw (unpackF_inf fits_f32 rfl sg) rfl (hsrc ▸ h)
  | fin sg n x =>
    obtain ⟨d, hd, hval, hw⟩ := hN.widen_fin hsrc
    rw [hsrc] at h
    exact hsame hw (unpackF_withSign_f32 hd sg) rfl ((sfnSpecial_congr hval).trans h)

/-- The table in binary32 itself. -/
theorem sfnE_special_f32 {a : Nat} {p : SpecialPat} {fl : Nat} (h : sfnSpecial fn (srcF fmtF32 ftz a) = some (p, fl)) :
    sfnE fmtF32 fn ftz a = (patOf fmtF32 p, fl) := by
  unfold sfnE
  rw [if_pos (by decide)]
  exact sfn32_special h

/-- A power of two that is a step of a format is at least its least step. -/
theorem exponent_of_code {z : Int} {k : Nat} (hk : magOf f k = (2 : ℚ) ^ z) (ht : 0 < f.t) : f.lo ≤ z := by
  have hk0 : k ≠ 0 := fun h0 => by
    rw [h0, magOf_zero] at hk
    exact absurd hk.symm (zpow_ne_zero _ two_ne_zero)
  have hle : (2 : ℚ) ^ f.lo ≤ (2 : ℚ) ^ z := by
    rw [← magOf_one ht, ← hk]
    exact (magOf_strictMono f).monotone (Nat.one_le_iff_ne_zero.2 hk0)
  exact (zpow_le_zpow_iff_right₀ one_lt_two).1 hle

/-- Rounding of an integral value gives it, exactly (R125). -/
theorem roundInt_of_int {rm : RM} {z : Int} (hz : (FV.fin s n x).num = z) (hn : n ≠ 0) : roundInt rm s n x = (z, false) := by
  obtain ⟨k, inexact, hround, hint⟩ := roundInt_spec (rm := rm) (s := s) n x
  have habs : (n : ℚ) * (2 : ℚ) ^ x = (z.natAbs : ℚ) := by rw [← abs_num_fin s, hz, Nat.cast_natAbs, Int.cast_abs]
  have hs := num_neg_iff s hn x
  rw [hz] at hs
  rw [habs] at hround
  obtain ⟨rfl, rfl⟩ := hround.exact (M := fun k : Nat => (k : ℚ)) Nat.strictMono_cast
  rw [hint]
  have hneg : z < 0 ↔ s = true := by rw [← hs]; exact_mod_cast Iff.rfl
  cases s with
  | true =>
    have := hneg.2 rfl
    simp only [if_true]
    congr 1
    omega
  | false =>
    have := mt hneg.1 Bool.false_ne_true
    simp only [Bool.false_eq_true, if_false]
    congr 1
    omega

theorem withSign_false (f : Fmt) (c : Nat) : withSign f false c = c := by simp [withSign, bit]

/-- Powers of two that binary32 represents are given exactly (R148). -/
theorem sfn32_ex2 {a k : Nat} {z : Int} (hv : srcF fmtF32 false a = .fin s n x) (hz : (FV.fin s n x).num = z) (hk : k ≤ fmtF32.maxCode)
    (hval : magOf fmtF32 k = (2 : ℚ) ^ z) : sfn32 .ex2 false a = (k, 0) := by
  have hinj := (magOf_strictMono fmtF32).injective
  by_cases hn : n = 0
  · have hz0 : z = 0 := by exact_mod_cast hz.symm.trans ((num_eq_zero_iff s n x).2 hn)
    have hspec : sfnSpecial .ex2 (srcF fmtF32 false a) = some (.one false, 0) := by rw [hv, sfnSpecial, if_pos hn]
    rw [sfn32_special hspec, patOf, withSign_false]
    congr 1
    exact hinj ((magOf_pow (f := fmtF32) (by decide) 0).trans (by rw [hval, hz0]; simp))
  by_cases h1 : (FV.fin s n x).num = 1
  · have hz1 : z = 1 := by exact_mod_cast hz.symm.trans h1
    have hspec : sfnSpecial .ex2 (srcF fmtF32 false a) = some (.two, 0) := by
      rw [hv, sfnSpecial, if_neg hn, if_neg (by cases s <;> decide), if_pos h1]
    rw [sfn32_special hspec, patOf, withSign_false]
    congr 1
    exact hinj ((magOf_pow (f := fmtF32) (by decide) 1).trans (by rw [hval, hz1]; simp))
  · have hspec : sfnSpecial .ex2 (srcF fmtF32 false a) = none := by
      rw [hv, sfnSpecial, if_neg hn, if_neg (by cases s <;> decide), if_neg h1]
    have htable : sfnTable .ex2 (srcF fmtF32 false a) = none := by rw [sfnTable_src, hspec]; rfl
    have hlo : -1000 ≤ z := (show (-1000 : Int) ≤ fmtF32.lo by decide).trans (exponent_of_code hval (by decide))
    have hround : roundF fmtF32 .rne false false 1 z = (withSign fmtF32 false k, 0) :=
      roundF_exact (by decide) one_ne_zero (by rw [hval]; simp) hk (fun h => absurd h Bool.false_ne_true)
    rw [hv] at htable
    unfold sfn32 sfnAt
    extract_lets a' v
    have hv' : v = .fin s n x := hv
    clear_value v
    subst hv'
    rw [htable]
    dsimp only
    rw [roundInt_of_int hz hn]
    dsimp only
    rw [if_pos (by decide), if_neg (not_lt.2 hlo), hround, withSign_false]

/-- The same in a narrow format. -/
theorem sfnE_ex2_narrow (hN : f.Narrow) {a k : Nat} {z : Int} (hv : srcF f false a = .fin s n x) (hz : (FV.fin s n x).num = z) (hk : k ≤ f.maxCode)
    (hval : magOf f k = (2 : ℚ) ^ z) : sfnE f .ex2 false a = (k, 0) := by
  obtain ⟨d, hd, hdval, hw⟩ := hN.widen_fin (b := ftzSrc f false a) hv
  obtain ⟨e, heval, he⟩ := hN.exists_fin hk
  have hnum : (FV.fin s (finMag fmtF32 d).1 (finMag fmtF32 d).2).num = z := by
    rw [← hz, num_fin, num_fin, mul_assoc, mul_assoc, ← hdval, magOf]
  have hr := sfn32_ex2 (unpackF_withSign_f32 hd s) hnum he (heval.trans hval)
  have hb := narrowF_exact (ftz := false) hN he heval hk (fun h => absurd h Bool.false_ne_true) false
  rw [withSign_false] at hb
  rw [sfnE_narrow hN hw hr hb, narrowFlags_exact (show (0 ||| 0) &&& fNX = 0 by decide), withSign_false]
  exact congrArg (Prod.mk k) (show (0 &&& fNV) ||| (0 &&& (fNV ||| fDZ ||| fOF)) ||| (0 &&& (fOF ||| fUF)) = 0 by decide)

end Special
end Sys2Proof.Machine

namespace Sys2Proof.Machine

/-! ## Reciprocals that overflow (R149) -/

section Overflow
variable {f : Fmt} {rm : RM} {ftz s : Bool}

/-- A magnitude at or above a step rounds to that step or a later one. -/
theorem RoundsTo.ge {M : Nat → ℚ} (hM : StrictMono M) {v : ℚ} {c c' : Nat} {inexact : Bool} (h : RoundsTo M rm s (· < v) (· = v) c' inexact)
    (hv : M c ≤ v) : c ≤ c' := by
  obtain ⟨-, heq⟩ | ⟨-, k, -, hle, hne, hup, hdown⟩ := h
  · exact hM.le_iff_le.1 (hv.trans_eq heq.symm)
  · have hlt : v < M (k + 1) := lt_of_le_of_ne (not_lt.1 hle) (Ne.symm hne)
    have hc : c < k + 1 := hM.lt_iff_lt.1 (hv.trans_lt hlt)
    by_cases hk : c' = k + 1
    · omega
    · rw [hdown (mt hup hk)]
      omega

/-- To nearest, a magnitude past the middle between the largest finite one and the next overflows (R117). -/
theorem Rounded.overflow_nearest {v : ℚ} {r : FRes} (h : Rounded f .rne ftz s (· < v) (· = v) r)
    (hv : (magOf f f.maxCode + magOf f (f.maxCode + 1)) / 2 < v) : r = ovfRes f .rne s := by
  obtain ⟨c, inexact, hround, rfl⟩ := h
  have hmono := magOf_strictMono f
  have hstep := hmono (Nat.lt_succ_self f.maxCode)
  have hmax : magOf f f.maxCode < v := by linarith
  refine if_pos ?_
  obtain ⟨-, heq⟩ | ⟨-, k, -, hle, hne, hup, hdown⟩ := hround
  · exact hmono.lt_iff_lt.1 (hmax.trans_eq heq.symm)
  · have hlt : v < magOf f (k + 1) := lt_of_le_of_ne (not_lt.1 hle) (Ne.symm hne)
    have hk : f.maxCode < k + 1 := hmono.lt_iff_lt.1 (hmax.trans hlt)
    by_cases hc : c = k + 1
    · omega
    · have hck := hdown (mt hup hc)
      obtain hk' | hk' := Nat.lt_or_ge f.maxCode k
      · omega
      · obtain rfl : k = f.maxCode := by omega
        exact absurd (hup (Or.inl hv)) hc

/-- A result that does not overflow: its code, and its flags (R117, R118, R121). -/
theorem Rounded.finite {v : ℚ} {r : FRes} (h : Rounded f rm false s (· < v) (· = v) r) : r = ovfRes f rm s ∨
    ∃ c ≤ f.maxCode, ∃ inexact, RoundsTo (magOf f) rm s (· < v) (· = v) c inexact ∧ r.1 = withSign f s c ∧
      ((inexact = false ∧ r.2 = 0) ∨ (inexact = true ∧ (r.2 = fNX ∨ r.2 = fUF ||| fNX))) := by
  obtain ⟨c, inexact, hround, rfl⟩ := h
  by_cases hmax : f.maxCode < c
  · exact Or.inl (if_pos hmax)
  · refine Or.inr ⟨c, not_lt.1 hmax, inexact, hround, ?_⟩
    rw [if_neg hmax]
    by_cases hsub : 0 < c ∧ c < 2 ^ f.t
    · rw [if_pos hsub]
      cases inexact
      · exact ⟨rfl, Or.inl ⟨rfl, rfl⟩⟩
      · exact ⟨rfl, Or.inr ⟨rfl, Or.inr rfl⟩⟩
    · rw [if_neg hsub]
      cases inexact
      · exact ⟨rfl, Or.inl ⟨rfl, rfl⟩⟩
      · exact ⟨rfl, Or.inr ⟨rfl, Or.inl rfl⟩⟩

theorem ovfRes_nearest (hi : f.hasInf = true) (s : Bool) : ovfRes f .rne s = (withSign f s (fmtInf f), fOF ||| fNX) := by
  simp [ovfRes, hi]

end Overflow

section Rcp
variable {f : Fmt} {ftz s : Bool} {n : Nat} {x : Int}

/-- The fraction bits that the model computes of a reciprocal. -/
def rcpBits (n : Nat) : Nat := 2 * (Nat.log2 n + 30)

/-- The reciprocal that the model rounds. -/
def rcpBest (s : Bool) (n : Nat) (x : Int) : FRes :=
  roundF fmtF32 .rne false s (1 <<< rcpBits n / n) (-x - (rcpBits n : Int)) (1 <<< rcpBits n % n != 0)

/-- The free pattern keeps to the sign and the bound of R147. -/
def rcpAllowed (s : Bool) (n : Nat) (x : Int) (raw : Nat) : Bool :=
  match unpackF fmtF32 raw with
  | .fin t nc xc => t == s && rcpWithin nc xc n x (quantum fmtF32 ((log2N (1 <<< rcpBits n / n) : Int) + (-x - (rcpBits n : Int))))
  | _ => false

/-- The result of `frcp` before flushing: the free pattern, or the best. -/
def rcpPick (free : Bool) (a : Nat) (s : Bool) (n : Nat) (x : Int) : Nat :=
  if !((rcpBest s n x).2 == 0) && rcpAllowed s n x (sfnRaw .rcp a) && free then sfnRaw .rcp a else (rcpBest s n x).1

theorem sfnRoot_rcp (free ftz : Bool) (a : Nat) : sfnRoot free .rcp ftz a s n x =
    if fOF &&& (rcpBest s n x).2 != 0 then ((rcpBest s n x).1, fOF ||| fNX)
    else if (rcpBest s n x).2 = 0 && rcpPick free a s n x = (rcpBest s n x).1 then
      roundF fmtF32 .rne ftz s (1 <<< rcpBits n / n) (-x - (rcpBits n : Int)) (1 <<< rcpBits n % n != 0)
    else sfnInexact ftz (rcpPick free a s n x) := rfl

theorem sfnExact_rcp : sfnExact .rcp s n x = if (rcpBest s n x).2 = 0 then some (rcpBest s n x).1 else none := rfl

theorem two_pow_le_rcp (hn : n ≠ 0) : 2 ^ (fmtF32.t + 1) ≤ 1 <<< rcpBits n / n := by
  rw [Nat.le_div_iff_mul_le (Nat.pos_of_ne_zero hn), Nat.shiftLeft_eq, one_mul]
  calc 2 ^ (fmtF32.t + 1) * n ≤ 2 ^ (fmtF32.t + 1) * 2 ^ (Nat.log2 n + 1) := Nat.mul_le_mul_left _ Nat.lt_log2_self.le
    _ ≤ 2 ^ rcpBits n := by
      rw [← pow_add]
      exact Nat.pow_le_pow_right (by decide) (by rw [rcpBits, show fmtF32.t = 23 from rfl]; omega)

theorem rcp_value (hn : n ≠ 0) (x : Int) :
    (n * (2 : ℚ) ^ x)⁻¹ = ((1 <<< rcpBits n : Nat) / n : ℚ) * (2 : ℚ) ^ (-x - (rcpBits n : Int)) := by
  rw [Nat.shiftLeft_eq, zpow_sub₀ two_ne_zero, zpow_neg, zpow_natCast]
  push_cast
  field_simp

/-- The reciprocal is rounded once, to nearest. -/
theorem rcpBest_rounded (s : Bool) (hn : n ≠ 0) (x : Int) :
    Rounded fmtF32 .rne false s (· < (n * (2 : ℚ) ^ x)⁻¹) (· = (n * (2 : ℚ) ^ x)⁻¹) (rcpBest s n x) := by
  rw [rcp_value hn]
  exact roundF_quotient (by decide) (Nat.pos_of_ne_zero hn) (two_pow_le_rcp hn) _

/-- The unit of the bound of R147 is at most a 2^-23 part of a reciprocal that is at least 1. -/
theorem rcp_quantum_le (hn : n ≠ 0) (hw : 1 ≤ (n * (2 : ℚ) ^ x)⁻¹) :
    (2 : ℚ) ^ quantum fmtF32 ((log2N (1 <<< rcpBits n / n) : Int) + (-x - (rcpBits n : Int))) ≤ (n * (2 : ℚ) ^ x)⁻¹ * (2 : ℚ) ^ (-23 : Int) := by
  have hm : 1 <<< rcpBits n / n ≠ 0 := by
    have := two_pow_le_rcp hn
    have := Nat.two_pow_pos (fmtF32.t + 1)
    omega
  have hlog : (2 : ℚ) ^ ((log2N (1 <<< rcpBits n / n) : Int) + (-x - (rcpBits n : Int))) ≤ (n * (2 : ℚ) ^ x)⁻¹ := by
    refine (log2N_bounds hm _).1.trans ?_
    calc ((1 <<< rcpBits n / n : Nat) : ℚ) * (2 : ℚ) ^ (-x - (rcpBits n : Int))
        ≤ ((1 <<< rcpBits n : Nat) / n : ℚ) * (2 : ℚ) ^ (-x - (rcpBits n : Int)) := by gcongr; exact Nat.cast_div_le
      _ = _ := (rcp_value hn x).symm
  rw [quantum_eq_max]
  obtain h | h := max_choice ((log2N (1 <<< rcpBits n / n) : Int) + (-x - (rcpBits n : Int)) - fmtF32.t) fmtF32.lo <;> rw [h]
  · rw [sub_eq_add_neg, zpow_add₀ two_ne_zero]
    exact mul_le_mul_of_nonneg_right hlog (by positivity)
  · calc (2 : ℚ) ^ fmtF32.lo ≤ (2 : ℚ) ^ (-23 : Int) := zpow_le_zpow_right₀ one_le_two (by decide)
      _ ≤ _ := le_mul_of_one_le_left (by positivity) hw

theorem le_add_of_natAbs_le {p o u : Nat} (h : ((p : Int) - (o : Int)).natAbs ≤ (u : Int).natAbs) : o ≤ p + u := by omega

/-- What the integer test of the bound says. -/
theorem rcpWithin_le {nc : Nat} {xc q : Int} (h : rcpWithin nc xc n x q = true) (hn : n ≠ 0) (hxc : -149 ≤ xc) (hx : -149 ≤ x) (hq : -149 ≤ q) :
    (n * (2 : ℚ) ^ x)⁻¹ ≤ nc * (2 : ℚ) ^ xc + (2 : ℚ) ^ q := by
  unfold rcpWithin at h
  extract_lets b p o u at h
  have hb : (700 : Int) = b := rfl
  have hbound := le_add_of_natAbs_le (p := (nc * n) <<< (xc + x + b).toNat) (o := 1 <<< b) (u := n <<< (q + x + b).toNat) (of_decide_eq_true h)
  clear_value b
  obtain ⟨i, hi⟩ : ∃ i : Nat, xc + x + b = i := ⟨(xc + x + b).toNat, by omega⟩
  obtain ⟨j, hj⟩ : ∃ j : Nat, q + x + b = j := ⟨(q + x + b).toNat, by omega⟩
  rw [hi, hj, Int.toNat_natCast, Int.toNat_natCast, Nat.shiftLeft_eq, Nat.shiftLeft_eq, Nat.shiftLeft_eq, one_mul] at hbound
  have hle : (2 : ℚ) ^ (b : Int) ≤ nc * n * (2 : ℚ) ^ (i : Int) + n * (2 : ℚ) ^ (j : Int) := by exact_mod_cast hbound
  have hpos : (0 : ℚ) < n * (2 : ℚ) ^ x := by positivity
  have hb' : (0 : ℚ) < (2 : ℚ) ^ (b : Int) := by positivity
  rw [inv_le_iff_one_le_mul₀ hpos, ← mul_le_mul_iff_left₀ hb', one_mul]
  refine hle.trans_eq ?_
  rw [← hi, ← hj, zpow_add₀ two_ne_zero, zpow_add₀ two_ne_zero, zpow_add₀ two_ne_zero _ (b : Int), zpow_add₀ two_ne_zero]
  ring

end Rcp
end Sys2Proof.Machine

namespace Sys2Proof.Machine

theorem magOf_nonneg (f : Fmt) (c : Nat) : 0 ≤ magOf f c := by
  unfold magOf
  positivity

section Large
variable {f : Fmt} {fn : SFn} {ftz s : Bool} {n : Nat} {x : Int} {a : Nat}

theorem sfn32_rcp (hv : srcF fmtF32 ftz a = .fin s n x) (hspec : sfnSpecial .rcp (.fin s n x) = none) :
    ∃ free, sfn32 .rcp ftz a = sfnRoot free .rcp ftz (ftzSrc fmtF32 ftz a) s n x := by
  have htable : sfnTable .rcp (.fin s n x) = none := by rw [← hv, sfnTable_src, hv, hspec]; rfl
  refine ⟨sfnMonotone .rcp, ?_⟩
  unfold sfn32 sfnAt
  extract_lets a' v
  have hv' : v = .fin s n x := hv
  clear_value v
  subst hv'
  rw [htable]

/-- A reciprocal past the range of binary32 overflows (R149). -/
theorem sfnRoot_rcp_overflow (hn : n ≠ 0) (hw : magOf fmtF32 (fmtF32.maxCode + 1) ≤ (n * (2 : ℚ) ^ x)⁻¹) (free : Bool) :
    sfnRoot free .rcp ftz a s n x = (withSign fmtF32 s (fmtInf fmtF32), fOF ||| fNX) := by
  have hbest := (rcpBest_rounded s hn x).overflow hw
  rw [ovfRes_nearest rfl] at hbest
  rw [sfnRoot_rcp, hbest]
  exact if_pos (show (fOF &&& (fOF ||| fNX) != 0) = true by decide)

/-- A pattern with its flags, before flushing (R118, R148). -/
theorem sfnInexact_noFtz (r : Nat) : (sfnInexact false r).1 = r ∧ ((sfnInexact false r).2 = fNX ∨ (sfnInexact false r).2 = fUF ||| fNX) := by
  unfold sfnInexact
  extract_lets mag
  split
  · exact ⟨rfl, Or.inr rfl⟩
  · exact ⟨rfl, Or.inl rfl⟩

theorem rcpAllowed_fin {raw : Nat} (h : rcpAllowed s n x raw = true) : ∃ nc xc, unpackF fmtF32 raw = .fin s nc xc ∧
    rcpWithin nc xc n x (quantum fmtF32 ((log2N (1 <<< rcpBits n / n) : Int) + (-x - (rcpBits n : Int)))) = true := by
  unfold rcpAllowed at h
  cases hraw : unpackF fmtF32 raw with
  | nan t => rw [hraw] at h; exact absurd h Bool.false_ne_true
  | inf t => rw [hraw] at h; exact absurd h Bool.false_ne_true
  | fin t nc xc =>
    rw [hraw] at h
    obtain ⟨ht, hwithin⟩ := Bool.and_eq_true_iff.1 h
    exact ⟨nc, xc, by rw [beq_iff_eq.1 ht], hwithin⟩

/-- A binary32 reciprocal that a narrow format does not hold: it overflows already, or it is a value past the middle between the largest
finite one and the next. -/
theorem sfnRoot_rcp_large (hN : f.Narrow) (hn : n ≠ 0) (hx : fmtF32.lo ≤ x) (hw : magOf f (f.maxCode + 1) ≤ (n * (2 : ℚ) ^ x)⁻¹) (free : Bool) :
    sfnRoot free .rcp false a s n x = (withSign fmtF32 s (fmtInf fmtF32), fOF ||| fNX) ∨
    ∃ nc xc, unpackF fmtF32 (sfnRoot free .rcp false a s n x).1 = .fin s nc xc ∧
      (magOf f f.maxCode + magOf f (f.maxCode + 1)) / 2 < nc * (2 : ℚ) ^ xc ∧
      ((sfnRoot free .rcp false a s n x).2 = 0 ∨ (sfnRoot free .rcp false a s n x).2 = fNX ∨ (sfnRoot free .rcp false a s n x).2 = fUF ||| fNX) := by
  have hmid : (magOf f f.maxCode + magOf f (f.maxCode + 1)) / 2 < magOf f (f.maxCode + 1) := by
    have := magOf_strictMono f (Nat.lt_succ_self f.maxCode)
    linarith
  obtain hover | ⟨c, hc, inexact, hround, hcode, hflags⟩ := (rcpBest_rounded s hn x).finite
  · rw [ovfRes_nearest rfl] at hover
    rw [sfnRoot_rcp, hover]
    exact Or.inl (if_pos (show (fOF &&& (fOF ||| fNX) != 0) = true by decide))
  refine Or.inr ?_
  obtain ⟨d, hd⟩ := hN.exists_code (f.maxCode + 1)
  have hbest : ∃ nc xc, unpackF fmtF32 (rcpBest s n x).1 = .fin s nc xc ∧ (magOf f f.maxCode + magOf f (f.maxCode + 1)) / 2 < nc * (2 : ℚ) ^ xc := by
    have hge : d ≤ c := hround.ge (magOf_strictMono fmtF32) (hd.trans_le hw)
    exact ⟨_, _, by rw [hcode, unpackF_withSign_f32 hc],
      hmid.trans_le (hd.symm.trans_le ((magOf_strictMono fmtF32).monotone hge))⟩
  have hpick : ∃ nc xc, unpackF fmtF32 (rcpPick free a s n x) = .fin s nc xc ∧
      (magOf f f.maxCode + magOf f (f.maxCode + 1)) / 2 < nc * (2 : ℚ) ^ xc := by
    unfold rcpPick
    split
    · next hallowed =>
      rw [Bool.and_eq_true, Bool.and_eq_true] at hallowed
      obtain ⟨nc, xc, hval, hwithin⟩ := rcpAllowed_fin hallowed.1.2
      refine ⟨nc, xc, hval, ?_⟩
      have hone : 1 ≤ (n * (2 : ℚ) ^ x)⁻¹ := hN.top.le.trans hw
      have hbound := rcpWithin_le hwithin hn (lo_le_of_unpackF hval) hx (by rw [quantum_eq_max]; exact le_max_right ..)
      have hunit := rcp_quantum_le hn hone
      have hpart : magOf f (f.maxCode + 1) * (1 - (2 : ℚ) ^ (-23 : Int)) ≤ (n * (2 : ℚ) ^ x)⁻¹ * (1 - (2 : ℚ) ^ (-23 : Int)) :=
        mul_le_mul_of_nonneg_right hw (by norm_num)
      linarith [hN.mid]
    · exact hbest
  have hflags' : (rcpBest s n x).2 = 0 ∨ (rcpBest s n x).2 = fNX ∨ (rcpBest s n x).2 = fUF ||| fNX :=
    hflags.imp (fun h => h.2) (fun h => h.2)
  have hquiet : (fOF &&& (rcpBest s n x).2 != 0) = false := by
    rcases hflags' with h | h | h <;> rw [h] <;> decide
  rw [sfnRoot_rcp, hquiet, if_neg Bool.false_ne_true]
  split
  · obtain ⟨nc, xc, hval, hlarge⟩ := hbest
    exact ⟨nc, xc, hval, hlarge, hflags'⟩
  · obtain ⟨nc, xc, hval, hlarge⟩ := hpick
    obtain ⟨hpat, hfl⟩ := sfnInexact_noFtz (rcpPick free a s n x)
    exact ⟨nc, xc, by rw [hpat]; exact hval, hlarge, Or.inr hfl⟩

/-- An exact reciprocal past a narrow format's range is none of its values (R148). -/
theorem sfnHit_rcp_large (hN : f.Narrow) (hn : n ≠ 0) (hw : magOf f (f.maxCode + 1) ≤ (n * (2 : ℚ) ^ x)⁻¹) (b : Nat) :
    sfnHit f .rcp (.fin s n x) b = false := by
  have hmiss : (sfnExact .rcp s n x).any (fun e => (cvtFF f fmtF32 .rne e).1 == b && (cvtFF f fmtF32 .rne e).2 == 0) = false := by
    rw [sfnExact_rcp]
    split
    · next hzero =>
      obtain hover | ⟨c, hc, inexact, hround, hcode, hflags⟩ := (rcpBest_rounded s hn x).finite
      · rw [hover, ovfRes_nearest rfl] at hzero
        exact absurd hzero (show ¬(fOF ||| fNX) = 0 by decide)
      · have hexact : inexact = false := by
          obtain ⟨h, -⟩ | ⟨-, h | h⟩ := hflags
          · exact h
          · exact absurd (h.symm.trans hzero) (by decide)
          · exact absurd (h.symm.trans hzero) (by decide)
        obtain ⟨-, heq⟩ | ⟨htrue, -⟩ := hround
        · have hc0 : (finMag fmtF32 c).1 ≠ 0 := fun h0 => by
            rw [finMag_eq_zero.1 h0, magOf_zero] at heq
            have := hN.top
            linarith
          have hover : roundF f .rne false s (finMag fmtF32 c).1 (finMag fmtF32 c).2 = (withSign f s (fmtInf f), fOF ||| fNX) := by
            rw [← ovfRes_nearest hN.hasInf]
            exact (roundF_rounded (v := magOf fmtF32 c) hN.t_pos hc0 rfl).overflow (hw.trans_eq heq.symm)
          have hcvt : cvtFF f fmtF32 .rne (rcpBest s n x).1 = (withSign f s (fmtInf f), fOF ||| fNX) := by
            rw [cvtFF, hcode, unpackF_withSign_f32 hc]
            exact hover
          rw [Option.any_some, hcvt]
          exact Bool.and_false _
        · exact absurd (htrue.symm.trans hexact) (by decide)
    · rfl
  exact (congrArg (fun v => (n != 0) && v) hmiss).trans (Bool.and_false _)

/-- The flags where a narrow result is infinite by overflow (R148). -/
theorem narrowFlags_overflow (hN : f.Narrow) {p r : Nat} {r2 b2 : Nat}
    (h : r2 = fOF ||| fNX ∧ b2 = 0 ∨ (r2 = 0 ∨ r2 = fNX ∨ r2 = fUF ||| fNX) ∧ b2 = fOF ||| fNX) :
    narrowFlags f (p, 0) (r, r2) (withSign f s (fmtInf f), b2) false = fOF ||| fNX := by
  have hmag : fmtMag f (withSign f s (fmtInf f)) = fmtInf f := fmtMag_withSign (hN.fits.inf hN.hasInf) s
  have hnormal : ¬fmtInf f < 2 ^ f.t := by
    have := hN.two
    have : 2 ^ f.t ≤ (f.bias + 1) * 2 ^ f.t := Nat.le_mul_of_pos_left _ (Nat.succ_pos _)
    rw [fmtInf]
    omega
  unfold narrowFlags
  simp only [hmag, hnormal, decide_false, Bool.and_false, Bool.false_eq_true, if_false]
  rcases h with ⟨rfl, rfl⟩ | ⟨rfl | rfl | rfl, rfl⟩ <;> decide

/-- The reciprocal of a narrow value past its format's range overflows (R149). -/
theorem sfnE_rcp_narrow (hN : f.Narrow) (hv : srcF f ftz a = .fin s n x) (hn : n ≠ 0) (hw : magOf f (f.maxCode + 1) ≤ (n * (2 : ℚ) ^ x)⁻¹) :
    sfnE f .rcp ftz a = (withSign f s (fmtInf f), fOF ||| fNX) := by
  obtain ⟨d, hd, hdval, hwide⟩ := hN.widen_fin (b := ftzSrc f ftz a) hv
  have hv' : srcF fmtF32 false (withSign fmtF32 s d) = .fin s (finMag fmtF32 d).1 (finMag fmtF32 d).2 := unpackF_withSign_f32 hd s
  have hw' : magOf f (f.maxCode + 1) ≤ ((finMag fmtF32 d).1 * (2 : ℚ) ^ (finMag fmtF32 d).2)⁻¹ := by
    rw [← hdval] at hw
    exact hw
  have hn' : (finMag fmtF32 d).1 ≠ 0 := fun h0 => by
    rw [finMag_eq_zero.1 h0, magOf_zero] at hdval
    exact absurd hdval.symm (mul_ne_zero (by exact_mod_cast hn) (zpow_ne_zero _ two_ne_zero))
  have hx' : fmtF32.lo ≤ (finMag fmtF32 d).2 := lo_le_finMag d
  have hone : ¬(FV.fin s (finMag fmtF32 d).1 (finMag fmtF32 d).2).num = 1 := fun h1 => by
    rw [← abs_num_fin s, h1, abs_one, inv_one] at hw'
    exact absurd hw' (not_le.2 hN.top)
  generalize (finMag fmtF32 d).1 = m, (finMag fmtF32 d).2 = y at *
  have hspec : sfnSpecial .rcp (.fin s m y) = none := by
    rw [sfnSpecial, if_neg hn', if_neg (by cases s <;> decide), if_neg hone]
  obtain ⟨free, hr⟩ := sfn32_rcp hv' hspec
  have hhit : ∀ b, sfnHit f .rcp (unpackF fmtF32 (withSign fmtF32 s d)) b = false := fun b => by
    have hval : unpackF fmtF32 (withSign fmtF32 s d) = .fin s m y := hv'
    rw [hval]
    exact sfnHit_rcp_large hN hn' hw' b
  obtain hover | ⟨nc, xc, hval, hlarge, hflags⟩ := sfnRoot_rcp_large (a := ftzSrc fmtF32 false (withSign fmtF32 s d)) hN hn' hx' hw' free
  · have hb : narrowF f ftz (unpackF fmtF32 (withSign fmtF32 s (fmtInf fmtF32))) = (withSign f s (fmtInf f), 0) := narrowF_patOf hN (.inf s)
    rw [sfnE_narrow hN hwide (hr.trans hover) hb, hhit, narrowFlags_overflow hN (Or.inl ⟨rfl, rfl⟩)]
  · have hb : narrowF f ftz (unpackF fmtF32 (sfnRoot free .rcp false (ftzSrc fmtF32 false (withSign fmtF32 s d)) s m y).1) =
        (withSign f s (fmtInf f), fOF ||| fNX) := by
      have hnc : nc ≠ 0 := fun h0 => by
        rw [h0, Nat.cast_zero, zero_mul] at hlarge
        linarith [hN.top, magOf_nonneg f f.maxCode]
      rw [hval, ← ovfRes_nearest hN.hasInf]
      exact (roundF_rounded (v := nc * (2 : ℚ) ^ xc) hN.t_pos hnc rfl).overflow_nearest hlarge
    rw [sfnE_narrow hN hwide hr hb, hhit]
    exact congrArg (Prod.mk _) (narrowFlags_overflow hN (Or.inr ⟨hflags, rfl⟩))

/-- The reciprocal of a binary32 value past its range overflows (R149). -/
theorem sfnE_rcp_f32 (hv : srcF fmtF32 ftz a = .fin s n x) (hn : n ≠ 0) (hw : magOf fmtF32 (fmtF32.maxCode + 1) ≤ (n * (2 : ℚ) ^ x)⁻¹) :
    sfnE fmtF32 .rcp ftz a = (withSign fmtF32 s (fmtInf fmtF32), fOF ||| fNX) := by
  have htop : (1 : ℚ) < magOf fmtF32 (fmtF32.maxCode + 1) := by norm_num [magOf, finMag, fmtF32]
  have hone : ¬(FV.fin s n x).num = 1 := fun h1 => by
    rw [← abs_num_fin s, h1, abs_one, inv_one] at hw
    exact absurd hw (not_le.2 htop)
  have hspec : sfnSpecial .rcp (.fin s n x) = none := by
    rw [sfnSpecial, if_neg hn, if_neg (by cases s <;> decide), if_neg hone]
  obtain ⟨free, hr⟩ := sfn32_rcp hv hspec
  unfold sfnE
  rw [if_pos (by decide), hr]
  exact sfnRoot_rcp_overflow hn hw free

end Large
end Sys2Proof.Machine

namespace Sys2Proof.Machine

/-! ## Every special function gives a pattern of its type -/

section SfnWidth
variable {f : Fmt} {fn : SFn} {ftz free : Bool}

theorem patOf_lt (p : SpecialPat) : patOf fmtF32 p < 2 ^ fmtW fmtF32 := by
  cases p with
  | nan => decide
  | inf s => cases s <;> decide
  | zero s => cases s <;> decide
  | one s => cases s <;> decide
  | two => decide

theorem sfnTable_lt {a : Nat} {r : FRes} (h : sfnTable fn (srcF fmtF32 ftz a) = some r) : r.1 < 2 ^ fmtW fmtF32 := by
  rw [sfnTable_src] at h
  obtain ⟨p, -, rfl⟩ := Option.map_eq_some_iff.1 h
  exact patOf_lt p.1

theorem sfnRaw_lt (fn : SFn) (a : Nat) : sfnRaw fn a < 2 ^ fmtW fmtF32 := BitVec.isLt _

theorem roundF_f32_lt (rm : RM) (ftz s : Bool) (m : Nat) (x : Int) (sticky : Bool) : (roundF fmtF32 rm ftz s m x sticky).1 < 2 ^ fmtW fmtF32 :=
  roundF_lt fits_f32 ..

theorem sfnInexact_lt {r : Nat} (h : r < 2 ^ fmtW fmtF32) : (sfnInexact ftz r).1 < 2 ^ fmtW fmtF32 := by
  unfold sfnInexact
  extract_lets mag
  split
  · split
    · exact (Nat.sub_le ..).trans_lt h
    · exact h
  · exact h

theorem fst_lt_ite {p : Prop} [Decidable p] {r r' : FRes} {w : Nat} (h : r.1 < w) (h' : r'.1 < w) : (if p then r else r').1 < w := by
  split
  · exact h
  · exact h'

theorem sfnRoot_lt (a : Nat) (s : Bool) (n : Nat) (x : Int) : (sfnRoot free fn ftz a s n x).1 < 2 ^ fmtW fmtF32 := by
  unfold sfnRoot
  generalize rootBits fn n x = bits
  obtain ⟨m, e, sticky⟩ := bits
  have hpick : ∀ b : Bool, (if b = true then sfnRaw fn a else (roundF fmtF32 .rne false s m e sticky).1) < 2 ^ fmtW fmtF32 := fun b => by
    split
    · exact sfnRaw_lt fn a
    · exact roundF_f32_lt ..
  exact fst_lt_ite (roundF_f32_lt ..) (fst_lt_ite (roundF_f32_lt ..) (sfnInexact_lt (hpick _)))

theorem sfnPick_lt (v : Int) {raw : Nat} (h : raw < 2 ^ fmtW fmtF32) : sfnPick free fn v raw < 2 ^ fmtW fmtF32 := by
  unfold sfnPick
  split
  · exact h
  · exact roundF_f32_lt ..

theorem sfnAt_lt (free : Bool) (fn : SFn) (ftz : Bool) (a : Nat) : (sfnAt free fn ftz a).1 < 2 ^ fmtW fmtF32 := by
  unfold sfnAt
  extract_lets a' v
  cases htable : sfnTable fn v with
  | some r => exact sfnTable_lt (a := a) htable
  | none =>
    cases v with
    | nan s => exact nanRes_lt fits_f32 0
    | inf s => exact nanRes_lt fits_f32 0
    | fin s n x =>
      have hpick : sfnPick free fn (sfnReal fn s n x) (sfnRaw fn a') < 2 ^ fmtW fmtF32 := sfnPick_lt _ (sfnRaw_lt fn a')
      cases fn with
      | rcp => exact sfnRoot_lt ..
      | rsq => exact sfnRoot_lt ..
      | ex2 =>
        dsimp only
        split_ifs
        · exact sfnInexact_lt (Nat.two_pow_pos _)
        · exact roundF_f32_lt ..
        · decide
        · exact sfnInexact_lt hpick
      | lg2 =>
        dsimp only
        split
        · exact hpick
        · exact sfnInexact_lt hpick
      | sin | cos | tanh => exact sfnInexact_lt hpick

theorem narrowF_lt (hf : f.Fits) (v : FV) : (narrowF f ftz v).1 < 2 ^ fmtW f := by
  cases v with
  | nan => exact nanRes_lt hf 0
  | inf s => exact infRes_lt hf s 0
  | fin s n x => exact roundF_lt hf ..

end SfnWidth

/-- The formats of the special functions: binary32, and the two that are widened to it (R147). -/
theorem sfn_formats {ty : Ty} (h : ty = .f32 ∨ ty = .f16 ∨ ty = .bf16 ∨ ty = .f32x2 ∨ ty = .f16x4 ∨ ty = .bf16x4) :
    (tyFmt ty = fmtF32 ∨ (tyFmt ty).Narrow) ∧ tyFlt ty = true := by
  rcases h with rfl | rfl | rfl | rfl | rfl | rfl
  · exact ⟨Or.inl rfl, rfl⟩
  · exact ⟨Or.inr narrow_f16, rfl⟩
  · exact ⟨Or.inr narrow_bf16, rfl⟩
  · exact ⟨Or.inl rfl, rfl⟩
  · exact ⟨Or.inr narrow_f16, rfl⟩
  · exact ⟨Or.inr narrow_bf16, rfl⟩

section Formats
variable {f : Fmt} (hf : f = fmtF32 ∨ f.Narrow)
include hf

theorem sfnE_lt (fn : SFn) (ftz : Bool) (a : Nat) : (sfnE f fn ftz a).1 < 2 ^ fmtW f := by
  obtain rfl | hN := hf
  · unfold sfnE
    rw [if_pos (by decide)]
    exact sfnAt_lt ..
  · rw [sfnE_narrow hN rfl rfl rfl]
    exact narrowF_lt hN.fits _

theorem sfnE_special {fn : SFn} {ftz : Bool} {a : Nat} {p : SpecialPat} {fl : Nat} (h : sfnSpecial fn (srcF f ftz a) = some (p, fl)) :
    sfnE f fn ftz a = (patOf f p, fl) := by
  obtain rfl | hN := hf
  · exact sfnE_special_f32 h
  · exact sfnE_special_narrow hN h

theorem sfnE_ex2 {a n k : Nat} {s : Bool} {x z : Int} (hv : srcF f false a = .fin s n x) (hz : (FV.fin s n x).num = z) (hk : k ≤ f.maxCode)
    (hval : magOf f k = (2 : ℚ) ^ z) : sfnE f .ex2 false a = (k, 0) := by
  obtain rfl | hN := hf
  · unfold sfnE
    rw [if_pos (by decide)]
    exact sfn32_ex2 hv hz hk hval
  · exact sfnE_ex2_narrow hN hv hz hk hval

theorem sfnE_rcp {a n : Nat} {ftz s : Bool} {x : Int} (hv : srcF f ftz a = .fin s n x) (hn : n ≠ 0)
    (hw : magOf f (f.maxCode + 1) ≤ (n * (2 : ℚ) ^ x)⁻¹) : sfnE f .rcp ftz a = (withSign f s (fmtInf f), fOF ||| fNX) := by
  obtain rfl | hN := hf
  · exact sfnE_rcp_f32 hv hn hw
  · exact sfnE_rcp_narrow hN hv hn hw

end Formats

/-- Settles O14: the table of R149 is one table of signs and numbers (`sfnSpecial`) for all formats, which widening to binary32 and
narrowing again respects; exact powers of two and reciprocals past the range follow from the rounding of R116. -/
theorem specialFunctions : Obligations.SpecialFunctions := by
  intro m hty f inf zero one inv fn
  obtain ⟨hf, hflt⟩ := sfn_formats hty
  have hnan : ∀ fl, nanRes f fl = (patOf f .nan, fl) := fun fl => by
    obtain ⟨c, hc⟩ := Option.isSome_iff_exists.1 (tyFlt_fmt hflt).1
    rw [nanRes_of_some hc, patOf, hc]
    rfl
  refine ⟨sfnE f fn m.ftz, fun a => ?_, fun o s t c h hr => ?_⟩
  · have hspecial : ∀ {p : SpecialPat} {fl : Nat}, sfnSpecial fn (srcF f m.ftz a) = some (p, fl) → sfnE f fn m.ftz a = (patOf f p, fl) :=
      sfnE_special hf
    simp only [inv, hnan]
    generalize hv : srcF f m.ftz a = v at hspecial ⊢
    cases v with
    | nan sg => cases fn <;> exact hspecial rfl
    | inf sg =>
      cases fn with
      | rsq | ex2 | lg2 => cases sg <;> exact hspecial rfl
      | rcp | sin | cos | tanh => exact hspecial rfl
    | fin sg n x =>
      refine ⟨fun hn => ?_, fun h1 => ?_, fun hneg hfn => ?_, fun hfn hftz z k hz hk hval => ?_, fun hfn hne hw => ?_⟩
      · cases fn <;> exact hspecial (if_pos hn)
      · have hn : n ≠ 0 := fun h0 => by
          rw [(num_eq_zero_iff sg n x).2 h0] at h1
          exact zero_ne_one h1
        have hpos : ¬(sg && (fn == .rsq || fn == .lg2)) = true := fun hs => by
          have := (num_neg_iff sg hn x).2 (Bool.and_eq_true_iff.1 hs).1
          linarith
        cases fn with
        | rcp | rsq | ex2 | lg2 => exact hspecial ((if_neg hn).trans ((if_neg hpos).trans (if_pos h1)))
        | sin | cos | tanh => trivial
      · have hn : n ≠ 0 := fun h0 => by
          rw [(num_eq_zero_iff sg n x).2 h0] at hneg
          exact lt_irrefl 0 hneg
        have hs := (num_neg_iff sg hn x).1 hneg
        exact hspecial ((if_neg hn).trans (if_pos (by rcases hfn with rfl | rfl <;> rw [hs] <;> rfl)))
      · subst hfn
        rw [hftz] at hv ⊢
        exact sfnE_ex2 hf hv hz hk hval
      · subst hfn
        rw [abs_num_fin] at hw
        exact sfnE_rcp hf hv (mt (num_eq_zero_iff sg n x).2 hne) hw
  · have hgives : ∀ i, exec i s = aluRun o {} s (fun r l => fltMap m.ty (fun k => sfnE f fn m.ftz (r.ea m.ty l k))) →
        GivesFloat i o s t c h m.ty (fun l n r => r = sfnE f fn m.ftz (s.srcElem t c l o m.ty o.a.op n)) := fun i hexec =>
      givesFloat_of_fltMap hexec hr (fun l k => ⟨fmtW_eq_tyW hflt ▸ sfnE_lt hf fn m.ftz _, rfl⟩)
    cases fn <;> exact hgives _ rfl

end Sys2Proof.Machine
